-- ==== Sys2Proof/Word.lean ====
section
/-! DEFINITION. The word types of the KU-2406 (R4, R20, R169). -/

namespace Sys2Proof

/-- A byte of any memory (R4). -/
abbrev Byte := BitVec 8
/-- A 32-bit instruction or literal word (R33, R44). -/
abbrev IWord := BitVec 32
/-- A scalar queue entry, loop register or system register (R20, R53). -/
abbrev Word := BitVec 64
/-- The 512 bytes of a vector queue entry, element 0 in the low bits (R169). -/
abbrev VBits := BitVec 4096
/-- A mask register (R20). -/
abbrev MaskBits := BitVec 1024
/-- An offset in an instruction-memory plane of 32 KiB (R45). -/
abbrev Offset := BitVec 15

end Sys2Proof
end

