-- ==== Sys2Proof/Syntax.lean ====
section
/-! DEFINITION. The instructions and steps of spec/opcode_table.json as data: operands, forms, and the one inductive
Instr with a constructor for each row. Rows with an encoding carry their operands; event rows carry what the part or the
outside world brings to the step (log 1). -/

namespace Sys2Proof

/-- The four sequencers of a core (R19). -/
inductive SeqId where | ctl | ld | cmp | st
deriving DecidableEq, Repr

/-- The token field (R34): pop upstream, pop downstream, push upstream, push downstream. -/
structure Tok where
  wu : Bool
  wd : Bool
  pu : Bool
  pd : Bool
deriving DecidableEq, Repr

/-- No token bit set. -/
def Tok.none : Tok := ⟨false, false, false, false⟩

/-- A source operand code (R40); codes 0x3C and 0x3D are reserved. -/
inductive Src where
  | pop (q : BitVec 4)
  | peek (q : BitVec 4)
  | imm (v : BitVec 4)
  | loop (k : BitVec 3)
  | zero
  | lane
  | grp
  | core
  | lit32 (v : BitVec 32)
  | lit64 (v : BitVec 64)
deriving DecidableEq, Repr

/-- The mask registers that can be written, m1 to m7 (R20, R42): `m k` is m(k+1). -/
inductive Dst where
  | queue (q : BitVec 4)
  | loop (k : BitVec 3)
  | mask (k : Fin 7)
  | discard
deriving DecidableEq, Repr

/-- The number formats and their type tags (R169). -/
inductive Fmt where
  | i4 | n4 | i8 | n8 | i16 | i32 | f4 | f6a | f6b | f8a | f8b | bf16 | f16 | f32 | e8 | b
deriving DecidableEq, Repr

/-- Rounding modes (R174). -/
inductive Rnd where | rne | rtz | rdn | rup | sr
deriving DecidableEq, Repr

/-- ADD and SUB: wrapping, signed or unsigned saturating (R103). -/
inductive SatMode where | wrap | ss | us
deriving DecidableEq, Repr
/-- MUL forms (R104). -/
inductive MulForm where | low | w | hs | hu | ss
deriving DecidableEq, Repr
/-- DIV forms (R105). -/
inductive DivForm where | s | u | rs | ru
deriving DecidableEq, Repr
/-- Shift forms of SHF and VSHF (R107, R205). -/
inductive ShiftOp where | sll | srl | sra | rol | ror
deriving DecidableEq, Repr
/-- Relations of CMP (R108). -/
inductive CmpOp where | eq | ne | lt | ge | ltu | geu
deriving DecidableEq, Repr
/-- Forms of MINMAX (R110). -/
inductive MinMaxOp where | mins | maxs | minu | maxu
deriving DecidableEq, Repr
/-- Forms of BITS (R111). -/
inductive BitsOp where | pcnt | clz | ctz | brev | bswap | bfx | bfxs
deriving DecidableEq, Repr
/-- Forms of AGEN (R114). -/
inductive AgenOp where | glb | blk | blkn | loc | x1 | x2 | x4 | x8 | x16 | x64 | x512 | x4k
deriving DecidableEq, Repr
/-- Forms of EXT (R112). -/
inductive ExtOp where | s8 | s16 | s32 | z8 | z16 | z32 | pack
deriving DecidableEq, Repr
/-- Forms of LMOV (R84). -/
inductive LmovOp where | cnt | idx | kind | lvls
deriving DecidableEq, Repr
/-- Access sizes of format M (R38): 4, 8 and 512 bytes. -/
inductive MSize where | b4 | b8 | b512
deriving DecidableEq, Repr
/-- The three keyed spaces, as LOC and the key instructions code them (R133, R148). -/
inductive Space where | glb | dev | blk
deriving DecidableEq, Repr
/-- Forms of BFRE other than .close, which has a row of its own (R297). -/
inductive BfreOp where | rng | lyrs | all
deriving DecidableEq, Repr
/-- Forms of BQRY (R299). -/
inductive BqryOp where | blk | map | hdl | pool | quota
deriving DecidableEq, Repr
/-- Forms of VMNX (R201). -/
inductive MnxOp where | min | max | minn | maxn
deriving DecidableEq, Repr
/-- Relations of VCMP (R202). -/
inductive VcmpOp where | eq | ne | lt | le | gt | ge | un
deriving DecidableEq, Repr
/-- Forms of VLOG (R204). -/
inductive VlogOp where | and | or | xor | andn | not
deriving DecidableEq, Repr
/-- Forms of VPRM (R206). -/
inductive VprmOp where | idx | rot | rev | zlo | zhi | uev | uod
deriving DecidableEq, Repr
/-- Operations of VRED and VSCN (R211, R212). -/
inductive RedOp where | add | adds | max | min
deriving DecidableEq, Repr
/-- Forms of VMSK (R216). -/
inductive VmskOp where | and | or | xor | andn | not | pcnt | ffs | fromv
deriving DecidableEq, Repr
/-- Special functions (R214). -/
inductive SfaOp where | exp2 | log2
deriving DecidableEq, Repr
inductive SfbOp where | rcp | rsqrt | sqrt
deriving DecidableEq, Repr
inductive SfcOp where | tanh | sigm | silu | gelu
deriving DecidableEq, Repr
/-- Forms of RNDM (R190). -/
inductive RndmOp where | b32 | b8 | unif | unifb
deriving DecidableEq, Repr
/-- Operations of CACC (R274). -/
inductive AccOp where | add | min | max | minu | maxu | and | or | xor | swap | cas | load
deriving DecidableEq, Repr
/-- Sources of RLYS (R305). -/
inductive RlySrc where | loc | glb | dev
deriving DecidableEq, Repr
/-- Scopes (R157). -/
inductive Scope where | core | clu | die | pkg | fab
deriving DecidableEq, Repr
/-- Orders of FENCE (R158) and, with rlx, of CACC (R273). -/
inductive Order where | acq | rel | ar | sc | rlx
deriving DecidableEq, Repr
/-- Image widths of WLD (R227). -/
inductive WldWidth where | b8 | b16
deriving DecidableEq, Repr
/-- The system registers by number (R53). -/
inductive SysReg where
  | trapcause | trappc | trapinfo | status | ctxid | grpid | corelog | dieid | dieclass | harvest | cycles | wdlimit
  | srseed | chkrow | cellmap
deriving DecidableEq, Repr

/-- A queue named by a raw selector (R87, R270). -/
structure QSel where
  vec : Bool
  q : BitVec 4
deriving DecidableEq, Repr

/-- VBRD broadcasts one element of a vector, or a scalar under a tag (R207). -/
inductive VbrdForm where
  | e (a b : Src)
  | x (a : Src) (fmt : Fmt)
deriving DecidableEq, Repr

/-- The operands of VMSK by form (R216): raw mask numbers m0 to m7, or the vector queue of .fromv. -/
inductive VmskForm where
  | two (f : VmskOp) (ma mb : BitVec 3)
  | one (f : VmskOp) (ma : BitVec 3)
  | fromv (a : Src)
deriving DecidableEq, Repr

/-- FENCE is plain, or adds to a flag of the global (false) or device (true) space (R159). -/
inductive FenceForm where
  | plain
  | flag (dev : Bool) (a b : Src)
deriving DecidableEq, Repr

/-- The header fields of a clause (R36 format H, R233): rows is M = 8 × (rows + 1). -/
structure MxHeader where
  afmt : Fmt
  bfmt : Fmt
  ofmt : Fmt
  sparse : Bool
  grp : Bool
  rows : BitVec 6
deriving DecidableEq, Repr

/-! ### What the event rows carry -/

/-- An error found while a slice is re-encoded (R138): offset in the slice, bits corrected, or uncorrectable. -/
structure SramErr where
  offset : Nat
  bits : Nat
  syndrome : BitVec 32
  uc : Bool
deriving DecidableEq, Repr

/-- What the spare check row finds for a pass (R242, R243). -/
inductive SpareOutcome where
  | agrees
  | transient (col : Nat)
  | replaces (col : Nat)
  | neither (col : Nat)
  | testFails
deriving DecidableEq, Repr

/-- What an error brings to its bank (R390, R391): address, owner of the storage, tile, bits and syndrome; seq names the
sequencer whose plane an address with bit 63 set lies in. -/
structure ErrInfo where
  addr : Word
  seq : BitVec 2
  ctx : Option (BitVec 6)
  tile : BitVec 6
  bits : BitVec 8
  syndrome : BitVec 32
deriving DecidableEq, Repr

/-- An uncorrectable error: byRead says that the next read of its words is the first to find it (R395, R396). -/
structure ErrFind where
  info : ErrInfo
  byRead : Bool
deriving DecidableEq, Repr

/-- What bring-up finds on each die (R419): firmware digest and whether it verifies, and the cores that pass. -/
structure DieBoot where
  digest : BitVec 256
  verified : Bool
  logicOk : Bool
  cores : BitVec 36
  linked : Bool
  badFrames : List (Nat × Nat)
deriving DecidableEq, Repr

/-- What package reset meets: trust firmware, six dies, package number, debug token, first frame of the pools, and whether
die 0's Erhirum link trains (R419). -/
structure BootInput where
  trustDigest : BitVec 256
  trustVerified : Bool
  dies : List DieBoot
  package : BitVec 10
  packages : List (BitVec 10)
  debugToken : Bool
  poolFirst : Nat
  module : Bool
  hostLink : Bool
deriving DecidableEq, Repr

/-- The fields of CREATE (R425): pages are (physical base, length) of the device memory, tables the page-table bytes. -/
structure CreateCmd where
  ctx : BitVec 6
  func : BitVec 4
  root : Nat
  pages : List (Nat × Nat)
  tables : List (Nat × BitVec 8)
  quotas : List (Nat × Nat × Nat)
  saveBase : BitVec 64
  slots : Nat
  lossAddr : BitVec 64
  fabric : Bool
  publishers : List (BitVec 256)
deriving DecidableEq, Repr

/-- A mailbox command (R424). -/
inductive MailCmd where
  | create (a : CreateCmd)
  | destroy (ctx : BitVec 6)
  | setcfg (smax fmin cap : Nat)
  | verify (ctx : BitVec 6) (header leaves sig : BitVec 64)
  | dropm (ctx : BitVec 6) (slot : Nat)
deriving DecidableEq, Repr

/-- A feed-forward end that another package's RELAY node names here (R301, R363): for each direction, into the attention end
and into this one, log2 slots, log2 slot size, initial permits, and the offset of this end's ring in its slice. -/
structure PeerBind where
  chan : Nat
  pkg : BitVec 10
  ctx : BitVec 6
  die : Nat
  col : Nat
  attSlots : Nat
  attSize : Nat
  attP0 : Nat
  ffSlots : Nat
  ffSize : Nat
  ffP0 : Nat
  ffOff : Nat
deriving DecidableEq, Repr

/-- Who asks another package for an access (R404, R411): the issuer's context, its group as one number of its package, its
mode and its core. -/
structure Asker where
  ctx : BitVec 6
  grp : Nat
  sv : Bool
  core : Nat
deriving DecidableEq, Repr

/-- The remote runs of a copy (R267, R407): their space, whether they are written, the base, the counts, the strides. -/
structure FarRuns where
  dev : Bool
  store : Bool
  base : Nat
  n0 : Nat
  n1 : Nat
  n2 : Nat
  str1 : Int
  str2 : Int
deriving DecidableEq, Repr

/-- A collective table as members compare it (R413, R416): its header words without dbase, and its list. -/
structure GroupTable where
  words : List Word
  members : List (BitVec 10)
deriving DecidableEq, Repr

/-- What a member sends its parent for a chunk (R416, R417): its table, how many members are live in its run, whether its subtree
rebuilt the tree, and its partial; with no partial it tells any member that its CLRD has begun. -/
structure ChildWord where
  table : GroupTable
  live : Nat
  rebuilt : Bool
  data : Option (List Byte)
deriving DecidableEq, Repr

/-- What the root sends a member for a chunk (R416, R417): its result or its confirmation, with how many members are live in the
run and whether the tree was rebuilt; or what any member sends that has found tables that differ. -/
inductive RootWord where
  | result (live : Nat) (rebuilt : Bool) (data : List Byte)
  | mismatch
  | confirmed (live : Nat) (rebuilt : Bool)
deriving DecidableEq, Repr

/-- A request of another package for a peer context here (R407, R409, R411). -/
inductive PeerReq where
  | check (who : Asker) (runs : List FarRuns)
  | read (who : Asker) (dev : Bool) (addr len : Nat)
  | write (who : Asker) (dev : Bool) (addr : Nat) (data : List Byte)
  | admission (who : Asker) (op : AccOp) (w32 dev : Bool) (addr : Nat)
  | acc (who : Asker) (op : AccOp) (w32 dev : Bool) (addr : Nat) (operand comparand : Word) (scope : Scope) (order : Order)
  | ticket (who : Asker) (addr : Nat) (ticket : BitVec 16)
  | retn (who : Asker) (addr : Nat)
  | lend (who : Asker) (addr : Nat) (agent : Word) (parks : Bool)
  | query (ctx : BitVec 6) (addr : Nat)
  | permit (chan : Nat) (n : Nat)
  | payload (chan : Nat) (slot : Nat) (data : List Byte)
  | bind (b : PeerBind)
  | unbind (chan : Nat)
deriving DecidableEq, Repr

/-- The instructions and events of the opcode table, one constructor per row. -/
inductive Instr where
  -- CTL (R77)
  | nop (t : Tok)
  | brcNz (t : Tok) (q : BitVec 4) (p : BitVec 16)
  | brcZ (t : Tok) (q : BitVec 4) (p : BitVec 16)
  | jmp (t : Tok) (p : BitVec 16)
  | call (t : Tok) (q : BitVec 4) (p : BitVec 16)
  | ret (t : Tok) (a : Src)
  | loop (t : Tok) (k : BitVec 3) (p : BitVec 16)
  | lbrk (t : Tok) (a : Src) (n : BitVec 3)
  | tkw (t : Tok) (a : Src) (chk down : Bool)
  | tks (t : Tok) (a : Src) (down : Bool)
  | qopCnt (t : Tok) (d : Dst) (q : QSel)
  | qopDrop (t : Tok) (q : QSel)
  | qopClr (t : Tok) (q : QSel)
  | qopTcnt (t : Tok) (d : Dst) (down : Bool)
  | lmov (t : Tok) (d : Dst) (f : LmovOp) (a : Src)
  | clh (t : Tok) (a : Src) (abs : Bool)
  | yield (t : Tok)
  | exit (t : Tok)
  | sleep (t : Tok) (a : Src)
  -- INT (R102)
  | add (t : Tok) (d : Dst) (m : SatMode) (w : Bool) (a b : Src)
  | sub (t : Tok) (d : Dst) (m : SatMode) (w : Bool) (a b : Src)
  | mul (t : Tok) (d : Dst) (f : MulForm) (a b : Src)
  | div (t : Tok) (d : Dst) (f : DivForm) (w : Bool) (a b : Src)
  | and (t : Tok) (d : Dst) (n : Bool) (a b : Src)
  | or (t : Tok) (d : Dst) (n : Bool) (a b : Src)
  | xor (t : Tok) (d : Dst) (n : Bool) (a b : Src)
  | shf (t : Tok) (d : Dst) (f : ShiftOp) (w : Bool) (a b : Src)
  | cmp (t : Tok) (d : Dst) (f : CmpOp) (w : Bool) (a b : Src)
  | sel (t : Tok) (d : Dst) (z : Bool) (q : BitVec 3) (a b : Src)
  | minmax (t : Tok) (d : Dst) (f : MinMaxOp) (a b : Src)
  | bits (t : Tok) (d : Dst) (f : BitsOp) (a b : Src)
  | agen (t : Tok) (d : Dst) (f : AgenOp) (a b : Src)
  | li (t : Tok) (d : Dst) (i : BitVec 16)
  | ext (t : Tok) (d : Dst) (f : ExtOp) (a b : Src)
  -- MEM (R118, R291)
  | ldl (t : Tok) (q : BitVec 4) (a : Src) (m : BitVec 8) (s : MSize)
  | stl (t : Tok) (pk : Bool) (q : BitVec 4) (a : Src) (m : BitVec 8) (s : MSize)
  | ldg (t : Tok) (q : BitVec 4) (a : Src) (m : BitVec 8) (s : MSize)
  | stg (t : Tok) (pk : Bool) (q : BitVec 4) (a : Src) (m : BitVec 8) (s : MSize)
  | ldd (t : Tok) (q : BitVec 4) (a : Src) (m : BitVec 8) (s : MSize)
  | std (t : Tok) (pk : Bool) (q : BitVec 4) (a : Src) (m : BitVec 8) (s : MSize)
  | ldb (t : Tok) (q : BitVec 4) (a : Src) (m : BitVec 8) (s : MSize)
  | stb (t : Tok) (pk : Bool) (q : BitVec 4) (a : Src) (m : BitVec 8) (s : MSize)
  | pfd (t : Tok) (a : Src) (m : BitVec 8)
  | loc (t : Tok) (d : Dst) (f : Space) (a : Src)
  | bopn (t : Tok) (d : Dst) (a b : Src)
  | bshr (t : Tok) (d : Dst) (a b : Src)
  | bfre (t : Tok) (d : Dst) (f : BfreOp) (a b : Src)
  | bfreClose (t : Tok) (d : Dst) (a : Src)
  | binv (t : Tok) (d : Dst) (all : Bool) (a b : Src)
  | bqry (t : Tok) (d : Dst) (f : BqryOp) (a : Src)
  | bgrw (t : Tok) (d : Dst) (a b : Src)
  | bgrwRel (t : Tok) (d : Dst) (a b : Src)
  -- MAT on P-dies (R222)
  | leaseAcq (t : Tok) (d : Dst)
  | leaseRel (t : Tok)
  | wld (t : Tok) (ks : Bool) (w : WldWidth) (dev : Bool) (a : Src)
  | wswp (t : Tok)
  | mxh (t : Tok) (h : MxHeader)
  | mxa (t : Tok) (sc : Bool) (a b : Src)
  | mxsq (t : Tok) (a b : Src)
  | mxmd (t : Tok) (a : Src)
  | mxgr (t : Tok) (g : BitVec 2) (a b : Src)
  | mxdr (t : Tok) (m : Rnd) (a b : Src)
  | mxdrKeep (t : Tok)
  | mxz (t : Tok) (both : Bool)
  -- MAT on D-dies (R249)
  | mvk (t : Tok) (g : BitVec 2) (a b : Src)
  | mvq (t : Tok) (d : Dst) (msk : Bool) (a b : Src)
  | mvv (t : Tok) (msk : Bool) (q : BitVec 3) (a b : Src)
  | mvm (t : Tok) (a : Src)
  | mvmOff (t : Tok)
  | mvd (t : Tok) (d : Dst) (m : Rnd) (f : Fmt) (a : Src)
  -- VEC (R197)
  | vadd (t : Tok) (d : Dst) (sat : Bool) (m : Rnd) (a b : Src)
  | vsub (t : Tok) (d : Dst) (sat : Bool) (m : Rnd) (a b : Src)
  | vmul (t : Tok) (d : Dst) (sat : Bool) (m : Rnd) (a b : Src)
  | vfma (t : Tok) (d : Dst) (neg : Bool) (q : BitVec 3) (a b : Src)
  | vmnx (t : Tok) (d : Dst) (f : MnxOp) (a b : Src)
  | vcmp (t : Tok) (d : Dst) (sig : Bool) (c : VcmpOp) (a b : Src)
  | vsel (t : Tok) (d : Dst) (inv : Bool) (k : BitVec 3) (a b : Src)
  | vlog (t : Tok) (d : Dst) (f : VlogOp) (a b : Src)
  | vshf (t : Tok) (d : Dst) (f : ShiftOp) (a b : Src)
  | vprm (t : Tok) (d : Dst) (f : VprmOp) (a b : Src)
  | vred (t : Tok) (d : Dst) (f : RedOp) (a b : Src)
  | vwid (t : Tok) (d : Dst) (g : Fmt) (a : Src)
  | vnar (t : Tok) (d : Dst) (sat : Bool) (g : Fmt) (a : Src)
  | vbrd (t : Tok) (d : Dst) (x : VbrdForm)
  | vmsk (t : Tok) (d : Dst) (f : VmskForm)
  | vscn (t : Tok) (d : Dst) (ex : Bool) (f : RedOp) (a : Src)
  -- FNC (R182, R197)
  | cvt (t : Tok) (d : Dst) (sat : Bool) (m : Rnd) (g : Fmt) (a : Src)
  | mxq (t : Tok) (d : Dst) (m : Rnd) (g : Fmt) (a : Src)
  | mxx (t : Tok) (d : Dst) (g : Fmt) (a b : Src)
  | srsdSet (t : Tok) (a b : Src)
  | srsdStep (t : Tok) (d : Dst)
  | sfa (t : Tok) (d : Dst) (f : SfaOp) (a : Src)
  | sfb (t : Tok) (d : Dst) (f : SfbOp) (a : Src)
  | sfc (t : Tok) (d : Dst) (f : SfcOp) (a : Src)
  | smxs (t : Tok) (d : Dst) (lg : BitVec 2) (a b : Src)
  | vlane (t : Tok) (d : Dst) (a b : Src)
  | vidx (t : Tok) (d : Dst) (g : Fmt) (a b : Src)
  | fcls (t : Tok) (d : Dst) (a : Src)
  | fsc (t : Tok) (d : Dst) (xp : Bool) (m : Rnd) (a b : Src)
  | rndm (t : Tok) (d : Dst) (f : RndmOp)
  | vdot (t : Tok) (d : Dst) (neg : Bool) (q : BitVec 3) (a b : Src)
  -- XFR (R265, R305, R320, R428)
  | cpy (t : Tok) (a : Src)
  | cacc (t : Tok) (d : Dst) (f : AccOp) (a b : Src)
  | cwt (t : Tok) (d : Dst) (a : Src)
  | cwtTest (t : Tok) (d : Dst) (a : Src)
  | cbnd (t : Tok) (q : QSel) (a b : Src)
  | cbndOff (t : Tok) (a : Src)
  | rini (t : Tok) (d : Dst) (a b : Src)
  | rqry (t : Tok) (d : Dst) (a : Src)
  | rwfl (t : Tok) (d : Dst) (a b : Src)
  | rwfr (t : Tok) (d : Dst) (a b : Src)
  | rclm (t : Tok) (d : Dst) (a b : Src)
  | rpub (t : Tok) (a b : Src)
  | rrel (t : Tok) (a b : Src)
  | rlys (t : Tok) (d : Dst) (s : RlySrc) (a b : Src)
  | rlyg (t : Tok) (d : Dst) (a b : Src)
  | rlygAdd (t : Tok) (d : Dst) (a b : Src)
  | rlygRet (t : Tok) (d : Dst) (a b : Src)
  | rlyw (t : Tok) (d : Dst) (a b : Src)
  | hoff (t : Tok) (d : Dst) (a : Src)
  | hctlSeal (t : Tok) (d : Dst) (a : Src)
  | hctlCommit (t : Tok) (d : Dst) (a : Src)
  | hctlCancel (t : Tok) (d : Dst) (a : Src)
  | hctlQry (t : Tok) (d : Dst) (a b : Src)
  | hctlDrop (t : Tok) (d : Dst) (a : Src)
  | cwld (t : Tok) (d : Dst) (a : Src)
  -- SYS (R148, R159, R364, R368, R402, R415)
  | lendGrp (t : Tok) (d : Dst) (s : Space) (a b : Src)
  | lendPark (t : Tok) (d : Dst) (s : Space) (a b : Src)
  | retn (t : Tok) (d : Dst) (s : Space) (a : Src)
  | splitAddr (t : Tok) (d : Dst) (s : Space) (a b : Src)
  | splitRd (t : Tok) (d : Dst) (s : Space) (a b : Src)
  | splitWr (t : Tok) (d : Dst) (s : Space) (a b : Src)
  | splitCmn (t : Tok) (d : Dst) (s : Space) (a : Src)
  | joinAddr (t : Tok) (d : Dst) (s : Space) (a b : Src)
  | joinShr (t : Tok) (d : Dst) (s : Space) (a : Src)
  | joinCmn (t : Tok) (d : Dst) (s : Space) (a : Src)
  | joinRing (t : Tok) (d : Dst) (s : Space) (a : Src)
  | keywArr (t : Tok) (d : Dst) (s : Space) (a : Src)
  | keywTkt (t : Tok) (d : Dst) (s : Space) (a b : Src)
  | keywFree (t : Tok) (d : Dst) (s : Space) (a : Src)
  | keyq (t : Tok) (d : Dst) (s : Space) (a : Src)
  | fence (t : Tok) (c : Scope) (o : Order) (f : FenceForm)
  | trap (t : Tok) (a : Src)
  | tret (t : Tok)
  | srr (t : Tok) (d : Dst) (r : SysReg)
  | srw (t : Tok) (r : SysReg) (b : Src)
  | lnchNode (t : Tok) (d : Dst) (a : Src)
  | lnchReq (t : Tok) (d : Dst) (a : Src)
  | errqRd (t : Tok) (d : Dst) (a b : Src)
  | errqClr (t : Tok) (d : Dst) (a b : Src)
  | errqSum (t : Tok) (d : Dst) (a : Src)
  | clrd (t : Tok) (d : Dst) (a b : Src)
  | clgtSet (t : Tok) (d : Dst) (a b : Src)
  | clgtClr (t : Tok) (d : Dst) (a : Src)
  | clgtQry (t : Tok) (d : Dst) (a b : Src)
  -- events of a core: c is 36 × die + physical core, o an operation of that core
  | clhHoldEnd (c : Nat) (q : SeqId)
  | sleepWake (c : Nat) (q : SeqId)
  | timedResultLands (c : Nat) (q : SeqId)
  | pendingEntryLands (c o : Nat)
  | handshakeAcknowledged (c o : Nat)
  | evictionFreezeEnd (c : Nat)
  | postedWriteAck (c n : Nat)
  | retentionEntry (die tile : Nat) (errs : List SramErr)
  | retentionExit (die tile : Nat) (errs : List SramErr)
  | leaseGrant (die cluster : Nat)
  | leaseBudgetEnd (die cluster : Nat)
  | arrayPass (die cluster : Nat) (spare : SpareOutcome)
  | replayFreezeEnd (c : Nat)
  | copyComplete (c o : Nat)
  | arrivalElementLands (c o : Nat)
  | accumulateApplied (c o : Nat)
  | relayPayloadLands (chan : Nat) (toFf : Bool) (slot : Nat)
  | channelBreak (chan : Nat)
  | handoffBlockMove (w : Nat)
  | handoffCompletionEvent (w : Nat)
  | cwldChunk (c o : Nat)
  | keyArrival (c o : Nat)
  | watchdog (c : Nat) (q : SeqId)
  -- request sequencer and stream controllers
  | submissionRecord (func : BitVec 4) (offset : Nat) (data : List Byte)
  | requestAdmission
  | requestAging (level : Nat) (index : Nat)
  | kernFire (r n : Nat)
  | kernFinish (r n : Nat)
  | xferFire (r n : Nat)
  | ifFire (r n : Nat)
  | whileFire (r n : Nat)
  | switchFire (r n : Nat)
  | relayFire (r n : Nat)
  | handFire (r n : Nat)
  | waitFire (r n : Nat)
  | doneFire (r n : Nat)
  | groupPlacement (c : Nat)
  | kernelImageLoad (c : Nat) (noise : List (Nat × Nat × Byte))
  | drainingEnd (c : Nat)
  | preemptionRequest (c : Nat)
  | preemptTimeoutBoundary (c : Nat) (q : SeqId)
  | groupSave (c : Nat)
  | groupRestore (c : Nat)
  -- errors and containment
  | correctedError (die bank : Nat) (e : ErrInfo)
  | uncorrectableError (die bank : Nat) (e : ErrFind)
  | contextLoss
  | snaggingAudit (die kind link : Nat) (diff : Int)
  | unreachableVerdict (pkg : BitVec 10)
  -- trust die, host and pins
  | packageReset (b : BootInput)
  | topologyCompute (links : List (Nat × Nat))
  | getVersion (data : List Byte)
  | getCapabilities (data : List Byte)
  | negotiateAlgorithms (data : List Byte)
  | getDigests (data : List Byte)
  | getCertificate (data : List Byte)
  | challenge (data : List Byte)
  | getMeasurements (data : List Byte)
  | keyExchange (data : List Byte)
  | finish (data : List Byte)
  | heartbeat (data : List Byte)
  | endSession (data : List Byte)
  | spdmUnsupported (data : List Byte)
  | create (a : CreateCmd)
  | destroy (ctx : BitVec 6)
  | setcfg (smax fmin cap : Nat)
  | verify (ctx : BitVec 6) (header leaves sig : BitVec 64)
  | dropm (ctx : BitVec 6) (slot : Nat)
  | powerMonitor (watts : Nat)
  | freezeN
  | scanShift (n : Nat)
  | illop (w : IWord)
  | corefail (c : Nat)
  | hostReadAbort (c o : Nat)
  | moduleController (cap : Nat)
  | peerContextAccess (pkg : BitVec 10) (a : PeerReq)
  | peerContextLost (pkg : BitVec 10) (ctx : BitVec 6)
  | childPartial (grp : Nat) (chunk : BitVec 32) (pkg : BitVec 10) (word : ChildWord)
  | rootConfirmation (grp : Nat) (chunk : BitVec 32) (word : RootWord)
deriving DecidableEq, Repr

end Sys2Proof
end

