-- ==== Sys2Proof/WellFormed.lean ====
section
/-! DEFINITION. Which instructions have words (R33 to R44, R49): the conditions on operands and forms that no constructor
enforces by its type. An event row has no words and is not well formed here. -/

namespace Sys2Proof

/-- A queue source, popped or peeked (R40). -/
def Src.isQueue : Src → Bool
  | .pop _ | .peek _ => true
  | _ => false

/-- Lane index is no scalar operand (R41). -/
def Src.scalarOk : Src → Bool
  | .lane => false
  | _ => true

/-- The code 0 that an unused source field must carry (R39). -/
def Src.isNone (s : Src) : Bool := decide (s = .pop 0)

/-- Modes of the instructions that do not draw (R197, R222, R249). -/
def Rnd.nearest4 : Rnd → Bool
  | .sr => false
  | _ => true

/-- A destination that names a mask register (R42). -/
def Dst.isMask : Dst → Bool
  | .mask _ => true
  | _ => false

/-- The destinations MXQ takes: v0, v2, v4, v6, v8 or v10 (R182). -/
def Dst.mxqOk : Dst → Bool
  | .queue q => q.toNat % 2 == 0 && decide (q.toNat ≤ 10)
  | _ => false

/-- Forms of BITS that read srcB (R111). -/
def BitsOp.usesB : BitsOp → Bool
  | .bfx | .bfxs => true
  | _ => false

/-- Result tags of MXX (R182). -/
def Fmt.mxxOk : Fmt → Bool
  | .bf16 | .f16 | .f32 => true
  | _ => false

/-- Result tags of VIDX: 0x0 to 0x5 (R182). -/
def Fmt.isInt : Fmt → Bool
  | .i4 | .n4 | .i8 | .n8 | .i16 | .i32 => true
  | _ => false

/-- The VMSK forms that read two masks (R216). -/
def VmskOp.isTwo : VmskOp → Bool
  | .and | .or | .xor | .andn => true
  | _ => false

/-- The VMSK forms that read one mask (R216). -/
def VmskOp.isOne : VmskOp → Bool
  | .not | .pcnt | .ffs => true
  | _ => false

/-- The operands of VMSK are those of its form, and a form that writes a mask names one (R197). -/
def VmskForm.wf (d : Dst) : VmskForm → Bool
  | .two f _ _ => f.isTwo && d.isMask
  | .one f _ => f.isOne && (d.isMask || decide (f ≠ .not))
  | .fromv a => a.isQueue && d.isMask

/-- Two vector operands, one of them a queue (R41). -/
def vecPair (a b : Src) : Bool := a.isQueue || b.isQueue

/-- The instruction has words, and they are none of the reserved ones (R39, R41, R49). -/
def Instr.wf : Instr → Bool
  | .nop _ | .brcNz .. | .brcZ .. | .jmp .. | .call .. | .loop .. | .qopCnt .. | .qopDrop .. | .qopClr .. | .qopTcnt ..
  | .yield _ | .exit _ | .li .. | .leaseAcq .. | .leaseRel _ | .wswp _ | .mxh .. | .mxdrKeep _ | .mxz .. | .mvmOff _
  | .srsdStep .. | .rndm .. | .tret _ | .srr .. => true
  | .ret _ a | .lbrk _ a _ | .tkw _ a _ _ | .tks _ a _ | .clh _ a _ | .sleep _ a => a.scalarOk
  | .lmov _ _ f a => if f = .lvls then decide (a = .zero) else a.scalarOk
  | .add _ _ _ _ a b | .sub _ _ _ _ a b | .mul _ _ _ a b | .div _ _ _ _ a b | .and _ _ _ a b | .or _ _ _ a b
  | .xor _ _ _ a b | .shf _ _ _ _ a b | .cmp _ _ _ _ a b | .sel _ _ _ _ a b | .minmax _ _ _ a b | .agen _ _ _ a b =>
    a.scalarOk && b.scalarOk
  | .bits _ _ f a b => a.scalarOk && (if f.usesB then b.scalarOk else b.isNone)
  | .ext _ _ f a b => a.scalarOk && (if f = .pack then b.scalarOk else b.isNone)
  | .ldl _ _ a _ _ | .stl _ _ _ a _ _ | .ldg _ _ a _ _ | .stg _ _ _ a _ _ | .ldd _ _ a _ _ | .std _ _ _ a _ _
  | .ldb _ _ a _ _ | .stb _ _ _ a _ _ | .pfd _ a _ | .loc _ _ _ a | .bfreClose _ _ a | .bqry _ _ _ a => a.scalarOk
  | .bopn _ _ a b | .bshr _ _ a b | .binv _ _ _ a b | .bgrw _ _ a b | .bgrwRel _ _ a b => a.scalarOk && b.scalarOk
  | .bfre _ _ f a b => a.scalarOk && (if f = .all then b.isNone else b.scalarOk)
  | .wld _ _ _ _ a | .mxmd _ a | .mvm _ a => a.scalarOk
  | .mxa _ _ a b | .mxsq _ a b | .mxgr _ _ a b => a.scalarOk && b.scalarOk
  | .mxdr _ m a b => m.nearest4 && a.scalarOk && b.scalarOk
  | .mvk _ _ a b => a.isQueue && b.scalarOk
  | .mvq _ _ _ a b => a.scalarOk && b.scalarOk
  | .mvv _ _ _ a _ => a.scalarOk
  | .mvd _ _ m _ a => m.nearest4 && a.scalarOk
  | .vadd _ _ _ m a b | .vsub _ _ _ m a b | .vmul _ _ _ m a b => m.nearest4 && vecPair a b
  | .vfma .. | .vdot .. => true
  | .vmnx _ _ _ a b | .vcmp _ _ _ _ a b | .vsel _ _ _ _ a b | .vshf _ _ _ a b | .smxs _ _ _ a b => vecPair a b
  | .mxx _ _ g a b => g.mxxOk && vecPair a b
  | .vlog _ _ f a b => if f = .not then a.isQueue && b.isNone else vecPair a b
  | .vprm _ _ f a b =>
    match f with
    | .rot => a.isQueue && b.scalarOk
    | .rev => a.isQueue && b.isNone
    | _ => vecPair a b
  | .vred _ _ _ a b => a.isQueue && b.scalarOk
  | .vwid _ _ _ a | .vnar _ _ _ _ a | .vscn _ _ _ _ a => a.isQueue
  | .vbrd _ _ (.e a b) => a.isQueue && b.scalarOk
  | .vbrd _ _ (.x a _) => a.scalarOk
  | .vmsk _ d f => f.wf d
  | .cvt _ _ _ _ _ a => a.isQueue
  | .mxq _ d _ _ a => d.mxqOk && a.isQueue
  | .srsdSet _ a b => a.scalarOk && b.scalarOk
  | .sfa _ _ _ a | .sfb _ _ _ a | .sfc _ _ _ a | .fcls _ _ a => a.isQueue
  | .vlane _ _ a b => a.isQueue && b.scalarOk
  | .vidx _ _ g a b => g.isInt && a.scalarOk && b.scalarOk
  | .fsc _ _ xp m a b => if xp then decide (m = .rne) && a.isQueue && b.isNone else vecPair a b
  | .cpy _ a | .cwt _ _ a | .cwtTest _ _ a | .cbndOff _ a | .rqry _ _ a => a.scalarOk
  | .cacc _ d f a b => a.scalarOk && b.scalarOk && (decide (f ≠ .cas) || (match d with | .queue _ => true | _ => false))
  | .cbnd _ _ a b | .rini _ _ a b | .rwfl _ _ a b | .rwfr _ _ a b | .rclm _ _ a b | .rpub _ a b | .rrel _ a b
  | .rlys _ _ _ a b | .rlyg _ _ a b | .rlygAdd _ _ a b | .rlygRet _ _ a b | .rlyw _ _ a b | .hctlQry _ _ a b =>
    a.scalarOk && b.scalarOk
  | .hoff _ _ a | .hctlSeal _ _ a | .hctlCommit _ _ a | .hctlCancel _ _ a | .hctlDrop _ _ a | .cwld _ _ a => a.scalarOk
  | .lendGrp _ _ _ a b | .lendPark _ _ _ a b | .splitAddr _ _ _ a b | .splitRd _ _ _ a b | .splitWr _ _ _ a b
  | .joinAddr _ _ _ a b | .keywTkt _ _ _ a b => a.scalarOk && b.scalarOk
  | .retn _ _ _ a | .splitCmn _ _ _ a | .joinShr _ _ _ a | .joinCmn _ _ _ a | .joinRing _ _ _ a | .keywArr _ _ _ a
  | .keywFree _ _ _ a | .keyq _ _ _ a => a.scalarOk
  | .fence _ _ o f => decide (o ≠ .rlx) && (match f with | .plain => true | .flag _ a b => a.scalarOk && b.scalarOk)
  | .trap _ a => a.scalarOk
  | .srw _ _ b => b.scalarOk
  | .lnchNode _ _ a | .lnchReq _ _ a | .errqSum _ _ a | .clgtClr _ _ a => a.scalarOk
  | .errqRd _ _ a b | .errqClr _ _ a b | .clrd _ _ a b | .clgtSet _ _ a b | .clgtQry _ _ a b => a.scalarOk && b.scalarOk
  | .clhHoldEnd .. | .sleepWake .. | .timedResultLands .. | .pendingEntryLands .. | .handshakeAcknowledged ..
  | .evictionFreezeEnd .. | .postedWriteAck .. | .retentionEntry .. | .retentionExit .. | .leaseGrant .. | .leaseBudgetEnd ..
  | .arrayPass .. | .replayFreezeEnd .. | .copyComplete .. | .arrivalElementLands .. | .accumulateApplied ..
  | .relayPayloadLands .. | .channelBreak .. | .handoffBlockMove .. | .handoffCompletionEvent .. | .cwldChunk ..
  | .keyArrival .. | .watchdog .. | .submissionRecord .. | .requestAdmission | .requestAging .. | .kernFire .. | .kernFinish ..
  | .xferFire .. | .ifFire .. | .whileFire .. | .switchFire .. | .relayFire .. | .handFire .. | .waitFire .. | .doneFire ..
  | .groupPlacement .. | .kernelImageLoad .. | .drainingEnd .. | .preemptionRequest .. | .preemptTimeoutBoundary ..
  | .groupSave .. | .groupRestore .. | .correctedError .. | .uncorrectableError .. | .contextLoss | .snaggingAudit ..
  | .unreachableVerdict .. | .packageReset .. | .topologyCompute .. | .getVersion .. | .getCapabilities ..
  | .negotiateAlgorithms .. | .getDigests .. | .getCertificate .. | .challenge .. | .getMeasurements .. | .keyExchange ..
  | .finish .. | .heartbeat .. | .endSession .. | .spdmUnsupported .. | .create .. | .destroy .. | .setcfg .. | .verify ..
  | .dropm .. | .powerMonitor .. | .freezeN | .scanShift .. | .illop .. | .corefail .. | .hostReadAbort ..
  | .moduleController .. | .peerContextAccess .. | .peerContextLost .. | .childPartial .. | .rootConfirmation .. => false

end Sys2Proof
end

