-- ==== Sys2Proof/Decode.lean ====
section
/-! DEFINITION. The decoder, total on any words and rejecting by name, and the encoder, both written from the formats
and encoding tables of the spec (R33 to R44, R48, R49 and each chapter's table). -/

namespace Sys2Proof

/-- Why words are not an instruction. Each is raised as ILLOP by the issue checks, or means that the words end early. -/
inductive DecodeError where
  /-- the words end before the instruction does -/
  | truncated
  /-- the opcode point is not allocated (R48) -/
  | reservedPoint
  /-- a field holds a reserved value, or an unused field is not zero (R39, R49) -/
  | reservedField
deriving DecidableEq, Repr

/-! ### Codes -/

/-- The code of SatMode (R103). -/
def SatMode.code : SatMode → BitVec 2
  | .wrap => 0 | .ss => 1 | .us => 2
/-- The SatMode with a code, if there is one (R103). -/
def SatMode.ofCode (c : BitVec 2) : Option SatMode :=
  match c.toNat with
  | 0 => some .wrap | 1 => some .ss | 2 => some .us | _ => none

/-- The code of MulForm (R102). -/
def MulForm.code : MulForm → BitVec 4
  | .low => 0 | .w => 1 | .hs => 2 | .hu => 3 | .ss => 4
/-- The MulForm with a code, if there is one (R102). -/
def MulForm.ofCode (c : BitVec 4) : Option MulForm :=
  match c.toNat with
  | 0 => some .low | 1 => some .w | 2 => some .hs | 3 => some .hu | 4 => some .ss | _ => none

/-- The code of DivForm (R102). -/
def DivForm.code : DivForm → BitVec 2
  | .s => 0 | .u => 1 | .rs => 2 | .ru => 3
/-- The DivForm with a code, if there is one (R102). -/
def DivForm.ofCode (c : BitVec 2) : Option DivForm :=
  match c.toNat with
  | 0 => some .s | 1 => some .u | 2 => some .rs | 3 => some .ru | _ => none

/-- The code of ShiftOp (R102, R197). -/
def ShiftOp.code : ShiftOp → BitVec 3
  | .sll => 0 | .srl => 1 | .sra => 2 | .rol => 3 | .ror => 4
/-- The ShiftOp with a code, if there is one (R102, R197). -/
def ShiftOp.ofCode (c : BitVec 3) : Option ShiftOp :=
  match c.toNat with
  | 0 => some .sll | 1 => some .srl | 2 => some .sra | 3 => some .rol | 4 => some .ror | _ => none

/-- The code of CmpOp (R102). -/
def CmpOp.code : CmpOp → BitVec 3
  | .eq => 0 | .ne => 1 | .lt => 2 | .ge => 3 | .ltu => 4 | .geu => 5
/-- The CmpOp with a code, if there is one (R102). -/
def CmpOp.ofCode (c : BitVec 3) : Option CmpOp :=
  match c.toNat with
  | 0 => some .eq | 1 => some .ne | 2 => some .lt | 3 => some .ge | 4 => some .ltu | 5 => some .geu | _ =>
    none

/-- The code of MinMaxOp (R102). -/
def MinMaxOp.code : MinMaxOp → BitVec 4
  | .mins => 0 | .maxs => 1 | .minu => 2 | .maxu => 3
/-- The MinMaxOp with a code, if there is one (R102). -/
def MinMaxOp.ofCode (c : BitVec 4) : Option MinMaxOp :=
  match c.toNat with
  | 0 => some .mins | 1 => some .maxs | 2 => some .minu | 3 => some .maxu | _ => none

/-- The code of BitsOp (R102). -/
def BitsOp.code : BitsOp → BitVec 4
  | .pcnt => 0 | .clz => 1 | .ctz => 2 | .brev => 3 | .bswap => 4 | .bfx => 5 | .bfxs => 6
/-- The BitsOp with a code, if there is one (R102). -/
def BitsOp.ofCode (c : BitVec 4) : Option BitsOp :=
  match c.toNat with
  | 0 => some .pcnt | 1 => some .clz | 2 => some .ctz | 3 => some .brev | 4 => some .bswap | 5 => some .bfx |
    6 => some .bfxs | _ => none

/-- The code of AgenOp (R102). -/
def AgenOp.code : AgenOp → BitVec 4
  | .glb => 0 | .blk => 1 | .blkn => 2 | .loc => 3 | .x1 => 8 | .x2 => 9 | .x4 => 10 | .x8 => 11 | .x16 => 12
    | .x64 => 13 | .x512 => 14 | .x4k => 15
/-- The AgenOp with a code, if there is one (R102). -/
def AgenOp.ofCode (c : BitVec 4) : Option AgenOp :=
  match c.toNat with
  | 0 => some .glb | 1 => some .blk | 2 => some .blkn | 3 => some .loc | 8 => some .x1 | 9 => some .x2 | 10 =>
    some .x4 | 11 => some .x8 | 12 => some .x16 | 13 => some .x64 | 14 => some .x512 | 15 => some .x4k | _ =>
    none

/-- The code of ExtOp (R102). -/
def ExtOp.code : ExtOp → BitVec 4
  | .s8 => 0 | .s16 => 1 | .s32 => 2 | .z8 => 3 | .z16 => 4 | .z32 => 5 | .pack => 6
/-- The ExtOp with a code, if there is one (R102). -/
def ExtOp.ofCode (c : BitVec 4) : Option ExtOp :=
  match c.toNat with
  | 0 => some .s8 | 1 => some .s16 | 2 => some .s32 | 3 => some .z8 | 4 => some .z16 | 5 => some .z32 | 6 =>
    some .pack | _ => none

/-- The code of LmovOp (R77). -/
def LmovOp.code : LmovOp → BitVec 4
  | .cnt => 0 | .idx => 1 | .kind => 2 | .lvls => 3
/-- The LmovOp with a code, if there is one (R77). -/
def LmovOp.ofCode (c : BitVec 4) : Option LmovOp :=
  match c.toNat with
  | 0 => some .cnt | 1 => some .idx | 2 => some .kind | 3 => some .lvls | _ => none

/-- The code of MSize (R38). -/
def MSize.code : MSize → BitVec 2
  | .b4 => 0 | .b8 => 1 | .b512 => 2
/-- The MSize with a code, if there is one (R38). -/
def MSize.ofCode (c : BitVec 2) : Option MSize :=
  match c.toNat with
  | 0 => some .b4 | 1 => some .b8 | 2 => some .b512 | _ => none

/-- The code of Space (R148). -/
def Space.code : Space → BitVec 2
  | .glb => 0 | .dev => 1 | .blk => 2
/-- The Space with a code, if there is one (R148). -/
def Space.ofCode (c : BitVec 2) : Option Space :=
  match c.toNat with
  | 0 => some .glb | 1 => some .dev | 2 => some .blk | _ => none

/-- The code of BqryOp (R291). -/
def BqryOp.code : BqryOp → BitVec 4
  | .blk => 0 | .map => 1 | .hdl => 2 | .pool => 3 | .quota => 4
/-- The BqryOp with a code, if there is one (R291). -/
def BqryOp.ofCode (c : BitVec 4) : Option BqryOp :=
  match c.toNat with
  | 0 => some .blk | 1 => some .map | 2 => some .hdl | 3 => some .pool | 4 => some .quota | _ => none

/-- The code of MnxOp (R197). -/
def MnxOp.code : MnxOp → BitVec 4
  | .min => 0 | .max => 1 | .minn => 2 | .maxn => 3
/-- The MnxOp with a code, if there is one (R197). -/
def MnxOp.ofCode (c : BitVec 4) : Option MnxOp :=
  match c.toNat with
  | 0 => some .min | 1 => some .max | 2 => some .minn | 3 => some .maxn | _ => none

/-- The code of VcmpOp (R197). -/
def VcmpOp.code : VcmpOp → BitVec 3
  | .eq => 0 | .ne => 1 | .lt => 2 | .le => 3 | .gt => 4 | .ge => 5 | .un => 6
/-- The VcmpOp with a code, if there is one (R197). -/
def VcmpOp.ofCode (c : BitVec 3) : Option VcmpOp :=
  match c.toNat with
  | 0 => some .eq | 1 => some .ne | 2 => some .lt | 3 => some .le | 4 => some .gt | 5 => some .ge | 6 => some
    .un | _ => none

/-- The code of VlogOp (R197). -/
def VlogOp.code : VlogOp → BitVec 4
  | .and => 0 | .or => 1 | .xor => 2 | .andn => 3 | .not => 4
/-- The VlogOp with a code, if there is one (R197). -/
def VlogOp.ofCode (c : BitVec 4) : Option VlogOp :=
  match c.toNat with
  | 0 => some .and | 1 => some .or | 2 => some .xor | 3 => some .andn | 4 => some .not | _ => none

/-- The code of VprmOp (R197). -/
def VprmOp.code : VprmOp → BitVec 4
  | .idx => 0 | .rot => 1 | .rev => 2 | .zlo => 3 | .zhi => 4 | .uev => 5 | .uod => 6
/-- The VprmOp with a code, if there is one (R197). -/
def VprmOp.ofCode (c : BitVec 4) : Option VprmOp :=
  match c.toNat with
  | 0 => some .idx | 1 => some .rot | 2 => some .rev | 3 => some .zlo | 4 => some .zhi | 5 => some .uev | 6 =>
    some .uod | _ => none

/-- The code of RedOp (R197). -/
def RedOp.code : RedOp → BitVec 2
  | .add => 0 | .adds => 1 | .max => 2 | .min => 3
/-- The RedOp with a code, if there is one (R197). -/
def RedOp.ofCode (c : BitVec 2) : Option RedOp :=
  match c.toNat with
  | 0 => some .add | 1 => some .adds | 2 => some .max | 3 => some .min | _ => none

/-- The code of VmskOp (R197). -/
def VmskOp.code : VmskOp → BitVec 4
  | .and => 0 | .or => 1 | .xor => 2 | .andn => 3 | .not => 4 | .pcnt => 5 | .ffs => 6 | .fromv => 7
/-- The VmskOp with a code, if there is one (R197). -/
def VmskOp.ofCode (c : BitVec 4) : Option VmskOp :=
  match c.toNat with
  | 0 => some .and | 1 => some .or | 2 => some .xor | 3 => some .andn | 4 => some .not | 5 => some .pcnt | 6
    => some .ffs | 7 => some .fromv | _ => none

/-- The code of SfaOp (R197). -/
def SfaOp.code : SfaOp → BitVec 4
  | .exp2 => 0 | .log2 => 1
/-- The SfaOp with a code, if there is one (R197). -/
def SfaOp.ofCode (c : BitVec 4) : Option SfaOp :=
  match c.toNat with
  | 0 => some .exp2 | 1 => some .log2 | _ => none

/-- The code of SfbOp (R197). -/
def SfbOp.code : SfbOp → BitVec 4
  | .rcp => 0 | .rsqrt => 1 | .sqrt => 2
/-- The SfbOp with a code, if there is one (R197). -/
def SfbOp.ofCode (c : BitVec 4) : Option SfbOp :=
  match c.toNat with
  | 0 => some .rcp | 1 => some .rsqrt | 2 => some .sqrt | _ => none

/-- The code of SfcOp (R197). -/
def SfcOp.code : SfcOp → BitVec 4
  | .tanh => 0 | .sigm => 1 | .silu => 2 | .gelu => 3
/-- The SfcOp with a code, if there is one (R197). -/
def SfcOp.ofCode (c : BitVec 4) : Option SfcOp :=
  match c.toNat with
  | 0 => some .tanh | 1 => some .sigm | 2 => some .silu | 3 => some .gelu | _ => none

/-- The code of RndmOp (R182). -/
def RndmOp.code : RndmOp → BitVec 4
  | .b32 => 0 | .b8 => 1 | .unif => 2 | .unifb => 3
/-- The RndmOp with a code, if there is one (R182). -/
def RndmOp.ofCode (c : BitVec 4) : Option RndmOp :=
  match c.toNat with
  | 0 => some .b32 | 1 => some .b8 | 2 => some .unif | 3 => some .unifb | _ => none

/-- The code of AccOp (R265). -/
def AccOp.code : AccOp → BitVec 4
  | .add => 0 | .min => 1 | .max => 2 | .minu => 3 | .maxu => 4 | .and => 5 | .or => 6 | .xor => 7 | .swap =>
    8 | .cas => 9 | .load => 10
/-- The AccOp with a code, if there is one (R265). -/
def AccOp.ofCode (c : BitVec 4) : Option AccOp :=
  match c.toNat with
  | 0 => some .add | 1 => some .min | 2 => some .max | 3 => some .minu | 4 => some .maxu | 5 => some .and | 6
    => some .or | 7 => some .xor | 8 => some .swap | 9 => some .cas | 10 => some .load | _ => none

/-- The code of RlySrc (R305). -/
def RlySrc.code : RlySrc → BitVec 4
  | .loc => 0 | .glb => 1 | .dev => 2
/-- The RlySrc with a code, if there is one (R305). -/
def RlySrc.ofCode (c : BitVec 4) : Option RlySrc :=
  match c.toNat with
  | 0 => some .loc | 1 => some .glb | 2 => some .dev | _ => none

/-- The code of Scope (R157). -/
def Scope.code : Scope → BitVec 3
  | .core => 0 | .clu => 1 | .die => 2 | .pkg => 3 | .fab => 4
/-- The Scope with a code, if there is one (R157). -/
def Scope.ofCode (c : BitVec 3) : Option Scope :=
  match c.toNat with
  | 0 => some .core | 1 => some .clu | 2 => some .die | 3 => some .pkg | 4 => some .fab | _ => none

/-- The code of Order (R158, R273). -/
def Order.code : Order → BitVec 3
  | .acq => 0 | .rel => 1 | .ar => 2 | .sc => 3 | .rlx => 4
/-- The Order with a code, if there is one (R158, R273). -/
def Order.ofCode (c : BitVec 3) : Option Order :=
  match c.toNat with
  | 0 => some .acq | 1 => some .rel | 2 => some .ar | 3 => some .sc | 4 => some .rlx | _ => none

/-- The code of Rnd (R174). -/
def Rnd.code : Rnd → BitVec 3
  | .rne => 0 | .rtz => 1 | .rdn => 2 | .rup => 3 | .sr => 4
/-- The Rnd with a code, if there is one (R174). -/
def Rnd.ofCode (c : BitVec 3) : Option Rnd :=
  match c.toNat with
  | 0 => some .rne | 1 => some .rtz | 2 => some .rdn | 3 => some .rup | 4 => some .sr | _ => none

/-- The code of Fmt (R169). -/
def Fmt.code : Fmt → BitVec 4
  | .i4 => 0 | .n4 => 1 | .i8 => 2 | .n8 => 3 | .i16 => 4 | .i32 => 5 | .f4 => 6 | .f6a => 7 | .f6b => 8 |
    .f8a => 9 | .f8b => 10 | .bf16 => 11 | .f16 => 12 | .f32 => 13 | .e8 => 14 | .b => 15
/-- The Fmt with a code, if there is one (R169). -/
def Fmt.ofCode (c : BitVec 4) : Option Fmt :=
  match c.toNat with
  | 0 => some .i4 | 1 => some .n4 | 2 => some .i8 | 3 => some .n8 | 4 => some .i16 | 5 => some .i32 | 6 =>
    some .f4 | 7 => some .f6a | 8 => some .f6b | 9 => some .f8a | 10 => some .f8b | 11 => some .bf16 | 12 =>
    some .f16 | 13 => some .f32 | 14 => some .e8 | 15 => some .b | _ => none

/-- The code of SysReg (R53). -/
def SysReg.code : SysReg → BitVec 6
  | .trapcause => 0 | .trappc => 1 | .trapinfo => 2 | .status => 3 | .ctxid => 4 | .grpid => 5 | .corelog => 6
    | .dieid => 7 | .dieclass => 8 | .harvest => 9 | .cycles => 10 | .wdlimit => 11 | .srseed => 12 | .chkrow
    => 13 | .cellmap => 14
/-- The SysReg with a code, if there is one (R53). -/
def SysReg.ofCode (c : BitVec 6) : Option SysReg :=
  match c.toNat with
  | 0 => some .trapcause | 1 => some .trappc | 2 => some .trapinfo | 3 => some .status | 4 => some .ctxid | 5
    => some .grpid | 6 => some .corelog | 7 => some .dieid | 8 => some .dieclass | 9 => some .harvest | 10 =>
    some .cycles | 11 => some .wdlimit | 12 => some .srseed | 13 => some .chkrow | 14 => some .cellmap | _ =>
    none

/-- The code of BfreOp (R291). -/
def BfreOp.code : BfreOp → BitVec 4
  | .rng => 0 | .lyrs => 1 | .all => 2
/-- The BfreOp with a code, if there is one (R291). -/
def BfreOp.ofCode (c : BitVec 4) : Option BfreOp :=
  match c.toNat with
  | 0 => some .rng | 1 => some .lyrs | 2 => some .all | _ => none
/-- The token bits, wu in bit 24 down to pd in bit 21 (R34). -/
def Tok.code (t : Tok) : BitVec 4 := BitVec.ofBool t.wu ++ BitVec.ofBool t.wd ++ BitVec.ofBool t.pu ++ BitVec.ofBool t.pd
/-- The token field read back (R34). -/
def Tok.ofCode (c : BitVec 4) : Tok := ⟨c.getLsbD 3, c.getLsbD 2, c.getLsbD 1, c.getLsbD 0⟩

/-- Destination codes (R42). -/
def Dst.code : Dst → BitVec 5
  | .queue q => 0#1 ++ q
  | .loop k => 2#2 ++ k
  | .mask k => BitVec.ofNat 5 (24 + k.val)
  | .discard => 31#5
/-- The destination of a code; every code has one (R42). -/
def Dst.ofCode (c : BitVec 5) : Dst :=
  if c.toNat < 16 then .queue (c.extractLsb' 0 4)
  else if c.toNat < 24 then .loop (c.extractLsb' 0 3)
  else if h : c.toNat - 24 < 7 then .mask ⟨c.toNat - 24, h⟩
  else .discard

/-- Source operand codes (R40). -/
def Src.code : Src → BitVec 6
  | .pop q => 0#2 ++ q
  | .peek q => 1#2 ++ q
  | .imm v => 2#2 ++ v
  | .loop k => 6#3 ++ k
  | .zero => 0x38
  | .lane => 0x39
  | .grp => 0x3A
  | .core => 0x3B
  | .lit32 _ => 0x3E
  | .lit64 _ => 0x3F

/-- The literal words of a source, low word first (R44). -/
def Src.lits : Src → List IWord
  | .lit32 v => [v]
  | .lit64 v => [v.extractLsb' 0 32, v.extractLsb' 32 32]
  | _ => []

/-- The source of a code and the literal words after it (R40, R44). -/
def Src.decode (c : BitVec 6) (ws : List IWord) : Except DecodeError (Src × List IWord) :=
  if c.toNat < 16 then .ok (.pop (c.extractLsb' 0 4), ws)
  else if c.toNat < 32 then .ok (.peek (c.extractLsb' 0 4), ws)
  else if c.toNat < 48 then .ok (.imm (c.extractLsb' 0 4), ws)
  else if c.toNat < 56 then .ok (.loop (c.extractLsb' 0 3), ws)
  else if c = 0x38 then .ok (.zero, ws)
  else if c = 0x39 then .ok (.lane, ws)
  else if c = 0x3A then .ok (.grp, ws)
  else if c = 0x3B then .ok (.core, ws)
  else if c = 0x3E then
    match ws with
    | w :: ws => .ok (.lit32 w, ws)
    | [] => .error .truncated
  else if c = 0x3F then
    match ws with
    | lo :: hi :: ws => .ok (.lit64 (hi ++ lo), ws)
    | _ => .error .truncated
  else .error .reservedField

/-- A raw queue selector (R87, R270). -/
def QSel.code (s : QSel) : BitVec 5 := BitVec.ofBool s.vec ++ s.q
/-- The selector of five raw bits (R87, R270). -/
def QSel.ofCode (c : BitVec 5) : QSel := ⟨c.getLsbD 4, c.extractLsb' 0 4⟩

/-! ### Formats (R36) -/

/-- Format A: dst, srcA, srcB, fn. -/
def bodyA (d : BitVec 5) (a b : BitVec 6) (fn : BitVec 4) : BitVec 21 := d ++ a ++ b ++ fn
/-- Format B: cond, disp. Format I: dst, imm16. -/
def bodyB (c : BitVec 5) (p : BitVec 16) : BitVec 21 := c ++ p
/-- Format M: pk, dq, addr, imm8, size. -/
def bodyM (pk : BitVec 1) (q : BitVec 4) (a : BitVec 6) (m : BitVec 8) (s : BitVec 2) : BitVec 21 := pk ++ q ++ a ++ m ++ s
/-- Format H: afmt, bfmt, ofmt, sparse, grp, rows. -/
def bodyH (a b o : BitVec 4) (s : BitVec 2) (g : BitVec 1) (r : BitVec 6) : BitVec 21 := a ++ b ++ o ++ s ++ g ++ r

/-- A reserved field is refused by name. -/
def fld {α : Type} : Option α → Except DecodeError α
  | some a => .ok a
  | none => .error .reservedField
/-- An unused field must be zero (R39). -/
def unused {n : Nat} (b : BitVec n) : Except DecodeError Unit := if b = 0 then .ok () else .error .reservedField
/-- What must hold of the fields (R49). -/
def need (b : Bool) : Except DecodeError Unit := if b then .ok () else .error .reservedField
/-- A scalar operand: any code but lane (R41). -/
def srcS (c : BitVec 6) (ws : List IWord) : Except DecodeError (Src × List IWord) := do
  let (s, ws) ← Src.decode c ws
  need s.scalarOk
  pure (s, ws)
/-- A vector operand that must be a queue, being the only vector source (R41). -/
def srcQ (c : BitVec 6) (ws : List IWord) : Except DecodeError (Src × List IWord) := do
  let (s, ws) ← Src.decode c ws
  need s.isQueue
  pure (s, ws)
/-- Two scalar operands in the order srcA, srcB (R44). -/
def srcSS (a b : BitVec 6) (ws : List IWord) : Except DecodeError (Src × Src × List IWord) := do
  let (x, ws) ← srcS a ws
  let (y, ws) ← srcS b ws
  pure (x, y, ws)
/-- Two vector operands, one of them a queue (R41). -/
def srcVV (a b : BitVec 6) (ws : List IWord) : Except DecodeError (Src × Src × List IWord) := do
  let (x, ws) ← Src.decode a ws
  let (y, ws) ← Src.decode b ws
  need (vecPair x y)
  pure (x, y, ws)
/-- A vector queue, then a scalar (R249, R197). -/
def srcQS (a b : BitVec 6) (ws : List IWord) : Except DecodeError (Src × Src × List IWord) := do
  let (x, ws) ← srcQ a ws
  let (y, ws) ← srcS b ws
  pure (x, y, ws)
/-- Two vector operands beside a third that is a queue (R37, R41). -/
def srcAny2 (a b : BitVec 6) (ws : List IWord) : Except DecodeError (Src × Src × List IWord) := do
  let (x, ws) ← Src.decode a ws
  let (y, ws) ← Src.decode b ws
  pure (x, y, ws)
/-- A raw tag: bits <5:4> are zero (R182, R197). -/
def rawTag (c : BitVec 6) : Except DecodeError Fmt := do
  unused (c.extractLsb' 4 2)
  fld (Fmt.ofCode (c.extractLsb' 0 4))
/-- A raw mask number: bits <5:3> are zero (R197). -/
def rawMask (c : BitVec 6) : Except DecodeError (BitVec 3) := do
  unused (c.extractLsb' 3 3)
  pure (c.extractLsb' 0 3)

abbrev Dec := Except DecodeError (Instr × List IWord)

/-- Class 0, CTL (R77). -/
def decCtl (op : Nat) (t : Tok) (w : BitVec 21) (ws : List IWord) : Dec :=
  let c : BitVec 5 := w.extractLsb' 16 5
  let p : BitVec 16 := w.extractLsb' 0 16
  let a : BitVec 6 := w.extractLsb' 10 6
  let b : BitVec 6 := w.extractLsb' 4 6
  let fn : BitVec 4 := w.extractLsb' 0 4
  match op with
  | 0 => do unused w; pure (.nop t, ws)
  | 1 => if c.getLsbD 4 then pure (.brcZ t (c.extractLsb' 0 4) p, ws) else pure (.brcNz t (c.extractLsb' 0 4) p, ws)
  | 2 => do unused c; pure (.jmp t p, ws)
  | 3 => do unused (c.extractLsb' 4 1); pure (.call t (c.extractLsb' 0 4) p, ws)
  | 4 => do unused c; unused b; unused fn; let (a, ws) ← srcS a ws; pure (.ret t a, ws)
  | 5 => do unused (c.extractLsb' 3 2); pure (.loop t (c.extractLsb' 0 3) p, ws)
  | 6 => do unused c; unused b; unused (fn.extractLsb' 3 1); let (a, ws) ← srcS a ws; pure (.lbrk t a (fn.extractLsb' 0 3), ws)
  | 7 => do
    unused c; unused b; unused (fn.extractLsb' 2 2)
    let (a, ws) ← srcS a ws
    pure (.tkw t a (fn.getLsbD 1) (fn.getLsbD 0), ws)
  | 8 => do unused c; unused b; unused (fn.extractLsb' 1 3); let (a, ws) ← srcS a ws; pure (.tks t a (fn.getLsbD 0), ws)
  | 9 => do
    unused b
    match fn.toNat with
    | 0 => unused (a.extractLsb' 5 1); pure (.qopCnt t (.ofCode c) (.ofCode (a.extractLsb' 0 5)), ws)
    | 1 => unused c; unused (a.extractLsb' 5 1); pure (.qopDrop t (.ofCode (a.extractLsb' 0 5)), ws)
    | 2 => unused c; unused (a.extractLsb' 5 1); pure (.qopClr t (.ofCode (a.extractLsb' 0 5)), ws)
    | 3 => unused (a.extractLsb' 1 5); pure (.qopTcnt t (.ofCode c) (a.getLsbD 0), ws)
    | _ => .error .reservedField
  | 10 => do
    unused b
    let f ← fld (LmovOp.ofCode fn)
    let (a, ws) ← Src.decode a ws
    need (if f = .lvls then decide (a = .zero) else a.scalarOk)
    pure (.lmov t (.ofCode c) f a, ws)
  | 11 => do unused c; unused b; unused (fn.extractLsb' 1 3); let (a, ws) ← srcS a ws; pure (.clh t a (fn.getLsbD 0), ws)
  | 12 => do unused w; pure (.yield t, ws)
  | 13 => do unused w; pure (.exit t, ws)
  | 14 => do unused c; unused b; unused fn; let (a, ws) ← srcS a ws; pure (.sleep t a, ws)
  | _ => .error .reservedPoint

/-- The fn of ADD and SUB: <3> 0, <2:1> saturation, <0> width (R102). -/
def addFn (m : SatMode) (w : Bool) : BitVec 4 := 0#1 ++ m.code ++ BitVec.ofBool w
/-- The fn of ADD and SUB read back (R102). -/
def decAddFn (fn : BitVec 4) : Except DecodeError (SatMode × Bool) := do
  unused (fn.extractLsb' 3 1)
  let m ← fld (SatMode.ofCode (fn.extractLsb' 1 2))
  pure (m, fn.getLsbD 0)

/-- Class 1, INT (R102). -/
def decInt (op : Nat) (t : Tok) (w : BitVec 21) (ws : List IWord) : Dec :=
  let d : Dst := .ofCode (w.extractLsb' 16 5)
  let a : BitVec 6 := w.extractLsb' 10 6
  let b : BitVec 6 := w.extractLsb' 4 6
  let fn : BitVec 4 := w.extractLsb' 0 4
  match op with
  | 0 => do let (m, x) ← decAddFn fn; let (a, b, ws) ← srcSS a b ws; pure (.add t d m x a b, ws)
  | 1 => do let (m, x) ← decAddFn fn; let (a, b, ws) ← srcSS a b ws; pure (.sub t d m x a b, ws)
  | 2 => do let f ← fld (MulForm.ofCode fn); let (a, b, ws) ← srcSS a b ws; pure (.mul t d f a b, ws)
  | 3 => do
    unused (fn.extractLsb' 3 1)
    let f ← fld (DivForm.ofCode (fn.extractLsb' 0 2))
    let (a, b, ws) ← srcSS a b ws
    pure (.div t d f (fn.getLsbD 2) a b, ws)
  | 4 => do unused (fn.extractLsb' 1 3); let (a, b, ws) ← srcSS a b ws; pure (.and t d (fn.getLsbD 0) a b, ws)
  | 5 => do unused (fn.extractLsb' 1 3); let (a, b, ws) ← srcSS a b ws; pure (.or t d (fn.getLsbD 0) a b, ws)
  | 6 => do unused (fn.extractLsb' 1 3); let (a, b, ws) ← srcSS a b ws; pure (.xor t d (fn.getLsbD 0) a b, ws)
  | 7 => do
    let f ← fld (ShiftOp.ofCode (fn.extractLsb' 0 3))
    let (a, b, ws) ← srcSS a b ws
    pure (.shf t d f (fn.getLsbD 3) a b, ws)
  | 8 => do
    let f ← fld (CmpOp.ofCode (fn.extractLsb' 0 3))
    let (a, b, ws) ← srcSS a b ws
    pure (.cmp t d f (fn.getLsbD 3) a b, ws)
  | 9 => do let (a, b, ws) ← srcSS a b ws; pure (.sel t d (fn.getLsbD 3) (fn.extractLsb' 0 3) a b, ws)
  | 10 => do let f ← fld (MinMaxOp.ofCode fn); let (a, b, ws) ← srcSS a b ws; pure (.minmax t d f a b, ws)
  | 11 => do
    let f ← fld (BitsOp.ofCode fn)
    let (a, ws) ← srcS a ws
    if f.usesB then do let (b, ws) ← srcS b ws; pure (.bits t d f a b, ws)
    else do unused b; pure (.bits t d f a (.pop 0), ws)
  | 12 => do let f ← fld (AgenOp.ofCode fn); let (a, b, ws) ← srcSS a b ws; pure (.agen t d f a b, ws)
  | 13 => pure (.li t d (w.extractLsb' 0 16), ws)
  | 14 => do
    let f ← fld (ExtOp.ofCode fn)
    let (a, ws) ← srcS a ws
    if f = .pack then do let (b, ws) ← srcS b ws; pure (.ext t d f a b, ws)
    else do unused b; pure (.ext t d f a (.pop 0), ws)
  | _ => .error .reservedPoint

/-- Class 2, MEM: format M at points 0 to 8, format A above (R118, R291). -/
def decMem (op : Nat) (t : Tok) (w : BitVec 21) (ws : List IWord) : Dec :=
  let pk : BitVec 1 := w.extractLsb' 20 1
  let q : BitVec 4 := w.extractLsb' 16 4
  let m : BitVec 8 := w.extractLsb' 2 8
  let z : BitVec 2 := w.extractLsb' 0 2
  let c : BitVec 5 := w.extractLsb' 16 5
  let d : Dst := .ofCode c
  let a : BitVec 6 := w.extractLsb' 10 6
  let b : BitVec 6 := w.extractLsb' 4 6
  let fn : BitVec 4 := w.extractLsb' 0 4
  match op with
  | 0 => do unused pk; let s ← fld (MSize.ofCode z); let (a, ws) ← srcS a ws; pure (.ldl t q a m s, ws)
  | 1 => do let s ← fld (MSize.ofCode z); let (a, ws) ← srcS a ws; pure (.stl t (pk.getLsbD 0) q a m s, ws)
  | 2 => do unused pk; let s ← fld (MSize.ofCode z); let (a, ws) ← srcS a ws; pure (.ldg t q a m s, ws)
  | 3 => do let s ← fld (MSize.ofCode z); let (a, ws) ← srcS a ws; pure (.stg t (pk.getLsbD 0) q a m s, ws)
  | 4 => do unused pk; let s ← fld (MSize.ofCode z); let (a, ws) ← srcS a ws; pure (.ldd t q a m s, ws)
  | 5 => do let s ← fld (MSize.ofCode z); let (a, ws) ← srcS a ws; pure (.std t (pk.getLsbD 0) q a m s, ws)
  | 6 => do unused pk; let s ← fld (MSize.ofCode z); let (a, ws) ← srcS a ws; pure (.ldb t q a m s, ws)
  | 7 => do let s ← fld (MSize.ofCode z); let (a, ws) ← srcS a ws; pure (.stb t (pk.getLsbD 0) q a m s, ws)
  | 8 => do
    unused pk; unused q
    need (decide (z = 2))
    let (a, ws) ← srcS a ws
    pure (.pfd t a m, ws)
  | 9 => do
    unused b; unused (fn.extractLsb' 2 2)
    let f ← fld (Space.ofCode (fn.extractLsb' 0 2))
    let (a, ws) ← srcS a ws
    pure (.loc t d f a, ws)
  | 10 => do unused fn; let (a, b, ws) ← srcSS a b ws; pure (.bopn t d a b, ws)
  | 11 => do unused fn; let (a, b, ws) ← srcSS a b ws; pure (.bshr t d a b, ws)
  | 12 => do
    let (a, ws) ← srcS a ws
    if fn = 3 then do unused b; pure (.bfreClose t d a, ws)
    else do
      let f ← fld (BfreOp.ofCode fn)
      if f = .all then do unused b; pure (.bfre t d f a (.pop 0), ws)
      else do let (b, ws) ← srcS b ws; pure (.bfre t d f a b, ws)
  | 13 => do unused (fn.extractLsb' 1 3); let (a, b, ws) ← srcSS a b ws; pure (.binv t d (fn.getLsbD 0) a b, ws)
  | 14 => do unused b; let f ← fld (BqryOp.ofCode fn); let (a, ws) ← srcS a ws; pure (.bqry t d f a, ws)
  | 15 => do
    unused (fn.extractLsb' 1 3)
    let (a, b, ws) ← srcSS a b ws
    if fn.getLsbD 0 then pure (.bgrwRel t d a b, ws) else pure (.bgrw t d a b, ws)
  | _ => .error .reservedPoint

/-- Class 3, MAT (R222, R249); MXH in format H. -/
def decMat (op : Nat) (t : Tok) (w : BitVec 21) (ws : List IWord) : Dec :=
  let c : BitVec 5 := w.extractLsb' 16 5
  let d : Dst := .ofCode c
  let a : BitVec 6 := w.extractLsb' 10 6
  let b : BitVec 6 := w.extractLsb' 4 6
  let fn : BitVec 4 := w.extractLsb' 0 4
  match op with
  | 0 => do
    unused a; unused b
    if fn = 0 then pure (.leaseAcq t d, ws)
    else do need (decide (fn = 1)); unused c; pure (.leaseRel t, ws)
  | 1 => do
    unused c; unused b; unused (fn.extractLsb' 3 1)
    let (a, ws) ← srcS a ws
    pure (.wld t (fn.getLsbD 2) (if fn.getLsbD 1 then .b16 else .b8) (fn.getLsbD 0) a, ws)
  | 2 => do unused w; pure (.wswp t, ws)
  | 3 => do
    let fa ← fld (Fmt.ofCode (w.extractLsb' 17 4))
    let fb ← fld (Fmt.ofCode (w.extractLsb' 13 4))
    let fo ← fld (Fmt.ofCode (w.extractLsb' 9 4))
    unused (w.extractLsb' 8 1)
    pure (.mxh t ⟨fa, fb, fo, w.getLsbD 7, w.getLsbD 6, w.extractLsb' 0 6⟩, ws)
  | 4 => do unused c; unused (fn.extractLsb' 1 3); let (a, b, ws) ← srcSS a b ws; pure (.mxa t (fn.getLsbD 0) a b, ws)
  | 5 => do unused c; unused fn; let (a, b, ws) ← srcSS a b ws; pure (.mxsq t a b, ws)
  | 6 => do unused c; unused b; unused fn; let (a, ws) ← srcS a ws; pure (.mxmd t a, ws)
  | 7 => do unused c; unused (fn.extractLsb' 2 2); let (a, b, ws) ← srcSS a b ws; pure (.mxgr t (fn.extractLsb' 0 2) a b, ws)
  | 8 => do
    unused c
    if fn = 8 then do unused a; unused b; pure (.mxdrKeep t, ws)
    else do
      unused (fn.extractLsb' 3 1)
      let m ← fld (Rnd.ofCode (fn.extractLsb' 0 3))
      need m.nearest4
      let (a, b, ws) ← srcSS a b ws
      pure (.mxdr t m a b, ws)
  | 9 => do unused c; unused a; unused b; unused (fn.extractLsb' 1 3); pure (.mxz t (fn.getLsbD 0), ws)
  | 10 => do unused c; unused (fn.extractLsb' 2 2); let (a, b, ws) ← srcQS a b ws; pure (.mvk t (fn.extractLsb' 0 2) a b, ws)
  | 11 => do unused (fn.extractLsb' 1 3); let (a, b, ws) ← srcSS a b ws; pure (.mvq t d (fn.getLsbD 0) a b, ws)
  | 12 => do
    unused c
    let (a, ws) ← srcS a ws
    let (b, ws) ← Src.decode b ws
    pure (.mvv t (fn.getLsbD 3) (fn.extractLsb' 0 3) a b, ws)
  | 13 => do
    unused c; unused b
    if fn = 0 then do let (a, ws) ← srcS a ws; pure (.mvm t a, ws)
    else do need (decide (fn = 1)); unused a; pure (.mvmOff t, ws)
  | 14 => do
    unused (fn.extractLsb' 3 1)
    let m ← fld (Rnd.ofCode (fn.extractLsb' 0 3))
    need m.nearest4
    let f ← rawTag b
    let (a, ws) ← srcS a ws
    pure (.mvd t d m f a, ws)
  | _ => .error .reservedPoint

/-- Class 4, VEC (R197). DESIGN CHOICE: a destination that the mask-writing forms of VMSK do not have is refused here, before the
checks of R47 that follow the decoding, and a mask destination of the other forms at the third of them (log 148). -/
def decVec (op : Nat) (t : Tok) (w : BitVec 21) (ws : List IWord) : Dec :=
  let d : Dst := .ofCode (w.extractLsb' 16 5)
  let a : BitVec 6 := w.extractLsb' 10 6
  let b : BitVec 6 := w.extractLsb' 4 6
  let fn : BitVec 4 := w.extractLsb' 0 4
  let lo : BitVec 3 := fn.extractLsb' 0 3
  let hi : Bool := fn.getLsbD 3
  match op with
  | 0 => do let m ← fld (Rnd.ofCode lo); need m.nearest4; let (a, b, ws) ← srcVV a b ws; pure (.vadd t d hi m a b, ws)
  | 1 => do let m ← fld (Rnd.ofCode lo); need m.nearest4; let (a, b, ws) ← srcVV a b ws; pure (.vsub t d hi m a b, ws)
  | 2 => do let m ← fld (Rnd.ofCode lo); need m.nearest4; let (a, b, ws) ← srcVV a b ws; pure (.vmul t d hi m a b, ws)
  | 3 => do let (a, b, ws) ← srcAny2 a b ws; pure (.vfma t d hi lo a b, ws)
  | 4 => do let f ← fld (MnxOp.ofCode fn); let (a, b, ws) ← srcVV a b ws; pure (.vmnx t d f a b, ws)
  | 5 => do let f ← fld (VcmpOp.ofCode lo); let (a, b, ws) ← srcVV a b ws; pure (.vcmp t d hi f a b, ws)
  | 6 => do let (a, b, ws) ← srcVV a b ws; pure (.vsel t d hi lo a b, ws)
  | 7 => do
    let f ← fld (VlogOp.ofCode fn)
    if f = .not then do unused b; let (a, ws) ← srcQ a ws; pure (.vlog t d f a (.pop 0), ws)
    else do let (a, b, ws) ← srcVV a b ws; pure (.vlog t d f a b, ws)
  | 8 => do
    unused (fn.extractLsb' 3 1)
    let f ← fld (ShiftOp.ofCode lo)
    let (a, b, ws) ← srcVV a b ws
    pure (.vshf t d f a b, ws)
  | 9 => do
    let f ← fld (VprmOp.ofCode fn)
    if f = .rot then do let (a, b, ws) ← srcQS a b ws; pure (.vprm t d f a b, ws)
    else if f = .rev then do unused b; let (a, ws) ← srcQ a ws; pure (.vprm t d f a (.pop 0), ws)
    else do let (a, b, ws) ← srcVV a b ws; pure (.vprm t d f a b, ws)
  | 10 => do
    unused (fn.extractLsb' 2 2)
    let f ← fld (RedOp.ofCode (fn.extractLsb' 0 2))
    let (a, b, ws) ← srcQS a b ws
    pure (.vred t d f a b, ws)
  | 11 => do unused fn; let g ← rawTag b; let (a, ws) ← srcQ a ws; pure (.vwid t d g a, ws)
  | 12 => do
    unused (fn.extractLsb' 1 3)
    let g ← rawTag b
    let (a, ws) ← srcQ a ws
    pure (.vnar t d (fn.getLsbD 0) g a, ws)
  | 13 => do
    unused (fn.extractLsb' 1 3)
    if fn.getLsbD 0 then do let g ← rawTag b; let (a, ws) ← srcS a ws; pure (.vbrd t d (.x a g), ws)
    else do let (a, b, ws) ← srcQS a b ws; pure (.vbrd t d (.e a b), ws)
  | 14 => do
    let f ← fld (VmskOp.ofCode fn)
    if f.isTwo then do
      let ma ← rawMask a
      let mb ← rawMask b
      need d.isMask
      pure (.vmsk t d (.two f ma mb), ws)
    else if f.isOne then do
      unused b
      let ma ← rawMask a
      need (d.isMask || decide (f ≠ .not))
      pure (.vmsk t d (.one f ma), ws)
    else do
      unused b
      let (a, ws) ← srcQ a ws
      need d.isMask
      pure (.vmsk t d (.fromv a), ws)
  | 15 => do
    unused b; unused (fn.extractLsb' 2 1)
    let f ← fld (RedOp.ofCode (fn.extractLsb' 0 2))
    let (a, ws) ← srcQ a ws
    pure (.vscn t d hi f a, ws)
  | _ => .error .reservedPoint

/-- Class 5, FNC (R182, R197). -/
def decFnc (op : Nat) (t : Tok) (w : BitVec 21) (ws : List IWord) : Dec :=
  let c : BitVec 5 := w.extractLsb' 16 5
  let d : Dst := .ofCode c
  let a : BitVec 6 := w.extractLsb' 10 6
  let b : BitVec 6 := w.extractLsb' 4 6
  let fn : BitVec 4 := w.extractLsb' 0 4
  let lo : BitVec 3 := fn.extractLsb' 0 3
  let hi : Bool := fn.getLsbD 3
  match op with
  | 0 => do
    let m ← fld (Rnd.ofCode lo)
    let g ← rawTag b
    let (a, ws) ← srcQ a ws
    pure (.cvt t d hi m g a, ws)
  | 1 => do
    unused (fn.extractLsb' 3 1)
    let m ← fld (Rnd.ofCode lo)
    let g ← rawTag b
    need d.mxqOk
    let (a, ws) ← srcQ a ws
    pure (.mxq t d m g a, ws)
  | 2 => do let g ← fld (Fmt.ofCode fn); need g.mxxOk; let (a, b, ws) ← srcVV a b ws; pure (.mxx t d g a b, ws)
  | 3 => do
    if fn = 0 then do unused c; let (a, b, ws) ← srcSS a b ws; pure (.srsdSet t a b, ws)
    else do need (decide (fn = 1)); unused a; unused b; pure (.srsdStep t d, ws)
  | 4 => do unused b; let f ← fld (SfaOp.ofCode fn); let (a, ws) ← srcQ a ws; pure (.sfa t d f a, ws)
  | 5 => do unused b; let f ← fld (SfbOp.ofCode fn); let (a, ws) ← srcQ a ws; pure (.sfb t d f a, ws)
  | 6 => do unused b; let f ← fld (SfcOp.ofCode fn); let (a, ws) ← srcQ a ws; pure (.sfc t d f a, ws)
  | 7 => do unused (fn.extractLsb' 2 2); let (a, b, ws) ← srcVV a b ws; pure (.smxs t d (fn.extractLsb' 0 2) a b, ws)
  | 8 => do unused fn; let (a, b, ws) ← srcQS a b ws; pure (.vlane t d a b, ws)
  | 9 => do let g ← fld (Fmt.ofCode fn); need g.isInt; let (a, b, ws) ← srcSS a b ws; pure (.vidx t d g a b, ws)
  | 10 => do unused b; unused fn; let (a, ws) ← srcQ a ws; pure (.fcls t d a, ws)
  | 11 => do
    let m ← fld (Rnd.ofCode lo)
    if hi then do
      need (decide (m = .rne)); unused b
      let (a, ws) ← srcQ a ws
      pure (.fsc t d true m a (.pop 0), ws)
    else do let (a, b, ws) ← srcVV a b ws; pure (.fsc t d false m a b, ws)
  | 12 => do unused a; unused b; let f ← fld (RndmOp.ofCode fn); pure (.rndm t d f, ws)
  | 13 => do let (a, b, ws) ← srcAny2 a b ws; pure (.vdot t d hi lo a b, ws)
  | _ => .error .reservedPoint

/-- Class 6, XFR (R265, R305, R320, R428). -/
def decXfr (op : Nat) (t : Tok) (w : BitVec 21) (ws : List IWord) : Dec :=
  let c : BitVec 5 := w.extractLsb' 16 5
  let d : Dst := .ofCode c
  let a : BitVec 6 := w.extractLsb' 10 6
  let b : BitVec 6 := w.extractLsb' 4 6
  let fn : BitVec 4 := w.extractLsb' 0 4
  match op with
  | 0 => do unused c; unused b; unused fn; let (a, ws) ← srcS a ws; pure (.cpy t a, ws)
  | 1 => do
    let f ← fld (AccOp.ofCode fn)
    need (decide (f ≠ .cas) || (match d with | .queue _ => true | _ => false))
    let (a, b, ws) ← srcSS a b ws
    pure (.cacc t d f a b, ws)
  | 2 => do
    unused b; unused (fn.extractLsb' 1 3)
    let (a, ws) ← srcS a ws
    if fn.getLsbD 0 then pure (.cwtTest t d a, ws) else pure (.cwt t d a, ws)
  | 3 => do
    unused (fn.extractLsb' 1 3)
    let (a, ws) ← srcS a ws
    if fn.getLsbD 0 then do unused c; unused b; pure (.cbndOff t a, ws)
    else do let (b, ws) ← srcS b ws; pure (.cbnd t (.ofCode c) a b, ws)
  | 4 => do
    unused (fn.extractLsb' 1 3)
    let (a, ws) ← srcS a ws
    if fn.getLsbD 0 then do unused b; pure (.rqry t d a, ws)
    else do let (b, ws) ← srcS b ws; pure (.rini t d a b, ws)
  | 5 => do unused fn; let (a, b, ws) ← srcSS a b ws; pure (.rwfl t d a b, ws)
  | 6 => do unused fn; let (a, b, ws) ← srcSS a b ws; pure (.rwfr t d a b, ws)
  | 7 => do unused fn; let (a, b, ws) ← srcSS a b ws; pure (.rclm t d a b, ws)
  | 8 => do unused c; unused fn; let (a, b, ws) ← srcSS a b ws; pure (.rpub t a b, ws)
  | 9 => do unused c; unused fn; let (a, b, ws) ← srcSS a b ws; pure (.rrel t a b, ws)
  | 10 => do let f ← fld (RlySrc.ofCode fn); let (a, b, ws) ← srcSS a b ws; pure (.rlys t d f a b, ws)
  | 11 => do
    let (a, b, ws) ← srcSS a b ws
    match fn.toNat with
    | 0 => pure (.rlyg t d a b, ws)
    | 1 => pure (.rlygAdd t d a b, ws)
    | 2 => pure (.rlygRet t d a b, ws)
    | _ => .error .reservedField
  | 12 => do unused fn; let (a, b, ws) ← srcSS a b ws; pure (.rlyw t d a b, ws)
  | 13 => do unused b; unused fn; let (a, ws) ← srcS a ws; pure (.hoff t d a, ws)
  | 14 => do
    let (a, ws) ← srcS a ws
    match fn.toNat with
    | 0 => unused b; pure (.hctlSeal t d a, ws)
    | 1 => unused b; pure (.hctlCommit t d a, ws)
    | 2 => unused b; pure (.hctlCancel t d a, ws)
    | 3 => let (b, ws) ← srcS b ws; pure (.hctlQry t d a b, ws)
    | 4 => unused b; pure (.hctlDrop t d a, ws)
    | _ => .error .reservedField
  | 15 => do unused b; unused fn; let (a, ws) ← srcS a ws; pure (.cwld t d a, ws)
  | _ => .error .reservedPoint

/-- Class 7, SYS (R148, R159, R364, R368, R402, R415). -/
def decSys (op : Nat) (t : Tok) (w : BitVec 21) (ws : List IWord) : Dec :=
  let c : BitVec 5 := w.extractLsb' 16 5
  let d : Dst := .ofCode c
  let a : BitVec 6 := w.extractLsb' 10 6
  let b : BitVec 6 := w.extractLsb' 4 6
  let fn : BitVec 4 := w.extractLsb' 0 4
  let form : BitVec 2 := fn.extractLsb' 2 2
  let space := fld (Space.ofCode (fn.extractLsb' 0 2))
  match op with
  | 0 => do
    let s ← space
    match form.toNat with
    | 0 => let (a, b, ws) ← srcSS a b ws; pure (.lendGrp t d s a b, ws)
    | 1 => let (a, b, ws) ← srcSS a b ws; pure (.lendPark t d s a b, ws)
    | _ => .error .reservedField
  | 1 => do let s ← space; unused form; unused b; let (a, ws) ← srcS a ws; pure (.retn t d s a, ws)
  | 2 => do
    let s ← space
    match form.toNat with
    | 0 => let (a, b, ws) ← srcSS a b ws; pure (.splitAddr t d s a b, ws)
    | 1 => let (a, b, ws) ← srcSS a b ws; pure (.splitRd t d s a b, ws)
    | 2 => let (a, b, ws) ← srcSS a b ws; pure (.splitWr t d s a b, ws)
    | _ => unused b; let (a, ws) ← srcS a ws; pure (.splitCmn t d s a, ws)
  | 3 => do
    let s ← space
    match form.toNat with
    | 0 => let (a, b, ws) ← srcSS a b ws; pure (.joinAddr t d s a b, ws)
    | 1 => unused b; let (a, ws) ← srcS a ws; pure (.joinShr t d s a, ws)
    | 2 => unused b; let (a, ws) ← srcS a ws; pure (.joinCmn t d s a, ws)
    | _ => unused b; let (a, ws) ← srcS a ws; pure (.joinRing t d s a, ws)
  | 4 => do
    let s ← space
    match form.toNat with
    | 0 => unused b; let (a, ws) ← srcS a ws; pure (.keywArr t d s a, ws)
    | 1 => let (a, b, ws) ← srcSS a b ws; pure (.keywTkt t d s a b, ws)
    | 2 => unused b; let (a, ws) ← srcS a ws; pure (.keywFree t d s a, ws)
    | _ => .error .reservedField
  | 5 => do let s ← space; unused form; unused b; let (a, ws) ← srcS a ws; pure (.keyq t d s a, ws)
  | 6 => do
    unused form
    let s ← fld (Scope.ofCode (c.extractLsb' 2 3))
    let o ← fld (Order.ofCode (0#1 ++ c.extractLsb' 0 2))
    if fn.getLsbD 0 then do
      let (a, b, ws) ← srcSS a b ws
      pure (.fence t s o (.flag (fn.getLsbD 1) a b), ws)
    else do unused fn; unused a; unused b; pure (.fence t s o .plain, ws)
  | 7 => do unused c; unused b; unused fn; let (a, ws) ← srcS a ws; pure (.trap t a, ws)
  | 8 => do unused w; pure (.tret t, ws)
  | 9 => do unused b; unused fn; let r ← fld (SysReg.ofCode a); pure (.srr t d r, ws)
  | 10 => do unused c; unused fn; let r ← fld (SysReg.ofCode a); let (b, ws) ← srcS b ws; pure (.srw t r b, ws)
  | 11 => do
    unused b; unused (fn.extractLsb' 1 3)
    let (a, ws) ← srcS a ws
    if fn.getLsbD 0 then pure (.lnchReq t d a, ws) else pure (.lnchNode t d a, ws)
  | 12 => do
    match fn.toNat with
    | 0 => let (a, b, ws) ← srcSS a b ws; pure (.errqRd t d a b, ws)
    | 1 => let (a, b, ws) ← srcSS a b ws; pure (.errqClr t d a b, ws)
    | 2 => unused b; let (a, ws) ← srcS a ws; pure (.errqSum t d a, ws)
    | _ => .error .reservedField
  | 13 => do unused fn; let (a, b, ws) ← srcSS a b ws; pure (.clrd t d a b, ws)
  | 14 => do
    match fn.toNat with
    | 0 => let (a, b, ws) ← srcSS a b ws; pure (.clgtSet t d a b, ws)
    | 1 => unused b; let (a, ws) ← srcS a ws; pure (.clgtClr t d a, ws)
    | 2 => let (a, b, ws) ← srcSS a b ws; pure (.clgtQry t d a b, ws)
    | _ => .error .reservedField
  | _ => .error .reservedPoint

/-- An instruction from its class, opcode, tokens, body and the words after it (R33, R48). -/
def decBody (cls op : Nat) (t : Tok) (w : BitVec 21) (ws : List IWord) : Dec :=
  match cls with
  | 0 => decCtl op t w ws
  | 1 => decInt op t w ws
  | 2 => decMem op t w ws
  | 3 => decMat op t w ws
  | 4 => decVec op t w ws
  | 5 => decFnc op t w ws
  | 6 => decXfr op t w ws
  | _ => decSys op t w ws

/-- The decoder over words: the instruction and the words after it, or why there is none. -/
def decodeWords : List IWord → Dec
  | [] => .error .truncated
  | w :: ws =>
    decBody (w.extractLsb' 29 3).toNat (w.extractLsb' 25 4).toNat (.ofCode (w.extractLsb' 21 4)) (w.extractLsb' 0 21) ws

/-- Bytes as little-endian words (R4); bytes that do not fill a word are left out. -/
def wordsOfBytes : List Byte → List IWord
  | b0 :: b1 :: b2 :: b3 :: rest => (b3 ++ b2 ++ b1 ++ b0) :: wordsOfBytes rest
  | _ => []

/-- A word as its four little-endian bytes (R4). -/
def bytesOfWord (w : IWord) : List Byte :=
  [w.extractLsb' 0 8, w.extractLsb' 8 8, w.extractLsb' 16 8, w.extractLsb' 24 8]

/-- The decoder over bytes: the instruction and the bytes after it. -/
def decode (bs : List Byte) : Except DecodeError (Instr × List Byte) := do
  let ws := wordsOfBytes bs
  let (i, rest) ← decodeWords ws
  pure (i, bs.drop (4 * (ws.length - rest.length)))

/-- The bytes of the low n bytes of a number, little-endian. -/
def bytesOfNat : Nat → Nat → List Byte
  | 0, _ => []
  | n + 1, w => BitVec.ofNat 8 w :: bytesOfNat n (w / 256)

/-- The instruction read from the first nbits bits of an instruction, its literal words zero. -/
def decodeTableWord (nbits w : Nat) : Option Instr :=
  if nbits < 32 then none
  else match decode (bytesOfNat 20 (w % 2 ^ nbits)) with
    | .ok (i, _) => some i
    | .error _ => none

/-! ### Literal positions of any word (R35, R40, R44), for check 1 of R47 -/

/-- Whether srcA and srcB of a word at a point are operand codes that may take literals. -/
def literalPositions (cls op fn : Nat) : Bool × Bool :=
  match cls, op with
  | 0, 4 | 0, 6 | 0, 7 | 0, 8 | 0, 10 | 0, 11 | 0, 14 => (true, false)
  | 0, _ => (false, false)
  | 1, 11 => (true, 5 ≤ fn)
  | 1, 13 | 1, 15 => (false, false)
  | 1, 14 => (true, fn == 6)
  | 1, _ => (true, true)
  | 2, 14 => (true, false)
  | 2, 12 => (true, fn ≤ 1)
  | 2, 10 | 2, 11 | 2, 13 | 2, 15 => (true, true)
  | 2, _ => (true, false)
  | 3, 0 | 3, 2 | 3, 3 | 3, 9 | 3, 15 => (false, false)
  | 3, 1 | 3, 6 | 3, 14 => (true, false)
  | 3, 13 => (fn == 0, false)
  | 3, 8 => (fn != 8, fn != 8)
  | 3, _ => (true, true)
  | 4, 11 | 4, 12 | 4, 15 => (true, false)
  | 4, 7 => (true, fn != 4)
  | 4, 9 => (true, fn != 2)
  | 4, 13 => (true, fn == 0)
  | 4, 14 => (fn == 7, false)
  | 4, _ => (true, true)
  | 5, 0 | 5, 1 | 5, 4 | 5, 5 | 5, 6 | 5, 10 => (true, false)
  | 5, 3 => (fn == 0, fn == 0)
  | 5, 11 => (true, fn < 8)
  | 5, 12 | 5, 14 | 5, 15 => (false, false)
  | 5, _ => (true, true)
  | 6, 0 | 6, 2 | 6, 13 | 6, 15 => (true, false)
  | 6, 3 | 6, 4 => (true, (if op == 3 then fn == 0 else fn == 0))
  | 6, 14 => (true, fn == 3)
  | 6, _ => (true, true)
  | 7, 1 | 7, 5 | 7, 7 | 7, 11 => (true, false)
  | 7, 8 | 7, 9 | 7, 15 => (false, false)
  | 7, 10 => (false, true)
  | 7, 2 => (true, fn < 12)
  | 7, 3 => (true, fn < 4)
  | 7, 4 => (true, 4 ≤ fn && fn < 8)
  | 7, 6 => (fn % 2 == 1, fn % 2 == 1)
  | 7, 12 => (true, fn != 2)
  | 7, 14 => (true, fn != 1)
  | 7, _ => (true, true)
  | _, _ => (false, false)

/-- The literal words an operand code takes (R40). -/
def litWords (c : BitVec 6) : Nat := if c = 0x3E then 1 else if c = 0x3F then 2 else 0

/-- How many words an instruction word begins (R44); a reserved word counts the literals of its point. -/
def wordCount (w : IWord) : Nat :=
  let p := literalPositions (w.extractLsb' 29 3).toNat (w.extractLsb' 25 4).toNat (w.extractLsb' 0 4).toNat
  1 + (if p.1 then litWords (w.extractLsb' 10 6) else 0) + (if p.2 then litWords (w.extractLsb' 4 6) else 0)

/-! ### The encoder -/

/-- The parts of an instruction's words: class and opcode, tokens, body, literal words. -/
structure Encoding where
  op : BitVec 7
  tok : Tok
  body : BitVec 21
  lits : List IWord
deriving DecidableEq, Repr

/-- The words of an encoding (R33, R44). -/
def Encoding.words (e : Encoding) : List IWord := (e.op ++ e.tok.code ++ e.body) :: e.lits

/-- Format A with two sources, their literals in order. -/
def encA (op : BitVec 7) (t : Tok) (d : BitVec 5) (a b : Src) (fn : BitVec 4) : Option Encoding :=
  some ⟨op, t, bodyA d a.code b.code fn, a.lits ++ b.lits⟩
/-- Format A with srcB raw. -/
def encA1 (op : BitVec 7) (t : Tok) (d : BitVec 5) (a : Src) (b : BitVec 6) (fn : BitVec 4) : Option Encoding :=
  some ⟨op, t, bodyA d a.code b fn, a.lits⟩
/-- Format A with both source fields raw. -/
def encA0 (op : BitVec 7) (t : Tok) (d : BitVec 5) (a b : BitVec 6) (fn : BitVec 4) : Option Encoding :=
  some ⟨op, t, bodyA d a b fn, []⟩
/-- Format B or I. -/
def encB (op : BitVec 7) (t : Tok) (c : BitVec 5) (p : BitVec 16) : Option Encoding := some ⟨op, t, bodyB c p, []⟩
/-- Format M. -/
def encM (op : BitVec 7) (t : Tok) (pk : Bool) (q : BitVec 4) (a : Src) (m : BitVec 8) (s : MSize) : Option Encoding :=
  some ⟨op, t, bodyM (BitVec.ofBool pk) q a.code m s.code, a.lits⟩

/-- The fn of a key instruction: form, then space (R148). -/
def keyFn (form : BitVec 2) (s : Space) : BitVec 4 := form ++ s.code
/-- A one-bit fn in <0>. -/
def bitFn (b : Bool) : BitVec 4 := 0#3 ++ BitVec.ofBool b
/-- A bit in <3> over three bits. -/
def hiFn (b : Bool) (x : BitVec 3) : BitVec 4 := BitVec.ofBool b ++ x
/-- Two bits in <1:0>. -/
def loFn (x : BitVec 2) : BitVec 4 := 0#2 ++ x
/-- A raw tag field (R182). -/
def tagField (f : Fmt) : BitVec 6 := 0#2 ++ f.code

/-- The encoding of an instruction with words; an event row has none. -/
def Instr.encoding : Instr → Option Encoding
  | .nop t => encB 0x00 t 0 0
  | .brcNz t q p => encB 0x01 t (0#1 ++ q) p
  | .brcZ t q p => encB 0x01 t (1#1 ++ q) p
  | .jmp t p => encB 0x02 t 0 p
  | .call t q p => encB 0x03 t (0#1 ++ q) p
  | .ret t a => encA1 0x04 t 0 a 0 0
  | .loop t k p => encB 0x05 t (0#2 ++ k) p
  | .lbrk t a n => encA1 0x06 t 0 a 0 (hiFn false n)
  | .tkw t a chk down => encA1 0x07 t 0 a 0 (0#2 ++ BitVec.ofBool chk ++ BitVec.ofBool down)
  | .tks t a down => encA1 0x08 t 0 a 0 (bitFn down)
  | .qopCnt t d q => encA0 0x09 t d.code (0#1 ++ q.code) 0 0
  | .qopDrop t q => encA0 0x09 t 0 (0#1 ++ q.code) 0 1
  | .qopClr t q => encA0 0x09 t 0 (0#1 ++ q.code) 0 2
  | .qopTcnt t d down => encA0 0x09 t d.code (0#5 ++ BitVec.ofBool down) 0 3
  | .lmov t d f a => encA1 0x0A t d.code a 0 f.code
  | .clh t a abs => encA1 0x0B t 0 a 0 (bitFn abs)
  | .yield t => encB 0x0C t 0 0
  | .exit t => encB 0x0D t 0 0
  | .sleep t a => encA1 0x0E t 0 a 0 0
  | .add t d m w a b => encA 0x10 t d.code a b (addFn m w)
  | .sub t d m w a b => encA 0x11 t d.code a b (addFn m w)
  | .mul t d f a b => encA 0x12 t d.code a b f.code
  | .div t d f w a b => encA 0x13 t d.code a b (0#1 ++ BitVec.ofBool w ++ f.code)
  | .and t d n a b => encA 0x14 t d.code a b (bitFn n)
  | .or t d n a b => encA 0x15 t d.code a b (bitFn n)
  | .xor t d n a b => encA 0x16 t d.code a b (bitFn n)
  | .shf t d f w a b => encA 0x17 t d.code a b (hiFn w f.code)
  | .cmp t d f w a b => encA 0x18 t d.code a b (hiFn w f.code)
  | .sel t d z q a b => encA 0x19 t d.code a b (hiFn z q)
  | .minmax t d f a b => encA 0x1A t d.code a b f.code
  | .bits t d f a b => encA 0x1B t d.code a b f.code
  | .agen t d f a b => encA 0x1C t d.code a b f.code
  | .li t d i => encB 0x1D t d.code i
  | .ext t d f a b => encA 0x1E t d.code a b f.code
  | .ldl t q a m s => encM 0x20 t false q a m s
  | .stl t pk q a m s => encM 0x21 t pk q a m s
  | .ldg t q a m s => encM 0x22 t false q a m s
  | .stg t pk q a m s => encM 0x23 t pk q a m s
  | .ldd t q a m s => encM 0x24 t false q a m s
  | .std t pk q a m s => encM 0x25 t pk q a m s
  | .ldb t q a m s => encM 0x26 t false q a m s
  | .stb t pk q a m s => encM 0x27 t pk q a m s
  | .pfd t a m => encM 0x28 t false 0 a m .b512
  | .loc t d f a => encA1 0x29 t d.code a 0 (loFn f.code)
  | .bopn t d a b => encA 0x2A t d.code a b 0
  | .bshr t d a b => encA 0x2B t d.code a b 0
  | .bfre t d f a b => encA 0x2C t d.code a b f.code
  | .bfreClose t d a => encA1 0x2C t d.code a 0 3
  | .binv t d all a b => encA 0x2D t d.code a b (bitFn all)
  | .bqry t d f a => encA1 0x2E t d.code a 0 f.code
  | .bgrw t d a b => encA 0x2F t d.code a b 0
  | .bgrwRel t d a b => encA 0x2F t d.code a b 1
  | .leaseAcq t d => encA0 0x30 t d.code 0 0 0
  | .leaseRel t => encA0 0x30 t 0 0 0 1
  | .wld t ks w dev a => encA1 0x31 t 0 a 0 (0#1 ++ BitVec.ofBool ks ++ BitVec.ofBool (decide (w = .b16)) ++ BitVec.ofBool dev)
  | .wswp t => encB 0x32 t 0 0
  | .mxh t h =>
    some ⟨0x33, t, bodyH h.afmt.code h.bfmt.code h.ofmt.code (0#1 ++ BitVec.ofBool h.sparse) (BitVec.ofBool h.grp) h.rows, []⟩
  | .mxa t sc a b => encA 0x34 t 0 a b (bitFn sc)
  | .mxsq t a b => encA 0x35 t 0 a b 0
  | .mxmd t a => encA1 0x36 t 0 a 0 0
  | .mxgr t g a b => encA 0x37 t 0 a b (loFn g)
  | .mxdr t m a b => encA 0x38 t 0 a b (hiFn false m.code)
  | .mxdrKeep t => encA0 0x38 t 0 0 0 8
  | .mxz t both => encA0 0x39 t 0 0 0 (bitFn both)
  | .mvk t g a b => encA 0x3A t 0 a b (loFn g)
  | .mvq t d msk a b => encA 0x3B t d.code a b (bitFn msk)
  | .mvv t msk q a b => encA 0x3C t 0 a b (hiFn msk q)
  | .mvm t a => encA1 0x3D t 0 a 0 0
  | .mvmOff t => encA0 0x3D t 0 0 0 1
  | .mvd t d m f a => encA1 0x3E t d.code a (tagField f) (hiFn false m.code)
  | .vadd t d sat m a b => encA 0x40 t d.code a b (hiFn sat m.code)
  | .vsub t d sat m a b => encA 0x41 t d.code a b (hiFn sat m.code)
  | .vmul t d sat m a b => encA 0x42 t d.code a b (hiFn sat m.code)
  | .vfma t d neg q a b => encA 0x43 t d.code a b (hiFn neg q)
  | .vmnx t d f a b => encA 0x44 t d.code a b f.code
  | .vcmp t d sig c a b => encA 0x45 t d.code a b (hiFn sig c.code)
  | .vsel t d inv k a b => encA 0x46 t d.code a b (hiFn inv k)
  | .vlog t d f a b => encA 0x47 t d.code a b f.code
  | .vshf t d f a b => encA 0x48 t d.code a b (hiFn false f.code)
  | .vprm t d f a b => encA 0x49 t d.code a b f.code
  | .vred t d f a b => encA 0x4A t d.code a b (loFn f.code)
  | .vwid t d g a => encA1 0x4B t d.code a (tagField g) 0
  | .vnar t d sat g a => encA1 0x4C t d.code a (tagField g) (bitFn sat)
  | .vbrd t d (.e a b) => encA 0x4D t d.code a b 0
  | .vbrd t d (.x a g) => encA1 0x4D t d.code a (tagField g) 1
  | .vmsk t d (.two f ma mb) => encA0 0x4E t d.code (0#3 ++ ma) (0#3 ++ mb) f.code
  | .vmsk t d (.one f ma) => encA0 0x4E t d.code (0#3 ++ ma) 0 f.code
  | .vmsk t d (.fromv a) => encA1 0x4E t d.code a 0 7
  | .vscn t d ex f a => encA1 0x4F t d.code a 0 (BitVec.ofBool ex ++ 0#1 ++ f.code)
  | .cvt t d sat m g a => encA1 0x50 t d.code a (tagField g) (hiFn sat m.code)
  | .mxq t d m g a => encA1 0x51 t d.code a (tagField g) (hiFn false m.code)
  | .mxx t d g a b => encA 0x52 t d.code a b g.code
  | .srsdSet t a b => encA 0x53 t 0 a b 0
  | .srsdStep t d => encA0 0x53 t d.code 0 0 1
  | .sfa t d f a => encA1 0x54 t d.code a 0 f.code
  | .sfb t d f a => encA1 0x55 t d.code a 0 f.code
  | .sfc t d f a => encA1 0x56 t d.code a 0 f.code
  | .smxs t d lg a b => encA 0x57 t d.code a b (loFn lg)
  | .vlane t d a b => encA 0x58 t d.code a b 0
  | .vidx t d g a b => encA 0x59 t d.code a b g.code
  | .fcls t d a => encA1 0x5A t d.code a 0 0
  | .fsc t d xp m a b => encA 0x5B t d.code a b (hiFn xp m.code)
  | .rndm t d f => encA0 0x5C t d.code 0 0 f.code
  | .vdot t d neg q a b => encA 0x5D t d.code a b (hiFn neg q)
  | .cpy t a => encA1 0x60 t 0 a 0 0
  | .cacc t d f a b => encA 0x61 t d.code a b f.code
  | .cwt t d a => encA1 0x62 t d.code a 0 0
  | .cwtTest t d a => encA1 0x62 t d.code a 0 1
  | .cbnd t q a b => encA 0x63 t q.code a b 0
  | .cbndOff t a => encA1 0x63 t 0 a 0 1
  | .rini t d a b => encA 0x64 t d.code a b 0
  | .rqry t d a => encA1 0x64 t d.code a 0 1
  | .rwfl t d a b => encA 0x65 t d.code a b 0
  | .rwfr t d a b => encA 0x66 t d.code a b 0
  | .rclm t d a b => encA 0x67 t d.code a b 0
  | .rpub t a b => encA 0x68 t 0 a b 0
  | .rrel t a b => encA 0x69 t 0 a b 0
  | .rlys t d s a b => encA 0x6A t d.code a b s.code
  | .rlyg t d a b => encA 0x6B t d.code a b 0
  | .rlygAdd t d a b => encA 0x6B t d.code a b 1
  | .rlygRet t d a b => encA 0x6B t d.code a b 2
  | .rlyw t d a b => encA 0x6C t d.code a b 0
  | .hoff t d a => encA1 0x6D t d.code a 0 0
  | .hctlSeal t d a => encA1 0x6E t d.code a 0 0
  | .hctlCommit t d a => encA1 0x6E t d.code a 0 1
  | .hctlCancel t d a => encA1 0x6E t d.code a 0 2
  | .hctlQry t d a b => encA 0x6E t d.code a b 3
  | .hctlDrop t d a => encA1 0x6E t d.code a 0 4
  | .cwld t d a => encA1 0x6F t d.code a 0 0
  | .lendGrp t d s a b => encA 0x70 t d.code a b (keyFn 0 s)
  | .lendPark t d s a b => encA 0x70 t d.code a b (keyFn 1 s)
  | .retn t d s a => encA1 0x71 t d.code a 0 (keyFn 0 s)
  | .splitAddr t d s a b => encA 0x72 t d.code a b (keyFn 0 s)
  | .splitRd t d s a b => encA 0x72 t d.code a b (keyFn 1 s)
  | .splitWr t d s a b => encA 0x72 t d.code a b (keyFn 2 s)
  | .splitCmn t d s a => encA1 0x72 t d.code a 0 (keyFn 3 s)
  | .joinAddr t d s a b => encA 0x73 t d.code a b (keyFn 0 s)
  | .joinShr t d s a => encA1 0x73 t d.code a 0 (keyFn 1 s)
  | .joinCmn t d s a => encA1 0x73 t d.code a 0 (keyFn 2 s)
  | .joinRing t d s a => encA1 0x73 t d.code a 0 (keyFn 3 s)
  | .keywArr t d s a => encA1 0x74 t d.code a 0 (keyFn 0 s)
  | .keywTkt t d s a b => encA 0x74 t d.code a b (keyFn 1 s)
  | .keywFree t d s a => encA1 0x74 t d.code a 0 (keyFn 2 s)
  | .keyq t d s a => encA1 0x75 t d.code a 0 (keyFn 0 s)
  | .fence t c o .plain => encA0 0x76 t (c.code ++ o.code.extractLsb' 0 2) 0 0 0
  | .fence t c o (.flag dev a b) => encA 0x76 t (c.code ++ o.code.extractLsb' 0 2) a b (0#2 ++ BitVec.ofBool dev ++ 1#1)
  | .trap t a => encA1 0x77 t 0 a 0 0
  | .tret t => encB 0x78 t 0 0
  | .srr t d r => encA0 0x79 t d.code r.code 0 0
  | .srw t r b => some ⟨0x7A, t, bodyA 0 r.code b.code 0, b.lits⟩
  | .lnchNode t d a => encA1 0x7B t d.code a 0 0
  | .lnchReq t d a => encA1 0x7B t d.code a 0 1
  | .errqRd t d a b => encA 0x7C t d.code a b 0
  | .errqClr t d a b => encA 0x7C t d.code a b 1
  | .errqSum t d a => encA1 0x7C t d.code a 0 2
  | .clrd t d a b => encA 0x7D t d.code a b 0
  | .clgtSet t d a b => encA 0x7E t d.code a b 0
  | .clgtClr t d a => encA1 0x7E t d.code a 0 1
  | .clgtQry t d a b => encA 0x7E t d.code a b 2
  | .clhHoldEnd .. | .sleepWake .. | .timedResultLands .. | .pendingEntryLands .. | .handshakeAcknowledged ..
  | .evictionFreezeEnd .. | .postedWriteAck .. | .retentionEntry .. | .retentionExit .. | .leaseGrant .. | .leaseBudgetEnd ..
  | .arrayPass .. | .replayFreezeEnd .. | .copyComplete .. | .arrivalElementLands .. | .accumulateApplied ..
  | .relayPayloadLands .. | .channelBreak .. | .handoffBlockMove .. | .handoffCompletionEvent .. | .cwldChunk ..
  | .keyArrival .. | .watchdog .. | .submissionRecord .. | .requestAdmission | .requestAging .. | .kernFire .. | .kernFinish ..
  | .xferFire .. | .ifFire .. | .whileFire .. | .switchFire .. | .relayFire .. | .handFire .. | .waitFire .. | .doneFire ..
  | .groupPlacement .. | .kernelImageLoad .. | .drainingEnd .. | .preemptionRequest .. | .preemptTimeoutBoundary ..
  | .groupSave .. | .groupRestore .. | .correctedError .. | .uncorrectableError .. | .contextLoss | .snaggingAudit ..
  | .unreachableVerdict .. | .packageReset .. | .topologyCompute .. | .getVersion .. | .getCapabilities ..
  | .negotiateAlgorithms .. | .getDigests .. | .getCertificate .. | .challenge .. | .getMeasurements .. | .keyExchange ..
  | .finish .. | .heartbeat .. | .endSession .. | .spdmUnsupported .. | .create .. | .destroy .. | .setcfg .. | .verify ..
  | .dropm .. | .powerMonitor .. | .freezeN | .scanShift .. | .illop .. | .corefail .. | .hostReadAbort ..
  | .moduleController .. | .peerContextAccess .. | .peerContextLost .. | .childPartial .. | .rootConfirmation .. => none

/-- The words of an instruction; an event row has none, and a reserved word is itself. -/
def encode (i : Instr) : List IWord :=
  match i with
  | .illop w => [w]
  | i => match i.encoding with
    | some e => e.words
    | none => []

/-- The instruction word, as TRAPINFO gives it (R55). -/
def Instr.word (i : Instr) : IWord := (encode i).headD 0

/-- The number of words of the instruction (R44). -/
def Instr.length (i : Instr) : Nat :=
  match i with
  | .illop w => wordCount w
  | i => (encode i).length

/-- The token field of an instruction with words (R34). -/
def Instr.tok (i : Instr) : Tok :=
  match i.encoding with
  | some e => e.tok
  | none => .none

end Sys2Proof
end

