-- ==== Sys2Proof/Machine/State.lean ====
section
/-! DEFINITION. The state of the machine as plain data, the reasons a step can stop, and the state after reset.
State has four parts: the turns that decide what acts next (log 1, log 2), the package machine, the trust die, and the
model's own counters. Register values read at reset are named in INVENTORY.md. -/

namespace Sys2Proof.Machine

/-- A sparse table: keys strictly rising, an absent key standing for the table's default. -/
abbrev SMap (α : Type) := List (Nat × α)

/-- Sparse memory: addresses strictly rising, no entry zero; an unlisted byte reads 0 (log 6). -/
abbrev Mem := List Host.Cell

/-! ### Queues, tokens and results (R20, R64, R72, R75) -/

/-- The contents of a reserved queue slot; a present value that an uncorrectable error struck is poisoned (R395). An empty slot
is no slot. -/
inductive Entry (α : Type) where
  | present (v : α)
  | pending
  | inFlight
  | poisoned
deriving DecidableEq, Repr

/-- A reserved slot; its number says which result lands in it. -/
structure QSlot (α : Type) where
  id : Nat
  entry : Entry α
deriving DecidableEq, Repr

/-- A vector queue entry: 512 bytes and a type tag (R20). -/
structure VEntry where
  tag : Fmt
  bits : VBits
deriving DecidableEq, Repr

/-- A token queue (R75): posted, reserved by pushers, and posted this cycle (R72: poppable from the next). -/
structure TokQ where
  posted : Nat
  reserved : Nat
  arriving : Nat
deriving DecidableEq, Repr

/-- A hardware-loop level (R81). -/
structure LoopLevel where
  start : Offset
  stop : Offset
  k : BitVec 3
deriving DecidableEq, Repr

/-- STATUS (R54): the mode and the seven sticky flags, bit i of flags being STATUS<i>; fresh holds the flags that
hardware set in the current cycle (R377). The reserved bits have no place here, so they read 0. -/
structure Status where
  super : Bool
  flags : BitVec 7
  fresh : BitVec 7
deriving DecidableEq, Repr

/-- Where a result goes, with its value: the slot reserved for it, a loop register, a mask, or nowhere (R42). A mask that a
scalar result gives keeps that scalar too (R100, R381). -/
inductive Landing where
  | x (q : SeqId) (n : BitVec 4) (slot : Nat) (v : Word)
  | v (n : BitVec 4) (slot : Nat) (e : VEntry)
  | loop (q : SeqId) (k : BitVec 3) (v : Word)
  | mask (k : Fin 7) (v : MaskBits) (w : Word)
  | none
deriving DecidableEq, Repr

/-- A timed result in flight: its place in the order of issue, the issuing sequencer's clock at which it lands, its flags and
tokens (R71, R72, R99). -/
structure Timed where
  id : Nat
  lands : Nat
  dest : Landing
  satur : Bool
  divz : Bool
  pu : Bool
  pd : Bool
deriving DecidableEq, Repr

/-- Why a sequencer is not issuing (R89, R91): clocks are the sequencer's own. -/
inductive Pause where
  | run
  | hold (until_ : Nat)
  | holdAbs (cycles : Word)
  | sleep (limit : Option Nat)
deriving DecidableEq, Repr

/-- What a KEYW asks of a key's rack (R155): that the group holds it, a parked key by ticket and context, or a free key. -/
inductive KeyAsk where
  | arr
  | tkt (ticket : BitVec 16) (ctx : BitVec 6)
  | free
deriving DecidableEq, Repr

/-- A KEYW whose request waits at the rack (R155): the region, what it asks, its place in the order of the requests. -/
structure KeyWait where
  rid : Nat
  ask : KeyAsk
  order : Nat
deriving DecidableEq, Repr

/-- A sequencer (R19, R20, R53, R75, R81, R95, R96). clock counts the cycles in which it was not frozen; stall is the kind of
the stall that wdCount counts. wrote says when each loop register, and from 8 on each mask, was last written and by which
issue (R71); keyWait is its request at a key rack, of meaning while it stalls (R155); undo holds, while a pre-emption is pending, the results that landed with the present cycle, each with what its
register held, and flags0 the flags before them (R379); waitsOut says that it waits where a pre-emption does not take it
(R378). -/
structure Seq where
  pc : Offset
  xq : SMap (List (QSlot Word))
  loops : SMap Word
  stack : List LoopLevel
  inUp : TokQ
  inDown : TokQ
  status : Status
  trapCause : Word
  trapPc : Word
  trapInfo : Word
  wdLimit : Word
  wdCount : Nat
  stall : Nat
  clock : Nat
  readyAt : Nat
  pause : Pause
  nudged : Bool
  timed : List Timed
  exited : Bool
  stopped : Bool
  taken : Bool
  stopClock : Nat
  yielded : Bool
  timeout : Bool
  blockedOn : Option Nat
  wrote : SMap (Nat × Nat)
  undo : List (Timed × Landing)
  flags0 : BitVec 7
  waitsOut : Bool
  keyWait : Option KeyWait
deriving DecidableEq, Repr

/-! ### Names of groups, regions and holders -/

/-- A group: the launch that made it and its index there (R142). -/
structure Gid where
  launch : Nat
  idx : Nat
deriving DecidableEq, Repr

/-- Key states (R144). -/
inductive KState where | free | excl | shared | scatter | transit | ring | common | lost
deriving DecidableEq, Repr

/-- Holders of a key or share (R142); setup is a KERN's set-up by request and node, or with node 65,536 a stream (R353, R356), hand a HAND node (R446), engine
a CWLD (R430), remote a share taken by a group of another package (R411), gone a share absorbed (R449). -/
inductive Holder where
  | none
  | group (g : Gid)
  | waybill (w : Nat)
  | parked (ticket : BitVec 16) (ctx : BitVec 6) (pkg : Option (BitVec 10))
  | ring
  | setup (r : Nat) (n : Nat)
  | hand (r : Nat)
  | engine (c : Nat) (o : Nat)
  | remote (pkg : BitVec 10) (ctx : BitVec 6) (grp : Nat)
  | moving
  | gone
deriving DecidableEq, Repr

/-- A share of a SHARED or SCATTER key (R144). lender lists the groups that passed it on, the last first (R142; log 26). -/
structure Share where
  holder : Holder
  lender : List Gid
deriving DecidableEq, Repr

/-- A key (R141 to R145). lender lists the groups that passed it on, the last first (R142; log 26); left lists the contexts whose
groups gave up the key or a share of it to nobody while shares are out (R139, R146). -/
structure Key where
  state : KState
  holder : Holder
  lender : List Gid
  shares : List Share
  splitter : Option Gid
  left : List (BitVec 6)
deriving DecidableEq, Repr

/-- The state of a ring slot (R281). A group holds a slot from the finish of its RCLM or RWFL (R279): held. One that is published
or released names the operation that does it. -/
inductive RSlot where
  | free
  | claimed (g : Gid) (held : Bool)
  | publishing (o : Nat)
  | published
  | reading (g : Gid) (held : Bool)
  | releasing (o : Nat)
deriving DecidableEq, Repr

/-- Ring hardware of a region (R278); relay is the relay channel and direction of a relay ring (R304). -/
structure Ring where
  slots : Nat
  size : Nat
  c : BitVec 32
  t : BitVec 32
  w : BitVec 32
  h : BitVec 32
  state : SMap RSlot
  relay : Option (Nat × Bool)
deriving DecidableEq, Repr

/-- A region or sequence with its key (R140). base is an address of its space; for a sequence it is the handle. -/
structure Region where
  rid : Nat
  ctx : BitVec 6
  space : Space
  base : Nat
  size : Nat
  home : Nat
  key : Key
  ring : Option Ring
deriving DecidableEq, Repr

/-- What a group may do with a region it holds (R122). -/
inductive Right where | excl | read | write
deriving DecidableEq, Repr

/-- An entry of a core's key view (R143). -/
structure Hold where
  rid : Nat
  right : Right
deriving DecidableEq, Repr

/-! ### Handshake operations (R17, R34) -/

/-- A remote or local range of lines to invalidate in the read-stage buffer (R127): dev, first byte, length. -/
structure LineRange where
  dev : Bool
  base : Nat
  len : Nat
deriving DecidableEq, Repr

/-- What a load read: its range, and the slice (36 × die + tile) it waits for when that is in retention (R131, R152). -/
structure LoadRef where
  space : Space
  ea : Nat
  len : Nat
  slice : Option Nat
deriving DecidableEq, Repr

/-- What finishing an operation does besides landing its results. `shows` gives the view back what the rack has of a region,
which the view has been without since the operation started (R294). -/
inductive Fin_ where
  | gain (h : Hold)
  | shows (rid : Nat)
  | drop (h : Hold)
  | lines (r : LineRange)
  | allLines
  | bind (q : SeqId) (s : QSel) (obj : Nat) (count : Nat)
  | unmask (k : Fin 7)
  | bufAck (n : Nat)
  | slots (rid first n : Nat)
deriving DecidableEq, Repr

/-- A copy in progress (R266, R267): the record, the run reached, the bytes of the run that are read and written. -/
structure CopyOp where
  obj : Nat
  ssp : Nat
  dsp : Nat
  sbase : Nat
  dbase : Nat
  n0 : Nat
  n1 : Nat
  n2 : Nat
  sstr1 : Int
  sstr2 : Int
  dstr1 : Int
  dstr2 : Int
  pkg : BitVec 10
  begun : Bool
  run : Nat
  buf : Option (List Byte)
  done : Nat
  super : Bool
deriving DecidableEq, Repr

/-- A local (captured) row of A: its bytes by offset (R234). -/
structure ARow where
  bytes : Mem
  scaled : Bool
deriving DecidableEq, Repr

/-- What the array has carried out since a clause opened, kept for a restart (R232): an instruction of the clause's own body, or
the bytes that a WLD or MXSQ after the clause has loaded. -/
inductive BodyItem where
  | wld (ks : Bool) (w : WldWidth) (dev : Bool) (a : Nat)
  | mxsq (a s count : Nat)
  | mxa (a stride count bytes : Nat) (sc : Bool)
  | loaded (ks : Bool) (w : WldWidth) (image : Mem)
  | latched (s : Nat) (bytes : List Byte)
deriving DecidableEq, Repr

/-- An open or closed clause (R230, R233 to R237): at is the offset of its MXH; the operations that started after it are numbered
from first on; body is what the array has carried out of them before the pass (R232). -/
structure Clause where
  header : MxHeader
  at_ : Offset
  rows : Nat
  md : Option Nat
  groups : Option (List Nat)
  zero : Option Bool
  back : Option Offset
  first : Nat
  body : List BodyItem
deriving DecidableEq, Repr

/-- Accumulates and flags: the word, the operation and the order (R273, R159); sent says that one toward another package has
left (R276). -/
structure AccOpRec where
  op : AccOp
  w32 : Bool
  dev : Bool
  pa : Nat
  va : Nat
  remote : Option (BitVec 10)
  operand : Word
  comparand : Word
  scope : Scope
  order : Order
  sent : Bool
deriving DecidableEq, Repr

/-- A CWLD that the engine runs (R430): the manifest's last length and leaves, and the next chunk. -/
structure CwldRun where
  last : Nat
  leaves : List (BitVec 256)
  next : Nat
deriving DecidableEq, Repr

/-- What a handshake operation still has to do when it is served. An operation that carries `values` took effect as it
started and only has its results to land. -/
inductive OpKind where
  | values
  | store (n : Nat)
  | lend (rid : Nat) (right : Right) (dest : Holder) (zero : Bool)
  | retn (rid : Nat) (right : Right)
  | remoteRetn (pkg : BitVec 10) (addr base size what arg : Nat) (dest : Option (Gid × Right))
  | splitCmn (rid : Nat)
  | rpub (rid : Nat) (first n : Nat)
  | rrel (rid : Nat) (first n : Nat)
  | fence (scope : Scope) (order : Order) (flag : Option AccOpRec)
  | cacc (a : AccOpRec)
  | cpy (c : CopyOp)
  | wld (ks : Bool) (w : WldWidth) (dev : Bool) (a : Nat)
  | wswp
  | mxa (a stride count bytes : Nat) (sc : Bool)
  | mxsq (a s count : Nat)
  | mxz (both : Bool)
  | mxdr (cl : Clause) (passed : Bool) (drain : Option (Rnd × Bool × Nat × Nat))
  | mvk (g : Nat) (h : Nat) (q : List (List (BitVec 16)))
  | mvq (msk : Bool) (a : Word) (scale : BitVec 32)
  | mvv (msk : Bool) (a : Word) (p st : VEntry)
  | mvm (m : Option Word)
  | mvd (r : Nat) (f : Fmt) (m : Rnd)
  | bshr (s d n : Nat)
  | bfre (h : Nat) (f : Option BfreOp) (layer block n : Nat)
  | binv (h : Nat) (all : Bool) (layer block t0 : Nat) (bm : Word)
  | rlys (chan : Nat) (toFf : Bool) (slot : Nat) (obj : Nat) (s : RlySrc) (a : Nat) (read : Option (List Byte))
  | rlyg (chan : Nat) (toFf : Bool) (form : Nat) (n : Nat)
  | hoff (desc : List Word) (k v hrid : Nat)
  | hctl (form : Nat) (w : Nat)
  | hqry (w i : Nat)
  | cwld (words : List Word) (rids : List Nat) (run : Option CwldRun)
  | lnchNode (a : Word)
  | lnchReq (words : List Word)
  | clrd (grp : Nat) (chunk : BitVec 32) (src : Nat)
  | clgtClr (grp : Nat)
deriving DecidableEq, Repr

/-- A handshake operation of a core: who issued it and in which cycle (R152), what it owes, and the results and actions of
its finish. -/
structure Op where
  id : Nat
  seq : SeqId
  pu : Bool
  pd : Bool
  kind : OpKind
  dests : List Landing
  flags : BitVec 7
  fin : List Fin_
  load : Option LoadRef
  cycle : Nat
deriving DecidableEq, Repr

/-- A write that takes effect at the end of the cycle (R124, R129, R143, R178, R377). -/
inductive Later where
  | localWrite (a : Nat) (bytes : List Byte)
  | post (n : Nat)
  | seed (w : Word)
  | step (w : BitVec 32)
  | dropHold (h : Hold)
  | dropRegion (rid : Nat)
  | slotState (rid : Nat) (slot n : Nat) (s : RSlot)
deriving DecidableEq, Repr

/-- Where in a block a write goes (R288): the pool, the frame, the offset and the shape of its sequence. -/
structure BlockPos where
  pool : Nat
  frame : Nat
  off : Nat
  shape : Word
deriving DecidableEq, Repr

/-- A posted write (R128, R130): live once its start cycle has ended; pa is its home address, cycle that of its start (R152);
bad says that its data is poisoned (R395). -/
structure Posted where
  id : Nat
  space : Space
  ea : Nat
  pa : Nat
  data : List Byte
  frame : Option BlockPos
  live : Bool
  cycle : Nat
  bad : Bool
deriving DecidableEq, Repr

/-- A line of the read-stage buffer (R127): the 512 bytes staged from home, and its poisoned words (R395). -/
structure Line where
  dev : Bool
  base : Nat
  data : Mem
  poison : List Nat
deriving DecidableEq, Repr

/-- A completion object (R263): the destinations it joins are invalidated when CWT sees pend at 0 (R127, R272). -/
structure CompObj where
  pend : Nat
  units : Nat
  joined : Nat
  status : Nat
  dests : List LineRange
deriving DecidableEq, Repr

/-- An arrival binding (R270). -/
structure Binding where
  seq : SeqId
  sel : QSel
  obj : Nat
  left : Nat
deriving DecidableEq, Repr

/-- A mask register m1 to m7 and the operations whose write of it is pending (R194). -/
structure MaskReg where
  bits : MaskBits
  pending : Nat
deriving DecidableEq, Repr

/-- The owner tag of a local granule (R126). -/
inductive Owner where
  | never
  | group (g : Gid) (ctx : BitVec 6)
  | freed (ctx : BitVec 6)
deriving DecidableEq, Repr

/-- An instruction-memory plane (R21, R359): its bytes, the image length, the kernel it holds. -/
structure Plane where
  bytes : Mem
  poison : List Nat
  len : Nat
  hash : Option (BitVec 256)
deriving DecidableEq, Repr

/-- The column array's state (R245). acc and latches are sparse, absent meaning +0. -/
structure Column where
  q : SMap (BitVec 16)
  g : Nat
  h : Nat
  mask : Option Word
  acc : SMap (BitVec 32)
deriving DecidableEq, Repr

/-- A loop-table level as a group sees it (R84). -/
structure TabLevel where
  kind : Nat
  count : Nat
  idx : Nat
deriving DecidableEq, Repr

/-- The group on a core (R23, R84, R95, R220, R223 to R226). lens are the image lengths of ctl, ld, cmp, st; spill0 and spill1
are the banks that a handover took from it (log 31), spillBad their poisoned entries (R395), entry i of bank b as b × 2^19 + i;
lostMark is the array's count of grants when its last holding ended. -/
structure Group where
  gid : Gid
  ctx : BitVec 6
  req : Nat
  node : Nat
  hash : BitVec 256
  table : List TabLevel
  lens : List Nat
  draining : Bool
  want : Bool
  bank : Bool
  live0 : Bool
  live1 : Bool
  lostMark : Nat
  spill0 : Option (SMap (BitVec 32))
  spill1 : Option (SMap (BitVec 32))
  spillBad : List Nat
  held : Bool
  preempt : Option (Nat × Nat)
  evicted : List Nat
  slotAt : Nat
deriving DecidableEq, Repr

/-- What ends an eviction freeze (R126): cycles left, or the acknowledgement of a save-area transfer. -/
inductive Freeze where
  | none
  | cycles (n : Nat)
  | save
deriving DecidableEq, Repr

/-- A physical core (R20, R22); failed until it is reset in place (R147, R398); ended in the cycle in which draining ended
(R93). -/
structure Core where
  group : Option Group
  ctl : Seq
  ld : Seq
  cmp : Seq
  st : Seq
  vq : SMap (List (QSlot VEntry))
  masks : SMap MaskReg
  local_ : Mem
  localPoison : List Nat
  granules : SMap Owner
  lines : List Line
  posted : List Posted
  later : List Later
  ops : List Op
  seed : Word
  step : BitVec 32
  objs : SMap CompObj
  bindings : List Binding
  view : List Hold
  clause : Option Clause
  aRows : List (Nat × ARow)
  column : Column
  cycles : Word
  freeze : Freeze
  replay : Nat
  active : SMap Plane
  shadow : SMap Plane
  failed : Bool
  ended : Bool
deriving DecidableEq, Repr

/-! ### The arrays (R217 to R226, R242) -/

/-- One weight plane: image bytes at 2 × (1024 k + n), scale latches away from their base value, tag. -/
structure WPlane where
  cells : Mem
  base : BitVec 8
  scales : SMap (BitVec 8)
  tag : Option Gid
deriving DecidableEq, Repr

/-- The lease state machine (R224): the last holder is kept in FREE. -/
inductive LeaseState where
  | free
  | held (core : Nat)
  | ending (core : Nat)
  | offline
deriving DecidableEq, Repr

/-- A leased array of a P-die cluster. Banks hold f32 at 1024 m + n, absent meaning +0; bad names their poisoned entries (R395),
entry i of bank b as b × 2^19 + i. -/
structure Array_ where
  active : WPlane
  shadow : WPlane
  bank0 : SMap (BitVec 32)
  bank1 : SMap (BitVec 32)
  bad : List Nat
  lease : LeaseState
  lastCore : Option Nat
  lastGroup : Option (Gid × BitVec 6)
  grants : Nat
  clauses : Nat
  grantClock : Nat
  passes : Nat
  repl : Option (Nat × Nat)
  spBad : Bool
  zeroed : Bool
deriving DecidableEq, Repr

/-! ### Block store (R284 to R287) -/

/-- A sequence (R286): map keys are layer × 2^20 + block, values frame numbers of the column. -/
structure BSeq where
  ctx : BitVec 6
  handle : Nat
  shape : Word
  map : SMap Nat
  resv : Nat
deriving DecidableEq, Repr

/-- A frame in use (R288, R289). -/
structure Frame where
  refs : Nat
  valid : BitVec 128
  ctx : BitVec 6
deriving DecidableEq, Repr

/-- A column pool (R284, R285, R400), its occupancy and reserved slot (R360). Frames from first up are pool frames. -/
structure Pool where
  first : Nat
  retired : List Nat
  frames : SMap Frame
  rsv : Nat
  usage : SMap Nat
  occupants : List Nat
  reserved : Option Nat
deriving DecidableEq, Repr

/-! ### Relay, hand-off (R301, R303, R325, R326) -/

/-- An end of a channel (R301): package when remote, core key, bound context. -/
structure RelayEnd where
  pkg : Option (BitVec 10)
  core : Nat
  ctx : BitVec 6
deriving DecidableEq, Repr

/-- A payload on its way (R303): its slot, its bytes, the core, group and completion object of its sender, the operation that
sent it and the space and address it was read from (R308). -/
structure Payload where
  slot : Nat
  data : List Byte
  core : Nat
  group : Option Gid
  obj : Nat
  op : Nat
  src : RlySrc
  at_ : Nat
deriving DecidableEq, Repr

/-- One direction of a channel (R303): the ring at base in the receiver's slice. -/
structure RelayDir where
  n : Nat
  size : Nat
  base : Nat
  rid : Nat
  gnt : BitVec 32
  snt : BitVec 32
  arr : BitVec 32
  tkn : BitVec 32
  rls : BitVec 32
  landed : List Payload
  inFlight : List Payload
deriving DecidableEq, Repr

/-- A relay channel: att is the direction into the attention end, ff the one into the feed-forward end. A closed channel
stays until the instructions that waited at its close, named by core and group, have ended (R314). -/
structure Channel where
  num : Nat
  attEnd : RelayEnd
  ffEnd : RelayEnd
  att : RelayDir
  ff : RelayDir
  broken : Bool
  lostPath : Bool
  closed : Bool
  waiting : List (Nat × Gid)
deriving DecidableEq, Repr

/-- Waybill states (R325). -/
inductive WState where | open_ | moving | sealed | committed | cancelled
deriving DecidableEq, Repr

/-- A waybill (R326). The keys it holds keep their lenders. frames are the taken frames in block order, resFrames how many
came from the handle's reservation; issuer is the group, its core and the object, or none when a HAND node made it;
completed says that the completion event was served. -/
structure Waybill where
  num : Nat
  ctx : BitVec 6
  state : WState
  desc : List Word
  krid : Nat
  vrid : Nat
  hrid : Nat
  frames : List Nat
  resFrames : Nat
  nb : Nat
  total : Nat
  moved : Nat
  flags : BitVec 4
  issuer : Option (Gid × Nat × Nat)
  handReq : Option Nat
  gone : Bool
  completed : Bool
deriving DecidableEq, Repr

/-! ### Requests (R335 to R353) -/

/-- A queued submission record (R336) with the clock of its arrival at its level. -/
structure QRecord where
  words : List Word
  since : Nat
deriving DecidableEq, Repr

/-- Where a fired node is: due to act, in its set-up for a launch number at an entry, or waiting for its end. -/
inductive NodeRun where
  | idle
  | due
  | setup (num entry : Nat)
  | running
deriving DecidableEq, Repr

/-- A node of an admitted request (R340). -/
structure NodeSt where
  pred : Nat
  counter : Nat
  run : NodeRun
  held : Nat
deriving DecidableEq, Repr

/-- The chosen column of a request (R351 word 6). -/
structure Placement where
  die : Nat
  col : Nat
  wbill : Nat
  handle : Nat
deriving DecidableEq, Repr

/-- What a HAND in progress is doing (R361, R362, R446): columns are pool keys; counted says that the saturation counter has
gained 1 for it. One that waits tries again when `again` holds: an o fell since, or, where nospace says that columns were
excluded, an F - Rsv rose or the context's U fell. -/
inductive HandRun where
  | choosing (excluded : List Nat) (counted : Bool)
  | waiting (nospace : Bool) (again : Bool)
  | chosen (pool : Nat) (excluded : List Nat) (counted : Bool)
  | moving (pool w : Nat)
deriving DecidableEq, Repr

/-- An admitted request: numbers rise in the order of admission. ending is the status it is ending with while its channels
close; chans are its channel slots; column is the pool key it occupies or, suspended, will occupy again; placedAt orders the choices of columns; streams pairs XFER nodes with streams. -/
structure Request where
  rid : Nat
  words : List Word
  level : Nat
  nodes : SMap NodeSt
  ending : Option Nat
  ended : Bool
  chans : List (Option Nat)
  place : Option Placement
  column : Option Nat
  placedAt : Nat
  hands : Bool
  handRun : Option (Nat × HandRun)
  suspended : Bool
  streams : List (Nat × Nat)
deriving DecidableEq, Repr

/-- A group of a launch on a die: not yet placed, on its core, saved in a slot, or ended (R349). -/
inductive GroupSt where
  | due
  | placed
  | saved (slot : Nat)
  | ended
deriving DecidableEq, Repr

/-- A kernel that has fired (R346 to R352), issued to the stream controllers once its set-up is done; numbers rise in the order of firing. streams are the XFER
nodes it names; groups are (index, core key, state), in ascending index. issuing names the dies whose entry has left WAITING,
each with the streams that were resident there: they stay so until the kernel has finished (R343, R352). -/
structure Launch where
  num : Nat
  req : Nat
  node : Nat
  ctx : BitVec 6
  desc : Nat
  hash : BitVec 256
  lens : List Nat
  table : List TabLevel
  arg : Word
  streams : List Nat
  issued : Bool
  groups : List (Nat × Nat × GroupSt)
  issuing : List (Nat × List Nat)
deriving DecidableEq, Repr

/-- A resident stream (R353). -/
structure Stream where
  num : Nat
  ctx : BitVec 6
  source : Nat
  len : Nat
  rid : Nat
  die : Nat
  refs : List Nat
deriving DecidableEq, Repr

/-- A saved group: the save slot's contents as restored, beside the bytes written to it (R383 to R387). -/
structure Saved where
  ctx : BitVec 6
  slot : Nat
  core : Nat
  group : Group
  image : Core
  evicted : List Nat
deriving DecidableEq, Repr

/-! ### Errors and contexts -/

/-- An error bank (R391). -/
structure Bank where
  valid : Bool
  uc : Bool
  ovr : Bool
  cons : Bool
  seq : BitVec 8
  info : ErrInfo
  ccount : BitVec 32
  lost : BitVec 16
deriving DecidableEq, Repr

/-- An error that reaches a bank (R392, R393): uncorrectable, consumed, its record. -/
structure BankErr where
  uc : Bool
  cons : Bool
  info : ErrInfo
deriving DecidableEq, Repr

/-- A loss notice (R397, R399). -/
structure Notice where
  ctx : BitVec 6
  reason : Nat
  trap : Nat
  die : Nat
  core : Nat
  seq : Nat
  addr : Word
  event : Word
deriving DecidableEq, Repr

/-- A created context (R425). tables are the bases of the 64 KiB pages that hold its page tables (R134, R139). -/
structure Context where
  func : BitVec 4
  root : Nat
  tables : List Nat
  pages : List (Nat × Nat)
  quotas : List (Nat × Nat × Nat)
  saveBase : Word
  slots : Nat
  usedSlots : List Nat
  lossAddr : Word
  fabric : Bool
  publishers : List (BitVec 256)
deriving DecidableEq, Repr

/-- A link's audit state (R401): permits lost. -/
structure LinkSt where
  diff : Int
  resets : Nat
  since : Nat
deriving DecidableEq, Repr

/-- A global slice (R138): in retention, clock of its last access, an access waits, how often it left retention; ready is the
clock at which its entry is over, asked that of the first access that waits. -/
structure Slice where
  retained : Bool
  last : Nat
  wanted : Bool
  exits : Nat
  ready : Nat
  asked : Nat
deriving DecidableEq, Repr

/-- A word that a release accumulate wrote: its scope and the issuer's position (R277). -/
structure RelMark where
  scope : Scope
  core : Nat
  pkg : BitVec 10
deriving DecidableEq, Repr

/-- The run of one chunk of a collective (R416, R417). A run is named by how many members were live in it: the children's
partials and the root's result carry that number, and so does the root's confirmation. Beside them: whether this package has told
the members that its CLRD has begun, has sent its part and written the result, whether the tree was rebuilt, whether members'
tables were found to differ, and at the root the members that have written the result. -/
structure ClrdRun where
  partials : List (BitVec 10 × Nat × List Byte)
  result : Option (Nat × Bool × List Byte)
  begun : Bool
  sent : Bool
  written : Bool
  confirmed : Option (Nat × Bool)
  rebuilt : Bool
  mismatch : Bool
  wrote : List (BitVec 10)
deriving DecidableEq, Repr

/-- A collective table (R413, R414): the context whose group set it, its header words, its members and the live ones in table
order, and the runs of its chunks. -/
structure Collective where
  ctx : BitVec 6
  words : List Word
  members : List (BitVec 10)
  live : List (BitVec 10)
  runs : SMap ClrdRun
deriving DecidableEq, Repr

/-- An answer of another package or of the host to a request made from here (log 1). -/
inductive Reply where
  | admitted
  | noKey
  | trap (code : Nat) (addr : Word)
  | data (bytes : List Byte)
  | old (v : Word) (scope : Option Scope) (core pkg : Nat)
  | key (status : Nat) (right : Right) (base size : Nat)
  | word (w : Word)
  | wrote (pkg : BitVec 10) (grp : Nat) (chunk : BitVec 32) (live : Nat)
deriving DecidableEq, Repr

/-- A message to another package or the host (log 1). -/
inductive Sent where
  | remoteCheck (pkg : BitVec 10) (who : Asker) (runs : List FarRuns)
  | remoteWrite (pkg : BitVec 10) (who : Asker) (dev : Bool) (addr : Nat) (data : List Byte)
  | remoteRead (pkg : BitVec 10) (who : Asker) (dev : Bool) (addr len : Nat)
  | remoteAdmit (pkg : BitVec 10) (who : Asker) (op : AccOp) (w32 dev : Bool) (addr : Nat)
  | remoteAcc (pkg : BitVec 10) (who : Asker) (a : AccOpRec)
  | remoteKey (pkg : BitVec 10) (who : Asker) (what : Nat) (addr ticket : Nat)
  | partial_ (pkg : BitVec 10) (grp : Nat) (chunk : BitVec 32) (word : ChildWord)
  | root (pkg : BitVec 10) (grp : Nat) (chunk : BitVec 32) (word : RootWord)
  | payload (pkg : BitVec 10) (chan slot : Nat) (data : List Byte)
  | permits (pkg : BitVec 10) (chan n : Nat)
  | bind (pkg : BitVec 10) (chan : Nat)
  | unbind (pkg : BitVec 10) (chan : Nat)
  | wrote (pkg : BitVec 10) (grp : Nat) (chunk : BitVec 32) (live : Nat)
  | answer (pkg : BitVec 10) (r : Reply)
  | lossNotice (ctx : BitVec 6)
deriving DecidableEq, Repr

/-! ### The package machine -/

/-- An accumulate of another package that a home rack here has admitted and that is still to be applied (R275, R409): the package,
its issuer, the word's space, its address and its home address. -/
structure Admitted where
  pkg : BitVec 10
  who : Asker
  w32 : Bool
  dev : Bool
  addr : Nat
  pa : Nat
deriving DecidableEq, Repr

/-- Everything that instructions and engines change. Core keys are 36 × die + physical core; array keys 9 × die + cluster;
column keys 36 × die + logical column; global addresses are those of R27; DRAM and host keys are R136 and log 6. written lists
the 512-byte units of DRAM whose zero bit is clear (R426); cycleErrs holds, per bank, what it was before the errors of this cycle
and those errors (R393). -/
structure Mach where
  cores : SMap Core
  arrays : SMap Array_
  global : Mem
  dram : Mem
  written : List Nat
  host : Mem
  globalPoison : List Nat
  dramPoison : List Nat
  slices : SMap Slice
  dieClock : SMap Nat
  regions : List Region
  relMarks : SMap RelMark
  seqs : List BSeq
  pools : SMap Pool
  channels : List Channel
  waybills : List Waybill
  levels : SMap (List QRecord)
  refused : SMap (BitVec 32)
  malformed : BitVec 32
  saturation : BitVec 32
  requests : List Request
  launches : List Launch
  streams : List Stream
  saved : List Saved
  banks : SMap Bank
  cycleErrs : SMap (Bank × List BankErr)
  links : SMap LinkSt
  notices : List Notice
  contexts : SMap Context
  retiredPages : List Nat
  collectives : SMap Collective
  unreachable : List (BitVec 10)
  remoteShares : List (BitVec 10 × Nat × Nat × Gid × Right)
  admitted : List Admitted
  inbox : List Reply
  outbox : List Sent
  free : Nat
  ids : Nat
deriving DecidableEq, Repr

/-! ### The trust die -/

/-- A manifest slot (R427). -/
structure Manifest where
  ctx : BitVec 6
  last : Nat
  leaves : List (BitVec 256)
deriving DecidableEq, Repr

/-- The SPDM responder's session (R420). -/
inductive Spdm where
  | idle
  | negotiated
  | handshake
  | session
deriving DecidableEq, Repr

/-- What the trust die holds (R11, R419 to R432). live is the mask of live physical cores per die, dieLive the dies, up
the live links as pairs (lower, higher); passed says which dies passed bring-up before the topology is known, and released
that the package has left bring-up. routes holds the dies between two dies, by 6 × first + second (R421). commands holds the
mailbox commands that have arrived and not run, mailbox the responses as a status and a value (R424), and deviceReads what
reads of the device space gave (R423). packageDraw numbers the draw of the package key (R426), and
kept is the ciphertext of the written units of DRAM once the keys are erased with the clocks stopped (R432). -/
structure Trust where
  released : Bool
  passed : List Bool
  dieLive : List Bool
  live : List (BitVec 36)
  trained : List (Nat × Nat)
  up : List (Nat × Nat)
  routes : SMap (List Nat)
  package : BitVec 10
  packages : List (BitVec 10)
  measurements : SMap (BitVec 256)
  debug : Bool
  module : Bool
  rootKey : Bool
  xtsKeys : SMap (BitVec 512)
  packageDraw : Option Nat
  kept : List (Nat × List Byte)
  manifests : SMap Manifest
  spdm : Spdm
  responses : List (List Byte)
  commands : List (List Byte)
  mailbox : List (Nat × Word)
  deviceReads : List (List Byte)
  smax : Nat
  fmin : Nat
  cap : Nat
  clockSteps : Nat
  frozen : Bool
  scanned : List Bool
deriving DecidableEq, Repr

/-! ### Turns -/

/-- What acts next (log 2). -/
inductive Turn where
  /-- the step of an event row of the opcode table -/
  | event (i : Instr)
  /-- cores take their cycles from this one on -/
  | core (c : Nat)
  /-- the current sequencer's attempt waits for a translation, a check or an admission (R120, R268, R275) -/
  | wait
  /-- an engine writes the next 8 bytes of a copy (R267) -/
  | engine (c o : Nat)
  /-- cycles pass on a die for the units that count them (R138, R224, R338, R401) -/
  | elapse (die n : Nat)
  /-- the host writes its memory (R423) -/
  | hostWrite (func : BitVec 4) (addr : Nat) (data : List Byte)
  /-- a function writes its device space, or reads it (R423) -/
  | deviceWrite (func : BitVec 4) (off : Nat) (data : List Byte)
  | deviceRead (func : BitVec 4) (off len : Nat)
  /-- the trust die runs the next mailbox command (R424) -/
  | mailbox
  /-- another package or the host answers -/
  | reply (r : Reply)
deriving DecidableEq, Repr

/-- Which part of a core's cycle comes next (log 3). -/
inductive Phase where | st | cmp | ld | ctl | tick
deriving DecidableEq, Repr

/-- The machine. -/
structure State where
  agenda : List Turn
  cur : Nat
  phase : Phase
  trust : Trust
  mach : Mach
deriving DecidableEq, Repr

/-- The reasons a step stops with a fault. -/
inductive Fault where
  /-- raised by step when FREEZE_N has stopped every clock (R432) and the next turn is no package reset: the part does
  nothing more. Safe: the hardware stops there too. -/
  | clocksStopped
deriving DecidableEq, Repr

/-- The reasons an instruction has no meaning. -/
inductive Refusal where
  /-- raised by exec's arms for an instruction without a meaning; none is left. Safe. -/
  | notModelled (mnemonic : String)
deriving DecidableEq, Repr

/-! ### Reset -/

/-- An empty token queue (R95). -/
def TokQ.empty : TokQ := ⟨0, 0, 0⟩

/-- A sequencer as a placement leaves it (R95). -/
def Seq.reset : Seq where
  pc := 0
  xq := []
  loops := []
  stack := []
  inUp := .empty
  inDown := .empty
  status := ⟨false, 0, 0⟩
  trapCause := 0
  trapPc := 0
  trapInfo := 0
  wdLimit := 0x01000000
  wdCount := 0
  stall := 0
  clock := 0
  readyAt := 0
  pause := .run
  nudged := false
  timed := []
  exited := false
  stopped := false
  taken := false
  stopClock := 0
  yielded := false
  timeout := false
  blockedOn := none
  wrote := []
  undo := []
  flags0 := 0
  waitsOut := false
  keyWait := none

/-- The column state as a placement leaves it (R245). -/
def Column.reset : Column := ⟨[], 1, 0, none, []⟩

/-- A core after reset. -/
def Core.reset : Core where
  group := none
  ctl := .reset
  ld := .reset
  cmp := .reset
  st := .reset
  vq := []
  masks := []
  local_ := []
  localPoison := []
  granules := []
  lines := []
  posted := []
  later := []
  ops := []
  seed := 0
  step := 0
  objs := []
  bindings := []
  view := []
  clause := none
  aRows := []
  column := .reset
  cycles := 0
  freeze := .none
  replay := 0
  active := []
  shadow := []
  failed := false
  ended := false

/-- A plane whose cells are zero and whose latches are zero (R225). -/
def WPlane.reset : WPlane := ⟨[], 0, [], none⟩

/-- An array after reset (R224, R225). -/
def Array_.reset : Array_ where
  active := .reset
  shadow := .reset
  bank0 := []
  bank1 := []
  bad := []
  lease := .free
  lastCore := none
  lastGroup := none
  grants := 0
  clauses := 0
  grantClock := 0
  passes := 0
  repl := none
  spBad := false
  zeroed := false

/-- An error bank after reset (R391). -/
def Bank.reset : Bank := ⟨false, false, false, false, 0, ⟨0, 0, none, 0, 0, 0⟩, 0, 0⟩

/-- Pool frames start here: 16,384 frames of a column hold its block tables (log 8). -/
def poolFirst : Nat := 16384

/-- A column pool after reset (R284). -/
def Pool.reset : Pool := ⟨poolFirst, [], [], 0, [], [], none⟩

/-- The package machine after reset: nothing created, everything empty. -/
def Mach.reset : Mach where
  cores := []
  arrays := []
  global := []
  dram := []
  written := []
  host := []
  globalPoison := []
  dramPoison := []
  slices := []
  dieClock := []
  regions := []
  relMarks := []
  seqs := []
  pools := []
  channels := []
  waybills := []
  levels := []
  refused := []
  malformed := 0
  saturation := 0
  requests := []
  launches := []
  streams := []
  saved := []
  banks := []
  cycleErrs := []
  links := []
  notices := []
  contexts := []
  retiredPages := []
  collectives := []
  unreachable := []
  remoteShares := []
  admitted := []
  inbox := []
  outbox := []
  free := 0
  ids := 0

/-- The links of R12: each P-die to each D-die, and die 0 to die 1. -/
def allLinks : List (Nat × Nat) :=
  [(0, 1), (0, 2), (0, 3), (0, 4), (0, 5), (1, 2), (1, 3), (1, 4), (1, 5)]

/-- The trust die once it has released every die, with nothing harvested (log 5). -/
def Trust.reset : Trust where
  released := true
  passed := [true, true, true, true, true, true]
  dieLive := [true, true, true, true, true, true]
  live := List.replicate 6 (BitVec.allOnes 36)
  trained := allLinks
  up := allLinks
  routes := (List.range 6).flatMap fun a => (List.range 6).filterMap fun b =>
    if a = b then none else some (6 * a + b, if 2 ≤ a ∧ 2 ≤ b then [(a + b) % 2] else [])
  package := 0
  packages := []
  measurements := (List.range 9).map fun i => (i + 1, 0)
  debug := false
  module := false
  rootKey := true
  xtsKeys := []
  packageDraw := some 0
  kept := []
  manifests := []
  spdm := .idle
  responses := []
  commands := []
  mailbox := []
  deviceReads := []
  smax := 256
  fmin := 4096
  cap := 2400
  clockSteps := 0
  frozen := false
  scanned := []

/-- The machine right after reset: the trust die has released the dies, no context is created, no group placed. -/
def State.reset : State := ⟨[], 0, .st, .reset, .reset⟩

end Sys2Proof.Machine
end

