-- ==== Sys2Proof/Machine/Map.lean ====
section
/-! DEFINITION. Operations of sparse tables and sparse memory, and of short lists kept as queues. -/

namespace Sys2Proof.Machine

/-! ### Sparse tables -/

/-- The entry at a key, if there is one. -/
def SMap.get? {α : Type} : SMap α → Nat → Option α
  | [], _ => none
  | (k, v) :: r, n => if n = k then some v else if n < k then none else SMap.get? r n

/-- The entry at a key, or the table's default. -/
def SMap.getD {α : Type} (m : SMap α) (n : Nat) (d : α) : α := (SMap.get? m n).getD d

/-- The table with a key set; keys stay strictly rising. -/
def SMap.set {α : Type} : SMap α → Nat → α → SMap α
  | [], n, x => [(n, x)]
  | (k, v) :: r, n, x => if n = k then (n, x) :: r else if n < k then (n, x) :: (k, v) :: r else (k, v) :: SMap.set r n x

/-- The table without a key. -/
def SMap.erase {α : Type} : SMap α → Nat → SMap α
  | [], _ => []
  | (k, v) :: r, n => if n = k then r else if n < k then (k, v) :: r else (k, v) :: SMap.erase r n

/-- Set a key, listing no entry equal to the default. -/
def SMap.put {α : Type} [DecidableEq α] (d : α) (m : SMap α) (n : Nat) (x : α) : SMap α :=
  if x = d then SMap.erase m n else SMap.set m n x

/-- The keys of a table. -/
def SMap.keys {α : Type} (m : SMap α) : List Nat := m.map Prod.fst

/-- Every entry changed by a function of its key. -/
def SMap.mapVals {α β : Type} (f : Nat → α → β) (m : SMap α) : SMap β := m.map fun p => (p.1, f p.1 p.2)

/-- Keys strictly rising. -/
def SMap.wf {α : Type} : SMap α → Bool
  | (a, _) :: (b, y) :: r => decide (a < b) && SMap.wf ((b, y) :: r)
  | _ => true

/-! ### Memory -/

/-- The byte at an address; an unlisted byte reads 0 (log 6). -/
def Mem.get (m : Mem) (a : Nat) : Byte := SMap.getD m a 0

/-- The part of a memory from base on, len bytes long, at offsets from 0. -/
def Mem.slice (m : Mem) (base len : Nat) : Mem :=
  ((m.dropWhile fun p => decide (p.1 < base)).takeWhile fun p => decide (p.1 < base + len)).map fun p => (p.1 - base, p.2)

/-- The cells of an image moved to base: those inside its length that are not 0. -/
def Mem.placed (base len : Nat) (img : Mem) : Mem :=
  img.filterMap fun p => if p.1 < len ∧ p.2 ≠ 0 then some (base + p.1, p.2) else none

/-- THE write of every memory: the len bytes from base on become those of the image. -/
def Mem.paste (m : Mem) (base len : Nat) (img : Mem) : Mem :=
  (m.takeWhile fun p => decide (p.1 < base)) ++ Mem.placed base len img ++
    (m.dropWhile fun p => decide (p.1 < base + len))

/-- The canonical form: addresses strictly rising and no entry 0. -/
def Mem.wf (m : Mem) : Bool := SMap.wf m && m.all fun p => decide (p.2 ≠ 0)

/-- An image of given bytes. -/
def Mem.ofBytesAt : Nat → List Byte → Mem
  | _, [] => []
  | a, b :: r => if b = 0 then Mem.ofBytesAt (a + 1) r else (a, b) :: Mem.ofBytesAt (a + 1) r

/-- An image of given bytes from offset 0. -/
def Mem.ofBytes (l : List Byte) : Mem := Mem.ofBytesAt 0 l

/-- n bytes of a memory, from a on. -/
def Mem.bytes (m : Mem) (a : Nat) : Nat → List Byte
  | 0 => []
  | n + 1 => Mem.get m a :: Mem.bytes m (a + 1) n

/-- The first n bytes of an image, unlisted ones 0, in one pass. -/
def Mem.toBytes : Mem → Nat → Nat → List Byte
  | _, _, 0 => []
  | [], a, n + 1 => 0 :: Mem.toBytes [] (a + 1) n
  | (k, v) :: r, a, n + 1 => if k = a then v :: Mem.toBytes r (a + 1) n else 0 :: Mem.toBytes ((k, v) :: r) (a + 1) n

/-- Bytes of a memory as a list, through a slice. -/
def Mem.read (m : Mem) (a n : Nat) : List Byte := Mem.toBytes (Mem.slice m a n) 0 n

/-- Write a list of bytes. -/
def Mem.write (m : Mem) (a : Nat) (l : List Byte) : Mem := Mem.paste m a l.length (Mem.ofBytes l)

/-- Clear a range to 0 (R139). -/
def Mem.zero (m : Mem) (a n : Nat) : Mem := Mem.paste m a n []

/-! ### Bytes and numbers: little-endian (R4) -/

/-- The number that bytes give, lowest first. -/
def leNat : List Byte → Nat
  | [] => 0
  | b :: r => b.toNat + 256 * leNat r

/-- The n low bytes of a number, lowest first. -/
def leBytes : Nat → Nat → List Byte
  | 0, _ => []
  | n + 1, x => BitVec.ofNat 8 x :: leBytes n (x / 256)

/-- A number of n bytes read from a memory. -/
def Mem.nat (m : Mem) (a n : Nat) : Nat := leNat (Mem.read m a n)

/-- An 8-byte word of a memory. -/
def Mem.word (m : Mem) (a : Nat) : Word := BitVec.ofNat 64 (Mem.nat m a 8)

/-- n 8-byte words of a memory. -/
def Mem.words (m : Mem) (a : Nat) : Nat → List Word
  | 0 => []
  | n + 1 => Mem.word m a :: Mem.words m (a + 8) n

/-- The vector that 512 bytes give, byte 0 in the low bits (R169). -/
def vbitsOf (l : List Byte) : VBits := BitVec.ofNat 4096 (leNat l)

/-- The bytes of a vector. -/
def vbytes (v : VBits) : List Byte := leBytes 512 v.toNat

/-- The bytes of words, in order. -/
def wordsBytes (l : List Word) : List Byte := l.flatMap fun w => leBytes 8 w.toNat

/-! ### Lists -/

/-- The list with the first element that meets p changed. -/
def updFirst {α : Type} (p : α → Bool) (f : α → α) : List α → List α
  | [] => []
  | x :: r => if p x then f x :: r else x :: updFirst p f r

/-- The list without its first element that meets p. -/
def eraseFirst {α : Type} (p : α → Bool) : List α → List α
  | [] => []
  | x :: r => if p x then r else x :: eraseFirst p r

/-- The list with element n replaced. -/
def setAt {α : Type} : List α → Nat → α → List α
  | [], _, _ => []
  | _ :: r, 0, x => x :: r
  | y :: r, n + 1, x => y :: setAt r n x

/-- Word n of a list of words, 0 past its end. -/
def wordAt (l : List Word) (n : Nat) : Word := l.getD n 0

/-- A field <hi:lo> of a word as a number. -/
def wbits (w : Word) (hi lo : Nat) : Nat := w.toNat / 2 ^ lo % 2 ^ (hi + 1 - lo)

/-- Bit n of a word. -/
def wbit (w : Word) (n : Nat) : Bool := w.getLsbD n

/-- Whether two ranges share a byte. -/
def overlaps (a n b m : Nat) : Bool := decide (a < b + m) && decide (b < a + n)

/-- Whether the range a, n lies in the range b, m. -/
def inside (a n b m : Nat) : Bool := decide (b ≤ a) && decide (a + n ≤ b + m)

end Sys2Proof.Machine
end

