-- ==== Sys2Proof/Machine/Flags.lean ====
section
/-! DEFINITION. The sticky flags of STATUS (R54), how hardware sets them, and when an integer operation sets one (R99). -/

namespace Sys2Proof.Machine

/-- STATUS.satur: a saturating operation clamped (R54). -/
def fSatur : BitVec 7 := 0x01
/-- STATUS.divz: integer division by zero (R54). -/
def fDivz : BitVec 7 := 0x02
/-- STATUS.fpinx: floating-point inexact (R54). -/
def fInx : BitVec 7 := 0x04
/-- STATUS.fpunf: floating-point underflow (R54). -/
def fUnf : BitVec 7 := 0x08
/-- STATUS.fpovf: floating-point overflow (R54). -/
def fOvf : BitVec 7 := 0x10
/-- STATUS.fpinv: floating-point invalid operation (R54). -/
def fInv : BitVec 7 := 0x20
/-- STATUS.scopemiss: a dropped synchronisation (R54). -/
def fScope : BitVec 7 := 0x40

/-- Hardware sets sticky flags (R54); fresh keeps them for an SRW of the same cycle (R377). -/
def Seq.flag (s : Seq) (f : BitVec 7) : Seq :=
  { s with status := { s.status with flags := s.status.flags ||| f, fresh := s.status.fresh ||| f } }

/-- The flags that a timed integer result sets as it lands (R99). -/
def intFlags (satur divz : Bool) : BitVec 7 := (if satur then fSatur else 0) ||| (if divz then fDivz else 0)

/-- STATUS as SRR reads it (R54): mode in bit 8, the seven flags below, reserved bits 0. -/
def Status.word (s : Status) : Word := (0 : BitVec 55) ++ BitVec.ofBool s.super ++ (0 : BitVec 1) ++ s.flags

/-- STATUS after SRW: bits <6:0> of the value, with what hardware set in the same cycle (R377). -/
def Status.write (s : Status) (v : Word) : Status := { s with flags := v.setWidth 7 ||| s.fresh }

/-- A value clamped to a range, and whether that changed it (R103, R104). -/
def clampTo (lo hi x : Int) : Int × Bool := if x < lo then (lo, true) else if hi < x then (hi, true) else (x, false)

end Sys2Proof.Machine
end

