-- ==== Sys2Proof/Machine/Ops.lean ====
section
/-! DEFINITION. The named operations over cores, sequencers, queues, tokens and results, and taking a trap and returning
from one. A meaning is a check that either starts the instruction, giving the machine after it, or halts the attempt. -/

namespace Sys2Proof.Machine

/-! ### Where things are (R9, R10, R348) -/

/-- The die of a core key. -/
def dieOf (c : Nat) : Nat := c / 36
/-- The physical core of a core key. -/
def physOf (c : Nat) : Nat := c % 36
/-- Dies 0 and 1 are P-dies (R9). -/
def isPDie (d : Nat) : Bool := decide (d < 2)
/-- The array or copy-engine cluster key of a core: 9 × die + cluster (R262, R348). -/
def clusterOf (c : Nat) : Nat := dieOf c * 9 + physOf c / 4

/-- The live physical cores of a die (R11). -/
def Trust.mask (t : Trust) (d : Nat) : BitVec 36 := t.live.getD d 0
/-- Whether a die is live (R11). -/
def Trust.isLive (t : Trust) (d : Nat) : Bool := t.dieLive.getD d false
/-- The live cores of a die in ascending physical order (R348). -/
def Trust.cores (t : Trust) (d : Nat) : List Nat := (List.range 36).filter fun p => (t.mask d).getLsbD p
/-- How many cores of a die are live. -/
def Trust.count (t : Trust) (d : Nat) : Nat := (t.cores d).length
/-- CORELOG of a physical core (R348). -/
def Trust.logical (t : Trust) (d p : Nat) : Nat := ((t.cores d).filter fun x => decide (x < p)).length
/-- The physical core of a logical one (R348). -/
def Trust.physical (t : Trust) (d l : Nat) : Option Nat := (t.cores d)[l]?
/-- The core key of a logical core. -/
def Trust.coreKey (t : Trust) (d l : Nat) : Option Nat := (t.physical d l).map fun p => d * 36 + p
/-- HARVEST as a die reads it (R53). -/
def Trust.harvest (t : Trust) (d : Nat) : Word :=
  (List.range 6).foldl (fun w i => if t.isLive i then w ||| ((1 : Word) <<< (36 + i)) else w) ((t.mask d).setWidth 64)

/-! ### Cores and sequencers -/

/-- The core behind a key. -/
def Mach.core (m : Mach) (c : Nat) : Core := SMap.getD m.cores c .reset
/-- The machine with a core replaced. -/
def Mach.setCore (m : Mach) (c : Nat) (k : Core) : Mach := { m with cores := SMap.set m.cores c k }
/-- The machine with a core changed. -/
def Mach.onCore (m : Mach) (c : Nat) (f : Core → Core) : Mach := m.setCore c (f (m.core c))

/-- A sequencer of a core. -/
def Core.seq (k : Core) : SeqId → Seq
  | .ctl => k.ctl | .ld => k.ld | .cmp => k.cmp | .st => k.st
/-- The core with a sequencer changed. -/
def Core.onSeq (k : Core) (q : SeqId) (f : Seq → Seq) : Core :=
  match q with
  | .ctl => { k with ctl := f k.ctl }
  | .ld => { k with ld := f k.ld }
  | .cmp => { k with cmp := f k.cmp }
  | .st => { k with st := f k.st }
/-- The core with every sequencer changed. -/
def Core.onSeqs (k : Core) (f : Seq → Seq) : Core := { k with ctl := f k.ctl, ld := f k.ld, cmp := f k.cmp, st := f k.st }
/-- A sequencer of a core of the machine. -/
def Mach.seq (m : Mach) (c : Nat) (q : SeqId) : Seq := (m.core c).seq q
/-- The machine with a sequencer changed. -/
def Mach.onSeq (m : Mach) (c : Nat) (q : SeqId) (f : Seq → Seq) : Mach := m.onCore c fun k => k.onSeq q f

/-- 0 ctl, 1 ld, 2 cmp, 3 st (R381). -/
def seqIndex : SeqId → Nat
  | .ctl => 0 | .ld => 1 | .cmp => 2 | .st => 3
/-- The sequencer of a number. -/
def seqOfIndex (n : BitVec 2) : SeqId := if n = 0 then .ctl else if n = 1 then .ld else if n = 2 then .cmp else .st
/-- The sequencers in that order. -/
def allSeqs : List SeqId := [.ctl, .ld, .cmp, .st]
/-- The upstream neighbour in the ring ctl → ld → cmp → st → ctl (R19). -/
def upstream : SeqId → SeqId
  | .ctl => .st | .ld => .ctl | .cmp => .ld | .st => .cmp
/-- The downstream neighbour. -/
def downstream : SeqId → SeqId
  | .ctl => .ld | .ld => .cmp | .cmp => .st | .st => .ctl

/-- The context of the group on a core. -/
def Core.ctx (k : Core) : BitVec 6 := (k.group.map Group.ctx).getD 0
/-- GRPID: the index of the group within its launch (R53). -/
def Core.grpid (k : Core) : Nat := (k.group.map fun g => g.gid.idx).getD 0
/-- The image length of a sequencer (R346). -/
def Core.imageLen (k : Core) (q : SeqId) : Nat := (k.group.map fun g => g.lens.getD (seqIndex q) 0).getD 0
/-- The active plane of a sequencer (R21). -/
def Core.plane (k : Core) (q : SeqId) : Plane := SMap.getD k.active (seqIndex q) ⟨[], [], 0, none⟩
/-- Whether a core holds a running or draining group (R25). -/
def Core.occupied (k : Core) : Bool := k.group.isSome

/-- A number never given out before. -/
def Mach.fresh (m : Mach) : Nat × Mach := (m.ids, { m with ids := m.ids + 1 })
/-- The clock of a die. -/
def Mach.clockOf (m : Mach) (d : Nat) : Nat := SMap.getD m.dieClock d 0

/-! ### Attempts -/

/-- What an instruction knows of its issue: the trust die's data, its core and sequencer, its word and its size. -/
structure Env where
  trust : Trust
  c : Nat
  q : SeqId
  word : IWord
  len : Nat
  tok : Tok
deriving DecidableEq, Repr

/-- Why an attempt does not start its instruction. -/
inductive Halt where
  /-- a trap with its code and TRAPINFO (R55) -/
  | trap (code : Nat) (info : Word)
  /-- a stall of a kind the watchdog counts (R96) -/
  | stall (kind : Nat)
  /-- a wait that is not counted and that a pre-emption takes at once (R378) -/
  | wait
  /-- a wait that is not counted and that a pre-emption waits out (R378) -/
  | waitOut
  /-- poison was consumed: the context is lost and nothing else happens (R395) -/
  | lost (die bank : Nat) (i : ErrInfo)
  /-- a poisoned head of a queue was read: the same (R395) -/
  | slot (vec : Bool) (n : BitVec 4)
  /-- a stall of kind 4 of a KEYW whose request waits at the key's rack (R155) -/
  | rack (rid : Nat) (ask : KeyAsk)
  /-- a stall of kind 3 of a CLRD, whose chunk has begun (R416, R417) -/
  | chunk (grp : Nat) (c : BitVec 32)
  /-- a trap that another package answered with; the answer is used up (R407, R409) -/
  | answered (code : Nat) (info : Word) (left : List Reply)
deriving DecidableEq, Repr

/-- A check: an attempt's halt or its value. -/
abbrev Chk (α : Type) := Except Halt α

/-- Pass a check or halt. -/
def must (b : Bool) (h : Halt) : Chk Unit := if b then .ok () else .error h

/-- The trap codes (R55). -/
def tIllop : Nat := 0x01
def tWrongseq : Nat := 0x02
def tIlldie : Nat := 0x03
def tFmtrsv : Nat := 0x04
def tAlign : Nat := 0x05
def tQovf : Nat := 0x06
def tQund : Nat := 0x07
def tTypemis : Nat := 0x08
def tNokey : Nat := 0x09
def tXlate : Nat := 0x0A
def tProt : Nat := 0x0B
def tSpace : Nat := 0x0C
def tBlock : Nat := 0x0D
def tRagged : Nat := 0x0E
def tLease : Nat := 0x0F
def tWatchdog : Nat := 0x10
def tTrapi : Nat := 0x11
def tPriv : Nat := 0x12
def tClause : Nat := 0x13

/-- A trap whose TRAPINFO is the instruction word. -/
def Env.trapWord (e : Env) (code : Nat) : Halt := .trap code (e.word.setWidth 64)

/-- TRAPINFO of QOVF and QUND (R55). -/
def queueInfo (vec : Bool) (n : BitVec 4) : Word := BitVec.ofNat 64 ((if vec then 256 else 0) + n.toNat)

/-- Word 1 of bank 1 for a queue slot, which R390 gives no form: bit 62, a vector queue in bit 8, the queue in bits 7:4, the
position from the head in bits 3:0 (log 139). -/
def slotAddr (vec : Bool) (n : BitVec 4) (pos : Nat) : Word :=
  BitVec.ofNat 64 (2 ^ 62 + (if vec then 256 else 0) + n.toNat * 16 + pos)

/-- The context of the issuing group. -/
def Env.ctx (e : Env) (m : Mach) : BitVec 6 := (m.core e.c).ctx
/-- The issuing group. -/
def Env.gid (e : Env) (m : Mach) : Option Gid := ((m.core e.c).group).map Group.gid
/-- The issuing die. -/
def Env.die (e : Env) : Nat := dieOf e.c
/-- CORELOG of the issuing core. -/
def Env.corelog (e : Env) : Nat := e.trust.logical e.die (physOf e.c)

/-! ### Context loss notices (R397) -/

/-- Word 0 of an error bank record (R391). -/
def Bank.word0 (valid uc ovr cons : Bool) (seq : BitVec 8) (ctx : Option (BitVec 6)) (tile : BitVec 6) : Word :=
  (BitVec.ofBool valid ++ BitVec.ofBool uc ++ BitVec.ofBool ovr ++ BitVec.ofBool cons ++ seq ++ ctx.getD 0 ++
    BitVec.ofBool ctx.isSome ++ tile ++ (0 : BitVec 39) : BitVec 64)

/-- Word 2 of the context-lost record for the reasons that are no bank errors (R447). -/
def plainEvent (ctx : BitVec 6) (tile : Nat) : Word := Bank.word0 true false false false 0 (some ctx) (BitVec.ofNat 6 tile)

/-- A notice goes to the loss controller (R397). -/
def Mach.notify (m : Mach) (n : Notice) : Mach := { m with notices := m.notices ++ [n] }

/-! ### Error banks (R391, R392) -/

/-- The bank b of a die. -/
def Mach.bank (m : Mach) (die b : Nat) : Bank := SMap.getD m.banks (8 * die + b) .reset

/-- One more, saturating. -/
def satInc {n : Nat} (x : BitVec n) : BitVec n := if x = BitVec.allOnes n then x else x + 1

/-- An error reaches a bank (R392). -/
def Bank.error (k : Bank) (uc cons : Bool) (i : ErrInfo) : Bank :=
  if uc then
    if k.valid && k.uc then { k with ovr := true, lost := satInc k.lost }
    else { k with valid := true, uc := true, ovr := false, cons := cons, seq := k.seq + 1, info := { i with bits := 0 } }
  else if k.valid then { k with ccount := satInc k.ccount }
  else { k with valid := true, uc := false, ovr := false, cons := false, seq := k.seq + 1, info := i, ccount := satInc k.ccount }

/-- Errors of one cycle are applied uncorrectable first, then in ascending tile (R393). -/
def BankErr.before (x y : BankErr) : Bool := (x.uc && !y.uc) || (decide (x.uc = y.uc) && decide (x.info.tile.toNat < y.info.tile.toNat))
/-- An error put in its place among those of its cycle. -/
def BankErr.insert (x : BankErr) : List BankErr → List BankErr
  | [] => [x]
  | y :: l => if x.before y then x :: y :: l else y :: x.insert l
/-- A bank after the errors of a cycle. -/
def Bank.errors (k : Bank) (l : List BankErr) : Bank := l.foldl (fun k x => k.error x.uc x.cons x.info) k

/-- An error reaches bank b of a die: the bank is what it was before the cycle, with the cycle's errors in their order (R393;
log 116). -/
def Mach.bankError (m : Mach) (die b : Nat) (uc cons : Bool) (i : ErrInfo) : Mach :=
  let (k, l) := (SMap.get? m.cycleErrs (8 * die + b)).getD (m.bank die b, [])
  let l := BankErr.insert ⟨uc, cons, i⟩ l
  { m with banks := SMap.set m.banks (8 * die + b) (k.errors l), cycleErrs := SMap.set m.cycleErrs (8 * die + b) (k, l) }

/-- Poison is consumed for a context (R395, R447): the bank's record and a notice of reason POISON. -/
def Mach.consume (m : Mach) (die b : Nat) (i : ErrInfo) (ctx : BitVec 6) (cdie core seq : Nat) : Mach :=
  (m.bankError die b true true i).notify
    { ctx := ctx, reason := 1, trap := 0, die := cdie, core := core, seq := seq, addr := i.addr,
      event := Bank.word0 true true false true 0 i.ctx i.tile }

/-! ### Traps (R370 to R375) -/

/-- Operations, latest first: those of an open clause's MXA have nothing left to do (R232). -/
def dropRows : List Op → List Op
  | [] => []
  | o :: r =>
    match o.kind with
    | .mxdr .. => o :: r
    | .mxa .. => { o with kind := .values } :: dropRows r
    | _ => o :: dropRows r

/-- Whether a closed clause waits for its pass. -/
def Core.passWaits (k : Core) : Bool := k.ops.any fun o => match o.kind with | .mxdr _ false _ => true | _ => false

/-- The clause of cmp is abandoned: it and the rows captured for it are gone (R232). -/
def Core.abandonClause (k : Core) : Core :=
  if k.clause.isNone then k
  else { k with clause := none, ops := (dropRows k.ops.reverse).reverse, aRows := if k.passWaits then k.aRows else [] }

/-- TRAPPC when no clause is open or the sequencer is not cmp is `pc`; else the offset of the clause's MXH (R372). -/
def Core.trapOffset (k : Core) (q : SeqId) (pc : Offset) : Offset :=
  match q, k.clause with
  | .cmp, some cl => cl.at_
  | _, _ => pc

/-- TAKING A TRAP (R370 to R373): the three registers, the mode, the clause, and the handler or the loss of the context. -/
def takeTrap (t : Trust) (c : Nat) (q : SeqId) (code : Nat) (info : Word) (pc : Offset) (m : Mach) : Mach :=
  let k := m.core c
  let s := k.seq q
  let s1 : Seq := { s with
    trapCause := BitVec.ofNat 64 ((if s.status.super then 256 else 0) + code)
    trapInfo := info
    trapPc := (k.trapOffset q pc).setWidth 64
    status := { s.status with super := true }
    pause := .run
    waitsOut := false
    wdCount := 0 }
  let k1 := if q = .cmp then k.abandonClause else k
  if k.imageLen q > 0x7C00 then
    m.setCore c (k1.onSeq q fun _ => { s1 with pc := 0x7C00, readyAt := s.clock + 2 })
  else
    (m.setCore c (k1.onSeq q fun _ => { s1 with stopped := true })).notify
      { ctx := k.ctx, reason := 4, trap := code, die := dieOf c, core := t.logical (dieOf c) (physOf c),
        seq := seqIndex q, addr := 0, event := plainEvent k.ctx (t.logical (dieOf c) (physOf c)) }

/-- RETURNING FROM A TRAP (R375): the mode TRAPCAUSE.pmode names, and the stream at TRAPPC two cycles later; no loop
test, since TRET is none of the ways of R82. -/
def trapReturn (s : Seq) : Seq :=
  { s with
    status := { s.status with super := wbit s.trapCause 8 }
    pc := s.trapPc.setWidth 15
    readyAt := s.clock + 2
    wdCount := 0 }

/-- A sequencer whose count of stalled cycles has passed WDLIMIT takes WATCHDOG with the kind of its stall (R55, R96). -/
def watchdog (t : Trust) (c : Nat) (q : SeqId) (m : Mach) : Mach :=
  let s := m.seq c q
  if s.wdLimit ≠ 0 ∧ s.wdCount > s.wdLimit.toNat then takeTrap t c q tWatchdog (BitVec.ofNat 64 s.stall) s.pc m else m

/-- One more cycle of a counted stall; WATCHDOG in the cycle the count reaches WDLIMIT + 1 (R96). -/
def countStall (t : Trust) (c : Nat) (q : SeqId) (kind : Nat) (m : Mach) : Mach :=
  watchdog t c q (m.onSeq c q fun s => { s with wdCount := s.wdCount + 1, stall := kind, keyWait := none })

/-- Whether a pre-emption of the group is pending (R378). -/
def Core.preempting (k : Core) : Bool := match k.group with | some g => g.preempt.isSome | none => false

/-- A sequencer is taken by a pre-emption at a boundary; its stop cycle is the one in which its next instruction would
have started (R378), which is the present one when a hold or a sleep is cut short (R89). -/
def Seq.take (s : Seq) : Seq :=
  { s with
    taken := true
    stopClock := match s.pause with | .run => max s.clock s.readyAt | _ => s.clock
    pause := .run }

/-! ### Tokens (R34, R75, R76) -/

/-- The queue that a sequencer's pushes in a direction enter: its neighbour's inbound queue. -/
def Core.pushQ (k : Core) (q : SeqId) (up : Bool) : TokQ :=
  if up then (k.seq (upstream q)).inDown else (k.seq (downstream q)).inUp
/-- Whether the neighbour in a direction has exited, so that tokens toward it are discarded (R92). -/
def Core.pushGone (k : Core) (q : SeqId) (up : Bool) : Bool :=
  (k.seq (if up then upstream q else downstream q)).exited
/-- Change the queue that pushes in a direction enter; pushes to an exited neighbour change nothing. -/
def Core.onPushQ (k : Core) (q : SeqId) (up : Bool) (f : TokQ → TokQ) : Core :=
  if k.pushGone q up then k
  else if up then k.onSeq (upstream q) fun s => { s with inDown := f s.inDown }
  else k.onSeq (downstream q) fun s => { s with inUp := f s.inUp }
/-- Room for n more tokens (R75). -/
def Core.tokRoom (k : Core) (q : SeqId) (up : Bool) (n : Nat) : Bool :=
  let t := k.pushQ q up
  k.pushGone q up || decide (t.posted + t.arriving + t.reserved + n ≤ 15)
/-- Reserve n tokens. -/
def Core.tokReserve (k : Core) (q : SeqId) (up : Bool) (n : Nat) : Core :=
  k.onPushQ q up fun t => { t with reserved := t.reserved + n }
/-- Post n reserved tokens: they can be popped from the next cycle (R72). -/
def Core.tokPost (k : Core) (q : SeqId) (up : Bool) (n : Nat) : Core :=
  k.onPushQ q up fun t => { t with reserved := t.reserved - n, arriving := t.arriving + n }
/-- The inbound queue of a sequencer from a neighbour. -/
def Seq.inQ (s : Seq) (down : Bool) : TokQ := if down then s.inDown else s.inUp
/-- Pop n tokens from a neighbour. -/
def Seq.tokPop (s : Seq) (down : Bool) (n : Nat) : Seq :=
  if down then { s with inDown := { s.inDown with posted := s.inDown.posted - n } }
  else { s with inUp := { s.inUp with posted := s.inUp.posted - n } }
/-- Post the push tokens of a finished instruction. -/
def Core.postTokens (k : Core) (q : SeqId) (pu pd : Bool) : Core :=
  let k := if pu then k.tokPost q true 1 else k
  if pd then k.tokPost q false 1 else k

/-- Check 6 of R47: the token pops and the room for the token pushes; what it gives has both done (R73). -/
def Env.tokens (e : Env) (m : Mach) : Chk Mach :=
  let k := m.core e.c
  let s := k.seq e.q
  if (e.tok.wu && decide (s.inUp.posted = 0)) || (e.tok.wd && decide (s.inDown.posted = 0)) ||
      (e.tok.pu && !k.tokRoom e.q true 1) || (e.tok.pd && !k.tokRoom e.q false 1) then .error (.stall 1)
  else
    let k := if e.tok.wu then k.onSeq e.q fun s => s.tokPop false 1 else k
    let k := if e.tok.wd then k.onSeq e.q fun s => s.tokPop true 1 else k
    let k := if e.tok.pu then k.tokReserve e.q true 1 else k
    let k := if e.tok.pd then k.tokReserve e.q false 1 else k
    .ok (m.setCore e.c k)

/-! ### Going on (R45, R72, R82) -/

/-- The loop test (R82): the top level is the head of the stack; the last part says whether it went back to a start. -/
def loopTest (regs : SMap Word) : List LoopLevel → Offset → SMap Word × List LoopLevel × Offset × Bool
  | [], pc => (regs, [], pc, false)
  | l :: r, pc =>
    if l.stop = pc then
      let v := SMap.getD regs l.k.toNat 0 - 1
      let regs' := SMap.put 0 regs l.k.toNat v
      if v ≠ 0 then (regs', l :: r, l.start, true) else loopTest regs' r pc
    else (regs, l :: r, pc, false)

/-- A sequencer goes on at an offset after some cycles, with the loop test; inside an open clause a test that would go
back to a loop start is not applied, and the clause remembers it for the CLAUSE of the next attempt (R448). -/
def Core.goTo (k : Core) (q : SeqId) (pc : Offset) (delay : Nat) : Core :=
  let s := k.seq q
  let (regs, stack, pc', back) := loopTest s.loops s.stack pc
  match q, k.clause, back with
  | .cmp, some cl, true =>
    let k := { k with clause := some { cl with back := some pc' } }
    k.onSeq q fun s => { s with pc := pc, readyAt := s.clock + delay, waitsOut := false, wdCount := 0 }
  | _, _, _ =>
    k.onSeq q fun s =>
      { s with pc := pc', loops := regs, stack := stack, readyAt := s.clock + delay, waitsOut := false, wdCount := 0 }

/-- The offset after an instruction of n words (R45). -/
def Seq.after (s : Seq) (len : Nat) : Offset := s.pc + BitVec.ofNat 15 (4 * len)

/-- The issuing sequencer goes on at an offset after some cycles. -/
def Env.jump (e : Env) (pc : Offset) (delay : Nat) (m : Mach) : Mach := m.onCore e.c fun k => k.goTo e.q pc delay

/-- The issuing sequencer goes on with the next instruction. -/
def Env.advance (e : Env) (delay : Nat) (m : Mach) : Mach := e.jump ((m.seq e.c e.q).after e.len) delay m

/-! ### Scalar queues (R64 to R66) -/

/-- Whether a queue of a sequencer is bound to arrivals (R70, R270). -/
def Core.isBound (k : Core) (q : SeqId) (vec : Bool) (n : BitVec 4) : Bool :=
  k.bindings.any fun b => decide (b.seq = q ∧ b.sel.vec = vec ∧ b.sel.q = n)

/-- The slots of a scalar queue. -/
def Seq.xslots (s : Seq) (n : BitVec 4) : List (QSlot Word) := SMap.getD s.xq n.toNat []
/-- A scalar queue replaced. -/
def Seq.setX (s : Seq) (n : BitVec 4) (l : List (QSlot Word)) : Seq := { s with xq := SMap.put [] s.xq n.toNat l }
/-- The slots of a vector queue. -/
def Core.vslots (k : Core) (n : BitVec 4) : List (QSlot VEntry) := SMap.getD k.vq n.toNat []
/-- A vector queue replaced. -/
def Core.setV (k : Core) (n : BitVec 4) (l : List (QSlot VEntry)) : Core := { k with vq := SMap.put [] k.vq n.toNat l }
/-- v8 to v15 are the bridge queues (R68). -/
def isBridge (n : BitVec 4) : Bool := decide (8 ≤ n.toNat)

/-- The head of a scalar queue (R66, R70). -/
def Core.headX (k : Core) (q : SeqId) (n : BitVec 4) : Chk Word :=
  match (k.seq q).xslots n with
  | [] => .error (if k.isBound q false n then .stall 2 else .trap tQund (queueInfo false n))
  | sl :: _ =>
    match sl.entry with
    | .present v => .ok v
    | .pending => .error (.stall 2)
    | .inFlight => .error (.trap tQund (queueInfo false n))
    | .poisoned => .error (.slot false n)

/-- The head of a vector queue (R66, R68, R70): where another queue would trap, a bridge queue stalls. -/
def Core.headV (k : Core) (n : BitVec 4) : Chk VEntry :=
  match k.vslots n with
  | [] => .error (if isBridge n || k.isBound .cmp true n then .stall 2 else .trap tQund (queueInfo true n))
  | sl :: _ =>
    match sl.entry with
    | .present v => .ok v
    | .pending => .error (.stall 2)
    | .inFlight => .error (if isBridge n then .stall 2 else .trap tQund (queueInfo true n))
    | .poisoned => .error (.slot true n)

/-- Remove the head of a scalar queue. -/
def Core.popX (k : Core) (q : SeqId) (n : BitVec 4) : Core := k.onSeq q fun s => s.setX n (s.xslots n).tail
/-- Remove the head of a vector queue. -/
def Core.popV (k : Core) (n : BitVec 4) : Core := k.setV n (k.vslots n).tail

/-- Reserve the tail slot of a scalar queue (R64, R65, R70). -/
def Env.reserveX (e : Env) (m : Mach) (n : BitVec 4) (en : Entry Word) : Chk (Nat × Mach) :=
  let k := m.core e.c
  if k.isBound e.q false n || decide (4 ≤ ((k.seq e.q).xslots n).length) then
    .error (.trap tQovf (queueInfo false n))
  else
    .ok (m.ids, { m.setCore e.c (k.onSeq e.q fun s => s.setX n (s.xslots n ++ [⟨m.ids, en⟩])) with ids := m.ids + 1 })

/-- Reserve the tail slot of a vector queue (R64, R65, R68, R70); none when ld pushes to a cmp that has exited (R92). DESIGN CHOICE:
that discard comes before the QOVF of R20 for a bound queue, which the spec does not order (log 145). -/
def Env.reserveV (e : Env) (m : Mach) (n : BitVec 4) (en : Entry VEntry) : Chk (Option Nat × Mach) :=
  let k := m.core e.c
  if e.q = .ld && k.cmp.exited then .ok (none, m)
  else if k.isBound .cmp true n then .error (.trap tQovf (queueInfo true n))
  else if 4 ≤ (k.vslots n).length then
    .error (if isBridge n then .stall 2 else .trap tQovf (queueInfo true n))
  else .ok (some m.ids, { m.setCore e.c (k.setV n (k.vslots n ++ [⟨m.ids, en⟩])) with ids := m.ids + 1 })

/-! ### Results -/

/-- Fill the slot of a number. -/
def fillSlot {α : Type} (id : Nat) (v : α) (l : List (QSlot α)) : List (QSlot α) :=
  l.map fun s => if s.id = id then ⟨id, .present v⟩ else s

/-- The mask that a scalar result gives: its low v bits, at most 1,024 (R100). -/
def maskOfCount (v : Word) : MaskBits :=
  if 1024 ≤ v.toNat then BitVec.allOnes 1024 else BitVec.ofNat 1024 (2 ^ v.toNat - 1)

/-- A landing place given the scalar result. -/
def Landing.put : Landing → Word → Landing
  | .x q n slot _, w => .x q n slot w
  | .loop q k _, w => .loop q k w
  | .mask k _ _, w => .mask k (maskOfCount w) w
  | l, _ => l
/-- A landing place given the vector result. -/
def Landing.putV : Landing → VEntry → Landing
  | .v n slot _, e => .v n slot e
  | l, _ => l
/-- A landing place given the mask result. -/
def Landing.putM : Landing → MaskBits → Landing
  | .mask k _ scalar, w => .mask k w scalar
  | l, _ => l

/-- The bits of a mask register; m0 reads as all ones (R20): `k` is the raw mask number. -/
def Core.maskReg (k : Core) (n : Nat) : MaskReg :=
  if n = 0 then ⟨BitVec.allOnes 1024, 0⟩ else SMap.getD k.masks n ⟨0, 0⟩

/-- A mask with a pending write is neither read nor written (R194). -/
def Core.maskReady (k : Core) (n : Nat) : Chk Unit := must (decide ((k.maskReg n).pending = 0)) (.stall 2)

/-- A result lands; values for an exited sequencer's queues are discarded (R92). -/
def Core.land (k : Core) : Landing → Core
  | .x q n slot v => if (k.seq q).exited then k else k.onSeq q fun s => s.setX n (fillSlot slot v (s.xslots n))
  | .v n slot e => if k.cmp.exited then k else k.setV n (fillSlot slot e (k.vslots n))
  | .loop q r v => k.onSeq q fun s => { s with loops := SMap.put 0 s.loops r.toNat v }
  | .mask r v _ => { k with masks := SMap.put ⟨0, 0⟩ k.masks (r.val + 1) { k.maskReg (r.val + 1) with bits := v } }
  | .none => k

/-- The register that a result writes, as a key of Seq.wrote: a loop register of a sequencer, or a mask, which cmp writes
(R71). -/
def Landing.register : Landing → Option (SeqId × Nat)
  | .loop q n _ => some (q, n.toNat)
  | .mask n _ _ => some (.cmp, 8 + n.val)
  | _ => Option.none

/-- Whether a register took, in this cycle, the write of a later issue than `id` (R71). -/
def Core.overtaken (k : Core) (id : Nat) (d : Landing) : Bool :=
  match d.register with
  | none => false
  | some (q, n) =>
    match SMap.get? (k.seq q).wrote n with
    | none => false
    | some (at_, by_) => decide (at_ = k.cycles.toNat ∧ id < by_)

/-- A result of an issue lands: of two writes of one register in one cycle the one issued later stays (R71). -/
def Core.landFrom (k : Core) (id : Nat) (d : Landing) : Core :=
  if k.overtaken id d then k
  else
    match d.register with
    | none => k.land d
    | some (q, n) => (k.land d).onSeq q fun s => { s with wrote := SMap.set s.wrote n (k.cycles.toNat, id) }

/-- The place a scalar result goes, with its slot reserved; what a slot holds meanwhile is `en` (R42, R64, R67). -/
def Env.dst (e : Env) (m : Mach) (d : Dst) (en : Entry Word) : Chk (Landing × Mach) :=
  match d with
  | .queue n => do
    let (slot, m) ← e.reserveX m n en
    .ok (.x e.q n slot 0, m)
  | .loop k => .ok (.loop e.q k 0, m)
  | .mask k => do
    (m.core e.c).maskReady (k.val + 1)
    .ok (.mask k 0 0, m)
  | .discard => .ok (.none, m)

/-- The place a vector result goes. -/
def Env.dstV (e : Env) (m : Mach) (d : Dst) (en : Entry VEntry) : Chk (Landing × Mach) :=
  match d with
  | .queue n => do
    let (slot, m) ← e.reserveV m n en
    .ok (match slot with | some i => .v n i ⟨.b, 0⟩ | none => .none, m)
  | .mask k => do
    (m.core e.c).maskReady (k.val + 1)
    .ok (.mask k 0 0, m)
  | .loop k => .ok (.loop e.q k 0, m)
  | .discard => .ok (.none, m)

/-- A timed result of latency L, with its flags; its tokens are posted when it lands (R34, R72, R99). -/
def Env.timed (e : Env) (m : Mach) (latency : Nat) (dest : Landing) (satur divz : Bool) : Mach :=
  m.onSeq e.c e.q fun s =>
    { s with timed := s.timed ++ [⟨m.ids, s.clock + latency, dest, satur, divz, e.tok.pu, e.tok.pd⟩] }

/-- An instruction without a result finishes in its start cycle (R72). -/
def Env.finishNow (e : Env) (m : Mach) : Mach := m.onCore e.c fun k => k.postTokens e.q e.tok.pu e.tok.pd

/-- A landing wakes a sleeper when it is a pending entry of one of its queues or a neighbour's push into one of its
bridge queues (R91). -/
def Core.nudge (k : Core) (pending : Bool) : Landing → Core
  | .x q _ _ _ => if pending then k.onSeq q fun s => { s with nudged := true } else k
  | .v n _ _ =>
    let k := if pending || decide (12 ≤ n.toNat) then k.onSeq .cmp fun s => { s with nudged := true } else k
    if 8 ≤ n.toNat ∧ n.toNat < 12 then k.onSeq .st fun s => { s with nudged := true } else k
  | _ => k

/-- A sleeper wakes: its next instruction starts 4 cycles after the wake event (R91). -/
def Seq.wake (s : Seq) : Seq :=
  match s.pause with
  | .sleep limit =>
    if s.nudged || decide (0 < s.inUp.posted + s.inUp.arriving + s.inDown.posted + s.inDown.arriving) ||
        (match limit with | some l => decide (l ≤ s.clock) | none => false) then
      { s with pause := .run, nudged := false, readyAt := s.clock + 4 }
    else s
  | _ => s

/-- A hold ends (R89). -/
def Seq.holdEnd (s : Seq) (cycles : Word) : Seq :=
  match s.pause with
  | .hold n => if n ≤ s.clock then { s with pause := .run } else s
  | .holdAbs a => if a.toNat ≤ cycles.toNat then { s with pause := .run } else s
  | _ => s

/-- A timed result lands: its value, its flags, its tokens (R34, R71, R99). -/
def Core.landTimed (k : Core) (q : SeqId) (r : Timed) : Core :=
  let k := (k.landFrom r.id r.dest).nudge false r.dest
  let k := k.onSeq q fun s => s.flag (intFlags r.satur r.divz)
  k.postTokens q r.pu r.pd

/-- What a landing place holds before a result lands there. -/
def Core.before (k : Core) : Landing → Landing
  | .loop q n _ => .loop q n (SMap.getD (k.seq q).loops n.toNat 0)
  | .mask n _ _ => .mask n (k.maskReg (n.val + 1)).bits 0
  | d => d

/-- The timed results of a sequencer that are due by its clock land, in issue order; while a pre-emption is pending what
they changed is kept (R379). -/
def Core.landDue (k : Core) (q : SeqId) : Core :=
  let s := k.seq q
  let due := s.timed.filter fun r => decide (r.lands ≤ s.clock)
  if due.isEmpty then k
  else
    let k1 := k.onSeq q fun s =>
      let s := { s with timed := s.timed.filter fun r => decide (s.clock < r.lands) }
      if k.preempting then { s with undo := due.map fun r => (r, k.before r.dest), flags0 := s.status.flags } else s
    due.foldl (fun k r => k.landTimed q r) k1

/-! ### Being taken, and a halted attempt (R73, R378, R379) -/

/-- A slot is in flight again. -/
def unfillSlot {α : Type} (id : Nat) (l : List (QSlot α)) : List (QSlot α) :=
  l.map fun s => if s.id = id then ⟨id, .inFlight⟩ else s

/-- Whether a landing place is no queue, or its slot is still in its queue. -/
def Core.holdsSlot (k : Core) : Landing → Bool
  | .x q n slot _ => ((k.seq q).xslots n).any fun s => decide (s.id = slot)
  | .v n slot _ => (k.vslots n).any fun s => decide (s.id = slot)
  | _ => true

/-- A result that landed with the present cycle is in flight again: its slot when nobody has popped it, its register's
old value, its tokens unposted (R379). -/
def Core.unland (k : Core) (q : SeqId) (r : Timed) (was : Landing) : Core :=
  let k := match was with
    | .x s n slot _ => k.onSeq s fun s => s.setX n (unfillSlot slot (s.xslots n))
    | .v n slot _ => k.setV n (unfillSlot slot (k.vslots n))
    | .loop s n v => k.onSeq s fun s => { s with loops := SMap.put 0 s.loops n.toNat v }
    | .mask n v _ => { k with masks := SMap.put ⟨0, 0⟩ k.masks (n.val + 1) { k.maskReg (n.val + 1) with bits := v } }
    | .none => k
  let k := if r.pu then k.onPushQ q true fun t => { t with reserved := t.reserved + 1, arriving := t.arriving - 1 } else k
  if r.pd then k.onPushQ q false fun t => { t with reserved := t.reserved + 1, arriving := t.arriving - 1 } else k

/-- A sequencer of a core is taken: a result whose landing cycle is its stop cycle is held too, with remaining 0 (R379,
R381), unless st has popped it already. -/
def Core.take (k : Core) (q : SeqId) : Core :=
  let k := k.onSeq q Seq.take
  let s := k.seq q
  let back := s.undo.filter fun x => decide (x.1.lands = s.stopClock) && k.holdsSlot x.2
  let kept := (s.undo.filter fun x => decide (x.1.lands = s.stopClock) && !k.holdsSlot x.2).foldl
    (fun f x => f ||| intFlags x.1.satur x.1.divz) s.flags0
  let k := back.foldr (fun x k => k.unland q x.1 x.2) k
  if back.isEmpty then k
  else k.onSeq q fun s => { s with
    timed := back.map Prod.fst ++ s.timed
    undo := []
    status := { s.status with flags := kept ||| (s.status.flags &&& ~~~(back.foldl (fun f x => f ||| intFlags x.1.satur x.1.divz) 0)) } }

/-- A sequencer that waits while a pre-emption of its group is pending is taken at once, but not while cmp has a clause
open (R378). -/
def Mach.takeWaiting (m : Mach) (c : Nat) (q : SeqId) : Option Mach :=
  let k := m.core c
  if k.preempting && !(decide (q = .cmp) && k.clause.isSome) then some (m.setCore c (k.take q)) else none

/-- Whether the sequencer's request still waits at a key rack (R155). -/
def Seq.waitsForKey (s : Seq) : Bool :=
  s.keyWait.isSome && decide (s.wdCount ≠ 0 ∧ s.stall = 4) && !s.taken && !s.stopped && !s.exited

/-- A KEYW stalls: its request takes its place at the rack once, and keeps it while the KEYW stalls (R155). -/
def waitAtRack (t : Trust) (c : Nat) (q : SeqId) (rid : Nat) (ask : KeyAsk) (m : Mach) : Mach :=
  let s := m.seq c q
  let kept := (if s.waitsForKey then s.keyWait else none).filter fun w => decide (w.rid = rid ∧ w.ask = ask)
  let m1 := countStall t c q 4 { m with ids := if kept.isSome then m.ids else m.ids + 1 }
  m1.onSeq c q fun s => { s with keyWait := some (kept.getD ⟨rid, ask, m.ids⟩) }

/-- A collective table (R413). -/
def Mach.collective (m : Mach) (g : Nat) : Option Collective := SMap.get? m.collectives g
/-- A table changed. -/
def Mach.onCollective (m : Mach) (g : Nat) (f : Collective → Collective) : Mach :=
  match m.collective g with
  | none => m
  | some x => { m with collectives := SMap.set m.collectives g (f x) }
/-- A run that nothing has reached yet. -/
def ClrdRun.new : ClrdRun := ⟨[], none, false, false, false, none, false, false, []⟩
/-- The run of a chunk (R416). -/
def Collective.run (x : Collective) (c : BitVec 32) : ClrdRun := SMap.getD x.runs c.toNat .new
/-- The run of a chunk changed. -/
def Collective.onRun (x : Collective) (c : BitVec 32) (f : ClrdRun → ClrdRun) : Collective :=
  { x with runs := SMap.set x.runs c.toNat (f (x.run c)) }

/-- A table as members compare it: dbase is each member's own (R413). -/
def Collective.table (x : Collective) : GroupTable := ⟨x.words.set 1 0, x.members⟩
/-- A member whose CLRD waits for partials tells every other live member its table, once, so that tables that differ are found even
where each member waits for another (R416; log 119). -/
def Mach.clrdBegins (m : Mach) (p : BitVec 10) (g : Nat) (c : BitVec 32) : Mach :=
  match m.collective g with
  | none => m
  | some x =>
    if (x.run c).begun then m
    else
      let w : ChildWord := ⟨x.table, x.live.length, (x.run c).rebuilt, none⟩
      { m.onCollective g (fun x => x.onRun c fun r => { r with begun := true }) with
        outbox := m.outbox ++ (x.live.filter fun q => decide (q ≠ p)).map fun q => Sent.partial_ q g c w }

/-- The issuing sequencer consumes poison: it stops, and its context is to be lost (R395). -/
def Env.lose (e : Env) (die bank : Nat) (i : ErrInfo) (m : Mach) : Mach :=
  (m.onSeq e.c e.q fun s => { s with stopped := true }).consume die bank i (e.ctx m) e.die e.corelog (seqIndex e.q)

/-- What a halted attempt leaves: every queue and token as it was (R73). -/
def Env.halt (e : Env) (h : Halt) (m : Mach) : Mach :=
  match h with
  | .trap code info => takeTrap e.trust e.c e.q code info (m.seq e.c e.q).pc m
  | .answered code info left =>
    takeTrap e.trust e.c e.q code info (m.seq e.c e.q).pc { m with inbox := left }
  | .stall kind => (m.takeWaiting e.c e.q).getD (countStall e.trust e.c e.q kind m)
  | .wait => (m.takeWaiting e.c e.q).getD m
  | .waitOut => m.onSeq e.c e.q fun s => { s with waitsOut := true }
  | .rack rid ask => (m.takeWaiting e.c e.q).getD (waitAtRack e.trust e.c e.q rid ask m)
  | .chunk g n => (m.takeWaiting e.c e.q).getD (countStall e.trust e.c e.q 3 (m.clrdBegins e.trust.package g n))
  | .lost die b i => e.lose die b i m
  | .slot vec n => e.lose e.die 1 ⟨slotAddr vec n 0, BitVec.ofNat 2 (seqIndex e.q), some (e.ctx m), BitVec.ofNat 6 e.corelog, 0, 0⟩ m

/-! ### Handshake operations (R17, R34) -/

/-- Start a handshake operation; what it gives is its number too. -/
def Env.start (e : Env) (m : Mach) (kind : OpKind) (dests : List Landing) (flags : BitVec 7) (fin : List Fin_)
    (load : Option LoadRef) : Nat × Mach :=
  let op : Op := ⟨m.ids, e.q, e.tok.pu, e.tok.pd, kind, dests, flags, fin, load, (m.core e.c).cycles.toNat⟩
  let m1 := m.onCore e.c fun k => { k with ops := k.ops ++ [op] }
  (m.ids, { m1 with ids := m.ids + 1 })

/-- The issuing sequencer starts nothing more until an operation has finished (R160 and its kin). -/
def Env.block (e : Env) (o : Nat) (m : Mach) : Mach := m.onSeq e.c e.q fun s => { s with blockedOn := some o }

/-- Start an operation that took effect already and lands its results. -/
def Env.startValues (e : Env) (m : Mach) (dests : List Landing) (flags : BitVec 7) (fin : List Fin_) : Mach :=
  (e.start m .values dests flags fin none).2

/-- An operation of a core. -/
def Core.op? (k : Core) (o : Nat) : Option Op := k.ops.find? fun x => decide (x.id = o)

/-- An operation that can be acknowledged now: not before the end of the cycle in which a write of the core waits for that
end (R143). -/
def Core.open? (k : Core) (o : Nat) : Option Op := if k.later.isEmpty then k.op? o else none

/-- An operation replaced by another of its number. -/
def Core.setOp (k : Core) (op : Op) : Core := { k with ops := k.ops.map fun x => if x.id = op.id then op else x }

/-- A line of the read-stage buffer lies in a range (R127). -/
def Line.inRange (l : Line) (r : LineRange) : Bool := decide (l.dev = r.dev) && overlaps l.base 512 r.base r.len

/-- Invalidate staged lines of a range (R127). -/
def Core.dropLines (k : Core) (r : LineRange) : Core := { k with lines := k.lines.filter fun l => !l.inRange r }

/-- The key view gains a key or share (R143). -/
def Core.gain (k : Core) (h : Hold) : Core := { k with view := k.view ++ [h] }
/-- The key view drops one key or share. -/
def Core.drop (k : Core) (h : Hold) : Core := { k with view := k.view.erase h }

/-- The right that a share of a key gives (R144). -/
def KState.right : KState → Right
  | .shared => .read
  | .scatter => .write
  | _ => .excl

/-- The key view of a group, built from the rack (R143). -/
def Mach.viewOf (m : Mach) (g : Gid) : List Hold :=
  m.regions.flatMap fun r =>
    if r.key.state = .excl then (if r.key.holder = .group g then [⟨r.rid, .excl⟩] else [])
    else (r.key.shares.filter fun s => decide (s.holder = .group g)).map fun _ => ⟨r.rid, r.key.state.right⟩

/-- The passes of a region that a core's group has under way. -/
def Core.passes (k : Core) (rid : Nat) : Nat :=
  (k.ops.filter fun o => match o.kind with
    | .lend r .. => decide (r = rid)
    | .retn r _ => decide (r = rid)
    | .splitCmn r => decide (r = rid)
    | _ => false).length

/-- What the rack has of a region with a core's group, without what the group is passing on (R143). -/
def Mach.held (m : Mach) (c rid : Nat) : List Hold :=
  match (m.core c).group with
  | none => []
  | some g => ((m.viewOf g.gid).filter fun h => decide (h.rid = rid)).drop ((m.core c).passes rid)

/-- Whether an operation other than o keeps a region out of the core's view until it finishes (R294). -/
def Core.hides (k : Core) (o rid : Nat) : Bool := k.ops.any fun x => decide (x.id ≠ o) && x.fin.any fun f => decide (f = .shows rid)

/-- What of its finish an operation does, for a view: the view gains no more of a region than the rack has with the group, since
another instruction may have passed on or changed a key meanwhile (R143, R145). -/
def Mach.granted (m : Mach) (c o : Nat) : List Hold → List Fin_ → List Fin_
  | _, [] => []
  | view, .gain h :: r =>
    let n := (view.filter fun x => decide (x.rid = h.rid)).length
    if !(m.core c).hides o h.rid && ((m.held c h.rid).drop n).any (fun x => decide (x = h)) then
      .gain h :: m.granted c o (view ++ [h]) r
    else m.granted c o view r
  | view, .shows rid :: r =>
    let new := (m.held c rid).drop (view.filter fun x => decide (x.rid = rid)).length
    new.map .gain ++ m.granted c o (view ++ new) r
  | view, f :: r => f :: m.granted c o view r

/-- What finishing an operation does besides landing its results. -/
def Core.finAct (k : Core) : Fin_ → Core
  | .gain h => k.gain h
  | .shows _ => k
  | .drop h => k.drop h
  | .lines r => k.dropLines r
  | .allLines => { k with lines := [] }
  | .bind q s o n => { k with bindings := k.bindings ++ [⟨q, s, o, n⟩] }
  | .unmask r =>
    let g := k.maskReg (r.val + 1)
    { k with masks := SMap.put ⟨0, 0⟩ k.masks (r.val + 1) ⟨g.bits, g.pending - 1⟩ }
  | .slots .. => k
  | .bufAck n => { k with posted := k.posted.filter fun p => decide (p.id ≠ n) }

/-- An operation finishes: its results land, its flags are set, its tokens are posted, its sequencer goes on (R34). -/
def Core.finish (k : Core) (op : Op) : Core :=
  let k := op.dests.foldl (fun k d => (k.landFrom op.id d).nudge true d) k
  let k := op.fin.foldl Core.finAct k
  let k := k.onSeq op.seq fun s => s.flag op.flags
  let k := k.postTokens op.seq op.pu op.pd
  let k := k.onSeqs fun s => if s.blockedOn = some op.id then { s with blockedOn := none } else s
  { k with ops := k.ops.filter fun x => decide (x.id ≠ op.id) }

/-- A region changed. -/
def Mach.onRegion (m : Mach) (rid : Nat) (f : Region → Region) : Mach :=
  { m with regions := m.regions.map fun r => if r.rid = rid then f r else r }

/-- The state of slot k of a ring (R278). -/
def Ring.slot (r : Ring) (k : Nat) : RSlot := SMap.getD r.state (k % r.slots) .free
/-- n slots of a ring from number k on changed. -/
def Ring.setSlots (r : Ring) (k : Nat) (f : RSlot → RSlot) : Nat → Ring
  | 0 => r
  | n + 1 => Ring.setSlots { r with state := SMap.put .free r.state (k % r.slots) (f (r.slot k)) } (k + 1) f n

/-- The group holds the slots it claimed or took once the instruction finishes (R279). -/
def RSlot.hold : RSlot → RSlot
  | .claimed g _ => .claimed g true
  | .reading g _ => .reading g true
  | s => s

/-- What finishing does to the rack. -/
def Mach.finAct (m : Mach) : Fin_ → Mach
  | .slots rid k n => m.onRegion rid fun r => { r with ring := r.ring.map fun g => g.setSlots k RSlot.hold n }
  | _ => m

/-- An operation of a core of the machine finishes. -/
def Mach.finish (m : Mach) (c : Nat) (op : Op) : Mach :=
  (op.fin.foldl Mach.finAct m).onCore c fun k => k.finish { op with fin := m.granted c op.id k.view op.fin }

/-- An operation ends without any effect: its reader's context was lost (R395). -/
def Mach.dropOp (m : Mach) (c o : Nat) : Mach := m.onCore c fun k => { k with ops := k.ops.filter fun x => decide (x.id ≠ o) }

/-- A write that takes effect at the end of the cycle. -/
def Env.later (e : Env) (l : Later) (m : Mach) : Mach := m.onCore e.c fun k => { k with later := k.later ++ [l] }

end Sys2Proof.Machine
end

