-- ==== Sys2Proof/Machine/Operands.lean ====
section
/-! DEFINITION. The issue checks of R47, who may issue what (R50 to R52), the operand forms (R40 to R43), and the shape
that every encoded instruction's meaning has. -/

namespace Sys2Proof.Machine

/-! ### Sources -/

/-- Sign-extension to 64 bits. -/
def sext64 {n : Nat} (x : BitVec n) : Word := x.signExtend 64

/-- A scalar source: its value, with its pop (R40, R41, R43, R66). Lane index is no scalar operand: `Instr.wf`. -/
def Env.src (e : Env) (m : Mach) (s : Src) : Chk (Word × Mach) :=
  match s with
  | .pop n => do
    let v ← (m.core e.c).headX e.q n
    .ok (v, m.onCore e.c fun k => k.popX e.q n)
  | .peek n => do
    let v ← (m.core e.c).headX e.q n
    .ok (v, m)
  | .imm v => .ok (sext64 v, m)
  | .loop k => .ok (SMap.getD (m.seq e.c e.q).loops k.toNat 0, m)
  | .zero => .ok (0, m)
  | .lane => .error (e.trapWord tIllop)
  | .grp => .ok (BitVec.ofNat 64 (m.core e.c).grpid, m)
  | .core => .ok (BitVec.ofNat 64 e.corelog, m)
  | .lit32 v => .ok (sext64 v, m)
  | .lit64 v => .ok (v, m)

/-- Two scalar sources in order (R43). -/
def Env.src2 (e : Env) (m : Mach) (a b : Src) : Chk (Word × Word × Mach) := do
  let (x, m) ← e.src m a
  let (y, m) ← e.src m b
  .ok (x, y, m)

/-- A vector operand: an entry of a queue, a scalar to broadcast, or the lane index (R41). -/
inductive VOp where
  | entry (e : VEntry)
  | scal (w : Word)
  | lane
deriving DecidableEq, Repr

/-- A vector source, with its pop (R41, R43, R66). -/
def Env.srcV (e : Env) (m : Mach) (s : Src) : Chk (VOp × Mach) :=
  match s with
  | .pop n => do
    let v ← (m.core e.c).headV n
    .ok (.entry v, m.onCore e.c fun k => k.popV n)
  | .peek n => do
    let v ← (m.core e.c).headV n
    .ok (.entry v, m)
  | .lane => .ok (.lane, m)
  | s => do
    let (v, m) ← e.src m s
    .ok (.scal v, m)

/-- The vector queue that a third source pops (R37). -/
def Env.third (e : Env) (m : Mach) (q : BitVec 3) : Chk (VEntry × Mach) := do
  let n : BitVec 4 := q.setWidth 4
  let v ← (m.core e.c).headV n
  .ok (v, m.onCore e.c fun k => k.popV n)

end Sys2Proof.Machine

namespace Sys2Proof

/-! ### Who may issue what -/

/-- Every sequencer, and the named ones (R50). -/
def inSeqs (l : List SeqId) (q : SeqId) : Bool := l.any fun x => decide (x = q)

/-- Whether a sequencer may issue an instruction (R50). An event row is no instruction and passes. -/
def Instr.mayIssue (i : Instr) (q : SeqId) : Bool :=
  match i with
  | .ldl .. => inSeqs [.ctl, .ld, .cmp] q
  | .stl .. => inSeqs [.ctl, .cmp, .st] q
  | .ldg .. | .ldd .. | .ldb .. | .pfd .. | .loc .. => inSeqs [.ctl, .ld] q
  | .stg .. | .std .. | .stb .. => inSeqs [.ctl, .st] q
  | .bopn .. | .bshr .. | .bfre .. | .bfreClose .. | .binv .. | .bqry .. | .bgrw .. | .bgrwRel .. => inSeqs [.ctl] q
  | .leaseAcq .. | .leaseRel .. | .wld .. | .wswp .. | .mxh .. | .mxa .. | .mxsq .. | .mxmd .. | .mxgr .. | .mxdr ..
  | .mxdrKeep .. | .mxz .. | .mvk .. | .mvq .. | .mvv .. | .mvm .. | .mvmOff .. | .mvd .. => inSeqs [.cmp] q
  | .vadd .. | .vsub .. | .vmul .. | .vfma .. | .vmnx .. | .vcmp .. | .vsel .. | .vlog .. | .vshf .. | .vprm .. | .vred ..
  | .vwid .. | .vnar .. | .vbrd .. | .vmsk .. | .vscn .. | .cvt .. | .mxq .. | .mxx .. | .srsdSet .. | .srsdStep ..
  | .sfa .. | .sfb .. | .sfc .. | .smxs .. | .vlane .. | .vidx .. | .fcls .. | .fsc .. | .rndm .. | .vdot .. =>
    inSeqs [.cmp] q
  | .cpy .. => inSeqs [.ctl, .ld, .st] q
  | .cacc .. | .rpub .. | .rrel .. => inSeqs [.ctl, .st] q
  | .cbnd .. | .cbndOff .. | .rclm .. => inSeqs [.ctl, .ld] q
  | .rwfr .. => inSeqs [.ctl, .ld, .cmp] q
  | .rwfl .. => inSeqs [.ctl, .cmp] q
  | .cwt .. | .cwtTest .. | .rini .. | .rqry .. | .rlys .. | .rlyg .. | .rlygAdd .. | .rlygRet .. | .rlyw .. | .hoff ..
  | .hctlSeal .. | .hctlCommit .. | .hctlCancel .. | .hctlQry .. | .hctlDrop .. | .cwld .. => inSeqs [.ctl] q
  | .lendGrp .. | .lendPark .. | .retn .. => inSeqs [.ctl, .st] q
  | .keywArr .. | .keywTkt .. | .keywFree .. => inSeqs [.ctl, .ld] q
  | .splitAddr .. | .splitRd .. | .splitWr .. | .splitCmn .. | .joinAddr .. | .joinShr .. | .joinCmn .. | .joinRing ..
  | .keyq .. | .lnchNode .. | .lnchReq .. | .errqRd .. | .errqClr .. | .errqSum .. | .clrd .. | .clgtSet .. | .clgtClr ..
  | .clgtQry .. => inSeqs [.ctl] q
  | _ => true

/-- Whether a die's class implements an instruction (R51). -/
def Instr.onClass (i : Instr) (p : Bool) : Bool :=
  match i with
  | .leaseAcq .. | .leaseRel .. | .wld .. | .wswp .. | .mxh .. | .mxa .. | .mxsq .. | .mxmd .. | .mxgr .. | .mxdr ..
  | .mxdrKeep .. | .mxz .. => p
  | .mvk .. | .mvq .. | .mvv .. | .mvm .. | .mvmOff .. | .mvd .. => !p
  | _ => true

/-- The registers that only supervisor code reads or writes (R53, R376, R377). -/
def SysReg.isSuper : SysReg → Bool
  | .trapcause | .trappc | .trapinfo | .wdlimit | .cellmap => true
  | _ => false

/-- Whether an instruction needs supervisor mode (R52). -/
def Instr.needsSuper : Instr → Bool
  | .tret .. | .errqRd .. | .errqClr .. | .errqSum .. | .clgtSet .. | .clgtClr .. | .clgtQry .. => true
  | .srr _ _ r | .srw _ r _ => r.isSuper
  | _ => false

/-! ### The queues and masks an instruction names (R42, R68, R119) -/

/-- The queue a source in a vector position names. -/
def Src.named : Src → List (BitVec 4)
  | .pop n | .peek n => [n]
  | _ => []
/-- The queue a destination names. -/
def Dst.named : Dst → List (BitVec 4)
  | .queue n => [n]
  | _ => []
/-- The data queue of a 512-byte access. -/
def MSize.named (s : MSize) (q : BitVec 4) : List (BitVec 4) := if s = .b512 then [q] else []

/-- The vector queues an instruction reads. -/
def Instr.vecSrcs : Instr → List (BitVec 4)
  | .stl _ _ q _ _ s | .stg _ _ q _ _ s | .std _ _ q _ _ s | .stb _ _ q _ _ s => s.named q
  | .mvk _ _ a _ => a.named
  | .mvv _ _ q _ b => b.named ++ [q.setWidth 4]
  | .vadd _ _ _ _ a b | .vsub _ _ _ _ a b | .vmul _ _ _ _ a b | .vmnx _ _ _ a b | .vcmp _ _ _ _ a b | .vsel _ _ _ _ a b
  | .vlog _ _ .and a b | .vlog _ _ .or a b | .vlog _ _ .xor a b | .vlog _ _ .andn a b | .vshf _ _ _ a b | .mxx _ _ _ a b
  | .smxs _ _ _ a b => a.named ++ b.named
  | .vfma _ _ _ q a b | .vdot _ _ _ q a b => a.named ++ b.named ++ [q.setWidth 4]
  | .vlog _ _ .not a _ | .vred _ _ _ a _ | .vwid _ _ _ a | .vnar _ _ _ _ a | .vscn _ _ _ _ a | .cvt _ _ _ _ _ a
  | .mxq _ _ _ _ a | .sfa _ _ _ a | .sfb _ _ _ a | .sfc _ _ _ a | .vlane _ _ a _ | .fcls _ _ a => a.named
  | .vprm _ _ f a b => if f = .rot ∨ f = .rev then a.named else a.named ++ b.named
  | .fsc _ _ xp _ a b => if xp then a.named else a.named ++ b.named
  | .vbrd _ _ (.e a _) => a.named
  | .vmsk _ _ (.fromv a) => a.named
  | _ => []

/-- The vector queues an instruction pushes. -/
def Instr.vecDsts : Instr → List (BitVec 4)
  | .ldl _ q _ _ s | .ldg _ q _ _ s | .ldd _ q _ _ s | .ldb _ q _ _ s => s.named q
  | .mvq _ d _ _ _ | .mvd _ d _ _ _ => d.named
  | .vadd _ d _ _ _ _ | .vsub _ d _ _ _ _ | .vmul _ d _ _ _ _ | .vfma _ d _ _ _ _ | .vmnx _ d _ _ _ | .vcmp _ d _ _ _ _
  | .vsel _ d _ _ _ _ | .vlog _ d _ _ _ | .vshf _ d _ _ _ | .vprm _ d _ _ _ | .vred _ d _ _ _ | .vwid _ d _ _
  | .vnar _ d _ _ _ | .vbrd _ d _ | .vscn _ d _ _ _ | .cvt _ d _ _ _ _ | .mxx _ d _ _ _ | .sfa _ d _ _ | .sfb _ d _ _
  | .sfc _ d _ _ | .smxs _ d _ _ _ | .vidx _ d _ _ _ | .fcls _ d _ | .fsc _ d _ _ _ _ | .rndm _ d _ | .vdot _ d _ _ _ _ =>
    d.named
  | .mxq _ d _ _ _ => d.named ++ d.named.map (· + 1)
  | _ => []

/-- The destination of an instruction that has one in format A or I. -/
def Instr.dst? : Instr → Option Dst
  | .qopCnt _ d _ | .qopTcnt _ d _ | .lmov _ d _ _ | .add _ d _ _ _ _ | .sub _ d _ _ _ _ | .mul _ d _ _ _ | .div _ d _ _ _ _
  | .and _ d _ _ _ | .or _ d _ _ _ | .xor _ d _ _ _ | .shf _ d _ _ _ _ | .cmp _ d _ _ _ _ | .sel _ d _ _ _ _
  | .minmax _ d _ _ _ | .bits _ d _ _ _ | .agen _ d _ _ _ | .li _ d _ | .ext _ d _ _ _ | .loc _ d _ _ | .bopn _ d _ _
  | .bshr _ d _ _ | .bfre _ d _ _ _ | .bfreClose _ d _ | .binv _ d _ _ _ | .bqry _ d _ _ | .bgrw _ d _ _ | .bgrwRel _ d _ _
  | .leaseAcq _ d | .mvq _ d _ _ _ | .mvd _ d _ _ _ | .vadd _ d _ _ _ _ | .vsub _ d _ _ _ _ | .vmul _ d _ _ _ _
  | .vfma _ d _ _ _ _ | .vmnx _ d _ _ _ | .vcmp _ d _ _ _ _ | .vsel _ d _ _ _ _ | .vlog _ d _ _ _ | .vshf _ d _ _ _
  | .vprm _ d _ _ _ | .vred _ d _ _ _ | .vwid _ d _ _ | .vnar _ d _ _ _ | .vbrd _ d _ | .vmsk _ d _ | .vscn _ d _ _ _
  | .cvt _ d _ _ _ _ | .mxq _ d _ _ _ | .mxx _ d _ _ _ | .srsdStep _ d | .sfa _ d _ _ | .sfb _ d _ _ | .sfc _ d _ _
  | .smxs _ d _ _ _ | .vlane _ d _ _ | .vidx _ d _ _ _ | .fcls _ d _ | .fsc _ d _ _ _ _ | .rndm _ d _ | .vdot _ d _ _ _ _
  | .cacc _ d _ _ _ | .cwt _ d _ | .cwtTest _ d _ | .rini _ d _ _ | .rqry _ d _ | .rwfl _ d _ _ | .rwfr _ d _ _
  | .rclm _ d _ _ | .rlys _ d _ _ _ | .rlyg _ d _ _ | .rlygAdd _ d _ _ | .rlygRet _ d _ _ | .rlyw _ d _ _ | .hoff _ d _
  | .hctlSeal _ d _ | .hctlCommit _ d _ | .hctlCancel _ d _ | .hctlQry _ d _ _ | .hctlDrop _ d _ | .cwld _ d _
  | .lendGrp _ d _ _ _ | .lendPark _ d _ _ _ | .retn _ d _ _ | .splitAddr _ d _ _ _ | .splitRd _ d _ _ _ | .splitWr _ d _ _ _
  | .splitCmn _ d _ _ | .joinAddr _ d _ _ _ | .joinShr _ d _ _ | .joinCmn _ d _ _ | .joinRing _ d _ _ | .keywArr _ d _ _
  | .keywTkt _ d _ _ _ | .keywFree _ d _ _ | .keyq _ d _ _ | .srr _ d _ | .lnchNode _ d _ | .lnchReq _ d _ | .errqRd _ d _ _
  | .errqClr _ d _ _ | .errqSum _ d _ | .clrd _ d _ _ | .clgtSet _ d _ _ | .clgtClr _ d _ | .clgtQry _ d _ _ => some d
  | _ => none

/-- Whether an instruction may write a mask register: INT and CTL on cmp, VCMP, the mask forms of VMSK (R42, R100, R197), and
LEASE.acq, whose rules raise no ILLOP for it (R222); a count in a mask from CTL or LEASE.acq follows R100 (log 14). -/
def Instr.maskDst : Instr → Bool
  | .qopCnt .. | .qopTcnt .. | .lmov .. | .add .. | .sub .. | .mul .. | .div .. | .and .. | .or .. | .xor .. | .shf ..
  | .cmp .. | .sel .. | .minmax .. | .bits .. | .agen .. | .li .. | .ext .. | .vcmp .. | .leaseAcq .. => true
  | .vmsk _ _ (.one f _) => decide (f = .not)
  | .vmsk .. => true
  | _ => false

/-- Vector queues that a sequencer may read (R42, R68). -/
def mayReadV (q : SeqId) (n : BitVec 4) : Bool :=
  match q with
  | .cmp => decide (n.toNat < 8 ∨ 12 ≤ n.toNat)
  | .st => decide (8 ≤ n.toNat ∧ n.toNat < 12)
  | _ => false
/-- Vector queues that a sequencer may push (R42, R68). -/
def mayPushV (q : SeqId) (n : BitVec 4) : Bool :=
  match q with
  | .cmp => decide (n.toNat < 12)
  | .ld => decide (12 ≤ n.toNat)
  | _ => false

/-- A raw queue selector that a sequencer may name in QOP (R87). -/
def QSel.counted (q : SeqId) (s : QSel) : Bool := !s.vec || decide (q = .cmp)
/-- A raw queue selector that a sequencer may drop or clear (R87). -/
def QSel.dropped (q : SeqId) (s : QSel) : Bool :=
  !s.vec || (decide (q = .cmp) && !decide (8 ≤ s.q.toNat ∧ s.q.toNat < 12))

/-- The naming half of check 3 (R42, R47, R270). -/
def Instr.namesOk (i : Instr) (q : SeqId) : Bool :=
  i.vecSrcs.all (mayReadV q) && i.vecDsts.all (mayPushV q) &&
  (match i.dst? with
    | some (.mask _) => decide (q = .cmp) && i.maskDst
    | _ => true) &&
  (match i with
    | .qopCnt _ _ s => s.counted q
    | .qopDrop _ s | .qopClr _ s => s.dropped q
    | .cbnd _ s _ _ => !s.vec || (decide (q = .ld) && decide (12 ≤ s.q.toNat))
    | _ => true)

/-- What cmp may issue while a clause is open, as far as R231 does not order it: the chapter's own instructions check
their rules themselves, and of the others only a NOP without token bits is allowed (R230; log 16). -/
def Instr.clauseOk : Instr → Bool
  | .nop t => decide (t = .none)
  | .leaseAcq .. | .leaseRel .. | .wld .. | .wswp .. | .mxh .. | .mxa .. | .mxsq .. | .mxmd .. | .mxgr .. | .mxdr ..
  | .mxdrKeep .. | .mxz .. => true
  | _ => false

end Sys2Proof

namespace Sys2Proof.Machine

/-! ### The issue checks and the shape of a meaning -/

/-- Checks 1 to 5 of R47. -/
def Env.checks (e : Env) (m : Mach) (i : Instr) : Chk Unit := do
  let s := m.seq e.c e.q
  must (decide (s.pc.toNat % 64 / 4 + e.len ≤ 16)) (.trap tAlign (s.pc.setWidth 64))
  must i.wf (e.trapWord tIllop)
  must (i.mayIssue e.q) (e.trapWord tWrongseq)
  must (i.namesOk e.q) (e.trapWord tIllop)
  must (i.onClass (isPDie e.die)) (e.trapWord tIlldie)
  must (!i.needsSuper || s.status.super) (e.trapWord tPriv)

/-- The sequencer whose part of the cycle it is (log 3); a tick is no sequencer's, and stands for ctl. -/
def Phase.seq : Phase → SeqId
  | .st => .st | .cmp => .cmp | .ld => .ld | .ctl => .ctl | .tick => .ctl

/-- The issue of an instruction by the current sequencer. -/
def envOf (s : State) (i : Instr) : Env := ⟨s.trust, s.cur, s.phase.seq, i.word, i.length, i.tok⟩

/-- The issue of an instruction under a given word: checks 1 to 6 of R47, then the body; a halt leaves what Env.halt says. -/
def attemptAt (e : Env) (i : Instr) (body : Env → Mach → Chk Mach) (s : State) : Host.Outcome State Fault Refusal :=
  let r : Chk Mach := do
    e.checks s.mach i
    let m ← e.tokens s.mach
    must (decide (e.q ≠ .cmp) || (m.core e.c).clause.isNone || i.clauseOk) (e.trapWord tClause)
    body e m
  match r with
  | .ok m => .next { s with mach := m }
  | .error h => .next { s with mach := e.halt h s.mach }

/-- THE SHAPE OF EVERY ENCODED INSTRUCTION. -/
def attempt (i : Instr) (body : Env → Mach → Chk Mach) (s : State) : Host.Outcome State Fault Refusal :=
  attemptAt (envOf s i) i body s

/-- A body after which the sequencer goes on with the next instruction, one cycle later. -/
def attemptNext (i : Instr) (body : Env → Mach → Chk Mach) (s : State) : Host.Outcome State Fault Refusal :=
  attempt i (fun e m => do
    let m ← body e m
    .ok (e.advance 1 m)) s

end Sys2Proof.Machine
end

