-- ==== Sys2Proof/Machine/Addr.lean ====
section
/-! DEFINITION. Addresses, translation, block frames, the key check of an access, local granules, and the reads and writes
of home memory (R115 to R139, R284 to R290, R395). -/

namespace Sys2Proof.Machine

/-! ### Physical DRAM (R136) -/

/-- DRAM of a P-die in bytes. -/
def pDram : Nat := 0x3000000000
/-- DRAM of a D column in bytes. -/
def colDram : Nat := 0x180000000

/-- The die of a physical address. -/
def paDie (pa : Nat) : Nat := pa / 2 ^ 38
/-- The offset of a physical address within its die's DRAM. -/
def paOff (pa : Nat) : Nat := pa % 2 ^ 38

/-- Whether n bytes from a physical address lie in the map of R136; a dead die has no DRAM (log 15). -/
def Trust.physOk (t : Trust) (pa n : Nat) : Bool :=
  let d := paDie pa
  t.isLive d && decide (d < 6) &&
    decide (paOff pa + n ≤ if isPDie d then pDram else t.count d * colDram)

/-- The logical column of a physical address, or 0x3F on a P-die (R133, R391). -/
def paTile (pa : Nat) : Nat := if isPDie (paDie pa) then 0x3F else paOff pa / colDram

/-! ### Poison (R395) -/

/-- The first poisoned word that a range touches, as an address. -/
def poisonIn (l : List Nat) (a n : Nat) : Option Nat := (l.find? fun w => overlaps (8 * w) 8 a n).map (8 * ·)
/-- A word is added to a list of poisoned words. -/
def poisonAdd (l : List Nat) (w : Nat) : List Nat := if l.any fun x => decide (x = w) then l else l ++ [w]

/-- Poison after a write: whole words written are clear (R395). -/
def poisonClear (l : List Nat) (a n : Nat) : List Nat := l.filter fun w => !inside (8 * w) 8 a n
/-- The first poisoned word that a write covers only in part. -/
def poisonPart (l : List Nat) (a n : Nat) : Option Nat :=
  (l.find? fun w => overlaps (8 * w) 8 a n && !inside (8 * w) 8 a n).map (8 * ·)
/-- Poison of a range, as word offsets from its start. -/
def poisonSlice (l : List Nat) (a n : Nat) : List Nat :=
  (l.filter fun w => inside (8 * w) 8 a n).map fun w => w - a / 8
/-- Poison added over a range from offsets. -/
def poisonPaste (l : List Nat) (a n : Nat) (offs : List Nat) : List Nat :=
  poisonClear l a n ++ offs.map fun w => w + a / 8

/-! ### Home memory -/

/-- The home of an access: DRAM at a physical address, or global SRAM at a global address. -/
structure Place where
  dram : Bool
  at_ : Nat
  block : Option BlockPos
deriving DecidableEq, Repr

/-- Global SRAM or DRAM. -/
def Mach.home (m : Mach) (dram : Bool) : Mem := if dram then m.dram else m.global
/-- Its poisoned words. -/
def Mach.homePoison (m : Mach) (dram : Bool) : List Nat := if dram then m.dramPoison else m.globalPoison
/-- Home memory replaced. -/
def Mach.setHome (m : Mach) (dram : Bool) (mem : Mem) (poison : List Nat) : Mach :=
  if dram then { m with dram := mem, dramPoison := poison } else { m with global := mem, globalPoison := poison }

/-- The key of a word among the release marks: a word and the 8 bytes that hold it share one order (R274). -/
def markKey (dev : Bool) (pa : Nat) : Nat := pa / 8 * 2 + (if dev then 1 else 0)
/-- The release marks without those of the words that a range touches: what is written there is no release's value (R277). -/
def marksClear (l : SMap RelMark) (dram : Bool) (a n : Nat) : SMap RelMark :=
  l.filter fun x => !(decide (x.1 % 2 = if dram then 1 else 0) && overlaps (x.1 / 2 * 8) 8 a n)

/-- The 512-byte units that a range of DRAM meets (R426): the first, and how many. -/
def unitsOf (a n : Nat) : Nat × Nat := if n = 0 then (a / 512, 0) else (a / 512, (a + n - 1) / 512 + 1 - a / 512)
/-- Units without zero bit, after a write to some. -/
def unitsAdd (l : List Nat) (u : Nat × Nat) : List Nat :=
  (l.filter fun x => decide (x < u.1)) ++ List.range' u.1 u.2 ++ l.filter fun x => decide (u.1 + u.2 ≤ x)
/-- Units without zero bit, after zeroing some. -/
def unitsDrop (l : List Nat) (u : Nat × Nat) : List Nat := l.filter fun x => decide (x < u.1 ∨ u.1 + u.2 ≤ x)

/-- THE write of home memory: a range becomes an image; words written whole lose their poison, release marks go, and the zero
bits of its units of DRAM are cleared (R426). -/
def Mach.writeHome (m : Mach) (dram : Bool) (a n : Nat) (img : Mem) : Mach :=
  { m.setHome dram ((m.home dram).paste a n img) (poisonClear (m.homePoison dram) a n) with
    relMarks := marksClear m.relMarks dram a n
    written := if dram then unitsAdd m.written (unitsOf a n) else m.written }
/-- Zero a range of home memory (R139): the zero bits of its units of DRAM are set (R426). -/
def Mach.zeroHome (m : Mach) (dram : Bool) (a n : Nat) : Mach :=
  { m.writeHome dram a n [] with written := if dram then unitsDrop m.written (unitsOf a n) else m.written }

/-- The context that owns a global address: that of its region (R391). -/
def Mach.ownerAt (m : Mach) (a : Nat) : Option (BitVec 6) :=
  (m.regions.find? fun r => decide (r.space = .glb) && inside a 1 r.base r.size).map Region.ctx
/-- The context that owns a physical address: that of its block-store frame, else the one whose pages hold it (R391). -/
def Mach.dramOwner (m : Mach) (pa : Nat) : Option (BitVec 6) :=
  let pool := SMap.getD m.pools (paDie pa * 36 + paOff pa / colDram) .reset
  let frame := if isPDie (paDie pa) then none else SMap.get? pool.frames (paOff pa % colDram / 32768)
  match frame with
  | some f => some f.ctx
  | none =>
    let owns (x : Context) : Bool := (x.pages.any fun p => inside pa 1 p.1 p.2) || x.tables.any fun a => inside pa 1 a 65536
    (m.contexts.find? fun x => owns x.2).map fun x => BitVec.ofNat 6 x.1

/-- The bank record of an error in home memory (R390, R391): bank 0 holds global addresses, bank 2 physical ones; the context
is the owner of the storage. -/
def Mach.homeErr (m : Mach) (dram : Bool) (a : Nat) : Nat × Nat × ErrInfo :=
  if dram then (paDie a, 2, ⟨BitVec.ofNat 64 a, 0, m.dramOwner a, BitVec.ofNat 6 (paTile a), 0, 0⟩)
  else (a / 2 ^ 28, 0, ⟨BitVec.ofNat 64 a, 0, m.ownerAt a, BitVec.ofNat 6 (a / 2 ^ 22 % 64), 0, 0⟩)

/-- A slice that nothing has accessed. -/
def Slice.new : Slice := ⟨false, 0, false, 0, 0, 0⟩
/-- A slice accessed at a clock: its idle count starts again, and one in retention is wanted from its first access on (R138). -/
def Slice.access (s : Slice) (now : Nat) : Slice :=
  { s with last := now, wanted := s.wanted || s.retained, asked := if s.retained && !s.wanted then now else s.asked }
/-- An access to a global slice (R138). -/
def Mach.touchSlice (m : Mach) (a : Nat) : Mach :=
  let key := a / 2 ^ 28 * 36 + a / 2 ^ 22 % 64
  { m with slices := SMap.set m.slices key ((SMap.getD m.slices key .new).access (m.clockOf (a / 2 ^ 28))) }
/-- The slice of a global address while it is in retention. -/
def Mach.retainedSlice (m : Mach) (a : Nat) : Option Nat :=
  let key := a / 2 ^ 28 * 36 + a / 2 ^ 22 % 64
  if (SMap.getD m.slices key .new).retained then some key else none

/-! ### Spaces (R115, R116) -/

/-- Whether an address lies in the global space. -/
def Trust.globalOk (t : Trust) (a : Nat) : Bool :=
  let d := a / 2 ^ 28
  decide (a < 2 ^ 32) && decide (d < 6) && t.isLive d && decide (a / 2 ^ 22 % 64 < t.count d) &&
    (isPDie d || decide (a % 2 ^ 22 < 0x200000))

/-- Whether an address lies inside its space (R115). -/
def Trust.spaceOk (t : Trust) (sp : Space) (a : Nat) : Bool :=
  match sp with
  | .glb => t.globalOk a
  | .dev => decide (a < 2 ^ 57)
  | .blk => true

/-! ### Translation (R134, R135) -/

/-- How a walk ends. -/
inductive Walk where
  | leaf (pa : Nat) (wr sv : Bool)
  | fault
  | poison (pa : Nat)
deriving DecidableEq, Repr

/-- The levels of the walk: shift, index bits, and the page size a leaf maps, if a leaf may stand there. -/
def walkLevels : List (Nat × Nat × Option Nat) :=
  [(48, 9, none), (39, 9, none), (30, 9, some 30), (21, 9, some 21), (16, 5, some 16)]

/-- The walk from a table on. -/
def walkFrom (t : Trust) (m : Mach) (va : Nat) : List (Nat × Nat × Option Nat) → Nat → Walk
  | [], _ => .fault
  | (sh, bits, page) :: r, table =>
    let a := table + 8 * (va / 2 ^ sh % 2 ^ bits)
    if (poisonIn m.dramPoison a 8).isSome then .poison a
    else
      let w := m.dram.word a
      let frame := wbits w 47 16 * 2 ^ 16
      if wbits w 63 48 ≠ 0 ∨ wbits w 15 5 ≠ 0 ∨ wbit w 2 ∨ ¬ wbit w 0 then .fault
      else if wbit w 1 then
        match page with
        | none => .fault
        | some p =>
          if frame % 2 ^ p = 0 ∧ t.physOk frame (2 ^ p) then .leaf (frame + va % 2 ^ p) (wbit w 3) (wbit w 4) else .fault
      else if r.isEmpty then .fault
      else if t.physOk frame (2 ^ 16) then walkFrom t m va r frame
      else .fault

/-- Translate a device address of a context. -/
def translate (t : Trust) (m : Mach) (ctx : BitVec 6) (va : Nat) : Walk :=
  match SMap.get? m.contexts ctx.toNat with
  | none => .fault
  | some c => if va < 2 ^ 57 then walkFrom t m va walkLevels c.root else .fault

/-! ### Ranges that an engine reads or writes -/

/-- The parts of a range, cut at pages where it is translated: offset from its start, home address, length. -/
def piecesFrom (t : Trust) (m : Mach) (ctx : BitVec 6) (dev : Bool) : Nat → Nat → Nat → Nat → Option (List (Nat × Nat × Nat))
  | 0, _, _, _ => some []
  | f + 1, off, a, n =>
    if n = 0 then some []
    else if !dev then some [(off, a, n)]
    else
      let k := min n (65536 - a % 65536)
      match translate t m ctx a with
      | .leaf pa _ _ => (piecesFrom t m ctx dev f (off + k) (a + k) (n - k)).map ((off, pa, k) :: ·)
      | _ => none
/-- The parts of a range. -/
def pieces (t : Trust) (m : Mach) (ctx : BitVec 6) (dev : Bool) (a n : Nat) : List (Nat × Nat × Nat) :=
  (piecesFrom t m ctx dev (n / 65536 + 2) 0 a n).getD []
/-- The first poisoned word in parts of home memory. -/
def Mach.piecesPoison (m : Mach) (dev : Bool) (ps : List (Nat × Nat × Nat)) : Option Nat :=
  ps.findSome? fun p => poisonIn (m.homePoison dev) p.2.1 p.2.2
/-- The first poisoned table word that the walks of a device range meet (R134, R395). -/
def walkPoison (t : Trust) (m : Mach) (ctx : BitVec 6) (dev : Bool) (a n : Nat) : Option Nat :=
  if dev && decide (0 < n) then
    (List.range ((a + n - 1) / 65536 + 1 - a / 65536)).findSome? fun i =>
      match translate t m ctx ((a / 65536 + i) * 65536) with
      | .poison pa => some pa
      | _ => none
  else none
/-- The first poisoned word that an engine consumes when it reads a range: of a walk, then of the range (R395); dram says
where it lies. -/
def Mach.rangePoison (t : Trust) (m : Mach) (ctx : BitVec 6) (dev : Bool) (a n : Nat) : Option Nat :=
  (walkPoison t m ctx dev a n).or (m.piecesPoison dev (pieces t m ctx dev a n))
/-- The image of parts of home memory, at offsets from the range's start. -/
def Mach.piecesImage (m : Mach) (dev : Bool) (ps : List (Nat × Nat × Nat)) : Mem :=
  ps.flatMap fun p => ((m.home dev).slice p.2.1 p.2.2).map fun c => (c.1 + p.1, c.2)
/-- An image written to parts of home memory. -/
def Mach.piecesWrite (m : Mach) (dev : Bool) (ps : List (Nat × Nat × Nat)) (img : Mem) : Mach :=
  ps.foldl (fun m p => m.writeHome dev p.2.1 p.2.2 (Mem.slice img p.1 p.2.2)) m

/-! ### Sequences and frames (R284 to R289) -/

/-- The width of an element in bytes (R286). -/
def fmtBytes : Fmt → Nat
  | .i8 | .n8 | .f8a | .f8b => 1
  | .i16 | .bf16 | .f16 => 2
  | _ => 4
/-- The element format of a shape. -/
def shapeFmt (w : Word) : Fmt := (Fmt.ofCode (w.setWidth 4)).getD .b
/-- Tokens a block, T. -/
def shapeT (w : Word) : Nat := 2 ^ wbits w 7 4
/-- KV heads, H. -/
def shapeH (w : Word) : Nat := wbits w 14 8 + 1
/-- Head dimension, d. -/
def shapeD (w : Word) : Nat := 2 ^ wbits w 19 16
/-- Layers. -/
def shapeLayers (w : Word) : Nat := wbits w 27 20 + 1
/-- The die of the column. -/
def shapeDie (w : Word) : Nat := wbits w 37 34
/-- The logical column. -/
def shapeCol (w : Word) : Nat := wbits w 33 28
/-- Block size, B = 2 × T × H × d × w. -/
def shapeB (w : Word) : Nat := 2 * shapeT w * shapeH w * shapeD w * fmtBytes (shapeFmt w)
/-- The pool key of the column. -/
def shapePool (w : Word) : Nat := shapeDie w * 36 + shapeCol w

/-- Handle, layer, block, offset of a block address (R27). -/
def baHandle (a : Nat) : Nat := a / 2 ^ 44
def baLayer (a : Nat) : Nat := a / 2 ^ 36 % 256
def baBlock (a : Nat) : Nat := a / 2 ^ 16 % 2 ^ 20
def baOff (a : Nat) : Nat := a % 2 ^ 16
/-- The key of a block in a sequence's map. -/
def mapKey (layer block : Nat) : Nat := layer * 2 ^ 20 + block

/-- The open sequence of a handle in a context. -/
def Mach.bseq (m : Mach) (ctx : BitVec 6) (h : Nat) : Option BSeq := m.seqs.find? fun s => decide (s.ctx = ctx ∧ s.handle = h)
/-- A sequence changed. -/
def Mach.onBseq (m : Mach) (ctx : BitVec 6) (h : Nat) (f : BSeq → BSeq) : Mach :=
  { m with seqs := m.seqs.map fun s => if s.ctx = ctx ∧ s.handle = h then f s else s }
/-- A column pool. -/
def Mach.pool (m : Mach) (p : Nat) : Pool := SMap.getD m.pools p .reset
/-- Frames of a column (R284). -/
def colFrames : Nat := 196608
/-- The pool's capacity. -/
def Pool.cap (p : Pool) : Nat := colFrames - p.first - p.retired.length
/-- The free count F. -/
def Pool.freeCount (p : Pool) : Nat := p.cap - p.frames.length
/-- The usage U of a context. -/
def Pool.use (p : Pool) (ctx : BitVec 6) : Nat := SMap.getD p.usage ctx.toNat 0
/-- The usage of a context replaced. -/
def Pool.setUse (p : Pool) (ctx : BitVec 6) (u : Nat) : Pool := { p with usage := SMap.put 0 p.usage ctx.toNat u }
/-- The pool margin F - Rsv of a column (R360). -/
def Pool.margin (p : Pool) : Nat := p.freeCount - p.rsv

/-- A HAND that waits sees a column change: it tries again when the column's o falls, and after NOSPACE also when its F - Rsv
rises or its context's U falls there (R361, R446). -/
def Request.sees (x : Request) (old new : Pool) : Request :=
  match x.handRun with
  | some (n, .waiting ns false) =>
    let ctx : BitVec 6 := (x.words.headD 0).extractLsb' 0 6
    if decide (new.occupants.length < old.occupants.length) ||
        (ns && (decide (old.margin < new.margin) || decide (new.use ctx < old.use ctx))) then
      { x with handRun := some (n, .waiting ns true) }
    else x
  | _ => x

/-- A column pool changed, as waiting HANDs see it. -/
def Mach.onPool (m : Mach) (p : Nat) (f : Pool → Pool) : Mach :=
  let new := f (m.pool p)
  { m with pools := SMap.set m.pools p new, requests := m.requests.map fun x => x.sees (m.pool p) new }

/-- The quota Q of a context on a column. -/
def Mach.quota (m : Mach) (ctx : BitVec 6) (pool : Nat) : Nat :=
  match SMap.get? m.contexts ctx.toNat with
  | none => 0
  | some c => ((c.quotas.find? fun q => decide (q.1 * 36 + q.2.1 = pool)).map fun q => q.2.2).getD 0
/-- The free frame that is taken: the lowest, which R285 leaves open (log 150). -/
def Pool.lowest (p : Pool) : Option Nat :=
  let used := p.frames.length + p.retired.length
  ((List.range (used + 1)).map (p.first + ·)).find? fun f =>
    decide (f < colFrames) && !(p.frames.any fun x => decide (x.1 = f)) && !(p.retired.any fun x => decide (x = f))

/-- The physical address of a frame. -/
def framePa (pool frame : Nat) : Nat := pool / 36 * 2 ^ 38 + pool % 36 * colDram + frame * 32768

/-- A frame for a sequence is taken from its column's pool (R285). -/
def Mach.takeFrame (m : Mach) (s : BSeq) : Option (Nat × Mach) :=
  let pk := shapePool s.shape
  let p := m.pool pk
  match p.lowest with
  | none => none
  | some f =>
    let new : Frame := ⟨1, 0, s.ctx⟩
    if 0 < s.resv then
      some (f, (m.onBseq s.ctx s.handle fun x => { x with resv := x.resv - 1 }).onPool pk fun p =>
        { p with rsv := p.rsv - 1, frames := SMap.set p.frames f new })
    else if 1 ≤ p.freeCount - p.rsv ∧ p.use s.ctx + 1 ≤ m.quota s.ctx pk then
      some (f, m.onPool pk fun p => { (p.setUse s.ctx (p.use s.ctx + 1)) with frames := SMap.set p.frames f new })
    else none

/-- A frame whose last mapping ended: zeroed and returned, or retired when it holds poison (R285, R400). -/
def Mach.freeFrame (m : Mach) (pool frame : Nat) : Mach :=
  let pa := framePa pool frame
  let bad := (poisonIn m.dramPoison pa 32768).isSome
  let ctx := (SMap.getD (m.pool pool).frames frame ⟨0, 0, 0⟩).ctx
  let m := if bad then m else m.zeroHome true pa 32768
  m.onPool pool fun p =>
    let p := p.setUse ctx (p.use ctx - 1)
    { p with frames := SMap.erase p.frames frame, retired := if bad then p.retired ++ [frame] else p.retired }

/-- One mapping of a frame ends (R285, R297). -/
def Mach.unmapFrame (m : Mach) (pool frame : Nat) : Mach :=
  let fr := SMap.getD (m.pool pool).frames frame ⟨1, 0, 0⟩
  if fr.refs ≤ 1 then m.freeFrame pool frame
  else m.onPool pool fun p => { p with frames := SMap.set p.frames frame { fr with refs := fr.refs - 1 } }

/-- A block made writable: mapped when it was not, unshared when its frame has other mappings (R289, R290); none when no
frame can be taken. -/
def Mach.writable (m : Mach) (ctx : BitVec 6) (h key : Nat) : Option Mach :=
  match m.bseq ctx h with
  | none => none
  | some s =>
    let pk := shapePool s.shape
    match SMap.get? s.map key with
    | none =>
      match m.takeFrame s with
      | none => none
      | some (f, m) => some (m.onBseq ctx h fun x => { x with map := SMap.set x.map key f })
    | some f0 =>
      let fr := SMap.getD (m.pool pk).frames f0 ⟨1, 0, ctx⟩
      if fr.refs ≤ 1 then some m
      else
        match m.takeFrame s with
        | none => none
        | some (f, m) =>
          let m := m.writeHome true (framePa pk f) 32768 (m.dram.slice (framePa pk f0) 32768)
          let m := m.onBseq ctx h fun x => { x with map := SMap.set x.map key f }
          some (m.onPool pk fun p =>
            { p with frames := SMap.set (SMap.set p.frames f ⟨1, fr.valid, ctx⟩) f0 { fr with refs := fr.refs - 1 } })

/-- The first poisoned word of the frame that a write has to copy before it writes (R289, R395). -/
def Mach.unsharePoison (m : Mach) (ctx : BitVec 6) (h key : Nat) : Option Nat :=
  match (m.bseq ctx h).bind fun s => (SMap.get? s.map key).map fun f => (shapePool s.shape, f) with
  | none => none
  | some (pk, f) =>
    if (SMap.getD (m.pool pk).frames f ⟨1, 0, ctx⟩).refs ≤ 1 then none else poisonIn m.dramPoison (framePa pk f) 32768

/-- Bits of the tokens whose key bytes a write of n bytes at an offset touches (R287, R288). -/
def touchedTokens (shape : Word) (off n : Nat) : BitVec 128 :=
  let run := shapeD shape * fmtBytes (shapeFmt shape)
  let first := off / run
  ((List.range ((off + n - 1) / run + 1 - first)).map (first + ·)).foldl
    (fun b j => if j < shapeH shape * shapeT shape then b ||| BitVec.ofNat 128 (2 ^ (j % shapeT shape)) else b) 0

/-- A write performed at a block's home sets validity bits (R288). -/
def Mach.setValid (m : Mach) (b : BlockPos) (n : Nat) : Mach :=
  m.onPool b.pool fun p =>
    match SMap.get? p.frames b.frame with
    | none => p
    | some f => { p with frames := SMap.set p.frames b.frame { f with valid := f.valid ||| touchedTokens b.shape b.off n } }

/-! ### Regions and keys (R122, R140, R279) -/

/-- Whether a region holds an address of a space as a context sees it (R140). -/
def Region.covers (r : Region) (sp : Space) (ctx : BitVec 6) (a : Nat) : Bool :=
  decide (r.space = sp) &&
    match sp with
    | .glb => inside a 1 r.base r.size
    | .dev => decide (r.ctx = ctx) && inside a 1 r.base r.size
    | .blk => decide (r.ctx = ctx) && decide (r.base = baHandle a)

/-- The region or sequence that covers an address. -/
def Mach.regionAt (m : Mach) (sp : Space) (ctx : BitVec 6) (a : Nat) : Option Region :=
  m.regions.find? fun r => r.covers sp ctx a
/-- A region by its number. -/
def Mach.region (m : Mach) (rid : Nat) : Option Region := m.regions.find? fun r => decide (r.rid = rid)

/-- Whether a holding of a right allows a load or a store (R122). -/
def Right.allows (r : Right) (store : Bool) : Bool :=
  match r with
  | .excl => true
  | .read => !store
  | .write => store

/-- Whether a group holds a ring slot for an access: claimed slots are written, taken ones read (R279). -/
def RSlot.allows (s : RSlot) (g : Option Gid) (store : Bool) : Bool :=
  match s with
  | .claimed x held => store && held && decide (some x = g)
  | .reading x held => !store && held && decide (some x = g)
  | _ => false

/-- The slots of a ring region that a range touches. -/
def ringSlots (r : Region) (g : Ring) (a n : Nat) : List Nat :=
  let first := (a - r.base) / g.size
  (List.range ((a + n - 1 - r.base) / g.size + 1 - first)).map (first + ·)

/-- A direction of a channel. -/
def Channel.dir (ch : Channel) (toFf : Bool) : RelayDir := if toFf then ch.ff else ch.att
/-- The payloads of a channel that have not been passed by ARR: on their way, or landed behind one that is (R303). -/
def Channel.sends (ch : Channel) : List Payload := ch.att.inFlight ++ ch.att.landed ++ ch.ff.inFlight ++ ch.ff.landed
/-- The end that receives a direction. -/
def Channel.receiver (ch : Channel) (toFf : Bool) : RelayEnd := if toFf then ch.ffEnd else ch.attEnd

/-- Whether slot s of a direction is held for reading by its receiving end (R304): slots RLS to TKN − 1. -/
def RelayDir.heldSlot (d : RelayDir) (s : Nat) : Bool :=
  decide ((s + d.n - d.rls.toNat % d.n) % d.n < (d.tkn - d.rls).toNat)

/-- Whether a core's group may make an access (R122, R279, R304). -/
def Mach.keyOk (m : Mach) (c : Nat) (sp : Space) (a n : Nat) (store : Bool) : Bool :=
  let k := m.core c
  match (m.regionAt sp k.ctx a).filter fun r => decide (r.key.state ≠ .lost) with
  | none => false
  | some r =>
    match r.ring with
    | some g =>
      match g.relay with
      | none => (ringSlots r g a n).all fun s => (g.slot s).allows (k.group.map Group.gid) store
      | some (num, toFf) =>
        match m.channels.find? fun ch => decide (ch.num = num) && !ch.closed with
        | none => false
        | some ch => !store && decide ((ch.receiver toFf).core = c ∧ (ch.receiver toFf).ctx = k.ctx) &&
            (ringSlots r g a n).all fun s => (ch.dir toFf).heldSlot s
    | none => k.view.any fun h => decide (h.rid = r.rid) && h.right.allows store

/-- A write to a block copies a frame that it has to unshare as it starts, so poison there is consumed after every check (R289,
R290, R395): `m` is the machine before a frame was taken. -/
def Env.unshare (e : Env) (m : Mach) (a : Nat) : Chk Unit :=
  match m.unsharePoison (e.ctx m) (baHandle a) (mapKey (baLayer a) (baBlock a)) with
  | some pa =>
    let (d, b, i) := m.homeErr true pa
    .error (.lost d b i)
  | none => .ok ()

/-- Checks 3 to 7 of R120: where an access goes, with the frames a block store takes. -/
def Env.resolve (e : Env) (m : Mach) (sp : Space) (ea : Word) (n : Nat) (store : Bool) : Chk (Place × Mach) :=
  let k := m.core e.c
  let a := ea.toNat
  match sp with
  | .glb => do
    must (e.trust.globalOk a) (.trap tSpace ea)
    must (m.keyOk e.c .glb a n store) (.trap tNokey ea)
    .ok (⟨false, a, none⟩, m)
  | .dev => do
    must (decide (a < 2 ^ 57)) (.trap tSpace ea)
    match translate e.trust m k.ctx a with
    | .fault => .error (.trap tXlate ea)
    | .poison pa =>
      let (d, b, i) := m.homeErr true pa
      .error (.lost d b i)
    | .leaf pa wr sv =>
      must ((!store || wr) && (!sv || (k.seq e.q).status.super)) (.trap tProt ea)
      must (m.keyOk e.c .dev a n store) (.trap tNokey ea)
      .ok (⟨true, pa, none⟩, m)
  | .blk =>
    match m.bseq k.ctx (baHandle a) with
    | none => .error (.trap tBlock ea)
    | some s => do
      let key := mapKey (baLayer a) (baBlock a)
      must (decide (baLayer a < shapeLayers s.shape) && decide (baOff a + n ≤ shapeB s.shape)) (.trap tBlock ea)
      must (store || (SMap.get? s.map key).isSome) (.trap tBlock ea)
      match (if store then m.writable k.ctx (baHandle a) key else some m) with
      | none => .error (.trap tBlock ea)
      | some m =>
        must (m.keyOk e.c .blk a n store) (.trap tNokey ea)
        let f := ((m.bseq k.ctx (baHandle a)).bind fun s => SMap.get? s.map key).getD 0
        let pool := shapePool s.shape
        .ok (⟨true, framePa pool f + baOff a, some ⟨pool, f, baOff a, s.shape⟩⟩, m)

/-! ### Local granules (R126, R388) -/

/-- The owner tag of a granule. -/
def Core.granule (k : Core) (g : Nat) : Owner := SMap.getD k.granules g .never
/-- A granule retagged. -/
def Core.retag (k : Core) (g : Nat) (o : Owner) : Core := { k with granules := SMap.set k.granules g o }
/-- A granule zeroed: its poison is cleared (R400). -/
def Core.zeroGranule (k : Core) (g : Nat) : Core :=
  { k with local_ := k.local_.zero (4096 * g) 4096, localPoison := poisonClear k.localPoison (4096 * g) 4096 }
/-- An eviction freeze starts or goes on (R126). -/
def Freeze.join : Freeze → Freeze → Freeze
  | .save, _ => .save
  | _, .save => .save
  | .cycles a, .cycles b => .cycles (max a b)
  | .none, x => x
  | x, .none => x

/-- The physical address of a save slot. -/
def Mach.slotPa (m : Mach) (ctx : BitVec 6) (slot : Nat) : Nat :=
  match SMap.get? m.contexts ctx.toNat with
  | none => 0
  | some c => c.saveBase.toNat + slot * 0x800000

/-- A granule of a pre-empted group is copied to its save slot, with its poison (R126, R388, R395). -/
def Mach.evictGranule (m : Mach) (c g : Nat) (s : Saved) : Mach :=
  let k := m.core c
  let pa := m.slotPa s.ctx s.slot + 0x40000 + 0x1000 * g
  let bad := poisonSlice k.localPoison (4096 * g) 4096
  let m := m.writeHome true pa 4096 (k.local_.slice (4096 * g) 4096)
  let m := { m with dramPoison := poisonPaste m.dramPoison pa 4096 bad }
  let mark (x : Saved) : Saved := if x.slot = s.slot ∧ x.ctx = s.ctx then { x with evicted := x.evicted ++ [g] } else x
  let m := { m with saved := m.saved.map mark }
  m.writeHome true (m.slotPa s.ctx s.slot + 64 + 8 * (g / 64)) 8
    (Mem.ofBytes (leBytes 8 ((m.dram.word (m.slotPa s.ctx s.slot + 64 + 8 * (g / 64))).toNat ||| 2 ^ (g % 64))))

/-- The owner rule of one granule before an access of the group on the core (R126, R388). -/
def Mach.ownGranule (m : Mach) (c g : Nat) : Mach :=
  let k := m.core c
  match k.group with
  | none => m
  | some gr =>
    let mine : Owner := .group gr.gid gr.ctx
    let back := gr.evicted.any fun x => decide (x = g)
    if k.granule g = mine ∧ ¬ back then m
    else
      let victim := match k.granule g with
        | .group o _ => if o = gr.gid then none else m.saved.find? fun s => decide (s.core = c ∧ s.group.gid = o)
        | _ => none
      let m := match victim with | some s => m.evictGranule c g s | none => m
      let keep := match k.granule g with | .freed x => decide (x = gr.ctx) | .group o _ => decide (o = gr.gid) | .never => false
      if back then
        let pa := gr.slotAt + 0x40000 + 0x1000 * g
        let img := m.dram.slice pa 4096
        let bad := poisonSlice m.dramPoison pa 4096
        m.onCore c fun k =>
          let k := { k with local_ := k.local_.paste (4096 * g) 4096 img,
                            localPoison := poisonPaste k.localPoison (4096 * g) 4096 bad,
                            freeze := k.freeze.join .save,
                            group := some { gr with evicted := gr.evicted.filter fun x => decide (x ≠ g) } }
          k.retag g mine
      else if keep then m.onCore c fun k => k.retag g mine
      else
        let f : Freeze := if victim.isSome then .save else .cycles 64
        m.onCore c fun k => { (k.zeroGranule g).retag g mine with freeze := k.freeze.join f }

/-- The owner rules of every granule that a local range touches. -/
def Mach.ownLocal (m : Mach) (c a n : Nat) : Mach :=
  ((List.range ((a + n - 1) / 4096 + 1 - a / 4096)).map (a / 4096 + ·)).foldl (fun m g => m.ownGranule c g) m

/-- The bank record of an error in local SRAM (R390). -/
def localErr (e : Env) (m : Mach) (a : Nat) : Halt :=
  .lost e.die 1 ⟨BitVec.ofNat 64 a, 0, some (e.ctx m), BitVec.ofNat 6 e.corelog, 0, 0⟩

end Sys2Proof.Machine
end

