-- ==== Sys2Proof/Config.lean ====
section
/-! DEFINITION. The free values: constants without a body, for what the spec leaves open. Each is applied to the counter
Mach.free or to the data it depends on, and its log entry says what is open. -/

namespace Sys2Proof.Config

/-- Which of the 128 lines of a read-stage buffer is replaced (R450; log 20). -/
opaque victim : Nat → Nat

/-- Whether an SLH-DSA-SHA2-128s signature over a manifest header verifies under a publisher's key (R427; log 21). -/
opaque signatureOk : BitVec 256 → List Byte → List Byte → Bool

/-- The key drawn from the trust die's generator for a context (R426; log 22). -/
opaque drawnKey : Nat → BitVec 512

/-- The key of the firmware regions, drawn for the package (R426; log 22). -/
opaque packageKey : Nat → BitVec 512

/-- AES-256-XTS of a data unit under a key, with its tweak (R426; log 141). -/
opaque xts : BitVec 512 → Nat → List Byte → List Byte

/-- The command that 256 bytes in the mailbox name, none for an unknown opcode word (R424; log 142). -/
opaque mailCommand : List Byte → Option MailCmd

/-- The payload of an SPDM response (R420; log 23). -/
opaque spdmPayload : Nat → List Byte → List Byte

/-- Measurement 8, of the harvest map and the routes, whose encoding is open (R419; log 37). -/
opaque topologyDigest : List (BitVec 36) → List (Nat × List Nat) → BitVec 256

/-- Measurement 9, of Smax, Fmin, the power cap and the debug state, whose encoding is open (R419, R420; log 37). -/
opaque configDigest : Nat → Nat → Nat → Bool → BitVec 256

/-- The bits of the scan chains (R432; log 38). -/
opaque scanBit : Nat → Bool

/-- What a loop register receives from a vector result (R42; log 24). -/
opaque vectorInLoop : Nat → BitVec 64

/-- What a special function gives where the fuel of the model's rounding search ends (R214; log 25). -/
opaque specialBits : Nat → Nat → BitVec 32

/-- The Nyesk port through which a package is reached, as a bank 7 record names it (R390, R408; log 27); 1,024 stands for the Erhirum link. -/
opaque port : Nat → Nat

/-- Whether the controller has recorded a difference of a kernel from another, by their hashes (R359; log 134). -/
opaque recorded : BitVec 256 → BitVec 256 → Bool

/-- Which code other than DONE a key instruction writes that finds its key passed on by another one of its cycle (R141, R149;
log 135). -/
opaque racedCode : Nat → Fin 7

/-- The old value of an accumulate that another package admitted and whose context was lost there before it was applied (R409;
log 153). -/
opaque lostOld : Nat → BitVec 64

/-- What the lane index gives an element whose type has no such number: by tag and index (R41; log 29). -/
opaque laneBits : Nat → Nat → Nat

/-- The bits of a result whose rule needs an element width where the operands are untyped (R41, R203; log 30). -/
opaque untyped : Nat → BitVec 4096

end Sys2Proof.Config
end

