-- ==== Sys2Proof/Machine/Acc.lean ====
section
/-! DEFINITION. Accumulates on COMMON words, scopes, the waits of a release, CACC and FENCE (R157 to R167, R273 to R277,
R405 to R409, R443). -/

namespace Sys2Proof.Machine

/-! ### Packages (R404 to R408) -/

/-- Whether a package is unreachable: by a verdict, or because no routing table names it (R406). -/
def cutOff (t : Trust) (m : Mach) (p : BitVec 10) : Bool :=
  m.unreachable.any (fun x => decide (x = p)) || !(t.packages.any fun x => decide (x = p))

/-- Bank 7 of the issuing die records a corrected error with the port number (R408). -/
def Mach.portError (m : Mach) (die : Nat) (ctx : BitVec 6) (p : BitVec 10) : Mach :=
  m.bankError die 7 false false ⟨BitVec.ofNat 64 (Config.port p.toNat), 0, some ctx, 0x3F, 0, 0⟩

/-- The first answer that a function accepts, and the inbox without it. -/
def takeReply {α : Type} (f : Reply → Option α) : List Reply → Option (α × List Reply)
  | [] => none
  | r :: l =>
    match f r with
    | some x => some (x, l)
    | none => (takeReply f l).map fun p => (p.1, r :: p.2)

/-- Whether bits <31:0> of a remote global address lie in the layout of R27, whatever the other package's harvest (R405). -/
def farGlobalOk (a : Nat) : Bool :=
  let d := a / 2 ^ 28
  decide (a < 2 ^ 32) && decide (d < 6) && decide (a / 2 ^ 22 % 64 < 36) && (isPDie d || decide (a % 2 ^ 22 < 0x200000))

/-! ### Scopes (R157) -/

/-- Whether a scope used at one core of a package includes an agent at another. -/
def scopeHas (s : Scope) (c : Nat) (pkg : BitVec 10) (c' : Nat) (pkg' : BitVec 10) : Bool :=
  match s with
  | .core => decide (pkg = pkg' ∧ c = c')
  | .clu => decide (pkg = pkg' ∧ clusterOf c = clusterOf c')
  | .die => decide (pkg = pkg' ∧ dieOf c = dieOf c')
  | .pkg => decide (pkg = pkg')
  | .fab => true

/-- Whether an order acquires, and whether it releases (R164). -/
def acquires : Order → Bool
  | .acq | .ar | .sc => true
  | _ => false
def releases : Order → Bool
  | .rel | .ar | .sc => true
  | _ => false

/-! ### The waits of a release (R160, R276) -/

/-- Operations that a release waits for: writes, accumulates, flagged fences and engine operations (R160). -/
def OpKind.isWork : OpKind → Bool
  | .store .. | .lend .. | .retn .. | .remoteRetn .. | .splitCmn .. | .rpub .. | .rrel .. | .fence _ _ (some _) | .cacc ..
  | .cpy .. | .wld .. | .mxdr .. | .mvq .. | .mvv .. | .bshr .. | .bfre .. | .binv .. | .rlys .. | .rlyg .. | .hoff .. | .hctl .. | .hqry ..
  | .cwld .. | .clrd .. => true
  | _ => false

/-- The operations of a core that started before a given one. -/
def Core.earlier (k : Core) (o : Nat) : List Op := k.ops.filter fun x => decide (x.id < o)

/-- Whether everything a release of a scope waits for is performed: what the group issued before operation o, and for
the package and the fabric its relay payloads and hand-offs too (R160, R311, R323). -/
def Mach.released (m : Mach) (c o : Nat) (s : Scope) : Bool :=
  let k := m.core c
  (k.earlier o).all (fun x => !x.kind.isWork) && k.posted.all (fun p => decide (o < p.id)) &&
    (match s with
      | .pkg | .fab =>
        m.channels.all (fun ch => ch.sends.all fun x =>
          x.group.isNone || decide (x.group ≠ k.group.map Group.gid)) &&
        m.waybills.all fun w => w.completed || decide (w.state = .cancelled) ||
          (match w.issuer with | some (g, _, _) => decide (some g ≠ k.group.map Group.gid) | none => true)
      | _ => true)

/-! ### The accumulate itself (R274, R277) -/

/-- The new value of a word of w bits (R274). -/
def accNew (op : AccOp) {w : Nat} (old b cmp : BitVec w) : BitVec w :=
  match op with
  | .add => old + b
  | .min => if b.toInt < old.toInt then b else old
  | .max => if old.toInt < b.toInt then b else old
  | .minu => if b.toNat < old.toNat then b else old
  | .maxu => if old.toNat < b.toNat then b else old
  | .and => old &&& b
  | .or => old ||| b
  | .xor => old ^^^ b
  | .swap => b
  | .cas => if old = cmp then b else old
  | .load => old

/-- Whether an accumulate writes its word: a failed compare and a load do not (R274). -/
def accWrites (op : AccOp) {w : Nat} (old new : BitVec w) : Bool :=
  match op with
  | .load => false
  | .cas => decide (old ≠ new)
  | _ => true

/-- The bytes of an accumulate's word. -/
def AccOpRec.bytes (a : AccOpRec) : Nat := if a.w32 then 4 else 8

/-- The new value as a number, and whether it is written. -/
def AccOpRec.result (a : AccOpRec) (old : Nat) : Nat × Bool :=
  if a.w32 then
    let x := BitVec.ofNat 32 old
    let y := accNew a.op x (a.operand.setWidth 32) (a.comparand.setWidth 32)
    (y.toNat, accWrites a.op x y)
  else
    let x := BitVec.ofNat 64 old
    let y := accNew a.op x a.operand a.comparand
    (y.toNat, accWrites a.op x y)

/-- An accumulate of an agent is applied at its word as one step: the old value, whether a scope failed (R164, R277), and
the machine after it. -/
def Mach.accumulate (m : Mach) (a : AccOpRec) (c : Nat) (pkg : BitVec 10) : Word × Bool × Mach :=
  let old := (m.home a.dev).nat a.pa a.bytes
  let (new, wr) := a.result old
  let key := markKey a.dev a.pa
  let miss := acquires a.order &&
    match SMap.get? m.relMarks key with
    | none => false
    | some k => !(scopeHas k.scope k.core k.pkg c pkg && scopeHas a.scope c pkg k.core k.pkg)
  let m := if a.dev then m else m.touchSlice a.pa
  let marks := if releases a.order then SMap.set m.relMarks key ⟨a.scope, c, pkg⟩ else m.relMarks
  let m := if wr then m.writeHome a.dev a.pa a.bytes (Mem.ofBytes (leBytes a.bytes new)) else m
  (BitVec.ofNat 64 old, miss, { m with relMarks := marks })

/-- Whether an accumulate toward another package acquires with too narrow a scope (R409): the releaser's side is judged by
the scope it leaves at the word (R277). -/
def AccOpRec.narrow (a : AccOpRec) : Bool := decide (a.scope ≠ .fab) && acquires a.order

/-! ### Issue checks -/

/-- The COMMON region of the issuing context at a word (R275, R160). -/
def Mach.commonAt (m : Mach) (dev : Bool) (ctx : BitVec 6) (a : Nat) : Bool :=
  match m.regionAt (if dev then .dev else .glb) ctx a with
  | none => false
  | some r => decide (r.key.state = .common) && decide (r.ctx = ctx)

/-- Checks 4 to 7 of R275 for a word of this package: its home address. -/
def Env.commonWord (e : Env) (m : Mach) (dev : Bool) (a : Nat) (writes : Bool) : Chk Nat :=
  let info := BitVec.ofNat 64 a
  let k := m.core e.c
  if dev then do
    must (decide (a < 2 ^ 57)) (.trap tSpace info)
    match translate e.trust m k.ctx a with
    | .fault => .error (.trap tXlate info)
    | .poison pa =>
      let (d, b, i) := m.homeErr true pa
      .error (.lost d b i)
    | .leaf pa wr sv =>
      must ((!writes || wr) && (!sv || (k.seq e.q).status.super)) (.trap tProt info)
      must (m.commonAt true k.ctx a) (.trap tNokey info)
      .ok pa
  else do
    must (e.trust.globalOk a) (.trap tSpace info)
    must (m.commonAt false k.ctx a) (.trap tNokey info)
    .ok a

/-- What the target package answers to an access: admitted, or a trap with the address (R275, R407, R409). -/
def Env.admission (_ : Env) (m : Mach) (a : Nat) : Chk Mach :=
  match takeReply (fun r => match r with
      | .admitted => some none
      | .noKey => some (some (tNokey, BitVec.ofNat 64 a))
      | .trap c w => some (some (c, w))
      | _ => none) m.inbox with
  | none => .error .wait
  | some (none, l) => .ok { m with inbox := l }
  | some (some (c, w), l) => .error (.answered c w l)

/-- A group of a context as another package sees it (R404, R411). -/
def askerOf (ctx : BitVec 6) (g : Gid) (sv : Bool) (c : Nat) : Asker := ⟨ctx, g.launch * 2 ^ 32 + g.idx, sv, c⟩
/-- Who a core's requests come from. -/
def Core.asker (k : Core) (c : Nat) (sv : Bool) : Asker := askerOf k.ctx ((k.group.map Group.gid).getD ⟨0, 0⟩) sv c
/-- The issuer as another package sees it. -/
def Env.asker (e : Env) (m : Mach) : Asker := (m.core e.c).asker e.c (m.seq e.c e.q).status.super
/-- An accumulate asks the home rack of another package for a place (R275, R409). -/
def Env.askAdmission (e : Env) (m : Mach) (p : BitVec 10) (a : AccOpRec) : Mach :=
  { m with outbox := m.outbox ++ [.remoteAdmit p (e.asker m) a.op a.w32 a.dev a.va] }

/-- The target word of CACC (R273). -/
structure Target where
  scope : Scope
  order : Order
  w32 : Bool
  dev : Bool
  remote : Option (BitVec 10)
  addr : Nat
deriving DecidableEq, Repr

/-- The target word's fields; a reserved value, or a load that releases, is refused (R273). -/
def Target.ofWord (w : Word) (op : AccOp) : Option Target := do
  let s ← Scope.ofCode (w.extractLsb' 61 3)
  let o ← Order.ofCode (w.extractLsb' 58 3)
  let dev := wbit w 56
  let rem := wbit w 55
  if (op = .load ∧ (o = .rel ∨ o = .ar)) ∨ (¬ rem ∧ wbits w 54 45 ≠ 0) ∨ (¬ dev ∧ wbits w 44 32 ≠ 0) then none
  else some ⟨s, o, wbit w 57, dev, if rem then some (w.extractLsb' 45 10) else none, wbits w 44 0⟩

/-! ### CACC (R273 to R277) -/

/-- The comparand of CACC.cas is popped from the dst queue as a third source (R274). -/
def Env.comparand (e : Env) (m : Mach) (f : AccOp) (d : Dst) : Chk (Word × Mach) :=
  match f, d with
  | .cas, .queue q => e.src m (.pop q)
  | _, _ => .ok (0, m)

/-- An accumulate starts: an acquire holds its sequencer and ends by invalidating the read-stage buffer (R276). -/
def Env.startAcc (e : Env) (m : Mach) (a : AccOpRec) (l : Landing) : Mach :=
  let acq := acquires a.order
  let (o, m) := e.start m (.cacc a) [l] 0 (if acq then [.allLines] else []) none
  if acq then e.block o m else m

/-- An accumulate that has its old value already: an acquire still holds its sequencer until it finishes, and invalidates the
read-stage buffer (R276, R408). -/
def Env.startAcqValues (e : Env) (m : Mach) (o : Order) (dests : List Landing) : Mach :=
  let acq := acquires o
  let (n, m) := e.start m .values dests 0 (if acq then [.allLines] else []) none
  if acq then e.block n m else m

/-- CACC (R275): its checks, and the admission by the home rack. -/
def caccBody (d : Dst) (f : AccOp) (a b : Src) (e : Env) (m : Mach) : Chk Mach := do
  let (w, v, m) ← e.src2 m a b
  let (cmp, m) ← e.comparand m f d
  let (l, m) ← e.dst m d .pending
  match Target.ofWord w f with
  | none => .error (e.trapWord tFmtrsv)
  | some t =>
    let n := if t.w32 then 4 else 8
    let info := BitVec.ofNat 64 t.addr
    must (decide (t.addr % n = 0)) (.trap tAlign info)
    let rec_ (pa : Nat) : AccOpRec := ⟨f, t.w32, t.dev, pa, t.addr, t.remote, v, cmp, t.scope, t.order, false⟩
    match t.remote with
    | none =>
      let pa ← e.commonWord m t.dev t.addr (decide (f ≠ .load))
      .ok (e.startAcc m (rec_ pa) l)
    | some p =>
      if cutOff e.trust m p then
        .ok (e.startAcqValues (m.portError e.die (e.ctx m) p) t.order [l.put (BitVec.allOnes 64)])
      else
        must (t.dev || farGlobalOk t.addr) (.trap tSpace info)
        let m ← e.admission m t.addr
        .ok (e.startAcc (e.askAdmission m p (rec_ 0)) (rec_ 0) l)

/-- Whether an earlier accumulate of the same sequencer to the same word is still to be applied (R276). -/
def Core.wordBusy (k : Core) (o : Nat) (q : SeqId) (a : AccOpRec) : Bool :=
  (k.earlier o).any fun x =>
    match x.kind with
    | .cacc b => decide (x.seq = q ∧ b.dev = a.dev ∧ b.remote = a.remote ∧ b.va / 8 = a.va / 8)
    | _ => false

/-- Whether an accumulate's word can be served now: its slice is not in retention (R138). -/
def Mach.wordReady (m : Mach) (a : AccOpRec) : Bool := a.dev || a.remote.isSome || (m.retainedSlice a.pa).isNone

/-- A word's poison, consumed by the accumulate that reads it (R395). -/
def Mach.wordPoison (m : Mach) (a : AccOpRec) : Option Nat := poisonIn (m.homePoison a.dev) a.pa a.bytes

/-- An accumulate toward another package takes the answer with its old value (R409); an unreachable one gives all ones
(R408). One that the package had admitted and whose context was lost there meanwhile is refused: which old value lands then is
open (log 153). -/
def Mach.farAccumulate (t : Trust) (m : Mach) (a : AccOpRec) (p : BitVec 10) (c : Nat) : Option (Word × Bool × Mach) :=
  if cutOff t m p then some (BitVec.allOnes 64, false, m.portError (dieOf c) (m.core c).ctx p)
  else
    (takeReply (fun r => match r with
      | .old v s k g => some (v, s, k, g)
      | .noKey => some (Config.lostOld m.free, none, 0, 0)
      | _ => none) m.inbox).map fun x =>
      let (v, s, k, g) := x.1
      let m := { m with free := m.free + 1 }
      let miss := a.narrow || (acquires a.order &&
        match s with
        | none => false
        | some s => !(scopeHas s k (BitVec.ofNat 10 g) c t.package && scopeHas a.scope c t.package k (BitVec.ofNat 10 g)))
      (v, miss, { m with inbox := x.2 })

/-- Poison in a word of home memory is consumed by an operation, which ends without effect. -/
def Mach.losePoison (t : Trust) (m : Mach) (c : Nat) (op : Op) (dram : Bool) (a : Nat) : Mach :=
  let ctx := (m.core c).ctx
  let (d, b, i) := m.homeErr dram a
  (m.dropOp c op.id).consume d b i ctx (dieOf c) (t.logical (dieOf c) (physOf c)) (seqIndex op.seq)

/-- An accumulate leaves for another package, at most once (R276, R409). -/
def Mach.sendAcc (m : Mach) (c : Nat) (op : Op) (p : BitVec 10) (a : AccOpRec) (k : AccOpRec → OpKind) : Mach :=
  if a.sent then m
  else
    let who := (m.core c).asker c ((m.core c).seq op.seq).status.super
    { m.onCore c fun x => x.setOp { op with kind := k { a with sent := true } } with outbox := m.outbox ++ [.remoteAcc p who a] }

/-- ACCUMULATE_APPLIED: an admitted accumulate is applied at its word and its old value lands (R274 to R277). One toward
another package leaves when its waits have ended, and ends with the answer. -/
def accumulateApplied (t : Trust) (c o : Nat) (m : Mach) : Mach :=
  let k := m.core c
  match k.op? o with
  | none => m
  | some op =>
    match op.kind with
    | .cacc a =>
      let go := (!releases a.order || m.released c o a.scope) && !k.wordBusy o op.seq a && m.wordReady a
      if !go then (if a.dev || a.remote.isSome then m else m.touchSlice a.pa)
      else
        match a.remote, m.wordPoison a with
        | none, some w => m.losePoison t c op a.dev w
        | none, none =>
          let (old, miss, m) := m.accumulate a c t.package
          m.finish c { op with dests := op.dests.map (·.put old), flags := if miss then fScope else 0 }
        | some p, _ =>
          match if a.sent || cutOff t m p then m.farAccumulate t a p c else none with
          | none => m.sendAcc c op p a .cacc
          | some (old, miss, m) =>
            m.finish c { op with dests := op.dests.map (·.put old), flags := if miss then fScope else 0 }
    | _ => m

/-! ### FENCE (R157 to R160) -/

/-- The flag of a flagged FENCE, checked at issue (R160): none for an unreachable package. -/
def Env.flagWord (e : Env) (m : Mach) (c : Scope) (o : Order) (dev : Bool) (w v : Word) :
    Chk (Option AccOpRec × Mach) := do
  let rec_ (pa va : Nat) (p : Option (BitVec 10)) : AccOpRec := ⟨.add, false, dev, pa, va, p, v, 0, c, o, false⟩
  must (decide (w.toNat % 8 = 0)) (.trap tAlign w)
  if !dev && decide (c = .fab) && wbit w 55 then
    let p : BitVec 10 := w.extractLsb' 45 10
    must (decide (wbits w 63 56 = 0 ∧ wbits w 44 32 = 0)) (.trap tSpace w)
    if cutOff e.trust m p then .ok (none, m.portError e.die (e.ctx m) p)
    else
      must (farGlobalOk (wbits w 31 0)) (.trap tSpace w)
      let m ← e.admission m w.toNat
      let a := rec_ 0 (wbits w 31 0) (some p)
      .ok (some a, e.askAdmission m p a)
  else
    let pa ← e.commonWord m dev w.toNat true
    .ok (some (rec_ pa w.toNat none), m)

/-- FENCE (R160): its sequencer starts nothing more until it has finished. -/
def fenceBody (c : Scope) (o : Order) (f : FenceForm) (e : Env) (m : Mach) : Chk Mach := do
  let fin : List Fin_ := if acquires o then [.allLines] else []
  match f with
  | .plain =>
    let (id, m) := e.start m (.fence c o none) [] 0 fin none
    .ok (e.block id m)
  | .flag dev a b =>
    let (w, v, m) ← e.src2 m a b
    let (g, m) ← e.flagWord m c o dev w v
    let (id, m) := e.start m (.fence c o g) [] 0 fin none
    .ok (e.block id m)

/-- A FENCE is acknowledged: its waits have ended and its flag is added to (R160). -/
def serveFence (t : Trust) (c : Nat) (op : Op) (s : Scope) (o : Order) (flag : Option AccOpRec) (m : Mach) : Mach :=
  if releases o && !m.released c op.id s then m
  else
    match flag with
    | none => m.finish c op
    | some a =>
      if !m.wordReady a then m.touchSlice a.pa
      else
        match a.remote, m.wordPoison a with
        | none, some w => m.losePoison t c op a.dev w
        | none, none =>
          let (_, miss, m) := m.accumulate a c t.package
          m.finish c { op with flags := if miss then fScope else 0 }
        | some p, _ =>
          match if a.sent || cutOff t m p then m.farAccumulate t a p c else none with
          | none => m.sendAcc c op p a fun a => .fence s o (some a)
          | some (_, miss, m) => m.finish c { op with flags := if miss then fScope else 0 }

/-! ### Meanings -/

/-- CACC (R274). -/
def execCacc (t : Tok) (d : Dst) (f : AccOp) (a b : Src) (s : State) : Host.Outcome State Fault Refusal :=
  attemptNext (.cacc t d f a b) (caccBody d f a b) s
/-- FENCE (R160). -/
def execFence (t : Tok) (c : Scope) (o : Order) (f : FenceForm) (s : State) : Host.Outcome State Fault Refusal :=
  attemptNext (.fence t c o f) (fenceBody c o f) s
/-- ACCUMULATE_APPLIED: an accumulate is applied at its home. -/
def execAccumulateApplied (c o : Nat) (s : State) : Host.Outcome State Fault Refusal :=
  .next { s with mach := accumulateApplied s.trust c o s.mach }

end Sys2Proof.Machine
end

