-- ==== Sys2Proof/Machine/Fetch.lean ====
section
/-! DEFINITION. Fetching an instruction from a plane, and when a sequencer may attempt one. -/

namespace Sys2Proof.Machine

/-! ### Fetch (R44, R45) -/

/-- The word of a plane at an offset; the sequential fetch goes on from 0x7FFC to 0 (R45). -/
def Plane.word (p : Plane) (pc : Offset) : IWord := BitVec.ofNat 32 (p.bytes.nat pc.toNat 4)

/-- The words of the longest instruction from an offset on. -/
def Plane.wordsAt (p : Plane) (pc : Offset) : List IWord :=
  (List.range 5).map fun n => p.word (pc + BitVec.ofNat 15 (4 * n))

/-- The instruction at an offset; words that decode to nothing are the reserved word's (R48, R49). -/
def Plane.instr (p : Plane) (pc : Offset) : Instr :=
  match decodeWords (p.wordsAt pc) with
  | .ok (i, _) => i
  | .error _ => .illop (p.word pc)

/-- Whether the words of an instruction hold a poisoned word, as an offset (R395). -/
def Plane.bad (p : Plane) (pc : Offset) (len : Nat) : Option Nat :=
  (p.poison.find? fun w => (List.range len).any fun n => decide ((pc + BitVec.ofNat 15 (4 * n)).toNat / 8 = w)).map (8 * ·)

/-! ### When a sequencer issues -/

/-- Whether a sequencer is alive: its group is on the core, and it has not exited, stopped or been taken. -/
def Core.alive (k : Core) (q : SeqId) : Bool :=
  (match k.group with | some g => !g.held && !g.draining | none => false) &&
    !(k.seq q).exited && !(k.seq q).stopped && !(k.seq q).taken

/-- Whether a freeze stops a sequencer (R126, R179). -/
def Core.frozen (k : Core) (q : SeqId) : Bool := decide (k.freeze ≠ .none) || (decide (q = .cmp) && decide (0 < k.replay))

/-- Whether a sequencer may attempt its next instruction in this cycle. -/
def Core.ready (k : Core) (q : SeqId) : Bool :=
  k.alive q && !k.frozen q && (k.seq q).blockedOn.isNone && decide ((k.seq q).pause = .run) &&
    decide ((k.seq q).readyAt ≤ (k.seq q).clock)

end Sys2Proof.Machine
end

