-- ==== Sys2Proof/Machine/Num.lean ====
section
/-! DEFINITION. Number formats, exact values, rounding and the stochastic draws (R169 to R178), and exact arithmetic on
values (R198 to R202). A finite value is a sign, a natural mantissa and a binary exponent. -/

namespace Sys2Proof.Machine

/-! ### Formats (R169 to R172) -/

/-- Element width in bits; b has none. -/
def fmtWidth : Fmt → Option Nat
  | .i4 | .n4 | .f4 => some 4
  | .i8 | .n8 | .f6a | .f6b | .f8a | .f8b | .e8 => some 8
  | .i16 | .bf16 | .f16 => some 16
  | .i32 | .f32 => some 32
  | .b => none

/-- The width used where b has one too (R181): any width of the other side. -/
def fmtW (f : Fmt) : Nat := (fmtWidth f).getD 8

/-- Elements of an entry. -/
def fmtN (f : Fmt) : Nat := 4096 / fmtW f

/-- The kinds of tags (R193). -/
inductive Kind where | int | wide | narrow | scale | untyped
deriving DecidableEq, Repr

/-- The kind of a tag. -/
def kindOf : Fmt → Kind
  | .i4 | .n4 | .i8 | .n8 | .i16 | .i32 => .int
  | .bf16 | .f16 | .f32 => .wide
  | .f4 | .f6a | .f6b | .f8a | .f8b => .narrow
  | .e8 => .scale
  | .b => .untyped

/-- Unsigned integer tags. -/
def fmtUnsigned : Fmt → Bool
  | .n4 | .n8 => true
  | _ => false

/-- The signed integer tag of a width. -/
def intTag : Nat → Fmt
  | 4 => .i4 | 8 => .i8 | 16 => .i16 | _ => .i32

/-- How a floating-point format treats infinity and NaN (R175). -/
inductive Specials where | ieee | nanOnly | none
deriving DecidableEq, Repr

/-- A floating-point format: mantissa bits, bias, the bit of the sign, the code of the largest finite value (R171). -/
structure FloatFmt where
  mb : Nat
  bias : Nat
  sign : Nat
  maxEnc : Nat
  sp : Specials
deriving DecidableEq, Repr

/-- The floating-point formats (R171). -/
def floatFmt : Fmt → Option FloatFmt
  | .f4 => some ⟨1, 1, 3, 7, .none⟩
  | .f6a => some ⟨3, 1, 5, 0x1F, .none⟩
  | .f6b => some ⟨2, 3, 5, 0x1F, .none⟩
  | .f8a => some ⟨3, 7, 7, 0x7E, .nanOnly⟩
  | .f8b => some ⟨2, 15, 7, 0x7B, .ieee⟩
  | .bf16 => some ⟨7, 127, 15, 0x7F7F, .ieee⟩
  | .f16 => some ⟨10, 15, 15, 0x7BFF, .ieee⟩
  | .f32 => some ⟨23, 127, 31, 0x7F7FFFFF, .ieee⟩
  | _ => none

/-- The bits of a magnitude with a sign. -/
def FloatFmt.signed (f : FloatFmt) (neg : Bool) (enc : Nat) : Nat := if neg then 2 ^ f.sign + enc else enc
/-- The infinity of a format that has one. -/
def FloatFmt.inf (f : FloatFmt) (neg : Bool) : Nat := f.signed neg (f.maxEnc + 1)
/-- The canonical NaN (R171, R175); a format without NaN gives +0. -/
def FloatFmt.nan (f : FloatFmt) (neg : Bool) : Nat :=
  match f.sp with
  | .ieee => f.signed neg (f.maxEnc + 1 + 2 ^ (f.mb - 1))
  | .nanOnly => f.signed neg (f.maxEnc + 1)
  | .none => 0

/-! ### Values -/

/-- An exact value: NaN with its sign and whether it signals, an infinity, or ± m × 2^e with the sign of a zero. -/
inductive Val where
  | nan (neg sig : Bool)
  | inf (neg : Bool)
  | fin (neg : Bool) (m : Nat) (e : Int)
deriving DecidableEq, Repr

/-- The value of an integer. -/
def Val.ofInt (x : Int) : Val := .fin (decide (x < 0)) x.natAbs 0

/-- The value of bits of a floating-point format (R171); an f6 container's high bits are ignored (R173). -/
def FloatFmt.value (f : FloatFmt) (bits : Nat) : Val :=
  let b := bits % 2 ^ (f.sign + 1)
  let neg := decide (2 ^ f.sign ≤ b)
  let mag := b % 2 ^ f.sign
  if f.maxEnc < mag then
    match f.sp with
    | .ieee =>
      if mag = f.maxEnc + 1 then .inf neg
      else .nan neg (decide (mag / 2 ^ (f.mb - 1) % 2 = 0))
    | _ => .nan neg false
  else
    let ef := mag / 2 ^ f.mb
    let mf := mag % 2 ^ f.mb
    if ef = 0 then .fin neg mf (1 - (f.bias : Int) - f.mb)
    else .fin neg (2 ^ f.mb + mf) ((ef : Int) - f.bias - f.mb)

/-- An integer element as a number (R170). -/
def intValue (f : Fmt) (bits : Nat) : Int :=
  let w := fmtW f
  let b := bits % 2 ^ w
  if fmtUnsigned f ∨ b < 2 ^ (w - 1) then b else (b : Int) - 2 ^ w

/-- The value of an element of a format (R170 to R172). -/
def fmtValue (f : Fmt) (bits : Nat) : Val :=
  match f with
  | .e8 => if bits % 256 = 255 then .nan false false else .fin false 1 ((bits % 256 : Nat) - 127)
  | f =>
    match floatFmt f with
    | some x => x.value bits
    | none => .ofInt (intValue f bits)

/-- Whether an element is a subnormal bf16, f16 or f32 (R179). -/
def isSub (f : Fmt) (bits : Nat) : Bool :=
  match kindOf f, floatFmt f with
  | .wide, some x => decide (bits % 2 ^ x.sign / 2 ^ x.mb = 0) && decide (bits % 2 ^ x.mb ≠ 0)
  | _, _ => false

/-! ### Rounding (R174, R177) -/

/-- A result's bits with the flags it sets. -/
structure Rd where
  bits : Nat
  flags : BitVec 7
deriving DecidableEq, Repr

/-- The rounding of m / 2^s to an integer in a mode, for a magnitude with a sign; draw is SrDraw<63:40>. The second part
says whether it was inexact. A value below 2^-26 is never rounded up but by direction. -/
def roundNat (mode : Rnd) (neg : Bool) (m : Nat) (s : Int) (draw : Nat) : Nat × Bool :=
  if s ≤ 0 then (m * 2 ^ (-s).toNat, false)
  else if (m.log2 : Int) + 26 < s then
    let up := match mode with | .rdn => neg | .rup => !neg | _ => false
    (if up && decide (m ≠ 0) then 1 else 0, decide (m ≠ 0))
  else
    let n := s.toNat
    let q := m / 2 ^ n
    let r := m % 2 ^ n
    let up := match mode with
      | .rne => decide (2 ^ n < 2 * r) || (decide (2 * r = 2 ^ n) && decide (q % 2 = 1))
      | .rtz => false
      | .rdn => neg && decide (r ≠ 0)
      | .rup => !neg && decide (r ≠ 0)
      | .sr => decide (2 ^ 24 ≤ r * 2 ^ 24 / 2 ^ n + draw)
    (if up then q + 1 else q, decide (r ≠ 0))

/-- Overflow of a finite value (R175). -/
def FloatFmt.overflow (f : FloatFmt) (mode : Rnd) (sat neg : Bool) : Rd :=
  let max := f.signed neg f.maxEnc
  match f.sp with
  | .none => ⟨max, fOvf ||| fSatur ||| fInx⟩
  | .nanOnly => if sat then ⟨max, fSatur ||| fOvf ||| fInx⟩ else ⟨f.nan neg, fOvf ||| fInx⟩
  | .ieee =>
    if sat then ⟨max, fSatur ||| fOvf ||| fInx⟩
    else
      let big := match mode with | .rne | .sr => true | .rtz => false | .rdn => neg | .rup => !neg
      ⟨if big then f.inf neg else max, fOvf ||| fInx⟩

/-- RoundTo of ± m × 2^e, m not 0, to a floating-point format (R174, R175). -/
def FloatFmt.round (f : FloatFmt) (mode : Rnd) (sat : Bool) (draw : Nat) (neg : Bool) (m : Nat) (e : Int) : Rd :=
  let top : Int := (m.log2 : Int) + e
  let low : Int := 1 - (f.bias : Int) - f.mb
  let g : Int := max (top - f.mb) low
  if top > 4096 then f.overflow mode sat neg
  else
    let (q, inx) := roundNat mode neg m (g - e) draw
    let enc := (g - low).toNat * 2 ^ f.mb + q
    if f.maxEnc < enc then f.overflow mode sat neg
    else
      let tiny := decide (enc < 2 ^ f.mb)
      ⟨f.signed neg enc, if inx then (if tiny then fInx ||| fUnf else fInx) else 0⟩

/-- The limits of an integer format. -/
def intLimits (f : Fmt) : Int × Int :=
  let w := fmtW f
  if fmtUnsigned f then (0, 2 ^ w - 1) else (-2 ^ (w - 1), 2 ^ (w - 1) - 1)

/-- The bits of an integer in a format. -/
def intBits (f : Fmt) (x : Int) : Nat := (x % 2 ^ fmtW f).toNat

/-- RoundTo of ± m × 2^e to an integer format (R174, R175): a zero that is inexact is an underflow there too. -/
def roundInt (f : Fmt) (mode : Rnd) (draw : Nat) (neg : Bool) (m : Nat) (e : Int) : Rd :=
  let (lo, hi) := intLimits f
  if (m.log2 : Int) + e > 64 then ⟨intBits f (if neg then lo else hi), fSatur ||| fInx⟩
  else
    let (q, inx) := roundNat mode neg m (-e) draw
    let x : Int := if neg then -q else q
    if x < lo ∨ hi < x then ⟨intBits f (if neg then lo else hi), fSatur ||| fInx⟩
    else ⟨intBits f x, if inx then (if q = 0 then fInx ||| fUnf else fInx) else 0⟩

/-- A value in a floating-point format, by R174 and R175. -/
def FloatFmt.conv (f : FloatFmt) (mode : Rnd) (sat : Bool) (draw : Nat) (v : Val) : Rd :=
  match v with
  | .nan neg sig => ⟨f.nan neg, if sig || decide (f.sp = .none) then fInv else 0⟩
  | .inf neg =>
    match f.sp with
    | .ieee => ⟨f.inf neg, 0⟩
    | .nanOnly => if sat then ⟨f.signed neg f.maxEnc, fSatur ||| fInx⟩ else ⟨f.nan neg, fInv⟩
    | .none => ⟨f.signed neg f.maxEnc, fSatur ||| fInx⟩
  | .fin neg 0 _ => ⟨f.signed neg 0, 0⟩
  | .fin neg m e => f.round mode sat draw neg m e

/-- A value in an integer format. -/
def convInt (f : Fmt) (mode : Rnd) (draw : Nat) (v : Val) : Rd :=
  let (lo, hi) := intLimits f
  match v with
  | .nan _ _ => ⟨0, fInv⟩
  | .inf neg => ⟨intBits f (if neg then lo else hi), fSatur ||| fInx⟩
  | .fin _ 0 _ => ⟨0, 0⟩
  | .fin neg m e => roundInt f mode draw neg m e

/-- A value in a numeric format: RoundTo with the special values and overflow of R175. -/
def convTo (f : Fmt) (mode : Rnd) (sat : Bool) (draw : Nat) (v : Val) : Rd :=
  match floatFmt f with
  | some x => x.conv mode sat draw v
  | none => convInt f mode draw v

/-! ### The generator (R176) -/

/-- SrDraw. -/
def srDraw (seed : Word) (step : BitVec 32) (i : Nat) : Word :=
  let z := seed + (step ++ BitVec.ofNat 32 i : BitVec 64) * 0x9E3779B97F4A7C15
  let z := (z ^^^ (z >>> 30)) * 0xBF58476D1CE4E5B9
  let z := (z ^^^ (z >>> 27)) * 0x94D049BB133111EB
  z ^^^ (z >>> 31)

/-- The 24 bits of a draw that RoundTo uses (R177). -/
def draw24 (seed : Word) (step : BitVec 32) (i : Nat) : Nat := (srDraw seed step i).toNat / 2 ^ 40

/-! ### Exact arithmetic on wide floats (R198) -/

/-- Signed mantissa of a finite value. -/
def sgn (neg : Bool) (m : Nat) : Int := if neg then -m else m

/-- x × 2^a + y × 2^b, exactly. -/
def addExact (x : Int) (a : Int) (y : Int) (b : Int) : Int × Int :=
  let e := min a b
  (x * 2 ^ (a - e).toNat + y * 2 ^ (b - e).toNat, e)

/-- The canonical NaN of the first NaN source, with fpinv when any source signals (R198). -/
def FloatFmt.nanOf (f : FloatFmt) (vs : List Val) : Option Rd :=
  let first := vs.findSome? fun v => match v with | .nan neg _ => some neg | _ => none
  let sig := vs.any fun v => match v with | .nan _ s => s | _ => false
  first.map fun neg => ⟨f.nan neg, if sig then fInv else 0⟩

/-- An invalid operation (R198). -/
def FloatFmt.invalid (f : FloatFmt) : Rd := ⟨f.nan false, fInv⟩

/-- An exact sum rounded; a zero has the given sign (R198). -/
def FloatFmt.roundSum (f : FloatFmt) (mode : Rnd) (sat zneg : Bool) (x : Int × Int) : Rd :=
  if x.1 = 0 then ⟨f.signed zneg 0, 0⟩ else f.round mode sat 0 (decide (x.1 < 0)) x.1.natAbs x.2

/-- The sign of an exact zero sum: the sources' when both are zeros of one sign, else by the mode (R198). -/
def zeroSign (mode : Rnd) (a b : Bool) : Bool := if a = b then a else decide (mode = .rdn)

/-- The negative of a value. -/
def Val.neg : Val → Val
  | .nan n s => .nan n s
  | .inf n => .inf (!n)
  | .fin n m e => .fin (!n) m e

/-- The sum of two values rounded once (R198, R199). -/
def FloatFmt.add (f : FloatFmt) (mode : Rnd) (sat : Bool) (a b : Val) : Rd :=
  match f.nanOf [a, b] with
  | some r => r
  | none =>
    match a, b with
    | .inf x, .inf y => if x = y then ⟨f.inf x, 0⟩ else f.invalid
    | .inf x, _ => ⟨f.inf x, 0⟩
    | _, .inf y => ⟨f.inf y, 0⟩
    | .fin n m e, .fin n' m' e' =>
      let z := if m = 0 ∧ m' = 0 then zeroSign mode n n' else decide (mode = .rdn)
      f.roundSum mode sat z (addExact (sgn n m) e (sgn n' m') e')
    | _, _ => f.invalid

/-- The product of two values rounded once (R198, R199). -/
def FloatFmt.mul (f : FloatFmt) (mode : Rnd) (sat : Bool) (a b : Val) : Rd :=
  match f.nanOf [a, b] with
  | some r => r
  | none =>
    match a, b with
    | .inf x, .inf y => ⟨f.inf (x != y), 0⟩
    | .inf x, .fin n m _ => if m = 0 then f.invalid else ⟨f.inf (x != n), 0⟩
    | .fin n m _, .inf x => if m = 0 then f.invalid else ⟨f.inf (x != n), 0⟩
    | .fin n m e, .fin n' m' e' =>
      if m * m' = 0 then ⟨f.signed (n != n') 0, 0⟩ else f.round mode sat 0 (n != n') (m * m') (e + e')
    | _, _ => f.invalid

/-- Whether a product is 0 × ∞ (R198, R200). -/
def mulInvalid : Val → Val → Bool
  | .inf _, .fin _ m _ => decide (m = 0)
  | .fin _ m _, .inf _ => decide (m = 0)
  | _, _ => false

/-- The exact product of two values that are no NaN, 0 × ∞ apart. -/
def Val.mul : Val → Val → Val
  | .inf x, .inf y => .inf (x != y)
  | .inf x, .fin n _ _ => .inf (x != n)
  | .fin n _ _, .inf x => .inf (x != n)
  | .fin n m e, .fin n' m' e' => .fin (n != n') (m * m') (e + e')
  | v, _ => v

/-- A sum of products and one more value, exact and rounded once to nearest (R200, R213): srcs are the sources in operand
order, where 0 × ∞ is invalid even when the last one is a NaN. DESIGN CHOICE: of several NaNs in one lane the first of srcA, then the
first of srcB, gives the sign (log 149). -/
def FloatFmt.sumOf (f : FloatFmt) (negate : Bool) (ps : List (Val × Val)) (v : Val) : Rd :=
  let isNan (x : Val) : Bool := match x with | .nan _ _ => true | _ => false
  let sig (x : Val) : Bool := match x with | .nan _ s => s | _ => false
  let bad := ps.any fun p => mulInvalid p.1 p.2
  let srcs := ps.map Prod.fst ++ ps.map Prod.snd
  let anySig := srcs.any sig || sig v
  if srcs.any isNan then
    match f.nanOf srcs with
    | some r => ⟨r.bits, if bad || anySig then fInv else 0⟩
    | none => f.invalid
  else if bad then
    match v with
    | .nan n _ => ⟨f.nan n, fInv⟩
    | _ => f.invalid
  else
    match v with
    | .nan n s => ⟨f.nan n, if s then fInv else 0⟩
    | v =>
      let terms := (ps.map fun p => let x := p.1.mul p.2; if negate then x.neg else x) ++ [v]
      let pinf := terms.any fun x => decide (x = .inf false)
      let ninf := terms.any fun x => decide (x = .inf true)
      if pinf && ninf then f.invalid
      else if pinf then ⟨f.inf false, 0⟩
      else if ninf then ⟨f.inf true, 0⟩
      else
        let s := terms.foldl (fun (a : Int × Int) x =>
          match x with | .fin n m e => addExact a.1 a.2 (sgn n m) e | _ => a) (0, 0)
        let negZero := terms.all fun x => match x with | .fin n m _ => n && decide (m = 0) | _ => false
        f.roundSum .rne false negZero s

/-! ### Comparison (R201, R202) -/

/-- Whether an element is a NaN of its format, and whether it signals. -/
def nanBits (f : Fmt) (b : Nat) : Option Bool :=
  match fmtValue f b with
  | .nan _ s => some s
  | _ => none

/-- A key that orders the elements of a format that are no NaN, −0 below +0 (R201). -/
def orderKey (f : Fmt) (b : Nat) : Int :=
  match f with
  | .e8 => b % 256
  | f =>
    match floatFmt f with
    | none => intValue f b
    | some x =>
      let b := b % 2 ^ (x.sign + 1)
      if 2 ^ x.sign ≤ b then -((b % 2 ^ x.sign : Nat) : Int) - 1 else b

/-- A key under which −0 equals +0 (R202). -/
def compareKey (f : Fmt) (b : Nat) : Int :=
  let k := orderKey f b
  match floatFmt f with
  | some _ => if k < 0 then k + 1 else k
  | none => k

/-- The canonical NaN of a format with a sign (R201). -/
def canonNan (f : Fmt) (neg : Bool) : Nat :=
  match floatFmt f with
  | some x => x.nan neg
  | none => 0xFF

/-- The sign of an element. -/
def negBit (f : Fmt) (b : Nat) : Bool :=
  match floatFmt f with
  | some x => decide (2 ^ x.sign ≤ b % 2 ^ (x.sign + 1))
  | none => false

/-- The bits of a moved element: an f6 container is written with <7:6> zero (R173). -/
def cleanBits (f : Fmt) (b : Nat) : Nat :=
  match floatFmt f with
  | some x => b % 2 ^ (x.sign + 1)
  | none => b % 2 ^ fmtW f

/-- VMNX of two elements (R201). -/
def mnx (f : Fmt) (op : MnxOp) (a b : Nat) : Rd :=
  let big := match op with | .max | .maxn => true | _ => false
  let keep := match op with | .min | .max => true | _ => false
  let pick := if (orderKey f b < orderKey f a) = (big = true) then a else b
  match nanBits f a, nanBits f b with
  | none, none => ⟨cleanBits f pick, 0⟩
  | x, y =>
    let fl := if x = some true ∨ y = some true then fInv else 0
    if keep && y.isNone then ⟨cleanBits f b, fl⟩
    else if keep && x.isNone then ⟨cleanBits f a, fl⟩
    else ⟨canonNan f (if x.isSome then negBit f a else negBit f b), fl⟩

/-- VCMP of two elements (R202). -/
def vcmp (f : Fmt) (sig : Bool) (op : VcmpOp) (a b : Nat) : Bool × BitVec 7 :=
  match nanBits f a, nanBits f b with
  | none, none =>
    let x := compareKey f a
    let y := compareKey f b
    (match op with
      | .eq => decide (x = y)
      | .ne => decide (x ≠ y)
      | .lt => decide (x < y)
      | .le => decide (x ≤ y)
      | .gt => decide (y < x)
      | .ge => decide (y ≤ x)
      | .un => false, 0)
  | x, y =>
    (match op with | .ne | .un => true | _ => false, if sig ∨ x = some true ∨ y = some true then fInv else 0)

/-! ### Vectors (R169) -/

/-- The digits of a number in base 2^w, lowest first. -/
def digits (w : Nat) : Nat → Nat → List Nat
  | 0, _ => []
  | n + 1, x => x % 2 ^ w :: digits w n (x / 2 ^ w)

/-- The number that digits in base 2^w give. -/
def undigits (w : Nat) : List Nat → Nat
  | [] => 0
  | d :: r => d % 2 ^ w + 2 ^ w * undigits w r

/-- The elements of an entry's bits, in a format. -/
def elemsOf (f : Fmt) (v : VBits) : List Nat := digits (fmtW f) (fmtN f) v.toNat

/-- The entry of a tag that holds elements. -/
def entryOf (f : Fmt) (l : List Nat) : VEntry := ⟨f, BitVec.ofNat 4096 (undigits (fmtW f) l)⟩

end Sys2Proof.Machine
end

