-- ==== Sys2Proof/Machine/System.lean ====
section
/-! DEFINITION. TRAP, TRET, SRR and SRW (R367 to R377), and the registers they read (R53, R242, R244). -/

namespace Sys2Proof.Machine

/-! ### The registers -/

/-- The array of a cluster. -/
def Mach.array (m : Mach) (k : Nat) : Array_ := SMap.getD m.arrays k .reset
/-- An array changed. -/
def Mach.onArray (m : Mach) (k : Nat) (f : Array_ → Array_) : Mach := { m with arrays := SMap.set m.arrays k (f (m.array k)) }

/-- CHKROW (R242, R243). -/
def Array_.chkrow (a : Array_) : Nat :=
  match a.repl with
  | some (row, _) => row
  | none => a.passes % 1025

/-- CELLMAP (R244). -/
def Array_.cellmap (a : Array_) : Word :=
  let off := decide (a.lease = .offline)
  let (row, col) := a.repl.getD (0, 0)
  (0 : BitVec 32) ++ BitVec.ofBool a.repl.isSome ++ BitVec.ofBool a.spBad ++ BitVec.ofBool off ++ (0 : BitVec 9) ++
    BitVec.ofNat 10 row ++ BitVec.ofNat 10 col

/-- A system register as SRR reads it (R53, R376). -/
def Env.sysReg (e : Env) (m : Mach) (r : SysReg) : Word :=
  let k := m.core e.c
  let s := k.seq e.q
  match r with
  | .trapcause => s.trapCause
  | .trappc => s.trapPc
  | .trapinfo => s.trapInfo
  | .status => s.status.word
  | .ctxid => k.ctx.setWidth 64
  | .grpid => BitVec.ofNat 64 k.grpid
  | .corelog => BitVec.ofNat 64 e.corelog
  | .dieid => BitVec.ofNat 64 e.die
  | .dieclass => if isPDie e.die then 0 else 1
  | .harvest => e.trust.harvest e.die
  | .cycles => k.cycles
  | .wdlimit => s.wdLimit
  | .srseed => k.seed
  | .chkrow => if isPDie e.die then BitVec.ofNat 64 (m.array (clusterOf e.c)).chkrow else 0
  | .cellmap => if isPDie e.die then (m.array (clusterOf e.c)).cellmap else 0

/-- What SRW writes (R377); the seed is written at the end of the cycle. -/
def Env.setSysReg (e : Env) (m : Mach) (r : SysReg) (v : Word) : Mach :=
  match r with
  | .status => m.onSeq e.c e.q fun s => { s with status := s.status.write v }
  | .trappc => m.onSeq e.c e.q fun s => { s with trapPc := v }
  | .wdlimit => m.onSeq e.c e.q fun s => { s with wdLimit := v }
  | .srseed => e.later (.seed v) m
  | .trapcause | .trapinfo | .cellmap | .ctxid | .grpid | .corelog | .dieid | .dieclass | .harvest | .cycles | .chkrow => m

/-! ### Meanings -/

/-- SRR (R369, R376). -/
def srrBody (d : Dst) (r : SysReg) (e : Env) (m : Mach) : Chk Mach := do
  let v := e.sysReg m r
  let (l, m) ← e.dst m d .inFlight
  .ok (e.timed m 2 (l.put v) false false)

/-- SRW (R369, R377). -/
def srwBody (r : SysReg) (b : Src) (e : Env) (m : Mach) : Chk Mach := do
  let (v, m) ← e.src m b
  .ok (e.finishNow (e.setSysReg m r v))

/-- TRAP starts and finishes, then raises TRAPI; TRAPPC is the offset that follows it (R372, R374). -/
def trapBody (a : Src) (e : Env) (m : Mach) : Chk Mach := do
  let (v, m) ← e.src m a
  let m := e.finishNow m
  .ok (takeTrap e.trust e.c e.q tTrapi v ((m.seq e.c e.q).after e.len) m)

/-- TRET (R375). -/
def tretBody (e : Env) (m : Mach) : Chk Mach := do
  let v := (m.seq e.c e.q).trapPc
  must (decide (v.toNat % 4 = 0 ∧ v.toNat < 0x8000)) (.trap tAlign v)
  .ok ((e.finishNow m).onSeq e.c e.q trapReturn)

/-- TRAP (R374). -/
def execTrap (t : Tok) (a : Src) (s : State) : Host.Outcome State Fault Refusal := attempt (.trap t a) (trapBody a) s
/-- TRET (R375). -/
def execTret (t : Tok) (s : State) : Host.Outcome State Fault Refusal := attempt (.tret t) tretBody s
/-- SRR (R376). -/
def execSrr (t : Tok) (d : Dst) (r : SysReg) (s : State) : Host.Outcome State Fault Refusal :=
  attemptNext (.srr t d r) (srrBody d r) s
/-- SRW (R377). -/
def execSrw (t : Tok) (r : SysReg) (b : Src) (s : State) : Host.Outcome State Fault Refusal :=
  attemptNext (.srw t r b) (srwBody r b) s

end Sys2Proof.Machine
end

