-- ==== Sys2Proof/Machine/Array.lean ====
section
/-! DEFINITION. The leased array of a P-die cluster (R217 to R244, R448): the lease, the clause, the ten instructions, the
arithmetic of a pass and the spare row. -/

namespace Sys2Proof.Machine

/-! ### Pass forms (R233) -/

/-- Products per cell, K tile, bytes of an A row without scales. -/
structure PassForm where
  prods : Nat
  tile : Nat
  row : Nat
deriving DecidableEq, Repr

/-- An FP8 format. -/
def isF8 (f : Fmt) : Bool := decide (f = .f8a ∨ f = .f8b)

/-- The legal pass forms (R233). -/
def passForm (h : MxHeader) : Option PassForm :=
  if !h.sparse && isF8 h.afmt && isF8 h.bfmt then some ⟨1, 1024, 1024⟩
  else if !h.sparse && isF8 h.afmt && decide (h.bfmt = .f4) then some ⟨2, 2048, 2048⟩
  else if !h.sparse && decide (h.afmt = .f4 ∧ h.bfmt = .f4) then some ⟨2, 2048, 1024⟩
  else if h.sparse && isF8 h.afmt && decide (h.bfmt = .f4) then some ⟨2, 4096, 4096⟩
  else if h.sparse && decide (h.afmt = .f4 ∧ h.bfmt = .f4) then some ⟨2, 4096, 2048⟩
  else if !h.sparse && decide (h.afmt = .bf16 ∧ h.bfmt = .bf16) then some ⟨1, 1024, 2048⟩
  else none

/-- The output formats of a clause (R233). -/
def outFormat : Fmt → Bool
  | .f32 | .bf16 | .f16 | .f8a | .f8b => true
  | _ => false

/-- Rows of a clause, M. -/
def MxRows (h : MxHeader) : Nat := 8 * (h.rows.toNat + 1)

/-- The form of an open clause, whose header is legal. -/
def clauseForm (cl : Clause) : PassForm := (passForm cl.header).getD ⟨1, 1024, 1024⟩

/-- Bytes of a captured row with its scales, when it has them (R234). -/
def rowBytes (f : PassForm) (sc : Bool) : Nat := f.row + if sc then f.tile / 32 else 0

/-! ### Pass arithmetic (R218, R219, R239, R240) -/

/-- Element κ of an A row, and its scale (R233, R234). -/
def aElem (h : MxHeader) (f : PassForm) (r : ARow) (k : Nat) : Val × Nat :=
  let v := match h.afmt with
    | .f4 => fmtValue .f4 ((Mem.get r.bytes (k / 2)).toNat / 16 ^ (k % 2))
    | .bf16 => fmtValue .bf16 (Mem.nat r.bytes (2 * k) 2)
    | g => fmtValue g (Mem.get r.bytes k).toNat
  (v, if r.scaled && decide (h.afmt ≠ .bf16) then (Mem.get r.bytes (f.row + k / 32)).toNat else 0x7F)

/-- The raw bits of the cells of a column that are not zero, in ascending row (R218). -/
def WPlane.column (p : WPlane) (n : Nat) : List (Nat × Nat) :=
  p.cells.foldr (fun c l =>
    if c.1 / 2 % 1024 = n then
      let k := c.1 / 2048
      let b := c.2.toNat * 256 ^ (c.1 % 2)
      match l with
      | (k', r) :: t => if k' = k then (k, r + b) :: t else (k, b) :: l
      | [] => [(k, b)]
    else l) []

/-- The weights in a cell (R218). -/
def cellWeights (h : MxHeader) (raw : Nat) : List Val :=
  match h.bfmt with
  | .f4 => [fmtValue .f4 (raw % 16), fmtValue .f4 (raw / 16 % 16)]
  | .bf16 => [fmtValue .bf16 raw]
  | g => [fmtValue g (raw % 256)]

/-- The nibble of the metadata tile for a cell row and a column (R235). -/
def mdNibble (tile : Mem) (k n : Nat) : Nat := (Mem.get tile (k * 16 + n / 32 / 2)).toNat / 16 ^ (n / 32 % 2) % 16

/-- The logical K indices that the products of a cell use (R239). -/
def kappas (h : MxHeader) (tile : Mem) (k n : Nat) : List Nat :=
  if h.sparse then
    let x := mdNibble tile k n
    [4 * k + x % 4, 4 * k + x / 4]
  else if h.bfmt = .f4 then [2 * k, 2 * k + 1]
  else [k]

/-- The scale latch of a column for a logical K index (R219); BF16 ignores scales (R233). -/
def WPlane.scale (p : WPlane) (h : MxHeader) (n kappa : Nat) : Nat :=
  if h.bfmt = .bf16 then 0x7F else (SMap.getD p.scales (n * 128 + kappa / 32) p.base).toNat

/-- One scaled product: an A element, a weight and their scales; none stands for NaN (R239, R240). -/
def scaledProduct (a w : Val) (sa sw : Nat) : Option Val :=
  match a, w with
  | .nan .., _ => none
  | _, .nan .. => none
  | a, w =>
    if sa = 0xFF ∨ sw = 0xFF ∨ mulInvalid a w = true then none
    else
      some (match a.mul w with
        | .fin s m e => .fin s m (e + sa - 127 + sw - 127)
        | v => v)

/-- The exact sum of products; opposite infinities give NaN (R239, R240). -/
def exactSum (l : List (Option Val)) : Val :=
  if l.any Option.isNone then .nan false false
  else
    let vs := l.filterMap id
    let pinf := vs.any fun x => decide (x = .inf false)
    let ninf := vs.any fun x => decide (x = .inf true)
    if pinf && ninf then .nan false false
    else if pinf then .inf false
    else if ninf then .inf true
    else
      let s := vs.foldl (fun (a : Int × Int) x =>
        match x with | .fin n m e => addExact a.1 a.2 (sgn n m) e | _ => a) (0, 0)
      let neg := if s.1 = 0 then vs.all fun x => match x with | .fin n _ _ => n | _ => false else decide (s.1 < 0)
      .fin neg s.1.natAbs s.2

/-- A sum of f32 codes rounded to nearest, a NaN canonical and positive (R239, R240). -/
def addCanon (p : Nat) (v : Val) : Nat :=
  let f : FloatFmt := ⟨23, 127, 31, 0x7F7FFFFF, .ieee⟩
  match f.value p, v with
  | .nan .., _ => f.nan false
  | _, .nan .. => f.nan false
  | x, v => (f.add .rne false x v).bits

/-- CellSum (R239). -/
def cellSum (h : MxHeader) (f : PassForm) (p : WPlane) (tile : Mem) (r : ARow) (k n raw : Nat) : Val :=
  exactSum (List.zipWith (fun w x =>
    let (a, sa) := aElem h f r x
    scaledProduct a w sa (p.scale h n x)) (cellWeights h raw) (kappas h tile k n))

/-- The partial sum of a row down a column, from cell row k on: cells hold the column's bits that are not zero. -/
def columnSum (h : MxHeader) (f : PassForm) (p : WPlane) (tile : Mem) (r : ARow) (n : Nat) :
    Nat → Nat → List (Nat × Nat) → Nat → Nat
  | 0, _, _, acc => acc
  | i + 1, k, cells, acc =>
    match cells with
    | (k', raw) :: rest =>
      if k' = k then columnSum h f p tile r n i (k + 1) rest (addCanon acc (cellSum h f p tile r k n raw))
      else columnSum h f p tile r n i (k + 1) cells (addCanon acc (cellSum h f p tile r k n 0))
    | [] => columnSum h f p tile r n i (k + 1) [] (addCanon acc (cellSum h f p tile r k n 0))

/-- The columns of a row: those of its group under MXGR, all of them otherwise (R236). -/
def rowColumns (groups : Option (List Nat)) (m : Nat) : List Nat :=
  match groups with
  | none => List.range 1024
  | some cs =>
    let w := 1024 / cs.length
    let ends := cs.foldl (fun (a : Nat × List (Nat × Nat)) c => (a.1 + c, a.2 ++ [(a.1, a.1 + c)])) (0, [])
    match ends.2.findIdx? fun e => decide (e.1 ≤ m ∧ m < e.2) with
    | some g => (List.range w).map (g * w + ·)
    | none => []

/-- A pass: every row of the clause through the active plane into a bank (R239). -/
def passInto (cl : Clause) (p : WPlane) (tile : Mem) (rows : List (Nat × ARow)) (bank : SMap (BitVec 32)) : SMap (BitVec 32) :=
  let f := clauseForm cl
  rows.foldl (fun b mr =>
    (rowColumns cl.groups mr.1).foldl (fun b n =>
      let s := columnSum cl.header f p tile mr.2 n 1024 0 (p.column n) 0
      let key := 1024 * mr.1 + n
      let v := addCanon (SMap.getD b key 0).toNat (fmtValue .f32 s)
      SMap.put 0 b key (BitVec.ofNat 32 v)) b) bank

/-! ### The lease (R223 to R226) -/

/-- The clock of an array, in array cycles: clocks 0 to 5 are the dies'. -/
def arrayClock (k : Nat) : Nat := 16 + k

/-- The cores of an array's cluster that are live, in ascending order. -/
def Trust.clusterCores (t : Trust) (k : Nat) : List Nat :=
  ((List.range 4).map fun i => k / 9 * 36 + k % 9 * 4 + i).filter fun c => (t.mask (dieOf c)).getLsbD (physOf c)

/-- The group on a core changed. -/
def Core.onGroup (k : Core) (f : Group → Group) : Core := { k with group := k.group.map f }
/-- The group on a core of the machine changed. -/
def Mach.onGroup (m : Mach) (c : Nat) (f : Group → Group) : Mach := m.onCore c fun k => k.onGroup f

/-- Whether the group on a core wants the lease (R223). -/
def Core.wants (k : Core) : Bool := match k.group with | some g => g.want | none => false

/-- LEASE.acq's checks before the lease, R47's and checks 1 and 3 of R231, and its place for the status (R226). -/
def acqChecks (d : Dst) (e : Env) (m : Mach) : Chk (Landing × Mach) := do
  must ((m.core e.c).clause.isNone) (e.trapWord tClause)
  e.dst m d .pending

/-- Whether the LEASE.acq that a core's cmp stands at asks for the lease (R224, R226). -/
def acqStalls (t : Trust) (m : Mach) (c : Nat) : Bool :=
  let k := m.core c
  if k.alive .cmp && k.cmp.blockedOn.isNone && decide (k.cmp.pause = .run) && decide (k.cmp.readyAt ≤ k.cmp.clock) then
    match (k.plane .cmp).instr k.cmp.pc with
    | .leaseAcq tok d =>
      let i := Instr.leaseAcq tok d
      let e : Env := ⟨t, c, .cmp, i.word, i.length, i.tok⟩
      match (do
        e.checks m i
        let m ← e.tokens m
        acqChecks d e m : Chk (Landing × Mach)) with
      | .ok _ => true
      | .error _ => false
    | _ => false
  else false

/-- Whether a core asks for the lease, or keeps it. -/
def leaseAsks (t : Trust) (m : Mach) (c : Nat) : Bool := (m.core c).wants || acqStalls t m c

/-- Operations of the array that a core has outstanding. -/
def OpKind.isArray : OpKind → Bool
  | .wld .. | .wswp | .mxa .. | .mxsq .. | .mxz .. | .mxdr .. => true
  | _ => false

/-- Whether nothing of a core is left in the array. -/
def Core.arrayIdle (k : Core) : Bool := k.clause.isNone && k.ops.all fun o => !o.kind.isArray

/-- The bank of an entry of Array_.bad. -/
def badBank (e : Nat) : Bool := decide (2 ^ 19 ≤ e)

/-- A holding ends: live banks go to the group with their poison, unless it has ended draining (R225, R226, R395). -/
def Mach.endHolding (m : Mach) (k c : Nat) (spill : Bool) : Mach :=
  let a := m.array k
  let m := m.onGroup c fun g =>
    { g with
      lostMark := a.grants
      spill0 := if spill && g.live0 then some a.bank0 else none
      spill1 := if spill && g.live1 then some a.bank1 else none
      spillBad := if spill then a.bad.filter fun e => if badBank e then g.live1 else g.live0 else [] }
  m.onArray k fun a => { a with lease := .free }

/-- Both planes, latches, banks and tags zeroed (R139, R225). -/
def Array_.zero (a : Array_) : Array_ := { a with active := .reset, shadow := .reset, bank0 := [], bank1 := [], bad := [] }

/-- A bank spilled to a save slot, read back (R383, R389). -/
def bankOfMem (img : Mem) : SMap (BitVec 32) :=
  ((img.map fun c => c.1 / 4).eraseDups).filterMap fun i =>
    let v := BitVec.ofNat 32 (Mem.nat img (4 * i) 4)
    if v = 0 then none else some (i, v)

/-- A core receives the lease: zeroing on a change of context, its banks back, and a new budget (R224, R225). -/
def Mach.grantTo (m : Mach) (k c : Nat) : Mach :=
  match (m.core c).group with
  | none => m
  | some g =>
    let a := m.array k
    let change := match a.lastGroup with | some (_, x) => decide (x ≠ g.ctx) | none => false
    let a := if change then a.zero else a
    let back (e : Nat) : Bool := if badBank e then g.spill1.isSome else g.spill0.isSome
    let a := { a with
      bank0 := g.spill0.getD a.bank0
      bank1 := g.spill1.getD a.bank1
      bad := (a.bad.filter fun e => !back e) ++ g.spillBad }
    let m := m.onGroup c fun g => { g with spill0 := none, spill1 := none, spillBad := [] }
    m.onArray k fun _ => { a with
      lease := .held c
      lastCore := some c
      lastGroup := some (g.gid, g.ctx)
      grants := a.grants + 1
      clauses := 0
      grantClock := m.clockOf (arrayClock k)
      zeroed := change }

/-- The next holder among the cores that ask: the first after the outgoing one, around (R224). -/
def nextHolder (last : Option Nat) (asks : List Nat) : Option Nat :=
  match last with
  | none => asks.head?
  | some l =>
    match asks.find? fun c => decide (l < c) with
    | some c => some c
    | none => asks.head?

/-- The lease of a free array passes to the next core that asks. -/
def pickHolder (t : Trust) (k : Nat) (m : Mach) : Mach :=
  match nextHolder (m.array k).lastCore ((t.clusterCores k).filter fun c => (m.core c).group.isSome && leaseAsks t m c) with
  | some c => m.grantTo k c
  | none => m

/-- Whether another core of the cluster asks for the lease. -/
def othersAsk (t : Trust) (m : Mach) (k c : Nat) : Bool :=
  (t.clusterCores k).any fun x => decide (x ≠ c) && (m.core x).group.isSome && leaseAsks t m x

/-- A new budget for the holder (R224). -/
def Mach.newBudget (m : Mach) (k c : Nat) : Mach :=
  m.onArray k fun a => { a with lease := .held c, clauses := 0, grantClock := m.clockOf (arrayClock k) }

/-- What a reached budget, or a lease that is ending, leads to (R224). DESIGN CHOICE: while a clause is open and no other core
asks, two rows of the table match a reached budget; here the first of them holds, and the budget is renewed (log 32). -/
def leaseOver (t : Trust) (k c : Nat) (m : Mach) : Mach :=
  if (m.core c).wants && !othersAsk t m k c then m.newBudget k c
  else if (m.core c).arrayIdle then pickHolder t k (m.endHolding k c true)
  else m.onArray k fun a => { a with lease := .ending c }

/-- Whether the budget of a grant is used up: 16 clauses or 8,192 array cycles (R224). -/
def Mach.budgetOver (m : Mach) (k : Nat) : Bool :=
  let a := m.array k
  decide (16 ≤ a.clauses) || decide (a.grantClock + 8192 ≤ m.clockOf (arrayClock k))

/-- Whether no clause of a core is open or waits for its MXDR to finish. -/
def Core.clauseEnded (k : Core) : Bool :=
  k.clause.isNone && k.ops.all fun o => match o.kind with | .mxdr .. => false | _ => true

/-- A lease that is ending goes on as with its budget reached once the open clause's MXDR has finished (R224). -/
def leaseEnding (t : Trust) (k c : Nat) (m : Mach) : Mach := if (m.core c).clauseEnded then leaseOver t k c m else m

/-- LEASE_BUDGET_END. -/
def leaseBudgetEnd (t : Trust) (k : Nat) (m : Mach) : Mach :=
  match (m.array k).lease with
  | .held c => if m.budgetOver k then leaseOver t k c m else m
  | .ending c => leaseEnding t k c m
  | _ => m

/-- LEASE_GRANT: a free lease goes to the next core that asks, a lease that is ending or that its holder no longer asks
for is passed on. -/
def leaseGrant (t : Trust) (k : Nat) (m : Mach) : Mach :=
  match (m.array k).lease with
  | .free => pickHolder t k m
  | .ending c => leaseEnding t k c m
  | .held c => if leaseAsks t m c then m else leaseOver t k c m
  | .offline => m

/-- Whether a core holds the lease for new work: a lease that is ending takes no new clause, and no WLD, WSWP, MXSQ or MXZ once
its clause is closed (R224; log 32). -/
def leaseHeld (m : Mach) (c : Nat) : Bool :=
  match (m.array (clusterOf c)).lease with
  | .held x => decide (x = c)
  | .ending x => decide (x = c) && (m.core c).clause.isSome
  | _ => false

/-- Whether a core holds the lease for a LEASE.acq: one that is ending is still the core's, unless its group has given it up by a
LEASE.rel (R224, R226). -/
def leaseHolds (m : Mach) (c : Nat) : Bool :=
  match (m.array (clusterOf c)).lease with
  | .held x => decide (x = c)
  | .ending x => decide (x = c) && (m.core c).wants
  | _ => false

/-- Check 2 of R231. -/
def Env.needLease (e : Env) (m : Mach) : Chk Unit := do
  must (decide ((m.array (clusterOf e.c)).lease ≠ .offline) && (m.core e.c).wants) (e.trapWord tLease)
  must (leaseHeld m e.c) (.stall 6)

/-- LEASE.acq's status word (R226); own is how many of the grants since the group's last holding are its own. -/
def leaseWord (a : Array_) (g : Group) (own : Nat) : Word :=
  let mine (p : WPlane) : Nat := if p.tag = some g.gid then 1 else 0
  let lost := if g.lostMark ≠ 0 ∧ g.lostMark + own < a.grants then 1 else 0
  BitVec.ofNat 64 (lost * 16 + (if a.zeroed then 8 else 0) + (if g.bank then 4 else 0) + mine a.shadow * 2 + mine a.active)

/-- LEASE.acq (R226): on an offline array it grants nothing, so its word reports no zeroing and the report of a lost lease stays
for the next grant. -/
def leaseAcqBody (d : Dst) (e : Env) (m : Mach) : Chk Mach := do
  let (l, m) ← acqChecks d e m
  let a := m.array (clusterOf e.c)
  if a.lease = .offline then
    let v := ((m.core e.c).group.map fun g => leaseWord { a with zeroed := false } g 0).getD 0
    .ok (e.startValues (m.onGroup e.c fun g => { g with want := true }) [l.put (v + 0x20)] 0 [])
  else
    must (leaseHolds m e.c) (.stall 6)
    match (m.core e.c).group with
    | none => .error (.stall 6)
    | some g =>
      let v := leaseWord a g 1
      .ok (e.startValues (m.onGroup e.c fun g => { g with want := true, lostMark := 0 }) [l.put v] 0 [])

/-- LEASE.rel: the want ends, and a lease that is held is given up (R223, R224, R226); an array that is offline raises LEASE
(R243). -/
def leaseRelBody (e : Env) (m : Mach) : Chk Mach := do
  must ((m.core e.c).clause.isNone) (e.trapWord tClause)
  let k := clusterOf e.c
  must (decide ((m.array k).lease ≠ .offline)) (e.trapWord tLease)
  let m := m.onGroup e.c fun g => { g with want := false }
  let m := match (m.array k).lease with
    | .held x => if x = e.c then m.onArray k fun a => { a with lease := .ending x } else m
    | _ => m
  .ok (e.startValues m [] 0 [])

/-! ### Checks of the clause (R230, R231) -/

/-- Whether a source pops a queue. -/
def Src.pops : Src → Bool
  | .pop _ => true
  | _ => false

/-- A body instruction or a closing MXDR inside a clause: no pops and no tokens (R230). -/
def Env.plainBody (e : Env) (l : List Src) (closing : Bool) : Chk Unit :=
  must (!l.any Src.pops && !e.tok.wu && !e.tok.wd && (closing || (!e.tok.pu && !e.tok.pd))) (e.trapWord tClause)

/-- The bracket rule: an instruction that needs an open clause. -/
def Env.inClause (e : Env) (m : Mach) (l : List Src) (closing : Bool) : Chk Clause :=
  match (m.core e.c).clause with
  | none => .error (e.trapWord tClause)
  | some cl => do
    e.plainBody l closing
    .ok cl

/-- An instruction allowed in and out of a clause. -/
def Env.maybeClause (e : Env) (m : Mach) (l : List Src) : Chk Unit :=
  if (m.core e.c).clause.isSome then e.plainBody l false else .ok ()

/-- The clause changed. -/
def Mach.setClause (m : Mach) (c : Nat) (cl : Clause) : Mach := m.onCore c fun k => { k with clause := some cl }

/-- The 512-byte lines of a range, as line address, first byte and length. -/
def linesOf (a n : Nat) : List (Nat × Nat × Nat) :=
  (List.range ((a + n - 1) / 512 + 1 - a / 512)).map fun i =>
    let l := (a / 512 + i) * 512
    (l, max a l, min (a + n) (l + 512) - max a l)

/-- Checks 6 to 8 of R231 for every line named, each check for all lines before the next one; a global range lies in one
slice. -/
def Env.linesOk (e : Env) (m : Mach) (dev store : Bool) (ls : List (Nat × Nat × Nat)) : Chk Unit := do
  let k := m.core e.c
  let sp : Space := if dev then .dev else .glb
  let slice := ((ls.headD (0, 0, 0)).1) / 2 ^ 22
  ls.forM fun l => must (e.trust.spaceOk sp l.1 && (dev || decide (l.1 / 2 ^ 22 = slice))) (.trap tSpace (BitVec.ofNat 64 l.1))
  ls.forM fun l =>
    if dev then
      match translate e.trust m k.ctx l.1 with
      | .fault => .error (.trap tXlate (BitVec.ofNat 64 l.1))
      | .poison pa =>
        let (d, b, i) := m.homeErr true pa
        .error (.lost d b i)
      | .leaf _ wr sv => must ((!store || wr) && (!sv || (k.seq e.q).status.super)) (.trap tProt (BitVec.ofNat 64 l.1))
    else .ok ()
  ls.forM fun l => must (m.keyOk e.c sp l.2.1 l.2.2 store) (.trap tNokey (BitVec.ofNat 64 l.1))

/-- FMTRSV unless a condition holds. -/
def Env.formatOk (e : Env) (b : Bool) : Chk Unit := must b (e.trapWord tFmtrsv)

/-! ### The instructions (R227 to R238) -/

/-- Bytes of a plane image (R227). -/
def imageBytes : WldWidth → Nat
  | .b8 => 0x100000
  | .b16 => 0x200000

/-- The plane that a WLD starting now loads takes the group's tag (R219): the shadow plane as the WSWP before it leave it. -/
def Mach.tagPlane (m : Mach) (c : Nat) : Mach :=
  let k := m.core c
  let swaps := (k.ops.filter fun o => decide (o.kind = .wswp)).length
  let tag := k.group.map Group.gid
  m.onArray (clusterOf c) fun a =>
    if swaps % 2 = 1 then { a with active := { a.active with tag := tag } } else { a with shadow := { a.shadow with tag := tag } }

/-- WLD (R227). -/
def wldBody (ks : Bool) (w : WldWidth) (dev : Bool) (a : Src) (e : Env) (m : Mach) : Chk Mach := do
  let (v, m) ← e.src m a
  e.maybeClause m [a]
  e.needLease m
  must (decide (v.toNat % 512 = 0)) (.trap tAlign v)
  e.linesOk m dev false (linesOf v.toNat (imageBytes w))
  .ok (e.start (m.tagPlane e.c) (.wld ks w dev v.toNat) [] 0 [] (some ⟨if dev then .dev else .glb, v.toNat, imageBytes w, none⟩)).2

/-- WSWP (R228). -/
def wswpBody (e : Env) (m : Mach) : Chk Mach := do
  must ((m.core e.c).clause.isNone) (e.trapWord tClause)
  e.needLease m
  .ok (e.start m .wswp [] 0 [] none).2

/-- MXSQ (R229). -/
def mxsqBody (a b : Src) (e : Env) (m : Mach) : Chk Mach := do
  let (x, y, m) ← e.src2 m a b
  e.maybeClause m [a, b]
  e.needLease m
  let s := wbits y 7 0
  let count := wbits y 15 8 + 1
  e.formatOk (decide (wbits y 63 16 = 0) && decide (s + count ≤ 256))
  must (decide (x.toNat % 512 = 0)) (.trap tAlign x)
  must (decide (x.toNat + 512 * count ≤ 0x80000)) (.trap tSpace x)
  .ok (e.start (m.ownLocal e.c x.toNat (512 * count)) (.mxsq x.toNat s count) [] 0 [] none).2

/-- MXH (R233). -/
def mxhBody (h : MxHeader) (e : Env) (m : Mach) : Chk Mach := do
  must ((m.core e.c).clause.isNone && decide (e.tok = .none)) (e.trapWord tClause)
  e.needLease m
  e.formatOk ((passForm h).isSome && outFormat h.ofmt)
  let m := m.setClause e.c ⟨h, (m.seq e.c e.q).pc, 0, none, none, none, none, m.ids, []⟩
  .ok (e.startValues m [] 0 [])

/-- MXA (R234). -/
def mxaBody (sc : Bool) (a b : Src) (e : Env) (m : Mach) : Chk Mach := do
  let (x, y, m) ← e.src2 m a b
  let cl ← e.inClause m [a, b] false
  must ((!cl.header.sparse || cl.md.isSome) && (!cl.header.grp || cl.groups.isSome)) (e.trapWord tClause)
  e.needLease m
  e.formatOk (decide (wbits y 15 9 = 0 ∧ wbits y 63 35 = 0))
  let count := wbits y 8 0 + 1
  let stride := wbits y 34 16
  let n := rowBytes (clauseForm cl) sc
  must (decide (x.toNat % 64 = 0)) (.trap tAlign x)
  must (decide (stride % 64 = 0)) (.trap tAlign (BitVec.ofNat 64 stride))
  must (decide (x.toNat + (count - 1) * stride + n ≤ 0x80000)) (.trap tSpace x)
  let limit := match cl.groups with | some cs => cs.foldl (· + ·) 0 | none => MxRows cl.header
  must (decide (cl.rows + count ≤ limit)) (e.trapWord tClause)
  let m := (List.range count).foldl (fun m i => m.ownLocal e.c (x.toNat + i * stride) n) m
  let m := m.setClause e.c { cl with rows := cl.rows + count }
  .ok (e.start m (.mxa x.toNat stride count n sc) [] 0 [] none).2

/-- MXMD (R235). -/
def mxmdBody (a : Src) (e : Env) (m : Mach) : Chk Mach := do
  let (x, m) ← e.src m a
  let cl ← e.inClause m [a] false
  must (decide (cl.rows = 0) && cl.md.isNone && cl.header.sparse) (e.trapWord tClause)
  e.needLease m
  let base := wbits x 18 0
  e.formatOk (decide (wbits x 63 26 = 0 ∧ wbits x 25 24 = 0 ∧ wbits x 23 19 = 0))
  must (decide (base % 256 = 0)) (.trap tAlign (BitVec.ofNat 64 base))
  must (decide (base + 16384 ≤ 0x80000)) (.trap tSpace (BitVec.ofNat 64 base))
  let m := (m.ownLocal e.c base 16384).setClause e.c { cl with md := some base }
  .ok (e.startValues m [] 0 [])

/-- MXGR (R236). -/
def mxgrBody (g : BitVec 2) (a b : Src) (e : Env) (m : Mach) : Chk Mach := do
  let (x, y, m) ← e.src2 m a b
  let cl ← e.inClause m [a, b] false
  must (decide (cl.rows = 0) && cl.groups.isNone && cl.header.grp) (e.trapWord tClause)
  e.needLease m
  let cs := ((List.range 8).map fun i => wbits (if i < 4 then x else y) (16 * (i % 4) + 15) (16 * (i % 4))).take (2 ^ g.toNat)
  let sum := cs.foldl (· + ·) 0
  must (decide (sum ≤ MxRows cl.header)) (.trap tRagged (BitVec.ofNat 64 sum))
  .ok (e.startValues (m.setClause e.c { cl with groups := some cs }) [] 0 [])

/-- MXZ: inside a clause it precedes the pass (R237). -/
def mxzBody (both : Bool) (e : Env) (m : Mach) : Chk Mach := do
  match (m.core e.c).clause with
  | none =>
    e.needLease m
    .ok (e.start m (.mxz both) [] 0 [] none).2
  | some cl =>
    e.plainBody [] false
    must (decide (cl.rows = 0)) (e.trapWord tClause)
    e.needLease m
    .ok (e.startValues (m.setClause e.c { cl with zero := some (both || cl.zero = some true) }) [] 0 [])

/-- The rows that a clause delivers: M, or the group sum (R230). -/
def Clause.full (cl : Clause) : Bool :=
  decide (cl.rows = match cl.groups with | some cs => cs.foldl (· + ·) 0 | none => MxRows cl.header)

/-- The clause is closed and its drain accepted. -/
def Env.closeClause (e : Env) (m : Mach) (cl : Clause) (drain : Option (Rnd × Bool × Nat × Nat)) (fin : List Fin_) : Mach :=
  (e.start (m.onCore e.c fun k => { k with clause := none }) (.mxdr cl false drain) [] 0 fin none).2

/-- MXDR.m (R238). -/
def mxdrBody (mode : Rnd) (a b : Src) (e : Env) (m : Mach) : Chk Mach := do
  let (x, y, m) ← e.src2 m a b
  let cl ← e.inClause m [a, b] true
  e.needLease m
  let dev := wbit y 63
  let stride := wbits y 31 0
  let w := 1024 * (fmtW cl.header.ofmt / 8)
  e.formatOk (decide (wbits y 62 32 = 0 ∧ w ≤ stride))
  must (decide (x.toNat % 64 = 0)) (.trap tAlign x)
  must (decide (stride % 64 = 0)) (.trap tAlign (BitVec.ofNat 64 stride))
  let rows := MxRows cl.header
  e.linesOk m dev true ((List.range rows).flatMap fun i => linesOf (x.toNat + i * stride) w)
  must cl.full (e.trapWord tClause)
  .ok (e.closeClause m cl (some (mode, dev, x.toNat, stride)) [.lines ⟨dev, x.toNat, (rows - 1) * stride + w⟩])

/-- MXDR.keep (R238). -/
def mxdrKeepBody (e : Env) (m : Mach) : Chk Mach := do
  let cl ← e.inClause m [] true
  e.needLease m
  must cl.full (e.trapWord tClause)
  .ok (e.closeClause m cl none [])

/-! ### The array applies them in issue order (R221) -/

/-- The earlier operations of a core. -/
def Core.noEarlier (k : Core) (o : Nat) (p : OpKind → Bool) : Bool := (k.earlier o).all fun x => !p x.kind

/-- A closed clause whose pass has not run. -/
def OpKind.unpassed : OpKind → Bool
  | .mxdr _ false _ => true
  | _ => false
/-- A clause that drains its bank. -/
def OpKind.draining : OpKind → Bool
  | .mxdr _ _ (some _) => true
  | _ => false
/-- WLD, WSWP and MXSQ. -/
def OpKind.onPlanes : OpKind → Bool
  | .wld .. | .wswp | .mxsq .. => true
  | _ => false

/-- The bank that an operation's clause uses: the pointer, flipped by each drain before it (R220, R238). -/
def Core.bankFor (k : Core) (o : Nat) : Bool :=
  let n := ((k.earlier o).filter fun x => x.kind.draining).length
  (match k.group with | some g => g.bank | none => false) != decide (n % 2 = 1)

/-- Whether a drain of a bank, or of either, is still to come before an operation (R241). -/
def Core.bankBusy (k : Core) (o : Nat) (bank : Bool) (both : Bool) : Bool :=
  (k.earlier o).any fun x => x.kind.draining && (both || decide (k.bankFor x.id = bank))

/-- A bank of an array. -/
def Array_.bank (a : Array_) (b : Bool) : SMap (BitVec 32) := if b then a.bank1 else a.bank0
/-- A bank replaced. -/
def Array_.setBank (a : Array_) (b : Bool) (x : SMap (BitVec 32)) : Array_ := if b then { a with bank1 := x } else { a with bank0 := x }
/-- The live bit of a bank replaced (R220). -/
def Group.setLive (g : Group) (b live : Bool) : Group := if b then { g with live1 := live } else { g with live0 := live }

/-- MXZ's effect on a bank, or on both (R237). -/
def Mach.zeroBanks (m : Mach) (c : Nat) (b both : Bool) : Mach :=
  let m := m.onArray (clusterOf c) fun a =>
    let a := { a.setBank b [] with bad := a.bad.filter fun e => !both && decide (badBank e ≠ b) }
    if both then a.setBank (!b) [] else a
  m.onGroup c fun g =>
    let g := g.setLive b true
    if both then g.setLive (!b) true else g

/-- Poison in local SRAM is consumed by an operation, which ends without effect (R395). -/
def Mach.losePoisonLocal (t : Trust) (m : Mach) (c : Nat) (op : Op) (a : Nat) : Mach :=
  let ctx := (m.core c).ctx
  let tile := t.logical (dieOf c) (physOf c)
  (m.dropOp c op.id).consume (dieOf c) 1 ⟨BitVec.ofNat 64 a, 0, some ctx, BitVec.ofNat 6 tile, 0, 0⟩ ctx (dieOf c) tile
    (seqIndex op.seq)

/-- The cells of a plane from an image: two bytes a cell, bits <15:8> clear for b8 (R227). -/
def cellsOf (w : WldWidth) (img : Mem) : Mem :=
  match w with
  | .b8 => img.map fun c => (2 * c.1, c.2)
  | .b16 => img

/-- WLD's effect on the shadow plane, whose tag it set as it started (R219, R227). -/
def WPlane.load (p : WPlane) (ks : Bool) (w : WldWidth) (img : Mem) : WPlane :=
  { p with
    cells := cellsOf w img
    base := if ks then p.base else 0x7F
    scales := if ks then p.scales else [] }

/-- MXSQ's effect on the shadow latches (R229). -/
def WPlane.latch (p : WPlane) (s : Nat) (bs : List Byte) : WPlane :=
  { p with scales := (bs.zipIdx).foldl (fun m x => SMap.put p.base m (512 * s + x.2) x.1) p.scales }

/-- Rows of A captured from local space (R234). -/
def captureRows (k : Core) (first a stride count n : Nat) (sc : Bool) : List (Nat × ARow) :=
  (List.range count).map fun i => (first + i, ⟨k.local_.slice (a + i * stride) n, sc⟩)

/-- The array has carried out an operation: each clause opened before it whose pass has not run keeps it for a restart. Of one that
follows the clause it keeps the bytes that were loaded, so that a restart, which reads the clause's own body again, leaves the shadow
plane as the order of issue does (R221, R229, R232). -/
def Core.noteBody (k : Core) (o : Nat) (x after : BodyItem) : Core :=
  let note (x : BodyItem) (cl : Clause) : Clause := if cl.first ≤ o then { cl with body := cl.body ++ [x] } else cl
  let again (op : Op) : Op := match op.kind with
    | .mxdr cl false d => { op with kind := .mxdr (note (if o < op.id then x else after) cl) false d }
    | _ => op
  { k with clause := k.clause.map (note x), ops := k.ops.map again }

/-- The bytes that a WLD or MXSQ loads now. -/
def BodyItem.bytes (t : Trust) (c : Nat) (m : Mach) : BodyItem → BodyItem
  | .wld ks w dev a => .loaded ks w (m.piecesImage dev (pieces t m (m.core c).ctx dev a (imageBytes w)))
  | .mxsq a s count => .latched s ((m.core c).local_.read a (512 * count))
  | x => x

/-- The array takes an operation, which finishes. -/
def Mach.arrayTakes (t : Trust) (m : Mach) (c : Nat) (op : Op) (x : BodyItem) : Mach :=
  (m.onCore c fun k => k.noteBody op.id x (x.bytes t c m)).finish c op

/-- What an array operation that reads memory does: it waits for a slice, it consumes poison, or it goes on. -/
inductive ArrayIo where
  | wait (a : Nat)
  | lost (home dev : Bool) (a : Nat)
  | ok (m : Mach)

/-- WLD, MXSQ and MXA carried out with the bytes as they are now, or with those they loaded (R227, R229, R232, R234). -/
def BodyItem.run (t : Trust) (c : Nat) (m : Mach) : BodyItem → ArrayIo
  | .wld ks w dev a =>
    let k := m.core c
    if !dev && (m.retainedSlice a).isSome then .wait a
    else
      match m.rangePoison t k.ctx dev a (imageBytes w) with
      | some p => .lost true dev p
      | none =>
        let m := if dev then m else m.touchSlice a
        let img := m.piecesImage dev (pieces t m k.ctx dev a (imageBytes w))
        .ok (m.onArray (clusterOf c) fun x => { x with shadow := x.shadow.load ks w img })
  | .mxsq a s count =>
    match poisonIn (m.core c).localPoison a (512 * count) with
    | some p => .lost false false p
    | none => .ok (m.onArray (clusterOf c) fun x => { x with shadow := x.shadow.latch s ((m.core c).local_.read a (512 * count)) })
  | .mxa a stride count n sc =>
    match (List.range count).findSome? fun i => poisonIn (m.core c).localPoison (a + i * stride) n with
    | some p => .lost false false p
    | none => .ok (m.onCore c fun k => { k with aRows := k.aRows ++ captureRows k k.aRows.length a stride count n sc })
  | .loaded ks w img => .ok (m.onArray (clusterOf c) fun x => { x with shadow := x.shadow.load ks w img })
  | .latched s bs => .ok (m.onArray (clusterOf c) fun x => { x with shadow := x.shadow.latch s bs })

/-- An array operation that reads memory is served. -/
def Mach.arrayReads (t : Trust) (m : Mach) (c : Nat) (op : Op) (x : BodyItem) : Mach :=
  match x.run t c m with
  | .wait a => m.touchSlice a
  | .lost true dev a => m.losePoison t c op dev a
  | .lost false _ a => m.losePoisonLocal t c op a
  | .ok m => m.arrayTakes t c op x

/-- WLD, WSWP, MXA, MXSQ and MXZ are acknowledged, in issue order. -/
def serveArray (t : Trust) (c : Nat) (op : Op) (m : Mach) : Mach :=
  let k := m.core c
  let key := clusterOf c
  match op.kind with
  | .wld ks w dev a =>
    let n := imageBytes w
    let ready := k.noEarlier op.id OpKind.onPlanes &&
      k.posted.all fun p => decide (op.id < p.id) || !(decide (p.space = if dev then .dev else .glb) && overlaps p.ea p.data.length a n)
    if ready then m.arrayReads t c op (.wld ks w dev a) else m
  | .wswp =>
    if k.noEarlier op.id fun x => x.onPlanes || x.unpassed then
      (m.onArray key fun x => { x with active := x.shadow, shadow := x.active }).finish c op
    else m
  | .mxsq a s count =>
    if k.noEarlier op.id OpKind.onPlanes then m.arrayReads t c op (.mxsq a s count) else m
  | .mxa a stride count n sc =>
    if k.later.isEmpty && k.noEarlier op.id fun x => x.unpassed || (match x with | .mxa .. => true | _ => false) then
      m.arrayReads t c op (.mxa a stride count n sc)
    else m
  | .mxz both =>
    let b := k.bankFor op.id
    if (k.noEarlier op.id fun x => x.unpassed || (match x with | .mxz _ => true | _ => false)) && !k.bankBusy op.id b both then
      (m.zeroBanks c b both).finish c op
    else m
  | _ => m

/-! ### ARRAY_PASS (R239, R242, R243) -/

/-- Whether the array still checks (R242, R243). -/
def Array_.checks (a : Array_) : Bool := a.repl.isNone && !a.spBad

/-- The bank record of the spare row (R390): bank 4, a die-level tile, row and column. -/
def spareErr (ctx : BitVec 6) (row col : Nat) : ErrInfo := ⟨BitVec.ofNat 64 (row * 1024 + col), 0, some ctx, 0x3F, 0, 0⟩

/-- The pass itself: MXZ of its clause, the rows into the bank, the live bit, and the count of passes. -/
def runPass (c : Nat) (op : Op) (cl : Clause) (drain : Option (Rnd × Bool × Nat × Nat)) (m : Mach) : Mach :=
  let k := m.core c
  let key := clusterOf c
  let b := k.bankFor op.id
  let m := match cl.zero with | some both => m.zeroBanks c b both | none => m
  let a := m.array key
  let tile := match cl.md with | some x => k.local_.slice x 16384 | none => []
  let m := m.onArray key fun x => { (x.setBank b (passInto cl a.active tile k.aRows (a.bank b))) with passes := x.passes + 1 }
  let m := if k.aRows.isEmpty then m else m.onGroup c fun g => g.setLive b true
  m.onCore c fun k => { (k.setOp { op with kind := .mxdr cl true drain }) with aRows := [] }

/-- The first poisoned entry of a bank in given rows and columns that a pass or a drain would read (R395). -/
def Array_.badIn (a : Array_) (b : Bool) (p : Nat → Nat → Bool) : Option Nat :=
  a.bad.find? fun e => decide (badBank e = b) && p (e % 2 ^ 19 / 1024) (e % 1024)

/-- The poisoned entry that a pass would add to. -/
def Mach.passBad (m : Mach) (c : Nat) (op : Op) (cl : Clause) : Option Nat :=
  let b := (m.core c).bankFor op.id
  if cl.zero.isSome then none
  else (m.array (clusterOf c)).badIn b fun r n => (m.core c).aRows.any fun x => decide (x.1 = r) && (rowColumns cl.groups r).contains n

/-- A poisoned accumulator is consumed by an operation, which ends without effect (R395; log 139). -/
def Mach.loseEntry (t : Trust) (m : Mach) (c : Nat) (op : Op) (x : Nat) : Mach :=
  let ctx := (m.core c).ctx
  let tile := t.logical (dieOf c) (physOf c)
  (m.dropOp c op.id).consume (dieOf c) 4 ⟨BitVec.ofNat 64 x, 0, some ctx, BitVec.ofNat 6 tile, 0, 0⟩ ctx (dieOf c) tile (seqIndex op.seq)

/-- How a restart ends. -/
inductive Restart where
  | wait (a : Nat)
  | lost (m : Mach)
  | ok (m : Mach)

/-- A clause's body carried out again, in its order (R232). -/
def rerunFrom (t : Trust) (c : Nat) (op : Op) : List BodyItem → Mach → Restart
  | [], m => .ok m
  | x :: r, m =>
    match x.run t c m with
    | .wait a => .wait a
    | .lost true dev a => .lost (m.losePoison t c op dev a)
    | .lost false _ a => .lost (m.losePoisonLocal t c op a)
    | .ok m => rerunFrom t c op r m

/-- A clause restarts: its body runs again with the bytes as they are now (R232, R243). -/
def rerun (t : Trust) (c : Nat) (op : Op) (cl : Clause) (m : Mach) : Restart :=
  rerunFrom t c op cl.body (m.onCore c fun k => { k with aRows := [] })

/-- The first clause of a core whose pass waits, if the array can run it now. -/
def Core.nextPass (k : Core) : Option (Op × Clause × Option (Rnd × Bool × Nat × Nat)) :=
  match k.ops.find? fun o => o.kind.unpassed with
  | none => none
  | some op =>
    match op.kind with
    | .mxdr cl false d =>
      let b := k.bankFor op.id
      let both := cl.zero = some true
      if (k.noEarlier op.id fun x => (match x with | .wswp => true | .mxa .. => true | .mxz _ => true | _ => false)) &&
          !k.bankBusy op.id b both then some (op, cl, d) else none
    | _ => none

/-- ARRAY_PASS: what the spare row finds decides (R242, R243); without a check the pass runs. A row that the spare replaces is
recorded as a corrected error too (log 151). -/
def arrayPass (t : Trust) (key : Nat) (spare : SpareOutcome) (m : Mach) : Mach :=
  let a := m.array key
  let holder := match a.lease with | .held c => some c | .ending c => some c | _ => none
  match holder with
  | none => m
  | some c =>
    match (m.core c).nextPass with
    | none => m
    | some (op, cl, d) =>
      let ctx := (m.core c).ctx
      let row := a.chkrow
      let die := key / 9
      let poison := match cl.md with | some x => poisonIn (m.core c).localPoison x 16384 | none => none
      match poison with
      | some w => m.losePoisonLocal t c op w
      | none =>
        match m.passBad c op cl with
        | some x => m.loseEntry t c op x
        | none =>
        match spare with
        | .transient col =>
          if a.checks && decide (row < 1024) then runPass c op cl d (m.bankError die 4 false false (spareErr ctx row col))
          else runPass c op cl d m
        | .replaces col =>
          if a.checks && decide (row < 1024) then
            match rerun t c op cl m with
            | .wait a => m.touchSlice a
            | .lost m => m
            | .ok m => (m.bankError die 4 false false (spareErr ctx row col)).onArray key fun a => { a with repl := some (row, col) }
          else runPass c op cl d m
        | .neither col =>
          if a.checks && decide (row < 1024) then
            let m := (m.onArray key fun a => { a with lease := .offline }).dropOp c op.id
            m.bankError die 4 true true (spareErr ctx row col) |>.notify
              { ctx := ctx, reason := 2, trap := 0, die := die, core := t.logical (dieOf c) (physOf c), seq := 2,
                addr := BitVec.ofNat 64 (row * 1024 + col), event := Bank.word0 true true false true 0 (some ctx) 0x3F }
          else runPass c op cl d m
        | .testFails =>
          if a.checks && decide (row = 1024) then
            runPass c op cl d ((m.bankError die 4 true false (spareErr ctx row 0)).onArray key fun a => { a with spBad := true })
          else runPass c op cl d m
        | .agrees => runPass c op cl d m

/-! ### The drain (R238) -/

/-- One row of a drain: its bytes and flags. -/
def drainRow (f : Fmt) (mode : Rnd) (bank : SMap (BitVec 32)) (r : Nat) : List Byte × BitVec 7 :=
  let rs := (List.range 1024).map fun n =>
    let v := (SMap.getD bank (1024 * r + n) 0).toNat
    if f = .f32 then ⟨v, 0⟩ else convTo f mode false 0 (fmtValue .f32 v)
  (rs.flatMap fun x => leBytes (fmtW f / 8) x.bits, rs.foldl (fun fl x => fl ||| x.flags) 0)

/-- The rows written, with the flags that the conversions set. -/
def drainRows (t : Trust) (ctx : BitVec 6) (f : Fmt) (mode : Rnd) (dev : Bool) (base stride : Nat) (bank : SMap (BitVec 32)) :
    List Nat → Mach → Mach × BitVec 7
  | [], m => (m, 0)
  | r :: rs, m =>
    let (bs, fl) := drainRow f mode bank r
    let m := m.piecesWrite dev (pieces t m ctx dev (base + r * stride) bs.length) (Mem.ofBytes bs)
    let (m, fl') := drainRows t ctx f mode dev base stride bank rs m
    (m, fl ||| fl')

/-- An MXDR is acknowledged after its pass: the drain, the pointer, the live bit, and the count of clauses (R224, R238). -/
def serveMxdr (t : Trust) (c : Nat) (op : Op) (m : Mach) : Mach :=
  let key := clusterOf c
  let k := m.core c
  match op.kind with
  | .mxdr cl true drain =>
    if !(k.noEarlier op.id fun x => match x with | .mxdr .. => true | _ => false) then m
    else
      let count (m : Mach) : Mach := leaseBudgetEnd t key (m.onArray key fun a => { a with clauses := a.clauses + 1 })
      match drain with
      | none => count (m.finish c op)
      | some (mode, dev, base, stride) =>
        if !dev && (m.retainedSlice base).isSome then m.touchSlice base
        else
          let b := k.bankFor op.id
          let rows := MxRows cl.header
          match (m.array key).badIn b fun r _ => decide (r < rows), walkPoison t m k.ctx dev base ((rows - 1) * stride + 1024 * (fmtW cl.header.ofmt / 8)) with
          | some x, _ => m.loseEntry t c op x
          | none, some w => m.losePoison t c op true w
          | none, none =>
          let m := if dev then m else m.touchSlice base
          let (m, fl) := drainRows t k.ctx cl.header.ofmt mode dev base stride ((m.array key).bank b)
            (List.range rows) m
          let m := m.onGroup c fun g => { (g.setLive b false) with bank := !g.bank }
          count (m.finish c { op with flags := fl })
  | _ => m

/-! ### Meanings -/

/-- LEASE.acq (R226). -/
def execLeaseAcq (t : Tok) (d : Dst) (s : State) : Host.Outcome State Fault Refusal :=
  attemptNext (.leaseAcq t d) (leaseAcqBody d) s
/-- LEASE.rel (R226). -/
def execLeaseRel (t : Tok) (s : State) : Host.Outcome State Fault Refusal := attemptNext (.leaseRel t) leaseRelBody s
/-- WLD (R227). -/
def execWld (t : Tok) (ks : Bool) (w : WldWidth) (dev : Bool) (a : Src) (s : State) : Host.Outcome State Fault Refusal :=
  attemptNext (.wld t ks w dev a) (wldBody ks w dev a) s
/-- WSWP (R228). -/
def execWswp (t : Tok) (s : State) : Host.Outcome State Fault Refusal := attemptNext (.wswp t) wswpBody s
/-- MXH (R233). -/
def execMxh (t : Tok) (h : MxHeader) (s : State) : Host.Outcome State Fault Refusal := attemptNext (.mxh t h) (mxhBody h) s
/-- MXA (R234). -/
def execMxa (t : Tok) (sc : Bool) (a b : Src) (s : State) : Host.Outcome State Fault Refusal :=
  attemptNext (.mxa t sc a b) (mxaBody sc a b) s
/-- MXSQ (R229). -/
def execMxsq (t : Tok) (a b : Src) (s : State) : Host.Outcome State Fault Refusal := attemptNext (.mxsq t a b) (mxsqBody a b) s
/-- MXMD (R235). -/
def execMxmd (t : Tok) (a : Src) (s : State) : Host.Outcome State Fault Refusal := attemptNext (.mxmd t a) (mxmdBody a) s
/-- MXGR (R236). -/
def execMxgr (t : Tok) (g : BitVec 2) (a b : Src) (s : State) : Host.Outcome State Fault Refusal :=
  attemptNext (.mxgr t g a b) (mxgrBody g a b) s
/-- MXDR.m (R238). -/
def execMxdr (t : Tok) (m : Rnd) (a b : Src) (s : State) : Host.Outcome State Fault Refusal :=
  attemptNext (.mxdr t m a b) (mxdrBody m a b) s
/-- MXDR.keep (R238). -/
def execMxdrKeep (t : Tok) (s : State) : Host.Outcome State Fault Refusal := attemptNext (.mxdrKeep t) mxdrKeepBody s
/-- MXZ (R237). -/
def execMxz (t : Tok) (both : Bool) (s : State) : Host.Outcome State Fault Refusal := attemptNext (.mxz t both) (mxzBody both) s
/-- LEASE_GRANT (R224, R225). -/
def execLeaseGrant (die cluster : Nat) (s : State) : Host.Outcome State Fault Refusal :=
  .next { s with mach := leaseGrant s.trust (9 * die + cluster) s.mach }
/-- LEASE_BUDGET_END (R224). -/
def execLeaseBudgetEnd (die cluster : Nat) (s : State) : Host.Outcome State Fault Refusal :=
  .next { s with mach := leaseBudgetEnd s.trust (9 * die + cluster) s.mach }
/-- ARRAY_PASS (R239, R242, R243). -/
def execArrayPass (die cluster : Nat) (spare : SpareOutcome) (s : State) : Host.Outcome State Fault Refusal :=
  .next { s with mach := arrayPass s.trust (9 * die + cluster) spare s.mach }

end Sys2Proof.Machine
end

