-- ==== Sys2Proof/Machine/MemInst.lean ====
section
/-! DEFINITION. Loads, stores, PFD and LOC (R115 to R133), and the acknowledgement of a posted write. -/

namespace Sys2Proof.Machine

/-! ### Forms -/

/-- Bytes of an access (R38). -/
def sizeBytes : MSize → Nat
  | .b4 => 4 | .b8 => 8 | .b512 => 512

/-- The effective address (R38). -/
def effAddr (base : Word) (imm : BitVec 8) (s : MSize) : Word := base + sext64 imm * BitVec.ofNat 64 (sizeBytes s)

/-- The address operand and the effective address. -/
def Env.ea (e : Env) (m : Mach) (a : Src) (imm : BitVec 8) (s : MSize) : Chk (Word × Mach) := do
  let (b, m) ← e.src m a
  .ok (effAddr b imm s, m)

/-- The slot a load's result goes to (R41, R121). -/
def Env.loadDst (e : Env) (m : Mach) (q : BitVec 4) (s : MSize) (pending : Bool) : Chk (Landing × Mach) :=
  if s = .b512 then e.dstV m (.queue q) (if pending then .pending else .inFlight)
  else e.dst m (.queue q) (if pending then .pending else .inFlight)

/-- A landing place given the bytes loaded (R121). -/
def Landing.putBytes (l : Landing) (tag : Fmt) (bs : List Byte) : Landing :=
  (l.put (BitVec.ofNat 64 (leNat bs))).putV ⟨tag, vbitsOf bs⟩

/-- The bytes that a store writes, its data queue popped or peeked (R121). -/
def Env.storeData (e : Env) (m : Mach) (pk : Bool) (q : BitVec 4) (s : MSize) : Chk (List Byte × Mach) := do
  let src : Src := if pk then .peek q else .pop q
  if s = .b512 then
    let (v, m) ← e.srcV m src
    .ok (match v with | .entry x => vbytes x.bits | _ => [], m)
  else
    let (v, m) ← e.src m src
    .ok (leBytes (sizeBytes s) v.toNat, m)

/-- ALIGN of an effective address (R38). -/
def alignOk (ea : Word) (n : Nat) : Bool := decide (ea.toNat % n = 0)

/-! ### The read-stage buffer (R127, R450) -/

/-- The staged line of an address. -/
def Core.line (k : Core) (dev : Bool) (a : Nat) : Option Line :=
  k.lines.find? fun l => decide (l.dev = dev ∧ l.base = a / 512 * 512)

/-- A store lies in a staged line, which takes its bytes (R128). -/
def Line.update (l : Line) (p : Posted) : Line :=
  if decide (l.dev = decide (p.space = .dev)) && decide (p.space ≠ .blk) && inside p.ea p.data.length l.base 512 then
    { l with
      data := l.data.write (p.ea - l.base) p.data
      poison := poisonClear l.poison (p.ea - l.base) p.data.length }
  else l

/-- The line of an address as it would be staged from home, with the core's own stores that have not drained laid over it, so
that no load misses them once they have (R129). -/
def Mach.lineAt (m : Mach) (c : Nat) (dev : Bool) (a home : Nat) : Line :=
  let base := home / 512 * 512
  ((m.core c).posted.filter Posted.live).foldl Line.update
    ⟨dev, a / 512 * 512, (m.home dev).slice base 512, poisonSlice (m.homePoison dev) base 512⟩

/-- The line of an address staged: from home when it is not; a full buffer loses a line of the free value's choice (R450). -/
def Mach.stage (m : Mach) (c : Nat) (dev : Bool) (a home : Nat) : Line × Mach :=
  let k := m.core c
  match k.line dev a with
  | some l => (l, m)
  | none =>
    let l := m.lineAt c dev a home
    if k.lines.length < 128 then (l, m.setCore c { k with lines := k.lines ++ [l] })
    else
      let m := { m with free := m.free + 1 }
      (l, m.setCore c { k with lines := k.lines.eraseIdx (Config.victim m.free % 128) ++ [l] })

/-- Bytes at a with those of another range laid over them. -/
def patch (a : Nat) (bs : List Byte) (b : Nat) (ds : List Byte) : List Byte :=
  if overlaps a bs.length b ds.length then
    bs.mapIdx fun i x => if b ≤ a + i ∧ a + i < b + ds.length then ds.getD (a + i - b) x else x
  else bs

/-- A core's own earlier stores laid over bytes (R129): in start order, so the latest wins. -/
def Core.overlay (k : Core) (sp : Space) (a : Nat) (bs : List Byte) : List Byte :=
  k.posted.foldl (fun bs p => if p.live ∧ p.space = sp then patch a bs p.ea p.data else bs) bs

/-- Whether an own earlier store covers the part of a word that a load reads. -/
def Core.covered (k : Core) (sp : Space) (a n w : Nat) : Bool :=
  let lo := max a w
  let hi := min (a + n) (w + 8)
  k.posted.any fun p => p.live && decide (p.space = sp) && inside lo (hi - lo) p.ea p.data.length

/-- The own earlier store that a load reads a byte from, with its position (R129). -/
def Core.storeOf (k : Core) (sp : Space) (a : Nat) : Option (Posted × Nat) :=
  (k.posted.zipIdx.filter fun x => x.1.live && decide (x.1.space = sp) && inside a 1 x.1.ea x.1.data.length).getLast?

/-- The position of an own earlier store whose data is poisoned and that a load reads a byte from (R395). -/
def Core.poisonedStore (k : Core) (sp : Space) (a n : Nat) : Option Nat :=
  if k.posted.any Posted.bad then
    (List.range n).findSome? fun j => ((k.storeOf sp (a + j)).filter fun x => x.1.bad).map Prod.snd
  else none

/-- The record of a poisoned word in a buffer of the core, for which R390 gives word 1 no form: bit 61 and the position of a
posted-write entry, bit 60 and the address of a staged word with bit 59 for the device space (log 139). -/
def bufferErr (e : Env) (m : Mach) (a : Nat) : Halt :=
  .lost e.die 1 ⟨BitVec.ofNat 64 a, 0, some (e.ctx m), BitVec.ofNat 6 e.corelog, 0, 0⟩

/-- The halt of a load that reads a poisoned word of a staged line: home's record where home holds the poison, else the
buffer's (R390, R395). -/
def stagedErr (e : Env) (m : Mach) (dev : Bool) (at_ ea w : Nat) : Halt :=
  let home := at_ / 512 * 512 + w
  if (m.homePoison dev).any fun x => decide (8 * x = home) then
    let (d, b, i) := m.homeErr dev home
    .lost d b i
  else bufferErr e m (2 ^ 60 + (if dev then 2 ^ 59 else 0) + ea / 512 * 512 + w)

/-! ### Loads -/

/-- LDL (R120, R121, R124). -/
def ldlBody (q : BitVec 4) (a : Src) (imm : BitVec 8) (s : MSize) (e : Env) (m : Mach) : Chk Mach := do
  let n := sizeBytes s
  let (ea, m) ← e.ea m a imm s
  let (l, m) ← e.loadDst m q s false
  must (alignOk ea n) (.trap tAlign ea)
  must (decide (ea.toNat < 0x80000)) (.trap tSpace ea)
  let m := m.ownLocal e.c ea.toNat n
  let k := m.core e.c
  match poisonIn k.localPoison ea.toNat n with
  | some w => .error (localErr e m w)
  | none => .ok (e.timed m (if s = .b512 then 5 else 4) (l.putBytes .b (k.local_.read ea.toNat n)) false false)

/-- STL (R120, R121, R124): it finishes in its start cycle, and its bytes are written at the end of the cycle. -/
def stlBody (pk : Bool) (q : BitVec 4) (a : Src) (imm : BitVec 8) (s : MSize) (e : Env) (m : Mach) : Chk Mach := do
  let n := sizeBytes s
  let (ea, m) ← e.ea m a imm s
  let (bs, m) ← e.storeData m pk q s
  must (alignOk ea n) (.trap tAlign ea)
  must (decide (ea.toNat < 0x80000)) (.trap tSpace ea)
  let m := m.ownLocal e.c ea.toNat n
  match poisonPart (m.core e.c).localPoison ea.toNat n with
  | some w => .error (localErr e m w)
  | none => .ok (e.finishNow (e.later (.localWrite ea.toNat bs) m))

/-- LDG and LDD (R121, R127, R129). One that finds its slice in retention stages no line before the slice has left it: what it
finds there then is what the exit leaves (R138). -/
def stagedLoadBody (dev : Bool) (q : BitVec 4) (a : Src) (imm : BitVec 8) (s : MSize) (e : Env) (m : Mach) : Chk Mach := do
  let n := sizeBytes s
  let sp : Space := if dev then .dev else .glb
  let (ea, m) ← e.ea m a imm s
  let (l, m) ← e.loadDst m q s true
  must (alignOk ea n) (.trap tAlign ea)
  let (pl, m) ← e.resolve m sp ea n false
  let slice := if dev || ((m.core e.c).line dev ea.toNat).isSome then none else m.retainedSlice ea.toNat
  let m := if dev || ((m.core e.c).line dev ea.toNat).isSome then m else m.touchSlice ea.toNat
  let (ln, m) := if slice.isSome then ({ m.lineAt e.c dev ea.toNat pl.at_ with poison := [] }, m) else m.stage e.c dev ea.toNat pl.at_
  let k := m.core e.c
  let bad := ln.poison.find? fun w => overlaps (8 * w) 8 (ea.toNat % 512) n && !k.covered sp ea.toNat n (ea.toNat / 512 * 512 + 8 * w)
  match k.poisonedStore sp ea.toNat n, bad with
  | some p, _ => .error (bufferErr e m (2 ^ 61 + p))
  | none, some w => .error (stagedErr e m dev pl.at_ ea.toNat (8 * w))
  | none, none =>
    .ok (e.start m .values [l.putBytes .b (k.overlay sp ea.toNat (ln.data.read (ea.toNat % 512) n))] 0 []
      (some ⟨sp, ea.toNat, n, slice⟩)).2

/-- LDB (R121, R127): the read-stage buffer is bypassed; a vector result carries the tag of the sequence's format. -/
def ldbBody (q : BitVec 4) (a : Src) (imm : BitVec 8) (s : MSize) (e : Env) (m : Mach) : Chk Mach := do
  let n := sizeBytes s
  let (ea, m) ← e.ea m a imm s
  let (l, m) ← e.loadDst m q s true
  must (alignOk ea n) (.trap tAlign ea)
  let (pl, m) ← e.resolve m .blk ea n false
  let k := m.core e.c
  let tag := ((m.bseq k.ctx (baHandle ea.toNat)).map fun x => shapeFmt x.shape).getD .b
  let bad := m.dramPoison.find? fun w => overlaps (8 * w) 8 pl.at_ n && !k.covered .blk ea.toNat n (ea.toNat + 8 * w - pl.at_)
  match k.poisonedStore .blk ea.toNat n, bad with
  | some p, _ => .error (bufferErr e m (2 ^ 61 + p))
  | none, some w =>
    let (d, b, i) := m.homeErr true (8 * w)
    .error (.lost d b i)
  | none, none =>
    .ok (e.start m .values [l.putBytes tag (k.overlay .blk ea.toNat (m.dram.read pl.at_ n))] 0 []
      (some ⟨.blk, ea.toNat, n, none⟩)).2

/-! ### Stores -/

/-- STG, STD and STB (R121, R128): an entry of the posted-write buffer, seen by the core's loads from the next cycle. Entries
stand in the order in which the model runs a cycle's parts, st, cmp, ld and ctl. DESIGN CHOICE: R130 orders overlapping stores by
their starts and says nothing of two that start in one cycle; here the one of ctl reaches home last and stays (log 140). -/
def postedStoreBody (sp : Space) (pk : Bool) (q : BitVec 4) (a : Src) (imm : BitVec 8) (s : MSize) (e : Env) (m : Mach) :
    Chk Mach := do
  let n := sizeBytes s
  let (ea, m) ← e.ea m a imm s
  let (bs, m) ← e.storeData m pk q s
  must (alignOk ea n) (.trap tAlign ea)
  let m0 := m
  let (pl, m) ← e.resolve m sp ea n true
  must (decide ((m.core e.c).posted.length < 16)) .waitOut
  if sp = .blk then e.unshare m0 ea.toNat else .ok ()
  let m := if sp = .glb then m.touchSlice ea.toNat else m
  let (id, m) := m.fresh
  let p : Posted := ⟨id, sp, ea.toNat, pl.at_, bs, pl.block, false, (m.core e.c).cycles.toNat, false⟩
  let m := m.onCore e.c fun k => { k with posted := k.posted ++ [p] }
  .ok (e.start (e.later (.post id) m) (.store id) [] 0 [] none).2

/-- The slice in retention that keeps a posted write from its home (R138). -/
def Mach.asleepFor (m : Mach) (p : Posted) : Option Nat := if p.space = .glb then m.retainedSlice p.pa else none

/-- A posted write can reach home: its cycle has ended, no earlier overlapping write of its space is left, and its slice
is not in retention (R130, R138). -/
def Mach.mayDrain (m : Mach) (c n : Nat) : Option Posted :=
  let ps := (m.core c).posted
  match ps.find? fun p => decide (p.id = n) with
  | none => none
  | some p =>
    let before := ps.takeWhile fun x => decide (x.id ≠ n)
    if p.live && !(before.any fun x => decide (x.space = p.space) && overlaps x.ea x.data.length p.ea p.data.length) &&
        (m.asleepFor p).isNone then some p
    else none

/-- The poison that a posted entry's write consumes: that of its data, or of a word that it covers in part (R395). -/
def Mach.drainPoison (t : Trust) (m : Mach) (c : Nat) (p : Posted) : Option (Nat × Nat × ErrInfo) :=
  let dram := decide (p.space ≠ .glb)
  if p.bad then
    let pos := (m.core c).posted.findIdx fun x => decide (x.id = p.id)
    some (dieOf c, 1, ⟨BitVec.ofNat 64 (2 ^ 61 + pos), 0, some (m.core c).ctx, BitVec.ofNat 6 (t.logical (dieOf c) (physOf c)), 0, 0⟩)
  else (poisonPart (m.homePoison dram) p.pa p.data.length).map (m.homeErr dram)

/-- The write of a posted entry at its home. -/
def Mach.drain (m : Mach) (p : Posted) : Mach :=
  let m := m.writeHome (decide (p.space ≠ .glb)) p.pa p.data.length (Mem.ofBytes p.data)
  match p.frame with
  | some b => m.setValid b p.data.length
  | none => m

/-- POSTED_WRITE_ACK (R128, R130): a write that finds its slice in retention waits there and makes it leave (R138); one that
consumes poison has no effect, and posts no token (R395). -/
def postedWriteAck (t : Trust) (c n : Nat) (m : Mach) : Mach :=
  match m.mayDrain c n, (m.core c).ops.find? fun o => decide (o.kind = .store n) with
  | some p, some op =>
    match m.drainPoison t c p with
    | some (d, b, i) =>
      ((m.onCore c fun k => k.finAct (.bufAck n)).dropOp c op.id).consume d b i (m.core c).ctx (dieOf c)
        (t.logical (dieOf c) (physOf c)) (seqIndex op.seq)
    | none => ((m.drain p).onCore c fun k => k.finAct (.bufAck n)).finish c op
  | none, some _ =>
    match ((m.core c).posted.find? fun p => decide (p.id = n)).bind m.asleepFor with
    | some _ => m.touchSlice (((m.core c).posted.find? fun p => decide (p.id = n)).map Posted.pa |>.getD 0)
    | none => m
  | _, none => m

/-! ### PFD and LOC -/

/-- PFD (R132): ALIGN raises its trap; where another check would trap, the prefetch is dropped. -/
def pfdBody (a : Src) (imm : BitVec 8) (e : Env) (m : Mach) : Chk Mach := do
  let (ea, m) ← e.ea m a imm .b512
  must (alignOk ea 512) (.trap tAlign ea)
  match e.resolve m .dev ea 512 false with
  | .ok (pl, m) =>
    let (_, m) := m.stage e.c true ea.toNat pl.at_
    .ok (e.start m .values [] 0 [] none).2
  | .error (.trap _ _) => .ok (e.finishNow m)
  | .error h => .error h

/-- Whether two dies have a live link (R12, R421). -/
def Trust.linked (t : Trust) (a b : Nat) : Bool := t.up.any fun l => decide (l = (min a b, max a b))
/-- The dies within n crossings of a set. -/
def Trust.spread (t : Trust) (l : List Nat) : List Nat :=
  (List.range 6).filter fun d => l.any fun x => decide (x = d) || t.linked x d
/-- Whether a route over some dies between is over live links. -/
def Trust.open_ (t : Trust) (a b : Nat) : List Nat → Bool
  | [] => t.linked a b
  | d :: r => t.linked a d && t.open_ d b r
/-- The ways from one die to another of n + 1 crossings, as the dies between, the lowest sequence first (R422). -/
def Trust.ways (t : Trust) (b : Nat) : Nat → Nat → List (List Nat)
  | 0, a => if t.linked a b then [[]] else []
  | n + 1, a => (List.range 6).flatMap fun d => if d ≠ b ∧ t.linked a d then (t.ways b n d).map (d :: ·) else []
/-- The routes of R421's table, the preferred first. -/
def tableRoutes (a b : Nat) : List (List Nat) :=
  match isPDie a, isPDie b with
  | true, true => [[], [2], [3], [4], [5]]
  | true, false => [[], [1 - a]]
  | false, true => [[], [1 - b]]
  | false, false => [[(a + b) % 2], [1 - (a + b) % 2]]
/-- The route between two dies: the table's first that is live (R421), else the shortest, of the lowest sequence (R422). -/
def Trust.findRoute (t : Trust) (a b : Nat) : Option (List Nat) :=
  ((tableRoutes a b).find? (t.open_ a b)).or ((List.range 5).findSome? fun n => (t.ways b n a).head?)
/-- The routing tables (R421). -/
def Trust.findRoutes (t : Trust) : SMap (List Nat) :=
  (List.range 6).flatMap fun a => (List.range 6).filterMap fun b =>
    if a = b then none else (t.findRoute a b).map fun r => (6 * a + b, r)

/-- Crossings of the route that the tables hold between two dies (R133, R421). -/
def Trust.crossings (t : Trust) (a b : Nat) : Nat := match SMap.get? t.routes (6 * a + b) with | some r => r.length + 1 | none => 0

/-- LOC's word for a resolved place (R133). -/
def locWord (t : Trust) (die corelog home tile : Nat) : Word :=
  BitVec.ofNat 64 (2 ^ 32 + t.crossings die home * 2 ^ 20 + (if isPDie home then 0 else 2 ^ 16) + home * 2 ^ 12 +
    (if die = home ∧ corelog = tile then 2 ^ 6 else 0) + tile)

/-- Where an address lives, if it resolves (R133): die and tile. DESIGN CHOICE: LOC.blk has no access size, and its address resolves
where one byte there lies in the block (log 58). -/
def locPlace (t : Trust) (m : Mach) (super : Bool) (ctx : BitVec 6) (sp : Space) (a : Nat) : Except Nat (Option (Nat × Nat)) :=
  match sp with
  | .glb => .ok (if t.globalOk a then some (a / 2 ^ 28, a / 2 ^ 22 % 64) else none)
  | .dev =>
    match translate t m ctx a with
    | .leaf pa _ sv => .ok (if sv && !super then none else some (paDie pa, paTile pa))
    | .fault => .ok none
    | .poison pa => .error pa
  | .blk =>
    match m.bseq ctx (baHandle a) with
    | none => .ok none
    | some s =>
      .ok (if baLayer a < shapeLayers s.shape ∧ baOff a < shapeB s.shape ∧
          (SMap.get? s.map (mapKey (baLayer a) (baBlock a))).isSome then some (shapeDie s.shape, shapeCol s.shape) else none)

/-- LOC (R133). -/
def locBody (d : Dst) (f : Space) (a : Src) (e : Env) (m : Mach) : Chk Mach := do
  let (v, m) ← e.src m a
  let (l, m) ← e.dst m d .pending
  match locPlace e.trust m (m.seq e.c e.q).status.super (e.ctx m) f v.toNat with
  | .error pa =>
    let (die, b, i) := m.homeErr true pa
    .error (.lost die b i)
  | .ok none => .ok (e.startValues m [l.put 0] 0 [])
  | .ok (some (die, tile)) => .ok (e.startValues m [l.put (locWord e.trust e.die e.corelog die tile)] 0 [])

/-! ### Meanings -/

/-- LDL (R124). -/
def execLdl (t : Tok) (q : BitVec 4) (a : Src) (i : BitVec 8) (z : MSize) (s : State) : Host.Outcome State Fault Refusal :=
  attemptNext (.ldl t q a i z) (ldlBody q a i z) s
/-- STL (R124). -/
def execStl (t : Tok) (pk : Bool) (q : BitVec 4) (a : Src) (i : BitVec 8) (z : MSize) (s : State) :
    Host.Outcome State Fault Refusal := attemptNext (.stl t pk q a i z) (stlBody pk q a i z) s
/-- LDG (R121). -/
def execLdg (t : Tok) (q : BitVec 4) (a : Src) (i : BitVec 8) (z : MSize) (s : State) : Host.Outcome State Fault Refusal :=
  attemptNext (.ldg t q a i z) (stagedLoadBody false q a i z) s
/-- STG (R121). -/
def execStg (t : Tok) (pk : Bool) (q : BitVec 4) (a : Src) (i : BitVec 8) (z : MSize) (s : State) :
    Host.Outcome State Fault Refusal := attemptNext (.stg t pk q a i z) (postedStoreBody .glb pk q a i z) s
/-- LDD (R121). -/
def execLdd (t : Tok) (q : BitVec 4) (a : Src) (i : BitVec 8) (z : MSize) (s : State) : Host.Outcome State Fault Refusal :=
  attemptNext (.ldd t q a i z) (stagedLoadBody true q a i z) s
/-- STD (R121). -/
def execStd (t : Tok) (pk : Bool) (q : BitVec 4) (a : Src) (i : BitVec 8) (z : MSize) (s : State) :
    Host.Outcome State Fault Refusal := attemptNext (.std t pk q a i z) (postedStoreBody .dev pk q a i z) s
/-- LDB (R121). -/
def execLdb (t : Tok) (q : BitVec 4) (a : Src) (i : BitVec 8) (z : MSize) (s : State) : Host.Outcome State Fault Refusal :=
  attemptNext (.ldb t q a i z) (ldbBody q a i z) s
/-- STB (R121). -/
def execStb (t : Tok) (pk : Bool) (q : BitVec 4) (a : Src) (i : BitVec 8) (z : MSize) (s : State) :
    Host.Outcome State Fault Refusal := attemptNext (.stb t pk q a i z) (postedStoreBody .blk pk q a i z) s
/-- PFD (R132). -/
def execPfd (t : Tok) (a : Src) (i : BitVec 8) (s : State) : Host.Outcome State Fault Refusal :=
  attemptNext (.pfd t a i) (pfdBody a i) s
/-- LOC (R133). -/
def execLoc (t : Tok) (d : Dst) (f : Space) (a : Src) (s : State) : Host.Outcome State Fault Refusal :=
  attemptNext (.loc t d f a) (locBody d f a) s
/-- POSTED_WRITE_ACK: a posted write reaches its home. -/
def execPostedWriteAck (c n : Nat) (s : State) : Host.Outcome State Fault Refusal :=
  .next { s with mach := postedWriteAck s.trust c n s.mach }

end Sys2Proof.Machine
end

