-- ==== Sys2Proof/Machine/Copy.lean ====
section
/-! DEFINITION. Completion objects, the copy engines, CPY, CWT, CBND and arrival queues (R262 to R272, R407, R408). -/

namespace Sys2Proof.Machine

/-! ### Completion objects (R263, R264) -/

/-- Status codes of a completion object (R264). -/
def csDone : Nat := 0
def csCancelled : Nat := 1
def csBroken : Nat := 2
def csHashfail : Nat := 3
def csUnreachable : Nat := 4
def csOverrun : Nat := 5

/-- A completion object of a core. -/
def Core.obj (k : Core) (o : Nat) : CompObj := SMap.getD k.objs o ⟨0, 0, 0, 0, []⟩
/-- A completion object changed. -/
def Core.onObj (k : Core) (o : Nat) (f : CompObj → CompObj) : Core :=
  { k with objs := SMap.put ⟨0, 0, 0, 0, []⟩ k.objs o (f (k.obj o)) }
/-- An operation starts on an object. -/
def Core.objStart (k : Core) (o : Nat) : Core := k.onObj o fun x => { x with pend := x.pend + 1 }
/-- An operation reports a status: the first other than DONE stays. -/
def CompObj.report (x : CompObj) (st : Nat) : CompObj := if x.status = 0 then { x with status := st } else x
/-- An operation completes: pend, units, joined, status, and what it wrote. -/
def CompObj.complete (x : CompObj) (units st : Nat) (ds : List LineRange) : CompObj :=
  ({ x with
      pend := x.pend - 1
      units := (x.units + units) % 2 ^ 32
      joined := min 255 (x.joined + 1)
      dests := x.dests ++ ds } : CompObj).report st
/-- An operation of a core completes. -/
def Core.objDone (k : Core) (o units st : Nat) (ds : List LineRange) : Core := k.onObj o fun x => x.complete units st ds

/-- The completion word (R264). -/
def CompObj.word (x : CompObj) : Word :=
  BitVec.ofNat 64 (x.units % 2 ^ 32 * 2 ^ 32 + x.joined % 256 * 2 ^ 24 + x.pend % 256 * 2 ^ 16 + x.status % 16)

/-- The objects of a saved group written to its core record, words 8 to 39 (R380, R386). -/
def Mach.writeObjs (m : Mach) (s : Saved) : Mach :=
  m.writeHome true (m.slotPa s.ctx s.slot + 0xE000 + 64) 256
    (Mem.ofBytes ((List.range 32).flatMap fun o => leBytes 8 (s.image.obj o).word.toNat))

/-- What an engine changes of a group: on its core, or once the group is saved in its image and its save slot (R380). -/
def Mach.onGroupCore (m : Mach) (c : Nat) (g : Option Gid) (f : Core → Core) : Mach :=
  if (m.core c).group.map Group.gid = g then m.onCore c f
  else
    let saved := m.saved.map fun s => if some s.group.gid = g then { s with image := f s.image } else s
    (saved.filter fun s => decide (some s.group.gid = g)).foldl Mach.writeObjs { m with saved := saved }

/-! ### The copy record (R266, R267) -/

/-- The space codes that are remote (R407). -/
def isFar (code : Nat) : Bool := decide (code = 5 ∨ code = 6)

/-- A signed 32-bit field of a word. -/
def sfield (w : Word) (lo : Nat) : Int := (w.extractLsb' lo 32).toInt

/-- The copy that a record describes, counts as numbers of runs: `super` is the issuer's mode. -/
def copyOf (w : List Word) (super : Bool) : CopyOp where
  obj := wbits (wordAt w 0) 12 8
  ssp := wbits (wordAt w 0) 3 0
  dsp := wbits (wordAt w 0) 7 4
  sbase := (wordAt w 1).toNat
  dbase := (wordAt w 2).toNat
  n0 := wbits (wordAt w 3) 31 0
  n1 := wbits (wordAt w 3) 47 32 + 1
  n2 := wbits (wordAt w 3) 63 48 + 1
  sstr1 := sfield (wordAt w 4) 0
  sstr2 := sfield (wordAt w 4) 32
  dstr1 := sfield (wordAt w 5) 0
  dstr2 := sfield (wordAt w 5) 32
  pkg := (wordAt w 6).extractLsb' 0 10
  begun := false
  run := 0
  buf := none
  done := 0
  super := super

/-- The runs of a copy. -/
def CopyOp.runs (x : CopyOp) : Nat := x.n1 * x.n2
/-- The bytes of a copy. -/
def CopyOp.total (x : CopyOp) : Nat := x.n0 * x.runs
/-- The address of run i on a side. -/
def runAddr (x : CopyOp) (base : Nat) (s1 s2 : Int) (i : Nat) : Nat :=
  ((base + (i / x.n1 : Nat) * s2 + (i % x.n1 : Nat) * s1 : Int) % 2 ^ 64).toNat
/-- The source of run i. -/
def CopyOp.src (x : CopyOp) (i : Nat) : Nat := runAddr x x.sbase x.sstr1 x.sstr2 i
/-- The destination of run i. -/
def CopyOp.dst (x : CopyOp) (i : Nat) : Nat := runAddr x x.dbase x.dstr1 x.dstr2 i
/-- Whether a side of the copy is remote. -/
def CopyOp.far (x : CopyOp) : Bool := isFar x.ssp || isFar x.dsp

/-- The binding of an object (R270). -/
def Core.bindingOf (k : Core) (o : Nat) : Option Binding := k.bindings.find? fun b => decide (b.obj = o)
/-- The bytes of an element of a queue (R271). -/
def elementBytes (s : QSel) : Nat := if s.vec then 512 else 8

/-- Check 2 of R268: reserved fields, codes, n0, the total, the binding of an arrival (R266, R267, R271, R407). -/
def copyFields (k : Core) (w : List Word) (x : CopyOp) : Bool :=
  decide (wbits (wordAt w 0) 63 13 = 0 ∧ wbits (wordAt w 6) 63 10 = 0 ∧ wordAt w 7 = 0) &&
    decide (x.ssp ≤ 6 ∧ x.dsp ≤ 7) && (x.far || decide (x.pkg = 0)) &&
    !(x.far && decide (x.ssp = 3 ∨ x.dsp = 3)) &&
    decide (8 ≤ x.n0 ∧ x.n0 ≤ 2 ^ 24 ∧ x.n0 % 8 = 0 ∧ x.total ≤ 2 ^ 26) &&
    (decide (x.dsp ≠ 7) ||
      match k.bindingOf x.obj with
      | none => false
      | some b => decide (x.dbase = 0 ∧ wordAt w 5 = 0 ∧ x.n0 % elementBytes b.sel = 0))

/-! ### Checks 3 to 8 of R268 -/

/-- A side of a run: space code, address, whether it is written. -/
abbrev RunSide := Nat × Nat × Bool

/-- The sides of the runs in pattern order, source before destination. -/
def CopyOp.sides (x : CopyOp) : List RunSide :=
  (List.range x.runs).flatMap fun i => [(x.ssp, x.src i, false), (x.dsp, x.dst i, true)]

/-- A range cut at multiples of a step. -/
def cutAt (step : Nat) : Nat → Nat → Nat → List (Nat × Nat)
  | 0, _, _ => []
  | f + 1, a, n =>
    if n = 0 then []
    else
      let k := min n (step - a % step)
      (a, k) :: cutAt step f (a + k) (n - k)
/-- A range cut at multiples of a step. -/
def cuts (step a n : Nat) : List (Nat × Nat) := cutAt step (n / step + 2) a n

/-- Check 3: the address of a run that is no multiple of 8, but of local and host runs and remote ones. -/
def runMisaligned (s : RunSide) : Option Nat :=
  if 1 ≤ s.1 ∧ s.1 ≤ 3 ∧ s.2.1 % 8 ≠ 0 then some s.2.1 else none

/-- Check 3 of strides that no run uses: the base of a side whose stride is no multiple of 8 (log 72). -/
def CopyOp.oddStride (x : CopyOp) : Option Nat :=
  let odd (code : Nat) (s1 s2 : Int) : Bool := decide (1 ≤ code ∧ code ≤ 3 ∧ (s1 % 8 ≠ 0 ∨ s2 % 8 ≠ 0))
  if odd x.ssp x.sstr1 x.sstr2 then some x.sbase else if odd x.dsp x.dstr1 x.dstr2 then some x.dbase else none

/-- The first address of a range that does not end by a limit. -/
def pastLimit (limit a n : Nat) : Option Nat := if a + n ≤ limit then none else some (max a limit)

/-- Check 4: the first address of a run that lies outside its space. -/
def runSpaceFail (t : Trust) (n : Nat) (s : RunSide) : Option Nat :=
  match s.1 with
  | 0 => pastLimit 0x80000 s.2.1 n
  | 1 => ((cuts 0x200000 s.2.1 n).find? fun p => !t.globalOk p.1).map Prod.fst
  | 2 => pastLimit (2 ^ 57) s.2.1 n
  | _ => none
/-- Whether a run lies inside its space. -/
def runInSpace (t : Trust) (n : Nat) (s : RunSide) : Bool := (runSpaceFail t n s).isNone

/-- Check 5: the first address of a block run that lies outside one block of an open handle, or in a source block that is not
allocated. -/
def runBlockFail (m : Mach) (ctx : BitVec 6) (n : Nat) (s : RunSide) : Option Nat :=
  if s.1 = 3 then
    match (m.bseq ctx (baHandle s.2.1)).filter fun q => decide (baLayer s.2.1 < shapeLayers q.shape) with
    | none => some s.2.1
    | some q =>
      if s.2.2 || (SMap.get? q.map (mapKey (baLayer s.2.1) (baBlock s.2.1))).isSome then
        (pastLimit (shapeB q.shape) (baOff s.2.1) n).map (s.2.1 - baOff s.2.1 + ·)
      else some s.2.1
  else none

/-- Check 6: translations exist, and a frame is taken for every destination block that needs one (R290). -/
def Env.runTranslates (e : Env) (n : Nat) (s : RunSide) (m : Mach) : Chk Mach :=
  match s.1 with
  | 2 => do
    (cuts 65536 s.2.1 n).forM fun p =>
      match translate e.trust m (e.ctx m) p.1 with
      | .fault => .error (.trap tXlate (BitVec.ofNat 64 p.1))
      | .poison pa =>
        let (d, b, i) := m.homeErr true pa
        .error (.lost d b i)
      | .leaf .. => .ok ()
    .ok m
  | 3 =>
    if s.2.2 then
      match m.writable (e.ctx m) (baHandle s.2.1) (mapKey (baLayer s.2.1) (baBlock s.2.1)) with
      | none => .error (.trap tBlock (BitVec.ofNat 64 s.2.1))
      | some m => .ok m
    else .ok m
  | _ => .ok m

/-- Check 7: the first address of a run whose page does not allow it. -/
def runProtected (t : Trust) (m : Mach) (ctx : BitVec 6) (super : Bool) (n : Nat) (s : RunSide) : Option Nat :=
  if s.1 = 2 then
    ((cuts 65536 s.2.1 n).find? fun p =>
      match translate t m ctx p.1 with
      | .leaf _ wr sv => !((!s.2.2 || wr) && (!sv || super))
      | _ => false).map Prod.fst
  else none

/-- The first address of a range of a region that its key does not allow: of a ring, where the first such slot starts. -/
def keyFailAt (m : Mach) (c : Nat) (a n : Nat) (store : Bool) : Nat :=
  match (m.regionAt .glb (m.core c).ctx a).bind fun r => r.ring.map fun g => (r, g) with
  | none => a
  | some (r, g) =>
    match (ringSlots r g a n).find? fun i => !m.keyOk c .glb (max a (r.base + i * g.size)) 1 store with
    | some i => max a (r.base + i * g.size)
    | none => a

/-- Check 8: the first address of a run whose key is missing. -/
def runKeyless (m : Mach) (c : Nat) (n : Nat) (s : RunSide) : Option Nat :=
  match s.1 with
  | 1 => ((cuts 4096 s.2.1 n).find? fun p => !m.keyOk c .glb p.1 p.2 s.2.2).map fun p => keyFailAt m c p.1 p.2 s.2.2
  | 2 => ((cuts 65536 s.2.1 n).find? fun p => !m.keyOk c .dev p.1 p.2 s.2.2).map Prod.fst
  | 3 => if m.keyOk c .blk s.2.1 n s.2.2 then none else some s.2.1
  | _ => none

/-- Checks 3 to 8 of R268, each over every run before the next, with the first failing address in pattern order. -/
def Env.copyChecks (e : Env) (m : Mach) (x : CopyOp) : Chk Mach := do
  let l := x.sides
  let bad (code : Nat) (o : Option Nat) : Chk Unit :=
    match o with | some a => .error (.trap code (BitVec.ofNat 64 a)) | none => .ok ()
  bad tAlign ((l.findSome? runMisaligned).or x.oddStride)
  bad tSpace (l.findSome? (runSpaceFail e.trust x.n0))
  bad tBlock (l.findSome? (runBlockFail m (e.ctx m) x.n0))
  let m ← l.foldlM (fun m s => e.runTranslates x.n0 s m) m
  bad tProt (l.findSome? (runProtected e.trust m (e.ctx m) x.super x.n0))
  bad tNokey (l.findSome? (runKeyless m e.c x.n0))
  .ok m

/-! ### CPY -/

/-- Whether an operation is in the command queue of its cluster, or has left it for a copy engine (R262; log 76). -/
def OpKind.onEngine (begun : Bool) : OpKind → Bool
  | .cpy x => decide (x.begun = begun)
  | .cwld _ _ run => decide (run.isSome = begun)
  | .rlys .. | .hoff .. => !begun
  | _ => false

/-- The operations of a cluster in the command queue, and those that an engine runs, of saved groups too (R262, R380). -/
def Mach.copies (m : Mach) (cluster : Nat) (begun : Bool) : List Nat :=
  let ids (l : List Op) : List Nat := (l.filter fun o => o.kind.onEngine begun).map Op.id
  ((m.cores.filter fun p => decide (clusterOf p.1 = cluster)).flatMap fun p => ids p.2.ops) ++
    (m.saved.filter fun s => decide (clusterOf s.core = cluster)).flatMap fun s => ids s.image.ops

/-- An operation that finds the command queue full stalls at issue, uncounted, and a pre-emption waits that out (R262,
R378). -/
def Env.queueRoom (e : Env) (m : Mach) : Chk Unit := must (decide ((m.copies (clusterOf e.c) false).length < 64)) .waitOut

/-- Whether a free engine can take an operation, which leaves the queue in its order (R262). -/
def Mach.mayLeaveQueue (m : Mach) (c o : Nat) : Bool :=
  decide ((m.copies (clusterOf c) true).length < 4) && (m.copies (clusterOf c) false).all fun x => decide (o ≤ x)

/-- Words of local space that an instruction reads as an LDL would: n words at an address of a multiple of 64 (R266). -/
def Env.record (e : Env) (m : Mach) (v : Word) (n : Nat) : Chk (List Word × Mach) := do
  must (decide (v.toNat % 64 = 0)) (.trap tAlign v)
  must (decide (v.toNat + 8 * n ≤ 0x80000)) (.trap tSpace v)
  let m := m.ownLocal e.c v.toNat (8 * n)
  let k := m.core e.c
  match poisonIn k.localPoison v.toNat (8 * n) with
  | some w => .error (localErr e m w)
  | none => .ok (k.local_.words v.toNat n, m)

/-- The remote runs of a copy, as their package checks them (R407): a copy from one package's memory to its own is checked on
both sides. -/
def CopyOp.farRuns (x : CopyOp) : List FarRuns :=
  let side (code base : Nat) (store : Bool) (s1 s2 : Int) : List FarRuns :=
    if isFar code then [⟨decide (code = 6), store, base, x.n0, x.n1, x.n2, s1, s2⟩] else []
  side x.ssp x.sbase false x.sstr1 x.sstr2 ++ side x.dsp x.dbase true x.dstr1 x.dstr2

/-- The issuing sequencer waits for the checks that the other package makes of the remote runs, of both sides together (R407). -/
def Env.farCheck (e : Env) (m : Mach) (x : CopyOp) : Chk Mach := do
  let m ← e.admission m (if isFar x.ssp then x.sbase else x.dbase)
  .ok { m with outbox := m.outbox ++ [.remoteCheck x.pkg (e.asker m) x.farRuns] }

/-- CPY (R266 to R268). -/
def cpyBody (a : Src) (e : Env) (m : Mach) : Chk Mach := do
  let (v, m) ← e.src m a
  let (w, m0) ← e.record m v 8
  let x := copyOf w (m0.seq e.c e.q).status.super
  must (copyFields (m0.core e.c) w x) (e.trapWord tFmtrsv)
  let m ← e.copyChecks m0 x
  must (decide (((m.core e.c).obj x.obj).pend < 255)) (.stall 2)
  e.queueRoom m
  (x.sides.filter fun s => decide (s.1 = 3) && s.2.2).forM fun s => e.unshare m0 s.2.1
  if x.far && cutOff e.trust m x.pkg then
    let m := (m.portError e.die (e.ctx m) x.pkg).onCore e.c fun k =>
      (k.objStart x.obj).objDone x.obj 0 csUnreachable []
    .ok (e.startValues m [] 0 [])
  else
    let m ← if x.far then e.farCheck m x else .ok m
    .ok (e.start (m.onCore e.c fun k => k.objStart x.obj) (.cpy x) [] 0 [] none).2

/-! ### An engine's work -/

/-- How an engine's access ends: it waits, it consumed poison, or it goes on. -/
inductive Io (α : Type) where
  | wait (m : Mach)
  | lost (m : Mach)
  | ok (x : α) (m : Mach)

/-- The first slice of a global range that is in retention, as an address in it. -/
def Mach.asleep (m : Mach) (a n : Nat) : Option Nat :=
  ((cuts (2 ^ 22) a n).find? fun p => (m.retainedSlice p.1).isSome).map Prod.fst

/-- The function that owns a context (R423). -/
def Mach.funcOf (m : Mach) (ctx : BitVec 6) : Nat := ((SMap.get? m.contexts ctx.toNat).map fun c => c.func.toNat).getD 0
/-- A host address of a context's function (log 6). -/
def Mach.hostAt (m : Mach) (ctx : BitVec 6) (a : Nat) : Nat := m.funcOf ctx * 2 ^ 64 + a
/-- Bytes of the host memory of the function whose addresses begin at b; an access past 2^64 wraps to the function's address 0,
and reaches no other function's (R423; log 6). -/
def Mem.hostRead (mem : Mem) (b a n : Nat) : List Byte :=
  let k := min n (2 ^ 64 - a)
  mem.read (b + a) k ++ mem.read b (n - k)
/-- Bytes written to the host memory of a function. -/
def Mem.hostWrite (mem : Mem) (b a : Nat) (bs : List Byte) : Mem :=
  let k := min bs.length (2 ^ 64 - a)
  (mem.write (b + a) (bs.take k)).write b (bs.drop k)
/-- Where the host memory of a context's function begins. -/
def Mach.hostBase (m : Mach) (ctx : BitVec 6) : Nat := m.funcOf ctx * 2 ^ 64

/-- Who an engine's accesses to another package are for: the group on the core, in the mode the operation recorded. -/
def Mach.engineAsker (m : Mach) (c : Nat) (op : Op) : Asker :=
  (m.core c).asker c (match op.kind with | .cpy x => x.super | _ => false)

/-- An engine reads n bytes of a space. -/
def engineRead (t : Trust) (c : Nat) (op : Op) (pkg : BitVec 10) (code a n : Nat) (m : Mach) : Io (List Byte) :=
  let ctx := (m.core c).ctx
  let homed (dev : Bool) (ps : List (Nat × Nat × Nat)) (m : Mach) : Io (List Byte) :=
    match m.piecesPoison dev ps with
    | some w => .lost (m.losePoison t c op dev w)
    | none => .ok (Mem.toBytes (m.piecesImage dev ps) 0 n) m
  match code with
  | 0 =>
    let m := m.ownLocal c a n
    match poisonIn (m.core c).localPoison a n with
    | some w => .lost (m.losePoisonLocal t c op w)
    | none => .ok ((m.core c).local_.read a n) m
  | 1 =>
    match m.asleep a n with
    | some s => .wait (m.touchSlice s)
    | none => homed false [(0, a, n)] (m.touchSlice a)
  | 2 =>
    match walkPoison t m ctx true a n with
    | some w => .lost (m.losePoison t c op true w)
    | none => homed true (pieces t m ctx true a n) m
  | 3 =>
    match m.bseq ctx (baHandle a) with
    | none => .ok (List.replicate n 0) m
    | some s =>
      let f := SMap.getD s.map (mapKey (baLayer a) (baBlock a)) 0
      homed true [(0, framePa (shapePool s.shape) f + baOff a, n)] m
  | 4 => .ok (m.host.hostRead (m.hostBase ctx) a n) m
  | _ =>
    match takeReply (fun r => match r with | .data bs => if bs.length = n then some bs else none | _ => none) m.inbox with
    | none => .wait m
    | some (bs, l) => .ok bs { m with inbox := l, outbox := m.outbox ++ [.remoteRead pkg (m.engineAsker c op) (decide (code = 6)) a n] }

/-- An engine writes bytes to a space. -/
def engineWrite (t : Trust) (c : Nat) (op : Op) (pkg : BitVec 10) (code a : Nat) (bs : List Byte) (m : Mach) : Io Unit :=
  let ctx := (m.core c).ctx
  let n := bs.length
  match code with
  | 0 =>
    let m := m.ownLocal c a n
    match poisonPart (m.core c).localPoison a n with
    | some w => .lost (m.losePoisonLocal t c op w)
    | none => .ok () (m.onCore c fun k =>
        { k with local_ := k.local_.write a bs, localPoison := poisonClear k.localPoison a n })
  | 1 =>
    match m.asleep a n with
    | some s => .wait (m.touchSlice s)
    | none => .ok () ((m.touchSlice a).writeHome false a n (Mem.ofBytes bs))
  | 2 =>
    match walkPoison t m ctx true a n with
    | some w => .lost (m.losePoison t c op true w)
    | none => .ok () (m.piecesWrite true (pieces t m ctx true a n) (Mem.ofBytes bs))
  | 3 =>
    match m.bseq ctx (baHandle a) with
    | none => .ok () m
    | some s =>
      let f := SMap.getD s.map (mapKey (baLayer a) (baBlock a)) 0
      let pool := shapePool s.shape
      let m := m.writeHome true (framePa pool f + baOff a) n (Mem.ofBytes bs)
      .ok () (m.setValid ⟨pool, f, baOff a, s.shape⟩ n)
  | 4 => .ok () { m with host := m.host.hostWrite (m.hostBase ctx) a bs }
  | _ => .ok () { m with outbox := m.outbox ++ [.remoteWrite pkg (m.engineAsker c op) (decide (code = 6)) a bs] }

/-- The key space of a copy's space code. -/
def codeSpace (code : Nat) : Option Space :=
  match code with
  | 1 => some .glb
  | 2 => some .dev
  | 3 => some .blk
  | _ => none

/-- Whether a posted write lies in a run of a copy's side. -/
def CopyOp.meets (x : CopyOp) (code : Nat) (addr : Nat → Nat) (p : Posted) : Bool :=
  decide (codeSpace code = some p.space) && (List.range x.runs).any fun i => overlaps (addr i) x.n0 p.ea p.data.length

/-- Whether two copies write a common byte. -/
def CopyOp.sameDest (x y : CopyOp) : Bool :=
  decide (x.dsp = y.dsp) && if x.dsp = 7 then decide (x.obj = y.obj)
    else (List.range x.runs).any fun i => (List.range y.runs).any fun j => overlaps (x.dst i) x.n0 (y.dst j) y.n0

/-- Whether an engine can take a copy (R262, R269): a free engine, the queue's order, the group's earlier stores, and its
earlier copies to the same bytes, or to the same binding (R271). -/
def Mach.mayBegin (m : Mach) (c : Nat) (op : Op) (x : CopyOp) : Bool :=
  let k := m.core c
  m.mayLeaveQueue c op.id &&
    k.posted.all (fun p => decide (op.id < p.id) || !(x.meets x.ssp x.src p || x.meets x.dsp x.dst p)) &&
    (k.earlier op.id).all fun o => match o.kind with | .cpy y => !x.sameDest y | _ => true

/-- An element lands in the queue bound to an object: none while the queue is full (R70, R271). -/
def Core.arrive (k : Core) (id obj : Nat) (bs : List Byte) : Option Core :=
  match k.bindingOf obj with
  | none => some (k.onObj obj fun x => x.report csOverrun)
  | some b =>
    let n := b.sel.q
    let gone := if b.sel.vec then k.cmp.exited else (k.seq b.seq).exited
    let len := if b.sel.vec then (k.vslots n).length else ((k.seq b.seq).xslots n).length
    if !gone && decide (4 ≤ len) then none
    else
      let k := if gone then k
        else if b.sel.vec then k.setV n (k.vslots n ++ [⟨id, .present ⟨.b, vbitsOf bs⟩⟩])
        else k.onSeq b.seq fun s => s.setX n (s.xslots n ++ [⟨id, .present (BitVec.ofNat 64 (leNat bs))⟩])
      some { k with bindings := if b.left ≤ 1 then k.bindings.filter fun x => decide (x.obj ≠ obj)
                                else k.bindings.map fun (x : Binding) => if x.obj = obj then { x with left := x.left - 1 } else x }

/-- A copy's record replaced. -/
def Mach.setCopy (m : Mach) (c : Nat) (op : Op) (x : CopyOp) : Mach := m.onCore c fun k => k.setOp { op with kind := .cpy x }

/-- What a copy has written as lines to invalidate (R272). -/
def CopyOp.lines (x : CopyOp) : List LineRange :=
  if x.dsp = 1 ∨ x.dsp = 2 then (List.range x.runs).map fun i => ⟨decide (x.dsp = 2), x.dst i, x.n0⟩ else []

/-- A copy completes with a status: its object, and its own finish (R263, R268). -/
def Mach.completeCopy (m : Mach) (c : Nat) (op : Op) (x : CopyOp) (units st : Nat) : Mach :=
  (m.onCore c fun k => k.objDone x.obj units st x.lines).finish c op

/-- One step of an engine on a copy: none when it waits. It begins, reads the next run whole, or writes the next bytes of
it: 8, an element, or with `whole` all that is left of the run (R267). -/
def copyStep (t : Trust) (c o : Nat) (whole : Bool) (m : Mach) : Option Mach :=
  match (m.core c).open? o with
  | none => none
  | some op =>
    match op.kind with
    | .cpy x =>
      if !x.begun then (if m.mayBegin c op x then some (m.setCopy c op { x with begun := true }) else none)
      else if x.runs ≤ x.run then none
      else
        match x.buf with
        | none =>
          match engineRead t c op x.pkg x.ssp (x.src x.run) x.n0 m with
          | .wait _ => none
          | .lost m => some m
          | .ok bs m => some (m.setCopy c op { x with buf := some bs, done := 0 })
        | some bs =>
          let left := x.n0 - x.done
          if x.dsp = 7 then
            let n := match (m.core c).bindingOf x.obj with | some b => elementBytes b.sel | none => left
            let (id, m) := m.fresh
            match (m.core c).arrive id x.obj ((bs.drop x.done).take n) with
            | none => none
            | some k =>
              let x := if left ≤ n then { x with run := x.run + 1, buf := none, done := 0 } else { x with done := x.done + n }
              some ((m.setCore c k).setCopy c op x)
          else
            let n := if whole then left else min 8 left
            match engineWrite t c op x.pkg x.dsp (x.dst x.run + x.done) ((bs.drop x.done).take n) m with
            | .wait _ => none
            | .lost m => some m
            | .ok _ m =>
              let x := if left ≤ n then { x with run := x.run + 1, buf := none, done := 0 } else { x with done := x.done + n }
              some (m.setCopy c op x)
    | _ => none

/-- An engine goes on for at most n steps. -/
def copyRun (t : Trust) (c o : Nat) : Nat → Mach → Mach
  | 0, m => m
  | n + 1, m => match copyStep t c o true m with | none => m | some m => copyRun t c o n m

/-- A slice that an engine waits for is wanted (R138). -/
def copyWake (c o : Nat) (m : Mach) : Mach :=
  match (m.core c).op? o with
  | none => m
  | some op =>
    match op.kind with
    | .cpy x =>
      let wake (code a : Nat) (m : Mach) : Mach :=
        if code = 1 then (match m.asleep a x.n0 with | some s => m.touchSlice s | none => m) else m
      if x.begun && decide (x.run < x.runs) then wake x.dsp (x.dst x.run) (wake x.ssp (x.src x.run) m) else m
    | _ => m

/-- An engine's turn: 8 bytes of a copy, or a slice it waits for is woken (R138). -/
def engineTurn (t : Trust) (c o : Nat) (m : Mach) : Mach := (copyStep t c o false m).getD (copyWake c o m)

/-- COPY_COMPLETE: an engine finishes what is left of a copy, and the copy completes (R263, R268). -/
def copyComplete (t : Trust) (c o : Nat) (m : Mach) : Mach :=
  match (m.core c).op? o with
  | none => m
  | some op =>
    match op.kind with
    | .cpy x =>
      let m := copyRun t c o (2 * x.runs + x.total / 8 + 2) m
      match ((m.core c).op? o).map Op.kind with
      | some (.cpy y) => if y.begun && decide (y.runs ≤ y.run) then m.completeCopy c op y y.total csDone else copyWake c o m
      | _ => m
    | _ => m

/-- ARRIVAL_ELEMENT_LANDS: one element of a copy to a bound queue (R271). -/
def arrivalElement (t : Trust) (c o : Nat) (m : Mach) : Mach :=
  match (m.core c).op? o with
  | none => m
  | some op =>
    match op.kind with
    | .cpy x => if x.dsp = 7 then
        let ready (m : Mach) : Bool := match ((m.core c).op? o).map Op.kind with
          | some (.cpy y) => y.begun && y.buf.isSome
          | _ => false
        let m1 := if ready m then m else copyRun t c o (if x.begun then 1 else 2) m
        if ready m1 then (copyStep t c o false m1).getD m1 else m1
      else m
    | _ => m

/-! ### CWT and CBND (R270, R272) -/

/-- CWT waits for its object, reads it and clears it. -/
def cwtBody (test : Bool) (d : Dst) (a : Src) (e : Env) (m : Mach) : Chk Mach := do
  let (v, m) ← e.src m a
  let (l, m) ← e.dst m d .pending
  let n := wbits v 4 0
  let x := (m.core e.c).obj n
  must (test || decide (x.pend = 0)) (.stall 2)
  let m := if test then m else m.onCore e.c fun k => k.onObj n fun _ => ⟨0, 0, 0, 0, []⟩
  let (o, m) := e.start m .values [l.put x.word] 0 (if test then [] else x.dests.map .lines) none
  .ok (e.block o m)

/-- Whether a CBND that has not finished names a queue or an object. -/
def Core.bindPending (k : Core) (q : SeqId) (s : QSel) (o : Nat) : Bool :=
  k.ops.any fun x => x.fin.any fun f => match f with
    | .bind q' s' o' _ => decide ((s' = s ∧ (s.vec ∨ q' = q)) ∨ o' = o)
    | _ => false

/-- CBND. -/
def cbndBody (s : QSel) (a b : Src) (e : Env) (m : Mach) : Chk Mach := do
  let (v, n, m) ← e.src2 m a b
  let k := m.core e.c
  let o := wbits v 4 0
  must (decide (1 ≤ n.toNat ∧ n.toNat ≤ 65536) && !k.isBound (if s.vec then .cmp else e.q) s.vec s.q && (k.bindingOf o).isNone &&
    !k.bindPending (if s.vec then .cmp else e.q) s o) (e.trapWord tFmtrsv)
  .ok (e.startValues m [] 0 [.bind (if s.vec then .cmp else e.q) s o n.toNat])

/-- CBND.off ends a binding at once. -/
def cbndOffBody (a : Src) (e : Env) (m : Mach) : Chk Mach := do
  let (v, m) ← e.src m a
  let o := wbits v 4 0
  .ok (e.startValues (m.onCore e.c fun k => { k with bindings := k.bindings.filter fun b => decide (b.obj ≠ o) }) [] 0 [])

/-! ### Meanings -/

/-- CPY (R267). -/
def execCpy (t : Tok) (a : Src) (s : State) : Host.Outcome State Fault Refusal := attemptNext (.cpy t a) (cpyBody a) s
/-- CWT (R272). -/
def execCwt (t : Tok) (d : Dst) (a : Src) (s : State) : Host.Outcome State Fault Refusal :=
  attemptNext (.cwt t d a) (cwtBody false d a) s
/-- CWT.test (R272). -/
def execCwtTest (t : Tok) (d : Dst) (a : Src) (s : State) : Host.Outcome State Fault Refusal :=
  attemptNext (.cwtTest t d a) (cwtBody true d a) s
/-- CBND (R270). -/
def execCbnd (t : Tok) (q : QSel) (a b : Src) (s : State) : Host.Outcome State Fault Refusal :=
  attemptNext (.cbnd t q a b) (cbndBody q a b) s
/-- CBND.off (R271). -/
def execCbndOff (t : Tok) (a : Src) (s : State) : Host.Outcome State Fault Refusal :=
  attemptNext (.cbndOff t a) (cbndOffBody a) s
/-- COPY_COMPLETE (R263). -/
def execCopyComplete (c o : Nat) (s : State) : Host.Outcome State Fault Refusal :=
  .next { s with mach := copyComplete s.trust c o s.mach }
/-- ARRIVAL_ELEMENT_LANDS (R271). -/
def execArrivalElementLands (c o : Nat) (s : State) : Host.Outcome State Fault Refusal :=
  .next { s with mach := arrivalElement s.trust c o s.mach }

end Sys2Proof.Machine
end

