-- ==== Sys2Proof/Machine/Int.lean ====
section
/-! DEFINITION. The integer class (R97 to R114): the results as functions of the operands, and the meanings. -/

namespace Sys2Proof.Machine

/-! ### Results -/

/-- A result with its flags satur and divz (R99). -/
structure IntRes where
  val : Word
  satur : Bool
  divz : Bool
deriving DecidableEq, Repr

/-- A result without flags. -/
def plain (v : Word) : IntRes := ⟨v, false, false⟩

/-- A number narrowed to a range, as a result (R103, R104). -/
def clamped (lo hi x : Int) : IntRes := ⟨BitVec.ofInt 64 (clampTo lo hi x).1, (clampTo lo hi x).2, false⟩

/-- The low 32 bits of a word, which is all a .w form uses (R98). -/
def lo32 (x : Word) : BitVec 32 := x.setWidth 32

/-- ADD and SUB (R103). -/
def addSub (sub : Bool) (m : SatMode) (w : Bool) (x y : Word) : IntRes :=
  match m, w with
  | .wrap, false => plain (if sub then x - y else x + y)
  | .wrap, true => plain (sext64 (if sub then lo32 x - lo32 y else lo32 x + lo32 y))
  | .ss, false => clamped (-2 ^ 63) (2 ^ 63 - 1) (if sub then x.toInt - y.toInt else x.toInt + y.toInt)
  | .ss, true =>
    clamped (-2 ^ 31) (2 ^ 31 - 1) (if sub then (lo32 x).toInt - (lo32 y).toInt else (lo32 x).toInt + (lo32 y).toInt)
  | .us, false =>
    clamped 0 (2 ^ 64 - 1) (if sub then (x.toNat : Int) - y.toNat else (x.toNat : Int) + y.toNat)
  | .us, true =>
    clamped 0 (2 ^ 32 - 1)
      (if sub then ((lo32 x).toNat : Int) - (lo32 y).toNat else ((lo32 x).toNat : Int) + (lo32 y).toNat)

/-- MUL (R104). -/
def mulRes (f : MulForm) (x y : Word) : IntRes :=
  match f with
  | .low => plain (x * y)
  | .w => plain (sext64 (lo32 x * lo32 y))
  | .hs => plain ((x.signExtend 128 * y.signExtend 128).extractLsb' 64 64)
  | .hu => plain ((x.setWidth 128 * y.setWidth 128).extractLsb' 64 64)
  | .ss => clamped (-2 ^ 63) (2 ^ 63 - 1) (x.toInt * y.toInt)

/-- DIV of signed numbers of w bits (R105): quotient or remainder, truncated toward zero. -/
def divSigned {w : Nat} (rem : Bool) (x y : BitVec w) : Word :=
  BitVec.ofInt 64 (if rem then x.toInt.tmod y.toInt
    else if x.toInt = -2 ^ (w - 1) ∧ y.toInt = -1 then -2 ^ (w - 1) else x.toInt.tdiv y.toInt)

/-- DIV of unsigned numbers (R105). -/
def divUnsigned {w : Nat} (rem : Bool) (x y : BitVec w) : Word :=
  BitVec.ofNat 64 (if rem then x.toNat % y.toNat else x.toNat / y.toNat)

/-- DIV (R105). -/
def divRes (f : DivForm) (w : Bool) (x y : Word) : IntRes :=
  if (if w then lo32 y = 0 else y = 0) then ⟨BitVec.allOnes 64, false, true⟩
  else
    plain (match f, w with
      | .s, false => divSigned false x y
      | .s, true => divSigned false (lo32 x) (lo32 y)
      | .rs, false => divSigned true x y
      | .rs, true => divSigned true (lo32 x) (lo32 y)
      | .u, false => divUnsigned false x y
      | .u, true => divUnsigned false (lo32 x) (lo32 y)
      | .ru, false => divUnsigned true x y
      | .ru, true => divUnsigned true (lo32 x) (lo32 y))

/-- Latency of DIV (R101). -/
def divLatency (w : Bool) : Nat := if w then 10 else 18

/-- A shift of n bits by s, s below n (R107). -/
def shiftBy {n : Nat} (f : ShiftOp) (x : BitVec n) (s : Nat) : BitVec n :=
  match f with
  | .sll => x <<< s
  | .srl => x >>> s
  | .sra => x.sshiftRight s
  | .rol => x.rotateLeft s
  | .ror => x.rotateRight s

/-- SHF (R98, R107). -/
def shfRes (f : ShiftOp) (w : Bool) (x y : Word) : Word :=
  if w then
    let r := shiftBy f (lo32 x) (y.toNat % 32)
    if f = .srl then r.setWidth 64 else sext64 r
  else shiftBy f x (y.toNat % 64)

/-- Whether a relation holds between numbers of n bits (R108). -/
def relHolds {n : Nat} (f : CmpOp) (x y : BitVec n) : Bool :=
  match f with
  | .eq => decide (x = y)
  | .ne => decide (x ≠ y)
  | .lt => decide (x.toInt < y.toInt)
  | .ge => decide (y.toInt ≤ x.toInt)
  | .ltu => decide (x.toNat < y.toNat)
  | .geu => decide (y.toNat ≤ x.toNat)

/-- CMP (R108). -/
def cmpRes (f : CmpOp) (w : Bool) (x y : Word) : Word :=
  if (if w then relHolds f (lo32 x) (lo32 y) else relHolds f x y) then 1 else 0

/-- MINMAX (R110). -/
def minMaxRes (f : MinMaxOp) (x y : Word) : Word :=
  match f with
  | .mins => if x.toInt ≤ y.toInt then x else y
  | .maxs => if y.toInt ≤ x.toInt then x else y
  | .minu => if x.toNat ≤ y.toNat then x else y
  | .maxu => if y.toNat ≤ x.toNat then x else y

/-- Number of 1 bits. -/
def popCount {n : Nat} (x : BitVec n) : Nat := ((List.range n).filter fun i => x.getLsbD i).length
/-- Number of the lowest 1 bit, n when there is none. -/
def lowestOne {n : Nat} (x : BitVec n) : Nat := ((List.range n).find? fun i => x.getLsbD i).getD n
/-- Leading zero bits. -/
def leadingZeros {n : Nat} (x : BitVec n) : Nat := if x = 0 then n else n - 1 - Nat.log2 x.toNat

/-- The field of len bits from pos on, bits beyond bit 63 reading 0 (R111). -/
def bitField (x : Word) (pos len : Nat) : Nat := x.toNat / 2 ^ pos % 2 ^ len

/-- BITS (R111). -/
def bitsRes (f : BitsOp) (x y : Word) : Word :=
  let pos := wbits y 5 0
  let len := wbits y 13 8 + 1
  match f with
  | .pcnt => BitVec.ofNat 64 (popCount x)
  | .clz => BitVec.ofNat 64 (leadingZeros x)
  | .ctz => BitVec.ofNat 64 (lowestOne x)
  | .brev => x.reverse
  | .bswap => BitVec.ofNat 64 (leNat (leBytes 8 x.toNat).reverse)
  | .bfx => BitVec.ofNat 64 (bitField x pos len)
  | .bfxs => sext64 (BitVec.ofNat len (bitField x pos len))

/-- EXT (R112). -/
def extRes (f : ExtOp) (x y : Word) : Word :=
  match f with
  | .s8 => sext64 (x.setWidth 8)
  | .s16 => sext64 (x.setWidth 16)
  | .s32 => sext64 (x.setWidth 32)
  | .z8 => (x.setWidth 8).setWidth 64
  | .z16 => (x.setWidth 16).setWidth 64
  | .z32 => (x.setWidth 32).setWidth 64
  | .pack => (y.setWidth 32 : BitVec 32) ++ (x.setWidth 32 : BitVec 32)

/-- The shift of a scaled AGEN form (R114). -/
def AgenOp.scale : AgenOp → Nat
  | .x1 => 0 | .x2 => 1 | .x4 => 2 | .x8 => 3 | .x16 => 4 | .x64 => 6 | .x512 => 9 | .x4k => 12 | _ => 0

/-- AGEN.blkn (R114). -/
def agenBlkn (x y : Word) : Word :=
  let p : Int := (wbits x 35 16 * 32768 + wbits x 15 0 : Nat) + y.toInt
  BitVec.ofNat 64 (wbits x 63 36 * 2 ^ 36 + ((p / 32768) % 2 ^ 20).toNat * 2 ^ 16 + (p % 32768).toNat)

/-- AGEN (R114). -/
def agenRes (f : AgenOp) (x y : Word) : Word :=
  match f with
  | .glb => BitVec.ofNat 64 (wbits x 11 8 * 2 ^ 28 + wbits x 5 0 * 2 ^ 22 + wbits y 21 0)
  | .blk => BitVec.ofNat 64 (wbits x 27 0 * 2 ^ 36 + wbits y 35 0)
  | .blkn => agenBlkn x y
  | .loc => (x + y) &&& 0x7FFFF
  | f => x + y <<< AgenOp.scale f

/-- Latency of AGEN (R101). -/
def agenLatency (f : AgenOp) : Nat := if f = .blkn then 2 else 1

/-- Combine bit by bit, the second complemented for .n (R106). -/
def notIf (n : Bool) (y : Word) : Word := if n then ~~~y else y

/-! ### Meanings -/

/-- A timed instruction of two scalar sources: its result lands after its latency (R72, R101). -/
def timed2 (d : Dst) (a b : Src) (latency : Nat) (f : Word → Word → IntRes) (e : Env) (m : Mach) : Chk Mach := do
  let (x, y, m) ← e.src2 m a b
  let (l, m) ← e.dst m d .inFlight
  let r := f x y
  .ok (e.timed m latency (l.put r.val) r.satur r.divz)

/-- A timed instruction of one scalar source. -/
def timed1 (d : Dst) (a : Src) (latency : Nat) (f : Word → Word) (e : Env) (m : Mach) : Chk Mach := do
  let (x, m) ← e.src m a
  let (l, m) ← e.dst m d .inFlight
  .ok (e.timed m latency (l.put (f x)) false false)

/-- SEL reads its two sources, then pops the condition queue (R109). -/
def selBody (d : Dst) (z : Bool) (q : BitVec 3) (a b : Src) (e : Env) (m : Mach) : Chk Mach := do
  let (x, y, m) ← e.src2 m a b
  let (c, m) ← e.src m (.pop (q.setWidth 4))
  let (l, m) ← e.dst m d .inFlight
  .ok (e.timed m 1 (l.put (if decide (c = 0) = z then x else y)) false false)

/-- ADD (R103). -/
def execAdd (t : Tok) (d : Dst) (m : SatMode) (w : Bool) (a b : Src) (s : State) : Host.Outcome State Fault Refusal :=
  attemptNext (.add t d m w a b) (timed2 d a b 1 (addSub false m w)) s

/-- SUB (R103). -/
def execSub (t : Tok) (d : Dst) (m : SatMode) (w : Bool) (a b : Src) (s : State) : Host.Outcome State Fault Refusal :=
  attemptNext (.sub t d m w a b) (timed2 d a b 1 (addSub true m w)) s

/-- MUL (R104). -/
def execMul (t : Tok) (d : Dst) (f : MulForm) (a b : Src) (s : State) : Host.Outcome State Fault Refusal :=
  attemptNext (.mul t d f a b) (timed2 d a b 3 (mulRes f)) s

/-- DIV (R105). -/
def execDiv (t : Tok) (d : Dst) (f : DivForm) (w : Bool) (a b : Src) (s : State) : Host.Outcome State Fault Refusal :=
  attemptNext (.div t d f w a b) (timed2 d a b (divLatency w) (divRes f w)) s

/-- AND (R106). -/
def execAnd (t : Tok) (d : Dst) (n : Bool) (a b : Src) (s : State) : Host.Outcome State Fault Refusal :=
  attemptNext (.and t d n a b) (timed2 d a b 1 fun x y => plain (x &&& notIf n y)) s

/-- OR (R106). -/
def execOr (t : Tok) (d : Dst) (n : Bool) (a b : Src) (s : State) : Host.Outcome State Fault Refusal :=
  attemptNext (.or t d n a b) (timed2 d a b 1 fun x y => plain (x ||| notIf n y)) s

/-- XOR (R106). -/
def execXor (t : Tok) (d : Dst) (n : Bool) (a b : Src) (s : State) : Host.Outcome State Fault Refusal :=
  attemptNext (.xor t d n a b) (timed2 d a b 1 fun x y => plain (x ^^^ notIf n y)) s

/-- SHF (R107). -/
def execShf (t : Tok) (d : Dst) (f : ShiftOp) (w : Bool) (a b : Src) (s : State) : Host.Outcome State Fault Refusal :=
  attemptNext (.shf t d f w a b) (timed2 d a b 1 fun x y => plain (shfRes f w x y)) s

/-- CMP (R108). -/
def execCmp (t : Tok) (d : Dst) (f : CmpOp) (w : Bool) (a b : Src) (s : State) : Host.Outcome State Fault Refusal :=
  attemptNext (.cmp t d f w a b) (timed2 d a b 1 fun x y => plain (cmpRes f w x y)) s

/-- SEL (R109). -/
def execSel (t : Tok) (d : Dst) (z : Bool) (q : BitVec 3) (a b : Src) (s : State) : Host.Outcome State Fault Refusal :=
  attemptNext (.sel t d z q a b) (selBody d z q a b) s

/-- MINMAX (R110). -/
def execMinmax (t : Tok) (d : Dst) (f : MinMaxOp) (a b : Src) (s : State) : Host.Outcome State Fault Refusal :=
  attemptNext (.minmax t d f a b) (timed2 d a b 1 fun x y => plain (minMaxRes f x y)) s

/-- BITS (R111): the forms that take no srcB never read it. -/
def execBits (t : Tok) (d : Dst) (f : BitsOp) (a b : Src) (s : State) : Host.Outcome State Fault Refusal :=
  attemptNext (.bits t d f a b)
    (if f.usesB then timed2 d a b 1 fun x y => plain (bitsRes f x y) else timed1 d a 1 fun x => bitsRes f x 0) s

/-- AGEN (R114). -/
def execAgen (t : Tok) (d : Dst) (f : AgenOp) (a b : Src) (s : State) : Host.Outcome State Fault Refusal :=
  attemptNext (.agen t d f a b) (timed2 d a b (agenLatency f) fun x y => plain (agenRes f x y)) s

/-- LI (R113). -/
def execLi (t : Tok) (d : Dst) (i : BitVec 16) (s : State) : Host.Outcome State Fault Refusal :=
  attemptNext (.li t d i) (fun e m => do
    let (l, m) ← e.dst m d .inFlight
    .ok (e.timed m 1 (l.put (sext64 i)) false false)) s

/-- EXT (R112): only .pack reads srcB. -/
def execExt (t : Tok) (d : Dst) (f : ExtOp) (a b : Src) (s : State) : Host.Outcome State Fault Refusal :=
  attemptNext (.ext t d f a b)
    (if f = .pack then timed2 d a b 1 fun x y => plain (extRes f x y) else timed1 d a 1 fun x => extRes f x 0) s

end Sys2Proof.Machine
end

