-- ==== Sys2Proof/Machine/Transc.lean ====
section
/-! DEFINITION. The special functions, correctly rounded (R214): a result is enclosed between two fixed-point numbers, and
the precision grows until both round alike. Exact results and results beside a representable number are found apart. -/

namespace Sys2Proof.Machine

/-! ### Enclosures: lo / 2^p ≤ x ≤ hi / 2^p -/

/-- An enclosure of a non-negative number at a scale 2^p. -/
structure Iv where
  lo : Nat
  hi : Nat
deriving DecidableEq, Repr

/-- The product. -/
def Iv.mul (p : Nat) (a b : Iv) : Iv := ⟨a.lo * b.lo / 2 ^ p, a.hi * b.hi / 2 ^ p + 1⟩
/-- The quotient, for a divisor that is not 0. -/
def Iv.div (p : Nat) (a b : Iv) : Iv := ⟨a.lo * 2 ^ p / b.hi, a.hi * 2 ^ p / b.lo + 1⟩
/-- The sum. -/
def Iv.add (a b : Iv) : Iv := ⟨a.lo + b.lo, a.hi + b.hi⟩
/-- The difference, which is not negative. -/
def Iv.sub (a b : Iv) : Iv := ⟨a.lo - b.hi, a.hi - b.lo⟩
/-- A multiple. -/
def Iv.scale (n : Nat) (a : Iv) : Iv := ⟨n * a.lo, n * a.hi⟩
/-- A quotient by a number. -/
def Iv.over (n : Nat) (a : Iv) : Iv := ⟨a.lo / n, a.hi / n + 1⟩
/-- One. -/
def Iv.one (p : Nat) : Iv := ⟨2 ^ p, 2 ^ p⟩
/-- m × 2^e. -/
def Iv.dyadic (p m : Nat) (e : Int) : Iv :=
  let s := (p : Int) + e
  if 0 ≤ s then ⟨m * 2 ^ s.toNat, m * 2 ^ s.toNat⟩ else ⟨m / 2 ^ (-s).toNat, m / 2 ^ (-s).toNat + 1⟩

/-- n terms of the exponential series of y below 1, after the term t of number k. -/
def expTerms (p : Nat) (y : Iv) : Nat → Nat → Iv → Iv → Iv
  | 0, _, t, s => ⟨s.lo, s.hi + t.hi + 1⟩
  | n + 1, k, t, s =>
    let t := (t.mul p y).over (k + 1)
    expTerms p y n (k + 1) t (s.add t)

/-- n squarings. -/
def squares (p : Nat) : Nat → Iv → Iv
  | 0, x => x
  | n + 1, x => squares p n (x.mul p x)

/-- e^y for y below 2^12: the argument is halved 16 times, and the result squared as often. -/
def expIv (p : Nat) (y : Iv) : Iv := squares p 16 (expTerms p (y.over 65536) (p / 4 + 8) 0 (.one p) (.one p))

/-- n terms of the series of atanh u, for u at most 1/3: t is u^(2k+1). -/
def atanhTerms (p : Nat) (u2 : Iv) : Nat → Nat → Iv → Iv → Iv
  | 0, _, t, s => ⟨s.lo, s.hi + t.hi + 1⟩
  | n + 1, k, t, s => atanhTerms p u2 n (k + 1) (t.mul p u2) (s.add (t.over (2 * k + 1)))

/-- atanh u for u at most 1/3. -/
def atanhIv (p : Nat) (u : Iv) : Iv := atanhTerms p (u.mul p u) (p / 3 + 8) 0 u ⟨0, 0⟩

/-- ln 2. -/
def ln2Iv (p : Nat) : Iv := (atanhIv p ((Iv.one p).over 3)).scale 2

/-- n terms of the series of arctan (1 / d), alternating: t is (1/d)^(2k+1); plus and minus sums apart. -/
def atanTerms (p d2 : Nat) : Nat → Nat → Iv → Iv → Iv → Iv × Iv
  | 0, _, t, a, b => (⟨a.lo, a.hi + t.hi + 1⟩, ⟨b.lo, b.hi + t.hi + 1⟩)
  | n + 1, k, t, a, b =>
    let x := t.over (2 * k + 1)
    if k % 2 = 0 then atanTerms p d2 n (k + 1) (t.over d2) (a.add x) b
    else atanTerms p d2 n (k + 1) (t.over d2) a (b.add x)

/-- arctan (1 / d). -/
def atanInv (p d : Nat) : Iv :=
  let (a, b) := atanTerms p (d * d) (p / 4 + 8) 0 ((Iv.one p).over d) ⟨0, 0⟩ ⟨0, 0⟩
  a.sub b

/-- π, by Machin's formula. -/
def piIv (p : Nat) : Iv := ((atanInv p 5).scale 16).sub ((atanInv p 239).scale 4)

/-- The integer square root, a bit at a time. -/
def isqrtFrom (n : Nat) : Nat → Nat → Nat
  | 0, r => r
  | b + 1, r => isqrtFrom n b (if (r + 2 ^ b) * (r + 2 ^ b) ≤ n then r + 2 ^ b else r)

/-- ⌊√n⌋. -/
def isqrt (n : Nat) : Nat := isqrtFrom n (n.log2 / 2 + 1) 0

/-- The square root of an enclosure. -/
def Iv.sqrt (p : Nat) (a : Iv) : Iv := ⟨isqrt (a.lo * 2 ^ p), isqrt (a.hi * 2 ^ p) + 1⟩

/-- n terms of Σ x^(2k+1) / (1·3·…·(2k+1)): t is the term of number k. -/
def oddTerms (p : Nat) (x2 : Iv) : Nat → Nat → Iv → Iv → Iv
  | 0, _, t, s => ⟨s.lo, s.hi + t.hi + 1⟩
  | n + 1, k, t, s =>
    let t := (t.mul p x2).over (2 * k + 3)
    oddTerms p x2 n (k + 1) t (s.add t)

/-- Φ(x) − 1/2 for 0 < x ≤ 16: the normal density times the odd series. -/
def halfNormal (p : Nat) (x : Iv) : Iv :=
  let x2 := x.mul p x
  let dens := (Iv.one p).div p ((((piIv p).scale 2).sqrt p).mul p (expIv p (x2.over 2)))
  dens.mul p (oddTerms p x2 (p + 800) 0 x x)

/-! ### Rounding an enclosure -/

/-- A number strictly between m and m + 1 units of 2^e. -/
def between (f : FloatFmt) (neg : Bool) (m : Nat) (e : Int) : Rd := f.round .rne false 0 neg (2 * m + 1) (e - 1)

/-- The rounding of an irrational number in an enclosure, when both ends agree. -/
def Iv.settle (f : FloatFmt) (neg : Bool) (p : Nat) (x : Iv) : Option Rd :=
  let a := between f neg x.lo (-(p : Int))
  if a = between f neg (x.hi - 1) (-(p : Int)) then some a else none

/-- The precisions that are tried. -/
def precisions : List Nat := [320, 640, 1280]

/-- The first precision at which an enclosure settles; the free value stands where none does (log 25). -/
def settled (f : FloatFmt) (op bits : Nat) (g : Nat → Option Rd) : Rd :=
  (precisions.findSome? g).getD ⟨(Config.specialBits op bits).toNat % 2 ^ (f.sign + 1), fInx⟩

/-! ### The functions on positive arguments m × 2^e -/

/-- Whether m × 2^e is below 2^n. -/
def below (m : Nat) (e n : Int) : Bool := decide ((m.log2 : Int) + e < n)

/-- 2^(± m × 2^e). -/
def exp2Of (f : FloatFmt) (bits : Nat) (neg : Bool) (m : Nat) (e : Int) : Rd :=
  if !below m e 9 then (if neg then between f false 0 (-600) else f.round .rne false 0 false 1 600)
  else if below m e (-60) then
    (if neg then between f false (2 ^ 59 - 1) (-59) else between f false (2 ^ 59) (-59))
  else
    let fr : Nat := if 0 ≤ e then 0 else m % 2 ^ (-e).toNat
    let ip : Nat := if 0 ≤ e then m * 2 ^ e.toNat else m / 2 ^ (-e).toNat
    if fr = 0 then f.round .rne false 0 false 1 (if neg then -(ip : Int) else ip)
    else
      let (k, y) : Int × Nat := if neg then (-(ip : Int) - 1, 2 ^ (-e).toNat - fr) else (ip, fr)
      settled f 0 bits fun p =>
        let x := expIv p ((Iv.dyadic p y e).mul p (ln2Iv p))
        let a := between f false x.lo (k - p)
        if a = between f false (x.hi - 1) (k - p) then some a else none

/-- log2 (m × 2^e). -/
def log2Of (f : FloatFmt) (bits : Nat) (m : Nat) (e : Int) : Rd :=
  let n := m.log2
  let k : Int := (n : Int) + e
  if m = 2 ^ n then (if k = 0 then ⟨0, 0⟩ else f.round .rne false 0 (decide (k < 0)) k.natAbs 0)
  else
    settled f 1 bits fun p =>
      let z := Iv.dyadic p m (-(n : Int))
      let u := (z.sub (.one p)).div p (z.add (.one p))
      let l := ((atanhIv p u).scale 2).div p (ln2Iv p)
      if 0 ≤ k then (l.add ((Iv.one p).scale k.toNat)).settle f false p
      else (((Iv.one p).scale k.natAbs).sub l).settle f true p

/-- 1 / (m × 2^e). -/
def rcpOf (f : FloatFmt) (neg : Bool) (m : Nat) (e : Int) : Rd :=
  let q := 2 ^ (m.log2 + 64) / m
  let x : Int := -e - (m.log2 + 64 : Nat)
  if 2 ^ (m.log2 + 64) % m = 0 then f.round .rne false 0 neg q x else between f neg q x

/-- √(m × 2^e). -/
def sqrtOf (f : FloatFmt) (m : Nat) (e : Int) : Rd :=
  let odd := decide (e % 2 ≠ 0)
  let n := (if odd then 2 * m else m) * 2 ^ 128
  let h : Int := ((if odd then e - 1 else e) - 128) / 2
  let r := isqrt n
  if r * r = n then f.round .rne false 0 false r h else between f false r h

/-- 1 / √(m × 2^e). -/
def rsqrtOf (f : FloatFmt) (m : Nat) (e : Int) : Rd :=
  let odd := decide (e % 2 ≠ 0)
  let d := if odd then 2 * m else m
  let h : Int := -((if odd then e - 1 else e) / 2) - 128
  let n := 2 ^ 256 / d
  let r := isqrt n
  if r * r * d = 2 ^ 256 then f.round .rne false 0 false r h else between f false r h

/-- tanh (± m × 2^e). -/
def tanhOf (f : FloatFmt) (bits : Nat) (neg : Bool) (m : Nat) (e : Int) : Rd :=
  if below m e (-40) then between f neg (m * 2 ^ 64 - 1) (e - 64)
  else if !below m e 7 then between f neg (2 ^ 64 - 1) (-64)
  else
    settled f 2 bits fun p =>
      let x := expIv p (Iv.dyadic p m (e + 1))
      ((x.sub (.one p)).div p (x.add (.one p))).settle f neg p

/-- The enclosure of 1 / (1 + e^(∓x)) for x = m × 2^e. -/
def sigmIv (p : Nat) (neg : Bool) (m : Nat) (e : Int) : Iv :=
  let x := expIv p (Iv.dyadic p m e)
  if neg then (Iv.one p).div p (x.add (.one p)) else x.div p (x.add (.one p))

/-- 1 / (1 + e^(−x)) for x = ± m × 2^e. -/
def sigmOf (f : FloatFmt) (bits : Nat) (neg : Bool) (m : Nat) (e : Int) : Rd :=
  if below m e (-60) then between f false (if neg then 2 ^ 63 - 1 else 2 ^ 63) (-64)
  else if !below m e 8 then (if neg then between f false 0 (-300) else between f false (2 ^ 64 - 1) (-64))
  else settled f 3 bits fun p => (sigmIv p neg m e).settle f false p

/-- x / (1 + e^(−x)) for x = ± m × 2^e. -/
def siluOf (f : FloatFmt) (bits : Nat) (neg : Bool) (m : Nat) (e : Int) : Rd :=
  if below m e (-60) then between f neg (if neg then m * 2 ^ 32 - 1 else m * 2 ^ 32) (e - 33)
  else if !below m e 9 then (if neg then between f true 0 (-300) else between f false (m * 2 ^ 64 - 1) (e - 64))
  else settled f 4 bits fun p => ((sigmIv p neg m e).mul p (Iv.dyadic p m e)).settle f neg p

/-- x × Φ(x) for x = ± m × 2^e. -/
def geluOf (f : FloatFmt) (bits : Nat) (neg : Bool) (m : Nat) (e : Int) : Rd :=
  if below m e (-60) then between f neg (if neg then m * 2 ^ 32 - 1 else m * 2 ^ 32) (e - 33)
  else if !below m e 4 then (if neg then between f true 0 (-180) else between f false (m * 2 ^ 64 - 1) (e - 64))
  else
    settled f 5 bits fun p =>
      let x := Iv.dyadic p m e
      let h := halfNormal p x
      let half := (Iv.one p).over 2
      ((if neg then half.sub h else half.add h).mul p x).settle f neg p

/-! ### The special values (R214) -/

/-- The functions of SFA, SFB and SFC. -/
inductive Special where
  | a (f : SfaOp)
  | b (f : SfbOp)
  | c (f : SfcOp)
deriving DecidableEq, Repr

/-- The code of 1 in a format. -/
def FloatFmt.one (f : FloatFmt) : Nat := f.bias * 2 ^ f.mb

/-- A special function of a value: its special values, or the correctly rounded result. -/
def special (f : FloatFmt) (op : Special) (bits : Nat) (v : Val) : Rd :=
  match v with
  | .nan neg sig => ⟨f.nan neg, if sig then fInv else 0⟩
  | .inf neg =>
    match op with
    | .a .exp2 => ⟨if neg then 0 else f.inf false, 0⟩
    | .a .log2 => if neg then f.invalid else ⟨f.inf false, 0⟩
    | .b .rcp => ⟨f.signed neg 0, 0⟩
    | .b .rsqrt => if neg then f.invalid else ⟨0, 0⟩
    | .b .sqrt => if neg then f.invalid else ⟨f.inf false, 0⟩
    | .c .tanh => ⟨f.signed neg f.one, 0⟩
    | .c .sigm => ⟨if neg then 0 else f.one, 0⟩
    | .c .silu => ⟨if neg then f.signed true 0 else f.inf false, 0⟩
    | .c .gelu => ⟨if neg then f.signed true 0 else f.inf false, 0⟩
  | .fin neg 0 _ =>
    match op with
    | .a .exp2 => ⟨f.one, 0⟩
    | .a .log2 => ⟨f.inf true, 0⟩
    | .b .rcp => ⟨f.inf neg, 0⟩
    | .b .rsqrt => ⟨f.inf neg, 0⟩
    | .b .sqrt => ⟨f.signed neg 0, 0⟩
    | .c .tanh => ⟨f.signed neg 0, 0⟩
    | .c .sigm => f.round .rne false 0 false 1 (-1)
    | .c .silu => ⟨f.signed neg 0, 0⟩
    | .c .gelu => ⟨f.signed neg 0, 0⟩
  | .fin neg m e =>
    match op with
    | .a .exp2 => exp2Of f bits neg m e
    | .a .log2 => if neg then f.invalid else log2Of f bits m e
    | .b .rcp => rcpOf f neg m e
    | .b .rsqrt => if neg then f.invalid else rsqrtOf f m e
    | .b .sqrt => if neg then f.invalid else sqrtOf f m e
    | .c .tanh => tanhOf f bits neg m e
    | .c .sigm => sigmOf f bits neg m e
    | .c .silu => siluOf f bits neg m e
    | .c .gelu => geluOf f bits neg m e

end Sys2Proof.Machine
end

