-- ==== Sys2Proof/Machine/Vec.lean ====
section
/-! DEFINITION. The vector instructions of class VEC, VLANE, VDOT, SFA, SFB, SFC and SMXS (R192 to R216): the type checks,
the results as functions of elements, and the meanings. -/

namespace Sys2Proof.Machine

/-! ### Operands (R41, R192, R193) -/

/-- The type tag of the first vector queue source (R192). -/
def typeOf : List VOp → Fmt
  | [] => .b
  | .entry e :: _ => e.tag
  | _ :: r => typeOf r

/-- The tag of an operand: broadcast operands take the type (R41). -/
def VOp.tag (t : Fmt) : VOp → Fmt
  | .entry e => e.tag
  | _ => t

/-- The element that lane index i gives in a type; one that the type has no number for is a free value (log 29). -/
def laneValue (t : Fmt) (i : Nat) : Nat :=
  let w := fmtW t
  match t with
  | .e8 => if i = 2 ^ i.log2 then i.log2 + 127 else Config.laneBits 14 i % 2 ^ w
  | .b => Config.laneBits 15 i % 2 ^ w
  | t =>
    let r := convTo t .rne false 0 (.ofInt i)
    if r.flags = 0 then r.bits else Config.laneBits t.code.toNat i % 2 ^ w

/-- The elements of an operand in a type, an f6 container's high bits read as 0 (R41, R173). -/
def VOp.elems (t : Fmt) : VOp → List Nat
  | .entry e => (elemsOf t e.bits).map (cleanBits t)
  | .scal w => List.replicate (fmtN t) (cleanBits t (w.toNat % 2 ^ fmtW t))
  | .lane => (List.range (fmtN t)).map (laneValue t)

/-- TYPEMIS: the tag asked for and the tag found (R192, R193). -/
def typemis (want found : Fmt) : Halt := .trap tTypemis (BitVec.ofNat 64 (want.code.toNat * 16 + found.code.toNat))

/-- TYPEMIS when a type is of a kind that an instruction does not accept (R193). -/
def needKind (ok : Kind → Bool) (t : Fmt) : Chk Unit := must (ok (kindOf t)) (typemis .f32 t)

/-- TYPEMIS when a type is no integer, for an instruction that takes integers only (R193). -/
def needInt (t : Fmt) : Chk Unit :=
  must (decide (kindOf t = .int)) (typemis (if t = .b then .i32 else intTag (fmtW t)) t)

/-- TYPEMIS at the first operand whose tag is not the type (R192). -/
def needSame (t : Fmt) : List VOp → Chk Unit
  | [] => .ok ()
  | x :: r => if x.tag t = t then needSame t r else .error (typemis t (x.tag t))

/-- Every kind but untyped. -/
def anyKind (k : Kind) : Bool := decide (k ≠ .untyped)
/-- Wide floats only. -/
def wideKind (k : Kind) : Bool := decide (k = .wide)

/-- FMTRSV unless a condition holds (R193). -/
def Env.needFmt (e : Env) (b : Bool) : Chk Unit := must b (e.trapWord tFmtrsv)

/-- Two vector sources. -/
def Env.srcV2 (e : Env) (m : Mach) (a b : Src) : Chk (List VOp × Mach) := do
  let (x, m) ← e.srcV m a
  let (y, m) ← e.srcV m b
  .ok ([x, y], m)

/-- Two vector sources and the third. -/
def Env.srcV3 (e : Env) (m : Mach) (a b : Src) (q : BitVec 3) : Chk (List VOp × Mach) := do
  let (l, m) ← e.srcV2 m a b
  let (z, m) ← e.third m q
  .ok (l ++ [.entry z], m)

/-! ### Results (R195) -/

/-- What a vector instruction computes: its entries, its flags, and the positions that hold subnormals (R179). -/
structure VRes where
  outs : List VEntry
  flags : BitVec 7
  subs : Nat
deriving DecidableEq, Repr

/-- A vector result for a landing place; a loop register receives a free value (R42; log 24). -/
def Mach.vland (m : Mach) (l : Landing) (v : VEntry) : Landing × Mach :=
  match l with
  | .loop q k _ => (.loop q k (Config.vectorInLoop m.free), { m with free := m.free + 1 })
  | l => (l.putV v, m)

/-- Places for the result entries, reserved in order (R64, R181). -/
def Env.dstVs (e : Env) (d : Dst) : List VEntry → Mach → Chk (List Landing × Mach)
  | [], m => .ok ([], m)
  | v :: r, m => do
    let (l, m) ← e.dstV m d .pending
    let (l, m) := m.vland l v
    let (ls, m) ← e.dstVs d r m
    .ok (l :: ls, m)

/-- A replay freezes cmp for 12 + ⌈s / 8⌉ cycles (R179). -/
def Core.replayFor (k : Core) (s : Nat) : Core := if s = 0 then k else { k with replay := 12 + (s + 7) / 8 }

/-- Start a vector instruction with its result: places, flags at the finish, replay. -/
def Env.vres (e : Env) (m : Mach) (d : Dst) (r : VRes) : Chk Mach := do
  let (ls, m) ← e.dstVs d r.outs m
  .ok ((e.startValues m ls r.flags []).onCore e.c fun k => k.replayFor r.subs)

/-- Start an instruction that writes a mask register (R194). DESIGN CHOICE: the checks of its sources come before the stall for a
pending write of that mask, while an instruction that reads a mask stalls first (log 145). -/
def Env.maskRes (e : Env) (m : Mach) (k : Fin 7) (bits : MaskBits) (flags : BitVec 7) : Chk Mach := do
  (m.core e.c).maskReady (k.val + 1)
  let m := m.onCore e.c fun c =>
    let g := c.maskReg (k.val + 1)
    { c with masks := SMap.put ⟨0, 0⟩ c.masks (k.val + 1) { g with pending := g.pending + 1 } }
  .ok (e.startValues m [.mask k bits 0] flags [.unmask k])

/-- Positions that hold a subnormal of their format in any of some lists (R179). -/
def subCount : List (Fmt × List Nat) → Nat
  | l =>
    let n := (l.map fun p => p.2.length).foldl max 0
    ((List.range n).filter fun i => l.any fun p => isSub p.1 (p.2.getD i 0)).length

/-- Results of elements joined: bits and flags. -/
def joinRd (l : List Rd) : List Nat × BitVec 7 := (l.map Rd.bits, l.foldl (fun f r => f ||| r.flags) 0)

/-! ### Element-wise arithmetic (R199, R200) -/

/-- An integer result narrowed to a format (R199). -/
def intRes (t : Fmt) (sat : Bool) (x : Int) : Rd :=
  let (lo, hi) := intLimits t
  if sat then
    let (y, c) := clampTo lo hi x
    ⟨intBits t y, if c then fSatur else 0⟩
  else ⟨intBits t x, 0⟩

/-- The three operations of R199. -/
inductive ArithOp where | add | sub | mul
deriving DecidableEq, Repr

/-- VADD, VSUB and VMUL of two elements (R198, R199). -/
def arithEl (t : Fmt) (op : ArithOp) (sat : Bool) (mode : Rnd) (a b : Nat) : Rd :=
  match floatFmt t with
  | some f =>
    match op with
    | .add => f.add mode sat (f.value a) (f.value b)
    | .sub => f.add mode sat (f.value a) (f.value b).neg
    | .mul => f.mul mode sat (f.value a) (f.value b)
  | none =>
    intRes t sat (match op with
      | .add => intValue t a + intValue t b
      | .sub => intValue t a - intValue t b
      | .mul => intValue t a * intValue t b)

/-- VFMA of three elements (R200). -/
def fmaEl (t : Fmt) (neg : Bool) (a b c : Nat) : Rd :=
  match floatFmt t with
  | some f => f.sumOf neg [(f.value a, f.value b)] (f.value c)
  | none =>
    let p := intValue t a * intValue t b
    intRes t false ((if neg then -p else p) + intValue t c)

/-- The type checks of VADD, VSUB, VMUL and VFMA (R199). DESIGN CHOICE: where the type is of a kind not accepted and another source
carries another tag, the kind is reported, R193 before R192 (log 145). -/
def Env.arithType (e : Env) (l : List VOp) (mode : Rnd) : Chk Fmt := do
  let t := typeOf l
  needKind anyKind t
  needSame t l
  e.needFmt (decide (kindOf t = .wide) || (decide (kindOf t = .int) && decide (mode = .rne)))
  .ok t

/-- Element i of operand n of a list. -/
def opAt (l : List (List Nat)) (n i : Nat) : Nat := (l.getD n []).getD i 0

/-- VADD, VSUB and VMUL. -/
def arithBody (op : ArithOp) (d : Dst) (sat : Bool) (mode : Rnd) (a b : Src) (e : Env) (m : Mach) : Chk Mach := do
  let (l, m) ← e.srcV2 m a b
  let t ← e.arithType l mode
  let xs := l.map (VOp.elems t)
  let (out, fl) := joinRd (List.zipWith (arithEl t op sat mode) (xs.getD 0 []) (xs.getD 1 []))
  e.vres m d ⟨[entryOf t out], fl, subCount ((out :: xs).map fun x => (t, x))⟩

/-- VFMA. -/
def vfmaBody (d : Dst) (neg : Bool) (q : BitVec 3) (a b : Src) (e : Env) (m : Mach) : Chk Mach := do
  let (l, m) ← e.srcV3 m a b q
  let t ← e.arithType l .rne
  let xs := l.map (VOp.elems t)
  let (out, fl) := joinRd (List.zipWith (fun (p : Nat × Nat) c => fmaEl t neg p.1 p.2 c)
    (List.zip (xs.getD 0 []) (xs.getD 1 [])) (xs.getD 2 []))
  e.vres m d ⟨[entryOf t out], fl, subCount ((out :: xs).map fun x => (t, x))⟩

/-! ### Comparison, selection and bits (R201 to R205) -/

/-- VMNX. -/
def vmnxBody (d : Dst) (f : MnxOp) (a b : Src) (e : Env) (m : Mach) : Chk Mach := do
  let (l, m) ← e.srcV2 m a b
  let t := typeOf l
  needKind anyKind t
  needSame t l
  let xs := l.map (VOp.elems t)
  let (out, fl) := joinRd (List.zipWith (mnx t f) (xs.getD 0 []) (xs.getD 1 []))
  e.vres m d ⟨[entryOf t out], fl, 0⟩

/-- The mask whose bit i is element i of a list. -/
def maskOf (l : List Bool) : MaskBits := BitVec.ofNat 1024 (undigits 1 (l.map fun b => if b then 1 else 0))

/-- VCMP. -/
def vcmpBody (d : Dst) (sig : Bool) (c : VcmpOp) (a b : Src) (e : Env) (m : Mach) : Chk Mach := do
  let (l, m) ← e.srcV2 m a b
  let t := typeOf l
  needKind anyKind t
  needSame t l
  let xs := l.map (VOp.elems t)
  let rs := List.zipWith (vcmp t sig c) (xs.getD 0 []) (xs.getD 1 [])
  let fl := rs.foldl (fun f r => f ||| r.2) 0
  match d with
  | .mask k => e.maskRes m k (maskOf (rs.map Prod.fst)) fl
  | d => e.vres m d ⟨[entryOf (intTag (fmtW t)) (rs.map fun r => if r.1 then 2 ^ fmtW t - 1 else 0)], fl, 0⟩

/-- The nibble that a broadcast value repeats in all its low 32 bits, if it does. -/
def nibbleOf (w : Word) : Option Nat :=
  let n := w.toNat % 16
  if w.toNat % 2 ^ 32 = n * 0x11111111 then some n else none

/-- The bits of an operand where no width is known; none when they would depend on one (log 30). -/
def VOp.rawBits : VOp → Option Nat
  | .entry e => some e.bits.toNat
  | .scal w => (nibbleOf w).map fun n => undigits 4 (List.replicate 1024 n)
  | .lane => none

/-- The bits of an operand of VLOG in a type: all 4,096, those that a value of a six-bit format does not use among them (R41, R204;
log 44). -/
def VOp.bitsIn (t : Fmt) : VOp → Option Nat
  | .entry e => some e.bits.toNat
  | .scal w => if t = .b then (VOp.scal w).rawBits else some (undigits (fmtW t) (List.replicate (fmtN t) (w.toNat % 2 ^ fmtW t)))
  | .lane => if t = .b then VOp.lane.rawBits else some (undigits (fmtW t) (VOp.lane.elems t))

/-- An entry from bits that may depend on a width the operands do not have: a free value there (log 30). -/
def Mach.orUntyped (m : Mach) (t : Fmt) : Option Nat → VEntry × Mach
  | some n => (⟨t, BitVec.ofNat 4096 n⟩, m)
  | none => (⟨t, Config.untyped m.free⟩, { m with free := m.free + 1 })

/-- VSEL. -/
def vselBody (d : Dst) (inv : Bool) (k : BitVec 3) (a b : Src) (e : Env) (m : Mach) : Chk Mach := do
  let (l, m) ← e.srcV2 m a b
  (m.core e.c).maskReady k.toNat
  let t := typeOf l
  needSame t l
  let mk := ((m.core e.c).maskReg k.toNat).bits
  let x := l.getD (if inv then 1 else 0) .lane
  let y := l.getD (if inv then 0 else 1) .lane
  let bits : Option Nat :=
    if t = .b then
      if mk = BitVec.allOnes 1024 then x.rawBits else if mk = 0 then y.rawBits else none
    else
      some (undigits (fmtW t) ((List.zip (x.elems t) (y.elems t)).mapIdx fun i p => if mk.getLsbD i then p.1 else p.2))
  let (v, m) := m.orUntyped t bits
  e.vres m d ⟨[v], 0, 0⟩

/-- VLOG of two entries (R204). -/
def vlogBits (f : VlogOp) (x y : Nat) : Nat :=
  match f with
  | .and => x &&& y
  | .or => x ||| y
  | .xor => x ^^^ y
  | .andn => x &&& (2 ^ 4096 - 1 - y)
  | .not => 2 ^ 4096 - 1 - x

/-- VLOG. DESIGN CHOICE: over all 4,096 bits as R204 says, bits 7:6 of six-bit containers too, which R173 writes as 0 (log 44). -/
def vlogBody (d : Dst) (f : VlogOp) (a b : Src) (e : Env) (m : Mach) : Chk Mach := do
  let (l, m) ← if f = .not then do
      let (x, m) ← e.srcV m a
      .ok ([x], m)
    else e.srcV2 m a b
  let t := typeOf l
  needSame t l
  let x := ((l.getD 0 .lane).bitsIn t)
  let y := if f = .not then some 0 else (l.getD 1 .lane).bitsIn t
  let bits := x.bind fun x => y.map fun y => vlogBits f x y
  let (v, m) := m.orUntyped t bits
  e.vres m d ⟨[v], 0, 0⟩

/-- A shift within an element (R107, R205). -/
def shfEl (f : ShiftOp) (w x s : Nat) : Nat := (shiftBy f (BitVec.ofNat w x) (s % w)).toNat

/-- VSHF. -/
def vshfBody (d : Dst) (f : ShiftOp) (a b : Src) (e : Env) (m : Mach) : Chk Mach := do
  let (l, m) ← e.srcV2 m a b
  let t := typeOf l
  needInt t
  let tb := (l.getD 1 .lane).tag t
  must (decide (kindOf tb = .int ∧ fmtW tb = fmtW t)) (typemis t tb)
  let xs := l.map (VOp.elems t)
  let out := List.zipWith (shfEl f (fmtW t)) (xs.getD 0 []) (xs.getD 1 [])
  e.vres m d ⟨[entryOf t out], 0, 0⟩

/-! ### Moving elements (R206 to R209) -/

/-- VPRM's forms other than .idx on elements; s is the amount of .rot (R206). -/
def vprmEls (f : VprmOp) (s : Nat) (x y : List Nat) : List Nat :=
  let n := x.length
  let h := n / 2
  (List.range n).map fun i =>
    match f with
    | .idx => x.getD (y.getD i 0 % n) 0
    | .rot => x.getD ((i + s) % n) 0
    | .rev => x.getD (n - 1 - i) 0
    | .zlo => if i % 2 = 0 then x.getD (i / 2) 0 else y.getD (i / 2) 0
    | .zhi => if i % 2 = 0 then x.getD (h + i / 2) 0 else y.getD (h + i / 2) 0
    | .uev => if i < h then x.getD (2 * i) 0 else y.getD (2 * (i - h)) 0
    | .uod => if i < h then x.getD (2 * i + 1) 0 else y.getD (2 * (i - h) + 1) 0

/-- VPRM of two vectors. -/
def vprm2Body (d : Dst) (f : VprmOp) (a b : Src) (e : Env) (m : Mach) : Chk Mach := do
  let (l, m) ← e.srcV2 m a b
  let t := typeOf l
  let x := l.getD 0 .lane
  let y := l.getD 1 .lane
  needKind anyKind t
  if f = .idx then
    needSame t [x]
    let tb : Fmt := match y with | .entry v => v.tag | _ => intTag (fmtW t)
    must (decide (kindOf tb = .int ∧ fmtW tb = fmtW t)) (typemis t tb)
    e.needFmt (decide (16 ≤ fmtW t))
    e.vres m d ⟨[entryOf t (vprmEls f 0 (x.elems t) (y.elems (intTag (fmtW t))))], 0, 0⟩
  else
    needSame t l
    e.vres m d ⟨[entryOf t (vprmEls f 0 (x.elems t) (y.elems t))], 0, 0⟩

/-- VPRM.rot and VPRM.rev. -/
def vprm1Body (d : Dst) (f : VprmOp) (a b : Src) (e : Env) (m : Mach) : Chk Mach := do
  let (x, m) ← e.srcV m a
  let (s, m) ← if f = .rot then e.src m b else .ok (0, m)
  let t := typeOf [x]
  needKind anyKind t
  e.vres m d ⟨[entryOf t (vprmEls f s.toNat (x.elems t) [])], 0, 0⟩

/-- VBRD. -/
def vbrdBody (d : Dst) (x : VbrdForm) (e : Env) (m : Mach) : Chk Mach := do
  match x with
  | .e a b =>
    let (x, m) ← e.srcV m a
    let (s, m) ← e.src m b
    let t := typeOf [x]
    needKind anyKind t
    let xs := x.elems t
    e.vres m d ⟨[entryOf t (List.replicate xs.length (xs.getD (s.toNat % xs.length) 0))], 0, 0⟩
  | .x a f =>
    let (v, m) ← e.src m a
    e.needFmt (decide (f ≠ .b))
    e.vres m d ⟨[entryOf f ((VOp.scal v).elems f)], 0, 0⟩

/-- The scalar that VLANE gives for an element (R208). -/
def laneWord (t : Fmt) (x : Nat) : Word :=
  if kindOf t = .int ∧ !fmtUnsigned t then BitVec.ofInt 64 (intValue t x) else BitVec.ofNat 64 x

/-- VLANE. -/
def vlaneBody (d : Dst) (a b : Src) (e : Env) (m : Mach) : Chk Mach := do
  let (x, m) ← e.srcV m a
  let (s, m) ← e.src m b
  let t := typeOf [x]
  needKind anyKind t
  let (l, m) ← e.dst m d .pending
  let xs := x.elems t
  .ok (e.startValues m [l.put (if s.toNat < xs.length then laneWord t (xs.getD s.toNat 0) else 0)] 0 [])

/-- The first q heads of the queue that a source names, in order; popped unless it peeks (R181). -/
def Env.heads (e : Env) (n : BitVec 4) : Nat → Mach → Chk (List VEntry × Mach)
  | 0, m => .ok ([], m)
  | k + 1, m => do
    let v ← (m.core e.c).headV n
    let (r, m) ← e.heads n k (m.onCore e.c fun c => c.popV n)
    .ok (v :: r, m)

/-- The logical vector that a narrowing instruction reads: element q·i + k is lane i of entry k (R181). -/
def interleave (ls : List (List Nat)) : List Nat :=
  let n := (ls.headD []).length
  (List.range n).flatMap fun i => ls.map fun l => l.getD i 0

/-- The elements of entry k of q that a widening instruction pushes (R181). -/
def lanesOf (q k : Nat) (l : List Nat) : List Nat :=
  (List.range (l.length / q)).map fun i => l.getD (q * i + k) 0

/-- The ratio of two widths (R181); b counts as either width. -/
def widthRatio (s d : Fmt) : Nat :=
  match fmtWidth s, fmtWidth d with
  | some a, some b => max a b / min a b
  | _, _ => 1

/-- The queue of a vector source and whether it peeks. -/
def srcQueue : Src → BitVec 4 × Bool
  | .pop n => (n, false)
  | .peek n => (n, true)
  | _ => (0, true)

/-- A narrowing read (R181): the entries, whose tags must agree. -/
def Env.narrowRead (e : Env) (a : Src) (q : Nat) (m : Mach) : Chk (List VEntry × Mach) := do
  let (vs, m) ← e.heads (srcQueue a).1 q m
  needSame ((vs.headD ⟨.b, 0⟩).tag) (vs.map VOp.entry)
  .ok (vs, m)

/-- The logical vector of entries, in their format. -/
def logical (t : Fmt) (vs : List VEntry) : List Nat := interleave (vs.map fun v => (VOp.entry v).elems t)

/-- The entries that a logical vector widens into (R181). -/
def widened (f : Fmt) (q : Nat) (l : List Nat) : List VEntry := (List.range q).map fun k => entryOf f (lanesOf q k l)

/-- Whether VWID takes a format (R209). -/
def vwidOk (t g : Fmt) : Bool :=
  decide (kindOf g = .int) && decide (fmtW t < fmtW g) && decide (widthRatio t g ≠ 8) &&
    (!fmtUnsigned g || (decide (g = .n8) && decide (t = .n4)))

/-- VWID. -/
def vwidBody (d : Dst) (g : Fmt) (a : Src) (e : Env) (m : Mach) : Chk Mach := do
  let (x, m) ← e.srcV m a
  let t := typeOf [x]
  needInt t
  e.needFmt (vwidOk t g)
  e.vres m d ⟨widened g (widthRatio t g) ((x.elems t).map fun b => intBits g (intValue t b)), 0, 0⟩

/-- VNAR. DESIGN CHOICE: where its type, its format or the ratio 8 is refused it reads one head (log 145). -/
def vnarBody (d : Dst) (sat : Bool) (g : Fmt) (a : Src) (e : Env) (m : Mach) : Chk Mach := do
  let h ← (m.core e.c).headV (srcQueue a).1
  let t := h.tag
  let ok := decide (kindOf t = .int) && decide (kindOf g = .int) && decide (fmtW g < fmtW t) && decide (widthRatio t g ≠ 8)
  let q := if ok then widthRatio t g else 1
  let (vs, m) ← e.heads (srcQueue a).1 q m
  needInt t
  needSame t (vs.map VOp.entry)
  e.needFmt (ok && !(srcQueue a).2)
  let (out, fl) := joinRd ((logical t vs).map fun b => intRes g sat (intValue t b))
  e.vres m d ⟨[entryOf g out], fl, 0⟩

/-! ### Reductions, scans and dot products (R210 to R213) -/

/-- The operation of a reduction or scan (R211). -/
def redEl (t : Fmt) (f : RedOp) (a b : Nat) : Rd :=
  match f with
  | .add => arithEl t .add false .rne a b
  | .adds => arithEl t .add true .rne a b
  | .max => mnx t .maxn a b
  | .min => mnx t .minn a b

/-- One level of the pairwise tree: lane 2i with lane 2i + 1 (R210). -/
def pairUp (op : Nat → Nat → Rd) : List Nat → List Nat × BitVec 7
  | a :: b :: r =>
    let x := op a b
    let (l, f) := pairUp op r
    (x.bits :: l, x.flags ||| f)
  | l => (l, 0)

/-- k levels of the tree (R210). -/
def treeLevels (op : Nat → Nat → Rd) : Nat → List Nat → List Nat × BitVec 7
  | 0, l => (l, 0)
  | k + 1, l =>
    let (l, f) := pairUp op l
    let (l, g) := treeLevels op k l
    (l, f ||| g)

/-- The type checks of VRED and VSCN (R211, R212). DESIGN CHOICE: .adds takes integers alone and raises FMTRSV on e8 too, which R211
names under .add only (log 145). -/
def Env.redType (e : Env) (f : RedOp) (x : VOp) : Chk Fmt := do
  let t := typeOf [x]
  needKind anyKind t
  e.needFmt (match f with
    | .add => decide (kindOf t = .int ∨ kindOf t = .wide)
    | .adds => decide (kindOf t = .int)
    | _ => true)
  .ok t

/-- VRED. -/
def vredBody (d : Dst) (f : RedOp) (a b : Src) (e : Env) (m : Mach) : Chk Mach := do
  let (x, m) ← e.srcV m a
  let (s, m) ← e.src m b
  let t ← e.redType f x
  let xs := x.elems t
  let lg := xs.length.log2
  let k := if s.toNat = 0 ∨ lg ≤ s.toNat then lg else s.toNat
  let (out, fl) := treeLevels (redEl t f) k xs
  e.vres m d ⟨[entryOf t out], fl, if f = .add then subCount [(t, xs), (t, out)] else 0⟩

/-- The identity of a scan (R212). -/
def scanIdentity (t : Fmt) (f : RedOp) : Nat :=
  let low := decide (f = .max)
  match f with
  | .add | .adds => 0
  | _ =>
    match t, floatFmt t with
    | .e8, _ => if low then 0 else 0xFE
    | _, some x => if x.sp = .ieee then x.inf low else x.signed low x.maxEnc
    | _, none => intBits t (if low then (intLimits t).1 else (intLimits t).2)

/-- The scan from an accumulator, or from the first element when there is none yet (R212). -/
def scanEls (op : Nat → Nat → Rd) (ex : Bool) : Nat → Bool → List Nat → List Nat × BitVec 7
  | _, _, [] => ([], 0)
  | acc, first, x :: r =>
    let incl := if first then ⟨x, 0⟩ else op acc x
    let (l, f) := scanEls op ex incl.bits false r
    ((if ex then acc else incl.bits) :: l, incl.flags ||| f)

/-- VSCN. -/
def vscnBody (d : Dst) (ex : Bool) (f : RedOp) (a : Src) (e : Env) (m : Mach) : Chk Mach := do
  let (x, m) ← e.srcV m a
  let t ← e.redType f x
  let xs := x.elems t
  let (out, fl) := scanEls (redEl t f) ex (scanIdentity t f) true xs
  e.vres m d ⟨[entryOf t out], fl, if f = .add then subCount [(t, xs), (t, out)] else 0⟩

/-- The accumulator tag of VDOT, by the tag of its first two sources (R213). -/
def dotTag : Fmt → Option Fmt
  | .i4 | .n4 | .i8 | .n8 => some .i32
  | .f4 | .f8a | .f8b | .bf16 | .f16 => some .f32
  | _ => none

/-- One element of VDOT (R213). -/
def dotEl (t : Fmt) (neg : Bool) (xs ys : List Nat) (v : Nat) : Rd :=
  match floatFmt .f32, floatFmt t with
  | some f, some g => f.sumOf neg (List.zipWith (fun a b => (g.value a, g.value b)) xs ys) (f.value v)
  | _, _ =>
    let p := (List.zipWith (fun a b => intValue t a * intValue t b) xs ys).foldl (· + ·) 0
    intRes .i32 false ((if neg then -p else p) + intValue .i32 v)

/-- Lists cut into parts of q elements. -/
def chunks (q : Nat) (l : List Nat) : Nat → List (List Nat)
  | 0 => []
  | n + 1 => l.take q :: chunks q (l.drop q) n

/-- VDOT. DESIGN CHOICE: R179 counts element positions and R196 has more source elements than results; a position is a 32-bit lane,
counted once whichever of its source elements are subnormal (log 145). -/
def vdotBody (d : Dst) (neg : Bool) (q : BitVec 3) (a b : Src) (e : Env) (m : Mach) : Chk Mach := do
  let (l, m) ← e.srcV3 m a b q
  let t := typeOf l
  let x := l.getD 0 .lane
  let y := l.getD 1 .lane
  let z := l.getD 2 .lane
  needKind anyKind t
  needSame t [x, y]
  match dotTag t with
  | none => .error (e.trapWord tFmtrsv)
  | some g =>
    must (decide (z.tag t = g)) (typemis g (z.tag t))
    let n := 32 / fmtW t
    let xs := x.elems t
    let ys := y.elems t
    let zs := z.elems g
    let (out, fl) := joinRd (List.zipWith (fun (p : List Nat × List Nat) v => dotEl t neg p.1 p.2 v)
      (List.zip (chunks n xs 128) (chunks n ys 128)) zs)
    let subs := subCount [(g, zs), (g, out)]
    let more := ((List.range 128).filter fun i =>
      ((xs.drop (n * i)).take n ++ (ys.drop (n * i)).take n).any (isSub t) && !isSub g (zs.getD i 0) &&
        !isSub g (out.getD i 0)).length
    e.vres m d ⟨[entryOf g out], fl, subs + more⟩

/-! ### Special functions (R214, R215) -/

/-- SFA, SFB and SFC. -/
def specialBody (d : Dst) (op : Special) (a : Src) (e : Env) (m : Mach) : Chk Mach := do
  let (x, m) ← e.srcV m a
  let t := typeOf [x]
  needKind wideKind t
  match floatFmt t with
  | none => .error (e.trapWord tFmtrsv)
  | some f =>
    let xs := x.elems t
    let (out, fl) := joinRd (xs.map fun b => special f op b (f.value b))
    e.vres m d ⟨[entryOf t out], fl, subCount [(t, xs), (t, out)]⟩

/-- The f32 format. -/
def f32 : FloatFmt := ⟨23, 127, 31, 0x7F7FFFFF, .ieee⟩

/-- RoundTo(2^(s − m), f32, rne) for a finite m and an s that is finite or −∞, the exponent exact (R215). -/
def softExp (s m : Nat) : Rd :=
  match f32.value s, f32.value m with
  | .fin n a x, .fin n' a' x' =>
    let d := addExact (sgn n a) x (-(sgn n' a')) x'
    if d.1 = 0 then ⟨f32.one, 0⟩ else exp2Of f32 (2 ^ 32 * s + m) (decide (d.1 < 0)) d.1.natAbs d.2
  | _, _ => ⟨0, 0⟩

/-- A row of SMXS: its p, m2, l2, c and flags (R215). -/
structure SoftRow where
  p : List Nat
  m2 : Nat
  l2 : Nat
  c : Nat
  flags : BitVec 7
deriving DecidableEq, Repr

/-- The statistics of one row (R215). -/
def softRow (s : List Nat) (m l : Nat) : SoftRow :=
  let lg := s.length.log2
  let (mx, f1) := treeLevels (mnx .f32 .maxn) lg s
  let r := mnx .f32 .maxn m (mx.getD 0 0)
  let f := f1 ||| r.flags
  let nan := f32.nan false
  match f32.value r.bits with
  | .nan _ _ => ⟨List.replicate s.length nan, nan, nan, nan, f⟩
  | .inf false => ⟨List.replicate s.length nan, nan, nan, nan, f ||| fInv⟩
  | .inf true => ⟨List.replicate s.length 0, r.bits, l, f32.one, f⟩
  | .fin .. =>
    let (p, f2) := joinRd (s.map fun x => softExp x r.bits)
    let c := softExp m r.bits
    let lc := f32.mul .rne false (f32.value l) (f32.value c.bits)
    let (sum, f3) := treeLevels (arithEl .f32 .add false .rne) lg p
    let l2 := f32.add .rne false (f32.value lc.bits) (f32.value (sum.getD 0 0))
    ⟨p, r.bits, l2.bits, c.bits, f ||| f2 ||| c.flags ||| lc.flags ||| f3 ||| l2.flags⟩

/-- SMXS's two entries and flags, with G = 2^lg rows (R215). DESIGN CHOICE: elements of its sources and results with one index are one
element position of the replay (log 145). -/
def smxsRes (lg : Nat) (s st : List Nat) : VRes :=
  let n := 128 / 2 ^ lg
  let rows := (List.range (2 ^ lg)).map fun r => softRow ((s.drop (r * n)).take n) (st.getD (2 * r) 0) (st.getD (2 * r + 1) 0)
  let p := rows.flatMap SoftRow.p
  let head := rows.flatMap fun r => [r.m2, r.l2]
  let ns := head ++ List.replicate (16 - head.length) 0 ++ rows.map SoftRow.c
  ⟨[entryOf .f32 p, entryOf .f32 ns], rows.foldl (fun f r => f ||| r.flags) 0,
    subCount ([s, st, p, ns].map fun x => (.f32, x))⟩

/-- SMXS. DESIGN CHOICE: an f32 srcA with a srcB of another wide float is TYPEMIS by R192, where R215 can be read to give FMTRSV
(log 145). -/
def smxsBody (d : Dst) (lg : BitVec 2) (a b : Src) (e : Env) (m : Mach) : Chk Mach := do
  let (l, m) ← e.srcV2 m a b
  let t := typeOf l
  needKind wideKind t
  needSame t l
  e.needFmt (decide (t = .f32))
  e.vres m d (smxsRes lg.toNat ((l.getD 0 .lane).elems t) ((l.getD 1 .lane).elems t))

/-! ### Masks (R216) -/

/-- A mask read (R194). -/
def Env.maskSrc (e : Env) (m : Mach) (n : BitVec 3) : Chk MaskBits := do
  (m.core e.c).maskReady n.toNat
  .ok ((m.core e.c).maskReg n.toNat).bits

/-- The two-mask forms of VMSK. -/
def vmskBits (f : VmskOp) (x y : MaskBits) : MaskBits :=
  match f with
  | .and => x &&& y
  | .or => x ||| y
  | .xor => x ^^^ y
  | _ => x &&& ~~~y

/-- Whether an element is not zero (R216). -/
def notZero (t : Fmt) (b : Nat) : Bool :=
  match fmtValue t b with
  | .fin _ m _ => decide (m ≠ 0)
  | _ => true

/-- A mask result; VMSK's well-formed mask forms name a mask. -/
def Env.maskTo (e : Env) (m : Mach) (d : Dst) (bits : MaskBits) : Chk Mach :=
  match d with
  | .mask k => e.maskRes m k bits 0
  | _ => .error (e.trapWord tIllop)

/-- VMSK. -/
def vmskBody (d : Dst) (f : VmskForm) (e : Env) (m : Mach) : Chk Mach := do
  match f with
  | .two f a b =>
    let x ← e.maskSrc m a
    let y ← e.maskSrc m b
    e.maskTo m d (vmskBits f x y)
  | .one .pcnt a =>
    let x ← e.maskSrc m a
    let (l, m) ← e.dst m d .pending
    .ok (e.startValues m [l.put (BitVec.ofNat 64 (popCount x))] 0 [])
  | .one .ffs a =>
    let x ← e.maskSrc m a
    let (l, m) ← e.dst m d .pending
    .ok (e.startValues m [l.put (BitVec.ofNat 64 (lowestOne x))] 0 [])
  | .one _ a =>
    let x ← e.maskSrc m a
    e.maskTo m d (~~~x)
  | .fromv a =>
    let (x, m) ← e.srcV m a
    let t := typeOf [x]
    needKind anyKind t
    e.maskTo m d (maskOf ((x.elems t).map (notZero t)))

/-! ### Meanings -/

/-- VADD (R199). -/
def execVadd (t : Tok) (d : Dst) (sat : Bool) (m : Rnd) (a b : Src) (s : State) : Host.Outcome State Fault Refusal :=
  attemptNext (.vadd t d sat m a b) (arithBody .add d sat m a b) s
/-- VSUB (R199). -/
def execVsub (t : Tok) (d : Dst) (sat : Bool) (m : Rnd) (a b : Src) (s : State) : Host.Outcome State Fault Refusal :=
  attemptNext (.vsub t d sat m a b) (arithBody .sub d sat m a b) s
/-- VMUL (R199). -/
def execVmul (t : Tok) (d : Dst) (sat : Bool) (m : Rnd) (a b : Src) (s : State) : Host.Outcome State Fault Refusal :=
  attemptNext (.vmul t d sat m a b) (arithBody .mul d sat m a b) s
/-- VFMA (R200). -/
def execVfma (t : Tok) (d : Dst) (neg : Bool) (q : BitVec 3) (a b : Src) (s : State) : Host.Outcome State Fault Refusal :=
  attemptNext (.vfma t d neg q a b) (vfmaBody d neg q a b) s
/-- VMNX (R201). -/
def execVmnx (t : Tok) (d : Dst) (f : MnxOp) (a b : Src) (s : State) : Host.Outcome State Fault Refusal :=
  attemptNext (.vmnx t d f a b) (vmnxBody d f a b) s
/-- VCMP (R202). -/
def execVcmp (t : Tok) (d : Dst) (sig : Bool) (c : VcmpOp) (a b : Src) (s : State) : Host.Outcome State Fault Refusal :=
  attemptNext (.vcmp t d sig c a b) (vcmpBody d sig c a b) s
/-- VSEL (R203). -/
def execVsel (t : Tok) (d : Dst) (inv : Bool) (k : BitVec 3) (a b : Src) (s : State) : Host.Outcome State Fault Refusal :=
  attemptNext (.vsel t d inv k a b) (vselBody d inv k a b) s
/-- VLOG (R204). -/
def execVlog (t : Tok) (d : Dst) (f : VlogOp) (a b : Src) (s : State) : Host.Outcome State Fault Refusal :=
  attemptNext (.vlog t d f a b) (vlogBody d f a b) s
/-- VSHF (R205). -/
def execVshf (t : Tok) (d : Dst) (f : ShiftOp) (a b : Src) (s : State) : Host.Outcome State Fault Refusal :=
  attemptNext (.vshf t d f a b) (vshfBody d f a b) s
/-- VPRM (R206). -/
def execVprm (t : Tok) (d : Dst) (f : VprmOp) (a b : Src) (s : State) : Host.Outcome State Fault Refusal :=
  attemptNext (.vprm t d f a b) (if f = .rot ∨ f = .rev then vprm1Body d f a b else vprm2Body d f a b) s
/-- VRED (R211). -/
def execVred (t : Tok) (d : Dst) (f : RedOp) (a b : Src) (s : State) : Host.Outcome State Fault Refusal :=
  attemptNext (.vred t d f a b) (vredBody d f a b) s
/-- VWID (R209). -/
def execVwid (t : Tok) (d : Dst) (g : Fmt) (a : Src) (s : State) : Host.Outcome State Fault Refusal :=
  attemptNext (.vwid t d g a) (vwidBody d g a) s
/-- VNAR (R209). -/
def execVnar (t : Tok) (d : Dst) (sat : Bool) (g : Fmt) (a : Src) (s : State) : Host.Outcome State Fault Refusal :=
  attemptNext (.vnar t d sat g a) (vnarBody d sat g a) s
/-- VBRD (R207). -/
def execVbrd (t : Tok) (d : Dst) (x : VbrdForm) (s : State) : Host.Outcome State Fault Refusal :=
  attemptNext (.vbrd t d x) (vbrdBody d x) s
/-- VMSK (R216). -/
def execVmsk (t : Tok) (d : Dst) (f : VmskForm) (s : State) : Host.Outcome State Fault Refusal :=
  attemptNext (.vmsk t d f) (vmskBody d f) s
/-- VSCN (R212). -/
def execVscn (t : Tok) (d : Dst) (ex : Bool) (f : RedOp) (a : Src) (s : State) : Host.Outcome State Fault Refusal :=
  attemptNext (.vscn t d ex f a) (vscnBody d ex f a) s
/-- SFA (R214). -/
def execSfa (t : Tok) (d : Dst) (f : SfaOp) (a : Src) (s : State) : Host.Outcome State Fault Refusal :=
  attemptNext (.sfa t d f a) (specialBody d (.a f) a) s
/-- SFB (R214). -/
def execSfb (t : Tok) (d : Dst) (f : SfbOp) (a : Src) (s : State) : Host.Outcome State Fault Refusal :=
  attemptNext (.sfb t d f a) (specialBody d (.b f) a) s
/-- SFC (R214). -/
def execSfc (t : Tok) (d : Dst) (f : SfcOp) (a : Src) (s : State) : Host.Outcome State Fault Refusal :=
  attemptNext (.sfc t d f a) (specialBody d (.c f) a) s
/-- SMXS (R215). -/
def execSmxs (t : Tok) (d : Dst) (lg : BitVec 2) (a b : Src) (s : State) : Host.Outcome State Fault Refusal :=
  attemptNext (.smxs t d lg a b) (smxsBody d lg a b) s
/-- VLANE (R208). -/
def execVlane (t : Tok) (d : Dst) (a b : Src) (s : State) : Host.Outcome State Fault Refusal :=
  attemptNext (.vlane t d a b) (vlaneBody d a b) s
/-- VDOT (R213). -/
def execVdot (t : Tok) (d : Dst) (neg : Bool) (q : BitVec 3) (a b : Src) (s : State) : Host.Outcome State Fault Refusal :=
  attemptNext (.vdot t d neg q a b) (vdotBody d neg q a b) s

end Sys2Proof.Machine
end

