-- ==== Sys2Proof/Machine/Column.lean ====
section
/-! DEFINITION. The matrix-vector instructions of the decode columns (R245 to R261). -/

namespace Sys2Proof.Machine

/-! ### Column state (R245, R246) -/

/-- The five instructions' operations. -/
def OpKind.isColumn : OpKind → Bool
  | .mvk .. | .mvq .. | .mvv .. | .mvm .. | .mvd .. => true
  | _ => false

/-- Query count and KV head as they stand after every instruction of the five issued so far (R246). -/
def Core.latched (k : Core) : Nat × Nat :=
  k.ops.foldl (fun x o => match o.kind with | .mvk g h _ => (g, h) | _ => x) (k.column.g, k.column.h)
/-- The mask binding as it stands after every instruction of the five issued so far (R246). -/
def Core.bound (k : Core) : Option Word :=
  k.ops.foldl (fun x o => match o.kind with | .mvm b => b | _ => x) k.column.mask

/-! ### Exact steps of the chains (R253, R256, R257) -/

/-- An exact product; a NaN or an invalid product is NaN. -/
def exactProduct (x y : Val) : Val :=
  match x, y with
  | .nan .., _ => .nan false false
  | _, .nan .. => .nan false false
  | x, y => if mulInvalid x y = true then .nan false false else x.mul y
/-- RoundTo of an exact product to f32, a NaN canonical and positive. -/
def roundProduct (x y : Nat) : Nat :=
  match exactProduct (f32.value x) (f32.value y) with
  | .nan .. => f32.nan false
  | v => (f32.conv .rne false 0 v).bits

/-! ### Masks (R254) -/

/-- The bit of a mask tile for a row and a position: `tile` holds the local space. -/
def maskBit (mask : Word) (tile : Mem) (r pos : Nat) : Bool :=
  let col0 := wbits mask 53 27
  let stride := wbits mask 26 19
  let base := wbits mask 18 0
  if col0 ≤ pos ∧ pos < col0 + stride * 512 then
    ((tile.get (base + r * stride * 64 + (pos - col0) / 8)).toNat / 2 ^ ((pos - col0) % 8)) % 2 == 1
  else false

/-- The bytes of a mask tile that G rows need for n positions from pos on: first byte and length of each row. -/
def maskRanges (mask : Word) (g pos n : Nat) : List (Nat × Nat) :=
  let col0 := wbits mask 53 27
  let stride := wbits mask 26 19
  let lo := max pos col0
  let hi := min (pos + n) (col0 + stride * 512)
  if lo < hi then
    (List.range g).map fun r =>
      (wbits mask 18 0 + r * stride * 64 + (lo - col0) / 8, (hi - 1 - col0) / 8 + 1 - (lo - col0) / 8)
  else []

/-! ### Issue (R248, R250, R251) -/

/-- The shapes that MVQ and MVV accept (R248). -/
def columnShape (w : Word) : Bool :=
  (match shapeFmt w with | .f8a | .f8b | .bf16 => true | _ => false) &&
    decide (shapeD w = 64 ∨ shapeD w = 128) && decide (16 ≤ shapeT w ∧ shapeT w ≤ 128)

/-- Tokens of a chunk (R253). -/
def chunkTokens (g : Nat) : Nat := 128 / g

/-- Checks 3, 6 and 7 of R250 for a block address. -/
def Env.columnBlock (e : Env) (m : Mach) (msk : Bool) (a : Word) : Chk Unit := do
  let k := m.core e.c
  let n := a.toNat
  let (g, h) := k.latched
  let s := m.bseq k.ctx (baHandle n)
  e.needFmt ((match s with | some s => columnShape s.shape | none => true) && (!msk || k.bound.isSome))
  match s with
  | none => .error (.trap tBlock a)
  | some s =>
    must (decide (baLayer n < shapeLayers s.shape) && (SMap.get? s.map (mapKey (baLayer n) (baBlock n))).isSome &&
      decide (shapeDie s.shape = e.die ∧ shapeCol s.shape = e.corelog) && decide (h < shapeH s.shape) &&
      decide (baOff n < shapeT s.shape ∧ baOff n % chunkTokens g = 0)) (.trap tBlock a)
    must (m.keyOk e.c .blk n 1 false) (.trap tNokey a)

/-- The load of a block that MVQ and MVV make (R259). -/
def blockLoad (a : Word) : LoadRef := ⟨.blk, a.toNat / 2 ^ 16 * 2 ^ 16, 1, none⟩

/-- MVK: the queries of its entries in order (R252). -/
def queryRows (t : Fmt) (g : Nat) (vs : List VEntry) : List (List (BitVec 16)) :=
  let k := if t = .bf16 then 2 else 4
  (List.range g).map fun r =>
    let es := (elemsOf t (vs.getD (r / k) ⟨t, 0⟩).bits).drop (128 * (r % k)) |>.take 128
    es.map fun x => BitVec.ofNat 16 (if t = .bf16 then x else (convTo .bf16 .rne false 0 (fmtValue t x)).bits)

/-- The kinds that MVK accepts (R250). -/
def queryKind (k : Kind) : Bool := decide (k = .wide ∨ k = .narrow)
/-- The formats that MVK accepts (R250). -/
def queryFmt : Fmt → Bool
  | .f8a | .f8b | .bf16 => true
  | _ => false

/-- MVK (R252). -/
def mvkBody (lg : BitVec 2) (a b : Src) (e : Env) (m : Mach) : Chk Mach := do
  let (n, peek) := srcQueue a
  let v ← (m.core e.c).headV n
  let t := v.tag
  let g := 2 ^ lg.toNat
  let count := if queryFmt t then (if t = .bf16 then (g + 1) / 2 else (g + 3) / 4) else 1
  let (vs, popped) ← e.heads n count m
  let (h, m) ← e.src (if peek then m else popped) b
  needKind queryKind t
  needSame t (vs.map VOp.entry)
  e.needFmt (queryFmt t && decide (h.toNat ≤ 127) && (!peek || decide (count = 1)))
  .ok (e.start m (.mvk g h.toNat (queryRows t g vs)) [] 0 [] none).2

/-- MVQ (R253). -/
def mvqBody (d : Dst) (msk : Bool) (a b : Src) (e : Env) (m : Mach) : Chk Mach := do
  let (x, y, m) ← e.src2 m a b
  let (l, m) ← e.dstV m d .pending
  e.columnBlock m msk x
  .ok (e.start m (.mvq msk x (y.setWidth 32)) [l] 0 [] (some (blockLoad x))).2

/-- Probabilities and state are wide floats; a wide tag other than f32's is FMTRSV, a later check (R193, R250). -/
def needWide (t : Fmt) (l : List VOp) : Chk Unit := l.forM fun x => needKind wideKind (x.tag t)

/-- MVV (R256). -/
def mvvBody (msk : Bool) (q : BitVec 3) (a b : Src) (e : Env) (m : Mach) : Chk Mach := do
  let (x, m) ← e.src m a
  let (p, m) ← e.srcV m b
  let (st, m) ← e.third m q
  let l := [p, .entry st]
  let t := typeOf l
  needWide t l
  e.needFmt (l.all fun x => decide (x.tag t = .f32))
  e.columnBlock m msk x
  .ok (e.start m (.mvv msk x (entryOf .f32 (p.elems .f32)) st) [] 0 [] (some (blockLoad x))).2

/-- MVM (R254). DESIGN CHOICE: the address of its SPACE is the tile's base (log 55). -/
def mvmBody (a : Src) (e : Env) (m : Mach) : Chk Mach := do
  let (x, m) ← e.src m a
  let base := wbits x 18 0
  e.needFmt (decide (wbits x 63 54 = 0 ∧ wbits x 26 19 ≠ 0))
  must (decide (base % 64 = 0)) (.trap tAlign (BitVec.ofNat 64 base))
  must (decide (base + 8 * wbits x 26 19 * 64 ≤ 0x80000)) (.trap tSpace (BitVec.ofNat 64 base))
  .ok (e.start m (.mvm (some x)) [] 0 [] none).2

/-- MVM.off (R254). -/
def mvmOffBody (e : Env) (m : Mach) : Chk Mach := .ok (e.start m (.mvm none) [] 0 [] none).2

/-- Whether MVD takes a first row and a format (R258). -/
def drainOk (r : Nat) (f : Fmt) : Bool :=
  match f with
  | .f32 => decide (r ≤ 7)
  | .bf16 | .f16 => decide (r ≤ 6 ∧ r % 2 = 0)
  | _ => false

/-- MVD (R258). -/
def mvdBody (d : Dst) (mode : Rnd) (f : Fmt) (a : Src) (e : Env) (m : Mach) : Chk Mach := do
  let (x, m) ← e.src m a
  let (l, m) ← e.dstV m d .pending
  e.needFmt (drainOk x.toNat f)
  .ok (e.start m (.mvd x.toNat f mode) [l] 0 [] none).2

/-! ### The array applies them in issue order (R246) -/

/-- MVK's effect (R252). -/
def Column.loadQueries (col : Column) (g h : Nat) (q : List (List (BitVec 16))) : Column :=
  { col with
    q := (q.zipIdx).foldl (fun m rq => (rq.1.zipIdx).foldl (fun m x => SMap.put 0 m (128 * rq.2 + x.2) x.1) m) []
    g := g
    h := h
    acc := [] }

/-- What MVQ and MVV read of a block: shape, physical address, validity, the block's number and its first token. -/
structure Chunk where
  shape : Word
  pa : Nat
  valid : BitVec 128
  block : Nat
  t0 : Nat
deriving DecidableEq, Repr

/-- The chunk of a block address. -/
def Mach.chunk (m : Mach) (ctx : BitVec 6) (a : Nat) : Option Chunk :=
  match m.bseq ctx (baHandle a) with
  | none => none
  | some s =>
    let pool := shapePool s.shape
    (SMap.get? s.map (mapKey (baLayer a) (baBlock a))).map fun f =>
      ⟨s.shape, framePa pool f, (SMap.getD (m.pool pool).frames f ⟨0, 0, 0⟩).valid, baBlock a, baOff a⟩

/-- The bytes of the key or value of a token in a head (R247). -/
def Chunk.vec (x : Chunk) (dram : Mem) (value : Bool) (h t : Nat) : Mem :=
  let run := shapeD x.shape * fmtBytes (shapeFmt x.shape)
  dram.slice (x.pa + (if value then shapeB x.shape / 2 else 0) + (h * shapeT x.shape + t) * run) run
/-- Element e of such bytes. -/
def Chunk.elem (x : Chunk) (v : Mem) (e : Nat) : Val :=
  let w := fmtBytes (shapeFmt x.shape)
  fmtValue (shapeFmt x.shape) (v.nat (e * w) w)

/-- Whether token t of a chunk is attended by row r (R253, R256). -/
def Chunk.attends (x : Chunk) (mask : Option Word) (tile : Mem) (r t : Nat) : Bool :=
  decide (t < shapeT x.shape) && x.valid.getLsbD t &&
    match mask with
    | some w => maskBit w tile r (x.block * shapeT x.shape + t)
    | none => true

/-- The scores of MVQ (R253). -/
def Chunk.scores (x : Chunk) (col : Column) (mask : Option Word) (tile dram : Mem) (scale : Nat) : List Nat :=
  let n := chunkTokens col.g
  let keys := (List.range n).map fun j => x.vec dram false col.h (x.t0 + j)
  (List.range col.g).flatMap fun r => (keys.zipIdx).map fun kj =>
    let t := x.t0 + kj.2
    if x.attends mask tile r t then
      let a := (List.range (shapeD x.shape)).foldl (fun a e =>
        addCanon a (exactProduct (fmtValue .bf16 (SMap.getD col.q (128 * r + e) 0).toNat) (x.elem kj.1 e))) 0
      roundProduct a scale
    else f32.inf true

/-- The accumulator after MVV (R256). -/
def Chunk.values (x : Chunk) (col : Column) (mask : Option Word) (tile dram : Mem) (p st : List Nat) : SMap (BitVec 32) :=
  let n := chunkTokens col.g
  let vals := (List.range n).map fun j => x.vec dram true col.h (x.t0 + j)
  (List.range col.g).foldl (fun acc r =>
    (List.range (shapeD x.shape)).foldl (fun acc e =>
      let a0 := roundProduct (SMap.getD acc (128 * r + e) 0).toNat (st.getD (16 + r) 0)
      let a := (vals.zipIdx).foldl (fun a vj =>
        if x.attends mask tile r (x.t0 + vj.2) then
          addCanon a (exactProduct (f32.value (p.getD (r * n + vj.2) 0)) (x.elem vj.1 e))
        else a) a0
      SMap.put 0 acc (128 * r + e) (BitVec.ofNat 32 a)) acc) col.acc

/-- MVD's entry and flags (R258). -/
def Column.drained (col : Column) (r : Nat) (f : Fmt) (mode : Rnd) : VEntry × BitVec 7 :=
  let one (i : Nat) : Rd :=
    let v := (SMap.getD col.acc (128 * r + i) 0).toNat
    if f = .f32 then ⟨v, 0⟩ else convTo f mode false 0 (fmtValue .f32 v)
  let rs := (List.range (fmtN f)).map one
  (entryOf f (rs.map Rd.bits), rs.foldl (fun fl x => fl ||| x.flags) 0)

/-- The mask tile bytes that an operation needs become the group's own (R255). -/
def Mach.ownMask (m : Mach) (c : Nat) (rs : List (Nat × Nat)) : Mach := rs.foldl (fun m r => m.ownLocal c r.1 r.2) m

/-- Whether MVQ or MVV has to wait for an earlier STB of its block (R259). -/
def Core.blockStores (k : Core) (o a : Nat) : Bool :=
  k.posted.any fun p => decide (p.id < o ∧ p.space = .blk ∧ p.ea / 2 ^ 16 = a / 2 ^ 16)

/-- MVQ or MVV reads its mask and its block; poison it reads is consumed (R255, R259, R395). DESIGN CHOICE: tile, block and bitmap are
read at one time, so that each write that races with it is seen whole or not at all (log 147). -/
def serveChunk (t : Trust) (c : Nat) (op : Op) (msk : Bool) (a : Nat)
    (act : Chunk → Option Word → Core → Mach → Mach) (m : Mach) : Mach :=
  let k := m.core c
  if k.blockStores op.id a then m
  else
    match m.chunk k.ctx a with
    | none => m.finish c op
    | some x =>
      let mask := if msk then k.column.mask else none
      let n := min (chunkTokens k.column.g) (shapeT x.shape - x.t0)
      let rs := match mask with
        | some w => maskRanges w k.column.g (x.block * shapeT x.shape + x.t0) n
        | none => []
      let m := m.ownMask c rs
      let k := m.core c
      match rs.findSome? fun r => poisonIn k.localPoison r.1 r.2 with
      | some w => m.losePoisonLocal t c op w
      | none =>
        match poisonIn m.dramPoison x.pa (shapeB x.shape) with
        | some w => m.losePoison t c op true w
        | none => act x mask k m

/-- MVK, MVQ, MVV, MVM and MVD are acknowledged, in issue order. -/
def serveColumn (t : Trust) (c : Nat) (op : Op) (m : Mach) : Mach :=
  let k := m.core c
  if !k.noEarlier op.id OpKind.isColumn then m
  else
    match op.kind with
    | .mvk g h q => (m.onCore c fun k => { k with column := k.column.loadQueries g h q }).finish c op
    | .mvm b => (m.onCore c fun k => { k with column := { k.column with mask := b } }).finish c op
    | .mvd r f mode =>
      let (v, fl) := k.column.drained r f mode
      let (l, m) := m.vland (op.dests.headD .none) v
      m.finish c { op with dests := [l], flags := fl }
    | .mvq msk a scale =>
      serveChunk t c op msk a.toNat (fun x mask k m =>
        let v := entryOf .f32 (x.scores k.column mask k.local_ m.dram scale.toNat)
        let (l, m) := m.vland (op.dests.headD .none) v
        m.finish c { op with dests := [l] }) m
    | .mvv msk a p st =>
      serveChunk t c op msk a.toNat (fun x mask k m =>
        let acc := x.values k.column mask k.local_ m.dram (elemsOf .f32 p.bits) (elemsOf .f32 st.bits)
        (m.onCore c fun k => { k with column := { k.column with acc := acc } }).finish c op) m
    | _ => m

/-! ### Meanings -/

/-- MVK (R252). -/
def execMvk (t : Tok) (g : BitVec 2) (a b : Src) (s : State) : Host.Outcome State Fault Refusal :=
  attemptNext (.mvk t g a b) (mvkBody g a b) s
/-- MVQ (R253). -/
def execMvq (t : Tok) (d : Dst) (msk : Bool) (a b : Src) (s : State) : Host.Outcome State Fault Refusal :=
  attemptNext (.mvq t d msk a b) (mvqBody d msk a b) s
/-- MVV (R256). -/
def execMvv (t : Tok) (msk : Bool) (q : BitVec 3) (a b : Src) (s : State) : Host.Outcome State Fault Refusal :=
  attemptNext (.mvv t msk q a b) (mvvBody msk q a b) s
/-- MVM (R254). -/
def execMvm (t : Tok) (a : Src) (s : State) : Host.Outcome State Fault Refusal := attemptNext (.mvm t a) (mvmBody a) s
/-- MVM.off (R254). -/
def execMvmOff (t : Tok) (s : State) : Host.Outcome State Fault Refusal := attemptNext (.mvmOff t) mvmOffBody s
/-- MVD (R258). -/
def execMvd (t : Tok) (d : Dst) (m : Rnd) (f : Fmt) (a : Src) (s : State) : Host.Outcome State Fault Refusal :=
  attemptNext (.mvd t d m f a) (mvdBody d m f a) s

end Sys2Proof.Machine
end

