-- ==== Sys2Proof/Machine/Ctl.lean ====
section
/-! DEFINITION. The control class (R77 to R93): branches, hardware loops, tokens, queue housekeeping, pausing, ending. -/

namespace Sys2Proof.Machine

/-- The start of an instruction's own fetch block (R46). -/
def blockBase (pc : Offset) : Offset := pc &&& 0x7FC0

/-- The target of a format B instruction (R46). -/
def branchTarget (pc : Offset) (disp : BitVec 16) : Offset := blockBase pc + disp.setWidth 15 <<< 6

/-- Go to a branch target: two cycles when taken, else the next instruction in one (R72). -/
def Env.branch (e : Env) (taken : Bool) (disp : BitVec 16) (m : Mach) : Mach :=
  let m := e.finishNow m
  if taken then e.jump (branchTarget (m.seq e.c e.q).pc disp) 2 m else e.advance 1 m

/-- BRC pops the head of its queue (R78). -/
def brcBody (whenZero : Bool) (q : BitVec 4) (p : BitVec 16) (e : Env) (m : Mach) : Chk Mach := do
  let (v, m) ← e.src m (.pop q)
  .ok (e.branch (decide (decide (v = 0) = whenZero)) p m)

/-- CALL's return address lands one cycle later (R79). -/
def callBody (q : BitVec 4) (p : BitVec 16) (e : Env) (m : Mach) : Chk Mach := do
  let pc := (m.seq e.c e.q).pc
  let (l, m) ← e.dst m (.queue q) .inFlight
  let m := e.timed m 1 (l.put ((blockBase pc + 64).setWidth 64)) false false
  .ok (e.jump (branchTarget pc p) 2 m)

/-- RET branches to a fetch-block start or raises ALIGN (R80). -/
def retBody (a : Src) (e : Env) (m : Mach) : Chk Mach := do
  let (v, m) ← e.src m a
  must (decide (v.toNat % 64 = 0 ∧ v.toNat < 32768)) (.trap tAlign v)
  .ok (e.jump (v.setWidth 15) 2 (e.finishNow m))

/-- LOOP pushes a level or skips the body (R81). -/
def loopBody (k : BitVec 3) (p : BitVec 16) (e : Env) (m : Mach) : Chk Mach := do
  let s := m.seq e.c e.q
  let stop := branchTarget s.pc p
  let nxt := s.after e.len
  must (decide (s.pc.toNat < stop.toNat)) (e.trapWord tIllop)
  must (!s.stack.any fun l => decide (l.k = k)) (e.trapWord tIllop)
  let m := e.finishNow m
  if SMap.getD s.loops k.toNat 0 = 0 then .ok (e.jump stop 2 m)
  else .ok (e.jump nxt 1 (m.onSeq e.c e.q fun s => { s with stack := ⟨nxt, stop, k⟩ :: s.stack }))

/-- LBRK pops levels and continues at the end of the outermost of them (R83). -/
def lbrkBody (a : Src) (n : BitVec 3) (e : Env) (m : Mach) : Chk Mach := do
  let (v, m) ← e.src m a
  if v = 0 then .ok (e.advance 1 (e.finishNow m))
  else
    let s := m.seq e.c e.q
    match s.stack.drop n.toNat with
    | [] => .error (e.trapWord tIllop)
    | l :: rest => .ok (e.jump l.stop 2 ((e.finishNow m).onSeq e.c e.q fun s => { s with stack := rest }))

/-- TKW waits for tokens and pops them, unless it only checks (R85). -/
def tkwBody (a : Src) (chk down : Bool) (e : Env) (m : Mach) : Chk Mach := do
  let (v, m) ← e.src m a
  let n := wbits v 3 0
  must (decide (n ≤ ((m.seq e.c e.q).inQ down).posted)) (.stall 1)
  let m := if chk then m else m.onSeq e.c e.q fun s => s.tokPop down n
  .ok (e.finishNow m)

/-- TKS reserves and posts tokens in its start cycle (R86). -/
def tksBody (a : Src) (down : Bool) (e : Env) (m : Mach) : Chk Mach := do
  let (v, m) ← e.src m a
  let n := wbits v 3 0
  must (decide (n = 0) || (m.core e.c).tokRoom e.q (!down) n) (.stall 1)
  let m := m.onCore e.c fun k => (k.tokReserve e.q (!down) n).tokPost e.q (!down) n
  .ok (e.finishNow m)

/-- Present and pending slots (R87). -/
def countSlots {α : Type} (l : List (QSlot α)) : Nat :=
  (l.filter fun s => match s.entry with | .inFlight => false | _ => true).length
/-- Whether a slot is pending. -/
def anyPending {α : Type} (l : List (QSlot α)) : Bool := l.any fun s => match s.entry with | .pending => true | _ => false
/-- Whether a slot is in flight. -/
def anyInFlight {α : Type} (l : List (QSlot α)) : Bool := l.any fun s => match s.entry with | .inFlight => true | _ => false

/-- QOP.cnt of a queue. -/
def Core.queueCount (k : Core) (q : SeqId) (s : QSel) : Nat :=
  if s.vec then countSlots (k.vslots s.q) else countSlots ((k.seq q).xslots s.q)

/-- A CTL result of some latency. -/
def Env.ctlResult (e : Env) (m : Mach) (d : Dst) (latency : Nat) (v : Word) : Chk Mach := do
  let (l, m) ← e.dst m d .inFlight
  .ok (e.timed m latency (l.put v) false false)

/-- The check of a head that is removed and not read: poison there is not delivered (R87, R395). -/
def dropCheck {α : Type} : Chk α → Chk Unit
  | .ok _ => .ok ()
  | .error (.slot ..) => .ok ()
  | .error h => .error h

/-- QOP.drop (R87). -/
def qopDropBody (s : QSel) (e : Env) (m : Mach) : Chk Mach := do
  if s.vec then
    dropCheck ((m.core e.c).headV s.q)
    .ok (e.finishNow (m.onCore e.c fun k => k.popV s.q))
  else
    dropCheck ((m.core e.c).headX e.q s.q)
    .ok (e.finishNow (m.onCore e.c fun k => k.popX e.q s.q))

/-- QOP.clr waits for pending slots, counted, and for in-flight ones, not counted (R87, R96). -/
def qopClrBody (s : QSel) (e : Env) (m : Mach) : Chk Mach := do
  let k := m.core e.c
  let pend := if s.vec then anyPending (k.vslots s.q) else anyPending ((k.seq e.q).xslots s.q)
  let fly := if s.vec then anyInFlight (k.vslots s.q) else anyInFlight ((k.seq e.q).xslots s.q)
  must (!pend) (.stall 2)
  must (!fly) .waitOut
  .ok (e.finishNow (m.setCore e.c (if s.vec then k.setV s.q [] else k.onSeq e.q fun x => x.setX s.q [])))

/-- LMOV's result (R84). -/
def lmovRes (table : List TabLevel) (f : LmovOp) (v : Word) : Word :=
  match f with
  | .lvls => BitVec.ofNat 64 table.length
  | f =>
    match table[v.toNat]? with
    | none => 0
    | some l =>
      match f with
      | .cnt => BitVec.ofNat 64 l.count
      | .idx => BitVec.ofNat 64 l.idx
      | .kind => BitVec.ofNat 64 l.kind
      | .lvls => 0

/-- The loop table of the group on a core. -/
def Core.table (k : Core) : List TabLevel := (k.group.map Group.table).getD []

/-- CLH holds the sequencer (R89): the next instruction starts in cycle c + max(1, n), or when CYCLES reaches srcA. -/
def clhBody (a : Src) (abs : Bool) (e : Env) (m : Mach) : Chk Mach := do
  let (v, m) ← e.src m a
  let m := e.finishNow m
  let n := max 1 (wbits v 31 0)
  if abs then .ok ((e.advance 1 m).onSeq e.c e.q fun s => { s with pause := .holdAbs v })
  else .ok ((e.advance n m).onSeq e.c e.q fun s => { s with pause := .hold (s.clock + n) })

/-- YIELD is a boundary when a pre-emption is pending (R90). -/
def yieldBody (e : Env) (m : Mach) : Chk Mach :=
  let m := e.advance 1 (e.finishNow m)
  .ok (if (m.core e.c).preempting then m.setCore e.c ((m.core e.c).take e.q) else m)

/-- The group exits when its last sequencer has (R93). -/
def Core.groupExit (k : Core) : Core :=
  if allSeqs.all fun q => (k.seq q).exited then { k with group := k.group.map fun g => { g with draining := true } } else k

/-- EXIT (R92): its tokens are posted, the loop stack goes, and the sequencer stops. -/
def exitBody (e : Env) (m : Mach) : Chk Mach :=
  .ok ((e.finishNow m).onCore e.c fun k =>
    (k.onSeq e.q fun s => { s with exited := true, stack := [], pause := .run, wdCount := 0 }).groupExit)

/-- SLEEP (R91). -/
def sleepBody (a : Src) (e : Env) (m : Mach) : Chk Mach := do
  let (v, m) ← e.src m a
  .ok ((e.advance 1 (e.finishNow m)).onSeq e.c e.q fun s =>
    { s with pause := .sleep (if v = 0 then none else some (s.clock + v.toNat)), nudged := false })

/-! ### Meanings -/

/-- NOP (R88). -/
def execNop (t : Tok) (s : State) : Host.Outcome State Fault Refusal :=
  attemptNext (.nop t) (fun e m => .ok (e.finishNow m)) s
/-- BRC.nz (R78). -/
def execBrcNz (t : Tok) (q : BitVec 4) (p : BitVec 16) (s : State) : Host.Outcome State Fault Refusal :=
  attempt (.brcNz t q p) (brcBody false q p) s
/-- BRC.z (R78). -/
def execBrcZ (t : Tok) (q : BitVec 4) (p : BitVec 16) (s : State) : Host.Outcome State Fault Refusal :=
  attempt (.brcZ t q p) (brcBody true q p) s
/-- JMP (R78). -/
def execJmp (t : Tok) (p : BitVec 16) (s : State) : Host.Outcome State Fault Refusal :=
  attempt (.jmp t p) (fun e m => .ok (e.branch true p m)) s
/-- CALL (R79). -/
def execCall (t : Tok) (q : BitVec 4) (p : BitVec 16) (s : State) : Host.Outcome State Fault Refusal :=
  attempt (.call t q p) (callBody q p) s
/-- RET (R80). -/
def execRet (t : Tok) (a : Src) (s : State) : Host.Outcome State Fault Refusal := attempt (.ret t a) (retBody a) s
/-- LOOP (R81). -/
def execLoop (t : Tok) (k : BitVec 3) (p : BitVec 16) (s : State) : Host.Outcome State Fault Refusal :=
  attempt (.loop t k p) (loopBody k p) s
/-- LBRK (R83). -/
def execLbrk (t : Tok) (a : Src) (n : BitVec 3) (s : State) : Host.Outcome State Fault Refusal :=
  attempt (.lbrk t a n) (lbrkBody a n) s
/-- TKW (R85). -/
def execTkw (t : Tok) (a : Src) (chk down : Bool) (s : State) : Host.Outcome State Fault Refusal :=
  attemptNext (.tkw t a chk down) (tkwBody a chk down) s
/-- TKS (R86). -/
def execTks (t : Tok) (a : Src) (down : Bool) (s : State) : Host.Outcome State Fault Refusal :=
  attemptNext (.tks t a down) (tksBody a down) s
/-- QOP.cnt (R87). -/
def execQopCnt (t : Tok) (d : Dst) (q : QSel) (s : State) : Host.Outcome State Fault Refusal :=
  attemptNext (.qopCnt t d q) (fun e m => e.ctlResult m d 1 (BitVec.ofNat 64 ((m.core e.c).queueCount e.q q))) s
/-- QOP.drop (R87). -/
def execQopDrop (t : Tok) (q : QSel) (s : State) : Host.Outcome State Fault Refusal :=
  attemptNext (.qopDrop t q) (qopDropBody q) s
/-- QOP.clr (R87). -/
def execQopClr (t : Tok) (q : QSel) (s : State) : Host.Outcome State Fault Refusal :=
  attemptNext (.qopClr t q) (qopClrBody q) s
/-- QOP.tcnt (R87). -/
def execQopTcnt (t : Tok) (d : Dst) (down : Bool) (s : State) : Host.Outcome State Fault Refusal :=
  attemptNext (.qopTcnt t d down) (fun e m => e.ctlResult m d 1 (BitVec.ofNat 64 ((m.seq e.c e.q).inQ down).posted)) s
/-- LMOV (R84). -/
def execLmov (t : Tok) (d : Dst) (f : LmovOp) (a : Src) (s : State) : Host.Outcome State Fault Refusal :=
  attemptNext (.lmov t d f a) (fun e m => do
    let (v, m) ← e.src m a
    e.ctlResult m d 2 (lmovRes (m.core e.c).table f v)) s
/-- CLH (R89). -/
def execClh (t : Tok) (a : Src) (abs : Bool) (s : State) : Host.Outcome State Fault Refusal :=
  attempt (.clh t a abs) (clhBody a abs) s
/-- YIELD (R90). -/
def execYield (t : Tok) (s : State) : Host.Outcome State Fault Refusal := attempt (.yield t) yieldBody s
/-- EXIT (R92, R93). -/
def execExit (t : Tok) (s : State) : Host.Outcome State Fault Refusal := attempt (.exit t) exitBody s
/-- SLEEP (R91). -/
def execSleep (t : Tok) (a : Src) (s : State) : Host.Outcome State Fault Refusal := attempt (.sleep t a) (sleepBody a) s

end Sys2Proof.Machine
end

