-- ==== Sys2Proof/Machine/Keys.lean ====
section
/-! DEFINITION. The key rack and the key instructions (R140 to R156, R410, R411, R443, R449). -/

namespace Sys2Proof.Machine

/-! ### Status codes (R149, R292) -/

def stDone : Nat := 0
def stNotarget : Nat := 1
def stDenied : Nat := 2
def stRackfull : Nat := 3
def stBadarg : Nat := 4
def stNotallowed : Nat := 5
def stLost : Nat := 6
def stFreed : Nat := 7
def stNotempty : Nat := 8

/-- A status word. -/
def stWord (code : Nat) : Word := BitVec.ofNat 64 code

/-! ### Groups as holders -/

/-- Whether a group exists: placed, or saved after a pre-emption, and not ended (R149). -/
def Mach.groupExists (m : Mach) (g : Gid) : Bool :=
  m.launches.any fun l => decide (l.num = g.launch) && l.groups.any fun x =>
    decide (x.1 = g.idx) && match x.2.2 with | .placed => true | .saved _ => true | _ => false
/-- Whether a group has not ended: a group that is not placed yet can hold keys too (R356). -/
def Mach.groupLives (m : Mach) (g : Gid) : Bool :=
  m.launches.any fun l => decide (l.num = g.launch) && l.groups.any fun x => decide (x.1 = g.idx) && decide (x.2.2 ≠ .ended)
/-- The core a group runs on. -/
def Mach.groupCore (m : Mach) (g : Gid) : Option Nat :=
  (m.cores.find? fun p => decide (p.2.group.map Group.gid = some g)).map Prod.fst
/-- The context of a group. -/
def Mach.groupCtx (m : Mach) (g : Gid) : Option (BitVec 6) := (m.launches.find? fun l => decide (l.num = g.launch)).map Launch.ctx

/-- The lines of a region in a read-stage buffer. -/
def Region.lines (r : Region) : LineRange := ⟨decide (r.space = .dev), r.base, if r.space = .blk then 0 else r.size⟩
/-- What finishing an instruction that takes a key does: the view gains it, and its lines go (R127, R143). -/
def Region.taken (r : Region) (right : Right) : List Fin_ := [.gain ⟨r.rid, right⟩, .lines r.lines]

/-- A key or share arrives at a group: its core's view gains it, unless a block instruction keeps its region out of the view until
it finishes, and its staged lines go; a saved group finds it in the rack when it is restored (R127, R143, R152, R294). -/
def Mach.arriveAt (m : Mach) (r : Region) (right : Right) (g : Gid) : Mach :=
  match m.groupCore g with
  | none => m
  | some c => m.onCore c fun k => (if k.ops.any fun x => x.fin.any fun f => decide (f = .shows r.rid) then k else k.gain ⟨r.rid, right⟩).dropLines r.lines

/-! ### The rack (R141) -/

/-- Entries of a die's rack in use. -/
def Mach.rackUsed (m : Mach) (die : Nat) : Nat :=
  (m.regions.filter fun r => decide (r.home = die)).foldl (fun n r => n + 1 + r.key.shares.length) 0
/-- Entries of a die's rack that are free. -/
def Mach.rackFree (m : Mach) (die : Nat) : Nat := 65536 - m.rackUsed die

/-- The key of nobody. -/
def Key.free : Key := ⟨.free, .none, [], [], none, []⟩
/-- A key in EXCL of a group, with the groups that passed it on. -/
def Key.exclOf (g : Gid) (lender : List Gid) : Key := ⟨.excl, .group g, lender, [], none, []⟩
/-- A key changed; a LOST key stays LOST until its region is removed (R145). -/
def Mach.setKey (m : Mach) (rid : Nat) (k : Key) : Mach :=
  m.onRegion rid fun r => if r.key.state = .lost then r else { r with key := k }

/-- Whether a share is out: it is neither the splitter's, nor a stream's that nobody holds, nor absorbed. -/
def Key.isGuest (k : Key) (h : Holder) : Bool :=
  match h with
  | .gone => false
  | .setup .. => false
  | h => decide (some h ≠ k.splitter.map Holder.group)

/-- The guest count (R144, R353, R449). -/
def Key.guests (k : Key) : Nat := (k.shares.filter fun s => k.isGuest s.holder).length

/-- The storage of a global region is zeroed as it passes to another context (R139, R152), which is an access to its slice
(R138). -/
def Mach.zeroRegion (m : Mach) (r : Region) : Mach :=
  if r.space = .glb then (m.touchSlice r.base).zeroHome false r.base r.size else m

/-- The storage of a region that groups of some contexts gave up passes to a context: it is zeroed when one of them is another
(R139). -/
def Mach.passOver (m : Mach) (r : Region) (left : List (BitVec 6)) (ctx : BitVec 6) : Mach :=
  if left.any fun x => decide (x ≠ ctx) then m.zeroRegion r else m

/-- When a splitter has ended and no guest is left, the key becomes EXCL of the group its parent key passed to, or FREE when
there is none that has not ended (R146, R449); what groups of another context have written there is zeroed first (R139). A
stream's key stays the stream's (R353). -/
def Mach.settle (m : Mach) (rid : Nat) : Mach :=
  match m.region rid with
  | none => m
  | some r =>
    let orphan : Bool := match r.key.splitter with | some g => !m.groupLives g | none => true
    let free : Mach := (m.passOver r r.key.left r.ctx).setKey rid .free
    if (r.key.state = .shared ∨ r.key.state = .scatter) ∧ r.key.guests = 0 ∧ orphan = true then
      match r.key.holder with
      | .setup .. => m
      | .group l =>
        if m.groupLives l then
          ((m.passOver r r.key.left ((m.groupCtx l).getD r.ctx)).setKey rid (.exclOf l r.key.lender)).arriveAt r .excl l
        else free
      | _ => free
    else m

/-- A share of a holder returns to its lender, else to the splitter, a stream's to the stream, else it is absorbed (R353,
R412, R449): the status too. -/
def Mach.returnShareOf (m : Mach) (rid : Nat) (h : Holder) (ctx : BitVec 6) : Nat × Mach :=
  match m.region rid with
  | none => (stLost, m)
  | some r =>
    match r.key.shares.find? fun s => decide (s.holder = h) with
    | none => (stDone, m)
    | some s =>
      let next (x : Holder) (l : List Gid) : Key :=
        { r.key with shares := updFirst (fun (y : Share) => decide (y.holder = h)) (fun _ => ⟨x, l⟩) r.key.shares }
      let pass (d : Gid) (l : List Gid) : Mach :=
        let m := if (m.groupCtx d).getD ctx = ctx then m else m.zeroRegion r
        (m.setKey rid (next (.group d) l)).arriveAt r r.key.state.right d
      let lender := s.lender.head?.filter fun d => m.groupLives d
      let splitter := r.key.splitter.filter fun d => m.groupLives d
      match lender, splitter with
      | some d, _ => (stDone, pass d s.lender.tail)
      | none, some d => (stDone, pass d [])
      | none, none =>
        match r.key.holder with
        | .setup x y => (stDone, m.setKey rid (next (.setup x y) []))
        | _ =>
          let m := (m.setKey rid { next .gone [] with left := ctx :: r.key.left }).settle rid
          (if (m.region rid).map (fun x => x.key.state) = some .free then stFreed else stDone, m)

/-- A share of a group returns. -/
def Mach.returnShare (m : Mach) (rid : Nat) (g : Gid) (ctx : BitVec 6) : Nat × Mach := m.returnShareOf rid (.group g) ctx

/-- A key in EXCL of a group returns to its lender, or goes FREE (R145): the status too. -/
def Mach.returnKey (m : Mach) (rid : Nat) (ctx : BitVec 6) : Nat × Mach :=
  match m.region rid with
  | none => (stLost, m)
  | some r =>
    match r.key.lender.head?.filter fun d => m.groupLives d with
    | some d =>
      let m := if (m.groupCtx d).getD ctx = ctx then m else m.zeroRegion r
      (stDone, (m.setKey rid (.exclOf d r.key.lender.tail)).arriveAt r .excl d)
    | none => (stFreed, (m.passOver r [ctx] r.ctx).setKey rid .free)

/-- The parent key of a group of a context that has ended passes to the group's lender, or to no holder (R146). -/
def Key.passUp (k : Key) (alive : Gid → Bool) (ctx : BitVec 6) : Key :=
  match k.lender.head?.filter alive with
  | some d => { k with holder := .group d, lender := k.lender.tail, left := ctx :: k.left }
  | none => { k with holder := .none, lender := [], left := ctx :: k.left }

/-- Whether a group holds a key or a share of it, or split it. -/
def Key.concerns (k : Key) (g : Gid) : Bool :=
  decide (k.holder = .group g ∨ k.splitter = some g) || k.shares.any fun s => decide (s.holder = .group g)

/-- One key of a group that has ended draining (R146): a key in EXCL returns, as one does whose LEND or RETN an eviction cut
off; the parent key of its shares passes on before its own shares return. A key that the group neither holds nor split stays as it
is. -/
def Mach.releaseKey (m : Mach) (g : Gid) (ctx : BitVec 6) (rid : Nat) : Mach :=
  match m.region rid with
  | none => m
  | some r =>
    if r.key.state = .excl ∧ r.key.holder = .group g then (m.returnKey rid ctx).2
    else if (r.key.state = .shared ∨ r.key.state = .scatter) ∧ r.key.concerns g = true then
      let n := (r.key.shares.filter fun s => decide (s.holder = .group g)).length
      let m := if r.key.holder = .group g then m.setKey rid (r.key.passUp m.groupLives ctx) else m
      ((List.range n).foldl (fun m _ => (m.returnShare rid g ctx).2) m).settle rid
    else m

/-- The keys and shares of a group that has ended draining (R146, R411); the group already counts as ended. -/
def Mach.releaseKeys (m : Mach) (g : Gid) (ctx : BitVec 6) : Mach :=
  let m := (m.regions.map Region.rid).foldl (fun m rid => m.releaseKey g ctx rid) m
  let mine := m.remoteShares.filter fun s => decide (s.2.2.2.1 = g)
  { m with
    remoteShares := m.remoteShares.filter fun s => decide (s.2.2.2.1 ≠ g)
    outbox := m.outbox ++ mine.map fun s => .remoteKey s.1 (askerOf ctx g false 0) 1 s.2.1 0 }

/-! ### Checks 2 to 5 of R150 -/

/-- Where a key instruction's address lies: its package when it is another's, and the address in its space. -/
structure KeyAddr where
  pkg : Option (BitVec 10)
  addr : Nat
deriving DecidableEq, Repr

/-- Checks 2 to 4 of R150, with the remote addresses of R405 where they are accepted. -/
def Env.keyAddr (e : Env) (m : Mach) (sp : Space) (w : Word) (far : Bool) : Chk KeyAddr :=
  let a := w.toNat
  match sp with
  | .glb =>
    if far && wbit w 55 then do
      must (decide (wbits w 63 56 = 0 ∧ wbits w 44 32 = 0)) (.trap tSpace w)
      must (cutOff e.trust m (w.extractLsb' 45 10) || farGlobalOk (wbits w 31 0)) (.trap tSpace w)
      .ok ⟨some (w.extractLsb' 45 10), wbits w 31 0⟩
    else do
      must (e.trust.globalOk a) (.trap tSpace w)
      .ok ⟨none, a⟩
  | .dev => do
    must (decide (a < 2 ^ 57)) (.trap tSpace w)
    match translate e.trust m (e.ctx m) a with
    | .fault => .error (.trap tXlate w)
    | .poison pa =>
      let (d, b, i) := m.homeErr true pa
      .error (.lost d b i)
    | .leaf .. => .ok ⟨none, a⟩
  | .blk => do
    must (m.bseq (e.ctx m) (baHandle a)).isSome (.trap tBlock w)
    .ok ⟨none, a⟩

/-- Check 5 of R150: the address lies in a region or sequence. -/
def Env.keyRegion (e : Env) (m : Mach) (sp : Space) (w : Word) (a : Nat) : Chk Region :=
  match m.regionAt sp (e.ctx m) a with
  | none => .error (.trap tNokey w)
  | some r => .ok r

/-- The holding of a region in the core's view. -/
def Core.holding (k : Core) (rid : Nat) : Option Hold := k.view.find? fun h => decide (h.rid = rid)

/-- Check 5 of R150 where the group must hold the key in EXCL, or at least one share; of a LOST key nobody does (R147). -/
def Env.heldRegion (e : Env) (m : Mach) (sp : Space) (w : Word) (a : Nat) : Chk (Region × Hold) := do
  let r ← e.keyRegion m sp w a
  must (decide (r.key.state ≠ .lost)) (.trap tNokey w)
  match (m.core e.c).holding r.rid with
  | none => .error (.trap tNokey w)
  | some h => .ok (r, h)

/-- A region whose key the group holds in EXCL. -/
def Env.exclRegion (e : Env) (m : Mach) (sp : Space) (w : Word) (a : Nat) : Chk Region := do
  let (r, h) ← e.heldRegion m sp w a
  must (decide (h.right = .excl)) (.trap tNokey w)
  .ok r

/-- A status lands; what the view dropped at start comes back with it (R149). -/
def Env.status (e : Env) (m : Mach) (l : Landing) (code : Nat) (fin : List Fin_) : Mach :=
  e.startValues m [l.put (stWord code)] 0 fin

/-- A status that changes nothing, the view dropped at start and restored as it lands (R143, R149). -/
def Env.refused (e : Env) (m : Mach) (l : Landing) (code : Nat) (h : Hold) : Mach :=
  e.status (e.later (.dropHold h) m) l code [.gain h]

/-- The issuing group, or one that is no group's number. -/
def Env.me (e : Env) (m : Mach) : Gid := (e.gid m).getD ⟨0, 0⟩
/-- Whether the rack still has a region's key, or a share of it, with the core's group: not so when an instruction that started
earlier in the same cycle passes it on or changes it, since the view drops it only at the end of that cycle (R141, R143). -/
def Mach.rackHas (m : Mach) (c : Nat) (rid : Nat) (right : Right) : Bool :=
  let k := m.core c
  match m.region rid, k.group.map Group.gid with
  | some r, some g =>
    if right = .excl then decide (r.key.state = .excl ∧ r.key.holder = .group g ∧ k.passes rid = 0)
    else decide (k.passes rid < (r.key.shares.filter fun s => decide (s.holder = .group g)).length)
  | _, _ => false

/-- A code other than DONE, of those given, for an instruction that loses a race for its key: which is open (R141; log 135). -/
def Mach.racedOf (m : Mach) (codes : List Nat) : Nat × Mach :=
  (codes.getD ((Config.racedCode m.free).val % codes.length) 4, { m with free := m.free + 1 })

/-- The status of a key instruction that loses a race for its key: it changes nothing (R141). -/
def Env.raced (e : Env) (m : Mach) (l : Landing) : Mach :=
  let (n, m) := m.racedOf [1, 2, 3, 4, 5, 6, 8]
  e.status m l n []

/-! ### LEND (R145, R151, R152, R410, R443) -/

/-- What a LEND does: pass to a holder with or without zeroing, or a status at once. -/
inductive LendTo where
  | pass (dest : Holder) (zero : Bool)
  | code (n : Nat)
  | cut (p : BitVec 10)
deriving DecidableEq, Repr

/-- The agent word (R151), for a region held with some right. -/
def lendTo (t : Trust) (m : Mach) (g : Gid) (ctx : BitVec 6) (super park : Bool) (r : Region) (h : Hold) (b : Word) :
    LendTo :=
  let remote := wbit b 32
  let pkg : BitVec 10 := b.extractLsb' 22 10
  let tctx : BitVec 6 := b.extractLsb' 16 6
  if wbits b 63 33 ≠ 0 ∨ (¬ remote ∧ pkg ≠ 0) ∨ (¬ park ∧ tctx ≠ 0) then .code stBadarg
  else if remote then
    if r.space ≠ .glb ∨ ¬ super then .code stDenied
    else if h.right = .excl then .code stBadarg
    else if cutOff t m pkg then .cut pkg
    else .pass (.parked (b.extractLsb' 0 16) ctx (some pkg)) false
  else if park then
    if tctx ≠ r.ctx ∧ (r.space ≠ .glb ∨ ¬ super) then .code stDenied
    else .pass (.parked (b.extractLsb' 0 16) tctx none) (decide (tctx ≠ r.ctx))
  else .pass (.group ⟨g.launch, wbits b 15 0⟩) false

/-- A share of another package's region passes on: to a group of the launch here, or away from it, by a message to its home
rack that leaves once the pass has drained; with nothing passed when the package it names is unreachable (R152, R405, R411, R443;
log 28). -/
def Env.lendFar (e : Env) (m : Mach) (p : BitVec 10) (w : Word) (a : Nat) (park : Bool) (b : Word) (l : Landing) : Chk Mach :=
  let g := e.me m
  match m.remoteShares.find? fun s => decide (s.1 = p ∧ s.2.2.2.1 = g) && inside a 1 s.2.1 s.2.2.1 with
  | none => .error (.trap tNokey w)
  | some s =>
    let d : Gid := ⟨g.launch, wbits b 15 0⟩
    let dest : BitVec 10 := b.extractLsb' 22 10
    if wbits b 63 33 ≠ 0 ∨ (¬ wbit b 32 ∧ wbits b 31 22 ≠ 0) ∨ (¬ park ∧ wbits b 21 16 ≠ 0) then .ok (e.status m l stBadarg [])
    else if park || wbit b 32 then
      if !(m.seq e.c e.q).status.super then .ok (e.status m l stDenied [])
      else if wbit b 32 && cutOff e.trust m dest then .ok (e.status (m.portError e.die (e.ctx m) dest) l stNotarget [])
      else .ok (e.start { m with remoteShares := m.remoteShares.erase s }
        (.remoteRetn p a s.2.1 s.2.2.1 (if park then 4 else 2) b.toNat none) [l] 0 [] none).2
    else if !m.groupExists d then .ok (e.status m l stNotarget [])
    else .ok (e.start { m with remoteShares := m.remoteShares.erase s }
      (.remoteRetn p a s.2.1 s.2.2.1 2 b.toNat (some (d, s.2.2.2.2))) [l] 0 [] none).2

/-- The key is in TRANSIT from the start of a pass to its arrival; shares keep the key's state (R145). -/
def Mach.transit (m : Mach) (r : Region) (h : Hold) : Mach :=
  if h.right = .excl then m.onRegion r.rid fun r => { r with key := { r.key with state := .transit, holder := .moving } } else m

/-- LEND (R150, R152). -/
def lendBody (park : Bool) (d : Dst) (sp : Space) (a b : Src) (e : Env) (m : Mach) : Chk Mach := do
  let (w, v, m) ← e.src2 m a b
  let (l, m) ← e.dst m d .pending
  let ka ← e.keyAddr m sp w true
  match ka.pkg with
  | some p => e.lendFar m p w ka.addr park v l
  | none =>
    let (r, h) ← e.heldRegion m sp w ka.addr
    if !m.rackHas e.c r.rid h.right then .ok (e.raced m l)
    else
    match lendTo e.trust m (e.me m) (e.ctx m) (m.seq e.c e.q).status.super park r h v with
    | .code n => .ok (e.refused m l n h)
    | .cut p => .ok (e.refused (m.portError e.die (e.ctx m) p) l stNotarget h)
    | .pass dest zero =>
      let m := e.later (.dropHold h) (m.transit r h)
      .ok (e.start m (.lend r.rid h.right dest zero) [l] 0 [] none).2

/-! ### What a pass waits for (R152) -/

/-- Whether a side of a copy may lie in a range: a box around its runs is compared. -/
def CopyOp.boxMeets (x : CopyOp) (base : Nat) (s1 s2 : Int) (a n : Nat) : Bool :=
  let lo : Int := min 0 (s1 * (x.n1 - 1 : Int)) + min 0 (s2 * (x.n2 - 1 : Int)) + base
  let hi : Int := max 0 (s1 * (x.n1 - 1 : Int)) + max 0 (s2 * (x.n2 - 1 : Int)) + base + x.n0
  decide (lo < (a + n : Int) ∧ (a : Int) < hi)

/-- Whether a copy may read or write a range of the space of a code. -/
def CopyOp.mayTouch (x : CopyOp) (code a n : Nat) : Bool :=
  (decide (x.ssp = code) && x.boxMeets x.sbase x.sstr1 x.sstr2 a n) || (decide (x.dsp = code) && x.boxMeets x.dbase x.dstr1 x.dstr2 a n)

/-- Whether a copy may read or write a region (R152). -/
def copyTouches (x : CopyOp) (r : Region) : Bool :=
  match r.space with
  | .glb => x.mayTouch 1 r.base r.size
  | .dev => x.mayTouch 2 r.base r.size
  | .blk => x.mayTouch 3 (r.base * 2 ^ 44) (2 ^ 44)

/-- Whether a payload on its way was read from a region, in whole or in part (R152, R308). -/
def Payload.from (p : Payload) (ctx : BitVec 6) (r : Region) : Bool :=
  match p.src with
  | .loc => false
  | .glb => decide (r.space = .glb) && overlaps p.at_ p.data.length r.base r.size
  | .dev => decide (r.space = .dev ∧ r.ctx = ctx) && overlaps p.at_ p.data.length r.base r.size

/-- Whether an operation of the group reads or writes a region's storage, so that a pass of the key waits for it (R152);
an operation that does not say where it reads is waited for. -/
def Op.touches (o : Op) (ctx : BitVec 6) (r : Region) : Bool :=
  (match o.load with
    | some l => decide (l.space = r.space) && (r.covers r.space ctx l.ea)
    | none => false) ||
  match o.kind with
  | .cpy x => copyTouches x r
  | .wld _ _ dev _ => decide (r.space = if dev then .dev else .glb)
  | .mxdr _ _ (some (_, dev, _, _)) => decide (r.space = if dev then .dev else .glb)
  | .rlys _ _ _ _ s _ none => decide ((r.space = .glb ∧ s = .glb) ∨ (r.space = .dev ∧ s = .dev))
  | .clrd .. => decide (r.space = .glb)
  | .cwld ws rids _ => (rids.any fun x => decide (x = r.rid)) ||
      decide (r.space = .dev ∧ wbits (wordAt ws 0) 3 0 = 2) &&
        overlaps (wordAt ws 1).toNat (wbits (wordAt ws 3) 63 32 * 0x400000) r.base r.size
  | .bshr s d _ => decide (r.space = .blk ∧ (r.base = s ∨ r.base = d))
  | .bfre h .. => decide (r.space = .blk ∧ r.base = h)
  | .binv h .. => decide (r.space = .blk ∧ r.base = h)
  | _ => false

/-- Whether a pass of a region by operation o may reach the rack (R130, R152, R308): it waits for what the group started
before it, and for what the group started in its cycle, whose key checks still passed (R143). -/
def Mach.drained (m : Mach) (c o : Nat) (r : Region) : Bool :=
  let k := m.core c
  let cycle := (k.op? o).map Op.cycle
  let mine (id : Nat) (at_ : Nat) : Bool := decide (id ≠ o) && (decide (id < o) || decide (some at_ = cycle))
  k.ops.all (fun x => !(mine x.id x.cycle && x.touches k.ctx r)) &&
    k.posted.all (fun p => !(mine p.id p.cycle && decide (p.space = r.space) && r.covers r.space k.ctx p.ea)) &&
    m.channels.all fun ch => ch.sends.all fun p =>
      decide (p.group ≠ k.group.map Group.gid) || p.group.isNone || decide (o < p.op) || !p.from k.ctx r

/-! ### KEY_ARRIVAL -/

/-- Whether a key on its way, or a share, is still the giver's to pass (R145). -/
def Key.passable (k : Key) (right : Right) (g : Gid) : Bool :=
  if right = .excl then decide ((k.state = .transit ∧ k.holder = .moving) ∨ (k.state = .excl ∧ k.holder = .group g))
  else k.shares.any fun s => decide (s.holder = .group g)

/-- The rack passes a key or share that a group lends (R145, R152, R443): the status too. `cut` says that the package it is
lent to is unreachable. -/
def Mach.rackLend (m : Mach) (rid : Nat) (right : Right) (dest : Holder) (zero cut : Bool) (g : Gid) : Nat × Mach :=
  match m.region rid with
  | none => (stLost, m)
  | some r =>
    let ok := match dest with | .group d => m.groupExists d | _ => !cut
    if !r.key.passable right g then (stLost, m)
    else if !ok then
      let m := if right = .excl then m.onRegion rid fun r => { r with key := { r.key with state := .excl, holder := .group g } } else m
      (stNotarget, m.arriveAt r right g)
    else
      let m := if zero then m.zeroRegion r else m
      let m := m.onRegion rid fun r =>
        if right = .excl then
          { r with key := { r.key with
                              state := (match dest with | .group _ => .excl | _ => .transit)
                              holder := dest
                              lender := g :: r.key.lender } }
        else
          { r with key := { r.key with
                              shares := updFirst (fun (s : Share) => decide (s.holder = .group g))
                                (fun s => ⟨dest, g :: s.lender⟩) r.key.shares } }
      (stDone, match dest with | .group d => m.arriveAt r right d | _ => m)

/-- The rack takes back a key or share that a group returns: the status too. A key that went LOST stays so (R147). -/
def Mach.rackRetn (m : Mach) (rid : Nat) (right : Right) (g : Gid) (ctx : BitVec 6) : Nat × Mach :=
  if ((m.region rid).map fun r => r.key.passable right g) ≠ some true then (stLost, m)
  else if right = .excl then m.returnKey rid ctx else m.returnShare rid g ctx

/-- The package that a park waits for. -/
def Holder.pkg? : Holder → Option (BitVec 10)
  | .parked _ _ p => p
  | _ => Option.none

/-- Whether a copy of the group with another package has still to complete in a region there (R152, R411). -/
def Core.farCopies (k : Core) (o : Nat) (p : BitVec 10) (base size : Nat) : Bool :=
  (k.earlier o).any fun x =>
    match x.kind with
    | .cpy y => decide (y.pkg = p) && y.mayTouch 5 base size
    | _ => false

/-- Whether a return would reach a group of another context (R152). -/
def Mach.returnsAway (m : Mach) (r : Region) (h : Hold) (g : Gid) (ctx : BitVec 6) : Bool :=
  let lender := if h.right = .excl then r.key.lender.head?
    else
      let own := (r.key.shares.find? fun s => decide (s.holder = .group g)).bind fun s => s.lender.head?
      match own.filter fun d => m.groupLives d with
      | some d => some d
      | none => r.key.splitter
  match lender with
  | none => false
  | some d => m.groupLives d && decide ((m.groupCtx d).getD ctx ≠ ctx)

/-- Whether a key in EXCL of another context's group would go FREE as it returns, so that its region is zeroed (R139). -/
def Mach.freesAway (m : Mach) (r : Region) (h : Hold) (ctx : BitVec 6) : Bool :=
  decide (h.right = .excl ∧ r.ctx ≠ ctx) && (r.key.lender.head?.filter fun d => m.groupLives d).isNone

/-- The slice in retention that a pass of a region has to wake before it can zero the region (R138, R152), as an address. -/
def Mach.zeroWaits (m : Mach) (rid : Nat) (zero : Region → Bool) : Option Nat :=
  match m.region rid with
  | some r => if zero r && decide (r.space = .glb) && (m.retainedSlice r.base).isSome then some r.base else none
  | none => none

/-- KEY_ARRIVAL: the key or share of a LEND or RETN reaches its place, once everything it waits for is done (R152). -/
def keyArrival (t : Trust) (c o : Nat) (m : Mach) : Mach :=
  let k := m.core c
  let g := (k.group.map Group.gid).getD ⟨0, 0⟩
  match k.open? o with
  | none => m
  | some op =>
    let done (r : Nat × Mach) : Mach := r.2.finish c { op with dests := op.dests.map (·.put (stWord r.1)) }
    let ready (rid : Nat) : Bool := match m.region rid with | some r => m.drained c o r | none => true
    match op.kind with
    | .lend rid right dest zero =>
      match m.zeroWaits rid fun _ => zero with
      | some a => m.touchSlice a
      | none =>
      if ready rid then
        let cut := dest.pkg?.filter (cutOff t m)
        let m := match cut with | some p => m.portError (dieOf c) k.ctx p | none => m
        done (m.rackLend rid right dest zero cut.isSome g)
      else m
    | .retn rid right =>
      match m.zeroWaits rid fun r => m.returnsAway r ⟨rid, right⟩ g k.ctx || m.freesAway r ⟨rid, right⟩ k.ctx with
      | some a => m.touchSlice a
      | none => if ready rid then done (m.rackRetn rid right g k.ctx) else m
    | .remoteRetn p a base size what arg dest =>
      if cutOff t m p then done (stLost, m.portError (dieOf c) k.ctx p)
      else if k.farCopies o p base size then m
      else
        let m := match dest with
          | some d => { m with remoteShares := m.remoteShares ++ [(p, base, size, d.1, d.2)] }
          | none => m
        done (stDone, { m with outbox := m.outbox ++ [.remoteKey p (k.asker c (k.seq op.seq).status.super) what a arg] })
    | _ => m

/-! ### RETN (R152, R411, R443) -/

/-- RETN (R150, R152). -/
def retnBody (d : Dst) (sp : Space) (a : Src) (e : Env) (m : Mach) : Chk Mach := do
  let (w, m) ← e.src m a
  let (l, m) ← e.dst m d .pending
  let ka ← e.keyAddr m sp w true
  let super := (m.seq e.c e.q).status.super
  match ka.pkg with
  | some p =>
    let mine := m.remoteShares.find? fun s => decide (s.1 = p ∧ s.2.2.2.1 = e.me m) && inside ka.addr 1 s.2.1 s.2.2.1
    if cutOff e.trust m p then
      let m := match mine with | some s => { m with remoteShares := m.remoteShares.erase s } | none => m
      .ok (e.status (m.portError e.die (e.ctx m) p) l stLost [])
    else
      match mine with
      | none => .error (.trap tNokey w)
      | some s =>
        if !super then .ok (e.status m l stDenied [])
        else .ok (e.start { m with remoteShares := m.remoteShares.erase s } (.remoteRetn p ka.addr s.2.1 s.2.2.1 1 0 none) [l] 0 [] none).2
  | none =>
    let (r, h) ← e.heldRegion m sp w ka.addr
    if !m.rackHas e.c r.rid h.right then .ok (e.raced m l)
    else if m.returnsAway r h (e.me m) (e.ctx m) && (!super || decide (sp ≠ .glb)) then .ok (e.refused m l stDenied h)
    else
      let m := if r.key.lender.isEmpty then m else m.transit r h
      .ok (e.start (e.later (.dropHold h) m) (.retn r.rid h.right) [l] 0 [] none).2

/-! ### SPLIT (R145, R153) -/

/-- The home die of a range (R140): of a device range, the die of its first page. -/
def homeOf (t : Trust) (m : Mach) (sp : Space) (ctx : BitVec 6) (base : Nat) : Except (Option Nat) Nat :=
  match sp with
  | .dev => match translate t m ctx base with
    | .leaf pa .. => .ok (paDie pa)
    | .poison pa => .error (some pa)
    | .fault => .error none
  | _ => .ok (base / 2 ^ 28)

/-- The home of the upper part of a split region (R140): that of its first page; while that is not mapped, that of the lower
part (log 136). -/
def Env.upperHome (e : Env) (m : Mach) (sp : Space) (r : Region) (at_ : Nat) : Chk Nat :=
  match homeOf e.trust m sp r.ctx at_ with
  | .ok d => .ok d
  | .error none => .ok r.home
  | .error (some pa) =>
    let (d, b, i) := m.homeErr true pa
    .error (.lost d b i)

/-- SPLIT.addr: the region is divided, and the group holds both parts with the original lender. -/
def splitAddrBody (d : Dst) (sp : Space) (a b : Src) (e : Env) (m : Mach) : Chk Mach := do
  let (w, v, m) ← e.src2 m a b
  let (l, m) ← e.dst m d .pending
  let ka ← e.keyAddr m sp w false
  let r ← e.exclRegion m sp w ka.addr
  let h : Hold := ⟨r.rid, .excl⟩
  if sp = .blk then .ok (e.refused m l stNotallowed h)
  else
    must (decide (v.toNat % (if sp = .glb then 4096 else 65536) = 0)) (.trap tAlign v)
    if !m.rackHas e.c r.rid .excl then .ok (e.raced m l)
    else if ¬ (r.base < v.toNat ∧ v.toNat < r.base + r.size) then .ok (e.refused m l stBadarg h)
    else
      let home ← e.upperHome m sp r v.toNat
      if m.rackFree home < 1 then .ok (e.refused m l stRackfull h)
      else
      let (rid, m) := m.fresh
      let upper : Region := { r with rid := rid, base := v.toNat, size := r.base + r.size - v.toNat, home := home }
      let m := m.onRegion r.rid fun r => { r with size := v.toNat - r.base }
      let m := { m with regions := m.regions ++ [upper] }
      let m := m.onCore e.c fun k => k.gain ⟨rid, .excl⟩
      let m := e.later (.dropHold h) (e.later (.dropHold ⟨rid, .excl⟩) m)
      .ok (e.status m l stDone [.gain h, .gain ⟨rid, .excl⟩])

/-- SPLIT.rd and SPLIT.wr: n shares and the splitter record, all the group's. -/
def splitBody (st : KState) (d : Dst) (sp : Space) (a b : Src) (e : Env) (m : Mach) : Chk Mach := do
  let (w, v, m) ← e.src2 m a b
  let (l, m) ← e.dst m d .pending
  let ka ← e.keyAddr m sp w false
  let r ← e.exclRegion m sp w ka.addr
  let h : Hold := ⟨r.rid, .excl⟩
  let n := v.toNat
  if !m.rackHas e.c r.rid .excl then .ok (e.raced m l)
  else if sp = .blk ∧ st = .scatter then .ok (e.refused m l stNotallowed h)
  else if ¬ (1 ≤ n ∧ n ≤ 63) then .ok (e.refused m l stBadarg h)
  else if m.rackFree r.home < n then .ok (e.refused m l stRackfull h)
  else
    let g := e.me m
    let m := m.setKey r.rid ⟨st, .group g, r.key.lender, List.replicate n ⟨.group g, []⟩, some g, []⟩
    .ok (e.status (e.later (.dropHold h) m) l stDone (List.replicate n (.gain ⟨r.rid, st.right⟩)))

/-- SPLIT.cmn drains as LEND does; the key is COMMON when it is served. -/
def splitCmnBody (d : Dst) (sp : Space) (a : Src) (e : Env) (m : Mach) : Chk Mach := do
  let (w, m) ← e.src m a
  let (l, m) ← e.dst m d .pending
  let ka ← e.keyAddr m sp w false
  let r ← e.exclRegion m sp w ka.addr
  let h : Hold := ⟨r.rid, .excl⟩
  if !m.rackHas e.c r.rid .excl then .ok (e.raced m l)
  else if sp = .blk then .ok (e.refused m l stNotallowed h)
  else .ok (e.start (e.later (.dropHold h) m) (.splitCmn r.rid) [l] 0 [] none).2

/-- SPLIT.cmn is served once the group's accesses are done (R153). -/
def serveSplitCmn (c : Nat) (op : Op) (rid : Nat) (m : Mach) : Mach :=
  match m.region rid with
  | none => m.finish c { op with dests := op.dests.map (·.put (stWord stLost)) }
  | some r =>
    if r.key.state = .lost then m.finish c { op with dests := op.dests.map (·.put (stWord stLost)) }
    else if m.drained c op.id r then
      (m.setKey rid ⟨.common, .none, [], [], none, []⟩).finish c { op with dests := op.dests.map (·.put (stWord stDone)) }
    else m

/-! ### JOIN (R145, R154) -/

/-- The slice of a global address. -/
def sliceOf (a : Nat) : Nat := a / 2 ^ 22

/-- JOIN.addr: two adjacent parts become one region again, with the key, and so the lender, of the part that holds srcA
(log 137). -/
def joinAddrBody (d : Dst) (sp : Space) (a b : Src) (e : Env) (m : Mach) : Chk Mach := do
  let (w, v, m) ← e.src2 m a b
  let (l, m) ← e.dst m d .pending
  let ka ← e.keyAddr m sp w false
  let r ← e.exclRegion m sp w ka.addr
  let x ← e.exclRegion m sp v v.toNat
  let h : Hold := ⟨r.rid, .excl⟩
  if !(m.rackHas e.c r.rid .excl && m.rackHas e.c x.rid .excl) then .ok (e.raced m l)
  else if sp = .blk then .ok (e.refused m l stNotallowed h)
  else
    let lo := min r.base x.base
    let adj := r.base + r.size = x.base ∨ x.base + x.size = r.base
    if ¬ adj ∨ r.home ≠ x.home ∨ r.ctx ≠ x.ctx ∨ (sp = .glb ∧ sliceOf r.base ≠ sliceOf x.base) then
      .ok (e.refused m l stBadarg h)
    else
      let m := { m with regions := m.regions.filter fun y => decide (y.rid ≠ x.rid) }
      let m := m.onRegion r.rid fun r => { r with base := lo, size := r.size + x.size }
      let m := m.onCore e.c fun k => k.drop ⟨x.rid, .excl⟩
      .ok (e.status (e.later (.dropHold h) m) l stDone [.gain h, .lines { dev := decide (sp = .dev), base := lo, len := r.size + x.size }])

/-- Whether the group still has a pass of a region under way. -/
def Core.passing (k : Core) (rid : Nat) : Bool :=
  k.ops.any fun o => match o.kind with | .lend r .. => decide (r = rid) | .retn r _ => decide (r = rid) | _ => false

/-- JOIN.shr waits until every share is back. -/
def joinShrBody (d : Dst) (sp : Space) (a : Src) (e : Env) (m : Mach) : Chk Mach := do
  let (w, m) ← e.src m a
  let (l, m) ← e.dst m d .pending
  let ka ← e.keyAddr m sp w false
  let r ← e.keyRegion m sp w ka.addr
  let g := e.me m
  must (decide ((r.key.state = .shared ∨ r.key.state = .scatter) ∧ r.key.splitter = some g)) (.trap tNokey w)
  must (decide (r.key.guests = 0) && !(m.core e.c).passing r.rid) (.stall 4)
  let m := m.setKey r.rid (.exclOf g r.key.lender)
  .ok (e.status (e.later (.dropRegion r.rid) m) l stDone (r.taken .excl))

/-- Whether an accumulate admitted to a region has still to be applied, of another package too (R154, R409). -/
def Mach.accPending (m : Mach) (r : Region) : Bool :=
  let hit (a : AccOpRec) : Bool := decide (a.remote = none) && decide (r.space = if a.dev then .dev else .glb) && inside a.va 1 r.base r.size
  (m.cores.any fun p => (decide (r.space = .glb) || decide (p.2.ctx = r.ctx)) && p.2.ops.any fun o =>
    match o.kind with
    | .cacc a => hit a
    | .fence _ _ (some a) => hit a
    | _ => false) || m.admitted.any fun a =>
      decide (r.space = if a.dev then .dev else .glb) && (!a.dev || decide (a.who.ctx = r.ctx)) && inside a.addr 1 r.base r.size

/-- JOIN.cmn and JOIN.ring of a key in neither state answer at once (R154). -/
def Env.joinOwn (e : Env) (m : Mach) (sp : Space) (w : Word) (a : Nat) (st : KState) : Chk (Region × Option Nat) := do
  let r ← e.keyRegion m sp w a
  must (decide (r.ctx = e.ctx m)) (.trap tNokey w)
  .ok (r, if sp = .blk then some stNotallowed
    else if r.key.state = .lost then some stLost
    else if r.key.state ≠ st then some stBadarg
    else none)

/-- JOIN.cmn waits for the accumulates admitted to the region. -/
def joinCmnBody (d : Dst) (sp : Space) (a : Src) (e : Env) (m : Mach) : Chk Mach := do
  let (w, m) ← e.src m a
  let (l, m) ← e.dst m d .pending
  let ka ← e.keyAddr m sp w false
  let (r, code) ← e.joinOwn m sp w ka.addr .common
  match code with
  | some n => .ok (e.status m l n [])
  | none =>
    must (!m.accPending r) (.stall 4)
    .ok (e.status (m.setKey r.rid (.exclOf (e.me m) [])) l stDone (r.taken .excl))

/-- Whether a ring is empty with nothing claimed (R283): H = C. -/
def Ring.idle (g : Ring) : Bool := decide (g.h = g.c) && g.state.isEmpty

/-- JOIN.ring takes an empty ring's key, or answers NOTEMPTY; the ring of a channel is no group's to take (R304). -/
def joinRingBody (d : Dst) (sp : Space) (a : Src) (e : Env) (m : Mach) : Chk Mach := do
  let (w, m) ← e.src m a
  let (l, m) ← e.dst m d .pending
  let ka ← e.keyAddr m sp w false
  let (r, code) ← e.joinOwn m sp w ka.addr .ring
  match code, r.ring with
  | some n, _ => .ok (e.status m l n [])
  | none, none => .ok (e.status m l stBadarg [])
  | none, some g =>
    must (decide (g.relay = none)) (.trap tNokey w)
    if g.idle then
      let m := m.onRegion r.rid fun r => { r with key := .exclOf (e.me m) [], ring := none }
      .ok (e.status m l stDone (r.taken .excl))
    else .ok (e.status m l stNotempty [])

/-! ### KEYW and KEYQ (R155, R156, R411, R443) -/

/-- Whether a KEYW's request waits at a rack whose key has gone LOST with its region, as a context was torn down (R145,
R155). -/
def Env.askedLost (e : Env) (m : Mach) : Bool :=
  let s := m.seq e.c e.q
  s.waitsForKey && match s.keyWait with | some w => (m.region w.rid).isNone | none => false

/-- KEYW.arr: the group holds the key or a share. -/
def keywArrBody (d : Dst) (sp : Space) (a : Src) (e : Env) (m : Mach) : Chk Mach := do
  let (w, m) ← e.src m a
  let (l, m) ← e.dst m d .pending
  if e.askedLost m then .ok (e.status m l stLost [])
  else
  let ka ← e.keyAddr m sp w false
  let r ← e.keyRegion m sp w ka.addr
  if r.key.state = .lost then .ok (e.status m l stLost [])
  else
    must ((m.core e.c).holding r.rid).isSome (.rack r.rid .arr)
    .ok (e.status m l stDone [])

/-- Whether a holder is the park of a ticket for a context here. -/
def parkedFor (tkt : BitVec 16) (ctx : BitVec 6) (h : Holder) : Bool := decide (h = .parked tkt ctx none)

/-- The rack gives a parked key or share to the group that names its ticket (R145, R155): the right it gains. -/
def Region.take (r : Region) (tkt : BitVec 16) (ctx : BitVec 6) (g : Gid) : Option (Right × Key) :=
  if parkedFor tkt ctx r.key.holder then some (.excl, .exclOf g r.key.lender)
  else if r.key.shares.any fun s => parkedFor tkt ctx s.holder then
    some (r.key.state.right, { r.key with
      shares := updFirst (fun (s : Share) => parkedFor tkt ctx s.holder) (fun s => { s with holder := .group g }) r.key.shares })
  else none

/-- Whether the rack could serve a waiting request for a region now (R155). -/
def Region.serves (r : Region) (ask : KeyAsk) : Bool :=
  match ask with
  | .arr => false
  | .tkt x ctx => (r.take x ctx ⟨0, 0⟩).isSome
  | .free => decide (r.key.state = .free)

/-- The requests that wait at the racks: of every sequencer that stalls at a KEYW. -/
def Mach.keyWaits (m : Mach) : List KeyWait :=
  m.cores.flatMap fun p => if p.2.failed then [] else
    allSeqs.filterMap fun q => if (p.2.seq q).waitsForKey then (p.2.seq q).keyWait else none

/-- Whether a request that reached the rack earlier is to be served first (R141, R155). -/
def Env.behind (e : Env) (m : Mach) (r : Region) (ask : KeyAsk) : Bool :=
  let s := m.seq e.c e.q
  let mine := if s.waitsForKey then s.keyWait.filter fun w => decide (w.rid = r.rid ∧ w.ask = ask) else none
  m.keyWaits.any fun w => decide (w.rid = r.rid) && r.serves w.ask && (match mine with | some x => decide (w.order < x.order) | none => true)

/-- What another package answers to a KEYW.tkt: a trap, or the status with the share taken (R404, R411). -/
def keyAnswer (w : Word) : Reply → Option ((Nat × Word) ⊕ (Nat × Right × Nat × Nat))
  | .key s right base size => some (.inr (s, right, base, size))
  | .noKey => some (.inl (tNokey, w))
  | .trap code info => some (.inl (code, info))
  | _ => none

/-- KEYW.tkt. A LOST key gives LOST whatever the ticket; a ticket that is no ticket is BADARG before the home rack of another
package is asked (R155; log 146). -/
def keywTktBody (d : Dst) (sp : Space) (a b : Src) (e : Env) (m : Mach) : Chk Mach := do
  let (w, v, m) ← e.src2 m a b
  let (l, m) ← e.dst m d .pending
  if e.askedLost m then .ok (e.status m l stLost [])
  else
  let ka ← e.keyAddr m sp w true
  let g := e.me m
  match ka.pkg with
  | some p =>
    if cutOff e.trust m p then .ok (e.status (m.portError e.die (e.ctx m) p) l stLost [])
    else if v.toNat / 2 ^ 16 ≠ 0 then .ok (e.status m l stBadarg [])
    else
      match takeReply (keyAnswer w) m.inbox with
      | none => .error (.stall 4)
      | some (.inl (code, info), left) => .error (.answered code info left)
      | some (.inr (s, rt, bs, n), left) =>
        let m := { m with inbox := left, outbox := m.outbox ++ [.remoteKey p (e.asker m) 0 ka.addr v.toNat] }
        let m := if s = stDone then { m with remoteShares := m.remoteShares ++ [(p, bs, n, g, rt)] } else m
        .ok (e.status m l (s % 16) [])
  | none =>
    let r ← e.keyRegion m sp w ka.addr
    if r.key.state = .lost then .ok (e.status m l stLost [])
    else if v.toNat / 2 ^ 16 ≠ 0 then .ok (e.status m l stBadarg [])
    else
      let ask : KeyAsk := .tkt (v.setWidth 16) (e.ctx m)
      match if e.behind m r ask then none else r.take (v.setWidth 16) (e.ctx m) g with
      | none => .error (.rack r.rid ask)
      | some (right, k) => .ok (e.status (m.setKey r.rid k) l stDone (r.taken right))

/-- KEYW.free. -/
def keywFreeBody (d : Dst) (sp : Space) (a : Src) (e : Env) (m : Mach) : Chk Mach := do
  let (w, m) ← e.src m a
  let (l, m) ← e.dst m d .pending
  if e.askedLost m then .ok (e.status m l stLost [])
  else
  let ka ← e.keyAddr m sp w false
  let r ← e.keyRegion m sp w ka.addr
  must (decide (r.ctx = e.ctx m)) (.trap tNokey w)
  if r.key.state = .lost then .ok (e.status m l stLost [])
  else
    must (decide (r.key.state = .free) && !e.behind m r .free) (.rack r.rid .free)
    .ok (e.status (m.setKey r.rid (.exclOf (e.me m) [])) l stDone (r.taken .excl))

/-- The code of a key state (R144). -/
def KState.code : KState → Nat
  | .free => 0 | .excl => 1 | .shared => 2 | .scatter => 3 | .transit => 4 | .ring => 5 | .common => 6 | .lost => 7

/-- KEYQ's word (R156). A key on its way between groups, or that a set-up, a HAND or a CWLD holds, is held by none of the
holders that R156 lists: its holder reads 0 (log 138). -/
def Region.keyWord (r : Region) (ctx : BitVec 6) : Word :=
  let k := r.key
  let aimed (h : Holder) : Bool := match h with | .parked _ c none => decide (c = ctx) | _ => false
  if r.ctx ≠ ctx ∧ ¬ aimed k.holder ∧ ¬ k.shares.any (fun s => aimed s.holder) then 0
  else
    let (code, group, tkt) : Nat × Nat × Nat := match k.holder with
      | .group g => (1, g.idx % 2 ^ 16, 0)
      | .waybill n => (2, 0, n)
      | .parked x _ _ => (3, 0, x.toNat)
      | .ring => (4, 0, 0)
      | _ => (0, 0, 0)
    BitVec.ofNat 64 (k.state.code * 2 ^ 60 + code * 2 ^ 57 + k.shares.length % 64 * 2 ^ 51 + k.guests % 64 * 2 ^ 45 +
      r.ctx.toNat * 2 ^ 39 + group * 2 ^ 23 + tkt * 2 ^ 7 + 1)

/-- KEYQ (R156): no key check. -/
def keyqBody (d : Dst) (sp : Space) (a : Src) (e : Env) (m : Mach) : Chk Mach := do
  let (w, m) ← e.src m a
  let (l, m) ← e.dst m d .pending
  let ka ← e.keyAddr m sp w true
  match ka.pkg with
  | some p =>
    if cutOff e.trust m p then .ok (e.startValues (m.portError e.die (e.ctx m) p) [l.put 0] 0 [])
    else
      match takeReply (fun r => match r with | .word w => some w | _ => none) m.inbox with
      | none => .error .waitOut
      | some (v, left) =>
        .ok (e.startValues { m with inbox := left, outbox := m.outbox ++ [.remoteKey p (e.asker m) 3 ka.addr 0] } [l.put v] 0 [])
  | none =>
    let v := match m.regionAt sp (e.ctx m) ka.addr with | some r => r.keyWord (e.ctx m) | none => 0
    .ok (e.startValues m [l.put v] 0 [])

/-! ### Meanings -/

/-- LEND.grp (R152). -/
def execLendGrp (t : Tok) (d : Dst) (x : Space) (a b : Src) (s : State) : Host.Outcome State Fault Refusal :=
  attemptNext (.lendGrp t d x a b) (lendBody false d x a b) s
/-- LEND.park (R152). -/
def execLendPark (t : Tok) (d : Dst) (x : Space) (a b : Src) (s : State) : Host.Outcome State Fault Refusal :=
  attemptNext (.lendPark t d x a b) (lendBody true d x a b) s
/-- RETN (R152). -/
def execRetn (t : Tok) (d : Dst) (x : Space) (a : Src) (s : State) : Host.Outcome State Fault Refusal :=
  attemptNext (.retn t d x a) (retnBody d x a) s
/-- SPLIT.addr (R153). -/
def execSplitAddr (t : Tok) (d : Dst) (x : Space) (a b : Src) (s : State) : Host.Outcome State Fault Refusal :=
  attemptNext (.splitAddr t d x a b) (splitAddrBody d x a b) s
/-- SPLIT.rd (R153). -/
def execSplitRd (t : Tok) (d : Dst) (x : Space) (a b : Src) (s : State) : Host.Outcome State Fault Refusal :=
  attemptNext (.splitRd t d x a b) (splitBody .shared d x a b) s
/-- SPLIT.wr (R153). -/
def execSplitWr (t : Tok) (d : Dst) (x : Space) (a b : Src) (s : State) : Host.Outcome State Fault Refusal :=
  attemptNext (.splitWr t d x a b) (splitBody .scatter d x a b) s
/-- SPLIT.cmn (R153). -/
def execSplitCmn (t : Tok) (d : Dst) (x : Space) (a : Src) (s : State) : Host.Outcome State Fault Refusal :=
  attemptNext (.splitCmn t d x a) (splitCmnBody d x a) s
/-- JOIN.addr (R154). -/
def execJoinAddr (t : Tok) (d : Dst) (x : Space) (a b : Src) (s : State) : Host.Outcome State Fault Refusal :=
  attemptNext (.joinAddr t d x a b) (joinAddrBody d x a b) s
/-- JOIN.shr (R154). -/
def execJoinShr (t : Tok) (d : Dst) (x : Space) (a : Src) (s : State) : Host.Outcome State Fault Refusal :=
  attemptNext (.joinShr t d x a) (joinShrBody d x a) s
/-- JOIN.cmn (R154). -/
def execJoinCmn (t : Tok) (d : Dst) (x : Space) (a : Src) (s : State) : Host.Outcome State Fault Refusal :=
  attemptNext (.joinCmn t d x a) (joinCmnBody d x a) s
/-- JOIN.ring (R154). -/
def execJoinRing (t : Tok) (d : Dst) (x : Space) (a : Src) (s : State) : Host.Outcome State Fault Refusal :=
  attemptNext (.joinRing t d x a) (joinRingBody d x a) s
/-- KEYW.arr (R155). -/
def execKeywArr (t : Tok) (d : Dst) (x : Space) (a : Src) (s : State) : Host.Outcome State Fault Refusal :=
  attemptNext (.keywArr t d x a) (keywArrBody d x a) s
/-- KEYW.tkt (R155). -/
def execKeywTkt (t : Tok) (d : Dst) (x : Space) (a b : Src) (s : State) : Host.Outcome State Fault Refusal :=
  attemptNext (.keywTkt t d x a b) (keywTktBody d x a b) s
/-- KEYW.free (R155). -/
def execKeywFree (t : Tok) (d : Dst) (x : Space) (a : Src) (s : State) : Host.Outcome State Fault Refusal :=
  attemptNext (.keywFree t d x a) (keywFreeBody d x a) s
/-- KEYQ (R156). -/
def execKeyq (t : Tok) (d : Dst) (x : Space) (a : Src) (s : State) : Host.Outcome State Fault Refusal :=
  attemptNext (.keyq t d x a) (keyqBody d x a) s
/-- KEY_ARRIVAL: the key of a LEND or RETN arrives (R152). -/
def execKeyArrival (c o : Nat) (s : State) : Host.Outcome State Fault Refusal :=
  .next { s with mach := keyArrival s.trust c o s.mach }

end Sys2Proof.Machine
end

