-- ==== Sys2Proof/Machine/MemBlock.lean ====
section
/-! DEFINITION. The block store's instructions: BOPN, BSHR, BFRE, BINV, BQRY and BGRW (R284 to R300). -/

namespace Sys2Proof.Machine

/-! ### Status codes (R292) -/

def stInuse : Nat := 9
def stNospace : Nat := 10
def stConflict : Nat := 11
def stMismatch : Nat := 12

/-! ### Checks (R287, R293) -/

/-- Whether a shape word has a value outside its limits or a reserved bit set (R286, R287). -/
def shapeBad (t : Trust) (w : Word) : Bool :=
  let f := wbits w 3 0
  decide (wbits w 63 38 ≠ 0) || wbit w 15 || decide (shapeDie w < 2) || decide (5 < shapeDie w) || !t.isLive (shapeDie w) ||
    decide (t.count (shapeDie w) ≤ shapeCol w) || decide (wbits w 19 16 < 4) || decide (8 < wbits w 19 16) ||
    decide (7 < wbits w 7 4) || !decide ((2 ≤ f ∧ f ≤ 5) ∨ (9 ≤ f ∧ f ≤ 13)) ||
    decide (shapeB w < 512) || decide (32768 < shapeB w)

/-- Check 2 of R293: the handle of a block address is open. -/
def Env.openSeq (e : Env) (m : Mach) (w : Word) : Chk BSeq :=
  match m.bseq (e.ctx m) (baHandle w.toNat) with
  | none => .error (.trap tBlock w)
  | some s => .ok s

/-- Check 3 of R293: the layer, and for the forms with tokens t0. -/
def layerOk (s : BSeq) (w : Word) (tokens : Bool) : Chk Unit :=
  let t0 := baOff w.toNat
  must (decide (baLayer w.toNat < shapeLayers s.shape) &&
    (!tokens || decide (t0 = 0) || (decide (t0 % 64 = 0) && decide (t0 < shapeT s.shape)))) (.trap tBlock w)

/-- Start a block instruction that acted already: ctl goes on when its status has landed (R294). -/
def Env.blockDone (e : Env) (m : Mach) (l : Landing) (v : Word) (fin : List Fin_) : Mach :=
  let (o, m) := e.start m .values [l.put v] 0 fin none
  e.block o m

/-- A block instruction whose handle's key was passed on in the same cycle: it changes nothing, with a code that R292 lists for it
(R141; log 135). -/
def Env.blockRaced (e : Env) (m : Mach) (l : Landing) (codes : List Nat) : Mach :=
  let (n, m) := m.racedOf codes
  e.blockDone m l (stWord n) []

/-- Start a block instruction that waits for earlier work first (R294). -/
def Env.blockStart (e : Env) (m : Mach) (k : OpKind) (l : Landing) (fin : List Fin_) : Mach :=
  let (o, m) := e.start m k [l] 0 fin none
  e.block o m

/-! ### BOPN (R295) -/

/-- BOPN: its status, and the machine with the sequence, its handle key as given, when it is opened. -/
def openHandle (t : Trust) (m : Mach) (key : Key) (ctx : BitVec 6) (a shape : Word) : Nat × Mach × List Fin_ :=
  let h := wbits a 19 0
  if wbits a 63 20 ≠ 0 ∨ h = 0 ∨ shapeBad t shape = true then (stBadarg, m, [])
  else if (m.bseq ctx h).isSome then (stInuse, m, [])
  else if 65536 ≤ (m.seqs.filter fun s => decide (s.ctx = ctx)).length then (stNospace, m, [])
  else if m.rackFree (shapeDie shape) = 0 then (stRackfull, m, [])
  else
    let (rid, m) := m.fresh
    let r : Region := ⟨rid, ctx, .blk, h, 0, shapeDie shape, key, none⟩
    (stDone, { m with seqs := m.seqs ++ [⟨ctx, h, shape, [], 0⟩], regions := m.regions ++ [r] }, r.taken .excl)

/-- BOPN. -/
def bopnBody (d : Dst) (a b : Src) (e : Env) (m : Mach) : Chk Mach := do
  let (x, y, m) ← e.src2 m a b
  let (l, m) ← e.dst m d .pending
  let (code, m, fin) := openHandle e.trust m (.exclOf (e.me m) []) (e.ctx m) x y
  .ok (e.blockDone m l (stWord code) fin)

/-! ### BSHR (R296) -/

/-- The key of block b < n of a layer, if the key lies in that prefix. -/
def inRange (n key : Nat) : Bool := decide (key % 2 ^ 20 < n)

/-- BSHR: source, destination and block count; its status and the machine. -/
def shareBlocks (ctx : BitVec 6) (s d n : Nat) (m : Mach) : Nat × Mach :=
  match m.bseq ctx s, m.bseq ctx d with
  | some x, some y =>
    let pk := shapePool x.shape
    let moved := x.map.filter fun p => inRange n p.1
    if s = d ∨ x.shape ≠ y.shape then (stMismatch, m)
    else if y.map.any fun p => inRange n p.1 then (stConflict, m)
    else if moved.any fun p => decide (65535 ≤ (SMap.getD (m.pool pk).frames p.2 ⟨1, 0, ctx⟩).refs) then (stNospace, m)
    else
      let m := m.onBseq ctx d fun q => { q with map := moved.foldl (fun mp p => SMap.set mp p.1 p.2) q.map }
      (stDone, m.onPool pk fun p =>
        { p with frames := moved.foldl (fun fs x =>
            let f := SMap.getD fs x.2 ⟨1, 0, ctx⟩
            SMap.set fs x.2 { f with refs := f.refs + 1 }) p.frames })
  | _, _ => (stMismatch, m)

/-- The address of a handle alone. -/
def handleAddr (h : Nat) : Word := BitVec.ofNat 64 (h * 2 ^ 44)

/-- BSHR: the source may be held as read shares, the destination in EXCL (R293); the view drops every one of them as BSHR starts
and shows what the rack then has of them as it finishes, so a share that arrives meanwhile is out of it too (R294). -/
def bshrBody (d : Dst) (a b : Src) (e : Env) (m : Mach) : Chk Mach := do
  let (x, y, m) ← e.src2 m a b
  let (l, m) ← e.dst m d .pending
  let dh := wbits y 19 0
  let _ ← e.openSeq m x
  let _ ← e.openSeq m (handleAddr dh)
  let (r, h) ← e.heldRegion m .blk x x.toNat
  let q ← e.exclRegion m .blk (handleAddr dh) (dh * 2 ^ 44)
  let hd : Hold := ⟨q.rid, .excl⟩
  let fin : List Fin_ := if q.rid = r.rid then [.shows r.rid] else [.shows r.rid, .shows q.rid]
  if !(m.rackHas e.c r.rid h.right && m.rackHas e.c q.rid .excl) then .ok (e.blockRaced m l [4, 10, 11, 12])
  else
  let m := e.later (.dropRegion h.rid) m
  let m := if q.rid = r.rid then m else e.later (.dropHold hd) m
  if wbits y 63 40 ≠ 0 then .ok (e.blockDone m l (stWord stBadarg) fin)
  else .ok (e.blockStart m (.bshr (baHandle x.toNat) dh (wbits y 39 20 + 1)) l fin)

/-! ### BFRE (R297) -/

/-- Whether BFRE unmaps a block; .close, with no form, unmaps them all. -/
def freesKey (f : Option BfreOp) (layer block n key : Nat) : Bool :=
  match f with
  | some .rng => decide (key / 2 ^ 20 = layer) && decide (block ≤ key % 2 ^ 20) && decide (key % 2 ^ 20 < block + n)
  | some .lyrs => decide (block ≤ key % 2 ^ 20) && decide (key % 2 ^ 20 < block + n)
  | _ => true

/-- Blocks of a sequence unmapped, and the frames without a mapping returned. -/
def Mach.unmapBlocks (m : Mach) (ctx : BitVec 6) (h : Nat) (sel : Nat → Bool) : Mach :=
  match m.bseq ctx h with
  | none => m
  | some s =>
    let gone := s.map.filter fun p => sel p.1
    let m := m.onBseq ctx h fun s => { s with map := s.map.filter fun p => !sel p.1 }
    gone.foldl (fun m p => m.unmapFrame (shapePool s.shape) p.2) m

/-- k unused reservations of a handle returned (R300). -/
def Mach.unreserve (m : Mach) (s : BSeq) (k : Nat) : Mach :=
  (m.onBseq s.ctx s.handle fun x => { x with resv := x.resv - k }).onPool (shapePool s.shape) fun p =>
    let p := p.setUse s.ctx (p.use s.ctx - k)
    { p with rsv := p.rsv - k }

/-- BFRE.close after the unmapping: the reservation, the rack entry and the handle go. -/
def Mach.closeHandle (m : Mach) (ctx : BitVec 6) (h : Nat) : Mach :=
  match m.bseq ctx h with
  | none => m
  | some s =>
    let m := m.unreserve s s.resv
    { m with
      seqs := m.seqs.filter fun x => !decide (x.ctx = ctx ∧ x.handle = h)
      regions := m.regions.filter fun r => !decide (r.space = .blk ∧ r.ctx = ctx ∧ r.base = h) }

/-- BFRE. -/
def bfreBody (d : Dst) (f : Option BfreOp) (a b : Src) (e : Env) (m : Mach) : Chk Mach := do
  let range := decide (f = some .rng ∨ f = some .lyrs)
  let (x, m) ← e.src m a
  let (n, m) ← if range then e.src m b else .ok (1, m)
  let (l, m) ← e.dst m d .pending
  let s ← e.openSeq m x
  if f = some .rng then layerOk s x false else .ok ()
  let r ← e.exclRegion m .blk x x.toNat
  let h : Hold := ⟨r.rid, .excl⟩
  if !m.rackHas e.c r.rid .excl then .ok (e.blockRaced m l [4])
  else
  let m := e.later (.dropHold h) m
  let block := baBlock x.toNat
  if range && !decide (1 ≤ n.toNat ∧ n.toNat ≤ 2 ^ 20 ∧ block + n.toNat ≤ 2 ^ 20) then
    .ok (e.blockDone m l (stWord stBadarg) [.shows r.rid])
  else
    .ok (e.blockStart m (.bfre s.handle f (baLayer x.toNat) block n.toNat) l (if f.isNone then [] else [.shows r.rid]))

/-! ### BINV (R298) -/

/-- The bits that BINV clears of a block's bitmap. -/
def clearBits (valid : BitVec 128) (shape : Word) (t0 : Nat) (bm : Word) : BitVec 128 :=
  let gone : BitVec 128 := (bm.setWidth 128 <<< t0) &&& BitVec.ofNat 128 (2 ^ shapeT shape - 1)
  valid &&& ~~~gone

/-- The mapped blocks that BINV acts on, unshared and cleared one after another; none when a frame is missing. -/
def Mach.invalidate (m : Mach) (ctx : BitVec 6) (h t0 : Nat) (bm : Word) : List Nat → Option Mach
  | [] => some m
  | key :: r =>
    match m.writable ctx h key with
    | none => none
    | some m =>
      match m.bseq ctx h with
      | none => none
      | some s =>
        let f := SMap.getD s.map key 0
        let m := m.onPool (shapePool s.shape) fun p =>
          match SMap.get? p.frames f with
          | none => p
          | some fr => { p with frames := SMap.set p.frames f { fr with valid := clearBits fr.valid s.shape t0 bm } }
        m.invalidate ctx h t0 bm r

/-- BINV. -/
def binvBody (d : Dst) (all : Bool) (a b : Src) (e : Env) (m : Mach) : Chk Mach := do
  let (x, y, m) ← e.src2 m a b
  let (l, m) ← e.dst m d .pending
  let s ← e.openSeq m x
  layerOk s x true
  let _ ← e.exclRegion m .blk x x.toNat
  .ok (e.blockStart m (.binv s.handle all (baLayer x.toNat) (baBlock x.toNat) (baOff x.toNat) y) l [])

/-! ### The waits of BSHR, BFRE and BINV (R294), and their acknowledgement -/

/-- Whether a group's earlier work on a handle is done. -/
def Mach.handleDrained (m : Mach) (c o h : Nat) : Bool :=
  let ctx := (m.core c).ctx
  match m.regionAt .blk ctx (h * 2 ^ 44) with
  | none => true
  | some r => m.drained c o r

/-- BSHR, BFRE and BINV act and finish, once what they wait for is done; a frame that BINV has to copy is read (R395). -/
def serveBlock (t : Trust) (c : Nat) (op : Op) (m : Mach) : Mach :=
  let ctx := (m.core c).ctx
  let done (code : Nat) (m : Mach) : Mach := m.finish c { op with dests := op.dests.map (·.put (stWord code)) }
  match op.kind with
  | .bshr s d n =>
    if m.handleDrained c op.id s && m.handleDrained c op.id d then
      let (code, m) := shareBlocks ctx s d n m
      done code m
    else m
  | .bfre h f layer block n =>
    if m.handleDrained c op.id h then
      let m := m.unmapBlocks ctx h (freesKey f layer block n)
      done stDone (if f.isNone then m.closeHandle ctx h else m)
    else m
  | .binv h all layer block t0 bm =>
    if m.handleDrained c op.id h then
      match m.bseq ctx h with
      | none => done stDone m
      | some s =>
        let keys := (SMap.keys s.map).filter fun k =>
          decide (k % 2 ^ 20 = block) && (all || decide (k / 2 ^ 20 = layer))
        match m.invalidate ctx h t0 bm keys with
        | none => done stNospace m
        | some m' =>
          match keys.findSome? fun k => m.unsharePoison ctx h k with
          | some w => m.losePoison t c op true w
          | none => done stDone m'
    else m
  | _ => m

/-! ### BQRY (R299) -/

/-- The frame of a block, if it is mapped. -/
def Mach.frameOf (m : Mach) (s : BSeq) (layer block : Nat) : Option Frame :=
  (SMap.get? s.map (mapKey layer block)).bind fun f => SMap.get? (m.pool (shapePool s.shape)).frames f

/-- BQRY's word. -/
def queryWord (m : Mach) (f : BqryOp) (ctx : BitVec 6) (s : BSeq) (a : Nat) : Word :=
  let p := m.pool (shapePool s.shape)
  BitVec.ofNat 64 (match f with
    | .blk =>
      match m.frameOf s (baLayer a) (baBlock a) with
      | none => 0
      | some fr => 2 ^ 63 + fr.refs * 2 ^ 40 + popCount fr.valid
    | .map =>
      match m.frameOf s (baLayer a) (baBlock a) with
      | none => 0
      | some fr => fr.valid.toNat % 2 ^ shapeT s.shape / 2 ^ baOff a % 2 ^ 64
    | .hdl => s.resv * 2 ^ 38 + s.shape.toNat % 2 ^ 38
    | .pool => p.cap * 2 ^ 36 + p.freeCount * 2 ^ 18 + p.rsv
    | .quota => m.quota ctx (shapePool s.shape) * 2 ^ 18 + p.use ctx)

/-- BQRY. -/
def bqryBody (d : Dst) (f : BqryOp) (a : Src) (e : Env) (m : Mach) : Chk Mach := do
  let (x, m) ← e.src m a
  let (l, m) ← e.dst m d .pending
  let s ← e.openSeq m x
  if f = .blk ∨ f = .map then layerOk s x (decide (f = .map)) else .ok ()
  if f = .pool ∨ f = .quota then .ok (e.blockDone m l (queryWord m f (e.ctx m) s x.toNat) [])
  else
    let _ ← e.heldRegion m .blk x x.toNat
    .ok (e.blockDone m l (queryWord m f (e.ctx m) s x.toNat) [])

/-! ### BGRW (R300) -/

/-- BGRW: its status and the machine. -/
def reserveFrames (rel : Bool) (ctx : BitVec 6) (s : BSeq) (n : Nat) (m : Mach) : Nat × Mach :=
  let pk := shapePool s.shape
  let p := m.pool pk
  if ¬ (1 ≤ n ∧ n ≤ colFrames) then (stBadarg, m)
  else if rel then (stDone, m.unreserve s (min n s.resv))
  else if p.rsv + n ≤ p.freeCount ∧ p.use ctx + n ≤ m.quota ctx pk then
    (stDone, (m.onBseq ctx s.handle fun x => { x with resv := x.resv + n }).onPool pk fun p =>
      let p := p.setUse ctx (p.use ctx + n)
      { p with rsv := p.rsv + n })
  else (stNospace, m)

/-- BGRW. -/
def bgrwBody (d : Dst) (rel : Bool) (a b : Src) (e : Env) (m : Mach) : Chk Mach := do
  let (x, n, m) ← e.src2 m a b
  let (l, m) ← e.dst m d .pending
  let s ← e.openSeq m x
  let _ ← e.exclRegion m .blk x x.toNat
  let (code, m) := reserveFrames rel (e.ctx m) s n.toNat m
  .ok (e.blockDone m l (stWord code) [])

/-! ### Meanings -/

/-- BOPN (R295). -/
def execBopn (t : Tok) (d : Dst) (a b : Src) (s : State) : Host.Outcome State Fault Refusal :=
  attemptNext (.bopn t d a b) (bopnBody d a b) s
/-- BSHR (R296). -/
def execBshr (t : Tok) (d : Dst) (a b : Src) (s : State) : Host.Outcome State Fault Refusal :=
  attemptNext (.bshr t d a b) (bshrBody d a b) s
/-- BFRE (R297). -/
def execBfre (t : Tok) (d : Dst) (f : BfreOp) (a b : Src) (s : State) : Host.Outcome State Fault Refusal :=
  attemptNext (.bfre t d f a b) (bfreBody d (some f) a b) s
/-- BFRE.close (R297). -/
def execBfreClose (t : Tok) (d : Dst) (a : Src) (s : State) : Host.Outcome State Fault Refusal :=
  attemptNext (.bfreClose t d a) (bfreBody d none a .zero) s
/-- BINV (R298). -/
def execBinv (t : Tok) (d : Dst) (all : Bool) (a b : Src) (s : State) : Host.Outcome State Fault Refusal :=
  attemptNext (.binv t d all a b) (binvBody d all a b) s
/-- BQRY (R299). -/
def execBqry (t : Tok) (d : Dst) (f : BqryOp) (a : Src) (s : State) : Host.Outcome State Fault Refusal :=
  attemptNext (.bqry t d f a) (bqryBody d f a) s
/-- BGRW (R300). -/
def execBgrw (t : Tok) (d : Dst) (a b : Src) (s : State) : Host.Outcome State Fault Refusal :=
  attemptNext (.bgrw t d a b) (bgrwBody d false a b) s
/-- BGRW.rel (R300). -/
def execBgrwRel (t : Tok) (d : Dst) (a b : Src) (s : State) : Host.Outcome State Fault Refusal :=
  attemptNext (.bgrwRel t d a b) (bgrwBody d true a b) s

end Sys2Proof.Machine
end

