-- ==== Sys2Proof/Machine/Handoff.lean ====
section
/-! DEFINITION. Waybills: HOFF, HCTL, the engine's block moves, commit and cancel (R316 to R334, R441). -/

namespace Sys2Proof.Machine

def stWrongstate : Nat := 15

/-! ### The descriptor (R316, R319) -/

/-- Bytes of n elements of a format. -/
def fmtSpan (f : Fmt) (n : Nat) : Nat := n * fmtW f / 8

/-- Fields of a hand-off descriptor (R319). -/
def hHandle (d : List Word) : Nat := wbits (wordAt d 0) 63 44
def hBlk0 (d : List Word) : Nat := wbits (wordAt d 0) 43 24
def hFmt (d : List Word) : Fmt := (Fmt.ofCode ((wordAt d 0).extractLsb' 10 4)).getD .b
def hSat (d : List Word) : Bool := wbit (wordAt d 0) 9
def hMode (d : List Word) : Rnd := match wbits (wordAt d 0) 8 7 with | 0 => .rne | 1 => .rtz | 2 => .rdn | _ => .rup
def hSeal (d : List Word) : Bool := wbit (wordAt d 0) 6
def hObj (d : List Word) : Nat := wbits (wordAt d 0) 4 0
def hTokens (d : List Word) : Nat := wbits (wordAt d 1) 31 0
def hK (d : List Word) : Nat := (wordAt d 2).toNat
def hV (d : List Word) : Nat := (wordAt d 3).toNat
def hLstr (d : List Word) : Nat := wbits (wordAt d 4) 63 32
def hRstr (d : List Word) : Nat := wbits (wordAt d 4) 31 0
def hTag (d : List Word) : Nat := wbits (wordAt d 5) 15 0

/-- The reserved fields of a descriptor are zero. -/
def hoffFields (d : List Word) : Bool :=
  decide (wbits (wordAt d 0) 23 14 = 0 ∧ wbit (wordAt d 0) 5 = false ∧ wbits (wordAt d 1) 63 32 = 0 ∧
    wbits (wordAt d 5) 63 16 = 0 ∧ wordAt d 6 = 0 ∧ wordAt d 7 = 0)

/-- Bytes of a source row that are read. -/
def hRow (d : List Word) (shape : Word) : Nat := fmtSpan (hFmt d) (shapeH shape * shapeD shape)
/-- The address of a row of a layer and token. -/
def hRowAt (d : List Word) (base l tt : Nat) : Nat := base + l * hLstr d + tt * hRstr d

/-- The first token below n whose row in a layer passes a limit. -/
def firstPast (first step len limit n : Nat) : Option Nat :=
  if n = 0 then none
  else if limit < first + len then some 0
  else if step = 0 then none
  else
    let tt := (limit - len - first) / step + 1
    if tt < n then some tt else none

/-- The first row by layer and token that passes its limit, key rows before value rows: its address. -/
def hRowsPast (d : List Word) (shape : Word) (klimit vlimit : Nat) : Option Nat :=
  (List.range (shapeLayers shape)).findSome? fun l =>
    let side (base limit : Nat) : Option Nat := firstPast (hRowAt d base l 0) (hRstr d) (hRow d shape) limit (hTokens d)
    match side (hK d) klimit, side (hV d) vlimit with
    | none, none => none
    | some x, none => some (hRowAt d (hK d) l x)
    | none, some y => some (hRowAt d (hV d) l y)
    | some x, some y => if x ≤ y then some (hRowAt d (hK d) l x) else some (hRowAt d (hV d) l y)

/-- The code of a waybill state (R325). -/
def WState.code : WState → Nat
  | .open_ => 1 | .moving => 2 | .sealed => 3 | .committed => 4 | .cancelled => 5

/-- The result word (R321). -/
def hoffWord (num state code : Nat) : Word := BitVec.ofNat 64 (num * 2 ^ 16 + state * 2 ^ 4 + code)

/-- The codes other than DONE that HOFF can write (R321). -/
def hoffCodes : List Nat := [4, 10, 11, 12]

/-! ### HOFF at issue (R322) -/

/-- Checks 7 and 8 of R322 at one address. -/
def Env.hoffPage (e : Env) (m : Mach) (prot : Bool) (a : Nat) : Chk Unit :=
  match translate e.trust m (e.ctx m) a with
  | .fault => .error (.trap tXlate (BitVec.ofNat 64 a))
  | .poison pa =>
    let (d, b, i) := m.homeErr true pa
    .error (.lost d b i)
  | .leaf _ wr sv => must (!prot || (wr && (!sv || (m.seq e.c e.q).status.super))) (.trap tProt (BitVec.ofNat 64 a))

/-- The 64 KiB pages of the K and V regions. -/
def hoffPages (k v : Option Region) : List Nat :=
  [k, v].flatMap fun r => match r with | some r => (cuts 65536 r.base r.size).map Prod.fst | none => []

/-- The first token below n whose row of len bytes meets a page. -/
def firstTouch (first step len page n : Nat) : Option Nat :=
  let tt := if page < first + len then 0 else if step = 0 then n else (page - len - first) / step + 1
  if tt < n ∧ first + tt * step < page + 65536 then some tt else none

/-- The first byte, by layer and token and key rows before value rows, of a row that lies in one of some pages. -/
def hRowTouch (d : List Word) (shape : Word) (pages : List Nat) : Option Nat :=
  (List.range (shapeLayers shape)).findSome? fun l =>
    let side (v : Nat) (base p : Nat) : Option (Nat × Nat × Nat) :=
      (firstTouch (hRowAt d base l 0) (hRstr d) (hRow d shape) p (hTokens d)).map fun tt => (tt, v, max p (hRowAt d base l tt))
    let all := pages.flatMap fun p => [side 0 (hK d) p, side 1 (hV d) p].filterMap id
    let first (a b : Nat × Nat × Nat) : Nat × Nat × Nat :=
      if b.1 < a.1 ∨ (b.1 = a.1 ∧ (b.2.1 < a.2.1 ∨ (b.2.1 = a.2.1 ∧ b.2.2 < a.2.2))) then b else a
    match all with
    | [] => none
    | x :: r => some (r.foldl first x).2.2

/-- The first row that a stride no multiple of 64 puts at an address that is none; kbase where it moves no row (R322). -/
def hMisaligned (d : List Word) (shape : Word) : Option Nat :=
  if hRstr d % 64 ≠ 0 ∧ 1 < hTokens d then some (hRowAt d (hK d) 0 1)
  else if hLstr d % 64 ≠ 0 ∧ 1 < shapeLayers shape ∧ 0 < hTokens d then some (hRowAt d (hK d) 1 0)
  else if hRstr d % 64 ≠ 0 ∨ hLstr d % 64 ≠ 0 then some (hK d)
  else none

/-- Check 7 or 8 of R322: kbase, vbase, the rows by layer and token, then what is left of both regions. -/
def Env.hoffCheck (e : Env) (m : Mach) (prot : Bool) (d : List Word) (shape : Word) (pages : List Nat) : Chk Unit := do
  e.hoffPage m prot (hK d)
  e.hoffPage m prot (hV d)
  match pages.filter fun p => match e.hoffPage m prot p with | .ok _ => false | .error _ => true with
  | [] => .ok ()
  | p :: r => e.hoffPage m prot ((hRowTouch d shape (p :: r)).getD p)

/-- HOFF. -/
def hoffBody (d : Dst) (a : Src) (e : Env) (m : Mach) : Chk Mach := do
  let (w, m) ← e.src m a
  let (l, m) ← e.dst m d .pending
  let (ds, m) ← e.record m w 8
  must (hoffFields ds) (e.trapWord tFmtrsv)
  let ha : Word := handleAddr (hHandle ds)
  let kb := wordAt ds 2
  let vb := wordAt ds 3
  match m.bseq (e.ctx m) (hHandle ds) with
  | none => .error (.trap tBlock ha)
  | some s => do
    must (decide (kb.toNat % 64 = 0)) (.trap tAlign kb)
    must (decide (vb.toNat % 64 = 0)) (.trap tAlign vb)
    match hMisaligned ds s.shape with
    | some x => .error (.trap tAlign (BitVec.ofNat 64 x))
    | none => .ok ()
    must (decide (kb.toNat < 2 ^ 57)) (.trap tSpace kb)
    must (decide (vb.toNat < 2 ^ 57)) (.trap tSpace vb)
    match hRowsPast ds s.shape (2 ^ 57) (2 ^ 57) with
    | some x => .error (.trap tSpace (BitVec.ofNat 64 x))
    | none => .ok ()
    let kr := m.regionAt .dev (e.ctx m) kb.toNat
    let vr := m.regionAt .dev (e.ctx m) vb.toNat
    e.hoffCheck m false ds s.shape (hoffPages kr vr)
    e.hoffCheck m true ds s.shape (hoffPages kr vr)
    let kr ← e.exclRegion m .dev kb kb.toNat
    let vr ← e.exclRegion m .dev vb vb.toNat
    match hRowsPast ds s.shape (kr.base + kr.size) (vr.base + vr.size) with
    | some x => .error (.trap tNokey (BitVec.ofNat 64 x))
    | none => .ok ()
    let hr ← e.exclRegion m .blk ha ha.toNat
    must (decide (((m.core e.c).obj (hObj ds)).pend < 255)) (.stall 2)
    e.queueRoom m
    if !([kr, vr, hr].all fun r => m.rackHas e.c r.rid .excl) then
      let (n, m) := m.racedOf hoffCodes
      .ok (e.startValues m [l.put (hoffWord 0 0 n)] 0 [])
    else
    let m := m.onCore e.c fun k => k.objStart (hObj ds)
    let m := e.later (.dropRegion kr.rid) (e.later (.dropRegion vr.rid) (e.later (.dropRegion hr.rid) m))
    .ok (e.start m (.hoff ds kr.rid vr.rid hr.rid) [l] 0 [] none).2

/-! ### Creating a waybill (R323) -/

/-- Whether elements can be converted (R318). -/
def convertible (s f : Fmt) : Bool :=
  let five (x : Fmt) : Bool := match x with | .f8a | .f8b | .bf16 | .f16 | .f32 => true | _ => false
  decide (s = f) || (five s && five f)

/-- k frames are taken for a handle: the frames, and how many of them were reserved. -/
def Mach.takeFrames (ctx : BitVec 6) (h : Nat) : Nat → Mach → Option (List Nat × Nat × Mach)
  | 0, m => some ([], 0, m)
  | k + 1, m =>
    match m.bseq ctx h with
    | none => none
    | some s =>
      match m.takeFrame s with
      | none => none
      | some (f, m) => (Mach.takeFrames ctx h k m).map fun r => (f :: r.1, r.2.1 + (if 0 < s.resv then 1 else 0), r.2.2)

/-- The lowest free waybill number of the package. -/
def Mach.freeWaybill (m : Mach) : Option Nat := (List.range 1024).find? fun n => !m.waybills.any fun w => decide (w.num = n)

/-- A key passes to a waybill. -/
def Mach.toWaybill (m : Mach) (w rid : Nat) : Mach :=
  m.onRegion rid fun r => { r with key := { r.key with state := .transit, holder := .waybill w } }

/-- HOFF's codes, and the waybill that DONE creates. -/
def makeWaybill (m : Mach) (ctx : BitVec 6) (ds : List Word) (krid vrid hrid : Nat) (issuer : Option (Gid × Nat × Nat))
    (hand : Option Nat) : Nat × Option Nat × Mach :=
  match m.bseq ctx (hHandle ds) with
  | none => (stBadarg, none, m)
  | some s =>
    let t := shapeT s.shape
    let nb := (hTokens ds + t - 1) / t
    let total := shapeLayers s.shape * nb
    if hTokens ds = 0 ∨ hRstr ds < hRow ds s.shape ∨ 2 ^ 20 < hBlk0 ds + nb ∨ 196608 < total then (stBadarg, none, m)
    else if !convertible (hFmt ds) (shapeFmt s.shape) then (stMismatch, none, m)
    else if (SMap.keys s.map).any fun k => decide (hBlk0 ds ≤ k % 2 ^ 20 ∧ k % 2 ^ 20 < hBlk0 ds + nb) then (stConflict, none, m)
    else
      match m.freeWaybill, Mach.takeFrames ctx (hHandle ds) total m with
      | some n, some (fs, res, m) =>
        let w : Waybill :=
          { num := n, ctx := ctx, state := .open_, desc := ds, krid := krid, vrid := vrid, hrid := hrid, frames := fs,
            resFrames := res, nb := nb, total := total, moved := 0, flags := 0, issuer := issuer, handReq := hand,
            gone := false, completed := false }
        let m := { m with waybills := m.waybills ++ [w] }
        (stDone, some n, ((m.toWaybill n krid).toWaybill n vrid).toWaybill n hrid)
      | _, _ => (stNospace, none, m)

/-- The view of a core gains back keys it dropped, each once (R149). -/
def Core.regain (k : Core) (rids : List Nat) : Core := rids.eraseDups.foldl (fun k r => k.gain ⟨r, .excl⟩) k

/-- HOFF is acknowledged once its keys are drained and it leaves the command queue of its cluster (R262); a key that went LOST
meanwhile passes to no waybill (R145; log 135). -/
def serveHoff (c : Nat) (op : Op) (m : Mach) : Mach :=
  match op.kind with
  | .hoff ds kr vr hr =>
    let k := m.core c
    let ready (rid : Nat) : Bool := match m.region rid with | some r => m.drained c op.id r | none => true
    let ours (rid : Nat) : Bool := match m.region rid, k.group.map Group.gid with
      | some r, some g => r.key.passable .excl g
      | _, _ => false
    if m.mayLeaveQueue c op.id && ready kr && ready vr && ready hr then
      let (code, n, m) := if [kr, vr, hr].all ours then
          makeWaybill m k.ctx ds kr vr hr (k.group.map fun g => (g.gid, c, hObj ds)) none
        else
          let (n, m) := m.racedOf hoffCodes
          (n, none, m)
      let done (w : Word) (m : Mach) : Mach := m.finish c { op with dests := op.dests.map (·.put w) }
      match n with
      | some n => done (hoffWord n 1 stDone) m
      | none =>
        let m := m.onCore c fun k => (k.onObj (hObj ds) fun x => { x with pend := x.pend - 1 }).regain [kr, vr, hr]
        done (hoffWord 0 0 code) m
    else m
  | _ => m

/-! ### Block moves (R317, R318, R324) -/

/-- A waybill. -/
def Mach.waybill (m : Mach) (n : Nat) : Option Waybill := m.waybills.find? fun w => decide (w.num = n)
/-- A waybill changed. -/
def Mach.onWaybill (m : Mach) (n : Nat) (f : Waybill → Waybill) : Mach :=
  { m with waybills := m.waybills.map fun w => if w.num = n then f w else w }

/-- The sticky bits of a waybill from a conversion's flags: inx, ovf, inv, sat. -/
def stickyOf (f : BitVec 7) : BitVec 4 :=
  BitVec.ofBool (decide (f &&& fSatur ≠ 0)) ++ BitVec.ofBool (decide (f &&& fInv ≠ 0)) ++
    BitVec.ofBool (decide (f &&& fOvf ≠ 0)) ++ BitVec.ofBool (decide (f &&& fInx ≠ 0))

/-- Elements of d values converted from a source run: the bytes and the flags (R318). -/
def convertRun (sf f : Fmt) (mode : Rnd) (sat : Bool) (d : Nat) (src : Mem) : List Byte × BitVec 7 :=
  let ws := fmtW sf / 8
  if sf = f then (Mem.toBytes src 0 (fmtSpan f d), 0)
  else
    let rs := (List.range d).map fun e => convTo f mode sat 0 (fmtValue sf (src.nat (e * ws) ws))
    (rs.flatMap fun x => leBytes (fmtW f / 8) x.bits, rs.foldl (fun a x => a ||| x.flags) 0)

/-- The tokens of block b. -/
def blockTokens (t b n : Nat) : List Nat := (List.range t).filter fun j => decide (b * t + j < n)

/-- The first poisoned word that the source rows of a block meet, of their walks or of the rows: key rows, then value rows. -/
def Mach.blockPoison (t : Trust) (m : Mach) (w : Waybill) (shape : Word) (l b : Nat) : Option Nat :=
  [hK w.desc, hV w.desc].findSome? fun base =>
    (blockTokens (shapeT shape) b (hTokens w.desc)).findSome? fun j =>
      m.rangePoison t w.ctx true (hRowAt w.desc base l (b * shapeT shape + j)) (hRow w.desc shape)

/-- Block (l, blk0 + b) of a waybill written into its frame: the machine and the flags. -/
def moveBlock (t : Trust) (m : Mach) (w : Waybill) (shape : Word) (l b frame : Nat) : Mach × BitVec 7 :=
  let pool := shapePool shape
  let tk := shapeT shape
  let toks := blockTokens tk b (hTokens w.desc)
  let run := shapeD shape * fmtBytes (shapeFmt shape)
  let srun := fmtSpan (hFmt w.desc) (shapeD shape)
  let side (value : Bool) (x : Mach × BitVec 7) : Mach × BitVec 7 :=
    toks.foldl (fun (x : Mach × BitVec 7) j =>
      let row := hRowAt w.desc (if value then hV w.desc else hK w.desc) l (b * tk + j)
      let img := m.piecesImage true (pieces t m w.ctx true row (hRow w.desc shape))
      (List.range (shapeH shape)).foldl (fun (x : Mach × BitVec 7) h =>
        let (bs, fl) := convertRun (hFmt w.desc) (shapeFmt shape) (hMode w.desc) (hSat w.desc) (shapeD shape)
          (Mem.slice img (h * srun) srun)
        let off := (if value then shapeB shape / 2 else 0) + (h * tk + j) * run
        let m := x.1.writeHome true (framePa pool frame + off) run (Mem.ofBytes bs)
        (if value then m else m.setValid ⟨pool, frame, off, shape⟩ run, x.2 ||| fl)) x) x
  side true (side false (m, 0))

/-- The engine's state for a waybill that still moves. -/
def Waybill.unmoved (w : Waybill) : Bool := decide (w.moved < w.total) && decide (w.state = .open_ ∨ w.state = .moving)

/-- HANDOFF_BLOCK_MOVE: the next block of the first waybill, in creation order, that has one to move (R324). -/
def handoffBlockMove (t : Trust) (n : Nat) (m : Mach) : Mach :=
  match m.waybills.find? Waybill.unmoved with
  | none => m
  | some w =>
    if w.num ≠ n then m
    else
      match m.bseq w.ctx (hHandle w.desc) with
      | none => m
      | some s =>
        let l := w.moved / w.nb
        let b := w.moved % w.nb
        let frame := w.frames.getD w.moved 0
        let bad := (m.blockPoison t w s.shape l b).or
          (poisonPart m.dramPoison (framePa (shapePool s.shape) frame) (shapeB s.shape))
        match bad with
        | some a =>
          let (d, bk, i) := m.homeErr true a
          m.consume d bk i w.ctx d 0x3F 0
        | none =>
          let (m, fl) := moveBlock t m w s.shape l b frame
          m.onWaybill n fun w => { w with state := .moving, moved := w.moved + 1, flags := w.flags ||| stickyOf fl }

/-- The object of a waybill completes (R324, R330). -/
def Mach.completeWaybill (m : Mach) (w : Waybill) (st : Nat) : Mach :=
  match w.issuer with
  | some (g, c, o) => m.onGroupCore c (some g) fun k => k.objDone o w.moved st []
  | none => m

/-- HANDOFF_COMPLETION_EVENT: the event after the last block, and the seal that aseal implies (R324, R327). -/
def handoffCompletion (n : Nat) (m : Mach) : Mach :=
  match m.waybill n with
  | none => m
  | some w =>
    if w.moved = w.total ∧ w.state = .moving ∧ w.completed = false then
      (m.completeWaybill w csDone).onWaybill n fun w =>
        { w with completed := true, state := if hSeal w.desc then .sealed else w.state }
    else m

/-! ### Commit and cancel (R329, R330) -/

/-- The mapped parts of a device range, page by page: physical address and length. -/
def mappedParts (t : Trust) (m : Mach) (ctx : BitVec 6) (a n : Nat) : List (Nat × Nat) :=
  (cuts 65536 a n).filterMap fun p =>
    match translate t m ctx p.1 with
    | .leaf pa _ _ => some (pa, p.2)
    | _ => none

/-- A device region of a context zeroed (R139); a page of 64 KiB that holds poison is retired and stays as it is (R400). -/
def Mach.zeroDevice (t : Trust) (m : Mach) (ctx : BitVec 6) (r : Region) : Mach :=
  (mappedParts t m ctx r.base r.size).foldl (fun m p =>
    let page := p.1 / 65536 * 65536
    if (poisonIn m.dramPoison page 65536).isSome then
      { m with retiredPages := if m.retiredPages.contains page then m.retiredPages else m.retiredPages ++ [page] }
    else m.zeroHome true p.1 p.2) m

/-- The poisoned table word that the zeroing of a commit meets: of the walk of the K region, then of the V region (R395). -/
def Mach.commitPoison (t : Trust) (m : Mach) (w : Waybill) : Option Nat :=
  [w.krid, w.vrid].findSome? fun rid => (m.region rid).bind fun r => walkPoison t m w.ctx true r.base r.size

/-- A key of a waybill goes FREE. -/
def Mach.freeKey (m : Mach) (rid : Nat) : Mach := m.setKey rid .free

/-- The effects of a commit, in its order. -/
def commitWaybill (t : Trust) (w : Waybill) (m : Mach) : Mach :=
  let h := hHandle w.desc
  let m := (w.frames.zipIdx).foldl (fun m fi =>
    m.onBseq w.ctx h fun s => { s with map := SMap.set s.map (mapKey (fi.2 / w.nb) (hBlk0 w.desc + fi.2 % w.nb)) fi.1 }) m
  let zero (rid : Nat) (m : Mach) : Mach := match m.region rid with | some r => m.zeroDevice t w.ctx r | none => m
  let m := zero w.vrid (zero w.krid m)
  (((m.freeKey w.krid).freeKey w.vrid).freeKey w.hrid).onWaybill w.num fun w => { w with state := .committed }

/-- A key of a cancelled waybill goes back: to the issuer, the HAND, or as under R146. -/
def Mach.giveBack (m : Mach) (w : Waybill) (rid : Nat) : Mach :=
  match m.region rid with
  | none => m
  | some r =>
    if r.key.state = .lost then m
    else
    match w.handReq, w.issuer with
    | some q, _ => m.setKey rid { r.key with state := .excl, holder := .hand q }
    | none, some (g, _, _) =>
      if m.groupLives g then (m.setKey rid (.exclOf g r.key.lender)).arriveAt r .excl g else (m.returnKey rid w.ctx).2
    | none, none => (m.returnKey rid w.ctx).2

/-- The frames of a waybill are zeroed and returned; the reserved ones go back to the handle's reservation (R330). -/
def Mach.returnFrames (m : Mach) (w : Waybill) : Mach :=
  match m.bseq w.ctx (hHandle w.desc) with
  | none => m
  | some s =>
    let pool := shapePool s.shape
    let m := w.frames.foldl (fun m f => m.freeFrame pool f) m
    (m.onBseq w.ctx s.handle fun s => { s with resv := s.resv + w.resFrames }).onPool pool fun p =>
      let p := p.setUse w.ctx (p.use w.ctx + w.resFrames)
      { p with rsv := p.rsv + w.resFrames }

/-- The effects of a cancel, in its order. -/
def cancelWaybill (w : Waybill) (m : Mach) : Mach :=
  let m := m.returnFrames w
  let m := [w.krid, w.vrid, w.hrid].eraseDups.foldl (fun m rid => m.giveBack w rid) m
  let m := if w.completed then m else m.completeWaybill w csCancelled
  m.onWaybill w.num fun w => { w with state := .cancelled }

/-! ### HCTL (R326 to R328) -/

/-- HCTL's forms but .qry: 0 .seal, 1 .commit, 2 .cancel, 3 .drop. -/
def hctlBody (form : Nat) (d : Dst) (a : Src) (e : Env) (m : Mach) : Chk Mach := do
  let (w, m) ← e.src m a
  let (l, m) ← e.dst m d .pending
  .ok (e.start m (.hctl form (wbits w 25 16)) [l] 0 [] none).2

/-- An accepted seal: the completion event is served before it, so that a sealed waybill has completed its object (R327,
R330; log 131). -/
def sealWaybill (w : Waybill) (m : Mach) : Mach :=
  (if w.completed then m else m.completeWaybill w csDone).onWaybill w.num fun w => { w with state := .sealed, completed := true }

/-- What an HCTL form does to a waybill: the code, the state after it, and the machine. -/
def hctlAct (t : Trust) (form : Nat) (w : Waybill) (m : Mach) : Nat × Nat × Mach :=
  match form, w.state with
  | 0, .moving =>
    if w.moved = w.total then (stDone, WState.sealed.code, sealWaybill w m)
    else (stWrongstate, w.state.code, m)
  | 0, .sealed => (stDone, w.state.code, m)
  | 1, .sealed => (stDone, WState.committed.code, commitWaybill t w m)
  | 2, .open_ => (stDone, WState.cancelled.code, cancelWaybill w m)
  | 2, .moving => (stDone, WState.cancelled.code, cancelWaybill w m)
  | 2, .sealed => (stDone, WState.cancelled.code, cancelWaybill w m)
  | 3, .committed => (stDone, 0, { m with waybills := m.waybills.filter fun x => decide (x.num ≠ w.num) })
  | 3, .cancelled => (stDone, 0, { m with waybills := m.waybills.filter fun x => decide (x.num ≠ w.num) })
  | _, s => (stWrongstate, s.code, m)

/-- An HCTL on a waybill. -/
def OpKind.onWaybill (n : Nat) : OpKind → Bool
  | .hctl _ y => decide (y = n)
  | .hqry y _ => decide (y = n)
  | _ => false

/-- A word of a waybill's record (R326). -/
def Waybill.word (t : Trust) (w : Waybill) (i : Nat) : Word :=
  BitVec.ofNat 64 (match i with
    | 0 => hTag w.desc * 2 ^ 48 + w.ctx.toNat * 2 ^ 42 + w.num * 2 ^ 32 + w.flags.toNat * 2 ^ 8 +
        (if hSeal w.desc then 2 ^ 4 else 0) + w.state.code
    | 6 => w.total * 2 ^ 18 + w.moved
    | 7 =>
      (if w.gone then 2 ^ 26 else 0) +
        match w.issuer with
        | some (g, c, _) => t.logical (dieOf c) (physOf c) * 2 ^ 20 + dieOf c * 2 ^ 16 + g.idx % 2 ^ 16
        | none => if w.handReq.isSome then 0x3F * 2 ^ 20 else 0
    | i =>
      if 1 ≤ i ∧ i ≤ 5 then (wordAt w.desc (i - 1)).toNat
      else if 8 ≤ i ∧ i ≤ 11 then
        ((List.range 64).filter fun j => decide (((i - 8) * 64 + j + 1) * w.nb ≤ w.moved)).foldl (fun x j => x + 2 ^ j) 0
      else 0)

/-- An HCTL is served, after the earlier ones of its core on the same waybill (R327); a commit whose zeroing meets a poisoned table
word has no effect and loses the context (R334, R395). -/
def serveHctl (t : Trust) (c : Nat) (op : Op) (m : Mach) : Mach :=
  match op.kind with
  | .hctl form n =>
    let k := m.core c
    let done (w : Word) (m : Mach) : Mach := m.finish c { op with dests := op.dests.map (·.put w) }
    if !k.noEarlier op.id (OpKind.onWaybill n) then m
    else
      match (m.waybill n).filter fun w => decide (w.ctx = k.ctx) with
      | none => done (hoffWord 0 0 stNotarget) m
      | some w =>
        match if form = 1 ∧ w.state = .sealed then m.commitPoison t w else none with
        | some a => m.losePoison t c op true a
        | none =>
          let (code, st, m) := hctlAct t form w m
          done (hoffWord n st code) m
  | .hqry n i =>
    if !(m.core c).noEarlier op.id (OpKind.onWaybill n) then m
    else
      let v := match (m.waybill n).filter fun x => decide (x.ctx = (m.core c).ctx) with
        | some x => x.word t i
        | none => 0
      m.finish c { op with dests := op.dests.map (·.put v) }
  | _ => m

/-- HCTL.qry: the record is read when it is served, in the order of issue (R327). -/
def hctlQryBody (d : Dst) (a b : Src) (e : Env) (m : Mach) : Chk Mach := do
  let (w, i, m) ← e.src2 m a b
  let (l, m) ← e.dst m d .pending
  must (decide (i.toNat ≤ 15)) (e.trapWord tFmtrsv)
  .ok (e.start m (.hqry (wbits w 25 16) i.toNat) [l] 0 [] none).2

/-! ### Meanings -/

/-- HOFF (R323). -/
def execHoff (t : Tok) (d : Dst) (a : Src) (s : State) : Host.Outcome State Fault Refusal :=
  attemptNext (.hoff t d a) (hoffBody d a) s
/-- HCTL.seal (R328). -/
def execHctlSeal (t : Tok) (d : Dst) (a : Src) (s : State) : Host.Outcome State Fault Refusal :=
  attemptNext (.hctlSeal t d a) (hctlBody 0 d a) s
/-- HCTL.commit (R329). -/
def execHctlCommit (t : Tok) (d : Dst) (a : Src) (s : State) : Host.Outcome State Fault Refusal :=
  attemptNext (.hctlCommit t d a) (hctlBody 1 d a) s
/-- HCTL.cancel (R330). -/
def execHctlCancel (t : Tok) (d : Dst) (a : Src) (s : State) : Host.Outcome State Fault Refusal :=
  attemptNext (.hctlCancel t d a) (hctlBody 2 d a) s
/-- HCTL.qry (R326). -/
def execHctlQry (t : Tok) (d : Dst) (a b : Src) (s : State) : Host.Outcome State Fault Refusal :=
  attemptNext (.hctlQry t d a b) (hctlQryBody d a b) s
/-- HCTL.drop (R328). -/
def execHctlDrop (t : Tok) (d : Dst) (a : Src) (s : State) : Host.Outcome State Fault Refusal :=
  attemptNext (.hctlDrop t d a) (hctlBody 3 d a) s
/-- HANDOFF_BLOCK_MOVE (R324). -/
def execHandoffBlockMove (w : Nat) (s : State) : Host.Outcome State Fault Refusal :=
  .next { s with mach := handoffBlockMove s.trust w s.mach }
/-- HANDOFF_COMPLETION_EVENT (R324). -/
def execHandoffCompletionEvent (w : Nat) (s : State) : Host.Outcome State Fault Refusal :=
  .next { s with mach := handoffCompletion w s.mach }

end Sys2Proof.Machine
end

