-- ==== Sys2Proof/Machine/Hash.lean ====
section
/-! DEFINITION. SHA-256 and CRC-32C, with which kernels, graphs and weight images are identified (R346, R359, R427, R444). -/

namespace Sys2Proof.Machine

/-! ### SHA-256 (the function R339, R346 and R427 name; log 33) -/

/-- The round constants. -/
def shaK : List (BitVec 32) :=
  [0x428a2f98, 0x71374491, 0xb5c0fbcf, 0xe9b5dba5, 0x3956c25b, 0x59f111f1, 0x923f82a4, 0xab1c5ed5] ++
  [0xd807aa98, 0x12835b01, 0x243185be, 0x550c7dc3, 0x72be5d74, 0x80deb1fe, 0x9bdc06a7, 0xc19bf174] ++
  [0xe49b69c1, 0xefbe4786, 0x0fc19dc6, 0x240ca1cc, 0x2de92c6f, 0x4a7484aa, 0x5cb0a9dc, 0x76f988da] ++
  [0x983e5152, 0xa831c66d, 0xb00327c8, 0xbf597fc7, 0xc6e00bf3, 0xd5a79147, 0x06ca6351, 0x14292967] ++
  [0x27b70a85, 0x2e1b2138, 0x4d2c6dfc, 0x53380d13, 0x650a7354, 0x766a0abb, 0x81c2c92e, 0x92722c85] ++
  [0xa2bfe8a1, 0xa81a664b, 0xc24b8b70, 0xc76c51a3, 0xd192e819, 0xd6990624, 0xf40e3585, 0x106aa070] ++
  [0x19a4c116, 0x1e376c08, 0x2748774c, 0x34b0bcb5, 0x391c0cb3, 0x4ed8aa4a, 0x5b9cca4f, 0x682e6ff3] ++
  [0x748f82ee, 0x78a5636f, 0x84c87814, 0x8cc70208, 0x90befffa, 0xa4506ceb, 0xbef9a3f7, 0xc67178f2]

/-- The initial hash value. -/
def shaInit : List (BitVec 32) :=
  [0x6a09e667, 0xbb67ae85, 0x3c6ef372, 0xa54ff53a, 0x510e527f, 0x9b05688c, 0x1f83d9ab, 0x5be0cd19]

/-- Bytes as a big-endian 32-bit word. -/
def beWord (l : List Byte) : BitVec 32 := BitVec.ofNat 32 (l.foldl (fun n b => n * 256 + b.toNat) 0)

/-- The first n words of a block. -/
def beWords : Nat → List Byte → List (BitVec 32)
  | 0, _ => []
  | n + 1, l => beWord (l.take 4) :: beWords n (l.drop 4)

/-- n more words of the message schedule, the newest first. -/
def shaSchedule : Nat → List (BitVec 32) → List (BitVec 32)
  | 0, w => w
  | n + 1, w =>
    let x := w.getD 14 0
    let y := w.getD 1 0
    let s0 := x.rotateRight 7 ^^^ x.rotateRight 18 ^^^ (x >>> 3)
    let s1 := y.rotateRight 17 ^^^ y.rotateRight 19 ^^^ (y >>> 10)
    shaSchedule n ((w.getD 15 0 + s0 + w.getD 6 0 + s1) :: w)

/-- The rounds over pairs of a constant and a schedule word. -/
def shaRounds : List (BitVec 32 × BitVec 32) → List (BitVec 32) → List (BitVec 32)
  | [], v => v
  | (k, w) :: r, v =>
    let g (n : Nat) : BitVec 32 := v.getD n 0
    let s1 := (g 4).rotateRight 6 ^^^ (g 4).rotateRight 11 ^^^ (g 4).rotateRight 25
    let ch := (g 4 &&& g 5) ^^^ (~~~(g 4) &&& g 6)
    let t1 := g 7 + s1 + ch + k + w
    let s0 := (g 0).rotateRight 2 ^^^ (g 0).rotateRight 13 ^^^ (g 0).rotateRight 22
    let mj := (g 0 &&& g 1) ^^^ (g 0 &&& g 2) ^^^ (g 1 &&& g 2)
    shaRounds r [t1 + s0 + mj, g 0, g 1, g 2, g 3 + t1, g 4, g 5, g 6]

/-- One block of 64 bytes. -/
def shaBlock (h : List (BitVec 32)) (blk : List Byte) : List (BitVec 32) :=
  let w := (shaSchedule 48 (beWords 16 blk).reverse).reverse
  List.zipWith (· + ·) h (shaRounds (shaK.zip w) h)

/-- n blocks. -/
def shaBlocks : Nat → List Byte → List (BitVec 32) → List (BitVec 32)
  | 0, _, h => h
  | n + 1, l, h => shaBlocks n (l.drop 64) (shaBlock h (l.take 64))

/-- n bytes of a number, highest first. -/
def beBytes (n x : Nat) : List Byte := (leBytes n x).reverse

/-- A message padded to whole blocks. -/
def shaPad (l : List Byte) : List Byte :=
  l ++ [0x80] ++ List.replicate ((119 - l.length % 64) % 64) 0 ++ beBytes 8 (8 * l.length)

/-- The digest as bytes in the order SHA-256 gives them. -/
def sha256Bytes (l : List Byte) : List Byte :=
  let p := shaPad l
  (shaBlocks (p.length / 64) p shaInit).flatMap fun w => beBytes 4 w.toNat

/-- The digest as R444 holds it: byte 0 lowest. -/
def sha256 (l : List Byte) : BitVec 256 := BitVec.ofNat 256 (leNat (sha256Bytes l))

/-- A digest held in four words, low word first (R444). -/
def digestOf (l : List Word) : BitVec 256 :=
  BitVec.ofNat 256 ((wordAt l 0).toNat + 2 ^ 64 * (wordAt l 1).toNat + 2 ^ 128 * (wordAt l 2).toNat + 2 ^ 192 * (wordAt l 3).toNat)

/-- The 32 bytes of a digest. -/
def digestBytes (h : BitVec 256) : List Byte := leBytes 32 h.toNat

/-- Leaf(j) of a weight image (R427). -/
def leafHash (chunk : List Byte) : BitVec 256 := sha256 (0x00 :: chunk)
/-- Node(l, r) of the hash tree (R427). -/
def nodeHash (l r : BitVec 256) : BitVec 256 := sha256 (0x01 :: (digestBytes l ++ digestBytes r))
/-- The next level of the hash tree: an unpaired last node rises unchanged (R427). -/
def treeLevel : List (BitVec 256) → List (BitVec 256)
  | l :: r :: t => nodeHash l r :: treeLevel t
  | t => t
/-- The root after n levels. -/
def treeRoot : Nat → List (BitVec 256) → BitVec 256
  | _, [] => 0
  | _, [h] => h
  | 0, h :: _ => h
  | n + 1, t => treeRoot n (treeLevel t)

/-! ### CRC-32C (R359) -/

/-- One bit of the reflected CRC. -/
def crcBit (c : BitVec 32) : BitVec 32 := if c.getLsbD 0 then (c >>> 1) ^^^ 0x82F63B78 else c >>> 1
/-- One byte of the CRC. -/
def crcByte (c : BitVec 32) (b : Byte) : BitVec 32 :=
  crcBit (crcBit (crcBit (crcBit (crcBit (crcBit (crcBit (crcBit (c ^^^ b.setWidth 32))))))))
/-- CRC-32C of bytes: polynomial 0x1EDC_6F41 reflected, all ones at the start and in the final XOR. -/
def crc32c (l : List Byte) : BitVec 32 := ~~~(l.foldl crcByte (BitVec.allOnes 32))

end Sys2Proof.Machine
end

