-- ==== Sys2Proof/Machine/Cwld.lean ====
section
/-! DEFINITION. CWLD and its chunks (R428 to R430). -/

namespace Sys2Proof.Machine

/-! ### The load record (R428) -/

/-- A chunk, 4 MiB. -/
def chunkBytes : Nat := 0x400000

/-- Fields of a load record. -/
def wSlot (d : List Word) : Nat := wbits (wordAt d 0) 21 16
def wObj (d : List Word) : Nat := wbits (wordAt d 0) 12 8
def wDsp (d : List Word) : Nat := wbits (wordAt d 0) 7 4
def wSsp (d : List Word) : Nat := wbits (wordAt d 0) 3 0
def wCount (d : List Word) : Nat := wbits (wordAt d 3) 63 32
def wFirst (d : List Word) : Nat := wbits (wordAt d 3) 31 0
/-- The source and the destination of chunk j. -/
def wSrc (d : List Word) (j : Nat) : Nat := (wordAt d 1).toNat + (j - wFirst d) * chunkBytes
def wDst (d : List Word) (j : Nat) : Nat := (wordAt d 2).toNat + (j - wFirst d) * chunkBytes

/-- Reserved fields and codes; a count of 0 is out of its range (log 34). -/
def cwldFields (d : List Word) : Bool :=
  decide (wbits (wordAt d 0) 63 22 = 0 ∧ wbits (wordAt d 0) 15 13 = 0 ∧ wordAt d 4 = 0 ∧ wordAt d 5 = 0 ∧ wordAt d 6 = 0 ∧
    wordAt d 7 = 0) &&
  decide (wDsp d = 1 ∨ wDsp d = 2) && decide (wSsp d = 2 ∨ wSsp d = 4) && decide (1 ≤ wCount d)

/-- The length of chunk j of a manifest of n chunks. -/
def chunkLen (n last j : Nat) : Nat := if j + 1 = n then last else chunkBytes

/-- The manifest in a slot, if it is the context's. -/
def Trust.manifest (t : Trust) (ctx : BitVec 6) (slot : Nat) : Option Manifest :=
  (SMap.get? t.manifests slot).filter fun x => decide (x.ctx = ctx)

/-- The sides of the chunks, source before destination, with their lengths; without a manifest every chunk counts as
4 MiB (log 34). -/
def cwldSides (t : Trust) (ctx : BitVec 6) (d : List Word) : List (RunSide × Nat) :=
  (List.range (wCount d)).flatMap fun i =>
    let j := wFirst d + i
    let n := match t.manifest ctx (wSlot d) with
      | some x => chunkLen x.leaves.length x.last j
      | none => chunkBytes
    [((wSsp d, wSrc d j, false), n), ((wDsp d, wDst d j, true), n)]

/-! ### CWLD at issue (R429) -/

/-- The regions that a destination range lies in: none where a byte lies in no region held in EXCL; of a LOST key nobody holds
one (R147). -/
def exclCover (m : Mach) (c code a n : Nat) : Except Nat (List Nat) :=
  (cuts (if code = 1 then 4096 else 65536) a n).foldlM (fun l p =>
    match m.regionAt (if code = 1 then .glb else .dev) (m.core c).ctx p.1 with
    | none => .error p.1
    | some r =>
      if decide (r.key.state ≠ .lost) && (m.core c).view.any fun h => decide (h.rid = r.rid ∧ h.right = .excl) then .ok (l ++ [r.rid])
      else .error p.1) []

/-- Check 8 of one side. -/
def cwldKeys (m : Mach) (c : Nat) (s : RunSide × Nat) : Except Nat (List Nat) :=
  if s.1.2.2 then exclCover m c s.1.1 s.1.2.1 s.2
  else match runKeyless m c s.2 s.1 with
    | some a => .error a
    | none => .ok []

/-- CWLD. -/
def cwldBody (d : Dst) (a : Src) (e : Env) (m : Mach) : Chk Mach := do
  let (v, m) ← e.src m a
  let (l, m) ← e.dst m d .pending
  let (w, m) ← e.record m v 8
  must (cwldFields w) (e.trapWord tFmtrsv)
  must (decide ((wordAt w 1).toNat % 64 = 0)) (.trap tAlign (wordAt w 1))
  must (decide ((wordAt w 2).toNat % 64 = 0)) (.trap tAlign (wordAt w 2))
  let sides := cwldSides e.trust (e.ctx m) w
  match sides.find? fun s => !runInSpace e.trust s.2 s.1 || (decide (s.1.1 = 1) && decide (sliceOf s.1.2.1 ≠ sliceOf (s.1.2.1 + s.2 - 1))) with
  | some s => .error (.trap tSpace (BitVec.ofNat 64 s.1.2.1))
  | none => .ok ()
  sides.forM fun s => do
    let _ ← e.runTranslates s.2 s.1 m
    .ok ()
  match sides.findSome? fun s => runProtected e.trust m (e.ctx m) (m.seq e.c e.q).status.super s.2 s.1 with
  | some x => .error (.trap tProt (BitVec.ofNat 64 x))
  | none => .ok ()
  match sides.mapM (cwldKeys m e.c) with
  | .error x => .error (.trap tNokey (BitVec.ofNat 64 x))
  | .ok rs =>
    let rids := rs.flatten.eraseDups
    must (decide (((m.core e.c).obj (wObj w)).pend < 255)) (.stall 2)
    e.queueRoom m
    if !(rids.all fun r => m.rackHas e.c r .excl) then
      let (n, m) := m.racedOf [stNotarget, stBadarg]
      .ok (e.status m l n [])
    else
    let m := rids.foldl (fun m r => e.later (.dropRegion r) m) m
    .ok (e.start m (.cwld w rids none) [l] 0 [] none).2

/-! ### CWLD is served: the engine takes the regions (R430) -/

/-- A region passes to the engine. -/
def Mach.toEngine (m : Mach) (c o rid : Nat) : Mach :=
  m.onRegion rid fun r => { r with key := { r.key with state := .transit, holder := .engine c o } }

/-- CWLD is acknowledged once its regions are drained and it leaves the command queue of its cluster for an engine, where a
started one stays (R262); a key that went LOST meanwhile passes to no engine (R145; log 135). -/
def serveCwld (t : Trust) (c : Nat) (op : Op) (m : Mach) : Mach :=
  match op.kind with
  | .cwld w rids none =>
    let k := m.core c
    let refuse (code : Nat) : Mach :=
      (m.onCore c fun k => k.regain rids).finish c { op with dests := op.dests.map (·.put (stWord code)) }
    let ours (rid : Nat) : Bool := match m.region rid, k.group.map Group.gid with
      | some r, some g => r.key.passable .excl g
      | _, _ => false
    if !(m.mayLeaveQueue c op.id && rids.all fun rid => match m.region rid with | some r => m.drained c op.id r | none => true) then m
    else if !rids.all ours then
      let (n, m) := m.racedOf [stNotarget, stBadarg]
      (m.onCore c fun k => k.regain rids).finish c { op with dests := op.dests.map (·.put (stWord n)) }
    else
      match t.manifest k.ctx (wSlot w) with
      | none => refuse stNotarget
      | some x =>
        if x.leaves.length < wFirst w + wCount w then refuse stBadarg
        else if 255 ≤ (k.obj (wObj w)).pend then m
        else
          let m := rids.foldl (fun m rid => m.toEngine c op.id rid) m
          let m := m.onCore c fun k => k.objStart (wObj w)
          let m := m.finish c { op with dests := op.dests.map (·.put (stWord stDone)) }
          m.onCore c fun k => { k with
            ops := k.ops ++ [{ op with
              pu := false, pd := false, dests := [], flags := 0, fin := []
              kind := .cwld w rids (some ⟨x.last, x.leaves, wFirst w⟩) }] }
  | _ => m

/-! ### CWLD_CHUNK (R430) -/

/-- An operation of a core, on it or among those of a group saved from it (R380): with the group. -/
def Mach.engineOp (m : Mach) (c o : Nat) : Option (Op × Option Gid) :=
  match (m.core c).op? o with
  | some op => some (op, (m.core c).group.map Group.gid)
  | none => m.saved.findSome? fun s => if s.core = c then (s.image.op? o).map fun op => (op, some s.group.gid) else none

/-- The context of a group, on a core or saved. -/
def Mach.engineCtx (m : Mach) (c : Nat) (g : Option Gid) : BitVec 6 :=
  ((g.bind fun x => m.groupCtx x)).getD (m.core c).ctx

/-- A key returns to the group that gave it to the engine, with its lenders; its staged lines go (R127, R430). When the group has
ended draining the key goes on as under R146. -/
def Mach.fromEngine (m : Mach) (g : Option Gid) (ctx : BitVec 6) (rid : Nat) : Mach :=
  match g, m.region rid with
  | some g, some r =>
    if r.key.state = .lost then m
    else
      let m' := m.setKey rid (.exclOf g r.key.lender)
      if m.groupLives g then m'.arriveAt r .excl g else (m'.returnKey rid ctx).2
  | _, _ => m

/-- The bytes of a chunk's source: what was read, or the poisoned word that ends it. -/
def chunkRead (t : Trust) (m : Mach) (ctx : BitVec 6) (w : List Word) (j n : Nat) : Except Nat (List Byte) :=
  if wSsp w = 4 then .ok (m.host.hostRead (m.hostBase ctx) (wSrc w j % 2 ^ 64) n)
  else
    match m.rangePoison t ctx true (wSrc w j) n with
    | some a => .error a
    | none => .ok (Mem.toBytes (m.piecesImage true (pieces t m ctx true (wSrc w j) n)) 0 n)

/-- The bytes of a chunk written to its destination, or its destination zeroed, which sets the zero bits of its units (R426,
R430). -/
def chunkWrite (t : Trust) (m : Mach) (ctx : BitVec 6) (w : List Word) (j n : Nat) (bs : Option (List Byte)) : Mach :=
  let dev := decide (wDsp w ≠ 1)
  let ps := if dev then pieces t m ctx true (wDst w j) n else [(0, wDst w j, n)]
  let m := if dev then m else m.touchSlice (wDst w j)
  match bs with
  | some bs => m.piecesWrite dev ps (Mem.ofBytes bs)
  | none => ps.foldl (fun m p => m.zeroHome dev p.2.1 p.2.2) m

/-- The poisoned table word that a chunk's walk of its destination meets. -/
def chunkPoison (t : Trust) (m : Mach) (ctx : BitVec 6) (w : List Word) (j n : Nat) : Option Nat :=
  walkPoison t m ctx (decide (wDsp w ≠ 1)) (wDst w j) n

/-- An operation of a core or of a group saved from it ends without effect. -/
def Mach.dropEngineOp (m : Mach) (c : Nat) (g : Option Gid) (o : Nat) : Mach :=
  m.onGroupCore c g fun k => { k with ops := k.ops.filter fun x => decide (x.id ≠ o) }

/-- CWLD_CHUNK: the engine loads the next chunk and checks its leaf; after the last one the regions return in the cycle in
which the object completes. -/
def cwldChunk (t : Trust) (c o : Nat) (m : Mach) : Mach :=
  match m.engineOp c o with
  | none => m
  | some (op, g) =>
    match op.kind with
    | .cwld w rids (some x) =>
      let ctx := m.engineCtx c g
      let n := chunkLen x.leaves.length x.last x.next
      match (if wDsp w = 1 then m.retainedSlice (wDst w x.next) else none) with
      | some _ => m.touchSlice (wDst w x.next)
      | none =>
        let lost (a : Nat) : Mach :=
          let (d, b, i) := m.homeErr true a
          (m.dropEngineOp c g o).consume d b i ctx (dieOf c) (t.logical (dieOf c) (physOf c)) (seqIndex op.seq)
        match chunkRead t m ctx w x.next n, chunkPoison t m ctx w x.next n with
        | .error a, _ => lost a
        | .ok _, some a => lost a
        | .ok bs, none =>
          let good := decide (leafHash bs = x.leaves.getD x.next 0)
          let m := chunkWrite t m ctx w x.next n (if good then some bs else none)
          let m := m.onGroupCore c g fun k => k.onObj (wObj w) fun y =>
            if good then { y with units := (y.units + n) % 2 ^ 32 } else y.report csHashfail
          if x.next + 1 < wFirst w + wCount w then
            m.onGroupCore c g fun k => k.setOp { op with kind := .cwld w rids (some { x with next := x.next + 1 }) }
          else
            let m := rids.foldl (fun m rid => m.fromEngine g ctx rid) m
            (m.onGroupCore c g fun k => k.objDone (wObj w) 0 csDone []).dropEngineOp c g o
    | _ => m

/-! ### Meanings -/

/-- CWLD (R429). -/
def execCwld (t : Tok) (d : Dst) (a : Src) (s : State) : Host.Outcome State Fault Refusal :=
  attemptNext (.cwld t d a) (cwldBody d a) s
/-- CWLD_CHUNK (R430). -/
def execCwldChunk (c o : Nat) (s : State) : Host.Outcome State Fault Refusal :=
  .next { s with mach := cwldChunk s.trust c o s.mach }

end Sys2Proof.Machine
end

