-- ==== Sys2Proof/Machine/Ring.lean ====
section
/-! DEFINITION. Rings: RINI, RQRY, RCLM, RWFR, RPUB, RWFL, RREL (R278 to R283). -/

namespace Sys2Proof.Machine

/-! ### Counters (R278) -/

/-- Slots that can be claimed: H + slots − C. -/
def Ring.freeSlots (g : Ring) : Nat := (g.h + BitVec.ofNat 32 g.slots - g.c).toNat
/-- Slots that can be taken: T − W. -/
def Ring.ready (g : Ring) : Nat := (g.t - g.w).toNat
/-- The address of slot number k. -/
def Region.slotAt (r : Region) (g : Ring) (k : Nat) : Nat := r.base + k % g.slots * g.size

/-- T advances over every contiguous published slot, through at most n. -/
def Ring.publish (g : Ring) : Nat → Ring
  | 0 => g
  | n + 1 => if g.t ≠ g.c ∧ g.slot g.t.toNat = .published then Ring.publish { g with t := g.t + 1 } n else g
/-- H advances over every contiguous free slot, through at most n. -/
def Ring.release (g : Ring) : Nat → Ring
  | 0 => g
  | n + 1 => if g.h ≠ g.w ∧ g.slot g.h.toNat = .free then Ring.release { g with h := g.h + 1 } n else g

/-- RQRY's word of a ring (R281). -/
def Ring.word (g : Ring) : Word :=
  BitVec.ofNat 64 (g.freeSlots % 2 ^ 16 * 2 ^ 48 + (g.c - g.t).toNat % 2 ^ 16 * 2 ^ 32 + g.ready % 2 ^ 16 * 2 ^ 16 +
    (g.w - g.h).toNat % 2 ^ 16)
/-- RQRY's word of a relay ring (R304). -/
def RelayDir.word (d : RelayDir) : Word :=
  BitVec.ofNat 64 ((d.rls + BitVec.ofNat 32 d.n - d.gnt).toNat % 2 ^ 16 * 2 ^ 48 + (d.gnt - d.snt).toNat % 2 ^ 16 * 2 ^ 32 +
    (d.arr - d.tkn).toNat % 2 ^ 16 * 2 ^ 16 + (d.tkn - d.rls).toNat % 2 ^ 16)

/-! ### Checks (R278) -/

/-- The ring whose region holds an address. -/
def Mach.ringAt (m : Mach) (a : Nat) : Option (Region × Ring) :=
  (m.regions.find? fun r => decide (r.space = .glb ∧ r.key.state = .ring) && inside a 1 r.base r.size).bind fun r =>
    r.ring.map fun g => (r, g)

/-- The checks of a ring instruction in the order ALIGN, SPACE, FMTRSV, NOKEY: `slot` for a slot address, n where one is
given. A relay ring is no ring to them (R304). DESIGN CHOICE: for an address in no ring R278 leaves open which slots ALIGN and FMTRSV
mean; here they are those at multiples of 64, at most 32,768 of them (log 152). -/
def Env.ringChecks (e : Env) (m : Mach) (slot : Bool) (w : Word) (n : Option Nat) : Chk (Region × Ring) := do
  let a := w.toNat
  let f := m.ringAt a
  let size := match f with | some (_, g) => g.size | none => 64
  let base := match f with | some (r, _) => r.base | none => 0
  let most := match f with | some (_, g) => g.slots | none => 32768
  must (!slot || decide ((a - base) % size = 0)) (.trap tAlign w)
  must (e.trust.globalOk a) (.trap tSpace w)
  must (match n with | some n => decide (1 ≤ n ∧ n ≤ most) | none => true) (e.trapWord tFmtrsv)
  match f with
  | none => .error (.trap tNokey w)
  | some (r, g) => do
    must (decide (r.ctx = e.ctx m ∧ g.relay = none)) (.trap tNokey w)
    .ok (r, g)

/-- The n slots from an index, each in a state that a test accepts. -/
def Ring.allSlots (g : Ring) (first n : Nat) (p : RSlot → Bool) : Bool := (List.range n).all fun i => p (g.slot (first + i))

/-- A ring of a region changed. -/
def Mach.onRing (m : Mach) (rid : Nat) (f : Ring → Ring) : Mach := m.onRegion rid fun r => { r with ring := r.ring.map f }

/-! ### The instructions (R280, R281) -/

/-- Rings that a die's ring hardware holds (R280). -/
def Mach.ringCount (m : Mach) (die : Nat) : Nat :=
  (m.regions.filter fun r => decide (r.home = die) && (match r.ring with | some g => decide (g.relay = none) | none => false)).length

/-- RINI. -/
def riniBody (d : Dst) (a b : Src) (e : Env) (m : Mach) : Chk Mach := do
  let (w, v, m) ← e.src2 m a b
  let (l, m) ← e.dst m d .pending
  must (e.trust.globalOk w.toNat) (.trap tSpace w)
  let r ← e.exclRegion m .glb w w.toNat
  let h : Hold := ⟨r.rid, .excl⟩
  let size := 2 ^ (wbits v 3 0 + 6)
  let slots := 2 ^ (wbits v 7 4 + 1)
  if !m.rackHas e.c r.rid .excl then .ok (e.raced m l)
  else if wbits v 63 8 ≠ 0 ∨ 2 ^ 16 < size ∨ 2 ^ 15 < slots ∨ slots * size ≠ r.size then .ok (e.refused m l stBadarg h)
  else if 256 ≤ m.ringCount r.home then .ok (e.refused m l stRackfull h)
  else
    let m := m.onRegion r.rid fun r =>
      { r with key := ⟨.ring, .ring, [], [], none, []⟩, ring := some ⟨slots, size, 0, 0, 0, 0, [], none⟩ }
    .ok (e.status (e.later (.dropHold h) m) l stDone [])

/-- RQRY: a snapshot. -/
def rqryBody (d : Dst) (a : Src) (e : Env) (m : Mach) : Chk Mach := do
  let (w, m) ← e.src m a
  let (l, m) ← e.dst m d .pending
  must (e.trust.globalOk w.toNat) (.trap tSpace w)
  match m.ringAt w.toNat with
  | none => .error (.trap tNokey w)
  | some (r, g) => do
    must (decide (r.ctx = e.ctx m)) (.trap tNokey w)
    let v := match g.relay with
      | none => g.word
      | some (num, toFf) =>
        match m.channels.find? fun ch => decide (ch.num = num) && !ch.closed with
        | some ch => (ch.dir toFf).word
        | none => 0
    .ok (e.startValues m [l.put v] 0 [])

/-- RCLM: it never waits. -/
def rclmBody (d : Dst) (a b : Src) (e : Env) (m : Mach) : Chk Mach := do
  let (w, v, m) ← e.src2 m a b
  let (l, m) ← e.dst m d .pending
  let (r, g) ← e.ringChecks m false w (some v.toNat)
  let n := v.toNat
  if n ≤ g.freeSlots then
    let first := g.c.toNat
    let m := m.onRing r.rid fun g => { (g.setSlots first (fun _ => .claimed (e.me m) false) n) with c := g.c + BitVec.ofNat 32 n }
    .ok (e.startValues m [l.put (BitVec.ofNat 64 (r.slotAt g first))] 0 [.slots r.rid first n])
  else .ok (e.startValues m [l.put (BitVec.allOnes 64)] 0 [])

/-- RWFR: it claims nothing. -/
def rwfrBody (d : Dst) (a b : Src) (e : Env) (m : Mach) : Chk Mach := do
  let (w, v, m) ← e.src2 m a b
  let (l, m) ← e.dst m d .pending
  let (_, g) ← e.ringChecks m false w (some v.toNat)
  must (decide (v.toNat ≤ g.freeSlots)) (.stall 3)
  .ok (e.startValues m [l.put (BitVec.ofNat 64 g.freeSlots)] 0 [])

/-- RWFL: its sequencer starts nothing more until it has finished. -/
def rwflBody (d : Dst) (a b : Src) (e : Env) (m : Mach) : Chk Mach := do
  let (w, v, m) ← e.src2 m a b
  let (l, m) ← e.dst m d .pending
  let (r, g) ← e.ringChecks m false w (some v.toNat)
  let n := v.toNat
  must (decide (n ≤ g.ready)) (.stall 3)
  let first := g.w.toNat
  let m := m.onRing r.rid fun g => { (g.setSlots first (fun _ => .reading (e.me m) false) n) with w := g.w + BitVec.ofNat 32 n }
  let lines : List Fin_ := (List.range n).map fun i => .lines ⟨false, r.slotAt g (first + i), g.size⟩
  let (o, m) := e.start m .values [l.put (BitVec.ofNat 64 (r.slotAt g first))] 0 (.slots r.rid first n :: lines) none
  .ok (e.block o m)

/-- RPUB: the slots leave the group's holdings as it starts. -/
def rpubBody (a b : Src) (e : Env) (m : Mach) : Chk Mach := do
  let (w, v, m) ← e.src2 m a b
  let (r, g) ← e.ringChecks m true w (some v.toNat)
  let first := (w.toNat - r.base) / g.size
  must (g.allSlots first v.toNat fun s => decide (s = .claimed (e.me m) true)) (.trap tNokey w)
  .ok (e.start (e.later (.slotState r.rid first v.toNat (.publishing m.ids)) m) (.rpub r.rid first v.toNat) [] 0 [] none).2

/-- RREL: the slots leave the group's holdings as it starts. -/
def rrelBody (a b : Src) (e : Env) (m : Mach) : Chk Mach := do
  let (w, v, m) ← e.src2 m a b
  let (r, g) ← e.ringChecks m true w (some v.toNat)
  let first := (w.toNat - r.base) / g.size
  must (g.allSlots first v.toNat fun s => decide (s = .reading (e.me m) true)) (.trap tNokey w)
  .ok (e.start (e.later (.slotState r.rid first v.toNat (.releasing m.ids)) m) (.rrel r.rid first v.toNat) [] 0 [] none).2

/-! ### Their acknowledgement -/

/-- The ranges of global memory that an operation has still to read: of a load, of the runs of a copy that are not read yet, of
a WLD, of a payload and of a CLRD's source (R281, R309). -/
def Mach.globalReads (m : Mach) (o : Op) : List (Nat × Nat) :=
  match o.kind with
  | .values => match o.load with | some l => if l.space = .glb then [(l.ea, l.len)] else [] | none => []
  | .cpy x =>
    let next := if x.buf.isSome then x.run + 1 else x.run
    if x.ssp = 1 then (List.range' next (x.runs - next)).map fun i => (x.src i, x.n0) else []
  | .wld _ w false a => [(a, imageBytes w)]
  | .rlys num toFf _ _ .glb a none =>
    match m.channels.find? fun ch => decide (ch.num = num) with | some ch => [(a, (ch.dir toFf).size)] | none => []
  | .clrd g ch src => match m.collective g with
    | some x => if (x.run ch).sent then [] else [(src, 2 ^ (12 + wbits (wordAt x.words 0) 34 32))]
    | none => []
  | _ => []

/-- Whether an operation still reads any of some ranges of global memory. -/
def Mach.readsFrom (m : Mach) (o : Op) (ranges : List (Nat × Nat)) : Bool :=
  (m.globalReads o).any fun x => ranges.any fun p => overlaps x.1 x.2 p.1 p.2

/-- RPUB and RREL are acknowledged: the release wait of RPUB, the reads that RREL waits for (R281). Of two that start in one
cycle only one has given up the slots, and acts on them. -/
def serveRing (c : Nat) (op : Op) (m : Mach) : Mach :=
  match op.kind with
  | .rpub rid first n =>
    if m.released c op.id .pkg then
      (m.onRing rid fun g => (g.setSlots first (fun s => if s = .publishing op.id then .published else s) n).publish g.slots).finish c op
    else m
  | .rrel rid first n =>
    match m.region rid with
    | none => m.finish c op
    | some r =>
      let ranges := match r.ring with
        | some g => (List.range n).map fun i => (r.slotAt g (first + i), g.size)
        | none => []
      let k := m.core c
      if (k.earlier op.id).any fun o => m.readsFrom o ranges then m
      else (m.onRing rid fun g => (g.setSlots first (fun s => if s = .releasing op.id then .free else s) n).release g.slots).finish c op
  | _ => m

/-- A group has ended draining: its slots for writing are published as they stand, those for reading released (R283). -/
def Mach.endRings (m : Mach) (g : Gid) : Mach :=
  { m with regions := m.regions.map fun r =>
      { r with ring := r.ring.map fun x =>
        let st := x.state.filterMap fun p => match p.2 with
          | .claimed h _ => if h = g then some (p.1, RSlot.published) else some p
          | .reading h _ => if h = g then none else some p
          | _ => some p
        (({ x with state := st } : Ring).publish x.slots).release x.slots } }

/-! ### Meanings -/

/-- RINI (R280). -/
def execRini (t : Tok) (d : Dst) (a b : Src) (s : State) : Host.Outcome State Fault Refusal :=
  attemptNext (.rini t d a b) (riniBody d a b) s
/-- RQRY (R281, R304). -/
def execRqry (t : Tok) (d : Dst) (a : Src) (s : State) : Host.Outcome State Fault Refusal :=
  attemptNext (.rqry t d a) (rqryBody d a) s
/-- RWFL (R281). -/
def execRwfl (t : Tok) (d : Dst) (a b : Src) (s : State) : Host.Outcome State Fault Refusal :=
  attemptNext (.rwfl t d a b) (rwflBody d a b) s
/-- RWFR (R281). -/
def execRwfr (t : Tok) (d : Dst) (a b : Src) (s : State) : Host.Outcome State Fault Refusal :=
  attemptNext (.rwfr t d a b) (rwfrBody d a b) s
/-- RCLM (R281). -/
def execRclm (t : Tok) (d : Dst) (a b : Src) (s : State) : Host.Outcome State Fault Refusal :=
  attemptNext (.rclm t d a b) (rclmBody d a b) s
/-- RPUB (R281). -/
def execRpub (t : Tok) (a b : Src) (s : State) : Host.Outcome State Fault Refusal := attemptNext (.rpub t a b) (rpubBody a b) s
/-- RREL (R281). -/
def execRrel (t : Tok) (a b : Src) (s : State) : Host.Outcome State Fault Refusal := attemptNext (.rrel t a b) (rrelBody a b) s

end Sys2Proof.Machine
end

