-- ==== Sys2Proof/Machine/Relay.lean ====
section
/-! DEFINITION. Relay channels: RLYS, RLYG, RLYW, payloads, breaks and closing (R301 to R315). -/

namespace Sys2Proof.Machine

/-! ### Channels (R301 to R303) -/

def stBroken : Nat := 13
def stClosed : Nat := 14

/-- The own end that an end word names: the feed-forward end when side is 1. -/
def endSide (w : Word) : Bool := wbit w 12
/-- The end of a side. -/
def Channel.endOf (ch : Channel) (ff : Bool) : RelayEnd := if ff then ch.ffEnd else ch.attEnd
/-- A direction replaced. -/
def Channel.setDir (ch : Channel) (toFf : Bool) (d : RelayDir) : Channel := if toFf then { ch with ff := d } else { ch with att := d }
/-- An open channel. -/
def Mach.channel (m : Mach) (num : Nat) : Option Channel := m.channels.find? fun ch => decide (ch.num = num) && !ch.closed
/-- An open channel changed. -/
def Mach.onChannel (m : Mach) (num : Nat) (f : Channel → Channel) : Mach :=
  { m with channels := m.channels.map fun ch => if ch.num = num ∧ ch.closed = false then f ch else ch }
/-- A direction of an open channel changed. -/
def Mach.onDir (m : Mach) (num : Nat) (toFf : Bool) (f : RelayDir → RelayDir) : Mach :=
  m.onChannel num fun ch => ch.setDir toFf (f (ch.dir toFf))

/-- Whether both ends of a channel lie on this package. -/
def Channel.near (ch : Channel) : Bool := ch.attEnd.pkg.isNone && ch.ffEnd.pkg.isNone
/-- The address of slot number k of a direction. -/
def RelayDir.slotAddr (d : RelayDir) (k : Nat) : Nat := d.base + k % d.n * d.size
/-- A status of a payload that does not land: UNREACHABLE on a lost path, else BROKEN (R313). -/
def Channel.breakStatus (ch : Channel) : Nat := if ch.lostPath then csUnreachable else csBroken

/-! ### Checks (R307) -/

/-- What check 3 finds: an open channel, or one that closed while the instruction waited. -/
inductive EndFound where
  | open_ (ch : Channel)
  | closed

/-- Checks 2 and 3 of R307, up to the number of slots. -/
def Env.relayEnd (e : Env) (m : Mach) (w : Word) (send : Bool) : Chk EndFound := do
  must (decide (wbits w 63 21 = 0 ∧ wbits w 15 13 = 0) && (send || decide (wbits w 20 16 = 0))) (e.trapWord tFmtrsv)
  let num := wbits w 11 0
  match m.channel num with
  | some ch =>
    let x := ch.endOf (endSide w)
    must (decide (x.pkg = none ∧ x.core = e.c ∧ x.ctx = e.ctx m)) (.trap tNokey w)
    .ok (.open_ ch)
  | none =>
    must (m.channels.any fun ch => decide (ch.num = num) && ch.closed &&
      ch.waiting.any fun x => decide (x = (e.c, e.me m))) (.trap tNokey w)
    .ok .closed

/-- A waiting instruction of a closed channel has ended. -/
def Mach.doneWaiting (m : Mach) (num c : Nat) (g : Gid) : Mach :=
  let l := m.channels.map fun (ch : Channel) =>
    if ch.num = num ∧ ch.closed = true then { ch with waiting := ch.waiting.filter (fun x => decide (x ≠ (c, g))) } else ch
  { m with channels := l.filter (fun ch => !(ch.closed && ch.waiting.isEmpty)) }

/-- The code of a source space in a copy record. -/
def relayCode : RlySrc → Nat
  | .loc => 0 | .glb => 1 | .dev => 2

/-- Checks 4 to 8 of R307 for a payload of n bytes. -/
def Env.relaySource (e : Env) (m : Mach) (s : RlySrc) (w : Word) (n : Nat) : Chk Unit := do
  let side : RunSide := (relayCode s, w.toNat, false)
  must (decide (w.toNat % 64 = 0)) (.trap tAlign w)
  must (runInSpace e.trust n side) (.trap tSpace w)
  match e.runTranslates n side m with
  | .error (.trap c _) => .error (.trap c w)
  | .error h => .error h
  | .ok m =>
    must (runProtected e.trust m (e.ctx m) (m.seq e.c e.q).status.super n side).isNone (.trap tProt w)
    must (runKeyless m e.c n side).isNone (.trap tNokey w)

/-! ### RLYS (R308) -/

/-- RLYS takes a permit as it starts, and a place in the command queue of its cluster (R262, R308). -/
def rlysBody (d : Dst) (s : RlySrc) (a b : Src) (e : Env) (m : Mach) : Chk Mach := do
  let (w, v, m) ← e.src2 m a b
  let (l, m) ← e.dst m d .pending
  let f ← e.relayEnd m w true
  match f with
  | .closed => .ok (e.status (m.doneWaiting (wbits w 11 0) e.c (e.me m)) l stClosed [])
  | .open_ ch =>
    let toFf := !endSide w
    let dir := ch.dir toFf
    let obj := wbits w 20 16
    e.relaySource m s v dir.size
    if ch.broken then .ok (e.status m l stBroken [])
    else
      must (decide (1 ≤ (dir.gnt - dir.snt).toNat)) (.stall 5)
      must (decide (((m.core e.c).obj obj).pend < 255)) (.stall 2)
      e.queueRoom m
      let m := m.onDir ch.num toFf fun x => { x with snt := x.snt + 1 }
      let m := m.onCore e.c fun k => k.objStart obj
      .ok (e.start m (.rlys ch.num toFf dir.snt.toNat obj s v.toNat none) [l] 0 [] none).2

/-- The relay engine reads a payload: the release wait, the bytes, and DONE lands (R308). -/
def serveRlys (t : Trust) (c : Nat) (op : Op) (m : Mach) : Mach :=
  match op.kind with
  | .rlys num toFf slot obj s a _ =>
    match m.channel num with
    | none => (m.onCore c fun k => k.objDone obj 0 csBroken []).finish c { op with dests := op.dests.map (·.put (stWord stDone)) }
    | some ch =>
      if !(m.mayLeaveQueue c op.id && m.released c op.id (if ch.near then .pkg else .fab)) then m
      else
        match engineRead t c op 0 (relayCode s) a (ch.dir toFf).size m with
        | .wait m => m
        | .lost m => m
        | .ok bs m =>
          let g := (m.core c).group.map Group.gid
          let m := m.finish c { op with dests := op.dests.map (·.put (stWord stDone)) }
          if ch.broken then m.onCore c fun k => k.objDone obj 0 ch.breakStatus []
          else
            let m := m.onDir num toFf fun d => { d with inFlight := d.inFlight ++ [⟨slot, bs, c, g, obj, op.id, s, a⟩] }
            match (ch.receiver toFf).pkg with
            | some p => { m with outbox := m.outbox ++ [.payload p num slot bs] }
            | none => m
  | _ => m

/-! ### RELAY_PAYLOAD_LANDS (R303, R308) -/

/-- ARR advances over every contiguous landed slot, through at most n; what it passes completes. -/
def arrAdvance (d : RelayDir) (done : List Payload) : Nat → RelayDir × List Payload
  | 0 => (d, done)
  | n + 1 =>
    match d.landed.find? fun p => decide (p.slot = d.arr.toNat) with
    | none => (d, done)
    | some p =>
      arrAdvance { d with arr := d.arr + 1, landed := d.landed.filter fun x => decide (x.slot ≠ p.slot) } (done ++ [p]) n

/-- Sends of this package complete at their objects with a status. -/
def Mach.completeSends (m : Mach) (l : List Payload) (units st : Nat) : Mach :=
  l.foldl (fun m p => if p.group.isNone then m else m.onGroupCore p.core p.group fun k => k.objDone p.obj units st []) m

/-- A payload has arrived whole: its slot is written when the ring lies here, and ARR advances. -/
def Mach.landPayload (m : Mach) (ch : Channel) (toFf : Bool) (p : Payload) : Mach :=
  let d := ch.dir toFf
  let here := (ch.receiver toFf).pkg.isNone
  let m := if here then (m.touchSlice d.base).writeHome false (d.slotAddr p.slot) d.size (Mem.ofBytes p.data) else m
  let (d', done) := arrAdvance { d with landed := d.landed ++ [p], inFlight := d.inFlight.filter fun x => decide (x.slot ≠ p.slot) } []
    (d.landed.length + 1)
  (m.onDir ch.num toFf fun _ => d').completeSends done d.size csDone

/-- RELAY_PAYLOAD_LANDS: a payload on its way reaches its slot, whose slice is not in retention (R138). -/
def relayPayloadLands (num : Nat) (toFf : Bool) (slot : Nat) (m : Mach) : Mach :=
  match m.channel num with
  | none => m
  | some ch =>
    match (ch.dir toFf).inFlight.find? fun p => decide (p.slot = slot) with
    | none => m
    | some p =>
      if (ch.receiver toFf).pkg.isNone && (m.retainedSlice (ch.dir toFf).base).isSome then m.touchSlice (ch.dir toFf).base
      else m.landPayload ch toFf p

/-! ### RLYG (R309) -/

/-- RLYG, RLYG.add and RLYG.ret: 0, 1 and 2. -/
def rlygBody (form : Nat) (d : Dst) (a b : Src) (e : Env) (m : Mach) : Chk Mach := do
  let (w, v, m) ← e.src2 m a b
  let (l, m) ← e.dst m d .pending
  let f ← e.relayEnd m w false
  match f with
  | .closed => .error (.trap tNokey w)
  | .open_ ch =>
    let toFf := endSide w
    must (decide (1 ≤ v.toNat ∧ v.toNat ≤ (ch.dir toFf).n)) (e.trapWord tFmtrsv)
    .ok (e.start m (.rlyg ch.num toFf form v.toNat) [l] 0 [] none).2

/-- Whether a direction allows an RLYG. -/
def RelayDir.grants (d : RelayDir) (form n : Nat) : Bool :=
  if form = 1 then decide ((d.gnt - d.rls).toNat + n ≤ d.n) else decide (n ≤ (d.tkn - d.rls).toNat)

/-- An RLYG takes effect once the reads of the slots it releases are served; RLYGs of a core act in the order issued. -/
def serveRlyg (c : Nat) (op : Op) (m : Mach) : Mach :=
  match op.kind with
  | .rlyg num toFf form n =>
    let done (code : Nat) (m : Mach) : Mach := m.finish c { op with dests := op.dests.map (·.put (stWord code)) }
    match m.channel num with
    | none => done stClosed m
    | some ch =>
      let k := m.core c
      let d := ch.dir toFf
      if !(k.noEarlier op.id fun x => match x with | .rlyg y z _ _ => decide (y = num ∧ z = toFf) | _ => false) then m
      else if ch.broken then done stBroken m
      else if !d.grants form n then done stBadarg m
      else
        let ranges := (List.range n).map fun i => (d.slotAddr (d.rls.toNat + i), d.size)
        if decide (form ≠ 1) && (k.earlier op.id).any fun o => m.readsFrom o ranges then m
        else
          let x := BitVec.ofNat 32 n
          let m := m.onDir num toFf fun d =>
            { d with rls := if form = 1 then d.rls else d.rls + x, gnt := if form = 2 then d.gnt else d.gnt + x }
          let m := match (ch.receiver (!toFf)).pkg with
            | some p => if form = 2 then m else { m with outbox := m.outbox ++ [.permits p num n] }
            | none => m
          done stDone m
  | _ => m

/-! ### RLYW (R310) -/

/-- RLYW's result word (R306). -/
def relayWord (code addr : Nat) : Word := BitVec.ofNat 64 (code * 2 ^ 32 + addr)

/-- RLYW: its sequencer starts nothing more until it has finished. -/
def rlywBody (d : Dst) (a b : Src) (e : Env) (m : Mach) : Chk Mach := do
  let (w, v, m) ← e.src2 m a b
  let (l, m) ← e.dst m d .pending
  let f ← e.relayEnd m w false
  match f with
  | .closed =>
    let (o, m) := e.start (m.doneWaiting (wbits w 11 0) e.c (e.me m)) .values [l.put (relayWord stClosed 0)] 0 [] none
    .ok (e.block o m)
  | .open_ ch =>
    let toFf := endSide w
    let dir := ch.dir toFf
    let n := v.toNat
    must (decide (1 ≤ n ∧ n ≤ dir.n)) (e.trapWord tFmtrsv)
    if n ≤ (dir.arr - dir.tkn).toNat then
      let first := dir.tkn.toNat
      let m := m.onDir ch.num toFf fun x => { x with tkn := x.tkn + BitVec.ofNat 32 n }
      let (o, m) := e.start m .values [l.put (relayWord stDone (dir.slotAddr first))] 0
        ((List.range n).map fun i => .lines ⟨false, dir.slotAddr (first + i), dir.size⟩) none
      .ok (e.block o m)
    else
      must ch.broken (.stall 5)
      let (o, m) := e.start m .values [l.put (relayWord stBroken 0)] 0 [] none
      .ok (e.block o m)

/-! ### CHANNEL_BREAK (R313) -/

/-- A channel breaks: started sends that have not landed complete without landing. -/
def Mach.breakChannel (m : Mach) (num : Nat) (lost : Bool) : Mach :=
  match m.channel num with
  | none => m
  | some ch =>
    if ch.broken then m
    else
      let ch := { ch with broken := true, lostPath := lost }
      let gone := ch.att.inFlight ++ ch.att.landed ++ ch.ff.inFlight ++ ch.ff.landed
      let clear (d : RelayDir) : RelayDir := { d with inFlight := [], landed := [] }
      (m.onChannel num fun _ => { ch with att := clear ch.att, ff := clear ch.ff }).completeSends gone 0 ch.breakStatus

/-- CHANNEL_BREAK: the context of an end is lost, an end's package has reset, or the path to it cannot be restored. -/
def channelBreak (t : Trust) (num : Nat) (m : Mach) : Mach :=
  match m.channel num with
  | none => m
  | some ch =>
    match ch.attEnd.pkg.or ch.ffEnd.pkg with
    | some p => m.breakChannel num (cutOff t m p)
    | none =>
      let lost (c : BitVec 6) : Bool := (SMap.get? m.contexts c.toNat).isNone
      if lost ch.attEnd.ctx || lost ch.ffEnd.ctx then m.breakChannel num false else m

/-! ### Closing (R314) -/

/-- Whether the ctl of a core waits in RLYS or RLYW on a channel (R308, R310). -/
def relayWaits (t : Trust) (m : Mach) (c num : Nat) : Bool :=
  let k := m.core c
  if k.alive .ctl && k.ctl.blockedOn.isNone && decide (k.ctl.pause = .run) && decide (k.ctl.readyAt ≤ k.ctl.clock) then
    let i := (k.plane .ctl).instr k.ctl.pc
    let e : Env := ⟨t, c, .ctl, i.word, i.length, i.tok⟩
    let tries (a : Src) (body : Env → Mach → Chk Mach) : Bool :=
      match (do
        e.checks m i
        let m ← e.tokens m
        let (w, _) ← e.src m a
        match body e m with
        | .error (.stall 5) => .ok w
        | _ => .error .wait : Chk Word) with
      | .ok w => decide (wbits w 11 0 = num)
      | .error _ => false
    match i with
    | .rlys _ d s a b => tries a (rlysBody d s a b)
    | .rlyw _ d a b => tries a (rlywBody d a b)
    | _ => false
  else false

/-- A ring region of a channel is zeroed and removed (R139, R314). -/
def Mach.dropRelayRing (m : Mach) (e : RelayEnd) (d : RelayDir) : Mach :=
  if e.pkg.isSome then m
  else { (m.zeroHome false d.base (d.n * d.size)) with regions := m.regions.filter fun r => decide (r.rid ≠ d.rid) }

/-- What a close makes of the operations of a core on the channel: an RLYG writes CLOSED; an RLYS whose payload has not been
read, which only a broken channel still has, completes as the break says, and none of it reaches a channel that takes the
number (R313, R314). -/
def Core.endSends (k : Core) (num st : Nat) : Core :=
  let unread := k.ops.filterMap fun o => match o.kind with | .rlys x _ _ obj _ _ _ => if x = num then some obj else none | _ => none
  let k := unread.foldl (fun k obj => k.objDone obj 0 st []) k
  { k with ops := k.ops.map fun (o : Op) =>
      match o.kind with
      | .rlyg x _ _ _ => if x = num then { o with kind := .values, dests := o.dests.map (·.put (stWord stClosed)) } else o
      | .rlys x .. => if x = num then { o with kind := .values, dests := o.dests.map (·.put (stWord stDone)) } else o
      | _ => o }

/-- A channel closes once its sends have landed, or it is broken: none while it waits. -/
def Mach.closeChannel (t : Trust) (m : Mach) (num : Nat) : Option Mach :=
  match m.channel num with
  | none => some m
  | some ch =>
    if !ch.broken && !(decide (ch.att.snt = ch.att.arr) && decide (ch.ff.snt = ch.ff.arr)) then none
    else
      let ends := ([ch.attEnd, ch.ffEnd].filter fun x => x.pkg.isNone).map RelayEnd.core
      let waiting := ends.filterMap fun c =>
        if relayWaits t m c num then (m.core c).group.map fun g => (c, g.gid) else none
      let m := (m.dropRelayRing ch.attEnd ch.att).dropRelayRing ch.ffEnd ch.ff
      let m := ends.foldl (fun m c => m.onCore c fun k => k.endSends num ch.breakStatus) m
      let m := { m with outbox := m.outbox ++
        match ch.attEnd.pkg.or ch.ffEnd.pkg with | some p => [Sent.unbind p num] | none => [] }
      some { m with channels :=
        if waiting.isEmpty then m.channels.filter fun x => !(decide (x.num = num) && !x.closed)
        else m.channels.map fun (x : Channel) => if x.num = num ∧ x.closed = false then { x with closed := true, waiting := waiting } else x }

/-! ### Meanings -/

/-- RLYS (R308). -/
def execRlys (t : Tok) (d : Dst) (r : RlySrc) (a b : Src) (s : State) : Host.Outcome State Fault Refusal :=
  attemptNext (.rlys t d r a b) (rlysBody d r a b) s
/-- RLYG (R309). -/
def execRlyg (t : Tok) (d : Dst) (a b : Src) (s : State) : Host.Outcome State Fault Refusal :=
  attemptNext (.rlyg t d a b) (rlygBody 0 d a b) s
/-- RLYG.add (R309). -/
def execRlygAdd (t : Tok) (d : Dst) (a b : Src) (s : State) : Host.Outcome State Fault Refusal :=
  attemptNext (.rlygAdd t d a b) (rlygBody 1 d a b) s
/-- RLYG.ret (R309). -/
def execRlygRet (t : Tok) (d : Dst) (a b : Src) (s : State) : Host.Outcome State Fault Refusal :=
  attemptNext (.rlygRet t d a b) (rlygBody 2 d a b) s
/-- RLYW (R310). -/
def execRlyw (t : Tok) (d : Dst) (a b : Src) (s : State) : Host.Outcome State Fault Refusal :=
  attemptNext (.rlyw t d a b) (rlywBody d a b) s
/-- RELAY_PAYLOAD_LANDS (R303). -/
def execRelayPayloadLands (chan : Nat) (toFf : Bool) (slot : Nat) (s : State) : Host.Outcome State Fault Refusal :=
  .next { s with mach := relayPayloadLands chan toFf slot s.mach }
/-- CHANNEL_BREAK (R313). -/
def execChannelBreak (chan : Nat) (s : State) : Host.Outcome State Fault Refusal :=
  .next { s with mach := channelBreak s.trust chan s.mach }

end Sys2Proof.Machine
end

