-- ==== Sys2Proof/Machine/Place.lean ====
section
/-! DEFINITION. Requests, launches and streams as the stream controllers see them: the deal, the group due on a core, kernel
images and planes, placement, and the end of draining (R93 to R95, R347 to R353, R357, R359). -/

namespace Sys2Proof.Machine

/-! ### Reads by agents of a context (R339) -/

/-- n bytes of device memory as a supervisor agent of a context reads them, without key checks: unmapped, a poisoned word of the
range or of the walk (R395), or the bytes. -/
def agentRead (t : Trust) (m : Mach) (ctx : BitVec 6) (a n : Nat) : Except (Option Nat) (List Byte) :=
  match piecesFrom t m ctx true (n / 65536 + 2) 0 a n with
  | none => .error (walkPoison t m ctx true a n)
  | some ps =>
    match m.piecesPoison true ps with
    | some w => .error (some w)
    | none => .ok (Mem.toBytes (m.piecesImage true ps) 0 n)

/-- Bytes as 64-bit words. -/
def wordsOf : Nat → List Byte → List Word
  | 0, _ => []
  | n + 1, l => BitVec.ofNat 64 (leNat (l.take 8)) :: wordsOf n (l.drop 8)

/-- n words of device memory. -/
def agentWords (t : Trust) (m : Mach) (ctx : BitVec 6) (a n : Nat) : Except (Option Nat) (List Word) :=
  (agentRead t m ctx a (8 * n)).map (wordsOf n)

/-- An agent on a die that is no core's consumes poison for a context (R395). -/
def Mach.loseAgent (m : Mach) (dram : Bool) (a : Nat) (ctx : BitVec 6) (die : Nat) : Mach :=
  let (d, b, i) := m.homeErr dram a
  m.consume d b i ctx die 0x3F 0

/-! ### Requests and launches -/

/-- Fields of a submission record (R336). -/
def rTag (w : List Word) : Nat := wbits (wordAt w 0) 31 16
def rPrio (w : List Word) : Nat := wbits (wordAt w 0) 8 6
def rCtx (w : List Word) : BitVec 6 := (wordAt w 0).extractLsb' 0 6
def rGraph (w : List Word) : Nat := (wordAt w 1).toNat

/-- A request by its number. -/
def Mach.request (m : Mach) (r : Nat) : Option Request := m.requests.find? fun x => decide (x.rid = r)
/-- A request changed. -/
def Mach.onRequest (m : Mach) (r : Nat) (f : Request → Request) : Mach :=
  { m with requests := m.requests.map fun x => if x.rid = r then f x else x }
/-- A launch by its number. -/
def Mach.launch (m : Mach) (n : Nat) : Option Launch := m.launches.find? fun x => decide (x.num = n)
/-- A launch changed. -/
def Mach.onLaunch (m : Mach) (n : Nat) (f : Launch → Launch) : Mach :=
  { m with launches := m.launches.map fun x => if x.num = n then f x else x }
/-- The state of a group of a launch changed. -/
def Mach.setGroup (m : Mach) (g : Gid) (st : GroupSt) : Mach :=
  m.onLaunch g.launch fun l => { l with groups := l.groups.map fun x => if x.1 = g.idx then (x.1, x.2.1, st) else x }
/-- The current level of a request; without one, below every level. -/
def Mach.reqLevel (m : Mach) (r : Nat) : Nat := ((m.request r).map Request.level).getD 8

/-- Requests that have ended and whose kernels and HAND have ended leave the sequencer. -/
def Mach.dropEnded (m : Mach) : Mach :=
  { m with requests := m.requests.filter fun r => !r.ended || r.handRun.isSome || m.launches.any fun l => decide (l.req = r.rid) }

/-! ### The deal (R347 to R349) -/

/-- The digits of a group number at the levels, innermost first: temporal levels have 0. -/
def digitsRev : List TabLevel → Nat → List Nat
  | [], _ => []
  | l :: r, g => if l.kind = 0 then 0 :: digitsRev r g else (g % l.count) :: digitsRev r (g / l.count)
/-- The digits of a group number, outermost first. -/
def digitsOf (ls : List TabLevel) (g : Nat) : List Nat := (digitsRev ls.reverse g).reverse
/-- G: the product of the counts of the spatial levels. -/
def groupCount (ls : List TabLevel) : Nat := ls.foldl (fun n l => if l.kind = 0 then n else n * l.count) 1
/-- The dies digits together. -/
def dieIndex (ls : List TabLevel) (g : Nat) : Nat :=
  (ls.zip (digitsOf ls g)).foldl (fun n x => if x.1.kind = 2 then n * x.1.count + x.2 else n) 0
/-- The loop table as group g sees it. -/
def tableOf (ls : List TabLevel) (g : Nat) : List TabLevel :=
  (ls.zip (digitsOf ls g)).map fun x => { x.1 with idx := x.2 }

/-- The live dies of a class that have a live core. -/
def Trust.diesOf (t : Trust) (dclass : Bool) : List Nat :=
  (List.range 6).filter fun d => t.isLive d && decide (isPDie d = !dclass) && decide (0 < t.count d)

/-- Groups dealt to cores from the dies that their indices name; n counts the groups that went to each die. -/
def dealFrom (t : Trust) : List (Nat × Nat) → SMap Nat → List (Nat × Nat × GroupSt)
  | [], _ => []
  | (g, d) :: r, n =>
    let i := SMap.getD n d 0
    (g, (t.coreKey d (i % t.count d)).getD (36 * d), .due) :: dealFrom t r (SMap.set n d (i + 1))

/-- The groups of a kernel with their cores. -/
def deal (t : Trust) (ls : List TabLevel) (dies : List Nat) : List (Nat × Nat × GroupSt) :=
  dealFrom t ((List.range (groupCount ls)).map fun g => (g, dies.getD (dieIndex ls g % dies.length) 0)) []

/-! ### Streams (R353) -/

/-- The holder of a stream's key. -/
def streamHolder (s : Nat) : Holder := .setup s 65536
/-- The streams that a launch's XFER nodes made resident; none while one is missing or lies on another die. -/
def Mach.launchStreams (m : Mach) (l : Launch) (die : Nat) : Option (List Stream) :=
  l.streams.mapM fun n => do
    let r ← m.request l.req
    let p ← r.streams.find? fun p => decide (p.1 = n)
    let s ← m.streams.find? fun s => decide (s.num = p.2)
    if s.die = die then some s else none

/-- The dies that a launch uses. -/
def Launch.dies (l : Launch) : List Nat := (l.groups.map fun g => dieOf g.2.1).dedup

/-- The kernel entries whose streams are all resident on their die leave WAITING with them (R352). -/
def Mach.leaveWaiting (m : Mach) : Mach :=
  { m with launches := m.launches.map fun l =>
      if l.issued then
        { l with issuing := l.issuing ++ (l.dies.filter fun d => !l.issuing.any fun x => decide (x.1 = d)).filterMap fun d =>
            (m.launchStreams l d).map fun ss => (d, ss.map Stream.num) }
      else l }

/-- The streams of a launch whose entry on a die has left WAITING. -/
def Mach.issuedStreams (m : Mach) (l : Launch) (die : Nat) : Option (List Stream) :=
  (l.issuing.find? fun x => decide (x.1 = die)).map fun x =>
    x.2.filterMap fun n => m.streams.find? fun s => decide (s.num = n)

/-- Whether a kernel that has left WAITING and not finished needs a stream (R343, R353; log 133). -/
def Mach.streamNeeded (m : Mach) (s : Stream) : Bool :=
  m.launches.any fun l => l.issuing.any fun x => x.2.any fun n => decide (n = s.num)

/-- Whether a stream has a share that no group holds. -/
def Mach.freeShare (m : Mach) (s : Stream) : Bool :=
  match m.region s.rid with
  | none => false
  | some r => r.key.shares.any fun x => decide (x.holder = streamHolder s.num)
/-- A group is lent a share of a stream. -/
def Mach.lendShare (m : Mach) (g : Gid) (s : Stream) : Mach :=
  m.onRegion s.rid fun r => { r with key := { r.key with
    shares := updFirst (fun (x : Share) => decide (x.holder = streamHolder s.num)) (fun _ => ⟨.group g, []⟩) r.key.shares } }

/-- Streams that no request references, that no kernel under way needs and whose shares are all back: their keys go FREE. -/
def Mach.settleStreams (m : Mach) : Mach :=
  let done (s : Stream) : Bool := s.refs.isEmpty && !m.streamNeeded s && match m.region s.rid with | some r => decide (r.key.guests = 0) | none => true
  let gone := m.streams.filter done
  let m := gone.foldl (fun m s => m.setKey s.rid .free) m
  { m with streams := m.streams.filter fun s => !done s }

/-! ### The group due on a core (R349, R350, R352) -/

/-- A launch's candidate on a core: its first group there that has not ended, when that one waits for the core. -/
def Launch.dueOn (l : Launch) (c : Nat) : Option (Nat × GroupSt) :=
  match l.groups.find? fun g => decide (g.2.1 = c) && decide (g.2.2 ≠ .ended) with
  | some (_, _, .placed) => none
  | some (g, _, st) => some (g, st)
  | none => none

/-- Whether one launch goes before another: by level, admission and firing. -/
def Mach.goesBefore (m : Mach) (a b : Launch) : Bool :=
  let x := m.reqLevel a.req
  let y := m.reqLevel b.req
  decide (x < y) || (decide (x = y) && (decide (a.req < b.req) || (decide (a.req = b.req) && decide (a.num < b.num))))

/-- The group due on a core: of the kernels whose entries have left WAITING and whose requests are not suspended, that of the
first in order. -/
def Mach.dueGroup (m : Mach) (c : Nat) : Option (Launch × Nat × GroupSt) :=
  m.launches.foldl (fun best l =>
    match l.dueOn c with
    | none => best
    | some (g, st) =>
      if !l.issued || (m.issuedStreams l (dieOf c)).isNone || (match m.request l.req with | some r => r.suspended | none => false) then best
      else match best with
        | none => some (l, g, st)
        | some (b, _) => if m.goesBefore l b then some (l, g, st) else best) none

/-! ### Kernel images (R346, R359) -/

/-- Whether the planes of a core hold a kernel. -/
def planesHold (ps : SMap Plane) (h : BitVec 256) : Bool :=
  (List.range 4).all fun q => decide ((SMap.getD ps q ⟨[], [], 0, none⟩).hash = some h)

/-- The start of each image after the 128-byte header. -/
def imageStarts : Nat → List Nat → List Nat
  | _, [] => []
  | a, n :: r => a :: imageStarts ((a + n + 63) / 64 * 64) r

/-- A plane with an image, zero beyond it. -/
def planeOf (img : List Byte) (h : BitVec 256) : Plane := ⟨Mem.ofBytes img, [], img.length, some h⟩

/-- The bytes of an image with the bytes that a broadcast got wrong. -/
def noisy (noise : List (Nat × Nat × Byte)) (q : Nat) (img : List Byte) : List Byte :=
  noise.foldl (fun l x => if x.1 = q ∧ x.2.1 < l.length then l.set x.2.1 x.2.2 else l) (img ++ List.replicate (0x8000 - img.length) 0)

/-- The CRC of a plane image with the bytes that were received. -/
def crcOk (noise : List (Nat × Nat × Byte)) (q : Nat) (img : List Byte) (crc : Nat) : Bool :=
  decide ((crc32c (noisy noise q img)).toNat = crc)

/-- The shadow planes of a core after a broadcast of four images: a plane that receives one records the kernel when the CRC of
what it received is right, and holds no kernel when it is not (R359). -/
def receivePlanes (h : BitVec 256) (imgs : List (List Byte)) (crcs : List Nat) (noise : List (Nat × Nat × Byte))
    (takes : Nat → Bool) (shadow : SMap Plane) : SMap Plane :=
  (imgs.zipIdx).foldl (fun ps x =>
    if !takes x.2 then ps
    else if crcOk noise x.2 x.1 (crcs.getD x.2 0) then SMap.set ps x.2 (planeOf x.1 h)
    else SMap.erase ps x.2) shadow

/-- The kernel that shadow plane q of a core holds. -/
def Core.shadowHash (k : Core) (q : Nat) : Option (BitVec 256) := (SMap.get? k.shadow q).bind Plane.hash

/-- KERNEL_IMAGE_LOAD: the kernel of the group due on a core reaches its shadow planes. A core whose shadow planes hold a
kernel from which a difference is recorded receives that difference, and with it every core of the die, plane by plane, where
that kernel is; any other receives a full reload, and a mismatch after it loses the context. noise is what the core received
wrongly (logs 35 and 134). -/
def kernelImageLoad (t : Trust) (c : Nat) (noise : List (Nat × Nat × Byte)) (m : Mach) : Mach :=
  match m.dueGroup c with
  | none => m
  | some (l, _) =>
    let k := m.core c
    if planesHold k.active l.hash || planesHold k.shadow l.hash then m
    else
      match agentWords t m l.ctx l.desc 16 with
      | .error (some w) => m.loseAgent true w l.ctx (dieOf c)
      | .error none => m
      | .ok hd =>
        match (l.lens.zip (imageStarts 128 l.lens)).mapM fun x => agentRead t m l.ctx (l.desc + x.2) x.1 with
        | .error (some w) => m.loseAgent true w l.ctx (dieOf c)
        | .error none => m
        | .ok imgs =>
          let crcs := (List.range 4).map fun i => wbits (wordAt hd (7 + i)) 63 32
          let base := k.shadowHash 0
          let full := match base with | none => true | some b => !planesHold k.shadow b || !Config.recorded b l.hash
          let others : List Nat := if full then [] else m.cores.keys.filter fun x => decide (x ≠ c ∧ dieOf x = dieOf c)
          let m := others.foldl (fun m x => m.onCore x fun k =>
            { k with shadow := receivePlanes l.hash imgs crcs [] (fun q => decide (k.shadowHash q = base)) k.shadow }) m
          let m := m.onCore c fun k => { k with shadow := receivePlanes l.hash imgs crcs noise (fun _ => true) k.shadow }
          if full && !planesHold (m.core c).shadow l.hash then m.notify
            { ctx := l.ctx, reason := 5, trap := 0, die := dieOf c, core := t.logical (dieOf c) (physOf c), seq := 0,
              addr := 0, event := plainEvent l.ctx (t.logical (dieOf c) (physOf c)) }
          else m

/-- The planes that a placement finds: the active ones, or the shadow ones after a swap of all four (R94). -/
def Core.withKernel (k : Core) (h : BitVec 256) : Option Core :=
  if planesHold k.active h then some k
  else if planesHold k.shadow h then some { k with active := k.shadow, shadow := k.active }
  else none

/-! ### Placement (R95, R351, R357) -/

/-- A core in the state of R95 for a group: what is the core's own stays. -/
def Core.placed (k : Core) (g : Group) (view : List Hold) : Core :=
  { Core.reset with
    group := some g, view := view, local_ := k.local_, localPoison := k.localPoison, granules := k.granules,
    cycles := k.cycles, active := k.active, shadow := k.shadow }

/-- The launch block (R351). -/
def launchBlock (r : Request) (l : Launch) : List Word :=
  let ch (i : Nat) : Option Nat := (r.chans.getD i none)
  let chans := (List.range 4).foldl (fun n i =>
    match ch i with | some x => n + 2 ^ (48 + i) + x * 2 ^ (12 * i) | none => n) 0
  let place : Nat := match r.place with
    | none => 0
    | some p => p.die * 2 ^ 60 + p.col * 2 ^ 54 + p.wbill * 2 ^ 44 + p.handle
  [BitVec.ofNat 64 (rTag r.words * 2 ^ 48 + l.ctx.toNat * 2 ^ 42 + rPrio r.words * 2 ^ 39 + l.node)] ++
    (r.words.drop 2).take 4 ++ [BitVec.ofNat 64 chans, BitVec.ofNat 64 place, l.arg]

/-- The engine port writes local bytes for the group on a core, claiming their granules (R126, R351, R357). -/
def Mach.portWrite (m : Mach) (c a : Nat) (bs : List Byte) : Mach :=
  if bs.isEmpty then m
  else (m.ownLocal c a bs.length).onCore c fun k =>
    { k with local_ := k.local_.write a bs, localPoison := poisonClear k.localPoison a bs.length }

/-- The set-up entries of a kernel, four words each (R354, R355). -/
def setupEntries (t : Trust) (m : Mach) (ctx : BitVec 6) (desc : Nat) : Except (Option Nat) (List (List Word)) := do
  let hd ← agentWords t m ctx desc 16
  let n := wbits (wordAt hd 15) 15 0
  let ws ← agentWords t m ctx (desc + wbits (wordAt hd 15) 47 16) (4 * n)
  .ok ((List.range n).map fun i => (ws.drop (4 * i)).take 4)

/-- The kind of a set-up entry. -/
def eKind (w : List Word) : Nat := wbits (wordAt w 0) 63 60

/-- The local data of a kernel: address and bytes of every kind-2 entry. -/
def localData (t : Trust) (m : Mach) (l : Launch) : Except (Option Nat) (List (Nat × List Byte)) := do
  let es ← setupEntries t m l.ctx l.desc
  (es.filter fun w => decide (eKind w = 2)).mapM fun w => do
    let bs ← agentRead t m l.ctx (l.desc + (wordAt w 3).toNat) (wordAt w 2).toNat
    .ok ((wordAt w 1).toNat, bs)

/-- The group of a launch as it is placed. -/
def Launch.groupOf (l : Launch) (g : Nat) : Group where
  gid := ⟨l.num, g⟩
  ctx := l.ctx
  req := l.req
  node := l.node
  hash := l.hash
  table := tableOf l.table g
  lens := l.lens
  draining := false
  want := false
  bank := false
  live0 := false
  live1 := false
  lostMark := 0
  spill0 := none
  spill1 := none
  spillBad := []
  held := false
  preempt := none
  evicted := []
  slotAt := 0

/-- A fresh group is placed on a core whose planes hold its kernel. -/
def placeGroup (t : Trust) (c : Nat) (l : Launch) (g : Nat) (k : Core) (ss : List Stream) (m : Mach) : Mach :=
  let gid : Gid := ⟨l.num, g⟩
  match localData t m l with
  | .error (some w) => m.loseAgent true w l.ctx (dieOf c)
  | .error none => m
  | .ok data =>
    let m := ss.eraseDups.foldl (fun m s => m.lendShare gid s) m
    let m := m.setGroup gid .placed
    let m := m.setCore c (k.placed (l.groupOf g) (m.viewOf gid))
    let m := data.foldl (fun m x => m.portWrite c x.1 x.2) m
    match m.request l.req with
    | none => m
    | some r => m.portWrite c 0x7FFC0 (wordsBytes (launchBlock r l))

/-- Whether a core can take a group: it is unoccupied, and was so before this cycle (R93). -/
def Trust.mayPlace (t : Trust) (m : Mach) (c : Nat) : Bool :=
  (m.core c).group.isNone && !(m.core c).failed && !(m.core c).ended && t.isLive (dieOf c) && (t.mask (dieOf c)).getLsbD (physOf c)

/-- GROUP_PLACEMENT: the fresh group that is due on an unoccupied core is placed there. -/
def groupPlacement (t : Trust) (c : Nat) (m : Mach) : Mach :=
  if !t.mayPlace m c then m
  else
    match m.dueGroup c with
    | some (l, g, .due) =>
      match (m.core c).withKernel l.hash, m.issuedStreams l (dieOf c) with
      | some k, some ss => if ss.all m.freeShare then placeGroup t c l g k ss m else m
      | _, _ => m
    | _ => m

/-! ### The end of draining (R93, R146, R224, R271, R283, R333, R353) -/

/-- The granules of a group become free (R126). -/
def Core.freeGranules (k : Core) (g : Gid) : Core :=
  { k with granules := SMap.mapVals (fun _ (o : Owner) => match o with | .group x ctx => if x = g then .freed ctx else o | o => o) k.granules }

/-- A core becomes unoccupied: nothing of its group's is left but what a placement replaces. -/
def Core.vacate (k : Core) (g : Gid) : Core :=
  { k.freeGranules g with
    group := none, ops := [], posted := [], later := [], objs := [], bindings := [], view := [], clause := none, aRows := [] }

/-- A lease that a core holds or is ending is given up without its banks (R224, R225). -/
def Mach.leaveLease (m : Mach) (c : Nat) : Mach :=
  match (m.array (clusterOf c)).lease with
  | .held x => if x = c then m.endHolding (clusterOf c) c false else m
  | .ending x => if x = c then m.endHolding (clusterOf c) c false else m
  | _ => m

/-- Whether every handshake operation of the group on a core has been acknowledged (R93, R312, R333). -/
def Mach.drainedGroup (m : Mach) (c : Nat) (g : Gid) : Bool :=
  let k := m.core c
  k.ops.isEmpty && k.posted.isEmpty && k.later.isEmpty &&
    m.channels.all (fun ch => ch.sends.all fun p => decide (p.group ≠ some g)) &&
    m.waybills.all fun w => w.completed || decide (w.state = .cancelled) ||
      (match w.issuer with | some (x, _, _) => decide (x ≠ g) | none => true)

/-- What the rack, the rings and the waybills forget of a group that has ended. -/
def Mach.forgetGroup (m : Mach) (g : Gid) (ctx : BitVec 6) : Mach :=
  let m := (m.setGroup g .ended).releaseKeys g ctx
  let m := m.endRings g
  { m with waybills := m.waybills.map fun w =>
      match w.issuer with | some (x, _, _) => if x = g then { w with gone := true } else w | none => w }

/-- The used save slots of a context changed. -/
def Mach.onSlots (m : Mach) (ctx : BitVec 6) (f : List Nat → List Nat) : Mach :=
  match SMap.get? m.contexts ctx.toNat with
  | none => m
  | some x => { m with contexts := SMap.set m.contexts ctx.toNat { x with usedSlots := f x.usedSlots } }

/-- DRAINING_END: a save slot that a pre-emption of the group had taken is free again, since the group has ended instead (R383). -/
def drainingEnd (c : Nat) (m : Mach) : Mach :=
  match (m.core c).group with
  | none => m
  | some g =>
    if g.draining && m.drainedGroup c g.gid then
      let m := m.leaveLease c
      let m := match g.preempt with | some (slot, _) => m.onSlots g.ctx fun l => l.filter fun x => decide (x ≠ slot) | none => m
      let m := (m.onCore c fun k => { k.vacate g.gid with ended := true }).forgetGroup g.gid g.ctx
      m.settleStreams
    else m

/-! ### Meanings -/

/-- Whether a core stands between two of its cycles, so that what is placed there starts its four sequencers in one cycle
(R95, R382). -/
def State.between (s : State) (c : Nat) : Bool := decide (s.cur ≠ c) || decide (s.phase = .st)

/-- GROUP_PLACEMENT (R349): between two cycles of the core. -/
def execGroupPlacement (c : Nat) (s : State) : Host.Outcome State Fault Refusal :=
  .next (if s.between c then { s with mach := groupPlacement s.trust c s.mach } else s)
/-- KERNEL_IMAGE_LOAD (R359). -/
def execKernelImageLoad (c : Nat) (noise : List (Nat × Nat × Byte)) (s : State) : Host.Outcome State Fault Refusal :=
  .next { s with mach := kernelImageLoad s.trust c noise s.mach }
/-- DRAINING_END (R93). -/
def execDrainingEnd (c : Nat) (s : State) : Host.Outcome State Fault Refusal :=
  .next { s with mach := drainingEnd c s.mach }

end Sys2Proof.Machine
end

