-- ==== Sys2Proof/Machine/Request.lean ====
section
/-! DEFINITION. The request queues, admission, the firing and finishing of nodes, and the end of a request (R335 to R345). -/

namespace Sys2Proof.Machine

/-! ### The queues (R335 to R338) -/

/-- The records of a level. -/
def Mach.level (m : Mach) (p : Nat) : List QRecord := SMap.getD m.levels p []
/-- A level replaced. -/
def Mach.setLevel (m : Mach) (p : Nat) (l : List QRecord) : Mach := { m with levels := SMap.put [] m.levels p l }

/-- What an aligned 64-bit read of the queue window gives (R335). -/
def Mach.queueRead (m : Mach) (off : Nat) : Word :=
  if off < 0x40 then BitVec.ofNat 64 ((SMap.getD m.refused (off / 8) 0).toNat * 2 ^ 16 + (m.level (off / 8)).length)
  else if off = 0x40 then m.saturation.setWidth 64
  else if off = 0x48 then m.malformed.setWidth 64
  else 0

/-- Why a record is refused, as LNCH.req names it: its fields, or a full level (R337, R365). -/
def Mach.recordRefused (m : Mach) (func : Nat) (w : List Word) : Option Nat :=
  let owned : Bool := match SMap.get? m.contexts (rCtx w).toNat with | some c => decide (c.func.toNat = func) | none => false
  if wbits (wordAt w 0) 15 9 ≠ 0 ∨ wordAt w 7 ≠ 0 ∨ owned = false then some 4
  else if 4096 ≤ (m.level (rPrio w)).length then some 10
  else none

/-- A record is appended to its level. -/
def Mach.enqueue (m : Mach) (w : List Word) : Mach := m.setLevel (rPrio w) (m.level (rPrio w) ++ [⟨w, m.clockOf 0⟩])

/-- SUBMISSION_RECORD: a write to the queue window of a function. -/
def submissionRecord (func : BitVec 4) (off : Nat) (data : List Byte) (m : Mach) : Mach :=
  if 0x400 ≤ off ∧ off ≤ 0xFC0 ∧ off % 64 = 0 ∧ data.length = 64 then
    let w := wordsOf 8 data
    if (m.recordRefused func.toNat w).isSome then
      { m with refused := SMap.set m.refused (rPrio w) (SMap.getD m.refused (rPrio w) 0 + 1) }
    else m.enqueue w
  else if overlaps off data.length 0x400 0xC00 then { m with malformed := m.malformed + 1 }
  else m

/-- Whether a record has waited at its level past the aging limit (R338). -/
def Mach.aged (m : Mach) (r : QRecord) : Bool := decide (r.since + 1048576 ≤ m.clockOf 0)

/-- REQUEST_AGING: a record that has waited 1,048,576 cycles at a level above 1 moves to the tail of the next higher one, in
arrival order (R31) and not past the 4,096 records of a level (R23). -/
def requestAging (p i : Nat) (m : Mach) : Mach :=
  match (m.level p)[i]? with
  | none => m
  | some r =>
    if 1 < p ∧ p < 8 ∧ m.aged r = true ∧ ((m.level p).take i).any m.aged = false ∧ (m.level (p - 1)).length < 4096 then
      (m.setLevel p ((m.level p).eraseIdx i)).setLevel (p - 1) (m.level (p - 1) ++ [{ r with since := m.clockOf 0 }])
    else m

/-! ### The end of a request (R344, R360, R361) -/

/-- Completion statuses. -/
def rqDone : Nat := 0
def rqGraphbad : Nat := 1
def rqNodebad : Nat := 2
def rqHandfail : Nat := 3

/-- The completion record. -/
def completionRecord (w : List Word) (status : Nat) : List Byte :=
  leBytes 64 (rTag w * 2 ^ 48 + (rCtx w).toNat * 2 ^ 42 + status)

/-- Whether one suspended request resumes before another: by priority, then by choice. -/
def resumesBefore (a b : Request) : Bool := decide (a.level < b.level) || (decide (a.level = b.level) && decide (a.placedAt < b.placedAt))

/-- Suspended requests of a column take free slots of it again, at most n of them. -/
def Mach.resumeOn (m : Mach) (pool smax : Nat) : Nat → Mach
  | 0 => m
  | n + 1 =>
    if smax ≤ (m.pool pool).occupants.length then m
    else
      let next := (m.requests.filter fun r => r.suspended && !r.ended && decide (r.column = some pool)).foldl
        (fun (best : Option Request) r =>
          match best with | none => some r | some b => if resumesBefore r b then some r else best) none
      match next with
      | none => m
      | some r =>
        let m := m.onRequest r.rid fun r => { r with suspended := false }
        (m.onPool pool fun p => { p with occupants := p.occupants ++ [r.rid] }).resumeOn pool smax n

/-- A request leaves its column: o falls, and a suspended request may resume. -/
def Mach.leaveColumn (t : Trust) (m : Mach) (r : Nat) : Mach :=
  match (m.request r).bind Request.column with
  | none => m
  | some pool =>
    let m := m.onPool pool fun p =>
      { p with occupants := p.occupants.filter fun x => decide (x ≠ r), reserved := if p.reserved = some r then none else p.reserved }
    (m.onRequest r fun x => { x with column := none, suspended := false }).resumeOn pool t.smax m.requests.length

/-- The open channels of a request close one after another; false when one must wait. -/
def Mach.closeAll (t : Trust) (m : Mach) (r : Nat) : List Nat → Mach × Bool
  | [] => (m, true)
  | i :: l =>
    match (m.request r).bind fun x => x.chans.getD i none with
    | none => m.closeAll t r l
    | some ch =>
      match m.closeChannel t ch with
      | none => (m, false)
      | some m => (m.onRequest r fun x => { x with chans := setAt x.chans i none }).closeAll t r l

/-- A request ends with a status: its channels close, its streams lose its references, its completion record is written. While
a channel cannot close, the request is ending, and no node of it fires. -/
def endRequest (t : Trust) (r status : Nat) (m : Mach) : Mach :=
  match m.request r with
  | none => m
  | some x =>
    if x.ended then m
    else
      let st := x.ending.getD status
      let (m, all) := m.closeAll t r [0, 1, 2, 3]
      if !all then m.onRequest r fun x => { x with ending := some st }
      else
        let m := { m with
          streams := m.streams.map fun (s : Stream) => { s with refs := s.refs.filter fun y => decide (y ≠ r) }
          launches := m.launches.filter fun l => decide (l.req ≠ r) || l.issued }
        let cpl := (wordAt x.words 6).toNat
        let m := if cpl = 0 then m
          else { m with host := m.host.write (m.hostAt (rCtx x.words) cpl) (completionRecord x.words st) }
        let m := m.leaveColumn t r
        ((m.onRequest r fun x => { x with ended := true, ending := none }).settleStreams).dropEnded

/-- Whether a request still walks its graph. -/
def Request.walks (x : Request) : Bool := !x.ended && x.ending.isNone

/-! ### Nodes (R340, R343) -/

/-- The words of a node. -/
def nodeWords (t : Trust) (m : Mach) (x : Request) (n : Nat) : Except (Option Nat) (List Word) :=
  agentWords t m (rCtx x.words) (rGraph x.words + 64 + 32 * n) 4

/-- Fields of a node. -/
def nType (w : List Word) : Nat := wbits (wordAt w 0) 63 60
def nPred (w : List Word) : Nat := wbits (wordAt w 0) 59 48
def nA (w : List Word) : Nat := wbits (wordAt w 0) 47 0
/-- Successor i. -/
def nSucc (w : List Word) (i : Nat) : Nat := wbits (wordAt w 3) (16 * i + 15) (16 * i)
/-- The successors that are not 0xFFFF. -/
def nSuccs (w : List Word) : List Nat := ((List.range 4).map (nSucc w)).filter fun x => decide (x ≠ 0xFFFF)

/-- A node of a request changed. -/
def Mach.onNode (m : Mach) (r n : Nat) (f : NodeSt → NodeSt) : Mach :=
  m.onRequest r fun x =>
    match SMap.get? x.nodes n with
    | none => x
    | some y => { x with nodes := SMap.set x.nodes n (f y) }

/-- A node of a request. -/
def Mach.node (m : Mach) (r n : Nat) : Option NodeSt := (m.request r).bind fun x => SMap.get? x.nodes n

/-- One arrival counts: at 0 the node fires and the counter reloads. -/
def NodeSt.arrive (y : NodeSt) : NodeSt :=
  match y.run with
  | .idle => if y.counter ≤ 1 then { y with run := .due, counter := y.pred } else { y with counter := y.counter - 1 }
  | _ => { y with held := y.held + 1 }

/-- An arrival at a node; one at a node whose pred count is 0 makes that node malformed. -/
def arriveNode (t : Trust) (r n : Nat) (m : Mach) : Mach :=
  match m.request r, m.node r n with
  | some x, some y =>
    if !x.walks then m
    else if y.pred = 0 then endRequest t r rqNodebad m
    else m.onNode r n NodeSt.arrive
  | _, _ => m

/-- Held arrivals count, until the node fires again. -/
def NodeSt.release (y : NodeSt) : Nat → NodeSt
  | 0 => y
  | k + 1 => if y.run = .idle ∧ 0 < y.held then NodeSt.release (NodeSt.arrive { y with held := y.held - 1 }) k else y

/-- A node finishes: it can fire again, and its arrivals go to the successors selected. -/
def finishNode (t : Trust) (r n : Nat) (succs : List Nat) (m : Mach) : Mach :=
  match (m.request r).filter Request.walks with
  | none => m
  | some _ =>
    let m := m.onNode r n fun y => NodeSt.release { y with run := .idle } y.held
    succs.foldl (fun m s => arriveNode t r s m) m

/-- Whether the successors of a node lie in its graph. -/
def succsOk (x : Request) (w : List Word) : Bool := (nSuccs w).all fun s => (SMap.get? x.nodes s).isSome

/-- Whether a node whose pred count is 0 fires after another one that has still to fire: they fire in ascending order (R339). -/
def Request.after (x : Request) (n : Nat) (y : NodeSt) : Bool :=
  decide (y.pred = 0 ∧ y.run = .due) && x.nodes.any fun p => decide (p.1 < n ∧ p.2.pred = 0 ∧ p.2.run = .due)

/-- A node that has fired acts: one of its type does what the body says; one that is malformed ends its request. -/
def fireNode (t : Trust) (ty r n : Nat) (body : Request → NodeSt → List Word → Mach → Mach) (m : Mach) : Mach :=
  match (m.request r).filter Request.walks, m.node r n with
  | some x, some y =>
    if y.run = .idle ∨ x.after n y = true then m
    else
      match nodeWords t m x n with
      | .error none => endRequest t r rqNodebad m
      | .error (some a) => m.loseAgent true a (rCtx x.words) 0
      | .ok w =>
        if 9 ≤ nType w ∨ (nType w = ty ∧ succsOk x w = false) then endRequest t r rqNodebad m
        else if nType w = ty then body x y w m
        else m
  | _, _ => m

/-! ### Admission (R338, R339) -/

/-- The nodes of a graph of n nodes, from their words: a node whose pred count is 0 fires at once. -/
def nodesOf (ws : List Word) (n : Nat) : SMap NodeSt :=
  (List.range n).map fun i =>
    let p := wbits (wordAt ws (4 * i)) 59 48
    (i, { pred := p, counter := p, run := if p = 0 then .due else .idle, held := 0 })

/-- Whether a graph header's reserved bits are zero, its tag is the record's and its node count is in range. -/
def headerOk (w hd : List Word) : Bool :=
  decide (wbits (wordAt hd 0) 63 16 = 0 ∧ wordAt hd 5 = 0 ∧ wordAt hd 6 = 0 ∧ wordAt hd 7 = 0 ∧ rGraph w % 64 = 0 ∧
    wbits (wordAt hd 1) 31 0 = wbits (wordAt w 0) 63 32 ∧ wbits (wordAt hd 0) 15 0 ≠ 0)

/-- The graph of a record: its nodes, or why it has none. -/
def readGraph (t : Trust) (m : Mach) (w : List Word) : Except (Option Nat) (SMap NodeSt) :=
  match agentWords t m (rCtx w) (rGraph w) 8 with
  | .error e => .error e
  | .ok hd =>
    if !headerOk w hd then .error none
    else
      let n := wbits (wordAt hd 0) 15 0
      (agentWords t m (rCtx w) (rGraph w + 64) (4 * n)).map fun ws => nodesOf ws n

/-- A request as it is admitted. -/
def Request.admitted (rid level : Nat) (w : List Word) (nodes : SMap NodeSt) : Request where
  rid := rid
  words := w
  level := level
  nodes := nodes
  ending := none
  ended := false
  chans := [none, none, none, none]
  place := none
  column := none
  placedAt := 0
  hands := false
  handRun := none
  suspended := false
  streams := []

/-- The most requests that are admitted at once (R338). -/
def maxAdmitted : Nat := 16384

/-- REQUEST_ADMISSION: the head of the highest-priority level that is not empty. -/
def requestAdmission (t : Trust) (m : Mach) : Mach :=
  if maxAdmitted ≤ (m.requests.filter fun r => !r.ended).length then m
  else
    match (List.range 8).find? fun p => !(m.level p).isEmpty with
    | none => m
    | some p =>
      match m.level p with
      | [] => m
      | q :: rest =>
        let m := m.setLevel p rest
        let (rid, m) := m.fresh
        let add (nodes : SMap NodeSt) : Mach := { m with requests := m.requests ++ [Request.admitted rid p q.words nodes] }
        match readGraph t m q.words with
        | .ok nodes => add nodes
        | .error none => endRequest t rid rqGraphbad (add [])
        | .error (some a) => m.loseAgent true a (rCtx q.words) 0

/-! ### Meanings -/

/-- SUBMISSION_RECORD (R335). -/
def execSubmissionRecord (func : BitVec 4) (offset : Nat) (data : List Byte) (s : State) : Host.Outcome State Fault Refusal :=
  .next { s with mach := submissionRecord func offset data s.mach }
/-- REQUEST_ADMISSION (R338, R339). -/
def execRequestAdmission (s : State) : Host.Outcome State Fault Refusal :=
  .next { s with mach := requestAdmission s.trust s.mach }
/-- REQUEST_AGING (R338). -/
def execRequestAging (level index : Nat) (s : State) : Host.Outcome State Fault Refusal :=
  .next { s with mach := requestAging level index s.mach }

end Sys2Proof.Machine
end

