-- ==== Sys2Proof/Machine/Errors.lean ====
section
/-! DEFINITION. Error banks and ERRQ, errors and poison, core failures, the loss of a context, and the audit (R390 to R403). -/

namespace Sys2Proof.Machine

/-! ### ERRQ (R391, R402, R403) -/

/-- Word i of a bank. -/
def Bank.word (k : Bank) (i : Nat) : Word :=
  match i with
  | 0 => Bank.word0 k.valid k.uc k.ovr k.cons k.seq k.info.ctx k.info.tile
  | 1 => k.info.addr
  | 2 => BitVec.ofNat 64 (k.info.bits.toNat * 2 ^ 32 + k.info.syndrome.toNat)
  | 3 => BitVec.ofNat 64 (k.ccount.toNat * 2 ^ 32 + k.lost.toNat * 2 ^ 16)
  | _ => 0

/-- A bank after a clear: only seq stays. -/
def Bank.cleared (k : Bank) : Bank := { Bank.reset with seq := k.seq }

/-- The result word of ERRQ.clr: the counts cleared and the code. -/
def Bank.clearWord (k : Bank) (seq : Nat) : Word :=
  if k.seq.toNat = seq then k.word 3 else stWord stWrongstate

/-- Whether srcA names a die and, where the form has one, a bank. -/
def errqSrcOk (w : Word) (bank : Bool) : Bool :=
  decide (wbits w 11 8 ≤ 5 ∧ wbits w 63 12 = 0 ∧ wbits w 7 3 = 0) && (bank || decide (wbits w 2 0 = 0))

/-- The audit resets of the links of a die (R401). -/
def Mach.auditResets (m : Mach) (die : Nat) : Nat :=
  m.links.foldl (fun n p => if p.1 / 2 ^ 16 = die then n + p.2.resets else n) 0

/-- One bit of each bank of a die, bit b for bank b. -/
def Mach.bankBits (m : Mach) (die : Nat) (f : Bank → Bool) : Nat :=
  (List.range 8).foldl (fun n b => if f (m.bank die b) then n + 2 ^ b else n) 0

/-- ERRQ.sum's word. -/
def Mach.errorSummary (m : Mach) (die : Nat) : Word :=
  BitVec.ofNat 64 (m.auditResets die % 2 ^ 32 * 2 ^ 32 + m.bankBits die Bank.ovr * 2 ^ 16 + m.bankBits die Bank.uc * 2 ^ 8 +
    m.bankBits die Bank.valid)

/-- ERRQ.rd. -/
def errqRdBody (d : Dst) (a b : Src) (e : Env) (m : Mach) : Chk Mach := do
  let (w, i, m) ← e.src2 m a b
  let (l, m) ← e.dst m d .pending
  must (errqSrcOk w true && decide (i.toNat ≤ 3)) (e.trapWord tFmtrsv)
  let die := wbits w 11 8
  .ok (e.startValues m [l.put (if e.trust.isLive die then (m.bank die (wbits w 2 0)).word i.toNat else 0)] 0 [])

/-- ERRQ.clr. -/
def errqClrBody (d : Dst) (a b : Src) (e : Env) (m : Mach) : Chk Mach := do
  let (w, v, m) ← e.src2 m a b
  let (l, m) ← e.dst m d .pending
  must (errqSrcOk w true && decide (v.toNat ≤ 255)) (e.trapWord tFmtrsv)
  let die := wbits w 11 8
  if !e.trust.isLive die then .ok (e.status m l stNotarget [])
  else
    let k := m.bank die (wbits w 2 0)
    let at_ := 8 * die + wbits w 2 0
    let m := if k.seq.toNat = v.toNat then { m with banks := SMap.set m.banks at_ k.cleared, cycleErrs := SMap.erase m.cycleErrs at_ } else m
    .ok (e.startValues m [l.put (k.clearWord v.toNat)] 0 [])

/-- ERRQ.sum; `zero` says that srcB is the zero that the form asks for. -/
def errqSumBody (zero : Bool) (d : Dst) (a : Src) (e : Env) (m : Mach) : Chk Mach := do
  let (w, m) ← e.src m a
  let (l, m) ← e.dst m d .pending
  must (zero && errqSrcOk w false) (e.trapWord tFmtrsv)
  let die := wbits w 11 8
  .ok (e.startValues m [l.put (if e.trust.isLive die then m.errorSummary die else 0)] 0 [])

/-! ### Errors (R394 to R396) -/

/-- A corrected error reaches its bank, and changes nothing else. -/
def correctedError (t : Trust) (die bank : Nat) (i : ErrInfo) (m : Mach) : Mach :=
  if t.isLive die && decide (bank < 8) then m.bankError die bank false false i else m

/-- A queue slot that holds a value is poisoned (R395; log 139). -/
def QSlot.spoil {α : Type} (x : QSlot α) : QSlot α :=
  match x.entry with | .present _ => { x with entry := .poisoned } | _ => x
/-- The slot at a position spoiled. -/
def spoilAt {α : Type} (l : List (QSlot α)) (i : Nat) : List (QSlot α) :=
  match l[i]? with | some x => l.set i x.spoil | none => l

/-- The words of a core that an error of bank 1 poisons, by the form of its address (R390; log 139): of a plane, a queue slot, a
posted-write entry, a staged line, else of local SRAM. -/
def Core.poisonAt (k : Core) (q : SeqId) (w : Word) : Core :=
  if wbit w 63 then
    let p := SMap.getD k.active (seqIndex q) ⟨[], [], 0, none⟩
    { k with active := SMap.set k.active (seqIndex q) { p with poison := poisonAdd p.poison (wbits w 14 0 / 8) } }
  else if wbit w 62 then
    let n : BitVec 4 := w.extractLsb' 4 4
    if wbit w 8 then k.setV n (spoilAt (k.vslots n) (wbits w 3 0))
    else k.onSeq q fun s => s.setX n (spoilAt (s.xslots n) (wbits w 3 0))
  else if wbit w 61 then
    { k with posted := k.posted.zipIdx.map fun x => if x.2 = wbits w 60 0 then { x.1 with bad := true } else x.1 }
  else if wbit w 60 then
    let a := wbits w 58 0
    { k with lines := k.lines.map fun (l : Line) =>
        if l.dev = wbit w 59 ∧ l.base = a / 512 * 512 then { l with poison := poisonAdd l.poison (a % 512 / 8) } else l }
  else { k with localPoison := poisonAdd k.localPoison (w.toNat / 8) }

/-- The words of global SRAM in a code word: 8 bytes, or 32 while the slice is in retention (R138). -/
def Mach.codeWord (m : Mach) (a : Nat) : List Nat :=
  if (m.retainedSlice a).isSome then (List.range 4).map fun i => a / 32 * 4 + i else [a / 8]

/-- The words that an uncorrectable error poisons. An entry of an accumulator bank is named by a bank in address bit 19, its row
in 18:10 and its column in 9:0 (log 139). -/
def Mach.poisonAt (t : Trust) (m : Mach) (die bank : Nat) (i : ErrInfo) : Mach :=
  let w := i.addr.toNat / 8
  match bank with
  | 0 => { m with globalPoison := (m.codeWord i.addr.toNat).foldl poisonAdd m.globalPoison }
  | 1 =>
    match t.coreKey die i.tile.toNat with
    | none => m
    | some c => m.onCore c fun k => k.poisonAt (seqOfIndex i.seq) i.addr
  | 2 => { m with dramPoison := poisonAdd m.dramPoison w }
  | 4 =>
    match t.coreKey die i.tile.toNat with
    | none => m
    | some c => m.onArray (clusterOf c) fun a => { a with bad := poisonAdd a.bad (wbits i.addr 19 0) }
  | _ => m

/-- The region of a rack entry of a die: a region's own entry, then one for each of its shares. -/
def rackEntry (die : Nat) : List Region → Nat → Option Region
  | [], _ => none
  | r :: l, n =>
    if r.home ≠ die then rackEntry die l n
    else if n < 1 + r.key.shares.length then some r
    else rackEntry die l (n - (1 + r.key.shares.length))

/-- A key that nobody holds any more: LOST (R147). -/
def Key.gone : Key := ⟨.lost, .none, [], [], none, []⟩

/-- The region whose rack entry an error of bank 3 meets: the report's sequencer field names the structure, 0 the rack (R390
gives the entry index alone; log 139). -/
def Mach.rackHit (m : Mach) (die bank : Nat) (i : ErrInfo) : Option Region :=
  if bank = 3 ∧ i.seq = 0 then rackEntry die m.regions i.addr.toNat else none

/-- An uncorrectable error: its words are poisoned, and it is recorded unless a read is the first to find it, which then records it
as consumed; in a structure that holds state of a context it is consumed at once, and the key of a rack entry is LOST: the context is
the one that owns the key (R147, R395, R396). -/
def uncorrectableError (t : Trust) (die bank : Nat) (f : ErrFind) (m : Mach) : Mach :=
  let i := f.info
  if !(t.isLive die && decide (bank < 8)) then m
  else
    match m.rackHit die bank i with
    | some r => (m.setKey r.rid .gone).consume die bank { i with ctx := some r.ctx } r.ctx die 0x3F 0
    | none =>
      match i.ctx.filter fun _ => decide (bank = 3 ∨ bank = 6) with
      | some ctx => m.consume die bank i ctx die 0x3F 0
      | none =>
        let m := m.poisonAt t die bank i
        if f.byRead && decide (bank ≤ 2 ∨ bank = 4) then m else m.bankError die bank true false i

/-! ### A core fails (R147, R397) -/

/-- Whether a failing core takes a key with it: its group holds it or a share of it, or is passing it. -/
def keyFails (k : Core) (g : Gid) (r : Region) : Bool :=
  decide (r.key.holder = .group g) || decide (r.key.splitter = some g) || (r.key.shares.any fun s => decide (s.holder = .group g)) ||
    k.passing r.rid

/-- COREFAIL: the keys of its group are LOST, the contexts concerned are to be lost, and its sequencers stop; a core without
a group is reset in place. -/
def coreFail (t : Trust) (c : Nat) (m : Mach) : Mach :=
  if !(t.isLive (dieOf c) && (t.mask (dieOf c)).getLsbD (physOf c)) then m
  else
    let k := m.core c
    match k.group with
    | none => m.setCore c .reset
    | some g =>
      let lost := m.regions.filter fun r => keyFails k g.gid r
      let core := t.logical (dieOf c) (physOf c)
      let m := lost.foldl (fun m r => m.setKey r.rid .gone) m
      let m := m.onCore c fun k =>
        let k := k.onSeqs fun s => { s with stopped := true }
        { k with
          failed := true
          ops := k.ops.filter fun o => match o.kind with | .lend .. => false | .retn .. => false | _ => true }
      ((g.ctx :: lost.map Region.ctx).eraseDups).foldl (fun m x => m.notify
        { ctx := x, reason := 3, trap := 0, die := dieOf c, core := core, seq := 0, addr := 0, event := plainEvent x core }) m

/-! ### The loss of a context (R398 to R400, R447) -/

/-- The copies of a core stop at a run boundary: the run that an engine is writing is written whole (R398). -/
def Mach.stopCopies (t : Trust) (m : Mach) (c : Nat) : Mach :=
  let mid (o : Op) : Bool := match o.kind with | .cpy x => x.buf.isSome && decide (0 < x.done) | _ => false
  ((m.core c).ops.filter mid).foldl (fun m o => (copyStep t c o.id true m).getD m) m

/-- A key in TRANSIT is a group's again, with its lenders. -/
def Mach.backTo (m : Mach) (g : Gid) (rid : Nat) : Mach :=
  m.onRegion rid fun r =>
    if r.key.state = .transit then { r with key := { r.key with state := .excl, holder := .group g } } else r

/-- What an operation of an evicted group was passing or holding is the group's again, which then gives it up: the key of a LEND or
RETN, a share of another package's region, the regions of a CWLD's engine (R146, R398). -/
def Mach.cutPass (g : Gid) (m : Mach) (k : OpKind) : Mach :=
  match k with
  | .lend rid .excl _ _ => m.backTo g rid
  | .retn rid .excl => m.backTo g rid
  | .remoteRetn p _ base size _ _ dest =>
    { m with remoteShares := m.remoteShares ++ [(p, base, size, g, (dest.map Prod.snd).getD .read)] }
  | .cwld _ rids (some _) => rids.foldl (fun m rid => m.backTo g rid) m
  | _ => m
/-- All that the operations of an evicted group were passing or holding. -/
def Mach.cutPasses (m : Mach) (g : Gid) (ops : List Op) : Mach := (ops.map Op.kind).foldl (Mach.cutPass g) m

/-- The group on a core is evicted: its copies stop at a run boundary, its lease ends with zeroing, and the core is unoccupied,
a failed one reset in place. -/
def evictCore (t : Trust) (c : Nat) (m : Mach) : Mach :=
  match (m.core c).group with
  | none => m
  | some g =>
    let key := clusterOf c
    let held : Bool := match (m.array key).lease with
      | .held x => decide (x = c)
      | .ending x => decide (x = c)
      | _ => false
    let m := (m.stopCopies t c).cutPasses g.gid (m.core c).ops
    let m := if held then (m.endHolding key c false).onArray key Array_.zero else m
    m.onCore c fun k => if k.failed then .reset else { k.vacate g.gid with ended := true }

/-- The pages of 64 KiB of a context's device memory. -/
def Context.pageList (x : Context) : List Nat := x.pages.flatMap fun p => (List.range (p.2 / 65536)).map fun i => p.1 + 65536 * i

/-- The pages of a context, those of its tables among them, that hold poison. -/
def Mach.badPages (m : Mach) (ctx : BitVec 6) : List Nat :=
  match SMap.get? m.contexts ctx.toNat with
  | none => []
  | some x => (x.pageList ++ x.tables).filter fun a => (poisonIn m.dramPoison a 65536).isSome

/-- Parts of DRAM are zeroed, but where they lie in a page that is retired. -/
def Mach.zeroParts (m : Mach) (bad : List Nat) (l : List (Nat × Nat)) : Mach :=
  l.foldl (fun m p => if bad.any fun a => decide (a = p.1 / 65536 * 65536) then m else m.zeroHome true p.1 p.2) m

/-- A region of a lost context is zeroed; its pages that are retired are not. Where a poisoned table word hides which pages are
the region's, every page of the context is zeroed (log 154). -/
def Mach.clearRegion (t : Trust) (m : Mach) (bad : List Nat) (r : Region) : Mach :=
  match r.space with
  | .glb => m.zeroHome false r.base r.size
  | .dev =>
    let all : List Nat := if (walkPoison t m r.ctx true r.base r.size).isNone then []
      else ((SMap.get? m.contexts r.ctx.toNat).map Context.pageList).getD []
    (m.zeroParts bad (mappedParts t m r.ctx r.base r.size)).zeroParts bad (all.map fun a => (a, 65536))
  | .blk => m

/-- The pools forget a context: its frames are zeroed and returned or retired, its reservations end. -/
def Mach.clearPools (m : Mach) (ctx : BitVec 6) : Mach :=
  m.pools.keys.foldl (fun m p =>
    let fs := (m.pool p).frames.filter fun f => decide (f.2.ctx = ctx)
    let m := fs.foldl (fun m f => m.freeFrame p f.1) m
    let resv := (m.seqs.filter fun s => decide (s.ctx = ctx ∧ shapePool s.shape = p)).foldl (fun n s => n + s.resv) 0
    m.onPool p fun q => { (q.setUse ctx 0) with rsv := q.rsv - resv }) m

/-- Retired frames of every pool. -/
def Mach.retiredCount (m : Mach) : Nat := m.pools.foldl (fun n p => n + p.2.retired.length) 0

/-- Groups of a context that are on a core or saved. -/
def Mach.groupsOf (m : Mach) (ctx : BitVec 6) : List Gid :=
  (m.launches.filter fun l => decide (l.ctx = ctx)).flatMap fun l =>
    (l.groups.filter fun g => match g.2.2 with | .placed => true | .saved _ => true | _ => false).map fun g => ⟨l.num, g.1⟩

/-- Channels of a context break, and those without another context's end here go; an end in another package breaks as the loss
is heard there (R313). -/
def Mach.breakChannels (m : Mach) (ctx : BitVec 6) : Mach :=
  let mine (ch : Channel) : Bool := [ch.attEnd, ch.ffEnd].any fun x => x.pkg.isNone && decide (x.ctx = ctx)
  let other (ch : Channel) : Bool := [ch.attEnd, ch.ffEnd].any fun x => x.pkg.isNone && decide (x.ctx ≠ ctx)
  let nums := (m.channels.filter fun ch => mine ch && !ch.closed).map Channel.num
  let m := nums.foldl (fun m n => m.breakChannel n false) m
  { m with channels := m.channels.filter fun ch => !(mine ch && !other ch) }

/-- What a teardown counts: groups evicted, requests removed, frames retired. -/
structure Torn where
  groups : Nat
  reqs : Nat
  retired : Nat
deriving DecidableEq, Repr

/-- Steps 1 to 6 of R398: every trace of a context's work is removed. -/
def teardown (t : Trust) (ctx : BitVec 6) (m : Mach) : Torn × Mach :=
  let gids := m.groupsOf ctx
  let all := (m.launches.filter fun l => decide (l.ctx = ctx)).flatMap fun l => l.groups.map fun g => (⟨l.num, g.1⟩ : Gid)
  let m := (m.cores.keys.filter fun c => (m.core c).occupied && decide ((m.core c).ctx = ctx)).foldl (fun m c => evictCore t c m) m
  let m := m.breakChannels ctx
  let m := (m.saved.filter fun s => decide (s.ctx = ctx)).foldl (fun m s => m.cutPasses s.group.gid s.image.ops) m
  let m := { m with
    waybills := m.waybills.filter fun w => decide (w.ctx ≠ ctx)
    saved := m.saved.filter fun s => decide (s.ctx ≠ ctx) }
  let mine (r : Request) : Bool := decide (rCtx r.words = ctx)
  let queued := m.levels.foldl (fun n p => n + (p.2.filter fun q => decide (rCtx q.words = ctx)).length) 0
  let reqs := queued + (m.requests.filter fun r => mine r && !r.ended).length
  let m := (m.requests.filter mine).foldl (fun m r => m.leaveColumn t r.rid) m
  let m := all.foldl (fun m g => m.setGroup g .ended) m
  let m := all.foldl (fun m g => m.forgetGroup g ctx) m
  let stay (q : QRecord) : Bool := decide (rCtx q.words ≠ ctx)
  let levels : SMap (List QRecord) := m.levels.map fun p => (p.1, p.2.filter stay)
  let m := { m with
    levels := levels.filter fun p => !p.2.isEmpty
    requests := m.requests.filter fun r => !mine r
    launches := m.launches.filter fun l => decide (l.ctx ≠ ctx)
    streams := m.streams.filter fun s => decide (s.ctx ≠ ctx) }
  let bad := m.badPages ctx
  let before := m.retiredCount
  let own := m.regions.filter fun r => decide (r.ctx = ctx)
  let m := own.foldl (fun m r => m.clearRegion t bad r) m
  let m := m.clearPools ctx
  let isOwn (n : Nat) : Bool := own.any fun r => decide (r.rid = n)
  let m := { m with
    regions := m.regions.filter fun r => decide (r.ctx ≠ ctx)
    seqs := m.seqs.filter fun s => decide (s.ctx ≠ ctx)
    cores := SMap.mapVals (fun _ (k : Core) => { k with view := k.view.filter fun h => !isOwn h.rid }) m.cores
    retiredPages := m.retiredPages ++ bad
    admitted := m.admitted.filter fun a => decide (a.who.ctx ≠ ctx)
    collectives := SMap.mapVals (fun _ (x : Collective) =>
      if x.ctx = ctx then { x with live := x.live.filter fun p => decide (p ≠ t.package) } else x) m.collectives
    outbox := m.outbox ++ [Sent.lossNotice ctx] }
  (⟨gids.length, reqs, bad.length + (m.retiredCount - before)⟩, { m with contexts := SMap.erase m.contexts ctx.toNat })

/-- The context-lost record. -/
def lossRecord (n : Notice) (x : Torn) : List Word :=
  [BitVec.ofNat 64 (n.ctx.toNat * 2 ^ 42 + n.die % 16 * 2 ^ 38 + n.core % 64 * 2 ^ 32 + n.seq % 4 * 2 ^ 30 + n.trap % 256 * 2 ^ 8 +
      n.reason % 256), n.addr, n.event, BitVec.ofNat 64 (x.groups % 2 ^ 32 * 2 ^ 32 + x.reqs % 2 ^ 32), BitVec.ofNat 64 (x.retired % 2 ^ 32),
    0, 0, 0]

/-- CONTEXT_LOSS: the loss controller takes the first notice; one of a context that is not created changes nothing. -/
def contextLoss (s : State) : State :=
  match s.mach.notices with
  | [] => s
  | n :: rest =>
    match SMap.get? s.mach.contexts n.ctx.toNat with
    | none => { s with mach := { s.mach with notices := rest } }
    | some x =>
      let (torn, m) := teardown s.trust n.ctx { s.mach with notices := rest }
      { s with
        mach := { m with
          notices := m.notices.filter fun y => decide (y.ctx ≠ n.ctx)
          host := m.host.hostWrite (x.func.toNat * 2 ^ 64) x.lossAddr.toNat (wordsBytes (lossRecord n torn)) }
        trust := { s.trust with xtsKeys := SMap.erase s.trust.xtsKeys n.ctx.toNat } }

/-! ### The audit (R401) and the host link (R423) -/

/-- Cycles between two audits of a link. -/
def auditPeriod : Nat := 160000000

/-- The links that a die audits as their lower-numbered end (R12, R401): those of its mesh, whose number the spec does not give,
and its UCIe links, link d the one to die d (log 143). -/
def auditedLink (die kind link : Nat) : Bool :=
  if kind = 0 then decide (link < 256) else allLinks.any fun l => decide (l = (die, link))

/-- SNAGGING_AUDIT: a link whose last audit found a difference is reset; else a difference is recorded. -/
def snaggingAudit (t : Trust) (die kind link : Nat) (diff : Int) (m : Mach) : Mach :=
  let key := die * 2 ^ 16 + kind * 2 ^ 8 + link
  let l := SMap.getD m.links key ⟨0, 0, 0⟩
  if !(t.isLive die && decide (kind ≤ 1) && auditedLink die kind link && decide (l.since + auditPeriod ≤ m.clockOf die)) then m
  else if l.diff ≠ 0 then { m with links := SMap.set m.links key ⟨0, l.resets + 1, m.clockOf die⟩ }
  else
    let m := { m with links := SMap.set m.links key ⟨diff, l.resets, m.clockOf die⟩ }
    if diff = 0 then m
    else m.bankError die 5 false false ⟨BitVec.ofNat 64 (kind * 2 ^ 8 + link), 0, none, 0x3F, 0, BitVec.ofInt 32 diff⟩

/-- The host aborts a read of an operation: poisoned data is consumed, and the operation ends. -/
def hostReadAbort (t : Trust) (c o : Nat) (m : Mach) : Mach :=
  match m.engineOp c o with
  | none => m
  | some (op, g) =>
    let reads : Bool := match op.kind with
      | .cpy x => decide (x.ssp = 4) && x.begun && x.buf.isNone
      | .cwld w _ (some _) => decide (wSsp w = 4)
      | _ => false
    if reads then
      let ctx := m.engineCtx c g
      (m.dropEngineOp c g o).consume 0 7 ⟨BitVec.ofNat 64 (Config.port 1024), 0, some ctx, 0x3F, 0, 0⟩ ctx (dieOf c)
        (t.logical (dieOf c) (physOf c)) (seqIndex op.seq)
    else m

/-! ### Meanings -/

/-- ERRQ.rd (R402). -/
def execErrqRd (t : Tok) (d : Dst) (a b : Src) (s : State) : Host.Outcome State Fault Refusal :=
  attemptNext (.errqRd t d a b) (errqRdBody d a b) s
/-- ERRQ.clr (R402). -/
def execErrqClr (t : Tok) (d : Dst) (a b : Src) (s : State) : Host.Outcome State Fault Refusal :=
  attemptNext (.errqClr t d a b) (errqClrBody d a b) s
/-- ERRQ.sum (R402). -/
def execErrqSum (t : Tok) (d : Dst) (a : Src) (s : State) : Host.Outcome State Fault Refusal :=
  attemptNext (.errqSum t d a) (errqSumBody true d a) s
/-- CORRECTED_ERROR (R394). -/
def execCorrectedError (die bank : Nat) (e : ErrInfo) (s : State) : Host.Outcome State Fault Refusal :=
  .next { s with mach := correctedError s.trust die bank e s.mach }
/-- UNCORRECTABLE_ERROR (R395, R396). -/
def execUncorrectableError (die bank : Nat) (e : ErrFind) (s : State) : Host.Outcome State Fault Refusal :=
  .next { s with mach := uncorrectableError s.trust die bank e s.mach }
/-- COREFAIL (R147). -/
def execCorefail (c : Nat) (s : State) : Host.Outcome State Fault Refusal := .next { s with mach := coreFail s.trust c s.mach }
/-- CONTEXT_LOSS (R397, R398). -/
def execContextLoss (s : State) : Host.Outcome State Fault Refusal := .next (contextLoss s)
/-- SNAGGING_AUDIT (R401). -/
def execSnaggingAudit (die kind link : Nat) (diff : Int) (s : State) : Host.Outcome State Fault Refusal :=
  .next { s with mach := snaggingAudit s.trust die kind link diff s.mach }
/-- HOST_READ_ABORT (R423). -/
def execHostReadAbort (c o : Nat) (s : State) : Host.Outcome State Fault Refusal :=
  .next { s with mach := hostReadAbort s.trust c o s.mach }

end Sys2Proof.Machine
end

