-- ==== Sys2Proof/Machine/Setup.lean ====
section
/-! DEFINITION. Kernel descriptors, the set-up of a kernel, and KERN nodes (R346, R347, R352, R354 to R358). -/

namespace Sys2Proof.Machine

/-! ### Regions as a set-up or a node makes them (R140) -/

/-- How a step of a set-up ends: it failed, it waits, it consumed poison, or it is done. -/
inductive Did where
  | bad
  | wait (m : Mach)
  | lost (m : Mach)
  | done (m : Mach)

/-- Whether a range is a region's range of its space (R140). -/
def rangeOk (t : Trust) (sp : Space) (base size : Nat) : Bool :=
  match sp with
  | .glb => decide (0 < size ∧ base % 4096 = 0 ∧ size % 4096 = 0 ∧ base / 2 ^ 22 = (base + size - 1) / 2 ^ 22) &&
      t.globalOk base && t.globalOk (base + size - 1)
  | .dev => decide (0 < size ∧ base % 65536 = 0 ∧ size % 65536 = 0 ∧ base + size ≤ 2 ^ 57)
  | .blk => false

/-- The region of a context with exactly a range. -/
def Mach.exactRegion (m : Mach) (sp : Space) (ctx : BitVec 6) (base size : Nat) : Option Region :=
  m.regions.find? fun r => decide (r.space = sp ∧ r.ctx = ctx ∧ r.base = base ∧ r.size = size)

/-- Whether a range meets a region of its space: in the global space, of any context. -/
def Mach.meetsRegion (m : Mach) (sp : Space) (ctx : BitVec 6) (base size : Nat) : Bool :=
  m.regions.any fun r => decide (r.space = sp) && (decide (sp = .glb) || decide (r.ctx = ctx)) && overlaps r.base r.size base size

/-- A region is added. -/
def Mach.addRegion (m : Mach) (ctx : BitVec 6) (sp : Space) (base size home : Nat) (key : Key) (ring : Option Ring) : Nat × Mach :=
  let (rid, m) := m.fresh
  (rid, { m with regions := m.regions ++ [⟨rid, ctx, sp, base, size, home, key, ring⟩] })

/-! ### The descriptor (R346, R354) -/

/-- The loop-table levels of a header. -/
def kLevels (hd : List Word) : List TabLevel :=
  (List.range (wbits (wordAt hd 0) 7 4)).map fun i => ⟨wbits (wordAt hd (1 + i)) 63 62, wbits (wordAt hd (1 + i)) 31 0, 0⟩
/-- The image lengths. -/
def kLens (hd : List Word) : List Nat := (List.range 4).map fun i => wbits (wordAt hd (7 + i)) 15 0
/-- The content hash. -/
def kHash (hd : List Word) : BitVec 256 :=
  BitVec.ofNat 256 ((List.range 4).foldl (fun n i => n + (wordAt hd (11 + i)).toNat * 2 ^ (64 * i)) 0)
def kClass (hd : List Word) : Bool := wbit (wordAt hd 0) 0
def kSetup (hd : List Word) : Nat := wbits (wordAt hd 15) 47 16
def kCount (hd : List Word) : Nat := wbits (wordAt hd 15) 15 0
/-- The end of the last image. -/
def kEnd (hd : List Word) : Nat := (imageStarts 128 (kLens hd)).getD 3 0 + (kLens hd).getD 3 0

/-- Whether a header keeps the table of R346. -/
def kernelOk (hd : List Word) : Bool :=
  let n := wbits (wordAt hd 0) 7 4
  decide (wbits (wordAt hd 0) 63 8 = 0 ∧ wbits (wordAt hd 0) 3 1 = 0 ∧ n ≤ 6) &&
    ((List.range 6).all fun i =>
      let w := wordAt hd (1 + i)
      if i < n then decide (wbits w 63 62 ≠ 3 ∧ wbits w 61 32 = 0 ∧ wbits w 31 0 ≠ 0) else decide (w = 0)) &&
    ((List.range 4).all fun i =>
      let w := wordAt hd (7 + i)
      decide (wbits w 31 16 = 0 ∧ wbits w 15 0 % 64 = 0 ∧ wbits w 15 0 ≤ 32768)) &&
    decide (groupCount (kLevels hd) ≤ 2 ^ 24) && decide (wbits (wordAt hd 15) 63 48 = 0 ∧ kSetup hd % 64 = 0 ∧ kCount hd ≤ 4096) &&
    (if kSetup hd = 0 then decide (kCount hd = 0) else decide (kEnd hd ≤ kSetup hd))

/-- The byte ranges of a descriptor that its entries name: those of local and device data (R354, R355). -/
def kNamed (es : List (List Word)) : List (Nat × Nat) :=
  (es.filter fun w => decide (eKind w = 2 ∨ eKind w = 3)).map fun w => ((wordAt w 3).toNat, (wordAt w 2).toNat)
/-- The end of a descriptor's header, images and set-up table. -/
def kTableEnd (hd : List Word) : Nat := max (max 128 (kEnd hd)) (if kSetup hd = 0 then 0 else kSetup hd + 32 * kCount hd)
/-- The bytes of a descriptor's extent: up to the last one that its header, an image or an entry names (R354). -/
def kExtent (hd : List Word) (es : List (List Word)) : Nat := (kNamed es).foldl (fun n x => max n (x.1 + x.2)) (kTableEnd hd)
/-- Whether the bytes that entries name follow the table (R354). -/
def kFollows (hd : List Word) (es : List (List Word)) : Bool :=
  (kNamed es).all fun x => decide (kSetup hd + 32 * kCount hd ≤ x.1)
/-- Whether words 11 to 14 are the SHA-256 of the extent with those words zero (R346, R444). -/
def kHashOk (hd : List Word) (bs : List Byte) : Bool :=
  decide (sha256 (bs.take 88 ++ List.replicate 32 0 ++ bs.drop 120) = kHash hd)

/-- Whether the CRC fields of words 7 to 10 are those of the plane images, each image followed by zeros (R346, R359). -/
def kCrcOk (hd : List Word) (bs : List Byte) : Bool :=
  ((kLens hd).zip (imageStarts 128 (kLens hd))).zipIdx.all fun x =>
    crcOk [] x.2 ((bs.drop x.1.2).take x.1.1) (wbits (wordAt hd (7 + x.2)) 63 32)

/-- Whether a range of device memory is mapped. -/
def mapped (t : Trust) (m : Mach) (ctx : BitVec 6) (a n : Nat) : Bool := (piecesFrom t m ctx true (n / 65536 + 2) 0 a n).isSome

/-! ### Entries (R355) -/

/-- Fields of a set-up entry. -/
def eState (w : List Word) : Nat := wbits (wordAt w 0) 59 57
def eShares (w : List Word) : Nat := wbits (wordAt w 0) 55 50
def eDisp (w : List Word) : Nat := wbits (wordAt w 0) 49 48
def eTicket (w : List Word) : BitVec 16 := (wordAt w 0).extractLsb' 32 16
def eGroup (w : List Word) : Nat := wbits (wordAt w 0) 23 0
def eAux (w : List Word) : Nat := (wordAt w 3).toNat
def eAddr (w : List Word) : Nat := (wordAt w 1).toNat
/-- The space of a region or ring entry. -/
def eSpace (w : List Word) : Space := if eKind w = 0 ∧ wbit (wordAt w 0) 56 then .dev else .glb
/-- Slot count and slot size of a ring entry. -/
def eSlots (w : List Word) : Nat := wbits (wordAt w 2) 63 32
def eSlotSize (w : List Word) : Nat := wbits (wordAt w 2) 31 0
/-- Bytes of the region of an entry. -/
def eSize (w : List Word) : Nat := if eKind w = 1 then eSlots w * eSlotSize w else (wordAt w 2).toNat
/-- Whether an entry asks for shares. -/
def eSplit (w : List Word) : Bool := decide (eKind w = 0 ∧ (eState w = 2 ∨ eState w = 3))

/-- A power of two between two powers. -/
def powerIn (n lo hi : Nat) : Bool := (List.range (hi + 1)).any fun i => decide (lo ≤ i ∧ n = 2 ^ i)

/-- Whether an entry's fields are in order, for a kernel of g groups. -/
def entryOk (t : Trust) (g : Nat) (w : List Word) : Bool :=
  let k := eKind w
  let w0 := wordAt w 0
  decide (k ≤ 3 ∧ wbits w0 31 24 = 0 ∧ eGroup w < g) &&
    (if k = 0 then decide (eState w = 0 ∨ eState w = 1 ∨ eState w = 2 ∨ eState w = 3 ∨ eState w = 6)
      else decide (eState w = 0) && !wbit w0 56) &&
    (if eSplit w then decide (1 ≤ eShares w ∧ eDisp w ≠ 3) && (decide (eDisp w ≠ 0) || decide (eTicket w = 0))
      else decide (eShares w = 0 ∧ eDisp w = 0 ∧ eTicket w = 0)) &&
    (decide (k = 0 ∧ (eState w = 1 ∨ eState w = 2 ∨ eState w = 3)) || decide (eGroup w = 0)) &&
    (decide (2 ≤ k) || (eSplit w && decide (eDisp w = 2)) || decide (eAux w = 0)) &&
    match k with
    | 0 => decide (eAddr w ≠ 0) && rangeOk t (eSpace w) (eAddr w) (eSize w) && (decide (eDisp w ≠ 2) || decide (eSpace w = .glb))
    | 1 => decide (eAddr w ≠ 0) && powerIn (eSlots w) 1 15 && powerIn (eSlotSize w) 6 16 && rangeOk t .glb (eAddr w) (eSize w)
    | 2 => decide (eAddr w + (wordAt w 2).toNat ≤ 0x7FFC0)
    | _ => true

/-- The holder of a key that the set-up of a node holds (R356). -/
def setupKey (r n : Nat) : Key := ⟨.excl, .setup r n, [], [], none, []⟩

/-- A region or ring entry: its key is taken, or its region created; one that has waited takes a FREE key only (R356, 1). -/
def takeEntry (t : Trust) (r n : Nat) (ctx : BitVec 6) (waited : Bool) (w : List Word) (m : Mach) : Did :=
  let sp := eSpace w
  let base := eAddr w
  let size := eSize w
  match m.exactRegion sp ctx base size with
  | some x =>
    let take : Mach := m.onRegion x.rid fun x => { x with key := setupKey r n, ring := none }
    match x.key.state with
    | .free => .done take
    | .lost => .bad
    | .common => if waited = false ∧ eKind w = 0 ∧ eState w = 6 then .done m else .wait m
    | .ring =>
      match x.ring with
      | some g =>
        if waited = false ∧ eKind w = 1 ∧ g.relay = none ∧ g.slots = eSlots w ∧ g.size = eSlotSize w ∧ g.idle = true then .done take else .wait m
      | none => .wait m
    | _ => .wait m
  | none =>
    if m.meetsRegion sp ctx base size then .bad
    else
      match homeOf t m sp ctx base with
      | .error none => .bad
      | .error (some a) => .lost (m.loseAgent true a ctx 0)
      | .ok home =>
        if m.rackFree home < 1 then .bad
        else if sp = .glb ∧ (m.retainedSlice base).isSome then .wait (m.touchSlice base)
        else
          let m := if sp = .glb then (m.touchSlice base).zeroHome false base size else m
          .done (m.addRegion ctx sp base size home (setupKey r n) none).2

/-- A device data entry: its bytes are copied to their destination (R356, 2). -/
def dataEntry (t : Trust) (r n : Nat) (ctx : BitVec 6) (desc : Nat) (es : List (List Word)) (w : List Word) (m : Mach) : Did :=
  let a := eAddr w
  let len := (wordAt w 2).toNat
  let covered := es.any fun x => decide (eKind x = 0 ∧ eSpace x = .dev) && inside a len (eAddr x) (eSize x) &&
    match m.exactRegion .dev ctx (eAddr x) (eSize x) with
    | some y => decide (y.key.holder = .setup r n)
    | none => false
  if !covered then .bad
  else
    match agentRead t m ctx (desc + eAux w) len, piecesFrom t m ctx true (len / 65536 + 2) 0 a len with
    | .error (some x), _ => .lost (m.loseAgent true x ctx 0)
    | .ok bs, some ps =>
      let readOnly := (cuts 65536 a len).any fun c => match translate t m ctx c.1 with | .leaf _ wr _ => !wr | _ => true
      if readOnly then .bad
      else
        match ps.findSome? fun p => poisonPart m.dramPoison p.2.1 p.2.2 with
        | some x => .lost (m.loseAgent true x ctx 0)
        | none => .done (m.piecesWrite true ps (Mem.ofBytes bs))
    | _, _ => .bad

/-- The packages that shares of an entry are parked for, in share order (R355): none when the list is bad. -/
def packageList (t : Trust) (m : Mach) (ctx : BitVec 6) (w : List Word) : Except (Option Nat) (List (BitVec 10)) :=
  let n := eShares w
  if eAux w = 0 then
    .ok (((List.range (n + 1)).filter fun p => decide (p ≠ t.package.toNat)).take n |>.map (BitVec.ofNat 10))
  else
    match agentRead t m ctx (eAux w) (2 * n) with
    | .error e => .error e
    | .ok bs =>
      let ps := (List.range n).map fun i => leNat ((bs.drop (2 * i)).take 2)
      if ps.all (fun p => decide (p < 1024 ∧ p ≠ t.package.toNat)) && decide ps.Nodup then .ok (ps.map (BitVec.ofNat 10))
      else .error none

/-- A key is given out as its entry asks (R356, 3). -/
def giveEntry (t : Trust) (r n num : Nat) (ctx : BitVec 6) (w : List Word) (m : Mach) : Did :=
  match m.exactRegion (eSpace w) ctx (eAddr w) (eSize w) with
  | none => .bad
  | some x =>
    if x.key.holder ≠ .setup r n then .done m
    else
      let g : Gid := ⟨num, eGroup w⟩
      if eKind w = 1 then
        if 256 ≤ m.ringCount x.home then .bad
        else .done (m.onRegion x.rid fun x =>
          { x with key := ⟨.ring, .ring, [], [], none, []⟩, ring := some ⟨eSlots w, eSlotSize w, 0, 0, 0, 0, [], none⟩ })
      else
        match eState w with
        | 0 => .done (m.setKey x.rid .free)
        | 1 => .done (m.setKey x.rid (.exclOf g []))
        | 6 => .done (m.setKey x.rid ⟨.common, .none, [], [], none, []⟩)
        | st =>
          if m.rackFree x.home < eShares w then .bad
          else
            let split (shares : List Share) : Mach :=
              m.setKey x.rid ⟨if st = 2 then .shared else .scatter, .group g, [], shares, some g, []⟩
            match eDisp w with
            | 0 => .done (split (List.replicate (eShares w) ⟨.group g, []⟩))
            | 1 => .done (split (List.replicate (eShares w) ⟨.parked (eTicket w) ctx none, [g]⟩))
            | _ =>
              match packageList t m ctx w with
              | .error none => .bad
              | .error (some a) => .lost (m.loseAgent true a ctx 0)
              | .ok ps => .done (split (ps.map fun p => ⟨.parked (eTicket w) ctx (some p), [g]⟩))

/-- Step i of a set-up of entries es: checks and regions, then device data, then keys. -/
def setupStep (t : Trust) (r n num : Nat) (ctx : BitVec 6) (desc g : Nat) (es : List (List Word)) (waited : Bool) (i : Nat) (m : Mach) : Did :=
  let w := es.getD (i % es.length) []
  match i / es.length with
  | 0 =>
    if !entryOk t g w then .bad
    else if eKind w ≤ 1 then takeEntry t r n ctx waited w m
    else if eKind w = 2 ∧ mapped t m ctx (desc + eAux w) (wordAt w 2).toNat = false then .bad
    else .done m
  | 1 => if eKind w = 3 then dataEntry t r n ctx desc es w m else .done m
  | _ => if eKind w ≤ 1 then giveEntry t r n num ctx w m else .done m

/-- The steps of a set-up from i on, as far as they go without waiting. -/
def setupSteps (t : Trust) (r n num : Nat) (ctx : BitVec 6) (desc g : Nat) (es : List (List Word)) : Bool → Nat → Nat → Mach → Mach
  | _, 0, _, m =>
    ((m.onNode r n fun y => { y with run := .running }).onLaunch num fun l => { l with issued := true }).leaveWaiting
  | waited, k + 1, i, m =>
    match setupStep t r n num ctx desc g es waited i m with
    | .bad => endRequest t r rqNodebad m
    | .wait m => m.onNode r n fun y => { y with run := .setup num i }
    | .lost m => m
    | .done m => setupSteps t r n num ctx desc g es false k (i + 1) m

/-- The set-up of a kernel from step i on, at which it may have waited. -/
def runSetup (t : Trust) (r n num : Nat) (l : Launch) (waited : Bool) (i : Nat) (m : Mach) : Mach :=
  match setupEntries t m l.ctx l.desc with
  | .error none => endRequest t r rqNodebad m
  | .error (some a) => m.loseAgent true a l.ctx 0
  | .ok es => setupSteps t r n num l.ctx l.desc l.groups.length es waited (3 * es.length - i) i m

/-! ### KERN_FIRE (R341, R343, R346, R347, R352, R354) -/

/-- The checks of a descriptor beyond its header: its extent is mapped, the bytes of its entries follow the table, and its hash and
the CRC fields are right. -/
def kernelExtent (t : Trust) (m : Mach) (ctx : BitVec 6) (desc : Nat) (hd : List Word) : Except (Option Nat) Unit := do
  let es ← setupEntries t m ctx desc
  if kFollows hd es then
    let bs ← agentRead t m ctx desc (kExtent hd es)
    if kHashOk hd bs && kCrcOk hd bs then .ok () else .error none
  else .error none

/-- Whether a stream node of a KERN is none or an XFER node of the graph. -/
def streamOk (t : Trust) (m : Mach) (x : Request) (n : Nat) : Bool :=
  decide (n = 0xFFFF) || ((SMap.get? x.nodes n).isSome &&
    match nodeWords t m x n with | .ok w => decide (nType w = 1) | .error _ => true)

/-- Whether the table of a stream controller is full (R352). -/
def Mach.tableFull (m : Mach) (die : Nat) : Bool :=
  decide (256 ≤ (m.launches.filter fun l => l.groups.any fun g => decide (dieOf g.2.1 = die) && decide (g.2.2 ≠ .ended)).length)

/-- The groups of a kernel and where they run (R347, R349): none when the kernel cannot run. -/
def kernelGroups (t : Trust) (x : Request) (hd w : List Word) : Option (List (Nat × Nat × GroupSt)) :=
  let ls := kLevels hd
  if wbit (wordAt w 0) 1 then
    match x.place with
    | none => none
    | some p => if groupCount ls = 1 ∧ kClass hd = true then (t.coreKey p.die p.col).map fun c => [(0, c, .due)] else none
  else
    let dies := t.diesOf (kClass hd)
    if dies.isEmpty then none else some (deal t ls dies)

/-- KERN_FIRE: the descriptor is checked, and the set-up runs as far as it can. -/
def kernBody (t : Trust) (r n : Nat) (x : Request) (y : NodeSt) (w : List Word) (m : Mach) : Mach :=
  match y.run with
  | .setup num i => match m.launch num with
    | some l => runSetup t r n num l true i m
    | none => m
  | .due =>
    let ctx := rCtx x.words
    let desc := (wordAt w 1).toNat
    let bad := endRequest t r rqNodebad m
    let ss := [wbits (wordAt w 0) 31 16, wbits (wordAt w 0) 47 32]
    if wbits (wordAt w 0) 15 2 ≠ 0 ∨ (ss.all fun s => streamOk t m x s) = false then bad
    else
      match agentWords t m ctx desc 16 with
      | .error none => bad
      | .error (some a) => m.loseAgent true a ctx 0
      | .ok hd =>
        if !kernelOk hd || decide (kClass hd ≠ wbit (wordAt w 0) 0) then bad
        else
          match kernelExtent t m ctx desc hd, kernelGroups t x hd w with
          | .error (some a), _ => m.loseAgent true a ctx 0
          | .error none, _ => bad
          | .ok (), none => bad
          | .ok (), some gs =>
            if (gs.map fun g => dieOf g.2.1).any m.tableFull then m
            else
              let (num, m) := m.fresh
              let l : Launch :=
                { num := num, req := r, node := n, ctx := ctx, desc := desc, hash := kHash hd, lens := kLens hd, table := kLevels hd,
                  arg := wordAt w 2, streams := ss.filter fun s => decide (s ≠ 0xFFFF), issued := false, groups := gs, issuing := [] }
              runSetup t r n num l false 0 { m with launches := m.launches ++ [l] }
  | _ => m

/-- KERN_FINISH: every group of a KERN's kernel has ended draining. -/
def kernFinish (t : Trust) (r n : Nat) (m : Mach) : Mach :=
  match m.launches.find? fun l => decide (l.req = r ∧ l.node = n) with
  | none => m
  | some l =>
    if l.issued && l.groups.all fun g => decide (g.2.2 = .ended) then
      let m := { m with launches := m.launches.filter fun x => decide (x.num ≠ l.num) }.settleStreams
      match (m.request r).filter Request.walks with
      | none => m.dropEnded
      | some x =>
        match nodeWords t m x n with
        | .error none => endRequest t r rqNodebad m
        | .error (some a) => m.loseAgent true a (rCtx x.words) 0
        | .ok w => if succsOk x w then finishNode t r n (nSuccs w) m else endRequest t r rqNodebad m
    else m

/-! ### Meanings -/

/-- KERN_FIRE (R341, R356). -/
def execKernFire (r n : Nat) (s : State) : Host.Outcome State Fault Refusal :=
  .next { s with mach := fireNode s.trust 0 r n (kernBody s.trust r n) s.mach }
/-- KERN_FINISH (R341, R352). -/
def execKernFinish (r n : Nat) (s : State) : Host.Outcome State Fault Refusal :=
  .next { s with mach := kernFinish s.trust r n s.mach }

end Sys2Proof.Machine
end

