-- ==== Sys2Proof/Machine/Launch.lean ====
section
/-! DEFINITION. XFER, IF, WHILE, SWITCH, RELAY, WAIT and DONE nodes, and LNCH (R341 to R344, R353, R363 to R365). -/

namespace Sys2Proof.Machine

/-! ### XFER (R353) -/

/-- Streams of a die (R352). -/
def Mach.streamCount (m : Mach) (die : Nat) : Nat := (m.streams.filter fun s => decide (s.die = die)).length

/-- A request references a stream through one of its nodes. -/
def Mach.addRef (m : Mach) (r n s : Nat) : Mach :=
  { m with
    streams := m.streams.map fun (x : Stream) => if x.num = s then { x with refs := x.refs ++ [r] } else x
    requests := m.requests.map fun (x : Request) =>
      if x.rid = r then { x with streams := (n, s) :: x.streams.filter fun p => decide (p.1 ≠ n) } else x }

/-- XFER: a matching stream gains a reference; else the key is taken, the bytes are copied, and the key splits into 63
read shares that no group holds. -/
def xferBody (t : Trust) (r n : Nat) (x : Request) (_ : NodeSt) (w : List Word) (m : Mach) : Mach :=
  let ctx := rCtx x.words
  let len := nA w
  let src := (wordAt w 1).toNat
  let base := (wordAt w 2).toNat
  let bad := endRequest t r rqNodebad m
  let finish (m : Mach) : Mach := finishNode t r n (nSuccs w) m
  if 2 ^ 32 ≤ len ∨ len = 0 ∨ len % 4096 ≠ 0 ∨ src % 8 ≠ 0 then bad
  else
    match m.exactRegion .glb ctx base len with
    | none => bad
    | some g =>
      match m.streams.find? fun s => decide (s.ctx = ctx ∧ s.source = src ∧ s.len = len ∧ s.rid = g.rid) with
      | some s => finish (m.addRef r n s.num).leaveWaiting
      | none =>
        if g.key.state ≠ .free ∨ 64 ≤ m.streamCount g.home ∨ m.rackFree g.home < 63 then
          m.onNode r n fun y => { y with run := .running }
        else if (m.retainedSlice base).isSome then m.touchSlice base
        else
          match agentRead t m ctx src len with
          | .error none => bad
          | .error (some a) => m.loseAgent true a ctx g.home
          | .ok bs =>
            let (num, m) := m.fresh
            let m := (m.touchSlice base).writeHome false base len (Mem.ofBytes bs)
            let h := streamHolder num
            let m := m.setKey g.rid ⟨.shared, h, [], List.replicate 63 ⟨h, []⟩, none, []⟩
            let new : Stream := { num := num, ctx := ctx, source := src, len := len, rid := g.rid, die := g.home, refs := [] }
            finish (({ m with streams := m.streams ++ [new] }.addRef r n num).leaveWaiting)

/-! ### Conditions (R342) -/

/-- How a condition is read: its word, or why not. -/
inductive Cond where
  | value (v : Nat) (m : Mach)
  | bad
  | wait (m : Mach)
  | lost (m : Mach)

/-- A condition word read as CACC.load reads it. -/
def readCond (t : Trust) (m : Mach) (ctx : BitVec 6) (w : List Word) : Cond :=
  let dev := wbit (wordAt w 0) 0
  let k := if wbit (wordAt w 0) 1 then 4 else 8
  let a := (wordAt w 1).toNat
  if wbits (wordAt w 0) 47 2 ≠ 0 ∨ wordAt w 2 ≠ 0 ∨ a % k ≠ 0 ∨ m.commonAt dev ctx a = false then .bad
  else
    let load (pa : Nat) : Cond :=
      match poisonIn (m.homePoison dev) pa k with
      | some p => .lost (m.loseAgent dev p ctx 0)
      | none => .value ((m.home dev).nat pa k) (if dev then m else m.touchSlice a)
    if dev then
      match translate t m ctx a with
      | .leaf pa .. => load pa
      | .poison p => .lost (m.loseAgent true p ctx 0)
      | .fault => .bad
    else if (m.retainedSlice a).isSome then .wait (m.touchSlice a)
    else load a

/-- IF, WHILE and SWITCH: the successor that pick names for the condition. -/
def condBody (t : Trust) (pick : Nat → Nat) (r n : Nat) (x : Request) (_ : NodeSt) (w : List Word) (m : Mach) : Mach :=
  match readCond t m (rCtx x.words) w with
  | .bad => endRequest t r rqNodebad m
  | .wait m => m
  | .lost m => m
  | .value v m =>
    let s := nSucc w (pick v)
    finishNode t r n (if s = 0xFFFF then [] else [s]) m

/-- IF and WHILE: successor 0 when the word is not zero, else successor 1. -/
def pickIf (v : Nat) : Nat := if v = 0 then 1 else 0
/-- SWITCH: successor min(v, 3). -/
def pickSwitch (v : Nat) : Nat := min v 3

/-! ### WAIT (R341) -/

/-- The space that a WAIT names. -/
def waitSpace (n : Nat) : Space := if n = 0 then .glb else if n = 1 then .dev else .blk

/-- WAIT: it finishes when the key is in the state it names, or LOST. -/
def waitBody (t : Trust) (r n : Nat) (x : Request) (y : NodeSt) (w : List Word) (m : Mach) : Mach :=
  let ctx := rCtx x.words
  let sp := waitSpace (wbits (wordAt w 0) 1 0)
  let g := (m.regionAt sp ctx (wordAt w 1).toNat).filter fun g => decide (g.ctx = ctx)
  if wbits (wordAt w 0) 1 0 = 3 ∨ wbits (wordAt w 0) 47 5 ≠ 0 ∨ wordAt w 2 ≠ 0 then endRequest t r rqNodebad m
  else
    match g with
    | none => if y.run = .due then endRequest t r rqNodebad m else m
    | some g =>
      if g.key.state = .lost ∨ g.key.state.code = wbits (wordAt w 0) 4 2 then finishNode t r n (nSuccs w) m
      else m.onNode r n fun y => { y with run := .running }

/-! ### RELAY (R363) -/

/-- Ends of open channels bound on a die (R301). -/
def Mach.endsOn (m : Mach) (die : Nat) : Nat :=
  (m.channels.filter fun ch => !ch.closed).foldl (fun n ch =>
    n + ([ch.attEnd, ch.ffEnd].filter fun x => x.pkg.isNone && decide (dieOf x.core = die)).length) 0

/-- A direction of a channel as it opens. -/
def relayDirOf (lgN lgSize p0 base rid : Nat) : RelayDir :=
  { n := 2 ^ lgN, size := 2 ^ lgSize, base := base, rid := rid, gnt := BitVec.ofNat 32 p0, snt := 0, arr := 0, tkn := 0, rls := 0,
    landed := [], inFlight := [] }

/-- Whether a direction's parameters keep R301: slots, slot size, permits, the ring's place in a slice of a die. -/
def relayDirOk (lgN lgSize p0 off die : Nat) : Bool :=
  let size := 2 ^ lgN * 2 ^ lgSize
  decide (lgN ≤ 8 ∧ lgSize ≤ 16 ∧ 4096 ≤ size ∧ p0 ≤ 2 ^ lgN ∧ off % size = 0 ∧
    off + size ≤ if isPDie die then 0x400000 else 0x200000)

/-- The lowest free channel number. -/
def Mach.freeChannel (m : Mach) : Option Nat := (List.range 4096).find? fun n => !m.channels.any fun ch => decide (ch.num = n)

/-- The ring of a direction is made at a local end: zeroed, its key in RING (R139, R304). -/
def Mach.relayRing (m : Mach) (e : RelayEnd) (num : Nat) (toFf : Bool) (d : RelayDir) : RelayDir × Mach :=
  if e.pkg.isSome then (d, m)
  else
    let m := (m.touchSlice d.base).zeroHome false d.base (d.n * d.size)
    let (rid, m) := m.addRegion e.ctx .glb d.base (d.n * d.size) (dieOf e.core) ⟨.ring, .ring, [], [], none, []⟩
      (some ⟨d.n, d.size, 0, 0, 0, 0, [], some (num, toFf)⟩)
    ({ d with rid := rid }, m)

/-- A channel opens between two ends. -/
def Mach.openChannel (t : Trust) (m : Mach) (num : Nat) (ea ef : RelayEnd) (att ff : RelayDir) : Mach :=
  let (att, m) := m.relayRing ea num false att
  let (ff, m) := m.relayRing ef num true ff
  let far := ea.pkg.or ef.pkg
  let cut := match far with | some p => cutOff t m p | none => false
  { m with
    channels := m.channels ++
      [{ num := num, attEnd := ea, ffEnd := ef, att := att, ff := ff, broken := cut, lostPath := cut, closed := false, waiting := [] }]
    outbox := m.outbox ++ match far with | some p => [.bind p num] | none => [] }

/-- RELAY: an opening of a channel to the request's chosen column, or a close. -/
def relayBody (t : Trust) (r n : Nat) (x : Request) (_ : NodeSt) (w : List Word) (m : Mach) : Mach :=
  let a := wordAt w 0
  let b := wordAt w 1
  let c := wordAt w 2
  let bad := endRequest t r rqNodebad m
  let slot := wbits a 2 1
  let finish (m : Mach) : Mach := finishNode t r n (nSuccs w) m
  let put (v : Option Nat) (m : Mach) : Mach := m.onRequest r fun x => { x with chans := setAt x.chans slot v }
  if wbit a 3 ∨ wbits a 47 38 ≠ 0 ∨ wbits b 63 26 ≠ 0 ∨ wbits b 15 11 ≠ 0 ∨ wbits c 31 22 ≠ 0 ∨ wbits c 63 54 ≠ 0 then bad
  else if wbit a 0 then
    match x.chans.getD slot none with
    | none => bad
    | some num =>
      match m.closeChannel t num with
      | none => m.onNode r n fun y => { y with run := .running }
      | some m => finish (put none m)
  else
    match x.chans.getD slot none, x.place with
    | none, some p =>
      let remote := wbit b 10
      let die := wbits b 19 16
      let core := wbits b 25 20
      let attCore := (t.coreKey p.die p.col).getD 0
      let ctx := rCtx x.words
      let ea : RelayEnd := ⟨none, attCore, ctx⟩
      let ef : RelayEnd := ⟨if remote then some (b.extractLsb' 0 10) else none,
        if remote then 36 * die + core else (t.coreKey die core).getD 0, ctx⟩
      let attBase := p.die * 2 ^ 28 + p.col * 2 ^ 22 + wbits c 21 0
      let ffBase := die * 2 ^ 28 + core * 2 ^ 22 + wbits c 53 32
      let att := relayDirOf (wbits a 7 4 + 1) (wbits a 11 8 + 9) (wbits a 28 20) attBase 0
      let ff := relayDirOf (wbits a 15 12 + 1) (wbits a 19 16 + 9) (wbits a 37 29) ffBase 0
      let paramsOk := relayDirOk (wbits a 7 4 + 1) (wbits a 11 8 + 9) (wbits a 28 20) (wbits c 21 0) p.die &&
        relayDirOk (wbits a 15 12 + 1) (wbits a 19 16 + 9) (wbits a 37 29) (wbits c 53 32) die && isPDie die &&
        (if remote then decide (core < 36 ∧ b.extractLsb' 0 10 ≠ t.package) else t.isLive die && decide (core < t.count die))
      let full := decide (128 ≤ m.endsOn p.die) || (!remote && decide (128 ≤ m.endsOn die)) ||
        decide (m.rackFree p.die < 1) || (!remote && decide (m.rackFree die < 1))
      let meets := m.meetsRegion .glb ctx attBase (att.n * att.size) ||
        (!remote && m.meetsRegion .glb ctx ffBase (ff.n * ff.size))
      if !paramsOk || full || meets then bad
      else
        match m.freeChannel with
        | none => bad
        | some num =>
          if (m.retainedSlice attBase).isSome then m.touchSlice attBase
          else if !remote && (m.retainedSlice ffBase).isSome then m.touchSlice ffBase
          else finish (put (some num) (m.openChannel t num ea ef att ff))
    | _, _ => bad

/-! ### DONE (R344) -/

/-- DONE. -/
def doneBody (t : Trust) (r : Nat) (_ : Request) (_ : NodeSt) (w : List Word) (m : Mach) : Mach :=
  if nA w ≠ 0 ∨ wordAt w 1 ≠ 0 ∨ wordAt w 2 ≠ 0 then endRequest t r rqNodebad m else endRequest t r rqDone m

/-- DONE_FIRE: a DONE node fires, or the end of a request that waits for its channels goes on. -/
def doneFire (t : Trust) (r n : Nat) (m : Mach) : Mach :=
  match (m.request r).bind Request.ending with
  | some st => endRequest t r st m
  | none => fireNode t 8 r n (doneBody t r) m

/-! ### LNCH (R364, R365) -/

/-- LNCH.node. -/
def lnchNodeBody (d : Dst) (a : Src) (e : Env) (m : Mach) : Chk Mach := do
  let (w, m) ← e.src m a
  let (l, m) ← e.dst m d .pending
  .ok (e.start m (.lnchNode w) [l] 0 [] none).2

/-- LNCH.req: the record is read as it starts; a denied one is carried as no words. -/
def lnchReqBody (d : Dst) (a : Src) (e : Env) (m : Mach) : Chk Mach := do
  let (v, m) ← e.src m a
  let (l, m) ← e.dst m d .pending
  let (w, m) ← e.record m v 8
  let own := ((m.core e.c).group.bind fun g => m.request g.req).map fun r => rPrio r.words
  let denied := decide (rCtx w ≠ e.ctx m) ||
    (!(m.seq e.c e.q).status.super && match own with | some p => decide (rPrio w < p) | none => false)
  .ok (e.start m (.lnchReq (if denied then [] else w)) [l] 0 [] none).2

/-- LNCH acts once what a release at package scope waits for is performed. -/
def serveLnch (t : Trust) (c : Nat) (op : Op) (m : Mach) : Mach :=
  let done (code : Nat) (m : Mach) : Mach := m.finish c { op with dests := op.dests.map (·.put (stWord code)) }
  if !m.released c op.id .pkg then m
  else
    match op.kind with
    | .lnchNode a =>
      let r := ((m.core c).group.map Group.req).getD 0
      let known := match m.request r with | some x => (SMap.get? x.nodes (wbits a 15 0)).isSome | none => false
      if !known then done stNotarget m
      else if wbits a 63 16 ≠ 0 then done stBadarg m
      else arriveNode t r (wbits a 15 0) (done stDone m)
    | .lnchReq [] => done stDenied m
    | .lnchReq w =>
      match m.recordRefused (m.funcOf (m.core c).ctx) w with
      | some code => done code m
      | none => (done stDone m).enqueue w
    | _ => m

/-! ### Meanings -/

/-- XFER_FIRE (R353). -/
def execXferFire (r n : Nat) (s : State) : Host.Outcome State Fault Refusal :=
  .next { s with mach := fireNode s.trust 1 r n (xferBody s.trust r n) s.mach }
/-- IF_FIRE (R341). -/
def execIfFire (r n : Nat) (s : State) : Host.Outcome State Fault Refusal :=
  .next { s with mach := fireNode s.trust 2 r n (condBody s.trust pickIf r n) s.mach }
/-- WHILE_FIRE (R341). -/
def execWhileFire (r n : Nat) (s : State) : Host.Outcome State Fault Refusal :=
  .next { s with mach := fireNode s.trust 3 r n (condBody s.trust pickIf r n) s.mach }
/-- SWITCH_FIRE (R341). -/
def execSwitchFire (r n : Nat) (s : State) : Host.Outcome State Fault Refusal :=
  .next { s with mach := fireNode s.trust 4 r n (condBody s.trust pickSwitch r n) s.mach }
/-- RELAY_FIRE (R363). -/
def execRelayFire (r n : Nat) (s : State) : Host.Outcome State Fault Refusal :=
  .next { s with mach := fireNode s.trust 5 r n (relayBody s.trust r n) s.mach }
/-- WAIT_FIRE (R341). -/
def execWaitFire (r n : Nat) (s : State) : Host.Outcome State Fault Refusal :=
  .next { s with mach := fireNode s.trust 7 r n (waitBody s.trust r n) s.mach }
/-- DONE_FIRE (R344). -/
def execDoneFire (r n : Nat) (s : State) : Host.Outcome State Fault Refusal :=
  .next { s with mach := doneFire s.trust r n s.mach }
/-- LNCH.node (R365). -/
def execLnchNode (t : Tok) (d : Dst) (a : Src) (s : State) : Host.Outcome State Fault Refusal :=
  attemptNext (.lnchNode t d a) (lnchNodeBody d a) s
/-- LNCH.req (R365). -/
def execLnchReq (t : Tok) (d : Dst) (a : Src) (s : State) : Host.Outcome State Fault Refusal :=
  attemptNext (.lnchReq t d a) (lnchReqBody d a) s

end Sys2Proof.Machine
end

