-- ==== Sys2Proof/Machine/Fabric.lean ====
section
/-! DEFINITION. The fabric: accesses of peer contexts, verdicts and loss notices, and the collectives CLGT and CLRD
(R404 to R418). -/

namespace Sys2Proof.Machine

/-! ### Collective tables (R413, R414) -/

/-- Fields of a table's header. -/
def cgFmt (w : List Word) : Nat := wbits (wordAt w 0) 47 44
def cgOp (w : List Word) : Nat := wbits (wordAt w 0) 41 40
def cgSize (w : List Word) : Nat := 2 ^ (12 + wbits (wordAt w 0) 34 32)
def cgArity (w : List Word) : Nat := 2 ^ wbits (wordAt w 0) 11 10
def cgCount (w : List Word) : Nat := wbits (wordAt w 0) 9 0 + 1
def cgBase (w : List Word) : Nat := (wordAt w 1).toNat
def cgChunks (w : List Word) : Nat := wbits (wordAt w 2) 31 0

/-- Whether a record's fields are in range, its list without a duplicate and naming this package. -/
def groupRecordOk (t : Trust) (w : List Word) (ps : List Nat) : Bool :=
  let w0 := wordAt w 0
  decide (wbits w0 63 48 = 0 ∧ wbits w0 43 42 = 0 ∧ wbits w0 39 35 = 0 ∧ wbits w0 31 12 = 0) &&
    decide ((cgFmt w = 5 ∨ cgFmt w = 11 ∨ cgFmt w = 13) ∧ cgOp w ≠ 3 ∧ wbits w0 34 32 ≤ 4 ∧ 1 ≤ wbits w0 11 10 ∧ wbits w0 11 10 ≤ 2) &&
    decide (cgBase w < 2 ^ 32 ∧ cgBase w % 64 = 0 ∧ wbits (wordAt w 2) 63 32 = 0 ∧ cgChunks w ≠ 0) &&
    ((List.range 5).all fun i => decide (wordAt w (3 + i) = 0)) && (ps.all fun p => decide (p < 1024)) && decide ps.Nodup &&
    ps.any fun p => decide (p = t.package.toNat)

/-- The rank of a package among the live members. -/
def Collective.rank (x : Collective) (p : BitVec 10) : Nat := x.live.findIdx fun y => decide (y = p)
/-- The parent of a rank: none for the root. -/
def Collective.parent (x : Collective) (i : Nat) : Option (BitVec 10) := if i = 0 then none else x.live[(i - 1) / cgArity x.words]?
/-- The children of a rank, ascending. -/
def Collective.children (x : Collective) (i : Nat) : List (BitVec 10) :=
  (x.live.zipIdx.filter fun y => decide (0 < y.2 ∧ (y.2 - 1) / cgArity x.words = i)).map Prod.fst

/-- The partial of a member in the present run of a chunk. -/
def Collective.partial (x : Collective) (c : BitVec 32) (p : BitVec 10) : Option (List Byte) :=
  ((x.run c).partials.find? fun y => decide (y.1 = p ∧ y.2.1 = x.live.length)).map fun y => y.2.2
/-- Whether the partials of every child of a member have arrived. -/
def Collective.heard (x : Collective) (p : BitVec 10) (c : BitVec 32) : Bool :=
  (x.children (x.rank p)).all fun q => (x.partial c q).isSome
/-- The root's result of the present run of a chunk. -/
def Collective.result (x : Collective) (c : BitVec 32) : Option (List Byte) :=
  ((x.run c).result.filter fun y => decide (y.1 = x.live.length)).map fun y => y.2.2
/-- The live members but one. -/
def Collective.others (x : Collective) (me : BitVec 10) : List (BitVec 10) := x.live.filter fun p => decide (p ≠ me)

/-- A run starts anew with fewer live members; what members that had heard of the removal earlier have sent for it stays. -/
def ClrdRun.replay (r : ClrdRun) (live : Nat) : ClrdRun :=
  if r.confirmed.isSome then r
  else
    { ClrdRun.new with
      partials := r.partials.filter fun y => decide (y.2.1 ≤ live)
      result := r.result.filter fun y => decide (y.1 ≤ live)
      begun := r.begun, rebuilt := true, mismatch := r.mismatch }
/-- A member is removed: the survivors are ranked again, and every chunk that has begun here and not finished is replayed
(R414, R417; log 132). -/
def Collective.remove (x : Collective) (p : BitVec 10) : Collective :=
  if x.live.any fun y => decide (y = p) then
    let live := x.live.filter fun y => decide (y ≠ p)
    { x with live := live, runs := SMap.mapVals (fun _ (r : ClrdRun) => r.replay live.length) x.runs }
  else x

/-! ### CLGT (R415) -/

/-- The group that srcA names; a set bit elsewhere is refused. -/
def Env.groupArg (e : Env) (w : Word) (hi : Nat) : Chk Nat := do
  must (decide (w.toNat < 2 ^ hi)) (e.trapWord tFmtrsv)
  .ok (wbits w 3 0)

/-- CLGT.set: its record is read as it starts. -/
def clgtSetBody (d : Dst) (a b : Src) (e : Env) (m : Mach) : Chk Mach := do
  let (w, v, m) ← e.src2 m a b
  let (l, m) ← e.dst m d .pending
  let g ← e.groupArg w 4
  let (hd, m) ← e.record m v 8
  let n := cgCount hd
  must (decide (v.toNat + 64 + 2 * n ≤ 0x80000)) (.trap tSpace v)
  let (ls, m) ← e.record m v (8 + (n + 3) / 4 |>.min ((0x80000 - v.toNat) / 8))
  let ps := (List.range n).map fun i => wbits (wordAt ls (8 + i / 4)) (16 * (i % 4) + 15) (16 * (i % 4))
  let (code, m) : Nat × Mach :=
    if !groupRecordOk e.trust hd ps then (stBadarg, m)
    else if (m.collective g).isSome then (stInuse, m)
    else
      let ms := ps.map (BitVec.ofNat 10)
      let x : Collective :=
        { ctx := e.ctx m, words := hd, members := ms, live := ms.filter fun p => decide (p = e.trust.package) || !cutOff e.trust m p,
          runs := [] }
      (stDone, { m with collectives := SMap.set m.collectives g x })
  .ok (e.blockDone m l (stWord code) [])

/-- CLGT.clr. -/
def clgtClrBody (d : Dst) (a : Src) (e : Env) (m : Mach) : Chk Mach := do
  let (w, m) ← e.src m a
  let (l, m) ← e.dst m d .pending
  let g ← e.groupArg w 4
  .ok (e.blockStart m (.clgtClr g) l [])

/-- Whether a CLRD of a table is in flight on this package. -/
def Mach.clrdBusy (m : Mach) (g : Nat) : Bool :=
  m.cores.any fun p => p.2.ops.any fun o => match o.kind with | .clrd x _ _ => decide (x = g) | _ => false

/-- CLGT.clr is served once the table's CLRDs have finished. -/
def serveClgtClr (c : Nat) (op : Op) (g : Nat) (m : Mach) : Mach :=
  let done (code : Nat) (m : Mach) : Mach := m.finish c { op with dests := op.dests.map (·.put (stWord code)) }
  if m.clrdBusy g then m
  else if (m.collective g).isSome then done stDone { m with collectives := SMap.erase m.collectives g }
  else done stNotarget m

/-- CLGT.qry's word. -/
def Collective.word (t : Trust) (x : Collective) (i : Nat) : Word :=
  if i < 3 then wordAt x.words i
  else if i = 3 then BitVec.ofNat 64 (x.live.length * 2 ^ 32 + t.package.toNat * 2 ^ 16 + x.rank t.package)
  else 0

/-- CLGT.qry. -/
def clgtQryBody (d : Dst) (a b : Src) (e : Env) (m : Mach) : Chk Mach := do
  let (w, i, m) ← e.src2 m a b
  let (l, m) ← e.dst m d .pending
  let g ← e.groupArg w 4
  .ok (e.blockDone m l (match m.collective g with | some x => x.word e.trust i.toNat | none => 0) [])

/-! ### CLRD (R416 to R418) -/

/-- CLRD: its checks, and the wait for the partials of its children, a stall of kind 3 (R96, R416; log 132), or for the
finding that the tables differ; ctl starts nothing more until it has finished. -/
def clrdBody (d : Dst) (a b : Src) (e : Env) (m : Mach) : Chk Mach := do
  let (w, v, m) ← e.src2 m a b
  let (l, m) ← e.dst m d .pending
  let g ← e.groupArg w 36
  let c : BitVec 32 := w.extractLsb' 4 32
  must (decide (v.toNat % 64 = 0)) (.trap tAlign v)
  match m.collective g with
  | none => .ok (e.blockDone m l (stWord stNotarget) [])
  | some x =>
    let n := cgSize x.words
    let dst := cgBase x.words + c.toNat * n
    must (runInSpace e.trust n (1, v.toNat, false)) (.trap tSpace v)
    must (runInSpace e.trust n (1, dst, true)) (.trap tSpace (BitVec.ofNat 64 dst))
    match runKeyless m e.c n (1, v.toNat, false), runKeyless m e.c n (1, dst, true) with
    | some p, _ => .error (.trap tNokey (BitVec.ofNat 64 p))
    | none, some p => .error (.trap tNokey (BitVec.ofNat 64 p))
    | none, none => .ok ()
    if cgChunks x.words ≤ c.toNat then .ok (e.blockDone m l (stWord stBadarg) [])
    else
      must (x.heard e.trust.package c || (x.run c).mismatch) (.chunk g c)
      let m := m.onCollective g fun x => x.onRun c fun r => r
      .ok (e.blockStart m (.clrd g c v.toNat) l [])

/-- Elements of a chunk as they travel: 4 bytes each, bf16 as f32. -/
def chunkElems (fmt : Nat) (bs : List Byte) : List Nat :=
  let n := if fmt = 11 then bs.length / 2 else bs.length / 4
  (List.range n).map fun i => if fmt = 11 then leNat ((bs.drop (2 * i)).take 2) * 2 ^ 16 else leNat ((bs.drop (4 * i)).take 4)
/-- Partials as bytes. -/
def partialBytes (l : List Nat) : List Byte := l.flatMap fun x => leBytes 4 x
/-- Partials from bytes. -/
def partialElems (bs : List Byte) : List Nat := chunkElems 13 bs

/-- One step of a reduction of an element. -/
def reduceEl (fmt op a b : Nat) : Nat :=
  if fmt = 5 then
    match op with
    | 0 => (a + b) % 2 ^ 32
    | 1 => (mnx .i32 .maxn a b).bits
    | _ => (mnx .i32 .minn a b).bits
  else
    match op with
    | 0 => (floatFmt .f32).elim 0 fun f => (f.add .rne false (fmtValue .f32 a) (fmtValue .f32 b)).bits
    | 1 => (mnx .f32 .maxn a b).bits
    | _ => (mnx .f32 .minn a b).bits

/-- The result that the root makes of its sum: bf16 is rounded. -/
def rootBytes (fmt : Nat) (l : List Nat) : List Byte :=
  if fmt = 11 then l.flatMap fun x => leBytes 2 (convTo .bf16 .rne false 0 (fmtValue .f32 x)).bits else partialBytes l

/-- CLRD's result word. -/
def clrdWord (c : BitVec 32) (live : Nat) (rebuilt : Bool) (code : Nat) : Word :=
  BitVec.ofNat 64 (c.toNat * 2 ^ 32 + live % 2 ^ 16 * 2 ^ 16 + (if rebuilt then 16 else 0) + code)

/-- Tables are found to differ: the first time every other live member is told, and each time the one whose word showed it, so
that the finding reaches every member (R416; log 119). -/
def clrdDiffers (t : Trust) (g : Nat) (ch : BitVec 32) (from_ : List (BitVec 10)) (m : Mach) : Mach :=
  match m.collective g with
  | none => m
  | some x =>
    let all := (if (x.run ch).mismatch then from_ else x.others t.package ++ from_).dedup
    { m.onCollective g (fun x => x.onRun ch fun r => { r with mismatch := true }) with
      outbox := m.outbox ++ all.map fun p => Sent.root p g ch .mismatch }

/-- A member's own part of a chunk: its source and the partials of its children, combined in ascending rank and sent to its
parent, or by the root to every member. -/
def clrdSend (t : Trust) (c : Nat) (op : Op) (g : Nat) (ch : BitVec 32) (src : Nat) (x : Collective) (m : Mach) : Mach :=
  let me := x.rank t.package
  let fmt := cgFmt x.words
  let r := x.run ch
  match (x.children me).mapM (x.partial ch) with
  | none => m
  | some ps =>
    match engineRead t c op 0 1 src (cgSize x.words) m with
    | .wait m => m
    | .lost m => m
    | .ok bs m =>
      let v := ps.foldl (fun v p => List.zipWith (reduceEl fmt (cgOp x.words)) v (partialElems p)) (chunkElems fmt bs)
      let sent (f : ClrdRun → ClrdRun) (m : Mach) : Mach := m.onCollective g fun x => x.onRun ch fun r => f { r with sent := true }
      match x.parent me with
      | some p =>
        sent id { m with outbox := m.outbox ++ [.partial_ p g ch ⟨x.table, x.live.length, r.rebuilt, some (partialBytes v)⟩] }
      | none =>
        let bs := rootBytes fmt v
        sent (fun y => { y with result := some (x.live.length, r.rebuilt, bs) })
          { m with outbox := m.outbox ++ (x.others t.package).map fun p => Sent.root p g ch (.result x.live.length r.rebuilt bs) }

/-- The member and the run of a word that a chunk's result is written. -/
def Reply.wroteOf (g : Nat) (ch : BitVec 32) : Reply → Option (BitVec 10 × Nat)
  | .wrote p g' ch' n => if g' = g ∧ ch' = ch then some (p, n) else none
  | _ => none
/-- The words by which members tell the root that they have written the result of its run of a chunk, taken from the inbox; those
of earlier runs go too (R416, R417). -/
def Mach.takeWrote (m : Mach) (g : Nat) (ch : BitVec 32) (live : Nat) : Mach :=
  let now (r : Reply) : Option (BitVec 10) := ((r.wroteOf g ch).filter fun y => decide (y.2 = live)).map Prod.fst
  { m.onCollective g (fun x => x.onRun ch fun r => { r with wrote := r.wrote ++ m.inbox.filterMap now }) with
    inbox := m.inbox.filter fun r => match r.wroteOf g ch with | some y => decide (y.2 < live) | none => true }

/-- The root confirms a chunk once every live member has written it; another member tells the root that it has (R416). -/
def clrdConfirm (t : Trust) (g : Nat) (ch : BitVec 32) (m : Mach) : Mach :=
  let m := m.takeWrote g ch (((m.collective g).map fun x => x.live.length).getD 0)
  match m.collective g with
  | none => m
  | some x =>
    let others := x.others t.package
    let n := x.live.length
    if decide (x.live.head? = some t.package) && others.all fun p => (x.run ch).wrote.any fun q => decide (q = p) then
      { m.onCollective g (fun x => x.onRun ch fun r => { r with confirmed := some (n, r.rebuilt) }) with
        outbox := m.outbox ++ others.map fun p => Sent.root p g ch (.confirmed n (x.run ch).rebuilt) }
    else m

/-- CLRD goes on: it sends its part, writes the result, and finishes when the root confirms. A finding that the tables differ stays
with the chunk, since every later word about it is answered with it. -/
def serveClrd (t : Trust) (c : Nat) (op : Op) (g : Nat) (ch : BitVec 32) (src : Nat) (m : Mach) : Mach :=
  let done (w : Word) (m : Mach) : Mach := m.finish c { op with dests := op.dests.map (·.put w) }
  match m.collective g with
  | none => done (stWord stNotarget) m
  | some x =>
    let r := x.run ch
    if r.mismatch then done (stWord stMismatch) m
    else if !m.released c op.id .fab then m
    else
    match r.confirmed with
    | some (live, rebuilt) =>
      let m := (m.onCore c fun k => { k with lines := [] }).onCollective g fun x => { x with runs := SMap.erase x.runs ch.toNat }
      done (clrdWord ch live rebuilt stDone) m
    | none =>
    if !r.sent then clrdSend t c op g ch src x m
    else if !r.written then
      match x.result ch with
      | none => m
      | some bs =>
        match engineWrite t c op 0 1 (cgBase x.words + ch.toNat * cgSize x.words) bs m with
        | .wait m => m
        | .lost m => m
        | .ok _ m =>
          let m := match x.live.head? with
            | some p => if p = t.package then m else { m with outbox := m.outbox ++ [Sent.wrote p g ch x.live.length] }
            | none => m
          m.onCollective g fun x => x.onRun ch fun r => { r with written := true }
    else clrdConfirm t g ch m

/-- A member's word for a chunk, whose table is the own one, is kept, with whether its subtree rebuilt the tree: a partial of the
present run or of one whose removal is still to be heard of here, beside which one of a run before is not kept. -/
def ClrdRun.hear (r : ClrdRun) (live : Nat) (p : BitVec 10) (w : ChildWord) : ClrdRun :=
  { r with
    partials := match w.data with
      | some bs => if w.live ≤ live then (r.partials.filter fun y => decide (y.1 ≠ p ∨ y.2.1 ≠ w.live)) ++ [(p, w.live, bs)] else r.partials
      | none => r.partials
    rebuilt := r.rebuilt || w.rebuilt }
/-- CHILD_PARTIAL: the word of a member for a chunk arrives: its partial, or that its CLRD has begun. A member whose table is
another one learns of it (R416). While the table is not set here the fabric keeps it (R406). -/
def childPartial (t : Trust) (g : Nat) (ch : BitVec 32) (p : BitVec 10) (w : ChildWord) (m : Mach) : Mach :=
  match m.collective g with
  | none => m
  | some x =>
    if w.table ≠ x.table then clrdDiffers t g ch [p] m
    else if (x.run ch).mismatch then { m with outbox := m.outbox ++ [Sent.root p g ch .mismatch] }
    else m.onCollective g fun x => x.onRun ch fun r => r.hear x.live.length p w

/-- The root's result of a run replaces one of a run with more members. -/
def ClrdRun.learn (r : ClrdRun) (live n : Nat) (rebuilt : Bool) (bs : List Byte) : ClrdRun :=
  if n ≤ live ∧ (match r.result with | some y => decide (n < y.1) | none => true) = true then { r with result := some (n, rebuilt, bs) } else r
/-- The root's confirmation of a run: of the present one when the result is written, or of one that every member, this one too, had
written before a removal was heard of here. -/
def ClrdRun.confirm (r : ClrdRun) (live n : Nat) (rebuilt : Bool) : ClrdRun :=
  if (n = live ∧ r.written = true) ∨ live < n then { r with confirmed := some (n, rebuilt) } else r
/-- ROOT_CONFIRMATION: the root's result arrives, or the confirmation that every live member has written the result, or the finding
that the tables differ, which goes on to every member (R416, R417). -/
def rootConfirmation (t : Trust) (g : Nat) (ch : BitVec 32) (w : RootWord) (m : Mach) : Mach :=
  match w with
  | .mismatch => clrdDiffers t g ch [] m
  | .result n rebuilt bs => m.onCollective g fun x => x.onRun ch fun r => r.learn x.live.length n rebuilt bs
  | .confirmed n rebuilt => m.onCollective g fun x =>
    if (SMap.get? x.runs ch.toNat).isSome then x.onRun ch fun r => r.confirm x.live.length n rebuilt else x

/-! ### Accesses for a peer context (R404, R407, R409 to R411) -/

/-- Whether a context here may be accessed from other packages. -/
def Mach.peerOk (m : Mach) (ctx : BitVec 6) : Bool := match SMap.get? m.contexts ctx.toNat with | some x => x.fabric | none => false

/-- The holder that a group of another package is here (R411). -/
def peerHolder (p : BitVec 10) (who : Asker) : Holder := .remote p who.ctx who.grp

/-- Whether a group of another package holds a share of a region that allows an access. -/
def Region.peerHolds (r : Region) (p : BitVec 10) (who : Asker) (store : Bool) : Bool :=
  r.key.state.right.allows store && decide (r.key.state = .shared ∨ r.key.state = .scatter) &&
    r.key.shares.any fun s => decide (s.holder = peerHolder p who)

/-- The remote runs of a copy as sides of runs (R267). -/
def farSides (x : FarRuns) : List RunSide :=
  (List.range (x.n1 * x.n2)).map fun i =>
    (if x.dev then 2 else 1, ((x.base + (i / x.n1 : Nat) * x.str2 + (i % x.n1 : Nat) * x.str1 : Int) % 2 ^ 64).toNat, x.store)

/-- How a check that another package asks for fails: poison is consumed, or a trap is answered. -/
inductive PeerFail where
  | poison (pa : Nat)
  | trap (code a : Nat)
deriving DecidableEq, Repr

/-- The remote runs of both sides of a copy with their lengths, in pattern order, source before destination. -/
def farRunList (xs : List FarRuns) : List (Nat × RunSide) :=
  (List.range ((xs.map fun x => x.n1 * x.n2).foldl max 0)).flatMap fun i => xs.filterMap fun x => (farSides x)[i]?.map fun s => (x.n0, s)

/-- Check 6 of R268 for a run of device addresses: its first page that has no translation. -/
def peerUnmapped (t : Trust) (m : Mach) (ctx : BitVec 6) (n : Nat) (s : RunSide) : Option PeerFail :=
  if s.1 = 2 then
    (cuts 65536 s.2.1 n).findSome? fun p => match translate t m ctx p.1 with
      | .leaf .. => none
      | .fault => some (.trap tXlate p.1)
      | .poison pa => some (.poison pa)
  else none

/-- Check 8 of R268 for a run of a peer context: the first address whose share is missing (R404, R411). -/
def peerKeyless (m : Mach) (p : BitVec 10) (who : Asker) (n : Nat) (s : RunSide) : Option Nat :=
  let sp : Space := if s.1 = 2 then .dev else .glb
  ((cuts 4096 s.2.1 n).find? fun c =>
    !(m.peerOk who.ctx && match m.regionAt sp who.ctx c.1 with | some r => r.peerHolds p who s.2.2 | none => false)).map Prod.fst

/-- Checks 4 to 8 of R268 for the remote runs of a copy, each over every run before the next, in the peer context (R407). -/
def peerCheck (t : Trust) (m : Mach) (p : BitVec 10) (who : Asker) (xs : List FarRuns) : Option PeerFail :=
  let l := farRunList xs
  ((l.findSome? fun s => runSpaceFail t s.1 s.2).map (.trap tSpace)).or
    ((l.findSome? fun s => peerUnmapped t m who.ctx s.1 s.2).or
      (((l.findSome? fun s => runProtected t m who.ctx who.sv s.1 s.2).map (.trap tProt)).or
        ((l.findSome? fun s => peerKeyless m p who s.1 s.2).map (.trap tNokey))))

/-- An answer to another package. -/
def Mach.tell (m : Mach) (p : BitVec 10) (r : Reply) : Mach := { m with outbox := m.outbox ++ [.answer p r] }

/-- Poison that a peer's access consumes: the peer context here is lost (R395). -/
def Mach.losePeer (m : Mach) (dev : Bool) (ctx : BitVec 6) (a : Nat) : Mach :=
  m.loseAgent dev a ctx (if dev then paDie a else a / 2 ^ 28)

/-- How a failing check of a peer's access ends. -/
def Mach.failPeer (m : Mach) (p : BitVec 10) (who : Asker) (f : PeerFail) : Mach :=
  match f with
  | .poison pa => m.losePeer true who.ctx pa
  | .trap code a => m.tell p (.trap code (BitVec.ofNat 64 a))

/-- The home pieces of a peer's run that passes its checks: none while a slice of it wakes from retention (R138). -/
def peerRun (t : Trust) (m : Mach) (p : BitVec 10) (who : Asker) (dev store : Bool) (a n : Nat) (f : List (Nat × Nat × Nat) → Mach) :
    Mach :=
  match peerCheck t m p who [⟨dev, store, a, n, 1, 1, 0, 0⟩] with
  | some x => m.failPeer p who x
  | none =>
    if !dev && (m.asleep a n).isSome then m.touchSlice a
    else f (if dev then pieces t m who.ctx true a n else [(0, a, n)])

/-- Checks 4 to 7 of R275 for CACC of a peer context, at the word's home (R409): its home address. -/
def peerAccCheck (t : Trust) (m : Mach) (who : Asker) (op : AccOp) (w32 dev : Bool) (va : Nat) : Except PeerFail Nat := do
  let common (pa : Nat) : Except PeerFail Nat :=
    if m.peerOk who.ctx && m.commonAt dev who.ctx va then .ok pa else .error (.trap tNokey va)
  if !runInSpace t (if w32 then 4 else 8) (if dev then 2 else 1, va, true) then .error (.trap tSpace va)
  else if dev then
    match translate t m who.ctx va with
    | .leaf pa wr s => if (decide (op ≠ .load) && !wr) || (s && !who.sv) then .error (.trap tProt va) else common pa
    | .fault => .error (.trap tXlate va)
    | .poison pa => .error (.poison pa)
  else common va

/-- A home rack admits an accumulate of a peer context: JOIN.cmn of the region waits until it is applied (R154, R275, R409). -/
def peerAdmit (t : Trust) (p : BitVec 10) (who : Asker) (op : AccOp) (w32 dev : Bool) (va : Nat) (m : Mach) : Mach :=
  match peerAccCheck t m who op w32 dev va with
  | .error f => m.failPeer p who f
  | .ok pa => { m.tell p .admitted with admitted := m.admitted ++ [⟨p, who, w32, dev, va, pa⟩] }

/-- CACC of a peer context takes its effect at the word by its admission; one whose admission is gone with its context is told so
(R409; log 153). -/
def peerAcc (p : BitVec 10) (who : Asker) (a : AccOpRec) (m : Mach) : Mach :=
  match m.admitted.find? fun x => decide (x.pkg = p ∧ x.who = who ∧ x.w32 = a.w32 ∧ x.dev = a.dev ∧ x.addr = a.va) with
  | none => m.tell p .noKey
  | some x =>
    if !a.dev && (m.retainedSlice x.pa).isSome then m.touchSlice x.pa
    else
      let m := { m with admitted := m.admitted.erase x }
      match poisonIn (m.homePoison a.dev) x.pa a.bytes with
      | some w => m.losePeer a.dev who.ctx w
      | none =>
        let mark := SMap.get? m.relMarks (markKey a.dev x.pa)
        let (old, _, m) := m.accumulate { a with pa := x.pa } who.core p
        m.tell p (.old old (mark.map RelMark.scope) ((mark.map RelMark.core).getD 0) ((mark.map fun k => k.pkg.toNat).getD 0))

/-- Where a share that a group of another package lends on goes (R151, R405, R410; log 28): to another group of its launch
there, to a group of some package with a ticket, or parked here. -/
def peerLendTo (p : BitVec 10) (who : Asker) (w : Word) (parks : Bool) : Holder :=
  if wbit w 32 then .parked (w.extractLsb' 0 16) who.ctx (some (w.extractLsb' 22 10))
  else if parks then .parked (w.extractLsb' 0 16) (w.extractLsb' 16 6) none
  else .remote p who.ctx (who.grp / 2 ^ 32 * 2 ^ 32 + wbits w 15 0)

/-- The holder of a share of a region replaced. -/
def Mach.passShare (m : Mach) (r : Region) (h h' : Holder) : Mach :=
  m.setKey r.rid { r.key with
    shares := updFirst (fun (s : Share) => decide (s.holder = h)) (fun s => { s with holder := h' }) r.key.shares }

/-- A channel that another package's RELAY node opens here; a broken one that the package has numbered anew closes first. -/
def peerBind (t : Trust) (m0 : Mach) (b : PeerBind) : Mach :=
  let m := match m0.channel b.chan with
    | some ch => if ch.broken ∧ ch.attEnd.pkg.or ch.ffEnd.pkg = some b.pkg then (m0.closeChannel t b.chan).getD m0 else m0
    | none => m0
  let base := b.die * 2 ^ 28 + b.col * 2 ^ 22 + b.ffOff
  let ff := relayDirOf b.ffSlots b.ffSize b.ffP0 base 0
  let att := relayDirOf b.attSlots b.attSize b.attP0 0 0
  let ok := m.peerOk b.ctx && isPDie b.die && t.isLive b.die && decide (b.col < t.count b.die ∧ b.chan < 4096) &&
    relayDirOk b.ffSlots b.ffSize b.ffP0 b.ffOff b.die && relayDirOk b.attSlots b.attSize b.attP0 0 b.die &&
    !m.meetsRegion .glb b.ctx base (ff.n * ff.size) && decide (m.endsOn b.die < 128 ∧ 1 ≤ m.rackFree b.die) &&
    !m.channels.any fun ch => decide (ch.num = b.chan)
  if ok then m.openChannel t b.chan ⟨some b.pkg, 0, b.ctx⟩ ⟨none, (t.coreKey b.die b.col).getD 0, b.ctx⟩ att ff else m0

/-- PEER_CONTEXT_ACCESS. Nothing of a package declared unreachable is performed (R406, R412). -/
def peerAccess (t : Trust) (p : BitVec 10) (req : PeerReq) (m : Mach) : Mach :=
  if m.unreachable.any fun x => decide (x = p) then m
  else
  match req with
  | .check who xs =>
    match peerCheck t m p who xs with
    | some f => m.failPeer p who f
    | none => m.tell p .admitted
  | .read who dev a n =>
    peerRun t m p who dev false a n fun ps =>
      match m.piecesPoison dev ps with
      | some w => m.losePeer dev who.ctx w
      | none => (if dev then m else m.touchSlice a).tell p (.data (Mem.toBytes (m.piecesImage dev ps) 0 n))
  | .write who dev a data =>
    peerRun t m p who dev true a data.length fun ps =>
      match ps.findSome? fun x => poisonPart (m.homePoison dev) x.2.1 x.2.2 with
      | some w => m.losePeer dev who.ctx w
      | none => (if dev then m else m.touchSlice a).piecesWrite dev ps (Mem.ofBytes data)
  | .admission who op w32 dev a => peerAdmit t p who op w32 dev a m
  | .acc who f w32 dev a v cmp s o => peerAcc p who ⟨f, w32, dev, 0, a, none, v, cmp, s, o, false⟩ m
  | .ticket who a tkt =>
    match (m.regionAt .glb who.ctx a).filter fun _ => m.peerOk who.ctx with
    | none => m.tell p (.trap tNokey (BitVec.ofNat 64 a))
    | some r =>
      let parked : Holder := .parked tkt who.ctx (some p)
      if r.key.state = .lost then m.tell p (.key stLost r.key.state.right 0 0)
      else if r.key.shares.any fun s => decide (s.holder = parked) then
        (m.passShare r parked (peerHolder p who)).tell p (.key stDone r.key.state.right r.base r.size)
      else m
  | .retn who a =>
    match m.regionAt .glb who.ctx a with
    | none => m
    | some r => (m.returnShareOf r.rid (peerHolder p who) who.ctx).2
  | .lend who a w parks =>
    match m.regionAt .glb who.ctx a with
    | none => m
    | some r =>
      let dest := peerLendTo p who w parks
      let away := match dest with | .parked _ c _ => decide (c ≠ who.ctx) | _ => false
      let cut := match dest with | .parked _ _ (some q) => cutOff t m q | _ => false
      if cut then (m.returnShareOf r.rid (peerHolder p who) who.ctx).2
      else if r.key.shares.any fun s => decide (s.holder = peerHolder p who) then
        (if away then m.zeroRegion r else m).passShare r (peerHolder p who) dest
      else m
  | .query ctx a =>
    let r := (m.regionAt .glb ctx a).filter fun _ => m.peerOk ctx
    m.tell p (.word (match r with | some r => r.keyWord ctx | none => 0))
  | .permit num n =>
    match m.channel num with
    | none => m
    | some ch => if (ch.attEnd.pkg.or ch.ffEnd.pkg) = some p then
        m.onDir num ch.ffEnd.pkg.isSome fun d => { d with gnt := d.gnt + BitVec.ofNat 32 n }
      else m
  | .payload num slot data =>
    match m.channel num with
    | none => m
    | some ch =>
      let toFf := ch.attEnd.pkg.isSome
      if (ch.attEnd.pkg.or ch.ffEnd.pkg) ≠ some p ∨ ch.broken = true then m
      else if (m.retainedSlice (ch.dir toFf).base).isSome then m.touchSlice (ch.dir toFf).base
      else
        let m := m.onDir num toFf fun d => { d with snt := d.snt + 1 }
        match m.channel num with
        | some ch => m.landPayload ch toFf ⟨slot, data, 0, none, 0, 0, .glb, 0⟩
        | none => m
  | .bind b => if b.pkg = p then peerBind t m b else m
  | .unbind num =>
    match m.channel num with
    | none => m
    | some ch => if (ch.attEnd.pkg.or ch.ffEnd.pkg) = some p then (m.closeChannel t num).getD m else m

/-! ### Verdicts and loss notices (R406, R408, R412, R414) -/

/-- A member removed from every table that a test accepts. -/
def Mach.removeMember (m : Mach) (p : BitVec 10) (f : Collective → Bool) : Mach :=
  { m with collectives := SMap.mapVals (fun _ (x : Collective) => if f x then x.remove p else x) m.collectives }
/-- Admissions of a package that come to nothing. -/
def Mach.dropAdmitted (m : Mach) (f : Admitted → Bool) : Mach := { m with admitted := m.admitted.filter fun a => !f a }

/-- Bytes of a copy that have been written, in whole runs. -/
def CopyOp.units (x : CopyOp) : Nat := x.run * x.n0 + x.done

/-- Whether an operation is a copy with a package. -/
def Op.copiesWith (p : BitVec 10) (o : Op) : Bool := match o.kind with | .cpy x => x.far && decide (x.pkg = p) | _ => false

/-- Copies to and from a package complete with UNREACHABLE (R408). -/
def Mach.cutCopies (m : Mach) (p : BitVec 10) : Mach :=
  m.cores.keys.foldl (fun m c =>
    ((m.core c).ops.filter (Op.copiesWith p)).foldl (fun m op =>
      match op.kind with
      | .cpy x => (m.portError (dieOf c) (m.core c).ctx p).completeCopy c op x x.units csUnreachable
      | _ => m) m) m

/-- The copies of a saved group that a lost package cuts off complete in its image. -/
def Saved.cutCopies (s : Saved) (p : BitVec 10) : Saved :=
  { s with image := (s.image.ops.filter (Op.copiesWith p)).foldl (fun k op =>
      match op.kind with
      | .cpy x => (k.objDone x.obj x.units csUnreachable x.lines).finish op
      | _ => k) s.image }

/-- The copies of saved groups that a lost package cuts off: each is recorded in bank 7 of the die that issued it, and the
objects follow in the save slots (R380, R408). -/
def Mach.cutSaved (m : Mach) (p : BitVec 10) : Mach :=
  m.saved.foldl (fun m s =>
    let cut := s.image.ops.filter (Op.copiesWith p)
    let m := cut.foldl (fun m _ => m.portError (dieOf s.core) s.ctx p) m
    if cut.isEmpty then m
    else Mach.writeObjs { m with saved := m.saved.map fun x => if x.group.gid = s.group.gid then x.cutCopies p else x } (s.cutCopies p)) m

/-- Shares that another package holds, or that are parked for it, return to their lenders (R412): the context that held
them is the holder's. -/
def Mach.returnFrom (m : Mach) (p : BitVec 10) : Mach :=
  m.regions.foldl (fun m r =>
    let gone (h : Holder) : Option (Holder × BitVec 6) := match h with
      | .remote q ctx _ => if q = p then some (h, ctx) else none
      | .parked _ ctx (some q) => if q = p then some (h, ctx) else none
      | _ => none
    ((r.key.shares.map Share.holder).filterMap gone).foldl (fun m h => (m.returnShareOf r.rid h.1 h.2).2) m) m

/-- UNREACHABLE_VERDICT. -/
def unreachableVerdict (t : Trust) (p : BitVec 10) (m : Mach) : Mach :=
  if p = t.package ∨ (m.unreachable.any fun x => decide (x = p)) = true then m
  else
    let m := { m with unreachable := m.unreachable ++ [p] }
    let m := ((m.cutCopies p).returnFrom p).cutSaved p
    let nums := (m.channels.filter fun ch => decide (ch.attEnd.pkg.or ch.ffEnd.pkg = some p)).map Channel.num
    let m := nums.foldl (fun m n => m.breakChannel n true) m
    (m.removeMember p fun _ => true).dropAdmitted fun a => decide (a.pkg = p)

/-- PEER_CONTEXT_LOST: the loss notice of a context of another package. -/
def peerContextLost (p : BitVec 10) (ctx : BitVec 6) (m : Mach) : Mach :=
  let m := (m.removeMember p fun x => decide (x.ctx = ctx)).dropAdmitted fun a => decide (a.pkg = p ∧ a.who.ctx = ctx)
  let nums := (m.channels.filter fun ch =>
    [ch.attEnd, ch.ffEnd].any fun x => decide (x.pkg = some p ∧ x.ctx = ctx)).map Channel.num
  let m := nums.foldl (fun m n => m.breakChannel n false) m
  { m with remoteShares := m.remoteShares.filter fun s => !(decide (s.1 = p) && decide (m.groupCtx s.2.2.2.1 = some ctx)) }

/-! ### Meanings -/

/-- CLGT.set (R415). -/
def execClgtSet (t : Tok) (d : Dst) (a b : Src) (s : State) : Host.Outcome State Fault Refusal :=
  attemptNext (.clgtSet t d a b) (clgtSetBody d a b) s
/-- CLGT.clr (R415). -/
def execClgtClr (t : Tok) (d : Dst) (a : Src) (s : State) : Host.Outcome State Fault Refusal :=
  attemptNext (.clgtClr t d a) (clgtClrBody d a) s
/-- CLGT.qry (R415). -/
def execClgtQry (t : Tok) (d : Dst) (a b : Src) (s : State) : Host.Outcome State Fault Refusal :=
  attemptNext (.clgtQry t d a b) (clgtQryBody d a b) s
/-- CLRD (R416). -/
def execClrd (t : Tok) (d : Dst) (a b : Src) (s : State) : Host.Outcome State Fault Refusal :=
  attemptNext (.clrd t d a b) (clrdBody d a b) s
/-- CHILD_PARTIAL (R416). -/
def execChildPartial (grp : Nat) (chunk : BitVec 32) (pkg : BitVec 10) (word : ChildWord) (s : State) : Host.Outcome State Fault Refusal :=
  .next { s with mach := childPartial s.trust grp chunk pkg word s.mach }
/-- ROOT_CONFIRMATION (R416). -/
def execRootConfirmation (grp : Nat) (chunk : BitVec 32) (word : RootWord) (s : State) : Host.Outcome State Fault Refusal :=
  .next { s with mach := rootConfirmation s.trust grp chunk word s.mach }
/-- PEER_CONTEXT_ACCESS (R407, R409, R411). -/
def execPeerContextAccess (pkg : BitVec 10) (a : PeerReq) (s : State) : Host.Outcome State Fault Refusal :=
  .next { s with mach := peerAccess s.trust pkg a s.mach }
/-- PEER_CONTEXT_LOST (R414). -/
def execPeerContextLost (pkg : BitVec 10) (ctx : BitVec 6) (s : State) : Host.Outcome State Fault Refusal :=
  .next { s with mach := peerContextLost pkg ctx s.mach }
/-- UNREACHABLE_VERDICT (R406). -/
def execUnreachableVerdict (pkg : BitVec 10) (s : State) : Host.Outcome State Fault Refusal :=
  .next { s with mach := unreachableVerdict s.trust pkg s.mach }

end Sys2Proof.Machine
end

