-- ==== Sys2Proof/Machine/Events.lean ====
section
/-! DEFINITION. The events of a core's own time, the acknowledgement of handshake operations, retention of a slice, and
the issue of a reserved word (R17, R34, R48, R72, R89, R91, R96, R126, R138, R179, R402). -/

namespace Sys2Proof.Machine

/-! ### A core's own time -/

/-- The sequencer's own time goes on: no freeze stops it, and it was not taken. -/
def Core.goesOn (k : Core) (q : SeqId) : Bool := !k.frozen q && !(k.seq q).taken

/-- A core that the machine lists changed. -/
def Mach.onListed (m : Mach) (c : Nat) (f : Core → Core) : Mach := if (SMap.get? m.cores c).isSome then m.onCore c f else m

/-- A hold that has run out ends (R89). -/
def clhHoldEnd (c : Nat) (q : SeqId) (m : Mach) : Mach :=
  m.onListed c fun k => if k.goesOn q then k.onSeq q fun s => s.holdEnd k.cycles else k
/-- A sleeper whose wake event has come wakes (R91). -/
def sleepWake (c : Nat) (q : SeqId) (m : Mach) : Mach :=
  m.onListed c fun k => if k.goesOn q then k.onSeq q Seq.wake else k
/-- The timed results that are due land (R72). -/
def timedResultLands (c : Nat) (q : SeqId) (m : Mach) : Mach :=
  m.onListed c fun k => if k.goesOn q then k.landDue q else k
/-- A replay freeze that has run down is over: the timed results of cmp land again (R179). -/
def replayFreezeEnd (c : Nat) (m : Mach) : Mach :=
  m.onListed c fun k => if k.goesOn .cmp then k.landDue .cmp else k
/-- An eviction freeze ends: its cycles have run down, or its save-area transfer is acknowledged (R126). -/
def evictionFreezeEnd (c : Nat) (m : Mach) : Mach :=
  m.onListed c fun k =>
    match k.freeze with
    | .save => { k with freeze := .none }
    | .cycles 0 => { k with freeze := .none }
    | _ => k

/-! ### Handshake operations (R17, R34) -/

/-- Whether a result goes into a queue slot. -/
def Landing.isQueue : Landing → Bool
  | .x .. => true
  | .v .. => true
  | _ => false

/-- The first poisoned word that a load which waited for its slice finds there, an exit having poisoned it, and that no own
earlier store covers (R138, R395). -/
def Mach.exitPoison (m : Mach) (c : Nat) (op : Op) : Option Nat :=
  match op.load with
  | some ⟨.glb, ea, n, some _⟩ =>
    let k := { m.core c with posted := (m.core c).posted.filter fun p => decide (p.id < op.id) }
    (m.globalPoison.find? fun w => overlaps (8 * w) 8 ea n && !k.covered .glb ea n (8 * w)).map (8 * ·)
  | _ => none

/-- A load that waited for its slice ends: what it found there is what the exit left, and its line is staged as it is then. -/
def Mach.loadEnds (t : Trust) (m : Mach) (c : Nat) (op : Op) (ea : Nat) : Mach :=
  match m.exitPoison c op with
  | some w => m.losePoison t c op false w
  | none => (m.stage c false ea ea).2.finish c op

/-- Serve an operation: what it still has to do is done at its home when that can be, and it finishes. Keys on their way,
copies, accumulates, posted writes and a CWLD under way have events of their own. -/
def serve (t : Trust) (c : Nat) (op : Op) (m : Mach) : Mach :=
  match op.kind with
  | .values =>
    match op.load with
    | some ⟨_, ea, _, some key⟩ => if (SMap.getD m.slices key .new).retained then m else m.loadEnds t c op ea
    | _ => m.finish c op
  | .bshr .. | .bfre .. | .binv .. => serveBlock t c op m
  | .wld .. | .wswp | .mxa .. | .mxsq .. | .mxz .. => serveArray t c op m
  | .mxdr .. => serveMxdr t c op m
  | .mvk .. | .mvq .. | .mvv .. | .mvm .. | .mvd .. => serveColumn t c op m
  | .rpub .. | .rrel .. => serveRing c op m
  | .rlys .. => serveRlys t c op m
  | .rlyg .. => serveRlyg c op m
  | .hoff .. => serveHoff c op m
  | .hctl .. | .hqry .. => serveHctl t c op m
  | .cwld _ _ none => serveCwld t c op m
  | .fence s o flag => serveFence t c op s o flag m
  | .splitCmn rid => serveSplitCmn c op rid m
  | .lnchNode .. | .lnchReq .. => serveLnch t c op m
  | .clrd g ch src => serveClrd t c op g ch src m
  | .clgtClr g => serveClgtClr c op g m
  | .store .. | .lend .. | .retn .. | .remoteRetn .. | .cacc .. | .cpy .. | .cwld _ _ (some _) => m

/-- An operation of a core is served if its results enter queue slots or not, as `queue` says. -/
def serveIf (queue : Bool) (t : Trust) (c o : Nat) (m : Mach) : Mach :=
  match (m.core c).open? o with
  | some op => if (op.dests.any Landing.isQueue) = queue then serve t c op m else m
  | none => m

/-! ### Retention (R138) -/

/-- The bytes of a slice of a die: 4 MiB on a P-die, 2 MiB on a D-die (R14, R138). -/
def sliceBytes (die : Nat) : Nat := if isPDie die then 0x400000 else 0x200000

/-- The record of an error found while a slice is re-encoded. -/
def sliceErr (m : Mach) (base tile : Nat) (x : SramErr) : ErrInfo :=
  ⟨BitVec.ofNat 64 (base + x.offset), 0, m.ownerAt (base + x.offset), BitVec.ofNat 6 tile, BitVec.ofNat 8 x.bits, x.syndrome⟩

/-- The re-encoding of a slice: up to `most` bits of a code word of `width` bytes are corrected, which rewrites the word;
a code word with more is poisoned whole; both are recorded in bank 0, uncorrectable ones first (R393, R394, R396; log 40). -/
def reencode (die tile most width : Nat) (errs : List SramErr) (m : Mach) : Mach :=
  let base := die * 2 ^ 28 + tile * 2 ^ 22
  let errs := errs.filter fun x => decide (x.offset < sliceBytes die) && (x.uc || decide (0 < x.bits))
  let bad := fun (x : SramErr) => x.uc || decide (most < x.bits)
  let m := (errs.filter bad).foldl (fun m x =>
    let w := (base + x.offset) / width * width / 8
    let m := { m with globalPoison := (List.range (width / 8)).foldl (fun l n => poisonAdd l (w + n)) m.globalPoison }
    m.bankError die 0 true false (sliceErr m base tile x)) m
  (errs.filter fun x => !bad x).foldl (fun m x => m.bankError die 0 false false (sliceErr m base tile x)) m

/-- A slice of a live tile. -/
def sliceLive (t : Trust) (die tile : Nat) : Bool := t.isLive die && decide (die < 6) && decide (tile < t.count die)

/-- Cycles that the entry into retention takes, and the exit. -/
def entryCycles (die : Nat) : Nat := if isPDie die then 2560 else 1280
def exitCycles (die : Nat) : Nat := if isPDie die then 1440 else 720

/-- A slice idle for 131,072 cycles enters retention: 64-bit code words, one bit corrected. -/
def retentionEntry (t : Trust) (die tile : Nat) (errs : List SramErr) (m : Mach) : Mach :=
  let s := SMap.getD m.slices (die * 36 + tile) .new
  if sliceLive t die tile && !s.retained && decide (s.last + 131072 ≤ m.clockOf die) then
    let m := reencode die tile 1 8 errs m
    let s' : Slice := { s with retained := true, wanted := false, ready := m.clockOf die + entryCycles die }
    { m with slices := SMap.set m.slices (die * 36 + tile) s' }
  else m

/-- A slice in retention that an access waits for leaves it, when its entry has ended and then the cycles of the exit have passed:
256-bit code words, one or two bits corrected. -/
def retentionExit (t : Trust) (die tile : Nat) (errs : List SramErr) (m : Mach) : Mach :=
  let s := SMap.getD m.slices (die * 36 + tile) .new
  if sliceLive t die tile && s.retained && s.wanted && decide (max s.ready s.asked + exitCycles die ≤ m.clockOf die) then
    let m := reencode die tile 2 32 errs m
    let s' : Slice := { Slice.new with last := m.clockOf die, exits := s.exits + 1 }
    { m with slices := SMap.set m.slices (die * 36 + tile) s' }
  else m

/-! ### Reserved words (R48, R402) -/

/-- ERRQ.sum under a word whose srcB is neither zero nor reserved: FMTRSV and not ILLOP (R402; log 41). The words after it
are those of the plane. -/
def errqSumOf (w : IWord) (more : List IWord) : Option (Tok × Dst × Src) :=
  if w.extractLsb' 4 6 = 0x3C ∨ w.extractLsb' 4 6 = 0x3D then none
  else
    match decodeWords ((w &&& 0xFFFFFC0F) :: more) with
    | .ok (.errqSum t d a, _) => some (t, d, a)
    | _ => none

/-! ### Meanings -/

/-- CLH_HOLD_END (R89). -/
def execClhHoldEnd (c : Nat) (q : SeqId) (s : State) : Host.Outcome State Fault Refusal :=
  .next { s with mach := clhHoldEnd c q s.mach }
/-- SLEEP_WAKE (R91). -/
def execSleepWake (c : Nat) (q : SeqId) (s : State) : Host.Outcome State Fault Refusal :=
  .next { s with mach := sleepWake c q s.mach }
/-- TIMED_RESULT_LANDS (R72). -/
def execTimedResultLands (c : Nat) (q : SeqId) (s : State) : Host.Outcome State Fault Refusal :=
  .next { s with mach := timedResultLands c q s.mach }
/-- PENDING_ENTRY_LANDS (R17): a handshake result arrives in its reserved queue slot. -/
def execPendingEntryLands (c o : Nat) (s : State) : Host.Outcome State Fault Refusal :=
  .next { s with mach := serveIf true s.trust c o s.mach }
/-- HANDSHAKE_ACKNOWLEDGED (R34). -/
def execHandshakeAcknowledged (c o : Nat) (s : State) : Host.Outcome State Fault Refusal :=
  .next { s with mach := serveIf false s.trust c o s.mach }
/-- EVICTION_FREEZE_END (R126). -/
def execEvictionFreezeEnd (c : Nat) (s : State) : Host.Outcome State Fault Refusal :=
  .next { s with mach := evictionFreezeEnd c s.mach }
/-- REPLAY_FREEZE_END (R179). -/
def execReplayFreezeEnd (c : Nat) (s : State) : Host.Outcome State Fault Refusal :=
  .next { s with mach := replayFreezeEnd c s.mach }
/-- RETENTION_ENTRY (R138). -/
def execRetentionEntry (die tile : Nat) (errs : List SramErr) (s : State) : Host.Outcome State Fault Refusal :=
  .next { s with mach := retentionEntry s.trust die tile errs s.mach }
/-- RETENTION_EXIT (R138). -/
def execRetentionExit (die tile : Nat) (errs : List SramErr) (s : State) : Host.Outcome State Fault Refusal :=
  .next { s with mach := retentionExit s.trust die tile errs s.mach }
/-- WATCHDOG (R96): the trap of a sequencer whose count has passed WDLIMIT. -/
def execWatchdog (c : Nat) (q : SeqId) (s : State) : Host.Outcome State Fault Refusal :=
  .next { s with mach := if ((s.mach.core c).alive q) then watchdog s.trust c q s.mach else s.mach }
/-- ILLOP (R47 to R49): a reserved word raises ILLOP, after the check of R47 that comes first. -/
def execIllop (w : IWord) (s : State) : Host.Outcome State Fault Refusal :=
  match errqSumOf w (((s.mach.core s.cur).plane s.phase.seq).wordsAt (s.mach.seq s.cur s.phase.seq).pc).tail with
  | some (t, d, a) =>
    attemptAt { envOf s (.errqSum t d a) with word := w, len := wordCount w } (.errqSum t d a) (errqSumBody false d a) s
  | none => attempt (.illop w) (fun e _ => .error (e.trapWord tIllop)) s

end Sys2Proof.Machine
end

