-- ==== Sys2Proof/Machine/Fnc.lean ====
section
/-! DEFINITION. The conversion instructions of class FNC (R182 to R191). -/

namespace Sys2Proof.Machine

/-! ### The generator (R176, R178) -/

/-- A drawing instruction starts: the seed and step it reads, and the step advanced. -/
def Env.draws (e : Env) (drawing : Bool) (m : Mach) : (Nat → Nat) × Mach :=
  let k := m.core e.c
  if drawing then (draw24 k.seed k.step, m.setCore e.c { k with step := k.step + 1 }) else (fun _ => 0, m)

/-! ### CVT (R184) -/

/-- The forms of CVT by source and destination tag; none is FMTRSV. -/
inductive CvtForm where | unpack | pack | keep | value
deriving DecidableEq, Repr

/-- The table of R184. -/
def cvtForm (t g : Fmt) : Option CvtForm :=
  if t = .b then
    if g = .f6a ∨ g = .f6b then some .unpack else if g = .e8 then none else some .keep
  else if g = .b then (if t = .f6a ∨ t = .f6b then some .pack else some .keep)
  else if t = g then some .keep
  else if t = .e8 then (if kindOf g = .wide then some .value else none)
  else if g = .e8 then none
  else some .value

/-- The bits that a form without values writes (R173, R184). -/
def cvtBits (f : CvtForm) (v : VBits) : VBits :=
  match f with
  | .unpack => BitVec.ofNat 4096 (undigits 8 (digits 6 512 v.toNat))
  | .pack => BitVec.ofNat 4096 (undigits 6 ((digits 8 512 v.toNat).map (· % 64)))
  | _ => v

/-- CVT. DESIGN CHOICE: where its formats or the ratio 8 are refused it reads one head (log 145). -/
def cvtBody (d : Dst) (sat : Bool) (mode : Rnd) (g : Fmt) (a : Src) (e : Env) (m : Mach) : Chk Mach := do
  let (n, peek) := srcQueue a
  let h ← (m.core e.c).headV n
  let t := h.tag
  let form := cvtForm t g
  let q := if form = some .value then widthRatio t g else 1
  let narrow := decide (form = some .value) && decide (fmtW g < fmtW t)
  let k := if narrow && decide (q < 8) then q else 1
  let (vs, popped) ← e.heads n k m
  needSame t (vs.map VOp.entry)
  e.needFmt (form.isSome && decide (q ≠ 8) && !(narrow && peek))
  let m := if peek then m else popped
  let (draw, m) := e.draws (decide (mode = .sr)) m
  match form with
  | some .value =>
    let xs := logical t vs
    let (out, fl) := joinRd (xs.mapIdx fun j b => convTo g mode sat (draw j) (fmtValue t b))
    e.vres m d ⟨if narrow then [entryOf g out] else widened g q out, fl, subCount [(t, xs), (g, out)]⟩
  | some f => e.vres m d ⟨[⟨g, cvtBits f h.bits⟩], 0, 0⟩
  | none => .error (e.trapWord tFmtrsv)

/-! ### MXQ and MXX (R185, R186) -/

/-- Emax of an MX element format (R185). -/
def mxEmax : Fmt → Option Int
  | .f4 => some 2
  | .f6a => some 2
  | .f6b => some 4
  | .f8a => some 8
  | .f8b => some 15
  | _ => none

/-- ⌊log2⌋ of the largest magnitude of a block, if any is not zero. -/
def blockTop (l : List Val) : Option Int :=
  l.foldl (fun (o : Option Int) v =>
    match v with
    | .fin _ m e => if m = 0 then o else
      let x : Int := (m.log2 : Int) + e
      some (match o with | some y => max x y | none => x)
    | _ => o) none

/-- One block of MXQ: the scale, the elements and the flags (R185); j is the logical index of its first element. -/
def mxqBlock (g : Fmt) (emax : Int) (mode : Rnd) (draw : Nat → Nat) (j : Nat) (l : List Val) : Nat × List Rd :=
  if l.any fun v => match v with | .fin .. => false | _ => true then (0xFF, l.map fun _ => ⟨0, fInv⟩)
  else
    match blockTop l with
    | none => (0x7F, l.map fun _ => ⟨0, 0⟩)
    | some top =>
      let x := (clampTo (-127) 127 (top - emax)).1
      ((x + 127).toNat, l.mapIdx fun i v =>
        let r := convTo g mode true (draw (j + i)) (match v with | .fin n m e => .fin n m (e - x) | v => v)
        { r with flags := r.flags &&& ~~~fOvf })

/-- MXQ on a logical vector: elements, scales and flags (R185). -/
def mxqEls (t g : Fmt) (emax : Int) (mode : Rnd) (draw : Nat → Nat) (xs : List Nat) : List Rd × List Nat :=
  let bs := (chunks 32 xs (xs.length / 32)).mapIdx fun b l => mxqBlock g emax mode draw (32 * b) (l.map (fmtValue t))
  (bs.flatMap Prod.snd, bs.map Prod.fst)

/-- The destination of MXQ's scales: the next queue (R182). -/
def Dst.scales : Dst → Dst
  | .queue n => .queue (n + 1)
  | d => d

/-- MXQ. DESIGN CHOICE: R183 reads the queues before its checks and says not how many heads where the source or the format is not
accepted or the ratio is 8; one head is read there (log 145). -/
def mxqBody (d : Dst) (mode : Rnd) (g : Fmt) (a : Src) (e : Env) (m : Mach) : Chk Mach := do
  let (n, peek) := srcQueue a
  let h ← (m.core e.c).headV n
  let t := h.tag
  let q := if kindOf t = .wide ∧ (mxEmax g).isSome then widthRatio t g else 1
  let (vs, m) ← e.heads n (if q < 8 then q else 1) m
  needKind wideKind t
  needSame t (vs.map VOp.entry)
  e.needFmt ((mxEmax g).isSome && decide (q ≠ 8) && !peek)
  match mxEmax g with
  | none => .error (e.trapWord tFmtrsv)
  | some emax =>
    let (draw, m) := e.draws (decide (mode = .sr)) m
    let xs := logical t vs
    let (rs, sc) := mxqEls t g emax mode draw xs
    let (out, fl) := joinRd rs
    let (l1, m) ← e.dstV m d .pending
    let (l2, m) ← e.dstV m (Dst.scales d) .pending
    .ok ((e.startValues m [l1.putV (entryOf g out), l2.putV (entryOf .e8 sc)] fl []).onCore e.c fun k =>
      k.replayFor (subCount [(t, xs)]))

/-- Element of MXX under a scale (R186). -/
def mxxEl (t g : Fmt) (b s : Nat) : Rd :=
  if s = 0xFF then ⟨canonNan g false, 0⟩
  else
    convTo g .rne false 0 (match fmtValue t b with
      | .fin n m e => .fin n m (e + (s : Int) - 127)
      | v => v)

/-- MXX. -/
def mxxBody (d : Dst) (g : Fmt) (a b : Src) (e : Env) (m : Mach) : Chk Mach := do
  let (l, m) ← e.srcV2 m a b
  let t := typeOf l
  let x := l.getD 0 .lane
  let y := l.getD 1 .lane
  must (decide (kindOf (x.tag t) = .narrow)) (typemis .f8a (x.tag t))
  must (decide (y.tag t = .e8)) (typemis .e8 (y.tag t))
  let q := widthRatio t g
  e.needFmt (decide (q ≠ 8))
  let sc := y.elems .e8
  let (out, fl) := joinRd ((x.elems t).mapIdx fun j b => mxxEl t g b (sc.getD (j / 32) 0))
  e.vres m d ⟨widened g q out, fl, subCount [(g, out)]⟩

/-! ### FSC and FCLS (R187, R188) -/

/-- FSC.sc of an element (R187). -/
def fscEl (t : Fmt) (mode : Rnd) (draw : Nat) (b : Nat) (n : Int) : Rd :=
  convTo t mode false draw (match fmtValue t b with
    | .fin s m e => .fin s m (e + n)
    | v => v)

/-- Infinities and NaNs of a narrow format are its own values, which scaling does not change (R187). -/
def fscKeep (t : Fmt) (mode : Rnd) (draw : Nat) (b : Nat) (n : Int) : Rd :=
  match fmtValue t b with
  | .inf _ => ⟨cleanBits t b, 0⟩
  | _ => fscEl t mode draw b n

/-- FSC.xp of an element (R187). -/
def fxpEl (t : Fmt) (b : Nat) : Rd :=
  let g := intTag (fmtW t)
  let (lo, hi) := intLimits g
  match fmtValue t b with
  | .nan _ _ => ⟨intBits g lo, fInv⟩
  | .inf _ => ⟨intBits g hi, 0⟩
  | .fin _ 0 _ => ⟨intBits g lo, 0⟩
  | .fin _ m e => ⟨intBits g ((m.log2 : Int) + e), 0⟩

/-- Whether FSC and FCLS accept a kind: the floating-point tags. -/
def floatKind (k : Kind) : Bool := decide (k = .wide ∨ k = .narrow ∨ k = .scale)

/-- The shifts of FSC.sc: an entry's elements, or the low w bits of a broadcast, as signed numbers (R187). -/
def fscShifts (t : Fmt) (y : VOp) : List Int := (y.elems (intTag (fmtW t))).map (intValue (intTag (fmtW t)))

/-- FSC.sc. -/
def fscBody (d : Dst) (mode : Rnd) (a b : Src) (e : Env) (m : Mach) : Chk Mach := do
  let (l, m) ← e.srcV2 m a b
  let t := typeOf l
  let x := l.getD 0 .lane
  let y := l.getD 1 .lane
  needKind floatKind t
  match y with
  | .entry v => must (decide (v.tag = intTag (fmtW t))) (typemis (intTag (fmtW t)) v.tag)
  | _ => .ok ()
  e.needFmt (decide (t ≠ .e8))
  let (draw, m) := e.draws (decide (mode = .sr)) m
  let xs := x.elems t
  let (out, fl) := joinRd ((List.zip xs (fscShifts t y)).mapIdx fun j p => fscKeep t mode (draw j) p.1 p.2)
  e.vres m d ⟨[entryOf t out], fl, subCount [(t, xs), (t, out)]⟩

/-- FSC.xp. -/
def fxpBody (d : Dst) (a : Src) (e : Env) (m : Mach) : Chk Mach := do
  let (x, m) ← e.srcV m a
  let t := typeOf [x]
  needKind floatKind t
  let xs := x.elems t
  let (out, fl) := joinRd (xs.map (fxpEl t))
  e.vres m d ⟨[entryOf (intTag (fmtW t)) out], fl, subCount [(t, xs)]⟩

/-- The class code of an element (R188). -/
def fclsEl (t : Fmt) (b : Nat) : Nat :=
  match fmtValue t b with
  | .nan _ sig => if sig then 8 else 9
  | .inf neg => if neg then 0 else 7
  | .fin neg m _ =>
    match floatFmt t with
    | none => 6
    | some f =>
      if m = 0 then (if neg then 3 else 4)
      else if b % 2 ^ f.sign / 2 ^ f.mb = 0 then (if neg then 2 else 5)
      else (if neg then 1 else 6)

/-- The tag of FCLS's result by width (R188). -/
def fclsTag (w : Nat) : Fmt :=
  match w with
  | 4 => .n4 | 8 => .n8 | 16 => .i16 | _ => .i32

/-- FCLS. -/
def fclsBody (d : Dst) (a : Src) (e : Env) (m : Mach) : Chk Mach := do
  let (x, m) ← e.srcV m a
  let t := typeOf [x]
  needKind floatKind t
  e.vres m d ⟨[entryOf (fclsTag (fmtW t)) ((x.elems t).map (fclsEl t))], 0, 0⟩

/-! ### SRSD, RNDM and VIDX (R189 to R191) -/

/-- SRSD.set writes at its start and finishes in the next cycle. -/
def srsdSetBody (a b : Src) (e : Env) (m : Mach) : Chk Mach := do
  let (x, y, m) ← e.src2 m a b
  .ok (e.timed (m.onCore e.c fun k => { k with seed := x, step := y.setWidth 32 }) 1 .none false false)

/-- SRSD.step. -/
def srsdStepBody (d : Dst) (e : Env) (m : Mach) : Chk Mach := do
  let (l, m) ← e.dst m d .pending
  .ok (e.startValues m [l.put ((m.core e.c).step.setWidth 64)] 0 [])

/-- The tag of a form of RNDM. -/
def rndmTag : RndmOp → Fmt
  | .b32 => .i32 | .b8 => .n8 | .unif => .f32 | .unifb => .bf16

/-- An element of RNDM, from its draw (R190). -/
def rndmEl (f : RndmOp) (z : Word) : Nat :=
  match f with
  | .b32 => wbits z 63 32
  | .b8 => wbits z 63 56
  | .unif => (convTo .f32 .rne false 0 (.fin false (wbits z 63 40) (-24))).bits
  | .unifb => (convTo .bf16 .rne false 0 (.fin false (wbits z 63 56) (-8))).bits

/-- RNDM. -/
def rndmBody (d : Dst) (f : RndmOp) (e : Env) (m : Mach) : Chk Mach := do
  let k := m.core e.c
  let t := rndmTag f
  let (_, m) := e.draws true m
  e.vres m d ⟨[entryOf t ((List.range (fmtN t)).map fun i => rndmEl f (srDraw k.seed k.step i))], 0, 0⟩

/-- VIDX. -/
def vidxBody (d : Dst) (g : Fmt) (a b : Src) (e : Env) (m : Mach) : Chk Mach := do
  let (x, y, m) ← e.src2 m a b
  e.vres m d ⟨[entryOf g ((List.range (fmtN g)).map fun i => (x.toNat + i * y.toNat) % 2 ^ fmtW g)], 0, 0⟩

/-! ### Meanings -/

/-- CVT (R184). -/
def execCvt (t : Tok) (d : Dst) (sat : Bool) (m : Rnd) (g : Fmt) (a : Src) (s : State) : Host.Outcome State Fault Refusal :=
  attemptNext (.cvt t d sat m g a) (cvtBody d sat m g a) s
/-- MXQ (R185). -/
def execMxq (t : Tok) (d : Dst) (m : Rnd) (g : Fmt) (a : Src) (s : State) : Host.Outcome State Fault Refusal :=
  attemptNext (.mxq t d m g a) (mxqBody d m g a) s
/-- MXX (R186). -/
def execMxx (t : Tok) (d : Dst) (g : Fmt) (a b : Src) (s : State) : Host.Outcome State Fault Refusal :=
  attemptNext (.mxx t d g a b) (mxxBody d g a b) s
/-- SRSD.set (R189). -/
def execSrsdSet (t : Tok) (a b : Src) (s : State) : Host.Outcome State Fault Refusal :=
  attemptNext (.srsdSet t a b) (srsdSetBody a b) s
/-- SRSD.step (R189). -/
def execSrsdStep (t : Tok) (d : Dst) (s : State) : Host.Outcome State Fault Refusal :=
  attemptNext (.srsdStep t d) (srsdStepBody d) s
/-- FSC (R187). -/
def execFsc (t : Tok) (d : Dst) (xp : Bool) (m : Rnd) (a b : Src) (s : State) : Host.Outcome State Fault Refusal :=
  attemptNext (.fsc t d xp m a b) (if xp then fxpBody d a else fscBody d m a b) s
/-- FCLS (R188). -/
def execFcls (t : Tok) (d : Dst) (a : Src) (s : State) : Host.Outcome State Fault Refusal :=
  attemptNext (.fcls t d a) (fclsBody d a) s
/-- RNDM (R190). -/
def execRndm (t : Tok) (d : Dst) (f : RndmOp) (s : State) : Host.Outcome State Fault Refusal :=
  attemptNext (.rndm t d f) (rndmBody d f) s
/-- VIDX (R191). -/
def execVidx (t : Tok) (d : Dst) (g : Fmt) (a b : Src) (s : State) : Host.Outcome State Fault Refusal :=
  attemptNext (.vidx t d g a b) (vidxBody d g a b) s

end Sys2Proof.Machine
end

