-- ==== Sys2Proof/Machine/Hand.lean ====
section
/-! DEFINITION. HAND nodes: the choice of a D column and the migration (R360 to R362, R446). -/

namespace Sys2Proof.Machine

/-! ### Choosing a column (R360, R361) -/

/-- The live D columns, as pool keys, by die and logical column. -/
def Trust.columns (t : Trust) : List Nat :=
  [2, 3, 4, 5].flatMap fun d => if t.isLive d then (List.range (t.count d)).map fun c => d * 36 + c else []

/-- The occupancy o of a column. -/
def Mach.occupancy (m : Mach) (p : Nat) : Nat := (m.pool p).occupants.length
/-- The pool margin F - Rsv of a column. -/
def Mach.margin (m : Mach) (p : Nat) : Nat := (m.pool p).margin
/-- Whether a column is above threshold. -/
def Mach.aboveThreshold (t : Trust) (m : Mach) (p : Nat) : Bool := decide (t.smax ≤ m.occupancy p ∨ m.margin p < t.fmin)

/-- The best of a list, the earlier of two that are equal. -/
def bestOf (before : Nat → Nat → Bool) : List Nat → Option Nat
  | [] => none
  | x :: r => match bestOf before r with
    | none => some x
    | some y => if before y x then some y else some x

/-- Lower occupancy first, then a larger margin. -/
def Mach.emptier (m : Mach) (a b : Nat) : Bool :=
  decide (m.occupancy a < m.occupancy b) || (decide (m.occupancy a = m.occupancy b) && decide (m.margin b < m.margin a))

/-- The occupants of a column with a lower priority than a level. -/
def Mach.lowerOn (m : Mach) (level p : Nat) : List Request :=
  (m.pool p).occupants.filterMap fun r => (m.request r).filter fun x => decide (level < x.level)

/-- The one of some requests that was chosen last. -/
def youngest : List Request → Option Request
  | [] => none
  | x :: r => match youngest r with
    | none => some x
    | some y => if x.placedAt < y.placedAt then some y else some x

/-- What a choice finds: a column below threshold, a reserved slot, a place to take, or none. -/
inductive Choice where
  | below (p : Nat)
  | reserved (p : Nat)
  | place (p victim : Nat)
  | none
deriving DecidableEq, Repr

/-- The choice of a HAND at a level among columns (R361). -/
def chooseColumn (t : Trust) (m : Mach) (level : Nat) (cols : List Nat) : Choice :=
  match bestOf m.emptier (cols.filter fun p => !m.aboveThreshold t p) with
  | some p => .below p
  | Option.none =>
    match if level = 0 then bestOf m.emptier (cols.filter fun p => (m.pool p).reserved.isNone) else Option.none with
    | some p => .reserved p
    | Option.none =>
      let more (a b : Nat) : Bool := decide ((m.lowerOn level b).length < (m.lowerOn level a).length)
      match bestOf more (cols.filter fun p => !(m.lowerOn level p).isEmpty) with
      | some p => match youngest (m.lowerOn level p) with
        | some v => .place p v.rid
        | Option.none => .none
      | Option.none => .none

/-- A request becomes an occupant of a column, in the place of another where one is suspended for it. -/
def Mach.occupy (m : Mach) (r p : Nat) (victim : Option Nat) : Mach :=
  let (k, m) := m.fresh
  (m.onRequest r fun x => { x with column := some p, placedAt := k }).onPool p fun q =>
    { q with occupants := (q.occupants.filter fun y => decide (some y ≠ victim)) ++ [r] }

/-- The step of a HAND replaced. -/
def Mach.setHand (m : Mach) (r : Nat) (h : Option (Nat × HandRun)) : Mach := m.onRequest r fun x => { x with handRun := h }

/-- A HAND chooses its column, or waits and is counted once; ns says that it waits after NOSPACE (R361, R446). -/
def chooseStep (t : Trust) (r n : Nat) (x : Request) (excl : List Nat) (counted ns : Bool) (m : Mach) : Mach :=
  let go (p : Nat) (victim : Option Nat) (m : Mach) : Mach := (m.occupy r p victim).setHand r (some (n, .chosen p excl counted))
  match chooseColumn t m x.level (t.columns.filter fun p => !excl.any fun y => decide (y = p)) with
  | .below p => go p none m
  | .reserved p => (go p none m).onPool p fun q => { q with reserved := some r }
  | .place p v => go p (some v) (m.onRequest v fun y => { y with suspended := true })
  | .none =>
    let m := if counted then m else { m with saturation := m.saturation + 1 }
    m.setHand r (some (n, .waiting (ns || !excl.isEmpty) false))

/-! ### The migration (R362, R446) -/

/-- Fields of a HAND node. -/
def haHandle (w : List Word) : Nat := wbits (wordAt w 0) 19 0
def haTicket (w : List Word) : BitVec 16 := (wordAt w 0).extractLsb' 20 16
/-- The shape with the die and column of the choice. -/
def haShape (w : List Word) (pool : Nat) : Word :=
  BitVec.ofNat 64 (wbits (wordAt w 1) 63 38 * 2 ^ 38 + pool / 36 * 2 ^ 34 + pool % 36 * 2 ^ 28 + wbits (wordAt w 1) 27 0)
/-- The descriptor with the node's handle and aseal 1. -/
def haDesc (w ds : List Word) : List Word :=
  BitVec.ofNat 64 (haHandle w * 2 ^ 44 + wbits (wordAt ds 0) 43 7 * 2 ^ 7 + 2 ^ 6 + wbits (wordAt ds 0) 5 0) :: ds.drop 1

/-- A parked key is taken by the HAND, as by KEYW.tkt: none while it is not parked with the ticket. -/
def handTake (r : Nat) (tkt : BitVec 16) (ctx : BitVec 6) (rid : Nat) (m : Mach) : Option Mach :=
  match m.region rid with
  | none => none
  | some x =>
    if x.key.holder = .hand r then some m
    else if parkedFor tkt ctx x.key.holder then some (m.setKey rid { x.key with state := .excl, holder := .hand r })
    else none

/-- The keys that a HAND holds are parked again for its context with its ticket. -/
def Mach.repark (m : Mach) (r : Nat) (tkt : BitVec 16) (ctx : BitVec 6) : Mach :=
  { m with regions := m.regions.map fun x =>
      if x.key.holder = .hand r ∧ x.space = .dev then { x with key := { x.key with state := .transit, holder := .parked tkt ctx none } } else x }

/-- Whether HOFF's checks pass for an agent of the context that holds both regions (R322); a poisoned table entry is
consumed. -/
def handChecks (t : Trust) (m : Mach) (ctx : BitVec 6) (ds : List Word) (shape : Word) (kr vr : Region) : Except Nat Bool :=
  let pages := hK ds :: hV ds :: hoffPages (some kr) (some vr)
  match pages.findSome? fun a => match translate t m ctx a with | .poison p => some p | _ => none with
  | some p => .error p
  | none => .ok (hoffFields ds && decide (hK ds % 64 = 0 ∧ hV ds % 64 = 0 ∧ hLstr ds % 64 = 0 ∧ hRstr ds % 64 = 0) &&
      decide (hK ds < 2 ^ 57 ∧ hV ds < 2 ^ 57) && (hRowsPast ds shape (2 ^ 57) (2 ^ 57)).isNone &&
      (pages.all fun a => match translate t m ctx a with | .leaf _ wr _ => wr | _ => false) &&
      (hRowsPast ds shape (kr.base + kr.size) (vr.base + vr.size)).isNone)

/-- The HAND fails: its handle is closed when it is open, its keys are parked again, and the request ends. -/
def handFail (t : Trust) (r : Nat) (w : List Word) (ctx : BitVec 6) (close : Bool) (m : Mach) : Mach :=
  let m := if close then (m.unmapBlocks ctx (haHandle w) fun _ => true).closeHandle ctx (haHandle w) else m
  endRequest t r rqHandfail ((m.repark r (haTicket w) ctx).setHand r none)

/-- Whether a hand-off needs more frames than the context's quota on every live D column. -/
def neverFits (t : Trust) (m : Mach) (ctx : BitVec 6) (ds : List Word) (shape : Word) : Bool :=
  let tk := shapeT shape
  t.columns.all fun p => decide (m.quota ctx p < shapeLayers shape * ((hTokens ds + tk - 1) / tk))

/-- A HAND with its column takes its keys, opens its handle and hands the regions off. -/
def handOff (t : Trust) (r n : Nat) (x : Request) (w : List Word) (pool : Nat) (excl : List Nat) (counted : Bool) (m : Mach) : Mach :=
  let ctx := rCtx x.words
  match agentWords t m ctx (wordAt w 2).toNat 8 with
  | .error none => handFail t r w ctx false m
  | .error (some a) => m.loseAgent true a ctx 0
  | .ok ds0 =>
    let ds := haDesc w ds0
    match m.regionAt .dev ctx (hK ds), m.regionAt .dev ctx (hV ds) with
    | some kr, some vr =>
      if kr.key.state = .lost ∨ vr.key.state = .lost then handFail t r w ctx false m
      else
        match handTake r (haTicket w) ctx kr.rid m with
        | none => m
        | some m =>
          match handTake r (haTicket w) ctx vr.rid m with
          | none => m
          | some m =>
            let shape := haShape w pool
            let (st, m, _) := openHandle t m ⟨.excl, .hand r, [], [], none, []⟩ ctx (BitVec.ofNat 64 (haHandle w)) shape
            if st ≠ stDone then handFail t r w ctx false m
            else
              match handChecks t m ctx ds shape kr vr with
              | .error a => m.loseAgent true a ctx 0
              | .ok false => handFail t r w ctx true m
              | .ok true =>
                let hrid := ((m.regionAt .blk ctx (haHandle w * 2 ^ 44)).map Region.rid).getD 0
                match makeWaybill m ctx ds kr.rid vr.rid hrid none (some r) with
                | (_, some num, m) => m.setHand r (some (n, .moving pool num))
                | (code, none, m) =>
                  if code = stNospace ∧ neverFits t m ctx ds shape = false then
                    let m := (m.closeHandle ctx (haHandle w)).repark r (haTicket w) ctx
                    (m.leaveColumn t r).setHand r (some (n, .choosing (excl ++ [pool]) counted))
                  else handFail t r w ctx true m
    | _, _ => handFail t r w ctx false m

/-- A HAND whose waybill moves: a sealed one is committed and dropped, a cancelled one undone. Where a group of the context was
first, its commit and drop change nothing more: the HAND's own commit writes WRONGSTATE or NOTARGET, and the HAND goes on
(R328, R362). -/
def handMove (t : Trust) (r n : Nat) (x : Request) (w : List Word) (pool num : Nat) (m : Mach) : Mach :=
  let ctx := rCtx x.words
  let drop (m : Mach) : Mach := { m with waybills := m.waybills.filter fun y => decide (y.num ≠ num) }
  let place (m : Mach) : Mach :=
    let m := ((drop m).setHand r none).onRequest r fun y => { y with place := some ⟨pool / 36, pool % 36, num, haHandle w⟩ }
    (finishNode t r n (nSuccs w) m).dropEnded
  let undo (m : Mach) : Mach := (handFail t r w ctx true (drop m)).dropEnded
  match m.waybill num with
  | none => if m.regions.any fun x => decide (x.key.holder = .hand r) then undo m else place m
  | some b =>
    match b.state with
    | .sealed =>
      match m.commitPoison t b with
      | some a => m.loseAgent true a ctx 0
      | none => place (commitWaybill t b m)
    | .committed => place m
    | .cancelled => undo m
    | _ => m

/-- HAND: a second firing for a request is malformed. -/
def handBody (t : Trust) (r n : Nat) (x : Request) (_ : NodeSt) (w : List Word) (m : Mach) : Mach :=
  match x.handRun with
  | none =>
    if x.hands || decide (wbits (wordAt w 0) 47 36 ≠ 0) then endRequest t r rqNodebad m
    else
      let m := m.onNode r n fun y => { y with run := .running }
      chooseStep t r n { x with hands := true } [] false false (m.onRequest r fun x => { x with hands := true })
  | some (k, h) =>
    if k ≠ n then endRequest t r rqNodebad m
    else
      match h with
      | .choosing excl counted => chooseStep t r n x excl counted false m
      | .waiting ns again => if again then chooseStep t r n x [] true ns m else m
      | .chosen p excl counted => handOff t r n x w p excl counted m
      | .moving p num => handMove t r n x w p num m

/-- HAND_FIRE: of a request that has ended, a HAND under way is brought to its end. -/
def handFire (t : Trust) (r n : Nat) (m : Mach) : Mach :=
  match m.request r with
  | none => m
  | some x =>
    if x.walks then fireNode t 6 r n (handBody t r n) m
    else
      match x.handRun, nodeWords t m x n with
      | some (k, .moving p num), .ok w => if k = n then handMove t r n x w p num m else m
      | some (k, _), .ok w => if k = n then ((m.repark r (haTicket w) (rCtx x.words)).setHand r none).dropEnded else m
      | some _, .error _ => (m.setHand r none).dropEnded
      | none, _ => m

/-! ### Meaning -/

/-- HAND_FIRE (R361, R362). -/
def execHandFire (r n : Nat) (s : State) : Host.Outcome State Fault Refusal :=
  .next { s with mach := handFire s.trust r n s.mach }

end Sys2Proof.Machine
end

