-- ==== Sys2Proof/Machine/Save.lean ====
section
/-! DEFINITION. Pre-emption, the save area and restore (R350, R378 to R389). -/

namespace Sys2Proof.Machine

/-! ### The request (R350, R378) -/

/-- The lowest free save slot of a context. -/
def Mach.freeSlot (m : Mach) (ctx : BitVec 6) : Option Nat :=
  match SMap.get? m.contexts ctx.toNat with
  | none => none
  | some x => (List.range x.slots).find? fun s => !x.usedSlots.any fun u => decide (u = s)
/-- The two cases in which the stream controller pre-empts a group (R350). -/
def Mach.preemptCase (m : Mach) (c : Nat) (g : Group) : Bool :=
  (match m.request g.req with | some r => r.suspended | none => false) ||
    match m.dueGroup c with
    | some (l, _) => decide (m.reqLevel l.req < m.reqLevel g.req)
    | none => false

/-- PREEMPTION_REQUEST. -/
def preemptionRequest (c : Nat) (m : Mach) : Mach :=
  match (m.core c).group with
  | none => m
  | some g =>
    if g.draining || g.held || g.preempt.isSome || !m.preemptCase c g then m
    else
      match m.freeSlot g.ctx with
      | none => m
      | some s =>
        (m.onSlots g.ctx (· ++ [s])).onGroup c fun g => { g with preempt := some (s, (m.core c).cycles.toNat) }

/-- Whether a pending pre-emption takes a sequencer before it does anything in this cycle (R378): one that sleeps or
holds at once, one that issues at its first boundary 1,024 cycles after the request, and none in a wait that is waited out. -/
def Core.takeNow (k : Core) (q : SeqId) : Bool :=
  match k.group with
  | none => false
  | some g =>
    match g.preempt with
    | none => false
    | some (_, asked) =>
      k.alive q && !k.frozen q && !(decide (q = .cmp) && k.clause.isSome) && (k.seq q).blockedOn.isNone && !(k.seq q).waitsOut &&
        (decide ((k.seq q).pause ≠ .run) ||
          (decide (asked + 1024 ≤ k.cycles.toNat) && decide ((k.seq q).readyAt ≤ (k.seq q).clock)))

/-! ### What is saved (R381, R383 to R386) -/

/-- The position of a slot from the head of a queue. -/
def slotPos {α : Type} (l : List (QSlot α)) (id : Nat) : Nat := l.findIdx fun s => decide (s.id = id)

/-- The destination of a held result: its sequencer, its code, its position, its scalar value, its vector. -/
def Landing.saved (k : Core) : Landing → Nat × Nat × Nat × Word × Option VEntry
  | .x q n slot w => (seqIndex q, n.toNat, slotPos ((k.seq q).xslots n) slot, w, Option.none)
  | .v n slot e => (2, n.toNat, slotPos (k.vslots n) slot, 0, some e)
  | .loop q r w => (seqIndex q, 16 + r.toNat, 0, w, Option.none)
  | .mask r _ w => (2, 24 + r.val, 0, w, Option.none)
  | .none => (0, 31, 0, 0, Option.none)

/-- The held results of a core with the sequencer that issued each. -/
def Core.heldResults (k : Core) : List (SeqId × Timed) := allSeqs.flatMap fun q => (k.seq q).timed.map fun r => (q, r)

/-- The snapshot entries and payloads (R381). -/
def Core.snapshot (k : Core) : List (List Word) × List VBits :=
  k.heldResults.foldl (fun (x : List (List Word) × List VBits) qr =>
    let (q, r) := qr
    let (ds, dst, pos, v, vec) := r.dest.saved k
    let p := x.2.length
    let w0 := 2 ^ 63 + seqIndex q * 2 ^ 61 + ds * 2 ^ 59 + dst * 2 ^ 54 + (r.lands - (k.seq q).stopClock) % 32 * 2 ^ 49 +
      (match vec with | some e => 2 ^ 48 + e.tag.code.toNat * 2 ^ 44 + p % 16 * 2 ^ 40 | none => 0) +
      (if r.satur then 2 ^ 39 else 0) + (if r.divz then 2 ^ 38 else 0) + (if r.pu then 2 ^ 37 else 0) +
      (if r.pd then 2 ^ 36 else 0) + pos % 4 * 2 ^ 34
    (x.1 ++ [[BitVec.ofNat 64 w0, v]], match vec with | some e => x.2 ++ [e.bits] | none => x.2)) ([], [])

/-- In-flight flags and count of a queue. -/
def queueState {α : Type} (l : List (QSlot α)) : Nat :=
  (l.zipIdx).foldl (fun n x => match x.1.entry with | .inFlight => n + 2 ^ (4 + x.2) | _ => n) l.length

/-- A sequencer record (R385). -/
def Core.seqRecord (k : Core) (q : SeqId) : List Word :=
  let s := k.seq q
  let levels := s.stack.reverse
  let level (i : Nat) : Word := match levels[i]? with
    | some l => BitVec.ofNat 64 (l.k.toNat * 2 ^ 32 + l.stop.toNat * 2 ^ 16 + l.start.toNat)
    | none => 0
  let xval (i : Nat) : Word := match (s.xslots (BitVec.ofNat 4 (i / 4)))[i % 4]? with
    | some sl => (match sl.entry with | .present v => v | _ => 0)
    | none => 0
  let vstate (i : Nat) : Word :=
    if q = .cmp then
      let l := k.vslots (BitVec.ofNat 4 i)
      BitVec.ofNat 64 ((l.zipIdx).foldl (fun n x => match x.1.entry with
        | .present e => n + e.tag.code.toNat * 2 ^ (16 + 4 * x.2)
        | _ => n) (queueState l))
    else 0
  [BitVec.ofNat 64 ((if s.exited then 2 ^ 16 else 0) + s.pc.toNat), s.status.word, s.trapCause, s.trapPc, s.trapInfo, s.wdLimit] ++
    (List.range 8).map (fun i => SMap.getD s.loops i 0) ++
    [BitVec.ofNat 64 s.stack.length, BitVec.ofNat 64 (s.inDown.posted * 16 + s.inUp.posted)] ++
    (List.range 8).map level ++
    (List.range 16).map (fun i => BitVec.ofNat 64 (queueState (s.xslots (BitVec.ofNat 4 i)))) ++
    (List.range 64).map xval ++ (List.range 16).map vstate

/-- The core record (R386). -/
def Core.coreRecord (k : Core) : List Word :=
  let lease := match k.group with
    | some g => (if g.want then 1 else 0) + (if g.bank then 2 else 0) + (if g.live0 then 4 else 0) + (if g.live1 then 8 else 0)
    | none => 0
  let binding (i : Nat) : Word := match k.bindings[i]? with
    | some b => BitVec.ofNat 64 (2 ^ 63 + seqIndex b.seq * 2 ^ 61 + (if b.sel.vec then 2 ^ 60 else 0) + b.sel.q.toNat * 2 ^ 56 +
        b.obj * 2 ^ 48 + b.left)
    | none => 0
  [k.seed, k.step.setWidth 64, BitVec.ofNat 64 lease] ++ List.replicate 5 0 ++
    (List.range 32).map (fun i => (k.obj i).word) ++ (List.range 36).map binding

/-- Granules tagged to a group, as two words. -/
def Core.ownedWords (k : Core) (g : Group) : List Word :=
  (List.range 2).map fun w => BitVec.ofNat 64 ((List.range 64).foldl (fun n i =>
    if k.granule (64 * w + i) = .group g.gid g.ctx then n + 2 ^ i else n) 0)
/-- A set of granules as two words. -/
def granuleWords (l : List Nat) : List Word :=
  (List.range 2).map fun w => BitVec.ofNat 64 ((List.range 64).foldl (fun n i => if l.contains (64 * w + i) then n + 2 ^ i else n) 0)

/-- The header (R384). -/
def saveHeader (t : Trust) (m : Mach) (c : Nat) (g : Group) : List Word :=
  let tag := match m.request g.req with | some r => rTag r.words | none => 0
  [BitVec.ofNat 64 (2 ^ 63 + g.ctx.toNat * 2 ^ 34 + dieOf c * 2 ^ 30 + t.logical (dieOf c) (physOf c) * 2 ^ 24 + g.gid.idx % 2 ^ 24)] ++
    (List.range 4).map (fun i => BitVec.ofNat 64 (g.hash.toNat / 2 ^ (64 * i))) ++
    [BitVec.ofNat 64 (tag * 2 ^ 48 + g.node)] ++ (m.core c).ownedWords g ++ granuleWords g.evicted

/-- A table of numbers of n bytes each as memory. -/
def tableImage (n : Nat) {w : Nat} (b : SMap (BitVec w)) : Mem := b.foldr (fun x img => img.write (n * x.1) (leBytes n x.2.toNat)) []
/-- A bank as memory (R383). -/
def bankImage (b : SMap (BitVec 32)) : Mem := tableImage 4 b

/-- A save slot takes words at an offset. -/
def Mach.putWords (m : Mach) (pa : Nat) (ws : List Word) : Mach :=
  m.writeHome true pa (8 * ws.length) (Mem.ofBytes (wordsBytes ws))

/-- The vector queues and masks of a core written to a slot. -/
def saveVectors (k : Core) (pa : Nat) (m : Mach) : Mach :=
  let m := (List.range 16).foldl (fun m q => ((k.vslots (BitVec.ofNat 4 q)).zipIdx).foldl (fun m x =>
    match x.1.entry with
    | .present e => m.writeHome true (pa + 0x5000 + 0x800 * q + 0x200 * x.2) 512 (Mem.ofBytes (vbytes e.bits))
    | _ => m) m) m
  (List.range 7).foldl (fun m i => m.writeHome true (pa + 0xD000 + 0x80 * i) 128
    (Mem.ofBytes (leBytes 128 (k.maskReg (i + 1)).bits.toNat))) m

/-- The column state of a D column written to a slot. -/
def saveColumn (k : Core) (pa : Nat) (m : Mach) : Mach :=
  let col := k.column
  let m := m.writeHome true (pa + 0x20000) 0x800 (tableImage 2 col.q)
  let m := m.writeHome true (pa + 0x20800) 0x1000 (bankImage col.acc)
  m.putWords (pa + 0x21800) [BitVec.ofNat 64 (Nat.log2 col.g + col.h * 2 ^ 8), col.mask.getD 0]

/-- Granules that an earlier slot holds for a group move with it (log 36). -/
def moveEvicted (g : Group) (pa : Nat) (m : Mach) : Mach :=
  if g.slotAt = pa then m
  else g.evicted.foldl (fun m x =>
    let src := g.slotAt + 0x40000 + 0x1000 * x
    let dst := pa + 0x40000 + 0x1000 * x
    let bad := poisonSlice m.dramPoison src 4096
    let m := m.writeHome true dst 4096 (m.dram.slice src 4096)
    { m with dramPoison := poisonPaste m.dramPoison dst 4096 bad }) m

/-- The slot of a group is written (R383 to R386); the poison of a spilled bank marks its words there (R395). -/
def writeSlot (t : Trust) (c : Nat) (g : Group) (pa : Nat) (m : Mach) : Mach :=
  let k := m.core c
  let m := moveEvicted g pa m
  let m := m.putWords pa (saveHeader t m c g)
  let m := allSeqs.foldl (fun m q => m.putWords (pa + 0x1000 + 0x1000 * seqIndex q) (k.seqRecord q)) m
  let m := saveVectors k pa m
  let m := m.putWords (pa + 0xE000) k.coreRecord
  let (es, ps) := k.snapshot
  let m := m.putWords (pa + 0x10000) (es ++ List.replicate (80 - es.length) [0, 0]).flatten
  let m := (ps.zipIdx).foldl (fun m x => m.writeHome true (pa + 0x11000 + 0x200 * x.2) 512 (Mem.ofBytes (vbytes x.1))) m
  let m := if isPDie (dieOf c) then m else saveColumn k pa m
  let spill (off : Nat) (b : Option (SMap (BitVec 32))) (m : Mach) : Mach :=
    match b with | some b => m.writeHome true (pa + off) 0x200000 (bankImage b) | none => m
  let m := spill 0x600000 g.spill1 (spill 0x400000 g.spill0 m)
  { m with dramPoison := g.spillBad.foldl (fun l e => poisonAdd l ((pa + 0x400000 + 4 * e) / 8)) m.dramPoison }

/-! ### GROUP_SAVE (R379, R380) -/

/-- Whether an operation lasts beyond the save: an arrival copy that an engine holds, or a CWLD that the engine runs. -/
def OpKind.lasts : OpKind → Bool
  | .cpy x => decide (x.dsp = 7) && x.begun
  | .cwld _ _ (some _) => true
  | _ => false

/-- Whether a group is ready to be saved: it is not draining (R350), its sequencers are taken or have exited, and what it
started has finished. -/
def Core.saveReady (k : Core) : Bool :=
  (match k.group with | some g => !g.draining | none => false) &&
  (allSeqs.all fun q => (k.seq q).taken || ((k.seq q).exited && (k.seq q).timed.isEmpty)) && k.clause.isNone &&
    (k.ops.all fun o => o.kind.lasts) && k.posted.isEmpty && k.later.isEmpty && decide (k.freeze = .none) && decide (k.replay = 0)

/-- Results that land before their sequencer's stop cycle have landed (R379). -/
def Core.landToStop (k : Core) : Core :=
  let k := allSeqs.foldl (fun k q =>
    let s := k.seq q
    let due := s.timed.filter fun r => decide (r.lands < s.stopClock)
    due.foldl (fun k r => k.landTimed q r) (k.onSeq q fun s => { s with timed := s.timed.filter fun r => decide (s.stopClock ≤ r.lands) })) k
  k.onSeqs fun s => { s with
    inUp := { s.inUp with posted := s.inUp.posted + s.inUp.arriving, arriving := 0 }
    inDown := { s.inDown with posted := s.inDown.posted + s.inDown.arriving, arriving := 0 } }

/-- The lease of a saved group passes on, its live banks spilled (R224, R225). -/
def Mach.spillLease (m : Mach) (c : Nat) : Mach :=
  match (m.array (clusterOf c)).lease with
  | .held x => if x = c then m.endHolding (clusterOf c) c true else m
  | .ending x => if x = c then m.endHolding (clusterOf c) c true else m
  | _ => m

/-- The first poisoned queue slot of a core: whose queue, which, and the slot's position. -/
def Core.poisonedSlot (k : Core) : Option (SeqId × Bool × BitVec 4 × Nat) :=
  let at_ {α : Type} (l : List (QSlot α)) : Option Nat := (l.findIdx? fun s => match s.entry with | .poisoned => true | _ => false)
  ((allSeqs.flatMap fun q => (List.range 16).map fun n => (q, BitVec.ofNat 4 n)).findSome? fun x =>
    (at_ ((k.seq x.1).xslots x.2)).map fun i => (x.1, false, x.2, i)).or
  ((List.range 16).findSome? fun n => (at_ (k.vslots (BitVec.ofNat 4 n))).map fun i => (.cmp, true, BitVec.ofNat 4 n, i))

/-- GROUP_SAVE: a poisoned slot of a queue, which the save would read, loses the context (R395). The core counts as occupied to the
end of the cycle (R93). -/
def groupSave (t : Trust) (c : Nat) (m : Mach) : Mach :=
  match (m.core c).group.bind Group.preempt with
  | none => m
  | some (slot, _) =>
    if !(m.core c).saveReady then m
    else
      match (m.core c).poisonedSlot with
      | some (q, vec, n, i) =>
        let tile := t.logical (dieOf c) (physOf c)
        m.consume (dieOf c) 1 ⟨slotAddr vec n i, BitVec.ofNat 2 (seqIndex q), some (m.core c).ctx, BitVec.ofNat 6 tile, 0, 0⟩ (m.core c).ctx
          (dieOf c) tile (seqIndex q)
      | none =>
      let m := (m.spillLease c).onCore c Core.landToStop
      let k := m.core c
      match k.group with
      | none => m
      | some g =>
        let pa := m.slotPa g.ctx slot
        let m := writeSlot t c g pa m
        let g' : Group := { g with preempt := none, spill0 := none, spill1 := none, spillBad := [] }
        let image : Core := { k with group := some g', local_ := [], localPoison := [], granules := [], lines := [], view := [],
                                     active := [], shadow := [] }
        let m := (m.setGroup g.gid (.saved slot)).onCore c fun k =>
          { k with group := none, ops := [], objs := [], bindings := [], view := [], clause := none, aRows := [], ended := true }
        { m with saved := m.saved ++ [⟨g.ctx, slot, c, g', image, g.evicted⟩] }

/-! ### GROUP_RESTORE (R382, R387 to R389) -/

/-- A sequencer goes on from its stop cycle. -/
def Seq.resume (s : Seq) : Seq :=
  if s.exited then s
  else { s with taken := false, clock := s.stopClock, readyAt := s.stopClock, wdCount := 0, pause := .run, nudged := false, wrote := [], undo := [] }

/-- What a saved group finds on its core again. -/
def Core.restored (k : Core) (s : Saved) (g : Group) (view : List Hold) : Core :=
  let k' : Core :=
    { (s.image.onSeqs Seq.resume) with
      group := some g, view := view, local_ := k.local_, localPoison := k.localPoison, granules := k.granules, lines := []
      cycles := k.cycles, active := k.active, shadow := k.shadow, freeze := .none, replay := 0, failed := k.failed, ended := false }
  allSeqs.foldl Core.landDue k'

/-- GROUP_RESTORE: the saved group that is due on an unoccupied core goes on there. -/
def groupRestore (t : Trust) (c : Nat) (m : Mach) : Mach :=
  if !t.mayPlace m c then m
  else
    match m.dueGroup c with
    | some (l, g, .saved slot) =>
      match m.saved.find? fun s => decide (s.core = c ∧ s.group.gid = ⟨l.num, g⟩), (m.core c).withKernel l.hash with
      | some s, some k =>
        let pa := m.slotPa s.ctx slot
        let bankBad (off : Nat) (live : Bool) : Option Nat := if live then poisonIn m.dramPoison (pa + off) 0x200000 else none
        match ((poisonIn m.dramPoison pa 0x22000).or (bankBad 0x400000 s.group.live0)).or (bankBad 0x600000 s.group.live1) with
        | some w => m.loseAgent true w s.ctx (dieOf c)
        | none =>
          let bank (off : Nat) (live : Bool) : Option (SMap (BitVec 32)) :=
            if live then some (bankOfMem (m.dram.slice (pa + off) 0x200000)) else none
          let gr : Group := { s.group with
            spill0 := bank 0x400000 s.group.live0, spill1 := bank 0x600000 s.group.live1
            evicted := s.evicted, slotAt := pa, held := false, preempt := none }
          let gr : Group := if isPDie (dieOf c) then gr else { gr with spill0 := none, spill1 := none }
          let m := (m.setGroup s.group.gid .placed).setCore c (k.restored s gr (m.viewOf s.group.gid))
          let m := { m with saved := m.saved.filter fun x => decide (x.group.gid ≠ s.group.gid) }
          m.onSlots s.ctx fun l => l.filter fun x => decide (x ≠ slot)
      | _, _ => m
    | _ => m

/-! ### Meanings -/

/-- PREEMPTION_REQUEST (R350). -/
def execPreemptionRequest (c : Nat) (s : State) : Host.Outcome State Fault Refusal :=
  .next { s with mach := preemptionRequest c s.mach }
/-- PREEMPT_TIMEOUT_BOUNDARY: a sequencer is taken at a boundary (R378). -/
def execPreemptTimeoutBoundary (c : Nat) (q : SeqId) (s : State) : Host.Outcome State Fault Refusal :=
  .next (if (s.mach.core c).takeNow q then { s with mach := s.mach.setCore c ((s.mach.core c).take q) } else s)
/-- GROUP_SAVE (R379). -/
def execGroupSave (c : Nat) (s : State) : Host.Outcome State Fault Refusal := .next { s with mach := groupSave s.trust c s.mach }
/-- GROUP_RESTORE (R387): between two cycles of the core. -/
def execGroupRestore (c : Nat) (s : State) : Host.Outcome State Fault Refusal :=
  .next (if s.between c then { s with mach := groupRestore s.trust c s.mach } else s)

end Sys2Proof.Machine
end

