-- ==== Sys2Proof/Machine/Trust.lean ====
section
/-! DEFINITION. The trust die: measured boot, topology, SPDM, the mailbox, manifests, power, freeze and scan (R11, R419 to R432). -/

namespace Sys2Proof.Machine

/-! ### Bring-up (R11, R419, R421) -/

/-- The pools of a D-die's columns as bring-up leaves them. -/
def bootPools (first d : Nat) (bad : List (Nat × Nat)) : SMap Pool :=
  (List.range 36).map fun c =>
    (d * 36 + c, { Pool.reset with first := first, retired := (bad.filter fun x => decide (x.1 = c)).map Prod.snd })

/-- What bring-up finds on a die; a die not reported fails. -/
def BootInput.die (b : BootInput) (d : Nat) : DieBoot := b.dies.getD d ⟨0, false, false, 0, false, []⟩

/-- PACKAGE_RESET: measured boot up to the training of the links; every die is held in reset until the topology is known. DRAM
reads zero: the keys are gone, and every unit's zero bit is set (R284, R426; log 125). -/
def packageReset (b : BootInput) (s : State) : State :=
  let pass (d : Nat) : Bool :=
    let x := BootInput.die b d
    b.trustVerified && x.verified && x.logicOk && x.linked && (b.hostLink || decide (d ≠ 0))
  let dies := List.range 6
  { s with
    cur := 0
    phase := .st
    trust :=
      { Trust.reset with
        released := false
        passed := dies.map pass
        dieLive := dies.map fun _ => false
        live := dies.map fun d => if pass d then (BootInput.die b d).cores else 0
        trained := allLinks.filter fun l => (BootInput.die b l.1).linked && (BootInput.die b l.2).linked
        up := []
        routes := []
        packageDraw := some s.mach.free
        package := b.package
        packages := b.packages
        measurements := (1, b.trustDigest) :: (if b.trustVerified then dies.map fun d => (2 + d, (BootInput.die b d).digest) else [])
        debug := b.debugToken
        module := b.module }
    mach :=
      { Mach.reset with
        host := s.mach.host
        pools := [2, 3, 4, 5].flatMap fun d => bootPools b.poolFirst d (BootInput.die b d).badFrames
        free := s.mach.free + 1 } }

/-- The dies that die 0 reaches within three crossings over given links and dies. -/
def reached (t : Trust) : List Nat := ((t.spread [0] |> t.spread) |> t.spread)

/-- The links between two sets of dies that both pass. -/
def Trust.among (t : Trust) (ok : Nat → Bool) (links : List (Nat × Nat)) : List (Nat × Nat) :=
  t.trained.filter fun l => links.contains l && ok l.1 && ok l.2

/-- TOPOLOGY_COMPUTE: the harvest map and the routing tables over the links of live dies; the package leaves bring-up when die 0
and a D-die are live. A die with no live core is dead (R11), so no route leads over it (log 144). -/
def topologyCompute (links : List (Nat × Nat)) (s : State) : State :=
  let t := s.trust
  if t.released then s
  else
    let pass (d : Nat) : Bool := t.passed.getD d false
    let base (d : Nat) : Bool := pass d && (decide (d = 0) || decide (t.mask d ≠ 0))
    let near := reached { t with up := t.among base links }
    let live (d : Nat) : Bool := base d && near.contains d
    let go := live 0 && (live 2 || live 3 || live 4 || live 5)
    let dies := List.range 6
    if go then
      let masks := dies.map fun d => if live d then t.mask d else 0
      let t2 : Trust := { t with released := true, dieLive := dies.map live, live := masks, up := t.among live links }
      let topology := Config.topologyDigest masks t2.findRoutes
      let config := Config.configDigest t.smax t.fmin t.cap t.debug
      { s with trust := { t2 with
          routes := t2.findRoutes
          measurements := SMap.set (SMap.set t.measurements 8 topology) 9 config } }
    else { s with trust := { t with dieLive := dies.map fun _ => false } }

/-! ### SPDM (R420) -/

/-- What the trust die does once bring-up has opened the mailbox and the management function (R11, R419). -/
def State.opened (s s' : State) : State := if s.trust.released then s' else s

/-- A response: its version, code and parameter, the part that the spec or the standard fixes, and a payload that is open
(log 23). -/
def spdmRespond (version code p1 : Nat) (fixed data : List Byte) (next : Spdm) (s : State) : State :=
  let body := Config.spdmPayload s.mach.free (data ++ s.trust.measurements.flatMap fun x => digestBytes x.2)
  s.opened { s with
    trust := { s.trust with
      responses := s.trust.responses ++ [[BitVec.ofNat 8 version, BitVec.ofNat 8 code, BitVec.ofNat 8 p1, 0] ++ fixed ++ body]
      spdm := next }
    mach := { s.mach with free := s.mach.free + 1 } }

/-- ERROR with a code. -/
def spdmError (code : Nat) (s : State) : State :=
  s.opened { s with trust := { s.trust with responses := s.trust.responses ++ [[0x13, 0x7F, BitVec.ofNat 8 code, 0]] } }

/-- A supported request that the session allows, or ERROR with UnexpectedRequest (log 39). -/
def spdmServe (ok : Bool) (code : Nat) (fixed data : List Byte) (next : Spdm) (s : State) : State :=
  if ok then spdmRespond 0x13 code 0 fixed data next s else spdmError 0x04 s

/-- The algorithms of R420 as ALGORITHMS names them (SPDM 1.3; log 39): SHA-256 measurements, ECDSA P-384 with SHA-384, then DHE
secp384r1 and AEAD AES-256-GCM. -/
def algorithmsBody : List Byte :=
  [44, 0, 1, 0] ++ leBytes 4 2 ++ leBytes 4 0x80 ++ leBytes 4 2 ++ List.replicate 16 0 ++ [2, 0x20, 0x10, 0, 3, 0x20, 2, 0]

/-- A measurement block: its index and its SHA-256 digest (SPDM 1.3; log 39). -/
def measurementBlock (x : Nat × BitVec 256) : List Byte :=
  [BitVec.ofNat 8 x.1, 1, 35, 0, BitVec.ofNat 8 (if x.1 < 8 then 1 else x.1 - 6), 32, 0] ++ digestBytes x.2

/-- The blocks that GET_MEASUREMENTS asks for in its second parameter: 0 none, 255 all, else one index. -/
def askedBlocks (ms : SMap (BitVec 256)) (what : Nat) : List (Nat × BitVec 256) :=
  ms.filter fun x => decide (what = 255 ∨ what = x.1)

/-- The record of measurement blocks in MEASUREMENTS: how many, their length, and they. -/
def measurementRecord (ms : SMap (BitVec 256)) (what : Nat) : List Byte :=
  let l := askedBlocks ms what
  BitVec.ofNat 8 l.length :: leBytes 3 (39 * l.length) ++ l.flatMap measurementBlock

/-- GET_MEASUREMENTS (R420): its second parameter is the request's fourth byte. -/
def getMeasurements (data : List Byte) (s : State) : State :=
  let what := (data.getD 3 0).toNat
  if s.trust.spdm = .idle then spdmError 0x04 s
  else if what ≠ 0 ∧ what ≠ 255 ∧ (askedBlocks s.trust.measurements what).isEmpty = true then spdmError 0x01 s
  else spdmRespond 0x13 0x60 (if what = 0 then 9 else 0) (measurementRecord s.trust.measurements what) data s.trust.spdm s

/-! ### The mailbox (R424) -/

/-- The response of a command: its status and a value. -/
def mailReply (status : Nat) (v : Word) (s : State) : State := { s with trust := { s.trust with mailbox := s.trust.mailbox ++ [(status, v)] } }

/-- Statuses. -/
def mbDone : Nat := 0
def mbBadarg : Nat := 2
def mbRefused : Nat := 3

/-- Whether a page range can be device memory: whole pages of a live die's DRAM, of a D column only frames below its pool and
above its tables. -/
def pageOk (t : Trust) (m : Mach) (p : Nat × Nat) : Bool :=
  decide (p.1 % 65536 = 0 ∧ p.2 % 65536 = 0 ∧ 0 < p.2) && t.physOk p.1 p.2 &&
    (isPDie (paDie p.1) ||
      (decide (paOff p.1 / colDram = (paOff p.1 + p.2 - 1) / colDram ∧ poolFirst * 32768 ≤ paOff p.1 % colDram) &&
        decide (paOff p.1 % colDram + p.2 ≤ (m.pool (paDie p.1 * 36 + paOff p.1 / colDram)).first * 32768)))

/-- Whether ranges do not meet one another. -/
def apart : List (Nat × Nat) → Bool
  | [] => true
  | x :: r => r.all (fun y => !overlaps x.1 x.2 y.1 y.2) && apart r

/-- Whether a quota names a live column and does not pass its pool. -/
def quotaOk (t : Trust) (m : Mach) (q : Nat × Nat × Nat) : Bool :=
  decide (2 ≤ q.1 ∧ q.1 < 6) && t.isLive q.1 && decide (q.2.1 < t.count q.1 ∧ q.2.2 ≤ (m.pool (q.1 * 36 + q.2.1)).cap)

/-- The page-table bytes of CREATE as memory, over tables of zeros. -/
def createImage (a : CreateCmd) : Mem := a.tables.foldl (fun img p => img.write p.1 [p.2]) []
/-- The 64 KiB pages of a context's page tables: those that hold its bytes, and the root's (R134). -/
def createTables (a : CreateCmd) : List Nat := ((a.root / 65536 :: a.tables.map fun p => p.1 / 65536).dedup).map (65536 * ·)
/-- The ranges that belong to a context: its device pages and its tables. -/
def Context.ranges (x : Context) : List (Nat × Nat) := x.pages ++ x.tables.map fun a => (a, 65536)

/-- The entries of a table that are not zero. -/
def tableEntries (img : Mem) (table bits : Nat) : List Word :=
  (((img.slice table (8 * 2 ^ bits)).map fun c => c.1 / 8).dedup).map fun i => img.word (table + 8 * i)
/-- Whether the tables of a level and below name only frames of the context's pages and tables of its own (R134, R139): an entry that
faults names none. -/
def tablesOk (t : Trust) (img : Mem) (pages : List (Nat × Nat)) (own : List Nat) : List (Nat × Nat × Option Nat) → List Nat → Bool
  | [], _ => true
  | (_, bits, page) :: r, tables =>
    let frame (w : Word) : Nat := wbits w 47 16 * 2 ^ 16
    let es := (tables.flatMap fun a => tableEntries img a bits).filter fun w =>
      decide (wbits w 63 48 = 0 ∧ wbits w 15 5 = 0) && !wbit w 2 && wbit w 0
    let leaves := es.filter fun w => wbit w 1
    let below := if r.isEmpty then [] else ((es.filter fun w => !wbit w 1).map frame).filter fun f => t.physOk f 65536
    (leaves.all fun w => match page with
      | none => true
      | some p => decide (frame w % 2 ^ p ≠ 0) || !t.physOk (frame w) (2 ^ p) || pages.any fun x => inside (frame w) (2 ^ p) x.1 x.2) &&
      (below.all fun f => own.contains f) && tablesOk t img pages own r below.dedup

/-- Whether CREATE's fields can be met: pages and page tables that the live dies hold and that are no other context's, not retired
(R400), tables at aligned addresses that map nothing else (R134), and a save area of 1 to 4,096 slots that lies in the pages (R383;
log 123). -/
def createOk (t : Trust) (m : Mach) (a : CreateCmd) : Bool :=
  let own := a.pages ++ (createTables a).map fun p => (p, 65536)
  (own.all fun p => pageOk t m p) && apart (own ++ m.contexts.flatMap fun x => x.2.ranges) &&
    (own.all fun p => m.retiredPages.all fun r => !overlaps r 65536 p.1 p.2) && (a.quotas.all fun q => quotaOk t m q) &&
    decide (a.root % 65536 = 0) && tablesOk t (createImage a) a.pages (createTables a) walkLevels [a.root] &&
    decide (1 ≤ a.slots ∧ a.slots ≤ 4096 ∧ a.publishers.length ≤ 4) &&
    (List.range a.slots).all fun i => a.pages.any fun p => inside (a.saveBase.toNat + i * 0x800000) 0x800000 p.1 p.2

/-- CREATE (R425): the pages are zeroed, the tables stand, and the context's key is drawn. -/
def create (a : CreateCmd) (s : State) : State :=
  if (SMap.get? s.mach.contexts a.ctx.toNat).isSome || !createOk s.trust s.mach a then mailReply mbRefused 0 s
  else
    let x : Context :=
      { func := a.func, root := a.root, tables := createTables a, pages := a.pages, quotas := a.quotas, saveBase := a.saveBase, slots := a.slots,
        usedSlots := [], lossAddr := a.lossAddr, fabric := a.fabric, publishers := a.publishers }
    let m := x.ranges.foldl (fun m p => m.zeroHome true p.1 p.2) s.mach
    let m := a.tables.foldl (fun m p => m.writeHome true p.1 1 (Mem.ofBytes [p.2])) m
    mailReply mbDone 0 { s with
      trust := { s.trust with xtsKeys := SMap.set s.trust.xtsKeys a.ctx.toNat (Config.drawnKey m.free) }
      mach := { m with
        contexts := SMap.set m.contexts a.ctx.toNat x
        notices := m.notices.filter fun n => decide (n.ctx ≠ a.ctx)
        free := m.free + 1 } }

/-- DESTROY: the teardown without a record. -/
def destroy (ctx : BitVec 6) (s : State) : State :=
  if (SMap.get? s.mach.contexts ctx.toNat).isNone then mailReply mbBadarg 0 s
  else
    let (_, m) := teardown s.trust ctx s.mach
    mailReply mbDone 0 { s with
      trust := { s.trust with xtsKeys := SMap.erase s.trust.xtsKeys ctx.toNat }
      mach := { m with notices := m.notices.filter fun n => decide (n.ctx ≠ ctx) } }

/-- Limits of the power cap in watts (R431). -/
def capOk (cap : Nat) : Bool := decide (1200 ≤ cap ∧ cap ≤ 2400)

/-- SETCFG: Smax, Fmin and the power cap. -/
def setcfg (smax fmin cap : Nat) (s : State) : State :=
  if 1 ≤ smax ∧ smax ≤ 4096 ∧ fmin ≤ 196608 ∧ capOk cap = true then
    mailReply mbDone 0 { s with trust := { s.trust with smax := smax, fmin := fmin, cap := cap } }
  else mailReply mbBadarg 0 s

/-! ### Manifests (R427) -/

/-- The lowest free manifest slot. -/
def Trust.freeManifest (t : Trust) : Option Nat := (List.range 64).find? fun n => (SMap.get? t.manifests n).isNone
/-- Leaves in the protected store. -/
def Trust.leafCount (t : Trust) : Nat := t.manifests.foldl (fun n x => n + x.2.leaves.length) 0

/-- VERIFY: the checks in order; a manifest that passes takes the lowest free slot. -/
def verify (ctx : BitVec 6) (header leaves sig : BitVec 64) (s : State) : State :=
  match SMap.get? s.mach.contexts ctx.toNat with
  | none => mailReply mbBadarg 0 s
  | some x =>
    let read (a : BitVec 64) (n : Nat) : List Byte := s.mach.host.hostRead (s.mach.hostBase ctx) a.toNat n
    let hb := read header 64
    let hd := wordsOf 8 hb
    let n := wbits (wordAt hd 0) 31 0
    let last := wbits (wordAt hd 0) 63 32
    if wordAt hd 5 ≠ 0 ∨ wordAt hd 6 ≠ 0 ∨ wordAt hd 7 ≠ 0 ∨ n = 0 ∨ 65536 < n ∨ last % 64 ≠ 0 ∨ last = 0 ∨ 0x400000 < last then
      mailReply mbRefused 0 s
    else
      let lb := read leaves (32 * n)
      let ls := (List.range n).map fun i => BitVec.ofNat 256 (leNat ((lb.drop (32 * i)).take 32))
      if treeRoot n ls ≠ digestOf ((hd.drop 1).take 4) then mailReply mbRefused 0 s
      else if !(x.publishers.any fun key => Config.signatureOk key hb (read sig 7856)) then mailReply mbRefused 0 s
      else
        match s.trust.freeManifest with
        | none => mailReply mbRefused 0 s
        | some k =>
          if 262144 < s.trust.leafCount + n then mailReply mbRefused 0 s
          else mailReply mbDone (BitVec.ofNat 64 k)
            { s with trust := { s.trust with manifests := SMap.set s.trust.manifests k ⟨ctx, last, ls⟩ } }

/-- DROPM: a manifest slot of a context is freed; a CWLD that has started keeps what it read of it. -/
def dropm (ctx : BitVec 6) (slot : Nat) (s : State) : State :=
  match s.trust.manifest ctx slot with
  | none => mailReply mbBadarg 0 s
  | some _ => mailReply mbDone 0 { s with trust := { s.trust with manifests := SMap.erase s.trust.manifests slot } }

/-! ### The mailbox's command queue and the device space (R335, R423, R424) -/

/-- A command runs; an opcode word that names none is a bad argument (log 142). -/
def mailRun (c : Option MailCmd) (s : State) : State :=
  match c with
  | none => mailReply mbBadarg 0 s
  | some (.create a) => create a s
  | some (.destroy ctx) => destroy ctx s
  | some (.setcfg smax fmin cap) => setcfg smax fmin cap s
  | some (.verify ctx h l x) => verify ctx h l x s
  | some (.dropm ctx slot) => dropm ctx slot s

/-- The trust die runs the mailbox's commands one at a time, in arrival order. -/
def mailboxTurn (s : State) : State :=
  match s.trust.commands with
  | [] => s
  | c :: r => s.opened (mailRun (Config.mailCommand c) { s with trust := { s.trust with commands := r } })

/-- A function writes its device space: a command of 256 bytes of function 0 at offset 0, or its request queue window; other
offsets ignore writes. -/
def deviceWrite (func : BitVec 4) (off : Nat) (data : List Byte) (s : State) : State :=
  if func = 0 ∧ off = 0 ∧ data.length = 256 then { s with trust := { s.trust with commands := s.trust.commands ++ [data] } }
  else if 0x1000 ≤ off ∧ off + data.length ≤ 0x2000 then { s with mach := submissionRecord func (off - 0x1000) data s.mach }
  else s

/-- The 256 bytes of the response: status 1, busy, while a command has still to run (log 142). -/
def Trust.response (t : Trust) : List Byte :=
  let r : Nat × Word := if t.commands.isEmpty then t.mailbox.getLastD (0, 0) else (1, 0)
  leBytes 8 r.1 ++ leBytes 8 r.2.toNat ++ List.replicate 240 0

/-- A byte that a function reads of its device space; other offsets read zero. -/
def deviceByte (t : Trust) (m : Mach) (func : BitVec 4) (a : Nat) : Byte :=
  if func = 0 ∧ 0x100 ≤ a ∧ a < 0x200 then t.response.getD (a - 0x100) 0
  else if 0x1000 ≤ a ∧ a < 0x2000 then (leBytes 8 (m.queueRead ((a - 0x1000) / 8 * 8)).toNat).getD (a % 8) 0
  else 0

/-- A function reads its device space. -/
def deviceRead (func : BitVec 4) (off n : Nat) (s : State) : State :=
  { s with trust := { s.trust with deviceReads := s.trust.deviceReads ++ [(List.range n).map fun i => deviceByte s.trust s.mach func (off + i)] } }

/-! ### What the DRAM stacks hold (R426) -/

/-- The key of a unit of DRAM: its context's, or the package's. -/
def State.unitKey (s : State) (u : Nat) : Option (BitVec 512) :=
  match s.mach.dramOwner (512 * u) with
  | some ctx => SMap.get? s.trust.xtsKeys ctx.toNat
  | none => s.trust.packageDraw.map Config.packageKey

/-- What the stacks hold of a 512-byte unit: none while its zero bit is set, else the bytes that readers see under AES-XTS, whose
tweak is the unit's number, the physical address shifted right by 9. A reader sees what was written: every access is made with
the owner's key, and a unit that passes to another owner is zeroed (log 141). Once the clocks are stopped the stacks keep what they held (R432). -/
def State.stored (s : State) (u : Nat) : Option (List Byte) :=
  if s.trust.frozen then (s.trust.kept.find? fun x => decide (x.1 = u)).map Prod.snd
  else if u ∈ s.mach.written then (s.unitKey u).map fun k => Config.xts k u (s.mach.dram.read (512 * u) 512) else none

/-! ### Power, freeze and scan (R431, R432) -/

/-- POWER_MONITOR: above the cap the clocks fall by a step of 100 MHz. -/
def powerMonitor (watts : Nat) (s : State) : State :=
  if s.trust.cap < watts then { s with trust := { s.trust with clockSteps := s.trust.clockSteps + 1 } } else s

/-- MODULE_CONTROLLER: on the module, the controller lowers the cap. -/
def moduleController (cap : Nat) (s : State) : State :=
  if s.trust.module ∧ capOk cap = true ∧ cap < s.trust.cap then { s with trust := { s.trust with cap := cap } } else s

/-- FREEZE_N: the key store and every context key are erased, and every clock stops; DRAM keeps its ciphertext. -/
def freezeN (s : State) : State :=
  { s with trust := { s.trust with
      kept := if s.trust.frozen then s.trust.kept else s.mach.written.filterMap fun u => (s.stored u).map fun l => (u, l)
      rootKey := false, xtsKeys := [], packageDraw := none, frozen := true } }

/-- SCAN_SHIFT: n bits of the scan chains, zero without a debug token; only a frozen part shifts them. -/
def scanShift (n : Nat) (s : State) : State :=
  if s.trust.frozen then
    { s with
      trust := { s.trust with scanned := s.trust.scanned ++ (List.range n).map fun i => s.trust.debug && Config.scanBit (s.mach.free + i) }
      mach := { s.mach with free := s.mach.free + n } }
  else s

/-! ### Meanings -/

/-- PACKAGE_RESET (R419). -/
def execPackageReset (b : BootInput) (s : State) : Host.Outcome State Fault Refusal := .next (packageReset b s)
/-- TOPOLOGY_COMPUTE (R421). -/
def execTopologyCompute (links : List (Nat × Nat)) (s : State) : Host.Outcome State Fault Refusal := .next (topologyCompute links s)
/-- GET_VERSION (R420). -/
def execGetVersion (data : List Byte) (s : State) : Host.Outcome State Fault Refusal :=
  .next (spdmRespond 0x10 0x04 0 [] data .idle s)
/-- GET_CAPABILITIES (R420). -/
def execGetCapabilities (data : List Byte) (s : State) : Host.Outcome State Fault Refusal :=
  .next (spdmServe (decide (s.trust.spdm = .idle)) 0x61 [] data .idle s)
/-- NEGOTIATE_ALGORITHMS (R420). -/
def execNegotiateAlgorithms (data : List Byte) (s : State) : Host.Outcome State Fault Refusal :=
  .next (spdmServe (decide (s.trust.spdm = .idle)) 0x63 algorithmsBody data .negotiated s)
/-- GET_DIGESTS (R420). -/
def execGetDigests (data : List Byte) (s : State) : Host.Outcome State Fault Refusal :=
  .next (spdmServe (decide (s.trust.spdm ≠ .idle)) 0x01 [] data s.trust.spdm s)
/-- GET_CERTIFICATE (R420). -/
def execGetCertificate (data : List Byte) (s : State) : Host.Outcome State Fault Refusal :=
  .next (spdmServe (decide (s.trust.spdm ≠ .idle)) 0x02 [] data s.trust.spdm s)
/-- CHALLENGE (R420). -/
def execChallenge (data : List Byte) (s : State) : Host.Outcome State Fault Refusal :=
  .next (spdmServe (decide (s.trust.spdm ≠ .idle)) 0x03 [] data s.trust.spdm s)
/-- GET_MEASUREMENTS (R420). -/
def execGetMeasurements (data : List Byte) (s : State) : Host.Outcome State Fault Refusal :=
  .next (getMeasurements data s)
/-- KEY_EXCHANGE (R420). -/
def execKeyExchange (data : List Byte) (s : State) : Host.Outcome State Fault Refusal :=
  .next (spdmServe (decide (s.trust.spdm = .negotiated)) 0x64 [] data .handshake s)
/-- FINISH (R420). -/
def execFinish (data : List Byte) (s : State) : Host.Outcome State Fault Refusal :=
  .next (spdmServe (decide (s.trust.spdm = .handshake)) 0x65 [] data .session s)
/-- HEARTBEAT (R420). -/
def execHeartbeat (data : List Byte) (s : State) : Host.Outcome State Fault Refusal :=
  .next (spdmServe (decide (s.trust.spdm = .session)) 0x68 [] data .session s)
/-- END_SESSION (R420). -/
def execEndSession (data : List Byte) (s : State) : Host.Outcome State Fault Refusal :=
  .next (spdmServe (decide (s.trust.spdm = .session)) 0x6C [] data .negotiated s)
/-- SPDM_UNSUPPORTED (R420): ERROR with UnsupportedRequest. -/
def execSpdmUnsupported (_ : List Byte) (s : State) : Host.Outcome State Fault Refusal := .next (spdmError 0x07 s)
/-- CREATE (R425). -/
def execCreate (a : CreateCmd) (s : State) : Host.Outcome State Fault Refusal := .next (s.opened (create a s))
/-- DESTROY (R424). -/
def execDestroy (ctx : BitVec 6) (s : State) : Host.Outcome State Fault Refusal := .next (s.opened (destroy ctx s))
/-- SETCFG (R424). -/
def execSetcfg (smax fmin cap : Nat) (s : State) : Host.Outcome State Fault Refusal := .next (s.opened (setcfg smax fmin cap s))
/-- VERIFY (R427). -/
def execVerify (ctx : BitVec 6) (header leaves sig : BitVec 64) (s : State) : Host.Outcome State Fault Refusal :=
  .next (s.opened (verify ctx header leaves sig s))
/-- DROPM (R424). -/
def execDropm (ctx : BitVec 6) (slot : Nat) (s : State) : Host.Outcome State Fault Refusal := .next (s.opened (dropm ctx slot s))
/-- POWER_MONITOR (R431). -/
def execPowerMonitor (watts : Nat) (s : State) : Host.Outcome State Fault Refusal := .next (powerMonitor watts s)
/-- FREEZE_N (R432). -/
def execFreezeN (s : State) : Host.Outcome State Fault Refusal := .next (freezeN s)
/-- SCAN_SHIFT (R432). -/
def execScanShift (n : Nat) (s : State) : Host.Outcome State Fault Refusal := .next (scanShift n s)
/-- MODULE_CONTROLLER (R431). -/
def execModuleController (cap : Nat) (s : State) : Host.Outcome State Fault Refusal := .next (moduleController cap s)

end Sys2Proof.Machine
end

