-- ==== Sys2Proof/Machine/Dispatch.lean ====
section
/-! DEFINITION. What each instruction and event does, one arm per row of the opcode table. -/

namespace Sys2Proof.Machine

/-- The meaning of an instruction or event. -/
def exec (i : Instr) (s : State) : Host.Outcome State Fault Refusal :=
  match i with
  | .nop t => Sys2Proof.Machine.execNop t s
  | .brcNz t q p => Sys2Proof.Machine.execBrcNz t q p s
  | .brcZ t q p => Sys2Proof.Machine.execBrcZ t q p s
  | .jmp t p => Sys2Proof.Machine.execJmp t p s
  | .call t q p => Sys2Proof.Machine.execCall t q p s
  | .ret t a => Sys2Proof.Machine.execRet t a s
  | .loop t k p => Sys2Proof.Machine.execLoop t k p s
  | .lbrk t a n => Sys2Proof.Machine.execLbrk t a n s
  | .tkw t a chk down => Sys2Proof.Machine.execTkw t a chk down s
  | .tks t a down => Sys2Proof.Machine.execTks t a down s
  | .qopCnt t d q => Sys2Proof.Machine.execQopCnt t d q s
  | .qopDrop t q => Sys2Proof.Machine.execQopDrop t q s
  | .qopClr t q => Sys2Proof.Machine.execQopClr t q s
  | .qopTcnt t d down => Sys2Proof.Machine.execQopTcnt t d down s
  | .lmov t d f a => Sys2Proof.Machine.execLmov t d f a s
  | .clh t a abs => Sys2Proof.Machine.execClh t a abs s
  | .yield t => Sys2Proof.Machine.execYield t s
  | .exit t => Sys2Proof.Machine.execExit t s
  | .sleep t a => Sys2Proof.Machine.execSleep t a s
  | .add t d m w a b => Sys2Proof.Machine.execAdd t d m w a b s
  | .sub t d m w a b => Sys2Proof.Machine.execSub t d m w a b s
  | .mul t d f a b => Sys2Proof.Machine.execMul t d f a b s
  | .div t d f w a b => Sys2Proof.Machine.execDiv t d f w a b s
  | .and t d n a b => Sys2Proof.Machine.execAnd t d n a b s
  | .or t d n a b => Sys2Proof.Machine.execOr t d n a b s
  | .xor t d n a b => Sys2Proof.Machine.execXor t d n a b s
  | .shf t d f w a b => Sys2Proof.Machine.execShf t d f w a b s
  | .cmp t d f w a b => Sys2Proof.Machine.execCmp t d f w a b s
  | .sel t d z q a b => Sys2Proof.Machine.execSel t d z q a b s
  | .minmax t d f a b => Sys2Proof.Machine.execMinmax t d f a b s
  | .bits t d f a b => Sys2Proof.Machine.execBits t d f a b s
  | .agen t d f a b => Sys2Proof.Machine.execAgen t d f a b s
  | .li t d v => Sys2Proof.Machine.execLi t d v s
  | .ext t d f a b => Sys2Proof.Machine.execExt t d f a b s
  | .ldl t q a m s_ => Sys2Proof.Machine.execLdl t q a m s_ s
  | .stl t pk q a m s_ => Sys2Proof.Machine.execStl t pk q a m s_ s
  | .ldg t q a m s_ => Sys2Proof.Machine.execLdg t q a m s_ s
  | .stg t pk q a m s_ => Sys2Proof.Machine.execStg t pk q a m s_ s
  | .ldd t q a m s_ => Sys2Proof.Machine.execLdd t q a m s_ s
  | .std t pk q a m s_ => Sys2Proof.Machine.execStd t pk q a m s_ s
  | .ldb t q a m s_ => Sys2Proof.Machine.execLdb t q a m s_ s
  | .stb t pk q a m s_ => Sys2Proof.Machine.execStb t pk q a m s_ s
  | .pfd t a m => Sys2Proof.Machine.execPfd t a m s
  | .loc t d f a => Sys2Proof.Machine.execLoc t d f a s
  | .bopn t d a b => Sys2Proof.Machine.execBopn t d a b s
  | .bshr t d a b => Sys2Proof.Machine.execBshr t d a b s
  | .bfre t d f a b => Sys2Proof.Machine.execBfre t d f a b s
  | .bfreClose t d a => Sys2Proof.Machine.execBfreClose t d a s
  | .binv t d all a b => Sys2Proof.Machine.execBinv t d all a b s
  | .bqry t d f a => Sys2Proof.Machine.execBqry t d f a s
  | .bgrw t d a b => Sys2Proof.Machine.execBgrw t d a b s
  | .bgrwRel t d a b => Sys2Proof.Machine.execBgrwRel t d a b s
  | .leaseAcq t d => Sys2Proof.Machine.execLeaseAcq t d s
  | .leaseRel t => Sys2Proof.Machine.execLeaseRel t s
  | .wld t ks w dev a => Sys2Proof.Machine.execWld t ks w dev a s
  | .wswp t => Sys2Proof.Machine.execWswp t s
  | .mxh t h => Sys2Proof.Machine.execMxh t h s
  | .mxa t sc a b => Sys2Proof.Machine.execMxa t sc a b s
  | .mxsq t a b => Sys2Proof.Machine.execMxsq t a b s
  | .mxmd t a => Sys2Proof.Machine.execMxmd t a s
  | .mxgr t g a b => Sys2Proof.Machine.execMxgr t g a b s
  | .mxdr t m a b => Sys2Proof.Machine.execMxdr t m a b s
  | .mxdrKeep t => Sys2Proof.Machine.execMxdrKeep t s
  | .mxz t both => Sys2Proof.Machine.execMxz t both s
  | .mvk t g a b => Sys2Proof.Machine.execMvk t g a b s
  | .mvq t d msk a b => Sys2Proof.Machine.execMvq t d msk a b s
  | .mvv t msk q a b => Sys2Proof.Machine.execMvv t msk q a b s
  | .mvm t a => Sys2Proof.Machine.execMvm t a s
  | .mvmOff t => Sys2Proof.Machine.execMvmOff t s
  | .mvd t d m f a => Sys2Proof.Machine.execMvd t d m f a s
  | .vadd t d sat m a b => Sys2Proof.Machine.execVadd t d sat m a b s
  | .vsub t d sat m a b => Sys2Proof.Machine.execVsub t d sat m a b s
  | .vmul t d sat m a b => Sys2Proof.Machine.execVmul t d sat m a b s
  | .vfma t d neg q a b => Sys2Proof.Machine.execVfma t d neg q a b s
  | .vmnx t d f a b => Sys2Proof.Machine.execVmnx t d f a b s
  | .vcmp t d sig c a b => Sys2Proof.Machine.execVcmp t d sig c a b s
  | .vsel t d inv k a b => Sys2Proof.Machine.execVsel t d inv k a b s
  | .vlog t d f a b => Sys2Proof.Machine.execVlog t d f a b s
  | .vshf t d f a b => Sys2Proof.Machine.execVshf t d f a b s
  | .vprm t d f a b => Sys2Proof.Machine.execVprm t d f a b s
  | .vred t d f a b => Sys2Proof.Machine.execVred t d f a b s
  | .vwid t d g a => Sys2Proof.Machine.execVwid t d g a s
  | .vnar t d sat g a => Sys2Proof.Machine.execVnar t d sat g a s
  | .vbrd t d x => Sys2Proof.Machine.execVbrd t d x s
  | .vmsk t d f => Sys2Proof.Machine.execVmsk t d f s
  | .vscn t d ex f a => Sys2Proof.Machine.execVscn t d ex f a s
  | .cvt t d sat m g a => Sys2Proof.Machine.execCvt t d sat m g a s
  | .mxq t d m g a => Sys2Proof.Machine.execMxq t d m g a s
  | .mxx t d g a b => Sys2Proof.Machine.execMxx t d g a b s
  | .srsdSet t a b => Sys2Proof.Machine.execSrsdSet t a b s
  | .srsdStep t d => Sys2Proof.Machine.execSrsdStep t d s
  | .sfa t d f a => Sys2Proof.Machine.execSfa t d f a s
  | .sfb t d f a => Sys2Proof.Machine.execSfb t d f a s
  | .sfc t d f a => Sys2Proof.Machine.execSfc t d f a s
  | .smxs t d lg a b => Sys2Proof.Machine.execSmxs t d lg a b s
  | .vlane t d a b => Sys2Proof.Machine.execVlane t d a b s
  | .vidx t d g a b => Sys2Proof.Machine.execVidx t d g a b s
  | .fcls t d a => Sys2Proof.Machine.execFcls t d a s
  | .fsc t d xp m a b => Sys2Proof.Machine.execFsc t d xp m a b s
  | .rndm t d f => Sys2Proof.Machine.execRndm t d f s
  | .vdot t d neg q a b => Sys2Proof.Machine.execVdot t d neg q a b s
  | .cpy t a => Sys2Proof.Machine.execCpy t a s
  | .cacc t d f a b => Sys2Proof.Machine.execCacc t d f a b s
  | .cwt t d a => Sys2Proof.Machine.execCwt t d a s
  | .cwtTest t d a => Sys2Proof.Machine.execCwtTest t d a s
  | .cbnd t q a b => Sys2Proof.Machine.execCbnd t q a b s
  | .cbndOff t a => Sys2Proof.Machine.execCbndOff t a s
  | .rini t d a b => Sys2Proof.Machine.execRini t d a b s
  | .rqry t d a => Sys2Proof.Machine.execRqry t d a s
  | .rwfl t d a b => Sys2Proof.Machine.execRwfl t d a b s
  | .rwfr t d a b => Sys2Proof.Machine.execRwfr t d a b s
  | .rclm t d a b => Sys2Proof.Machine.execRclm t d a b s
  | .rpub t a b => Sys2Proof.Machine.execRpub t a b s
  | .rrel t a b => Sys2Proof.Machine.execRrel t a b s
  | .rlys t d s_ a b => Sys2Proof.Machine.execRlys t d s_ a b s
  | .rlyg t d a b => Sys2Proof.Machine.execRlyg t d a b s
  | .rlygAdd t d a b => Sys2Proof.Machine.execRlygAdd t d a b s
  | .rlygRet t d a b => Sys2Proof.Machine.execRlygRet t d a b s
  | .rlyw t d a b => Sys2Proof.Machine.execRlyw t d a b s
  | .hoff t d a => Sys2Proof.Machine.execHoff t d a s
  | .hctlSeal t d a => Sys2Proof.Machine.execHctlSeal t d a s
  | .hctlCommit t d a => Sys2Proof.Machine.execHctlCommit t d a s
  | .hctlCancel t d a => Sys2Proof.Machine.execHctlCancel t d a s
  | .hctlQry t d a b => Sys2Proof.Machine.execHctlQry t d a b s
  | .hctlDrop t d a => Sys2Proof.Machine.execHctlDrop t d a s
  | .cwld t d a => Sys2Proof.Machine.execCwld t d a s
  | .lendGrp t d s_ a b => Sys2Proof.Machine.execLendGrp t d s_ a b s
  | .lendPark t d s_ a b => Sys2Proof.Machine.execLendPark t d s_ a b s
  | .retn t d s_ a => Sys2Proof.Machine.execRetn t d s_ a s
  | .splitAddr t d s_ a b => Sys2Proof.Machine.execSplitAddr t d s_ a b s
  | .splitRd t d s_ a b => Sys2Proof.Machine.execSplitRd t d s_ a b s
  | .splitWr t d s_ a b => Sys2Proof.Machine.execSplitWr t d s_ a b s
  | .splitCmn t d s_ a => Sys2Proof.Machine.execSplitCmn t d s_ a s
  | .joinAddr t d s_ a b => Sys2Proof.Machine.execJoinAddr t d s_ a b s
  | .joinShr t d s_ a => Sys2Proof.Machine.execJoinShr t d s_ a s
  | .joinCmn t d s_ a => Sys2Proof.Machine.execJoinCmn t d s_ a s
  | .joinRing t d s_ a => Sys2Proof.Machine.execJoinRing t d s_ a s
  | .keywArr t d s_ a => Sys2Proof.Machine.execKeywArr t d s_ a s
  | .keywTkt t d s_ a b => Sys2Proof.Machine.execKeywTkt t d s_ a b s
  | .keywFree t d s_ a => Sys2Proof.Machine.execKeywFree t d s_ a s
  | .keyq t d s_ a => Sys2Proof.Machine.execKeyq t d s_ a s
  | .fence t c o f => Sys2Proof.Machine.execFence t c o f s
  | .trap t a => Sys2Proof.Machine.execTrap t a s
  | .tret t => Sys2Proof.Machine.execTret t s
  | .srr t d r => Sys2Proof.Machine.execSrr t d r s
  | .srw t r b => Sys2Proof.Machine.execSrw t r b s
  | .lnchNode t d a => Sys2Proof.Machine.execLnchNode t d a s
  | .lnchReq t d a => Sys2Proof.Machine.execLnchReq t d a s
  | .errqRd t d a b => Sys2Proof.Machine.execErrqRd t d a b s
  | .errqClr t d a b => Sys2Proof.Machine.execErrqClr t d a b s
  | .errqSum t d a => Sys2Proof.Machine.execErrqSum t d a s
  | .clrd t d a b => Sys2Proof.Machine.execClrd t d a b s
  | .clgtSet t d a b => Sys2Proof.Machine.execClgtSet t d a b s
  | .clgtClr t d a => Sys2Proof.Machine.execClgtClr t d a s
  | .clgtQry t d a b => Sys2Proof.Machine.execClgtQry t d a b s
  | .clhHoldEnd c q => Sys2Proof.Machine.execClhHoldEnd c q s
  | .sleepWake c q => Sys2Proof.Machine.execSleepWake c q s
  | .timedResultLands c q => Sys2Proof.Machine.execTimedResultLands c q s
  | .pendingEntryLands c o => Sys2Proof.Machine.execPendingEntryLands c o s
  | .handshakeAcknowledged c o => Sys2Proof.Machine.execHandshakeAcknowledged c o s
  | .evictionFreezeEnd c => Sys2Proof.Machine.execEvictionFreezeEnd c s
  | .postedWriteAck c n => Sys2Proof.Machine.execPostedWriteAck c n s
  | .retentionEntry die tile errs => Sys2Proof.Machine.execRetentionEntry die tile errs s
  | .retentionExit die tile errs => Sys2Proof.Machine.execRetentionExit die tile errs s
  | .leaseGrant die cluster => Sys2Proof.Machine.execLeaseGrant die cluster s
  | .leaseBudgetEnd die cluster => Sys2Proof.Machine.execLeaseBudgetEnd die cluster s
  | .arrayPass die cluster spare => Sys2Proof.Machine.execArrayPass die cluster spare s
  | .replayFreezeEnd c => Sys2Proof.Machine.execReplayFreezeEnd c s
  | .copyComplete c o => Sys2Proof.Machine.execCopyComplete c o s
  | .arrivalElementLands c o => Sys2Proof.Machine.execArrivalElementLands c o s
  | .accumulateApplied c o => Sys2Proof.Machine.execAccumulateApplied c o s
  | .relayPayloadLands chan toFf slot => Sys2Proof.Machine.execRelayPayloadLands chan toFf slot s
  | .channelBreak chan => Sys2Proof.Machine.execChannelBreak chan s
  | .handoffBlockMove w => Sys2Proof.Machine.execHandoffBlockMove w s
  | .handoffCompletionEvent w => Sys2Proof.Machine.execHandoffCompletionEvent w s
  | .cwldChunk c o => Sys2Proof.Machine.execCwldChunk c o s
  | .keyArrival c o => Sys2Proof.Machine.execKeyArrival c o s
  | .watchdog c q => Sys2Proof.Machine.execWatchdog c q s
  | .submissionRecord func offset data => Sys2Proof.Machine.execSubmissionRecord func offset data s
  | .requestAdmission => Sys2Proof.Machine.execRequestAdmission s
  | .requestAging level index => Sys2Proof.Machine.execRequestAging level index s
  | .kernFire r n => Sys2Proof.Machine.execKernFire r n s
  | .kernFinish r n => Sys2Proof.Machine.execKernFinish r n s
  | .xferFire r n => Sys2Proof.Machine.execXferFire r n s
  | .ifFire r n => Sys2Proof.Machine.execIfFire r n s
  | .whileFire r n => Sys2Proof.Machine.execWhileFire r n s
  | .switchFire r n => Sys2Proof.Machine.execSwitchFire r n s
  | .relayFire r n => Sys2Proof.Machine.execRelayFire r n s
  | .handFire r n => Sys2Proof.Machine.execHandFire r n s
  | .waitFire r n => Sys2Proof.Machine.execWaitFire r n s
  | .doneFire r n => Sys2Proof.Machine.execDoneFire r n s
  | .groupPlacement c => Sys2Proof.Machine.execGroupPlacement c s
  | .kernelImageLoad c noise => Sys2Proof.Machine.execKernelImageLoad c noise s
  | .drainingEnd c => Sys2Proof.Machine.execDrainingEnd c s
  | .preemptionRequest c => Sys2Proof.Machine.execPreemptionRequest c s
  | .preemptTimeoutBoundary c q => Sys2Proof.Machine.execPreemptTimeoutBoundary c q s
  | .groupSave c => Sys2Proof.Machine.execGroupSave c s
  | .groupRestore c => Sys2Proof.Machine.execGroupRestore c s
  | .correctedError die bank e => Sys2Proof.Machine.execCorrectedError die bank e s
  | .uncorrectableError die bank e => Sys2Proof.Machine.execUncorrectableError die bank e s
  | .contextLoss => Sys2Proof.Machine.execContextLoss s
  | .snaggingAudit die kind link diff => Sys2Proof.Machine.execSnaggingAudit die kind link diff s
  | .unreachableVerdict pkg => Sys2Proof.Machine.execUnreachableVerdict pkg s
  | .packageReset b => Sys2Proof.Machine.execPackageReset b s
  | .topologyCompute links => Sys2Proof.Machine.execTopologyCompute links s
  | .getVersion data => Sys2Proof.Machine.execGetVersion data s
  | .getCapabilities data => Sys2Proof.Machine.execGetCapabilities data s
  | .negotiateAlgorithms data => Sys2Proof.Machine.execNegotiateAlgorithms data s
  | .getDigests data => Sys2Proof.Machine.execGetDigests data s
  | .getCertificate data => Sys2Proof.Machine.execGetCertificate data s
  | .challenge data => Sys2Proof.Machine.execChallenge data s
  | .getMeasurements data => Sys2Proof.Machine.execGetMeasurements data s
  | .keyExchange data => Sys2Proof.Machine.execKeyExchange data s
  | .finish data => Sys2Proof.Machine.execFinish data s
  | .heartbeat data => Sys2Proof.Machine.execHeartbeat data s
  | .endSession data => Sys2Proof.Machine.execEndSession data s
  | .spdmUnsupported data => Sys2Proof.Machine.execSpdmUnsupported data s
  | .create a => Sys2Proof.Machine.execCreate a s
  | .destroy ctx => Sys2Proof.Machine.execDestroy ctx s
  | .setcfg smax fmin cap => Sys2Proof.Machine.execSetcfg smax fmin cap s
  | .verify ctx header leaves sig => Sys2Proof.Machine.execVerify ctx header leaves sig s
  | .dropm ctx slot => Sys2Proof.Machine.execDropm ctx slot s
  | .powerMonitor watts => Sys2Proof.Machine.execPowerMonitor watts s
  | .freezeN => Sys2Proof.Machine.execFreezeN s
  | .scanShift n => Sys2Proof.Machine.execScanShift n s
  | .illop w => Sys2Proof.Machine.execIllop w s
  | .corefail c => Sys2Proof.Machine.execCorefail c s
  | .hostReadAbort c o => Sys2Proof.Machine.execHostReadAbort c o s
  | .moduleController cap => Sys2Proof.Machine.execModuleController cap s
  | .peerContextAccess pkg a => Sys2Proof.Machine.execPeerContextAccess pkg a s
  | .peerContextLost pkg ctx => Sys2Proof.Machine.execPeerContextLost pkg ctx s
  | .childPartial grp chunk pkg word => Sys2Proof.Machine.execChildPartial grp chunk pkg word s
  | .rootConfirmation grp chunk word => Sys2Proof.Machine.execRootConfirmation grp chunk word s

end Sys2Proof.Machine
end

