-- ==== Sys2Proof/Machine/Turn.lean ====
section
/-! DEFINITION. Fetching an instruction, a sequencer's part of a cycle, the end of a cycle, and the turns (logs 2 and 3). -/

namespace Sys2Proof

/-- Whether a row of the opcode table is an event: it has no words. -/
def Instr.isEvent (i : Instr) : Bool :=
  match i with
  | .illop _ => false
  | i => i.encoding.isNone

/-- Whether an instruction's chapter lets it wait, uncounted, for a translation, a permission lookup or an admission: one of the
device or block space, not one that names global addresses alone (R120, R133, R150, R231, R250, R268, R275, R322, R429). -/
def Instr.mayWait : Instr → Bool
  | .ldd .. | .std .. | .ldb .. | .stb .. | .pfd .. | .cpy .. | .cacc .. | .mvq .. | .mvv .. | .hoff .. | .cwld .. | .mxdr .. => true
  | .loc _ _ s _ => decide (s ≠ .glb)
  | .wld _ _ _ dev _ => dev
  | .rlys _ _ s _ _ => decide (s = .dev)
  | .fence _ _ _ f => decide (f ≠ .plain)
  | .lendGrp _ _ s _ _ | .lendPark _ _ s _ _ | .retn _ _ s _ | .splitAddr _ _ s _ _ | .splitRd _ _ s _ _ | .splitWr _ _ s _ _
  | .splitCmn _ _ s _ | .joinAddr _ _ s _ _ | .joinShr _ _ s _ | .joinCmn _ _ s _ | .joinRing _ _ s _ | .keywArr _ _ s _
  | .keywTkt _ _ s _ _ | .keywFree _ _ s _ | .keyq _ _ s _ => decide (s = .dev)
  | _ => false

end Sys2Proof

namespace Sys2Proof.Machine

/-! ### A sequencer's part of a cycle -/

/-- Whether a sequencer sleeps (R91). -/
def Seq.asleep (s : Seq) : Bool := match s.pause with | .sleep _ => true | _ => false

/-- The bank record of a poisoned instruction word (R390): the plane offset with bit 63 set. -/
def planeErr (t : Trust) (c : Nat) (q : SeqId) (k : Core) (off : Nat) : ErrInfo :=
  ⟨BitVec.ofNat 64 (2 ^ 63 + off), BitVec.ofNat 2 (seqIndex q), some k.ctx,
    BitVec.ofNat 6 (t.logical (dieOf c) (physOf c)), 0, 0⟩

/-- The current sequencer's part of the cycle: a pre-emption takes it, a broken clause traps (R448), a poisoned word is
consumed (R395), its instruction runs, or its sleep is counted (R91, R96). -/
def seqPart (s : State) : Host.Outcome State Fault Refusal :=
  let c := s.cur
  let q := s.phase.seq
  let k := s.mach.core c
  if k.takeNow q then .next { s with mach := s.mach.setCore c (k.take q) }
  else if k.ready q then
    let pl := k.plane q
    let pc := (k.seq q).pc
    match q, k.clause.bind Clause.back with
    | .cmp, some start =>
      .next { s with mach := takeTrap s.trust c q tClause ((pl.word start).setWidth 64) pc s.mach }
    | _, _ =>
      let i := pl.instr pc
      match pl.bad pc i.length with
      | some off =>
        .next { s with mach := (envOf s i).halt (.lost (dieOf c) 1 (planeErr s.trust c q k off)) s.mach }
      | none => exec i s
  else if k.alive q && !k.frozen q && (k.seq q).asleep then .next { s with mach := countStall s.trust c q 1 s.mach }
  else .next s

/-! ### The end of a cycle -/

/-- A write that takes effect at the end of a cycle. -/
def Mach.applyLater (m : Mach) (c : Nat) (l : Later) : Mach :=
  match l with
  | .localWrite a bs => m.onCore c fun k =>
      { k with local_ := k.local_.write a bs, localPoison := poisonClear k.localPoison a bs.length }
  | .post n => m.onCore c fun k =>
      match k.posted.find? fun p => decide (p.id = n) with
      | none => k
      | some p =>
        { k with
          posted := k.posted.map fun (x : Posted) => if x.id = n then { x with live := true } else x
          lines := k.lines.map fun l => l.update p }
  | .seed w => m.onCore c fun k => { k with seed := w }
  | .step w => m.onCore c fun k => { k with step := w }
  | .dropHold h => m.onCore c fun k => k.drop h
  | .dropRegion rid => m.onCore c fun k => { k with view := k.view.filter fun h => decide (h.rid ≠ rid) }
  | .slotState rid slot n st => m.onRegion rid fun r => { r with ring := r.ring.map fun g => g.setSlots slot (fun _ => st) n }

/-- Whether a write of the end of the cycle is a store that becomes live. -/
def Later.isPost : Later → Bool
  | .post _ => true
  | _ => false

/-- Tokens posted in the cycle can be popped from the next on (R72). -/
def TokQ.settle (t : TokQ) : TokQ := { t with posted := t.posted + t.arriving, arriving := 0 }

/-- The wake events of a cycle are those of its end, before the results of the next cycle land (R91). -/
def Core.wakeSeq (k : Core) (q : SeqId) : Core :=
  if k.frozen q || (k.seq q).taken then k else k.onSeq q Seq.wake

/-- A sequencer's clock goes on: results due land, also those of a sequencer that a trap without a handler stopped (R74), and
a hold may end; a hold to a count of CYCLES ends in a freeze too (R71, R72, R89). -/
def Core.advanceSeq (k : Core) (q : SeqId) : Core :=
  let k := k.onSeq q fun s => { s with status := { s.status with fresh := 0 } }
  let k := if k.frozen q || (k.seq q).taken then k else (k.onSeq q fun s => { s with clock := s.clock + 1 }).landDue q
  k.onSeq q fun s => s.holdEnd k.cycles

/-- An eviction freeze of a fixed length runs down (R126). -/
def Freeze.tick : Freeze → Freeze
  | .cycles n => if n ≤ 1 then .none else .cycles (n - 1)
  | f => f

/-- The end of a core's cycle. In an eviction freeze everything timed stands still, and only CYCLES, which can end a hold,
and a replay freeze that overlaps it go on (R89, R126, R179). Tokens posted in the cycle settle before the results of the next
cycle land, so a token posted with such a result can be popped one cycle later still (R72). Writes of one cycle to the same place
end as the later sequencer in the order ctl, ld, cmp, st leaves them (R124, R178), but stores reach the read-stage lines in the order
in which they drain and in which a load lays them over home (R128 to R130; log 140). -/
def Mach.tick (m : Mach) (c : Nat) : Mach :=
  if (m.core c).freeze ≠ .none then
    m.onCore c fun k =>
      let k := { k with cycles := k.cycles + 1, freeze := k.freeze.tick, replay := k.replay - 1, ended := false }
      k.onSeqs fun s => { s with status := { s.status with fresh := 0 } }.holdEnd k.cycles
  else
    let l := (m.core c).later
    let m := m.onCore c fun k => { k with later := [] }
    let m := (l.filter fun x => !x.isPost).foldr (fun x m => m.applyLater c x) m
    let m := (l.filter Later.isPost).foldl (fun m x => m.applyLater c x) m
    m.onCore c fun k =>
      let k := { k with cycles := k.cycles + 1, ended := false }
      let k := allSeqs.foldl Core.wakeSeq k
      let k := k.onSeqs fun s => { s with inUp := s.inUp.settle, inDown := s.inDown.settle }
      let k := allSeqs.foldl Core.advanceSeq k
      { k with replay := k.replay - 1 }

/-! ### Turns -/

/-- Whether a core is live: its die is, and it is no harvested core (R11). -/
def Trust.liveCore (t : Trust) (c : Nat) : Bool := (t.mask (dieOf c)).getLsbD (physOf c) && t.isLive (dieOf c)

/-- The live cores, each of which takes its cycles from its release from reset on (R53). -/
def State.listed (s : State) : List Nat := (List.range 216).filter fun c => s.trust.liveCore c

/-- The core after the current one, in ascending order and around. -/
def State.nextCore (s : State) : Nat :=
  match s.listed.find? fun c => decide (s.cur < c) with
  | some c => c
  | none => s.listed.headD s.cur

/-- The next part of the current core's cycle; when every core has had its cycle, the errors of the next one are of another
cycle (R393; log 116). -/
def State.pass (s : State) : State :=
  match s.phase with
  | .st => { s with phase := .cmp }
  | .cmp => { s with phase := .ld }
  | .ld => { s with phase := .ctl }
  | .ctl => { s with phase := .tick }
  | .tick =>
    let m : Mach := if s.nextCore ≤ s.cur then { s.mach with cycleErrs := [] } else s.mach
    { s with phase := .st, cur := s.nextCore, mach := m }

/-- Go on to the next part after an outcome. -/
def thenPass : Host.Outcome State Fault Refusal → Host.Outcome State Fault Refusal
  | .next s => .next s.pass
  | r => r

/-- The phase in which a sequencer acts. -/
def SeqId.phase : SeqId → Phase
  | .ctl => .ctl | .ld => .ld | .cmp => .cmp | .st => .st

/-- What a pre-emption does at the start of a cycle of the current core: it takes each of cmp, ld and ctl that it takes in this
cycle, at the boundary or in a wait, since a result that would land in its stop cycle is held and st reads it as in flight (R379,
R382; log 155). -/
def State.takesFirst (s : State) : State :=
  if !(s.mach.core s.cur).preempting then s
  else [SeqId.cmp, .ld, .ctl].foldl (fun s q =>
    match seqPart { s with phase := SeqId.phase q } with
    | .next s' =>
      let k := s.mach.core s.cur
      if !(k.seq q).taken && ((s'.mach.core s.cur).seq q).taken then { s with mach := s.mach.setCore s.cur (k.take q) } else s
    | _ => s) s

/-- The current core's next part of its cycle; nothing while the trust die holds the dies in reset (R11). -/
def cyclePart (s : State) : Host.Outcome State Fault Refusal :=
  if !s.trust.released then .next s
  else
  match s.phase with
  | .tick => .next ({ s with mach := s.mach.tick s.cur }).pass
  | .st => thenPass (seqPart s.takesFirst)
  | _ => thenPass (seqPart s)

/-- The current sequencer waits in this cycle, where its instruction's chapter lets it; one whose wait is waited out goes on with
that wait, and one that a pre-emption would take lets no result of its stop cycle go that st has read (R378, R379; log 155). -/
def waitPart (s : State) : State :=
  let q := s.phase.seq
  let k := s.mach.core s.cur
  let read : Bool := k.preempting && (k.seq q).undo.any fun x => !k.holdsSlot x.2
  if decide (s.phase ≠ .tick) && k.ready q && ((k.plane q).instr (k.seq q).pc).mayWait && !(k.seq q).waitsOut && !read then
    { s with mach := (s.mach.takeWaiting s.cur q).getD s.mach }.pass
  else s

/-- A turn that is no event row. -/
def turnPart (t : Turn) (s : State) : Host.Outcome State Fault Refusal :=
  match t with
  | .event i => if i.isEvent then exec i s else .next s
  | .core c => .next { s with cur := c, phase := .st }
  | .wait => .next (waitPart s)
  | .engine c o => .next { s with mach := engineTurn s.trust c o s.mach }
  | .elapse d n => .next { s with mach := { s.mach with
      dieClock := SMap.set s.mach.dieClock d (s.mach.clockOf d + n)
      cycleErrs := if n = 0 then s.mach.cycleErrs else [] } }
  | .hostWrite f a data => .next { s with mach := { s.mach with host := s.mach.host.hostWrite (f.toNat * 2 ^ 64) (a % 2 ^ 64) data } }
  | .deviceWrite f off data => .next (deviceWrite f off data s)
  | .deviceRead f off n => .next (deviceRead f off n s)
  | .mailbox => .next (mailboxTurn s)
  | .reply r => .next { s with mach := { s.mach with inbox := s.mach.inbox ++ [r] } }

/-- Whether a turn still acts when FREEZE_N has stopped every clock (R432). -/
def Turn.isReset : Turn → Bool
  | .event (.packageReset _) => true
  | .event (.scanShift _) => true
  | _ => false

/-- Whether a turn acts while the trust die holds the dies in reset (R11): bring-up goes on, the trust die's pins and the power
monitor work, and the host has its memory. -/
def Turn.inBringUp : Turn → Bool
  | .event (.packageReset _) => true
  | .event (.topologyCompute _) => true
  | .event (.scanShift _) => true
  | .event .freezeN => true
  | .event (.powerMonitor _) => true
  | .event (.moduleController _) => true
  | .core _ => true
  | .hostWrite .. => true
  | _ => false

/-- Whether a turn acts within a core's cycle: a wait of its sequencer. Every other one stands between two cycles (R125; log 3). -/
def Turn.withinCycle : Turn → Bool
  | .wait => true
  | _ => false

/-- What happens next: the first turn of the agenda, or the next part of the current core's cycle, which goes to its end first. -/
def advance (s : State) : Host.Outcome State Fault Refusal :=
  match s.agenda with
  | [] => if s.trust.frozen then .fault .clocksStopped else cyclePart s
  | t :: r =>
    if s.trust.frozen && !t.isReset then .fault .clocksStopped
    else if !s.trust.released && !t.inBringUp then .next { s with agenda := r }
    else if s.trust.released && !s.trust.frozen && decide (s.phase ≠ .st) && !t.withinCycle then cyclePart s
    else turnPart t { s with agenda := r }

end Sys2Proof.Machine
end

