-- ==== Sys2Proof/Machine/Step.lean ====
section
/-! DEFINITION. One step of the machine, and a state whose next step fetches a given instruction. -/

namespace Sys2Proof.Machine

/-- One step: the next turn, or the next part of the current core's cycle (log 2). -/
def step (s : State) : Host.Outcome State Fault Refusal := advance s

/-- The first sequencer that may issue an instruction (R50). -/
def firstSeq (i : Instr) : SeqId := (allSeqs.find? fun q => i.mayIssue q).getD .ctl

/-- A core with a group of context 0 in the state of R95 whose planes hold an instruction at offset 0. -/
def fetchCore (i : Instr) (bytes : List Byte) (k : Core) : Core :=
  let g : Group := ⟨⟨0, 0⟩, 0, 0, 0, 0, [], List.replicate 4 0x8000, false, false, false, false, false, 0, none, none, [], false, none, [], 0⟩
  let k := k.onSeqs fun _ => { Seq.reset with status := ⟨i.needsSuper, 0, 0⟩ }
  { k with
    group := some g
    clause := none
    freeze := .none
    replay := 0
    active := SMap.set k.active (seqIndex (firstSeq i)) ⟨Mem.ofBytes bytes, [], 0x8000, none⟩ }

/-- The state whose next step runs the instruction of a table word: the word stands at offset 0 of the active plane of a
sequencer that may issue it, on a core whose die implements it, followed by zero words (log 4). -/
def State.withFetchWord (s : State) (nbits w : Nat) : State :=
  let i := (decodeTableWord nbits w).getD (.nop .none)
  let c := if i.onClass true then 0 else 72
  { s with
    agenda := []
    cur := c
    phase := SeqId.phase (firstSeq i)
    mach := s.mach.onCore c (fetchCore i (leBytes 20 (w % 2 ^ nbits))) }

end Sys2Proof.Machine
end

