-- ==== Sys2Proof/Safety.lean ====
section
/-! DEFINITION. What the statements call a state in order, an instruction that issues, and the state it leaves. -/

namespace Sys2Proof.Machine

/-! ### States in order -/

/-- What holds of the trust die in every state: a package that has left bring-up has die 0 and a live D-die (R11), and a frozen
part holds no key (R432). -/
def Trust.Ok (t : Trust) : Prop :=
  (t.released = true → t.isLive 0 = true ∧ (t.isLive 2 = true ∨ t.isLive 3 = true ∨ t.isLive 4 = true ∨ t.isLive 5 = true)) ∧
    (t.frozen = true → t.xtsKeys = [] ∧ t.rootKey = false)

/-- A state whose trust die is in order. -/
def State.Ok (s : State) : Prop := s.trust.Ok

/-- Every memory is in canonical form: addresses rising, no entry 0. -/
def Mach.Canonical (m : Mach) : Prop :=
  m.global.wf = true ∧ m.dram.wf = true ∧ m.host.wf = true ∧ ∀ c, (m.core c).local_.wf = true

/-- The tables of a core have rising keys. -/
def Core.Rising (k : Core) : Prop :=
  (∀ q, SMap.wf (k.seq q).xq = true ∧ SMap.wf (k.seq q).loops = true) ∧ SMap.wf k.vq = true ∧ SMap.wf k.masks = true ∧
    SMap.wf k.granules = true

/-- The tables that statements read have rising keys, and the numbers of requests and launches have all been given out. -/
def State.Tables (s : State) : Prop :=
  SMap.wf s.mach.cores = true ∧ SMap.wf s.mach.contexts = true ∧ SMap.wf s.trust.xtsKeys = true ∧
    (∀ c, (s.mach.core c).Rising) ∧ (∀ x ∈ s.mach.saved, x.image.Rising) ∧
    (∀ p, SMap.wf (s.mach.pool p).frames = true ∧ SMap.wf (s.mach.pool p).usage = true) ∧ (∀ q ∈ s.mach.seqs, SMap.wf q.map = true) ∧
    (∀ r ∈ s.mach.requests, r.rid < s.mach.ids) ∧ ∀ l ∈ s.mach.launches, l.num < s.mach.ids

/-! ### Issuing -/

/-- Instruction i of the current sequencer passes the checks of R47 in s, and m is the machine with its token pops and
reservations made (R73, R75). -/
structure Issues (i : Instr) (s : State) (m : Mach) : Prop where
  line : (s.mach.seq s.cur s.phase.seq).pc.toNat % 64 / 4 + i.length ≤ 16
  words : i.wf = true
  may : i.mayIssue s.phase.seq = true
  names : i.namesOk s.phase.seq = true
  onDie : i.onClass (isPDie (dieOf s.cur)) = true
  mode : i.needsSuper = true → (s.mach.seq s.cur s.phase.seq).status.super = true
  tokens : (envOf s i).tokens s.mach = .ok m
  clause : s.phase.seq = .cmp → (m.core s.cur).clause = none ∨ i.clauseOk = true

/-- Instruction i issues in s and its destination d takes a result at l, its slot holding en meanwhile (R64); m is the machine then. -/
def Takes0 (i : Instr) (s : State) (d : Dst) (en : Entry Word) (l : Landing) (m : Mach) : Prop :=
  ∃ m0, Issues i s m0 ∧ (envOf s i).dst m0 d en = .ok (l, m)

/-- The same for one scalar source a, which reads x (R43, R66). -/
def Takes1 (i : Instr) (s : State) (a : Src) (d : Dst) (en : Entry Word) (x : Word) (l : Landing) (m : Mach) : Prop :=
  ∃ m0 m1, Issues i s m0 ∧ (envOf s i).src m0 a = .ok (x, m1) ∧ (envOf s i).dst m1 d en = .ok (l, m)

/-- The same for two scalar sources a and b, which read x and y (R43, R66). -/
def Takes2 (i : Instr) (s : State) (a b : Src) (d : Dst) (en : Entry Word) (x y : Word) (l : Landing) (m : Mach) : Prop :=
  ∃ m0 m1, Issues i s m0 ∧ (envOf s i).src2 m0 a b = .ok (x, y, m1) ∧ (envOf s i).dst m1 d en = .ok (l, m)

/-- Instruction i issues in s and its scalar source a reads x; m is the machine then. -/
def Reads1 (i : Instr) (s : State) (a : Src) (x : Word) (m : Mach) : Prop :=
  ∃ m0, Issues i s m0 ∧ (envOf s i).src m0 a = .ok (x, m)

/-- The same for two scalar sources. -/
def Reads2 (i : Instr) (s : State) (a b : Src) (x y : Word) (m : Mach) : Prop :=
  ∃ m0, Issues i s m0 ∧ (envOf s i).src2 m0 a b = .ok (x, y, m)

/-- Instruction i issues in s, its vector source a gives x, and its destination d, no loop register, takes a result at l. -/
def Takes1V (i : Instr) (s : State) (a : Src) (d : Dst) (x : VOp) (l : Landing) (m : Mach) : Prop :=
  ∃ m0 m1, Issues i s m0 ∧ (envOf s i).srcV m0 a = .ok (x, m1) ∧ (∀ k, d ≠ .loop k) ∧ (envOf s i).dstV m1 d .pending = .ok (l, m)

/-- The same for two vector sources. -/
def Takes2V (i : Instr) (s : State) (a b : Src) (d : Dst) (x y : VOp) (l : Landing) (m : Mach) : Prop :=
  ∃ m0 m1, Issues i s m0 ∧ (envOf s i).srcV2 m0 a b = .ok ([x, y], m1) ∧ (∀ k, d ≠ .loop k) ∧
    (envOf s i).dstV m1 d .pending = .ok (l, m)

/-- The same for two vector sources and the third. -/
def Takes3V (i : Instr) (s : State) (a b : Src) (q : BitVec 3) (d : Dst) (x y z : VOp) (l : Landing) (m : Mach) : Prop :=
  ∃ m0 m1, Issues i s m0 ∧ (envOf s i).srcV3 m0 a b q = .ok ([x, y, z], m1) ∧ (∀ k, d ≠ .loop k) ∧
    (envOf s i).dstV m1 d .pending = .ok (l, m)

/-- Instruction i issues in s and its vector sources give x, or x and y; m is the machine then. -/
def Reads1V (i : Instr) (s : State) (a : Src) (x : VOp) (m : Mach) : Prop :=
  ∃ m0, Issues i s m0 ∧ (envOf s i).srcV m0 a = .ok (x, m)
def Reads2V (i : Instr) (s : State) (a b : Src) (x y : VOp) (m : Mach) : Prop :=
  ∃ m0, Issues i s m0 ∧ (envOf s i).srcV2 m0 a b = .ok ([x, y], m)

/-! ### What an instruction leaves -/

/-- The state s with the package machine m. -/
def State.on (s : State) (m : Mach) : State := { s with mach := m }

/-- The state after i: m, and its sequencer goes on with the next instruction one cycle later (R45, R72). -/
def State.goesOn (s : State) (i : Instr) (m : Mach) : State := s.on ((envOf s i).advance 1 m)

/-- The state after a timed instruction i: its result lands at l after a latency, with its flags and tokens (R34, R72, R99). -/
def State.lands (s : State) (i : Instr) (m : Mach) (latency : Nat) (l : Landing) (satur divz : Bool) : State :=
  s.goesOn i ((envOf s i).timed m latency l satur divz)

/-- The state after i gives trap or stall h: every queue, token and memory as it was (R73). -/
def State.halts (s : State) (i : Instr) (h : Halt) : State := s.on ((envOf s i).halt h s.mach)

/-- The state after a vector instruction i: v is pending in l with its flags, and a replay freezes cmp where subs positions hold a
subnormal (R17, R179). -/
def State.gives (s : State) (i : Instr) (m : Mach) (l : Landing) (v : VEntry) (flags : BitVec 7) (subs : Nat) : State :=
  s.goesOn i (((envOf s i).startValues m [l.putV v] flags []).onCore s.cur fun k => k.replayFor subs)

/-- A number limited to a range. -/
def limit (lo hi z : Int) : Int := max lo (min hi z)

/-- The signed and the unsigned number of the low w bits of a word (R103). -/
def sIntOf (w : Bool) (x : Word) : Int := if w then (x.setWidth 32 : BitVec 32).toInt else x.toInt
def uIntOf (w : Bool) (x : Word) : Int := if w then ((x.setWidth 32 : BitVec 32).toNat : Int) else x.toNat

/-- The instructions of the integer class, each with its destination and its sources in order (R102). -/
def intForm : Instr → Option (Dst × List Src)
  | .add _ d _ _ a b => some (d, [a, b])
  | .sub _ d _ _ a b => some (d, [a, b])
  | .mul _ d _ a b => some (d, [a, b])
  | .div _ d _ _ a b => some (d, [a, b])
  | .and _ d _ a b => some (d, [a, b])
  | .or _ d _ a b => some (d, [a, b])
  | .xor _ d _ a b => some (d, [a, b])
  | .shf _ d _ _ a b => some (d, [a, b])
  | .cmp _ d _ _ a b => some (d, [a, b])
  | .sel _ d _ q a b => some (d, [a, b, .pop (q.setWidth 4)])
  | .minmax _ d _ a b => some (d, [a, b])
  | .bits _ d _ a b => some (d, [a, b])
  | .agen _ d _ a b => some (d, [a, b])
  | .li _ d _ => some (d, [])
  | .ext _ d _ a b => some (d, [a, b])
  | _ => none

end Sys2Proof.Machine
end

