-- ==== Sys2Proof/Certificates/Slice0/Obligations.lean ====
section
/-! DEFINITION. The statements for the provers: what each instruction and event does, what taking a trap does, what stays
unchanged, and what every step keeps. -/

open Sys2Proof Sys2Proof.Machine

/-- ADD and SUB start, and their results land one cycle later: wrapped, or clamped with satur set when the clamp changed the
value (R98, R103). -/
def Obligations.AddSubResult : Prop :=
  ∀ (s : State) (t : Tok) (d : Dst) (mode : SatMode) (w : Bool) (a b : Src) (x y : Word) (l : Landing) (m : Mach) (minus : Bool),
    let i : Instr := if minus then .sub t d mode w a b else .add t d mode w a b
    let op (p q : Int) : Int := if minus then p - q else p + q
    Takes2 i s a b d .inFlight x y l m →
    (mode = .wrap → w = false → exec i s = .next (s.lands i m 1 (l.put (if minus then x - y else x + y)) false false)) ∧
    (mode = .wrap → w = true →
      exec i s = .next (s.lands i m 1 (l.put (BitVec.signExtend 64
        (if minus then x.setWidth 32 - y.setWidth 32 else x.setWidth 32 + y.setWidth 32 : BitVec 32))) false false)) ∧
    (mode = .ss →
      let z := op (sIntOf w x) (sIntOf w y)
      let n : Nat := if w then 32 else 64
      exec i s = .next (s.lands i m 1 (l.put (BitVec.ofInt 64 (limit (-2 ^ (n - 1)) (2 ^ (n - 1) - 1) z)))
        (decide (limit (-2 ^ (n - 1)) (2 ^ (n - 1) - 1) z ≠ z)) false)) ∧
    (mode = .us →
      let z := op (uIntOf w x) (uIntOf w y)
      let n : Nat := if w then 32 else 64
      exec i s = .next (s.lands i m 1 (l.put (BitVec.ofInt 64 (limit 0 (2 ^ n - 1) z)))
        (decide (limit 0 (2 ^ n - 1) z ≠ z)) false))

/-- MUL starts, and the part of the exact product that its form names lands three cycles later (R101, R104). -/
def Obligations.MulResult : Prop :=
  ∀ (s : State) (t : Tok) (d : Dst) (f : MulForm) (a b : Src) (x y : Word) (l : Landing) (m : Mach),
    let i : Instr := .mul t d f a b
    Takes2 i s a b d .inFlight x y l m →
    (f = .low → exec i s = .next (s.lands i m 3 (l.put (BitVec.ofNat 64 (x.toNat * y.toNat))) false false)) ∧
    (f = .w → exec i s = .next (s.lands i m 3 (l.put ((BitVec.ofInt 32 (sIntOf true x * sIntOf true y)).signExtend 64)) false false)) ∧
    (f = .hs → exec i s = .next (s.lands i m 3 (l.put (BitVec.ofInt 64 (x.toInt * y.toInt / 2 ^ 64))) false false)) ∧
    (f = .hu → exec i s = .next (s.lands i m 3 (l.put (BitVec.ofNat 64 (x.toNat * y.toNat / 2 ^ 64))) false false)) ∧
    (f = .ss →
      let z := x.toInt * y.toInt
      exec i s = .next (s.lands i m 3 (l.put (BitVec.ofInt 64 (limit (-2 ^ 63) (2 ^ 63 - 1) z)))
        (decide (limit (-2 ^ 63) (2 ^ 63 - 1) z ≠ z)) false))

/-- DIV starts, and its result lands 18 cycles later, 10 for .w (R101, R105). -/
def Obligations.DivResult : Prop :=
  ∀ (s : State) (t : Tok) (d : Dst) (f : DivForm) (w : Bool) (a b : Src) (x y : Word) (l : Landing) (m : Mach),
    let i : Instr := .div t d f w a b
    let n : Nat := if w then 10 else 18
    let x' : BitVec 32 := x.setWidth 32
    let y' : BitVec 32 := y.setWidth 32
    Takes2 i s a b d .inFlight x y l m →
    (uIntOf w y = 0 → exec i s = .next (s.lands i m n (l.put (BitVec.allOnes 64)) false true)) ∧
    (uIntOf w y ≠ 0 →
      (f = .u → exec i s = .next (s.lands i m n (l.put (if w then (x' / y').setWidth 64 else x / y)) false false)) ∧
      (f = .ru → exec i s = .next (s.lands i m n (l.put (if w then (x' % y').setWidth 64 else x % y)) false false)) ∧
      (f = .s → exec i s = .next (s.lands i m n (l.put (if w then (x'.sdiv y').signExtend 64 else x.sdiv y)) false false)) ∧
      (f = .rs → exec i s = .next (s.lands i m n (l.put (if w then (x'.srem y').signExtend 64 else x.srem y)) false false)))

/-- AND, OR and XOR start, and one cycle later the word lands whose bits are combined one by one (R101, R106). -/
def Obligations.LogicResult : Prop :=
  ∀ (s : State) (t : Tok) (d : Dst) (n : Bool) (a b : Src) (x y : Word) (l : Landing) (m : Mach) (i : Instr) (op : Bool → Bool → Bool),
    (i = .and t d n a b ∧ op = and) ∨ (i = .or t d n a b ∧ op = or) ∨ (i = .xor t d n a b ∧ op = Bool.xor) →
    Takes2 i s a b d .inFlight x y l m →
    ∃ v : Word, exec i s = .next (s.lands i m 1 (l.put v) false false) ∧
      ∀ k < 64, v.getLsbD k = op (x.getLsbD k) (Bool.xor n (y.getLsbD k))

/-- SHF starts, and one cycle later the shifted or rotated value lands (R98, R101, R107). -/
def Obligations.ShiftResult : Prop :=
  ∀ (s : State) (t : Tok) (d : Dst) (f : ShiftOp) (w : Bool) (a b : Src) (x y : Word) (l : Landing) (m : Mach),
    let i : Instr := .shf t d f w a b
    let x' : BitVec 32 := x.setWidth 32
    let n := y.toNat % 64
    let n' := y.toNat % 32
    Takes2 i s a b d .inFlight x y l m →
    exec i s = .next (s.lands i m 1 (l.put
      (match f, w with
        | .sll, false => x <<< n
        | .srl, false => x >>> n
        | .sra, false => x.sshiftRight n
        | .rol, false => x.rotateLeft n
        | .ror, false => x.rotateRight n
        | .sll, true => (x' <<< n').signExtend 64
        | .srl, true => (x' >>> n').setWidth 64
        | .sra, true => (x'.sshiftRight n').signExtend 64
        | .rol, true => (x'.rotateLeft n').signExtend 64
        | .ror, true => (x'.rotateRight n').signExtend 64)) false false)

/-- CMP and MINMAX start, and one cycle later 1 or 0, or the smaller or larger operand, lands (R101, R108, R110). -/
def Obligations.CompareResult : Prop :=
  (∀ (s : State) (t : Tok) (d : Dst) (f : CmpOp) (w : Bool) (a b : Src) (x y : Word) (l : Landing) (m : Mach),
    let i : Instr := .cmp t d f w a b
    Takes2 i s a b d .inFlight x y l m →
    exec i s = .next (s.lands i m 1 (l.put
      (if (match f with
        | .eq => decide (uIntOf w x = uIntOf w y)
        | .ne => decide (uIntOf w x ≠ uIntOf w y)
        | .lt => decide (sIntOf w x < sIntOf w y)
        | .ge => decide (sIntOf w y ≤ sIntOf w x)
        | .ltu => decide (uIntOf w x < uIntOf w y)
        | .geu => decide (uIntOf w y ≤ uIntOf w x) : Bool) then 1 else 0)) false false)) ∧
  (∀ (s : State) (t : Tok) (d : Dst) (f : MinMaxOp) (a b : Src) (x y : Word) (l : Landing) (m : Mach),
    let i : Instr := .minmax t d f a b
    Takes2 i s a b d .inFlight x y l m →
    ∃ v : Word, exec i s = .next (s.lands i m 1 (l.put v) false false) ∧
      match f with
      | .mins => v.toInt = min x.toInt y.toInt
      | .maxs => v.toInt = max x.toInt y.toInt
      | .minu => v.toNat = min x.toNat y.toNat
      | .maxu => v.toNat = max x.toNat y.toNat)

/-- SEL starts, and one cycle later srcA or srcB lands, as the popped condition says (R101, R109). -/
def Obligations.SelectResult : Prop :=
  ∀ (s : State) (t : Tok) (d : Dst) (z : Bool) (q : BitVec 3) (a b : Src) (x y c : Word) (l : Landing) (m1 m2 m : Mach),
    let i : Instr := .sel t d z q a b
    Reads2 i s a b x y m1 →
    (envOf s i).src m1 (.pop (q.setWidth 4)) = .ok (c, m2) →
    (envOf s i).dst m2 d .inFlight = .ok (l, m) →
    exec i s = .next (s.lands i m 1 (l.put (if (c ≠ 0) ↔ (z = false) then x else y)) false false)

/-- BITS, EXT and LI start, and their results land one cycle later (R101, R111 to R113). -/
def Obligations.BitsResult : Prop :=
  (∀ (s : State) (t : Tok) (d : Dst) (f : BitsOp) (a b : Src) (x : Word) (l : Landing) (m : Mach),
    let i : Instr := .bits t d f a b
    Takes1 i s a d .inFlight x l m →
    f ≠ .bfx → f ≠ .bfxs →
    ∃ v : Word, exec i s = .next (s.lands i m 1 (l.put v) false false) ∧
      match f with
      | .pcnt => v.toNat = ((List.range 64).filter fun k => x.getLsbD k).length
      | .clz => (x = 0 → v.toNat = 64) ∧ (x ≠ 0 → v.toNat < 64 ∧ 2 ^ (63 - v.toNat) ≤ x.toNat ∧ x.toNat < 2 ^ (64 - v.toNat))
      | .ctz => (x = 0 → v.toNat = 64) ∧ (x ≠ 0 → x.getLsbD v.toNat = true ∧ ∀ k < v.toNat, x.getLsbD k = false)
      | .brev => ∀ k < 64, v.getLsbD (63 - k) = x.getLsbD k
      | .bswap => ∀ k < 8, v.extractLsb' (8 * (7 - k)) 8 = x.extractLsb' (8 * k) 8
      | _ => True) ∧
  (∀ (s : State) (t : Tok) (d : Dst) (f : BitsOp) (a b : Src) (x y : Word) (l : Landing) (m : Mach),
    let i : Instr := .bits t d f a b
    let pos := (y.extractLsb' 0 6).toNat
    let len := (y.extractLsb' 8 6).toNat + 1
    Takes2 i s a b d .inFlight x y l m →
    (f = .bfx → exec i s = .next (s.lands i m 1 (l.put (((x >>> pos).setWidth len).setWidth 64)) false false)) ∧
    (f = .bfxs → exec i s = .next (s.lands i m 1 (l.put (((x >>> pos).setWidth len).signExtend 64)) false false))) ∧
  (∀ (s : State) (t : Tok) (d : Dst) (f : ExtOp) (a b : Src) (x : Word) (l : Landing) (m : Mach),
    let i : Instr := .ext t d f a b
    Takes1 i s a d .inFlight x l m →
    f ≠ .pack →
    exec i s = .next (s.lands i m 1 (l.put
      (match f with
        | .s8 => (x.setWidth 8).signExtend 64
        | .s16 => (x.setWidth 16).signExtend 64
        | .s32 => (x.setWidth 32).signExtend 64
        | .z8 => x &&& 0xFF
        | .z16 => x &&& 0xFFFF
        | .z32 => x &&& 0xFFFFFFFF
        | .pack => 0)) false false)) ∧
  (∀ (s : State) (t : Tok) (d : Dst) (a b : Src) (x y : Word) (l : Landing) (m : Mach),
    let i : Instr := .ext t d .pack a b
    Takes2 i s a b d .inFlight x y l m →
    ∃ v : Word, exec i s = .next (s.lands i m 1 (l.put v) false false) ∧
      v.extractLsb' 0 32 = x.extractLsb' 0 32 ∧ v.extractLsb' 32 32 = y.extractLsb' 0 32) ∧
  (∀ (s : State) (t : Tok) (d : Dst) (v : BitVec 16) (l : Landing) (m : Mach),
    let i : Instr := .li t d v
    Takes0 i s d .inFlight l m →
    exec i s = .next (s.lands i m 1 (l.put (v.signExtend 64)) false false))

/-- AGEN starts, and the address lands after its latency (R101, R114). -/
def Obligations.AgenResult : Prop :=
  ∀ (s : State) (t : Tok) (d : Dst) (f : AgenOp) (a b : Src) (x y : Word) (l : Landing) (m : Mach),
    let i : Instr := .agen t d f a b
    Takes2 i s a b d .inFlight x y l m →
    (f = .glb → exec i s = .next (s.lands i m 1 (l.put
      (((x.extractLsb' 8 4).setWidth 64 <<< 28) ||| ((x.extractLsb' 0 6).setWidth 64 <<< 22) ||| (y.extractLsb' 0 22).setWidth 64))
        false false)) ∧
    (f = .blk → exec i s = .next (s.lands i m 1 (l.put (((x.extractLsb' 0 28).setWidth 64 <<< 36) ||| (y.extractLsb' 0 36).setWidth 64))
        false false)) ∧
    (f = .loc → exec i s = .next (s.lands i m 1 (l.put ((x + y) &&& 0x7FFFF)) false false)) ∧
    (∀ n, (f, n) ∈ [(AgenOp.x1, 0), (.x2, 1), (.x4, 2), (.x8, 3), (.x16, 4), (.x64, 6), (.x512, 9), (.x4k, 12)] →
      exec i s = .next (s.lands i m 1 (l.put (x + (y <<< (n : Nat)))) false false)) ∧
    (f = .blkn →
      let p : Int := (x.extractLsb' 16 20).toNat * 32768 + (x.extractLsb' 0 16).toNat + y.toInt
      ∃ v : Word, exec i s = .next (s.lands i m 2 (l.put v) false false) ∧
        v.extractLsb' 36 28 = x.extractLsb' 36 28 ∧
        ((v.extractLsb' 16 20).toNat : Int) = p / 32768 % 2 ^ 20 ∧
        ((v.extractLsb' 0 16).toNat : Int) = p % 32768)

/-- The target of a branch of the current sequencer: its own fetch block plus 64 × disp, modulo 32 KiB (R46). -/
def targetOf (s : State) (p : BitVec 16) : Offset :=
  ((s.mach.seq s.cur s.phase.seq).pc &&& 0x7FC0) + BitVec.setWidth 15 p <<< 6

/-- BRC pops and branches or goes on; JMP and CALL branch, CALL's return address landing one cycle later; RET branches to a
fetch-block start or raises ALIGN with the value (R78 to R80). -/
def Obligations.BranchResult : Prop :=
  (∀ (s : State) (t : Tok) (q : BitVec 4) (p : BitVec 16) (z : Bool) (c : Word) (m : Mach),
    let i : Instr := if z then .brcZ t q p else .brcNz t q p
    Reads1 i s (.pop q) c m →
    (((c = 0) ↔ (z = true)) →
      exec i s = .next (s.on ((envOf s i).jump (targetOf s p) 2 ((envOf s i).finishNow m)))) ∧
    (¬((c = 0) ↔ (z = true)) → exec i s = .next (s.goesOn i ((envOf s i).finishNow m)))) ∧
  (∀ (s : State) (t : Tok) (p : BitVec 16) (m : Mach),
    let i : Instr := .jmp t p
    Issues i s m → exec i s = .next (s.on ((envOf s i).jump (targetOf s p) 2 ((envOf s i).finishNow m)))) ∧
  (∀ (s : State) (t : Tok) (q : BitVec 4) (p : BitVec 16) (l : Landing) (m : Mach),
    let i : Instr := .call t q p
    Takes0 i s (.queue q) .inFlight l m →
    exec i s = .next (s.on ((envOf s i).jump (targetOf s p) 2 ((envOf s i).timed m 1
      (l.put (BitVec.setWidth 64 (((s.mach.seq s.cur s.phase.seq).pc &&& 0x7FC0) + 64))) false false)))) ∧
  (∀ (s : State) (t : Tok) (a : Src) (x : Word) (m : Mach),
    let i : Instr := .ret t a
    Reads1 i s a x m →
    (x.toNat % 64 = 0 ∧ x.toNat < 32768 →
      exec i s = .next (s.on ((envOf s i).jump (x.setWidth 15) 2 ((envOf s i).finishNow m)))) ∧
    (¬(x.toNat % 64 = 0 ∧ x.toNat < 32768) →
      exec i s = .next (s.on (takeTrap s.trust s.cur s.phase.seq tAlign x (s.mach.seq s.cur s.phase.seq).pc s.mach))))

/-- LOOP pushes a level, skips its body, or raises ILLOP; LBRK pops levels or raises ILLOP; a stack whose counters differ never
holds more than eight levels and stays so under LOOP (R81, R83). -/
def Obligations.LoopResult : Prop :=
  (∀ (s : State) (t : Tok) (k : BitVec 3) (p : BitVec 16) (m : Mach),
    let i : Instr := .loop t k p
    let q := s.mach.seq s.cur s.phase.seq
    let stop := targetOf s p
    let used := ∃ l ∈ q.stack, l.k = k
    let illop : Host.Outcome State Fault Refusal := .next (s.on (takeTrap s.trust s.cur s.phase.seq tIllop (i.word.setWidth 64) q.pc s.mach))
    Issues i s m →
    (stop.toNat ≤ q.pc.toNat → exec i s = illop) ∧
    (q.pc.toNat < stop.toNat → used → exec i s = illop) ∧
    (q.pc.toNat < stop.toNat → ¬used → SMap.getD q.loops k.toNat 0 = 0 →
      exec i s = .next (s.on ((envOf s i).jump stop 2 ((envOf s i).finishNow m)))) ∧
    (q.pc.toNat < stop.toNat → ¬used → SMap.getD q.loops k.toNat 0 ≠ 0 →
      exec i s = .next (s.on ((envOf s i).jump (q.pc + 4) 1 (((envOf s i).finishNow m).onSeq s.cur s.phase.seq fun x =>
        { x with stack := ⟨q.pc + 4, stop, k⟩ :: x.stack }))))) ∧
  (∀ (s : State) (t : Tok) (a : Src) (n : BitVec 3) (x : Word) (m : Mach),
    let i : Instr := .lbrk t a n
    let stack := (s.mach.seq s.cur s.phase.seq).stack
    Reads1 i s a x m →
    (x = 0 → exec i s = .next (s.goesOn i ((envOf s i).finishNow m))) ∧
    (x ≠ 0 → stack.length ≤ n.toNat →
      exec i s = .next (s.on (takeTrap s.trust s.cur s.phase.seq tIllop (i.word.setWidth 64) (s.mach.seq s.cur s.phase.seq).pc s.mach))) ∧
    (∀ l rest, x ≠ 0 → stack.drop n.toNat = l :: rest →
      exec i s = .next (s.on ((envOf s i).jump l.stop 2 (((envOf s i).finishNow m).onSeq s.cur s.phase.seq fun x =>
        { x with stack := rest }))))) ∧
  (∀ (stack : List LoopLevel) (k : BitVec 3) (a b : Offset), (stack.map LoopLevel.k).Nodup →
    stack.length ≤ 8 ∧ ((∀ l ∈ stack, l.k ≠ k) → ((⟨a, b, k⟩ :: stack).map LoopLevel.k).Nodup))

/-- The loop test (R82): nothing happens away from the end of the top level; there its counter falls by one, and the sequencer
goes back to the start, or the level is popped and the test repeats. A sequencer that goes on or branches applies it at the
offset it goes to (R72, R82); inside an open clause a test that would go back is not applied (R448). -/
def Obligations.LoopTest : Prop :=
  (∀ (regs : SMap Word) (l : LoopLevel) (r : List LoopLevel) (pc : Offset),
    let v := SMap.getD regs l.k.toNat 0 - 1
    loopTest regs [] pc = (regs, [], pc, false) ∧
    (l.stop ≠ pc → loopTest regs (l :: r) pc = (regs, l :: r, pc, false)) ∧
    (l.stop = pc → v ≠ 0 →
      ∃ regs', loopTest regs (l :: r) pc = (regs', l :: r, l.start, true) ∧
        ∀ n, SMap.wf regs = true → SMap.getD regs' n 0 = if n = l.k.toNat then v else SMap.getD regs n 0) ∧
    (l.stop = pc → v = 0 →
      ∃ regs', loopTest regs (l :: r) pc = loopTest regs' r pc ∧
        ∀ n, SMap.wf regs = true → SMap.getD regs' n 0 = if n = l.k.toNat then 0 else SMap.getD regs n 0)) ∧
  (∀ (e : Env) (m : Mach) (pc : Offset) (delay : Nat),
    let k := m.core e.c
    let x := k.seq e.q
    let k' := (e.jump pc delay m).core e.c
    let x' := k'.seq e.q
    let test := loopTest x.loops x.stack pc
    let held := e.q = .cmp ∧ k.clause.isSome = true ∧ test.2.2.2 = true
    x'.readyAt = x.clock + delay ∧ x'.wdCount = 0 ∧ x'.waitsOut = false ∧
    (¬held → x'.loops = test.1 ∧ x'.stack = test.2.1 ∧ x'.pc = test.2.2.1 ∧ k'.clause = k.clause) ∧
    (held → x'.loops = x.loops ∧ x'.stack = x.stack ∧ x'.pc = pc ∧
      k'.clause = k.clause.map fun cl => { cl with back := some test.2.2.1 }) ∧
    e.advance delay m = e.jump (x.pc + BitVec.ofNat 15 (4 * e.len)) delay m)

/-- NOP, TKW, TKS, CLH, YIELD, SLEEP, EXIT, QOP and LMOV start and have their effects (R84 to R93). -/
def Obligations.ControlForms : Prop :=
  (∀ (s : State) (t : Tok) (m : Mach),
    let i : Instr := .nop t
    Issues i s m → exec i s = .next (s.goesOn i ((envOf s i).finishNow m))) ∧
  (∀ (s : State) (t : Tok) (a : Src) (chk down : Bool) (x : Word) (m : Mach),
    let i : Instr := .tkw t a chk down
    let n := (x.extractLsb' 0 4).toNat
    Reads1 i s a x m →
    (n ≤ ((m.seq s.cur s.phase.seq).inQ down).posted →
      exec i s = .next (s.goesOn i ((envOf s i).finishNow
        (if chk then m else m.onSeq s.cur s.phase.seq fun q => q.tokPop down n)))) ∧
    (((m.seq s.cur s.phase.seq).inQ down).posted < n → exec i s = .next (s.on ((envOf s i).halt (.stall 1) s.mach)))) ∧
  (∀ (s : State) (t : Tok) (a : Src) (down : Bool) (x : Word) (m : Mach),
    let i : Instr := .tks t a down
    let n := (x.extractLsb' 0 4).toNat
    let k := m.core s.cur
    Reads1 i s a x m →
    (n = 0 ∨ k.tokRoom s.phase.seq (!down) n = true →
      exec i s = .next (s.goesOn i ((envOf s i).finishNow
        (m.onCore s.cur fun k => (k.tokReserve s.phase.seq (!down) n).tokPost s.phase.seq (!down) n)))) ∧
    (n ≠ 0 → k.tokRoom s.phase.seq (!down) n = false → exec i s = .next (s.on ((envOf s i).halt (.stall 1) s.mach)))) ∧
  (∀ (s : State) (t : Tok) (a : Src) (abs : Bool) (x : Word) (m : Mach),
    let i : Instr := .clh t a abs
    let n := max 1 (x.extractLsb' 0 32).toNat
    Reads1 i s a x m →
    (abs = true → exec i s = .next (s.on (((envOf s i).advance 1 ((envOf s i).finishNow m)).onSeq s.cur s.phase.seq fun q =>
      { q with pause := .holdAbs x }))) ∧
    (abs = false → exec i s = .next (s.on (((envOf s i).advance n ((envOf s i).finishNow m)).onSeq s.cur s.phase.seq fun q =>
      { q with pause := .hold (q.clock + n) })))) ∧
  (∀ (s : State) (t : Tok) (m : Mach),
    let i : Instr := .yield t
    let m' := (envOf s i).advance 1 ((envOf s i).finishNow m)
    Issues i s m →
    exec i s = .next (s.on (if (m'.core s.cur).preempting then m'.setCore s.cur ((m'.core s.cur).take s.phase.seq) else m'))) ∧
  (∀ (s : State) (t : Tok) (a : Src) (x : Word) (m : Mach),
    let i : Instr := .sleep t a
    Reads1 i s a x m →
    exec i s = .next (s.on (((envOf s i).advance 1 ((envOf s i).finishNow m)).onSeq s.cur s.phase.seq fun q =>
      { q with pause := .sleep (if x = 0 then none else some (q.clock + x.toNat)), nudged := false }))) ∧
  (∀ (s : State) (t : Tok) (m : Mach),
    let i : Instr := .exit t
    let m' := ((envOf s i).finishNow m).onSeq s.cur s.phase.seq fun q =>
      { q with exited := true, stack := [], pause := .run, wdCount := 0 }
    let all := (m'.seq s.cur .ctl).exited && (m'.seq s.cur .ld).exited && (m'.seq s.cur .cmp).exited && (m'.seq s.cur .st).exited
    Issues i s m →
    exec i s = .next (s.on (if all then m'.onCore s.cur fun k =>
      { k with group := k.group.map fun g => { g with draining := true } } else m'))) ∧
  (∀ (s : State) (t : Tok) (d : Dst) (q : QSel) (l : Landing) (m : Mach),
    let i : Instr := .qopCnt t d q
    Takes0 i s d .inFlight l m →
    exec i s = .next (s.lands i m 1 (l.put (BitVec.ofNat 64
      (if q.vec then countSlots ((s.mach.core s.cur).vslots q.q) else countSlots ((s.mach.seq s.cur s.phase.seq).xslots q.q))))
      false false)) ∧
  (∀ (s : State) (t : Tok) (d : Dst) (down : Bool) (l : Landing) (m0 m : Mach),
    let i : Instr := .qopTcnt t d down
    Issues i s m0 → (envOf s i).dst m0 d .inFlight = .ok (l, m) →
    exec i s = .next (s.lands i m 1 (l.put (BitVec.ofNat 64 ((m0.seq s.cur s.phase.seq).inQ down).posted)) false false)) ∧
  (∀ (s : State) (t : Tok) (q : QSel) (m : Mach),
    let i : Instr := .qopDrop t q
    let e := envOf s i
    Issues i s m →
    (∀ v, q.vec = true → (m.core s.cur).headV q.q = .ok v →
      exec i s = .next (s.goesOn i (e.finishNow (m.onCore s.cur fun k => k.popV q.q)))) ∧
    (∀ v, q.vec = false → (m.core s.cur).headX s.phase.seq q.q = .ok v →
      exec i s = .next (s.goesOn i (e.finishNow (m.onCore s.cur fun k => k.popX s.phase.seq q.q)))) ∧
    (∀ h rest, q.vec = true → (m.core s.cur).vslots q.q = h :: rest → h.entry = .poisoned →
      exec i s = .next (s.goesOn i (e.finishNow (m.onCore s.cur fun k => k.popV q.q)))) ∧
    (∀ h rest, q.vec = false → ((m.core s.cur).seq s.phase.seq).xslots q.q = h :: rest → h.entry = .poisoned →
      exec i s = .next (s.goesOn i (e.finishNow (m.onCore s.cur fun k => k.popX s.phase.seq q.q))))) ∧
  (∀ (s : State) (t : Tok) (q : QSel) (m : Mach),
    let i : Instr := .qopClr t q
    let k := m.core s.cur
    Issues i s m →
    (q.vec = true → (∀ x ∈ k.vslots q.q, x.entry ≠ .pending ∧ x.entry ≠ .inFlight) →
      exec i s = .next (s.goesOn i ((envOf s i).finishNow (m.setCore s.cur (k.setV q.q []))))) ∧
    (q.vec = false → (∀ x ∈ (k.seq s.phase.seq).xslots q.q, x.entry ≠ .pending ∧ x.entry ≠ .inFlight) →
      exec i s = .next (s.goesOn i ((envOf s i).finishNow
        (m.setCore s.cur (k.onSeq s.phase.seq fun y => y.setX q.q [])))))) ∧
  (∀ (s : State) (t : Tok) (d : Dst) (f : LmovOp) (a : Src) (x : Word) (l : Landing) (m : Mach),
    let i : Instr := .lmov t d f a
    let table := (s.mach.core s.cur).table
    Takes1 i s a d .inFlight x l m →
    exec i s = .next (s.lands i m 2 (l.put (BitVec.ofNat 64
      (match f, table[x.toNat]? with
        | .lvls, _ => table.length
        | _, none => 0
        | .cnt, some v => v.count
        | .idx, some v => v.idx
        | .kind, some v => v.kind))) false false))

/-- TAKING A TRAP (R370 to R373): the saved registers, the mode, the stream, the report of a kernel without a handler, and all
that stays. That the watchdog count is 0 after it is the model's reading (log 61), no sentence of those rules. -/
def Obligations.TrapEntry : Prop :=
  ∀ (t : Trust) (c : Nat) (q : SeqId) (code : Nat) (info : Word) (pc : Offset) (m : Mach), code < 256 →
    let k := m.core c
    let x := k.seq q
    let m' := takeTrap t c q code info pc m
    let k' := m'.core c
    let x' := k'.seq q
    (x'.trapCause.toNat = code + if x.status.super then 256 else 0) ∧ x'.trapInfo = info ∧
    (∀ cl, q = .cmp → k.clause = some cl → x'.trapPc = cl.at_.setWidth 64) ∧
    ((q ≠ .cmp ∨ k.clause = none) → x'.trapPc = pc.setWidth 64) ∧
    x'.status = { x.status with super := true } ∧ x'.pause = .run ∧ x'.wdCount = 0 ∧
    (0x7C00 < k.imageLen q → x'.pc = 0x7C00 ∧ x'.readyAt = x.clock + 2 ∧ x'.stopped = x.stopped ∧ m'.notices = m.notices) ∧
    (k.imageLen q ≤ 0x7C00 → x'.pc = x.pc ∧ x'.stopped = true ∧
      ∃ n, m'.notices = m.notices ++ [n] ∧ n.ctx = k.ctx ∧ n.reason = 4 ∧ n.trap = code ∧ n.die = dieOf c ∧ n.seq = seqIndex q) ∧
    x'.xq = x.xq ∧ x'.loops = x.loops ∧ x'.stack = x.stack ∧ x'.inUp = x.inUp ∧ x'.inDown = x.inDown ∧ x'.timed = x.timed ∧
    x'.wdLimit = x.wdLimit ∧
    (∀ r, r ≠ q → k'.seq r = k.seq r) ∧ (q ≠ .cmp → k'.clause = k.clause ∧ k'.ops = k.ops) ∧ (q = .cmp → k'.clause = none) ∧
    k'.vq = k.vq ∧ k'.masks = k.masks ∧ k'.local_ = k.local_ ∧ k'.posted = k.posted ∧ k'.view = k.view ∧ k'.group = k.group ∧
    (∀ d, d ≠ c → m'.core d = m.core d) ∧
    m' = { m with cores := m'.cores, notices := m'.notices }

/-- TRAP, TRET, SRR and SRW start and have their effects (R374 to R377); a privileged form in user mode raises PRIV (R52). -/
def Obligations.TrapInstructions : Prop :=
  (∀ (s : State) (t : Tok) (a : Src) (x : Word) (m : Mach),
    let i : Instr := .trap t a
    Reads1 i s a x m →
    exec i s = .next (s.on (takeTrap s.trust s.cur s.phase.seq tTrapi x
      ((s.mach.seq s.cur s.phase.seq).pc + BitVec.ofNat 15 (4 * i.length)) ((envOf s i).finishNow m)))) ∧
  (∀ (s : State) (t : Tok) (m : Mach),
    let i : Instr := .tret t
    let v := (s.mach.seq s.cur s.phase.seq).trapPc
    Issues i s m →
    (v.toNat % 4 = 0 ∧ v.toNat < 0x8000 →
      ∃ m', exec i s = .next (s.on m') ∧ m' = ((envOf s i).finishNow m).onSeq s.cur s.phase.seq (fun x =>
        { x with status := { x.status with super := x.trapCause.getLsbD 8 }, pc := v.setWidth 15, readyAt := x.clock + 2, wdCount := 0 })) ∧
    (¬(v.toNat % 4 = 0 ∧ v.toNat < 0x8000) →
      exec i s = .next (s.on (takeTrap s.trust s.cur s.phase.seq tAlign v (s.mach.seq s.cur s.phase.seq).pc s.mach)))) ∧
  (∀ (s : State) (i : Instr), (∃ t, i = .tret t) ∨ (∃ t d r, i = .srr t d r ∧ r.isSuper = true) ∨
      (∃ t r b, i = .srw t r b ∧ r.isSuper = true) →
    (s.mach.seq s.cur s.phase.seq).pc.toNat % 64 / 4 + i.length ≤ 16 → i.wf = true → i.namesOk s.phase.seq = true →
    (s.mach.seq s.cur s.phase.seq).status.super = false →
    exec i s = .next (s.on (takeTrap s.trust s.cur s.phase.seq tPriv (i.word.setWidth 64) (s.mach.seq s.cur s.phase.seq).pc s.mach))) ∧
  (∀ (s : State) (t : Tok) (d : Dst) (r : SysReg) (l : Landing) (m0 m : Mach),
    let i : Instr := .srr t d r
    Issues i s m0 → (envOf s i).dst m0 d .inFlight = .ok (l, m) →
    exec i s = .next (s.lands i m 2 (l.put ((envOf s i).sysReg m0 r)) false false)) ∧
  (∀ (s : State) (t : Tok) (r : SysReg) (b : Src) (x : Word) (m : Mach),
    let i : Instr := .srw t r b
    let q := s.phase.seq
    Reads1 i s b x m →
    exec i s = .next (s.goesOn i ((envOf s i).finishNow
      (match r with
        | .status => m.onSeq s.cur q fun y => { y with status := ⟨y.status.super, x.setWidth 7 ||| y.status.fresh, y.status.fresh⟩ }
        | .trappc => m.onSeq s.cur q fun y => { y with trapPc := x }
        | .wdlimit => m.onSeq s.cur q fun y => { y with wdLimit := x }
        | .srseed => m.onCore s.cur fun k => { k with later := k.later ++ [.seed x] }
        | _ => m))))

/-- What SRR reads of the registers of its own sequencer, core and die (R53, R54), of the live parts of the package (R53), and of
the check of its array (R242 to R244). -/
def Obligations.SysRegValues : Prop :=
  ∀ (e : Env) (m : Mach),
    let k := m.core e.c
    let x := k.seq e.q
    e.sysReg m .trapcause = x.trapCause ∧ e.sysReg m .trappc = x.trapPc ∧ e.sysReg m .trapinfo = x.trapInfo ∧
    (e.sysReg m .status).toNat = x.status.flags.toNat + (if x.status.super then 256 else 0) ∧
    e.sysReg m .wdlimit = x.wdLimit ∧ (e.sysReg m .ctxid).toNat = k.ctx.toNat ∧
    e.sysReg m .cycles = k.cycles ∧ e.sysReg m .srseed = k.seed ∧
    e.sysReg m .grpid = BitVec.ofNat 64 k.grpid ∧
    e.sysReg m .corelog = BitVec.ofNat 64 (e.trust.logical (e.c / 36) (e.c % 36)) ∧
    e.sysReg m .dieid = BitVec.ofNat 64 (e.c / 36) ∧
    e.sysReg m .dieclass = (if e.c / 36 < 2 then 0 else 1) ∧
    (∀ n < 64, (e.sysReg m .harvest).getLsbD n =
      if n < 36 then (e.trust.live.getD (e.c / 36) 0).getLsbD n
      else if n < 42 then e.trust.dieLive.getD (n - 36) false else false) ∧
    (2 ≤ e.c / 36 → e.sysReg m .chkrow = 0 ∧ e.sysReg m .cellmap = 0) ∧
    (e.c / 36 < 2 →
      let a := m.array (e.c / 36 * 9 + e.c % 36 / 4)
      let w := e.sysReg m .cellmap
      (∀ row col, a.repl = some (row, col) → row < 1024 → col < 1024 →
        e.sysReg m .chkrow = BitVec.ofNat 64 row ∧ w.extractLsb' 0 10 = BitVec.ofNat 10 col ∧
        w.extractLsb' 10 10 = BitVec.ofNat 10 row ∧ w.getLsbD 31 = true) ∧
      (a.repl = none → e.sysReg m .chkrow = BitVec.ofNat 64 (a.passes % 1025) ∧ w.extractLsb' 0 20 = 0 ∧ w.getLsbD 31 = false) ∧
      w.getLsbD 30 = a.spBad ∧ w.getLsbD 29 = decide (a.lease = .offline) ∧ w.extractLsb' 20 9 = 0 ∧ w.extractLsb' 32 32 = 0)

/-- CLH_HOLD_END, SLEEP_WAKE, TIMED_RESULT_LANDS, REPLAY_FREEZE_END, EVICTION_FREEZE_END, WATCHDOG and ILLOP have their effects
(R48, R72, R89, R91, R96, R126, R179). The order of the parts of a cycle (log 3) and the cycles of a replay freeze, also across an
eviction freeze (log 49), are the model's choices. -/
def Obligations.SequencerTime : Prop :=
  (∀ (s : State) (c : Nat) (q : SeqId),
    let x := s.mach.seq c q
    let k := s.mach.core c
    (SMap.get? s.mach.cores c).isSome = true → k.frozen q = false → x.taken = false → x.stopped = false →
    ((∃ n, x.pause = .hold n ∧ n ≤ x.clock) ∨ (∃ a, x.pause = .holdAbs a ∧ a.toNat ≤ k.cycles.toNat) →
      exec (.clhHoldEnd c q) s = .next (s.on (s.mach.onSeq c q fun y => { y with pause := .run }))) ∧
    (∀ limit, x.pause = .sleep limit →
      x.nudged = true ∨ 0 < x.inUp.posted ∨ 0 < x.inDown.posted ∨ (∃ n, limit = some n ∧ n ≤ x.clock) →
      exec (.sleepWake c q) s =
        .next (s.on (s.mach.onSeq c q fun y => { y with pause := .run, nudged := false, readyAt := y.clock + 4 }))) ∧
    (let due := x.timed.filter fun r => decide (r.lands ≤ x.clock)
      let left := k.onSeq q fun y =>
        let y := { y with timed := y.timed.filter fun r => decide (y.clock < r.lands) }
        if k.preempting then { y with undo := due.map fun r => (r, k.before r.dest), flags0 := y.status.flags } else y
      let landed := due.foldl (fun k r => k.landTimed q r) left
      due ≠ [] →
      exec (.timedResultLands c q) s = .next (s.on (s.mach.setCore c landed)) ∧
      (q = .cmp → exec (.replayFreezeEnd c) s = .next (s.on (s.mach.setCore c landed))) ∧
      ∀ r ∈ x.timed, x.clock < r.lands → r ∈ (landed.seq q).timed) ∧
    (∀ before r rest, x.timed = before ++ r :: rest → k.preempting = false → r.lands ≤ x.clock →
      (∀ y ∈ before ++ rest, x.clock < y.lands) →
      exec (.timedResultLands c q) s = .next (s.on (s.mach.onCore c fun k =>
        (k.onSeq q fun y => { y with timed := before ++ rest }).landTimed q r)))) ∧
  (∀ (s : State) (c : Nat), (SMap.get? s.mach.cores c).isSome = true →
    (s.mach.core c).freeze = .save ∨ (s.mach.core c).freeze = .cycles 0 →
    exec (.evictionFreezeEnd c) s = .next (s.on (s.mach.onCore c fun k => { k with freeze := .none }))) ∧
  (∀ (s : State) (c : Nat) (q : SeqId),
    let x := s.mach.seq c q
    (s.mach.core c).alive q = true → x.wdLimit ≠ 0 → x.wdLimit.toNat < x.wdCount →
    exec (.watchdog c q) s = .next (s.on (takeTrap s.trust c q tWatchdog (BitVec.ofNat 64 x.stall) x.pc s.mach))) ∧
  (∀ (s : State) (w : IWord),
    let x := s.mach.seq s.cur s.phase.seq
    errqSumOf w (((s.mach.core s.cur).plane s.phase.seq).wordsAt x.pc).tail = none →
    x.pc.toNat % 64 / 4 + wordCount w ≤ 16 →
    exec (.illop w) s = .next (s.on (takeTrap s.trust s.cur s.phase.seq tIllop (w.setWidth 64) x.pc s.mach)))

/-- How a result lands (R64, R71, R72, R92, R99, R100), how a timed result is issued and its tokens and flags are delivered
(R34, R72, R99), and how a handshake operation finishes (R17, R34). -/
def Obligations.ResultLanding : Prop :=
  (∀ (k : Core) (q : SeqId) (n : BitVec 4) (slot : Nat) (v : Word),
    ((k.seq q).exited = true → k.land (.x q n slot v) = k) ∧
    ((k.seq q).exited = false → SMap.wf (k.seq q).xq = true →
      let k' := k.land (.x q n slot v)
      (k'.seq q).xslots n = ((k.seq q).xslots n).map (fun y => if y.id = slot then ⟨slot, .present v⟩ else y) ∧
      (∀ j, j ≠ n → (k'.seq q).xslots j = (k.seq q).xslots j) ∧ (∀ r, r ≠ q → k'.seq r = k.seq r) ∧
      k'.vq = k.vq ∧ k'.masks = k.masks ∧ k'.local_ = k.local_)) ∧
  (∀ (k : Core) (n : BitVec 4) (slot : Nat) (v : VEntry),
    (k.cmp.exited = true → k.land (.v n slot v) = k) ∧
    (k.cmp.exited = false → SMap.wf k.vq = true →
      let k' := k.land (.v n slot v)
      k'.vslots n = (k.vslots n).map (fun y => if y.id = slot then ⟨slot, .present v⟩ else y) ∧
      (∀ j, j ≠ n → k'.vslots j = k.vslots j) ∧ (∀ r, k'.seq r = k.seq r) ∧ k'.masks = k.masks ∧ k'.local_ = k.local_)) ∧
  (∀ (k : Core) (id : Nat) (d : Landing),
    let at_ := (k.seq (match d with | .loop q _ _ => q | _ => .cmp)).wrote
    (∀ n, d.register.map Prod.snd = some n → (∃ by_, SMap.get? at_ n = some (k.cycles.toNat, by_) ∧ id < by_) → k.landFrom id d = k) ∧
    (d.register = none → k.landFrom id d = k.land d)) ∧
  (∀ (k : Core) (q : SeqId) (r : BitVec 3) (v : Word), SMap.wf (k.seq q).loops = true →
    let k' := k.land (.loop q r v)
    (∀ j, SMap.getD (k'.seq q).loops j 0 = if j = r.toNat then v else SMap.getD (k.seq q).loops j 0) ∧
    (k'.seq q).xq = (k.seq q).xq ∧ k'.vq = k.vq ∧ k'.masks = k.masks ∧ k'.local_ = k.local_) ∧
  (∀ (k : Core) (r : Fin 7) (v : MaskBits), SMap.wf k.masks = true →
    let k' := k.land (.mask r v 0)
    (∀ j, (k'.maskReg j).bits = if j = r.val + 1 then v else (k.maskReg j).bits) ∧
    (∀ q, k'.seq q = k.seq q) ∧ k'.vq = k.vq ∧ k'.local_ = k.local_) ∧
  (∀ v : Word, ∀ j < 1024, (maskOfCount v).getLsbD j = decide (j < v.toNat)) ∧
  (∀ (k : Core) (q : SeqId) (r : Timed),
    ((k.landTimed q r).seq q).status.flags =
      (k.seq q).status.flags ||| ((if r.satur then 1 else 0) ||| (if r.divz then 2 else 0))) ∧
  (∀ (k : Core) (q : SeqId) (pu pd : Bool),
    let k' := k.postTokens q pu pd
    let posted (t : TokQ) : TokQ := { t with reserved := t.reserved - 1, arriving := t.arriving + 1 }
    (k'.seq (upstream q)).inDown =
      (if pu = true ∧ (k.seq (upstream q)).exited = false then posted (k.seq (upstream q)).inDown else (k.seq (upstream q)).inDown) ∧
    (k'.seq (downstream q)).inUp =
      (if pd = true ∧ (k.seq (downstream q)).exited = false then posted (k.seq (downstream q)).inUp else (k.seq (downstream q)).inUp) ∧
    (∀ r, r ≠ upstream q → (k'.seq r).inDown = (k.seq r).inDown) ∧ (∀ r, r ≠ downstream q → (k'.seq r).inUp = (k.seq r).inUp) ∧
    (∀ r, (k'.seq r).xq = (k.seq r).xq ∧ (k'.seq r).pc = (k.seq r).pc ∧ (k'.seq r).status = (k.seq r).status) ∧ k'.vq = k.vq ∧
    ∀ (e : Env) (m : Mach), e.q = q → e.tok.pu = pu → e.tok.pd = pd → m.core e.c = k → (e.finishNow m).core e.c = k') ∧
  (∀ (e : Env) (m : Mach) (latency : Nat) (l : Landing) (satur divz : Bool),
    let k := m.core e.c
    let k' := (e.timed m latency l satur divz).core e.c
    (k'.seq e.q).timed = (k.seq e.q).timed ++ [⟨m.ids, (k.seq e.q).clock + latency, l, satur, divz, e.tok.pu, e.tok.pd⟩] ∧
    (∀ r, r ≠ e.q → k'.seq r = k.seq r) ∧ (k'.seq e.q).xq = (k.seq e.q).xq ∧ (k'.seq e.q).pc = (k.seq e.q).pc ∧
    k'.vq = k.vq ∧ k'.masks = k.masks) ∧
  (∀ (m : Mach) (c : Nat), (m.core c).freeze = .none → (m.core c).later = [] →
    let k := m.core c
    let k' := (m.tick c).core c
    k'.cycles = k.cycles + 1 ∧
    (∀ q, (k'.seq q).inUp.posted = (k.seq q).inUp.posted + (k.seq q).inUp.arriving) ∧
    (∀ q, (k'.seq q).inDown.posted = (k.seq q).inDown.posted + (k.seq q).inDown.arriving) ∧
    (∀ q, (k.seq q).taken = false → (q = .cmp → k.replay = 0) → (k'.seq q).clock = (k.seq q).clock + 1)) ∧
  (∀ (k : Core) (op : Op),
    let k' := k.finish op
    k'.ops = k.ops.filter (fun x => decide (x.id ≠ op.id)) ∧
    (∀ q, (k'.seq q).blockedOn = if (k.seq q).blockedOn = some op.id then none else (k.seq q).blockedOn) ∧
    (k'.seq op.seq).status.flags = (k.seq op.seq).status.flags ||| op.flags ∧
    (∀ q, q ≠ op.seq → (k'.seq q).status = (k.seq q).status) ∧
    (k'.seq (upstream op.seq)).inDown = ((k.postTokens op.seq op.pu op.pd).seq (upstream op.seq)).inDown ∧
    (k'.seq (downstream op.seq)).inUp = ((k.postTokens op.seq op.pu op.pd).seq (downstream op.seq)).inUp ∧
    (∀ q n slot v, op.dests = [.x q n slot v] → (k.seq q).exited = false → SMap.wf (k.seq q).xq = true →
      (k'.seq q).xslots n = ((k.seq q).xslots n).map fun y => if y.id = slot then ⟨slot, .present v⟩ else y) ∧
    (∀ n slot v, op.dests = [.v n slot v] → k.cmp.exited = false → SMap.wf k.vq = true →
      k'.vslots n = (k.vslots n).map fun y => if y.id = slot then ⟨slot, .present v⟩ else y)) ∧
  (∀ (s : State) (c o : Nat) (op : Op) (queue : Bool),
    (s.mach.core c).later = [] → (s.mach.core c).ops.find? (fun x => decide (x.id = o)) = some op →
    op.kind = .values → op.load.bind LoadRef.slice = none → op.dests.any Landing.isQueue = queue →
    exec (if queue then .pendingEntryLands c o else .handshakeAcknowledged c o) s = .next (s.on (s.mach.finish c op)) ∧
    ∀ x ∈ ((s.mach.finish c op).core c).ops, x.id ≠ op.id)

/-- THE write of every memory keeps the canonical form, gives the written bytes and leaves every other; bytes read back one by one,
and numbers are little-endian: byte k of a number is its bits 8 k up (R4). A byte that no cell lists reads 0, which is the
model's own choice (log 6). -/
def Obligations.MemoryCanonical : Prop :=
  (∀ (m : Mem) (a : Nat) (l : List Byte), m.wf = true →
    (m.write a l).wf = true ∧
    ∀ b, Mem.get (m.write a l) b = if a ≤ b ∧ b < a + l.length then l.getD (b - a) 0 else Mem.get m b) ∧
  (∀ (m : Mem) (a n : Nat), m.wf = true → Mem.read m a n = (List.range n).map fun k => Mem.get m (a + k)) ∧
  (∀ n x : Nat, (leBytes n x).length = n ∧ leNat (leBytes n x) = x % 256 ^ n ∧
    ∀ k < n, (leBytes n x).getD k 0 = BitVec.ofNat 8 (x / 256 ^ k)) ∧
  (∀ (m : Mem) (a n : Nat), m.wf = true →
    m.nat a n < 256 ^ n ∧ ∀ k < n, m.nat a n / 256 ^ k % 256 = (Mem.get m (a + k)).toNat) ∧
  (∀ (m : Mem) (a : Nat), (∀ p ∈ m, p.1 ≠ a) → Mem.get m a = 0)

/-- LDL and STL start and have their effects (R121, R124, R126); else they raise ALIGN or SPACE (R120). -/
def Obligations.LocalAccess : Prop :=
  (∀ (s : State) (t : Tok) (q : BitVec 4) (a : Src) (imm : BitVec 8) (z : MSize) (x : Word) (l : Landing) (m0 m1 m : Mach),
    let i : Instr := .ldl t q a imm z
    let e := envOf s i
    let n := sizeBytes z
    let ea := x + imm.signExtend 64 * BitVec.ofNat 64 n
    let m' := m.ownLocal s.cur ea.toNat n
    let k := m'.core s.cur
    Issues i s m0 → e.src m0 a = .ok (x, m1) → e.loadDst m1 q z false = .ok (l, m) →
    (ea.toNat % n ≠ 0 → exec i s = .next (s.on (e.halt (.trap tAlign ea) s.mach))) ∧
    (ea.toNat % n = 0 → 0x80000 ≤ ea.toNat → exec i s = .next (s.on (e.halt (.trap tSpace ea) s.mach))) ∧
    (ea.toNat % n = 0 → ea.toNat < 0x80000 → (∀ w ∈ k.localPoison, overlaps (8 * w) 8 ea.toNat n = false) →
      exec i s = .next (s.lands i m' (if z = .b512 then 5 else 4)
        ((l.put (BitVec.ofNat 64 (k.local_.nat ea.toNat n))).putV ⟨.b, vbitsOf (k.local_.read ea.toNat n)⟩) false false))) ∧
  (∀ (s : State) (t : Tok) (pk : Bool) (q : BitVec 4) (a : Src) (imm : BitVec 8) (z : MSize) (x : Word) (bs : List Byte)
      (m0 m1 m : Mach),
    let i : Instr := .stl t pk q a imm z
    let e := envOf s i
    let n := sizeBytes z
    let ea := x + imm.signExtend 64 * BitVec.ofNat 64 n
    let m' := m.ownLocal s.cur ea.toNat n
    Issues i s m0 → e.src m0 a = .ok (x, m1) → e.storeData m1 pk q z = .ok (bs, m) →
    (ea.toNat % n ≠ 0 → exec i s = .next (s.on (e.halt (.trap tAlign ea) s.mach))) ∧
    (ea.toNat % n = 0 → 0x80000 ≤ ea.toNat → exec i s = .next (s.on (e.halt (.trap tSpace ea) s.mach))) ∧
    (ea.toNat % n = 0 → ea.toNat < 0x80000 →
      (∀ w ∈ (m'.core s.cur).localPoison, overlaps (8 * w) 8 ea.toNat n = true → inside (8 * w) 8 ea.toNat n = true) →
      exec i s = .next (s.goesOn i (e.finishNow (m'.onCore s.cur fun k =>
        { k with later := k.later ++ [.localWrite ea.toNat bs] })))))

/-- The end of a cycle writes the bytes that a local store left (R124), and no other byte of memory. The parts of a cycle, the end
of the cycle before st among them, are the model's choice (log 3). -/
def Obligations.EndOfCycle : Prop :=
  ∀ (s : State) (a : Nat) (bs : List Byte),
    let k := s.mach.core s.cur
    s.agenda = [] → s.trust.frozen = false → s.trust.released = true → s.phase = .tick → k.freeze = .none → k.local_.wf = true →
    k.later = [.localWrite a bs] →
    ∃ t, step s = .next t ∧ t.phase = .st ∧ (t.mach.core s.cur).later = [] ∧ (t.mach.core s.cur).cycles = k.cycles + 1 ∧
      (∀ b, Mem.get (t.mach.core s.cur).local_ b =
        if a ≤ b ∧ b < a + bs.length then bs.getD (b - a) 0 else Mem.get k.local_ b) ∧
      t.mach.global = s.mach.global ∧ t.mach.dram = s.mach.dram ∧ ∀ c, c ≠ s.cur → t.mach.core c = s.mach.core c

/-- The owner rule of a granule (R126). -/
def Obligations.GranuleOwner : Prop :=
  ∀ (m : Mach) (c g : Nat) (gr : Group),
    let k := m.core c
    let k' := (m.ownGranule c g).core c
    k.group = some gr → gr.evicted = [] → SMap.wf k.granules = true → k.local_.wf = true →
    (∀ v ∈ m.saved, v.core ≠ c) →
    k'.granule g = .group gr.gid gr.ctx ∧ (∀ h, h ≠ g → k'.granule h = k.granule h) ∧
    (∀ b, Mem.get k'.local_ b =
      if 4096 * g ≤ b ∧ b < 4096 * g + 4096 ∧ k.granule g ≠ .freed gr.ctx ∧ (∀ x, k.granule g ≠ .group gr.gid x) then 0
      else Mem.get k.local_ b) ∧
    (k.granule g ≠ .freed gr.ctx → (∀ x, k.granule g ≠ .group gr.gid x) → k.freeze = .none →
      k'.freeze = .cycles 64 ∧ ∀ w ∈ k'.localPoison, inside (8 * w) 8 (4096 * g) 4096 = false) ∧
    (k.granule g = .freed gr.ctx → k'.freeze = k.freeze)

/-- The checks of a global and a device access, of a block load and of a block store, in their order (R115, R116, R120, R122, R134,
R290). -/
def Obligations.AccessChecks : Prop :=
  (∀ (e : Env) (m : Mach) (ea : Word) (n : Nat) (store : Bool),
    let a := ea.toNat
    (e.trust.globalOk a = false → e.resolve m .glb ea n store = .error (.trap tSpace ea)) ∧
    (e.trust.globalOk a = true → m.keyOk e.c .glb a n store = false → e.resolve m .glb ea n store = .error (.trap tNokey ea)) ∧
    (e.trust.globalOk a = true → m.keyOk e.c .glb a n store = true → e.resolve m .glb ea n store = .ok (⟨false, a, none⟩, m))) ∧
  (∀ (e : Env) (m : Mach) (ea : Word) (n : Nat) (store : Bool),
    let a := ea.toNat
    let ctx := (m.core e.c).ctx
    let super := ((m.core e.c).seq e.q).status.super
    (2 ^ 57 ≤ a → e.resolve m .dev ea n store = .error (.trap tSpace ea)) ∧
    (a < 2 ^ 57 → translate e.trust m ctx a = .fault → e.resolve m .dev ea n store = .error (.trap tXlate ea)) ∧
    (∀ pa wr sv, a < 2 ^ 57 → translate e.trust m ctx a = .leaf pa wr sv →
      (store = true ∧ wr = false ∨ sv = true ∧ super = false → e.resolve m .dev ea n store = .error (.trap tProt ea)) ∧
      (¬(store = true ∧ wr = false ∨ sv = true ∧ super = false) →
        (m.keyOk e.c .dev a n store = false → e.resolve m .dev ea n store = .error (.trap tNokey ea)) ∧
        (m.keyOk e.c .dev a n store = true → e.resolve m .dev ea n store = .ok (⟨true, pa, none⟩, m))))) ∧
  (∀ (e : Env) (m : Mach) (ea : Word) (n : Nat),
    let a := ea.toNat
    let h := a / 2 ^ 44
    let layer := a / 2 ^ 36 % 256
    let block := a / 2 ^ 16 % 2 ^ 20
    let off := a % 2 ^ 16
    (m.bseq (m.core e.c).ctx h = none → e.resolve m .blk ea n false = .error (.trap tBlock ea)) ∧
    (∀ x, m.bseq (m.core e.c).ctx h = some x →
      ((shapeLayers x.shape ≤ layer ∨ shapeB x.shape < off + n ∨ SMap.get? x.map (layer * 2 ^ 20 + block) = none) →
        e.resolve m .blk ea n false = .error (.trap tBlock ea)) ∧
      (∀ f, layer < shapeLayers x.shape → off + n ≤ shapeB x.shape → SMap.get? x.map (layer * 2 ^ 20 + block) = some f →
        (m.keyOk e.c .blk a n false = false → e.resolve m .blk ea n false = .error (.trap tNokey ea)) ∧
        (m.keyOk e.c .blk a n false = true →
          e.resolve m .blk ea n false =
            .ok (⟨true, framePa (shapePool x.shape) f + off, some ⟨shapePool x.shape, f, off, x.shape⟩⟩, m))))) ∧
  (∀ (e : Env) (m : Mach) (ea : Word) (n : Nat),
    let a := ea.toNat
    let ctx := (m.core e.c).ctx
    let h := a / 2 ^ 44
    let layer := a / 2 ^ 36 % 256
    let key := layer * 2 ^ 20 + a / 2 ^ 16 % 2 ^ 20
    let off := a % 2 ^ 16
    (m.bseq ctx h = none → e.resolve m .blk ea n true = .error (.trap tBlock ea)) ∧
    (∀ x, m.bseq ctx h = some x →
      (shapeLayers x.shape ≤ layer ∨ shapeB x.shape < off + n ∨ m.writable ctx h key = none →
        e.resolve m .blk ea n true = .error (.trap tBlock ea)) ∧
      (∀ m', layer < shapeLayers x.shape → off + n ≤ shapeB x.shape → m.writable ctx h key = some m' →
        (m'.keyOk e.c .blk a n true = false → e.resolve m .blk ea n true = .error (.trap tNokey ea)) ∧
        (∀ x' f, m'.keyOk e.c .blk a n true = true → m'.bseq ctx h = some x' → SMap.get? x'.map key = some f →
          e.resolve m .blk ea n true =
            .ok (⟨true, framePa (shapePool x.shape) f + off, some ⟨shapePool x.shape, f, off, x.shape⟩⟩, m')))) ∧
    (m.unsharePoison ctx h key = none → e.unshare m a = .ok ()) ∧
    (∀ pa, m.unsharePoison ctx h key = some pa →
      e.unshare m a = .error (.lost (m.homeErr true pa).1 (m.homeErr true pa).2.1 (m.homeErr true pa).2.2))) ∧
  (∀ (t : Trust) (a : Nat), t.globalOk a = true ↔
    a < 2 ^ 32 ∧ a / 2 ^ 28 < 6 ∧ t.isLive (a / 2 ^ 28) = true ∧ a / 2 ^ 22 % 64 < t.count (a / 2 ^ 28) ∧
      (a / 2 ^ 28 < 2 ∨ a % 2 ^ 22 < 0x200000)) ∧
  (∀ (m : Mach) (c : Nat) (sp : Space) (a n : Nat) (store : Bool) (r : Region),
    m.regionAt sp (m.core c).ctx a = some r →
    (r.key.state = .lost → m.keyOk c sp a n store = false) ∧
    (r.key.state ≠ .lost → r.ring = none →
      (m.keyOk c sp a n store = true ↔
        ∃ h ∈ (m.core c).view, h.rid = r.rid ∧ (h.right = .excl ∨ (h.right = .read ∧ store = false) ∨ (h.right = .write ∧ store = true)))))

/-- LDG, LDD, LDB, PFD and LOC start and have their effects (R121, R127, R129, R132, R133), or raise the trap of a check (R120). That
a load reads memory as it starts, or with a slice in retention as the slice has left it (R138), is the model's choice (log 60). -/
def Obligations.RemoteLoads : Prop :=
  (∀ (s : State) (t : Tok) (q : BitVec 4) (a : Src) (imm : BitVec 8) (z : MSize) (x : Word) (l : Landing) (m0 m1 m : Mach)
      (i : Instr) (sp : Space),
    let e := envOf s i
    let n := sizeBytes z
    let ea := x + imm.signExtend 64 * BitVec.ofNat 64 n
    (i = .ldg t q a imm z ∧ sp = .glb) ∨ (i = .ldd t q a imm z ∧ sp = .dev) ∨ (i = .ldb t q a imm z ∧ sp = .blk) →
    Issues i s m0 → e.src m0 a = .ok (x, m1) → e.loadDst m1 q z true = .ok (l, m) →
    (ea.toNat % n ≠ 0 → exec i s = .next (s.on (e.halt (.trap tAlign ea) s.mach))) ∧
    (∀ h, ea.toNat % n = 0 → e.resolve m sp ea n false = .error h → exec i s = .next (s.on (e.halt h s.mach))) ∧
    (∀ pl m2, ea.toNat % n = 0 → e.resolve m sp ea n false = .ok (pl, m2) →
      (sp ≠ .blk →
        let dev := decide (sp = .dev)
        let hit := ((m2.core s.cur).line dev ea.toNat).isSome
        let m3 := if dev || hit then m2 else m2.touchSlice ea.toNat
        let slice := if dev || hit then none else m2.retainedSlice ea.toNat
        let st := if slice.isSome then ({ m3.lineAt s.cur dev ea.toNat pl.at_ with poison := [] }, m3)
          else m3.stage s.cur dev ea.toNat pl.at_
        (∀ w ∈ st.1.poison, overlaps (8 * w) 8 (ea.toNat % 512) n = false) → (∀ p ∈ (st.2.core s.cur).posted, p.bad = false) →
        exec i s = .next (s.goesOn i (e.start st.2 .values
          [l.putBytes .b ((st.2.core s.cur).overlay sp ea.toNat (st.1.data.read (ea.toNat % 512) n))] 0 []
          (some ⟨sp, ea.toNat, n, slice⟩)).2)) ∧
      (∀ y, sp = .blk → m2.bseq (m2.core s.cur).ctx (ea.toNat / 2 ^ 44) = some y →
        (∀ w ∈ m2.dramPoison, overlaps (8 * w) 8 pl.at_ n = false) → (∀ p ∈ (m2.core s.cur).posted, p.bad = false) →
        exec i s = .next (s.goesOn i (e.start m2 .values
          [l.putBytes (shapeFmt y.shape) ((m2.core s.cur).overlay .blk ea.toNat (m2.dram.read pl.at_ n))] 0 []
          (some ⟨.blk, ea.toNat, n, none⟩)).2)))) ∧
  (∀ (s : State) (c o ea n key : Nat) (op : Op),
    let m := s.mach
    let ev : Instr := if op.dests.any Landing.isQueue then .pendingEntryLands c o else .handshakeAcknowledged c o
    (m.core c).later = [] → (m.core c).op? o = some op → op.kind = .values → op.load = some ⟨.glb, ea, n, some key⟩ →
    ((SMap.getD m.slices key .new).retained = true → exec ev s = .next s) ∧
    ((SMap.getD m.slices key .new).retained = false → m.exitPoison c op = none →
      exec ev s = .next (s.on ((m.stage c false ea ea).2.finish c op)))) ∧
  (∀ (s : State) (t : Tok) (a : Src) (imm : BitVec 8) (x : Word) (m : Mach),
    let i : Instr := .pfd t a imm
    let e := envOf s i
    let ea := x + imm.signExtend 64 * 512
    Reads1 i s a x m →
    (ea.toNat % 512 ≠ 0 → exec i s = .next (s.on (e.halt (.trap tAlign ea) s.mach))) ∧
    (∀ code info, ea.toNat % 512 = 0 → e.resolve m .dev ea 512 false = .error (.trap code info) →
      exec i s = .next (s.goesOn i (e.finishNow m))) ∧
    (∀ pl m2, ea.toNat % 512 = 0 → e.resolve m .dev ea 512 false = .ok (pl, m2) →
      exec i s = .next (s.goesOn i (e.start (m2.stage s.cur true ea.toNat pl.at_).2 .values [] 0 [] none).2))) ∧
  (∀ (s : State) (t : Tok) (d : Dst) (f : Space) (a : Src) (x : Word) (l : Landing) (m : Mach),
    let i : Instr := .loc t d f a
    let e := envOf s i
    let place := locPlace s.trust m (m.seq s.cur s.phase.seq).status.super (e.ctx m) f x.toNat
    Takes1 i s a d .pending x l m →
    (place = .ok none → exec i s = .next (s.goesOn i (e.startValues m [l.put 0] 0 []))) ∧
    (∀ die tile, place = .ok (some (die, tile)) →
      exec i s = .next (s.goesOn i (e.startValues m [l.put (locWord s.trust e.die e.corelog die tile)] 0 []))))

/-- STG, STD and STB start (R121, R128), and POSTED_WRITE_ACK writes exactly the stored bytes at home (R130). -/
def Obligations.PostedStores : Prop :=
  (∀ (s : State) (t : Tok) (pk : Bool) (q : BitVec 4) (a : Src) (imm : BitVec 8) (z : MSize) (x : Word) (bs : List Byte)
      (m0 m1 m : Mach) (i : Instr) (sp : Space),
    let e := envOf s i
    let n := sizeBytes z
    let ea := x + imm.signExtend 64 * BitVec.ofNat 64 n
    (i = .stg t pk q a imm z ∧ sp = .glb) ∨ (i = .std t pk q a imm z ∧ sp = .dev) ∨ (i = .stb t pk q a imm z ∧ sp = .blk) →
    Issues i s m0 → e.src m0 a = .ok (x, m1) → e.storeData m1 pk q z = .ok (bs, m) →
    (ea.toNat % n ≠ 0 → exec i s = .next (s.on (e.halt (.trap tAlign ea) s.mach))) ∧
    (∀ h, ea.toNat % n = 0 → e.resolve m sp ea n true = .error h → exec i s = .next (s.on (e.halt h s.mach))) ∧
    (∀ pl m2 h, ea.toNat % n = 0 → e.resolve m sp ea n true = .ok (pl, m2) → (m2.core s.cur).posted.length < 16 →
      sp = .blk → e.unshare m ea.toNat = .error h → exec i s = .next (s.on (e.halt h s.mach))) ∧
    (∀ pl m2, ea.toNat % n = 0 → e.resolve m sp ea n true = .ok (pl, m2) → (m2.core s.cur).posted.length < 16 →
      (sp = .blk → e.unshare m ea.toNat = .ok ()) →
      let m3 := if sp = .glb then m2.touchSlice ea.toNat else m2
      let p : Posted := ⟨m3.ids, sp, ea.toNat, pl.at_, bs, pl.block, false, (m2.core s.cur).cycles.toNat, false⟩
      let m4 : Mach := { m3 with ids := m3.ids + 1 }
      let m5 := m4.onCore s.cur fun k => { k with posted := k.posted ++ [p] }
      exec i s = .next (s.goesOn i (e.start (e.later (.post p.id) m5) (.store p.id) [] 0 [] none).2)) ∧
    (∀ pl m2, ea.toNat % n = 0 → e.resolve m sp ea n true = .ok (pl, m2) → 16 ≤ (m2.core s.cur).posted.length →
      exec i s = .next (s.on (e.halt .waitOut s.mach)))) ∧
  (∀ (s : State) (c n : Nat) (p : Posted) (op : Op),
    let k := s.mach.core c
    let dram := decide (p.space ≠ .glb)
    k.posted.find? (fun x => decide (x.id = n)) = some p → p.live = true → p.bad = false →
    k.ops.find? (fun o => decide (o.kind = .store n)) = some op → op.dests = [] → op.fin = [] →
    (∀ x ∈ k.posted.takeWhile fun x => decide (x.id ≠ n),
      x.space ≠ p.space ∨ overlaps x.ea x.data.length p.ea p.data.length = false) →
    (p.space = .glb → s.mach.retainedSlice p.pa = none) →
    (∀ w ∈ s.mach.homePoison dram, overlaps (8 * w) 8 p.pa p.data.length = true → inside (8 * w) 8 p.pa p.data.length = true) →
    (s.mach.home dram).wf = true →
    ∃ m, exec (.postedWriteAck c n) s = .next (s.on m) ∧
      (∀ b, Mem.get (m.home dram) b =
        if p.pa ≤ b ∧ b < p.pa + p.data.length then p.data.getD (b - p.pa) 0 else Mem.get (s.mach.home dram) b) ∧
      m.home (!dram) = s.mach.home (!dram) ∧ (∀ d, (m.core d).local_ = (s.mach.core d).local_) ∧
      (m.core c).posted = k.posted.filter (fun x => decide (x.id ≠ n)) ∧ (∀ o ∈ (m.core c).ops, o.id ≠ op.id)) ∧
  (∀ (s : State) (c n : Nat) (p : Posted) (op : Op),
    let k := s.mach.core c
    k.posted.find? (fun x => decide (x.id = n)) = some p → p.live = true → p.bad = true →
    k.ops.find? (fun o => decide (o.kind = .store n)) = some op →
    (∀ x ∈ k.posted.takeWhile fun x => decide (x.id ≠ n),
      x.space ≠ p.space ∨ overlaps x.ea x.data.length p.ea p.data.length = false) →
    (p.space = .glb → s.mach.retainedSlice p.pa = none) →
    ∃ m, exec (.postedWriteAck c n) s = .next (s.on m) ∧ m.global = s.mach.global ∧ m.dram = s.mach.dram ∧
      (m.core c).posted = k.posted.filter (fun x => decide (x.id ≠ n)) ∧ (∀ o ∈ (m.core c).ops, o.id ≠ op.id) ∧
      ∀ q, ((m.core c).seq q).inUp = (k.seq q).inUp ∧ ((m.core c).seq q).inDown = (k.seq q).inDown)

/-- The block instructions complete (R293 to R300): for every state and operands that meet the conditions of each clause, exec of
BOPN, BSHR, BFRE, BFRE.close, BINV, BQRY, BGRW and BGRW.rel IS a next state, in which ctl waits for the status. BOPN, BQRY, BGRW
and BGRW.rel act at once, and BSHR, BFRE, BFRE.close and BINV act as their status lands, once what they wait for is done. -/
def Obligations.BlockStoreForms : Prop :=
  (∀ (s : State) (t : Tok) (d : Dst) (a b : Src) (x y : Word) (l : Landing) (m : Mach),
    let i : Instr := .bopn t d a b
    let e := envOf s i
    let h := x.toNat % 2 ^ 20
    let ctx := (m.core s.cur).ctx
    let open_ := m.seqs.filter fun q => decide (q.ctx = ctx)
    let bad := x.toNat / 2 ^ 20 ≠ 0 ∨ h = 0 ∨ shapeBad s.trust y = true
    Takes2 i s a b d .pending x y l m →
    (bad → exec i s = .next (s.goesOn i (e.blockDone m l 4 []))) ∧
    (¬bad → (m.bseq ctx h).isSome = true → exec i s = .next (s.goesOn i (e.blockDone m l 9 []))) ∧
    (¬bad → m.bseq ctx h = none → 65536 ≤ open_.length → exec i s = .next (s.goesOn i (e.blockDone m l 10 []))) ∧
    (¬bad → m.bseq ctx h = none → open_.length < 65536 → m.rackFree (shapeDie y) = 0 →
      exec i s = .next (s.goesOn i (e.blockDone m l 3 []))) ∧
    (¬bad → m.bseq ctx h = none → open_.length < 65536 → m.rackFree (shapeDie y) ≠ 0 →
      exec i s = .next (s.goesOn i (e.blockDone { m with
        ids := m.ids + 1
        seqs := m.seqs ++ [⟨ctx, h, y, [], 0⟩]
        regions := m.regions ++ [⟨m.ids, ctx, .blk, h, 0, shapeDie y, ⟨.excl, .group (e.me m), [], [], none, []⟩, none⟩] }
        l 0 [.gain ⟨m.ids, .excl⟩, .lines ⟨false, h, 0⟩])))) ∧
  (∀ (s : State) (t : Tok) (d : Dst) (a b : Src) (x y : Word) (l : Landing) (m : Mach) (p q : BSeq) (r u : Region) (g : Hold),
    let i : Instr := .bshr t d a b
    let e := envOf s i
    let k := m.core s.cur
    let dh := y.toNat % 2 ^ 20
    let dropped := e.later (.dropHold ⟨u.rid, .excl⟩) (e.later (.dropRegion g.rid) m)
    let back : List Fin_ := [.shows r.rid, .shows u.rid]
    Takes2 i s a b d .pending x y l m →
    m.bseq k.ctx (x.toNat / 2 ^ 44) = some p → m.bseq k.ctx dh = some q →
    m.regionAt .blk k.ctx x.toNat = some r → r.key.state ≠ .lost → k.holding r.rid = some g →
    m.regionAt .blk k.ctx (dh * 2 ^ 44) = some u → u.key.state ≠ .lost → k.holding u.rid = some ⟨u.rid, .excl⟩ → u.rid ≠ r.rid →
    (m.rackHas s.cur r.rid g.right = false ∨ m.rackHas s.cur u.rid .excl = false →
      ∃ code ∈ [4, 10, 11, 12], exec i s = .next (s.goesOn i (e.blockDone { m with free := m.free + 1 } l code []))) ∧
    (m.rackHas s.cur r.rid g.right = true → m.rackHas s.cur u.rid .excl = true →
      (y.toNat < 2 ^ 40 →
        exec i s = .next (s.goesOn i (e.blockStart dropped (.bshr (x.toNat / 2 ^ 44) dh (y.toNat / 2 ^ 20 + 1)) l back))) ∧
      (2 ^ 40 ≤ y.toNat → exec i s = .next (s.goesOn i (e.blockDone dropped l 4 back))))) ∧
  (∀ (s : State) (t : Tok) (d : Dst) (f : BfreOp) (a b : Src) (x n : Word) (l : Landing) (m : Mach) (p : BSeq) (r : Region),
    let i : Instr := .bfre t d f a b
    let e := envOf s i
    let k := m.core s.cur
    let block := x.toNat / 2 ^ 16 % 2 ^ 20
    f = .rng ∨ f = .lyrs → Takes2 i s a b d .pending x n l m →
    m.bseq k.ctx (x.toNat / 2 ^ 44) = some p → (f = .rng → x.toNat / 2 ^ 36 % 256 < shapeLayers p.shape) →
    m.regionAt .blk k.ctx x.toNat = some r → r.key.state ≠ .lost → k.holding r.rid = some ⟨r.rid, .excl⟩ →
    m.rackHas s.cur r.rid .excl = true →
    (1 ≤ n.toNat → n.toNat ≤ 2 ^ 20 → block + n.toNat ≤ 2 ^ 20 →
      exec i s = .next (s.goesOn i (e.blockStart (e.later (.dropHold ⟨r.rid, .excl⟩) m)
        (.bfre p.handle (some f) (x.toNat / 2 ^ 36 % 256) block n.toNat) l [.shows r.rid]))) ∧
    (n.toNat = 0 ∨ 2 ^ 20 < n.toNat ∨ 2 ^ 20 < block + n.toNat →
      exec i s = .next (s.goesOn i (e.blockDone (e.later (.dropHold ⟨r.rid, .excl⟩) m) l 4 [.shows r.rid])))) ∧
  (∀ (s : State) (t : Tok) (d : Dst) (a : Src) (x : Word) (l : Landing) (m : Mach) (p : BSeq) (r : Region),
    let i : Instr := .bfreClose t d a
    let e := envOf s i
    let k := m.core s.cur
    Takes1 i s a d .pending x l m → m.bseq k.ctx (x.toNat / 2 ^ 44) = some p →
    m.regionAt .blk k.ctx x.toNat = some r → r.key.state ≠ .lost → k.holding r.rid = some ⟨r.rid, .excl⟩ →
    m.rackHas s.cur r.rid .excl = true →
    exec i s = .next (s.goesOn i (e.blockStart (e.later (.dropHold ⟨r.rid, .excl⟩) m)
      (.bfre p.handle none (x.toNat / 2 ^ 36 % 256) (x.toNat / 2 ^ 16 % 2 ^ 20) 1) l []))) ∧
  (∀ (s : State) (t : Tok) (d : Dst) (all : Bool) (a b : Src) (x y : Word) (l : Landing) (m : Mach) (p : BSeq) (r : Region),
    let i : Instr := .binv t d all a b
    let e := envOf s i
    let k := m.core s.cur
    let t0 := x.toNat % 2 ^ 16
    Takes2 i s a b d .pending x y l m → m.bseq k.ctx (x.toNat / 2 ^ 44) = some p →
    x.toNat / 2 ^ 36 % 256 < shapeLayers p.shape → t0 = 0 ∨ (t0 % 64 = 0 ∧ t0 < shapeT p.shape) →
    m.regionAt .blk k.ctx x.toNat = some r → r.key.state ≠ .lost → k.holding r.rid = some ⟨r.rid, .excl⟩ →
    exec i s = .next (s.goesOn i (e.blockStart m
      (.binv p.handle all (x.toNat / 2 ^ 36 % 256) (x.toNat / 2 ^ 16 % 2 ^ 20) t0 y) l []))) ∧
  (∀ (s : State) (t : Tok) (d : Dst) (f : BqryOp) (a : Src) (x : Word) (l : Landing) (m : Mach) (p : BSeq) (r : Region) (g : Hold),
    let i : Instr := .bqry t d f a
    let e := envOf s i
    let k := m.core s.cur
    let t0 := x.toNat % 2 ^ 16
    Takes1 i s a d .pending x l m → m.bseq k.ctx (x.toNat / 2 ^ 44) = some p →
    (f = .blk ∨ f = .map → x.toNat / 2 ^ 36 % 256 < shapeLayers p.shape) →
    (f = .map → t0 = 0 ∨ (t0 % 64 = 0 ∧ t0 < shapeT p.shape)) →
    f = .pool ∨ f = .quota ∨ (m.regionAt .blk k.ctx x.toNat = some r ∧ r.key.state ≠ .lost ∧ k.holding r.rid = some g) →
    exec i s = .next (s.goesOn i (e.blockDone m l (queryWord m f k.ctx p x.toNat) []))) ∧
  (∀ (s : State) (t : Tok) (d : Dst) (a b : Src) (x n : Word) (l : Landing) (m : Mach) (p : BSeq) (r : Region) (rel : Bool),
    let i : Instr := if rel then .bgrwRel t d a b else .bgrw t d a b
    let e := envOf s i
    let k := m.core s.cur
    let res := reserveFrames rel k.ctx p n.toNat m
    Takes2 i s a b d .pending x n l m → m.bseq k.ctx (x.toNat / 2 ^ 44) = some p →
    m.regionAt .blk k.ctx x.toNat = some r → r.key.state ≠ .lost → k.holding r.rid = some ⟨r.rid, .excl⟩ →
    exec i s = .next (s.goesOn i (e.blockDone res.2 l (BitVec.ofNat 64 res.1) []))) ∧
  (∀ (s : State) (t : Tok) (d : Dst) (a b : Src) (x y : Word) (l : Landing) (m : Mach) (rel : Bool),
    let i : Instr := if rel then .bgrwRel t d a b else .bgrw t d a b
    let e := envOf s i
    let k := m.core s.cur
    Takes2 i s a b d .pending x y l m →
    (m.bseq k.ctx (x.toNat / 2 ^ 44) = none → exec i s = .next (s.on (e.halt (.trap tBlock x) s.mach))) ∧
    (∀ p, m.bseq k.ctx (x.toNat / 2 ^ 44) = some p →
      (∀ r, m.regionAt .blk k.ctx x.toNat = some r → r.key.state = .lost ∨ k.holding r.rid = none) →
      exec i s = .next (s.on (e.halt (.trap tNokey x) s.mach)))) ∧
  (∀ (s : State) (c : Nat) (op : Op) (i : Instr),
    let m := s.mach
    let ctx := (m.core c).ctx
    let ends (r : Nat × Mach) := exec i s = .next (s.on (r.2.finish c { op with dests := op.dests.map (·.put (BitVec.ofNat 64 r.1)) }))
    i = (if op.dests.any Landing.isQueue then .pendingEntryLands c op.id else .handshakeAcknowledged c op.id) →
    (m.core c).later = [] → (m.core c).ops.find? (fun x => decide (x.id = op.id)) = some op →
    (∀ src dst n, op.kind = .bshr src dst n → m.handleDrained c op.id src = true → m.handleDrained c op.id dst = true →
      ends (shareBlocks ctx src dst n m)) ∧
    (∀ h f layer block n, op.kind = .bfre h (some f) layer block n → m.handleDrained c op.id h = true →
      ends (0, m.unmapBlocks ctx h (freesKey (some f) layer block n))) ∧
    (∀ h layer block n, op.kind = .bfre h none layer block n → m.handleDrained c op.id h = true →
      ends (0, (m.unmapBlocks ctx h fun _ => true).closeHandle ctx h)) ∧
    (∀ h all layer block t0 bm q, op.kind = .binv h all layer block t0 bm → m.handleDrained c op.id h = true →
      m.bseq ctx h = some q →
      let keys := (SMap.keys q.map).filter fun k => decide (k % 2 ^ 20 = block) && (all || decide (k / 2 ^ 20 = layer))
      (m.invalidate ctx h t0 bm keys = none → ends (10, m)) ∧
      (∀ m', m.invalidate ctx h t0 bm keys = some m' → (∀ k ∈ keys, m.unsharePoison ctx h k = none) → ends (0, m'))))

/-- What the pool gives out (R285), what a store makes of a block (R289, R290), and what BGRW promises (R300). -/
def Obligations.FramePool : Prop :=
  (∀ (p : Pool) (f : Nat), SMap.wf p.frames = true → p.lowest = some f →
    p.first ≤ f ∧ f < 196608 ∧ SMap.get? p.frames f = none ∧ f ∉ p.retired ∧
    ∀ g, p.first ≤ g → g < f → (SMap.get? p.frames g).isSome = true ∨ g ∈ p.retired) ∧
  (∀ (m : Mach) (ctx : BitVec 6) (h key : Nat) (s : BSeq) (m' : Mach),
    m.bseq ctx h = some s → SMap.wf s.map = true → SMap.wf (m.pool (shapePool s.shape)).frames = true →
    m.writable ctx h key = some m' →
    ∃ s' f, m'.bseq ctx h = some s' ∧ SMap.get? s'.map key = some f ∧
      (∀ j, j ≠ key → SMap.get? s'.map j = SMap.get? s.map j) ∧
      (SMap.get? s.map key = none → SMap.get? (m.pool (shapePool s.shape)).frames f = none ∧
        SMap.get? (m'.pool (shapePool s.shape)).frames f = some ⟨1, 0, ctx⟩) ∧
      (∀ f0 fr, SMap.get? s.map key = some f0 → SMap.get? (m.pool (shapePool s.shape)).frames f0 = some fr →
        (fr.refs ≤ 1 → m' = m ∧ f = f0) ∧
        (1 < fr.refs → f ≠ f0 ∧ SMap.get? (m'.pool (shapePool s.shape)).frames f = some ⟨1, fr.valid, ctx⟩ ∧
          SMap.get? (m'.pool (shapePool s.shape)).frames f0 = some { fr with refs := fr.refs - 1 }))) ∧
  (∀ (ctx : BitVec 6) (s : BSeq) (n : Nat) (m : Mach),
    let pk := shapePool s.shape
    let p := m.pool pk
    (n = 0 ∨ 196608 < n → reserveFrames false ctx s n m = (4, m)) ∧
    (1 ≤ n → n ≤ 196608 → (p.freeCount < p.rsv + n ∨ m.quota ctx pk < p.use ctx + n) →
      reserveFrames false ctx s n m = (10, m)) ∧
    (1 ≤ n → n ≤ 196608 → p.rsv + n ≤ p.freeCount → p.use ctx + n ≤ m.quota ctx pk → SMap.wf p.usage = true →
      m.bseq ctx s.handle = some s →
      ∃ m', reserveFrames false ctx s n m = (0, m') ∧ m'.bseq ctx s.handle = some { s with resv := s.resv + n } ∧
        (m'.pool pk).rsv = p.rsv + n ∧ (m'.pool pk).use ctx = p.use ctx + n ∧ (m'.pool pk).frames = p.frames))

/-- LEND.grp, LEND.park and RETN complete (R150 to R152): for every state and operands that meet the conditions of each clause,
exec IS a next state, the pass under way; and KEY_ARRIVAL gives the key its new holder (R145). The model's choices: the stack of
lenders that a key and a share hold (log 26), TRANSIT from the start of a pass (log 68), and the status of a pass whose key another
sequencer passed on in the same cycle (log 135). -/
def Obligations.KeyPasses : Prop :=
  (∀ (s : State) (t : Tok) (d : Dst) (sp : Space) (a b : Src) (w v : Word) (l : Landing) (m : Mach) (r : Region) (h : Hold)
      (park : Bool),
    let i : Instr := if park then .lendPark t d sp a b else .lendGrp t d sp a b
    let e := envOf s i
    let dest : Holder := if park then .parked (v.setWidth 16) r.ctx none else .group ⟨(e.me m).launch, v.toNat⟩
    Takes2 i s a b d .pending w v l m → e.keyAddr m sp w true = .ok ⟨none, w.toNat⟩ →
    m.regionAt sp (e.ctx m) w.toNat = some r → r.key.state ≠ .lost → (m.core s.cur).holding r.rid = some h →
    m.rackHas s.cur r.rid h.right = true →
    (park = false → v.toNat < 2 ^ 16) → (park = true → v.toNat < 2 ^ 22 ∧ v.toNat / 2 ^ 16 = r.ctx.toNat) →
    exec i s = .next (s.goesOn i
      (e.start (e.later (.dropHold h) (m.transit r h)) (.lend r.rid h.right dest false) [l] 0 [] none).2)) ∧
  (∀ (s : State) (t : Tok) (d : Dst) (sp : Space) (a b : Src) (w v : Word) (l : Landing) (m : Mach) (park : Bool),
    let i : Instr := if park then .lendPark t d sp a b else .lendGrp t d sp a b
    let e := envOf s i
    Takes2 i s a b d .pending w v l m → e.keyAddr m sp w true = .ok ⟨none, w.toNat⟩ →
    (∀ r, m.regionAt sp (e.ctx m) w.toNat = some r → r.key.state = .lost ∨ (m.core s.cur).holding r.rid = none) →
    exec i s = .next (s.on (e.halt (.trap tNokey w) s.mach))) ∧
  (∀ (s : State) (t : Tok) (d : Dst) (sp : Space) (a b : Src) (w v : Word) (l : Landing) (m : Mach) (r : Region) (h : Hold)
      (park : Bool),
    let i : Instr := if park then .lendPark t d sp a b else .lendGrp t d sp a b
    let e := envOf s i
    Takes2 i s a b d .pending w v l m → e.keyAddr m sp w true = .ok ⟨none, w.toNat⟩ →
    m.regionAt sp (e.ctx m) w.toNat = some r → r.key.state ≠ .lost → (m.core s.cur).holding r.rid = some h →
    m.rackHas s.cur r.rid h.right = false →
    ∃ code ∈ [1, 2, 3, 4, 5, 6, 8], exec i s = .next (s.goesOn i (e.status { m with free := m.free + 1 } l code []))) ∧
  (∀ (s : State) (t : Tok) (d : Dst) (sp : Space) (a : Src) (w : Word) (l : Landing) (m : Mach) (r : Region) (h : Hold),
    let i : Instr := .retn t d sp a
    let e := envOf s i
    Takes1 i s a d .pending w l m → e.keyAddr m sp w true = .ok ⟨none, w.toNat⟩ →
    m.regionAt sp (e.ctx m) w.toNat = some r → r.key.state ≠ .lost → (m.core s.cur).holding r.rid = some h →
    m.rackHas s.cur r.rid h.right = true → m.returnsAway r h (e.me m) (e.ctx m) = false →
    exec i s = .next (s.goesOn i
      (e.start (e.later (.dropHold h) (if r.key.lender = [] then m else m.transit r h)) (.retn r.rid h.right) [l] 0 [] none).2)) ∧
  (∀ (s : State) (c o : Nat) (op : Op) (r : Region) (dest : Holder) (g : Group),
    let m := s.mach
    (m.core c).later = [] → (m.core c).ops.find? (fun x => decide (x.id = o)) = some op →
    op.kind = .lend r.rid .excl dest false → op.fin = [] → m.region r.rid = some r → r.key.passable .excl g.gid = true →
    m.drained c o r = true → (m.core c).group = some g → (∀ x, dest = .group x → m.groupExists x = true) → dest.pkg? = none →
    ∃ m', exec (.keyArrival c o) s = .next (s.on m') ∧
      (m'.region r.rid).map Region.key = some { r.key with
        state := (match dest with | .group _ => .excl | _ => .transit), holder := dest, lender := g.gid :: r.key.lender } ∧
      (∀ rid, rid ≠ r.rid → m'.region rid = m.region rid) ∧ (∀ x ∈ (m'.core c).ops, x.id ≠ op.id)) ∧
  (∀ (s : State) (c o : Nat) (op : Op) (r : Region),
    let m := s.mach
    (m.core c).later = [] → (m.core c).ops.find? (fun x => decide (x.id = o)) = some op →
    op.kind = .retn r.rid .excl → m.region r.rid = some r →
    r.key.passable .excl (((m.core c).group.map Group.gid).getD ⟨0, 0⟩) = true → m.drained c o r = true →
    (r.key.lender = [] → (m.core c).ctx = r.ctx →
      exec (.keyArrival c o) s = .next (s.on ((m.setKey r.rid ⟨.free, .none, [], [], none, []⟩).finish c
        { op with dests := op.dests.map (·.put 7) }))) ∧
    (r.key.lender = [] → (m.core c).ctx ≠ r.ctx → (r.space = .glb → m.retainedSlice r.base = none) →
      exec (.keyArrival c o) s = .next (s.on (((m.zeroRegion r).setKey r.rid ⟨.free, .none, [], [], none, []⟩).finish c
        { op with dests := op.dests.map (·.put 7) }))) ∧
    (∀ x rest, r.key.lender = x :: rest → m.groupLives x = true → (m.groupCtx x).getD (m.core c).ctx = (m.core c).ctx →
      exec (.keyArrival c o) s = .next (s.on (((m.setKey r.rid ⟨.excl, .group x, rest, [], none, []⟩).arriveAt r .excl x).finish c
        { op with dests := op.dests.map (·.put 0) }))))

/-- SPLIT.addr, SPLIT.rd, SPLIT.wr, SPLIT.cmn, JOIN.addr, JOIN.shr, JOIN.cmn and JOIN.ring complete (R145, R153, R154): for every
state and operands that meet the conditions of each clause, exec IS a next state with the effect; SPLIT.cmn's is that of its
service, once the group's accesses are done. That JOIN.addr keeps the key, and so the lender, of the part that holds srcA is the
model's choice (log 137). -/
def Obligations.KeySplits : Prop :=
  (∀ (s : State) (t : Tok) (d : Dst) (sp : Space) (a b : Src) (w v : Word) (l : Landing) (m : Mach) (r : Region),
    let i : Instr := .splitAddr t d sp a b
    let e := envOf s i
    let h : Hold := ⟨r.rid, .excl⟩
    Takes2 i s a b d .pending w v l m → e.keyAddr m sp w false = .ok ⟨none, w.toNat⟩ →
    m.regionAt sp (e.ctx m) w.toNat = some r → r.key.state ≠ .lost → (m.core s.cur).holding r.rid = some h →
    m.rackHas s.cur r.rid .excl = true →
    (sp = .blk → exec i s = .next (s.goesOn i (e.refused m l stNotallowed h))) ∧
    (sp ≠ .blk → v.toNat % (if sp = .glb then 4096 else 65536) ≠ 0 → exec i s = .next (s.on (e.halt (.trap tAlign v) s.mach))) ∧
    (∀ home, sp ≠ .blk → v.toNat % (if sp = .glb then 4096 else 65536) = 0 → r.base < v.toNat → v.toNat < r.base + r.size →
      e.upperHome m sp r v.toNat = .ok home → m.rackFree home ≠ 0 →
      let low := m.onRegion r.rid fun x => { x with size := v.toNat - x.base }
      let up : Region := { r with rid := m.ids, base := v.toNat, size := r.base + r.size - v.toNat, home := home }
      let m1 : Mach := { low with ids := m.ids + 1, regions := low.regions ++ [up] }
      let m2 := m1.onCore s.cur fun k => { k with view := k.view ++ [⟨m.ids, .excl⟩] }
      exec i s = .next (s.goesOn i (e.status (e.later (.dropHold h) (e.later (.dropHold ⟨m.ids, .excl⟩) m2)) l stDone
        [.gain h, .gain ⟨m.ids, .excl⟩])))) ∧
  (∀ (s : State) (t : Tok) (d : Dst) (sp : Space) (a b : Src) (w v : Word) (l : Landing) (m : Mach) (r : Region) (wr : Bool),
    let i : Instr := if wr then .splitWr t d sp a b else .splitRd t d sp a b
    let e := envOf s i
    let h : Hold := ⟨r.rid, .excl⟩
    let n := v.toNat
    Takes2 i s a b d .pending w v l m → e.keyAddr m sp w false = .ok ⟨none, w.toNat⟩ →
    m.regionAt sp (e.ctx m) w.toNat = some r → r.key.state ≠ .lost → (m.core s.cur).holding r.rid = some h →
    m.rackHas s.cur r.rid .excl = true →
    (sp = .blk → wr = true → exec i s = .next (s.goesOn i (e.refused m l stNotallowed h))) ∧
    (sp ≠ .blk ∨ wr = false → n = 0 ∨ 63 < n → exec i s = .next (s.goesOn i (e.refused m l stBadarg h))) ∧
    (sp ≠ .blk ∨ wr = false → 1 ≤ n → n ≤ 63 → m.rackFree r.home < n →
      exec i s = .next (s.goesOn i (e.refused m l stRackfull h))) ∧
    (sp ≠ .blk ∨ wr = false → 1 ≤ n → n ≤ 63 → n ≤ m.rackFree r.home →
      let key : Key := ⟨if wr then .scatter else .shared, .group (e.me m), r.key.lender,
        List.replicate n ⟨.group (e.me m), []⟩, some (e.me m), []⟩
      exec i s = .next (s.goesOn i (e.status (e.later (.dropHold h) (m.setKey r.rid key)) l stDone
        (List.replicate n (.gain ⟨r.rid, if wr then .write else .read⟩)))))) ∧
  (∀ (s : State) (t : Tok) (d : Dst) (sp : Space) (a : Src) (w : Word) (l : Landing) (m : Mach) (r : Region),
    let i : Instr := .splitCmn t d sp a
    let e := envOf s i
    let h : Hold := ⟨r.rid, .excl⟩
    Takes1 i s a d .pending w l m → e.keyAddr m sp w false = .ok ⟨none, w.toNat⟩ →
    m.regionAt sp (e.ctx m) w.toNat = some r → r.key.state ≠ .lost → (m.core s.cur).holding r.rid = some h →
    m.rackHas s.cur r.rid .excl = true →
    (sp = .blk → exec i s = .next (s.goesOn i (e.refused m l stNotallowed h))) ∧
    (sp ≠ .blk → exec i s = .next (s.goesOn i (e.start (e.later (.dropHold h) m) (.splitCmn r.rid) [l] 0 [] none).2))) ∧
  (∀ (s : State) (c : Nat) (op : Op) (r : Region),
    let m := s.mach
    let done := op.dests.map fun x => x.put 0
    (m.core c).later = [] → (m.core c).ops.find? (fun x => decide (x.id = op.id)) = some op →
    op.kind = .splitCmn r.rid → m.region r.rid = some r → r.key.state ≠ .lost → m.drained c op.id r = true →
    exec (if op.dests.any Landing.isQueue then .pendingEntryLands c op.id else .handshakeAcknowledged c op.id) s =
      .next (s.on ((m.setKey r.rid ⟨.common, .none, [], [], none, []⟩).finish c { op with dests := done }))) ∧
  (∀ (s : State) (t : Tok) (d : Dst) (sp : Space) (a b : Src) (w v : Word) (l : Landing) (m : Mach) (r x : Region),
    let i : Instr := .joinAddr t d sp a b
    let e := envOf s i
    let h : Hold := ⟨r.rid, .excl⟩
    let one : Mach := { m with regions := m.regions.filter fun y => decide (y.rid ≠ x.rid) }
    let joined := (one.onRegion r.rid fun y => { y with base := min r.base x.base, size := y.size + x.size }).onCore s.cur
      fun k => { k with view := k.view.erase ⟨x.rid, .excl⟩ }
    Takes2 i s a b d .pending w v l m → e.keyAddr m sp w false = .ok ⟨none, w.toNat⟩ →
    m.regionAt sp (e.ctx m) w.toNat = some r → r.key.state ≠ .lost → (m.core s.cur).holding r.rid = some h →
    m.regionAt sp (e.ctx m) v.toNat = some x → x.key.state ≠ .lost → (m.core s.cur).holding x.rid = some ⟨x.rid, .excl⟩ →
    m.rackHas s.cur r.rid .excl = true → m.rackHas s.cur x.rid .excl = true → sp ≠ .blk → r.base + r.size = x.base ∨ x.base + x.size = r.base → r.home = x.home → r.ctx = x.ctx →
    (sp = .glb → r.base / 2 ^ 22 = x.base / 2 ^ 22) →
    exec i s = .next (s.goesOn i (e.status (e.later (.dropHold h) joined) l stDone
      [.gain h, .lines ⟨decide (sp = .dev), min r.base x.base, r.size + x.size⟩]))) ∧
  (∀ (s : State) (t : Tok) (d : Dst) (sp : Space) (a : Src) (w : Word) (l : Landing) (m : Mach) (r : Region) (i : Instr) (e : Env),
    i ∈ [Instr.joinShr t d sp a, .joinCmn t d sp a, .joinRing t d sp a] → e = envOf s i →
    Takes1 i s a d .pending w l m → e.keyAddr m sp w false = .ok ⟨none, w.toNat⟩ →
    m.regionAt sp (e.ctx m) w.toNat = some r →
    (i = .joinShr t d sp a → r.key.state = .shared ∨ r.key.state = .scatter → r.key.splitter = some (e.me m) →
      (r.key.guests = 0 → (m.core s.cur).passing r.rid = false →
        exec i s = .next (s.goesOn i (e.status
          (e.later (.dropRegion r.rid) (m.setKey r.rid ⟨.excl, .group (e.me m), r.key.lender, [], none, []⟩)) l stDone (r.taken .excl)))) ∧
      (r.key.guests ≠ 0 → exec i s = .next (s.on (e.halt (.stall 4) s.mach)))) ∧
    (i = .joinCmn t d sp a → sp ≠ .blk → r.ctx = e.ctx m → r.key.state = .common → m.accPending r = false →
      exec i s = .next (s.goesOn i (e.status (m.setKey r.rid ⟨.excl, .group (e.me m), [], [], none, []⟩) l stDone (r.taken .excl)))) ∧
    (∀ g, i = .joinRing t d sp a → sp ≠ .blk → r.ctx = e.ctx m → r.key.state = .ring → r.ring = some g → g.relay = none →
      (g.h = g.c ∧ g.state = [] →
        exec i s = .next (s.goesOn i (e.status (m.onRegion r.rid fun x =>
          { x with key := ⟨.excl, .group (e.me m), [], [], none, []⟩, ring := none }) l stDone (r.taken .excl)))) ∧
      (¬(g.h = g.c ∧ g.state = []) → exec i s = .next (s.goesOn i (e.status m l stNotempty [])))))

/-- KEYW.arr, KEYW.tkt, KEYW.free and KEYQ complete (R155, R156): for every state and operands that meet the conditions of each
clause, exec IS a next state with the status or the word, or one that waits at the rack; and the address checks of R150. -/
def Obligations.KeyWaits : Prop :=
  (∀ (s : State) (t : Tok) (d : Dst) (sp : Space) (a : Src) (w : Word) (l : Landing) (m : Mach) (r : Region) (free : Bool),
    let i : Instr := if free then .keywFree t d sp a else .keywArr t d sp a
    let e := envOf s i
    Takes1 i s a d .pending w l m → e.keyAddr m sp w false = .ok ⟨none, w.toNat⟩ →
    (e.askedLost m = true → exec i s = .next (s.goesOn i (e.status m l stLost []))) ∧
    (e.askedLost m = false → m.regionAt sp (e.ctx m) w.toNat = none → exec i s = .next (s.on (e.halt (.trap tNokey w) s.mach))) ∧
    (e.askedLost m = false → m.regionAt sp (e.ctx m) w.toNat = some r →
      (r.key.state = .lost → (free = true → r.ctx = e.ctx m) → exec i s = .next (s.goesOn i (e.status m l stLost []))) ∧
      (r.key.state ≠ .lost → free = false →
        (∀ h, (m.core s.cur).holding r.rid = some h → exec i s = .next (s.goesOn i (e.status m l stDone []))) ∧
        ((m.core s.cur).holding r.rid = none → exec i s = .next (s.on (e.halt (.rack r.rid .arr) s.mach)))) ∧
      (free = true → r.ctx = e.ctx m →
        (r.key.state = .free → e.behind m r .free = false → exec i s = .next (s.goesOn i
          (e.status (m.setKey r.rid ⟨.excl, .group (e.me m), [], [], none, []⟩) l stDone (r.taken .excl)))) ∧
        (r.key.state ≠ .lost → r.key.state ≠ .free ∨ e.behind m r .free = true →
          exec i s = .next (s.on (e.halt (.rack r.rid .free) s.mach)))) ∧
      (free = true → r.ctx ≠ e.ctx m → exec i s = .next (s.on (e.halt (.trap tNokey w) s.mach))))) ∧
  (∀ (s : State) (t : Tok) (d : Dst) (sp : Space) (a b : Src) (w v : Word) (l : Landing) (m : Mach) (r : Region),
    let i : Instr := .keywTkt t d sp a b
    let e := envOf s i
    let ask : KeyAsk := .tkt (v.setWidth 16) (e.ctx m)
    Takes2 i s a b d .pending w v l m → e.keyAddr m sp w true = .ok ⟨none, w.toNat⟩ → e.askedLost m = false →
    m.regionAt sp (e.ctx m) w.toNat = some r →
    (r.key.state = .lost → exec i s = .next (s.goesOn i (e.status m l stLost []))) ∧
    (r.key.state ≠ .lost → 65536 ≤ v.toNat → exec i s = .next (s.goesOn i (e.status m l stBadarg []))) ∧
    (v.toNat < 65536 → r.key.state ≠ .lost → r.key.holder = .parked (v.setWidth 16) (e.ctx m) none → e.behind m r ask = false →
      exec i s = .next (s.goesOn i
        (e.status (m.setKey r.rid ⟨.excl, .group (e.me m), r.key.lender, [], none, []⟩) l stDone (r.taken .excl)))) ∧
    (v.toNat < 65536 → r.key.state ≠ .lost →
      e.behind m r ask = true ∨ (r.key.holder ≠ .parked (v.setWidth 16) (e.ctx m) none ∧
        ∀ x ∈ r.key.shares, x.holder ≠ .parked (v.setWidth 16) (e.ctx m) none) →
      exec i s = .next (s.on (e.halt (.rack r.rid ask) s.mach)))) ∧
  (∀ (e : Env) (m : Mach) (rid : Nat) (ask : KeyAsk), (m.core e.c).preempting = false →
    (m.seq e.c e.q).wdLimit = 0 ∨ (m.seq e.c e.q).wdCount + 1 ≤ (m.seq e.c e.q).wdLimit.toNat →
    let x' := (e.halt (.rack rid ask) m).seq e.c e.q
    x'.wdCount = (m.seq e.c e.q).wdCount + 1 ∧ x'.stall = 4 ∧ x'.pc = (m.seq e.c e.q).pc ∧
    ∃ order, x'.keyWait = some ⟨rid, ask, order⟩ ∧
      ((m.seq e.c e.q).waitsForKey = true → ∀ w, (m.seq e.c e.q).keyWait = some w → w.rid = rid → w.ask = ask → order = w.order)) ∧
  (∀ (s : State) (t : Tok) (d : Dst) (sp : Space) (a : Src) (w : Word) (l : Landing) (m : Mach),
    let i : Instr := .keyq t d sp a
    let e := envOf s i
    Takes1 i s a d .pending w l m → e.keyAddr m sp w true = .ok ⟨none, w.toNat⟩ →
    (m.regionAt sp (e.ctx m) w.toNat = none → exec i s = .next (s.goesOn i (e.startValues m [l.put 0] 0 []))) ∧
    (∀ r, m.regionAt sp (e.ctx m) w.toNat = some r →
      exec i s = .next (s.goesOn i (e.startValues m [l.put (r.keyWord (e.ctx m))] 0 [])))) ∧
  (∀ (e : Env) (m : Mach) (w : Word) (far : Bool),
    let a := w.toNat
    (w.getLsbD 55 = false →
      e.keyAddr m .glb w far = if e.trust.globalOk a then .ok ⟨none, a⟩ else .error (.trap tSpace w)) ∧
    (2 ^ 57 ≤ a → e.keyAddr m .dev w far = .error (.trap tSpace w)) ∧
    (a < 2 ^ 57 → translate e.trust m (e.ctx m) a = .fault → e.keyAddr m .dev w far = .error (.trap tXlate w)) ∧
    (∀ pa wr sv, a < 2 ^ 57 → translate e.trust m (e.ctx m) a = .leaf pa wr sv → e.keyAddr m .dev w far = .ok ⟨none, a⟩) ∧
    e.keyAddr m .blk w far = if (m.bseq (e.ctx m) (a / 2 ^ 44)).isSome then .ok ⟨none, a⟩ else .error (.trap tBlock w))

/-- LEASE.acq, LEASE.rel (R226), WLD, WSWP, MXSQ and MXZ (R227 to R229, R237) complete: for every state and operands that meet the
conditions of each clause, exec IS a next state, and the array carries out WLD, WSWP, MXSQ and MXZ as they are acknowledged, in
the order of issue (R221). That LEASE.rel leaves the lease ENDING, and that WLD, WSWP, MXSQ and MXZ with no clause open wait
there, are the model's choices (log 32). -/
def Obligations.LeaseForms : Prop :=
  (∀ (s : State) (t : Tok) (d : Dst) (l : Landing) (m0 m : Mach) (g : Group),
    let i : Instr := .leaseAcq t d
    let e := envOf s i
    let a := m.array (clusterOf s.cur)
    let tag (p : WPlane) : Nat := if p.tag = some g.gid then 1 else 0
    let lost (own : Nat) : Nat := if g.lostMark ≠ 0 ∧ g.lostMark + own < a.grants then 1 else 0
    Issues i s m0 → (m0.core s.cur).clause = none → e.dst m0 d .pending = .ok (l, m) → (m.core s.cur).group = some g →
    (a.lease = .offline →
      exec i s = .next (s.goesOn i (e.startValues
        (m.onCore s.cur fun k => { k with group := some { g with want := true } })
        [l.put (BitVec.ofNat 64 (32 + 16 * lost 0 + 4 * (if g.bank then 1 else 0) + 2 * tag a.shadow + tag a.active))] 0 []))) ∧
    (a.lease = .held s.cur ∨ (a.lease = .ending s.cur ∧ g.want = true) →
      exec i s = .next (s.goesOn i (e.startValues
        (m.onCore s.cur fun k => { k with group := some { g with want := true, lostMark := 0 } })
        [l.put (BitVec.ofNat 64 (16 * lost 1 + 8 * (if a.zeroed then 1 else 0) + 4 * (if g.bank then 1 else 0) +
          2 * tag a.shadow + tag a.active))] 0 []))) ∧
    (a.lease = .free ∨ (∃ c, c ≠ s.cur ∧ (a.lease = .held c ∨ a.lease = .ending c)) ∨ (a.lease = .ending s.cur ∧ g.want = false) →
      exec i s = .next (s.on (e.halt (.stall 6) s.mach)))) ∧
  (∀ (s : State) (t : Tok) (m : Mach),
    let i : Instr := .leaseRel t
    let e := envOf s i
    let m1 := m.onCore s.cur fun k => { k with group := k.group.map fun g => { g with want := false } }
    Issues i s m → (m.core s.cur).clause = none →
    ((m.array (clusterOf s.cur)).lease = .held s.cur →
      exec i s = .next (s.goesOn i (e.startValues
        (m1.onArray (clusterOf s.cur) fun a => { a with lease := .ending s.cur }) [] 0 []))) ∧
    ((m.array (clusterOf s.cur)).lease = .offline → exec i s = .next (s.on (e.halt (e.trapWord tLease) s.mach))) ∧
    ((m.array (clusterOf s.cur)).lease ≠ .held s.cur → (m.array (clusterOf s.cur)).lease ≠ .offline →
      exec i s = .next (s.goesOn i (e.startValues m1 [] 0 [])))) ∧
  (∀ (s : State) (m : Mach) (i : Instr) (e : Env),
    (∃ t, i = .wswp t ∨ ∃ both, i = .mxz t both) → e = envOf s i → Issues i s m → (m.core s.cur).clause = none →
    let a := m.array (clusterOf s.cur)
    (a.lease = .offline ∨ (m.core s.cur).wants = false → exec i s = .next (s.on (e.halt (e.trapWord tLease) s.mach))) ∧
    (a.lease ≠ .offline → a.lease ≠ .held s.cur → (m.core s.cur).wants = true →
      exec i s = .next (s.on (e.halt (.stall 6) s.mach)))) ∧
  (∀ (s : State) (t : Tok) (m : Mach),
    let i : Instr := .wswp t
    Issues i s m → (m.core s.cur).clause = none → (m.array (clusterOf s.cur)).lease = .held s.cur → (m.core s.cur).wants = true →
    exec i s = .next (s.goesOn i ((envOf s i).start m .wswp [] 0 [] none).2)) ∧
  (∀ (s : State) (t : Tok) (both : Bool) (m : Mach),
    let i : Instr := .mxz t both
    Issues i s m → (m.core s.cur).clause = none → (m.array (clusterOf s.cur)).lease = .held s.cur → (m.core s.cur).wants = true →
    exec i s = .next (s.goesOn i ((envOf s i).start m (.mxz both) [] 0 [] none).2)) ∧
  (∀ (s : State) (t : Tok) (ks : Bool) (w : WldWidth) (dev : Bool) (a : Src) (x : Word) (m : Mach),
    let i : Instr := .wld t ks w dev a
    let e := envOf s i
    let n := if w = .b8 then 0x100000 else 0x200000
    let tag := (m.core s.cur).group.map Group.gid
    let swaps := ((m.core s.cur).ops.filter fun o => decide (o.kind = .wswp)).length
    let tagged := m.onArray (clusterOf s.cur) fun a =>
      if swaps % 2 = 0 then { a with shadow := { a.shadow with tag := tag } } else { a with active := { a.active with tag := tag } }
    Reads1 i s a x m → (m.core s.cur).clause = none → (m.array (clusterOf s.cur)).lease = .held s.cur →
    (m.core s.cur).wants = true →
    (x.toNat % 512 ≠ 0 → exec i s = .next (s.on (e.halt (.trap tAlign x) s.mach))) ∧
    (x.toNat % 512 = 0 → e.linesOk m dev false (linesOf x.toNat n) = .ok () →
      exec i s = .next (s.goesOn i (e.start tagged (.wld ks w dev x.toNat) [] 0 []
        (some ⟨if dev then .dev else .glb, x.toNat, n, none⟩)).2))) ∧
  (∀ (s : State) (t : Tok) (a b : Src) (x y : Word) (m : Mach),
    let i : Instr := .mxsq t a b
    let e := envOf s i
    let first := y.toNat % 256
    let count := y.toNat / 256 % 256 + 1
    Reads2 i s a b x y m → (m.core s.cur).clause = none → (m.array (clusterOf s.cur)).lease = .held s.cur →
    (m.core s.cur).wants = true →
    (¬(y.toNat < 65536 ∧ first + count ≤ 256) → exec i s = .next (s.on (e.halt (e.trapWord tFmtrsv) s.mach))) ∧
    (y.toNat < 65536 → first + count ≤ 256 → x.toNat % 512 = 0 → x.toNat + 512 * count ≤ 0x80000 →
      exec i s = .next (s.goesOn i (e.start (m.ownLocal s.cur x.toNat (512 * count)) (.mxsq x.toNat first count) [] 0 [] none).2))) ∧
  (∀ (s : State) (c : Nat) (op : Op),
    let m := s.mach
    let k := m.core c
    let key := clusterOf c
    let before := k.earlier op.id
    let served := exec (.handshakeAcknowledged c op.id) s
    k.later = [] → k.ops.find? (fun x => decide (x.id = op.id)) = some op → op.dests = [] → op.fin = [] →
    (op.kind = .wswp → (∀ x ∈ before, x.kind.onPlanes = false ∧ x.kind.unpassed = false) →
      served = .next (s.on ((m.onArray key fun x => { x with active := x.shadow, shadow := x.active }).finish c op))) ∧
    (∀ both, op.kind = .mxz both →
      (∀ x ∈ before, x.kind.unpassed = false ∧ x.kind.draining = false ∧ ∀ y, x.kind ≠ .mxz y) →
      ∃ m', served = .next (s.on m') ∧ (m'.array key).bank (k.bankFor op.id) = [] ∧
        (m'.array key).bank (!k.bankFor op.id) = (if both then [] else (m.array key).bank (!k.bankFor op.id)) ∧
        (m'.array key).active = (m.array key).active ∧ (m'.array key).shadow = (m.array key).shadow) ∧
    (∀ a first count, op.kind = .mxsq a first count → (∀ x ∈ before, x.kind.onPlanes = false) →
      poisonIn k.localPoison a (512 * count) = none →
      ∃ m', served = .next (s.on m') ∧ (m'.array key).active = (m.array key).active ∧
        (m'.array key).shadow = (m.array key).shadow.latch first (k.local_.read a (512 * count))) ∧
    (∀ ks w dev a, op.kind = .wld ks w dev a → (∀ x ∈ before, x.kind.onPlanes = false) →
      let n := if w = .b8 then 0x100000 else 0x200000
      (∀ p ∈ k.posted, p.space ≠ (if dev then .dev else .glb) ∨ overlaps p.ea p.data.length a n = false) →
      (dev = false → m.retainedSlice a = none) → m.rangePoison s.trust k.ctx dev a n = none →
      let m1 := if dev then m else m.touchSlice a
      ∃ m', served = .next (s.on m') ∧ (m'.array key).active = (m.array key).active ∧
        (m'.array key).shadow =
          (m.array key).shadow.load ks w (m1.piecesImage dev (pieces s.trust m1 k.ctx dev a n)))) ∧
  (∀ (p : WPlane) (ks : Bool) (w : WldWidth) (img : Mem) (j : Nat), img.wf = true →
    let p' := p.load ks w img
    Mem.get p'.cells (2 * j) = Mem.get img (if w = .b8 then j else 2 * j) ∧
    Mem.get p'.cells (2 * j + 1) = (if w = .b8 then 0 else Mem.get img (2 * j + 1)) ∧
    p'.base = (if ks then p.base else 0x7F) ∧ p'.scales = (if ks then p.scales else []) ∧ p'.tag = p.tag) ∧
  (∀ (p : WPlane) (first : Nat) (bs : List Byte) (j : Nat), SMap.wf p.scales = true →
    SMap.getD (p.latch first bs).scales j p.base =
      if 512 * first ≤ j ∧ j < 512 * first + bs.length then bs.getD (j - 512 * first) 0 else SMap.getD p.scales j p.base)

/-- The clause (R230, R233 to R238): MXH, MXMD, MXGR, MXA, MXDR and MXDR.keep complete: for every state and operands that meet the
conditions of each clause below, exec IS a next state; MXA's rows are captured, and MXDR's bank drained, as they are
acknowledged. That the rows are captured as the MXA is acknowledged is the model's reading (log 50). -/
def Obligations.ClauseForms : Prop :=
  (∀ (s : State) (t : Tok) (h : MxHeader) (m : Mach),
    let i : Instr := .mxh t h
    let e := envOf s i
    Issues i s m →
    (∀ cl, (m.core s.cur).clause = some cl → exec i s = .next (s.on (e.halt (e.trapWord tClause) s.mach))) ∧
    ((m.core s.cur).clause = none → t = .none → (m.array (clusterOf s.cur)).lease = .ending s.cur → (m.core s.cur).wants = true →
      exec i s = .next (s.on (e.halt (.stall 6) s.mach))) ∧
    ((m.core s.cur).clause = none → t = .none → (m.array (clusterOf s.cur)).lease = .held s.cur → (m.core s.cur).wants = true →
      (passForm h = none ∨ h.ofmt ∉ [Fmt.f32, .bf16, .f16, .f8a, .f8b] →
        exec i s = .next (s.on (e.halt (e.trapWord tFmtrsv) s.mach))) ∧
      (∀ f, passForm h = some f → h.ofmt ∈ [Fmt.f32, .bf16, .f16, .f8a, .f8b] →
        exec i s = .next (s.goesOn i (e.startValues (m.onCore s.cur fun k =>
          { k with clause := some ⟨h, (m.seq s.cur s.phase.seq).pc, 0, none, none, none, none, m.ids, []⟩ }) [] 0 []))))) ∧
  (∀ (s : State) (m : Mach) (i : Instr) (a b : Src) (x y : Word),
    (∃ t sc, i = .mxa t sc a b) ∨ (∃ t g, i = .mxgr t g a b) ∨ (∃ t r, i = .mxdr t r a b) → Reads2 i s a b x y m →
    (m.core s.cur).clause = none → exec i s = .next (s.on ((envOf s i).halt ((envOf s i).trapWord tClause) s.mach))) ∧
  (∀ (s : State) (m : Mach) (t : Tok) (a : Src) (x : Word) (cl : Clause),
    let i : Instr := .mxmd t a
    let e := envOf s i
    let base := x.toNat % 2 ^ 19
    Reads1 i s a x m → (m.core s.cur).clause = some cl → t = .none → (∀ n, a ≠ .pop n) →
    (m.array (clusterOf s.cur)).lease = .held s.cur ∨ (m.array (clusterOf s.cur)).lease = .ending s.cur →
    (m.core s.cur).wants = true →
    cl.rows = 0 → cl.md = none → cl.header.sparse = true →
    x.toNat < 2 ^ 19 → base % 256 = 0 → base + 16384 ≤ 0x80000 →
    exec i s = .next (s.goesOn i (e.startValues ((m.ownLocal s.cur base 16384).onCore s.cur fun k =>
      { k with clause := some { cl with md := some base } }) [] 0 []))) ∧
  (∀ (s : State) (m : Mach) (t : Tok) (g : BitVec 2) (a b : Src) (x y : Word) (cl : Clause),
    let i : Instr := .mxgr t g a b
    let e := envOf s i
    let field (n : Nat) : Nat := (if n < 4 then x else y).toNat / 2 ^ (16 * (n % 4)) % 2 ^ 16
    let cs := (List.range (2 ^ g.toNat)).map field
    Reads2 i s a b x y m → (m.core s.cur).clause = some cl → t = .none → (∀ n, a ≠ .pop n) → (∀ n, b ≠ .pop n) →
    (m.array (clusterOf s.cur)).lease = .held s.cur ∨ (m.array (clusterOf s.cur)).lease = .ending s.cur →
    (m.core s.cur).wants = true →
    cl.rows = 0 → cl.groups = none → cl.header.grp = true →
    (MxRows cl.header < cs.sum → exec i s = .next (s.on (e.halt (.trap tRagged (BitVec.ofNat 64 cs.sum)) s.mach))) ∧
    (cs.sum ≤ MxRows cl.header → exec i s = .next (s.goesOn i (e.startValues (m.onCore s.cur fun k =>
      { k with clause := some { cl with groups := some cs } }) [] 0 [])))) ∧
  (∀ (s : State) (m : Mach) (t : Tok) (sc : Bool) (a b : Src) (x y : Word) (cl : Clause),
    let i : Instr := .mxa t sc a b
    let e := envOf s i
    let count := y.toNat % 512 + 1
    let stride := y.toNat / 2 ^ 16 % 2 ^ 19
    let n := rowBytes (clauseForm cl) sc
    let owned := (List.range count).foldl (fun m j => m.ownLocal s.cur (x.toNat + j * stride) n) m
    Reads2 i s a b x y m → (m.core s.cur).clause = some cl → t = .none → (∀ n, a ≠ .pop n) → (∀ n, b ≠ .pop n) →
    (m.array (clusterOf s.cur)).lease = .held s.cur ∨ (m.array (clusterOf s.cur)).lease = .ending s.cur →
    (m.core s.cur).wants = true →
    cl.header.sparse = false → cl.header.grp = false → cl.groups = none → y.toNat < 2 ^ 35 → y.toNat / 512 % 128 = 0 →
    x.toNat % 64 = 0 → stride % 64 = 0 → x.toNat + (count - 1) * stride + n ≤ 0x80000 → cl.rows + count ≤ MxRows cl.header →
    exec i s = .next (s.goesOn i (e.start (owned.onCore s.cur fun k => { k with clause := some { cl with rows := cl.rows + count } })
      (.mxa x.toNat stride count n sc) [] 0 [] none).2)) ∧
  (∀ (s : State) (m : Mach) (t : Tok) (mode : Rnd) (a b : Src) (x y : Word) (cl : Clause),
    let i : Instr := .mxdr t mode a b
    let e := envOf s i
    let dev := y.getLsbD 63
    let stride := y.toNat % 2 ^ 32
    let w := 1024 * (fmtW cl.header.ofmt / 8)
    let rows := MxRows cl.header
    Reads2 i s a b x y m → (m.core s.cur).clause = some cl → t.wu = false → t.wd = false → (∀ n, a ≠ .pop n) → (∀ n, b ≠ .pop n) →
    (m.array (clusterOf s.cur)).lease = .held s.cur ∨ (m.array (clusterOf s.cur)).lease = .ending s.cur →
    (m.core s.cur).wants = true →
    y.toNat % 2 ^ 63 < 2 ^ 32 → w ≤ stride → x.toNat % 64 = 0 → stride % 64 = 0 →
    e.linesOk m dev true ((List.range rows).flatMap fun j => linesOf (x.toNat + j * stride) w) = .ok () →
    (cl.full = false → exec i s = .next (s.on (e.halt (e.trapWord tClause) s.mach))) ∧
    (cl.full = true → exec i s = .next (s.goesOn i (e.start (m.onCore s.cur fun k => { k with clause := none })
      (.mxdr cl false (some (mode, dev, x.toNat, stride))) [] 0 [.lines ⟨dev, x.toNat, (rows - 1) * stride + w⟩] none).2))) ∧
  (∀ (s : State) (m : Mach) (t : Tok) (cl : Clause),
    let i : Instr := .mxdrKeep t
    let e := envOf s i
    Issues i s m → (m.core s.cur).clause = some cl → t.wu = false → t.wd = false →
    (m.array (clusterOf s.cur)).lease = .held s.cur ∨ (m.array (clusterOf s.cur)).lease = .ending s.cur →
    (m.core s.cur).wants = true → cl.full = true →
    exec i s = .next (s.goesOn i (e.start (m.onCore s.cur fun k => { k with clause := none }) (.mxdr cl false none) [] 0 [] none).2)) ∧
  (∀ (s : State) (m : Mach) (t : Tok) (both : Bool) (cl : Clause),
    let i : Instr := .mxz t both
    Issues i s m → (m.core s.cur).clause = some cl → t = .none → cl.rows = 0 →
    (m.array (clusterOf s.cur)).lease = .held s.cur ∨ (m.array (clusterOf s.cur)).lease = .ending s.cur →
    (m.core s.cur).wants = true →
    exec i s = .next (s.goesOn i ((envOf s i).startValues (m.onCore s.cur fun k =>
      { k with clause := some { cl with zero := some (both || cl.zero = some true) } }) [] 0 []))) ∧
  (∀ (s : State) (c : Nat) (op : Op),
    let m := s.mach
    let k := m.core c
    let key := clusterOf c
    let before := k.earlier op.id
    let served := exec (.handshakeAcknowledged c op.id) s
    let counted (m : Mach) : Mach := leaseBudgetEnd s.trust key (m.onArray key fun a => { a with clauses := a.clauses + 1 })
    k.later = [] → k.ops.find? (fun x => decide (x.id = op.id)) = some op → op.dests = [] →
    (∀ a stride count n sc, op.kind = .mxa a stride count n sc → op.fin = [] →
      (∀ x ∈ before, x.kind.unpassed = false ∧ ∀ a b c d e, x.kind ≠ .mxa a b c d e) →
      (∀ j < count, poisonIn k.localPoison (a + j * stride) n = none) →
      ∃ m', served = .next (s.on m') ∧ m'.array key = m.array key ∧
        (m'.core c).aRows = k.aRows ++ (List.range count).map fun j => (k.aRows.length + j, ⟨k.local_.slice (a + j * stride) n, sc⟩)) ∧
    (∀ cl, op.kind = .mxdr cl true none → (∀ x ∈ before, ∀ a b d, x.kind ≠ .mxdr a b d) →
      served = .next (s.on (counted (m.finish c op)))) ∧
    (∀ cl mode dev base stride, op.kind = .mxdr cl true (some (mode, dev, base, stride)) →
      (∀ x ∈ before, ∀ a b d, x.kind ≠ .mxdr a b d) → (dev = false → m.retainedSlice base = none) →
      let b := k.bankFor op.id
      let rows := MxRows cl.header
      let m1 := if dev then m else m.touchSlice base
      let out := drainRows s.trust k.ctx cl.header.ofmt mode dev base stride ((m.array key).bank b) (List.range rows) m1
      (m.array key).badIn b (fun r _ => decide (r < rows)) = none →
      walkPoison s.trust m k.ctx dev base ((rows - 1) * stride + 1024 * (fmtW cl.header.ofmt / 8)) = none →
      served = .next (s.on (counted ((out.1.onGroup c fun g => { (g.setLive b false) with bank := !g.bank }).finish c
        { op with flags := out.2 })))))

/-- LEASE_GRANT, LEASE_BUDGET_END and ARRAY_PASS have their effects (R224, R225, R239, R242, R243). The model's choices: what an
ending lease keeps from starting and that a renewal may leave a clause open (log 32), that spilled banks come back from the group's
own copy (log 31), that a restart reads the body of the clause again (log 50), and that a row which the spare replaces
counts as a corrected error (log 151). -/
def Obligations.ArrayEvents : Prop :=
  (∀ (s : State) (die cluster c : Nat) (g : Group),
    let k := 9 * die + cluster
    let m := s.mach
    let a := m.array k
    let asks := (s.trust.clusterCores k).filter fun x => (m.core x).group.isSome && leaseAsks s.trust m x
    a.lease = .free → (m.core c).group = some g →
    (a.lastCore = none → asks.head? = some c) →
    (∀ l, a.lastCore = some l → (asks.find? (fun x => decide (l < x))).or asks.head? = some c) →
    let change := match a.lastGroup with | some (_, x) => decide (x ≠ g.ctx) | none => false
    ∃ m', exec (.leaseGrant die cluster) s = .next (s.on m') ∧ (m'.array k).lease = .held c ∧
      (m'.array k).lastCore = some c ∧ (m'.array k).lastGroup = some (g.gid, g.ctx) ∧ (m'.array k).grants = a.grants + 1 ∧
      (m'.array k).clauses = 0 ∧ (m'.array k).grantClock = m.clockOf (arrayClock k) ∧ (m'.array k).zeroed = change ∧
      (change = true → (m'.array k).active = .reset ∧ (m'.array k).shadow = .reset) ∧
      (change = false → (m'.array k).active = a.active ∧ (m'.array k).shadow = a.shadow) ∧
      (m'.array k).bank0 = g.spill0.getD (if change then [] else a.bank0) ∧
      (m'.array k).bank1 = g.spill1.getD (if change then [] else a.bank1) ∧
      (m'.core c).group = some { g with spill0 := none, spill1 := none, spillBad := [] }) ∧
  (∀ (s : State) (die cluster c : Nat),
    let k := 9 * die + cluster
    let m := s.mach
    let a := m.array k
    a.lease = .held c → (16 ≤ a.clauses ∨ a.grantClock + 8192 ≤ m.clockOf (arrayClock k)) →
    ((m.core c).wants = true → othersAsk s.trust m k c = false →
      exec (.leaseBudgetEnd die cluster) s = .next (s.on (m.onArray k fun x =>
        { x with lease := .held c, clauses := 0, grantClock := m.clockOf (arrayClock k) }))) ∧
    ((m.core c).wants = false ∨ othersAsk s.trust m k c = true → (m.core c).arrayIdle = false →
      exec (.leaseBudgetEnd die cluster) s = .next (s.on (m.onArray k fun x => { x with lease := .ending c }))) ∧
    ((m.core c).wants = false ∨ othersAsk s.trust m k c = true → (m.core c).arrayIdle = true →
      exec (.leaseBudgetEnd die cluster) s = .next (s.on (pickHolder s.trust k (m.endHolding k c true))))) ∧
  (∀ (s : State) (die cluster c : Nat),
    let k := 9 * die + cluster
    (s.mach.array k).lease = .ending c → (s.mach.core c).clauseEnded = false →
    exec (.leaseBudgetEnd die cluster) s = .next s ∧ exec (.leaseGrant die cluster) s = .next s) ∧
  (∀ (s : State) (die cluster c : Nat) (op : Op) (cl : Clause) (d : Option (Rnd × Bool × Nat × Nat)),
    let k := 9 * die + cluster
    let m := s.mach
    let b := (m.core c).bankFor op.id
    (m.array k).lease = .held c → clusterOf c = k → (m.core c).nextPass = some (op, cl, d) → cl.md = none → cl.zero = none →
    (m.array k).bad = [] →
    ∃ m', exec (.arrayPass die cluster .agrees) s = .next (s.on m') ∧
      (m'.array k).bank b = passInto cl (m.array k).active [] (m.core c).aRows ((m.array k).bank b) ∧
      (m'.array k).bank (!b) = (m.array k).bank (!b) ∧ (m'.array k).passes = (m.array k).passes + 1 ∧
      (m'.array k).active = (m.array k).active ∧ (m'.array k).shadow = (m.array k).shadow ∧ (m'.core c).aRows = []) ∧
  (∀ (s : State) (die cluster c col : Nat) (op : Op) (cl : Clause) (d : Option (Rnd × Bool × Nat × Nat)),
    let k := 9 * die + cluster
    let a := s.mach.array k
    a.lease = .held c → clusterOf c = k → (s.mach.core c).nextPass = some (op, cl, d) → cl.md = none → a.bad = [] →
    a.repl = none → a.spBad = false → a.chkrow < 1024 →
    exec (.arrayPass die cluster (.transient col)) s =
      exec (.arrayPass die cluster .agrees) (s.on (s.mach.bankError die 4 false false (spareErr (s.mach.core c).ctx a.chkrow col))) ∧
    (∀ m1, rerun s.trust c op cl s.mach = .ok m1 →
      ∃ m', exec (.arrayPass die cluster (.replaces col)) s = .next (s.on m') ∧ (m'.array k).repl = some (a.chkrow, col) ∧
        (m'.array k).passes = a.passes ∧ (m'.array k).bank0 = a.bank0 ∧ (m'.array k).bank1 = a.bank1 ∧
        (m'.array k).active = (m1.array k).active ∧ (m'.array k).shadow = (m1.array k).shadow ∧ (m'.array k).lease = .held c ∧
        (m'.core c).ops = (s.mach.core c).ops ∧ (m'.core c).aRows = (m1.core c).aRows ∧
        m'.banks = (m1.bankError die 4 false false (spareErr (s.mach.core c).ctx a.chkrow col)).banks) ∧
    (∀ w, rerun s.trust c op cl s.mach = .wait w →
      exec (.arrayPass die cluster (.replaces col)) s = .next (s.on (s.mach.touchSlice w))) ∧
    ∃ m', exec (.arrayPass die cluster (.neither col)) s = .next (s.on m') ∧ (m'.array k).lease = .offline ∧
      (m'.array k).bank0 = a.bank0 ∧ (m'.array k).bank1 = a.bank1 ∧
      ∃ n, m'.notices = s.mach.notices ++ [n] ∧ n.ctx = (s.mach.core c).ctx ∧ n.reason = 2) ∧
  (∀ (s : State) (die cluster c : Nat) (op : Op) (cl : Clause) (d : Option (Rnd × Bool × Nat × Nat)),
    let k := 9 * die + cluster
    let a := s.mach.array k
    let tested := (s.mach.bankError die 4 true false (spareErr (s.mach.core c).ctx a.chkrow 0)).onArray k fun x => { x with spBad := true }
    a.lease = .held c → clusterOf c = k → (s.mach.core c).nextPass = some (op, cl, d) → cl.md = none → a.bad = [] →
    (a.repl = none → a.spBad = false → a.chkrow = 1024 →
      exec (.arrayPass die cluster .testFails) s = exec (.arrayPass die cluster .agrees) (s.on tested) ∧
      (tested.array k).checks = false) ∧
    (a.repl ≠ none ∨ a.spBad = true → ∀ o, exec (.arrayPass die cluster o) s = exec (.arrayPass die cluster .agrees) s)) ∧
  (∀ (t : Trust) (c : Nat) (op : Op) (cl : Clause) (m : Mach),
    let m0 := m.onCore c fun k => { k with aRows := [] }
    (cl.body = [] → rerun t c op cl m = .ok m0) ∧
    (∀ a stride count n sc rest, cl.body = .mxa a stride count n sc :: rest →
      (∀ j < count, poisonIn (m.core c).localPoison (a + j * stride) n = none) →
      rerun t c op cl m = rerunFrom t c op rest (m.onCore c fun k =>
        { k with aRows := (List.range count).map fun j => (j, ⟨k.local_.slice (a + j * stride) n, sc⟩) })))

/-- The five column instructions start: MVK from a head it reads and from heads it pops, MVQ, MVV, MVM and MVM.off, and MVD
(R252 to R258); and each, as it is acknowledged, has its effect on the column and pushes what it gives. -/
def Obligations.ColumnForms : Prop :=
  (∀ (s : State) (t : Tok) (q : BitVec 4) (b : Src) (v : VEntry) (vs : List VEntry) (h : Word) (m0 m1 m : Mach) (g : BitVec 2),
    let i : Instr := .mvk t g (.pop q) b
    let e := envOf s i
    let rows := 2 ^ g.toNat
    let count := if v.tag = .bf16 then (rows + 1) / 2 else (rows + 3) / 4
    Issues i s m0 → (m0.core s.cur).headV q = .ok v → v.tag = .f8a ∨ v.tag = .f8b ∨ v.tag = .bf16 →
    e.heads q count m0 = .ok (vs, m1) → e.src m1 b = .ok (h, m) →
    ((∀ w ∈ vs, w.tag = v.tag) → h.toNat ≤ 127 →
      exec i s = .next (s.goesOn i (e.start m (.mvk rows h.toNat (queryRows v.tag rows vs)) [] 0 [] none).2)) ∧
    ((∀ w ∈ vs, w.tag = v.tag) → 127 < h.toNat → exec i s = .next (s.on (e.halt (e.trapWord tFmtrsv) s.mach)))) ∧
  (∀ (s : State) (t : Tok) (q : BitVec 4) (b : Src) (v : VEntry) (h : Word) (m0 m : Mach) (g : BitVec 2),
    let i : Instr := .mvk t g (.peek q) b
    let e := envOf s i
    Issues i s m0 → (m0.core s.cur).headV q = .ok v → e.src m0 b = .ok (h, m) →
    v.tag = .f8a ∨ v.tag = .f8b ∨ v.tag = .bf16 → h.toNat ≤ 127 → 2 ^ g.toNat ≤ (if v.tag = .bf16 then 2 else 4) →
    exec i s = .next (s.goesOn i (e.start m (.mvk (2 ^ g.toNat) h.toNat (queryRows v.tag (2 ^ g.toNat) [v])) [] 0 [] none).2)) ∧
  (∀ (s : State) (t : Tok) (d : Dst) (msk : Bool) (a b : Src) (x y : Word) (l : Landing) (m0 m1 m : Mach),
    let i : Instr := .mvq t d msk a b
    let e := envOf s i
    Issues i s m0 → e.src2 m0 a b = .ok (x, y, m1) → e.dstV m1 d .pending = .ok (l, m) → e.columnBlock m msk x = .ok () →
    exec i s = .next (s.goesOn i (e.start m (.mvq msk x (y.setWidth 32)) [l] 0 []
      (some ⟨.blk, x.toNat / 2 ^ 16 * 2 ^ 16, 1, none⟩)).2)) ∧
  (∀ (s : State) (t : Tok) (msk : Bool) (q : BitVec 3) (a b : Src) (x : Word) (p : VOp) (st : VEntry) (m0 m1 m2 m : Mach),
    let i : Instr := .mvv t msk q a b
    let e := envOf s i
    Issues i s m0 → e.src m0 a = .ok (x, m1) → e.srcV m1 b = .ok (p, m2) → e.third m2 q = .ok (st, m) →
    p.tag .f32 = .f32 → st.tag = .f32 → e.columnBlock m msk x = .ok () →
    exec i s = .next (s.goesOn i (e.start m (.mvv msk x (entryOf .f32 (p.elems .f32)) st) [] 0 []
      (some ⟨.blk, x.toNat / 2 ^ 16 * 2 ^ 16, 1, none⟩)).2)) ∧
  (∀ (s : State) (t : Tok) (a : Src) (x : Word) (m : Mach),
    let i : Instr := .mvm t a
    let e := envOf s i
    let base := x.toNat % 2 ^ 19
    let width := x.toNat / 2 ^ 19 % 256
    Reads1 i s a x m →
    (2 ^ 54 ≤ x.toNat ∨ width = 0 → exec i s = .next (s.on (e.halt (e.trapWord tFmtrsv) s.mach))) ∧
    (x.toNat < 2 ^ 54 → width ≠ 0 → base % 64 = 0 → base + 512 * width ≤ 0x80000 →
      exec i s = .next (s.goesOn i (e.start m (.mvm (some x)) [] 0 [] none).2))) ∧
  (∀ (s : State) (t : Tok) (m : Mach),
    let i : Instr := .mvmOff t
    Issues i s m → exec i s = .next (s.goesOn i ((envOf s i).start m (.mvm none) [] 0 [] none).2)) ∧
  (∀ (s : State) (t : Tok) (d : Dst) (mode : Rnd) (f : Fmt) (a : Src) (x : Word) (l : Landing) (m0 m1 m : Mach),
    let i : Instr := .mvd t d mode f a
    let e := envOf s i
    let ok := (f = .f32 ∧ x.toNat ≤ 7) ∨ ((f = .bf16 ∨ f = .f16) ∧ x.toNat ≤ 6 ∧ x.toNat % 2 = 0)
    Issues i s m0 → e.src m0 a = .ok (x, m1) → e.dstV m1 d .pending = .ok (l, m) →
    (ok → exec i s = .next (s.goesOn i (e.start m (.mvd x.toNat f mode) [l] 0 [] none).2)) ∧
    (¬ok → exec i s = .next (s.on (e.halt (e.trapWord tFmtrsv) s.mach)))) ∧
  (∀ (s : State) (c o : Nat) (op : Op),
    let m := s.mach
    let k := m.core c
    let ev : Instr := if op.dests.any Landing.isQueue then .pendingEntryLands c o else .handshakeAcknowledged c o
    k.later = [] → k.op? o = some op → op.kind.isColumn = true →
    (k.noEarlier op.id OpKind.isColumn = false → exec ev s = .next s) ∧
    (k.noEarlier op.id OpKind.isColumn = true →
      (∀ g h q, op.kind = .mvk g h q → (∀ row ∈ q, row.length = 128) →
        ∃ m', exec ev s = .next (s.on m') ∧ (m'.core c).op? o = none ∧ (m'.core c).column.g = g ∧ (m'.core c).column.h = h ∧
          (m'.core c).column.mask = k.column.mask ∧ (∀ n, SMap.getD (m'.core c).column.acc n 0 = 0) ∧
          ∀ r e, e < 128 → SMap.getD (m'.core c).column.q (128 * r + e) 0 = (q.getD r []).getD e 0) ∧
      (∀ b, op.kind = .mvm b → exec ev s = .next (s.on ((m.onCore c fun k => { k with column := { k.column with mask := b } }).finish c op))) ∧
      (∀ r f mode, op.kind = .mvd r f mode → f = .f32 ∨ f = .bf16 ∨ f = .f16 →
        let els := (List.range (if f = .f32 then 128 else 256)).map fun n =>
          let v := (SMap.getD k.column.acc (128 * r + n) 0).toNat
          if f = .f32 then (⟨v, 0⟩ : Rd) else convTo f mode false 0 (f32.value v)
        let land := m.vland (op.dests.headD .none) (entryOf f (els.map Rd.bits))
        exec ev s = .next (s.on (land.2.finish c
          { op with dests := [land.1], flags := els.foldl (fun w x => w ||| x.flags) 0 }))) ∧
      (∀ g x, k.group = some g → g.evicted = [] → (∀ n, n < 128 → k.granule n = .group g.gid g.ctx) → k.localPoison = [] →
        m.dramPoison = [] →
        (∀ msk a scale, op.kind = .mvq msk a scale → k.blockStores op.id a.toNat = false → m.chunk k.ctx a.toNat = some x →
          let mask := if msk then k.column.mask else none
          let land := m.vland (op.dests.headD .none) (entryOf .f32 (x.scores k.column mask k.local_ m.dram scale.toNat))
          (mask = none ∨ ∃ w, mask = some w ∧ w.toNat % 2 ^ 19 + 512 * (w.toNat / 2 ^ 19 % 256) ≤ 0x80000 ∧ k.column.g ≤ 8) →
          exec ev s = .next (s.on (land.2.finish c { op with dests := [land.1] }))) ∧
        (∀ msk a p st, op.kind = .mvv msk a p st → k.blockStores op.id a.toNat = false → m.chunk k.ctx a.toNat = some x →
          let mask := if msk then k.column.mask else none
          let acc := x.values k.column mask k.local_ m.dram (elemsOf .f32 p.bits) (elemsOf .f32 st.bits)
          (mask = none ∨ ∃ w, mask = some w ∧ w.toNat % 2 ^ 19 + 512 * (w.toNat / 2 ^ 19 % 256) ≤ 0x80000 ∧ k.column.g ≤ 8) →
          exec ev s = .next (s.on ((m.onCore c fun k => { k with column := { k.column with acc := acc } }).finish c op))) ∧
        (∀ msk a, ((∃ scale, op.kind = .mvq msk a scale) ∨ ∃ p st, op.kind = .mvv msk a p st) → k.blockStores op.id a.toNat = true →
          exec ev s = .next s)))) ∧
  (∀ (t : Fmt) (g r e : Nat) (vs : List VEntry), r < g → e < 128 →
    (t = .bf16 → ((queryRows t g vs).getD r []).getD e 0 =
      BitVec.ofNat 16 ((elemsOf t (vs.getD (r / 2) ⟨t, 0⟩).bits).getD (128 * (r % 2) + e) 0)) ∧
    (t = .f8a ∨ t = .f8b → ((queryRows t g vs).getD r []).getD e 0 =
      BitVec.ofNat 16 (convTo .bf16 .rne false 0 (fmtValue t ((elemsOf t (vs.getD (r / 4) ⟨t, 0⟩).bits).getD (128 * (r % 4) + e) 0))).bits)) ∧
  (∀ (x : Chunk) (col : Column) (mask : Option Word) (tile dram : Mem) (r j : Nat),
    let f := shapeFmt x.shape
    let w := fmtW f / 8
    let d := shapeD x.shape
    let tok := shapeT x.shape
    let n := 128 / col.g
    let t := x.t0 + j
    let attended : Prop := t < tok ∧ x.valid.getLsbD t = true ∧ ∀ b, mask = some b → maskBit b tile r (x.block * tok + t) = true
    let at_ (half i e : Nat) : Val := fmtValue f (dram.nat (x.pa + half + ((col.h * tok + (x.t0 + i)) * d + e) * w) w)
    f = .f8a ∨ f = .f8b ∨ f = .bf16 → dram.wf = true → r < col.g → j < n →
    (∀ scale,
      (attended → (x.scores col mask tile dram scale).getD (r * n + j) 0 = roundProduct ((List.range d).foldl (fun a e =>
        addCanon a (exactProduct (fmtValue .bf16 (SMap.getD col.q (128 * r + e) 0).toNat) (at_ 0 j e))) 0) scale) ∧
      (¬attended → (x.scores col mask tile dram scale).getD (r * n + j) 0 = 0xFF800000)) ∧
    (∀ p st e, e < d → d ≤ 128 → SMap.wf col.acc = true →
      SMap.getD (x.values col mask tile dram p st) (128 * r + e) 0 = BitVec.ofNat 32 ((List.range n).foldl (fun a i =>
        if x.attends mask tile r (x.t0 + i) then
          addCanon a (exactProduct (f32.value (p.getD (r * n + i) 0)) (at_ (shapeB x.shape / 2) i e))
        else a) (roundProduct (SMap.getD col.acc (128 * r + e) 0).toNat (st.getD (16 + r) 0))) ∧
      (x.attends mask tile r t = true ↔ attended)) ∧
    (∀ p st b e, SMap.wf col.acc = true → d ≤ 128 → e < 128 → col.g ≤ b ∨ d ≤ e →
      SMap.getD (x.values col mask tile dram p st) (128 * b + e) 0 = SMap.getD col.acc (128 * b + e) 0))

/-- The element-wise arithmetic of VADD, VSUB, VMUL and VFMA, and VDOT (R199, R200, R213). -/
def Obligations.VectorArithmetic : Prop :=
  (∀ (s : State) (t : Tok) (d : Dst) (sat : Bool) (mode : Rnd) (a b : Src) (x y : VOp) (l : Landing) (m : Mach) (i : Instr) (op : ArithOp),
    (i = .vadd t d sat mode a b ∧ op = .add) ∨ (i = .vsub t d sat mode a b ∧ op = .sub) ∨ (i = .vmul t d sat mode a b ∧ op = .mul) →
    Takes2V i s a b d x y l m →
    let f := typeOf [x, y]
    let r := List.zipWith (arithEl f op sat mode) (x.elems f) (y.elems f)
    x.tag f = f → y.tag f = f → kindOf f = .wide ∨ (kindOf f = .int ∧ mode = .rne) →
    exec i s = .next (s.gives i m l (entryOf f (r.map Rd.bits)) (r.foldl (fun w z => w ||| z.flags) 0)
      (subCount [(f, r.map Rd.bits), (f, x.elems f), (f, y.elems f)]))) ∧
  (∀ (s : State) (t : Tok) (d : Dst) (sat : Bool) (mode : Rnd) (a b : Src) (v w : VEntry) (m : Mach) (i : Instr),
    i ∈ [Instr.vadd t d sat mode a b, .vsub t d sat mode a b, .vmul t d sat mode a b] →
    Reads2V i s a b (.entry v) (.entry w) m →
    (v.tag ≠ .b → w.tag ≠ v.tag →
      exec i s = .next (s.halts i (.trap tTypemis (BitVec.ofNat 64 (v.tag.code.toNat * 16 + w.tag.code.toNat))))) ∧
    (w.tag = v.tag → kindOf v.tag = .narrow ∨ v.tag = .e8 ∨ (kindOf v.tag = .int ∧ mode ≠ .rne) →
      exec i s = .next (s.halts i ((envOf s i).trapWord tFmtrsv)))) ∧
  (∀ (f : Fmt) (op : ArithOp) (sat : Bool) (a b : Nat), kindOf f = .int →
    let z : Int := match op with
      | .add => intValue f a + intValue f b
      | .sub => intValue f a - intValue f b
      | .mul => intValue f a * intValue f b
    let lo := (intLimits f).1
    let hi := (intLimits f).2
    let r := arithEl f op sat .rne a b
    (sat = false → (intValue f r.bits - z) % 2 ^ fmtW f = 0 ∧ r.flags = 0) ∧
    (sat = true → intValue f r.bits = limit lo hi z ∧ (r.flags = fSatur ↔ ¬(lo ≤ z ∧ z ≤ hi)) ∧ (r.flags = 0 ↔ lo ≤ z ∧ z ≤ hi))) ∧
  (∀ (s : State) (t : Tok) (d : Dst) (neg : Bool) (q : BitVec 3) (a b : Src) (x y z : VOp) (l : Landing) (m : Mach),
    let i : Instr := .vfma t d neg q a b
    let f := typeOf [x, y, z]
    let r := List.zipWith (fun (p : Nat × Nat) c => fmaEl f neg p.1 p.2 c) (List.zip (x.elems f) (y.elems f)) (z.elems f)
    Takes3V i s a b q d x y z l m → x.tag f = f → y.tag f = f → z.tag f = f → kindOf f = .wide ∨ kindOf f = .int →
    exec i s = .next (s.gives i m l (entryOf f (r.map Rd.bits)) (r.foldl (fun w z => w ||| z.flags) 0)
      (subCount [(f, r.map Rd.bits), (f, x.elems f), (f, y.elems f), (f, z.elems f)]))) ∧
  (∀ (s : State) (t : Tok) (d : Dst) (neg : Bool) (q : BitVec 3) (a b : Src) (v w z : VEntry) (l : Landing) (m : Mach) (g : Fmt),
    let i : Instr := .vdot t d neg q a b
    let f := v.tag
    let n := 32 / fmtW f
    let xs := elemsOf f v.bits
    let ys := elemsOf f w.bits
    let zs := elemsOf g z.bits
    let r := List.zipWith (fun (p : List Nat × List Nat) c => dotEl f neg p.1 p.2 c) (List.zip (chunks n xs 128) (chunks n ys 128)) zs
    Takes3V i s a b q d (.entry v) (.entry w) (.entry z) l m → w.tag = f → f ≠ .f6a → f ≠ .f6b →
    (f = .i4 ∨ f = .n4 ∨ f = .i8 ∨ f = .n8) ∧ g = .i32 ∨ (f = .f4 ∨ f = .f8a ∨ f = .f8b ∨ f = .bf16 ∨ f = .f16) ∧ g = .f32 →
    z.tag = g →
    ∃ subs, exec i s = .next (s.gives i m l (entryOf g (r.map Rd.bits)) (r.foldl (fun w z => w ||| z.flags) 0) subs))

/-- Comparison, selection, bits and masks (R194, R201 to R205, R216). -/
def Obligations.VectorBits : Prop :=
  (∀ (s : State) (t : Tok) (d : Dst) (f : MnxOp) (a b : Src) (x y : VOp) (l : Landing) (m : Mach),
    let i : Instr := .vmnx t d f a b
    let g := typeOf [x, y]
    let r := List.zipWith (mnx g f) (x.elems g) (y.elems g)
    Takes2V i s a b d x y l m → x.tag g = g → y.tag g = g → g ≠ .b →
    exec i s = .next (s.gives i m l (entryOf g (r.map Rd.bits)) (r.foldl (fun w z => w ||| z.flags) 0) 0)) ∧
  (∀ (s : State) (t : Tok) (d : Dst) (sig : Bool) (c : VcmpOp) (a b : Src) (x y : VOp) (l : Landing) (m : Mach),
    let i : Instr := .vcmp t d sig c a b
    let g := typeOf [x, y]
    let r := List.zipWith (vcmp g sig c) (x.elems g) (y.elems g)
    Takes2V i s a b d x y l m → (∀ k, d ≠ .mask k) → x.tag g = g → y.tag g = g → g ≠ .b →
    exec i s = .next (s.gives i m l (entryOf (intTag (fmtW g)) (r.map fun z => if z.1 then 2 ^ fmtW g - 1 else 0))
      (r.foldl (fun w z => w ||| z.2) 0) 0)) ∧
  (∀ (s : State) (t : Tok) (k : Fin 7) (sig : Bool) (c : VcmpOp) (a b : Src) (x y : VOp) (m m' : Mach),
    let i : Instr := .vcmp t (.mask k) sig c a b
    let g := typeOf [x, y]
    let r := List.zipWith (vcmp g sig c) (x.elems g) (y.elems g)
    Reads2V i s a b x y m → x.tag g = g → y.tag g = g → g ≠ .b →
    (envOf s i).maskRes m k (maskOf (r.map Prod.fst)) (r.foldl (fun w z => w ||| z.2) 0) = .ok m' →
    exec i s = .next (s.goesOn i m')) ∧
  (∀ (s : State) (t : Tok) (d : Dst) (inv : Bool) (k : BitVec 3) (a b : Src) (x y : VOp) (l : Landing) (m : Mach),
    let i : Instr := .vsel t d inv k a b
    let g := typeOf [x, y]
    let mask := ((m.core s.cur).maskReg k.toNat).bits
    let pick := (List.zip (x.elems g) (y.elems g)).mapIdx fun j p => if mask.getLsbD j = (!inv) then p.1 else p.2
    Takes2V i s a b d x y l m → ((m.core s.cur).maskReg k.toNat).pending = 0 → x.tag g = g → y.tag g = g → g ≠ .b →
    exec i s = .next (s.gives i m l ⟨g, BitVec.ofNat 4096 (undigits (fmtW g) pick)⟩ 0 0)) ∧
  (∀ (s : State) (t : Tok) (d : Dst) (f : VlogOp) (a b : Src) (v w : VEntry) (l : Landing) (m : Mach),
    let i : Instr := .vlog t d f a b
    f ≠ .not → Takes2V i s a b d (.entry v) (.entry w) l m → w.tag = v.tag →
    ∃ r : VBits, exec i s = .next (s.gives i m l ⟨v.tag, r⟩ 0 0) ∧
      ∀ j < 4096, r.getLsbD j = (match f with
        | .and => v.bits.getLsbD j && w.bits.getLsbD j
        | .or => v.bits.getLsbD j || w.bits.getLsbD j
        | .xor => Bool.xor (v.bits.getLsbD j) (w.bits.getLsbD j)
        | .andn => v.bits.getLsbD j && !w.bits.getLsbD j
        | .not => false)) ∧
  (∀ (s : State) (t : Tok) (d : Dst) (a b : Src) (v : VEntry) (l : Landing) (m : Mach),
    let i : Instr := .vlog t d .not a b
    Takes1V i s a d (.entry v) l m → exec i s = .next (s.gives i m l ⟨v.tag, ~~~v.bits⟩ 0 0)) ∧
  (∀ (s : State) (t : Tok) (d : Dst) (f : ShiftOp) (a b : Src) (x y : VOp) (l : Landing) (m : Mach),
    let i : Instr := .vshf t d f a b
    let g := typeOf [x, y]
    let w := fmtW g
    Takes2V i s a b d x y l m → kindOf g = .int → x.tag g = g → kindOf (y.tag g) = .int ∧ fmtW (y.tag g) = w →
    exec i s = .next (s.gives i m l (entryOf g (List.zipWith (fun p n =>
      let z : BitVec w := BitVec.ofNat w p
      (match f with
        | .sll => z <<< (n % w)
        | .srl => z >>> (n % w)
        | .sra => z.sshiftRight (n % w)
        | .rol => z.rotateLeft (n % w)
        | .ror => z.rotateRight (n % w) : BitVec w).toNat) (x.elems g) (y.elems g))) 0 0)) ∧
  (∀ (s : State) (t : Tok) (k : Fin 7) (f : VmskOp) (a b : BitVec 3) (m m' : Mach),
    let i : Instr := .vmsk t (.mask k) (.two f a b)
    let p := (m.core s.cur).maskReg a.toNat
    let q := (m.core s.cur).maskReg b.toNat
    Issues i s m → p.pending = 0 → q.pending = 0 →
    let r : MaskBits := match f with
      | .and => p.bits &&& q.bits
      | .or => p.bits ||| q.bits
      | .xor => p.bits ^^^ q.bits
      | _ => p.bits &&& ~~~q.bits
    (envOf s i).maskRes m k r 0 = .ok m' →
    exec i s = .next (s.goesOn i m')) ∧
  (∀ (s : State) (t : Tok) (k : Fin 7) (a : BitVec 3) (m m' : Mach),
    let i : Instr := .vmsk t (.mask k) (.one .not a)
    let p := (m.core s.cur).maskReg a.toNat
    Issues i s m → p.pending = 0 → (envOf s i).maskRes m k (~~~p.bits) 0 = .ok m' → exec i s = .next (s.goesOn i m')) ∧
  (∀ (s : State) (t : Tok) (d : Dst) (f : VmskOp) (a : BitVec 3) (l : Landing) (m0 m : Mach),
    let i : Instr := .vmsk t d (.one f a)
    let p := (m0.core s.cur).maskReg a.toNat
    Issues i s m0 → (envOf s i).dst m0 d .pending = .ok (l, m) →
    (0 < p.pending → exec i s = .next (s.halts i (.stall 2))) ∧
    (f = .pcnt → p.pending = 0 → exec i s = .next (s.goesOn i ((envOf s i).startValues m
      [l.put (BitVec.ofNat 64 ((List.range 1024).filter fun j => p.bits.getLsbD j).length)] 0 []))) ∧
    (∀ j < 1024, f = .ffs → p.pending = 0 → p.bits.getLsbD j = true → (∀ h < j, p.bits.getLsbD h = false) →
      exec i s = .next (s.goesOn i ((envOf s i).startValues m [l.put (BitVec.ofNat 64 j)] 0 [])))) ∧
  (∀ (s : State) (t : Tok) (k : Fin 7) (a : Src) (x : VOp) (m m' : Mach),
    let i : Instr := .vmsk t (.mask k) (.fromv a)
    let g := typeOf [x]
    Reads1V i s a x m → g ≠ .b →
    (envOf s i).maskRes m k (maskOf ((x.elems g).map (notZero g))) 0 = .ok m' → exec i s = .next (s.goesOn i m'))

/-- The moving, widening, reducing and scanning instructions (R181, R191, R206 to R212). The model's choices: that VNAR also
accepts an unsigned target format (log 46), that VRED takes the code 0 for the zero of e8 (log 45), and that a
refused VNAR reads one head (log 145). -/
def Obligations.VectorMoves : Prop :=
  (∀ (s : State) (t : Tok) (d : Dst) (f : VprmOp) (a b : Src) (x y : VOp) (l : Landing) (m : Mach),
    let i : Instr := .vprm t d f a b
    let g := typeOf [x, y]
    Takes2V i s a b d x y l m → g ≠ .b → x.tag g = g → y.tag g = g →
    f = .zlo ∨ f = .zhi ∨ f = .uev ∨ f = .uod →
    let xs := x.elems g
    let ys := y.elems g
    let h := fmtN g / 2
    exec i s = .next (s.gives i m l (entryOf g ((List.range xs.length).map fun j => match f with
      | .zlo => (if j % 2 = 0 then xs else ys).getD (j / 2) 0
      | .zhi => (if j % 2 = 0 then xs else ys).getD (h + j / 2) 0
      | .uev => if j < h then xs.getD (2 * j) 0 else ys.getD (2 * (j - h)) 0
      | .uod => if j < h then xs.getD (2 * j + 1) 0 else ys.getD (2 * (j - h) + 1) 0
      | _ => 0)) 0 0)) ∧
  (∀ (s : State) (t : Tok) (d : Dst) (a b : Src) (v w : VEntry) (l : Landing) (m : Mach),
    let i : Instr := .vprm t d .idx a b
    let xs := VOp.elems v.tag (.entry v)
    let ys := VOp.elems (intTag (fmtW v.tag)) (.entry w)
    Takes2V i s a b d (.entry v) (.entry w) l m → v.tag ≠ .b →
    (¬(kindOf w.tag = .int ∧ fmtW w.tag = fmtW v.tag) →
      exec i s = .next (s.halts i (.trap tTypemis (BitVec.ofNat 64 (v.tag.code.toNat * 16 + w.tag.code.toNat))))) ∧
    (kindOf w.tag = .int ∧ fmtW w.tag = fmtW v.tag → fmtW v.tag < 16 →
      exec i s = .next (s.halts i ((envOf s i).trapWord tFmtrsv))) ∧
    (kindOf w.tag = .int ∧ fmtW w.tag = fmtW v.tag → 16 ≤ fmtW v.tag →
      exec i s = .next (s.gives i m l (entryOf v.tag ((List.range xs.length).map fun j =>
        xs.getD (ys.getD j 0 % xs.length) 0)) 0 0))) ∧
  (∀ (s : State) (t : Tok) (d : Dst) (f : VprmOp) (a b : Src) (v : VEntry) (n : Word) (l : Landing) (m0 m1 m2 m : Mach),
    let i : Instr := .vprm t d f a b
    let e := envOf s i
    let xs := VOp.elems v.tag (.entry v)
    Issues i s m0 → e.srcV m0 a = .ok (.entry v, m1) → v.tag ≠ .b → (∀ k, d ≠ .loop k) → e.dstV m2 d .pending = .ok (l, m) →
    (f = .rot → e.src m1 b = .ok (n, m2) →
      exec i s = .next (s.gives i m l (entryOf v.tag ((List.range xs.length).map fun j =>
        xs.getD ((j + n.toNat) % xs.length) 0)) 0 0)) ∧
    (f = .rev → m2 = m1 →
      exec i s = .next (s.gives i m l (entryOf v.tag ((List.range xs.length).map fun j => xs.getD (xs.length - 1 - j) 0)) 0 0))) ∧
  (∀ (s : State) (t : Tok) (d : Dst) (a b : Src) (v : VEntry) (n : Word) (l : Landing) (m0 m1 m2 m : Mach),
    let i : Instr := .vbrd t d (.e a b)
    let e := envOf s i
    let xs := VOp.elems v.tag (.entry v)
    Issues i s m0 → e.srcV m0 a = .ok (.entry v, m1) → e.src m1 b = .ok (n, m2) → v.tag ≠ .b → (∀ k, d ≠ .loop k) →
    e.dstV m2 d .pending = .ok (l, m) →
    exec i s = .next (s.gives i m l (entryOf v.tag (List.replicate xs.length (xs.getD (n.toNat % xs.length) 0))) 0 0)) ∧
  (∀ (s : State) (t : Tok) (d : Dst) (a : Src) (f : Fmt) (x : Word) (l : Landing) (m0 m1 m : Mach),
    let i : Instr := .vbrd t d (.x a f)
    let e := envOf s i
    Issues i s m0 → e.src m0 a = .ok (x, m1) → f ≠ .b → (∀ k, d ≠ .loop k) → e.dstV m1 d .pending = .ok (l, m) →
    exec i s = .next (s.gives i m l (entryOf f (VOp.elems f (.scal x))) 0 0)) ∧
  (∀ (s : State) (t : Tok) (d : Dst) (a b : Src) (v : VEntry) (n : Word) (l : Landing) (m0 m1 m2 m : Mach),
    let i : Instr := .vlane t d a b
    let e := envOf s i
    let xs := VOp.elems v.tag (.entry v)
    Issues i s m0 → e.srcV m0 a = .ok (.entry v, m1) → e.src m1 b = .ok (n, m2) → v.tag ≠ .b →
    e.dst m2 d .pending = .ok (l, m) →
    (xs.length ≤ n.toNat → exec i s = .next (s.goesOn i (e.startValues m [l.put 0] 0 []))) ∧
    (∀ z, xs[n.toNat]? = some z → exec i s = .next (s.goesOn i (e.startValues m
      [l.put (if kindOf v.tag = .int ∧ !fmtUnsigned v.tag then BitVec.ofInt 64 (intValue v.tag z) else BitVec.ofNat 64 z)] 0 [])))) ∧
  (∀ (s : State) (t : Tok) (d : Dst) (g : Fmt) (a : Src) (v : VEntry) (m0 m1 m : Mach) (ls : List Landing),
    let i : Instr := .vwid t d g a
    let e := envOf s i
    let xs := (VOp.elems v.tag (.entry v)).map fun z => intBits g (intValue v.tag z)
    Issues i s m0 → e.srcV m0 a = .ok (.entry v, m1) → kindOf v.tag = .int → vwidOk v.tag g = true →
    e.dstVs d (widened g (fmtW g / fmtW v.tag) xs) m1 = .ok (ls, m) →
    exec i s = .next (s.goesOn i ((e.startValues m ls 0 []).onCore s.cur fun k => k.replayFor 0))) ∧
  (∀ (s : State) (t : Tok) (d : Dst) (sat : Bool) (g : Fmt) (n : BitVec 4) (vs : List VEntry) (v : VEntry) (l : Landing)
      (m0 m1 m : Mach),
    let i : Instr := .vnar t d sat g (.pop n)
    let e := envOf s i
    let r := (logical v.tag vs).map fun z => intRes g sat (intValue v.tag z)
    Issues i s m0 → (m0.core s.cur).headV n = .ok v → kindOf v.tag = .int → kindOf g = .int → fmtW g < fmtW v.tag →
    fmtW v.tag / fmtW g ≠ 8 → e.heads n (fmtW v.tag / fmtW g) m0 = .ok (vs, m1) → (∀ w ∈ vs, w.tag = v.tag) →
    (∀ k, d ≠ .loop k) → e.dstV m1 d .pending = .ok (l, m) →
    exec i s = .next (s.gives i m l (entryOf g (r.map Rd.bits)) (r.foldl (fun w z => w ||| z.flags) 0) 0)) ∧
  (∀ (s : State) (t : Tok) (d : Dst) (sat : Bool) (g : Fmt) (a : Src) (n : BitVec 4) (v : VEntry) (m0 : Mach),
    let i : Instr := .vnar t d sat g a
    let e := envOf s i
    a = .pop n ∨ a = .peek n → Issues i s m0 → (m0.core s.cur).headV n = .ok v →
    (kindOf v.tag ≠ .int →
      exec i s = .next (s.halts i (.trap tTypemis (BitVec.ofNat 64
        ((if v.tag = .b then Fmt.i32 else intTag (fmtW v.tag)).code.toNat * 16 + v.tag.code.toNat))))) ∧
    (kindOf v.tag = .int → ¬(kindOf g = .int ∧ fmtW g < fmtW v.tag ∧ fmtW v.tag / fmtW g ≠ 8) →
      exec i s = .next (s.halts i (e.trapWord tFmtrsv))) ∧
    (∀ (vs : List VEntry) (m1 : Mach), a = .peek n → kindOf v.tag = .int → kindOf g = .int → fmtW g < fmtW v.tag →
      fmtW v.tag / fmtW g ≠ 8 → e.heads n (fmtW v.tag / fmtW g) m0 = .ok (vs, m1) → (∀ w ∈ vs, w.tag = v.tag) →
      exec i s = .next (s.halts i (e.trapWord tFmtrsv)))) ∧
  (∀ (s : State) (t : Tok) (d : Dst) (g : Fmt) (a b : Src) (x y : Word) (l : Landing) (m0 m1 m : Mach),
    let i : Instr := .vidx t d g a b
    let e := envOf s i
    Issues i s m0 → e.src2 m0 a b = .ok (x, y, m1) → (∀ k, d ≠ .loop k) → e.dstV m1 d .pending = .ok (l, m) →
    exec i s = .next (s.gives i m l (entryOf g ((List.range (fmtN g)).map fun j => (x.toNat + j * y.toNat) % 2 ^ fmtW g)) 0 0)) ∧
  (∀ (s : State) (t : Tok) (d : Dst) (f : RedOp) (a b : Src) (v : VEntry) (n : Word) (l : Landing) (m0 m1 m2 m : Mach),
    let i : Instr := .vred t d f a b
    let e := envOf s i
    let xs := VOp.elems v.tag (.entry v)
    let lg := xs.length.log2
    let r := treeLevels (redEl v.tag f) (if n = 0 ∨ lg ≤ n.toNat then lg else n.toNat) xs
    Issues i s m0 → e.srcV m0 a = .ok (.entry v, m1) → e.src m1 b = .ok (n, m2) → (∀ k, d ≠ .loop k) →
    e.dstV m2 d .pending = .ok (l, m) → v.tag ≠ .b → (f = .add → kindOf v.tag = .int ∨ kindOf v.tag = .wide) →
    (f = .adds → kindOf v.tag = .int) →
    exec i s = .next (s.gives i m l (entryOf v.tag r.1) r.2 (if f = .add then subCount [(v.tag, xs), (v.tag, r.1)] else 0))) ∧
  (∀ (s : State) (t : Tok) (d : Dst) (ex : Bool) (f : RedOp) (a : Src) (v : VEntry) (l : Landing) (m : Mach),
    let i : Instr := .vscn t d ex f a
    let xs := VOp.elems v.tag (.entry v)
    let r := scanEls (redEl v.tag f) ex (scanIdentity v.tag f) true xs
    Takes1V i s a d (.entry v) l m → v.tag ≠ .b → (f = .add → kindOf v.tag = .int ∨ kindOf v.tag = .wide) →
    (f = .adds → kindOf v.tag = .int) →
    exec i s = .next (s.gives i m l (entryOf v.tag r.1) r.2 (if f = .add then subCount [(v.tag, xs), (v.tag, r.1)] else 0)))

/-- The 24 bits that element i draws in mode sr, of the seed and step of core c; no other mode draws (R177, R178). -/
def drawOf (c : Nat) (mode : Rnd) (m : Mach) (i : Nat) : Nat :=
  if mode = .sr then draw24 (m.core c).seed (m.core c).step i else 0

/-- The machine after an instruction's draws: in mode sr its core's step is one more (R178). -/
def drawn (c : Nat) (mode : Rnd) (m : Mach) : Mach :=
  if mode = .sr then m.onCore c fun k => { k with step := k.step + 1 } else m

/-- The special functions and the conversions (R178, R181, R184 to R190, R214, R215). That SMXS counts the equal indices of its
two sources and two result entries as one element position and that one head is read where CVT or MXQ is refused its formats are
the model's choices (log 145). -/
def Obligations.ScalarFunctions : Prop :=
  (∀ (s : State) (t : Tok) (d : Dst) (a : Src) (v : VEntry) (f : FloatFmt) (l : Landing) (m : Mach) (i : Instr) (op : Special),
    (∃ o, i = .sfa t d o a ∧ op = .a o) ∨ (∃ o, i = .sfb t d o a ∧ op = .b o) ∨ (∃ o, i = .sfc t d o a ∧ op = .c o) →
    Takes1V i s a d (.entry v) l m →
    let xs := VOp.elems v.tag (.entry v)
    let r := xs.map fun z => special f op z (f.value z)
    (kindOf v.tag ≠ .wide →
      exec i s = .next (s.halts i (.trap tTypemis (BitVec.ofNat 64 (Fmt.f32.code.toNat * 16 + v.tag.code.toNat))))) ∧
    (kindOf v.tag = .wide → floatFmt v.tag = some f →
      exec i s = .next (s.gives i m l (entryOf v.tag (r.map Rd.bits)) (r.foldl (fun w z => w ||| z.flags) 0)
        (subCount [(v.tag, xs), (v.tag, r.map Rd.bits)])))) ∧
  (∀ (s : State) (t : Tok) (d : Dst) (lg : BitVec 2) (a b : Src) (v w : VEntry) (m0 m1 m : Mach) (ls : List Landing),
    let i : Instr := .smxs t d lg a b
    let e := envOf s i
    let r := smxsRes lg.toNat (elemsOf .f32 v.bits) (elemsOf .f32 w.bits)
    Issues i s m0 → e.srcV2 m0 a b = .ok ([.entry v, .entry w], m1) → v.tag = .f32 → w.tag = .f32 →
    e.dstVs d r.outs m1 = .ok (ls, m) →
    exec i s = .next (s.goesOn i ((e.startValues m ls r.flags []).onCore s.cur fun k => k.replayFor r.subs))) ∧
  (∀ (s : State) (t : Tok) (d : Dst) (sat : Bool) (mode : Rnd) (g : Fmt) (n : BitVec 4) (v : VEntry) (l : Landing) (m0 m : Mach),
    let i : Instr := .cvt t d sat mode g (.pop n)
    let e := envOf s i
    let popped := m0.onCore s.cur fun k => k.popV n
    let draw : Nat → Nat := if mode = .sr then draw24 (m0.core s.cur).seed (m0.core s.cur).step else fun _ => 0
    let m1 := if mode = .sr then popped.onCore s.cur fun k => { k with step := k.step + 1 } else popped
    let xs := VOp.elems v.tag (.entry v)
    let r := xs.mapIdx fun j z => convTo g mode sat (draw j) (fmtValue v.tag z)
    Issues i s m0 → (m0.core s.cur).headV n = .ok v → (∀ k, d ≠ .loop k) → e.dstV m1 d .pending = .ok (l, m) →
    (cvtForm v.tag g = none → exec i s = .next (s.halts i (e.trapWord tFmtrsv))) ∧
    (∀ f, cvtForm v.tag g = some f → f ≠ .value → exec i s = .next (s.gives i m l ⟨g, cvtBits f v.bits⟩ 0 0)) ∧
    (cvtForm v.tag g = some .value → fmtW g = fmtW v.tag →
      exec i s = .next (s.gives i m l (entryOf g (r.map Rd.bits)) (r.foldl (fun w z => w ||| z.flags) 0)
        (subCount [(v.tag, xs), (g, r.map Rd.bits)])))) ∧
  (∀ (s : State) (t : Tok) (d : Dst) (sat : Bool) (mode : Rnd) (g : Fmt) (a : Src) (n : BitVec 4) (v : VEntry) (m0 : Mach),
    let i : Instr := .cvt t d sat mode g a
    let e := envOf s i
    let q := widthRatio v.tag g
    let r := fun xs : List Nat => xs.mapIdx fun j z => convTo g mode sat (drawOf s.cur mode m0 j) (fmtValue v.tag z)
    let flags := fun xs => (r xs).foldl (fun w z => w ||| z.flags) 0
    let subs := fun xs => subCount [(v.tag, xs), (g, (r xs).map Rd.bits)]
    a = .pop n ∨ a = .peek n → Issues i s m0 → (m0.core s.cur).headV n = .ok v → cvtForm v.tag g = some .value →
    (q = 8 → exec i s = .next (s.halts i (e.trapWord tFmtrsv))) ∧
    (∀ (vs : List VEntry) (m1 : Mach), fmtW g < fmtW v.tag → q ≠ 8 → e.heads n q m0 = .ok (vs, m1) → (∀ w ∈ vs, w.tag = v.tag) →
      (a = .peek n → exec i s = .next (s.halts i (e.trapWord tFmtrsv))) ∧
      (∀ (l : Landing) (m : Mach), a = .pop n → (∀ k, d ≠ .loop k) → e.dstV (drawn s.cur mode m1) d .pending = .ok (l, m) →
        exec i s = .next (s.gives i m l (entryOf g ((r (logical v.tag vs)).map Rd.bits)) (flags (logical v.tag vs))
          (subs (logical v.tag vs))))) ∧
    (∀ (ls : List Landing) (m : Mach), fmtW v.tag < fmtW g → q ≠ 8 →
      let xs := VOp.elems v.tag (.entry v)
      let m1 := if a = .pop n then m0.onCore s.cur fun k => k.popV n else m0
      e.dstVs d (widened g q ((r xs).map Rd.bits)) (drawn s.cur mode m1) = .ok (ls, m) →
      exec i s = .next (s.goesOn i ((e.startValues m ls (flags xs) []).onCore s.cur fun k => k.replayFor (subs xs))))) ∧
  (∀ (s : State) (t : Tok) (d : Dst) (mode : Rnd) (g : Fmt) (n : BitVec 4) (v : VEntry) (m0 : Mach),
    let i : Instr := .mxq t d mode g (.peek n)
    let e := envOf s i
    Issues i s m0 → (m0.core s.cur).headV n = .ok v → kindOf v.tag = .wide → (mxEmax g).isSome = true →
    (widthRatio v.tag g = 8 ∨
      ∃ vs m1, e.heads n (widthRatio v.tag g) m0 = .ok (vs, m1) ∧ ∀ w ∈ vs, w.tag = v.tag) →
    exec i s = .next (s.halts i (e.trapWord tFmtrsv))) ∧
  (∀ (s : State) (t : Tok) (d : Dst) (mode : Rnd) (g : Fmt) (n : BitVec 4) (v : VEntry) (vs : List VEntry) (emax : Int)
      (l1 l2 : Landing) (m0 m1 m2 m : Mach),
    let i : Instr := .mxq t d mode g (.pop n)
    let e := envOf s i
    let xs := logical v.tag vs
    let r := mxqEls v.tag g emax mode (drawOf s.cur mode m0) xs
    Issues i s m0 → (m0.core s.cur).headV n = .ok v → kindOf v.tag = .wide → mxEmax g = some emax →
    widthRatio v.tag g ≠ 8 → e.heads n (widthRatio v.tag g) m0 = .ok (vs, m1) → (∀ w ∈ vs, w.tag = v.tag) →
    e.dstV (drawn s.cur mode m1) d .pending = .ok (l1, m2) → e.dstV m2 (Dst.scales d) .pending = .ok (l2, m) →
    exec i s = .next (s.goesOn i ((e.startValues m [l1.putV (entryOf g (r.1.map Rd.bits)), l2.putV (entryOf .e8 r.2)]
      (r.1.foldl (fun w z => w ||| z.flags) 0) []).onCore s.cur fun k => k.replayFor (subCount [(v.tag, xs)])))) ∧
  (∀ (s : State) (t : Tok) (d : Dst) (g : Fmt) (a b : Src) (v w : VEntry) (m0 m1 m : Mach) (ls : List Landing),
    let i : Instr := .mxx t d g a b
    let e := envOf s i
    let sc := elemsOf .e8 w.bits
    let r := (VOp.elems v.tag (.entry v)).mapIdx fun j z => mxxEl v.tag g z (sc.getD (j / 32) 0)
    Issues i s m0 → e.srcV2 m0 a b = .ok ([.entry v, .entry w], m1) → kindOf v.tag = .narrow → w.tag = .e8 →
    widthRatio v.tag g ≠ 8 → e.dstVs d (widened g (widthRatio v.tag g) (r.map Rd.bits)) m1 = .ok (ls, m) →
    exec i s = .next (s.goesOn i ((e.startValues m ls (r.foldl (fun w z => w ||| z.flags) 0) []).onCore s.cur fun k =>
      k.replayFor (subCount [(g, r.map Rd.bits)])))) ∧
  (∀ (s : State) (t : Tok) (d : Dst) (mode : Rnd) (a b : Src) (v w : VEntry) (m0 m1 : Mach),
    let i : Instr := .fsc t d false mode a b
    let e := envOf s i
    let h := intTag (fmtW v.tag)
    let xs := VOp.elems v.tag (.entry v)
    let r := (List.zip xs ((VOp.elems h (.entry w)).map (intValue h))).mapIdx fun j p =>
      fscKeep v.tag mode (drawOf s.cur mode m1 j) p.1 p.2
    Issues i s m0 → e.srcV2 m0 a b = .ok ([.entry v, .entry w], m1) → kindOf v.tag = .wide ∨ kindOf v.tag = .narrow →
    (w.tag ≠ h → exec i s = .next (s.halts i (.trap tTypemis (BitVec.ofNat 64 (h.code.toNat * 16 + w.tag.code.toNat))))) ∧
    (∀ (l : Landing) (m : Mach), w.tag = h → (∀ k, d ≠ .loop k) → e.dstV (drawn s.cur mode m1) d .pending = .ok (l, m) →
      exec i s = .next (s.gives i m l (entryOf v.tag (r.map Rd.bits)) (r.foldl (fun w z => w ||| z.flags) 0)
      (subCount [(v.tag, xs), (v.tag, r.map Rd.bits)])))) ∧
  (∀ (s : State) (t : Tok) (d : Dst) (mode : Rnd) (a b : Src) (v : VEntry) (l : Landing) (m : Mach),
    let i : Instr := .fsc t d true mode a b
    let xs := VOp.elems v.tag (.entry v)
    let r := xs.map (fxpEl v.tag)
    Takes1V i s a d (.entry v) l m → kindOf v.tag = .wide ∨ kindOf v.tag = .narrow ∨ kindOf v.tag = .scale →
    exec i s = .next (s.gives i m l (entryOf (intTag (fmtW v.tag)) (r.map Rd.bits)) (r.foldl (fun w z => w ||| z.flags) 0)
      (subCount [(v.tag, xs)]))) ∧
  (∀ (s : State) (t : Tok) (d : Dst) (a : Src) (v : VEntry) (l : Landing) (m : Mach),
    let i : Instr := .fcls t d a
    Takes1V i s a d (.entry v) l m → kindOf v.tag = .wide ∨ kindOf v.tag = .narrow ∨ kindOf v.tag = .scale →
    exec i s = .next (s.gives i m l (entryOf (fclsTag (fmtW v.tag)) ((VOp.elems v.tag (.entry v)).map (fclsEl v.tag))) 0 0)) ∧
  (∀ (s : State) (t : Tok) (a b : Src) (x y : Word) (m : Mach),
    let i : Instr := .srsdSet t a b
    Reads2 i s a b x y m →
    exec i s = .next (s.lands i (m.onCore s.cur fun k => { k with seed := x, step := y.setWidth 32 }) 1 .none false false)) ∧
  (∀ (s : State) (t : Tok) (d : Dst) (l : Landing) (m : Mach),
    let i : Instr := .srsdStep t d
    Takes0 i s d .pending l m →
    exec i s = .next (s.goesOn i ((envOf s i).startValues m [l.put ((m.core s.cur).step.setWidth 64)] 0 []))) ∧
  (∀ (s : State) (t : Tok) (d : Dst) (f : RndmOp) (l : Landing) (m0 m : Mach),
    let i : Instr := .rndm t d f
    let k := m0.core s.cur
    let g := rndmTag f
    Issues i s m0 → (∀ k, d ≠ .loop k) →
    (envOf s i).dstV (m0.onCore s.cur fun k => { k with step := k.step + 1 }) d .pending = .ok (l, m) →
    exec i s = .next (s.gives i m l (entryOf g ((List.range (fmtN g)).map fun j => rndmEl f (srDraw k.seed k.step j))) 0 0))

/-- RoundTo (R174, R177): the five modes on a magnitude m / 2^s; values of a format are kept, and the largest finite value of
each floating-point format is the table's (R171): its code's value is m × 2^e and no finite value is larger. -/
def Obligations.Rounding : Prop :=
  (∀ (neg : Bool) (m s draw : Nat), draw < 2 ^ 24 →
    let q (mode : Rnd) := (roundNat mode neg m s draw).1
    (2 * (q .rne * 2 ^ s) ≤ 2 * m + 2 ^ s ∧ 2 * m ≤ 2 * (q .rne * 2 ^ s) + 2 ^ s) ∧
    (2 * (q .rne * 2 ^ s) = 2 * m + 2 ^ s ∨ 2 * m = 2 * (q .rne * 2 ^ s) + 2 ^ s → q .rne % 2 = 0) ∧
    (q .rtz * 2 ^ s ≤ m ∧ m < (q .rtz + 1) * 2 ^ s) ∧
    (neg = false → q .rdn = q .rtz ∧ m ≤ q .rup * 2 ^ s ∧ q .rup * 2 ^ s < m + 2 ^ s) ∧
    (neg = true → q .rup = q .rtz ∧ m ≤ q .rdn * 2 ^ s ∧ q .rdn * 2 ^ s < m + 2 ^ s) ∧
    q .sr = q .rtz + (if 2 ^ 24 ≤ (m % 2 ^ s) * 2 ^ 24 / 2 ^ s + draw then 1 else 0) ∧
    ∀ mode, ((roundNat mode neg m s draw).2 = true ↔ m % 2 ^ s ≠ 0)) ∧
  (∀ (g : Fmt) (f : FloatFmt) (bits : Nat) (neg : Bool) (m : Nat) (e : Int) (mode : Rnd) (sat : Bool) (draw : Nat),
    floatFmt g = some f → bits < 2 ^ (f.sign + 1) → f.value bits = .fin neg m e → m ≠ 0 → draw < 2 ^ 24 →
    f.round mode sat draw neg m e = ⟨bits, 0⟩) ∧
  (∀ (g : Fmt) (bits : Nat), kindOf g = .int → bits < 2 ^ fmtW g →
    intBits g (intValue g bits) = bits ∧ (intLimits g).1 ≤ intValue g bits ∧ intValue g bits ≤ (intLimits g).2) ∧
  (∀ x ∈ ([(.f4, 7, 3, 1), (.f6a, 0x1F, 15, -1), (.f6b, 0x1F, 7, 2), (.f8a, 0x7E, 14, 5), (.f8b, 0x7B, 7, 13),
      (.bf16, 0x7F7F, 255, 120), (.f16, 0x7BFF, 2047, 5), (.f32, 0x7F7FFFFF, 16777215, 104)] : List (Fmt × Nat × Nat × Int)),
    ∃ f, floatFmt x.1 = some f ∧ f.value x.2.1 = .fin false x.2.2.1 x.2.2.2 ∧
      (∀ (c : Nat) (neg : Bool) (m : Nat) (e : Int), f.value c = .fin neg m e →
        (m : ℚ) * 2 ^ e ≤ (x.2.2.1 : ℚ) * 2 ^ x.2.2.2) ∧
      ∀ c, x.2.1 < c → c < 2 ^ f.sign → ∀ neg m e, f.value c ≠ .fin neg m e)

/-- CPY, CWT, CWT.test, CBND and CBND.off have their effects (R264 to R272), and so have COPY_COMPLETE and ARRIVAL_ELEMENT_LANDS
(R263, R268, R271). -/
def Obligations.CopyForms : Prop :=
  (∀ (s : State) (t : Tok) (a : Src) (v : Word) (ws : List Word) (m m1 : Mach),
    let i : Instr := .cpy t a
    let e := envOf s i
    let x := copyOf ws (m1.seq s.cur s.phase.seq).status.super
    Reads1 i s a v m → e.record m v 8 = .ok (ws, m1) →
    (copyFields (m1.core s.cur) ws x = false → exec i s = .next (s.halts i (e.trapWord tFmtrsv))) ∧
    (copyFields (m1.core s.cur) ws x = true →
      (∀ h, e.copyChecks m1 x = .error h → exec i s = .next (s.halts i h)) ∧
      (∀ m2 h, e.copyChecks m1 x = .ok m2 → ((m2.core s.cur).obj x.obj).pend < 255 → (m2.copies (clusterOf s.cur) false).length < 64 →
        (x.sides.filter fun y => decide (y.1 = 3) && y.2.2).forM (fun y => e.unshare m1 y.2.1) = .error h →
        exec i s = .next (s.halts i h)) ∧
      (∀ m2, e.copyChecks m1 x = .ok m2 →
        (255 ≤ ((m2.core s.cur).obj x.obj).pend → exec i s = .next (s.halts i (.stall 2))) ∧
        (((m2.core s.cur).obj x.obj).pend < 255 → (m2.copies (clusterOf s.cur) false).length < 64 →
          (∀ y ∈ x.sides, y.1 = 3 → y.2.2 = true → e.unshare m1 y.2.1 = .ok ()) →
          (x.far = false →
            exec i s = .next (s.goesOn i (e.start (m2.onCore s.cur fun k => k.objStart x.obj) (.cpy x) [] 0 [] none).2)) ∧
          (x.far = true → cutOff s.trust m2 x.pkg = true →
            exec i s = .next (s.goesOn i (e.startValues ((m2.portError (dieOf s.cur) (m2.core s.cur).ctx x.pkg).onCore s.cur fun k =>
              (k.objStart x.obj).objDone x.obj 0 csUnreachable []) [] 0 []))) ∧
          (∀ m3, x.far = true → cutOff s.trust m2 x.pkg = false → e.farCheck m2 x = .ok m3 →
            exec i s = .next (s.goesOn i (e.start (m3.onCore s.cur fun k => k.objStart x.obj) (.cpy x) [] 0 [] none).2))) ∧
        (((m2.core s.cur).obj x.obj).pend < 255 → 64 ≤ (m2.copies (clusterOf s.cur) false).length →
          exec i s = .next (s.halts i .waitOut))))) ∧
  (∀ (s : State) (t : Tok) (d : Dst) (a : Src) (v : Word) (l : Landing) (m : Mach),
    let i : Instr := .cwt t d a
    let e := envOf s i
    let n := v.toNat % 32
    let x := (m.core s.cur).obj n
    Takes1 i s a d .pending v l m →
    (x.pend ≠ 0 → exec i s = .next (s.halts i (.stall 2))) ∧
    (x.pend = 0 → exec i s = .next (s.goesOn i (e.block m.ids
      (e.start (m.onCore s.cur fun k => k.onObj n fun _ => ⟨0, 0, 0, 0, []⟩) .values [l.put x.word] 0 (x.dests.map .lines) none).2)))) ∧
  (∀ (s : State) (t : Tok) (d : Dst) (a : Src) (v : Word) (l : Landing) (m : Mach),
    let i : Instr := .cwtTest t d a
    let e := envOf s i
    Takes1 i s a d .pending v l m →
    exec i s = .next (s.goesOn i (e.block m.ids
      (e.start m .values [l.put ((m.core s.cur).obj (v.toNat % 32)).word] 0 [] none).2))) ∧
  (∀ (s : State) (t : Tok) (q : QSel) (a b : Src) (v n : Word) (m : Mach),
    let i : Instr := .cbnd t q a b
    let e := envOf s i
    let k := m.core s.cur
    let o := v.toNat % 32
    let sq := if q.vec then SeqId.cmp else s.phase.seq
    Reads2 i s a b v n m →
    (n = 0 ∨ 65536 < n.toNat ∨ k.isBound sq q.vec q.q = true → exec i s = .next (s.halts i (e.trapWord tFmtrsv))) ∧
    (1 ≤ n.toNat → n.toNat ≤ 65536 → k.isBound sq q.vec q.q = false → k.bindingOf o = none → k.bindPending sq q o = false →
      exec i s = .next (s.goesOn i (e.startValues m [] 0 [.bind sq q o n.toNat])))) ∧
  (∀ (s : State) (t : Tok) (a : Src) (v : Word) (m : Mach),
    let i : Instr := .cbndOff t a
    Reads1 i s a v m → exec i s = .next (s.goesOn i ((envOf s i).startValues (m.onCore s.cur fun k =>
      { k with bindings := k.bindings.filter fun b => decide (b.obj ≠ v.toNat % 32) }) [] 0 []))) ∧
  (∀ (s : State) (c o : Nat) (op : Op) (x : CopyOp),
    let m := s.mach
    (m.core c).op? o = some op → op.kind = .cpy x → x.begun = true → x.runs ≤ x.run →
    exec (.copyComplete c o) s = .next (s.on ((m.onCore c fun k => k.objDone x.obj x.total csDone x.lines).finish c op))) ∧
  (∀ (s : State) (c o : Nat) (op : Op) (x : CopyOp) (g : Group),
    let k := s.mach.core c
    k.op? o = some op → op.kind = .cpy x → x.begun = true → x.run = 0 → x.buf = none → x.done = 0 → x.n1 = 1 → x.n2 = 1 →
    0 < x.n0 → x.ssp = 0 → x.dsp = 0 → x.sbase + x.n0 ≤ 0x80000 → x.dbase + x.n0 ≤ 0x80000 →
    k.later = [] → k.localPoison = [] → k.local_.wf = true → k.group = some g → g.evicted = [] →
    (∀ n, n < 128 → k.granule n = .group g.gid g.ctx) →
    ∃ m', exec (.copyComplete c o) s = .next (s.on m') ∧ (m'.core c).op? o = none ∧ m'.global = s.mach.global ∧
      m'.dram = s.mach.dram ∧ m'.host = s.mach.host ∧
      (∀ b, Mem.get (m'.core c).local_ b =
        if x.dbase ≤ b ∧ b < x.dbase + x.n0 then Mem.get k.local_ (x.sbase + (b - x.dbase)) else Mem.get k.local_ b) ∧
      ((m'.core c).obj x.obj).units = ((k.obj x.obj).units + x.n0) % 2 ^ 32 ∧
      ((m'.core c).obj x.obj).pend = (k.obj x.obj).pend - 1) ∧
  (∀ (s : State) (c o : Nat) (op : Op) (x : CopyOp) (g : Group),
    let m := s.mach
    let k := m.core c
    let byte (m : Mach) (code b : Nat) : Byte :=
      if code = 0 then Mem.get (m.core c).local_ b
      else if code = 1 then Mem.get m.global b
      else Mem.get m.host (m.hostBase k.ctx + b)
    let fits (code a : Nat) : Prop := (code = 0 ∧ a + x.n0 ≤ 0x80000) ∨
      (code = 1 ∧ a + x.n0 ≤ 2 ^ 32 ∧ m.asleep a x.n0 = none) ∨ (code = 4 ∧ a + x.n0 ≤ 2 ^ 64)
    k.op? o = some op → op.kind = .cpy x → x.begun = true → x.run = 0 → x.buf = none → x.done = 0 → 0 < x.n0 → x.n0 % 8 = 0 →
    k.later = [] → k.localPoison = [] → m.globalPoison = [] → k.local_.wf = true → m.global.wf = true → m.host.wf = true →
    k.group = some g → g.evicted = [] → (∀ n, n < 128 → k.granule n = .group g.gid g.ctx) →
    (∀ i, i < x.runs → fits x.ssp (x.src i) ∧ fits x.dsp (x.dst i)) →
    (∀ i j, i < x.runs → j < x.runs → i ≠ j → overlaps (x.dst i) x.n0 (x.dst j) x.n0 = false) →
    (x.ssp = x.dsp → ∀ i j, i < x.runs → j < x.runs → overlaps (x.dst i) x.n0 (x.src j) x.n0 = false) →
    ∃ m', exec (.copyComplete c o) s = .next (s.on m') ∧ (m'.core c).op? o = none ∧
      (∀ i j, i < x.runs → j < x.n0 → byte m' x.dsp (x.dst i + j) = byte m x.ssp (x.src i + j)) ∧
      (∀ b, (∀ i, i < x.runs → inside b 1 (x.dst i) x.n0 = false) → byte m' x.dsp b = byte m x.dsp b) ∧
      (∀ code b, code = 0 ∨ code = 1 ∨ code = 4 → code ≠ x.dsp → byte m' code b = byte m code b) ∧ m'.dram = m.dram) ∧
  (∀ (x : CopyOp) (i : Nat),
    x.src i = ((x.sbase + (i / x.n1 : Nat) * x.sstr2 + (i % x.n1 : Nat) * x.sstr1 : Int) % 2 ^ 64).toNat ∧
    x.dst i = ((x.dbase + (i / x.n1 : Nat) * x.dstr2 + (i % x.n1 : Nat) * x.dstr1 : Int) % 2 ^ 64).toNat) ∧
  (∀ (t : Trust) (m : Mach) (c o : Nat) (op : Op) (x : CopyOp),
    (m.core c).later = [] → (m.core c).op? o = some op → op.kind = .cpy x → x.begun = true → x.run < x.runs →
    (∀ bs m1, x.buf = none → engineRead t c op x.pkg x.ssp (x.src x.run) x.n0 m = .ok bs m1 →
      engineTurn t c o m = m1.setCopy c op { x with buf := some bs, done := 0 }) ∧
    (∀ bs u m1, x.buf = some bs → x.dsp ≠ 7 →
      engineWrite t c op x.pkg x.dsp (x.dst x.run + x.done) ((bs.drop x.done).take (min 8 (x.n0 - x.done))) m = .ok u m1 →
      engineTurn t c o m = m1.setCopy c op
        (if x.n0 - x.done ≤ 8 then { x with run := x.run + 1, buf := none, done := 0 } else { x with done := x.done + 8 }))) ∧
  (∀ (t : Trust) (m : Mach) (c : Nat) (op : Op) (pkg : BitVec 10) (a n pa : Nat) (wr sv : Bool) (bs : List Byte),
    let ctx := (m.core c).ctx
    0 < n → bs.length = n → a / 65536 = (a + n - 1) / 65536 → translate t m ctx a = .leaf pa wr sv → walkPoison t m ctx true a n = none →
    m.dramPoison = [] → m.dram.wf = true →
    engineRead t c op pkg 2 a n m = .ok (m.dram.read pa n) m ∧
    ∃ m', engineWrite t c op pkg 2 a bs m = .ok () m' ∧ m'.global = m.global ∧ m'.host = m.host ∧ m'.cores = m.cores ∧
      ∀ b, Mem.get m'.dram b = if pa ≤ b ∧ b < pa + n then bs.getD (b - pa) 0 else Mem.get m.dram b) ∧
  (∀ (t : Trust) (m : Mach) (c : Nat) (op : Op) (pkg : BitVec 10) (a n f : Nat) (q : BSeq) (bs : List Byte),
    let pa := framePa (shapePool q.shape) f + a % 2 ^ 16
    m.bseq (m.core c).ctx (a / 2 ^ 44) = some q → SMap.get? q.map (a / 2 ^ 36 % 256 * 2 ^ 20 + a / 2 ^ 16 % 2 ^ 20) = some f →
    bs.length = n → m.dramPoison = [] → m.dram.wf = true →
    engineRead t c op pkg 3 a n m = .ok (m.dram.read pa n) m ∧
    ∃ m', engineWrite t c op pkg 3 a bs m = .ok () m' ∧ m'.global = m.global ∧ m'.host = m.host ∧ m'.cores = m.cores ∧
      ∀ b, Mem.get m'.dram b = if pa ≤ b ∧ b < pa + n then bs.getD (b - pa) 0 else Mem.get m.dram b) ∧
  (∀ (t : Trust) (m : Mach) (c : Nat) (op : Op) (pkg : BitVec 10) (dev : Bool) (a n : Nat) (bs : List Byte) (r : List Reply),
    let code := if dev then 6 else 5
    bs.length = n → m.inbox = .data bs :: r →
    engineRead t c op pkg code a n m =
      .ok bs { m with inbox := r, outbox := m.outbox ++ [.remoteRead pkg (m.engineAsker c op) dev a n] } ∧
    engineWrite t c op pkg code a bs m =
      .ok () { m with outbox := m.outbox ++ [.remoteWrite pkg (m.engineAsker c op) dev a bs] }) ∧
  (∀ (s : State) (c o : Nat) (op : Op) (x : CopyOp) (bs : List Byte) (b : Binding),
    let k := s.mach.core c
    k.op? o = some op → op.kind = .cpy x → x.begun = true → x.run < x.runs → x.buf = some bs → x.dsp = 7 → k.later = [] →
    k.bindingOf x.obj = some b → b.sel.vec = false → (k.seq b.seq).exited = false →
    (((k.seq b.seq).xslots b.sel.q).length < 4 →
      ∃ m', exec (.arrivalElementLands c o) s = .next (s.on m') ∧
        (m'.seq c b.seq).xslots b.sel.q =
          (k.seq b.seq).xslots b.sel.q ++ [⟨s.mach.ids, .present (BitVec.ofNat 64 (leNat ((bs.drop x.done).take 8)))⟩]) ∧
    (4 ≤ ((k.seq b.seq).xslots b.sel.q).length → exec (.arrivalElementLands c o) s = .next s))

/-- CACC, FENCE and ACCUMULATE_APPLIED have their effects (R157, R160, R273 to R277). -/
def Obligations.Accumulates : Prop :=
  (∀ (s : State) (t : Tok) (d : Dst) (f : AccOp) (a b : Src) (w v cmp : Word) (l : Landing) (m0 m1 m2 m : Mach),
    let i : Instr := .cacc t d f a b
    let e := envOf s i
    Issues i s m0 → e.src2 m0 a b = .ok (w, v, m1) → e.comparand m1 f d = .ok (cmp, m2) → e.dst m2 d .pending = .ok (l, m) →
    (Target.ofWord w f = none → exec i s = .next (s.halts i (e.trapWord tFmtrsv))) ∧
    (∀ x, Target.ofWord w f = some x →
      (x.addr % (if x.w32 then 4 else 8) ≠ 0 → exec i s = .next (s.halts i (.trap tAlign (BitVec.ofNat 64 x.addr)))) ∧
      (x.addr % (if x.w32 then 4 else 8) = 0 → x.remote = none →
        (x.dev = false → s.trust.globalOk x.addr = false → exec i s = .next (s.halts i (.trap tSpace (BitVec.ofNat 64 x.addr)))) ∧
        (x.dev = false → s.trust.globalOk x.addr = true → m.commonAt false (m.core s.cur).ctx x.addr = false →
          exec i s = .next (s.halts i (.trap tNokey (BitVec.ofNat 64 x.addr)))) ∧
        (x.dev = false → s.trust.globalOk x.addr = true → m.commonAt false (m.core s.cur).ctx x.addr = true →
          exec i s = .next (s.goesOn i
            (e.startAcc m ⟨f, x.w32, false, x.addr, x.addr, none, v, cmp, x.scope, x.order, false⟩ l))) ∧
        (∀ pa wr sv, x.dev = true → x.addr < 2 ^ 57 → translate s.trust m (m.core s.cur).ctx x.addr = .leaf pa wr sv →
          (f ≠ .load → wr = true) → (sv = true → (m.seq s.cur s.phase.seq).status.super = true) →
          m.commonAt true (m.core s.cur).ctx x.addr = true →
          exec i s = .next (s.goesOn i
            (e.startAcc m ⟨f, x.w32, true, pa, x.addr, none, v, cmp, x.scope, x.order, false⟩ l)))) ∧
      (∀ p, x.addr % (if x.w32 then 4 else 8) = 0 → x.remote = some p → cutOff s.trust m p = true →
        exec i s = .next (s.goesOn i
          (e.startAcqValues (m.portError (dieOf s.cur) (m.core s.cur).ctx p) x.order [l.put (BitVec.allOnes 64)]))) ∧
      (∀ p m3, x.addr % (if x.w32 then 4 else 8) = 0 → x.remote = some p → cutOff s.trust m p = false →
        (x.dev = false → farGlobalOk x.addr = true) → e.admission m x.addr = .ok m3 →
        let a : AccOpRec := ⟨f, x.w32, x.dev, 0, x.addr, some p, v, cmp, x.scope, x.order, false⟩
        exec i s = .next (s.goesOn i (e.startAcc
          { m3 with outbox := m3.outbox ++ [.remoteAdmit p (e.asker m3) f x.w32 x.dev x.addr] } a l))))) ∧
  (∀ (e : Env) (m : Mach) (o : Order) (l : List Landing),
    (acquires o = false → e.startAcqValues m o l = (e.start m .values l 0 [] none).2) ∧
    (acquires o = true → e.startAcqValues m o l = e.block m.ids (e.start m .values l 0 [.allLines] none).2)) ∧
  (∀ (s : State) (t : Tok) (c : Scope) (o : Order) (m : Mach),
    let i : Instr := .fence t c o .plain
    let e := envOf s i
    Issues i s m → exec i s = .next (s.goesOn i (e.block m.ids
      (e.start m (.fence c o none) [] 0 (if acquires o then [.allLines] else []) none).2))) ∧
  (∀ (s : State) (t : Tok) (c : Scope) (o : Order) (a b : Src) (w v : Word) (m : Mach),
    let i : Instr := .fence t c o (.flag true a b)
    let e := envOf s i
    let n := w.toNat
    let ctx := (m.core s.cur).ctx
    Reads2 i s a b w v m →
    (n % 8 ≠ 0 → exec i s = .next (s.halts i (.trap tAlign w))) ∧
    (n % 8 = 0 → 2 ^ 57 ≤ n → exec i s = .next (s.halts i (.trap tSpace w))) ∧
    (n % 8 = 0 → n < 2 ^ 57 → translate s.trust m ctx n = .fault → exec i s = .next (s.halts i (.trap tXlate w))) ∧
    (∀ pa wr sv, n % 8 = 0 → n < 2 ^ 57 → translate s.trust m ctx n = .leaf pa wr sv →
      (wr = false ∨ (sv = true ∧ (m.seq s.cur s.phase.seq).status.super = false) → exec i s = .next (s.halts i (.trap tProt w))) ∧
      (wr = true → (sv = true → (m.seq s.cur s.phase.seq).status.super = true) →
        (m.commonAt true ctx n = false → exec i s = .next (s.halts i (.trap tNokey w))) ∧
        (m.commonAt true ctx n = true →
          exec i s = .next (s.goesOn i (e.block m.ids
            (e.start m (.fence c o (some ⟨.add, false, true, pa, n, none, v, 0, c, o, false⟩)) [] 0
              (if acquires o then [.allLines] else []) none).2)))))) ∧
  (∀ (s : State) (t : Tok) (o : Order) (a b : Src) (w v : Word) (m : Mach) (p : BitVec 10),
    let i : Instr := .fence t .fab o (.flag false a b)
    let e := envOf s i
    let n := w.toNat
    let fin : List Fin_ := if acquires o then [.allLines] else []
    Reads2 i s a b w v m → n % 8 = 0 → w.getLsbD 55 = true → p.toNat = n / 2 ^ 45 % 1024 →
    (2 ^ 56 ≤ n ∨ n / 2 ^ 32 % 8192 ≠ 0 → exec i s = .next (s.halts i (.trap tSpace w))) ∧
    (n < 2 ^ 56 → n / 2 ^ 32 % 8192 = 0 →
      (cutOff s.trust m p = true →
        let m1 := m.portError e.die (m.core s.cur).ctx p
        exec i s = .next (s.goesOn i (e.block m1.ids (e.start m1 (.fence .fab o none) [] 0 fin none).2))) ∧
      (cutOff s.trust m p = false → farGlobalOk (n % 2 ^ 32) = false → exec i s = .next (s.halts i (.trap tSpace w))) ∧
      (∀ h, cutOff s.trust m p = false → farGlobalOk (n % 2 ^ 32) = true → e.admission m n = .error h →
        exec i s = .next (s.halts i h)) ∧
      (∀ m1, cutOff s.trust m p = false → farGlobalOk (n % 2 ^ 32) = true → e.admission m n = .ok m1 →
        let m2 : Mach := { m1 with outbox := m1.outbox ++ [.remoteAdmit p (e.asker m1) .add false false (n % 2 ^ 32)] }
        exec i s = .next (s.goesOn i (e.block m2.ids (e.start m2
          (.fence .fab o (some ⟨.add, false, false, 0, n % 2 ^ 32, some p, v, 0, .fab, o, false⟩)) [] 0 fin none).2))))) ∧
  (∀ (s : State) (c o : Nat) (op : Op) (sc : Scope) (od : Order) (a : AccOpRec),
    let m := s.mach
    let k := m.core c
    k.later = [] → k.op? o = some op → op.kind = .fence sc od (some a) → op.dests = [] →
    (releases od = true → m.released c op.id sc = false → exec (.handshakeAcknowledged c o) s = .next s) ∧
    (releases od = false ∨ m.released c op.id sc = true →
      (a.remote = none → m.wordReady a = false → exec (.handshakeAcknowledged c o) s = .next (s.on (m.touchSlice a.pa))) ∧
      (a.remote = none → m.wordReady a = true → m.wordPoison a = none →
        let r := m.accumulate a c s.trust.package
        exec (.handshakeAcknowledged c o) s = .next (s.on (r.2.2.finish c { op with flags := if r.2.1 then fScope else 0 }))) ∧
      (∀ p, a.remote = some p → a.sent = false → cutOff s.trust m p = false →
        ∃ m', exec (.handshakeAcknowledged c o) s = .next (s.on m') ∧
          m'.outbox = m.outbox ++ [.remoteAcc p (k.asker c (k.seq op.seq).status.super) a] ∧
          (m'.core c).op? o = some { op with kind := .fence sc od (some { a with sent := true }) }) ∧
      (∀ p v g r, a.remote = some p → a.sent = true → cutOff s.trust m p = false → a.narrow = false → acquires a.order = false →
        m.inbox = .old v none 0 g :: r →
        exec (.handshakeAcknowledged c o) s = .next (s.on (({ m with free := m.free + 1, inbox := r } : Mach).finish c { op with flags := 0 }))))) ∧
  (∀ (s : State) (t : Tok) (c : Scope) (o : Order) (a b : Src) (w v : Word) (m : Mach),
    let i : Instr := .fence t c o (.flag false a b)
    let e := envOf s i
    Reads2 i s a b w v m → ¬(c = .fab ∧ w.getLsbD 55 = true) →
    (w.toNat % 8 ≠ 0 → exec i s = .next (s.halts i (.trap tAlign w))) ∧
    (w.toNat % 8 = 0 → s.trust.globalOk w.toNat = false → exec i s = .next (s.halts i (.trap tSpace w))) ∧
    (w.toNat % 8 = 0 → s.trust.globalOk w.toNat = true → m.commonAt false (m.core s.cur).ctx w.toNat = false →
      exec i s = .next (s.halts i (.trap tNokey w))) ∧
    (w.toNat % 8 = 0 → s.trust.globalOk w.toNat = true → m.commonAt false (m.core s.cur).ctx w.toNat = true →
      exec i s = .next (s.goesOn i (e.block m.ids
        (e.start m (.fence c o (some ⟨.add, false, false, w.toNat, w.toNat, none, v, 0, c, o, false⟩)) [] 0
          (if acquires o then [.allLines] else []) none).2)))) ∧
  (∀ (s : State) (c o : Nat) (op : Op) (sc : Scope) (od : Order),
    let m := s.mach
    (m.core c).later = [] → (m.core c).op? o = some op → op.kind = .fence sc od none → op.dests = [] →
    (releases od = false ∨ m.released c op.id sc = true → exec (.handshakeAcknowledged c o) s = .next (s.on (m.finish c op))) ∧
    (releases od = true → m.released c op.id sc = false → exec (.handshakeAcknowledged c o) s = .next s)) ∧
  (∀ (s : State) (c o : Nat) (op : Op) (a : AccOpRec),
    let m := s.mach
    let r := m.accumulate a c s.trust.package
    (m.core c).op? o = some op → op.kind = .cacc a → a.remote = none → releases a.order = false ∨ m.released c o a.scope = true →
    (m.core c).wordBusy o op.seq a = false → m.wordReady a = true → m.wordPoison a = none →
    exec (.accumulateApplied c o) s = .next (s.on (r.2.2.finish c
      { op with dests := op.dests.map (·.put r.1), flags := if r.2.1 then fScope else 0 }))) ∧
  (∀ (s : State) (c o : Nat) (op : Op) (a : AccOpRec) (p : BitVec 10),
    let m := s.mach
    let k := m.core c
    k.op? o = some op → op.kind = .cacc a → a.remote = some p → k.wordBusy o op.seq a = false → cutOff s.trust m p = false →
    a.sent = false →
    (releases a.order = true → m.released c o a.scope = false → exec (.accumulateApplied c o) s = .next s) ∧
    (releases a.order = false ∨ m.released c o a.scope = true →
      ∃ m', exec (.accumulateApplied c o) s = .next (s.on m') ∧
        m'.outbox = m.outbox ++ [.remoteAcc p (k.asker c (k.seq op.seq).status.super) a] ∧
        (m'.core c).op? o = some { op with kind := .cacc { a with sent := true } })) ∧
  (∀ (s : State) (c o : Nat) (op : Op) (a : AccOpRec) (p : BitVec 10),
    let m := s.mach
    let k := m.core c
    k.op? o = some op → op.kind = .cacc a → a.remote = some p → k.wordBusy o op.seq a = false → a.sent = true →
    (releases a.order = false ∨ m.released c o a.scope = true) → a.narrow = false → acquires a.order = false →
    (∀ v g r, cutOff s.trust m p = false → m.inbox = .old v none 0 g :: r →
      exec (.accumulateApplied c o) s = .next (s.on (({ m with free := m.free + 1, inbox := r } : Mach).finish c
        { op with dests := op.dests.map (·.put v), flags := 0 }))) ∧
    (cutOff s.trust m p = true →
      exec (.accumulateApplied c o) s = .next (s.on ((m.portError (dieOf c) k.ctx p).finish c
        { op with dests := op.dests.map (·.put (BitVec.allOnes 64)), flags := 0 })))) ∧
  (∀ (m : Mach) (a : AccOpRec) (c : Nat) (pkg : BitVec 10),
    let r := m.accumulate a c pkg
    let n := if a.w32 then 4 else 8
    let old := (m.home a.dev).nat a.pa n
    let low (x : Nat) : Nat := x % 2 ^ (8 * n)
    let sgn (x : Nat) : Int := if a.w32 then (BitVec.ofNat 32 x).toInt else (BitVec.ofNat 64 x).toInt
    let arg := low a.operand.toNat
    let new := match a.op with
      | .add => low (old + arg)
      | .min => if sgn arg < sgn old then arg else old
      | .max => if sgn old < sgn arg then arg else old
      | .minu => min arg old
      | .maxu => max arg old
      | .and => Nat.land old arg
      | .or => Nat.lor old arg
      | .xor => Nat.xor old arg
      | .swap => arg
      | .cas => if old = low a.comparand.toNat then arg else old
      | .load => old
    (m.home a.dev).wf = true →
    r.1 = BitVec.ofNat 64 old ∧ r.2.2.home (!a.dev) = m.home (!a.dev) ∧
      ∀ b, Mem.get (r.2.2.home a.dev) b =
        if a.pa ≤ b ∧ b < a.pa + n then (leBytes n new).getD (b - a.pa) 0 else Mem.get (m.home a.dev) b)

/-- The ring instructions have their effects (R278 to R282). That RINI refuses bits of its second source past its fields is the
model's reading (log 78), and the status of a ring instruction whose slots another sequencer passed on in the same cycle is the
model's choice (log 135). -/
def Obligations.RingForms : Prop :=
  (∀ (s : State) (t : Tok) (d : Dst) (a b : Src) (w v : Word) (l : Landing) (m : Mach) (r : Region),
    let i : Instr := .rini t d a b
    let e := envOf s i
    let size := 2 ^ (v.toNat % 16 + 6)
    let slots := 2 ^ (v.toNat / 16 % 16 + 1)
    let ok := v.toNat < 256 ∧ size ≤ 2 ^ 16 ∧ slots ≤ 2 ^ 15 ∧ slots * size = r.size
    Takes2 i s a b d .pending w v l m →
    (s.trust.globalOk w.toNat = false → exec i s = .next (s.halts i (.trap tSpace w))) ∧
    (s.trust.globalOk w.toNat = true → e.exclRegion m .glb w w.toNat = .ok r → m.rackHas s.cur r.rid .excl = false →
      exec i s = .next (s.goesOn i (e.raced m l))) ∧
    (s.trust.globalOk w.toNat = true → e.exclRegion m .glb w w.toNat = .ok r → m.rackHas s.cur r.rid .excl = true →
      (¬ok → exec i s = .next (s.goesOn i (e.refused m l stBadarg ⟨r.rid, .excl⟩))) ∧
      (ok → 256 ≤ m.ringCount r.home → exec i s = .next (s.goesOn i (e.refused m l stRackfull ⟨r.rid, .excl⟩))) ∧
      (ok → m.ringCount r.home < 256 →
        exec i s = .next (s.goesOn i (e.status (e.later (.dropHold ⟨r.rid, .excl⟩) (m.onRegion r.rid fun r =>
          { r with key := ⟨.ring, .ring, [], [], none, []⟩, ring := some ⟨slots, size, 0, 0, 0, 0, [], none⟩ })) l stDone []))))) ∧
  (∀ (s : State) (t : Tok) (d : Dst) (a : Src) (w : Word) (l : Landing) (m : Mach) (r : Region) (g : Ring),
    let i : Instr := .rqry t d a
    let n (x : BitVec 32) : Nat := x.toNat % 65536
    Takes1 i s a d .pending w l m → s.trust.globalOk w.toNat = true → m.ringAt w.toNat = some (r, g) →
    r.ctx = (m.core s.cur).ctx → g.relay = none →
    exec i s = .next (s.goesOn i ((envOf s i).startValues m
      [l.put (BitVec.ofNat 64 (n (g.h + BitVec.ofNat 32 g.slots - g.c) * 2 ^ 48 + n (g.c - g.t) * 2 ^ 32 + n (g.t - g.w) * 2 ^ 16 +
        n (g.w - g.h)))] 0 []))) ∧
  (∀ (s : State) (t : Tok) (d : Dst) (a b : Src) (w v : Word) (l : Landing) (m : Mach) (r : Region) (g : Ring),
    let i : Instr := .rclm t d a b
    let e := envOf s i
    let first := g.c.toNat
    Takes2 i s a b d .pending w v l m → e.ringChecks m false w (some v.toNat) = .ok (r, g) →
    (v.toNat ≤ g.freeSlots →
      exec i s = .next (s.goesOn i (e.startValues (m.onRing r.rid fun g =>
        { (g.setSlots first (fun _ => .claimed (e.me m) false) v.toNat) with c := g.c + BitVec.ofNat 32 v.toNat })
        [l.put (BitVec.ofNat 64 (r.base + first % g.slots * g.size))] 0 [.slots r.rid first v.toNat]))) ∧
    (g.freeSlots < v.toNat → exec i s = .next (s.goesOn i (e.startValues m [l.put (BitVec.allOnes 64)] 0 [])))) ∧
  (∀ (s : State) (t : Tok) (d : Dst) (a b : Src) (w v : Word) (l : Landing) (m : Mach) (r : Region) (g : Ring),
    let i : Instr := .rwfr t d a b
    let e := envOf s i
    Takes2 i s a b d .pending w v l m → e.ringChecks m false w (some v.toNat) = .ok (r, g) →
    (v.toNat ≤ g.freeSlots →
      exec i s = .next (s.goesOn i (e.startValues m [l.put (BitVec.ofNat 64 g.freeSlots)] 0 []))) ∧
    (g.freeSlots < v.toNat → exec i s = .next (s.halts i (.stall 3)))) ∧
  (∀ (s : State) (t : Tok) (d : Dst) (a b : Src) (w v : Word) (l : Landing) (m : Mach) (r : Region) (g : Ring),
    let i : Instr := .rwfl t d a b
    let e := envOf s i
    let n := v.toNat
    let first := g.w.toNat
    Takes2 i s a b d .pending w v l m → e.ringChecks m false w (some n) = .ok (r, g) →
    (g.ready < n → exec i s = .next (s.halts i (.stall 3))) ∧
    (n ≤ g.ready →
      exec i s = .next (s.goesOn i (e.block m.ids (e.start (m.onRing r.rid fun g =>
        { (g.setSlots first (fun _ => .reading (e.me m) false) n) with w := g.w + BitVec.ofNat 32 n }) .values
        [l.put (BitVec.ofNat 64 (r.base + first % g.slots * g.size))] 0
        (.slots r.rid first n ::
          (List.range n).map fun j => .lines ⟨false, r.base + (first + j) % g.slots * g.size, g.size⟩) none).2)))) ∧
  (∀ (s : State) (t : Tok) (a b : Src) (w v : Word) (m : Mach) (r : Region) (g : Ring) (rel : Bool),
    let i : Instr := if rel then .rrel t a b else .rpub t a b
    let e := envOf s i
    let first := (w.toNat - r.base) / g.size
    let held (k : Nat) : Prop := g.slot k = if rel then .reading (e.me m) true else .claimed (e.me m) true
    Reads2 i s a b w v m → e.ringChecks m true w (some v.toNat) = .ok (r, g) →
    ((∃ k, first ≤ k ∧ k < first + v.toNat ∧ ¬held k) → exec i s = .next (s.halts i (.trap tNokey w))) ∧
    ((∀ k, first ≤ k → k < first + v.toNat → held k) →
      exec i s = .next (s.goesOn i (e.start (e.later (.slotState r.rid first v.toNat (if rel then .releasing m.ids else .publishing m.ids)) m)
        (if rel then .rrel r.rid first v.toNat else .rpub r.rid first v.toNat) [] 0 [] none).2))) ∧
  (∀ (s : State) (c o : Nat) (op : Op) (rid first n : Nat),
    let m := s.mach
    (m.core c).later = [] → (m.core c).op? o = some op → op.kind = .rpub rid first n → op.dests = [] →
    (m.released c op.id .pkg = false → exec (.handshakeAcknowledged c o) s = .next s) ∧
    (m.released c op.id .pkg = true →
      exec (.handshakeAcknowledged c o) s =
        .next (s.on ((m.onRing rid fun g =>
          (g.setSlots first (fun x => if x = .publishing op.id then .published else x) n).publish g.slots).finish c op)))) ∧
  (∀ (s : State) (c o : Nat) (op : Op) (r : Region) (g : Ring) (first n : Nat),
    let m := s.mach
    (m.core c).later = [] → (m.core c).op? o = some op → op.kind = .rrel r.rid first n → op.dests = [] →
    m.region r.rid = some r → r.ring = some g →
    let slots := (List.range n).map fun k => (r.base + (first + k) % g.slots * g.size, g.size)
    ((∃ x ∈ (m.core c).earlier op.id, ∃ y ∈ m.globalReads x, ∃ p ∈ slots, overlaps y.1 y.2 p.1 p.2 = true) →
      exec (.handshakeAcknowledged c o) s = .next s) ∧
    ((∀ x ∈ (m.core c).earlier op.id, ∀ y ∈ m.globalReads x, ∀ p ∈ slots, overlaps y.1 y.2 p.1 p.2 = false) →
      exec (.handshakeAcknowledged c o) s =
        .next (s.on ((m.onRing r.rid fun g =>
          (g.setSlots first (fun x => if x = .releasing op.id then .free else x) n).release g.slots).finish c op)))) ∧
  (∀ (g : Ring) (n : Nat),
    (g.publish n).c = g.c ∧ (g.publish n).w = g.w ∧ (g.publish n).h = g.h ∧ (g.publish n).state = g.state ∧
    (g.release n).c = g.c ∧ (g.release n).t = g.t ∧ (g.release n).w = g.w ∧ (g.release n).state = g.state ∧
    ((g.publish n).t = g.t + BitVec.ofNat 32 n ∨ (g.publish n).t = g.c ∨ g.slot (g.publish n).t.toNat ≠ .published) ∧
    ((g.release n).h = g.h + BitVec.ofNat 32 n ∨ (g.release n).h = g.w ∨ g.slot (g.release n).h.toNat ≠ .free))

/-- The relay instructions, the landing of a payload and the break of a channel (R302 to R313). -/
def Obligations.RelayForms : Prop :=
  (∀ (s : State) (t : Tok) (d : Dst) (sp : RlySrc) (a b : Src) (w v : Word) (l : Landing) (m : Mach) (ch : Channel),
    let i : Instr := .rlys t d sp a b
    let e := envOf s i
    let toFf := !endSide w
    let dir := ch.dir toFf
    let obj := w.toNat / 2 ^ 16 % 32
    Takes2 i s a b d .pending w v l m → e.relayEnd m w true = .ok (.open_ ch) →
    (∀ h, e.relaySource m sp v dir.size = .error h → exec i s = .next (s.halts i h)) ∧
    (e.relaySource m sp v dir.size = .ok () →
      (ch.broken = true → exec i s = .next (s.goesOn i (e.status m l stBroken []))) ∧
      (ch.broken = false → dir.gnt = dir.snt → exec i s = .next (s.halts i (.stall 5))) ∧
      (ch.broken = false → dir.gnt ≠ dir.snt → 255 ≤ ((m.core s.cur).obj obj).pend →
        exec i s = .next (s.halts i (.stall 2))) ∧
      (ch.broken = false → dir.gnt ≠ dir.snt → ((m.core s.cur).obj obj).pend < 255 →
        64 ≤ (m.copies (clusterOf s.cur) false).length → exec i s = .next (s.halts i .waitOut)) ∧
      (ch.broken = false → dir.gnt ≠ dir.snt → ((m.core s.cur).obj obj).pend < 255 →
        (m.copies (clusterOf s.cur) false).length < 64 →
        exec i s = .next (s.goesOn i (e.start ((m.onDir ch.num toFf fun x => { x with snt := x.snt + 1 }).onCore s.cur fun k =>
          k.objStart obj) (.rlys ch.num toFf dir.snt.toNat obj sp v.toNat none) [l] 0 [] none).2)))) ∧
  (∀ (s : State) (t : Tok) (d : Dst) (a b : Src) (w v : Word) (l : Landing) (m : Mach) (ch : Channel) (form : Nat) (i : Instr),
    let e := envOf s i
    let dir := ch.dir (endSide w)
    (i = .rlyg t d a b ∧ form = 0) ∨ (i = .rlygAdd t d a b ∧ form = 1) ∨ (i = .rlygRet t d a b ∧ form = 2) →
    Takes2 i s a b d .pending w v l m → e.relayEnd m w false = .ok (.open_ ch) →
    (v = 0 ∨ dir.n < v.toNat → exec i s = .next (s.halts i (e.trapWord tFmtrsv))) ∧
    (v ≠ 0 → v.toNat ≤ dir.n →
      exec i s = .next (s.goesOn i (e.start m (.rlyg ch.num (endSide w) form v.toNat) [l] 0 [] none).2))) ∧
  (∀ (s : State) (c o : Nat) (op : Op) (ch : Channel) (toFf : Bool) (form n : Nat),
    let m := s.mach
    let dir := ch.dir toFf
    let ok := if form = 1 then (dir.gnt - dir.rls).toNat + n ≤ dir.n else n ≤ (dir.tkn - dir.rls).toNat
    let ev : Instr := if op.dests.any Landing.isQueue then .pendingEntryLands c o else .handshakeAcknowledged c o
    let done (code : Nat) (m : Mach) : Mach := m.finish c { op with dests := op.dests.map (·.put (BitVec.ofNat 64 code)) }
    (m.core c).later = [] → (m.core c).op? o = some op → op.kind = .rlyg ch.num toFf form n → m.channel ch.num = some ch →
    (m.core c).earlier op.id = [] → form ≤ 2 → ch.near = true →
    (ch.broken = true → exec ev s = .next (s.on (done 13 m))) ∧
    (ch.broken = false → ¬ok → exec ev s = .next (s.on (done 4 m))) ∧
    (ch.broken = false → ok → exec ev s = .next (s.on (done 0 (m.onDir ch.num toFf fun d =>
      { d with rls := if form = 1 then d.rls else d.rls + BitVec.ofNat 32 n
               gnt := if form = 2 then d.gnt else d.gnt + BitVec.ofNat 32 n }))))) ∧
  (∀ (s : State) (t : Tok) (d : Dst) (a b : Src) (w v : Word) (l : Landing) (m : Mach) (ch : Channel),
    let i : Instr := .rlyw t d a b
    let e := envOf s i
    let toFf := endSide w
    let dir := ch.dir toFf
    let n := v.toNat
    let at_ (k : Nat) : Nat := dir.base + k % dir.n * dir.size
    Takes2 i s a b d .pending w v l m → e.relayEnd m w false = .ok (.open_ ch) →
    (n = 0 ∨ dir.n < n → exec i s = .next (s.halts i (e.trapWord tFmtrsv))) ∧
    (0 < n → n ≤ dir.n →
      (n ≤ (dir.arr - dir.tkn).toNat →
        exec i s = .next (s.goesOn i (e.block m.ids (e.start (m.onDir ch.num toFf fun x => { x with tkn := x.tkn + BitVec.ofNat 32 n })
          .values [l.put (BitVec.ofNat 64 (at_ dir.tkn.toNat))] 0
          ((List.range n).map fun j => .lines ⟨false, at_ (dir.tkn.toNat + j), dir.size⟩) none).2))) ∧
      ((dir.arr - dir.tkn).toNat < n → ch.broken = true →
        exec i s = .next (s.goesOn i (e.block m.ids
          (e.start m .values [l.put (BitVec.ofNat 64 (13 * 2 ^ 32))] 0 [] none).2))) ∧
      ((dir.arr - dir.tkn).toNat < n → ch.broken = false → exec i s = .next (s.halts i (.stall 5))))) ∧
  (∀ (e : Env) (m : Mach) (w : Word) (ch : Channel) (send : Bool),
    let x := if w.getLsbD 12 then ch.ffEnd else ch.attEnd
    w.toNat < 2 ^ 21 → w.toNat / 2 ^ 13 % 8 = 0 → (send = true ∨ w.toNat < 2 ^ 16) → m.channel (w.toNat % 4096) = some ch →
    (x.pkg = none ∧ x.core = e.c ∧ x.ctx = (m.core e.c).ctx → e.relayEnd m w send = .ok (.open_ ch)) ∧
    (¬(x.pkg = none ∧ x.core = e.c ∧ x.ctx = (m.core e.c).ctx) → e.relayEnd m w send = .error (.trap tNokey w))) ∧
  (∀ (s : State) (num : Nat) (toFf : Bool) (ch : Channel) (p : Payload),
    let m := s.mach
    let d := ch.dir toFf
    let a := d.base + p.slot % d.n * d.size
    m.channel num = some ch → ch.num = num → (ch.receiver toFf).pkg = none → m.retainedSlice d.base = none → d.landed = [] →
    d.inFlight.find? (fun x => decide (x.slot = p.slot)) = some p → p.slot = d.arr.toNat → m.global.wf = true →
    (p.group = none ∨ (m.core p.core).group.map Group.gid = p.group) →
    ∃ m', exec (.relayPayloadLands num toFf p.slot) s = .next (s.on m') ∧ m'.dram = m.dram ∧
      (∀ b, Mem.get m'.global b = if a ≤ b ∧ b < a + d.size then p.data.getD (b - a) 0 else Mem.get m.global b) ∧
      ∃ ch', m'.channel num = some ch' ∧ (ch'.dir toFf).arr = d.arr + 1 ∧ ch'.dir (!toFf) = ch.dir (!toFf) ∧
        (ch'.dir toFf).inFlight = d.inFlight.filter fun x => decide (x.slot ≠ p.slot)) ∧
  (∀ (s : State) (num : Nat) (ch : Channel),
    let m := s.mach
    let known (e : RelayEnd) : Bool := (SMap.get? m.contexts e.ctx.toNat).isSome
    m.channel num = some ch → ch.near = true → ch.broken = false →
    (known ch.attEnd = true → known ch.ffEnd = true → exec (.channelBreak num) s = .next s) ∧
    (known ch.attEnd = false ∨ known ch.ffEnd = false →
      ∃ m', exec (.channelBreak num) s = .next (s.on m') ∧ m'.global = m.global ∧
        ∃ ch', m'.channel num = some ch' ∧ ch'.broken = true ∧ ch'.att.inFlight = [] ∧ ch'.ff.inFlight = []))

/-- HOFF, HCTL and the two events of the waybill engine (R321 to R330). That HOFF's object gains its pending operation as HOFF
starts (log 81) and that a seal completes the object first (log 131) are the model's readings. -/
def Obligations.HandoffForms : Prop :=
  (∀ (s : State) (t : Tok) (d : Dst) (a : Src) (w : Word) (l : Landing) (m1 m : Mach) (ds : List Word),
    let i : Instr := .hoff t d a
    let e := envOf s i
    let ha : Word := handleAddr (hHandle ds)
    let kb := wordAt ds 2
    let vb := wordAt ds 3
    Takes1 i s a d .pending w l m1 → e.record m1 w 8 = .ok (ds, m) →
    (hoffFields ds = false → exec i s = .next (s.halts i (e.trapWord tFmtrsv))) ∧
    (hoffFields ds = true → m.bseq (m.core s.cur).ctx (hHandle ds) = none → exec i s = .next (s.halts i (.trap tBlock ha))) ∧
    (∀ q, hoffFields ds = true → m.bseq (m.core s.cur).ctx (hHandle ds) = some q →
      (kb.toNat % 64 ≠ 0 → exec i s = .next (s.halts i (.trap tAlign kb))) ∧
      (kb.toNat % 64 = 0 → vb.toNat % 64 = 0 → hLstr ds % 64 = 0 → hRstr ds % 64 = 0 →
        (2 ^ 57 ≤ kb.toNat → exec i s = .next (s.halts i (.trap tSpace kb))) ∧
        (∀ kr vr hr, kb.toNat < 2 ^ 57 → vb.toNat < 2 ^ 57 → hRowsPast ds q.shape (2 ^ 57) (2 ^ 57) = none →
          (∀ x ∈ hoffPages (some kr) (some vr), e.hoffPage m true x = .ok ()) →
          m.regionAt .dev (m.core s.cur).ctx kb.toNat = some kr → m.regionAt .dev (m.core s.cur).ctx vb.toNat = some vr →
          e.exclRegion m .dev kb kb.toNat = .ok kr → e.exclRegion m .dev vb vb.toNat = .ok vr →
          e.hoffPage m true kb.toNat = .ok () → e.hoffPage m true vb.toNat = .ok () →
          hRowsPast ds q.shape (kr.base + kr.size) (vr.base + vr.size) = none → e.exclRegion m .blk ha ha.toNat = .ok hr →
          (255 ≤ ((m.core s.cur).obj (hObj ds)).pend → exec i s = .next (s.halts i (.stall 2))) ∧
          (((m.core s.cur).obj (hObj ds)).pend < 255 → 64 ≤ (m.copies (clusterOf s.cur) false).length →
            exec i s = .next (s.halts i .waitOut)) ∧
          (((m.core s.cur).obj (hObj ds)).pend < 255 → (m.copies (clusterOf s.cur) false).length < 64 →
            (∀ r ∈ [kr, vr, hr], m.rackHas s.cur r.rid .excl = true) →
            exec i s = .next (s.goesOn i (e.start (e.later (.dropRegion kr.rid) (e.later (.dropRegion vr.rid)
              (e.later (.dropRegion hr.rid) (m.onCore s.cur fun k => k.objStart (hObj ds)))))
              (.hoff ds kr.rid vr.rid hr.rid) [l] 0 [] none).2)))))) ∧
  (∀ (s : State) (t : Tok) (d : Dst) (a : Src) (w : Word) (l : Landing) (m : Mach) (form : Nat) (i : Instr),
    (i = .hctlSeal t d a ∧ form = 0) ∨ (i = .hctlCommit t d a ∧ form = 1) ∨ (i = .hctlCancel t d a ∧ form = 2) ∨
      (i = .hctlDrop t d a ∧ form = 3) →
    Takes1 i s a d .pending w l m →
    exec i s = .next (s.goesOn i ((envOf s i).start m (.hctl form (w.toNat / 2 ^ 16 % 1024)) [l] 0 [] none).2)) ∧
  (∀ (s : State) (t : Tok) (d : Dst) (a b : Src) (w n : Word) (l : Landing) (m : Mach),
    let i : Instr := .hctlQry t d a b
    let e := envOf s i
    Takes2 i s a b d .pending w n l m →
    (15 < n.toNat → exec i s = .next (s.halts i (e.trapWord tFmtrsv))) ∧
    (n.toNat ≤ 15 →
      exec i s = .next (s.goesOn i (e.start m (.hqry (w.toNat / 2 ^ 16 % 1024) n.toNat) [l] 0 [] none).2))) ∧
  (∀ (s : State) (c o : Nat) (op : Op) (n j : Nat),
    let m := s.mach
    let ev : Instr := if op.dests.any Landing.isQueue then .pendingEntryLands c o else .handshakeAcknowledged c o
    (m.core c).later = [] → (m.core c).op? o = some op → op.kind = .hqry n j →
    (∀ x ∈ (m.core c).earlier op.id, OpKind.onWaybill n x.kind = false) →
    (∀ x, m.waybill n = some x → x.ctx = (m.core c).ctx →
      exec ev s = .next (s.on (m.finish c { op with dests := op.dests.map (·.put (x.word s.trust j)) }))) ∧
    ((∀ x, m.waybill n = some x → x.ctx ≠ (m.core c).ctx) →
      exec ev s = .next (s.on (m.finish c { op with dests := op.dests.map (·.put 0) })))) ∧
  (∀ (s : State) (c o : Nat) (op : Op) (form n : Nat),
    let m := s.mach
    let ev : Instr := if op.dests.any Landing.isQueue then .pendingEntryLands c o else .handshakeAcknowledged c o
    let done (st code : Nat) (m : Mach) : Mach :=
      m.finish c { op with dests := op.dests.map (·.put (BitVec.ofNat 64 (n * 2 ^ 16 + st * 2 ^ 4 + code))) }
    (m.core c).later = [] → (m.core c).op? o = some op → op.kind = .hctl form n → (m.core c).earlier op.id = [] → form ≤ 3 →
    ((∀ w, m.waybill n = some w → w.ctx ≠ (m.core c).ctx) →
      exec ev s = .next (s.on (m.finish c { op with dests := op.dests.map (·.put 1) }))) ∧
    (∀ w, m.waybill n = some w → w.ctx = (m.core c).ctx →
      (form = 0 → w.state = .moving → w.moved = w.total →
        exec ev s = .next (s.on (done 3 0 ((if w.completed then m else m.completeWaybill w csDone).onWaybill w.num fun w =>
          { w with state := .sealed, completed := true })))) ∧
      (form = 0 → w.state = .sealed → exec ev s = .next (s.on (done 3 0 m))) ∧
      (form = 1 → w.state = .sealed → m.commitPoison s.trust w = none →
        exec ev s = .next (s.on (done 4 0 (commitWaybill s.trust w m)))) ∧
      (∀ p, form = 1 → w.state = .sealed → m.commitPoison s.trust w = some p →
        exec ev s = .next (s.on (m.losePoison s.trust c op true p))) ∧
      (form = 2 → w.state = .open_ ∨ w.state = .moving ∨ w.state = .sealed →
        exec ev s = .next (s.on (done 5 0 (cancelWaybill w m)))) ∧
      (form = 3 → w.state = .committed ∨ w.state = .cancelled →
        exec ev s = .next (s.on (done 0 0 { m with waybills := m.waybills.filter fun x => decide (x.num ≠ w.num) }))) ∧
      ((form = 0 ∧ (w.state = .open_ ∨ w.state = .committed ∨ w.state = .cancelled ∨ (w.state = .moving ∧ w.moved ≠ w.total))) ∨
        (form = 1 ∧ w.state ≠ .sealed) ∨ (form = 2 ∧ (w.state = .committed ∨ w.state = .cancelled)) ∨
        (form = 3 ∧ w.state ≠ .committed ∧ w.state ≠ .cancelled) → exec ev s = .next (s.on (done w.state.code 15 m))))) ∧
  (∀ (s : State) (w : Waybill) (q : BSeq),
    let m := s.mach
    let r := moveBlock s.trust m w q.shape (w.moved / w.nb) (w.moved % w.nb) (w.frames.getD w.moved 0)
    m.waybills.find? Waybill.unmoved = some w → m.bseq w.ctx (hHandle w.desc) = some q → m.dramPoison = [] →
    exec (.handoffBlockMove w.num) s = .next (s.on (r.1.onWaybill w.num fun w =>
      { w with state := .moving, moved := w.moved + 1, flags := w.flags ||| stickyOf r.2 }))) ∧
  (∀ (s : State) (n : Nat) (w : Waybill),
    s.mach.waybill n = some w →
    (w.moved = w.total → w.state = .moving → w.completed = false →
      exec (.handoffCompletionEvent n) s = .next (s.on ((s.mach.completeWaybill w csDone).onWaybill n fun w =>
        { w with completed := true, state := if hSeal w.desc then .sealed else w.state }))) ∧
    (w.moved ≠ w.total ∨ w.state ≠ .moving ∨ w.completed = true → exec (.handoffCompletionEvent n) s = .next s))

/-- CWLD (R428, R429) and CWLD_CHUNK (R430). That a count of zero raises FMTRSV, and a chunk is 4 MiB without a manifest, is the
model's choice (log 34). -/
def Obligations.WeightLoads : Prop :=
  (∀ (s : State) (t : Tok) (d : Dst) (a : Src) (v : Word) (l : Landing) (m1 m : Mach) (w : List Word) (rs : List (List Nat)),
    let i : Instr := .cwld t d a
    let e := envOf s i
    let sides := cwldSides s.trust (m.core s.cur).ctx w
    let rids := rs.flatten.eraseDups
    Takes1 i s a d .pending v l m1 → e.record m1 v 8 = .ok (w, m) →
    (cwldFields w = false → exec i s = .next (s.halts i (e.trapWord tFmtrsv))) ∧
    (cwldFields w = true → (wordAt w 1).toNat % 64 ≠ 0 → exec i s = .next (s.halts i (.trap tAlign (wordAt w 1)))) ∧
    (cwldFields w = true → (wordAt w 1).toNat % 64 = 0 → (wordAt w 2).toNat % 64 ≠ 0 →
      exec i s = .next (s.halts i (.trap tAlign (wordAt w 2)))) ∧
    (cwldFields w = true → (wordAt w 1).toNat % 64 = 0 → (wordAt w 2).toNat % 64 = 0 →
      (∀ x ∈ sides, runInSpace s.trust x.2 x.1 = true ∧ (x.1.1 = 1 → sliceOf x.1.2.1 = sliceOf (x.1.2.1 + x.2 - 1)) ∧
        (∃ m', e.runTranslates x.2 x.1 m = .ok m') ∧
        runProtected s.trust m (m.core s.cur).ctx (m.seq s.cur s.phase.seq).status.super x.2 x.1 = none) →
      sides.mapM (cwldKeys m s.cur) = .ok rs → ((m.core s.cur).obj (wObj w)).pend < 255 →
      (64 ≤ (m.copies (clusterOf s.cur) false).length → exec i s = .next (s.halts i .waitOut)) ∧
      ((m.copies (clusterOf s.cur) false).length < 64 → (∀ r ∈ rids, m.rackHas s.cur r .excl = true) →
      exec i s = .next (s.goesOn i (e.start (rids.foldl (fun m r => e.later (.dropRegion r) m) m) (.cwld w rids none) [l] 0 [] none).2)))) ∧
  (∀ (s : State) (c o : Nat) (op : Op) (w : List Word) (rids : List Nat) (x : CwldRun) (bs : List Byte),
    let m := s.mach
    let k := m.core c
    let n := chunkLen x.leaves.length x.last x.next
    let at_ := wDst w x.next
    let good := leafHash bs = x.leaves.getD x.next 0
    k.op? o = some op → op.kind = .cwld w rids (some x) → (∀ g, k.group = some g → m.groupLives g.gid = true) →
    0 < (k.obj (wObj w)).pend → wDsp w = 1 → m.retainedSlice at_ = none → m.global.wf = true →
    chunkRead s.trust m (m.engineCtx c (k.group.map Group.gid)) w x.next n = .ok bs →
    ∃ m', exec (.cwldChunk c o) s = .next (s.on m') ∧ m'.dram = m.dram ∧
      (∀ b, Mem.get m'.global b =
        if at_ ≤ b ∧ b < at_ + n then (if good then bs.getD (b - at_) 0 else 0) else Mem.get m.global b) ∧
      ((m'.core c).obj (wObj w)).units % 2 ^ 32 = ((k.obj (wObj w)).units + if good then n else 0) % 2 ^ 32 ∧
      ((m'.core c).obj (wObj w)).status = (if good ∨ (k.obj (wObj w)).status ≠ 0 then (k.obj (wObj w)).status else 3) ∧
      (x.next + 1 < wFirst w + wCount w →
        ((m'.core c).op? o).map Op.kind = some (.cwld w rids (some { x with next := x.next + 1 })) ∧
        ((m'.core c).obj (wObj w)).pend = (k.obj (wObj w)).pend) ∧
      (wFirst w + wCount w ≤ x.next + 1 →
        (m'.core c).op? o = none ∧ ((m'.core c).obj (wObj w)).pend = (k.obj (wObj w)).pend - 1))

/-- LNCH (R364, R365) and ERRQ (R402, R403). That DENIED compares the priority asked for with the submitted one of the own request
is the model's reading (log 99). -/
def Obligations.SystemForms : Prop :=
  (∀ (s : State) (t : Tok) (d : Dst) (a : Src) (w : Word) (l : Landing) (m : Mach),
    let i : Instr := .lnchNode t d a
    Takes1 i s a d .pending w l m →
    exec i s = .next (s.goesOn i ((envOf s i).start m (.lnchNode w) [l] 0 [] none).2)) ∧
  (∀ (s : State) (t : Tok) (d : Dst) (a : Src) (v : Word) (l : Landing) (m1 m : Mach) (w : List Word),
    let i : Instr := .lnchReq t d a
    let e := envOf s i
    let prio (x : List Word) : Nat := (wordAt x 0).toNat / 64 % 8
    Takes1 i s a d .pending v l m1 → e.record m1 v 8 = .ok (w, m) →
    ((wordAt w 0).setWidth 6 ≠ (m.core s.cur).ctx →
      exec i s = .next (s.goesOn i (e.start m (.lnchReq []) [l] 0 [] none).2)) ∧
    (∀ g r, (m.core s.cur).group = some g → m.request g.req = some r → (wordAt w 0).setWidth 6 = (m.core s.cur).ctx →
      ((m.seq s.cur s.phase.seq).status.super = true ∨ prio r.words ≤ prio w →
        exec i s = .next (s.goesOn i (e.start m (.lnchReq w) [l] 0 [] none).2)) ∧
      ((m.seq s.cur s.phase.seq).status.super = false → prio w < prio r.words →
        exec i s = .next (s.goesOn i (e.start m (.lnchReq []) [l] 0 [] none).2)))) ∧
  (∀ (s : State) (c o : Nat) (op : Op),
    let m := s.mach
    let ev : Instr := if op.dests.any Landing.isQueue then .pendingEntryLands c o else .handshakeAcknowledged c o
    let done (code : Nat) (m : Mach) : Mach := m.finish c { op with dests := op.dests.map (·.put (BitVec.ofNat 64 code)) }
    (m.core c).later = [] → (m.core c).op? o = some op → m.released c op.id .pkg = true →
    (op.kind = .lnchReq [] → exec ev s = .next (s.on (done 2 m))) ∧
    (∀ w, w ≠ [] → op.kind = .lnchReq w →
      (∀ code, m.recordRefused (m.funcOf (m.core c).ctx) w = some code → exec ev s = .next (s.on (done code m))) ∧
      (m.recordRefused (m.funcOf (m.core c).ctx) w = none → exec ev s = .next (s.on ((done 0 m).enqueue w)))) ∧
    (∀ a g, op.kind = .lnchNode a → (m.core c).group = some g → m.node g.req (a.toNat % 65536) = none →
      exec ev s = .next (s.on (done 1 m))) ∧
    (∀ a g y, op.kind = .lnchNode a → (m.core c).group = some g → m.node g.req (a.toNat % 65536) = some y →
      (a.toNat / 65536 ≠ 0 → exec ev s = .next (s.on (done 4 m))) ∧
      (a.toNat < 65536 → ∀ r, m.request g.req = some r → r.ended = false → r.ending = none → op.fin = [] →
        SMap.wf r.nodes = true →
        (0 < y.pred → ∃ m', exec ev s = .next (s.on m') ∧ m'.cores = (done 0 m).cores ∧ m'.launches = m.launches ∧
          m'.node g.req a.toNat = some y.arrive ∧ (∀ k, k ≠ a.toNat → m'.node g.req k = m.node g.req k) ∧
          (∀ q k, q ≠ g.req → m'.node q k = m.node q k)) ∧
        (y.pred = 0 → exec ev s = .next (s.on (endRequest s.trust g.req 2 (done 0 m))))))) ∧
  (∀ (y : NodeSt),
    (y.run = .idle → 1 < y.counter → y.arrive = { y with counter := y.counter - 1 }) ∧
    (y.run = .idle → y.counter ≤ 1 → y.arrive = { y with run := .due, counter := y.pred }) ∧
    (y.run ≠ .idle → y.arrive = { y with held := y.held + 1 })) ∧
  (∀ (s : State) (t : Tok) (d : Dst) (a b : Src) (w n : Word) (l : Landing) (m : Mach),
    let i : Instr := .errqRd t d a b
    let e := envOf s i
    let die := w.toNat / 256 % 16
    let ok := w.toNat < 4096 ∧ die ≤ 5 ∧ w.toNat / 8 % 32 = 0
    let k := m.bank die (w.toNat % 8)
    Takes2 i s a b d .pending w n l m →
    (¬(ok ∧ n.toNat ≤ 3) → exec i s = .next (s.halts i (e.trapWord tFmtrsv))) ∧
    (ok → n.toNat ≤ 3 → s.trust.isLive die = false → exec i s = .next (s.goesOn i (e.startValues m [l.put 0] 0 []))) ∧
    (ok → s.trust.isLive die = true →
      (n = 0 → exec i s = .next (s.goesOn i (e.startValues m
        [l.put (Bank.word0 k.valid k.uc k.ovr k.cons k.seq k.info.ctx k.info.tile)] 0 []))) ∧
      (n = 1 → exec i s = .next (s.goesOn i (e.startValues m [l.put k.info.addr] 0 []))) ∧
      (n = 2 → exec i s = .next (s.goesOn i (e.startValues m
        [l.put (BitVec.ofNat 64 (k.info.bits.toNat * 2 ^ 32 + k.info.syndrome.toNat))] 0 []))) ∧
      (n = 3 → exec i s = .next (s.goesOn i (e.startValues m
        [l.put (BitVec.ofNat 64 (k.ccount.toNat * 2 ^ 32 + k.lost.toNat * 2 ^ 16))] 0 []))))) ∧
  (∀ (s : State) (t : Tok) (d : Dst) (a b : Src) (w v : Word) (l : Landing) (m : Mach),
    let i : Instr := .errqClr t d a b
    let e := envOf s i
    let die := w.toNat / 256 % 16
    let ok := w.toNat < 4096 ∧ die ≤ 5 ∧ w.toNat / 8 % 32 = 0 ∧ v.toNat ≤ 255
    let key := w.toNat % 8
    let k := m.bank die key
    Takes2 i s a b d .pending w v l m →
    (¬ok → exec i s = .next (s.halts i (e.trapWord tFmtrsv))) ∧
    (ok → s.trust.isLive die = false → exec i s = .next (s.goesOn i (e.startValues m [l.put 1] 0 []))) ∧
    (ok → s.trust.isLive die = true → k.seq.toNat ≠ v.toNat →
      exec i s = .next (s.goesOn i (e.startValues m [l.put 15] 0 []))) ∧
    (ok → s.trust.isLive die = true → k.seq.toNat = v.toNat →
      let cleared : Bank := ⟨false, false, false, false, k.seq, ⟨0, 0, none, 0, 0, 0⟩, 0, 0⟩
      exec i s = .next (s.goesOn i (e.startValues
        { m with banks := SMap.set m.banks (8 * die + key) cleared, cycleErrs := SMap.erase m.cycleErrs (8 * die + key) }
        [l.put (BitVec.ofNat 64 (k.ccount.toNat * 2 ^ 32 + k.lost.toNat * 2 ^ 16))] 0 [])))) ∧
  (∀ (s : State) (t : Tok) (d : Dst) (a : Src) (w : Word) (l : Landing) (m : Mach),
    let i : Instr := .errqSum t d a
    let e := envOf s i
    let die := w.toNat / 256 % 16
    let ok := w.toNat < 4096 ∧ die ≤ 5 ∧ w.toNat % 256 = 0
    Takes1 i s a d .pending w l m →
    (¬ok → exec i s = .next (s.halts i (e.trapWord tFmtrsv))) ∧
    (ok → s.trust.isLive die = false → exec i s = .next (s.goesOn i (e.startValues m [l.put 0] 0 []))) ∧
    (ok → s.trust.isLive die = true → exec i s = .next (s.goesOn i (e.startValues m [l.put (m.errorSummary die)] 0 []))))

/-- CLGT (R415), CLRD (R416, R417) and what reaches a chunk from other packages. The model's
readings and choices: NOTARGET comes before SPACE (log 117), members tell each other of a MISMATCH by messages (log 119), and CLRD
waits for its children before it starts, its runs named by the live members (log 132). -/
def Obligations.CollectiveForms : Prop :=
  (∀ (s : State) (t : Tok) (d : Dst) (a b : Src) (w v : Word) (l : Landing) (m2 m1 m : Mach) (hd ls : List Word),
    let i : Instr := .clgtSet t d a b
    let e := envOf s i
    let n := cgCount hd
    let ps := (List.range n).map fun j => (wordAt ls (8 + j / 4)).toNat / 2 ^ (16 * (j % 4)) % 65536
    let ms := ps.map (BitVec.ofNat 10)
    let x : Collective :=
      { ctx := (m.core s.cur).ctx, words := hd, members := ms,
        live := ms.filter fun p => decide (p = s.trust.package) || !cutOff s.trust m p, runs := [] }
    Takes2 i s a b d .pending w v l m2 →
    (16 ≤ w.toNat → exec i s = .next (s.halts i (e.trapWord tFmtrsv))) ∧
    (w.toNat < 16 → e.record m2 v 8 = .ok (hd, m1) →
      (0x80000 < v.toNat + 64 + 2 * n → exec i s = .next (s.halts i (.trap tSpace v))) ∧
      (v.toNat + 64 + 2 * n ≤ 0x80000 → e.record m1 v (min (8 + (n + 3) / 4) ((0x80000 - v.toNat) / 8)) = .ok (ls, m) →
        (groupRecordOk s.trust hd ps = false → exec i s = .next (s.goesOn i (e.blockDone m l 4 []))) ∧
        (groupRecordOk s.trust hd ps = true → m.collective w.toNat ≠ none →
          exec i s = .next (s.goesOn i (e.blockDone m l (BitVec.ofNat 64 stInuse) []))) ∧
        (groupRecordOk s.trust hd ps = true → m.collective w.toNat = none →
          exec i s = .next (s.goesOn i (e.blockDone { m with collectives := SMap.set m.collectives w.toNat x } l 0 [])))))) ∧
  (∀ (s : State) (t : Tok) (d : Dst) (a : Src) (w : Word) (l : Landing) (m : Mach),
    let i : Instr := .clgtClr t d a
    let e := envOf s i
    Takes1 i s a d .pending w l m →
    (16 ≤ w.toNat → exec i s = .next (s.halts i (e.trapWord tFmtrsv))) ∧
    (w.toNat < 16 → exec i s = .next (s.goesOn i (e.block m.ids (e.start m (.clgtClr w.toNat) [l] 0 [] none).2)))) ∧
  (∀ (s : State) (t : Tok) (d : Dst) (a b : Src) (w n : Word) (l : Landing) (m : Mach),
    let i : Instr := .clgtQry t d a b
    let e := envOf s i
    Takes2 i s a b d .pending w n l m →
    (16 ≤ w.toNat → exec i s = .next (s.halts i (e.trapWord tFmtrsv))) ∧
    (w.toNat < 16 → m.collective w.toNat = none → exec i s = .next (s.goesOn i (e.blockDone m l 0 []))) ∧
    (∀ x, w.toNat < 16 → m.collective w.toNat = some x →
      exec i s = .next (s.goesOn i (e.blockDone m l (x.word s.trust n.toNat) [])))) ∧
  (∀ (s : State) (t : Tok) (d : Dst) (a b : Src) (w v : Word) (l : Landing) (m : Mach),
    let i : Instr := .clrd t d a b
    let e := envOf s i
    let g := w.toNat % 16
    let c := w.toNat / 16 % 2 ^ 32
    Takes2 i s a b d .pending w v l m →
    (2 ^ 36 ≤ w.toNat → exec i s = .next (s.halts i (e.trapWord tFmtrsv))) ∧
    (w.toNat < 2 ^ 36 → v.toNat % 64 ≠ 0 → exec i s = .next (s.halts i (.trap tAlign v))) ∧
    (w.toNat < 2 ^ 36 → v.toNat % 64 = 0 → m.collective g = none → exec i s = .next (s.goesOn i (e.blockDone m l 1 []))) ∧
    (∀ x, w.toNat < 2 ^ 36 → v.toNat % 64 = 0 → m.collective g = some x →
      (runInSpace s.trust (cgSize x.words) (1, v.toNat, false) = false → exec i s = .next (s.halts i (.trap tSpace v))) ∧
      (runInSpace s.trust (cgSize x.words) (1, v.toNat, false) = true →
        runInSpace s.trust (cgSize x.words) (1, cgBase x.words + c * cgSize x.words, true) = true →
        runKeyless m s.cur (cgSize x.words) (1, v.toNat, false) = none →
        runKeyless m s.cur (cgSize x.words) (1, cgBase x.words + c * cgSize x.words, true) = none →
        (cgChunks x.words ≤ c → exec i s = .next (s.goesOn i (e.blockDone m l 4 []))) ∧
        (c < cgChunks x.words → (x.run (BitVec.ofNat 32 c)).mismatch = false →
          (∃ q ∈ x.children (x.rank s.trust.package), ∀ y ∈ (x.run (BitVec.ofNat 32 c)).partials, y.1 = q → y.2.1 ≠ x.live.length) →
          exec i s = .next (s.halts i (.chunk g (BitVec.ofNat 32 c)))) ∧
        (c < cgChunks x.words →
          (∀ q ∈ x.children (x.rank s.trust.package), ∃ y ∈ (x.run (BitVec.ofNat 32 c)).partials, y.1 = q ∧ y.2.1 = x.live.length) ∨
            (x.run (BitVec.ofNat 32 c)).mismatch = true →
          exec i s = .next (s.goesOn i (e.blockStart (m.onCollective g fun x => x.onRun (BitVec.ofNat 32 c) fun r => r)
            (.clrd g (BitVec.ofNat 32 c) v.toNat) l [])))))) ∧
  (∀ (s : State) (c o g : Nat) (op : Op),
    let m := s.mach
    let ev : Instr := if op.dests.any Landing.isQueue then .pendingEntryLands c o else .handshakeAcknowledged c o
    let done (v : Word) (m : Mach) : Mach := m.finish c { op with dests := op.dests.map (·.put v) }
    (m.core c).later = [] → (m.core c).op? o = some op → op.kind = .clgtClr g →
    (m.clrdBusy g = true → exec ev s = .next s) ∧
    (m.clrdBusy g = false → m.collective g = none → exec ev s = .next (s.on (done 1 m))) ∧
    (m.clrdBusy g = false → m.collective g ≠ none →
      exec ev s = .next (s.on (done 0 { m with collectives := SMap.erase m.collectives g })))) ∧
  (∀ (s : State) (c o g : Nat) (op : Op) (ch : BitVec 32) (src : Nat) (x : Collective),
    let m := s.mach
    let ev : Instr := if op.dests.any Landing.isQueue then .pendingEntryLands c o else .handshakeAcknowledged c o
    let r := x.run ch
    let me := s.trust.package
    let done (v : Word) (m : Mach) : Mach := m.finish c { op with dests := op.dests.map (·.put v) }
    (m.core c).later = [] → (m.core c).op? o = some op → op.kind = .clrd g ch src → m.collective g = some x →
    (r.mismatch = true → exec ev s = .next (s.on (done 12 m))) ∧
    (r.mismatch = false → m.released c op.id .fab = false → exec ev s = .next s) ∧
    (∀ n rb, r.mismatch = false → m.released c op.id .fab = true → r.confirmed = some (n, rb) →
      exec ev s = .next (s.on (done (BitVec.ofNat 64 (ch.toNat * 2 ^ 32 + n % 2 ^ 16 * 2 ^ 16 + if rb then 16 else 0))
        ((m.onCore c fun k => { k with lines := [] }).onCollective g fun x => { x with runs := SMap.erase x.runs ch.toNat })))) ∧
    (∀ ps bs m1, r.mismatch = false → m.released c op.id .fab = true → r.confirmed = none → r.sent = false →
      (x.children (x.rank me)).mapM (x.partial ch) = some ps →
      engineRead s.trust c op 0 1 src (cgSize x.words) m = .ok bs m1 →
      let v := ps.foldl (fun v p => List.zipWith (reduceEl (cgFmt x.words) (cgOp x.words)) v (partialElems p)) (chunkElems (cgFmt x.words) bs)
      (∀ p, x.parent (x.rank me) = some p →
        exec ev s = .next (s.on (({ m1 with outbox := m1.outbox ++
          [.partial_ p g ch ⟨x.table, x.live.length, r.rebuilt, some (partialBytes v)⟩] } : Mach).onCollective g
            fun x => x.onRun ch fun r => { r with sent := true }))) ∧
      (x.parent (x.rank me) = none →
        let out := rootBytes (cgFmt x.words) v
        let told := (x.others me).map fun p => Sent.root p g ch (.result x.live.length r.rebuilt out)
        exec ev s = .next (s.on (({ m1 with outbox := m1.outbox ++ told } : Mach).onCollective g
          fun z => z.onRun ch fun y => { y with sent := true, result := some (x.live.length, r.rebuilt, out) })))) ∧
    (r.mismatch = false → m.released c op.id .fab = true → r.confirmed = none → r.sent = true → r.written = false →
      ((∀ y ∈ r.result, y.1 ≠ x.live.length) → exec ev s = .next s) ∧
      (∀ y u m1, r.result = some y → y.1 = x.live.length →
        engineWrite s.trust c op 0 1 (cgBase x.words + ch.toNat * cgSize x.words) y.2.2 m = .ok u m1 →
        let wrote (m : Mach) : Mach := m.onCollective g fun x => x.onRun ch fun r => { r with written := true }
        (x.live.head? = some me → exec ev s = .next (s.on (wrote m1))) ∧
        (∀ p, x.live.head? = some p → p ≠ me →
          exec ev s = .next (s.on (wrote { m1 with outbox := m1.outbox ++ [.wrote p g ch x.live.length] }))))) ∧
    (r.mismatch = false → m.released c op.id .fab = true → r.confirmed = none → r.sent = true → r.written = true →
      (x.live.head? ≠ some me → exec ev s = .next (s.on (m.takeWrote g ch x.live.length))) ∧
      (x.live.head? = some me →
        (∀ q ∈ x.others me, q ∈ r.wrote ∨ Reply.wrote q g ch x.live.length ∈ m.inbox) →
        ∃ m' x', exec ev s = .next (s.on m') ∧ m'.collective g = some x' ∧ (x'.run ch).confirmed = some (x.live.length, r.rebuilt) ∧
          m'.outbox = m.outbox ++ (x.others me).map fun p => .root p g ch (.confirmed x.live.length r.rebuilt)))) ∧
  (∀ (a b : Nat), reduceEl 5 0 a b = (a + b) % 2 ^ 32 ∧ reduceEl 5 1 a b = (mnx .i32 .maxn a b).bits ∧
    reduceEl 5 2 a b = (mnx .i32 .minn a b).bits ∧ reduceEl 13 1 a b = (mnx .f32 .maxn a b).bits ∧
    reduceEl 11 2 a b = (mnx .f32 .minn a b).bits ∧
    ∀ f, floatFmt .f32 = some f → reduceEl 13 0 a b = (f.add .rne false (fmtValue .f32 a) (fmtValue .f32 b)).bits) ∧
  (∀ (s : State) (g : Nat) (ch : BitVec 32) (p : BitVec 10) (w : ChildWord) (x : Collective),
    s.mach.collective g = some x →
    ∃ m', exec (.childPartial g ch p w) s = .next (s.on m') ∧ m'.global = s.mach.global ∧
      (∀ h, h ≠ g → m'.collective h = s.mach.collective h) ∧
      (w.table ≠ x.table →
        (∃ x', m'.collective g = some x' ∧ (x'.run ch).mismatch = true ∧ ∀ c, c ≠ ch → x'.run c = x.run c) ∧
        ∀ q, q = p ∨ (q ∈ x.others s.trust.package ∧ (x.run ch).mismatch = false) → Sent.root q g ch .mismatch ∈ m'.outbox) ∧
      (w.table = x.table → (x.run ch).mismatch = true → m' = { s.mach with outbox := s.mach.outbox ++ [.root p g ch .mismatch] }) ∧
      (w.table = x.table → (x.run ch).mismatch = false → m'.outbox = s.mach.outbox ∧
        ∃ x', m'.collective g = some x' ∧ x'.live = x.live ∧ (∀ c, c ≠ ch → x'.run c = x.run c) ∧
          (x'.run ch).sent = (x.run ch).sent ∧ ((x'.run ch).rebuilt = true ↔ (x.run ch).rebuilt = true ∨ w.rebuilt = true) ∧
          (∀ bs, w.data = some bs → w.live ≤ x.live.length → (x'.run ch).partials =
            ((x.run ch).partials.filter fun y => decide (y.1 ≠ p ∨ y.2.1 ≠ w.live)) ++ [(p, w.live, bs)]) ∧
          (w.data = none ∨ x.live.length < w.live → (x'.run ch).partials = (x.run ch).partials))) ∧
  (∀ (s : State) (g : Nat) (ch : BitVec 32) (x : Collective),
    s.mach.collective g = some x →
    (∀ n rb bs, n ≤ x.live.length → (∀ y ∈ (x.run ch).result, n < y.1) →
      ∃ m' x', exec (.rootConfirmation g ch (.result n rb bs)) s = .next (s.on m') ∧ m'.collective g = some x' ∧
        (x'.run ch).result = some (n, rb, bs)) ∧
    (∀ n rb bs, x.live.length < n → ∃ m' x', exec (.rootConfirmation g ch (.result n rb bs)) s = .next (s.on m') ∧
      m'.collective g = some x' ∧ x'.run ch = x.run ch) ∧
    (∃ m' x', exec (.rootConfirmation g ch .mismatch) s = .next (s.on m') ∧ m'.collective g = some x' ∧
      (x'.run ch).mismatch = true) ∧
    (∀ n rb, SMap.get? x.runs ch.toNat ≠ none →
      ∃ m' x', exec (.rootConfirmation g ch (.confirmed n rb)) s = .next (s.on m') ∧ m'.collective g = some x' ∧
        ((n = x.live.length ∧ (x.run ch).written = true) ∨ x.live.length < n → (x'.run ch).confirmed = some (n, rb)) ∧
        (n < x.live.length ∨ (n = x.live.length ∧ (x.run ch).written = false) → x'.run ch = x.run ch))) ∧
  (∀ (x : Collective) (p : BitVec 10) (c : BitVec 32),
    p ∈ x.live → SMap.get? x.runs c.toNat ≠ none →
    let n := (x.live.filter fun y => decide (y ≠ p)).length
    (x.remove p).live = x.live.filter (fun y => decide (y ≠ p)) ∧
    ((x.run c).confirmed ≠ none → (x.remove p).run c = x.run c) ∧
    ((x.run c).confirmed = none →
      ((x.remove p).run c).rebuilt = true ∧ ((x.remove p).run c).sent = false ∧ ((x.remove p).run c).written = false ∧
        ((x.remove p).run c).wrote = [] ∧ ((x.remove p).run c).partials = (x.run c).partials.filter fun y => decide (y.2.1 ≤ n)))

/-- SUBMISSION_RECORD, REQUEST_AGING and REQUEST_ADMISSION (R335 to R339). That only the first aged record of a level ages, and only
while the next level has room, is the model's reading (log 87). -/
def Obligations.QueueEvents : Prop :=
  (∀ (s : State) (func : BitVec 4) (off : Nat) (data : List Byte),
    let m := s.mach
    let w := wordsOf 8 data
    let p := (wordAt w 0).toNat / 64 % 8
    let ok := (wordAt w 0).toNat / 2 ^ 9 % 128 = 0 ∧ wordAt w 7 = 0 ∧
      (∃ x, SMap.get? m.contexts ((wordAt w 0).toNat % 64) = some x ∧ x.func = func) ∧ (m.level p).length < 4096
    let slot := 0x400 ≤ off ∧ off ≤ 0xFC0 ∧ off % 64 = 0 ∧ data.length = 64
    (slot → ok → exec (.submissionRecord func off data) s = .next (s.on (m.setLevel p (m.level p ++ [⟨w, m.clockOf 0⟩])))) ∧
    (slot → ¬ok → exec (.submissionRecord func off data) s =
      .next (s.on { m with refused := SMap.set m.refused p (SMap.getD m.refused p 0 + 1) })) ∧
    (¬slot → off < 0x1000 → 0x400 < off + data.length → exec (.submissionRecord func off data) s =
      .next (s.on { m with malformed := m.malformed + 1 })) ∧
    (¬slot → 0x1000 ≤ off ∨ off + data.length ≤ 0x400 → exec (.submissionRecord func off data) s = .next s)) ∧
  (∀ (s : State) (p n : Nat) (r : QRecord),
    let m := s.mach
    (m.level p)[n]? = some r →
    (1 < p → p < 8 → r.since + 1048576 ≤ m.clockOf 0 →
      (∀ k x, k < n → (m.level p)[k]? = some x → m.clockOf 0 < x.since + 1048576) → (m.level (p - 1)).length < 4096 →
      exec (.requestAging p n) s = .next (s.on ((m.setLevel p ((m.level p).eraseIdx n)).setLevel (p - 1)
        (m.level (p - 1) ++ [{ r with since := m.clockOf 0 }])))) ∧
    (p ≤ 1 ∨ m.clockOf 0 < r.since + 1048576 ∨ 4096 ≤ (m.level (p - 1)).length ∨
      (∃ k x, k < n ∧ (m.level p)[k]? = some x ∧ x.since + 1048576 ≤ m.clockOf 0) → exec (.requestAging p n) s = .next s)) ∧
  (∀ (s : State) (p : Nat) (q : QRecord) (rest : List QRecord),
    let m := s.mach
    p < 8 → m.level p = q :: rest → (∀ x, x < p → m.level x = []) → (m.requests.filter fun r => !r.ended).length < 16384 →
    (∀ r ∈ m.requests, r.rid ≠ m.ids) →
    (∀ nodes, readGraph s.trust m q.words = .ok nodes →
      ∃ m', exec .requestAdmission s = .next (s.on m') ∧ m'.levels = (m.setLevel p rest).levels ∧
        m'.requests = m.requests ++ [Request.admitted m.ids p q.words nodes] ∧ m'.host = m.host) ∧
    (readGraph s.trust m q.words = .error none → wordAt q.words 6 ≠ 0 →
      ∃ m', exec .requestAdmission s = .next (s.on m') ∧ m'.levels = (m.setLevel p rest).levels ∧
        m'.host = m.host.write (m.hostAt (rCtx q.words) (wordAt q.words 6).toNat)
          (leBytes 64 (rTag q.words * 2 ^ 48 + (rCtx q.words).toNat * 2 ^ 42 + 1))))

/-- The firing of nodes of every type (R340 to R344, R352, R353, R356, R361, R363). -/
def Obligations.NodeEvents : Prop :=
  (∀ (s : State) (r n ty : Nat) (ev : Instr) (x : Request) (y : NodeSt) (w : List Word),
    let m := s.mach
    (ev = .kernFire r n ∧ ty = 0) ∨ (ev = .xferFire r n ∧ ty = 1) ∨ (ev = .ifFire r n ∧ ty = 2) ∨ (ev = .whileFire r n ∧ ty = 3) ∨
      (ev = .switchFire r n ∧ ty = 4) ∨ (ev = .relayFire r n ∧ ty = 5) ∨ (ev = .handFire r n ∧ ty = 6) ∨
      (ev = .waitFire r n ∧ ty = 7) ∨ (ev = .doneFire r n ∧ ty = 8) →
    m.request r = some x → x.ended = false → x.ending = none → m.node r n = some y →
    (y.run = .idle ∨ x.after n y = true → exec ev s = .next s) ∧
    (y.run ≠ .idle → x.after n y = false → nodeWords s.trust m x n = .ok w →
      (9 ≤ nType w → exec ev s = .next (s.on (endRequest s.trust r 2 m))) ∧
      (nType w = ty → (∃ k ∈ nSuccs w, SMap.get? x.nodes k = none) → exec ev s = .next (s.on (endRequest s.trust r 2 m))) ∧
      (nType w < 9 → nType w ≠ ty → exec ev s = .next s))) ∧
  (∀ (s : State) (r n : Nat) (x : Request) (y : NodeSt) (w hd : List Word) (gs : List (Nat × Nat × GroupSt)),
    let m := s.mach
    let ss := [(wordAt w 0).toNat / 2 ^ 16 % 65536, (wordAt w 0).toNat / 2 ^ 32 % 65536]
    m.request r = some x → x.ended = false → x.ending = none → m.node r n = some y → y.run = .due → x.after n y = false →
    nodeWords s.trust m x n = .ok w → nType w = 0 → succsOk x w = true → (wordAt w 0).toNat / 4 % 2 ^ 14 = 0 →
    (∀ k ∈ ss, streamOk s.trust m x k = true) → agentWords s.trust m (rCtx x.words) (wordAt w 1).toNat 16 = .ok hd →
    kernelOk hd = true → kClass hd = (wordAt w 0).getLsbD 0 → mapped s.trust m (rCtx x.words) (wordAt w 1).toNat (kEnd hd) = true →
    kCount hd = 0 → kernelExtent s.trust m (rCtx x.words) (wordAt w 1).toNat hd = .ok () → kernelGroups s.trust x hd w = some gs → (∀ g ∈ gs, m.tableFull (dieOf g.2.1) = false) →
    (∀ l ∈ m.launches, l.num ≠ m.ids) →
    let l : Launch :=
      { num := m.ids, req := r, node := n, ctx := rCtx x.words, desc := (wordAt w 1).toNat, hash := kHash hd, lens := kLens hd,
        table := kLevels hd, arg := wordAt w 2, streams := ss.filter fun k => decide (k ≠ 0xFFFF), issued := true, groups := gs, issuing := [] }
    let bare (l : Launch) : Launch := { l with issuing := [] }
    ∃ m', exec (.kernFire r n) s = .next (s.on m') ∧ m'.launches.map bare = m.launches.map bare ++ [l] ∧
      (l.streams = [] → ∀ g ∈ gs, (m'.launch m.ids).bind (fun l => m'.issuedStreams l (dieOf g.2.1)) = some []) ∧
      (m'.node r n).map NodeSt.run = some .running) ∧
  (∀ (s : State) (r n : Nat) (x : Request) (w : List Word) (l : Launch),
    let m := s.mach
    let m1 := ({ m with launches := m.launches.filter fun x => decide (x.num ≠ l.num) } : Mach).settleStreams
    m.launches.find? (fun l => decide (l.req = r ∧ l.node = n)) = some l →
    ((∃ g ∈ l.groups, g.2.2 ≠ .ended) → exec (.kernFinish r n) s = .next s) ∧
    (l.issued = true → (∀ g ∈ l.groups, g.2.2 = .ended) → m1.request r = some x → x.ended = false → x.ending = none →
      nodeWords s.trust m1 x n = .ok w → succsOk x w = true →
      exec (.kernFinish r n) s = .next (s.on (finishNode s.trust r n (nSuccs w) m1)))) ∧
  (∀ (m : Mach) (st : Stream), st ∈ m.streams → m.streamNeeded st = true → st ∈ m.settleStreams.streams) ∧
  (∀ (s : State) (r n : Nat) (x : Request) (y : NodeSt) (w : List Word) (g : Region) (bs : List Byte),
    let m := s.mach
    let len := nA w
    let base := (wordAt w 2).toNat
    m.request r = some x → x.ended = false → x.ending = none → m.node r n = some y → y.run ≠ .idle → x.after n y = false →
    nodeWords s.trust m x n = .ok w → nType w = 1 → nSuccs w = [] → 0 < len → len < 2 ^ 32 → len % 4096 = 0 →
    (wordAt w 1).toNat % 8 = 0 → m.exactRegion .glb (rCtx x.words) base len = some g → m.streams = [] → g.key.state = .free →
    63 ≤ m.rackFree g.home → m.retainedSlice base = none → agentRead s.trust m (rCtx x.words) (wordAt w 1).toNat len = .ok bs →
    bs.length = len → m.global.wf = true →
    ∃ (m' : Mach) (st : Stream), exec (.xferFire r n) s = .next (s.on m') ∧ m'.streams = [st] ∧ st.rid = g.rid ∧ st.refs = [r] ∧
      (m'.region g.rid).map Region.key =
        some ⟨.shared, .setup st.num 65536, [], List.replicate 63 ⟨.setup st.num 65536, []⟩, none, []⟩ ∧
      ∀ b, Mem.get m'.global b = if base ≤ b ∧ b < base + len then bs.getD (b - base) 0 else Mem.get m.global b) ∧
  (∀ (s : State) (r n ty : Nat) (ev : Instr) (x : Request) (y : NodeSt) (w : List Word),
    let m := s.mach
    let a := (wordAt w 1).toNat
    let size := if (wordAt w 0).getLsbD 1 then 4 else 8
    let v := m.global.nat a size
    let k := if ty = 4 then min v 3 else if v = 0 then 1 else 0
    let succ := (wordAt w 3).toNat / 2 ^ (16 * k) % 65536
    (ev = .ifFire r n ∧ ty = 2) ∨ (ev = .whileFire r n ∧ ty = 3) ∨ (ev = .switchFire r n ∧ ty = 4) →
    m.request r = some x → x.ended = false → x.ending = none → m.node r n = some y → y.run ≠ .idle → x.after n y = false →
    nodeWords s.trust m x n = .ok w → nType w = ty → succsOk x w = true → (wordAt w 0).toNat / 4 % 2 ^ 46 = 0 →
    (wordAt w 0).getLsbD 0 = false → wordAt w 2 = 0 → a % size = 0 → m.retainedSlice a = none → m.globalPoison = [] →
    (m.commonAt false (rCtx x.words) a = true →
      exec ev s = .next (s.on (finishNode s.trust r n (if succ = 0xFFFF then [] else [succ]) (m.touchSlice a)))) ∧
    (m.commonAt false (rCtx x.words) a = false → exec ev s = .next (s.on (endRequest s.trust r 2 m)))) ∧
  (∀ (s : State) (r n : Nat) (x : Request) (y : NodeSt) (w : List Word) (p : Placement) (num : Nat),
    let m := s.mach
    let a := wordAt w 0
    let b := wordAt w 1
    let c := wordAt w 2
    let die := b.toNat / 2 ^ 16 % 16
    let core := b.toNat / 2 ^ 20 % 64
    let attBase := p.die * 2 ^ 28 + p.col * 2 ^ 22 + c.toNat % 2 ^ 22
    let ffBase := die * 2 ^ 28 + core * 2 ^ 22 + c.toNat / 2 ^ 32 % 2 ^ 22
    let attP0 := a.toNat / 2 ^ 20 % 512
    let ffP0 := a.toNat / 2 ^ 29 % 512
    let att := relayDirOf (a.toNat / 16 % 16 + 1) (a.toNat / 256 % 16 + 9) attP0 attBase 0
    let ff := relayDirOf (a.toNat / 2 ^ 12 % 16 + 1) (a.toNat / 2 ^ 16 % 16 + 9) ffP0 ffBase 0
    let slot := a.toNat / 2 % 4
    m.request r = some x → x.ended = false → x.ending = none → m.node r n = some y → y.run ≠ .idle → x.after n y = false →
    nodeWords s.trust m x n = .ok w → nType w = 5 → nSuccs w = [] → a.toNat % 2 = 0 → a.toNat / 8 % 2 = 0 → a.toNat / 2 ^ 38 % 1024 = 0 →
    b.toNat < 2 ^ 26 → b.toNat / 2 ^ 10 % 64 = 0 → c.toNat / 2 ^ 22 % 1024 = 0 → c.toNat < 2 ^ 54 →
    x.chans = [none, none, none, none] → x.place = some p → isPDie die = true → s.trust.isLive die = true → core < s.trust.count die →
    relayDirOk (a.toNat / 16 % 16 + 1) (a.toNat / 256 % 16 + 9) attP0 (c.toNat % 2 ^ 22) p.die = true →
    relayDirOk (a.toNat / 2 ^ 12 % 16 + 1) (a.toNat / 2 ^ 16 % 16 + 9) ffP0 (c.toNat / 2 ^ 32 % 2 ^ 22) die = true →
    m.endsOn p.die < 128 → m.endsOn die < 128 → 1 ≤ m.rackFree p.die → 1 ≤ m.rackFree die →
    m.meetsRegion .glb (rCtx x.words) attBase (att.n * att.size) = false →
    m.meetsRegion .glb (rCtx x.words) ffBase (ff.n * ff.size) = false → m.freeChannel = some num →
    m.retainedSlice attBase = none → m.retainedSlice ffBase = none →
    ∃ (m' : Mach) (ch : Channel), exec (.relayFire r n) s = .next (s.on m') ∧ m'.channels = m.channels ++ [ch] ∧ ch.num = num ∧ ch.broken = false ∧
      ch.closed = false ∧ ch.attEnd = ⟨none, (s.trust.coreKey p.die p.col).getD 0, rCtx x.words⟩ ∧
      ch.ffEnd = ⟨none, (s.trust.coreKey die core).getD 0, rCtx x.words⟩ ∧ ch.att.base = attBase ∧ ch.ff.base = ffBase ∧
      ch.att.gnt = BitVec.ofNat 32 attP0 ∧ ch.ff.gnt = BitVec.ofNat 32 ffP0 ∧
      (m'.request r).map Request.chans = some ([none, none, none, none].set slot (some num))) ∧
  (∀ (s : State) (r n : Nat) (x : Request) (y : NodeSt) (w : List Word) (g : Region),
    let m := s.mach
    let sp : Space := if (wordAt w 0).toNat % 4 = 0 then .glb else if (wordAt w 0).toNat % 4 = 1 then .dev else .blk
    m.request r = some x → x.ended = false → x.ending = none → m.node r n = some y → y.run ≠ .idle → x.after n y = false →
    nodeWords s.trust m x n = .ok w → nType w = 7 → succsOk x w = true → (wordAt w 0).toNat % 4 ≠ 3 →
    (wordAt w 0).toNat / 32 % 2 ^ 43 = 0 → wordAt w 2 = 0 → m.regionAt sp (rCtx x.words) (wordAt w 1).toNat = some g →
    g.ctx = rCtx x.words →
    (g.key.state = .lost ∨ g.key.state.code = (wordAt w 0).toNat / 4 % 8 →
      exec (.waitFire r n) s = .next (s.on (finishNode s.trust r n (nSuccs w) m))) ∧
    (g.key.state ≠ .lost → g.key.state.code ≠ (wordAt w 0).toNat / 4 % 8 →
      exec (.waitFire r n) s = .next (s.on (m.onNode r n fun y => { y with run := .running })))) ∧
  (∀ (s : State) (r n : Nat) (x : Request) (y : NodeSt) (w : List Word),
    let m := s.mach
    m.request r = some x → x.ended = false → x.ending = none → m.node r n = some y → y.run ≠ .idle → x.after n y = false →
    nodeWords s.trust m x n = .ok w → nType w = 8 → succsOk x w = true → nA w = 0 → wordAt w 1 = 0 → wordAt w 2 = 0 →
    exec (.doneFire r n) s = .next (s.on (endRequest s.trust r 0 m))) ∧
  (∀ (t : Trust) (m : Mach) (r status : Nat) (x : Request),
    m.request r = some x → x.ended = false → x.ending = none → x.chans = [none, none, none, none] → wordAt x.words 6 ≠ 0 →
    (endRequest t r status m).host = m.host.write (m.hostAt (rCtx x.words) (wordAt x.words 6).toNat)
      (leBytes 64 (rTag x.words * 2 ^ 48 + (rCtx x.words).toNat * 2 ^ 42 + status))) ∧
  (∀ (s : State) (r n p : Nat) (x : Request) (y : NodeSt) (w : List Word),
    let m := s.mach
    m.request r = some x → x.ended = false → x.ending = none → m.node r n = some y → y.run ≠ .idle → x.after n y = false → x.handRun = none →
    x.hands = false → nodeWords s.trust m x n = .ok w → nType w = 6 → succsOk x w = true → (wordAt w 0).toNat / 2 ^ 36 % 4096 = 0 →
    chooseColumn s.trust m x.level s.trust.columns = .below p →
    ∃ m', exec (.handFire r n) s = .next (s.on m') ∧ (m'.request r).map Request.column = some (some p) ∧
      (m'.request r).map Request.handRun = some (some (n, .chosen p [] false)) ∧
      (m'.pool p).occupants = (m.pool p).occupants ++ [r]) ∧
  (∀ (t : Trust) (m : Mach) (level p : Nat) (cols : List Nat), chooseColumn t m level cols = .below p →
    p ∈ cols ∧ m.aboveThreshold t p = false ∧ ∀ q ∈ cols, m.aboveThreshold t q = false →
      m.occupancy p < m.occupancy q ∨ (m.occupancy p = m.occupancy q ∧ m.margin q ≤ m.margin p))

/-- GROUP_PLACEMENT, KERNEL_IMAGE_LOAD, DRAINING_END, PREEMPTION_REQUEST, PREEMPT_TIMEOUT_BOUNDARY, GROUP_SAVE and GROUP_RESTORE
(R349 to R351, R357, R359, R378 to R387). The broadcast of an image plane by plane is the model's reading (log 35), and which
differences are recorded is left free (log 134). -/
def Obligations.PlacementEvents : Prop :=
  (∀ (s : State) (c : Nat) (x : GroupSt) (g : Nat) (l : Launch) (r : Request) (k : Core),
    let m := s.mach
    (s.trust.mayPlace m c = false ∨ (s.cur = c ∧ s.phase ≠ .st) → exec (.groupPlacement c) s = .next s) ∧
    (m.dueGroup c = none → exec (.groupPlacement c) s = .next s) ∧
    (s.cur ≠ c ∨ s.phase = .st → s.trust.mayPlace m c = true → m.dueGroup c = some (l, g, x) → x = .due → (m.core c).withKernel l.hash = some k →
      m.issuedStreams l (dieOf c) = some [] → localData s.trust m l = .ok [] → m.request l.req = some r → r.words.length = 8 →
      (m.core c).local_.wf = true → m.dram.wf = true →
      ∃ m', exec (.groupPlacement c) s = .next (s.on m') ∧ (m'.core c).group = some (l.groupOf g) ∧
        (∀ q, (m'.core c).seq q = .reset) ∧ (m'.core c).objs = [] ∧ (m'.core c).ops = [] ∧ (m'.core c).vq = [] ∧
        (m'.core c).active = k.active ∧ (m'.core c).cycles = (m.core c).cycles ∧
        m'.launches = (m.setGroup ⟨l.num, g⟩ .placed).launches ∧
        ∀ b, b < 64 → Mem.get (m'.core c).local_ (0x7FFC0 + b) = (wordsBytes (launchBlock r l)).getD b 0)) ∧
  (∀ (s : State) (c : Nat) (x : Nat × GroupSt) (l : Launch) (hd : List Word) (imgs : List (List Byte)) (noise : List (Nat × Nat × Byte)),
    let m := s.mach
    let k := m.core c
    let crc (n : List (Nat × Nat × Byte)) (q : Nat) : Prop := crcOk n q (imgs.getD q []) ((wordAt hd (7 + q)).toNat / 2 ^ 32) = true
    m.dueGroup c = some (l, x) →
    (planesHold k.active l.hash = true ∨ planesHold k.shadow l.hash = true → exec (.kernelImageLoad c noise) s = .next s) ∧
    (planesHold k.active l.hash = false → planesHold k.shadow l.hash = false → agentWords s.trust m l.ctx l.desc 16 = .ok hd →
      l.lens.length = 4 → imgs.length = 4 →
      (l.lens.zip (imageStarts 128 l.lens)).mapM (fun x => agentRead s.trust m l.ctx (l.desc + x.2) x.1) = .ok imgs →
      ((∀ q, q < 4 → crc noise q) →
        ∃ m', exec (.kernelImageLoad c noise) s = .next (s.on m') ∧ (m'.core c).active = k.active ∧ m'.notices = m.notices ∧
          ∀ q, q < 4 → SMap.get? (m'.core c).shadow q = some (planeOf (imgs.getD q []) l.hash)) ∧
      ((∃ q, q < 4 ∧ ¬crc noise q) → k.shadowHash 0 = none → SMap.wf k.shadow = true →
        ∃ (m' : Mach) (n : Notice), exec (.kernelImageLoad c noise) s = .next (s.on m') ∧
          (∀ q, q < 4 → (crc noise q → SMap.get? (m'.core c).shadow q = some (planeOf (imgs.getD q []) l.hash)) ∧
            (¬crc noise q → SMap.get? (m'.core c).shadow q = none)) ∧
          m'.notices = m.notices ++ [n] ∧ n.ctx = l.ctx ∧ n.reason = 5) ∧
      (∀ b x, k.shadowHash 0 = some b → planesHold k.shadow b = true → Config.recorded b l.hash = true → SMap.wf m.cores = true →
        x ∈ m.cores.keys → x ≠ c → dieOf x = dieOf c → planesHold (m.core x).shadow b = true → (∀ q, q < 4 → crc [] q) →
        ∃ m', exec (.kernelImageLoad c noise) s = .next (s.on m') ∧ m'.notices = m.notices ∧
          ∀ q, q < 4 → SMap.get? (m'.core x).shadow q = some (planeOf (imgs.getD q []) l.hash)))) ∧
  (∀ (s : State) (c : Nat) (g : Group),
    let m := s.mach
    (m.core c).group = some g →
    (g.draining = false ∨ m.drainedGroup c g.gid = false → exec (.drainingEnd c) s = .next s) ∧
    (g.draining = true → m.drainedGroup c g.gid = true → SMap.wf m.cores = true →
      ∃ m', exec (.drainingEnd c) s = .next (s.on m') ∧ (m'.core c).group = none ∧ (m'.core c).objs = [] ∧ (m'.core c).view = [] ∧
        (m'.core c).local_ = (m.core c).local_ ∧
        (∀ n, (m'.core c).granule n = match (m.core c).granule n with
          | .group o x => if o = g.gid then .freed x else .group o x
          | o => o) ∧
        ((m.array (clusterOf c)).lease = .held c → (m'.array (clusterOf c)).lease = .free) ∧ (m'.core c).ended = true ∧
        (∀ slot a x, g.preempt = some (slot, a) → SMap.get? m.contexts g.ctx.toNat = some x → SMap.wf m.contexts = true →
          ∃ x', SMap.get? m'.contexts g.ctx.toNat = some x' ∧ slot ∉ x'.usedSlots) ∧
        m'.launches = (m.setGroup g.gid .ended).launches)) ∧
  (∀ (s : State) (c : Nat) (g : Group),
    let m := s.mach
    (m.core c).group = some g →
    (g.draining = true ∨ g.held = true ∨ g.preempt ≠ none ∨ m.preemptCase c g = false ∨ m.freeSlot g.ctx = none →
      exec (.preemptionRequest c) s = .next s) ∧
    (∀ n, g.draining = false → g.held = false → g.preempt = none → m.preemptCase c g = true → m.freeSlot g.ctx = some n →
      exec (.preemptionRequest c) s = .next (s.on ((m.onSlots g.ctx fun l => l ++ [n]).onCore c fun k =>
        { k with group := some { g with preempt := some (n, (m.core c).cycles.toNat) } })))) ∧
  (∀ (s : State) (c : Nat) (q : SeqId) (g : Group) (x : Nat × Nat),
    let k := s.mach.core c
    let taken := exec (.preemptTimeoutBoundary c q) s = .next (s.on (s.mach.setCore c (k.take q)))
    k.group = some g → g.preempt = some x →
    (k.alive q = false ∨ k.frozen q = true ∨ (k.seq q).blockedOn ≠ none ∨ (q = .cmp ∧ k.clause ≠ none) ∨ (k.seq q).waitsOut = true →
      exec (.preemptTimeoutBoundary c q) s = .next s) ∧
    (k.alive q = true → k.frozen q = false → (k.seq q).blockedOn = none → (q = .cmp → k.clause = none) →
      (k.seq q).waitsOut = false →
      ((k.seq q).pause = .run → k.cycles.toNat < x.2 + 1024 ∨ (k.seq q).clock < (k.seq q).readyAt →
        exec (.preemptTimeoutBoundary c q) s = .next s) ∧
      ((k.seq q).pause = .run → x.2 + 1024 ≤ k.cycles.toNat → (k.seq q).readyAt ≤ (k.seq q).clock → taken) ∧
      ((k.seq q).pause ≠ .run → taken))) ∧
  (∀ (k : Core) (q : SeqId),
    let y := k.seq q
    let y' := (k.take q).seq q
    y'.taken = true ∧ y'.pause = .run ∧ y'.pc = y.pc ∧
    ((y.pause = .run → y.readyAt ≤ y.clock) → y'.stopClock = y.clock) ∧
    (y.undo = [] → k.take q = k.onSeq q Seq.take)) ∧
  (∀ (s : State) (c slot asked : Nat) (g : Group),
    let m := s.mach
    (m.core c).group = some g → g.preempt = some (slot, asked) →
    ((m.core c).saveReady = false → exec (.groupSave c) s = .next s) ∧
    ((m.core c).saveReady = true → (m.core c).poisonedSlot = none → m.dram.wf = true →
      ∃ (m' : Mach) (x : Saved), exec (.groupSave c) s = .next (s.on m') ∧ (m'.core c).group = none ∧ (m'.core c).view = [] ∧
        m'.saved = m.saved ++ [x] ∧ x.slot = slot ∧ x.core = c ∧ x.ctx = g.ctx ∧ x.group.gid = g.gid ∧ x.evicted = g.evicted ∧
        m'.launches = (m.setGroup g.gid (.saved slot)).launches ∧
        ∀ i, i < 10 → m'.dram.word (m.slotPa g.ctx slot + 8 * i) = wordAt (saveHeader s.trust m c g) i)) ∧
  (∀ (s : State) (c g slot : Nat) (l : Launch) (x : Saved) (k : Core),
    let m := s.mach
    s.cur ≠ c ∨ s.phase = .st → s.trust.mayPlace m c = true → m.dueGroup c = some (l, g, .saved slot) →
    m.saved.find? (fun y => decide (y.core = c ∧ y.group.gid = ⟨l.num, g⟩)) = some x → (m.core c).withKernel l.hash = some k →
    m.dramPoison = [] →
    ∃ m', exec (.groupRestore c) s = .next (s.on m') ∧ (m'.core c).group.map Group.gid = some x.group.gid ∧
      (m'.core c).active = k.active ∧ (m'.core c).clause = x.image.clause ∧
      m'.saved = m.saved.filter (fun y => decide (y.group.gid ≠ x.group.gid)) ∧
      ∀ q, (x.image.seq q).exited = false → ((m'.core c).seq q).taken = false ∧ ((m'.core c).seq q).pc = (x.image.seq q).pc ∧
        ((m'.core c).seq q).readyAt = (x.image.seq q).stopClock ∧ ((m'.core c).seq q).clock = (x.image.seq q).stopClock)

/-- CORRECTED_ERROR, UNCORRECTABLE_ERROR, COREFAIL, CONTEXT_LOSS, SNAGGING_AUDIT, HOST_READ_ABORT, RETENTION_ENTRY, RETENTION_EXIT,
UNREACHABLE_VERDICT, PEER_CONTEXT_ACCESS and PEER_CONTEXT_LOST (R138, R389 to R401, R405 to R412, R423). The model's choices: the
numbers of rack entries (log 86), bank 7 of die 0 for a host read that is aborted (log 113), the audit's resets (log 114), which
errors count as those of one cycle (log 116), the forms of word 1 that R390 does not give (log 139) and the numbers of links
(log 143). -/
def Obligations.ErrorAndPeerEvents : Prop :=
  (∀ (s : State) (die b : Nat) (i : ErrInfo),
    let m := s.mach
    let k := m.bank die b
    let up : BitVec 32 := if k.ccount = BitVec.allOnes 32 then k.ccount else k.ccount + 1
    let first : Bank := { k with valid := true, uc := false, ovr := false, cons := false, seq := k.seq + 1, info := i, ccount := up }
    let after (x : Bank) : Mach := { m with
      banks := SMap.set m.banks (8 * die + b) x, cycleErrs := SMap.set m.cycleErrs (8 * die + b) (k, [⟨false, false, i⟩]) }
    (s.trust.isLive die = true → b < 8 → SMap.get? m.cycleErrs (8 * die + b) = none →
      (k.valid = true → exec (.correctedError die b i) s = .next (s.on (after { k with ccount := up }))) ∧
      (k.valid = false → exec (.correctedError die b i) s = .next (s.on (after first)))) ∧
    (s.trust.isLive die = true → b < 8 → ∀ k0 l, SMap.get? m.cycleErrs (8 * die + b) = some (k0, l) →
      ∃ m', exec (.correctedError die b i) s = .next (s.on m') ∧ m'.bank die b = k0.errors (BankErr.insert ⟨false, false, i⟩ l)) ∧
    (s.trust.isLive die = false ∨ 8 ≤ b → exec (.correctedError die b i) s = .next s)) ∧
  (∀ (k : Bank) (x y : BankErr),
    (x.uc = true → y.uc = true → x.info.tile.toNat < y.info.tile.toNat → k.valid = false ∨ k.uc = false →
      ∀ l ∈ [x.insert [y], y.insert [x]], (k.errors l).info = { x.info with bits := 0 } ∧ (k.errors l).ovr = true ∧
        (k.errors l).seq = k.seq + 1) ∧
    (x.uc = true → y.uc = false → x.insert [y] = [x, y] ∧ y.insert [x] = [x, y])) ∧
  (∀ (s : State) (die b : Nat) (i : ErrInfo),
    let m := s.mach
    let k := m.bank die b
    let hit := m.rackHit die b i
    let own : Option (BitVec 6) := (hit.map Region.ctx).or (if b = 3 ∨ b = 6 then i.ctx else none)
    ∀ byRead : Bool, (byRead = true → b = 3 ∨ 5 ≤ b) →
    s.trust.isLive die = true → b < 8 → SMap.get? m.cycleErrs (8 * die + b) = none →
    ∃ m', exec (.uncorrectableError die b ⟨i, byRead⟩) s = .next (s.on m') ∧
      (k.valid = true → k.uc = true → (m'.bank die b).info = k.info ∧ (m'.bank die b).ovr = true ∧ (m'.bank die b).seq = k.seq ∧
        (m'.bank die b).cons = k.cons) ∧
      (k.valid = false ∨ k.uc = false → (m'.bank die b).valid = true ∧ (m'.bank die b).uc = true ∧ (m'.bank die b).ovr = false ∧
        (m'.bank die b).seq = k.seq + 1 ∧ (m'.bank die b).info = { i with bits := 0, ctx := own.or i.ctx } ∧
        (m'.bank die b).ccount = k.ccount ∧ ((m'.bank die b).cons = true ↔ own ≠ none)) ∧
      (b = 0 → i.addr.toNat / 8 ∈ m'.globalPoison) ∧ (b = 2 → i.addr.toNat / 8 ∈ m'.dramPoison) ∧
      (own = none → m'.notices = m.notices) ∧
      (∀ x, own = some x → ∃ n, m'.notices = m.notices ++ [n] ∧ n.ctx = x ∧ n.reason = 1 ∧ n.addr = i.addr) ∧
      (∀ r, hit = some r → ∀ r' ∈ m'.regions, r'.rid = r.rid → r'.key.state = .lost)) ∧
  (∀ (s : State) (die b : Nat) (i : ErrInfo), s.trust.isLive die = true → b ∈ [0, 1, 2, 4] →
    ∃ m', exec (.uncorrectableError die b ⟨i, true⟩) s = .next (s.on m') ∧ m'.banks = s.mach.banks ∧ m'.notices = s.mach.notices ∧
      (b = 0 → i.addr.toNat / 8 ∈ m'.globalPoison) ∧ (b = 2 → i.addr.toNat / 8 ∈ m'.dramPoison)) ∧
  (∀ (m : Mach) (die b : Nat) (i : ErrInfo),
    m.rackHit die b i = if b = 3 ∧ i.seq = 0 then rackEntry die m.regions i.addr.toNat else none) ∧
  (∀ (s : State) (c : Nat),
    let m := s.mach
    s.trust.isLive (dieOf c) = true → (s.trust.mask (dieOf c)).getLsbD (physOf c) = true →
    ((m.core c).group = none → exec (.corefail c) s = .next (s.on (m.setCore c .reset))) ∧
    (∀ g, (m.core c).group = some g →
      ∃ (m' : Mach) (ns : List Notice), exec (.corefail c) s = .next (s.on m') ∧ (m'.core c).failed = true ∧
        (∀ q, ((m'.core c).seq q).stopped = true) ∧
        (∀ r ∈ m.regions, keyFails (m.core c) g.gid r = true → ∀ r' ∈ m'.regions, r'.rid = r.rid → r'.key.state = .lost) ∧
        m'.notices = m.notices ++ ns ∧ (∃ n ∈ ns, n.ctx = g.ctx) ∧ ∀ n ∈ ns, n.reason = 3 ∧ n.die = dieOf c)) ∧
  (∀ (s : State) (n : Notice) (rest : List Notice),
    let m := s.mach
    (m.notices = [] → exec .contextLoss s = .next s) ∧
    (m.notices = n :: rest → SMap.get? m.contexts n.ctx.toNat = none →
      exec .contextLoss s = .next (s.on { m with notices := rest })) ∧
    (∀ x, m.notices = n :: rest → SMap.get? m.contexts n.ctx.toNat = some x → SMap.wf m.contexts = true → SMap.wf s.trust.xtsKeys = true →
      ∃ (s' : State) (w : List Word), exec .contextLoss s = .next s' ∧ SMap.get? s'.mach.contexts n.ctx.toNat = none ∧
        SMap.get? s'.trust.xtsKeys n.ctx.toNat = none ∧ (∀ r ∈ s'.mach.regions, r.ctx ≠ n.ctx) ∧ (∀ q ∈ s'.mach.seqs, q.ctx ≠ n.ctx) ∧
        (∀ l ∈ s'.mach.launches, l.ctx ≠ n.ctx) ∧ (∀ r ∈ s'.mach.requests, rCtx r.words ≠ n.ctx) ∧
        (∀ y ∈ s'.mach.notices, y.ctx ≠ n.ctx) ∧ w.length = 8 ∧
        (∃ h, s'.mach.host = h.hostWrite (x.func.toNat * 2 ^ 64) x.lossAddr.toNat (wordsBytes w) ∧
          ((∀ p ∈ m.cores, ∀ o ∈ p.2.ops, ∀ y, o.kind = .cpy y → y.dsp ≠ 4) → h = m.host)) ∧
        wordAt w 0 = BitVec.ofNat 64 (n.ctx.toNat * 2 ^ 42 + n.die % 16 * 2 ^ 38 + n.core % 64 * 2 ^ 32 + n.seq % 4 * 2 ^ 30 +
          n.trap % 256 * 2 ^ 8 + n.reason % 256) ∧
        wordAt w 1 = n.addr ∧ wordAt w 2 = n.event ∧ wordAt w 5 = 0 ∧ wordAt w 6 = 0 ∧ wordAt w 7 = 0)) ∧
  (∀ (s : State) (die kind link : Nat) (diff : Int),
    let m := s.mach
    let key := die * 2 ^ 16 + kind * 2 ^ 8 + link
    let l := SMap.getD m.links key ⟨0, 0, 0⟩
    (m.clockOf die < l.since + 160000000 ∨ auditedLink die kind link = false →
      exec (.snaggingAudit die kind link diff) s = .next s) ∧
    (s.trust.isLive die = true → kind ≤ 1 → auditedLink die kind link = true → l.since + 160000000 ≤ m.clockOf die →
      (l.diff ≠ 0 → exec (.snaggingAudit die kind link diff) s =
        .next (s.on { m with links := SMap.set m.links key ⟨0, l.resets + 1, m.clockOf die⟩ })) ∧
      (l.diff = 0 → ∃ m', exec (.snaggingAudit die kind link diff) s = .next (s.on m') ∧
        m'.links = SMap.set m.links key ⟨diff, l.resets, m.clockOf die⟩ ∧ (diff = 0 → m'.banks = m.banks) ∧
        (diff ≠ 0 → (m.bank die 5).valid = false → SMap.get? m.cycleErrs (8 * die + 5) = none → (m'.bank die 5).valid = true ∧ (m'.bank die 5).uc = false ∧
          (m'.bank die 5).info.addr = BitVec.ofNat 64 (kind * 2 ^ 8 + link) ∧
          (m'.bank die 5).info.syndrome = BitVec.ofInt 32 diff)))) ∧
  (∀ die link, auditedLink die 1 link = true ↔ (die, link) ∈ [(0, 1), (0, 2), (0, 3), (0, 4), (0, 5), (1, 2), (1, 3), (1, 4), (1, 5)]) ∧
  (∀ (s : State) (c o : Nat) (op : Op) (g : Option Gid) (x : CopyOp),
    let m := s.mach
    (m.engineOp c o = none → exec (.hostReadAbort c o) s = .next s) ∧
    (m.engineOp c o = some (op, g) → op.kind = .cpy x →
      (x.ssp ≠ 4 ∨ x.begun = false ∨ x.buf ≠ none → exec (.hostReadAbort c o) s = .next s) ∧
      (x.ssp = 4 → x.begun = true → x.buf = none →
        ∃ (m' : Mach) (n : Notice), exec (.hostReadAbort c o) s = .next (s.on m') ∧ m'.notices = m.notices ++ [n] ∧ n.reason = 1 ∧
          n.ctx = m.engineCtx c g ∧ ((m.bank 0 7).valid = false → SMap.get? m.cycleErrs 7 = none → (m'.bank 0 7).uc = true ∧ (m'.bank 0 7).cons = true)))) ∧
  (∀ (s : State) (die tile : Nat),
    let m := s.mach
    let key := die * 36 + tile
    let x := SMap.getD m.slices key .new
    let entry := if die < 2 then 2560 else 1280
    let exit := if die < 2 then 1440 else 720
    s.trust.isLive die = true → die < 6 → tile < s.trust.count die →
    (x.retained = false → x.last + 131072 ≤ m.clockOf die → exec (.retentionEntry die tile []) s =
      .next (s.on { m with slices := SMap.set m.slices key ⟨true, x.last, false, x.exits, m.clockOf die + entry, x.asked⟩ })) ∧
    (x.retained = true ∨ m.clockOf die < x.last + 131072 → exec (.retentionEntry die tile []) s = .next s) ∧
    (x.retained = true → x.wanted = true → max x.ready x.asked + exit ≤ m.clockOf die → exec (.retentionExit die tile []) s =
      .next (s.on { m with slices := SMap.set m.slices key ⟨false, m.clockOf die, false, x.exits + 1, 0, 0⟩ })) ∧
    (x.retained = false ∨ x.wanted = false ∨ m.clockOf die < max x.ready x.asked + exit → exec (.retentionExit die tile []) s = .next s)) ∧
  (∀ (s : State) (p : BitVec 10),
    let m := s.mach
    (p = s.trust.package ∨ p ∈ m.unreachable → exec (.unreachableVerdict p) s = .next s) ∧
    (p ≠ s.trust.package → p ∉ m.unreachable →
      ∃ m', exec (.unreachableVerdict p) s = .next (s.on m') ∧ m'.unreachable = m.unreachable ++ [p] ∧
        ∀ n ch, m.channel n = some ch → ch.attEnd.pkg.or ch.ffEnd.pkg = some p →
          ∃ ch', m'.channel n = some ch' ∧ ch'.broken = true)) ∧
  (∀ (s : State) (p : BitVec 10) (who : Asker) (a n : Nat),
    let m := s.mach
    let found := peerCheck s.trust m p who [⟨false, false, a, n, 1, 1, 0, 0⟩]
    let ev : Instr := .peerContextAccess p (.read who false a n)
    let answer (r : Reply) (m : Mach) : Mach := { m with outbox := m.outbox ++ [.answer p r] }
    (p ∈ m.unreachable → exec ev s = .next s) ∧
    (∀ code x, p ∉ m.unreachable → found = some (.trap code x) →
      exec ev s = .next (s.on (answer (.trap code (BitVec.ofNat 64 x)) m))) ∧
    (p ∉ m.unreachable → found = none → m.asleep a n ≠ none → exec ev s = .next (s.on (m.touchSlice a))) ∧
    (p ∉ m.unreachable → found = none → m.asleep a n = none → m.globalPoison = [] →
      exec ev s = .next (s.on (answer (.data (Mem.toBytes (m.piecesImage false [(0, a, n)]) 0 n)) (m.touchSlice a))))) ∧
  (∀ (s : State) (p : BitVec 10) (who : Asker) (f : AccOp) (w32 : Bool) (a : Nat) (v cmp : Word) (sc : Scope) (od : Order),
    let m := s.mach
    let x : AccOpRec := ⟨f, w32, false, a, a, none, v, cmp, sc, od, false⟩
    let k := SMap.get? m.relMarks (markKey false a)
    let seat : Admitted := ⟨p, who, w32, false, a, a⟩
    let own := m.admitted.find? fun y => decide (y.pkg = p ∧ y.who = who ∧ y.w32 = w32 ∧ y.dev = false ∧ y.addr = a)
    let r := ({ m with admitted := m.admitted.erase seat } : Mach).accumulate x who.core p
    let answer (r : Reply) (m : Mach) : Mach := { m with outbox := m.outbox ++ [.answer p r] }
    let asks : Instr := .peerContextAccess p (.admission who f w32 false a)
    let acts : Instr := .peerContextAccess p (.acc who f w32 false a v cmp sc od)
    p ∉ m.unreachable →
    (runInSpace s.trust x.bytes (1, a, true) = false → exec asks s = .next (s.on (answer (.trap tSpace (BitVec.ofNat 64 a)) m))) ∧
    (runInSpace s.trust x.bytes (1, a, true) = true → m.peerOk who.ctx = false ∨ m.commonAt false who.ctx a = false →
      exec asks s = .next (s.on (answer (.trap tNokey (BitVec.ofNat 64 a)) m))) ∧
    (runInSpace s.trust x.bytes (1, a, true) = true → m.peerOk who.ctx = true → m.commonAt false who.ctx a = true →
      exec asks s = .next (s.on { answer .admitted m with admitted := m.admitted ++ [seat] })) ∧
    (own = none → exec acts s = .next (s.on (answer .noKey m))) ∧
    (own = some seat → m.retainedSlice a ≠ none → exec acts s = .next (s.on (m.touchSlice a))) ∧
    (own = some seat → m.retainedSlice a = none → m.globalPoison = [] → exec acts s = .next (s.on (answer
      (.old r.1 (k.map RelMark.scope) ((k.map RelMark.core).getD 0) ((k.map fun k => k.pkg.toNat).getD 0)) r.2.2)))) ∧
  (∀ (s : State) (p : BitVec 10) (ctx : BitVec 6),
    let m := s.mach
    ∃ m', exec (.peerContextLost p ctx) s = .next (s.on m') ∧
      ∀ n ch, m.channel n = some ch →
        (ch.attEnd.pkg = some p ∧ ch.attEnd.ctx = ctx) ∨ (ch.ffEnd.pkg = some p ∧ ch.ffEnd.ctx = ctx) →
        ∃ ch', m'.channel n = some ch' ∧ ch'.broken = true)

/-- PACKAGE_RESET, TOPOLOGY_COMPUTE, the SPDM requests, the mailbox commands, POWER_MONITOR, FREEZE_N, SCAN_SHIFT and MODULE_CONTROLLER
(R11, R400, R419 to R432). The model's choices: the codes of SPDM and the order of a session (log 39), what CREATE and the other
commands refuse (log 123), that POWER_MONITOR never raises a clock (log 124), bring-up in two events (log 126), the coding of
commands and responses (log 142), and that no route leads over a die without a live core (log 144). -/
def Obligations.TrustEvents : Prop :=
  (∀ (s : State) (b : BootInput),
    ∃ s', exec (.packageReset b) s = .next s' ∧ s'.trust.released = false ∧ s'.trust.frozen = false ∧
      (∀ d, d < 6 → s'.trust.isLive d = false) ∧ s'.trust.package = b.package ∧
      SMap.get? s'.trust.measurements 1 = some b.trustDigest ∧
      (b.trustVerified = true → ∀ d, d < 6 → SMap.get? s'.trust.measurements (2 + d) = some (BootInput.die b d).digest) ∧
      s'.mach.cores = [] ∧ s'.mach.contexts = [] ∧ s'.mach.regions = [] ∧ s'.mach.retiredPages = [] ∧ s'.mach.dram = [] ∧ s'.mach.host = s.mach.host ∧
      s'.trust.routes = [] ∧ s'.trust.xtsKeys = [] ∧ s'.trust.packageDraw = some s.mach.free) ∧
  (∀ (s : State) (links : List (Nat × Nat)),
    let t := s.trust
    let pass (d : Nat) : Bool := t.passed.getD d false
    let base (d : Nat) : Bool := pass d && (decide (d = 0) || decide (t.mask d ≠ 0))
    let near := reached { t with up := t.among base links }
    let live (d : Nat) : Prop := base d = true ∧ d ∈ near
    (t.released = true → exec (.topologyCompute links) s = .next s) ∧
    (t.released = false →
      (live 0 → live 2 ∨ live 3 ∨ live 4 ∨ live 5 →
        ∃ s', exec (.topologyCompute links) s = .next s' ∧ s'.trust.released = true ∧
          (∀ d, d < 6 → (s'.trust.isLive d = true ↔ live d) ∧ (live d → s'.trust.mask d = t.mask d)) ∧
          (∀ x, x ∈ s'.trust.up ↔ x ∈ t.trained ∧ x ∈ links ∧ (live x.1 ∧ x.1 < 6) ∧ live x.2 ∧ x.2 < 6) ∧
          ∀ a b, a < 6 → b < 6 → a ≠ b → SMap.get? s'.trust.routes (6 * a + b) = s'.trust.findRoute a b) ∧
      (¬live 0 ∨ ¬(live 2 ∨ live 3 ∨ live 4 ∨ live 5) →
        ∃ s', exec (.topologyCompute links) s = .next s' ∧ s'.trust.released = false ∧ ∀ d, d < 6 → s'.trust.isLive d = false))) ∧
  (∀ (t : Trust) (a b : Nat), a < 6 → b < 6 → a ≠ b →
    let p := (a + b) % 2
    (2 ≤ a → 2 ≤ b → t.linked a p = true → t.linked p b = true → t.findRoute a b = some [p]) ∧
    (2 ≤ a → 2 ≤ b → t.linked a p = false ∨ t.linked p b = false → t.linked a (1 - p) = true → t.linked (1 - p) b = true →
      t.findRoute a b = some [1 - p]) ∧
    (a < 2 ∨ b < 2 → t.linked a b = true → t.findRoute a b = some []) ∧
    (a < 2 → 2 ≤ b → t.linked a b = false → t.linked a (1 - a) = true → t.linked (1 - a) b = true → t.findRoute a b = some [1 - a]) ∧
    ∀ r, t.findRoute a b = some r → t.open_ a b r = true) ∧
  (∀ (s : State) (data : List Byte) (ev : Instr) (ver code p1 : Byte) (next : Spdm),
    let x := s.trust.spdm
    (ev = .getVersion data ∧ ver = 0x10 ∧ code = 0x04 ∧ p1 = 0 ∧ next = .idle) ∨
    (ver = 0x13 ∧
      ((ev = .getCapabilities data ∧ x = .idle ∧ code = 0x61 ∧ p1 = 0 ∧ next = .idle) ∨
      (ev = .negotiateAlgorithms data ∧ x = .idle ∧ code = 0x63 ∧ p1 = 0 ∧ next = .negotiated) ∨
      (ev = .getDigests data ∧ x ≠ .idle ∧ code = 0x01 ∧ p1 = 0 ∧ next = x) ∨
      (ev = .getCertificate data ∧ x ≠ .idle ∧ code = 0x02 ∧ p1 = 0 ∧ next = x) ∨
      (ev = .challenge data ∧ x ≠ .idle ∧ code = 0x03 ∧ p1 = 0 ∧ next = x) ∨
      (ev = .getMeasurements data ∧ data.getD 3 0 = 0 ∧ x ≠ .idle ∧ code = 0x60 ∧ p1 = 9 ∧ next = x) ∨
      (ev = .keyExchange data ∧ x = .negotiated ∧ code = 0x64 ∧ p1 = 0 ∧ next = .handshake) ∨
      (ev = .finish data ∧ x = .handshake ∧ code = 0x65 ∧ p1 = 0 ∧ next = .session) ∨
      (ev = .heartbeat data ∧ x = .session ∧ code = 0x68 ∧ p1 = 0 ∧ next = .session) ∨
      (ev = .endSession data ∧ x = .session ∧ code = 0x6C ∧ p1 = 0 ∧ next = .negotiated))) →
    (s.trust.released = false → exec ev s = .next s) ∧
    (s.trust.released = true → ∃ payload, exec ev s = .next { s with
      trust := { s.trust with responses := s.trust.responses ++ [[ver, code, p1, 0] ++ payload], spdm := next }
      mach := { s.mach with free := s.mach.free + 1 } })) ∧
  (∀ (s : State) (data : List Byte),
    let what := (data.getD 3 0).toNat
    let answer (body : List Byte) (f : Nat) : State :=
      { s with trust := { s.trust with responses := s.trust.responses ++ [body] }, mach := { s.mach with free := s.mach.free + f } }
    s.trust.released = true → s.trust.spdm ≠ .idle → what ≠ 0 →
    ((what = 255 ∨ ∃ x ∈ s.trust.measurements, x.1 = what) →
      ∃ rest, exec (.getMeasurements data) s =
        .next (answer ([0x13, 0x60, 0, 0] ++ measurementRecord s.trust.measurements what ++ rest) 1)) ∧
    (what ≠ 255 → (∀ x ∈ s.trust.measurements, x.1 ≠ what) →
      exec (.getMeasurements data) s = .next (answer [0x13, 0x7F, 0x01, 0] 0))) ∧
  (∀ (ms : SMap (BitVec 256)) (n : Nat) (d : BitVec 256), n < 8 → ms.filter (fun x => decide (n = x.1)) = [(n, d)] → n ≠ 0 →
    measurementRecord ms n = [1, 39, 0, 0, BitVec.ofNat 8 n, 1, 35, 0, 1, 32, 0] ++ digestBytes d) ∧
  (∀ (s : State) (data : List Byte) (ev : Instr) (code : Byte),
    let x := s.trust.spdm
    (ev = .spdmUnsupported data ∧ code = 0x07) ∨
    (code = 0x04 ∧
      ((ev = .getCapabilities data ∧ x ≠ .idle) ∨ (ev = .negotiateAlgorithms data ∧ x ≠ .idle) ∨ (ev = .getDigests data ∧ x = .idle) ∨
      (ev = .getCertificate data ∧ x = .idle) ∨ (ev = .challenge data ∧ x = .idle) ∨ (ev = .getMeasurements data ∧ x = .idle) ∨
      (ev = .keyExchange data ∧ x ≠ .negotiated) ∨ (ev = .finish data ∧ x ≠ .handshake) ∨ (ev = .heartbeat data ∧ x ≠ .session) ∨
      (ev = .endSession data ∧ x ≠ .session))) →
    (s.trust.released = false → exec ev s = .next s) ∧
    (s.trust.released = true →
      exec ev s = .next { s with trust := { s.trust with responses := s.trust.responses ++ [[0x13, 0x7F, code, 0]] } })) ∧
  (∀ (s : State) (i : Instr), s.trust.released = false →
    ((∃ a, i = .create a) ∨ (∃ c, i = .destroy c) ∨ (∃ x y z, i = .setcfg x y z) ∨ (∃ c h l x, i = .verify c h l x) ∨
      ∃ c x, i = .dropm c x) → exec i s = .next s) ∧
  (∀ (s : State) (a : CreateCmd),
    let m := s.mach
    s.trust.released = true →
    (SMap.get? m.contexts a.ctx.toNat ≠ none ∨ createOk s.trust m a = false →
      exec (.create a) s = .next { s with trust := { s.trust with mailbox := s.trust.mailbox ++ [(3, 0)] } }) ∧
    (SMap.get? m.contexts a.ctx.toNat = none → createOk s.trust m a = true →
      ∃ (s' : State) (x : Context), exec (.create a) s = .next s' ∧ s'.trust.mailbox = s.trust.mailbox ++ [(0, 0)] ∧
        SMap.get? s'.mach.contexts a.ctx.toNat = some x ∧ x.func = a.func ∧ x.root = a.root ∧ x.saveBase = a.saveBase ∧
        x.slots = a.slots ∧ x.usedSlots = [] ∧ x.lossAddr = a.lossAddr ∧ x.fabric = a.fabric ∧ x.tables = createTables a ∧
        (∃ k, SMap.get? s'.trust.xtsKeys a.ctx.toNat = some k) ∧
        (m.dram.wf = true → (∀ p ∈ a.pages, ∀ b, p.1 ≤ b → b < p.1 + p.2 → Mem.get s'.mach.dram b = 0) ∧
          ∀ q ∈ createTables a, ∀ b, q ≤ b → b < q + 65536 → Mem.get s'.mach.dram b = Mem.get (createImage a) b))) ∧
  (∀ (t : Trust) (m : Mach) (a : CreateCmd), createOk t m a = true →
    a.root % 65536 = 0 ∧ a.root ∈ createTables a ∧ 1 ≤ a.slots ∧ a.slots ≤ 4096 ∧
    (∀ p ∈ a.tables, ∃ q ∈ createTables a, q ≤ p.1 ∧ p.1 < q + 65536) ∧
    (∀ q ∈ createTables a, ∀ p ∈ a.pages, overlaps q 65536 p.1 p.2 = false) ∧
    ∀ x ∈ m.contexts, ∀ p ∈ x.2.ranges, (∀ y ∈ a.pages, overlaps y.1 y.2 p.1 p.2 = false) ∧
      ∀ q ∈ createTables a, overlaps q 65536 p.1 p.2 = false) ∧
  (∀ (s : State) (ctx : BitVec 6), s.trust.released = true →
    (SMap.get? s.mach.contexts ctx.toNat = none →
      exec (.destroy ctx) s = .next { s with trust := { s.trust with mailbox := s.trust.mailbox ++ [(2, 0)] } }) ∧
    (SMap.get? s.mach.contexts ctx.toNat ≠ none → SMap.wf s.mach.contexts = true → SMap.wf s.trust.xtsKeys = true →
      ∃ s', exec (.destroy ctx) s = .next s' ∧ s'.trust.mailbox = s.trust.mailbox ++ [(0, 0)] ∧
        SMap.get? s'.mach.contexts ctx.toNat = none ∧ SMap.get? s'.trust.xtsKeys ctx.toNat = none ∧
        (∀ r ∈ s'.mach.regions, r.ctx ≠ ctx) ∧ s'.mach.host = s.mach.host)) ∧
  (∀ (s : State) (smax fmin cap : Nat),
    let ok : Prop := 1 ≤ smax ∧ smax ≤ 4096 ∧ fmin ≤ 196608 ∧ 1200 ≤ cap ∧ cap ≤ 2400
    s.trust.released = true →
    (ok → exec (.setcfg smax fmin cap) s =
      .next { s with trust := { s.trust with smax := smax, fmin := fmin, cap := cap, mailbox := s.trust.mailbox ++ [(0, 0)] } }) ∧
    (¬ok → exec (.setcfg smax fmin cap) s = .next { s with trust := { s.trust with mailbox := s.trust.mailbox ++ [(2, 0)] } })) ∧
  (∀ (s : State) (ctx : BitVec 6) (header leaves sig : BitVec 64) (x : Context),
    let m := s.mach
    let read (a n : Nat) : List Byte := m.host.hostRead (m.hostBase ctx) a n
    let hb := read header.toNat 64
    let hd := wordsOf 8 hb
    let n := (wordAt hd 0).toNat % 2 ^ 32
    let last := (wordAt hd 0).toNat / 2 ^ 32
    let lb := read leaves.toNat (32 * n)
    let ls := (List.range n).map fun i => BitVec.ofNat 256 (leNat ((lb.drop (32 * i)).take 32))
    let reply (c : Nat) (v : Word) : List (Nat × Word) := s.trust.mailbox ++ [(c, v)]
    let refused := exec (.verify ctx header leaves sig) s = .next { s with trust := { s.trust with mailbox := reply 3 0 } }
    s.trust.released = true →
    (SMap.get? m.contexts ctx.toNat = none →
      exec (.verify ctx header leaves sig) s = .next { s with trust := { s.trust with mailbox := reply 2 0 } }) ∧
    (SMap.get? m.contexts ctx.toNat = some x →
      (wordAt hd 5 ≠ 0 ∨ wordAt hd 6 ≠ 0 ∨ wordAt hd 7 ≠ 0 → refused) ∧
      (treeRoot n ls ≠ digestOf ((hd.drop 1).take 4) → refused) ∧
      ((∀ key ∈ x.publishers, Config.signatureOk key hb (read sig.toNat 7856) = false) → refused) ∧
      ((∀ k, k < 64 → SMap.get? s.trust.manifests k ≠ none) → refused) ∧
      (∀ k, wordAt hd 5 = 0 → wordAt hd 6 = 0 → wordAt hd 7 = 0 → 0 < n → n ≤ 65536 → last % 64 = 0 → 0 < last → last ≤ 0x400000 →
        treeRoot n ls = digestOf ((hd.drop 1).take 4) →
        (∃ key ∈ x.publishers, Config.signatureOk key hb (read sig.toNat 7856) = true) →
        s.trust.leafCount + n ≤ 262144 → k < 64 → SMap.get? s.trust.manifests k = none →
        (∀ j, j < k → SMap.get? s.trust.manifests j ≠ none) →
        exec (.verify ctx header leaves sig) s = .next { s with trust := { s.trust with
          manifests := SMap.set s.trust.manifests k ⟨ctx, last, ls⟩, mailbox := reply 0 (BitVec.ofNat 64 k) } }))) ∧
  (∀ (s : State) (ctx : BitVec 6) (slot : Nat), s.trust.released = true →
    (∀ x, SMap.get? s.trust.manifests slot = some x → x.ctx = ctx →
      exec (.dropm ctx slot) s = .next { s with trust := { s.trust with
        manifests := SMap.erase s.trust.manifests slot, mailbox := s.trust.mailbox ++ [(0, 0)] } }) ∧
    ((∀ x, SMap.get? s.trust.manifests slot = some x → x.ctx ≠ ctx) →
      exec (.dropm ctx slot) s = .next { s with trust := { s.trust with mailbox := s.trust.mailbox ++ [(2, 0)] } })) ∧
  (∀ (s : State) (watts : Nat),
    (s.trust.cap < watts →
      exec (.powerMonitor watts) s = .next { s with trust := { s.trust with clockSteps := s.trust.clockSteps + 1 } }) ∧
    (watts ≤ s.trust.cap → exec (.powerMonitor watts) s = .next s)) ∧
  (∀ s : State, ∃ kept, let s' : State := { s with trust :=
      { s.trust with kept := kept, rootKey := false, xtsKeys := [], packageDraw := none, frozen := true } }
    exec .freezeN s = .next s' ∧ ∀ u, s'.stored u = s.stored u) ∧
  (∀ (s : State) (n : Nat),
    (s.trust.frozen = false → exec (.scanShift n) s = .next s) ∧
    (s.trust.frozen = true → s.trust.debug = false → exec (.scanShift n) s =
      .next { s with
        trust := { s.trust with scanned := s.trust.scanned ++ List.replicate n false }
        mach := { s.mach with free := s.mach.free + n } }) ∧
    (s.trust.frozen = true → ∃ s', exec (.scanShift n) s = .next s' ∧ s'.trust.scanned.length = s.trust.scanned.length + n)) ∧
  (∀ (s : State) (cap : Nat),
    (s.trust.module = true → 1200 ≤ cap → cap ≤ 2400 → cap < s.trust.cap →
      exec (.moduleController cap) s = .next { s with trust := { s.trust with cap := cap } }) ∧
    (s.trust.module = false ∨ s.trust.cap ≤ cap → exec (.moduleController cap) s = .next s))

/-- A package that has left bring-up has die 0 and a D-die live (R11), and a frozen part holds no key (R432): every step keeps it. -/
def Obligations.StepKeepsTrust : Prop := ∀ s s' : State, s.Ok → step s = .next s' → s'.Ok

/-- The memories keep rising addresses and no entry 0, whatever the machine does (log 6). -/
def Obligations.MemoriesStayCanonical : Prop :=
  ∀ s s' : State, s.mach.Canonical → step s = .next s' → s'.mach.Canonical

/-- The tables keep rising keys, and the numbers of requests and launches stay below the next one to be given out. -/
def Obligations.TablesStayOrdered : Prop := ∀ s s' : State, s.Tables → step s = .next s' → s'.Tables

/-- The state after reset; that every die and core is live and the package released is the model's choice (log 5). -/
def Obligations.ResetState : Prop :=
  State.reset.Ok ∧ State.reset.mach.Canonical ∧ State.reset.Tables ∧
  (∀ c, (State.reset.mach.core c).group = none) ∧ (∀ c q, (State.reset.mach.seq c q).wdLimit = 0x01000000) ∧
  (∀ c q, (State.reset.mach.seq c q).status = ⟨false, 0, 0⟩ ∧ (State.reset.mach.seq c q).xq = []) ∧
  (∀ ctx, SMap.get? State.reset.mach.contexts ctx = none) ∧ State.reset.mach.regions = [] ∧ State.reset.mach.seqs = [] ∧
  State.reset.mach.requests = [] ∧ State.reset.mach.launches = [] ∧ State.reset.mach.channels = [] ∧ State.reset.mach.waybills = [] ∧
  (∀ p, State.reset.mach.level p = []) ∧
  (∀ die b, (State.reset.mach.bank die b).word 0 = 0 ∧ (State.reset.mach.bank die b).word 3 = 0) ∧
  (∀ k, (State.reset.mach.array k).lease = .free) ∧
  State.reset.trust.smax = 256 ∧ State.reset.trust.fmin = 4096 ∧ State.reset.trust.cap = 2400 ∧ State.reset.trust.frozen = false

/-- Every well-formed instruction is encoded in as many words as it has, and decoded back from them, whatever follows (R35 to R49). -/
def Obligations.RoundTrip : Prop :=
  ∀ (i : Instr) (rest : List IWord), i.wf = true →
    (encode i).length = i.length ∧ decodeWords (encode i ++ rest) = .ok (i, rest)

/-- Words of the spec's examples decode to the instructions they stand for. -/
def Obligations.DecodeSamples : Prop :=
  decodeWords [0x3A010211] = .ok (.li .none (.queue 1) 0x211, []) ∧
  decodeWords [0x2002E3E0, 0x00010400] = .ok (.add .none (.queue 2) .wrap false .zero (.lit32 0x10400), []) ∧
  decodeWords [0x26054F81] = .ok (.div .none (.queue 5) .u false (.peek 3) .zero, []) ∧
  decodeWords [0xF801FA00, 0x00000300] = .ok (.errqRd .none (.queue 1) (.lit32 0x300) (.imm 0), []) ∧
  decodeWords [0xDE01F800, 0x00002000] = .ok (.cwld .none (.queue 1) (.lit32 0x2000), []) ∧
  decodeWords [0xC4028C00] = .ok (.cwt .none (.queue 2) (.imm 3), []) ∧
  decodeWords [0x94051B80] = .ok (.vred .none (.queue 5) .add (.pop 6) .zero, [])

/-- A step runs the instruction that its fetch decodes. The model's choices: the order of turns and of the parts of a cycle (log 2,
log 3), a waiting sequencer that a pending pre-emption takes before st acts (log 155), which turns act before the part is released
(log 126), and the fault of a part whose clocks have stopped (log 127). -/
def Obligations.StepRunsDecoded : Prop :=
  (∀ (s : State) (i : Instr) (ws : List IWord),
    let s1 := if s.phase = .st then s.takesFirst else s
    let q := s.phase.seq
    let k := s1.mach.core s.cur
    let y := k.seq q
    s.agenda = [] ∨ (s.phase ≠ .st ∧ ∃ x r, s.agenda = x :: r ∧ x ≠ .wait) → s.trust.frozen = false → s.trust.released = true → s.phase ≠ .tick → k.takeNow q = false → k.ready q = true →
    (q = .cmp → k.clause.bind Clause.back = none) → (k.plane q).poison = [] →
    (decodeWords ((k.plane q).wordsAt y.pc) = .ok (i, ws) →
      step s = thenPass (exec i s1) ∧ ∀ t, exec i s1 = .next t → step s = .next t.pass) ∧
    (∀ e, decodeWords ((k.plane q).wordsAt y.pc) = .error e → step s = thenPass (exec (.illop ((k.plane q).word y.pc)) s1))) ∧
  (∀ s : State,
    let s1 := if s.phase = .st then s.takesFirst else s
    let q := s.phase.seq
    let k := s1.mach.core s.cur
    s.agenda = [] ∨ (s.phase ≠ .st ∧ ∃ x r, s.agenda = x :: r ∧ x ≠ .wait) →
    s.trust.frozen = false → s.trust.released = true → s.phase ≠ .tick → k.takeNow q = false → k.ready q = false →
    (k.seq q).asleep = false → step s = .next s1.pass) ∧
  (∀ s : State, (s.mach.core s.cur).preempting = false → s.takesFirst = s) ∧
  (∀ (s : State) (r : List Turn),
    s.agenda = .wait :: r → s.trust.frozen = false → s.trust.released = true → step s = .next (waitPart { s with agenda := r })) ∧
  (∀ (s : State) (i : Instr) (r : List Turn),
    s.agenda = .event i :: r → s.trust.frozen = false → i.isEvent = true →
    (s.trust.released = true ∧ s.phase = .st) ∨ (s.trust.released = false ∧ (Turn.event i).inBringUp = true) →
    step s = exec i { s with agenda := r }) ∧
  (∀ (s : State) (x : Turn) (r : List Turn), s.trust.frozen = false → s.trust.released = false →
    (s.agenda = [] → step s = .next s) ∧
    (s.agenda = x :: r → x.inBringUp = false → step s = .next { s with agenda := r })) ∧
  (∀ s : State, s.trust.frozen = true → (∀ x r, s.agenda = x :: r → x.isReset = false) → step s = .fault .clocksStopped)

/-- The instructions that read or write local space as they start (R124). -/
def startsInLocal : Instr → Bool
  | .ldl .. | .stl .. | .mxa .. | .mxsq .. | .mxmd .. | .cpy .. | .hoff .. | .cwld .. | .lnchReq .. | .clgtSet .. => true
  | _ => false

/-- The instructions that may take a frame of a pool as they start (R290). -/
def mayTakeFrame : Instr → Bool
  | .stb .. | .cpy .. | .cwld .. => true
  | _ => false

/-- The control instructions (R77 to R93). -/
def isControl : Instr → Bool
  | .nop .. | .brcNz .. | .brcZ .. | .jmp .. | .call .. | .ret .. | .loop .. | .lbrk .. | .tkw .. | .tks .. | .qopCnt .. | .qopDrop ..
  | .qopClr .. | .qopTcnt .. | .lmov .. | .clh .. | .yield .. | .exit .. | .sleep .. => true
  | _ => false

/-- The vector and function instructions (R175, R191). -/
def isVector : Instr → Bool
  | .vadd .. | .vsub .. | .vmul .. | .vfma .. | .vmnx .. | .vcmp .. | .vsel .. | .vlog .. | .vshf .. | .vprm .. | .vred .. | .vwid ..
  | .vnar .. | .vbrd .. | .vmsk .. | .vscn .. | .cvt .. | .mxq .. | .mxx .. | .srsdSet .. | .srsdStep .. | .sfa .. | .sfb .. | .sfc ..
  | .smxs .. | .vlane .. | .vidx .. | .fcls .. | .fsc .. | .rndm .. | .vdot .. => true
  | _ => false

/-- The key instructions and the others that change the table of regions as they start. -/
def changesRegions : Instr → Bool
  | .bopn .. | .rini .. | .rwfl .. | .rclm .. | .lendGrp .. | .lendPark .. | .retn .. | .splitAddr .. | .splitRd .. | .splitWr ..
  | .joinAddr .. | .joinShr .. | .joinCmn .. | .joinRing .. | .keywTkt .. | .keywFree .. => true
  | _ => false

/-- The key, block, copy, ring, relay, hand-off, launch, collective and system instructions. -/
def isAgentForm : Instr → Bool
  | .bopn .. | .bshr .. | .bfre .. | .bfreClose .. | .binv .. | .bqry .. | .bgrw .. | .bgrwRel .. | .cpy .. | .cacc .. | .cwt ..
  | .cwtTest .. | .cbnd .. | .cbndOff .. | .rini .. | .rqry .. | .rwfl .. | .rwfr .. | .rclm .. | .rpub .. | .rrel .. | .rlys ..
  | .rlyg .. | .rlygAdd .. | .rlygRet .. | .rlyw .. | .hoff .. | .hctlSeal .. | .hctlCommit .. | .hctlCancel .. | .hctlQry ..
  | .hctlDrop .. | .cwld .. | .lendGrp .. | .lendPark .. | .retn .. | .splitAddr .. | .splitRd .. | .splitWr .. | .splitCmn ..
  | .joinAddr .. | .joinShr .. | .joinCmn .. | .joinRing .. | .keywArr .. | .keywTkt .. | .keywFree .. | .keyq .. | .fence .. | .trap ..
  | .tret .. | .srr .. | .srw .. | .lnchNode .. | .lnchReq .. | .errqRd .. | .errqClr .. | .errqSum .. | .clrd .. | .clgtSet ..
  | .clgtClr .. | .clgtQry .. => true
  | _ => false

/-- What instructions leave unchanged: of everything (R73), by the integer class (R102), by the accesses that start here and
are performed later (R128, R131), by every encoded instruction as it starts or stops, and by the control, vector, function, key,
copy, ring, relay and system instructions. -/
def Obligations.Frames : Prop :=
  (∀ (s t : State) (i : Instr), i.isEvent = false → exec i s = .next t →
    t.agenda = s.agenda ∧ t.cur = s.cur ∧ t.phase = s.phase ∧ t.trust = s.trust) ∧
  (∀ (s t : State) (i : Instr) (d : Dst) (srcs : List Src),
    let q := s.phase.seq
    let k := s.mach.core s.cur
    let k' := t.mach.core s.cur
    let y := k.seq q
    let y' := k'.seq q
    intForm i = some (d, srcs) → k.clause = none → k.preempting = false ∨ y.undo = [] → exec i s = .next t →
    t.mach = { s.mach with
      cores := t.mach.cores, notices := t.mach.notices, ids := t.mach.ids, banks := t.mach.banks, cycleErrs := t.mach.cycleErrs } ∧
    (∀ c, c ≠ s.cur → t.mach.core c = s.mach.core c) ∧
    k' = { k with ctl := k'.ctl, ld := k'.ld, cmp := k'.cmp, st := k'.st } ∧
    (∀ r, r ≠ q → k'.seq r = { k.seq r with inUp := (k'.seq r).inUp, inDown := (k'.seq r).inDown }) ∧
    (SMap.wf y.xq = true → ∀ n, d ≠ .queue n → Src.pop n ∉ srcs → y'.xslots n = y.xslots n) ∧
    y'.status.flags = y.status.flags ∧ y'.wdLimit = y.wdLimit ∧ y'.clock = y.clock ∧ y'.exited = y.exited ∧
    (y.stack = [] → y'.stack = [] ∧ y'.loops = y.loops) ∧
    ((y'.trapCause = y.trapCause ∧ y'.trapPc = y.trapPc ∧ y'.trapInfo = y.trapInfo ∧ y'.status = y.status) ∨
      (y'.status.super = true ∧ (y'.pc = 0x7C00 ∨ y'.stopped = true)))) ∧
  (∀ (s t : State) (i : Instr),
    (∃ k q a m z, i = .ldg k q a m z) ∨ (∃ k q a m z, i = .ldd k q a m z) ∨ (∃ k q a m z, i = .ldb k q a m z) ∨
    (∃ k a m, i = .pfd k a m) ∨ (∃ k d f a, i = .loc k d f a) ∨ (∃ k p q a m z, i = .stg k p q a m z) ∨
    (∃ k p q a m z, i = .std k p q a m z) →
    exec i s = .next t →
    (∀ a, Mem.get t.mach.global a = Mem.get s.mach.global a) ∧ (∀ a, Mem.get t.mach.dram a = Mem.get s.mach.dram a) ∧
    (∀ a, Mem.get t.mach.host a = Mem.get s.mach.host a) ∧
    ∀ c a, Mem.get (t.mach.core c).local_ a = Mem.get (s.mach.core c).local_ a) ∧
  (∀ (s t : State) (i : Instr), i.isEvent = false → exec i s = .next t →
    let k := s.mach.core s.cur
    let k' := t.mach.core s.cur
    t.mach = { s.mach with
      cores := t.mach.cores, arrays := t.mach.arrays, dram := t.mach.dram, written := t.mach.written, dramPoison := t.mach.dramPoison
      slices := t.mach.slices, regions := t.mach.regions, relMarks := t.mach.relMarks, seqs := t.mach.seqs, pools := t.mach.pools
      channels := t.mach.channels, requests := t.mach.requests, saved := t.mach.saved, banks := t.mach.banks
      cycleErrs := t.mach.cycleErrs, notices := t.mach.notices, collectives := t.mach.collectives
      remoteShares := t.mach.remoteShares, inbox := t.mach.inbox, outbox := t.mach.outbox, free := t.mach.free, ids := t.mach.ids } ∧
    (∀ c, c ≠ s.cur → t.mach.core c = s.mach.core c) ∧
    k'.column = k.column ∧ k'.cycles = k.cycles ∧ k'.active = k.active ∧ k'.shadow = k.shadow ∧ k'.failed = k.failed ∧
    k'.ended = k.ended ∧
    ((∀ x, i ≠ .leaseRel x) → (∀ x ks w dev a, i ≠ .wld x ks w dev a) → t.mach.arrays = s.mach.arrays) ∧
    (changesRegions i = false → t.mach.regions = s.mach.regions) ∧
    ((∀ x d f a b, i ≠ .rlys x d f a b) → (∀ x d a b, i ≠ .rlyw x d a b) → t.mach.channels = s.mach.channels) ∧
    (startsInLocal i = false → ∀ a, Mem.get k'.local_ a = Mem.get k.local_ a) ∧
    (startsInLocal i = false → mayTakeFrame i = false → ∀ a, Mem.get t.mach.dram a = Mem.get s.mach.dram a) ∧
    ((∀ g, k.group = some g → g.evicted = [] ∧ ∀ n < 128, k.granule n = .group g.gid g.ctx) →
      (∀ a, Mem.get k'.local_ a = Mem.get k.local_ a) ∧
      (mayTakeFrame i = false → ∀ a, Mem.get t.mach.dram a = Mem.get s.mach.dram a))) ∧
  (∀ (s t : State) (i : Instr),
    let q := s.phase.seq
    let k := s.mach.core s.cur
    let k' := t.mach.core s.cur
    let y := k.seq q
    let y' := k'.seq q
    i.isEvent = false → k.preempting = false ∨ y.undo = [] → exec i s = .next t →
    (∀ r, r ≠ q → k'.seq r = { k.seq r with inUp := (k'.seq r).inUp, inDown := (k'.seq r).inDown }) ∧
    y'.clock = y.clock ∧ ((∀ x, i ≠ .exit x) → y'.exited = y.exited) ∧
    ((∀ x r a, i ≠ .srw x r a) → y'.wdLimit = y.wdLimit ∧ y'.status.flags = y.status.flags) ∧
    ((∀ x r a, i ≠ .srw x r a) → (∀ x, i ≠ .tret x) →
      (y'.trapCause = y.trapCause ∧ y'.trapPc = y.trapPc ∧ y'.trapInfo = y.trapInfo ∧ y'.status = y.status) ∨
        (y'.status.super = true ∧ (y'.pc = 0x7C00 ∨ y'.stopped = true)))) ∧
  (∀ (s t : State) (i : Instr),
    let q := s.phase.seq
    let k := s.mach.core s.cur
    let k' := t.mach.core s.cur
    let plain : Mach := { s.mach with
      cores := t.mach.cores, notices := t.mach.notices, ids := t.mach.ids, banks := t.mach.banks, cycleErrs := t.mach.cycleErrs
      free := t.mach.free }
    k.clause = none → k.preempting = false ∨ (k.seq q).undo = [] → exec i s = .next t →
    (isControl i = true → t.mach = plain ∧
      k' = { k with ctl := k'.ctl, ld := k'.ld, cmp := k'.cmp, st := k'.st, vq := k'.vq, group := k'.group } ∧
      ((∀ x, i ≠ .exit x) → k'.group = k.group) ∧ ((∀ x f, i ≠ .qopDrop x f) → (∀ x f, i ≠ .qopClr x f) → k'.vq = k.vq)) ∧
    (isVector i = true → t.mach = plain ∧
      k' = { k with
        ctl := k'.ctl, ld := k'.ld, cmp := k'.cmp, st := k'.st, vq := k'.vq, masks := k'.masks, ops := k'.ops, replay := k'.replay
        seed := k'.seed, step := k'.step } ∧
      ((∀ x a b, i ≠ .srsdSet x a b) → k'.seed = k.seed)) ∧
    (isAgentForm i = true → k'.vq = k.vq ∧ k'.masks = k.masks ∧ k'.seed = k.seed ∧ k'.step = k.step ∧ k'.replay = k.replay ∧
      k'.aRows = k.aRows ∧ k'.clause = none ∧ k'.lines = k.lines ∧ k'.posted = k.posted ∧
      ((∀ x d a b r, i ≠ .splitAddr x d a b r) → (∀ x d a b r, i ≠ .joinAddr x d a b r) → k'.view = k.view)))
end

