-- ==== Sys2Proof/Laws/Decode.lean ====
section
/-! SUPPORT. Small lemmas of the encoder and decoder: every code reads back, every field is where its format puts it, and a
source's words decode to it. -/

namespace Sys2Proof

/-! ### Codes read back -/

@[simp] theorem SatMode.ofCode_code (x : SatMode) : SatMode.ofCode x.code = some x := by cases x <;> rfl
@[simp] theorem MulForm.ofCode_code (x : MulForm) : MulForm.ofCode x.code = some x := by cases x <;> rfl
@[simp] theorem DivForm.ofCode_code (x : DivForm) : DivForm.ofCode x.code = some x := by cases x <;> rfl
@[simp] theorem ShiftOp.ofCode_code (x : ShiftOp) : ShiftOp.ofCode x.code = some x := by cases x <;> rfl
@[simp] theorem CmpOp.ofCode_code (x : CmpOp) : CmpOp.ofCode x.code = some x := by cases x <;> rfl
@[simp] theorem MinMaxOp.ofCode_code (x : MinMaxOp) : MinMaxOp.ofCode x.code = some x := by cases x <;> rfl
@[simp] theorem BitsOp.ofCode_code (x : BitsOp) : BitsOp.ofCode x.code = some x := by cases x <;> rfl
@[simp] theorem AgenOp.ofCode_code (x : AgenOp) : AgenOp.ofCode x.code = some x := by cases x <;> rfl
@[simp] theorem ExtOp.ofCode_code (x : ExtOp) : ExtOp.ofCode x.code = some x := by cases x <;> rfl
@[simp] theorem LmovOp.ofCode_code (x : LmovOp) : LmovOp.ofCode x.code = some x := by cases x <;> rfl
@[simp] theorem MSize.ofCode_code (x : MSize) : MSize.ofCode x.code = some x := by cases x <;> rfl
@[simp] theorem Space.ofCode_code (x : Space) : Space.ofCode x.code = some x := by cases x <;> rfl
@[simp] theorem BqryOp.ofCode_code (x : BqryOp) : BqryOp.ofCode x.code = some x := by cases x <;> rfl
@[simp] theorem MnxOp.ofCode_code (x : MnxOp) : MnxOp.ofCode x.code = some x := by cases x <;> rfl
@[simp] theorem VcmpOp.ofCode_code (x : VcmpOp) : VcmpOp.ofCode x.code = some x := by cases x <;> rfl
@[simp] theorem VlogOp.ofCode_code (x : VlogOp) : VlogOp.ofCode x.code = some x := by cases x <;> rfl
@[simp] theorem VprmOp.ofCode_code (x : VprmOp) : VprmOp.ofCode x.code = some x := by cases x <;> rfl
@[simp] theorem RedOp.ofCode_code (x : RedOp) : RedOp.ofCode x.code = some x := by cases x <;> rfl
@[simp] theorem VmskOp.ofCode_code (x : VmskOp) : VmskOp.ofCode x.code = some x := by cases x <;> rfl
@[simp] theorem SfaOp.ofCode_code (x : SfaOp) : SfaOp.ofCode x.code = some x := by cases x <;> rfl
@[simp] theorem SfbOp.ofCode_code (x : SfbOp) : SfbOp.ofCode x.code = some x := by cases x <;> rfl
@[simp] theorem SfcOp.ofCode_code (x : SfcOp) : SfcOp.ofCode x.code = some x := by cases x <;> rfl
@[simp] theorem RndmOp.ofCode_code (x : RndmOp) : RndmOp.ofCode x.code = some x := by cases x <;> rfl
@[simp] theorem AccOp.ofCode_code (x : AccOp) : AccOp.ofCode x.code = some x := by cases x <;> rfl
@[simp] theorem RlySrc.ofCode_code (x : RlySrc) : RlySrc.ofCode x.code = some x := by cases x <;> rfl
@[simp] theorem Scope.ofCode_code (x : Scope) : Scope.ofCode x.code = some x := by cases x <;> rfl
@[simp] theorem Order.ofCode_code (x : Order) : Order.ofCode x.code = some x := by cases x <;> rfl
@[simp] theorem Rnd.ofCode_code (x : Rnd) : Rnd.ofCode x.code = some x := by cases x <;> rfl
@[simp] theorem Fmt.ofCode_code (x : Fmt) : Fmt.ofCode x.code = some x := by cases x <;> rfl
@[simp] theorem SysReg.ofCode_code (x : SysReg) : SysReg.ofCode x.code = some x := by cases x <;> rfl
@[simp] theorem BfreOp.ofCode_code (x : BfreOp) : BfreOp.ofCode x.code = some x := by cases x <;> rfl

@[simp] theorem Tok.ofCode_code (t : Tok) : Tok.ofCode t.code = t := by
  obtain ⟨a, b, c, d⟩ := t
  cases a <;> cases b <;> cases c <;> cases d <;> rfl

theorem QSel.ofCode_code_mk : ∀ (v : Bool) (q : BitVec 4), QSel.ofCode (QSel.mk v q).code = ⟨v, q⟩ := by decide

@[simp] theorem QSel.ofCode_code (s : QSel) : QSel.ofCode s.code = s := QSel.ofCode_code_mk s.vec s.q

theorem Dst.ofCode_code_loop : ∀ k : BitVec 3, Dst.ofCode (Dst.loop k).code = .loop k := by decide
theorem Dst.ofCode_code_queue : ∀ q : BitVec 4, Dst.ofCode (Dst.queue q).code = .queue q := by decide
theorem Dst.ofCode_code_mask : ∀ k : Fin 7, Dst.ofCode (Dst.mask k).code = .mask k := by decide

@[simp] theorem Dst.ofCode_code (d : Dst) : Dst.ofCode d.code = d := by
  cases d with
  | queue q => exact Dst.ofCode_code_queue q
  | loop k => exact Dst.ofCode_code_loop k
  | mask k => exact Dst.ofCode_code_mask k
  | discard => rfl

/-! ### Sources -/

@[simp] theorem Src.decode_code (a : Src) (ws : List IWord) : Src.decode a.code (a.lits ++ ws) = .ok (a, ws) := by
  cases a with
  | pop q =>
    have h : ∀ q : BitVec 4, (Src.pop q).code.toNat < 16 ∧ (Src.pop q).code.extractLsb' 0 4 = q := by decide
    simp [Src.decode, Src.lits, h q]
  | peek q =>
    have h : ∀ q : BitVec 4, ¬ (Src.peek q).code.toNat < 16 ∧ (Src.peek q).code.toNat < 32 ∧
        (Src.peek q).code.extractLsb' 0 4 = q := by decide
    simp [Src.decode, Src.lits, h q]
  | imm q =>
    have h : ∀ q : BitVec 4, ¬ (Src.imm q).code.toNat < 16 ∧ ¬ (Src.imm q).code.toNat < 32 ∧
        (Src.imm q).code.toNat < 48 ∧ (Src.imm q).code.extractLsb' 0 4 = q := by decide
    simp [Src.decode, Src.lits, h q]
  | loop q =>
    have h : ∀ q : BitVec 3, ¬ (Src.loop q).code.toNat < 16 ∧ ¬ (Src.loop q).code.toNat < 32 ∧
        ¬ (Src.loop q).code.toNat < 48 ∧ (Src.loop q).code.toNat < 56 ∧ (Src.loop q).code.extractLsb' 0 3 = q := by decide
    simp [Src.decode, Src.lits, h q]
  | lit32 v => simp [Src.decode, Src.lits, Src.code]
  | lit64 v =>
    have h : v.extractLsb' 32 32 ++ v.extractLsb' 0 32 = v := by
      ext i hi; grind
    simp [Src.decode, Src.lits, Src.code, h]
  | _ => simp [Src.decode, Src.lits, Src.code]

@[simp] theorem Src.code_pop_zero : (Src.pop 0).code = 0 := by decide
@[simp] theorem Src.lits_pop (q : BitVec 4) : (Src.pop q).lits = [] := rfl

theorem Src.eq_of_isNone {a : Src} (h : a.isNone = true) : a = .pop 0 := by simpa [Src.isNone] using h

@[simp] theorem srcS_code {a : Src} (h : a.scalarOk = true) (ws : List IWord) :
    srcS a.code (a.lits ++ ws) = .ok (a, ws) := by
  simp [srcS, h, need, bind, Except.bind, pure, Except.pure]

@[simp] theorem srcQ_code {a : Src} (h : a.isQueue = true) (ws : List IWord) :
    srcQ a.code (a.lits ++ ws) = .ok (a, ws) := by
  simp [srcQ, h, need, bind, Except.bind, pure, Except.pure]

@[simp] theorem srcSS_code {a b : Src} (ha : a.scalarOk = true) (hb : b.scalarOk = true) (ws : List IWord) :
    srcSS a.code b.code (a.lits ++ (b.lits ++ ws)) = .ok (a, b, ws) := by
  simp [srcSS, ha, hb, bind, Except.bind, pure, Except.pure]

@[simp] theorem srcVV_code {a b : Src} (h : vecPair a b = true) (ws : List IWord) :
    srcVV a.code b.code (a.lits ++ (b.lits ++ ws)) = .ok (a, b, ws) := by
  simp [srcVV, h, need, bind, Except.bind, pure, Except.pure]

@[simp] theorem srcQS_code {a b : Src} (ha : a.isQueue = true) (hb : b.scalarOk = true) (ws : List IWord) :
    srcQS a.code b.code (a.lits ++ (b.lits ++ ws)) = .ok (a, b, ws) := by
  simp [srcQS, ha, hb, bind, Except.bind, pure, Except.pure]

@[simp] theorem srcAny2_code (a b : Src) (ws : List IWord) :
    srcAny2 a.code b.code (a.lits ++ (b.lits ++ ws)) = .ok (a, b, ws) := by
  simp [srcAny2, bind, Except.bind, pure, Except.pure]

@[simp] theorem rawTag_field (f : Fmt) : rawTag (tagField f) = .ok f := by cases f <;> rfl

@[simp] theorem rawMask_field (k : BitVec 3) : rawMask (0#3 ++ k) = .ok k := by revert k; decide

/-! ### Fields of the formats (R36) -/

@[simp] theorem bodyA_dst (d : BitVec 5) (a b : BitVec 6) (fn : BitVec 4) : (bodyA d a b fn).extractLsb' 16 5 = d := by
  ext i hi; simp [bodyA]; try grind
@[simp] theorem bodyA_srcA (d : BitVec 5) (a b : BitVec 6) (fn : BitVec 4) : (bodyA d a b fn).extractLsb' 10 6 = a := by
  ext i hi; simp [bodyA]; try grind
@[simp] theorem bodyA_srcB (d : BitVec 5) (a b : BitVec 6) (fn : BitVec 4) : (bodyA d a b fn).extractLsb' 4 6 = b := by
  ext i hi; simp [bodyA]; try grind
@[simp] theorem bodyA_fn (d : BitVec 5) (a b : BitVec 6) (fn : BitVec 4) : (bodyA d a b fn).extractLsb' 0 4 = fn := by
  ext i hi; simp [bodyA]; try grind
@[simp] theorem bodyB_cond (c : BitVec 5) (p : BitVec 16) : (bodyB c p).extractLsb' 16 5 = c := by
  ext i hi; simp [bodyB]; try grind
@[simp] theorem bodyB_disp (c : BitVec 5) (p : BitVec 16) : (bodyB c p).extractLsb' 0 16 = p := by
  ext i hi; simp [bodyB]; try grind
@[simp] theorem bodyM_pk (k : BitVec 1) (q : BitVec 4) (a : BitVec 6) (m : BitVec 8) (s : BitVec 2) : (bodyM k q a m s).extractLsb' 20 1 = k := by
  ext i hi; simp [bodyM]; try grind
@[simp] theorem bodyM_queue (k : BitVec 1) (q : BitVec 4) (a : BitVec 6) (m : BitVec 8) (s : BitVec 2) : (bodyM k q a m s).extractLsb' 16 4 = q := by
  ext i hi; simp [bodyM]; try grind
@[simp] theorem bodyM_addr (k : BitVec 1) (q : BitVec 4) (a : BitVec 6) (m : BitVec 8) (s : BitVec 2) : (bodyM k q a m s).extractLsb' 10 6 = a := by
  ext i hi; simp [bodyM]; try grind
@[simp] theorem bodyM_imm (k : BitVec 1) (q : BitVec 4) (a : BitVec 6) (m : BitVec 8) (s : BitVec 2) : (bodyM k q a m s).extractLsb' 2 8 = m := by
  ext i hi; simp [bodyM]; try grind
@[simp] theorem bodyM_size (k : BitVec 1) (q : BitVec 4) (a : BitVec 6) (m : BitVec 8) (s : BitVec 2) : (bodyM k q a m s).extractLsb' 0 2 = s := by
  ext i hi; simp [bodyM]; try grind
@[simp] theorem bodyH_a (a b c : BitVec 4) (s : BitVec 2) (g : BitVec 1) (r : BitVec 6) : (bodyH a b c s g r).extractLsb' 17 4 = a := by
  ext i hi; simp [bodyH]; try grind
@[simp] theorem bodyH_b (a b c : BitVec 4) (s : BitVec 2) (g : BitVec 1) (r : BitVec 6) : (bodyH a b c s g r).extractLsb' 13 4 = b := by
  ext i hi; simp [bodyH]; try grind
@[simp] theorem bodyH_o (a b c : BitVec 4) (s : BitVec 2) (g : BitVec 1) (r : BitVec 6) : (bodyH a b c s g r).extractLsb' 9 4 = c := by
  ext i hi; simp [bodyH]; try grind
@[simp] theorem bodyH_rows (a b c : BitVec 4) (s : BitVec 2) (g : BitVec 1) (r : BitVec 6) : (bodyH a b c s g r).extractLsb' 0 6 = r := by
  ext i hi; simp [bodyH]; try grind
@[simp] theorem bodyH_zero (a b c : BitVec 4) (s : Bool) (g : BitVec 1) (r : BitVec 6) :
    (bodyH a b c (0#1 ++ BitVec.ofBool s) g r).extractLsb' 8 1 = 0 := by
  ext i hi; simp [bodyH]; try grind
@[simp] theorem bodyH_sparse (a b c : BitVec 4) (s : Bool) (g : BitVec 1) (r : BitVec 6) :
    (bodyH a b c (0#1 ++ BitVec.ofBool s) g r)[7] = s := by
  cases s <;> simp [bodyH] <;> grind
@[simp] theorem bodyH_grp (a b c : BitVec 4) (s : BitVec 2) (g : Bool) (r : BitVec 6) :
    (bodyH a b c s (BitVec.ofBool g) r)[6] = g := by
  cases g <;> simp [bodyH] <;> grind

/-! ### Parts of fn and of the destination field -/

@[simp] theorem hiFn_low (b : Bool) (x : BitVec 3) : (hiFn b x).extractLsb' 0 3 = x := by revert b x; decide
@[simp] theorem hiFn_high (b : Bool) (x : BitVec 3) : (hiFn b x).getLsbD 3 = b := by revert b x; decide
@[simp] theorem hiFn_rest (x : BitVec 3) : (hiFn false x).extractLsb' 3 1 = 0 := by revert x; decide
@[simp] theorem loFn_low (x : BitVec 2) : (loFn x).extractLsb' 0 2 = x := by revert x; decide
@[simp] theorem loFn_rest (x : BitVec 2) : (loFn x).extractLsb' 2 2 = 0 := by revert x; decide
@[simp] theorem bitFn_low (b : Bool) : (bitFn b).getLsbD 0 = b := by revert b; decide
@[simp] theorem bitFn_rest (b : Bool) : (bitFn b).extractLsb' 1 3 = 0 := by revert b; decide
@[simp] theorem keyFn_space (f : BitVec 2) (s : Space) : (keyFn f s).extractLsb' 0 2 = s.code := by revert f s; intro f s; cases s <;> revert f <;> decide
@[simp] theorem keyFn_form (f : BitVec 2) (s : Space) : (keyFn f s).extractLsb' 2 2 = f := by revert f s; intro f s; cases s <;> revert f <;> decide
@[simp] theorem decAddFn_code (m : SatMode) (w : Bool) : decAddFn (addFn m w) = .ok (m, w) := by cases m <;> cases w <;> rfl
@[simp] theorem fld_some {α : Type} (x : α) : fld (some x) = .ok x := rfl
@[simp] theorem unused_zero {n : Nat} : unused (0 : BitVec n) = .ok () := rfl
@[simp] theorem cond_queue (x : BitVec 1) (q : BitVec 4) : (x ++ q : BitVec 5).extractLsb' 0 4 = q := by revert x q; decide
@[simp] theorem cond_bit (x : BitVec 1) (q : BitVec 4) : (x ++ q : BitVec 5).extractLsb' 4 1 = x := by revert x q; decide
@[simp] theorem cond_nz (q : BitVec 4) : (0#1 ++ q : BitVec 5)[4] = false := by revert q; decide
@[simp] theorem cond_z (q : BitVec 4) : (1#1 ++ q : BitVec 5)[4] = true := by revert q; decide
@[simp] theorem cond_loop (k : BitVec 3) : (0#2 ++ k : BitVec 5).extractLsb' 0 3 = k := by revert k; decide
@[simp] theorem cond_rest (k : BitVec 3) : (0#2 ++ k : BitVec 5).extractLsb' 3 2 = 0 := by revert k; decide
@[simp] theorem tkwFn_rest (c d : Bool) : (0#2 ++ BitVec.ofBool c ++ BitVec.ofBool d : BitVec 4).extractLsb' 2 2 = 0 := by revert c d; decide
@[simp] theorem tkwFn_chk (c d : Bool) : (0#2 ++ BitVec.ofBool c ++ BitVec.ofBool d : BitVec 4)[1] = c := by revert c d; decide
@[simp] theorem tkwFn_down (c d : Bool) : (0#2 ++ BitVec.ofBool c ++ BitVec.ofBool d : BitVec 4)[0] = d := by revert c d; decide
@[simp] theorem rawQueue_rest (q : BitVec 5) : (0#1 ++ q : BitVec 6).extractLsb' 5 1 = 0 := by revert q; decide
@[simp] theorem rawQueue_low (q : BitVec 5) : (0#1 ++ q : BitVec 6).extractLsb' 0 5 = q := by revert q; decide
@[simp] theorem rawBit_rest (b : Bool) : (0#5 ++ BitVec.ofBool b : BitVec 6).extractLsb' 1 5 = 0 := by revert b; decide
@[simp] theorem rawBit_low (b : Bool) : (0#5 ++ BitVec.ofBool b : BitVec 6)[0] = b := by revert b; decide
@[simp] theorem divFn_rest (w : Bool) (f : BitVec 2) : (0#1 ++ BitVec.ofBool w ++ f : BitVec 4).extractLsb' 3 1 = 0 := by revert w f; decide
@[simp] theorem divFn_low (w : Bool) (f : BitVec 2) : (0#1 ++ BitVec.ofBool w ++ f : BitVec 4).extractLsb' 0 2 = f := by revert w f; decide
@[simp] theorem divFn_w (w : Bool) (f : BitVec 2) : (0#1 ++ BitVec.ofBool w ++ f : BitVec 4)[2] = w := by revert w f; decide
@[simp] theorem unused_pop : unused (Src.pop 0#4).code = .ok () := rfl
@[simp] theorem wldFn_rest (k w d : Bool) : (0#1 ++ BitVec.ofBool k ++ BitVec.ofBool w ++ BitVec.ofBool d : BitVec 4).extractLsb' 3 1 = 0 := by
  revert k w d; decide
@[simp] theorem wldFn_ks (k w d : Bool) : (0#1 ++ BitVec.ofBool k ++ BitVec.ofBool w ++ BitVec.ofBool d : BitVec 4)[2] = k := by
  revert k w d; decide
@[simp] theorem wldFn_width (k w d : Bool) : (0#1 ++ BitVec.ofBool k ++ BitVec.ofBool w ++ BitVec.ofBool d : BitVec 4)[1] = w := by
  revert k w d; decide
@[simp] theorem wldFn_dev (k w d : Bool) : (0#1 ++ BitVec.ofBool k ++ BitVec.ofBool w ++ BitVec.ofBool d : BitVec 4)[0] = d := by
  revert k w d; decide
@[simp] theorem scanFn_rest (x : Bool) (f : BitVec 2) : (BitVec.ofBool x ++ 0#1 ++ f : BitVec 4).extractLsb' 2 1 = 0 := by revert x f; decide
@[simp] theorem scanFn_low (x : Bool) (f : BitVec 2) : (BitVec.ofBool x ++ 0#1 ++ f : BitVec 4).extractLsb' 0 2 = f := by revert x f; decide
@[simp] theorem scanFn_ex (x : Bool) (f : BitVec 2) : (BitVec.ofBool x ++ 0#1 ++ f : BitVec 4)[3] = x := by revert x f; decide
@[simp] theorem fenceDst_scope (c : Scope) (o : BitVec 2) : (c.code ++ o : BitVec 5).extractLsb' 2 3 = c.code := by
  cases c <;> revert o <;> decide
@[simp] theorem fenceDst_order (c : Scope) (o : BitVec 2) : (c.code ++ o : BitVec 5).extractLsb' 0 2 = o := by
  cases c <;> revert o <;> decide
@[simp] theorem fenceFn_rest (d : Bool) : (0#2 ++ BitVec.ofBool d ++ 1#1 : BitVec 4).extractLsb' 2 2 = 0 := by revert d; decide
@[simp] theorem fenceFn_flag (d : Bool) : (0#2 ++ BitVec.ofBool d ++ 1#1 : BitVec 4)[0] = true := by revert d; decide
@[simp] theorem fenceFn_dev (d : Bool) : (0#2 ++ BitVec.ofBool d ++ 1#1 : BitVec 4)[1] = d := by revert d; decide
/-- An order other than .rlx has its code in two bits. -/
theorem orderOf_low {o : Order} (h : o ≠ .rlx) : Order.ofCode (0#1 ++ o.code.extractLsb' 0 2) = some o := by
  cases o <;> first | rfl | exact absurd rfl h
@[simp] theorem bfreOf_0 : BfreOp.ofCode 0#4 = some .rng := rfl
@[simp] theorem bfreOf_1 : BfreOp.ofCode 1#4 = some .lyrs := rfl
@[simp] theorem bfreOf_2 : BfreOp.ofCode 2#4 = some .all := rfl
@[simp] theorem vmskOf_7 : VmskOp.ofCode 7#4 = some .fromv := rfl
@[simp] theorem hiFn_bit (b : Bool) (x : BitVec 3) : (hiFn b x)[3] = b := by revert b x; decide
@[simp] theorem bitFn_bit (b : Bool) : (bitFn b)[0] = b := by revert b; decide
@[simp] theorem unused_ofNat {n : Nat} : unused (0#n) = .ok () := rfl
@[simp] theorem unused_bodyA : unused (bodyA 0 0 0 0) = .ok () := rfl
@[simp] theorem unused_bodyB : unused (bodyB 0 0) = .ok () := rfl
@[simp] theorem unused_bodyB' : unused (bodyB 0#5 0#16) = .ok () := rfl
@[simp] theorem need_true : need true = .ok () := rfl

/-! ### Words -/

/-- The words of an encoding decode as its parts do. -/
theorem decodeWords_words (e : Encoding) (rest : List IWord) :
    decodeWords (e.words ++ rest) =
      decBody (e.op.extractLsb' 4 3).toNat (e.op.extractLsb' 0 4).toNat e.tok e.body (e.lits ++ rest) := by
  obtain ⟨op, t, body, lits⟩ := e
  have h1 : (op ++ t.code ++ body : BitVec 32).extractLsb' 29 3 = op.extractLsb' 4 3 := by
    ext i hi; grind
  have h2 : (op ++ t.code ++ body : BitVec 32).extractLsb' 25 4 = op.extractLsb' 0 4 := by
    ext i hi; grind
  have h3 : (op ++ t.code ++ body : BitVec 32).extractLsb' 21 4 = t.code := by
    ext i hi; grind
  have h4 : (op ++ t.code ++ body : BitVec 32).extractLsb' 0 21 = body := by
    ext i hi; grind
  simp only [Encoding.words, List.cons_append, decodeWords, h1, h2, h3, h4, Tok.ofCode_code]

end Sys2Proof
end

