-- ==== Sys2Proof/Laws/Issue.lean ====
section
/-! SUPPORT. What an attempt can do: it passes the checks and runs its body, or it is halted; either way it leaves everything
but the package machine as it was. -/

namespace Sys2Proof.Machine

/-- A check that holds is passed. -/
theorem must_bind {α : Type} {b : Bool} {h : Halt} {f : Unit → Chk α} (hb : b = true) : (must b h >>= f) = f () := by
  rw [hb]; rfl
/-- A check that fails halts. -/
theorem must_halt {α : Type} {b : Bool} {h : Halt} {f : Unit → Chk α} (hb : b = false) : (must b h >>= f) = .error h := by
  rw [hb]; rfl
theorem chk_bind {α β : Type} {x : Chk α} {v : α} {f : α → Chk β} (hx : x = .ok v) : (x >>= f) = f v := by rw [hx]; rfl
theorem chk_halt {α β : Type} {x : Chk α} {h : Halt} {f : α → Chk β} (hx : x = .error h) : (x >>= f) = .error h := by
  rw [hx]; rfl

@[simp] theorem chk_ok_bind {α β : Type} (v : α) (f : α → Chk β) : ((Except.ok v : Chk α) >>= f) = f v := rfl
@[simp] theorem chk_error_bind {α β : Type} (h : Halt) (f : α → Chk β) : ((Except.error h : Chk α) >>= f) = .error h := rfl
@[simp] theorem must_true (h : Halt) : must true h = .ok () := rfl
@[simp] theorem must_false (h : Halt) : must false h = .error h := rfl

@[simp] theorem envOf_c (s : State) (i : Instr) : (envOf s i).c = s.cur := rfl
@[simp] theorem envOf_q (s : State) (i : Instr) : (envOf s i).q = s.phase.seq := rfl
@[simp] theorem envOf_len (s : State) (i : Instr) : (envOf s i).len = i.length := rfl
@[simp] theorem envOf_trust (s : State) (i : Instr) : (envOf s i).trust = s.trust := rfl
@[simp] theorem envOf_tok (s : State) (i : Instr) : (envOf s i).tok = i.tok := rfl
@[simp] theorem envOf_die (s : State) (i : Instr) : (envOf s i).die = dieOf s.cur := rfl

/-- An instruction that issues passes checks 1 to 5 of R47. -/
theorem Issues.checks {i : Instr} {s : State} {m : Mach} (h : Issues i s m) : (envOf s i).checks s.mach i = .ok () := by
  have hm : (!i.needsSuper || (s.mach.seq s.cur s.phase.seq).status.super) = true := by
    have := h.mode
    cases hn : i.needsSuper <;> simp_all
  refine (must_bind (decide_eq_true h.line)).trans ?_
  refine (must_bind h.words).trans ?_
  refine (must_bind h.may).trans ?_
  refine (must_bind h.names).trans ?_
  refine (must_bind h.onDie).trans ?_
  exact if_pos hm

/-- The checks and tokens of an instruction that issues leave its body to run. -/
theorem Issues.body {i : Instr} {s : State} {m : Mach} (h : Issues i s m) (body : Env → Mach → Chk Mach) :
    (do
      (envOf s i).checks s.mach i
      let m ← (envOf s i).tokens s.mach
      must (decide ((envOf s i).q ≠ .cmp) || (m.core (envOf s i).c).clause.isNone || i.clauseOk) ((envOf s i).trapWord tClause)
      body (envOf s i) m : Chk Mach) = body (envOf s i) m := by
  have hc : (decide (s.phase.seq ≠ .cmp) || (m.core s.cur).clause.isNone || i.clauseOk) = true := by
    have := h.clause
    by_cases hq : s.phase.seq = .cmp
    · rcases this hq with h | h <;> simp [h]
    · simp [hq]
  exact (chk_bind h.checks).trans ((chk_bind h.tokens).trans (must_bind hc))

/-- What an attempt of an instruction that issues does: its body decides. -/
theorem attempt_issues {i : Instr} {s : State} {m : Mach} (h : Issues i s m) (body : Env → Mach → Chk Mach) :
    attempt i body s =
      match body (envOf s i) m with
      | .ok m' => .next { s with mach := m' }
      | .error x => .next { s with mach := (envOf s i).halt x s.mach } := by
  cases hx : body (envOf s i) m <;> simp only [attempt, attemptAt, h.body body, hx]

/-- An attempt whose body goes through leaves what the body leaves. -/
theorem attempt_ok {i : Instr} {s : State} {m m' : Mach} {body : Env → Mach → Chk Mach} (h : Issues i s m)
    (hb : body (envOf s i) m = .ok m') : attempt i body s = .next { s with mach := m' } := by
  rw [attempt_issues h, hb]

/-- An attempt whose body halts leaves what the halt leaves (R73). -/
theorem attempt_halt {i : Instr} {s : State} {m : Mach} {x : Halt} {body : Env → Mach → Chk Mach} (h : Issues i s m)
    (hb : body (envOf s i) m = .error x) :
    attempt i body s = .next { s with mach := (envOf s i).halt x s.mach } := by
  rw [attempt_issues h, hb]

/-- The same for an instruction after which the sequencer goes on with the next one. -/
theorem attemptNext_ok {i : Instr} {s : State} {m m' : Mach} {body : Env → Mach → Chk Mach} (h : Issues i s m)
    (hb : body (envOf s i) m = .ok m') :
    attemptNext i body s = .next { s with mach := (envOf s i).advance 1 m' } :=
  attempt_ok h (chk_bind hb)

/-- The same when its body halts. -/
theorem attemptNext_halt {i : Instr} {s : State} {m : Mach} {x : Halt} {body : Env → Mach → Chk Mach} (h : Issues i s m)
    (hb : body (envOf s i) m = .error x) :
    attemptNext i body s = .next { s with mach := (envOf s i).halt x s.mach } :=
  attempt_halt h (chk_halt hb)

/-- What an attempt that goes on does: its body decides. -/
theorem attemptNext_issues {i : Instr} {s : State} {m : Mach} (h : Issues i s m) (body : Env → Mach → Chk Mach) :
    attemptNext i body s =
      match body (envOf s i) m with
      | .ok m' => .next { s with mach := (envOf s i).advance 1 m' }
      | .error x => .next { s with mach := (envOf s i).halt x s.mach } := by
  cases hb : body (envOf s i) m with
  | ok m' => exact attemptNext_ok h hb
  | error x => exact attemptNext_halt h hb

/-- An attempt changes nothing but the package machine. -/
theorem attempt_next (i : Instr) (body : Env → Mach → Chk Mach) (s : State) :
    ∃ m, attempt i body s = .next { s with mach := m } := by
  simp only [attempt, attemptAt]
  split
  · exact ⟨_, rfl⟩
  · exact ⟨_, rfl⟩

/-- An attempt that goes on with the next instruction changes nothing but the package machine. -/
theorem attemptNext_next (i : Instr) (body : Env → Mach → Chk Mach) (s : State) :
    ∃ m, attemptNext i body s = .next { s with mach := m } := attempt_next i _ s

end Sys2Proof.Machine
end

