-- ==== Sys2Proof/Laws/State.lean ====
section
/-! SUPPORT. One lemma per field per update of the state, true by definition, and what reading a table gives after a write. -/

namespace Sys2Proof.Machine

/-! ### Sparse tables -/

@[simp] theorem SMap.get?_nil {α : Type} (n : Nat) : SMap.get? ([] : SMap α) n = none := rfl
@[simp] theorem SMap.getD_nil {α : Type} (n : Nat) (d : α) : SMap.getD ([] : SMap α) n d = d := rfl

theorem SMap.get?_set {α : Type} (m : SMap α) (n k : Nat) (x : α) :
    SMap.get? (SMap.set m n x) k = if k = n then some x else SMap.get? m k := by
  induction m with
  | nil => simp only [SMap.set, SMap.get?]; split <;> simp_all
  | cons p r ih =>
    obtain ⟨a, v⟩ := p
    simp only [SMap.set]
    split
    · subst_vars; simp only [SMap.get?]; split <;> simp_all
    · split
      · simp only [SMap.get?]
        by_cases hk : k = n
        · subst hk; simp
        · simp only [hk, if_false]
          split
          · have : k ≠ a := by omega
            have : k < a := by omega
            simp [*]
          · rfl
      · simp only [SMap.get?, ih]
        by_cases hk : k = n
        · subst hk; simp [*]
        · simp [hk]

@[simp] theorem SMap.getD_set_same {α : Type} (m : SMap α) (n : Nat) (x d : α) : SMap.getD (SMap.set m n x) n d = x := by
  simp [SMap.getD, SMap.get?_set]
theorem SMap.getD_set_ne {α : Type} (m : SMap α) {n k : Nat} (x d : α) (h : k ≠ n) :
    SMap.getD (SMap.set m n x) k d = SMap.getD m k d := by
  simp [SMap.getD, SMap.get?_set, h]

/-- Setting a key keeps the keys rising. -/
theorem SMap.wf_cons {α : Type} {a : Nat} {x : α} {r : SMap α} :
    SMap.wf ((a, x) :: r) = true ↔ (∀ p ∈ r, a < p.1) ∧ SMap.wf r = true := by
  induction r generalizing a x with
  | nil => simp [SMap.wf]
  | cons p r ih =>
    obtain ⟨b, y⟩ := p
    simp only [SMap.wf, Bool.and_eq_true, decide_eq_true_eq, List.mem_cons, forall_eq_or_imp]
    constructor
    · rintro ⟨h, hw⟩
      have hb := (ih.1 hw).1
      exact ⟨⟨h, fun p hp => lt_trans h (hb p hp)⟩, hw⟩
    · rintro ⟨⟨h, _⟩, hw⟩
      exact ⟨h, hw⟩

theorem SMap.mem_set {α : Type} {m : SMap α} {n : Nat} {x : α} {p : Nat × α} (h : p ∈ SMap.set m n x) :
    p = (n, x) ∨ p ∈ m := by
  induction m with
  | nil => simp_all [SMap.set]
  | cons q r ih =>
    obtain ⟨b, y⟩ := q
    simp only [SMap.set] at h
    split at h
    · rcases List.mem_cons.1 h with h | h <;> simp [h]
    · split at h
      · rcases List.mem_cons.1 h with h | h <;> simp [h]
      · rcases List.mem_cons.1 h with h | h
        · simp [h]
        · rcases ih h with h | h <;> simp [h]

theorem SMap.set_wf {α : Type} {m : SMap α} (h : SMap.wf m = true) (n : Nat) (x : α) : SMap.wf (SMap.set m n x) = true := by
  induction m with
  | nil => rfl
  | cons p r ih =>
    obtain ⟨b, y⟩ := p
    have hc := SMap.wf_cons.1 h
    simp only [SMap.set]
    split
    · subst_vars; exact SMap.wf_cons.2 hc
    · split
      · refine SMap.wf_cons.2 ⟨?_, h⟩
        intro q hq
        rcases List.mem_cons.1 hq with rfl | hq
        · assumption
        · exact lt_trans (by assumption) (hc.1 q hq)
      · refine SMap.wf_cons.2 ⟨?_, ih hc.2⟩
        intro q hq
        rcases SMap.mem_set hq with rfl | hq
        · show b < n
          omega
        · exact hc.1 q hq

theorem SMap.mem_erase {α : Type} {m : SMap α} {n : Nat} {p : Nat × α} (h : p ∈ SMap.erase m n) : p ∈ m := by
  induction m with
  | nil => exact h
  | cons q r ih =>
    obtain ⟨b, y⟩ := q
    simp only [SMap.erase] at h
    split at h
    · simp [h]
    · split at h
      · exact h
      · rcases List.mem_cons.1 h with h | h
        · simp [h]
        · simp [ih h]

theorem SMap.erase_wf {α : Type} {m : SMap α} (h : SMap.wf m = true) (n : Nat) : SMap.wf (SMap.erase m n) = true := by
  induction m with
  | nil => rfl
  | cons p r ih =>
    obtain ⟨b, y⟩ := p
    have hc := SMap.wf_cons.1 h
    simp only [SMap.erase]
    split
    · exact hc.2
    · split
      · exact h
      · exact SMap.wf_cons.2 ⟨fun q hq => hc.1 q (SMap.mem_erase hq), ih hc.2⟩

theorem SMap.put_wf {α : Type} [DecidableEq α] {m : SMap α} (h : SMap.wf m = true) (d : α) (n : Nat) (x : α) :
    SMap.wf (SMap.put d m n x) = true := by
  unfold SMap.put
  split
  · exact SMap.erase_wf h n
  · exact SMap.set_wf h n x

/-- No key below the first is in a table whose keys rise. -/
theorem SMap.get?_lt {α : Type} {m : SMap α} {n : Nat} (h : ∀ p ∈ m, n < p.1) : SMap.get? m n = none := by
  cases m with
  | nil => rfl
  | cons p r =>
    obtain ⟨b, y⟩ := p
    have := h (b, y) (by simp)
    simp only [SMap.get?]
    have h1 : ¬n = b := by simp at this; omega
    have h2 : n < b := this
    simp [h1, h2]

theorem SMap.get?_erase {α : Type} {m : SMap α} (h : SMap.wf m = true) (n k : Nat) :
    SMap.get? (SMap.erase m n) k = if k = n then none else SMap.get? m k := by
  induction m with
  | nil => simp [SMap.erase]
  | cons p r ih =>
    obtain ⟨b, y⟩ := p
    have hc := SMap.wf_cons.1 h
    simp only [SMap.erase]
    split
    · rename_i hb; subst hb
      split
      · rename_i hk; subst hk; exact SMap.get?_lt hc.1
      · rename_i hk
        simp only [SMap.get?, hk, if_false]
        split
        · exact SMap.get?_lt fun q hq => lt_trans (by assumption) (hc.1 q hq)
        · rfl
    · split
      · split
        · rename_i hk; subst hk; simp [SMap.get?, *]
        · rfl
      · simp only [SMap.get?, ih hc.2]
        split
        · rename_i hk
          split
          · omega
          · rfl
        · split
          · split <;> simp_all
          · rfl

/-- Reading a table after a put: the value put, or what was there. -/
theorem SMap.getD_put {α : Type} [DecidableEq α] {m : SMap α} (h : SMap.wf m = true) (d : α) (n k : Nat) (x : α) :
    SMap.getD (SMap.put d m n x) k d = if k = n then x else SMap.getD m k d := by
  unfold SMap.put
  split
  · rename_i hx; subst hx
    simp only [SMap.getD, SMap.get?_erase h]
    split <;> rfl
  · simp only [SMap.getD, SMap.get?_set]
    split <;> rfl

/-! ### Cores -/

@[simp] theorem Mach.setCore_core (m : Mach) (c : Nat) (k : Core) : (m.setCore c k).core c = k := by
  simp [Mach.core, Mach.setCore]
theorem Mach.setCore_core_ne (m : Mach) {c d : Nat} (k : Core) (h : d ≠ c) : (m.setCore c k).core d = m.core d := by
  simp [Mach.core, Mach.setCore, SMap.getD_set_ne, h]
@[simp] theorem Mach.onCore_core (m : Mach) (c : Nat) (f : Core → Core) : (m.onCore c f).core c = f (m.core c) := by
  simp [Mach.onCore]
theorem Mach.onCore_core_ne (m : Mach) {c d : Nat} (f : Core → Core) (h : d ≠ c) : (m.onCore c f).core d = m.core d := by
  simp [Mach.onCore, Mach.setCore_core_ne, h]

@[simp] theorem Mach.setCore_arrays (m : Mach) (c : Nat) (k : Core) : (m.setCore c k).arrays = m.arrays := rfl
@[simp] theorem Mach.onCore_arrays (m : Mach) (c : Nat) (f : Core → Core) : (m.onCore c f).arrays = m.arrays := rfl
@[simp] theorem Mach.onSeq_arrays (m : Mach) (c : Nat) (q : SeqId) (f : Seq → Seq) : (m.onSeq c q f).arrays = m.arrays := rfl
@[simp] theorem Mach.setCore_global (m : Mach) (c : Nat) (k : Core) : (m.setCore c k).global = m.global := rfl
@[simp] theorem Mach.onCore_global (m : Mach) (c : Nat) (f : Core → Core) : (m.onCore c f).global = m.global := rfl
@[simp] theorem Mach.onSeq_global (m : Mach) (c : Nat) (q : SeqId) (f : Seq → Seq) : (m.onSeq c q f).global = m.global := rfl
@[simp] theorem Mach.setCore_dram (m : Mach) (c : Nat) (k : Core) : (m.setCore c k).dram = m.dram := rfl
@[simp] theorem Mach.onCore_dram (m : Mach) (c : Nat) (f : Core → Core) : (m.onCore c f).dram = m.dram := rfl
@[simp] theorem Mach.onSeq_dram (m : Mach) (c : Nat) (q : SeqId) (f : Seq → Seq) : (m.onSeq c q f).dram = m.dram := rfl
@[simp] theorem Mach.setCore_written (m : Mach) (c : Nat) (k : Core) : (m.setCore c k).written = m.written := rfl
@[simp] theorem Mach.onCore_written (m : Mach) (c : Nat) (f : Core → Core) : (m.onCore c f).written = m.written := rfl
@[simp] theorem Mach.onSeq_written (m : Mach) (c : Nat) (q : SeqId) (f : Seq → Seq) : (m.onSeq c q f).written = m.written := rfl
@[simp] theorem Mach.setCore_host (m : Mach) (c : Nat) (k : Core) : (m.setCore c k).host = m.host := rfl
@[simp] theorem Mach.onCore_host (m : Mach) (c : Nat) (f : Core → Core) : (m.onCore c f).host = m.host := rfl
@[simp] theorem Mach.onSeq_host (m : Mach) (c : Nat) (q : SeqId) (f : Seq → Seq) : (m.onSeq c q f).host = m.host := rfl
@[simp] theorem Mach.setCore_globalPoison (m : Mach) (c : Nat) (k : Core) : (m.setCore c k).globalPoison = m.globalPoison := rfl
@[simp] theorem Mach.onCore_globalPoison (m : Mach) (c : Nat) (f : Core → Core) : (m.onCore c f).globalPoison = m.globalPoison := rfl
@[simp] theorem Mach.onSeq_globalPoison (m : Mach) (c : Nat) (q : SeqId) (f : Seq → Seq) : (m.onSeq c q f).globalPoison = m.globalPoison := rfl
@[simp] theorem Mach.setCore_dramPoison (m : Mach) (c : Nat) (k : Core) : (m.setCore c k).dramPoison = m.dramPoison := rfl
@[simp] theorem Mach.onCore_dramPoison (m : Mach) (c : Nat) (f : Core → Core) : (m.onCore c f).dramPoison = m.dramPoison := rfl
@[simp] theorem Mach.onSeq_dramPoison (m : Mach) (c : Nat) (q : SeqId) (f : Seq → Seq) : (m.onSeq c q f).dramPoison = m.dramPoison := rfl
@[simp] theorem Mach.setCore_slices (m : Mach) (c : Nat) (k : Core) : (m.setCore c k).slices = m.slices := rfl
@[simp] theorem Mach.onCore_slices (m : Mach) (c : Nat) (f : Core → Core) : (m.onCore c f).slices = m.slices := rfl
@[simp] theorem Mach.onSeq_slices (m : Mach) (c : Nat) (q : SeqId) (f : Seq → Seq) : (m.onSeq c q f).slices = m.slices := rfl
@[simp] theorem Mach.setCore_dieClock (m : Mach) (c : Nat) (k : Core) : (m.setCore c k).dieClock = m.dieClock := rfl
@[simp] theorem Mach.onCore_dieClock (m : Mach) (c : Nat) (f : Core → Core) : (m.onCore c f).dieClock = m.dieClock := rfl
@[simp] theorem Mach.onSeq_dieClock (m : Mach) (c : Nat) (q : SeqId) (f : Seq → Seq) : (m.onSeq c q f).dieClock = m.dieClock := rfl
@[simp] theorem Mach.setCore_regions (m : Mach) (c : Nat) (k : Core) : (m.setCore c k).regions = m.regions := rfl
@[simp] theorem Mach.onCore_regions (m : Mach) (c : Nat) (f : Core → Core) : (m.onCore c f).regions = m.regions := rfl
@[simp] theorem Mach.onSeq_regions (m : Mach) (c : Nat) (q : SeqId) (f : Seq → Seq) : (m.onSeq c q f).regions = m.regions := rfl
@[simp] theorem Mach.setCore_relMarks (m : Mach) (c : Nat) (k : Core) : (m.setCore c k).relMarks = m.relMarks := rfl
@[simp] theorem Mach.onCore_relMarks (m : Mach) (c : Nat) (f : Core → Core) : (m.onCore c f).relMarks = m.relMarks := rfl
@[simp] theorem Mach.onSeq_relMarks (m : Mach) (c : Nat) (q : SeqId) (f : Seq → Seq) : (m.onSeq c q f).relMarks = m.relMarks := rfl
@[simp] theorem Mach.setCore_seqs (m : Mach) (c : Nat) (k : Core) : (m.setCore c k).seqs = m.seqs := rfl
@[simp] theorem Mach.onCore_seqs (m : Mach) (c : Nat) (f : Core → Core) : (m.onCore c f).seqs = m.seqs := rfl
@[simp] theorem Mach.onSeq_seqs (m : Mach) (c : Nat) (q : SeqId) (f : Seq → Seq) : (m.onSeq c q f).seqs = m.seqs := rfl
@[simp] theorem Mach.setCore_pools (m : Mach) (c : Nat) (k : Core) : (m.setCore c k).pools = m.pools := rfl
@[simp] theorem Mach.onCore_pools (m : Mach) (c : Nat) (f : Core → Core) : (m.onCore c f).pools = m.pools := rfl
@[simp] theorem Mach.onSeq_pools (m : Mach) (c : Nat) (q : SeqId) (f : Seq → Seq) : (m.onSeq c q f).pools = m.pools := rfl
@[simp] theorem Mach.setCore_channels (m : Mach) (c : Nat) (k : Core) : (m.setCore c k).channels = m.channels := rfl
@[simp] theorem Mach.onCore_channels (m : Mach) (c : Nat) (f : Core → Core) : (m.onCore c f).channels = m.channels := rfl
@[simp] theorem Mach.onSeq_channels (m : Mach) (c : Nat) (q : SeqId) (f : Seq → Seq) : (m.onSeq c q f).channels = m.channels := rfl
@[simp] theorem Mach.setCore_waybills (m : Mach) (c : Nat) (k : Core) : (m.setCore c k).waybills = m.waybills := rfl
@[simp] theorem Mach.onCore_waybills (m : Mach) (c : Nat) (f : Core → Core) : (m.onCore c f).waybills = m.waybills := rfl
@[simp] theorem Mach.onSeq_waybills (m : Mach) (c : Nat) (q : SeqId) (f : Seq → Seq) : (m.onSeq c q f).waybills = m.waybills := rfl
@[simp] theorem Mach.setCore_levels (m : Mach) (c : Nat) (k : Core) : (m.setCore c k).levels = m.levels := rfl
@[simp] theorem Mach.onCore_levels (m : Mach) (c : Nat) (f : Core → Core) : (m.onCore c f).levels = m.levels := rfl
@[simp] theorem Mach.onSeq_levels (m : Mach) (c : Nat) (q : SeqId) (f : Seq → Seq) : (m.onSeq c q f).levels = m.levels := rfl
@[simp] theorem Mach.setCore_refused (m : Mach) (c : Nat) (k : Core) : (m.setCore c k).refused = m.refused := rfl
@[simp] theorem Mach.onCore_refused (m : Mach) (c : Nat) (f : Core → Core) : (m.onCore c f).refused = m.refused := rfl
@[simp] theorem Mach.onSeq_refused (m : Mach) (c : Nat) (q : SeqId) (f : Seq → Seq) : (m.onSeq c q f).refused = m.refused := rfl
@[simp] theorem Mach.setCore_malformed (m : Mach) (c : Nat) (k : Core) : (m.setCore c k).malformed = m.malformed := rfl
@[simp] theorem Mach.onCore_malformed (m : Mach) (c : Nat) (f : Core → Core) : (m.onCore c f).malformed = m.malformed := rfl
@[simp] theorem Mach.onSeq_malformed (m : Mach) (c : Nat) (q : SeqId) (f : Seq → Seq) : (m.onSeq c q f).malformed = m.malformed := rfl
@[simp] theorem Mach.setCore_saturation (m : Mach) (c : Nat) (k : Core) : (m.setCore c k).saturation = m.saturation := rfl
@[simp] theorem Mach.onCore_saturation (m : Mach) (c : Nat) (f : Core → Core) : (m.onCore c f).saturation = m.saturation := rfl
@[simp] theorem Mach.onSeq_saturation (m : Mach) (c : Nat) (q : SeqId) (f : Seq → Seq) : (m.onSeq c q f).saturation = m.saturation := rfl
@[simp] theorem Mach.setCore_requests (m : Mach) (c : Nat) (k : Core) : (m.setCore c k).requests = m.requests := rfl
@[simp] theorem Mach.onCore_requests (m : Mach) (c : Nat) (f : Core → Core) : (m.onCore c f).requests = m.requests := rfl
@[simp] theorem Mach.onSeq_requests (m : Mach) (c : Nat) (q : SeqId) (f : Seq → Seq) : (m.onSeq c q f).requests = m.requests := rfl
@[simp] theorem Mach.setCore_launches (m : Mach) (c : Nat) (k : Core) : (m.setCore c k).launches = m.launches := rfl
@[simp] theorem Mach.onCore_launches (m : Mach) (c : Nat) (f : Core → Core) : (m.onCore c f).launches = m.launches := rfl
@[simp] theorem Mach.onSeq_launches (m : Mach) (c : Nat) (q : SeqId) (f : Seq → Seq) : (m.onSeq c q f).launches = m.launches := rfl
@[simp] theorem Mach.setCore_streams (m : Mach) (c : Nat) (k : Core) : (m.setCore c k).streams = m.streams := rfl
@[simp] theorem Mach.onCore_streams (m : Mach) (c : Nat) (f : Core → Core) : (m.onCore c f).streams = m.streams := rfl
@[simp] theorem Mach.onSeq_streams (m : Mach) (c : Nat) (q : SeqId) (f : Seq → Seq) : (m.onSeq c q f).streams = m.streams := rfl
@[simp] theorem Mach.setCore_saved (m : Mach) (c : Nat) (k : Core) : (m.setCore c k).saved = m.saved := rfl
@[simp] theorem Mach.onCore_saved (m : Mach) (c : Nat) (f : Core → Core) : (m.onCore c f).saved = m.saved := rfl
@[simp] theorem Mach.onSeq_saved (m : Mach) (c : Nat) (q : SeqId) (f : Seq → Seq) : (m.onSeq c q f).saved = m.saved := rfl
@[simp] theorem Mach.setCore_banks (m : Mach) (c : Nat) (k : Core) : (m.setCore c k).banks = m.banks := rfl
@[simp] theorem Mach.onCore_banks (m : Mach) (c : Nat) (f : Core → Core) : (m.onCore c f).banks = m.banks := rfl
@[simp] theorem Mach.onSeq_banks (m : Mach) (c : Nat) (q : SeqId) (f : Seq → Seq) : (m.onSeq c q f).banks = m.banks := rfl
@[simp] theorem Mach.setCore_admitted (m : Mach) (c : Nat) (k : Core) : (m.setCore c k).admitted = m.admitted := rfl
@[simp] theorem Mach.onCore_admitted (m : Mach) (c : Nat) (f : Core → Core) : (m.onCore c f).admitted = m.admitted := rfl
@[simp] theorem Mach.onSeq_admitted (m : Mach) (c : Nat) (q : SeqId) (f : Seq → Seq) : (m.onSeq c q f).admitted = m.admitted := rfl
@[simp] theorem Mach.setCore_cycleErrs (m : Mach) (c : Nat) (k : Core) : (m.setCore c k).cycleErrs = m.cycleErrs := rfl
@[simp] theorem Mach.onCore_cycleErrs (m : Mach) (c : Nat) (f : Core → Core) : (m.onCore c f).cycleErrs = m.cycleErrs := rfl
@[simp] theorem Mach.onSeq_cycleErrs (m : Mach) (c : Nat) (q : SeqId) (f : Seq → Seq) : (m.onSeq c q f).cycleErrs = m.cycleErrs := rfl
@[simp] theorem Mach.setCore_links (m : Mach) (c : Nat) (k : Core) : (m.setCore c k).links = m.links := rfl
@[simp] theorem Mach.onCore_links (m : Mach) (c : Nat) (f : Core → Core) : (m.onCore c f).links = m.links := rfl
@[simp] theorem Mach.onSeq_links (m : Mach) (c : Nat) (q : SeqId) (f : Seq → Seq) : (m.onSeq c q f).links = m.links := rfl
@[simp] theorem Mach.setCore_notices (m : Mach) (c : Nat) (k : Core) : (m.setCore c k).notices = m.notices := rfl
@[simp] theorem Mach.onCore_notices (m : Mach) (c : Nat) (f : Core → Core) : (m.onCore c f).notices = m.notices := rfl
@[simp] theorem Mach.onSeq_notices (m : Mach) (c : Nat) (q : SeqId) (f : Seq → Seq) : (m.onSeq c q f).notices = m.notices := rfl
@[simp] theorem Mach.setCore_contexts (m : Mach) (c : Nat) (k : Core) : (m.setCore c k).contexts = m.contexts := rfl
@[simp] theorem Mach.onCore_contexts (m : Mach) (c : Nat) (f : Core → Core) : (m.onCore c f).contexts = m.contexts := rfl
@[simp] theorem Mach.onSeq_contexts (m : Mach) (c : Nat) (q : SeqId) (f : Seq → Seq) : (m.onSeq c q f).contexts = m.contexts := rfl
@[simp] theorem Mach.setCore_retiredPages (m : Mach) (c : Nat) (k : Core) : (m.setCore c k).retiredPages = m.retiredPages := rfl
@[simp] theorem Mach.onCore_retiredPages (m : Mach) (c : Nat) (f : Core → Core) : (m.onCore c f).retiredPages = m.retiredPages := rfl
@[simp] theorem Mach.onSeq_retiredPages (m : Mach) (c : Nat) (q : SeqId) (f : Seq → Seq) : (m.onSeq c q f).retiredPages = m.retiredPages := rfl
@[simp] theorem Mach.setCore_collectives (m : Mach) (c : Nat) (k : Core) : (m.setCore c k).collectives = m.collectives := rfl
@[simp] theorem Mach.onCore_collectives (m : Mach) (c : Nat) (f : Core → Core) : (m.onCore c f).collectives = m.collectives := rfl
@[simp] theorem Mach.onSeq_collectives (m : Mach) (c : Nat) (q : SeqId) (f : Seq → Seq) : (m.onSeq c q f).collectives = m.collectives := rfl
@[simp] theorem Mach.setCore_unreachable (m : Mach) (c : Nat) (k : Core) : (m.setCore c k).unreachable = m.unreachable := rfl
@[simp] theorem Mach.onCore_unreachable (m : Mach) (c : Nat) (f : Core → Core) : (m.onCore c f).unreachable = m.unreachable := rfl
@[simp] theorem Mach.onSeq_unreachable (m : Mach) (c : Nat) (q : SeqId) (f : Seq → Seq) : (m.onSeq c q f).unreachable = m.unreachable := rfl
@[simp] theorem Mach.setCore_remoteShares (m : Mach) (c : Nat) (k : Core) : (m.setCore c k).remoteShares = m.remoteShares := rfl
@[simp] theorem Mach.onCore_remoteShares (m : Mach) (c : Nat) (f : Core → Core) : (m.onCore c f).remoteShares = m.remoteShares := rfl
@[simp] theorem Mach.onSeq_remoteShares (m : Mach) (c : Nat) (q : SeqId) (f : Seq → Seq) : (m.onSeq c q f).remoteShares = m.remoteShares := rfl
@[simp] theorem Mach.setCore_inbox (m : Mach) (c : Nat) (k : Core) : (m.setCore c k).inbox = m.inbox := rfl
@[simp] theorem Mach.onCore_inbox (m : Mach) (c : Nat) (f : Core → Core) : (m.onCore c f).inbox = m.inbox := rfl
@[simp] theorem Mach.onSeq_inbox (m : Mach) (c : Nat) (q : SeqId) (f : Seq → Seq) : (m.onSeq c q f).inbox = m.inbox := rfl
@[simp] theorem Mach.setCore_outbox (m : Mach) (c : Nat) (k : Core) : (m.setCore c k).outbox = m.outbox := rfl
@[simp] theorem Mach.onCore_outbox (m : Mach) (c : Nat) (f : Core → Core) : (m.onCore c f).outbox = m.outbox := rfl
@[simp] theorem Mach.onSeq_outbox (m : Mach) (c : Nat) (q : SeqId) (f : Seq → Seq) : (m.onSeq c q f).outbox = m.outbox := rfl
@[simp] theorem Mach.setCore_free (m : Mach) (c : Nat) (k : Core) : (m.setCore c k).free = m.free := rfl
@[simp] theorem Mach.onCore_free (m : Mach) (c : Nat) (f : Core → Core) : (m.onCore c f).free = m.free := rfl
@[simp] theorem Mach.onSeq_free (m : Mach) (c : Nat) (q : SeqId) (f : Seq → Seq) : (m.onSeq c q f).free = m.free := rfl
@[simp] theorem Mach.setCore_ids (m : Mach) (c : Nat) (k : Core) : (m.setCore c k).ids = m.ids := rfl
@[simp] theorem Mach.onCore_ids (m : Mach) (c : Nat) (f : Core → Core) : (m.onCore c f).ids = m.ids := rfl
@[simp] theorem Mach.onSeq_ids (m : Mach) (c : Nat) (q : SeqId) (f : Seq → Seq) : (m.onSeq c q f).ids = m.ids := rfl

@[simp] theorem Core.onSeq_seq (k : Core) (q : SeqId) (f : Seq → Seq) : (k.onSeq q f).seq q = f (k.seq q) := by cases q <;> rfl
theorem Core.onSeq_seq_ne (k : Core) {q r : SeqId} (f : Seq → Seq) (h : r ≠ q) : (k.onSeq q f).seq r = k.seq r := by
  cases q <;> cases r <;> first | rfl | exact absurd rfl h
@[simp] theorem Core.onSeqs_seq (k : Core) (q : SeqId) (f : Seq → Seq) : (k.onSeqs f).seq q = f (k.seq q) := by cases q <;> rfl
@[simp] theorem Mach.onSeq_seq (m : Mach) (c : Nat) (q : SeqId) (f : Seq → Seq) : (m.onSeq c q f).seq c q = f (m.seq c q) := by
  simp [Mach.onSeq, Mach.seq]

@[simp] theorem Core.onSeq_group (k : Core) (q : SeqId) (f : Seq → Seq) : (k.onSeq q f).group = k.group := by cases q <;> rfl
@[simp] theorem Core.onSeq_vq (k : Core) (q : SeqId) (f : Seq → Seq) : (k.onSeq q f).vq = k.vq := by cases q <;> rfl
@[simp] theorem Core.onSeq_masks (k : Core) (q : SeqId) (f : Seq → Seq) : (k.onSeq q f).masks = k.masks := by cases q <;> rfl
@[simp] theorem Core.onSeq_local_ (k : Core) (q : SeqId) (f : Seq → Seq) : (k.onSeq q f).local_ = k.local_ := by cases q <;> rfl
@[simp] theorem Core.onSeq_localPoison (k : Core) (q : SeqId) (f : Seq → Seq) : (k.onSeq q f).localPoison = k.localPoison := by cases q <;> rfl
@[simp] theorem Core.onSeq_granules (k : Core) (q : SeqId) (f : Seq → Seq) : (k.onSeq q f).granules = k.granules := by cases q <;> rfl
@[simp] theorem Core.onSeq_lines (k : Core) (q : SeqId) (f : Seq → Seq) : (k.onSeq q f).lines = k.lines := by cases q <;> rfl
@[simp] theorem Core.onSeq_posted (k : Core) (q : SeqId) (f : Seq → Seq) : (k.onSeq q f).posted = k.posted := by cases q <;> rfl
@[simp] theorem Core.onSeq_later (k : Core) (q : SeqId) (f : Seq → Seq) : (k.onSeq q f).later = k.later := by cases q <;> rfl
@[simp] theorem Core.onSeq_ops (k : Core) (q : SeqId) (f : Seq → Seq) : (k.onSeq q f).ops = k.ops := by cases q <;> rfl
@[simp] theorem Core.onSeq_seed (k : Core) (q : SeqId) (f : Seq → Seq) : (k.onSeq q f).seed = k.seed := by cases q <;> rfl
@[simp] theorem Core.onSeq_step (k : Core) (q : SeqId) (f : Seq → Seq) : (k.onSeq q f).step = k.step := by cases q <;> rfl
@[simp] theorem Core.onSeq_objs (k : Core) (q : SeqId) (f : Seq → Seq) : (k.onSeq q f).objs = k.objs := by cases q <;> rfl
@[simp] theorem Core.onSeq_bindings (k : Core) (q : SeqId) (f : Seq → Seq) : (k.onSeq q f).bindings = k.bindings := by cases q <;> rfl
@[simp] theorem Core.onSeq_view (k : Core) (q : SeqId) (f : Seq → Seq) : (k.onSeq q f).view = k.view := by cases q <;> rfl
@[simp] theorem Core.onSeq_clause (k : Core) (q : SeqId) (f : Seq → Seq) : (k.onSeq q f).clause = k.clause := by cases q <;> rfl
@[simp] theorem Core.onSeq_aRows (k : Core) (q : SeqId) (f : Seq → Seq) : (k.onSeq q f).aRows = k.aRows := by cases q <;> rfl
@[simp] theorem Core.onSeq_column (k : Core) (q : SeqId) (f : Seq → Seq) : (k.onSeq q f).column = k.column := by cases q <;> rfl
@[simp] theorem Core.onSeq_cycles (k : Core) (q : SeqId) (f : Seq → Seq) : (k.onSeq q f).cycles = k.cycles := by cases q <;> rfl
@[simp] theorem Core.onSeq_freeze (k : Core) (q : SeqId) (f : Seq → Seq) : (k.onSeq q f).freeze = k.freeze := by cases q <;> rfl
@[simp] theorem Core.onSeq_replay (k : Core) (q : SeqId) (f : Seq → Seq) : (k.onSeq q f).replay = k.replay := by cases q <;> rfl
@[simp] theorem Core.onSeq_active (k : Core) (q : SeqId) (f : Seq → Seq) : (k.onSeq q f).active = k.active := by cases q <;> rfl
@[simp] theorem Core.onSeq_shadow (k : Core) (q : SeqId) (f : Seq → Seq) : (k.onSeq q f).shadow = k.shadow := by cases q <;> rfl
@[simp] theorem Core.onSeq_failed (k : Core) (q : SeqId) (f : Seq → Seq) : (k.onSeq q f).failed = k.failed := by cases q <;> rfl
@[simp] theorem Core.onSeq_ended (k : Core) (q : SeqId) (f : Seq → Seq) : (k.onSeq q f).ended = k.ended := by cases q <;> rfl

end Sys2Proof.Machine
end

