-- ==== Sys2Proof/Laws/Memory.lean ====
section
/-! SUPPORT. Memory: every operation keeps the canonical form, and what a byte reads as after each. -/

namespace Sys2Proof.Machine

/-! ### Canonical form -/

/-- The canonical form in two parts. -/
theorem Mem.wf_iff {m : Mem} : m.wf = true ↔ SMap.wf m = true ∧ ∀ p ∈ m, p.2 ≠ 0 := by
  simp [Mem.wf]

/-- Rising keys as a property of pairs of entries. -/
theorem SMap.wf_iff_pairwise {α : Type} {m : SMap α} : SMap.wf m = true ↔ m.Pairwise fun p q => p.1 < q.1 := by
  induction m with
  | nil => simp [SMap.wf]
  | cons p r ih =>
    obtain ⟨a, x⟩ := p
    rw [SMap.wf_cons, List.pairwise_cons, ih]

/-- An entry of a table whose keys rise is what its key reads. -/
theorem SMap.get?_of_mem {α : Type} {m : SMap α} (h : SMap.wf m = true) {k : Nat} {x : α} (hx : (k, x) ∈ m) :
    SMap.get? m k = some x := by
  induction m with
  | nil => simp at hx
  | cons p r ih =>
    obtain ⟨b, y⟩ := p
    have hc := SMap.wf_cons.1 h
    rcases List.mem_cons.1 hx with hx | hx
    · cases hx; simp [SMap.get?]
    · have := hc.1 _ hx
      simp only at this
      have h1 : ¬k = b := by omega
      have h2 : ¬k < b := by omega
      simp [SMap.get?, h1, h2, ih hc.2 hx]

/-- What a key reads is an entry. -/
theorem SMap.mem_of_get? {α : Type} {m : SMap α} {k : Nat} {x : α} (h : SMap.get? m k = some x) : (k, x) ∈ m := by
  induction m with
  | nil => simp at h
  | cons p r ih =>
    obtain ⟨b, y⟩ := p
    simp only [SMap.get?] at h
    split at h
    · cases h; subst_vars; simp
    · split at h
      · cases h
      · simp [ih h]

/-- A key without an entry reads nothing. -/
theorem SMap.get?_none {α : Type} {m : SMap α} {k : Nat} (h : ∀ x, (k, x) ∉ m) : SMap.get? m k = none := by
  cases hg : SMap.get? m k with
  | none => rfl
  | some x => exact absurd (SMap.mem_of_get? hg) (h x)

/-- Two tables whose keys rise and that hold the same entry at a key read alike there. -/
theorem SMap.getD_congr {α : Type} {m n : SMap α} (hm : SMap.wf m = true) (hn : SMap.wf n = true) {j k : Nat} {d : α}
    (h : ∀ x, (j, x) ∈ m ↔ (k, x) ∈ n) : SMap.getD m j d = SMap.getD n k d := by
  unfold SMap.getD
  congr 1
  cases hg : SMap.get? n k with
  | some x => exact SMap.get?_of_mem hm ((h x).2 (SMap.mem_of_get? hg))
  | none =>
    refine SMap.get?_none fun x hx => ?_
    rw [SMap.get?_of_mem hn ((h x).1 hx)] at hg
    cases hg

/-- An image placed at a base has rising keys when it has. -/
theorem Mem.placed_mem {base len : Nat} {img : Mem} {p : Nat × Byte} :
    p ∈ Mem.placed base len img ↔ ∃ k, (k, p.2) ∈ img ∧ k < len ∧ p.2 ≠ 0 ∧ p.1 = base + k := by
  obtain ⟨a, x⟩ := p
  simp only [Mem.placed, List.mem_filterMap]
  constructor
  · rintro ⟨⟨k, y⟩, hm, h⟩
    split at h
    · cases h; exact ⟨k, hm, by tauto, by tauto, rfl⟩
    · cases h
  · rintro ⟨k, hm, hl, hx, rfl⟩
    exact ⟨(k, x), hm, if_pos ⟨hl, hx⟩⟩

/-- The entries of a memory before a base, kept by taking while below it. -/
theorem Mem.mem_before {m : Mem} (h : SMap.wf m = true) {base : Nat} {p : Nat × Byte} :
    p ∈ m.takeWhile (fun p => decide (p.1 < base)) ↔ p ∈ m ∧ p.1 < base := by
  induction m with
  | nil => simp
  | cons q r ih =>
    have hc := SMap.wf_cons.1 h
    simp only [List.takeWhile_cons]
    split
    · rename_i hq
      simp only [List.mem_cons, ih hc.2]
      constructor
      · rintro (rfl | h)
        · exact ⟨.inl rfl, by simpa using hq⟩
        · exact ⟨.inr h.1, h.2⟩
      · rintro ⟨rfl | h, hb⟩
        · exact .inl rfl
        · exact .inr ⟨h, hb⟩
    · rename_i hq
      simp only [decide_eq_true_eq, not_lt] at hq
      simp only [List.not_mem_nil, false_iff, List.mem_cons, not_and, not_lt]
      rintro (rfl | h)
      · exact hq
      · exact le_trans hq (le_of_lt (hc.1 _ h))

/-- The entries of a memory from a bound on, kept by dropping while below it. -/
theorem Mem.mem_from {m : Mem} (h : SMap.wf m = true) {bound : Nat} {p : Nat × Byte} :
    p ∈ m.dropWhile (fun p => decide (p.1 < bound)) ↔ p ∈ m ∧ bound ≤ p.1 := by
  induction m with
  | nil => simp
  | cons q r ih =>
    have hc := SMap.wf_cons.1 h
    simp only [List.dropWhile_cons]
    split
    · rename_i hq
      simp only [decide_eq_true_eq] at hq
      rw [ih hc.2]
      constructor
      · rintro ⟨h, hb⟩; exact ⟨List.mem_cons_of_mem _ h, hb⟩
      · rintro ⟨h, hb⟩
        rcases List.mem_cons.1 h with rfl | h
        · omega
        · exact ⟨h, hb⟩
    · rename_i hq
      simp only [decide_eq_true_eq, not_lt] at hq
      constructor
      · intro hp
        refine ⟨hp, ?_⟩
        rcases List.mem_cons.1 hp with rfl | hp
        · exact hq
        · exact le_trans hq (le_of_lt (hc.1 _ hp))
      · exact fun h => h.1

/-- The entries of a memory after a write. -/
theorem Mem.mem_paste {m img : Mem} (h : SMap.wf m = true) {base len : Nat} {p : Nat × Byte} :
    p ∈ m.paste base len img ↔
      (p ∈ m ∧ p.1 < base) ∨ (∃ k, (k, p.2) ∈ img ∧ k < len ∧ p.2 ≠ 0 ∧ p.1 = base + k) ∨ (p ∈ m ∧ base + len ≤ p.1) := by
  rw [Mem.paste, List.mem_append, List.mem_append, Mem.mem_before h, Mem.placed_mem, Mem.mem_from h, or_assoc]

/-- A write keeps the keys rising. -/
theorem Mem.paste_rising {m img : Mem} (h : SMap.wf m = true) (hi : SMap.wf img = true) (base len : Nat) :
    SMap.wf (m.paste base len img) = true := by
  rw [SMap.wf_iff_pairwise] at *
  rw [Mem.paste, List.pairwise_append, List.pairwise_append]
  have hw := SMap.wf_iff_pairwise.2 h
  refine ⟨⟨h.sublist (List.takeWhile_sublist _), ?_, ?_⟩, h.sublist (List.dropWhile_sublist _), ?_⟩
  · unfold Mem.placed
    refine List.pairwise_filterMap.2 (hi.imp fun {p q} hpq => ?_)
    intro x hx y hy
    split at hx <;> split at hy <;> simp_all
    subst hx; subst hy; simpa using hpq
  · intro p hp q hq
    have := (Mem.mem_before hw).1 hp
    obtain ⟨k, -, -, -, hk⟩ := Mem.placed_mem.1 hq
    omega
  · intro p hp q hq
    have hq := (Mem.mem_from hw).1 hq
    rcases List.mem_append.1 hp with hp | hp
    · have := (Mem.mem_before hw).1 hp; omega
    · obtain ⟨k, -, hk, -, hp⟩ := Mem.placed_mem.1 hp; omega

/-- A write of an image whose keys rise keeps the canonical form. -/
theorem Mem.paste_wf {m img : Mem} (h : m.wf = true) (hi : SMap.wf img = true) (base len : Nat) :
    (m.paste base len img).wf = true := by
  obtain ⟨hr, hz⟩ := Mem.wf_iff.1 h
  refine Mem.wf_iff.2 ⟨Mem.paste_rising hr hi base len, fun p hp => ?_⟩
  rcases (Mem.mem_paste hr).1 hp with h | ⟨k, -, -, h, -⟩ | h
  · exact hz p h.1
  · exact h
  · exact hz p h.1

/-- The image of bytes lists the bytes that are not 0, at their places. -/
theorem Mem.mem_ofBytesAt {l : List Byte} {a : Nat} {p : Nat × Byte} :
    p ∈ Mem.ofBytesAt a l ↔ a ≤ p.1 ∧ p.1 < a + l.length ∧ l.getD (p.1 - a) 0 = p.2 ∧ p.2 ≠ 0 := by
  induction l generalizing a with
  | nil => simp [Mem.ofBytesAt]; omega
  | cons b r ih =>
    obtain ⟨k, x⟩ := p
    have hstep : ((k, x) ∈ Mem.ofBytesAt (a + 1) r) ↔ a + 1 ≤ k ∧ k < a + (b :: r).length ∧ (b :: r).getD (k - a) 0 = x ∧ x ≠ 0 := by
      rw [ih]
      constructor
      · rintro ⟨h1, h2, h3, h4⟩
        refine ⟨h1, by simp at *; omega, ?_, h4⟩
        have : k - a = (k - (a + 1)) + 1 := by omega
        rw [this, List.getD_cons_succ]; exact h3
      · rintro ⟨h1, h2, h3, h4⟩
        refine ⟨h1, by simp at *; omega, ?_, h4⟩
        have : k - a = (k - (a + 1)) + 1 := by omega
        rw [this, List.getD_cons_succ] at h3; exact h3
    simp only [Mem.ofBytesAt]
    split
    · rename_i hb
      rw [hstep]
      constructor
      · rintro ⟨h1, h⟩; exact ⟨by omega, h⟩
      · rintro ⟨h1, h2, h3, h4⟩
        refine ⟨?_, h2, h3, h4⟩
        rcases Nat.lt_or_eq_of_le h1 with h | h
        · exact h
        · exfalso; apply h4
          subst h; rw [Nat.sub_self, List.getD_cons_zero] at h3; rw [← h3, hb]
    · rename_i hb
      rw [List.mem_cons, hstep]
      constructor
      · rintro (h | ⟨h1, h⟩)
        · cases h; exact ⟨le_refl _, by simp, by simp, hb⟩
        · exact ⟨by omega, h⟩
      · rintro ⟨h1, h2, h3, h4⟩
        rcases Nat.lt_or_eq_of_le h1 with h | h
        · exact .inr ⟨h, h2, h3, h4⟩
        · left
          subst h; rw [Nat.sub_self, List.getD_cons_zero] at h3; rw [← h3]

/-- The image of bytes is in canonical form. -/
theorem Mem.ofBytesAt_wf (a : Nat) (l : List Byte) : (Mem.ofBytesAt a l).wf = true := by
  refine Mem.wf_iff.2 ⟨?_, fun p hp => (Mem.mem_ofBytesAt.1 hp).2.2.2⟩
  induction l generalizing a with
  | nil => rfl
  | cons b r ih =>
    simp only [Mem.ofBytesAt]
    split
    · exact ih (a + 1)
    · exact SMap.wf_cons.2 ⟨fun p hp => by have := (Mem.mem_ofBytesAt.1 hp).1; omega, ih (a + 1)⟩

/-- The image of bytes from offset 0 is in canonical form. -/
theorem Mem.ofBytes_wf (l : List Byte) : (Mem.ofBytes l).wf = true := Mem.ofBytesAt_wf 0 l

/-- A write of bytes keeps the canonical form. -/
theorem Mem.write_wf {m : Mem} (h : m.wf = true) (a : Nat) (l : List Byte) : (m.write a l).wf = true :=
  Mem.paste_wf h (Mem.wf_iff.1 (Mem.ofBytes_wf l)).1 a l.length

/-- Clearing a range keeps the canonical form. -/
theorem Mem.zero_wf {m : Mem} (h : m.wf = true) (a n : Nat) : (m.zero a n).wf = true := Mem.paste_wf h rfl a n

/-- The entries of a slice. -/
theorem Mem.mem_slice {m : Mem} (h : SMap.wf m = true) {base len : Nat} {p : Nat × Byte} :
    p ∈ m.slice base len ↔ (base + p.1, p.2) ∈ m ∧ p.1 < len := by
  obtain ⟨a, x⟩ := p
  have hd : SMap.wf (m.dropWhile fun p => decide (p.1 < base)) = true := by
    rw [SMap.wf_iff_pairwise] at *; exact h.sublist (List.dropWhile_sublist _)
  simp only [Mem.slice, List.mem_map]
  constructor
  · rintro ⟨⟨k, y⟩, hk, he⟩
    cases he
    have h1 := (Mem.mem_before hd).1 hk
    have h2 := (Mem.mem_from h).1 h1.1
    have : base + (k - base) = k := by have := h2.2; simp only at this; omega
    exact ⟨by rw [this]; exact h2.1, by have := h1.2; simp only at this ⊢; have := h2.2; simp only at this; omega⟩
  · rintro ⟨hm, hl⟩
    refine ⟨(base + a, x), (Mem.mem_before hd).2 ⟨(Mem.mem_from h).2 ⟨hm, by simp⟩, by simp only at hl ⊢; omega⟩, ?_⟩
    simp

/-- A slice of a memory in canonical form is in canonical form. -/
theorem Mem.slice_wf {m : Mem} (h : m.wf = true) (base len : Nat) : (m.slice base len).wf = true := by
  obtain ⟨hr, hz⟩ := Mem.wf_iff.1 h
  refine Mem.wf_iff.2 ⟨?_, fun p hp => hz (base + p.1, p.2) ((Mem.mem_slice hr).1 hp).1⟩
  have hd : (m.dropWhile fun p => decide (p.1 < base)).Pairwise fun p q => p.1 < q.1 :=
    (SMap.wf_iff_pairwise.1 hr).sublist (List.dropWhile_sublist _)
  rw [SMap.wf_iff_pairwise, Mem.slice]
  refine List.pairwise_map.2 ((hd.sublist (List.takeWhile_sublist _)).imp_of_mem fun {p q} hp hq hpq => ?_)
  have h1 := ((Mem.mem_from hr).1 ((List.takeWhile_sublist _).subset hp)).2
  simp only
  omega

/-! ### What a byte reads as -/

/-- A byte after a write of an image. -/
theorem Mem.get_paste {m img : Mem} (h : SMap.wf m = true) (hi : SMap.wf img = true) (base len a : Nat) :
    Mem.get (m.paste base len img) a =
      if base ≤ a ∧ a < base + len then Mem.get img (a - base) else Mem.get m a := by
  have hp := Mem.paste_rising h hi base len
  split
  · rename_i ha
    cases hg : SMap.get? img (a - base) with
    | none =>
      have hn : SMap.get? (m.paste base len img) a = none := by
        refine SMap.get?_none fun x hx => ?_
        rcases (Mem.mem_paste h).1 hx with h | ⟨k, hk, -, -, e⟩ | h
        · have := h.2; simp only at this; omega
        · simp only at e hk
          have : a - base = k := by omega
          rw [this, SMap.get?_of_mem hi hk] at hg; cases hg
        · have := h.2; simp only at this; omega
      simp [Mem.get, SMap.getD, hn, hg]
    | some x =>
      have hm := SMap.mem_of_get? hg
      by_cases hx : x = 0
      · have hn : SMap.get? (m.paste base len img) a = none := by
          refine SMap.get?_none fun y hy => ?_
          rcases (Mem.mem_paste h).1 hy with h | ⟨k, hk, -, hz, e⟩ | h
          · have := h.2; simp only at this; omega
          · simp only at e hk hz
            have e : a - base = k := by omega
            rw [e, SMap.get?_of_mem hi hk] at hg; cases hg; exact hz hx
          · have := h.2; simp only at this; omega
        simp [Mem.get, SMap.getD, hn, hg, hx]
      · have : SMap.get? (m.paste base len img) a = some x := by
          refine SMap.get?_of_mem hp ((Mem.mem_paste h).2 (.inr (.inl ⟨a - base, hm, ?_, hx, ?_⟩)))
          · omega
          · simp only; omega
        simp [Mem.get, SMap.getD, this, hg]
  · rename_i ha
    refine SMap.getD_congr hp h fun x => ?_
    rw [Mem.mem_paste h]
    constructor
    · rintro (h | ⟨k, -, hk, -, e⟩ | h)
      · exact h.1
      · simp only at e; omega
      · exact h.1
    · intro hx
      by_cases hb : a < base
      · exact .inl ⟨hx, hb⟩
      · exact .inr (.inr ⟨hx, by simp only; omega⟩)

/-- A byte of the image of bytes. -/
theorem Mem.get_ofBytes (l : List Byte) (k : Nat) : Mem.get (Mem.ofBytes l) k = l.getD k 0 := by
  have hw := (Mem.wf_iff.1 (Mem.ofBytes_wf l)).1
  by_cases h : k < l.length ∧ l.getD k 0 ≠ 0
  · have : SMap.get? (Mem.ofBytes l) k = some (l.getD k 0) :=
      SMap.get?_of_mem hw (Mem.mem_ofBytesAt.2 ⟨by simp, by simpa using h.1, by simp, h.2⟩)
    simp [Mem.get, SMap.getD, this]
  · have hn : SMap.get? (Mem.ofBytes l) k = none := by
      refine SMap.get?_none fun x hx => h ?_
      obtain ⟨-, h2, h3, h4⟩ := Mem.mem_ofBytesAt.1 hx
      simp only [Nat.zero_add, Nat.sub_zero] at h2 h3
      exact ⟨h2, h3 ▸ h4⟩
    have : l.getD k 0 = 0 := by
      by_cases hk : k < l.length
      · by_contra hz; exact h ⟨hk, hz⟩
      · exact List.getD_eq_default _ _ (by omega)
    simp only [Mem.get, SMap.getD, hn, this]; rfl

/-- A byte after a write of bytes. -/
theorem Mem.get_write {m : Mem} (h : SMap.wf m = true) (a : Nat) (l : List Byte) (b : Nat) :
    Mem.get (m.write a l) b = if a ≤ b ∧ b < a + l.length then l.getD (b - a) 0 else Mem.get m b := by
  rw [Mem.write, Mem.get_paste h (Mem.wf_iff.1 (Mem.ofBytes_wf l)).1]
  simp only [Mem.get_ofBytes]

/-- A byte after a range is cleared. -/
theorem Mem.get_zero {m : Mem} (h : SMap.wf m = true) (a n b : Nat) :
    Mem.get (m.zero a n) b = if a ≤ b ∧ b < a + n then 0 else Mem.get m b := by
  rw [Mem.zero, Mem.get_paste h rfl]
  rfl

/-- A byte of a slice. -/
theorem Mem.get_slice {m : Mem} (h : m.wf = true) (base len k : Nat) :
    Mem.get (m.slice base len) k = if k < len then Mem.get m (base + k) else 0 := by
  have hr := (Mem.wf_iff.1 h).1
  have hs := (Mem.wf_iff.1 (Mem.slice_wf h base len)).1
  split
  · rename_i hk
    refine SMap.getD_congr hs hr fun x => ?_
    rw [Mem.mem_slice hr]
    exact and_iff_left hk
  · rename_i hk
    have : SMap.get? (m.slice base len) k = none := by
      refine SMap.get?_none fun x hx => hk ((Mem.mem_slice hr).1 hx).2
    simp [Mem.get, SMap.getD, this]

/-! ### At reset -/

/-- Every memory of the machine after reset is in canonical form, as is an empty core's. -/
theorem reset_memories_wf :
    State.reset.mach.global.wf = true ∧ State.reset.mach.dram.wf = true ∧ State.reset.mach.host.wf = true ∧
      Core.reset.local_.wf = true := by decide

end Sys2Proof.Machine
end

