-- ==== Sys2Proof/Laws/Ops.lean ====
section
/-! SUPPORT. What the shared operations can do: tokens, operands, results, going on and traps. -/

namespace Sys2Proof.Machine

/-! ### Tokens (R34, R75, R76) -/

/-- A sequencer with its token queues emptied: what token operations leave alone. -/
def Seq.calm (s : Seq) : Seq := { s with inUp := .empty, inDown := .empty }
/-- A core with all its token queues emptied. -/
def Core.calm (k : Core) : Core := k.onSeqs Seq.calm

theorem Core.onSeq_calm (k : Core) (q : SeqId) (f : Seq → Seq) (h : (f (k.seq q)).calm = (k.seq q).calm) :
    (k.onSeq q f).calm = k.calm := by
  cases q <;> simp only [Core.seq] at h <;> simp [Core.onSeq, Core.calm, Core.onSeqs, h]

theorem Core.tokPop_calm (k : Core) (q : SeqId) (down : Bool) (n : Nat) :
    (k.onSeq q fun s => s.tokPop down n).calm = k.calm :=
  Core.onSeq_calm k q _ (by cases down <;> rfl)

theorem Core.onPushQ_calm (k : Core) (q : SeqId) (up : Bool) (f : TokQ → TokQ) : (k.onPushQ q up f).calm = k.calm := by
  unfold Core.onPushQ
  split
  · rfl
  · split <;> exact Core.onSeq_calm k _ _ rfl

theorem Core.tokReserve_calm (k : Core) (q : SeqId) (up : Bool) (n : Nat) : (k.tokReserve q up n).calm = k.calm :=
  Core.onPushQ_calm k q up _
theorem Core.tokPost_calm (k : Core) (q : SeqId) (up : Bool) (n : Nat) : (k.tokPost q up n).calm = k.calm :=
  Core.onPushQ_calm k q up _
theorem Core.postTokens_calm (k : Core) (q : SeqId) (pu pd : Bool) : (k.postTokens q pu pd).calm = k.calm := by
  cases pu <;> cases pd <;> simp [Core.postTokens, Core.tokPost_calm]

/-- Check 6 of R47 changes nothing but token queues of its own core. -/
theorem Env.tokens_ok {e : Env} {m m' : Mach} (h : e.tokens m = .ok m') :
    m' = m.setCore e.c (m'.core e.c) ∧ (m'.core e.c).calm = (m.core e.c).calm := by
  simp only [Env.tokens] at h
  split at h
  · cases h
  · injection h with h
    subst h
    refine ⟨by simp, ?_⟩
    simp only [Mach.setCore_core]
    cases e.tok.wu <;> cases e.tok.wd <;> cases e.tok.pu <;> cases e.tok.pd <;>
      simp [Core.tokPop_calm, Core.tokReserve_calm]

/-- Posting the tokens of a finished instruction changes nothing but token queues of its own core. -/
theorem Env.finishNow_calm (e : Env) (m : Mach) : ((e.finishNow m).core e.c).calm = (m.core e.c).calm := by
  simp [Env.finishNow, Core.postTokens_calm]

/-- What two cores that differ only in token queues have in common, sequencer by sequencer. -/
theorem Core.calm_seq (k : Core) (q : SeqId) : k.calm.seq q = (k.seq q).calm := by cases q <;> rfl

theorem Seq.calm_pc (s : Seq) : s.calm.pc = s.pc := rfl

/-- A field of a sequencer that is no token queue is the same in cores that differ only in token queues. -/
theorem Core.seq_of_calm {k k' : Core} (h : k'.calm = k.calm) (q : SeqId) : (k'.seq q).calm = (k.seq q).calm := by
  rw [← Core.calm_seq, ← Core.calm_seq, h]

theorem pc_of_calm {k k' : Core} (h : k'.calm = k.calm) (q : SeqId) : (k'.seq q).pc = (k.seq q).pc := by
  have := congrArg Seq.pc (Core.seq_of_calm h q); exact this
theorem stack_of_calm {k k' : Core} (h : k'.calm = k.calm) (q : SeqId) : (k'.seq q).stack = (k.seq q).stack := by
  have := congrArg Seq.stack (Core.seq_of_calm h q); exact this
theorem loops_of_calm {k k' : Core} (h : k'.calm = k.calm) (q : SeqId) : (k'.seq q).loops = (k.seq q).loops := by
  have := congrArg Seq.loops (Core.seq_of_calm h q); exact this
theorem xq_of_calm {k k' : Core} (h : k'.calm = k.calm) (q : SeqId) : (k'.seq q).xq = (k.seq q).xq := by
  have := congrArg Seq.xq (Core.seq_of_calm h q); exact this
theorem status_of_calm {k k' : Core} (h : k'.calm = k.calm) (q : SeqId) : (k'.seq q).status = (k.seq q).status := by
  have := congrArg Seq.status (Core.seq_of_calm h q); exact this
theorem clock_of_calm {k k' : Core} (h : k'.calm = k.calm) (q : SeqId) : (k'.seq q).clock = (k.seq q).clock := by
  have := congrArg Seq.clock (Core.seq_of_calm h q); exact this
theorem vq_of_calm {k k' : Core} (h : k'.calm = k.calm) : k'.vq = k.vq := by
  have := congrArg (fun k : Core => k.vq) h; exact this
theorem group_of_calm {k k' : Core} (h : k'.calm = k.calm) : k'.group = k.group := by
  have := congrArg (fun k : Core => k.group) h; exact this
theorem clause_of_calm {k k' : Core} (h : k'.calm = k.calm) : k'.clause = k.clause := by
  have := congrArg (fun k : Core => k.clause) h; exact this
theorem local_of_calm {k k' : Core} (h : k'.calm = k.calm) : k'.local_ = k.local_ := by
  have := congrArg (fun k : Core => k.local_) h; exact this

/-! ### Operands (R40 to R43, R66) -/

/-- Reading a scalar source leaves the machine, or pops the head of its queue. -/
theorem Env.src_ok {e : Env} {m m' : Mach} {a : Src} {v : Word} (h : e.src m a = .ok (v, m')) :
    m' = m ∨ ∃ n, a = .pop n ∧ m' = m.onCore e.c fun k => k.popX e.q n := by
  cases a with
  | pop n =>
    simp only [Env.src] at h
    cases hv : (m.core e.c).headX e.q n with
    | error x => rw [hv] at h; cases h
    | ok w =>
      rw [hv] at h
      injection h with h
      injection h with _ h
      exact .inr ⟨n, rfl, h.symm⟩
  | peek n =>
    simp only [Env.src] at h
    cases hv : (m.core e.c).headX e.q n with
    | error x => rw [hv] at h; cases h
    | ok w =>
      rw [hv] at h
      injection h with h
      injection h with _ h
      exact .inl h.symm
  | lane => cases h
  | _ =>
    injection h with h
    injection h with _ h
    exact .inl h.symm

end Sys2Proof.Machine
end

