-- ==== Sys2Proof/Laws/PerInstr.lean ====
section
/-! SUPPORT. One lemma per constructor for each family of statements about instructions. RoundTrip: the words of a well-formed
instruction, with any words after them, decode to it and leave those words. -/

namespace Sys2Proof.Laws.RoundTrip

set_option Elab.async false
set_option linter.unusedSimpArgs false

/-- The words of i, followed by any words, decode to i and leave the words after it. -/
def Statement (i : Instr) : Prop := i.wf = true → ∀ rest : List IWord, decodeWords (encode i ++ rest) = .ok (i, rest)

/-- The words of an instruction that has an encoding. -/
theorem encode_eq {i : Instr} {e : Encoding} (h : i.encoding = some e) : encode i = e.words := by
  unfold encode
  split
  · cases h
  · rw [h]

/-- An instruction with an encoding decodes as the parts of its encoding do. -/
theorem statement_of {i : Instr} {e : Encoding} (h : i.encoding = some e)
    (hd : i.wf = true → ∀ rest, decBody (e.op.extractLsb' 4 3).toNat (e.op.extractLsb' 0 4).toNat e.tok e.body (e.lits ++ rest) =
      .ok (i, rest)) : Statement i := by
  intro hw rest
  rw [encode_eq h, decodeWords_words, hd hw rest]

theorem nop (t : Tok) : Statement (.nop t) :=
  statement_of rfl fun h rest => by simp_all [decCtl, decBody, Instr.wf, bind, Except.bind, pure, Except.pure]
theorem brcNz (t : Tok) (q : BitVec 4) (p : BitVec 16) : Statement (.brcNz t q p) :=
  statement_of rfl fun h rest => by simp_all [decCtl, decBody, Instr.wf, bind, Except.bind, pure, Except.pure]
theorem brcZ (t : Tok) (q : BitVec 4) (p : BitVec 16) : Statement (.brcZ t q p) :=
  statement_of rfl fun h rest => by simp_all [decCtl, decBody, Instr.wf, bind, Except.bind, pure, Except.pure]
theorem jmp (t : Tok) (p : BitVec 16) : Statement (.jmp t p) :=
  statement_of rfl fun h rest => by simp_all [decCtl, decBody, Instr.wf, bind, Except.bind, pure, Except.pure]
theorem call (t : Tok) (q : BitVec 4) (p : BitVec 16) : Statement (.call t q p) :=
  statement_of rfl fun h rest => by simp_all [decCtl, decBody, Instr.wf, bind, Except.bind, pure, Except.pure]
theorem ret (t : Tok) (a : Src) : Statement (.ret t a) :=
  statement_of rfl fun h rest => by simp_all [decCtl, decBody, Instr.wf, bind, Except.bind, pure, Except.pure]
theorem loop (t : Tok) (k : BitVec 3) (p : BitVec 16) : Statement (.loop t k p) :=
  statement_of rfl fun h rest => by simp_all [decCtl, decBody, Instr.wf, bind, Except.bind, pure, Except.pure]
theorem lbrk (t : Tok) (a : Src) (n : BitVec 3) : Statement (.lbrk t a n) :=
  statement_of rfl fun h rest => by simp_all [decCtl, decBody, Instr.wf, bind, Except.bind, pure, Except.pure]
theorem tkw (t : Tok) (a : Src) (chk down : Bool) : Statement (.tkw t a chk down) :=
  statement_of rfl fun h rest => by simp_all [decCtl, decBody, Instr.wf, bind, Except.bind, pure, Except.pure]
theorem tks (t : Tok) (a : Src) (down : Bool) : Statement (.tks t a down) :=
  statement_of rfl fun h rest => by simp_all [decCtl, decBody, Instr.wf, bind, Except.bind, pure, Except.pure]
theorem qopCnt (t : Tok) (d : Dst) (q : QSel) : Statement (.qopCnt t d q) :=
  statement_of rfl fun h rest => by simp_all [decCtl, decBody, Instr.wf, bind, Except.bind, pure, Except.pure]
theorem qopDrop (t : Tok) (q : QSel) : Statement (.qopDrop t q) :=
  statement_of rfl fun h rest => by simp_all [decCtl, decBody, Instr.wf, bind, Except.bind, pure, Except.pure]
theorem qopClr (t : Tok) (q : QSel) : Statement (.qopClr t q) :=
  statement_of rfl fun h rest => by simp_all [decCtl, decBody, Instr.wf, bind, Except.bind, pure, Except.pure]
theorem qopTcnt (t : Tok) (d : Dst) (down : Bool) : Statement (.qopTcnt t d down) :=
  statement_of rfl fun h rest => by simp_all [decCtl, decBody, Instr.wf, bind, Except.bind, pure, Except.pure]
theorem lmov (t : Tok) (d : Dst) (f : LmovOp) (a : Src) : Statement (.lmov t d f a) := by
  refine statement_of rfl fun h rest => ?_
  cases f <;> simp_all [decCtl, decBody, Instr.wf, bind, Except.bind, pure, Except.pure, BitsOp.usesB, Src.isNone, BfreOp.code]
theorem clh (t : Tok) (a : Src) (abs : Bool) : Statement (.clh t a abs) :=
  statement_of rfl fun h rest => by simp_all [decCtl, decBody, Instr.wf, bind, Except.bind, pure, Except.pure]
theorem yield (t : Tok) : Statement (.yield t) :=
  statement_of rfl fun h rest => by simp_all [decCtl, decBody, Instr.wf, bind, Except.bind, pure, Except.pure]
theorem exit (t : Tok) : Statement (.exit t) :=
  statement_of rfl fun h rest => by simp_all [decCtl, decBody, Instr.wf, bind, Except.bind, pure, Except.pure]
theorem sleep (t : Tok) (a : Src) : Statement (.sleep t a) :=
  statement_of rfl fun h rest => by simp_all [decCtl, decBody, Instr.wf, bind, Except.bind, pure, Except.pure]
theorem add (t : Tok) (d : Dst) (m : SatMode) (w : Bool) (a b : Src) : Statement (.add t d m w a b) :=
  statement_of rfl fun h rest => by simp_all [decInt, decBody, Instr.wf, bind, Except.bind, pure, Except.pure]
theorem sub (t : Tok) (d : Dst) (m : SatMode) (w : Bool) (a b : Src) : Statement (.sub t d m w a b) :=
  statement_of rfl fun h rest => by simp_all [decInt, decBody, Instr.wf, bind, Except.bind, pure, Except.pure]
theorem mul (t : Tok) (d : Dst) (f : MulForm) (a b : Src) : Statement (.mul t d f a b) :=
  statement_of rfl fun h rest => by simp_all [decInt, decBody, Instr.wf, bind, Except.bind, pure, Except.pure]
theorem div (t : Tok) (d : Dst) (f : DivForm) (w : Bool) (a b : Src) : Statement (.div t d f w a b) :=
  statement_of rfl fun h rest => by simp_all [decInt, decBody, Instr.wf, bind, Except.bind, pure, Except.pure]
theorem and (t : Tok) (d : Dst) (n : Bool) (a b : Src) : Statement (.and t d n a b) :=
  statement_of rfl fun h rest => by simp_all [decInt, decBody, Instr.wf, bind, Except.bind, pure, Except.pure]
theorem or (t : Tok) (d : Dst) (n : Bool) (a b : Src) : Statement (.or t d n a b) :=
  statement_of rfl fun h rest => by simp_all [decInt, decBody, Instr.wf, bind, Except.bind, pure, Except.pure]
theorem xor (t : Tok) (d : Dst) (n : Bool) (a b : Src) : Statement (.xor t d n a b) :=
  statement_of rfl fun h rest => by simp_all [decInt, decBody, Instr.wf, bind, Except.bind, pure, Except.pure]
theorem shf (t : Tok) (d : Dst) (f : ShiftOp) (w : Bool) (a b : Src) : Statement (.shf t d f w a b) :=
  statement_of rfl fun h rest => by simp_all [decInt, decBody, Instr.wf, bind, Except.bind, pure, Except.pure]
theorem cmp (t : Tok) (d : Dst) (f : CmpOp) (w : Bool) (a b : Src) : Statement (.cmp t d f w a b) :=
  statement_of rfl fun h rest => by simp_all [decInt, decBody, Instr.wf, bind, Except.bind, pure, Except.pure]
theorem sel (t : Tok) (d : Dst) (z : Bool) (q : BitVec 3) (a b : Src) : Statement (.sel t d z q a b) :=
  statement_of rfl fun h rest => by simp_all [decInt, decBody, Instr.wf, bind, Except.bind, pure, Except.pure]
theorem minmax (t : Tok) (d : Dst) (f : MinMaxOp) (a b : Src) : Statement (.minmax t d f a b) :=
  statement_of rfl fun h rest => by simp_all [decInt, decBody, Instr.wf, bind, Except.bind, pure, Except.pure]
theorem bits (t : Tok) (d : Dst) (f : BitsOp) (a b : Src) : Statement (.bits t d f a b) := by
  refine statement_of rfl fun h rest => ?_
  cases f <;> simp_all [decInt, decBody, Instr.wf, bind, Except.bind, pure, Except.pure, BitsOp.usesB, Src.isNone, BfreOp.code]
theorem agen (t : Tok) (d : Dst) (f : AgenOp) (a b : Src) : Statement (.agen t d f a b) :=
  statement_of rfl fun h rest => by simp_all [decInt, decBody, Instr.wf, bind, Except.bind, pure, Except.pure]
theorem li (t : Tok) (d : Dst) (i : BitVec 16) : Statement (.li t d i) :=
  statement_of rfl fun h rest => by simp_all [decInt, decBody, Instr.wf, bind, Except.bind, pure, Except.pure]
theorem ext (t : Tok) (d : Dst) (f : ExtOp) (a b : Src) : Statement (.ext t d f a b) := by
  refine statement_of rfl fun h rest => ?_
  cases f <;> simp_all [decInt, decBody, Instr.wf, bind, Except.bind, pure, Except.pure, BitsOp.usesB, Src.isNone, BfreOp.code]
theorem ldl (t : Tok) (q : BitVec 4) (a : Src) (m : BitVec 8) (s : MSize) : Statement (.ldl t q a m s) :=
  statement_of rfl fun h rest => by simp_all [decMem, decBody, Instr.wf, bind, Except.bind, pure, Except.pure]
theorem stl (t : Tok) (pk : Bool) (q : BitVec 4) (a : Src) (m : BitVec 8) (s : MSize) : Statement (.stl t pk q a m s) :=
  statement_of rfl fun h rest => by simp_all [decMem, decBody, Instr.wf, bind, Except.bind, pure, Except.pure]
theorem ldg (t : Tok) (q : BitVec 4) (a : Src) (m : BitVec 8) (s : MSize) : Statement (.ldg t q a m s) :=
  statement_of rfl fun h rest => by simp_all [decMem, decBody, Instr.wf, bind, Except.bind, pure, Except.pure]
theorem stg (t : Tok) (pk : Bool) (q : BitVec 4) (a : Src) (m : BitVec 8) (s : MSize) : Statement (.stg t pk q a m s) :=
  statement_of rfl fun h rest => by simp_all [decMem, decBody, Instr.wf, bind, Except.bind, pure, Except.pure]
theorem ldd (t : Tok) (q : BitVec 4) (a : Src) (m : BitVec 8) (s : MSize) : Statement (.ldd t q a m s) :=
  statement_of rfl fun h rest => by simp_all [decMem, decBody, Instr.wf, bind, Except.bind, pure, Except.pure]
theorem std (t : Tok) (pk : Bool) (q : BitVec 4) (a : Src) (m : BitVec 8) (s : MSize) : Statement (.std t pk q a m s) :=
  statement_of rfl fun h rest => by simp_all [decMem, decBody, Instr.wf, bind, Except.bind, pure, Except.pure]
theorem ldb (t : Tok) (q : BitVec 4) (a : Src) (m : BitVec 8) (s : MSize) : Statement (.ldb t q a m s) :=
  statement_of rfl fun h rest => by simp_all [decMem, decBody, Instr.wf, bind, Except.bind, pure, Except.pure]
theorem stb (t : Tok) (pk : Bool) (q : BitVec 4) (a : Src) (m : BitVec 8) (s : MSize) : Statement (.stb t pk q a m s) :=
  statement_of rfl fun h rest => by simp_all [decMem, decBody, Instr.wf, bind, Except.bind, pure, Except.pure]
theorem pfd (t : Tok) (a : Src) (m : BitVec 8) : Statement (.pfd t a m) := by
  refine statement_of rfl fun h rest => ?_
  simp_all [decMem, decBody, Instr.wf, bind, Except.bind, pure, Except.pure, MSize.code]
theorem loc (t : Tok) (d : Dst) (f : Space) (a : Src) : Statement (.loc t d f a) :=
  statement_of rfl fun h rest => by simp_all [decMem, decBody, Instr.wf, bind, Except.bind, pure, Except.pure]
theorem bopn (t : Tok) (d : Dst) (a b : Src) : Statement (.bopn t d a b) :=
  statement_of rfl fun h rest => by simp_all [decMem, decBody, Instr.wf, bind, Except.bind, pure, Except.pure]
theorem bshr (t : Tok) (d : Dst) (a b : Src) : Statement (.bshr t d a b) :=
  statement_of rfl fun h rest => by simp_all [decMem, decBody, Instr.wf, bind, Except.bind, pure, Except.pure]
theorem bfre (t : Tok) (d : Dst) (f : BfreOp) (a b : Src) : Statement (.bfre t d f a b) := by
  refine statement_of rfl fun h rest => ?_
  cases f <;> simp_all [decMem, decBody, Instr.wf, bind, Except.bind, pure, Except.pure, BitsOp.usesB, Src.isNone, BfreOp.code]
theorem bfreClose (t : Tok) (d : Dst) (a : Src) : Statement (.bfreClose t d a) :=
  statement_of rfl fun h rest => by simp_all [decMem, decBody, Instr.wf, bind, Except.bind, pure, Except.pure]
theorem binv (t : Tok) (d : Dst) (all : Bool) (a b : Src) : Statement (.binv t d all a b) :=
  statement_of rfl fun h rest => by simp_all [decMem, decBody, Instr.wf, bind, Except.bind, pure, Except.pure]
theorem bqry (t : Tok) (d : Dst) (f : BqryOp) (a : Src) : Statement (.bqry t d f a) :=
  statement_of rfl fun h rest => by simp_all [decMem, decBody, Instr.wf, bind, Except.bind, pure, Except.pure]
theorem bgrw (t : Tok) (d : Dst) (a b : Src) : Statement (.bgrw t d a b) :=
  statement_of rfl fun h rest => by simp_all [decMem, decBody, Instr.wf, bind, Except.bind, pure, Except.pure]
theorem bgrwRel (t : Tok) (d : Dst) (a b : Src) : Statement (.bgrwRel t d a b) :=
  statement_of rfl fun h rest => by simp_all [decMem, decBody, Instr.wf, bind, Except.bind, pure, Except.pure]
theorem leaseAcq (t : Tok) (d : Dst) : Statement (.leaseAcq t d) :=
  statement_of rfl fun h rest => by simp_all [decMat, decBody, Instr.wf, bind, Except.bind, pure, Except.pure]
theorem leaseRel (t : Tok) : Statement (.leaseRel t) :=
  statement_of rfl fun h rest => by simp_all [decMat, decBody, Instr.wf, bind, Except.bind, pure, Except.pure]
theorem wld (t : Tok) (ks : Bool) (w : WldWidth) (dev : Bool) (a : Src) : Statement (.wld t ks w dev a) := by
  refine statement_of rfl fun h rest => ?_
  simp_all [decMat, decBody, Instr.wf, bind, Except.bind, pure, Except.pure]
  cases w <;> rfl
theorem wswp (t : Tok) : Statement (.wswp t) :=
  statement_of rfl fun h rest => by simp_all [decMat, decBody, Instr.wf, bind, Except.bind, pure, Except.pure]
theorem mxh (t : Tok) (h : MxHeader) : Statement (.mxh t h) := 
  statement_of rfl fun _ rest => by simp [decMat, decBody, Instr.wf, bind, Except.bind, pure, Except.pure]
theorem mxa (t : Tok) (sc : Bool) (a b : Src) : Statement (.mxa t sc a b) :=
  statement_of rfl fun h rest => by simp_all [decMat, decBody, Instr.wf, bind, Except.bind, pure, Except.pure]
theorem mxsq (t : Tok) (a b : Src) : Statement (.mxsq t a b) :=
  statement_of rfl fun h rest => by simp_all [decMat, decBody, Instr.wf, bind, Except.bind, pure, Except.pure]
theorem mxmd (t : Tok) (a : Src) : Statement (.mxmd t a) :=
  statement_of rfl fun h rest => by simp_all [decMat, decBody, Instr.wf, bind, Except.bind, pure, Except.pure]
theorem mxgr (t : Tok) (g : BitVec 2) (a b : Src) : Statement (.mxgr t g a b) :=
  statement_of rfl fun h rest => by simp_all [decMat, decBody, Instr.wf, bind, Except.bind, pure, Except.pure]
theorem mxdr (t : Tok) (m : Rnd) (a b : Src) : Statement (.mxdr t m a b) := by
  refine statement_of rfl fun h rest => ?_
  cases m <;> simp_all [decMat, decBody, Instr.wf, bind, Except.bind, pure, Except.pure, hiFn, Rnd.code, Rnd.ofCode]
theorem mxdrKeep (t : Tok) : Statement (.mxdrKeep t) :=
  statement_of rfl fun h rest => by simp_all [decMat, decBody, Instr.wf, bind, Except.bind, pure, Except.pure]
theorem mxz (t : Tok) (both : Bool) : Statement (.mxz t both) :=
  statement_of rfl fun h rest => by simp_all [decMat, decBody, Instr.wf, bind, Except.bind, pure, Except.pure]
theorem mvk (t : Tok) (g : BitVec 2) (a b : Src) : Statement (.mvk t g a b) :=
  statement_of rfl fun h rest => by simp_all [decMat, decBody, Instr.wf, bind, Except.bind, pure, Except.pure]
theorem mvq (t : Tok) (d : Dst) (msk : Bool) (a b : Src) : Statement (.mvq t d msk a b) :=
  statement_of rfl fun h rest => by simp_all [decMat, decBody, Instr.wf, bind, Except.bind, pure, Except.pure]
theorem mvv (t : Tok) (msk : Bool) (q : BitVec 3) (a b : Src) : Statement (.mvv t msk q a b) :=
  statement_of rfl fun h rest => by simp_all [decMat, decBody, Instr.wf, bind, Except.bind, pure, Except.pure]
theorem mvm (t : Tok) (a : Src) : Statement (.mvm t a) :=
  statement_of rfl fun h rest => by simp_all [decMat, decBody, Instr.wf, bind, Except.bind, pure, Except.pure]
theorem mvmOff (t : Tok) : Statement (.mvmOff t) :=
  statement_of rfl fun h rest => by simp_all [decMat, decBody, Instr.wf, bind, Except.bind, pure, Except.pure]
theorem mvd (t : Tok) (d : Dst) (m : Rnd) (f : Fmt) (a : Src) : Statement (.mvd t d m f a) :=
  statement_of rfl fun h rest => by simp_all [decMat, decBody, Instr.wf, bind, Except.bind, pure, Except.pure]
theorem vadd (t : Tok) (d : Dst) (sat : Bool) (m : Rnd) (a b : Src) : Statement (.vadd t d sat m a b) :=
  statement_of rfl fun h rest => by simp_all [decVec, decBody, Instr.wf, bind, Except.bind, pure, Except.pure]
theorem vsub (t : Tok) (d : Dst) (sat : Bool) (m : Rnd) (a b : Src) : Statement (.vsub t d sat m a b) :=
  statement_of rfl fun h rest => by simp_all [decVec, decBody, Instr.wf, bind, Except.bind, pure, Except.pure]
theorem vmul (t : Tok) (d : Dst) (sat : Bool) (m : Rnd) (a b : Src) : Statement (.vmul t d sat m a b) :=
  statement_of rfl fun h rest => by simp_all [decVec, decBody, Instr.wf, bind, Except.bind, pure, Except.pure]
theorem vfma (t : Tok) (d : Dst) (neg : Bool) (q : BitVec 3) (a b : Src) : Statement (.vfma t d neg q a b) :=
  statement_of rfl fun h rest => by simp_all [decVec, decBody, Instr.wf, bind, Except.bind, pure, Except.pure]
theorem vmnx (t : Tok) (d : Dst) (f : MnxOp) (a b : Src) : Statement (.vmnx t d f a b) :=
  statement_of rfl fun h rest => by simp_all [decVec, decBody, Instr.wf, bind, Except.bind, pure, Except.pure]
theorem vcmp (t : Tok) (d : Dst) (sig : Bool) (c : VcmpOp) (a b : Src) : Statement (.vcmp t d sig c a b) :=
  statement_of rfl fun h rest => by simp_all [decVec, decBody, Instr.wf, bind, Except.bind, pure, Except.pure]
theorem vsel (t : Tok) (d : Dst) (inv : Bool) (k : BitVec 3) (a b : Src) : Statement (.vsel t d inv k a b) :=
  statement_of rfl fun h rest => by simp_all [decVec, decBody, Instr.wf, bind, Except.bind, pure, Except.pure]
theorem vlog (t : Tok) (d : Dst) (f : VlogOp) (a b : Src) : Statement (.vlog t d f a b) := by
  refine statement_of rfl fun h rest => ?_
  cases f <;> simp_all [decVec, decBody, Instr.wf, bind, Except.bind, pure, Except.pure, BitsOp.usesB, Src.isNone, BfreOp.code]
theorem vshf (t : Tok) (d : Dst) (f : ShiftOp) (a b : Src) : Statement (.vshf t d f a b) :=
  statement_of rfl fun h rest => by simp_all [decVec, decBody, Instr.wf, bind, Except.bind, pure, Except.pure]
theorem vprm (t : Tok) (d : Dst) (f : VprmOp) (a b : Src) : Statement (.vprm t d f a b) := by
  refine statement_of rfl fun h rest => ?_
  cases f <;> simp_all [decVec, decBody, Instr.wf, bind, Except.bind, pure, Except.pure, BitsOp.usesB, Src.isNone, BfreOp.code]
theorem vred (t : Tok) (d : Dst) (f : RedOp) (a b : Src) : Statement (.vred t d f a b) :=
  statement_of rfl fun h rest => by simp_all [decVec, decBody, Instr.wf, bind, Except.bind, pure, Except.pure]
theorem vwid (t : Tok) (d : Dst) (g : Fmt) (a : Src) : Statement (.vwid t d g a) :=
  statement_of rfl fun h rest => by simp_all [decVec, decBody, Instr.wf, bind, Except.bind, pure, Except.pure]
theorem vnar (t : Tok) (d : Dst) (sat : Bool) (g : Fmt) (a : Src) : Statement (.vnar t d sat g a) :=
  statement_of rfl fun h rest => by simp_all [decVec, decBody, Instr.wf, bind, Except.bind, pure, Except.pure]
theorem vbrd (t : Tok) (d : Dst) (x : VbrdForm) : Statement (.vbrd t d x) := by
  cases x <;> exact statement_of rfl fun h rest => by simp_all [decVec, decBody, Instr.wf, bind, Except.bind, pure, Except.pure]
theorem vmsk (t : Tok) (d : Dst) (f : VmskForm) : Statement (.vmsk t d f) := by
  cases f with
  | two f x y => exact statement_of rfl fun h rest => by cases f <;> simp_all [decVec, decBody, VmskForm.wf, VmskOp.isTwo, VmskOp.isOne, Instr.wf, bind, Except.bind, pure, Except.pure]
  | one f x => exact statement_of rfl fun h rest => by cases f <;> simp_all [decVec, decBody, VmskForm.wf, VmskOp.isTwo, VmskOp.isOne, Instr.wf, bind, Except.bind, pure, Except.pure]
  | fromv a => exact statement_of rfl fun h rest => by simp_all [decVec, decBody, VmskForm.wf, VmskOp.isTwo, VmskOp.isOne, Instr.wf, bind, Except.bind, pure, Except.pure]
theorem vscn (t : Tok) (d : Dst) (ex : Bool) (f : RedOp) (a : Src) : Statement (.vscn t d ex f a) :=
  statement_of rfl fun h rest => by simp_all [decVec, decBody, Instr.wf, bind, Except.bind, pure, Except.pure]
theorem cvt (t : Tok) (d : Dst) (sat : Bool) (m : Rnd) (g : Fmt) (a : Src) : Statement (.cvt t d sat m g a) :=
  statement_of rfl fun h rest => by simp_all [decFnc, decBody, Instr.wf, bind, Except.bind, pure, Except.pure]
theorem mxq (t : Tok) (d : Dst) (m : Rnd) (g : Fmt) (a : Src) : Statement (.mxq t d m g a) :=
  statement_of rfl fun h rest => by simp_all [decFnc, decBody, Instr.wf, bind, Except.bind, pure, Except.pure]
theorem mxx (t : Tok) (d : Dst) (g : Fmt) (a b : Src) : Statement (.mxx t d g a b) :=
  statement_of rfl fun h rest => by simp_all [decFnc, decBody, Instr.wf, bind, Except.bind, pure, Except.pure]
theorem srsdSet (t : Tok) (a b : Src) : Statement (.srsdSet t a b) :=
  statement_of rfl fun h rest => by simp_all [decFnc, decBody, Instr.wf, bind, Except.bind, pure, Except.pure]
theorem srsdStep (t : Tok) (d : Dst) : Statement (.srsdStep t d) :=
  statement_of rfl fun h rest => by simp_all [decFnc, decBody, Instr.wf, bind, Except.bind, pure, Except.pure]
theorem sfa (t : Tok) (d : Dst) (f : SfaOp) (a : Src) : Statement (.sfa t d f a) :=
  statement_of rfl fun h rest => by simp_all [decFnc, decBody, Instr.wf, bind, Except.bind, pure, Except.pure]
theorem sfb (t : Tok) (d : Dst) (f : SfbOp) (a : Src) : Statement (.sfb t d f a) :=
  statement_of rfl fun h rest => by simp_all [decFnc, decBody, Instr.wf, bind, Except.bind, pure, Except.pure]
theorem sfc (t : Tok) (d : Dst) (f : SfcOp) (a : Src) : Statement (.sfc t d f a) :=
  statement_of rfl fun h rest => by simp_all [decFnc, decBody, Instr.wf, bind, Except.bind, pure, Except.pure]
theorem smxs (t : Tok) (d : Dst) (lg : BitVec 2) (a b : Src) : Statement (.smxs t d lg a b) :=
  statement_of rfl fun h rest => by simp_all [decFnc, decBody, Instr.wf, bind, Except.bind, pure, Except.pure]
theorem vlane (t : Tok) (d : Dst) (a b : Src) : Statement (.vlane t d a b) :=
  statement_of rfl fun h rest => by simp_all [decFnc, decBody, Instr.wf, bind, Except.bind, pure, Except.pure]
theorem vidx (t : Tok) (d : Dst) (g : Fmt) (a b : Src) : Statement (.vidx t d g a b) :=
  statement_of rfl fun h rest => by simp_all [decFnc, decBody, Instr.wf, bind, Except.bind, pure, Except.pure]
theorem fcls (t : Tok) (d : Dst) (a : Src) : Statement (.fcls t d a) :=
  statement_of rfl fun h rest => by simp_all [decFnc, decBody, Instr.wf, bind, Except.bind, pure, Except.pure]
theorem fsc (t : Tok) (d : Dst) (xp : Bool) (m : Rnd) (a b : Src) : Statement (.fsc t d xp m a b) := by
  refine statement_of rfl fun h rest => ?_
  cases xp <;> simp_all [decFnc, decBody, Instr.wf, bind, Except.bind, pure, Except.pure, Src.isNone]
theorem rndm (t : Tok) (d : Dst) (f : RndmOp) : Statement (.rndm t d f) :=
  statement_of rfl fun h rest => by simp_all [decFnc, decBody, Instr.wf, bind, Except.bind, pure, Except.pure]
theorem vdot (t : Tok) (d : Dst) (neg : Bool) (q : BitVec 3) (a b : Src) : Statement (.vdot t d neg q a b) :=
  statement_of rfl fun h rest => by simp_all [decFnc, decBody, Instr.wf, bind, Except.bind, pure, Except.pure]
theorem cpy (t : Tok) (a : Src) : Statement (.cpy t a) :=
  statement_of rfl fun h rest => by simp_all [decXfr, decBody, Instr.wf, bind, Except.bind, pure, Except.pure]
theorem cacc (t : Tok) (d : Dst) (f : AccOp) (a b : Src) : Statement (.cacc t d f a b) := by
  refine statement_of rfl fun h rest => ?_
  cases d <;> simp_all [decXfr, decBody, Instr.wf, bind, Except.bind, pure, Except.pure]
theorem cwt (t : Tok) (d : Dst) (a : Src) : Statement (.cwt t d a) :=
  statement_of rfl fun h rest => by simp_all [decXfr, decBody, Instr.wf, bind, Except.bind, pure, Except.pure]
theorem cwtTest (t : Tok) (d : Dst) (a : Src) : Statement (.cwtTest t d a) :=
  statement_of rfl fun h rest => by simp_all [decXfr, decBody, Instr.wf, bind, Except.bind, pure, Except.pure]
theorem cbnd (t : Tok) (q : QSel) (a b : Src) : Statement (.cbnd t q a b) :=
  statement_of rfl fun h rest => by simp_all [decXfr, decBody, Instr.wf, bind, Except.bind, pure, Except.pure]
theorem cbndOff (t : Tok) (a : Src) : Statement (.cbndOff t a) :=
  statement_of rfl fun h rest => by simp_all [decXfr, decBody, Instr.wf, bind, Except.bind, pure, Except.pure]
theorem rini (t : Tok) (d : Dst) (a b : Src) : Statement (.rini t d a b) :=
  statement_of rfl fun h rest => by simp_all [decXfr, decBody, Instr.wf, bind, Except.bind, pure, Except.pure]
theorem rqry (t : Tok) (d : Dst) (a : Src) : Statement (.rqry t d a) :=
  statement_of rfl fun h rest => by simp_all [decXfr, decBody, Instr.wf, bind, Except.bind, pure, Except.pure]
theorem rwfl (t : Tok) (d : Dst) (a b : Src) : Statement (.rwfl t d a b) :=
  statement_of rfl fun h rest => by simp_all [decXfr, decBody, Instr.wf, bind, Except.bind, pure, Except.pure]
theorem rwfr (t : Tok) (d : Dst) (a b : Src) : Statement (.rwfr t d a b) :=
  statement_of rfl fun h rest => by simp_all [decXfr, decBody, Instr.wf, bind, Except.bind, pure, Except.pure]
theorem rclm (t : Tok) (d : Dst) (a b : Src) : Statement (.rclm t d a b) :=
  statement_of rfl fun h rest => by simp_all [decXfr, decBody, Instr.wf, bind, Except.bind, pure, Except.pure]
theorem rpub (t : Tok) (a b : Src) : Statement (.rpub t a b) :=
  statement_of rfl fun h rest => by simp_all [decXfr, decBody, Instr.wf, bind, Except.bind, pure, Except.pure]
theorem rrel (t : Tok) (a b : Src) : Statement (.rrel t a b) :=
  statement_of rfl fun h rest => by simp_all [decXfr, decBody, Instr.wf, bind, Except.bind, pure, Except.pure]
theorem rlys (t : Tok) (d : Dst) (s : RlySrc) (a b : Src) : Statement (.rlys t d s a b) :=
  statement_of rfl fun h rest => by simp_all [decXfr, decBody, Instr.wf, bind, Except.bind, pure, Except.pure]
theorem rlyg (t : Tok) (d : Dst) (a b : Src) : Statement (.rlyg t d a b) :=
  statement_of rfl fun h rest => by simp_all [decXfr, decBody, Instr.wf, bind, Except.bind, pure, Except.pure]
theorem rlygAdd (t : Tok) (d : Dst) (a b : Src) : Statement (.rlygAdd t d a b) :=
  statement_of rfl fun h rest => by simp_all [decXfr, decBody, Instr.wf, bind, Except.bind, pure, Except.pure]
theorem rlygRet (t : Tok) (d : Dst) (a b : Src) : Statement (.rlygRet t d a b) :=
  statement_of rfl fun h rest => by simp_all [decXfr, decBody, Instr.wf, bind, Except.bind, pure, Except.pure]
theorem rlyw (t : Tok) (d : Dst) (a b : Src) : Statement (.rlyw t d a b) :=
  statement_of rfl fun h rest => by simp_all [decXfr, decBody, Instr.wf, bind, Except.bind, pure, Except.pure]
theorem hoff (t : Tok) (d : Dst) (a : Src) : Statement (.hoff t d a) :=
  statement_of rfl fun h rest => by simp_all [decXfr, decBody, Instr.wf, bind, Except.bind, pure, Except.pure]
theorem hctlSeal (t : Tok) (d : Dst) (a : Src) : Statement (.hctlSeal t d a) :=
  statement_of rfl fun h rest => by simp_all [decXfr, decBody, Instr.wf, bind, Except.bind, pure, Except.pure]
theorem hctlCommit (t : Tok) (d : Dst) (a : Src) : Statement (.hctlCommit t d a) :=
  statement_of rfl fun h rest => by simp_all [decXfr, decBody, Instr.wf, bind, Except.bind, pure, Except.pure]
theorem hctlCancel (t : Tok) (d : Dst) (a : Src) : Statement (.hctlCancel t d a) :=
  statement_of rfl fun h rest => by simp_all [decXfr, decBody, Instr.wf, bind, Except.bind, pure, Except.pure]
theorem hctlQry (t : Tok) (d : Dst) (a b : Src) : Statement (.hctlQry t d a b) :=
  statement_of rfl fun h rest => by simp_all [decXfr, decBody, Instr.wf, bind, Except.bind, pure, Except.pure]
theorem hctlDrop (t : Tok) (d : Dst) (a : Src) : Statement (.hctlDrop t d a) :=
  statement_of rfl fun h rest => by simp_all [decXfr, decBody, Instr.wf, bind, Except.bind, pure, Except.pure]
theorem cwld (t : Tok) (d : Dst) (a : Src) : Statement (.cwld t d a) :=
  statement_of rfl fun h rest => by simp_all [decXfr, decBody, Instr.wf, bind, Except.bind, pure, Except.pure]
theorem lendGrp (t : Tok) (d : Dst) (s : Space) (a b : Src) : Statement (.lendGrp t d s a b) :=
  statement_of rfl fun h rest => by simp_all [decSys, decBody, Instr.wf, bind, Except.bind, pure, Except.pure]
theorem lendPark (t : Tok) (d : Dst) (s : Space) (a b : Src) : Statement (.lendPark t d s a b) :=
  statement_of rfl fun h rest => by simp_all [decSys, decBody, Instr.wf, bind, Except.bind, pure, Except.pure]
theorem retn (t : Tok) (d : Dst) (s : Space) (a : Src) : Statement (.retn t d s a) :=
  statement_of rfl fun h rest => by simp_all [decSys, decBody, Instr.wf, bind, Except.bind, pure, Except.pure]
theorem splitAddr (t : Tok) (d : Dst) (s : Space) (a b : Src) : Statement (.splitAddr t d s a b) :=
  statement_of rfl fun h rest => by simp_all [decSys, decBody, Instr.wf, bind, Except.bind, pure, Except.pure]
theorem splitRd (t : Tok) (d : Dst) (s : Space) (a b : Src) : Statement (.splitRd t d s a b) :=
  statement_of rfl fun h rest => by simp_all [decSys, decBody, Instr.wf, bind, Except.bind, pure, Except.pure]
theorem splitWr (t : Tok) (d : Dst) (s : Space) (a b : Src) : Statement (.splitWr t d s a b) :=
  statement_of rfl fun h rest => by simp_all [decSys, decBody, Instr.wf, bind, Except.bind, pure, Except.pure]
theorem splitCmn (t : Tok) (d : Dst) (s : Space) (a : Src) : Statement (.splitCmn t d s a) :=
  statement_of rfl fun h rest => by simp_all [decSys, decBody, Instr.wf, bind, Except.bind, pure, Except.pure]
theorem joinAddr (t : Tok) (d : Dst) (s : Space) (a b : Src) : Statement (.joinAddr t d s a b) :=
  statement_of rfl fun h rest => by simp_all [decSys, decBody, Instr.wf, bind, Except.bind, pure, Except.pure]
theorem joinShr (t : Tok) (d : Dst) (s : Space) (a : Src) : Statement (.joinShr t d s a) :=
  statement_of rfl fun h rest => by simp_all [decSys, decBody, Instr.wf, bind, Except.bind, pure, Except.pure]
theorem joinCmn (t : Tok) (d : Dst) (s : Space) (a : Src) : Statement (.joinCmn t d s a) :=
  statement_of rfl fun h rest => by simp_all [decSys, decBody, Instr.wf, bind, Except.bind, pure, Except.pure]
theorem joinRing (t : Tok) (d : Dst) (s : Space) (a : Src) : Statement (.joinRing t d s a) :=
  statement_of rfl fun h rest => by simp_all [decSys, decBody, Instr.wf, bind, Except.bind, pure, Except.pure]
theorem keywArr (t : Tok) (d : Dst) (s : Space) (a : Src) : Statement (.keywArr t d s a) :=
  statement_of rfl fun h rest => by simp_all [decSys, decBody, Instr.wf, bind, Except.bind, pure, Except.pure]
theorem keywTkt (t : Tok) (d : Dst) (s : Space) (a b : Src) : Statement (.keywTkt t d s a b) :=
  statement_of rfl fun h rest => by simp_all [decSys, decBody, Instr.wf, bind, Except.bind, pure, Except.pure]
theorem keywFree (t : Tok) (d : Dst) (s : Space) (a : Src) : Statement (.keywFree t d s a) :=
  statement_of rfl fun h rest => by simp_all [decSys, decBody, Instr.wf, bind, Except.bind, pure, Except.pure]
theorem keyq (t : Tok) (d : Dst) (s : Space) (a : Src) : Statement (.keyq t d s a) :=
  statement_of rfl fun h rest => by simp_all [decSys, decBody, Instr.wf, bind, Except.bind, pure, Except.pure]
theorem fence (t : Tok) (c : Scope) (o : Order) (f : FenceForm) : Statement (.fence t c o f) := by
  cases f <;> exact statement_of rfl fun h rest => by simp_all [decSys, decBody, orderOf_low, Instr.wf, bind, Except.bind, pure, Except.pure]
theorem trap (t : Tok) (a : Src) : Statement (.trap t a) :=
  statement_of rfl fun h rest => by simp_all [decSys, decBody, Instr.wf, bind, Except.bind, pure, Except.pure]
theorem tret (t : Tok) : Statement (.tret t) :=
  statement_of rfl fun h rest => by simp_all [decSys, decBody, Instr.wf, bind, Except.bind, pure, Except.pure]
theorem srr (t : Tok) (d : Dst) (r : SysReg) : Statement (.srr t d r) :=
  statement_of rfl fun h rest => by simp_all [decSys, decBody, Instr.wf, bind, Except.bind, pure, Except.pure]
theorem srw (t : Tok) (r : SysReg) (b : Src) : Statement (.srw t r b) :=
  statement_of rfl fun h rest => by simp_all [decSys, decBody, Instr.wf, bind, Except.bind, pure, Except.pure]
theorem lnchNode (t : Tok) (d : Dst) (a : Src) : Statement (.lnchNode t d a) :=
  statement_of rfl fun h rest => by simp_all [decSys, decBody, Instr.wf, bind, Except.bind, pure, Except.pure]
theorem lnchReq (t : Tok) (d : Dst) (a : Src) : Statement (.lnchReq t d a) :=
  statement_of rfl fun h rest => by simp_all [decSys, decBody, Instr.wf, bind, Except.bind, pure, Except.pure]
theorem errqRd (t : Tok) (d : Dst) (a b : Src) : Statement (.errqRd t d a b) :=
  statement_of rfl fun h rest => by simp_all [decSys, decBody, Instr.wf, bind, Except.bind, pure, Except.pure]
theorem errqClr (t : Tok) (d : Dst) (a b : Src) : Statement (.errqClr t d a b) :=
  statement_of rfl fun h rest => by simp_all [decSys, decBody, Instr.wf, bind, Except.bind, pure, Except.pure]
theorem errqSum (t : Tok) (d : Dst) (a : Src) : Statement (.errqSum t d a) :=
  statement_of rfl fun h rest => by simp_all [decSys, decBody, Instr.wf, bind, Except.bind, pure, Except.pure]
theorem clrd (t : Tok) (d : Dst) (a b : Src) : Statement (.clrd t d a b) :=
  statement_of rfl fun h rest => by simp_all [decSys, decBody, Instr.wf, bind, Except.bind, pure, Except.pure]
theorem clgtSet (t : Tok) (d : Dst) (a b : Src) : Statement (.clgtSet t d a b) :=
  statement_of rfl fun h rest => by simp_all [decSys, decBody, Instr.wf, bind, Except.bind, pure, Except.pure]
theorem clgtClr (t : Tok) (d : Dst) (a : Src) : Statement (.clgtClr t d a) :=
  statement_of rfl fun h rest => by simp_all [decSys, decBody, Instr.wf, bind, Except.bind, pure, Except.pure]
theorem clgtQry (t : Tok) (d : Dst) (a b : Src) : Statement (.clgtQry t d a b) :=
  statement_of rfl fun h rest => by simp_all [decSys, decBody, Instr.wf, bind, Except.bind, pure, Except.pure]
theorem clhHoldEnd (c : Nat) (q : SeqId) : Statement (.clhHoldEnd c q) := fun h => nomatch h
theorem sleepWake (c : Nat) (q : SeqId) : Statement (.sleepWake c q) := fun h => nomatch h
theorem timedResultLands (c : Nat) (q : SeqId) : Statement (.timedResultLands c q) := fun h => nomatch h
theorem pendingEntryLands (c o : Nat) : Statement (.pendingEntryLands c o) := fun h => nomatch h
theorem handshakeAcknowledged (c o : Nat) : Statement (.handshakeAcknowledged c o) := fun h => nomatch h
theorem evictionFreezeEnd (c : Nat) : Statement (.evictionFreezeEnd c) := fun h => nomatch h
theorem postedWriteAck (c n : Nat) : Statement (.postedWriteAck c n) := fun h => nomatch h
theorem retentionEntry (die tile : Nat) (errs : List SramErr) : Statement (.retentionEntry die tile errs) := fun h => nomatch h
theorem retentionExit (die tile : Nat) (errs : List SramErr) : Statement (.retentionExit die tile errs) := fun h => nomatch h
theorem leaseGrant (die cluster : Nat) : Statement (.leaseGrant die cluster) := fun h => nomatch h
theorem leaseBudgetEnd (die cluster : Nat) : Statement (.leaseBudgetEnd die cluster) := fun h => nomatch h
theorem arrayPass (die cluster : Nat) (spare : SpareOutcome) : Statement (.arrayPass die cluster spare) := fun h => nomatch h
theorem replayFreezeEnd (c : Nat) : Statement (.replayFreezeEnd c) := fun h => nomatch h
theorem copyComplete (c o : Nat) : Statement (.copyComplete c o) := fun h => nomatch h
theorem arrivalElementLands (c o : Nat) : Statement (.arrivalElementLands c o) := fun h => nomatch h
theorem accumulateApplied (c o : Nat) : Statement (.accumulateApplied c o) := fun h => nomatch h
theorem relayPayloadLands (chan : Nat) (toFf : Bool) (slot : Nat) : Statement (.relayPayloadLands chan toFf slot) := fun h => nomatch h
theorem channelBreak (chan : Nat) : Statement (.channelBreak chan) := fun h => nomatch h
theorem handoffBlockMove (w : Nat) : Statement (.handoffBlockMove w) := fun h => nomatch h
theorem handoffCompletionEvent (w : Nat) : Statement (.handoffCompletionEvent w) := fun h => nomatch h
theorem cwldChunk (c o : Nat) : Statement (.cwldChunk c o) := fun h => nomatch h
theorem keyArrival (c o : Nat) : Statement (.keyArrival c o) := fun h => nomatch h
theorem watchdog (c : Nat) (q : SeqId) : Statement (.watchdog c q) := fun h => nomatch h
theorem submissionRecord (func : BitVec 4) (offset : Nat) (data : List Byte) : Statement (.submissionRecord func offset data) := fun h => nomatch h
theorem requestAdmission : Statement (.requestAdmission) := fun h => nomatch h
theorem requestAging (level : Nat) (index : Nat) : Statement (.requestAging level index) := fun h => nomatch h
theorem kernFire (r n : Nat) : Statement (.kernFire r n) := fun h => nomatch h
theorem kernFinish (r n : Nat) : Statement (.kernFinish r n) := fun h => nomatch h
theorem xferFire (r n : Nat) : Statement (.xferFire r n) := fun h => nomatch h
theorem ifFire (r n : Nat) : Statement (.ifFire r n) := fun h => nomatch h
theorem whileFire (r n : Nat) : Statement (.whileFire r n) := fun h => nomatch h
theorem switchFire (r n : Nat) : Statement (.switchFire r n) := fun h => nomatch h
theorem relayFire (r n : Nat) : Statement (.relayFire r n) := fun h => nomatch h
theorem handFire (r n : Nat) : Statement (.handFire r n) := fun h => nomatch h
theorem waitFire (r n : Nat) : Statement (.waitFire r n) := fun h => nomatch h
theorem doneFire (r n : Nat) : Statement (.doneFire r n) := fun h => nomatch h
theorem groupPlacement (c : Nat) : Statement (.groupPlacement c) := fun h => nomatch h
theorem kernelImageLoad (c : Nat) (noise : List (Nat × Nat × Byte)) : Statement (.kernelImageLoad c noise) := fun h => nomatch h
theorem drainingEnd (c : Nat) : Statement (.drainingEnd c) := fun h => nomatch h
theorem preemptionRequest (c : Nat) : Statement (.preemptionRequest c) := fun h => nomatch h
theorem preemptTimeoutBoundary (c : Nat) (q : SeqId) : Statement (.preemptTimeoutBoundary c q) := fun h => nomatch h
theorem groupSave (c : Nat) : Statement (.groupSave c) := fun h => nomatch h
theorem groupRestore (c : Nat) : Statement (.groupRestore c) := fun h => nomatch h
theorem correctedError (die bank : Nat) (e : ErrInfo) : Statement (.correctedError die bank e) := fun h => nomatch h
theorem uncorrectableError (die bank : Nat) (e : ErrFind) : Statement (.uncorrectableError die bank e) := fun h => nomatch h
theorem contextLoss : Statement (.contextLoss) := fun h => nomatch h
theorem snaggingAudit (die kind link : Nat) (diff : Int) : Statement (.snaggingAudit die kind link diff) := fun h => nomatch h
theorem unreachableVerdict (pkg : BitVec 10) : Statement (.unreachableVerdict pkg) := fun h => nomatch h
theorem packageReset (b : BootInput) : Statement (.packageReset b) := fun h => nomatch h
theorem topologyCompute (links : List (Nat × Nat)) : Statement (.topologyCompute links) := fun h => nomatch h
theorem getVersion (data : List Byte) : Statement (.getVersion data) := fun h => nomatch h
theorem getCapabilities (data : List Byte) : Statement (.getCapabilities data) := fun h => nomatch h
theorem negotiateAlgorithms (data : List Byte) : Statement (.negotiateAlgorithms data) := fun h => nomatch h
theorem getDigests (data : List Byte) : Statement (.getDigests data) := fun h => nomatch h
theorem getCertificate (data : List Byte) : Statement (.getCertificate data) := fun h => nomatch h
theorem challenge (data : List Byte) : Statement (.challenge data) := fun h => nomatch h
theorem getMeasurements (data : List Byte) : Statement (.getMeasurements data) := fun h => nomatch h
theorem keyExchange (data : List Byte) : Statement (.keyExchange data) := fun h => nomatch h
theorem finish (data : List Byte) : Statement (.finish data) := fun h => nomatch h
theorem heartbeat (data : List Byte) : Statement (.heartbeat data) := fun h => nomatch h
theorem endSession (data : List Byte) : Statement (.endSession data) := fun h => nomatch h
theorem spdmUnsupported (data : List Byte) : Statement (.spdmUnsupported data) := fun h => nomatch h
theorem create (a : CreateCmd) : Statement (.create a) := fun h => nomatch h
theorem destroy (ctx : BitVec 6) : Statement (.destroy ctx) := fun h => nomatch h
theorem setcfg (smax fmin cap : Nat) : Statement (.setcfg smax fmin cap) := fun h => nomatch h
theorem verify (ctx : BitVec 6) (header leaves sig : BitVec 64) : Statement (.verify ctx header leaves sig) := fun h => nomatch h
theorem dropm (ctx : BitVec 6) (slot : Nat) : Statement (.dropm ctx slot) := fun h => nomatch h
theorem powerMonitor (watts : Nat) : Statement (.powerMonitor watts) := fun h => nomatch h
theorem freezeN : Statement (.freezeN) := fun h => nomatch h
theorem scanShift (n : Nat) : Statement (.scanShift n) := fun h => nomatch h
theorem illop (w : IWord) : Statement (.illop w) := fun h => nomatch h
theorem corefail (c : Nat) : Statement (.corefail c) := fun h => nomatch h
theorem hostReadAbort (c o : Nat) : Statement (.hostReadAbort c o) := fun h => nomatch h
theorem moduleController (cap : Nat) : Statement (.moduleController cap) := fun h => nomatch h
theorem peerContextAccess (pkg : BitVec 10) (a : PeerReq) : Statement (.peerContextAccess pkg a) := fun h => nomatch h
theorem peerContextLost (pkg : BitVec 10) (ctx : BitVec 6) : Statement (.peerContextLost pkg ctx) := fun h => nomatch h
theorem childPartial (grp : Nat) (chunk : BitVec 32) (pkg : BitVec 10) (word : ChildWord) : Statement (.childPartial grp chunk pkg word) := fun h => nomatch h
theorem rootConfirmation (grp : Nat) (chunk : BitVec 32) (word : RootWord) : Statement (.rootConfirmation grp chunk word) := fun h => nomatch h

end Sys2Proof.Laws.RoundTrip
end

