-- ==== Sys2Proof/Tests/Slice0.lean ====
section
/-! SUPPORT. Tests: the words of encodings written from the spec, the checks of WellFormed, single steps, and for every
statement of Obligations a state and operands that meet its hypotheses (witness_<its name>). -/

namespace Sys2Proof.Tests

open Sys2Proof.Machine

set_option Elab.async false

/-! ### Computed hypotheses -/

/-- The machine after the checks of Issues, computed. -/
def tryIssue (i : Instr) (s : State) : Option Mach :=
  if (s.mach.seq s.cur s.phase.seq).pc.toNat % 64 / 4 + i.length ≤ 16 ∧ i.wf = true ∧ i.mayIssue s.phase.seq = true ∧
      i.namesOk s.phase.seq = true ∧ i.onClass (isPDie (dieOf s.cur)) = true ∧
      (i.needsSuper = true → (s.mach.seq s.cur s.phase.seq).status.super = true) then
    match (envOf s i).tokens s.mach with
    | .ok m => if s.phase.seq = .cmp → (m.core s.cur).clause = none ∨ i.clauseOk = true then some m else none
    | .error _ => none
  else none

theorem tryIssue_issues {i : Instr} {s : State} {m : Mach} (h : tryIssue i s = some m) : Issues i s m := by
  unfold tryIssue at h
  split at h
  case isFalse => cases h
  case isTrue hs =>
    obtain ⟨h1, h2, h3, h4, h5, h6⟩ := hs
    split at h
    case h_2 => cases h
    case h_1 hm =>
      split at h
      case isFalse => cases h
      case isTrue hc => cases h; exact ⟨h1, h2, h3, h4, h5, h6, hm, hc⟩

/-- Why a check fails, or none. -/
def halted {α : Type} (r : Chk α) : Option Halt :=
  match r with
  | .ok _ => none
  | .error h => some h

/-- i issues in s and P holds of the machine then. -/
def Meets (i : Instr) (s : State) (P : Mach → Prop) : Prop := ∃ m, Issues i s m ∧ P m

theorem meets {i : Instr} {s : State} {P : Mach → Prop} [∀ m, Decidable (P m)]
    (h : ((tryIssue i s).any fun m => decide (P m)) = true) : Meets i s P := by
  cases hm : tryIssue i s with
  | none => simp [hm] at h
  | some m => exact ⟨m, tryIssue_issues hm, by simpa [hm] using h⟩

/-- i issues in s, the checks f pass, and P holds of the machine before them and of what they give. -/
def MeetsThen {α : Type} (i : Instr) (s : State) (f : Env → Mach → Chk α) (P : Mach → α → Prop) : Prop :=
  ∃ m r, Issues i s m ∧ f (envOf s i) m = .ok r ∧ P m r

theorem meetsThen {α : Type} {i : Instr} {s : State} {f : Env → Mach → Chk α} {P : Mach → α → Prop} [∀ m r, Decidable (P m r)]
    (h : ((tryIssue i s).any fun m => match f (envOf s i) m with | .ok r => decide (P m r) | .error _ => false) = true) :
    MeetsThen i s f P := by
  cases hm : tryIssue i s with
  | none => simp [hm] at h
  | some m =>
    cases hr : f (envOf s i) m with
    | error e => simp [hm, hr] at h
    | ok r => exact ⟨m, r, tryIssue_issues hm, hr, by simpa [hm, hr] using h⟩

/-- Takes0 holds, and P of the landing and the machine. -/
def Meets0 (i : Instr) (s : State) (d : Dst) (en : Entry Word) (P : Landing → Mach → Prop) : Prop :=
  ∃ l m, Takes0 i s d en l m ∧ P l m

theorem meets0 {i : Instr} {s : State} {d : Dst} {en : Entry Word} {P : Landing → Mach → Prop} [∀ l m, Decidable (P l m)]
    (h : ((tryIssue i s).any fun m => match (envOf s i).dst m d en with | .ok (l, m) => decide (P l m) | .error _ => false) = true) :
    Meets0 i s d en P := by
  cases hm : tryIssue i s with
  | none => simp [hm] at h
  | some m =>
    cases hr : (envOf s i).dst m d en with
    | error e => simp [hm, hr] at h
    | ok r => exact ⟨r.1, r.2, ⟨m, tryIssue_issues hm, hr⟩, by simpa [hm, hr] using h⟩

/-- Takes1 holds, and P of the operand, the landing and the machine. -/
def Meets1 (i : Instr) (s : State) (a : Src) (d : Dst) (en : Entry Word) (P : Word → Landing → Mach → Prop) : Prop :=
  ∃ x l m, Takes1 i s a d en x l m ∧ P x l m

theorem meets1 {i : Instr} {s : State} {a : Src} {d : Dst} {en : Entry Word} {P : Word → Landing → Mach → Prop}
    [∀ x l m, Decidable (P x l m)]
    (h : ((tryIssue i s).any fun m => match (envOf s i).src m a with
      | .ok (x, m) => (match (envOf s i).dst m d en with | .ok (l, m) => decide (P x l m) | .error _ => false)
      | .error _ => false) = true) : Meets1 i s a d en P := by
  cases hm : tryIssue i s with
  | none => simp [hm] at h
  | some m =>
    cases hx : (envOf s i).src m a with
    | error e => simp [hm, hx] at h
    | ok x =>
      cases hr : (envOf s i).dst x.2 d en with
      | error e => simp [hm, hx, hr] at h
      | ok r => exact ⟨x.1, r.1, r.2, ⟨m, x.2, tryIssue_issues hm, hx, hr⟩, by simpa [hm, hx, hr] using h⟩

/-- Takes2 holds, and P of the operands, the landing and the machine. -/
def Meets2 (i : Instr) (s : State) (a b : Src) (d : Dst) (en : Entry Word) (P : Word → Word → Landing → Mach → Prop) : Prop :=
  ∃ x y l m, Takes2 i s a b d en x y l m ∧ P x y l m

theorem meets2 {i : Instr} {s : State} {a b : Src} {d : Dst} {en : Entry Word} {P : Word → Word → Landing → Mach → Prop}
    [∀ x y l m, Decidable (P x y l m)]
    (h : ((tryIssue i s).any fun m => match (envOf s i).src2 m a b with
      | .ok (x, y, m) => (match (envOf s i).dst m d en with | .ok (l, m) => decide (P x y l m) | .error _ => false)
      | .error _ => false) = true) : Meets2 i s a b d en P := by
  cases hm : tryIssue i s with
  | none => simp [hm] at h
  | some m =>
    cases hx : (envOf s i).src2 m a b with
    | error e => simp [hm, hx] at h
    | ok x =>
      cases hr : (envOf s i).dst x.2.2 d en with
      | error e => simp [hm, hx, hr] at h
      | ok r => exact ⟨x.1, x.2.1, r.1, r.2, ⟨m, x.2.2, tryIssue_issues hm, hx, hr⟩, by simpa [hm, hx, hr] using h⟩

/-- Reads1 holds, and P of the operand and the machine. -/
def MeetsR (i : Instr) (s : State) (a : Src) (P : Word → Mach → Prop) : Prop := ∃ x m, Reads1 i s a x m ∧ P x m

theorem meetsR {i : Instr} {s : State} {a : Src} {P : Word → Mach → Prop} [∀ x m, Decidable (P x m)]
    (h : ((tryIssue i s).any fun m => match (envOf s i).src m a with
      | .ok (x, m) => decide (P x m) | .error _ => false) = true) : MeetsR i s a P := by
  cases hm : tryIssue i s with
  | none => simp [hm] at h
  | some m =>
    cases hx : (envOf s i).src m a with
    | error e => simp [hm, hx] at h
    | ok x => exact ⟨x.1, x.2, ⟨m, tryIssue_issues hm, hx⟩, by simpa [hm, hx] using h⟩

/-- Reads2 holds, and P of the operands and the machine. -/
def MeetsR2 (i : Instr) (s : State) (a b : Src) (P : Word → Word → Mach → Prop) : Prop := ∃ x y m, Reads2 i s a b x y m ∧ P x y m

theorem meetsR2 {i : Instr} {s : State} {a b : Src} {P : Word → Word → Mach → Prop} [∀ x y m, Decidable (P x y m)]
    (h : ((tryIssue i s).any fun m => match (envOf s i).src2 m a b with
      | .ok (x, y, m) => decide (P x y m) | .error _ => false) = true) : MeetsR2 i s a b P := by
  cases hm : tryIssue i s with
  | none => simp [hm] at h
  | some m =>
    cases hx : (envOf s i).src2 m a b with
    | error e => simp [hm, hx] at h
    | ok x => exact ⟨x.1, x.2.1, x.2.2, ⟨m, tryIssue_issues hm, hx⟩, by simpa [hm, hx] using h⟩

/-! ### Small states -/

/-- A group of context 1. -/
def gA : Group :=
  { gid := ⟨0, 0⟩, ctx := 1, req := 0, node := 0, hash := 0, table := [⟨1, 4, 2⟩], lens := [0x400, 0x400, 0x400, 0x400],
    draining := false, want := true, bank := false, live0 := false, live1 := false, lostMark := 0, spill0 := none, spill1 := none,
    spillBad := [], held := false, preempt := none, evicted := [], slotAt := 0 }

/-- A sequencer with entries in x1 (5, 9) and x2 (0), x3 empty, loop register 1 at 3, and posted tokens. -/
def qA : Seq :=
  { Seq.reset with
    xq := [(1, [⟨1, .present 5⟩, ⟨2, .present 9⟩]), (2, [⟨3, .present 0⟩])], loops := [(1, 3)]
    inUp := ⟨2, 2, 0⟩, inDown := ⟨2, 2, 0⟩ }

/-- A core that runs gA. -/
def kA : Core := { Core.reset with group := some gA, ctl := qA, ld := qA, cmp := qA, st := qA }

/-- The machine with core c as k. -/
def mA (c : Nat) (k : Core) : Mach := { (Mach.reset.setCore c k) with ids := 100 }

/-- The state in which core c is k and sequencer p acts. -/
def sA (c : Nat) (p : Phase) (k : Core) : State := { State.reset with cur := c, phase := p, mach := mA c k }

/-- ctl of core 0 in that core. -/
abbrev sCtl : State := sA 0 .ctl kA

/-- The core with ctl as q. -/
def kCtl (q : Seq) : Core := { kA with ctl := q }

/-- Its state. -/
abbrev sSeq (q : Seq) : State := sA 0 .ctl (kCtl q)

/-- ctl as q in supervisor mode. -/
def qSup (q : Seq) : Seq := { q with status := { q.status with super := true } }

/-- ctl of core 0 in supervisor mode. -/
abbrev sSup : State := sSeq (qSup qA)

/-- Page tables of context 1 on die 2: 1 GiB at device address 0, writable, and 1 GiB at 2^30, supervisor and read-only. -/
def tabs : Mem :=
  let r := 2 * 2 ^ 38
  let m := Mem.write [] r (leBytes 8 (r + 0x10000 + 1))
  let m := Mem.write m (r + 0x10000) (leBytes 8 (r + 0x20000 + 1))
  let m := Mem.write m (r + 0x20000) (leBytes 8 (r + 2 ^ 30 + 11))
  Mem.write m (r + 0x20008) (leBytes 8 (r + 2 ^ 31 + 19))

/-- Context 1. -/
def cA : Context :=
  { func := 0, root := 2 * 2 ^ 38, tables := [2 * 2 ^ 38, 2 * 2 ^ 38 + 0x10000, 2 * 2 ^ 38 + 0x20000], pages := [], quotas := [(2, 0, 100)], saveBase := 0, slots := 4, usedSlots := [], lossAddr := 0
    fabric := true, publishers := [] }

/-- A key in EXCL of gA. -/
def keyA : Key := ⟨.excl, .group ⟨0, 0⟩, [], [], none, []⟩

/-- A global region, a device region and a sequence that gA holds; a COMMON region and one that gA holds no key of. -/
def rG : Region := ⟨1, 1, .glb, 0x2000, 0x2000, 0, keyA, none⟩
def rD : Region := ⟨2, 1, .dev, 0x10000, 0x20000, 2, keyA, none⟩
def rB : Region := ⟨3, 1, .blk, 5, 0, 2, keyA, none⟩
def rC : Region := ⟨4, 1, .glb, 0x4000, 0x1000, 0, ⟨.common, .none, [], [], none, []⟩, none⟩
def rF : Region := ⟨5, 1, .glb, 0x6000, 0x1000, 0, ⟨.free, .none, [], [], none, []⟩, none⟩

/-- The shape of a sequence of two layers in column 0 of die 2: blocks of 16 tokens of 16 i8. -/
def shA : Word := 2 + 4 * 16 + 4 * 2 ^ 16 + 2 ^ 20 + 2 * 2 ^ 34

/-- The sequence of handle 5, with block 0 of layer 0 in frame 16,384. -/
def bA : BSeq := ⟨1, 5, shA, [(0, 16384)], 0⟩

/-- A core of gA that holds those keys. -/
def kM : Core :=
  { kA with view := [⟨1, .excl⟩, ⟨2, .excl⟩, ⟨3, .excl⟩], vq := [(0, [⟨11, .present ⟨.i8, 0x0102⟩⟩, ⟨12, .present ⟨.i8, 0x03⟩⟩])] }

/-- The machine with those regions, where core 0 is k. -/
def mM (k : Core) : Mach :=
  { mA 0 k with
    regions := [rG, rD, rB, rC, rF], seqs := [bA], contexts := [(1, cA)], dram := tabs
    pools := [(72, { Pool.reset with frames := [(16384, ⟨1, 0, 1⟩)], usage := [(1, 1)] })] }

/-- The state with that machine, where sequencer p of core 0 acts. -/
def sM (p : Phase) (k : Core) : State := { State.reset with phase := p, mach := mM k }

/-! ### Statements on the integer class -/

theorem witness_AddSubResult :
    Meets2 (.add .none (.queue 3) .wrap false (.pop 1) (.imm 7)) sCtl (.pop 1) (.imm 7) (.queue 3) .inFlight
      (fun x y _ _ => x = 5 ∧ y = 7) ∧
    Meets2 (.sub .none .discard .wrap true .zero (.lit32 0x80000000)) sCtl .zero (.lit32 0x80000000) .discard .inFlight
      (fun _ y _ _ => y = 0xFFFFFFFF80000000) ∧
    Meets2 (.add .none (.loop 1) .ss false (.lit64 0x7FFFFFFFFFFFFFFF) (.imm 1)) sCtl (.lit64 0x7FFFFFFFFFFFFFFF) (.imm 1) (.loop 1)
      .inFlight (fun x _ _ _ => x.toInt = 2 ^ 63 - 1) ∧
    Meets2 (.sub .none (.queue 3) .us true .zero (.imm 1)) sCtl .zero (.imm 1) (.queue 3) .inFlight (fun _ _ _ _ => True) :=
  ⟨meets2 (by decide +kernel), meets2 (by decide +kernel), meets2 (by decide +kernel), meets2 (by decide +kernel)⟩

theorem witness_MulResult (f : MulForm) :
    Meets2 (.mul .none (.queue 3) f (.pop 1) (.imm 15)) sCtl (.pop 1) (.imm 15) (.queue 3) .inFlight
      (fun x y _ _ => x = 5 ∧ y = BitVec.allOnes 64) := by
  cases f <;> exact meets2 (by decide +kernel)

theorem witness_DivResult (f : DivForm) (w : Bool) :
    Meets2 (.div .none (.queue 3) f w (.pop 1) (.pop 2)) sCtl (.pop 1) (.pop 2) (.queue 3) .inFlight (fun _ y _ _ => uIntOf w y = 0) ∧
    Meets2 (.div .none (.queue 3) f w (.lit32 0x80000000) (.imm 15)) sCtl (.lit32 0x80000000) (.imm 15) (.queue 3) .inFlight
      (fun _ y _ _ => uIntOf w y ≠ 0) := by
  cases f <;> cases w <;> exact ⟨meets2 (by decide +kernel), meets2 (by decide +kernel)⟩

theorem witness_LogicResult :
    Meets2 (.and .none (.queue 3) true (.pop 1) (.imm 7)) sCtl (.pop 1) (.imm 7) (.queue 3) .inFlight (fun _ _ _ _ => True) ∧
    Meets2 (.or .none (.queue 3) false .grp .core) sCtl .grp .core (.queue 3) .inFlight (fun _ _ _ _ => True) ∧
    Meets2 (.xor .none (.queue 1) false (.pop 1) (.pop 1)) sCtl (.pop 1) (.pop 1) (.queue 1) .inFlight (fun x y _ _ => x = 5 ∧ y = 9) :=
  ⟨meets2 (by decide +kernel), meets2 (by decide +kernel), meets2 (by decide +kernel)⟩

theorem witness_ShiftResult (f : ShiftOp) (w : Bool) :
    Meets2 (.shf .none (.queue 3) f w (.peek 1) (.lit32 63)) sCtl (.peek 1) (.lit32 63) (.queue 3) .inFlight (fun _ y _ _ => y = 63) := by
  cases f <;> cases w <;> exact meets2 (by decide +kernel)

theorem witness_CompareResult :
    (∀ (f : CmpOp) (w : Bool), Meets2 (.cmp .none (.queue 3) f w (.pop 1) (.imm 5)) sCtl (.pop 1) (.imm 5) (.queue 3) .inFlight
      (fun x y _ _ => x = y)) ∧
    ∀ f : MinMaxOp, Meets2 (.minmax .none (.queue 3) f (.pop 1) (.imm 8)) sCtl (.pop 1) (.imm 8) (.queue 3) .inFlight
      (fun _ y _ _ => y.toInt = -8) := by
  refine ⟨fun f w => ?_, fun f => ?_⟩
  · cases f <;> cases w <;> exact meets2 (by decide +kernel)
  · cases f <;> exact meets2 (by decide +kernel)

theorem witness_SelectResult (z : Bool) :
    MeetsThen (.sel .none (.queue 3) z 2 (.pop 1) (.pop 1)) sCtl (fun e m => do
        let (x, y, m) ← e.src2 m (.pop 1) (.pop 1)
        let (c, m) ← e.src m (.pop ((2 : BitVec 3).setWidth 4))
        let (l, m) ← e.dst m (.queue 3) .inFlight
        pure (x, y, c, l, m))
      (fun _ r => r.1 = 5 ∧ r.2.1 = 9 ∧ r.2.2.1 = 0) := by
  cases z <;> exact meetsThen (by decide +kernel)

theorem witness_BitsResult :
    (∀ f : BitsOp, Meets2 (.bits .none (.queue 3) f (.pop 1) (if f.usesB then .lit32 0x3F3F else .pop 0)) sCtl (.pop 1)
      (if f.usesB then .lit32 0x3F3F else .zero) (.queue 3) .inFlight (fun x _ _ _ => x = 5)) ∧
    (∀ f : BitsOp, f.usesB = false → Meets1 (.bits .none (.queue 3) f (.pop 2) (.pop 0)) sCtl (.pop 2) (.queue 3) .inFlight
      (fun x _ _ => x = 0)) ∧
    (∀ f : ExtOp, f ≠ .pack → Meets1 (.ext .none (.queue 3) f (.lit32 0x80) (.pop 0)) sCtl (.lit32 0x80) (.queue 3) .inFlight
      (fun x _ _ => x = 0x80)) ∧
    Meets2 (.ext .none (.queue 3) .pack (.imm 15) (.imm 1)) sCtl (.imm 15) (.imm 1) (.queue 3) .inFlight (fun _ _ _ _ => True) ∧
    Meets0 (.li .none (.loop 7) 0x8000) sCtl (.loop 7) .inFlight (fun _ _ => True) := by
  refine ⟨fun f => ?_, fun f _ => ?_, fun f _ => ?_, meets2 (by decide +kernel), meets0 (by decide +kernel)⟩
  · cases f <;> exact meets2 (by decide +kernel)
  · cases f <;> exact meets1 (by decide +kernel)
  · cases f <;> exact meets1 (by decide +kernel)

theorem witness_AgenResult (f : AgenOp) :
    Meets2 (.agen .none (.queue 3) f (.lit64 0x000ABCD000017FFF) (.imm 15)) sCtl (.lit64 0x000ABCD000017FFF) (.imm 15) (.queue 3)
      .inFlight (fun _ y _ _ => y.toInt = -1) := by
  cases f <;> exact meets2 (by decide +kernel)

/-! ### Statements on control -/

theorem witness_BranchResult :
    MeetsR (.brcNz .none 2 1) sCtl (.pop 2) (fun c _ => c = 0) ∧ MeetsR (.brcZ .none 1 0xFFFF) sCtl (.pop 1) (fun c _ => c ≠ 0) ∧
    MeetsR (.brcZ .none 2 1) sCtl (.pop 2) (fun c _ => c = 0) ∧ MeetsR (.brcNz .none 1 1) sCtl (.pop 1) (fun c _ => c ≠ 0) ∧
    Meets (.jmp .none 0x8000) sCtl (fun _ => True) ∧ Meets0 (.call .none 3 1) sCtl (.queue 3) .inFlight (fun _ _ => True) ∧
    MeetsR (.ret .none (.lit32 0x7FC0)) sCtl (.lit32 0x7FC0) (fun x _ => x.toNat % 64 = 0 ∧ x.toNat < 32768) ∧
    MeetsR (.ret .none (.lit32 0x8000)) sCtl (.lit32 0x8000) (fun x _ => ¬(x.toNat % 64 = 0 ∧ x.toNat < 32768)) ∧
    MeetsR (.ret .none (.pop 1)) sCtl (.pop 1) (fun x _ => ¬(x.toNat % 64 = 0 ∧ x.toNat < 32768)) :=
  ⟨meetsR (by decide +kernel), meetsR (by decide +kernel), meetsR (by decide +kernel), meetsR (by decide +kernel),
    meets (by decide +kernel), meets0 (by decide +kernel), meetsR (by decide +kernel), meetsR (by decide +kernel),
    meetsR (by decide +kernel)⟩

theorem witness_LoopResult :
    Meets (.loop .none 1 0) sCtl (fun _ => (targetOf sCtl 0).toNat ≤ 0) ∧
    Meets (.loop .none 1 1) (sA 0 .ctl (kCtl { qA with stack := [⟨0, 0x80, 1⟩] })) (fun _ => 0 < (targetOf sCtl 1).toNat) ∧
    Meets (.loop .none 2 1) sCtl (fun _ => SMap.getD qA.loops 2 0 = 0) ∧ Meets (.loop .none 1 1) sCtl (fun _ => SMap.getD qA.loops 1 0 ≠ 0) ∧
    MeetsR (.lbrk .none (.pop 2) 7) sCtl (.pop 2) (fun x _ => x = 0) ∧
    MeetsR (.lbrk .none (.pop 1) 0) sCtl (.pop 1) (fun x _ => x ≠ 0 ∧ qA.stack.length ≤ 0) ∧
    MeetsR (.lbrk .none (.pop 1) 1) (sA 0 .ctl (kCtl { qA with stack := [⟨4, 0x40, 1⟩, ⟨0, 0x80, 2⟩] })) (.pop 1)
      (fun x m => x ≠ 0 ∧ (m.seq 0 .ctl).stack.drop 1 = ⟨0, 0x80, 2⟩ :: []) ∧
    ([⟨0, 0x80, 2⟩].map LoopLevel.k).Nodup :=
  ⟨meets (by decide +kernel), meets (by decide +kernel), meets (by decide +kernel), meets (by decide +kernel),
    meetsR (by decide +kernel), meetsR (by decide +kernel), meetsR (by decide +kernel), by decide⟩

theorem witness_LoopTest :
    (∃ (regs : SMap Word) (l : LoopLevel) (pc : Offset), l.stop ≠ pc ∧ SMap.wf regs = true) ∧
    (∃ (regs : SMap Word) (l : LoopLevel) (pc : Offset), l.stop = pc ∧ SMap.getD regs l.k.toNat 0 - 1 ≠ 0 ∧ SMap.wf regs = true) ∧
    (∃ (regs : SMap Word) (l : LoopLevel) (pc : Offset), l.stop = pc ∧ SMap.getD regs l.k.toNat 0 - 1 = 0 ∧ SMap.wf regs = true) ∧
    (∀ x ∈ [(SeqId.cmp, true), (.ctl, false)], let k := { kA with clause := some ⟨⟨.f8a, .f8a, .f32, false, false, 3⟩, 8, 0, none, none, none, none, 0, []⟩ }
      let y := { qA with stack := [⟨0, 0x80, 1⟩] }
      (decide (x.1 = .cmp) && k.clause.isSome && (loopTest y.loops y.stack 0x80).2.2.2) = x.2) :=
  ⟨⟨[], ⟨0, 4, 0⟩, 0, by decide⟩, ⟨[], ⟨0, 0, 0⟩, 0, by decide⟩, ⟨[(0, 1)], ⟨0, 0, 0⟩, 0, by decide⟩, by decide⟩

theorem witness_ControlForms :
    Meets (.nop ⟨true, false, false, true⟩) sCtl (fun _ => True) ∧
    MeetsR (.tkw .none (.imm 2) false false) sCtl (.imm 2) (fun x m => (x.extractLsb' 0 4).toNat ≤ ((m.seq 0 .ctl).inQ false).posted) ∧
    MeetsR (.tkw .none (.imm 3) true true) sCtl (.imm 3) (fun x m => ((m.seq 0 .ctl).inQ true).posted < (x.extractLsb' 0 4).toNat) ∧
    MeetsR (.tks .none (.imm 1) false) sCtl (.imm 1) (fun x m => (m.core 0).tokRoom .ctl true (x.extractLsb' 0 4).toNat = true) ∧
    MeetsR (.tks .none (.imm 15) true) sCtl (.imm 15) (fun x m => (x.extractLsb' 0 4).toNat ≠ 0 ∧
      (m.core 0).tokRoom .ctl false (x.extractLsb' 0 4).toNat = false) ∧
    MeetsR (.clh .none (.imm 0) false) sCtl (.imm 0) (fun _ _ => True) ∧ MeetsR (.clh .none (.pop 1) true) sCtl (.pop 1) (fun _ _ => True) ∧
    Meets (.yield .none) sCtl (fun _ => True) ∧ MeetsR (.sleep .none (.pop 2)) sCtl (.pop 2) (fun _ _ => True) ∧
    Meets (.exit .none) sCtl (fun _ => True) ∧ Meets0 (.qopCnt .none (.queue 3) ⟨false, 1⟩) sCtl (.queue 3) .inFlight (fun _ _ => True) ∧
    MeetsThen (.qopTcnt .none (.queue 3) true) sCtl (fun e m => e.dst m (.queue 3) .inFlight) (fun _ _ => True) ∧
    Meets (.qopDrop .none ⟨true, 0⟩) (sA 0 .cmp kM) (fun m => (m.core 0).headV 0 = .ok ⟨.i8, 0x0102⟩) ∧
    Meets (.qopDrop .none ⟨false, 1⟩) sCtl (fun m => (m.core 0).headX .ctl 1 = .ok 5) ∧
    Meets (.qopClr .none ⟨false, 1⟩) sCtl (fun m => (m.core 0).ctl.xslots 1 = [⟨1, .present 5⟩, ⟨2, .present 9⟩]) ∧
    Meets (.qopClr .none ⟨true, 0⟩) (sA 0 .cmp kM) (fun m => ((m.core 0).vslots 0).length = 2) ∧
    (∀ f : LmovOp, Meets1 (.lmov .none (.queue 3) f .zero) sCtl .zero (.queue 3) .inFlight (fun x _ _ => x = 0)) := by
  refine ⟨meets (by decide +kernel), meetsR (by decide +kernel), meetsR (by decide +kernel), meetsR (by decide +kernel),
    meetsR (by decide +kernel), meetsR (by decide +kernel), meetsR (by decide +kernel), meets (by decide +kernel),
    meetsR (by decide +kernel), meets (by decide +kernel), meets0 (by decide +kernel), meetsThen (by decide +kernel),
    meets (by decide +kernel), meets (by decide +kernel), meets (by decide +kernel), meets (by decide +kernel), fun f => ?_⟩
  cases f <;> exact meets1 (by decide +kernel)

/-! ### Statements on traps, system registers and time -/

/-- A clause header: rows of f32 results. -/
def hA : MxHeader := ⟨.f8a, .f8a, .f32, false, false, 3⟩

theorem witness_TrapEntry :
    (∃ (k : Core) (cl : Clause), k.clause = some cl) ∧
    (∃ k : Core, 0x7C00 < k.imageLen .ctl) ∧ (∃ k : Core, k.imageLen .ctl ≤ 0x7C00) :=
  ⟨⟨{ kA with clause := some ⟨hA, 8, 0, none, none, none, none, 0, []⟩ }, _, rfl⟩,
    ⟨{ kA with group := some { gA with lens := [0x7C40, 0, 0, 0] } }, by decide⟩, ⟨kA, by decide⟩⟩

theorem witness_TrapInstructions :
    MeetsR (.trap .none (.pop 1)) sCtl (.pop 1) (fun x _ => x = 5) ∧
    Meets (.tret .none) (sA 0 .ctl (kCtl { qSup qA with trapPc := 0x7FFC })) (fun m => (m.seq 0 .ctl).trapPc.toNat % 4 = 0 ∧
      (m.seq 0 .ctl).trapPc.toNat < 0x8000) ∧
    Meets (.tret .none) (sA 0 .ctl (kCtl { qSup qA with trapPc := 0x8000 })) (fun m => ¬(m.seq 0 .ctl).trapPc.toNat < 0x8000) ∧
    ((SysReg.trappc.isSuper = true ∧ (Instr.srw .none .trappc (.imm 0)).wf = true ∧
      (Instr.srw .none .trappc (.imm 0)).namesOk .ctl = true ∧ (sCtl.mach.seq 0 .ctl).status.super = false)) ∧
    (∀ r : SysReg, MeetsThen (.srr .none (.queue 3) r) sSup (fun e m => e.dst m (.queue 3) .inFlight) (fun _ _ => True)) ∧
    (∀ r ∈ [SysReg.status, .trappc, .wdlimit, .srseed], MeetsR (.srw .none r (.imm 7)) sSup (.imm 7) (fun x _ => x = 7)) := by
  refine ⟨meetsR (by decide +kernel), meets (by decide +kernel), meets (by decide +kernel), by decide +kernel, fun r => ?_, fun r h => ?_⟩
  · cases r <;> exact meetsThen (by decide +kernel)
  · simp only [List.mem_cons, List.not_mem_nil, or_false] at h
    rcases h with rfl | rfl | rfl | rfl <;> exact meetsR (by decide +kernel)

theorem witness_SequencerTime :
    (let s := sSeq { qA with pause := .hold 0 };
      (SMap.get? s.mach.cores 0).isSome = true ∧ (s.mach.core 0).frozen .ctl = false ∧ (s.mach.seq 0 .ctl).clock = 0) ∧
    (let s := sSeq { qA with pause := .holdAbs 0 }; (s.mach.core 0).cycles = 0 ∧ (s.mach.seq 0 .ctl).pause = .holdAbs 0) ∧
    (let s := sSeq { qA with pause := .sleep (some 0) }; (s.mach.seq 0 .ctl).clock = 0 ∧ (s.mach.seq 0 .ctl).taken = false) ∧
    (let s := sSeq { qA with clock := 9, timed := [⟨0, 9, .none, true, false, false, false⟩, ⟨1, 10, .none, true, false, false, false⟩] };
      (SMap.get? s.mach.cores 0).isSome = true ∧ (s.mach.seq 0 .ctl).timed.length = 2) ∧
    (let s := sA 0 .ctl { kA with cmp := { qA with clock := 9, timed := [⟨0, 9, .none, true, false, false, false⟩] } };
      (s.mach.core 0).frozen .cmp = false ∧ (s.mach.seq 0 .cmp).timed.length = 1) ∧
    (∀ p ∈ [none, some (0, 0)], let s := sA 0 .ctl { kA with group := some { gA with preempt := p }, ctl := { qA with
          clock := 9, timed := [⟨1, 10, .none, true, false, false, false⟩, ⟨0, 9, .none, true, false, false, false⟩] } }
      (s.mach.core 0).preempting = p.isSome ∧ (s.mach.core 0).frozen .ctl = false ∧ (s.mach.seq 0 .ctl).taken = false ∧
      (s.mach.seq 0 .ctl).timed = [⟨1, 10, .none, true, false, false, false⟩] ++ ⟨0, 9, .none, true, false, false, false⟩ :: []) ∧
    (let s := sA 0 .ctl { kA with freeze := .cycles 0 }; (SMap.get? s.mach.cores 0).isSome = true ∧ (s.mach.core 0).freeze = .cycles 0) ∧
    (let s := sSeq { qA with wdLimit := 3, wdCount := 4, stall := 1 };
      (s.mach.core 0).alive .ctl = true ∧ (s.mach.seq 0 .ctl).wdLimit.toNat < (s.mach.seq 0 .ctl).wdCount) ∧
    (errqSumOf 0xFFFFFFFF (((sCtl.mach.core 0).plane .ctl).wordsAt 0).tail = none ∧ wordCount 0xFFFFFFFF ≤ 16) := by
  decide +kernel

theorem witness_ResultLanding :
    (kA.seq .ctl).exited = false ∧ SMap.wf (kA.seq .ctl).xq = true ∧ SMap.wf (kA.seq .ctl).loops = true ∧ SMap.wf kA.masks = true ∧
    ({ qA with exited := true } : Seq).exited = true ∧
    (let k := { kA with ops := [⟨7, .ctl, false, false, .values, [.none], 0, [], none, 0⟩] };
      k.later = [] ∧ k.ops.find? (fun x => decide (x.id = 7)) = some ⟨7, .ctl, false, false, .values, [.none], 0, [], none, 0⟩) ∧
    (kA.seq .cmp).exited = false ∧ SMap.wf kA.vq = true ∧
    (let k := kA.onSeq .ctl fun x => { x with wrote := [(2, (0, 8))] };
      (Landing.loop .ctl 2 7).register.map Prod.snd = some 2 ∧ SMap.get? (k.seq .ctl).wrote 2 = some (k.cycles.toNat, 8)) ∧
    (Landing.none.register = none) ∧
    (let m := mA 0 { kA with ctl := { qA with inUp := { qA.inUp with arriving := 1 } } };
      (m.core 0).freeze = .none ∧ (m.core 0).later = [] ∧ (m.core 0).replay = 0 ∧ ((m.core 0).seq .ctl).taken = false) ∧
    (∀ d ∈ [Landing.x .ctl 3 0 5, .none], let op : Op := ⟨7, .ctl, false, false, .values, [d], 0, [], none, 0⟩
      op.load.bind LoadRef.slice = none ∧ op.dests.any Landing.isQueue = decide (d ≠ .none)) := by
  decide +kernel

/-! ### Statements on memory -/

theorem witness_MemoryCanonical : Mem.wf [(0, 1), (8, 2)] = true := by decide

theorem witness_LocalAccess :
    (∀ x ∈ [(0x0 : BitVec 32), 0x7FE00, 0x80000, 0x40], MeetsThen (.ldl .none 12 (.lit32 x) 0 .b512) (sA 0 .ld kA)
      (fun e m => do
        let (v, m) ← e.src m (.lit32 x)
        let (l, m) ← e.loadDst m 12 .b512 false
        pure (v, l, m)) (fun _ r => r.1 = sext64 x)) ∧
    MeetsThen (.stl .none false 1 (.lit32 0x7FFFC) 0 .b4) (sA 0 .st kA) (fun e m => do
        let (v, m) ← e.src m (.lit32 0x7FFFC)
        let (bs, m) ← e.storeData m false 1 .b4
        pure (v, bs, m)) (fun _ r => r.1 = 0x7FFFC ∧ r.2.1 = [5, 0, 0, 0]) ∧
    MeetsThen (.stl .none false 1 (.lit32 0x80001) 0 .b8) (sA 0 .st kA) (fun e m => do
        let (v, m) ← e.src m (.lit32 0x80001)
        let (bs, m) ← e.storeData m false 1 .b8
        pure (v, bs, m)) (fun _ r => r.1.toNat % 8 ≠ 0 ∧ 0x80000 ≤ r.1.toNat) := by
  refine ⟨?_, meetsThen (by decide +kernel), meetsThen (by decide +kernel)⟩
  simp only [List.forall_mem_cons, List.not_mem_nil, false_implies, implies_true, and_true]
  exact ⟨meetsThen (by decide +kernel), meetsThen (by decide +kernel), meetsThen (by decide +kernel), meetsThen (by decide +kernel)⟩

theorem witness_EndOfCycle :
    let s := sA 0 .tick { kA with later := [.localWrite 0x7FFFF [1]] }
    s.agenda = [] ∧ s.trust.frozen = false ∧ s.trust.released = true ∧ s.phase = .tick ∧ (s.mach.core 0).freeze = .none ∧ (s.mach.core 0).local_.wf = true ∧
      (s.mach.core 0).later = [.localWrite 0x7FFFF [1]] := by
  decide +kernel

theorem witness_GranuleOwner :
    let k (o : Owner) : Core := { kA with granules := [(127, o)], local_ := [(0x7F000, 3)] }
    (∀ o ∈ [Owner.never, .freed 1, .freed 2, .group ⟨0, 0⟩ 1], ((mA 0 (k o)).core 0).group = some gA ∧
      SMap.wf ((mA 0 (k o)).core 0).granules = true ∧ ((mA 0 (k o)).core 0).local_.wf = true ∧ (mA 0 (k o)).saved = []) ∧
    ((mA 0 (k .never)).core 0).granule 127 = .never ∧ ((mA 0 (k .never)).core 0).freeze = .none := by
  decide +kernel

theorem witness_AccessChecks :
    let e : Env := ⟨.reset, 0, .ld, 0, 1, .none⟩
    let m := mM kM
    Trust.reset.globalOk 0xFFFFFFFF = false ∧ (Trust.reset.globalOk 0x2000 = true ∧ m.keyOk 0 .glb 0x2000 512 false = true) ∧
    (Trust.reset.globalOk 0x6000 = true ∧ m.keyOk 0 .glb 0x6000 512 false = false) ∧
    translate .reset m 1 0x10000 = .leaf (2 * 2 ^ 38 + 2 ^ 30 + 0x10000) true false ∧ m.keyOk 0 .dev 0x10000 512 true = true ∧
    translate .reset m 1 (2 ^ 30 + 1) = .leaf (2 * 2 ^ 38 + 2 ^ 31 + 1) false true ∧ m.keyOk 0 .dev 0x2 1 true = false ∧
    translate .reset m 1 (2 ^ 57 - 1) = .fault ∧ ((m.core e.c).seq e.q).status.super = false ∧
    m.bseq (m.core 0).ctx 5 = some bA ∧ m.bseq (m.core 0).ctx 4 = none ∧ shapeLayers bA.shape = 2 ∧ shapeB bA.shape = 512 ∧
    SMap.get? bA.map 0 = some 16384 ∧ SMap.get? bA.map 1 = none ∧ m.keyOk 0 .blk (5 * 2 ^ 44) 512 false = true ∧
    ((mM kA).keyOk 0 .blk (5 * 2 ^ 44) 512 false = false) ∧ m.regionAt .glb 1 0x2000 = some rG ∧ rG.ring = none := by
  decide +kernel

/-- The address of a load and why its checks fail. -/
def loadChecks (a : Word) (sp : Space) (e : Env) (m : Mach) : Chk (Word × Option Halt) := do
  let (x, m) ← e.src m (.lit64 a)
  let (_, m) ← e.loadDst m 3 .b8 true
  pure (x, halted (e.resolve m sp x 8 false))

theorem witness_RemoteLoads :
    MeetsThen (.ldg .none 3 (.lit64 0x2001) 0 .b8) (sM .ld kM) (loadChecks 0x2001 .glb) (fun _ r => r.1.toNat % 8 ≠ 0) ∧
    MeetsThen (.ldg .none 3 (.lit64 0xFFFFFFF8) 0 .b8) (sM .ld kM) (loadChecks 0xFFFFFFF8 .glb)
      (fun _ r => r.2 = some (.trap tSpace 0xFFFFFFF8)) ∧
    MeetsThen (.ldg .none 3 (.lit64 0x3FF8) 0 .b8) (sM .ld kM) (loadChecks 0x3FF8 .glb) (fun _ r => r.2 = none) ∧
    MeetsThen (.ldd .none 3 (.lit64 0x10000) 0 .b8) (sM .ld kM) (loadChecks 0x10000 .dev) (fun _ r => r.2 = none) ∧
    MeetsThen (.ldd .none 3 (.lit64 0x40000000) 0 .b8) (sM .ld kM) (loadChecks 0x40000000 .dev)
      (fun _ r => r.2 = some (.trap tProt 0x40000000)) ∧
    MeetsThen (.ldb .none 3 (.lit64 0x5000000001F8) 0 .b8) (sM .ld kM) (loadChecks 0x5000000001F8 .blk) (fun _ r => r.2 = none) ∧
    MeetsThen (.ldb .none 3 (.lit64 0x500000000200) 0 .b8) (sM .ld kM) (loadChecks 0x500000000200 .blk)
      (fun _ r => r.2 = some (.trap tBlock 0x500000000200)) ∧
    MeetsR (.pfd .none (.lit32 0x10000) 0) (sM .ld kM) (.lit32 0x10000) (fun x m =>
      halted ((envOf (sM .ld kM) (.pfd .none (.lit32 0x10000) 0)).resolve m .dev x 512 false) = none) ∧
    MeetsR (.pfd .none (.lit32 0) 0) (sM .ld kM) (.lit32 0) (fun x m =>
      halted ((envOf (sM .ld kM) (.pfd .none (.lit32 0) 0)).resolve m .dev x 512 false) = some (.trap tNokey 0)) ∧
    MeetsR (.pfd .none (.lit32 1) 0) (sM .ld kM) (.lit32 1) (fun x _ => x.toNat % 512 ≠ 0) ∧
    Meets1 (.loc .none (.queue 3) .blk (.lit64 0x500000000000)) (sM .ctl kM) (.lit64 0x500000000000) (.queue 3) .pending
      (fun x _ m => locPlace .reset m false 1 .blk x.toNat = .ok (some (2, 0))) ∧
    Meets1 (.loc .none (.queue 3) .glb (.lit32 0xFFFFFFFF)) (sM .ctl kM) (.lit32 0xFFFFFFFF) (.queue 3) .pending
      (fun x _ m => locPlace .reset m false 1 .glb x.toNat = .ok none) ∧
    Meets1 (.loc .none (.queue 3) .dev (.lit32 0x10000)) (sM .ctl kM) (.lit32 0x10000) (.queue 3) .pending
      (fun x _ m => locPlace .reset m false 1 .dev x.toNat = .ok (some (2, 0))) :=
  ⟨meetsThen (by decide +kernel), meetsThen (by decide +kernel), meetsThen (by decide +kernel), meetsThen (by decide +kernel),
    meetsThen (by decide +kernel), meetsThen (by decide +kernel), meetsThen (by decide +kernel), meetsR (by decide +kernel),
    meetsR (by decide +kernel), meetsR (by decide +kernel), meets1 (by decide +kernel), meets1 (by decide +kernel),
    meets1 (by decide +kernel)⟩

/-- A store of 8 bytes at an address: the address, the bytes and why its checks fail. -/
def storeChecks (a : Word) (sp : Space) (e : Env) (m : Mach) : Chk (Word × List Byte × Option Halt) := do
  let (x, m) ← e.src m (.lit64 a)
  let (bs, m) ← e.storeData m false 1 .b8
  pure (x, bs, halted (e.resolve m sp x 8 true))

/-- A posted write of the byte 7 to 0x2000. -/
def pA : Posted := ⟨9, .glb, 0x2000, 0x2000, [7], none, true, 0, false⟩

/-- A core of 16 posted writes. -/
def kFull : Core := { kM with posted := List.replicate 16 pA }

/-- The operation that waits for it. -/
def opStore : Op := ⟨10, .st, false, false, .store 9, [], 0, [], none, 0⟩

theorem witness_PostedStores :
    MeetsThen (.stg .none false 1 (.lit64 0x2008) 0 .b8) (sM .st kM) (storeChecks 0x2008 .glb)
      (fun m r => r.2.1.length = 8 ∧ r.2.2 = none ∧ (m.core 0).posted.length < 16) ∧
    MeetsThen (.stg .none false 1 (.lit64 0x4000) 0 .b8) (sM .st kM) (storeChecks 0x4000 .glb)
      (fun _ r => r.2.2 = some (.trap tNokey 0x4000)) ∧
    MeetsThen (.std .none false 1 (.lit64 0x2FFF8) 0 .b8) (sM .st kM) (storeChecks 0x2FFF8 .dev) (fun _ r => r.2.2 = none) ∧
    MeetsThen (.std .none false 1 (.lit64 0x10004) 0 .b8) (sM .st kM) (storeChecks 0x10004 .dev) (fun _ r => r.1.toNat % 8 ≠ 0) ∧
    MeetsThen (.stb .none false 1 (.lit64 0x5000000001F8) 0 .b8) (sM .st kM) (storeChecks 0x5000000001F8 .blk)
      (fun _ r => r.2.2 = none) ∧
    MeetsThen (.stg .none false 1 (.lit64 0x2008) 0 .b8) (sM .st kFull) (storeChecks 0x2008 .glb)
      (fun m r => r.2.2 = none ∧ 16 ≤ (m.core 0).posted.length) ∧
    (let s := sM .st { kM with posted := [pA], ops := [opStore] };
      (s.mach.core 0).posted.find? (fun x => decide (x.id = 9)) = some pA ∧ pA.live = true ∧ pA.bad = false ∧ opStore.dests = [] ∧ opStore.fin = [] ∧
      (s.mach.core 0).ops.find? (fun o => decide (o.kind = .store 9)) = some opStore ∧ s.mach.retainedSlice 0x2000 = none ∧
      s.mach.globalPoison = [] ∧ s.mach.global.wf = true ∧ s.mach.dram.wf = true) :=
  ⟨meetsThen (by decide +kernel), meetsThen (by decide +kernel), meetsThen (by decide +kernel), meetsThen (by decide +kernel),
    meetsThen (by decide +kernel), meetsThen (by decide +kernel), by decide +kernel⟩

/-! ### Statements on the block store -/

/-- A sequence of handle 6 without blocks, its region, and a core that holds the keys of both sequences. -/
def bB : BSeq := ⟨1, 6, shA, [], 0⟩
def rB6 : Region := ⟨6, 1, .blk, 6, 0, 2, keyA, none⟩
def sBlk : State :=
  { sM .ctl { kM with view := [⟨3, .excl⟩, ⟨6, .excl⟩] } with
    mach := { mM { kM with view := [⟨3, .excl⟩, ⟨6, .excl⟩] } with regions := [rB, rB6], seqs := [bA, bB] } }

theorem rackUsed_shares (n : Nat) :
    ({ Mach.reset with regions := [{ rB with key := { keyA with shares := List.replicate n ⟨.none, []⟩ } }] } : Mach).rackUsed 2 = n + 1 := by
  simp [Mach.rackUsed, rB, Nat.add_comm]

theorem open_replicate (n : Nat) : ((List.replicate n bA).filter fun q => decide (q.ctx = 1)).length = n := by
  simp [bA]

/-- A rack and a context can be full. -/
theorem witness_full : (∃ m : Mach, m.rackFree 2 = 0) ∧ ∃ m : Mach, 65536 ≤ (m.seqs.filter fun q => decide (q.ctx = 1)).length :=
  ⟨⟨_, by rw [Mach.rackFree, rackUsed_shares 65535]⟩,
    ⟨{ Mach.reset with seqs := List.replicate 65536 bA }, Nat.le_of_eq (open_replicate 65536).symm⟩⟩

theorem witness_BlockStoreForms :
    Meets2 (.bopn .none (.queue 3) .zero (.lit64 shA)) sBlk .zero (.lit64 shA) (.queue 3) .pending (fun x _ _ _ => x.toNat % 2 ^ 20 = 0) ∧
    Meets2 (.bopn .none (.queue 3) (.imm 5) (.lit64 shA)) sBlk (.imm 5) (.lit64 shA) (.queue 3) .pending (fun x y _ m =>
      x = 5 ∧ shapeBad .reset y = false ∧ (m.bseq 1 5).isSome = true) ∧
    Meets2 (.bopn .none (.queue 3) (.imm 7) (.lit64 shA)) sBlk (.imm 7) (.lit64 shA) (.queue 3) .pending (fun x y _ m =>
      x = 7 ∧ shapeBad .reset y = false ∧ m.bseq 1 7 = none ∧ (m.seqs.filter fun q => decide (q.ctx = 1)).length < 65536 ∧
        m.rackFree (shapeDie y) ≠ 0) ∧
    Meets2 (.bshr .none (.queue 3) (.lit64 0x500000000000) (.lit64 (6 + 2 ^ 20))) sBlk (.lit64 0x500000000000) (.lit64 (6 + 2 ^ 20))
      (.queue 3) .pending (fun x y _ m => m.bseq 1 (x.toNat / 2 ^ 44) = some bA ∧ m.bseq 1 (y.toNat % 2 ^ 20) = some bB ∧
        m.regionAt .blk 1 x.toNat = some rB ∧ (m.core 0).holding 3 = some ⟨3, .excl⟩ ∧ m.regionAt .blk 1 (6 * 2 ^ 44) = some rB6 ∧
        (m.core 0).holding 6 = some ⟨6, .excl⟩ ∧ y.toNat < 2 ^ 40) ∧
    (∀ f : BfreOp, f ≠ .all → Meets2 (.bfre .none (.queue 3) f (.lit64 0x501000000000) (.lit32 0x100000)) sBlk (.lit64 0x501000000000)
      (.lit32 0x100000) (.queue 3) .pending (fun x n _ m => m.bseq 1 (x.toNat / 2 ^ 44) = some bA ∧
        x.toNat / 2 ^ 36 % 256 < shapeLayers bA.shape ∧ m.regionAt .blk 1 x.toNat = some rB ∧
        x.toNat / 2 ^ 16 % 2 ^ 20 + n.toNat ≤ 2 ^ 20)) ∧
    Meets1 (.bfreClose .none (.queue 3) (.lit64 0x500000000000)) sBlk (.lit64 0x500000000000) (.queue 3) .pending
      (fun x _ m => m.bseq 1 (x.toNat / 2 ^ 44) = some bA ∧ m.regionAt .blk 1 x.toNat = some rB ∧
        (m.core 0).holding 3 = some ⟨3, .excl⟩) ∧
    (∀ all : Bool, Meets2 (.binv .none (.queue 3) all (.lit64 0x500000000000) (.imm 15)) sBlk (.lit64 0x500000000000) (.imm 15)
      (.queue 3) .pending (fun x _ _ m => m.bseq 1 (x.toNat / 2 ^ 44) = some bA ∧ x.toNat / 2 ^ 36 % 256 < shapeLayers bA.shape ∧
        x.toNat % 2 ^ 16 = 0 ∧ m.regionAt .blk 1 x.toNat = some rB)) ∧
    (∀ f : BqryOp, Meets1 (.bqry .none (.queue 3) f (.lit64 0x500000000000)) sBlk (.lit64 0x500000000000) (.queue 3) .pending
      (fun x _ m => m.bseq 1 (x.toNat / 2 ^ 44) = some bA ∧ m.regionAt .blk 1 x.toNat = some rB ∧
        (m.core 0).holding 3 = some ⟨3, .excl⟩)) ∧
    (∀ i ∈ [Instr.bgrw .none (.queue 3) (.lit64 0x500000000000) (.imm 1), .bgrwRel .none (.queue 3) (.lit64 0x500000000000) (.imm 1)],
      Meets2 i sBlk (.lit64 0x500000000000) (.imm 1) (.queue 3) .pending (fun x _ _ m => m.bseq 1 (x.toNat / 2 ^ 44) = some bA ∧
        m.regionAt .blk 1 x.toNat = some rB ∧ (m.core 0).holding 3 = some ⟨3, .excl⟩)) ∧
    Meets2 (.bgrw .none (.queue 3) (.lit64 0x400000000000) (.imm 1)) sBlk (.lit64 0x400000000000) (.imm 1) (.queue 3) .pending
      (fun x _ _ m => m.bseq 1 (x.toNat / 2 ^ 44) = none) ∧
    Meets2 (.bgrw .none (.queue 3) (.lit64 0x500000000000) (.imm 1)) (sM .ctl kA) (.lit64 0x500000000000) (.imm 1) (.queue 3) .pending
      (fun x _ _ m => m.bseq 1 (x.toNat / 2 ^ 44) = some bA ∧ m.regionAt .blk 1 x.toNat = some rB ∧ (m.core 0).holding 3 = none) := by
  refine ⟨meets2 (by decide +kernel), meets2 (by decide +kernel), meets2 (by decide +kernel), meets2 (by decide +kernel), fun f h => ?_,
    meets1 (by decide +kernel), fun f => ?_, fun f => ?_, ?_, meets2 (by decide +kernel), meets2 (by decide +kernel)⟩
  · cases f
    case all => exact absurd rfl h
    all_goals exact meets2 (by decide +kernel)
  · cases f <;> exact meets2 (by decide +kernel)
  · cases f <;> exact meets1 (by decide +kernel)
  · simp only [List.forall_mem_cons, List.not_mem_nil, false_implies, implies_true, and_true]
    exact ⟨meets2 (by decide +kernel), meets2 (by decide +kernel)⟩

theorem witness_FramePool :
    (let p : Pool := { Pool.reset with frames := [(16384, ⟨1, 0, 1⟩)] }; SMap.wf p.frames = true ∧ p.lowest = some 16385) ∧
    (let m := sBlk.mach; m.bseq 1 6 = some bB ∧ SMap.wf bB.map = true ∧ SMap.wf (m.pool 72).frames = true ∧
      (m.writable 1 6 0).isSome = true ∧ SMap.get? bB.map 0 = none) ∧
    (let m := { sBlk.mach with pools := [(72, { Pool.reset with frames := [(16384, ⟨2, 0, 1⟩)], usage := [(1, 1)] })] };
      (m.writable 1 5 0).isSome = true ∧ SMap.get? bA.map 0 = some 16384 ∧ SMap.get? (m.pool 72).frames 16384 = some ⟨2, 0, 1⟩) ∧
    ((sBlk.mach.writable 1 5 0).isSome = true ∧ SMap.get? (sBlk.mach.pool 72).frames 16384 = some ⟨1, 0, 1⟩) ∧
    (let p := sBlk.mach.pool 72; p.rsv + 99 ≤ p.freeCount ∧ p.use 1 + 99 ≤ sBlk.mach.quota 1 72 ∧ SMap.wf p.usage = true ∧
      sBlk.mach.bseq 1 5 = some bA) ∧
    sBlk.mach.quota 1 72 < (sBlk.mach.pool 72).use 1 + 100 := by
  decide +kernel

/-! ### Statements on keys -/

/-- Regions in every state: split for reading, with and without a share away; a ring; parked; lost; two neighbours. -/
def rS : Region := ⟨6, 1, .glb, 0x8000, 0x1000, 0, ⟨.shared, .group ⟨0, 0⟩, [], [⟨.group ⟨0, 0⟩, []⟩], some ⟨0, 0⟩, []⟩, none⟩
def rS1 : Region := ⟨7, 1, .glb, 0x9000, 0x1000, 0, ⟨.shared, .group ⟨0, 0⟩, [], [⟨.group ⟨0, 1⟩, [⟨0, 0⟩]⟩], some ⟨0, 0⟩, []⟩, none⟩
def ringA : Ring := ⟨16, 64, 0, 0, 0, 0, [], none⟩
def rR : Region := ⟨8, 1, .glb, 0xA000, 0x400, 0, ⟨.ring, .ring, [], [], none, []⟩, some ringA⟩
def ringB : Ring := { ringA with c := 2, t := 1, state := [(0, .published), (1, .claimed ⟨0, 0⟩ true)] }
def rR1 : Region := ⟨9, 1, .glb, 0xB000, 0x400, 0, ⟨.ring, .ring, [], [], none, []⟩, some ringB⟩
def rT : Region := ⟨10, 1, .glb, 0xC000, 0x1000, 0, ⟨.transit, .parked 3 1 none, [⟨0, 1⟩], [], none, []⟩, none⟩
def rL : Region := ⟨11, 1, .glb, 0xD000, 0x1000, 0, ⟨.lost, .none, [], [], none, []⟩, none⟩
def rN : Region := ⟨12, 1, .glb, 0x10000, 0x1000, 0, keyA, none⟩
def rN1 : Region := ⟨13, 1, .glb, 0x11000, 0x1000, 0, ⟨.excl, .group ⟨0, 0⟩, [⟨0, 1⟩], [], none, []⟩, none⟩

/-- A launch of two groups. -/
def lA : Launch :=
  { num := 0, req := 0, node := 0, ctx := 1, desc := 0, hash := 0, lens := [0, 0, 0, 0], table := [], arg := 0, streams := []
    issued := true, groups := [(0, 0, .placed), (1, 1, .placed)], issuing := [] }

/-- A core of gA with those keys, and the machine with those regions. -/
def kK : Core := { kA with view := [⟨1, .excl⟩, ⟨2, .excl⟩, ⟨3, .excl⟩, ⟨6, .read⟩, ⟨12, .excl⟩, ⟨13, .excl⟩] }
def mK (k : Core) : Mach :=
  { mM k with regions := [rG, rD, rB, rC, rF, rS, rS1, rR, rR1, rT, rL, rN, rN1], launches := [lA] }
abbrev sKey : State := { State.reset with phase := .ctl, mach := mK kK }

/-- Whether the address of a key instruction passes its checks. -/
abbrev okAddr (i : Instr) (s : State) (m : Mach) (sp : Space) (w : Word) (far : Bool) : Prop :=
  (envOf s i).keyAddr m sp w far = .ok ⟨none, w.toNat⟩

/-- A core of gA with one operation. -/
def opK (k : OpKind) : Op := ⟨20, .st, false, false, k, [.none], 0, [], none, 0⟩
def sOp (k : OpKind) : State := { State.reset with mach := mK { kK with ops := [opK k] } }

/-- A key that another sequencer of the group has begun to pass in the same cycle. -/
def rRaced : Region := { rG with key := ⟨.transit, .moving, [], [], none, []⟩ }
def sRaced : State := { sKey with mach := { mK kK with regions := [rRaced, rD, rB] } }

theorem witness_KeyPasses :
    (let i := Instr.lendGrp .none (.queue 3) .glb (.lit32 0x2000) (.imm 1);
      Meets2 i sKey (.lit32 0x2000) (.imm 1) (.queue 3) .pending (fun w v _ m => okAddr i sKey m .glb w true ∧
        m.regionAt .glb 1 w.toNat = some rG ∧ (m.core 0).holding 1 = some ⟨1, .excl⟩ ∧ m.rackHas 0 1 .excl = true ∧ v.toNat < 2 ^ 16)) ∧
    (let i := Instr.lendPark .none (.queue 3) .glb (.lit32 0x8000) (.lit32 0x1FFFF);
      Meets2 i sKey (.lit32 0x8000) (.lit32 0x1FFFF) (.queue 3) .pending (fun w v _ m => okAddr i sKey m .glb w true ∧
        m.regionAt .glb 1 w.toNat = some rS ∧ (m.core 0).holding 6 = some ⟨6, .read⟩ ∧ m.rackHas 0 6 .read = true ∧ v.toNat < 2 ^ 22 ∧ v.toNat / 2 ^ 16 = 1)) ∧
    (let i := Instr.lendPark .none (.queue 3) .glb (.lit32 0x4000) .zero;
      Meets2 i sKey (.lit32 0x4000) .zero (.queue 3) .pending (fun w _ _ m => okAddr i sKey m .glb w true ∧
        m.regionAt .glb 1 w.toNat = some rC ∧ (m.core 0).holding 4 = none)) ∧
    (let i := Instr.retn .none (.queue 3) .glb (.lit32 0x2FFF);
      Meets1 i sKey (.lit32 0x2FFF) (.queue 3) .pending (fun w _ m => okAddr i sKey m .glb w true ∧
        m.regionAt .glb 1 w.toNat = some rG ∧ (m.core 0).holding 1 = some ⟨1, .excl⟩ ∧ m.rackHas 0 1 .excl = true ∧
        m.returnsAway rG ⟨1, .excl⟩ ⟨0, 0⟩ 1 = false ∧ rG.key.lender = [])) ∧
    (let i := Instr.retn .none (.queue 3) .glb (.lit32 0x11000);
      Meets1 i sKey (.lit32 0x11000) (.queue 3) .pending (fun w _ m => m.regionAt .glb 1 w.toNat = some rN1 ∧
        m.returnsAway rN1 ⟨13, .excl⟩ ⟨0, 0⟩ 1 = false ∧ rN1.key.lender ≠ [])) ∧
    (∀ d ∈ [Holder.group ⟨0, 1⟩, .parked 3 1 none], let s := sOp (.lend 1 .excl d false);
      (s.mach.core 0).later = [] ∧ (s.mach.core 0).ops.find? (fun x => decide (x.id = 20)) = some (opK (.lend 1 .excl d false)) ∧
      s.mach.region 1 = some rG ∧ rG.key.passable .excl gA.gid = true ∧ s.mach.drained 0 20 rG = true ∧ (s.mach.core 0).group = some gA ∧ d.pkg? = none ∧
      s.mach.groupExists ⟨0, 1⟩ = true) ∧
    (let s := sOp (.retn 1 .excl); s.mach.region 1 = some rG ∧ rG.key.passable .excl gA.gid = true ∧ s.mach.drained 0 20 rG = true ∧ rG.key.lender = []) ∧
    (let s := sOp (.retn 13 .excl); s.mach.region 13 = some rN1 ∧ rN1.key.passable .excl gA.gid = true ∧ s.mach.drained 0 20 rN1 = true ∧ rN1.key.lender = ⟨0, 1⟩ :: [] ∧
      s.mach.groupLives ⟨0, 1⟩ = true ∧ (s.mach.groupCtx ⟨0, 1⟩).getD 1 = 1) ∧
    (∀ park : Bool, let i : Instr := if park then .lendPark .none (.queue 3) .glb (.lit32 0x2000) (.lit32 0x10001)
        else .lendGrp .none (.queue 3) .glb (.lit32 0x2000) (.imm 1)
      Meets2 i sRaced (.lit32 0x2000) (if park then .lit32 0x10001 else .imm 1) (.queue 3) .pending (fun w _ _ m =>
        m.regionAt .glb 1 w.toNat = some rRaced ∧ rRaced.key.state ≠ .lost ∧ (m.core 0).holding 1 = some ⟨1, .excl⟩ ∧
        m.rackHas 0 1 .excl = false)) :=
  ⟨meets2 (by decide +kernel), meets2 (by decide +kernel), meets2 (by decide +kernel), meets1 (by decide +kernel),
    meets1 (by decide +kernel), by decide +kernel, by decide +kernel, by decide +kernel,
    fun p => by cases p <;> exact meets2 (by decide +kernel)⟩

theorem witness_KeySplits :
    (let i := Instr.splitAddr .none (.queue 3) .blk (.lit64 0x500000000000) .zero;
      Meets2 i sKey (.lit64 0x500000000000) .zero (.queue 3) .pending (fun w _ _ m => okAddr i sKey m .blk w false ∧
        m.regionAt .blk 1 w.toNat = some rB ∧ (m.core 0).holding 3 = some ⟨3, .excl⟩)) ∧
    (let i := Instr.splitAddr .none (.queue 3) .dev (.lit32 0x10000) (.lit32 0x1F000);
      Meets2 i sKey (.lit32 0x10000) (.lit32 0x1F000) (.queue 3) .pending (fun w v _ m => okAddr i sKey m .dev w false ∧
        m.regionAt .dev 1 w.toNat = some rD ∧ v.toNat % 65536 ≠ 0)) ∧
    (let i := Instr.splitAddr .none (.queue 3) .glb (.lit32 0x2000) (.lit32 0x3000);
      Meets2 i sKey (.lit32 0x2000) (.lit32 0x3000) (.queue 3) .pending (fun w v _ m => okAddr i sKey m .glb w false ∧
        m.regionAt .glb 1 w.toNat = some rG ∧ v.toNat % 4096 = 0 ∧ rG.base < v.toNat ∧ v.toNat < rG.base + rG.size ∧
        m.rackFree 0 ≠ 0)) ∧
    (let i := Instr.splitWr .none (.queue 3) .blk (.lit64 0x500000000000) (.imm 1);
      Meets2 i sKey (.lit64 0x500000000000) (.imm 1) (.queue 3) .pending (fun w _ _ m => okAddr i sKey m .blk w false ∧
        m.regionAt .blk 1 w.toNat = some rB ∧ (m.core 0).holding 3 = some ⟨3, .excl⟩)) ∧
    (let i := Instr.splitRd .none (.queue 3) .glb (.lit32 0x2000) (.lit32 63);
      Meets2 i sKey (.lit32 0x2000) (.lit32 63) (.queue 3) .pending (fun w v _ m => okAddr i sKey m .glb w false ∧
        m.regionAt .glb 1 w.toNat = some rG ∧ v = 63 ∧ 63 ≤ m.rackFree 0)) ∧
    (let i := Instr.splitWr .none (.queue 3) .glb (.lit32 0x2000) (.lit32 64);
      Meets2 i sKey (.lit32 0x2000) (.lit32 64) (.queue 3) .pending (fun w v _ m => okAddr i sKey m .glb w false ∧
        m.regionAt .glb 1 w.toNat = some rG ∧ v = 64)) ∧
    (∀ sp ∈ [(Space.blk, (0x500000000000 : BitVec 64), rB), (.glb, 0x2000, rG)],
      Meets1 (.splitCmn .none (.queue 3) sp.1 (.lit64 sp.2.1)) sKey (.lit64 sp.2.1) (.queue 3) .pending (fun w _ m =>
        okAddr (.splitCmn .none (.queue 3) sp.1 (.lit64 sp.2.1)) sKey m sp.1 w false ∧ m.regionAt sp.1 1 w.toNat = some sp.2.2 ∧
        (m.core 0).holding sp.2.2.rid = some ⟨sp.2.2.rid, .excl⟩)) ∧
    (let i := Instr.joinAddr .none (.queue 3) .glb (.lit32 0x11000) (.lit32 0x10000);
      Meets2 i sKey (.lit32 0x11000) (.lit32 0x10000) (.queue 3) .pending (fun w v _ m => okAddr i sKey m .glb w false ∧
        m.regionAt .glb 1 w.toNat = some rN1 ∧ (m.core 0).holding 13 = some ⟨13, .excl⟩ ∧ m.regionAt .glb 1 v.toNat = some rN ∧
        (m.core 0).holding 12 = some ⟨12, .excl⟩)) ∧
    (∀ r ∈ [(rS, (0x8000 : BitVec 32), 0), (rS1, 0x9000, 1)],
      Meets1 (.joinShr .none (.queue 3) .glb (.lit32 r.2.1)) sKey (.lit32 r.2.1) (.queue 3) .pending (fun w _ m =>
        m.regionAt .glb 1 w.toNat = some r.1 ∧ r.1.key.state = .shared ∧ r.1.key.splitter = some ⟨0, 0⟩ ∧ r.1.key.guests = r.2.2 ∧
        (m.core 0).passing r.1.rid = false)) ∧
    Meets1 (.joinCmn .none (.queue 3) .glb (.lit32 0x4000)) sKey (.lit32 0x4000) (.queue 3) .pending (fun w _ m =>
      m.regionAt .glb 1 w.toNat = some rC ∧ rC.key.state = .common ∧ m.accPending rC = false) ∧
    (∀ r ∈ [(rR, (0xA000 : BitVec 32), ringA), (rR1, 0xB000, ringB)],
      Meets1 (.joinRing .none (.queue 3) .glb (.lit32 r.2.1)) sKey (.lit32 r.2.1) (.queue 3) .pending (fun w _ m =>
        m.regionAt .glb 1 w.toNat = some r.1 ∧ r.1.key.state = .ring ∧ r.1.ring = some r.2.2)) ∧
    (rN.base + rN.size = rN1.base ∧ rN.base / 2 ^ 22 = rN1.base / 2 ^ 22) ∧ (ringA.h = ringA.c ∧ ringA.state = []) ∧ ringB.h ≠ ringB.c ∧
    ((∀ x ∈ [1, 2, 3, 12, 13], (mK kK).rackHas 0 x .excl = true) ∧
      (envOf sKey (.nop .none)).upperHome (mK kK) .glb rG 0x3000 = .ok 0) ∧
    (let s := sOp (.splitCmn 1); (s.mach.core 0).later = [] ∧ (s.mach.core 0).ops.find? (fun x => decide (x.id = 20)) = some (opK (.splitCmn 1)) ∧
      s.mach.region 1 = some rG ∧ rG.key.state ≠ .lost ∧ s.mach.drained 0 20 rG = true) := by
  simp only [List.forall_mem_cons, List.not_mem_nil, false_implies, implies_true, and_true]
  exact ⟨meets2 (by decide +kernel), meets2 (by decide +kernel), meets2 (by decide +kernel), meets2 (by decide +kernel),
    meets2 (by decide +kernel), meets2 (by decide +kernel), ⟨meets1 (by decide +kernel), meets1 (by decide +kernel)⟩,
    meets2 (by decide +kernel), ⟨meets1 (by decide +kernel), meets1 (by decide +kernel)⟩, meets1 (by decide +kernel),
    ⟨meets1 (by decide +kernel), meets1 (by decide +kernel)⟩, by decide, by decide, by decide, by decide +kernel, by decide +kernel⟩

/-- ctl with a KEYW that waits at the rack, and cmp with another. -/
def sWait (x y : Option KeyWait) : State :=
  let waits (w : Option KeyWait) : Seq := { qA with keyWait := w, wdCount := if w = none then 0 else 1, stall := 4 }
  { sKey with mach := mK { kK with ctl := waits x, cmp := waits y } }

theorem witness_KeyWaits :
    (∀ x ∈ [((0x7000 : BitVec 32), none), (0xD000, some rL), (0x6000, some rF), (0x2000, some rG)],
      Meets1 (.keywFree .none (.queue 3) .glb (.lit32 x.1)) sKey (.lit32 x.1) (.queue 3) .pending (fun w _ m =>
        okAddr (.keywFree .none (.queue 3) .glb (.lit32 x.1)) sKey m .glb w true ∧ m.regionAt .glb 1 w.toNat = x.2)) ∧
    (∀ x ∈ [((0x2000 : BitVec 32), rG), (0x4000, rC)],
      Meets1 (.keywArr .none (.queue 3) .glb (.lit32 x.1)) sKey (.lit32 x.1) (.queue 3) .pending (fun w _ m =>
        m.regionAt .glb 1 w.toNat = some x.2 ∧ x.2.key.state ≠ .lost ∧ ((m.core 0).holding x.2.rid = none ↔ x.2 = rC))) ∧
    (∀ x ∈ [(0x10000 : BitVec 32), 3, 4],
      Meets2 (.keywTkt .none (.queue 3) .glb (.lit32 0xC000) (.lit32 x)) sKey (.lit32 0xC000) (.lit32 x) (.queue 3) .pending
        (fun w v _ m => m.regionAt .glb 1 w.toNat = some rT ∧ v.toNat = x.toNat ∧ rT.key.shares = [] ∧
          (rT.key.holder = .parked (v.setWidth 16) 1 none ↔ x = 3))) ∧
    (∀ x ∈ [((0x7000 : BitVec 32), none), (0x2000, some rG)],
      Meets1 (.keyq .none (.queue 3) .glb (.lit32 x.1)) sKey (.lit32 x.1) (.queue 3) .pending (fun w _ m =>
        m.regionAt .glb 1 w.toNat = x.2)) ∧
    translate .reset sKey.mach 1 0x30000 = .leaf (2 * 2 ^ 38 + 2 ^ 30 + 0x30000) true false ∧
    translate .reset sKey.mach 1 (2 ^ 31) = .fault ∧
    (∀ x ∈ [((none : Option KeyWait), false, false), (some ⟨1, .arr, 7⟩, false, false), (some ⟨99, .free, 7⟩, true, false)],
      let e := envOf (sWait x.1 none) (.nop .none); let m := (sWait x.1 none).mach
      e.askedLost m = x.2.1 ∧ e.behind m rF .free = x.2.2 ∧ (m.core e.c).preempting = false ∧ (m.seq e.c e.q).wdLimit ≠ 0 ∧
      (m.seq e.c e.q).wdCount + 1 ≤ (m.seq e.c e.q).wdLimit.toNat ∧ ((m.seq e.c e.q).waitsForKey = true ↔ x.1 ≠ none)) ∧
    (let s := sWait (some ⟨5, .free, 8⟩) (some ⟨5, .free, 7⟩); rF.rid = 5 ∧ (envOf s (.nop .none)).behind s.mach rF .free = true) ∧
    (let s := sWait (some ⟨10, .tkt 3 1, 8⟩) (some ⟨10, .tkt 3 1, 7⟩); (envOf s (.nop .none)).behind s.mach rT (.tkt 3 1) = true) := by
  simp only [List.forall_mem_cons, List.not_mem_nil, false_implies, implies_true, and_true]
  exact ⟨⟨meets1 (by decide +kernel), meets1 (by decide +kernel), meets1 (by decide +kernel), meets1 (by decide +kernel)⟩,
    ⟨meets1 (by decide +kernel), meets1 (by decide +kernel)⟩,
    ⟨meets2 (by decide +kernel), meets2 (by decide +kernel), meets2 (by decide +kernel)⟩,
    ⟨meets1 (by decide +kernel), meets1 (by decide +kernel)⟩, by decide +kernel, by decide +kernel, by decide +kernel, by decide +kernel,
    by decide +kernel⟩

/-! ### Statements on the arrays and columns -/

/-- Headers of 8 rows: dense f8a to f8a, sparse, and grouped; and one of no pass form. -/
def hB : MxHeader := ⟨.f8a, .f8a, .f8a, false, false, 0⟩
def hS : MxHeader := ⟨.f8a, .f4, .bf16, true, false, 0⟩
def hG : MxHeader := ⟨.f8a, .f8a, .f32, false, true, 0⟩
def hBad : MxHeader := ⟨.f32, .f32, .f32, false, false, 0⟩

/-- A clause that has opened, and one whose 8 rows are given. -/
def cl0 (h : MxHeader) : Clause := ⟨h, 8, 0, none, none, none, none, 0, []⟩
def cl8 : Clause := ⟨hB, 8, 8, none, none, none, none, 0, []⟩

/-- A region of 1 MiB for a weight image. -/
def rW : Region := ⟨14, 1, .glb, 0x100000, 0x100000, 0, keyA, none⟩

/-- cmp of core 0 with a clause and operations, its array in a lease state. -/
def sArr (cl : Option Clause) (ops : List Op) (a : Array_) : State :=
  let k : Core := { kM with clause := cl, ops := ops, view := [⟨1, .excl⟩, ⟨14, .excl⟩] }
  { State.reset with phase := .cmp, mach := { mM k with arrays := [(0, a)], regions := [rG, rW] } }
def aHeld : Array_ := { Array_.reset with lease := .held 0 }
abbrev sHeld (cl : Option Clause) : State := sArr cl [] aHeld

theorem forM_ok {α : Type} (f : α → Chk Unit) (l : List α) (h : ∀ x ∈ l, f x = .ok ()) : l.forM f = .ok () := by
  induction l with
  | nil => rfl
  | cons a r ih =>
    show (f a >>= fun _ => r.forM f) = .ok ()
    rw [h a (by simp)]
    exact ih fun x hx => h x (by simp [hx])

theorem linesOk_glb (e : Env) (m : Mach) (ls : List (Nat × Nat × Nat)) (he : e.trust = .reset)
    (h : ls.all (fun x => decide (x.1 < 2 ^ 22) && m.keyOk e.c .glb x.2.1 x.2.2 false) = true) : e.linesOk m false false ls = .ok () := by
  have hx : ∀ x ∈ ls, x.1 < 2 ^ 22 ∧ m.keyOk e.c .glb x.2.1 x.2.2 false = true := by simpa using h
  have hh : (ls.headD (0, 0, 0)).1 / 2 ^ 22 = 0 := by
    cases ls with
    | nil => rfl
    | cons y r => exact Nat.div_eq_of_lt (hx y (by simp)).1
  simp only [Env.linesOk]
  rw [hh, forM_ok, forM_ok]
  · exact forM_ok _ _ fun x hm => by simp [(hx x hm).2, must]
  · intro x _; rfl
  · intro x hm
    have h1 : Trust.reset.count 0 = 36 := by decide +kernel
    have h2 : Trust.reset.isLive 0 = true := by decide
    have h3 := (hx x hm).1
    have h4 : x.1 / 2 ^ 28 = 0 := by omega
    have h5 : x.1 / 2 ^ 22 = 0 := by omega
    have h6 : x.1 < 2 ^ 32 := by omega
    have hg : Trust.reset.globalOk x.1 = true := by
      simp only [Trust.globalOk, h4, h2, h1, h5, h6, decide_true]
      rfl
    show must (e.trust.globalOk x.1 && (false || decide (x.1 / 2 ^ 22 = 0))) _ = _
    rw [he, hg, h5]
    rfl

theorem wld_lines (e : Env) (he : e.trust = .reset) (hc : e.c = 0) :
    e.linesOk (sHeld none).mach false false (linesOf 0x100000 0x100000) = .ok () :=
  linesOk_glb e _ _ he (by rw [hc]; decide +kernel)

/-- The one operation of cmp of core 0, which holds its array. -/
def opArr (k : OpKind) : Op := ⟨20, .cmp, false, false, k, [], 0, [], none, 0⟩
def sServe (k : OpKind) : State := sArr none [opArr k] aHeld

theorem witness_LeaseForms :
    (∀ x ∈ [LeaseState.offline, .held 0, .free, .held 3], MeetsThen (.leaseAcq .none (.queue 3)) (sArr none [] { aHeld with lease := x })
      (fun e m => e.dst m (.queue 3) .pending) (fun m0 r => (m0.core 0).clause = none ∧ (r.2.core 0).group = some gA ∧
        (r.2.array (clusterOf 0)).lease = x)) ∧
    (∀ x ∈ [LeaseState.held 0, .free, .offline], Meets (.leaseRel .none) (sArr none [] { aHeld with lease := x }) (fun m =>
      (m.core 0).clause = none ∧ (m.array (clusterOf 0)).lease = x)) ∧
    (∀ x ∈ [LeaseState.offline, .held 0, .free], Meets (.wswp .none) (sArr none [] { aHeld with lease := x }) (fun m =>
      (m.array (clusterOf 0)).lease = x ∧ (m.core 0).wants = true)) ∧
    (∀ both : Bool, Meets (.mxz .none both) (sHeld none) (fun m => (m.array (clusterOf 0)).lease = .held 0)) ∧
    MeetsR (.wld .none false .b8 false (.lit32 0x100000)) (sHeld none) (.lit32 0x100000) (fun x m => x = 0x100000 ∧
      m = (sHeld none).mach) ∧
    (envOf (sHeld none) (.wld .none false .b8 false (.lit32 0x100000))).linesOk (sHeld none).mach false false
      (linesOf 0x100000 0x100000) = .ok () ∧
    MeetsR (.wld .none true .b16 true (.lit32 1)) (sHeld none) (.lit32 1) (fun x m => x.toNat % 512 ≠ 0 ∧ (m.core 0).wants = true) ∧
    MeetsR2 (.mxsq .none (.lit32 0x60000) (.lit32 0xFF00)) (sHeld none) (.lit32 0x60000) (.lit32 0xFF00) (fun x y _ =>
      y.toNat < 65536 ∧ y.toNat % 256 + (y.toNat / 256 % 256 + 1) = 256 ∧ x.toNat % 512 = 0 ∧ x.toNat + 512 * 256 = 0x80000) ∧
    MeetsR2 (.mxsq .none (.lit32 0x60000) (.lit32 0xFF01)) (sHeld none) (.lit32 0x60000) (.lit32 0xFF01) (fun _ y _ =>
      256 < y.toNat % 256 + (y.toNat / 256 % 256 + 1)) ∧
    (∀ o ∈ [OpKind.wswp, .mxz true, .mxsq 0x60000 0 256, .wld false .b8 false 0x100000], let s := sServe o; let k := s.mach.core 0
      k.later = [] ∧ k.ops.find? (fun x => decide (x.id = 20)) = some (opArr o) ∧ k.earlier 20 = [] ∧
      poisonIn k.localPoison 0x60000 (512 * 256) = none ∧ k.posted = [] ∧ s.mach.retainedSlice 0x100000 = none) ∧
    (sServe (.wld false .b8 false 0x100000)).mach.rangePoison .reset 1 false 0x100000 0x100000 = none ∧
    Mem.wf [(0, 7)] = true ∧ SMap.wf aHeld.shadow.scales = true := by
  simp only [List.forall_mem_cons, List.not_mem_nil, false_implies, implies_true, and_true]
  refine ⟨⟨meetsThen (by decide +kernel), meetsThen (by decide +kernel), meetsThen (by decide +kernel), meetsThen (by decide +kernel)⟩,
    ⟨meets (by decide +kernel), meets (by decide +kernel), meets (by decide +kernel)⟩,
    ⟨meets (by decide +kernel), meets (by decide +kernel), meets (by decide +kernel)⟩, fun both => ?_, meetsR (by decide +kernel),
    wld_lines _ rfl rfl, meetsR (by decide +kernel), meetsR2 (by decide +kernel), meetsR2 (by decide +kernel), by decide +kernel,
    by decide +kernel, by decide, by decide⟩
  cases both <;> exact meets (by decide +kernel)

theorem witness_ClauseForms :
    Meets (.mxh .none hB) (sHeld (some cl8)) (fun m => (m.core 0).clause = some cl8) ∧
    Meets (.mxh .none hB) (sHeld none) (fun m => (m.core 0).clause = none ∧ (passForm hB).isSome = true ∧ (m.core 0).wants = true) ∧
    Meets (.mxh .none hBad) (sHeld none) (fun m => (m.core 0).clause = none ∧ passForm hBad = none) ∧
    MeetsR2 (.mxa .none true (.pop 1) .zero) (sHeld none) (.pop 1) .zero (fun _ _ m => (m.core 0).clause = none) ∧
    MeetsR2 (.mxgr .none 3 .zero .zero) (sHeld none) .zero .zero (fun _ _ m => (m.core 0).clause = none) ∧
    MeetsR2 (.mxdr .none .rtz .zero .zero) (sHeld none) .zero .zero (fun _ _ m => (m.core 0).clause = none) ∧
    MeetsR (.mxmd .none (.lit32 0x7C000)) (sHeld (some (cl0 hS))) (.lit32 0x7C000) (fun x m => (m.core 0).clause = some (cl0 hS) ∧
      x.toNat % 2 ^ 19 + 16384 = 0x80000 ∧ (m.core 0).wants = true) ∧
    MeetsR2 (.mxgr .none 1 (.lit32 0x40004) .zero) (sHeld (some (cl0 hG))) (.lit32 0x40004) .zero (fun x _ m =>
      (m.core 0).clause = some (cl0 hG) ∧ x.toNat % 65536 + x.toNat / 65536 = MxRows hG) ∧
    MeetsR2 (.mxgr .none 1 (.lit32 0x50004) .zero) (sHeld (some (cl0 hG))) (.lit32 0x50004) .zero (fun x _ _ =>
      MxRows hG < x.toNat % 65536 + x.toNat / 65536) ∧
    MeetsR2 (.mxa .none false (.lit32 0x7E000) (.lit32 0x4000007)) (sHeld (some (cl0 hB))) (.lit32 0x7E000) (.lit32 0x4000007)
      (fun x y m => (m.core 0).clause = some (cl0 hB) ∧ y.toNat % 512 + 1 = 8 ∧ y.toNat / 2 ^ 16 % 2 ^ 19 = 1024 ∧
        x.toNat + 7 * 1024 + rowBytes (clauseForm (cl0 hB)) false = 0x80000) ∧
    MeetsR2 (.mxdr .none .rne (.lit32 0x2000) (.lit32 0x400)) (sHeld (some cl8)) (.lit32 0x2000) (.lit32 0x400) (fun x y m =>
      (m.core 0).clause = some cl8 ∧ cl8.full = true ∧ y.toNat = 0x400 ∧
      halted ((envOf (sHeld (some cl8)) (.mxdr .none .rne (.lit32 0x2000) (.lit32 0x400))).linesOk m false true
        ((List.range 8).flatMap fun j => linesOf (x.toNat + j * 0x400) 0x400)) = none) ∧
    ((cl0 hB).full = false) ∧
    Meets (.mxdrKeep .none) (sHeld (some cl8)) (fun m => (m.core 0).clause = some cl8 ∧ cl8.full = true) ∧
    Meets (.mxz .none true) (sHeld (some (cl0 hB))) (fun m => (m.core 0).clause = some (cl0 hB) ∧ (cl0 hB).rows = 0) ∧
    (∀ o ∈ [OpKind.mxa 0 512 8 512 false, .mxdr cl8 true none, .mxdr cl8 true (some (.rne, false, 0x2000, 0x400))],
      let s := sServe o; let k := s.mach.core 0
      k.later = [] ∧ k.ops.find? (fun x => decide (x.id = 20)) = some (opArr o) ∧ k.earlier 20 = [] ∧ k.localPoison = [] ∧
      s.mach.retainedSlice 0x2000 = none ∧ (s.mach.array 0).bad = [] ∧
      walkPoison .reset s.mach 1 false 0x2000 (7 * 0x400 + 0x400) = none) :=
  ⟨meets (by decide +kernel), meets (by decide +kernel), meets (by decide +kernel), meetsR2 (by decide +kernel),
    meetsR2 (by decide +kernel), meetsR2 (by decide +kernel), meetsR (by decide +kernel), meetsR2 (by decide +kernel),
    meetsR2 (by decide +kernel), meetsR2 (by decide +kernel), meetsR2 (by decide +kernel), by decide, meets (by decide +kernel),
    meets (by decide +kernel), by decide +kernel⟩

/-- A clause of 8 rows whose pass waits. -/
def opPass : Op := ⟨20, .cmp, false, false, .mxdr cl8 false none, [], 0, [], none, 0⟩

theorem witness_ArrayEvents :
    (∀ a ∈ [{ Array_.reset with lastCore := none }, { Array_.reset with lastCore := some 0, lastGroup := some (⟨0, 0⟩, 2) }],
      let s := sArr none [] a;
      (s.mach.array 0).lease = .free ∧ (s.mach.core 0).group = some gA ∧
      (s.trust.clusterCores 0).filter (fun x => (s.mach.core x).group.isSome && leaseAsks s.trust s.mach x) = [0]) ∧
    (let s := sArr none [] { aHeld with clauses := 16 };
      (s.mach.array 0).lease = .held 0 ∧ (s.mach.core 0).wants = true ∧ othersAsk s.trust s.mach 0 0 = false) ∧
    (let s := sArr none [] { aHeld with grantClock := 0 };
      let m := { (s.mach.onGroup 0 fun g => { g with want := false }) with dieClock := [(16, 8192)] };
      (m.array 0).grantClock + 8192 ≤ m.clockOf (arrayClock 0) ∧ (m.core 0).wants = false ∧ (m.core 0).arrayIdle = true) ∧
    ((sArr (some cl8) [] aHeld).mach.core 0).arrayIdle = false ∧
    (let s := sArr none [opPass] aHeld;
      (s.mach.array 0).lease = .held 0 ∧ clusterOf 0 = 0 ∧ (s.mach.core 0).nextPass = some (opPass, cl8, none)) ∧
    (cl8.md = none ∧ cl8.zero = none ∧ aHeld.repl = none ∧ aHeld.spBad = false ∧ aHeld.chkrow < 1024 ∧ aHeld.bad = []) ∧
    (let s := sArr (some cl8) [] { aHeld with lease := .ending 0 }; (s.mach.array 0).lease = .ending 0 ∧ (s.mach.core 0).clauseEnded = false) := by
  refine ⟨?_, by decide +kernel, by decide +kernel, by decide +kernel, ⟨by decide +kernel, by decide, rfl⟩, by decide,
    by decide +kernel⟩
  simp only [List.forall_mem_cons, List.not_mem_nil, false_implies, implies_true, and_true]
  exact ⟨by decide +kernel, by decide +kernel⟩

/-- A sequence of f8a blocks with a head dimension of 64, and cmp of core 72, the first column of die 2. -/
def shC : Word := 9 + 4 * 16 + 6 * 2 ^ 16 + 2 * 2 ^ 34
def bC : BSeq := ⟨1, 5, shC, [(0, 16384)], 0⟩
def kCol : Core :=
  { kA with
    view := [⟨3, .excl⟩], column := { Column.reset with mask := some 0 }
    vq := [(0, [⟨11, .present ⟨.f8a, 0x38⟩⟩]), (1, [⟨12, .present ⟨.f32, 0x3F800000⟩⟩]), (2, [⟨13, .present ⟨.f32, 0⟩⟩])] }
abbrev sCol : State :=
  { State.reset with cur := 72, phase := .cmp, mach := { (mM kM).setCore 72 kCol with regions := [rB], seqs := [bC] } }

theorem witness_ColumnForms :
    MeetsThen (.mvk .none 2 (.peek 0) .zero) sCol (fun e m => do
        let v ← (m.core 72).headV 0
        let (h, m) ← e.src m .zero
        pure (v, h, m)) (fun _ r => r.1.tag = .f8a ∧ r.2.1.toNat ≤ 127 ∧ 2 ^ (2 : BitVec 2).toNat ≤ 4) ∧
    (∀ h ∈ [(127 : BitVec 32), 128], MeetsThen (.mvk .none 2 (.pop 0) (.lit32 h)) sCol (fun e m => do
        let v ← (m.core 72).headV 0
        let (vs, m) ← e.heads 0 1 m
        let (x, m) ← e.src m (.lit32 h)
        pure (v, vs, x, m)) (fun _ r => r.1 = ⟨.f8a, 0x38⟩ ∧ r.2.1 = [⟨.f8a, 0x38⟩] ∧ r.2.2.1.toNat = h.toNat)) ∧
    MeetsThen (.mvq .none (.queue 3) true (.lit64 0x500000000000) (.lit32 0x3F800000)) sCol (fun e m => do
        let (x, _, m) ← e.src2 m (.lit64 0x500000000000) (.lit32 0x3F800000)
        let (_, m) ← e.dstV m (.queue 3) .pending
        pure (x, halted (e.columnBlock m true x))) (fun _ r => r.2 = none) ∧
    MeetsThen (.mvv .none false 2 (.lit64 0x500000000000) (.pop 1)) sCol (fun e m => do
        let (x, m) ← e.src m (.lit64 0x500000000000)
        let (p, m) ← e.srcV m (.pop 1)
        let (st, m) ← e.third m 2
        pure (p, st, halted (e.columnBlock m false x))) (fun _ r => r.1 = .entry ⟨.f32, 0x3F800000⟩ ∧ r.2.1.tag = .f32 ∧ r.2.2 = none) ∧
    MeetsR (.mvm .none (.lit32 0x1C0000)) sCol (.lit32 0x1C0000) (fun x _ => x.toNat / 2 ^ 19 % 256 ≠ 0 ∧ x.toNat % 2 ^ 19 % 64 = 0) ∧
    MeetsR (.mvm .none .zero) sCol .zero (fun x _ => x.toNat / 2 ^ 19 % 256 = 0) ∧
    Meets (.mvmOff .none) sCol (fun _ => True) ∧
    MeetsThen (.mvd .none (.queue 3) .rne .f32 (.imm 7)) sCol (fun e m => do
        let (x, m) ← e.src m (.imm 7)
        let (_, m) ← e.dstV m (.queue 3) .pending
        pure (x, m)) (fun _ r => r.1 = 7) ∧
    MeetsThen (.mvd .none (.queue 3) .rne .f16 (.imm 5)) sCol (fun e m => do
        let (x, m) ← e.src m (.imm 5)
        let (_, m) ← e.dstV m (.queue 3) .pending
        pure (x, m)) (fun _ r => r.1.toNat % 2 ≠ 0) := by
  simp only [List.forall_mem_cons, List.not_mem_nil, false_implies, implies_true, and_true]
  exact ⟨meetsThen (by decide +kernel), ⟨meetsThen (by decide +kernel), meetsThen (by decide +kernel)⟩, meetsThen (by decide +kernel), meetsThen (by decide +kernel), meetsR (by decide +kernel),
    meetsR (by decide +kernel), meets (by decide +kernel), meetsThen (by decide +kernel), meetsThen (by decide +kernel)⟩

/-! ### Statements on vectors -/

/-- cmp of core 0 with entries of several types in v0 to v7. -/
def kV : Core :=
  { kA with
    vq := [(0, [⟨11, .present ⟨.f32, 0x3F800000⟩⟩, ⟨12, .present ⟨.f32, 0x40000000⟩⟩, ⟨13, .present ⟨.f32, 0⟩⟩]),
      (1, [⟨14, .present ⟨.i32, 5⟩⟩, ⟨15, .present ⟨.i32, 7⟩⟩]), (2, [⟨16, .present ⟨.f32, 0x40400000⟩⟩]),
      (3, [⟨17, .present ⟨.i8, 5⟩⟩, ⟨18, .present ⟨.i8, 0xFF⟩⟩]), (4, [⟨19, .present ⟨.f8a, 0x38⟩⟩]),
      (5, [⟨20, .present ⟨.e8, 0x7F⟩⟩]), (6, [⟨21, .present ⟨.i16, 0x7FFF⟩⟩, ⟨22, .present ⟨.i16, 0x8000⟩⟩]),
      (7, [⟨23, .present ⟨.bf16, 0x3F80⟩⟩, ⟨24, .present ⟨.bf16, 0⟩⟩])]
    masks := [(1, ⟨5, 0⟩), (2, ⟨0x80, 1⟩)] }
abbrev sV : State := sA 0 .cmp kV

/-- The operands and the destination of a vector instruction with one, two or three vector sources. -/
def chk1V (a : Src) (e : Env) (m : Mach) : Chk VOp := do
  let (x, m) ← e.srcV m a
  let _ ← e.dstV m (.queue 9) .pending
  pure x
def chk2V (a b : Src) (e : Env) (m : Mach) : Chk (List VOp) := do
  let (x, m) ← e.srcV2 m a b
  let _ ← e.dstV m (.queue 9) .pending
  pure x
def chk3V (a b : Src) (q : BitVec 3) (e : Env) (m : Mach) : Chk (List VOp) := do
  let (x, m) ← e.srcV3 m a b q
  let _ ← e.dstV m (.queue 9) .pending
  pure x
/-- A vector source, a scalar source and a vector destination. -/
def chkVS (a b : Src) (e : Env) (m : Mach) : Chk (VOp × Word) := do
  let (x, m) ← e.srcV m a
  let (n, m) ← e.src m b
  let _ ← e.dstV m (.queue 9) .pending
  pure (x, n)

/-- The operands are entries with these tags, or broadcast. -/
abbrev tagged (f : Fmt) (l : List VOp) : Prop := typeOf l = f ∧ l.all (fun x => decide (x.tag f = f)) = true

theorem witness_VectorArithmetic :
    MeetsThen (.vadd .none (.queue 9) false .rup (.pop 0) (.pop 0)) sV (chk2V (.pop 0) (.pop 0)) (fun _ r => tagged .f32 r) ∧
    MeetsThen (.vsub .none (.queue 9) true .rne (.pop 1) .lane) sV (chk2V (.pop 1) .lane) (fun _ r => tagged .i32 r) ∧
    MeetsThen (.vmul .none (.queue 9) false .rne (.imm 15) (.pop 3)) sV (chk2V (.imm 15) (.pop 3)) (fun _ r => tagged .i8 r) ∧
    MeetsThen (.vadd .none (.queue 9) false .rne (.pop 0) (.pop 1)) sV (fun e m => e.srcV2 m (.pop 0) (.pop 1))
      (fun _ r => r.1 = [.entry ⟨.f32, 0x3F800000⟩, .entry ⟨.i32, 5⟩]) ∧
    MeetsThen (.vmul .none (.queue 9) false .rne (.pop 4) (.peek 4)) sV (fun e m => e.srcV2 m (.peek 4) (.peek 4))
      (fun _ r => tagged .f8a r.1 ∧ kindOf .f8a = .narrow) ∧
    MeetsThen (.vsub .none (.queue 9) false .rtz (.pop 1) (.pop 1)) sV (fun e m => e.srcV2 m (.pop 1) (.pop 1))
      (fun _ r => tagged .i32 r.1) ∧
    MeetsThen (.vfma .none (.queue 9) true 2 (.pop 0) (.pop 0)) sV (chk3V (.pop 0) (.pop 0) 2) (fun _ r => tagged .f32 r) ∧
    MeetsThen (.vfma .none (.queue 9) false 1 (.pop 1) .lane) sV (chk3V (.pop 1) .lane 1) (fun _ r => tagged .i32 r) ∧
    MeetsThen (.vdot .none (.queue 9) false 1 (.pop 3) (.pop 3)) sV (chk3V (.pop 3) (.pop 3) 1)
      (fun _ r => r = [.entry ⟨.i8, 5⟩, .entry ⟨.i8, 0xFF⟩, .entry ⟨.i32, 5⟩]) ∧
    MeetsThen (.vdot .none (.queue 9) true 2 (.pop 7) (.pop 7)) sV (chk3V (.pop 7) (.pop 7) 2)
      (fun _ r => r = [.entry ⟨.bf16, 0x3F80⟩, .entry ⟨.bf16, 0⟩, .entry ⟨.f32, 0x40400000⟩]) :=
  ⟨meetsThen (by decide +kernel), meetsThen (by decide +kernel), meetsThen (by decide +kernel), meetsThen (by decide +kernel),
    meetsThen (by decide +kernel), meetsThen (by decide +kernel), meetsThen (by decide +kernel), meetsThen (by decide +kernel),
    meetsThen (by decide +kernel), meetsThen (by decide +kernel)⟩

theorem witness_VectorBits :
    (∀ f : MnxOp, MeetsThen (.vmnx .none (.queue 9) f (.pop 0) (.pop 0)) sV (chk2V (.pop 0) (.pop 0)) (fun _ r => tagged .f32 r)) ∧
    (∀ c : VcmpOp, MeetsThen (.vcmp .none (.queue 9) true c (.pop 0) .zero) sV (chk2V (.pop 0) .zero) (fun _ r => tagged .f32 r)) ∧
    (∀ c : VcmpOp, MeetsThen (.vcmp .none (.mask 6) false c (.pop 1) (.pop 1)) sV (fun e m => do
        let (x, m) ← e.srcV2 m (.pop 1) (.pop 1)
        let _ ← e.maskRes m 6 0 0
        pure x) (fun _ r => tagged .i32 r)) ∧
    (∀ k ∈ [(0 : BitVec 3), 1], MeetsThen (.vsel .none (.queue 9) false k (.pop 0) (.pop 0)) sV (chk2V (.pop 0) (.pop 0))
      (fun m r => ((m.core 0).maskReg k.toNat).pending = 0 ∧ tagged .f32 r)) ∧
    (∀ f : VlogOp, f ≠ .not → MeetsThen (.vlog .none (.queue 9) f (.pop 3) (.pop 3)) sV (chk2V (.pop 3) (.pop 3))
      (fun _ r => r = [.entry ⟨.i8, 5⟩, .entry ⟨.i8, 0xFF⟩])) ∧
    MeetsThen (.vlog .none (.queue 9) .not (.pop 3) (.pop 0)) sV (chk1V (.pop 3)) (fun _ r => r = .entry ⟨.i8, 5⟩) ∧
    (∀ f : ShiftOp, MeetsThen (.vshf .none (.queue 9) f (.pop 1) (.pop 1)) sV (chk2V (.pop 1) (.pop 1)) (fun _ r => tagged .i32 r)) ∧
    (∀ f ∈ [VmskOp.and, .or, .xor, .andn], MeetsThen (.vmsk .none (.mask 6) (.two f 1 0)) sV (fun e m => e.maskRes m 6 0 0)
      (fun m _ => ((m.core 0).maskReg 1).pending = 0 ∧ ((m.core 0).maskReg 0).pending = 0)) ∧
    MeetsThen (.vmsk .none (.mask 0) (.one .not 1)) sV (fun e m => e.maskRes m 0 0 0) (fun m _ => ((m.core 0).maskReg 1).pending = 0) ∧
    (∀ f ∈ [VmskOp.pcnt, .ffs], MeetsThen (.vmsk .none (.queue 3) (.one f 1)) sV (fun e m => e.dst m (.queue 3) .pending)
      (fun m _ => ((m.core 0).maskReg 1).pending = 0 ∧ ((m.core 0).maskReg 1).bits.getLsbD 0 = true)) ∧
    MeetsThen (.vmsk .none (.queue 3) (.one .ffs 2)) sV (fun e m => e.dst m (.queue 3) .pending)
      (fun m _ => 0 < ((m.core 0).maskReg 2).pending) ∧
    MeetsThen (.vmsk .none (.mask 6) (.fromv (.pop 0))) sV (fun e m => do
        let (x, m) ← e.srcV m (.pop 0)
        let _ ← e.maskRes m 6 0 0
        pure x) (fun _ r => typeOf [r] = .f32) := by
  simp only [List.forall_mem_cons, List.not_mem_nil, false_implies, implies_true, and_true]
  refine ⟨fun f => ?_, fun c => ?_, fun c => ?_, ⟨meetsThen (by decide +kernel), meetsThen (by decide +kernel)⟩, fun f h => ?_,
    meetsThen (by decide +kernel), fun f => ?_, ⟨meetsThen (by decide +kernel), meetsThen (by decide +kernel),
    meetsThen (by decide +kernel), meetsThen (by decide +kernel)⟩, meetsThen (by decide +kernel),
    ⟨meetsThen (by decide +kernel), meetsThen (by decide +kernel)⟩, meetsThen (by decide +kernel), meetsThen (by decide +kernel)⟩
  · cases f <;> exact meetsThen (by decide +kernel)
  · cases c <;> exact meetsThen (by decide +kernel)
  · cases c <;> exact meetsThen (by decide +kernel)
  · cases f
    case not => exact absurd rfl h
    all_goals exact meetsThen (by decide +kernel)
  · cases f <;> exact meetsThen (by decide +kernel)

theorem witness_VectorMoves :
    (∀ f ∈ [VprmOp.zlo, .zhi, .uev, .uod], MeetsThen (.vprm .none (.queue 9) f (.pop 0) (.pop 0)) sV (chk2V (.pop 0) (.pop 0))
      (fun _ r => tagged .f32 r)) ∧
    MeetsThen (.vprm .none (.queue 9) .idx (.pop 0) (.pop 0)) sV (chk2V (.pop 0) (.pop 0)) (fun _ r => tagged .f32 r) ∧
    MeetsThen (.vprm .none (.queue 9) .idx (.pop 3) (.pop 3)) sV (chk2V (.pop 3) (.pop 3)) (fun _ r => tagged .i8 r) ∧
    MeetsThen (.vprm .none (.queue 9) .idx (.pop 7) (.pop 6)) sV (chk2V (.pop 7) (.pop 6))
      (fun _ r => r = [.entry ⟨.bf16, 0x3F80⟩, .entry ⟨.i16, 0x7FFF⟩]) ∧
    MeetsThen (.vprm .none (.queue 9) .rot (.pop 3) (.imm 15)) sV (chkVS (.pop 3) (.imm 15)) (fun _ r => r.1 = .entry ⟨.i8, 5⟩) ∧
    MeetsThen (.vprm .none (.queue 9) .rev (.pop 3) (.pop 0)) sV (chk1V (.pop 3)) (fun _ r => r = .entry ⟨.i8, 5⟩) ∧
    MeetsThen (.vbrd .none (.queue 9) (.e (.pop 3) (.imm 7))) sV (chkVS (.pop 3) (.imm 7)) (fun _ r => r.1 = .entry ⟨.i8, 5⟩) ∧
    MeetsThen (.vbrd .none (.queue 9) (.x (.imm 7) .f6a)) sV (fun e m => do
        let (x, m) ← e.src m (.imm 7)
        let _ ← e.dstV m (.queue 9) .pending
        pure x) (fun _ r => r = 7) ∧
    (∀ n ∈ [(0x1FF : BitVec 32), 0x200], MeetsThen (.vlane .none (.queue 3) (.pop 3) (.lit32 n)) sV (fun e m => do
        let (x, m) ← e.srcV m (.pop 3)
        let (n, m) ← e.src m (.lit32 n)
        let _ ← e.dst m (.queue 3) .pending
        pure (x, n)) (fun _ r => r = (.entry ⟨.i8, 5⟩, n.setWidth 64) ∧ fmtN .i8 = 0x200)) ∧
    MeetsThen (.vwid .none (.queue 9) .i32 (.pop 3)) sV (fun e m => do
        let (x, m) ← e.srcV m (.pop 3)
        let _ ← e.dstVs (.queue 9) (widened .i32 4 []) m
        pure x) (fun _ r => r = .entry ⟨.i8, 5⟩ ∧ vwidOk .i8 .i32 = true) ∧
    MeetsThen (.vnar .none (.queue 9) true .i8 (.pop 6)) sV (fun e m => do
        let (vs, m) ← e.heads 6 (fmtW .i16 / fmtW .i8) m
        let _ ← e.dstV m (.queue 9) .pending
        pure vs) (fun m r => (m.core 0).headV 6 = .ok ⟨.i16, 0x7FFF⟩ ∧ r = [⟨.i16, 0x7FFF⟩, ⟨.i16, 0x8000⟩]) ∧
    MeetsThen (.vidx .none (.queue 9) .i32 .zero (.imm 1)) sV (fun e m => do
        let (x, y, m) ← e.src2 m .zero (.imm 1)
        let _ ← e.dstV m (.queue 9) .pending
        pure (x, y)) (fun _ r => r = (0, 1)) ∧
    (∀ f : RedOp, MeetsThen (.vred .none (.queue 9) f (.pop 1) .zero) sV (chkVS (.pop 1) .zero) (fun _ r => r = (.entry ⟨.i32, 5⟩, 0))) ∧
    (∀ f : RedOp, MeetsThen (.vscn .none (.queue 9) true f (.pop 1)) sV (chk1V (.pop 1)) (fun _ r => r = .entry ⟨.i32, 5⟩)) := by
  simp only [List.forall_mem_cons, List.not_mem_nil, false_implies, implies_true, and_true]
  refine ⟨⟨meetsThen (by decide +kernel), meetsThen (by decide +kernel), meetsThen (by decide +kernel), meetsThen (by decide +kernel)⟩,
    meetsThen (by decide +kernel), meetsThen (by decide +kernel), meetsThen (by decide +kernel), meetsThen (by decide +kernel),
    meetsThen (by decide +kernel), meetsThen (by decide +kernel), meetsThen (by decide +kernel),
    ⟨meetsThen (by decide +kernel), meetsThen (by decide +kernel)⟩, meetsThen (by decide +kernel), meetsThen (by decide +kernel),
    meetsThen (by decide +kernel), fun f => ?_, fun f => ?_⟩
  · cases f <;> exact meetsThen (by decide +kernel)
  · cases f <;> exact meetsThen (by decide +kernel)

theorem witness_ScalarFunctions :
    (∀ i ∈ [Instr.sfa .none (.queue 9) .exp2 (.pop 0), .sfb .none (.queue 9) .rcp (.pop 0), .sfc .none (.queue 9) .tanh (.pop 0)],
      MeetsThen i sV (chk1V (.pop 0)) (fun _ r => typeOf [r] = .f32)) ∧
    MeetsThen (.sfa .none (.queue 9) .exp2 (.pop 3)) sV (chk1V (.pop 3)) (fun _ r => kindOf (typeOf [r]) ≠ .wide) ∧
    MeetsThen (.smxs .none (.queue 9) 3 (.pop 0) (.pop 0)) sV (fun e m => do
        let (x, m) ← e.srcV2 m (.pop 0) (.pop 0)
        let _ ← e.dstVs (.queue 9) (smxsRes 3 (elemsOf .f32 0x3F800000) (elemsOf .f32 0x40000000)).outs m
        pure x) (fun _ r => r = [.entry ⟨.f32, 0x3F800000⟩, .entry ⟨.f32, 0x40000000⟩]) ∧
    (∀ x ∈ [(Rnd.sr, Fmt.f8a, some CvtForm.value), (.rne, .f32, some .keep), (.rne, .i32, some .value), (.rne, .e8, none)],
      MeetsThen (.cvt .none (.queue 9) false x.1 x.2.1 (.pop 0)) sV (fun e m => do
        let m := m.onCore 0 fun k => k.popV 0
        let _ ← e.dstV m (.queue 9) .pending
        pure ()) (fun m _ => (m.core 0).headV 0 = .ok ⟨.f32, 0x3F800000⟩ ∧ cvtForm .f32 x.2.1 = x.2.2)) ∧
    MeetsThen (.mxq .none (.queue 10) .rne .f8a (.pop 7)) sV (fun e m => do
        let (vs, m) ← e.heads 7 (widthRatio .bf16 .f8a) m
        let (_, m) ← e.dstV m (.queue 10) .pending
        let _ ← e.dstV m (Dst.scales (.queue 10)) .pending
        pure vs) (fun m r => (m.core 0).headV 7 = .ok ⟨.bf16, 0x3F80⟩ ∧ r.length = 2 ∧ mxEmax .f8a = some 8) ∧
    MeetsThen (.mxx .none (.queue 9) .f32 (.pop 4) (.pop 5)) sV (fun e m => do
        let (x, m) ← e.srcV2 m (.pop 4) (.pop 5)
        let _ ← e.dstVs (.queue 9) (widened .f32 (widthRatio .f8a .f32) []) m
        pure x) (fun _ r => r = [.entry ⟨.f8a, 0x38⟩, .entry ⟨.e8, 0x7F⟩]) ∧
    MeetsThen (.fsc .none (.queue 9) false .rne (.pop 0) (.pop 1)) sV (chk2V (.pop 0) (.pop 1))
      (fun _ r => r = [.entry ⟨.f32, 0x3F800000⟩, .entry ⟨.i32, 5⟩]) ∧
    MeetsThen (.fsc .none (.queue 9) false .rne (.pop 0) (.pop 0)) sV (chk2V (.pop 0) (.pop 0)) (fun _ r => tagged .f32 r) ∧
    MeetsThen (.fsc .none (.queue 9) true .rne (.pop 5) (.pop 0)) sV (chk1V (.pop 5)) (fun _ r => r = .entry ⟨.e8, 0x7F⟩) ∧
    MeetsThen (.fcls .none (.queue 9) (.pop 4)) sV (chk1V (.pop 4)) (fun _ r => r = .entry ⟨.f8a, 0x38⟩) ∧
    MeetsR2 (.srsdSet .none (.pop 1) (.imm 15)) sV (.pop 1) (.imm 15) (fun x _ _ => x = 5) ∧
    Meets0 (.srsdStep .none (.queue 3)) sV (.queue 3) .pending (fun _ _ => True) ∧
    (∀ f : RndmOp, MeetsThen (.rndm .none (.queue 9) f) sV (fun e m =>
      e.dstV (m.onCore 0 fun k => { k with step := k.step + 1 }) (.queue 9) .pending) (fun _ _ => True)) := by
  simp only [List.forall_mem_cons, List.not_mem_nil, false_implies, implies_true, and_true]
  refine ⟨⟨meetsThen (by decide +kernel), meetsThen (by decide +kernel), meetsThen (by decide +kernel)⟩, meetsThen (by decide +kernel),
    meetsThen (by decide +kernel),
    ⟨meetsThen (by decide +kernel), meetsThen (by decide +kernel), meetsThen (by decide +kernel), meetsThen (by decide +kernel)⟩,
    meetsThen (by decide +kernel), meetsThen (by decide +kernel), meetsThen (by decide +kernel), meetsThen (by decide +kernel),
    meetsThen (by decide +kernel), meetsThen (by decide +kernel), meetsR2 (by decide +kernel), meets0 (by decide +kernel), fun f => ?_⟩
  cases f <;> exact meetsThen (by decide +kernel)

theorem witness_Rounding :
    (∃ draw : Nat, draw < 2 ^ 24) ∧
    (∃ (f : FloatFmt) (bits m : Nat) (e : Int), floatFmt .f32 = some f ∧ bits < 2 ^ (f.sign + 1) ∧ f.value bits = .fin false m e ∧ m ≠ 0) ∧
    kindOf .i8 = .int ∧ 0x80 < 2 ^ fmtW .i8 :=
  ⟨⟨2 ^ 24 - 1, by decide⟩, ⟨f32, 0x3F800000, 2 ^ 23, -23, rfl, by decide, by decide, by decide⟩, by decide⟩

/-! ### Statements on copies, accumulates, rings and relays -/

/-- A core of gA with a record at local address 0x40, and its machine. -/
def kRec (ws : List Word) : Core := { kK with local_ := Mem.write [] 0x40 (wordsBytes ws), granules := [(0, .group ⟨0, 0⟩ 1)] }
abbrev sRec (ws : List Word) : State := { State.reset with phase := .ctl, mach := mK (kRec ws) }

/-- A copy of 64 bytes of local space from 0 to 0x1000, with object 1; the same from 1,028 of global space; and to package 5. -/
def recL : List Word := [0x100, 0, 0x1000, 64, 0, 0, 0, 0]
def recA : List Word := [0x101, 4, 0x1000, 64, 0, 0, 0, 0]
def recF : List Word := [0x105, 0x1000, 0, 64, 0, 0, 5, 0]

/-- The record of an instruction and the machine after it. -/
def chkRec (a : Src) (e : Env) (m : Mach) : Chk (List Word × Mach) := do
  let (v, m) ← e.src m a
  e.record m v 8

/-- A copy that the engine runs. -/
def cpA : CopyOp := { copyOf recL false with begun := true }
/-- A core of gA with all its granules, one copy, and an arrival binding of x3 of ctl. -/
def kCpy (x : CopyOp) : Core :=
  { kA with ops := [opK (.cpy x)], granules := (List.range 128).map fun n => (n, .group ⟨0, 0⟩ 1), bindings := [⟨.ctl, ⟨false, 3⟩, 1, 4⟩] }

/-- A package that reaches package 5, from which an admission has come; and a core with 64 queued copies. -/
def tFar : Trust := { Trust.reset with packages := [0, 5] }
def farOf (s : State) : State := { s with trust := tFar, mach := { s.mach with inbox := [.admitted] } }
def queued : List Op := List.replicate 64 (opK (.cpy (copyOf recL false)))
def sFull (ws : List Word) : State := { State.reset with phase := .ctl, mach := mK { kRec ws with ops := queued } }

theorem witness_CopyForms :
    MeetsThen (.cpy .none (.imm 1)) (sRec recL) (fun e m => e.record m 0x40 8) (fun _ r => r.1 = recL ∧
      copyFields (r.2.core 0) r.1 (copyOf r.1 false) = true ∧
      halted ((envOf (sRec recL) (.cpy .none (.imm 1))).copyChecks r.2 (copyOf r.1 false)) = none ∧
      ((r.2.core 0).obj 1).pend < 255 ∧ (r.2.copies (clusterOf 0) false).length < 64 ∧ (copyOf r.1 false).far = false) ∧
    MeetsR (.cpy .none (.lit32 0x40)) (sRec recL) (.lit32 0x40) (fun v _ => v = 0x40) ∧
    MeetsThen (.cpy .none (.lit32 0x40)) (sRec recA) (chkRec (.lit32 0x40)) (fun _ r =>
      halted ((envOf (sRec recA) (.cpy .none (.lit32 0x40))).copyChecks r.2 (copyOf r.1 false)) = some (.trap tAlign 4)) ∧
    MeetsThen (.cpy .none (.lit32 0x40)) (sRec recF) (chkRec (.lit32 0x40)) (fun _ r =>
      copyFields (r.2.core 0) r.1 (copyOf r.1 false) = true ∧ (copyOf r.1 false).far = true ∧ cutOff .reset r.2 5 = true ∧
      halted ((envOf (sRec recF) (.cpy .none (.lit32 0x40))).copyChecks r.2 (copyOf r.1 false)) = none) ∧
    MeetsThen (.cpy .none (.lit32 0x40)) (sRec [0x100, 0, 0, 4]) (chkRec (.lit32 0x40)) (fun _ r =>
      copyFields (r.2.core 0) r.1 (copyOf r.1 false) = false) ∧
    (∀ p ∈ [(0 : Nat), 255], Meets1 (.cwt .none (.queue 3) (.imm 1)) (sA 0 .ctl { kA with objs := [(1, ⟨p, 0, 0, 0, []⟩)] }) (.imm 1) (.queue 3)
      .pending (fun v _ m => v.toNat % 32 = 1 ∧ ((m.core 0).obj 1).pend = p)) ∧
    Meets1 (.cwtTest .none (.queue 3) (.imm 1)) sCtl (.imm 1) (.queue 3) .pending (fun v _ _ => v = 1) ∧
    MeetsR2 (.cbnd .none ⟨false, 3⟩ (.imm 1) (.lit32 0x10000)) sCtl (.imm 1) (.lit32 0x10000) (fun v n m => n.toNat = 65536 ∧
      (m.core 0).isBound .ctl false 3 = false ∧ (m.core 0).bindingOf (v.toNat % 32) = none ∧ (m.core 0).bindPending .ctl ⟨false, 3⟩ 1 = false) ∧
    MeetsR2 (.cbnd .none ⟨false, 3⟩ (.imm 1) (.lit32 0x10001)) sCtl (.imm 1) (.lit32 0x10001) (fun _ n _ => 65536 < n.toNat) ∧
    MeetsR (.cbndOff .none (.imm 1)) (sA 0 .ctl (kCpy cpA)) (.imm 1) (fun _ _ => True) ∧
    (let s := sA 0 .ctl (kCpy { cpA with run := 1 }); (s.mach.core 0).op? 20 = some (opK (.cpy { cpA with run := 1 })) ∧ cpA.runs = 1) ∧
    (let s := sA 0 .ctl (kCpy cpA); (s.mach.core 0).op? 20 = some (opK (.cpy cpA)) ∧ cpA.run = 0 ∧ cpA.buf = none ∧ cpA.done = 0 ∧
      cpA.n1 = 1 ∧ cpA.n2 = 1 ∧ 0 < cpA.n0 ∧ cpA.dbase + cpA.n0 ≤ 0x80000) ∧
    (let s := sA 0 .ctl (kCpy cpA); (s.mach.core 0).later = [] ∧ (s.mach.core 0).localPoison = [] ∧ (s.mach.core 0).local_.wf = true ∧
      (s.mach.core 0).group = some gA ∧ gA.evicted = [] ∧ ∀ n < 128, (s.mach.core 0).granule n = .group ⟨0, 0⟩ 1) ∧
    (let x := { cpA with dsp := 7, buf := some [1, 2, 3, 4, 5, 6, 7, 8] };
      let k := (sA 0 .ctl (kCpy x)).mach.core 0; k.op? 20 = some (opK (.cpy x)) ∧ x.run < x.runs ∧
      k.bindingOf x.obj = some ⟨.ctl, ⟨false, 3⟩, 1, 4⟩ ∧ (k.seq .ctl).exited = false ∧ ((k.seq .ctl).xslots 3).length < 4) ∧
    (({ qA with xq := [(3, [⟨1, .pending⟩, ⟨2, .pending⟩, ⟨3, .pending⟩, ⟨4, .pending⟩])] } : Seq).xslots 3).length = 4 ∧
    MeetsThen (.cpy .none (.lit32 0x40)) (sFull recL) (chkRec (.lit32 0x40)) (fun _ r => (r.2.copies (clusterOf 0) false).length = 64 ∧
      halted ((envOf (sFull recL) (.cpy .none (.lit32 0x40))).copyChecks r.2 (copyOf r.1 false)) = none) ∧
    MeetsThen (.cpy .none (.lit32 0x40)) (farOf (sRec recF)) (chkRec (.lit32 0x40)) (fun _ r => cutOff tFar r.2 5 = false ∧
      (copyOf r.1 false).far = true ∧
      halted ((envOf (farOf (sRec recF)) (.cpy .none (.lit32 0x40))).copyChecks r.2 (copyOf r.1 false)) = none ∧
      halted ((envOf (farOf (sRec recF)) (.cpy .none (.lit32 0x40))).farCheck r.2 (copyOf r.1 false)) = none) := by
  simp only [List.forall_mem_cons, List.not_mem_nil, false_implies, implies_true, and_true]
  exact ⟨meetsThen (by decide +kernel), meetsR (by decide +kernel), meetsThen (by decide +kernel), meetsThen (by decide +kernel),
    meetsThen (by decide +kernel), ⟨meets1 (by decide +kernel), meets1 (by decide +kernel)⟩, meets1 (by decide +kernel),
    meetsR2 (by decide +kernel), meetsR2 (by decide +kernel), meetsR (by decide +kernel), by decide +kernel, by decide +kernel,
    by decide +kernel, by decide +kernel, by decide, meetsThen (by decide +kernel), meetsThen (by decide +kernel)⟩

/-- The operands of CACC. -/
def chkAcc (f : AccOp) (w : BitVec 64) (e : Env) (m : Mach) : Chk (Option Target × Word) := do
  let (w, _, m) ← e.src2 m (.lit64 w) (.pop 1)
  let (c, m) ← e.comparand m f (.queue 2)
  let _ ← e.dst m (.queue 2) .pending
  pure (Target.ofWord w f, c)

/-- A COMMON region of device space. -/
def rCd : Region := ⟨4, 1, .dev, 0x40000, 0x10000, 2, ⟨.common, .none, [], [], none, []⟩, none⟩
abbrev sAcc : State := { sKey with mach := { mK kK with regions := [rG, rC, rCd] } }

/-- An accumulate on 0x4000. -/
def acA : AccOpRec := ⟨.add, false, false, 0x4000, 0x4000, none, 5, 0, .pkg, .rel, false⟩

theorem witness_Accumulates :
    MeetsThen (.cacc .none (.queue 2) .load (.lit64 (2 ^ 58)) (.pop 1)) sAcc (chkAcc .load (2 ^ 58)) (fun _ r => r.1 = none) ∧
    MeetsThen (.cacc .none (.queue 2) .add (.lit64 (2 ^ 60 + 0x4004)) (.pop 1)) sAcc (chkAcc .add (2 ^ 60 + 0x4004)) (fun _ r =>
      r.1 = some ⟨.core, .rlx, false, false, none, 0x4004⟩) ∧
    MeetsThen (.cacc .none (.queue 2) .cas (.lit64 0x4FF8) (.pop 1)) sAcc (chkAcc .cas 0x4FF8) (fun m r =>
      r = (some ⟨.core, .acq, false, false, none, 0x4FF8⟩, 0) ∧ m.commonAt false 1 0x4FF8 = true ∧ Trust.reset.globalOk 0x4FF8 = true) ∧
    MeetsThen (.cacc .none (.queue 2) .add (.lit64 0x2000) (.pop 1)) sAcc (chkAcc .add 0x2000) (fun m r =>
      r.1 = some ⟨.core, .acq, false, false, none, 0x2000⟩ ∧ m.commonAt false 1 0x2000 = false) ∧
    MeetsThen (.cacc .none (.queue 2) .add (.lit64 0xFFFFFFF8) (.pop 1)) sAcc (chkAcc .add 0xFFFFFFF8) (fun _ r =>
      r.1 = some ⟨.core, .acq, false, false, none, 0xFFFFFFF8⟩ ∧ Trust.reset.globalOk 0xFFFFFFF8 = false) ∧
    MeetsThen (.cacc .none (.queue 2) .swap (.lit64 (2 ^ 56 + 0x40000)) (.pop 1)) sAcc (chkAcc .swap (2 ^ 56 + 0x40000)) (fun m r =>
      r.1 = some ⟨.core, .acq, false, true, none, 0x40000⟩ ∧ m.commonAt true 1 0x40000 = true ∧
      translate .reset m 1 0x40000 = .leaf (2 * 2 ^ 38 + 2 ^ 30 + 0x40000) true false) ∧
    MeetsThen (.cacc .none (.queue 2) .add (.lit64 (2 ^ 55 + 5 * 2 ^ 45 + 8)) (.pop 1)) sAcc (chkAcc .add (2 ^ 55 + 5 * 2 ^ 45 + 8))
      (fun m r => r.1 = some ⟨.core, .acq, false, false, some 5, 8⟩ ∧ cutOff .reset m 5 = true) ∧
    (∀ o ∈ [Order.acq, .rel, .ar, .sc], Meets (.fence .none .fab o .plain) sAcc (fun _ => True)) ∧
    MeetsR2 (.fence .none .pkg .rel (.flag false (.lit32 0x4000) (.pop 1))) sAcc (.lit32 0x4000) (.pop 1) (fun w _ m =>
      w.toNat % 8 = 0 ∧ m.commonAt false 1 w.toNat = true) ∧
    MeetsR2 (.fence .none .pkg .rel (.flag false (.lit32 0x4004) (.pop 1))) sAcc (.lit32 0x4004) (.pop 1) (fun w _ _ => w.toNat % 8 ≠ 0) ∧
    (let op : Op := ⟨20, .ctl, false, false, .fence .pkg .rel none, [], 0, [], none, 0⟩;
      let m := mA 0 { kA with ops := [op] }; (m.core 0).op? 20 = some op ∧ m.released 0 20 .pkg = true) ∧
    (let op : Op := ⟨20, .ctl, false, false, .fence .pkg .rel none, [], 0, [], none, 0⟩;
      let m := mA 0 { kA with ops := [op], posted := [{ pA with id := 5 }] }; m.released 0 20 .pkg = false) ∧
    (let m := mA 0 { kA with ops := [opK (.cacc acA)] }; (m.core 0).op? 20 = some (opK (.cacc acA)) ∧ m.released 0 20 .pkg = true ∧
      (m.core 0).wordBusy 20 .st acA = false ∧ m.wordReady acA = true ∧ m.wordPoison acA = none ∧ (m.home acA.dev).wf = true) ∧
    MeetsThen (.cacc .none (.queue 2) .add (.lit64 (2 ^ 55 + 5 * 2 ^ 45 + 8)) (.pop 1)) (farOf sAcc) (chkAcc .add (2 ^ 55 + 5 * 2 ^ 45 + 8))
      (fun m r => r.1 = some ⟨.core, .acq, false, false, some 5, 8⟩ ∧ cutOff tFar m 5 = false ∧ farGlobalOk 8 = true ∧
        halted ((envOf (farOf sAcc) (.nop .none)).admission m 8) = none) ∧
    (∀ ps ∈ [[], [{ pA with id := 5 }]], let a := { acA with remote := some 5 }; let m := mA 0 { kA with ops := [opK (.cacc a)], posted := ps }
      (m.core 0).op? 20 = some (opK (.cacc a)) ∧ (m.core 0).wordBusy 20 .st a = false ∧ cutOff tFar m 5 = false ∧ a.sent = false ∧
      releases a.order = true ∧ m.released 0 20 a.scope = ps.isEmpty) := by
  simp only [List.forall_mem_cons, List.not_mem_nil, false_implies, implies_true, and_true]
  exact ⟨meetsThen (by decide +kernel), meetsThen (by decide +kernel), meetsThen (by decide +kernel), meetsThen (by decide +kernel),
    meetsThen (by decide +kernel), meetsThen (by decide +kernel), meetsThen (by decide +kernel),
    ⟨meets (by decide +kernel), meets (by decide +kernel), meets (by decide +kernel), meets (by decide +kernel)⟩,
    meetsR2 (by decide +kernel), meetsR2 (by decide +kernel), by decide +kernel, by decide +kernel, by decide +kernel,
    meetsThen (by decide +kernel), by decide +kernel⟩

/-- A ring of which gA reads slot 0, and one that is full. -/
def ringC : Ring := { ringA with c := 1, t := 1, w := 1, state := [(0, .reading ⟨0, 0⟩ true)] }
def ringF : Ring := { ringA with c := 16 }
def sRing (g : Ring) : State := { sKey with mach := { mK kK with regions := [{ rR with ring := some g }, rN] } }

/-- The checks of a ring instruction. -/
abbrev ringOk (i : Instr) (g : Ring) (m : Mach) (slot : Bool) (w : Word) (n : Nat) : Prop :=
  (envOf (sRing g) i).ringChecks m slot w (some n) = .ok ({ rR with ring := some g }, g)

theorem witness_RingForms :
    (∀ v ∈ [(0x50 : BitVec 32), 0x51, 0x100], Meets2 (.rini .none (.queue 3) (.lit32 0x10000) (.lit32 v)) (sRing ringA) (.lit32 0x10000)
      (.lit32 v) (.queue 3) .pending (fun w y _ m => Trust.reset.globalOk w.toNat = true ∧
        (envOf (sRing ringA) (.rini .none (.queue 3) (.lit32 0x10000) (.lit32 v))).exclRegion m .glb w w.toNat = .ok rN ∧
        m.rackHas 0 12 .excl = true ∧ m.ringCount 0 < 256 ∧ (v = 0x100 ↔ 256 ≤ y.toNat))) ∧
    (∃ v : Nat, v < 256 ∧ 2 ^ (v / 16 % 16 + 1) * 2 ^ (v % 16 + 6) = rN.size) ∧
    Meets2 (.rini .none (.queue 3) (.lit32 0xFFFFFFFF) .zero) (sRing ringA) (.lit32 0xFFFFFFFF) .zero (.queue 3) .pending
      (fun w _ _ _ => Trust.reset.globalOk w.toNat = false) ∧
    Meets1 (.rqry .none (.queue 3) (.lit32 0xA000)) (sRing ringB) (.lit32 0xA000) (.queue 3) .pending (fun w _ m =>
      m.ringAt w.toNat = some ({ rR with ring := some ringB }, ringB)) ∧
    Meets2 (.rclm .none (.queue 3) (.lit32 0xA000) (.lit32 16)) (sRing ringA) (.lit32 0xA000) (.lit32 16) (.queue 3) .pending
      (fun w v _ m => ringOk (.rclm .none (.queue 3) (.lit32 0xA000) (.lit32 16)) ringA m false w v.toNat ∧ v.toNat = ringA.freeSlots) ∧
    Meets2 (.rclm .none (.queue 3) (.lit32 0xA000) (.imm 1)) (sRing ringF) (.lit32 0xA000) (.imm 1) (.queue 3) .pending
      (fun w v _ m => ringOk (.rclm .none (.queue 3) (.lit32 0xA000) (.imm 1)) ringF m false w v.toNat ∧ ringF.freeSlots < v.toNat) ∧
    Meets2 (.rwfr .none (.queue 3) (.lit32 0xA000) (.lit32 16)) (sRing ringA) (.lit32 0xA000) (.lit32 16) (.queue 3) .pending
      (fun w v _ m => ringOk (.rwfr .none (.queue 3) (.lit32 0xA000) (.lit32 16)) ringA m false w v.toNat ∧ v.toNat ≤ ringA.freeSlots) ∧
    Meets2 (.rwfr .none (.queue 3) (.lit32 0xA000) (.imm 1)) (sRing ringF) (.lit32 0xA000) (.imm 1) (.queue 3) .pending
      (fun w v _ m => ringOk (.rwfr .none (.queue 3) (.lit32 0xA000) (.imm 1)) ringF m false w v.toNat) ∧
    Meets2 (.rwfl .none (.queue 3) (.lit32 0xA000) (.imm 1)) (sRing ringB) (.lit32 0xA000) (.imm 1) (.queue 3) .pending
      (fun w v _ m => ringOk (.rwfl .none (.queue 3) (.lit32 0xA000) (.imm 1)) ringB m false w v.toNat ∧ v.toNat = ringB.ready) ∧
    Meets2 (.rwfl .none (.queue 3) (.lit32 0xA000) (.imm 2)) (sRing ringB) (.lit32 0xA000) (.imm 2) (.queue 3) .pending
      (fun w v _ m => ringOk (.rwfl .none (.queue 3) (.lit32 0xA000) (.imm 2)) ringB m false w v.toNat ∧ ringB.ready < v.toNat) ∧
    MeetsR2 (.rpub .none (.lit32 0xA040) (.imm 1)) (sRing ringB) (.lit32 0xA040) (.imm 1) (fun w v m =>
      ringOk (.rpub .none (.lit32 0xA040) (.imm 1)) ringB m true w v.toNat ∧ ringB.slot 1 = .claimed ⟨0, 0⟩ true) ∧
    MeetsR2 (.rpub .none (.lit32 0xA000) (.imm 1)) (sRing ringB) (.lit32 0xA000) (.imm 1) (fun w v m =>
      ringOk (.rpub .none (.lit32 0xA000) (.imm 1)) ringB m true w v.toNat ∧ ringB.slot 0 ≠ .claimed ⟨0, 0⟩ true) ∧
    MeetsR2 (.rrel .none (.lit32 0xA000) (.imm 1)) (sRing ringC) (.lit32 0xA000) (.imm 1) (fun w v m =>
      ringOk (.rrel .none (.lit32 0xA000) (.imm 1)) ringC m true w v.toNat ∧ ringC.slot 0 = .reading ⟨0, 0⟩ true) ∧
    (∀ x ∈ [OpKind.rpub 8 1 1, .rrel 8 0 1], let op : Op := ⟨20, .st, false, false, x, [], 0, [], none, 0⟩;
      let m := { mK { kK with ops := [op] } with regions := [rR1, { rR with ring := some ringC }] };
      (m.core 0).op? 20 = some op ∧ m.released 0 20 .pkg = true ∧ (m.core 0).earlier 20 = [] ∧
      m.region 8 = some { rR with ring := some ringC }) ∧
    (let s := { sRaced with mach := { sRaced.mach with ids := 100 } }; (s.mach.rackHas 0 1 .excl = false) ∧
      halted ((envOf s (.nop .none)).exclRegion s.mach .glb 0x2000 0x2000) = none ∧ Trust.reset.globalOk 0x2000 = true) := by
  simp only [List.forall_mem_cons, List.not_mem_nil, false_implies, implies_true, and_true]
  exact ⟨⟨meets2 (by decide +kernel), meets2 (by decide +kernel), meets2 (by decide +kernel)⟩, ⟨0x50, by decide⟩, meets2 (by decide +kernel),
    meets1 (by decide +kernel), meets2 (by decide +kernel), meets2 (by decide +kernel), meets2 (by decide +kernel),
    meets2 (by decide +kernel), meets2 (by decide +kernel), meets2 (by decide +kernel), meetsR2 (by decide +kernel),
    meetsR2 (by decide +kernel), meetsR2 (by decide +kernel), by decide +kernel, by decide +kernel, by decide +kernel⟩

/-- A relay channel between cores 0 and 1: into the attention end one payload has arrived that is not taken. -/
def dirA : RelayDir :=
  { n := 4, size := 64, base := 0x20000, rid := 20, gnt := 4, snt := 3, arr := 3, tkn := 2, rls := 0, landed := [], inFlight := [] }
def chA : Channel :=
  { num := 1, attEnd := ⟨none, 0, 1⟩, ffEnd := ⟨none, 1, 1⟩, att := dirA, ff := { dirA with base := 0x21000, rid := 21 }
    broken := false, lostPath := false, closed := false, waiting := [] }
def chFull : Channel := { chA with ff := { chA.ff with snt := 4 } }
def chBroken : Channel := { chA with broken := true }
def sRly (ch : Channel) (ops : List Op) : State := { sKey with mach := { mK { kK with ops := ops } with channels := [ch] } }

/-- The channel that a relay instruction finds open. -/
def openOf (r : Chk EndFound) : Option Channel :=
  match r with
  | .ok (.open_ ch) => some ch
  | _ => none

/-- The end of a channel that a relay instruction names. -/
abbrev endOk (i : Instr) (ch : Channel) (m : Mach) (w : Word) (send : Bool) : Prop :=
  openOf ((envOf (sRly ch []) i).relayEnd m w send) = some ch

theorem witness_RelayForms :
    (∀ ch ∈ [chA, chFull, chBroken], Meets2 (.rlys .none (.queue 3) .loc (.lit32 0x10001) .zero) (sRly ch []) (.lit32 0x10001) .zero (.queue 3)
      .pending (fun w v _ m => endOk (.rlys .none (.queue 3) .loc (.lit32 0x10001) .zero) ch m w true ∧ endSide w = false ∧
        halted ((envOf (sRly ch []) (.rlys .none (.queue 3) .loc (.lit32 0x10001) .zero)).relaySource m .loc v ch.ff.size) = none ∧
        ((m.core 0).obj (w.toNat / 2 ^ 16 % 32)).pend < 255)) ∧
    Meets2 (.rlys .none (.queue 3) .glb (.imm 1) (.lit32 0x2020)) (sRly chA []) (.imm 1) (.lit32 0x2020) (.queue 3) .pending
      (fun w v _ m => endOk (.rlys .none (.queue 3) .glb (.imm 1) (.lit32 0x2020)) chA m w true ∧
        halted ((envOf (sRly chA []) (.rlys .none (.queue 3) .glb (.imm 1) (.lit32 0x2020))).relaySource m .glb v 64) =
          some (.trap tAlign 0x2020)) ∧
    (chA.ff.gnt ≠ chA.ff.snt ∧ chFull.ff.gnt = chFull.ff.snt ∧ chBroken.broken = true) ∧
    (∀ n ∈ [(0 : BitVec 4), 4, 5], ∀ i ∈ [Instr.rlyg .none (.queue 3) (.imm 1) (.imm n), .rlygAdd .none (.queue 3) (.imm 1) (.imm n),
        .rlygRet .none (.queue 3) (.imm 1) (.imm n), .rlyw .none (.queue 3) (.imm 1) (.imm n)],
      Meets2 i (sRly chA []) (.imm 1) (.imm n) (.queue 3) .pending (fun w v _ m => endOk i chA m w false ∧ v.toNat = n.toNat ∧ w = 1)) ∧
    (∀ form < 3, ∀ n ∈ [2, 3], ∀ ch ∈ [chA, chBroken], let op := opK (.rlyg 1 false form n); let m := (sRly ch [op]).mach;
      (m.core 0).later = [] ∧ (m.core 0).op? 20 = some op ∧ m.channel 1 = some ch ∧ (m.core 0).earlier 20 = [] ∧ ch.near = true) ∧
    (2 ≤ (chA.att.tkn - chA.att.rls).toNat ∧ ¬3 ≤ (chA.att.tkn - chA.att.rls).toNat ∧ (chA.att.arr - chA.att.tkn).toNat = 1) ∧
    (let m := (sRly chA []).mach; m.channel 1 = some chA ∧ (chA.ffEnd.core ≠ 0 ∧ chA.attEnd = ⟨none, 0, (m.core 0).ctx⟩)) ∧
    (let p : Payload := ⟨3, [7], 1, none, 0, 9, .loc, 0⟩; let ch := { chA with att := { dirA with inFlight := [p] } }; let m := (sRly ch []).mach;
      m.channel 1 = some ch ∧ m.retainedSlice 0x20000 = none ∧ ch.att.inFlight.find? (fun x => decide (x.slot = 3)) = some p ∧
      p.slot = ch.att.arr.toNat ∧ m.global.wf = true) ∧
    (SMap.get? (sRly chA []).mach.contexts 1).isSome = true ∧
    (((sRly chA queued).mach.copies (clusterOf 0) false).length = 64 ∧ ((sRly chA queued).mach.core 0).op? 20 ≠ none ∧ chA.near = true) ∧
    (let m := { (sRly chA []).mach with contexts := [] }; m.channel 1 = some chA ∧ (SMap.get? m.contexts 1).isSome = false) ∧
    (∀ w ∈ [(0x1001 : Nat), 1], let x := if (BitVec.ofNat 64 w).getLsbD 12 then chA.ffEnd else chA.attEnd
      w < 2 ^ 16 ∧ w / 2 ^ 13 % 8 = 0 ∧ (sRly chA []).mach.channel (w % 4096) = some chA ∧
      (x = ⟨none, 0, ((sRly chA []).mach.core 0).ctx⟩ ↔ w = 1)) := by
  simp only [List.forall_mem_cons, List.not_mem_nil, false_implies, implies_true, and_true]
  refine ⟨⟨meets2 (by decide +kernel), meets2 (by decide +kernel), meets2 (by decide +kernel)⟩, meets2 (by decide +kernel), by decide,
    ⟨⟨meets2 (by decide +kernel), meets2 (by decide +kernel), meets2 (by decide +kernel), meets2 (by decide +kernel)⟩,
      ⟨meets2 (by decide +kernel), meets2 (by decide +kernel), meets2 (by decide +kernel), meets2 (by decide +kernel)⟩,
      ⟨meets2 (by decide +kernel), meets2 (by decide +kernel), meets2 (by decide +kernel), meets2 (by decide +kernel)⟩⟩,
    by decide +kernel, by decide, by decide +kernel, by decide +kernel, by decide +kernel, by decide +kernel, by decide +kernel,
    by decide +kernel⟩

/-! ### Statements on hand-off, weight loads, launches and collectives -/

/-- A record, after the source and the destination of its instruction. -/
def chkDRec (a : Src) (e : Env) (m : Mach) : Chk (List Word × Mach) := do
  let (v, m) ← e.src m a
  let (_, m) ← e.dst m (.queue 3) .pending
  e.record m v 8

/-- A hand-off of 16 tokens of i8 rows to handle 6, and others that its checks refuse. -/
def hofA : List Word := [6 * 2 ^ 44 + 2 * 2 ^ 10 + 1, 16, 0x10000, 0x20000, 64, 0, 0, 0]
def kHof (ws : List Word) : Core := { kRec ws with view := [⟨2, .excl⟩, ⟨6, .excl⟩] }
def mHof (ws : List Word) : Mach := { mM (kHof ws) with regions := [rD, rB6], seqs := [bB] }
abbrev sHof (ws : List Word) : State := { State.reset with phase := .ctl, mach := mHof ws }
abbrev eHof (ws : List Word) : Env := envOf (sHof ws) (.hoff .none (.queue 3) (.lit32 0x40))

/-- The operation of number 20 may be decided: nothing earlier is under way on core 0. -/
def opReady (m : Mach) (op : Op) : Bool :=
  decide ((m.core 0).later = []) && decide ((m.core 0).op? 20 = some op) && decide ((m.core 0).earlier 20 = [])

/-- A waybill of handle 6 of two blocks. -/
def wbA (st : WState) (moved : Nat) : Waybill :=
  { num := 3, ctx := 1, state := st, desc := hofA, krid := 2, vrid := 2, hrid := 6, frames := [16385, 16386], resFrames := 0, nb := 1
    total := 2, moved := moved, flags := 0, issuer := none, handReq := none, gone := false, completed := false }
abbrev sWb (w : Waybill) (ops : List Op) : State :=
  { sHof hofA with mach := { mHof hofA with waybills := [w], cores := SMap.set [] 0 { kHof hofA with ops := ops } } }

theorem witness_HandoffForms :
    MeetsThen (.hoff .none (.queue 3) (.lit32 0x40)) (sHof [0, 2 ^ 32]) (chkDRec (.lit32 0x40)) (fun _ r => hoffFields r.1 = false) ∧
    MeetsThen (.hoff .none (.queue 3) (.lit32 0x40)) (sHof [7 * 2 ^ 44]) (chkDRec (.lit32 0x40)) (fun _ r =>
      hoffFields r.1 = true ∧ r.2.bseq 1 (hHandle r.1) = none) ∧
    MeetsThen (.hoff .none (.queue 3) (.lit32 0x40)) (sHof [6 * 2 ^ 44, 16, 32]) (chkDRec (.lit32 0x40)) (fun _ r =>
      hoffFields r.1 = true ∧ r.2.bseq 1 (hHandle r.1) = some bB ∧ (wordAt r.1 2).toNat % 64 ≠ 0) ∧
    MeetsThen (.hoff .none (.queue 3) (.lit32 0x40)) (sHof [6 * 2 ^ 44, 16, 2 ^ 57]) (chkDRec (.lit32 0x40)) (fun _ r =>
      hoffFields r.1 = true ∧ r.2.bseq 1 (hHandle r.1) = some bB ∧ (wordAt r.1 2).toNat = 2 ^ 57 ∧ wordAt r.1 3 = 0 ∧
      hLstr r.1 = 0 ∧ hRstr r.1 = 0) ∧
    MeetsThen (.hoff .none (.queue 3) (.lit32 0x40)) (sHof hofA) (chkDRec (.lit32 0x40)) (fun _ r => r.1 = hofA ∧ hoffFields hofA = true ∧
      r.2.bseq 1 6 = some bB ∧ hRowsPast hofA bB.shape (2 ^ 57) (2 ^ 57) = none ∧
      (hoffPages (some rD) (some rD)).all (fun x => (halted ((eHof hofA).hoffPage r.2 true x)).isNone) = true) ∧
    MeetsThen (.hoff .none (.queue 3) (.lit32 0x40)) (sHof hofA) (chkDRec (.lit32 0x40)) (fun _ r =>
      r.2.regionAt .dev 1 0x10000 = some rD ∧ r.2.regionAt .dev 1 0x20000 = some rD ∧
      (eHof hofA).exclRegion r.2 .dev 0x10000 0x10000 = .ok rD ∧ (eHof hofA).exclRegion r.2 .dev 0x20000 0x20000 = .ok rD ∧
      hRowsPast hofA bB.shape (rD.base + rD.size) (rD.base + rD.size) = none ∧
      (eHof hofA).exclRegion r.2 .blk (handleAddr 6) (handleAddr 6).toNat = .ok rB6 ∧ ((r.2.core 0).obj (hObj hofA)).pend < 255) ∧
    MeetsThen (.hoff .none (.queue 3) (.lit32 0x40)) (sHof hofA) (chkDRec (.lit32 0x40)) (fun _ r =>
      (∀ x ∈ [2, 6], r.2.rackHas 0 x .excl = true) ∧ (r.2.copies (clusterOf 0) false).length < 64 ∧
      halted ((eHof hofA).hoffPage r.2 true 0x10000) = none ∧ halted ((eHof hofA).hoffPage r.2 true 0x20000) = none) ∧
    ((mA 0 { kA with ops := queued }).copies (clusterOf 0) false).length = 64 ∧
    (∀ x ∈ [((1 : BitVec 6), 3), (2, 3), (1, 4)], let op := opK (.hqry x.2 4); let m := (sWb { wbA .sealed 2 with ctx := x.1 } [op]).mach
      opReady m op = true ∧ (m.waybill x.2 = some { wbA .sealed 2 with ctx := x.1 } ↔ x.2 = 3) ∧ (m.core 0).ctx = 1) ∧
    (∀ i ∈ [Instr.hctlSeal .none (.queue 3) (.pop 1), .hctlCommit .none (.queue 3) (.pop 1), .hctlCancel .none (.queue 3) (.pop 1),
        .hctlDrop .none (.queue 3) (.pop 1)], Meets1 i sCtl (.pop 1) (.queue 3) .pending (fun _ _ _ => True)) ∧
    (∀ n ∈ [(15 : BitVec 32), 16], Meets2 (.hctlQry .none (.queue 3) (.lit32 0x30000) (.lit32 n)) (sWb (wbA .open_ 0) []) (.lit32 0x30000)
      (.lit32 n) (.queue 3) .pending (fun w x _ m => x.toNat = n.toNat ∧ m.waybill (w.toNat / 2 ^ 16 % 1024) = some (wbA .open_ 0))) ∧
    Meets2 (.hctlQry .none (.queue 3) .zero (.imm 1)) (sWb (wbA .open_ 0) []) .zero (.imm 1) (.queue 3) .pending (fun w _ _ m =>
      m.waybill (w.toNat / 2 ^ 16 % 1024) = none) ∧
    (∀ form < 4, ∀ st ∈ [WState.open_, .moving, .sealed, .committed, .cancelled], let op := opK (.hctl form 3);
      let m := (sWb (wbA st 2) [op]).mach; opReady m op = true ∧ m.waybill 3 = some (wbA st 2) ∧
      (wbA st 2).moved = (wbA st 2).total) ∧
    (∀ n < 2, let m := (sWb (wbA .moving n) []).mach; m.waybills.find? Waybill.unmoved = some (wbA .moving n) ∧
      m.bseq 1 (hHandle hofA) = some bB ∧ m.dramPoison = []) := by
  simp only [List.forall_mem_cons, List.not_mem_nil, false_implies, implies_true, and_true]
  refine ⟨meetsThen (by decide +kernel), meetsThen (by decide +kernel), meetsThen (by decide +kernel), meetsThen (by decide +kernel),
    meetsThen (by decide +kernel), meetsThen (by decide +kernel), meetsThen (by decide +kernel), by decide +kernel,
    ⟨by decide +kernel, by decide +kernel, by decide +kernel⟩,
    ⟨meets1 (by decide +kernel), meets1 (by decide +kernel), meets1 (by decide +kernel), meets1 (by decide +kernel)⟩,
    ⟨meets2 (by decide +kernel), meets2 (by decide +kernel)⟩, meets2 (by decide +kernel), by decide +kernel, by decide +kernel⟩

/-- A load of one chunk of 64 bytes from device 0x10000 to global 0x10000, whose manifest is in slot 0. -/
def cwA : List Word := [0x112, 0x10000, 0x10000, 2 ^ 32, 0, 0, 0, 0]
abbrev sCw (ws : List Word) : State :=
  { sRec ws with trust := { Trust.reset with manifests := [(0, ⟨1, 64, [0]⟩)] } }
abbrev eCw : Env := envOf (sCw cwA) (.cwld .none (.queue 3) (.lit32 0x40))

theorem witness_WeightLoads :
    MeetsThen (.cwld .none (.queue 3) (.lit32 0x40)) (sCw [0x112]) (chkDRec (.lit32 0x40)) (fun _ r => cwldFields r.1 = false) ∧
    MeetsThen (.cwld .none (.queue 3) (.lit32 0x40)) (sCw [0x112, 32, 0, 2 ^ 32]) (chkDRec (.lit32 0x40)) (fun _ r =>
      cwldFields r.1 = true ∧ (wordAt r.1 1).toNat % 64 ≠ 0) ∧
    MeetsThen (.cwld .none (.queue 3) (.lit32 0x40)) (sCw [0x112, 0, 32, 2 ^ 32]) (chkDRec (.lit32 0x40)) (fun _ r =>
      cwldFields r.1 = true ∧ (wordAt r.1 1).toNat % 64 = 0 ∧ (wordAt r.1 2).toNat % 64 ≠ 0) ∧
    MeetsThen (.cwld .none (.queue 3) (.lit32 0x40)) (sCw cwA) (chkDRec (.lit32 0x40)) (fun _ r => r.1 = cwA ∧ cwldFields cwA = true ∧
      (cwldSides (sCw cwA).trust 1 cwA).all (fun x => runInSpace (sCw cwA).trust x.2 x.1 && (halted (eCw.runTranslates x.2 x.1 r.2)).isNone &&
        (runProtected (sCw cwA).trust r.2 1 false x.2 x.1).isNone && decide (sliceOf x.1.2.1 = sliceOf (x.1.2.1 + x.2 - 1))) = true ∧
      (cwldSides (sCw cwA).trust 1 cwA).mapM (cwldKeys r.2 0) = .ok [[], [12]] ∧ r.2.rackHas 0 12 .excl = true ∧
      (r.2.copies (clusterOf 0) false).length < 64 ∧ ((r.2.core 0).obj (wObj cwA)).pend < 255) ∧
    (let op := opK (.cwld cwA [12] (some ⟨64, [0], 0⟩)); let k := { kA with ops := [op], objs := [(1, ⟨1, 0, 0, 0, []⟩)] }; let m := mK k;
      (m.core 0).op? 20 = some op ∧ 0 < ((m.core 0).obj (wObj cwA)).pend ∧ wDsp cwA = 1 ∧ m.retainedSlice (wDst cwA 0) = none ∧
      m.global.wf = true ∧ (chunkRead .reset m (m.engineCtx 0 (some ⟨0, 0⟩)) cwA 0 64).toOption = some (List.replicate 64 0)) :=
  ⟨meetsThen (by decide +kernel), meetsThen (by decide +kernel), meetsThen (by decide +kernel), meetsThen (by decide +kernel),
    by decide +kernel⟩

/-- The request of gA, at level 2, with one KERN node. -/
def reqA : Request :=
  { rid := 0, words := [0x81, 0, 0, 0, 0, 0, 0x100, 0], level := 2, nodes := [(0, ⟨1, 0, .running, 0⟩)], ending := none, ended := false
    chans := [none, none, none, none], place := none, column := none, placedAt := 0, hands := false, handRun := none
    suspended := false, streams := [] }
abbrev sReq (ws : List Word) : State := { sRec ws with mach := { mK (kRec ws) with requests := [reqA] } }

theorem witness_SystemForms :
    Meets1 (.lnchNode .none (.queue 3) .zero) sCtl .zero (.queue 3) .pending (fun _ _ _ => True) ∧
    (∀ w ∈ [(0x82 : Word), 0x81, 0x41], MeetsThen (.lnchReq .none (.queue 3) (.lit32 0x40)) (sReq [w]) (chkDRec (.lit32 0x40)) (fun _ r =>
      wordAt r.1 0 = w ∧ (r.2.core 0).group = some gA ∧ r.2.request 0 = some reqA ∧ (r.2.seq 0 .ctl).status.super = false ∧
      (w.setWidth 6 = (r.2.core 0).ctx ↔ w ≠ 0x82))) ∧
    (∀ x ∈ [OpKind.lnchReq [], .lnchReq [0x81], .lnchReq [0x81, 0, 0, 0, 0, 0, 0, 1], .lnchNode 9], let op := opK x;
      let m := { mK { kA with ops := [op] } with requests := [reqA] };
      (m.core 0).later = [] ∧ (m.core 0).op? 20 = some op ∧ m.released 0 20 .pkg = true ∧ (m.core 0).group = some gA ∧
      m.node 0 9 = none ∧ m.recordRefused (m.funcOf 1) [0x81] = none ∧
      m.recordRefused (m.funcOf 1) [0x81, 0, 0, 0, 0, 0, 0, 1] = some 4) ∧
    (∀ x ∈ [((0x503 : BitVec 32), (3 : BitVec 4)), (0x1000, 0), (0x600, 0), (0x508, 0), (0, 4)],
      Meets2 (.errqRd .none (.queue 3) (.lit32 x.1) (.imm x.2)) sSup (.lit32 x.1) (.imm x.2) (.queue 3) .pending (fun w n _ _ =>
        (w.toNat < 4096 ∧ w.toNat / 256 % 16 ≤ 5 ∧ w.toNat / 8 % 32 = 0 ∧ n.toNat ≤ 3) ↔ x = (0x503, 3))) ∧
    (∀ x ∈ [((0x503 : BitVec 32), (0 : BitVec 32)), (0x503, 1), (0x503, 256)],
      Meets2 (.errqClr .none (.queue 3) (.lit32 x.1) (.lit32 x.2)) sSup (.lit32 x.1) (.lit32 x.2) (.queue 3) .pending (fun w v _ m =>
        w.toNat < 4096 ∧ v.toNat = x.2.toNat ∧ (m.bank 5 3).seq = 0)) ∧
    (∀ x ∈ [(0x500 : BitVec 32), 0x501], Meets1 (.errqSum .none (.queue 3) (.lit32 x)) sSup (.lit32 x) (.queue 3) .pending (fun w _ _ =>
      w.toNat % 256 = 0 ↔ x = 0x500)) ∧
    (Trust.reset.isLive 5 = true ∧ ({ Trust.reset with dieLive := [true, true, true, true, true, false] } : Trust).isLive 5 = false) := by
  simp only [List.forall_mem_cons, List.not_mem_nil, false_implies, implies_true, and_true]
  exact ⟨meets1 (by decide +kernel), ⟨meetsThen (by decide +kernel), meetsThen (by decide +kernel), meetsThen (by decide +kernel)⟩,
    by decide +kernel,
    ⟨meets2 (by decide +kernel), meets2 (by decide +kernel), meets2 (by decide +kernel), meets2 (by decide +kernel), meets2 (by decide +kernel)⟩,
    ⟨meets2 (by decide +kernel), meets2 (by decide +kernel), meets2 (by decide +kernel)⟩,
    ⟨meets1 (by decide +kernel), meets1 (by decide +kernel)⟩, by decide⟩

/-- A collective of f32 sums with this package alone, of one chunk of 4 KiB at 0x10000. -/
def cgA : List Word := [13 * 2 ^ 44 + 2 ^ 10, 0x10000, 1, 0, 0, 0, 0, 0]
def colA : Collective := { ctx := 1, words := cgA, members := [0], live := [0], runs := [] }
/-- The same collective with package 1 as a child. -/
def colB : Collective := { colA with members := [0, 1], live := [0, 1] }
abbrev sCg (cs : SMap Collective) : State := { sRec cgA with mach := { mK { kRec cgA with ctl := qSup qA } with collectives := cs } }

/-- A collective whose root is package 1, and collectives whose one run is in a given state. -/
def colD : Collective := { colA with members := [1, 0], live := [1, 0] }
def colR (x : Collective) (r : ClrdRun) : Collective := { x with runs := [(0, r)] }
def runSent : ClrdRun := ⟨[(1, 2, [])], none, true, true, false, none, false, false, []⟩
def runWritten (l : List (BitVec 10)) : ClrdRun := { runSent with written := true, wrote := l }
def mCg (x : Collective) (op : Op) : Mach := { mK { kA with ops := [op] } with collectives := [(0, x)] }

/-- The two records of CLGT.set. -/
def chkGroup (g a : BitVec 32) (e : Env) (m : Mach) : Chk (List Word × List Word) := do
  let (_, v, m) ← e.src2 m (.lit32 g) (.lit32 a)
  let (_, m) ← e.dst m (.queue 3) .pending
  let (hd, m) ← e.record m v 8
  let (ls, _) ← e.record m v 9
  pure (hd, ls)

theorem witness_CollectiveForms :
    (∀ cs ∈ [[], [(0, colA)]], MeetsThen (.clgtSet .none (.queue 3) (.lit32 0) (.lit32 0x40)) (sCg cs) (chkGroup 0 0x40) (fun m r =>
      r = (cgA, cgA ++ [0]) ∧ groupRecordOk .reset r.1 [0] = true ∧ cgCount r.1 = 1 ∧ m.collective 0 = SMap.get? cs 0)) ∧
    MeetsThen (.clgtSet .none (.queue 3) (.lit32 0) (.lit32 0)) (sCg []) (chkGroup 0 0) (fun _ r =>
      groupRecordOk .reset r.1 [0] = false) ∧
    Meets2 (.clgtSet .none (.queue 3) (.lit32 16) .zero) (sCg []) (.lit32 16) .zero (.queue 3) .pending (fun w _ _ _ => 16 ≤ w.toNat) ∧
    (∀ x ∈ [(15 : BitVec 32), 16], Meets1 (.clgtClr .none (.queue 3) (.lit32 x)) (sCg []) (.lit32 x) (.queue 3) .pending
      (fun w _ _ => w.toNat < 16 ↔ x = 15)) ∧
    (∀ x ∈ [(0 : BitVec 32), 15, 16], Meets2 (.clgtQry .none (.queue 3) (.lit32 x) .zero) (sCg [(0, colA)]) (.lit32 x) .zero (.queue 3)
      .pending (fun w _ _ m => w.toNat = x.toNat ∧ (m.collective w.toNat = some colA ↔ x = 0))) ∧
    Meets2 (.clrd .none (.queue 3) (.lit64 (2 ^ 36)) .zero) (sCg []) (.lit64 (2 ^ 36)) .zero (.queue 3) .pending
      (fun w _ _ _ => 2 ^ 36 ≤ w.toNat) ∧
    Meets2 (.clrd .none (.queue 3) .zero (.imm 1)) (sCg []) .zero (.imm 1) (.queue 3) .pending (fun _ v _ _ => v.toNat % 64 ≠ 0) ∧
    Meets2 (.clrd .none (.queue 3) (.imm 1) .zero) (sCg [(0, colA)]) (.imm 1) .zero (.queue 3) .pending (fun w v _ m =>
      w.toNat < 2 ^ 36 ∧ v.toNat % 64 = 0 ∧ m.collective (w.toNat % 16) = none) ∧
    Meets2 (.clrd .none (.queue 3) .zero (.lit64 0xFFFFFFC0)) (sCg [(0, colA)]) .zero (.lit64 0xFFFFFFC0) (.queue 3) .pending
      (fun _ v _ m => m.collective 0 = some colA ∧ runInSpace .reset (cgSize cgA) (1, v.toNat, false) = false) ∧
    Meets2 (.clrd .none (.queue 3) .zero (.lit32 0x2000)) (sCg [(0, colA)]) .zero (.lit32 0x2000) (.queue 3) .pending
      (fun _ v _ m => m.collective 0 = some colA ∧ runInSpace .reset (cgSize cgA) (1, v.toNat, false) = true ∧
        runInSpace .reset (cgSize cgA) (1, 0x10000, true) = true ∧ runKeyless m 0 (cgSize cgA) (1, v.toNat, false) = none ∧
        runKeyless m 0 (cgSize cgA) (1, 0x10000, true) = none ∧ cgChunks cgA = 1 ∧ colA.children (colA.rank 0) = []) ∧
    Meets2 (.clrd .none (.queue 3) .zero (.lit32 0x2000)) (sCg [(0, colB)]) .zero (.lit32 0x2000) (.queue 3) .pending
      (fun _ v _ m => m.collective 0 = some colB ∧ runInSpace .reset (cgSize cgA) (1, v.toNat, false) = true ∧
        runInSpace .reset (cgSize cgA) (1, 0x10000, true) = true ∧ runKeyless m 0 (cgSize cgA) (1, v.toNat, false) = none ∧
        runKeyless m 0 (cgSize cgA) (1, 0x10000, true) = none ∧ cgChunks cgA = 1 ∧ 
        colB.children (colB.rank 0) = [1] ∧ (colB.run 0).partials = []) := by
  simp only [List.forall_mem_cons, List.not_mem_nil, false_implies, implies_true, and_true]
  exact ⟨⟨meetsThen (by decide +kernel), meetsThen (by decide +kernel)⟩, meetsThen (by decide +kernel), meets2 (by decide +kernel),
    ⟨meets1 (by decide +kernel), meets1 (by decide +kernel)⟩,
    ⟨meets2 (by decide +kernel), meets2 (by decide +kernel), meets2 (by decide +kernel)⟩, meets2 (by decide +kernel),
    meets2 (by decide +kernel), meets2 (by decide +kernel), meets2 (by decide +kernel), meets2 (by decide +kernel),
    meets2 (by decide +kernel)⟩

/-- The same for what is served and what arrives. -/
theorem witness_CollectiveServed :
    (∀ x ∈ [colR colB { ClrdRun.new with mismatch := true }, colR colB { ClrdRun.new with partials := [(1, 2, [])] }],
      (x.run 0).mismatch = true ∨ (∀ q ∈ x.children (x.rank 0), ∃ y ∈ (x.run 0).partials, y.1 = q ∧ y.2.1 = x.live.length)) ∧
    (let op := opK (.clgtClr 0);
      ∀ x ∈ [(([] : SMap Collective), ([] : List Op)), ([(0, colA)], []), ([(0, colA)], [opK (.clrd 0 0 0x2000)])],
        let m := { mK { kA with ops := op :: x.2 } with collectives := x.1 };
        (m.core 0).later = [] ∧ (m.core 0).op? 20 = some op ∧ m.clrdBusy 0 = !x.2.isEmpty ∧ m.collective 0 = SMap.get? x.1 0) ∧
    (let op := opK (.clrd 0 0 0x2000);
      (∀ x ∈ [colR colB { runSent with mismatch := true }, colR colB { runSent with confirmed := some (2, true) }, colR colB runSent,
          colR colB { runSent with result := some (2, false, []) }, colR colD { runSent with result := some (2, false, []) },
          colR colB (runWritten [1]), colR colD (runWritten []), colA, colD],
        let m := mCg x op;
        (m.core 0).later = [] ∧ (m.core 0).op? 20 = some op ∧ m.collective 0 = some x ∧ m.released 0 20 .fab = true) ∧
      (let m := { mK { kA with ops := [op], posted := [pA] } with collectives := [(0, colA)] };
        (m.core 0).op? 20 = some op ∧ m.released 0 20 .fab = false ∧ (colA.run 0).mismatch = false) ∧
      (∀ x ∈ [colA, colD], x.parent (x.rank 0) = (if x = colD then some 1 else none) ∧ (x.run 0).sent = false ∧
        (x.run 0).confirmed = none ∧ (x.children (x.rank 0)).mapM (x.partial 0) = some [] ∧
        (match engineRead .reset 0 op 0 1 0x2000 64 (mCg x op) with | .ok _ _ => true | _ => false) = true) ∧
      ((colR colB runSent).run 0).result = none ∧ ((colR colB runSent).run 0).written = false ∧ (colR colB runSent).live.length = 2 ∧
      (match engineWrite .reset 0 op 0 1 0x10000 [] (mCg colB op) with | .ok _ _ => true | _ => false) = true ∧
      colB.live.head? = some 0 ∧ colD.live.head? = some 1 ∧ colB.others 0 = [1] ∧
      ((colR colB (runWritten [1])).run 0).wrote = [1] ∧ ((colR colB (runWritten [1])).run 0).written = true) ∧
    (∀ w ∈ [(⟨colB.table, 2, false, some []⟩ : ChildWord), ⟨colD.table, 2, true, none⟩, ⟨colB.table, 3, true, none⟩],
      (mCg (colR colB runSent) (opK .wswp)).collective 0 = some (colR colB runSent) ∧ (w.table = colB.table ↔ w.table ≠ colD.table)) ∧
    ((colR colB runSent).live.length = 2 ∧ SMap.get? (colR colB runSent).runs (0 : BitVec 32).toNat ≠ none ∧
      1 ∈ (colR colB runSent).live ∧ ((colR colB runSent).run 0).confirmed = none ∧
      ((colR colB { runSent with confirmed := some (2, true) }).run 0).confirmed ≠ none) :=
  ⟨by decide +kernel, by decide +kernel, by decide +kernel, by decide +kernel, by decide +kernel⟩

/-! ### The CRC of 32 KiB of zeros: crcBit is linear, so 2^18 steps of it are 18 squarings -/

theorem crcBit_xor (x y : BitVec 32) : crcBit (x ^^^ y) = crcBit x ^^^ crcBit y := by
  unfold crcBit
  rw [BitVec.getLsbD_xor, BitVec.ushiftRight_xor_distrib]
  cases x.getLsbD 0 <;> cases y.getLsbD 0 <;> ext i hi <;>
    simp only [Bool.xor_true, Bool.xor_false, Bool.not_true, Bool.not_false, Bool.false_eq_true, if_true, if_false, BitVec.getElem_xor] <;>
    cases (x >>> 1)[i] <;> cases (y >>> 1)[i] <;> cases (0x82F63B78 : BitVec 32)[i] <;> rfl

theorem crcSteps_xor (n : Nat) (x y : BitVec 32) : crcBit^[n] (x ^^^ y) = crcBit^[n] x ^^^ crcBit^[n] y := by
  induction n generalizing x y with
  | zero => rfl
  | succ n ih => rw [Function.iterate_succ_apply, crcBit_xor, ih, Function.iterate_succ_apply, Function.iterate_succ_apply]

/-- A register as a sum of steps of b, by Horner's rule. -/
def horner (b : BitVec 32) : List Bool → BitVec 32
  | [] => 0
  | x :: r => (if x then b else 0) ^^^ crcBit (horner b r)

/-- The bits of a register from the first step on. -/
def bitsOf (c : BitVec 32) : List Bool := (List.range 32).map fun i => c.getLsbD (31 - i)

theorem crcSteps_zero (n : Nat) : crcBit^[n] 0 = 0 := Function.iterate_fixed (by decide) n

theorem horner_steps (n : Nat) (b : BitVec 32) (l : List Bool) : crcBit^[n] (horner b l) = horner (crcBit^[n] b) l := by
  induction l with
  | nil => exact crcSteps_zero n
  | cons x r ih =>
    rw [horner, crcSteps_xor, ← Function.iterate_succ_apply, Function.iterate_succ_apply', ih, horner]
    cases x
    · rw [if_neg Bool.false_ne_true, if_neg Bool.false_ne_true, crcSteps_zero]
    · rw [if_pos rfl, if_pos rfl]

/-- From n steps of the first register to 2 n. -/
theorem crcSteps_double {n : Nat} {c : BitVec 32} (h : crcBit^[n] 0x80000000 = c) (hc : horner 0x80000000 (bitsOf c) = c) :
    crcBit^[n + n] 0x80000000 = horner c (bitsOf c) := by
  rw [Function.iterate_add_apply, h, ← hc, horner_steps, h, hc]

theorem crcSteps_pow (k : Nat) (c : Nat → BitVec 32) (h0 : crcBit 0x80000000 = c 0)
    (h : ∀ i < k, horner 0x80000000 (bitsOf (c i)) = c i ∧ horner (c i) (bitsOf (c i)) = c (i + 1)) :
    crcBit^[2 ^ k] 0x80000000 = c k := by
  induction k with
  | zero => exact h0
  | succ k ih =>
    have hk := h k (Nat.lt_succ_self k)
    rw [Nat.pow_succ, Nat.mul_two, crcSteps_double (ih fun i hi => h i (Nat.lt_succ_of_lt hi)) hk.1, hk.2]

theorem crcBytes_zero (n : Nat) (c : BitVec 32) : (List.replicate n (0 : Byte)).foldl crcByte c = crcBit^[8 * n] c := by
  induction n generalizing c with
  | zero => rfl
  | succ n ih =>
    rw [List.replicate_succ, List.foldl_cons, ih, Nat.mul_succ, Function.iterate_add_apply]
    simp [crcByte]

/-- 2^i steps of the first register. -/
def crcPow : Nat → BitVec 32
  | 0 => crcBit 0x80000000
  | i + 1 => horner (crcPow i) (bitsOf (crcPow i))

theorem crc_zeros : crc32c (List.replicate 0x8000 0) = 0xBC43BAAD := by
  have h : crcBit^[2 ^ 18] 0x80000000 = crcPow 18 := crcSteps_pow 18 crcPow rfl fun i hi => ⟨by
    interval_cases i <;> decide +kernel, rfl⟩
  have ha : horner 0x80000000 (bitsOf (BitVec.allOnes 32)) = BitVec.allOnes 32 := by decide +kernel
  rw [crc32c, crcBytes_zero, show 8 * 0x8000 = 2 ^ 18 by decide, ← ha, horner_steps, h]
  decide +kernel

/-! ### Statements on the sequencer's queues and nodes -/

/-- Device memory of context 1 with words at device addresses below 2^30. -/
def dramAt (l : List (Nat × List Word)) : Mem := l.foldl (fun m x => Mem.write m (2 * 2 ^ 38 + 2 ^ 30 + x.1) (wordsBytes x.2)) tabs

/-- A record whose graph is one node at 0x1000, one whose graph is malformed, and bad records. -/
def qR : List Word := [0x41, 0x1000, 0, 0, 0, 0, 0x100, 0]
def qR2 : List Word := [0x41, 0x2000, 0, 0, 0, 0, 0x100, 0]
def qOne (w : List Word) : SMap (List QRecord) := [(1, [⟨w, 0⟩]), (2, [⟨w, 0⟩])]
def mQ (w : List Word) (clock : Nat) : Mach :=
  { mM kA with levels := qOne w, dieClock := [(0, clock)], dram := dramAt [(0x1000, [1, 0, 0, 0, 0, 0, 0, 0, 8 * 2 ^ 60, 0, 0, 0])] }
abbrev sQ (w : List Word) (clock : Nat) : State := { State.reset with mach := mQ w clock }

/-- What makes a record acceptable to the queue window of function 0. -/
abbrev recordOk (m : Mach) (w : List Word) : Prop :=
  (wordAt w 0).toNat / 2 ^ 9 % 128 = 0 ∧ wordAt w 7 = 0 ∧ (SMap.get? m.contexts ((wordAt w 0).toNat % 64)).map Context.func = some 0 ∧
    (m.level ((wordAt w 0).toNat / 64 % 8)).length < 4096

/-- Why a graph cannot be read, or none. -/
def notRead {α : Type} (r : Except (Option Nat) α) : Option (Option Nat) :=
  match r with
  | .ok _ => none
  | .error e => some e

theorem witness_QueueEvents :
    (∀ o ∈ [0x400, 0xFC0], 0x400 ≤ o ∧ o ≤ 0xFC0 ∧ o % 64 = 0 ∧ (wordsBytes qR).length = 64) ∧
    (wordsOf 8 (wordsBytes qR) = qR ∧ recordOk (mQ qR 0) qR ∧ ¬recordOk (mQ qR 0) [0x41, 0, 0, 0, 0, 0, 0, 1] ∧
      ¬recordOk (mQ qR 0) [0x241] ∧ ¬recordOk (mQ qR 0) [2]) ∧
    (∀ o ∈ [(0x3F8, 9), (0x408, 8), (0xFF8, 8), (0x400, 32)], ¬(0x400 ≤ o.1 ∧ o.1 ≤ 0xFC0 ∧ o.1 % 64 = 0 ∧ o.2 = 64) ∧ o.1 < 0x1000 ∧
      0x400 < o.1 + o.2) ∧
    (∀ o ∈ [(0x3C0, 64), (0x1000, 64)], ¬(0x400 ≤ o.1 ∧ o.1 ≤ 0xFC0 ∧ o.1 % 64 = 0 ∧ o.2 = 64) ∧ (0x1000 ≤ o.1 ∨ o.1 + o.2 ≤ 0x400)) ∧
    (∀ p ∈ [1, 2], ((mQ qR 0).level p)[0]? = some ⟨qR, 0⟩) ∧
    (0 + 1048576 ≤ (mQ qR 1048576).clockOf 0 ∧ (mQ qR 1048575).clockOf 0 < 0 + 1048576) ∧
    (∀ w ∈ [qR, qR2], let m := mQ w 0; m.level 1 = [⟨w, 0⟩] ∧ (∀ x < 1, m.level x = []) ∧ (m.requests.filter fun r => !r.ended).length < 16384 ∧
      (∀ r ∈ m.requests, r.rid ≠ m.ids)) ∧
    (readGraph .reset (mQ qR 0) qR = .ok [(0, ⟨0, 0, .due, 0⟩)] ∧ notRead (readGraph .reset (mQ qR2 0) qR2) = some none ∧ wordAt qR2 6 ≠ 0) := by
  decide +kernel

theorem witness_QueueEvents_aging :
    (((mQ qR 0).level 1).length < 4096 ∧ (List.replicate 4096 (⟨qR, 0⟩ : QRecord)).length = 4096) ∧
    (∀ t ∈ [0, 1], let l : List QRecord := [⟨qR, t⟩, ⟨qR2, 0⟩]; l[1]? = some ⟨qR2, 0⟩ ∧
      l[0]? = some ⟨qR, t⟩ ∧ (t + 1048576 ≤ 1048576 ↔ t = 0)) := by
  decide +kernel

/-- A request at node 0 with the node's words w, and its state. -/
def reqN (run : NodeRun) : Request := { reqA with words := [0x41, 0x1000, 0, 0, 0, 0, 0x100, 0], nodes := [(0, ⟨1, 0, run, 0⟩)] }
def mN (x : Request) (w : List Word) : Mach := { mK kA with launches := [], requests := [x], dram := dramAt [(0x1040, w)] }
abbrev sN (x : Request) (w : List Word) : State := { State.reset with mach := mN x w }

/-- Node 0 of request x, which walks its graph, has fired and has the words w. -/
abbrev fires (m : Mach) (x : Request) (w : List Word) : Prop :=
  m.request 0 = some x ∧ x.ended = false ∧ x.ending = none ∧ (m.node 0 0).map NodeSt.run = some .due ∧ x.after 0 ⟨1, 0, .due, 0⟩ = false ∧ nodeWords .reset m x 0 = .ok w

/-- The firing events and their types. -/
def firings : List (Instr × Nat) :=
  [(.kernFire 0 0, 0), (.xferFire 0 0, 1), (.ifFire 0 0, 2), (.whileFire 0 0, 3), (.switchFire 0 0, 4), (.relayFire 0 0, 5),
    (.handFire 0 0, 6), (.waitFire 0 0, 7), (.doneFire 0 0, 8)]

/-- The words of a node of a type with no successor, or with successor 5, which is not in the graph. -/
def nW (ty a : Nat) (b c : Word) : List Word := [BitVec.ofNat 64 (ty * 2 ^ 60 + a), b, c, 0xFFFFFFFFFFFFFFFF]
def nW5 (ty : Nat) : List Word := [BitVec.ofNat 64 (ty * 2 ^ 60), 0, 0, 0xFFFFFFFFFFFF0005]

theorem witness_NodeEvents_firing :
    (∀ e ∈ firings, (e.1 = .kernFire 0 0 ∧ e.2 = 0) ∨ (e.1 = .xferFire 0 0 ∧ e.2 = 1) ∨ (e.1 = .ifFire 0 0 ∧ e.2 = 2) ∨
      (e.1 = .whileFire 0 0 ∧ e.2 = 3) ∨ (e.1 = .switchFire 0 0 ∧ e.2 = 4) ∨ (e.1 = .relayFire 0 0 ∧ e.2 = 5) ∨
      (e.1 = .handFire 0 0 ∧ e.2 = 6) ∨ (e.1 = .waitFire 0 0 ∧ e.2 = 7) ∨ (e.1 = .doneFire 0 0 ∧ e.2 = 8)) ∧
    (∀ ty < 10, fires (mN (reqN .due) (nW ty 0 0 0)) (reqN .due) (nW ty 0 0 0) ∧ nType (nW ty 0 0 0) = ty) ∧
    (∀ ty < 9, fires (mN (reqN .due) (nW5 ty)) (reqN .due) (nW5 ty) ∧ nType (nW5 ty) = ty ∧ nSuccs (nW5 ty) = [5] ∧
      SMap.get? (reqN .due).nodes 5 = none) ∧
    ((mN (reqN .idle) (nW 0 0 0 0)).request 0 = some (reqN .idle) ∧ (mN (reqN .idle) (nW 0 0 0 0)).node 0 0 = some ⟨1, 0, .idle, 0⟩) ∧
    (let x := { reqN .due with nodes := [(0, ⟨0, 0, .due, 0⟩), (1, ⟨0, 0, .due, 0⟩)] }; x.after 1 ⟨0, 0, .due, 0⟩ = true) := by
  exact ⟨by simp [firings], by decide +kernel, by decide +kernel, by decide +kernel, by decide⟩

/-- The descriptor of a kernel of one group and empty images: the CRC of 32 KiB of zeros in the upper halves of words 7 to 10 and, in
words 11 to 14, the SHA-256 of its 128 bytes with those words zero. -/
def hdKern : List Word :=
  List.replicate 7 0 ++ List.replicate 4 0xBC43BAAD00000000 ++
    [0x66A62E894EC661AF, 0xDDF2DE092619B006, 0x3C05FF3A2684D029, 0x7A8009812DBE59A3, 0]
/-- A stream over the region rF. -/
def stA : Stream := ⟨1, 1, 0, 0x1000, 5, 0, []⟩
/-- A KERN node whose kernel's descriptor is at 0x3000. -/
def wKern : List Word := nW 0 0xFFFFFFFF0000 0x3000 7

def mKern : Mach := { mN (reqN .due) wKern with dram := dramAt [(0x1040, wKern), (0x3000, hdKern)] }

/-- The CRC of an empty image is the one of zeros. -/
theorem crcOk_empty (q v : Nat) : crcOk [] q [] v = decide (0xBC43BAAD = v) := by
  unfold crcOk noisy
  rw [List.foldl_nil, List.nil_append, List.length_nil, Nat.sub_zero, crc_zeros]
  rfl

theorem kern_crc (bs : List Byte) : kCrcOk hdKern bs = true := by
  unfold kCrcOk
  rw [show ((kLens hdKern).zip (imageStarts 128 (kLens hdKern))).zipIdx =
    [((0, 128), 0), ((0, 128), 1), ((0, 128), 2), ((0, 128), 3)] by decide]
  simp only [List.all_cons, List.all_nil, List.take_zero, crcOk_empty]
  decide

/-- What makes the extent of a descriptor with no entries good. -/
theorem kernelExtent_of_parts (m : Mach) (ctx : BitVec 6) (desc : Nat) (hd : List Word) (bs : List Byte)
    (he : setupEntries .reset m ctx desc = .ok []) (hf : kFollows hd [] = true) (hr : agentRead .reset m ctx desc (kExtent hd []) = .ok bs)
    (hh : kHashOk hd bs = true) (hc : kCrcOk hd bs = true) : kernelExtent .reset m ctx desc hd = .ok () := by
  simp [kernelExtent, bind, Except.bind, he, hf, hr, hh, hc]

theorem kern_entries : setupEntries .reset mKern 1 0x3000 = .ok [] := by decide +kernel
theorem kern_read : agentRead .reset mKern 1 0x3000 (kExtent hdKern []) = .ok (wordsBytes hdKern) := by decide +kernel
theorem kern_hash : kHashOk hdKern (wordsBytes hdKern) = true := by decide +kernel

theorem kern_extent : kernelExtent .reset mKern 1 0x3000 hdKern = .ok () :=
  kernelExtent_of_parts mKern 1 0x3000 hdKern (wordsBytes hdKern) kern_entries (by decide) kern_read kern_hash (kern_crc _)

theorem witness_NodeEvents_kern :
    (let x := reqN .due; let m := mKern; let gs : List (Nat × Nat × GroupSt) := [(0, 0, .due)]; let hd := hdKern
      fires m x wKern ∧ nType wKern = 0 ∧ succsOk x wKern = true ∧ (wordAt wKern 0).toNat / 4 % 2 ^ 14 = 0 ∧
      (∀ k ∈ [0xFFFF, 0xFFFF], streamOk .reset m x k = true) ∧ agentWords .reset m 1 0x3000 16 = .ok hd ∧ kernelOk hd = true ∧
      kClass hd = (wordAt wKern 0).getLsbD 0 ∧ mapped .reset m 1 0x3000 (kEnd hd) = true ∧ kCount hd = 0 ∧
      kernelGroups .reset x hd wKern = some gs ∧ (∀ g ∈ gs, m.tableFull (dieOf g.2.1) = false) ∧ (∀ l ∈ m.launches, l.num ≠ m.ids)) ∧
    (∀ st ∈ [GroupSt.placed, .ended], let x := reqN .running; let w := nW 0 0 0 0; let l := { lA with groups := [(0, 0, st)] }
      let m := { mN x w with launches := [l] }
      m.launches.find? (fun l => decide (l.req = 0 ∧ l.node = 0)) = some l ∧ l.issued = true ∧
      ((∃ g ∈ l.groups, g.2.2 ≠ .ended) ↔ st ≠ .ended) ∧ m.request 0 = some x ∧ x.ended = false ∧ x.ending = none ∧
      nodeWords .reset m x 0 = .ok w ∧ succsOk x w = true) ∧
    (let m := { mK kA with launches := [{ lA with issuing := [(0, [1])] }], streams := [stA] };
      stA ∈ m.streams ∧ m.streamNeeded stA = true) := by
  decide +kernel

/-- How many bytes a read gave. -/
def readLength (r : Except (Option Nat) (List Byte)) : Option Nat :=
  match r with
  | .ok bs => some bs.length
  | .error _ => none

/-- An XFER of 4,096 bytes from device 0x10000 to the region rF. -/
def wXfer : List Word := nW 1 0x1000 0x10000 0x6000

theorem witness_NodeEvents_xfer :
    let x := reqN .due; let m := { mN x wXfer with regions := [rF] }
    fires m x wXfer ∧ nType wXfer = 1 ∧ nSuccs wXfer = [] ∧ nA wXfer = 4096 ∧ (wordAt wXfer 1).toNat % 8 = 0 ∧
    m.exactRegion .glb 1 0x6000 4096 = some rF ∧ m.streams = [] ∧ rF.key.state = .free ∧ 63 ≤ m.rackFree rF.home ∧
    m.retainedSlice 0x6000 = none ∧ readLength (agentRead .reset m 1 0x10000 4096) = some 4096 ∧ m.global.wf = true := by
  decide +kernel

theorem witness_NodeEvents_conditions :
    (∀ e ∈ [(Instr.ifFire 0 0, 2), (.whileFire 0 0, 3), (.switchFire 0 0, 4)], ∀ a ∈ [(0x4000, true), (0x2000, false)], ∀ b < 2,
      let w := nW e.2 (2 * b) (BitVec.ofNat 64 a.1) 0; let x := reqN .due; let m := mN x w
      fires m x w ∧ nType w = e.2 ∧ succsOk x w = true ∧ (wordAt w 0).toNat / 4 % 2 ^ 46 = 0 ∧ (wordAt w 0).getLsbD 0 = false ∧
      wordAt w 2 = 0 ∧ a.1 % 8 = 0 ∧ m.retainedSlice a.1 = none ∧ m.globalPoison = [] ∧ m.commonAt false 1 a.1 = a.2) := by
  decide +kernel

/-- A RELAY that opens a channel between column 0 of die 2 and core 1 of die 0, with rings of 8 slots of 512 bytes. -/
def wRelay : List Word := nW 5 (2 * 16 + 2 * 2 ^ 12 + 3 * 2 ^ 20 + 8 * 2 ^ 29) (2 ^ 20) (0x10000 + 0x10000 * 2 ^ 32)

theorem witness_NodeEvents_relay :
    let x := { reqN .due with place := some ⟨2, 0, 0, 0⟩ }; let m := mN x wRelay; let a := wordAt wRelay 0; let b := wordAt wRelay 1
    let c := wordAt wRelay 2
    (fires m x wRelay ∧ nType wRelay = 5 ∧ nSuccs wRelay = [] ∧ a.toNat % 2 = 0 ∧ a.toNat / 8 % 2 = 0 ∧ a.toNat / 2 ^ 38 % 1024 = 0 ∧
      b.toNat < 2 ^ 26 ∧ b.toNat / 2 ^ 10 % 64 = 0 ∧ c.toNat / 2 ^ 22 % 1024 = 0 ∧ c.toNat < 2 ^ 54) ∧
    (b.toNat / 2 ^ 16 % 16 = 0 ∧ b.toNat / 2 ^ 20 % 64 = 1 ∧ x.chans = [none, none, none, none] ∧ isPDie 0 = true ∧ Trust.reset.isLive 0 = true ∧
      1 < Trust.reset.count 0) ∧
    (relayDirOk (a.toNat / 16 % 16 + 1) (a.toNat / 256 % 16 + 9) (a.toNat / 2 ^ 20 % 512) (c.toNat % 2 ^ 22) 2 = true ∧
      relayDirOk (a.toNat / 2 ^ 12 % 16 + 1) (a.toNat / 2 ^ 16 % 16 + 9) (a.toNat / 2 ^ 29 % 512) (c.toNat / 2 ^ 32 % 2 ^ 22) 0 = true) ∧
    (m.endsOn 2 < 128 ∧ m.endsOn 0 < 128 ∧ 1 ≤ m.rackFree 2 ∧ 1 ≤ m.rackFree 0 ∧
      m.meetsRegion .glb 1 (2 * 2 ^ 28 + 0x10000) 4096 = false ∧ m.meetsRegion .glb 1 (2 ^ 22 + 0x10000) 4096 = false ∧
      m.freeChannel = some 0 ∧ m.retainedSlice (2 * 2 ^ 28 + 0x10000) = none ∧ m.retainedSlice (2 ^ 22 + 0x10000) = none) := by
  decide +kernel

theorem witness_NodeEvents_wait :
    (∀ k ∈ [(0x2000, rG, 4, true), (0x2000, rG, 0, false), (0xD000, rL, 0, true)],
      let w := nW 7 k.2.2.1 (BitVec.ofNat 64 k.1) 0; let x := reqN .due; let m := mN x w
      fires m x w ∧ nType w = 7 ∧ succsOk x w = true ∧ (wordAt w 0).toNat % 4 = 0 ∧ (wordAt w 0).toNat / 32 % 2 ^ 43 = 0 ∧ wordAt w 2 = 0 ∧
      m.regionAt .glb 1 k.1 = some k.2.1 ∧ k.2.1.ctx = 1 ∧
      ((k.2.1.key.state = .lost ∨ k.2.1.key.state.code = (wordAt w 0).toNat / 4 % 8) ↔ k.2.2.2 = true)) := by
  decide +kernel

theorem witness_NodeEvents_done :
    (let w := nW 8 0 0 0; let x := reqN .due; fires (mN x w) x w ∧ nType w = 8 ∧ succsOk x w = true ∧ nA w = 0 ∧ wordAt w 1 = 0 ∧ wordAt w 2 = 0 ∧
      x.chans = [none, none, none, none] ∧ wordAt x.words 6 ≠ 0) ∧
    (let w := nW 6 0 0 0; let x := reqN .due; let m := mN x w; fires m x w ∧ x.handRun = none ∧ x.hands = false ∧ nType w = 6 ∧
      succsOk x w = true ∧ (wordAt w 0).toNat / 2 ^ 36 % 4096 = 0 ∧ chooseColumn .reset m x.level Trust.reset.columns = .below 73) := by
  decide +kernel

/-! ### Statements on placement, saving, errors, peers and the trust die -/

/-- A launch of one group on core 5, whose kernel is the hash 9. -/
def l5 (st : GroupSt) : Launch :=
  { num := 4, req := 0, node := 0, ctx := 1, desc := 0x3000, hash := 9, lens := [0, 0, 0, 0], table := [], arg := 7, streams := []
    issued := true, groups := [(0, 5, st)], issuing := [(0, [])] }
def pl9 : SMap Plane := [(0, planeOf [] 9), (1, planeOf [] 9), (2, planeOf [] 9), (3, planeOf [] 9)]
def k5 : Core := { Core.reset with active := pl9 }
/-- A request of level 2 that waits for a kernel on core 5, whose descriptor holds the words hd. -/
def mP (k : Core) (st : GroupSt) (hd : List Word) : Mach :=
  { mA 5 k with contexts := [(1, cA)], launches := [l5 st], requests := [reqN .running], dram := dramAt [(0x3000, hd)] }

theorem witness_PlacementEvents_placement :
    (Trust.reset.mayPlace (mP k5 .due []) 5 = true ∧ (mP k5 .due []).dueGroup 5 = some (l5 .due, 0, .due) ∧
      (((mP k5 .due []).core 5).withKernel 9).isSome = true ∧ (mP k5 .due []).issuedStreams (l5 .due) 0 = some [] ∧
      localData .reset (mP k5 .due []) (l5 .due) = .ok [] ∧ (mP k5 .due []).request 0 = some (reqN .running) ∧
      (reqN .running).words.length = 8 ∧ ((mP k5 .due []).core 5).local_.wf = true ∧ (mP k5 .due []).dram.wf = true) ∧
    (State.reset.cur ≠ 5 ∨ State.reset.phase = .st) ∧
    Trust.reset.mayPlace (mP { k5 with group := some gA } .due []) 5 = false ∧ (mP k5 .ended []).dueGroup 5 = none := by
  decide +kernel

/-- A descriptor of four empty images with a CRC for each. -/
def hdCrc (v : Nat) : List Word := List.replicate 7 0 ++ List.replicate 4 (BitVec.ofNat 64 (v * 2 ^ 32)) ++ List.replicate 5 0

theorem witness_PlacementEvents_images :
    (∀ v ∈ [0, 0xBC43BAAD], let m := mP .reset .due (hdCrc v)
      m.dueGroup 5 = some (l5 .due, 0, .due) ∧ planesHold (m.core 5).active 9 = false ∧ planesHold (m.core 5).shadow 9 = false ∧
      agentWords .reset m 1 0x3000 16 = .ok (hdCrc v) ∧ (l5 .due).lens.length = 4 ∧
      ((l5 .due).lens.zip (imageStarts 128 (l5 .due).lens)).mapM (fun x => agentRead .reset m 1 (0x3000 + x.2) x.1) = .ok [[], [], [], []] ∧
      (m.core 5).shadowHash 0 = none ∧ SMap.wf (m.core 5).shadow = true) ∧
    (∀ x y, Config.recorded x y = true ∨ Config.recorded x y = false) ∧
    (let m := { mP { Core.reset with shadow := pl9 } .due [] with cores := [(5, { Core.reset with shadow := pl9 }), (6, { Core.reset with shadow := pl9 })] };
      (m.core 5).shadowHash 0 = some 9 ∧ planesHold (m.core 5).shadow 9 = true ∧ SMap.wf m.cores = true ∧ 6 ∈ m.cores.keys ∧ dieOf 6 = dieOf 5 ∧
      planesHold (m.core 6).shadow 9 = true) ∧
    (planesHold (k5.active) 9 = true) ∧
    (∀ q < 4, crcOk [] q [] ((wordAt (hdCrc 0xBC43BAAD) (7 + q)).toNat / 2 ^ 32) = true) ∧
    ¬crcOk [] 0 [] ((wordAt (hdCrc 0) 7).toNat / 2 ^ 32) = true := by
  refine ⟨by decide +kernel, fun x y => by cases Config.recorded x y <;> simp, by decide +kernel, by decide +kernel, fun q hq => ?_, ?_⟩
  · rw [crcOk_empty]; interval_cases q <;> decide
  · rw [crcOk_empty]; decide

/-- A core whose group drains with nothing left, or is asked to save at a slot, and sequencers that may be taken. -/
def gDrain : Group := { gA with draining := true }
def gPre : Group := { gA with preempt := some (0, 0) }
def qTaken : Seq := { qA with taken := true }
def kPre (p : Pause) (cycles : Word) : Core := { kA with group := some gPre, ctl := { qA with pause := p }, cycles := cycles }
def kSave : Core := { kM with group := some gPre, ctl := qTaken, ld := qTaken, cmp := qTaken, st := qTaken }
/-- The saved group of the launch l5. -/
def savedA : Saved := ⟨1, 0, 5, { gA with gid := ⟨4, 0⟩ }, { kA with ctl := qTaken }, []⟩

theorem witness_PlacementEvents_saving :
    (let m := mA 0 { kA with group := some gDrain }; (m.core 0).group = some gDrain ∧ m.drainedGroup 0 gDrain.gid = true ∧
      SMap.wf m.cores = true) ∧
    (let m := { mA 0 { kA with group := some gDrain } with arrays := [(0, { Array_.reset with lease := .held 0 })] };
      (m.array (clusterOf 0)).lease = .held 0) ∧
    (∀ b ∈ [true, false], let m := { mM kA with requests := [{ reqA with suspended := b }] };
      (m.core 0).group = some gA ∧ gA.draining = false ∧ gA.held = false ∧ gA.preempt = none ∧ m.preemptCase 0 gA = b ∧
      m.freeSlot gA.ctx = some 0) ∧
    (∀ x ∈ [(Pause.run, (1024 : Word)), (.run, 1023), (.sleep none, 0)], let k := (mA 0 (kPre x.1 x.2)).core 0
      k.group = some gPre ∧ k.alive .ctl = true ∧ k.frozen .ctl = false ∧ (k.seq .ctl).blockedOn = none ∧ (k.seq .ctl).pause = x.1 ∧
      k.cycles = x.2 ∧ (k.seq .ctl).readyAt ≤ (k.seq .ctl).clock) ∧
    ((SMap.get? (mM kA).contexts gDrain.ctx.toNat).isSome = true ∧ { gDrain with preempt := some (0, 0) }.preempt = some (0, 0)) ∧
    (let k := { kA with ctl := { qA with waitsOut := true } }; (k.seq .ctl).waitsOut = true ∧ (kA.seq .ctl).waitsOut = false ∧ (kA.seq .ctl).undo = []) ∧
    ((mA 0 kSave).core 0).poisonedSlot = none ∧ ((mA 0 kSave).core 0).saveReady = true ∧ ((mA 0 (kPre .run 0)).core 0).saveReady = false ∧ (mM kSave).dram.wf = true ∧
    (let st := GroupSt.saved 0; let m := { mP k5 st [] with saved := [savedA] }
      Trust.reset.mayPlace m 5 = true ∧ m.dueGroup 5 = some (l5 st, 0, st) ∧
      m.saved.find? (fun y => decide (y.core = 5 ∧ y.group.gid = ⟨4, 0⟩)) = some savedA ∧ ((m.core 5).withKernel 9).isSome = true ∧
      m.dramPoison = [] ∧ (savedA.image.seq .ctl).exited = false) := by
  decide +kernel

/-- An error that names context 1. -/
def errA : ErrInfo := ⟨0, 0, some 1, 0, 0, 0⟩
/-- Machines with banks, links, slices and notices. -/
def bankA (valid uc : Bool) : Bank := { Bank.reset with valid := valid, uc := uc, ccount := 0xFFFFFFFF }
def noteA (ctx : BitVec 6) : Notice := ⟨ctx, 3, 0, 0, 0, 0, 0, 0⟩

theorem witness_ErrorAndPeerEvents_errors :
    Trust.reset.isLive 5 = true ∧
    (∀ v ∈ [true, false], ∀ u ∈ [true, false], let m := { mA 0 kA with banks := [(47, bankA v u)] };
      (m.bank 5 7).valid = v ∧ (m.bank 5 7).uc = u ∧ SMap.get? m.cycleErrs 47 = none) ∧
    (let m := { mA 0 kA with cycleErrs := [(47, (Bank.reset, [⟨false, false, errA⟩]))] };
      SMap.get? m.cycleErrs 47 = some (Bank.reset, [⟨false, false, errA⟩])) ∧
    (let x : BankErr := ⟨true, false, errA⟩; let y : BankErr := ⟨true, false, { errA with tile := 1 }⟩;
      x.uc = true ∧ y.uc = true ∧ x.info.tile.toNat < y.info.tile.toNat ∧ Bank.reset.valid = false) ∧
    ((mM kA).rackHit 2 3 errA = some rD ∧ (mA 0 kA).rackHit 2 3 errA = none) ∧
    errA.ctx = some 1 ∧ rackEntry 2 (mM kA).regions errA.addr.toNat = some rD ∧
    ((Trust.reset.mask (dieOf 0)).getLsbD (physOf 0) = true ∧ ((mA 1 kA).core 0).group = none ∧ ((mM kM).core 0).group = some gA ∧
      keyFails ((mM kM).core 0) gA.gid rG = true) ∧
    (∀ n ∈ [noteA 1, noteA 2], let m := { mM kA with notices := [n] }
      m.notices = n :: [] ∧ (SMap.get? m.contexts n.ctx.toNat = none ↔ n.ctx = 2) ∧ SMap.wf m.contexts = true) ∧
    SMap.get? (mM kA).contexts (noteA 1).ctx.toNat = some cA ∧ SMap.wf Trust.reset.xtsKeys = true ∧
    (∀ x ∈ [(159999999, 0), (160000000, 0), (160000000, 3)], let m := { mA 0 kA with dieClock := [(5, x.1)], links := [(5 * 2 ^ 16 + 0x1FF, ⟨x.2, 0, 0⟩)] }
      let l := SMap.getD m.links (5 * 2 ^ 16 + 1 * 2 ^ 8 + 255) ⟨0, 0, 0⟩
      l.since = 0 ∧ l.diff = x.2 ∧ m.clockOf 5 = x.1 ∧ (m.bank 5 5).valid = false ∧ SMap.get? m.cycleErrs 45 = none) ∧
    (auditedLink 0 1 1 = true ∧ auditedLink 1 1 0 = false) := by
  decide +kernel

/-- A copy from host memory that waits for its data. -/
def cpHost : CopyOp := { cpA with ssp := 4 }
def kHost (x : CopyOp) : Core := { kA with ops := [opK (.cpy x)] }

/-- A region shared with package 5. -/
def rPeer : Region := ⟨20, 1, .glb, 0xE000, 0x1000, 0, ⟨.shared, .group ⟨0, 0⟩, [], [⟨.remote 5 1 0, []⟩], some ⟨0, 0⟩, []⟩, none⟩
def mPeer : Mach := { mM kA with regions := [rPeer] }
/-- A channel to package 5. -/
def chFar : Channel := { chA with ffEnd := ⟨some 5, 1, 1⟩ }

theorem witness_ErrorAndPeerEvents_peers :
    (∀ x ∈ [cpA, cpHost], (mA 0 (kHost x)).engineOp 0 20 = some (opK (.cpy x), some gA.gid)) ∧
    (mA 0 kA).engineOp 0 20 = none ∧ cpA.ssp ≠ 4 ∧ (cpHost.ssp = 4 ∧ cpHost.begun = true ∧ cpHost.buf = none) ∧
    ((mA 0 kA).bank 0 7).valid = false ∧
    (∀ x ∈ [(131071, false, false), (131072, false, false), (132819, true, true), (132820, true, true), (132820, true, false)],
      let m := { mA 0 kA with dieClock := [(5, x.1)], slices := [(5 * 36 + 35, ⟨x.2.1, 0, x.2.2, 0, if x.2.1 then 132100 else 0, 0⟩)] }
      let y := SMap.getD m.slices (5 * 36 + 35) .new
      y.retained = x.2.1 ∧ y.wanted = x.2.2 ∧ m.clockOf 5 = x.1 ∧ 35 < Trust.reset.count 5 ∧
      (x.2.1 = true → (max y.ready y.asked + 720 ≤ m.clockOf 5 ↔ x.1 = 132820))) ∧
    ((5 : BitVec 10) ≠ Trust.reset.package ∧ (5 : BitVec 10) ∉ mPeer.unreachable ∧ (0 : BitVec 10) = Trust.reset.package) ∧
    (let m := { mA 0 kA with channels := [chFar] }; m.channel 1 = some chFar ∧ chFar.attEnd.pkg.or chFar.ffEnd.pkg = some 5 ∧
      chFar.ffEnd.pkg = some 5 ∧ chFar.ffEnd.ctx = 1) ∧
    peerCheck .reset mPeer 5 ⟨1, 0, false, 0⟩ [⟨false, false, 0xE000, 64, 1, 1, 0, 0⟩] = none ∧ mPeer.asleep 0xE000 64 = none ∧ mPeer.globalPoison = [] ∧
    peerCheck .reset mPeer 6 ⟨1, 0, false, 0⟩ [⟨false, false, 0xE000, 64, 1, 1, 0, 0⟩] = some (.trap tNokey 0xE000) ∧
    (let m := { mPeer with slices := [(0, ⟨true, 0, false, 0, 0, 0⟩)] }; m.asleep 0xE000 64 ≠ none ∧
      peerCheck .reset m 5 ⟨1, 0, false, 0⟩ [⟨false, false, 0xE000, 64, 1, 1, 0, 0⟩] = none) ∧
    (let who : Asker := ⟨1, 0, false, 0⟩; let seat : Admitted := ⟨5, who, false, false, 0x4000, 0x4000⟩;
      (∀ l ∈ [[], [seat]], let m := { mK kA with admitted := l }
        runInSpace .reset 8 (1, 0x4000, true) = true ∧ m.peerOk 1 = true ∧ m.commonAt false 1 0x4000 = true ∧
        m.retainedSlice 0x4000 = none ∧ m.globalPoison = [] ∧ (5 : BitVec 10) ∉ m.unreachable ∧
        m.admitted.find? (fun y => decide (y.pkg = 5 ∧ y.who = who ∧ y.w32 = false ∧ y.dev = false ∧ y.addr = 0x4000)) = l.head?) ∧
      (mK kA).commonAt false 1 0x2000 = false ∧ runInSpace .reset 8 (1, 0xFFFFFFF8, true) = false) := by
  decide +kernel

/-- A package in bring-up whose listed dies have passed. -/
def tBoot (ok : List Bool) : Trust := { Trust.reset with released := false, passed := ok, up := [] }
/-- CREATE of context 2 on one page of die 0, and one that cannot be met. -/
def crA : CreateCmd :=
  { ctx := 2, func := 1, root := 0x1000000, pages := [(0, 0x800000)], tables := [], quotas := [(2, 0, 1000)], saveBase := 0, slots := 1, lossAddr := 0
    fabric := true, publishers := [1] }
def crBad : CreateCmd := { crA with pages := [(0, 4096)] }

theorem witness_TrustEvents_boot :
    (let t := tBoot [true, false, true, false, false, false]; let near := reached { t with up := t.among (t.passed.getD · false) allLinks }
      t.released = false ∧ (t.mask 0 ≠ 0) ∧ 0 ∈ near ∧ 2 ∈ near ∧ 3 ∉ near ∧ t.passed.getD 0 false = true ∧ t.passed.getD 2 false = true ∧ t.mask 2 ≠ 0) ∧
    (let t := tBoot [true, true, false, false, false, false]; t.released = false ∧ ∀ d ∈ [2, 3, 4, 5], t.passed.getD d false = false) ∧
    Trust.reset.released = true ∧
    (∀ x ∈ [(2, 3, 1), (3, 2, 1), (2, 4, 0)], (x.1 + x.2.1) % 2 = x.2.2 ∧ Trust.reset.linked x.1 x.2.2 = true ∧ Trust.reset.linked x.2.2 x.2.1 = true) ∧
    (let t := { Trust.reset with up := [(0, 2), (0, 3)] }; t.linked 2 1 = false ∧ t.linked 2 0 = true ∧ t.linked 0 3 = true) ∧
    (let t := { Trust.reset with up := [(0, 1), (1, 3)] }; t.linked 0 3 = false ∧ t.linked 0 1 = true ∧ t.linked 1 3 = true) ∧
    (Trust.reset.linked 0 1 = true ∧ Trust.reset.linked 0 5 = true) ∧
    (let ms : SMap (BitVec 256) := [(1, 7), (2, 8)]; (∃ x ∈ ms, x.1 = 2) ∧ (∀ x ∈ ms, x.1 ≠ 3) ∧
      ms.filter (fun x => decide (2 = x.1)) = [(2, 8)]) ∧
    (∀ x ∈ [Spdm.idle, .negotiated, .handshake, .session], ({ Trust.reset with spdm := x } : Trust).spdm = x) ∧
    (SMap.get? (mM kA).contexts 2 = none ∧ createOk .reset (mM kA) crA = true ∧ createOk .reset (mM kA) crBad = false ∧ (mM kA).dram.wf = true) ∧
    (SMap.get? (mM kA).contexts 1 = some cA ∧ SMap.wf (mM kA).contexts = true) ∧
    ((1 ≤ 4096 ∧ 4096 ≤ 4096 ∧ 196608 ≤ 196608 ∧ 1200 ≤ 1200 ∧ 1200 ≤ 2400) ∧ ¬(1 ≤ 0)) ∧
    (SMap.get? ([(0, ⟨1, 64, []⟩)] : SMap Manifest) 0 = some ⟨1, 64, []⟩ ∧ SMap.get? Trust.reset.manifests 0 = none) ∧
    (Trust.reset.cap < 2401 ∧ 2400 ≤ Trust.reset.cap ∧ ({ Trust.reset with module := true } : Trust).module = true ∧ Trust.reset.module = false) ∧
    (({ Trust.reset with frozen := true } : Trust).frozen = true ∧ Trust.reset.frozen = false ∧ Trust.reset.debug = false) := by
  decide +kernel

/-- The machine with a manifest header of one leaf, and leaves of zeros, in the host memory of context 1, or with a bad header. -/
def mVer (ws : List Word) : Mach := { mM kA with host := Mem.write [] 0 (wordsBytes ws) }

/-- Whatever the open check of a signature says (log 21), one of the two clauses on it has its hypothesis. -/
theorem witness_TrustEvents_verify :
    (let m := mVer [64 * 2 ^ 32 + 1]; let hd := wordsOf 8 (m.host.hostRead (m.hostBase 1) 0 64)
      hd = [64 * 2 ^ 32 + 1, 0, 0, 0, 0, 0, 0, 0] ∧ SMap.get? m.contexts 1 = some cA ∧
      treeRoot 1 [BitVec.ofNat 256 (leNat (m.host.hostRead (m.hostBase 1) 0x100 32))] = digestOf ((hd.drop 1).take 4) ∧
      Trust.reset.leafCount + 1 ≤ 262144 ∧ SMap.get? Trust.reset.manifests 0 = none) ∧
    (let m := mVer [64 * 2 ^ 32 + 1, 5]; let hd := wordsOf 8 (m.host.hostRead (m.hostBase 1) 0 64)
      treeRoot 1 [BitVec.ofNat 256 (leNat (m.host.hostRead (m.hostBase 1) 0x100 32))] ≠ digestOf ((hd.drop 1).take 4)) ∧
    wordAt (wordsOf 8 ((mVer [0, 0, 0, 0, 0, 0, 0, 1]).host.read 0 64)) 7 ≠ 0 ∧ SMap.get? (mVer []).contexts 2 = none ∧
    (∀ x y z, Config.signatureOk x y z = false ∨ Config.signatureOk x y z = true) := by
  refine ⟨by decide +kernel, by decide +kernel, by decide +kernel, by decide +kernel, fun x y z => ?_⟩
  cases Config.signatureOk x y z
  · exact .inl rfl
  · exact .inr rfl

/-! ### Statements on every step -/

/-- Step from reset answers a next state. -/
theorem reset_steps : step State.reset = .next State.reset.pass := by
  rfl

/-- A core that the machine after reset does not list. -/
theorem reset_core (c : Nat) : Mach.reset.core c = Core.reset := rfl

theorem witness_StepKeepsTrust : State.reset.Ok ∧ step State.reset = .next State.reset.pass := by
  refine ⟨?_, reset_steps⟩
  unfold State.Ok Trust.Ok
  decide

theorem witness_MemoriesStayCanonical : State.reset.mach.Canonical ∧ step State.reset = .next State.reset.pass := by
  refine ⟨⟨rfl, rfl, rfl, fun c => ?_⟩, reset_steps⟩
  rw [show State.reset.mach = Mach.reset from rfl, reset_core]; rfl

theorem witness_TablesStayOrdered : State.reset.Tables ∧ step State.reset = .next State.reset.pass := by
  refine ⟨⟨rfl, rfl, rfl, fun c => ?_, fun x hx => ?_, fun p => ?_, fun q hq => ?_, fun r hr => ?_, fun l hl => ?_⟩, reset_steps⟩
  · rw [show State.reset.mach = Mach.reset from rfl, reset_core]
    exact ⟨fun q => by cases q <;> exact ⟨rfl, rfl⟩, rfl, rfl, rfl⟩
  · cases hx
  · rw [show State.reset.mach.pool p = Pool.reset from rfl]
    exact ⟨rfl, rfl⟩
  · cases hq
  · cases hr
  · cases hl

/-- The state of an outcome. -/
def nextOf (r : Host.Outcome State Fault Refusal) : Option State :=
  match r with
  | .next s => some s
  | _ => none

/-- What a decoder reads when nothing follows. -/
def whole (ws : List IWord) : Option Instr :=
  match decodeWords ws with
  | .ok (i, []) => some i
  | _ => none

/-- Whether words are refused. -/
def reserved (ws : List IWord) : Bool :=
  match decodeWords ws with
  | .ok _ => false
  | .error _ => true

theorem witness_RoundTrip : (Instr.add .none (.queue 2) .wrap false .zero (.lit32 0x10400)).wf = true := by decide

/-- A core whose ctl has the word of LI x1, #0x211 next, or a reserved one. -/
def kWord (ws : List Word) : Core := { kA with active := [(0, planeOf (wordsBytes ws) 0)] }
abbrev sWord (ws : List Word) : State := sA 0 .ctl (kWord ws)
/-- What the fetch at a state decodes. -/
def fetched (s : State) : Option Instr :=
  match decodeWords (((s.mach.core s.cur).plane s.phase.seq).wordsAt ((s.mach.core s.cur).seq s.phase.seq).pc) with
  | .ok x => some x.1
  | .error _ => none

theorem witness_StepRunsDecoded :
    (∀ w ∈ [([0x3A010211], some (Instr.li .none (.queue 1) 0x211)), ([0xFE000000], none)], let s := sWord w.1; let k := s.mach.core s.cur
      s.agenda = [] ∧ s.trust.frozen = false ∧ s.trust.released = true ∧ s.phase ≠ .tick ∧ k.takeNow .ctl = false ∧ k.ready .ctl = true ∧ (k.plane .ctl).poison = [] ∧
      fetched s = w.2) ∧
    (let s := State.reset; let k := s.mach.core s.cur; s.agenda = [] ∧ s.trust.frozen = false ∧ s.phase ≠ .tick ∧ k.takeNow s.phase.seq = false ∧
      k.ready s.phase.seq = false ∧ (k.seq s.phase.seq).asleep = false) ∧
    (let s := { State.reset with agenda := [.event .freezeN] }; s.agenda = .event .freezeN :: [] ∧ s.trust.released = true ∧ Instr.freezeN.isEvent = true ∧ s.trust.frozen = false) ∧
    (∀ a ∈ [[], [Turn.event .contextLoss]], let s := { State.reset with trust := { Trust.reset with released := false }, agenda := a }
      s.trust.frozen = false ∧ s.trust.released = false ∧ ∀ x ∈ a, x.inBringUp = false) ∧
    (let s := { State.reset with trust := { Trust.reset with released := false }, agenda := [.event (.topologyCompute [])] };
      (Turn.event (.topologyCompute [])).inBringUp = true ∧ s.trust.released = false) ∧
    (let s := { State.reset with trust := { Trust.reset with frozen := true } }; s.agenda = [] ∧ s.trust.frozen = true) := by
  decide +kernel

theorem witness_Frames :
    (∀ i ∈ [Instr.nop .none, .li .none (.queue 3) 5, .add .none (.queue 3) .wrap false (.pop 1) (.imm 1)],
      i.isEvent = false ∧ (nextOf (exec i sCtl)).isSome = true) ∧
    ((sCtl.mach.core 0).clause = none ∧ (sCtl.mach.core 0).preempting = false ∧ qA.undo = [] ∧ SMap.wf qA.xq = true ∧ qA.stack = [] ∧
      intForm (.add .none (.queue 3) .wrap false (.pop 1) (.imm 1)) = some (.queue 3, [.pop 1, .imm 1])) ∧
    (∀ i ∈ [Instr.ldg .none 3 (.lit32 0x2000) 0 .b4, .ldd .none 3 (.lit32 0x10000) 0 .b4, .ldb .none 3 (.lit32 0) 0 .b4, .pfd .none (.lit32 0x10000) 0,
        .loc .none (.queue 3) .glb (.lit32 0x2000), .stg .none false 1 (.lit32 0x2000) 0 .b4, .std .none false 1 (.lit32 0x10000) 0 .b4],
      (nextOf (exec i (sM .ctl kM))).isSome = true ∨ (nextOf (exec i (sM .ld kM))).isSome = true) := by
  decide +kernel

/-! ### Decoding: the words that the spec prints beside its examples -/

/-- Control and integer (R77, R102; the examples of chapters 3 and 4 and of the programs). -/
theorem test_decode_control :
    whole [0x1A000000] = some (.exit .none) ∧ whole [0x0A010003] = some (.loop .none 1 3) := by decide +kernel
theorem test_decode_integer :
    whole [0x3A010211] = some (.li .none (.queue 1) 0x211) ∧
    whole [0x2002E3E0, 0x00010400] = some (.add .none (.queue 2) .wrap false .zero (.lit32 0x10400)) ∧
    whole [0x38030420] = some (.agen .none (.queue 3) .glb (.pop 1) (.pop 2)) ∧
    whole [0x26054F81] = some (.div .none (.queue 5) .u false (.peek 3) .zero) ∧
    whole [0x28150BE0, 0x00000FFF] = some (.and .none (.loop 5) false (.pop 2) (.lit32 0xFFF)) ∧
    whole [0x300B2A21] = some (.cmp .none (.queue 11) .ne false (.pop 10) (.imm 2)) ∧
    whole [0x2E06CBE0, 0x0000002D] = some (.shf .none (.queue 6) .sll false (.loop 2) (.lit32 45)) ∧
    whole [0x2A075BF0, 0x00010000, 0x00800000] = some (.or .none (.queue 7) false (.peek 6) (.lit64 0x0080000000010000)) := by decide +kernel

/-- Memory and the block store (R118, R291). -/
theorem test_decode_memory :
    whole [0x46014C01] = some (.stg .none false 1 (.peek 3) 0 .b8) ∧ whole [0x44071001] = some (.ldg .none 7 (.pop 4) 0 .b8) ∧
    whole [0x4000C802] = some (.ldl .none 0 (.loop 2) 0 .b512) ∧
    whole [0x4E03FC00, 0x00000000, 0x00042000] = some (.stb .none false 3 (.lit64 0x4200000000000) 0 .b4) ∧
    whole [0x5401FBF0, 0x00000042, 0x70070049, 0x0000000C] = some (.bopn .none (.queue 1) (.lit32 0x42) (.lit64 0xC70070049)) ∧
    whole [0x5604FFE0, 0x00000000, 0x00042000, 0x00000043] = some (.bshr .none (.queue 4) (.lit64 0x4200000000000) (.lit32 0x43)) ∧
    whole [0x5A05FE10, 0x00000000, 0x00042000] = some (.binv .none (.queue 5) false (.lit64 0x4200000000000) (.imm 1)) ∧
    whole [0x5C06FC01, 0x00000000, 0x00042000] = some (.bqry .none (.queue 6) .map (.lit64 0x4200000000000)) := by decide +kernel

/-- The arrays and the columns (R222, R249). -/
theorem test_decode_matrix :
    whole [0x601F0000] = some (.leaseAcq .none .discard) ∧ whole [0x64000000] = some (.wswp .none) ∧
    whole [0x6300D401] = some (.wld ⟨true, false, false, false⟩ false .b8 true (.loop 5)) ∧
    whole [0x6A20FBE0, 0x00041000, 0x0000FF00] = some (.mxsq ⟨false, false, false, true⟩ (.lit32 0x41000) (.lit32 0xFF00)) ∧
    whole [0x66133A40] = some (.mxh .none ⟨.f8a, .f8a, .f32, false, true, 0⟩) ∧ whole [0x72000000] = some (.mxz .none false) ∧
    whole [0x6800FBE0, 0x00001000, 0x1000003F] = some (.mxa .none false (.lit32 0x1000) (.lit32 0x1000003F)) ∧
    whole [0x70000008] = some (.mxdrKeep .none) := by decide +kernel
theorem test_decode_column :
    whole [0x7A00F800, 0x00081000] = some (.mvm .none (.lit32 0x81000)) ∧ whole [0x74000201] = some (.mvk .none 1 (.pop 0) (.imm 0)) := by
  decide +kernel
theorem test_decode_column_values :
    whole [0x7601C7E1, 0x3F800000] = some (.mvq .none (.queue 1) true (.loop 1) (.lit32 0x3F800000)) ∧
    whole [0x7800C44C] = some (.mvv .none true 4 (.loop 1) (.pop 4)) ∧
    whole [0x7C0580B0] = some (.mvd .none (.queue 5) .rne .bf16 (.imm 0)) := by decide +kernel

/-- Vectors and functions (R182, R197). -/
theorem test_decode_vector :
    whole [0x94051B80] = some (.vred .none (.queue 5) .add (.pop 6) .zero) ∧
    whole [0x9A02E0D1] = some (.vbrd .none (.queue 2) (.x .zero .f32)) ∧
    whole [0xA00030D0] = some (.cvt .none (.queue 0) false .rne .f32 (.pop 12)) ∧
    whole [0xA2020090] = some (.mxq .none (.queue 2) .rne .f8a (.pop 0)) ∧
    whole [0xAE040421] = some (.smxs .none (.queue 4) 1 (.pop 1) (.pop 2)) ∧
    whole [0xAE040423] = some (.smxs .none (.queue 4) 3 (.pop 1) (.pop 2)) := by decide +kernel

/-- Transfers, relay and hand-off (R265, R305, R320, R428). -/
theorem test_decode_transfer :
    whole [0xC2055A10] = some (.cacc .none (.queue 5) .add (.peek 6) (.imm 1)) ∧ whole [0xC4028800] = some (.cwt .none (.queue 2) (.imm 2)) ∧
    whole [0xD51FD7E0, 0x00002000] = some (.rlys ⟨true, false, false, false⟩ .discard .loc (.loop 5) (.lit32 0x2000)) ∧
    whole [0xD804D610] = some (.rlyw .none (.queue 4) (.loop 5) (.imm 1)) ∧ whole [0xD61FD622] = some (.rlygRet .none .discard (.loop 5) (.imm 2)) ∧
    whole [0xDA01F800, 0x00003000] = some (.hoff .none (.queue 1) (.lit32 0x3000)) ∧
    whole [0xDC034400] = some (.hctlSeal .none (.queue 3) (.peek 1)) ∧
    whole [0xDE01F800, 0x00002000] = some (.cwld .none (.queue 1) (.lit32 0x2000)) := by decide +kernel

/-- Keys, ordering and the system (R148, R159, R364, R368, R402). -/
theorem test_decode_system :
    whole [0xE0050E10] = some (.lendGrp .none (.queue 5) .glb (.pop 3) (.imm 1)) ∧
    whole [0xEC0D1A11] = some (.fence .none .pkg .rel (.flag false (.pop 6) (.imm 1))) ∧
    whole [0xE8025000] = some (.keywArr .none (.queue 2) .glb (.peek 4)) ∧
    whole [0xE603F804, 0x00010000] = some (.joinShr .none (.queue 3) .glb (.lit32 0x10000)) ∧ whole [0xEE009400] = some (.trap .none (.imm 5)) ∧
    whole [0xF2010000] = some (.srr .none (.queue 1) .trapcause) ∧ whole [0xF0000000] = some (.tret .none) ∧
    whole [0xF801FA00, 0x00000300] = some (.errqRd .none (.queue 1) (.lit32 0x300) (.imm 0)) := by decide +kernel

/-- Reserved points, functions, source codes and system registers are refused (R48, R49, R40, R53). -/
theorem test_decode_reserved :
    ([0xFE000000, 0x3E000000, 0x20000008, 0x20000006, 0x2000F000, 0x26000008, 0xF2003C00, 0x9C000000, 0xA4000000].all fun w => reserved [w]) =
      true := by decide +kernel

/-! ### WellFormed: an ill-formed term for each check -/

/-- A lane index is no scalar operand (R41). -/
theorem test_wf_scalar :
    ∀ i ∈ [Instr.ret .none .lane, .lbrk .none .lane 0, .tkw .none .lane true false, .tks .none .lane false, .clh .none .lane false, .sleep .none .lane,
        .lmov .none (.queue 1) .cnt .lane, .add .none (.queue 1) .wrap false .lane .zero, .shf .none (.queue 1) .sll false .zero .lane,
        .bits .none (.queue 1) .bfx .zero .lane, .ext .none (.queue 1) .pack .zero .lane, .ldg .none 1 .lane 0 .b8, .bopn .none (.queue 1) .zero .lane,
        .bfre .none (.queue 1) .rng .zero .lane, .wld .none false .b8 false .lane, .mxa .none false .zero .lane, .mxdr .none .rne .zero .lane,
        .mvk .none 0 (.pop 0) .lane, .mvq .none (.queue 1) false .lane .zero, .mvv .none false 0 .lane (.pop 0), .mvd .none (.queue 1) .rne .f32 .lane,
        .vprm .none (.queue 1) .rot (.pop 1) .lane, .vred .none (.queue 1) .add (.pop 1) .lane, .vbrd .none (.queue 1) (.e (.pop 1) .lane),
        .vbrd .none (.queue 1) (.x .lane .f32), .srsdSet .none .lane .zero, .vlane .none (.queue 1) (.pop 1) .lane,
        .vidx .none (.queue 1) .i32 .lane .zero, .cpy .none .lane, .cacc .none (.queue 1) .add .zero .lane, .rlys .none (.queue 1) .loc .lane .zero,
        .hoff .none (.queue 1) .lane, .lendGrp .none (.queue 1) .glb .zero .lane, .retn .none (.queue 1) .glb .lane,
        .fence .none .pkg .rel (.flag false .zero .lane), .trap .none .lane, .srw .none .status .lane, .lnchNode .none (.queue 1) .lane,
        .errqRd .none (.queue 1) .zero .lane], i.wf = false := by decide +kernel

/-- Unused sources are code 0, vector sources are queues, and forms, modes, tags and destinations are those of the row. -/
theorem test_wf_forms :
    ∀ i ∈ [Instr.lmov .none (.queue 1) .lvls (.imm 1), .bits .none (.queue 1) .pcnt .zero .zero, .ext .none (.queue 1) .s8 .zero .zero,
        .bfre .none (.queue 1) .all .zero .zero, .mxdr .none .sr .zero .zero, .mvk .none 0 .zero .zero, .mvd .none (.queue 1) .sr .f32 .zero,
        .vadd .none (.queue 1) false .sr (.pop 1) (.pop 2), .vadd .none (.queue 1) false .rne .zero .zero, .vmnx .none (.queue 1) .min .zero .zero,
        .mxx .none (.queue 1) .f8a (.pop 1) (.pop 2), .mxx .none (.queue 1) .f32 .zero .zero, .vlog .none (.queue 1) .not (.pop 1) .zero,
        .vlog .none (.queue 1) .and .zero .zero, .vprm .none (.queue 1) .rot .zero .zero, .vprm .none (.queue 1) .rev (.pop 1) .zero,
        .vprm .none (.queue 1) .idx .zero .zero, .vred .none (.queue 1) .add .zero .zero, .vwid .none (.queue 1) .f32 .zero,
        .vbrd .none (.queue 1) (.e .zero .zero), .vmsk .none (.queue 1) (.two .and 1 2), .vmsk .none (.mask 0) (.two .not 1 2),
        .vmsk .none (.queue 1) (.one .not 1), .vmsk .none (.mask 0) (.one .and 1), .vmsk .none (.queue 1) (.fromv (.pop 1)),
        .vmsk .none (.mask 0) (.fromv .zero), .cvt .none (.queue 1) false .rne .f32 .zero, .mxq .none (.queue 1) .rne .f8a (.pop 0),
        .mxq .none (.queue 12) .rne .f8a (.pop 0), .mxq .none (.queue 2) .rne .f8a .zero, .sfa .none (.queue 1) .exp2 .zero, .fcls .none (.queue 1) .zero,
        .vlane .none (.queue 1) .zero .zero, .vidx .none (.queue 1) .f32 .zero .zero, .fsc .none (.queue 1) true .rtz (.pop 1) (.pop 0),
        .fsc .none (.queue 1) true .rne (.pop 1) .zero, .fsc .none (.queue 1) false .rne .zero .zero, .cacc .none (.loop 1) .cas .zero .zero,
        .fence .none .pkg .rlx .plain, .freezeN], i.wf = false := by decide +kernel

/-! ### Single steps -/

/-- The scalar results that ctl of core 0 waits for after an instruction. -/
def landing (i : Instr) (s : State) : Option (List Word) :=
  (nextOf (exec i s)).map fun t => (t.mach.seq 0 .ctl).timed.filterMap fun r => match r.dest with
    | .x _ _ _ v => some v
    | _ => none

/-- A core with room for a trap handler in its images. -/
def kTrap : Core := { kM with group := some { gA with lens := [0x8000, 0x8000, 0x8000, 0x8000] } }

/-- ADD wraps at 2^64, and .ss clamps at the largest signed number (R103). -/
theorem test_add_wraps : landing (.add .none (.queue 3) .wrap false (.lit64 0xFFFFFFFFFFFFFFFF) (.imm 1)) sCtl = some [0] := by decide +kernel
theorem test_add_saturates : landing (.add .none (.queue 3) .ss false (.lit64 0x7FFFFFFFFFFFFFFF) (.imm 1)) sCtl = some [0x7FFFFFFFFFFFFFFF] := by
  decide +kernel
/-- A division by zero gives all ones, of every form; the most negative by -1 gives itself (R105). -/
theorem test_div_zero : landing (.div .none (.queue 3) .s true (.imm 7) .zero) sCtl = some [0xFFFFFFFFFFFFFFFF] := by decide +kernel
theorem test_div_corner : landing (.div .none (.queue 3) .s true (.lit32 0x80000000) (.lit32 0xFFFFFFFF)) sCtl = some [0xFFFFFFFF80000000] := by
  decide +kernel
/-- AGEN.glb of die 2, tile 17 and offset 0x10400 is 0x24410400 (the example of chapter 4). -/
theorem test_agen_glb : landing (.agen .none (.queue 3) .glb (.lit32 0x211) (.lit32 0x10400)) sCtl = some [0x24410400] := by decide +kernel
/-- BITS.bfxs of 4 bits from bit 4 of 0x80 is -8 (R111). -/
theorem test_bfxs : landing (.bits .none (.queue 3) .bfxs (.lit32 0x80) (.lit32 0x304)) sCtl = some [0xFFFFFFFFFFFFFFF8] := by decide +kernel
/-- A 64-bit load of a global address that is not 8-aligned traps with ALIGN and the address (R119, R367). -/
theorem test_align :
    (nextOf (exec (.ldg .none 3 (.lit32 0x2004) 0 .b8) (sM .ld kTrap))).map (fun t =>
      ((t.mach.seq 0 .ld).pc, (t.mach.seq 0 .ld).trapInfo)) = some (0x7C00, 0x2004) := by decide +kernel
/-- TRAP #5 saves the offset of the instruction after it, sets the mode and goes to 0x7C00 (R370, R374). -/
theorem test_trap :
    (nextOf (exec (.trap .none (.imm 5)) (sM .ctl kTrap))).map (fun t => ((t.mach.seq 0 .ctl).pc, (t.mach.seq 0 .ctl).trapPc, (t.mach.seq 0 .ctl).status.super)) =
      some (0x7C00, 4, true) := by decide +kernel
/-- Whatever bring-up finds, package reset answers with every die held (R11). -/
theorem test_reset_holds :
    (nextOf (exec (.packageReset ⟨0, false, [], 3, [], false, 16384, false, true⟩) State.reset)).map (fun t => (t.trust.released, t.trust.package)) =
      some (false, 3) := by decide +kernel

/-! ### Witnesses for further clauses -/

/-- Column 8 of die 0 (pool 72) with frame 16,384 mapped n times and u frames of the context in use; and that machine with the
first word of the frame poisoned. -/
def mPool (k : Core) (n u : Nat) : Mach :=
  { mM k with pools := [(72, { Pool.reset with frames := [(16384, ⟨n, 0, 1⟩)], usage := [(1, u)] })] }
def mPoison (k : Core) : Mach := { mPool k 2 1 with dramPoison := [framePa (shapePool shA) 16384 / 8] }

theorem witness_AccessChecks_store :
    (mPool kM 1 100).writable 1 5 1 = none ∧
    (∀ x ∈ [(0 : Nat), 1], ((mM kM).writable 1 5 x).any (fun m => m.keyOk 0 .blk (5 * 2 ^ 44 + x * 2 ^ 16) 8 true &&
      (m.bseq 1 5).any fun q => (SMap.get? q.map x).isSome) = true) ∧
    ((mM kA).writable 1 5 0).any (fun m => !m.keyOk 0 .blk (5 * 2 ^ 44) 8 true) = true ∧
    (mPool kM 2 1).unsharePoison 1 5 0 = none ∧
    (mPoison kM).unsharePoison 1 5 0 = some (framePa (shapePool shA) 16384) ∧ (mPoison kM).bseq 1 5 = some bA ∧
    Trust.reset.globalOk 0x2000 = true ∧ (mM kM).regionAt .glb 1 0x2000 = some rG ∧ rG.key.state ≠ .lost ∧
    (mK kA).regionAt .glb 1 0xD000 = some rL ∧ rL.key.state = .lost := by decide +kernel

/-- A core with one load that waits for slice 0, and the machine with that slice retained or not. -/
def opSlice : Op := { opK .values with load := some ⟨.glb, 0x2000, 8, some 0⟩ }
def mSlice (r : Bool) (poison : List Nat) : Mach :=
  { mM { kM with ops := [opSlice] } with slices := [(0, { Slice.new with retained := r })], globalPoison := poison }

theorem witness_RemoteLoads_slice :
    (∀ r : Bool, ((mSlice r []).core 0).later = [] ∧ ((mSlice r []).core 0).op? 20 = some opSlice ∧ opSlice.kind = .values ∧
      (SMap.getD (mSlice r []).slices 0 .new).retained = r) ∧
    ((mSlice false []).exitPoison 0 opSlice = none) := by decide +kernel

theorem witness_PostedStores_poison :
    MeetsThen (.stb .none false 1 (.lit64 0x500000000000) 0 .b8) { sM .st kM with mach := mPoison kM } (storeChecks 0x500000000000 .blk)
      (fun m r => r.2.2 = none ∧ (m.core 0).posted.length < 16 ∧
        (halted ((envOf (sM .st kM) (.nop .none)).unshare m 0x500000000000)).isSome = true) ∧
    MeetsThen (.stb .none false 1 (.lit64 0x500000000000) 0 .b8) (sM .st kM) (storeChecks 0x500000000000 .blk)
      (fun m r => r.2.2 = none ∧ halted ((envOf (sM .st kM) (.nop .none)).unshare m 0x500000000000) = none) ∧
    (let p := { pA with bad := true }; let s := sM .st { kM with posted := [p], ops := [opStore] };
      (s.mach.core 0).posted.find? (fun x => decide (x.id = 9)) = some p ∧ p.live = true ∧ p.bad = true ∧
      (s.mach.core 0).ops.find? (fun o => decide (o.kind = .store 9)) = some opStore ∧
      (s.mach.core 0).posted.takeWhile (fun x => decide (x.id ≠ 9)) = [] ∧ s.mach.retainedSlice 0x2000 = none) := by
  exact ⟨meetsThen (by decide +kernel), meetsThen (by decide +kernel), by decide +kernel⟩

/-- A BSHR from handle 5 to handle 6 while another instruction of the same cycle passes the key of 6 on. -/
def sBlkRaced : State := { sBlk with mach := { sBlk.mach with regions := [rB, { rB6 with key := ⟨.transit, .moving, [], [], none, []⟩ }] } }
/-- Core 0 of gA, which holds the handles 5 and 6, with one block operation. -/
def mBlkOp (k : OpKind) : Mach := { sBlk.mach with cores := SMap.set [] 0 { kA with ops := [opK k] } }

theorem witness_BlockStoreForms_served :
    Meets2 (.bshr .none (.queue 3) (.lit64 0x500000000000) (.lit64 6)) sBlkRaced (.lit64 0x500000000000) (.lit64 6) (.queue 3) .pending
      (fun x _ _ m => m.regionAt .blk 1 x.toNat = some rB ∧ m.rackHas 0 3 .excl = true ∧ m.rackHas 0 6 .excl = false ∧
        (m.core 0).holding 6 = some ⟨6, .excl⟩) ∧
    ([3, 6].all fun r => sBlk.mach.rackHas 0 r .excl) = true ∧
    (∀ k ∈ [OpKind.bshr 5 6 1, .bfre 5 (some .rng) 0 0 1, .bfre 5 none 0 0 1, .binv 5 true 0 0 0 1], let m := mBlkOp k
      (m.core 0).later = [] ∧ (m.core 0).op? 20 = some (opK k) ∧ m.handleDrained 0 20 5 = true ∧ m.handleDrained 0 20 6 = true) ∧
    (let m := mBlkOp (.binv 5 true 0 0 0 1); m.bseq 1 5 = some bA ∧ (m.invalidate 1 5 0 1 [0]).isSome = true ∧
      m.unsharePoison 1 5 0 = none) := by
  exact ⟨meets2 (by decide +kernel), by decide +kernel, by decide +kernel, by decide +kernel⟩

theorem witness_KeyPasses_returns :
    (let r : Region := { rN with rid := 30, ctx := 2 }; let m : Mach := { mK { kA with ops := [opK (.retn 30 .excl)] } with regions := [r] }
      (m.core 0).op? 20 = some (opK (.retn 30 .excl)) ∧ m.region 30 = some r ∧ r.key.lender = [] ∧ (m.core 0).ctx ≠ r.ctx ∧
      r.key.passable .excl gA.gid = true ∧ m.drained 0 20 r = true ∧ m.retainedSlice r.base = none) := by decide +kernel

/-- A region that is lost under the key a KEYW asks for. -/
theorem witness_KeyWaits_lost :
    (∀ x ∈ [(0x10000 : BitVec 32), 3],
      Meets2 (.keywTkt .none (.queue 3) .glb (.lit32 0xD000) (.lit32 x)) sKey (.lit32 0xD000) (.lit32 x) (.queue 3) .pending
        (fun w v _ m => okAddr (.keywTkt .none (.queue 3) .glb (.lit32 0xD000) (.lit32 x)) sKey m .glb w true ∧
          m.regionAt .glb 1 w.toNat = some rL ∧ v.toNat = x.toNat ∧ rL.key.state = .lost)) ∧
    (∀ x ∈ [(false, (0xD000 : BitVec 32)), (true, 0xD000)], Meets1 (if x.1 then .keywFree .none (.queue 3) .glb (.lit32 x.2)
        else .keywArr .none (.queue 3) .glb (.lit32 x.2)) sKey (.lit32 x.2) (.queue 3) .pending (fun w _ m =>
      m.regionAt .glb 1 w.toNat = some rL ∧ rL.ctx = 1)) := by
  simp only [List.forall_mem_cons, List.not_mem_nil, false_implies, implies_true, and_true]
  exact ⟨⟨meets2 (by decide +kernel), meets2 (by decide +kernel)⟩, ⟨meets1 (by decide +kernel), meets1 (by decide +kernel)⟩⟩

theorem witness_LeaseForms_ending :
    (∀ x ∈ [(LeaseState.ending 0, true), (.ending 0, false), (.ending 3, true)],
      MeetsThen (.leaseAcq .none (.queue 3)) (sArr none [] { aHeld with lease := x.1 }) (fun e m => e.dst m (.queue 3) .pending)
        (fun m0 r => (m0.core 0).clause = none ∧ (r.2.array (clusterOf 0)).lease = x.1)) ∧
    (∀ i ∈ [Instr.wswp .none, .mxz .none true], Meets i (sArr none [] { aHeld with lease := .ending 0 }) (fun m =>
      (m.core 0).clause = none ∧ (m.array (clusterOf 0)).lease = .ending 0 ∧ (m.core 0).wants = gA.want)) ∧
    gA.want = true := by
  simp only [List.forall_mem_cons, List.not_mem_nil, false_implies, implies_true, and_true]
  exact ⟨⟨meetsThen (by decide +kernel), meetsThen (by decide +kernel), meetsThen (by decide +kernel)⟩,
    ⟨meets (by decide +kernel), meets (by decide +kernel)⟩, rfl⟩

theorem witness_ClauseForms_ending :
    let s := fun cl => sArr cl [] { aHeld with lease := .ending 0 }
    Meets (.mxh .none hB) (s none) (fun m => (m.core 0).clause = none ∧ (m.array (clusterOf 0)).lease = .ending 0 ∧ (m.core 0).wants = true) ∧
    Meets (.mxdrKeep .none) (s (some cl8)) (fun m => (m.core 0).clause = some cl8 ∧ (m.array (clusterOf 0)).lease = .ending 0 ∧
      (m.core 0).wants = true ∧ cl8.full = true) ∧
    Meets (.mxz .none true) (s (some (cl0 hB))) (fun m => (m.core 0).clause = some (cl0 hB) ∧
      (m.array (clusterOf 0)).lease = .ending 0 ∧ (m.core 0).wants = true) :=
  ⟨meets (by decide +kernel), meets (by decide +kernel), meets (by decide +kernel)⟩

/-- A clause whose body is one MXA of 8 rows, and its pass. -/
def clBody : Clause := { cl8 with body := [.mxa 0 512 8 512 false] }
def opBody : Op := { opPass with kind := .mxdr clBody false none }

theorem witness_ArrayEvents_spare :
    (∀ a ∈ [aHeld, { aHeld with passes := 1024 }, { aHeld with repl := some (0, 0) }, { aHeld with spBad := true }],
      ((sArr none [opPass] a).mach.array 0).lease = .held 0 ∧ a.bad = [] ∧ (a.chkrow < 1024 ↔ a.passes ≠ 1024)) ∧
    (∀ a : Array_, ((sArr none [opPass] a).mach.core 0).nextPass = some (opPass, cl8, none)) ∧
    (((sArr none [opBody] aHeld).mach.core 0).nextPass = some (opBody, clBody, none)) ∧
    ({ aHeld with passes := 1024 } : Array_).chkrow = 1024 ∧ clusterOf 0 = 0 ∧ cl8.md = none ∧ cl8.body = [] ∧
    (∀ j < 8, poisonIn ((mM kM).core 0).localPoison (0 + j * 512) 512 = none) := by
  refine ⟨?_, fun _ => rfl, rfl, by decide, by decide, by decide, by decide, by decide +kernel⟩
  simp only [List.forall_mem_cons, List.not_mem_nil, false_implies, implies_true, and_true]
  exact ⟨by decide +kernel, by decide +kernel, by decide +kernel, by decide +kernel⟩

/-- The column core with one column operation, all its granules and block 5's frame. -/
def mCol (k : OpKind) (ops : List Op) (ps : List Posted) : Mach :=
  sCol.mach.setCore 72 { kCol with
    ops := ops ++ [opK k], posted := ps, granules := (List.range 128).map fun n => (n, .group ⟨0, 0⟩ 1) }
/-- An STB to the block at the address a. -/
def pBlk (a : Nat) : Posted := ⟨9, .blk, a, 0, [7], none, true, 0, false⟩

theorem witness_ColumnForms_served :
    (∀ k ∈ [OpKind.mvk 4 0 (List.replicate 4 (List.replicate 128 0)), .mvm (some 0), .mvm none, .mvd 0 .f32 .rne, .mvd 0 .bf16 .rne,
        .mvd 0 .f16 .rne, .mvq false 0x500000000000 0, .mvq true 0x500000000000 0, .mvv false 0x500000000000 ⟨.f32, 0⟩ ⟨.f32, 0⟩],
      let m := mCol k [] []
      (m.core 72).later = [] ∧ (m.core 72).op? 20 = some (opK k) ∧ k.isColumn = true ∧ (m.core 72).noEarlier 20 OpKind.isColumn = true) ∧
    (let m := mCol (.mvm none) [{ opK (.mvm none) with id := 19 }] []; (m.core 72).noEarlier 20 OpKind.isColumn = false) ∧
    (∀ x ∈ [(0x500000000000, true), (0x600000000000, false)], let m := mCol (.mvq false 0x500000000000 0) [] [pBlk x.1]
      (m.core 72).blockStores 20 0x500000000000 = x.2) ∧
    (let m := mCol (.mvq true 0x500000000000 0) [] []; (m.core 72).group = some gA ∧ gA.evicted = [] ∧ (m.core 72).localPoison = [] ∧
      m.dramPoison = [] ∧ (m.core 72).ctx = 1 ∧ (m.chunk 1 0x500000000000).isSome = true ∧ (m.core 72).column.g ≤ 8 ∧ m.dram.wf = true ∧
      SMap.wf (m.core 72).column.acc = true ∧ shapeFmt shC = .f8a ∧ (∀ n < 128, (m.core 72).granule n = .group ⟨0, 0⟩ 1)) := by
  refine ⟨?_, by decide +kernel, by decide +kernel, by decide +kernel⟩
  simp only [List.forall_mem_cons, List.not_mem_nil, false_implies, implies_true, and_true]
  exact ⟨by decide +kernel, by decide +kernel, by decide +kernel, by decide +kernel, by decide +kernel, by decide +kernel, by decide +kernel,
    by decide +kernel, by decide +kernel⟩

theorem witness_VectorMoves_refused :
    Meets (.vnar .none (.queue 9) false .i8 (.pop 0)) sV (fun m => (m.core 0).headV 0 = .ok ⟨.f32, 0x3F800000⟩ ∧ kindOf .f32 ≠ .int) ∧
    Meets (.vnar .none (.queue 9) false .i16 (.peek 3)) sV (fun m => (m.core 0).headV 3 = .ok ⟨.i8, 5⟩ ∧ ¬fmtW .i16 < fmtW .i8) ∧
    MeetsThen (.vnar .none (.queue 9) false .i8 (.peek 6)) sV (fun e m => e.heads 6 (fmtW .i16 / fmtW .i8) m) (fun m r =>
      (m.core 0).headV 6 = .ok ⟨.i16, 0x7FFF⟩ ∧ r.1.all (fun w => decide (w.tag = .i16)) = true ∧ fmtW .i16 / fmtW .i8 ≠ 8) ∧
    (kindOf .i32 = .int ∧ kindOf .i4 = .int ∧ fmtW .i32 / fmtW .i4 = 8) ∧
    Meets (.vnar .none (.queue 9) false .i4 (.pop 1)) sV (fun m => (m.core 0).headV 1 = .ok ⟨.i32, 5⟩) :=
  ⟨meets (by decide +kernel), meets (by decide +kernel), meetsThen (by decide +kernel), by decide, meets (by decide +kernel)⟩

theorem witness_ScalarFunctions_widths :
    MeetsThen (.cvt .none (.queue 9) false .sr .i16 (.pop 0)) sV (fun e m => do
        let (vs, m1) ← e.heads 0 (widthRatio .f32 .i16) m
        let _ ← e.dstV (drawn 0 .sr m1) (.queue 9) .pending
        pure vs) (fun m r => (m.core 0).headV 0 = .ok ⟨.f32, 0x3F800000⟩ ∧ cvtForm .f32 .i16 = some .value ∧ fmtW .i16 < fmtW .f32 ∧
          widthRatio .f32 .i16 ≠ 8 ∧ r.all (fun w => decide (w.tag = .f32)) = true) ∧
    MeetsThen (.cvt .none (.queue 9) false .rne .i16 (.peek 0)) sV (fun e m => e.heads 0 (widthRatio .f32 .i16) m) (fun m r =>
      (m.core 0).headV 0 = .ok ⟨.f32, 0x3F800000⟩ ∧ r.1.all (fun w => decide (w.tag = .f32)) = true) ∧
    (∀ a ∈ [Src.pop 3, .peek 3], MeetsThen (.cvt .none (.queue 9) false .rne .f32 a) sV (fun e m => do
        let m1 := if a = .pop 3 then m.onCore 0 fun k => k.popV 3 else m
        let _ ← e.dstVs (.queue 9) (widened .f32 (widthRatio .i8 .f32) []) (drawn 0 .rne m1)
        pure ()) (fun m _ => (m.core 0).headV 3 = .ok ⟨.i8, 5⟩ ∧ cvtForm .i8 .f32 = some .value ∧ fmtW .i8 < fmtW .f32 ∧
          widthRatio .i8 .f32 ≠ 8)) ∧
    (cvtForm .f32 .i4 = some .value ∧ widthRatio .f32 .i4 = 8) ∧
    MeetsThen (.mxq .none (.queue 10) .rne .f8a (.peek 7)) sV (fun e m => e.heads 7 (widthRatio .bf16 .f8a) m) (fun m r =>
      (m.core 0).headV 7 = .ok ⟨.bf16, 0x3F80⟩ ∧ kindOf .bf16 = .wide ∧ (mxEmax .f8a).isSome = true ∧
      r.1.all (fun w => decide (w.tag = .bf16)) = true) ∧
    (widthRatio .f32 .f4 = 8 ∧ (mxEmax .f4).isSome = true) ∧
    MeetsThen (.mxq .none (.queue 10) .sr .f8a (.pop 7)) sV (fun e m => do
        let (vs, m) ← e.heads 7 (widthRatio .bf16 .f8a) m
        let (_, m) ← e.dstV (drawn 0 .sr m) (.queue 10) .pending
        let _ ← e.dstV m (Dst.scales (.queue 10)) .pending
        pure vs) (fun _ r => r.all (fun w => decide (w.tag = .bf16)) = true) ∧
    MeetsThen (.fsc .none (.queue 9) false .sr (.pop 0) (.pop 1)) sV (fun e m => do
        let (x, m) ← e.srcV2 m (.pop 0) (.pop 1)
        let _ ← e.dstV (drawn 0 .sr m) (.queue 9) .pending
        pure x) (fun _ r => r = [.entry ⟨.f32, 0x3F800000⟩, .entry ⟨.i32, 5⟩] ∧ intTag (fmtW .f32) = .i32) := by
  simp only [List.forall_mem_cons, List.not_mem_nil, false_implies, implies_true, and_true]
  exact ⟨meetsThen (by decide +kernel), meetsThen (by decide +kernel), ⟨meetsThen (by decide +kernel), meetsThen (by decide +kernel)⟩,
    by decide, meetsThen (by decide +kernel), by decide, meetsThen (by decide +kernel), meetsThen (by decide +kernel)⟩

/-- A copy of 64 bytes of local space into block 0 of handle 5, whose frame has to be copied and is poisoned. -/
def recB : List Word := [0x130, 0, 5 * 2 ^ 44, 64, 0, 0, 0, 0]
def sPoison (ws : List Word) : State :=
  { sRec ws with mach := { mK (kRec ws) with pools := (mPoison kM).pools, dramPoison := (mPoison kM).dramPoison } }

/-- A copy of two runs of 64 bytes, and whether an engine access came to its end. -/
def cp2 : CopyOp := { cpA with n1 := 2, sstr1 := 64, dstr1 := 128 }
def finished {α : Type} (r : Io α) : Bool :=
  match r with
  | .ok _ _ => true
  | _ => false

theorem witness_CopyForms_runs :
    MeetsThen (.cpy .none (.lit32 0x40)) (sPoison recB) (chkRec (.lit32 0x40)) (fun _ r =>
      copyFields (r.2.core 0) r.1 (copyOf r.1 false) = true ∧ ((r.2.core 0).obj 1).pend < 255 ∧ (r.2.copies (clusterOf 0) false).length < 64 ∧
      halted ((envOf (sPoison recB) (.nop .none)).copyChecks r.2 (copyOf r.1 false)) = none ∧
      (halted ((envOf (sPoison recB) (.nop .none)).unshare r.2 (5 * 2 ^ 44))).isSome = true) ∧
    (cp2.runs = 2 ∧ cp2.ssp = 0 ∧ cp2.dsp = 0 ∧ cp2.n0 = 64 ∧
      (∀ i < 2, cp2.src i + 64 ≤ 0x80000 ∧ cp2.dst i + 64 ≤ 0x80000) ∧
      (∀ i < 2, ∀ j < 2, i ≠ j → overlaps (cp2.dst i) 64 (cp2.dst j) 64 = false) ∧
      (∀ i < 2, ∀ j < 2, overlaps (cp2.dst i) 64 (cp2.src j) 64 = false)) ∧
    (let k := (sA 0 .ctl (kCpy cp2)).mach.core 0; k.op? 20 = some (opK (.cpy cp2)) ∧ k.later = [] ∧ k.localPoison = [] ∧ k.local_.wf = true ∧
      k.group = some gA ∧ (mA 0 kA).globalPoison = [] ∧ (mA 0 kA).global.wf = true ∧ (mA 0 kA).host.wf = true) ∧
    (let op := opK (.cpy cpA); let m := (sA 0 .ctl (kCpy cpA)).mach
      finished (engineRead .reset 0 op 0 0 0 64 m) = true ∧ finished (engineWrite .reset 0 op 0 0 0x1000 [1, 2] m) = true) ∧
    ((mM kM).core 0).ctx = 1 ∧ translate .reset (mM kM) 1 0x10000 = .leaf (2 * 2 ^ 38 + 2 ^ 30 + 0x10000) true false ∧
    walkPoison .reset (mM kM) 1 true 0x10000 64 = none ∧ (mM kM).dramPoison = [] ∧ (mM kM).dram.wf = true ∧
    (mM kM).bseq 1 5 = some bA ∧ SMap.get? bA.map 0 = some 16384 ∧
    ({ mM kM with inbox := [.data [7]] } : Mach).inbox = .data [7] :: [] := by
  exact ⟨meetsThen (by decide +kernel), by decide, by decide +kernel, by decide +kernel, by decide +kernel⟩

/-- A flag of device space, and one of package 5 at the address a. -/
def flagD : AccOpRec := ⟨.add, false, true, 2 * 2 ^ 38 + 2 ^ 30 + 0x40000, 0x40000, none, 1, 0, .pkg, .rel, false⟩
def farFlag (a : Word) : Word := 2 ^ 55 + 5 * 2 ^ 45 + a
def opFence (o : Order) (f : Option AccOpRec) : Op := { opK (.fence .pkg o f) with dests := [] }

theorem witness_Accumulates_flags :
    (∀ x ∈ [((0x40004 : Word), 0), (2 ^ 57, 1), (2 ^ 31, 2), (2 ^ 30, 3), (0x10000, 4), (0x40000, 5)],
      MeetsR2 (.fence .none .pkg .rel (.flag true (.lit64 x.1) (.pop 1))) sAcc (.lit64 x.1) (.pop 1) (fun w _ m =>
        (w.toNat % 8 ≠ 0 ↔ x.2 = 0) ∧ (2 ^ 57 ≤ w.toNat ↔ x.2 = 1) ∧ (translate .reset m 1 w.toNat = .fault ↔ x.2 = 1 ∨ x.2 = 2) ∧
        (m.commonAt true 1 w.toNat = true ↔ x.2 = 0 ∨ x.2 = 5) ∧ (m.seq 0 .ctl).status.super = false)) ∧
    translate .reset (mK kK) 1 (2 ^ 30) = .leaf (2 * 2 ^ 38 + 2 ^ 31) false true ∧
    (∀ x ∈ [farFlag (2 ^ 56), farFlag (2 ^ 32), farFlag 0xFFFFFFF8, farFlag 8],
      MeetsR2 (.fence .none .fab .ar (.flag false (.lit64 x) (.pop 1))) (farOf sAcc) (.lit64 x) (.pop 1) (fun w _ m =>
        w.toNat % 8 = 0 ∧ w.getLsbD 55 = true ∧ w.toNat / 2 ^ 45 % 1024 = 5 ∧ cutOff tFar m 5 = false ∧
        (2 ^ 56 ≤ w.toNat ↔ x = farFlag (2 ^ 56)) ∧ (w.toNat / 2 ^ 32 % 8192 ≠ 0 ↔ x = farFlag (2 ^ 32)) ∧
        (farGlobalOk (w.toNat % 2 ^ 32) = false ↔ x = farFlag 0xFFFFFFF8) ∧
        halted ((envOf (farOf sAcc) (.nop .none)).admission m w.toNat) = none)) ∧
    (cutOff .reset (mK kK) 5 = true ∧ (halted ((envOf sAcc (.nop .none)).admission (mK kK) 8)).isSome = true) ∧
    (∀ x ∈ [([] : List Posted), [{ pA with id := 5 }]], let op := opFence .rel (some flagD);
      let m := mA 0 { kA with ops := [op], posted := x }
      (m.core 0).later = [] ∧ (m.core 0).op? 20 = some op ∧ m.released 0 20 .pkg = x.isEmpty ∧ m.wordReady flagD = true ∧
        m.wordPoison flagD = none) ∧
    (let a : AccOpRec := { flagD with dev := false, pa := 0x4000, va := 0x4000 }; let m := { mA 0 kA with slices := (mSlice true []).slices }
      m.wordReady a = false ∧ a.remote = none) ∧
    (∀ sent : Bool, let a : AccOpRec := { acA with remote := some 5, sent := sent };
      ∀ op ∈ [opFence .rel (some a), { opK (.cacc a) with dests := [] }],
      let m : Mach := { mA 0 { kA with ops := [op] } with inbox := [.old 7 none 0 0] }
      (m.core 0).op? 20 = some op ∧ m.released 0 20 .pkg = true ∧ cutOff tFar m 5 = false ∧ cutOff .reset m 5 = true ∧ a.narrow = false ∧
        acquires a.order = false ∧ (m.core 0).wordBusy 20 .st a = false ∧ m.inbox = .old 7 none 0 0 :: []) ∧
    ((mA 0 kA).home false).wf = true ∧ ((mA 0 kA).home true).wf = true := by
  simp only [List.forall_mem_cons, List.not_mem_nil, false_implies, implies_true, and_true]
  refine ⟨⟨meetsR2 (by decide +kernel), meetsR2 (by decide +kernel), meetsR2 (by decide +kernel), meetsR2 (by decide +kernel),
    meetsR2 (by decide +kernel), meetsR2 (by decide +kernel)⟩, by decide +kernel,
    ⟨meetsR2 (by decide +kernel), meetsR2 (by decide +kernel), meetsR2 (by decide +kernel), meetsR2 (by decide +kernel)⟩, by decide +kernel,
    by decide +kernel, by decide +kernel, fun sent => ?_, by decide⟩
  cases sent <;> exact ⟨by decide +kernel, by decide +kernel⟩

/-- A load of the ring's slot 0 that has still to read it. -/
def opReads : Op := { opK .values with id := 19, load := some ⟨.glb, 0xA000, 8, some 0⟩ }

theorem witness_RingForms_waits :
    (let op := { opK (.rpub 9 1 1) with dests := [] }; let m := mK { kK with ops := [op], posted := [{ pA with id := 5 }] }
      (m.core 0).op? 20 = some op ∧ m.released 0 20 .pkg = false) ∧
    (let op := { opK (.rrel 8 0 1) with dests := [] }; let r := { rR with ring := some ringC }
      let m := { mK { kK with ops := [opReads, op] } with regions := [r] }
      (m.core 0).op? 20 = some op ∧ m.region 8 = some r ∧ opReads ∈ (m.core 0).earlier 20 ∧ (0xA000, 8) ∈ m.globalReads opReads ∧
        overlaps 0xA000 8 (r.base + 0 % ringC.slots * ringC.size) ringC.size = true) ∧
    (let m := { mK kK with regions := List.replicate 256 rR }; m.ringCount 0 = 256) := by decide +kernel

/-- The machine with a sealed waybill of device regions whose page walk meets a poisoned word, or none. -/
def mCommit (ps : List Nat) : Mach := { (sWb (wbA .sealed 2) [opK (.hctl 1 3)]).mach with dramPoison := ps }

theorem witness_HandoffForms_commit :
    (mCommit []).commitPoison .reset (wbA .sealed 2) = none ∧
    (mCommit [2 * 2 ^ 38 / 8]).commitPoison .reset (wbA .sealed 2) = some (2 * 2 ^ 38) ∧
    (∀ ps ∈ [[], [2 * 2 ^ 38 / 8]], let m := mCommit ps; (m.core 0).op? 20 = some (opK (.hctl 1 3)) ∧ m.waybill 3 = some (wbA .sealed 2)) := by
  decide +kernel

theorem witness_WeightLoads_lives : (mK kA).groupLives gA.gid = true := by decide

/-- The request of core 0's group with a node that has or has not predecessors. -/
def reqNode (pred : Nat) : Request := { reqA with nodes := [(0, ⟨pred, 1, .idle, 0⟩)] }

theorem witness_SystemForms_node :
    (∀ a ∈ [(0 : Word), 65536], ∀ pred < 2, let op := opK (.lnchNode a); let r := reqNode pred
      let m := { mK { kA with ops := [op] } with requests := [r] }
      (m.core 0).later = [] ∧ (m.core 0).op? 20 = some op ∧ m.released 0 20 .pkg = true ∧ (m.core 0).group = some gA ∧
      m.node gA.req (a.toNat % 65536) = some ⟨pred, 1, .idle, 0⟩ ∧ (a.toNat < 65536 ↔ a.toNat / 65536 = 0) ∧
      m.request gA.req = some r ∧ r.ended = false ∧ r.ending = none ∧ op.fin = [] ∧ SMap.wf r.nodes = true) := by
  simp only [List.forall_mem_cons, List.not_mem_nil, false_implies, implies_true, and_true]
  exact ⟨by decide +kernel, by decide +kernel⟩

/-- A core of gA that owns all its granules. -/
def kOwn : Core := { kM with granules := (List.range 128).map fun n => (n, .group ⟨0, 0⟩ 1) }

theorem witness_Frames_classes :
    (∀ i ∈ [Instr.tkw .none (.imm 1) true false, .yield .none, .qopDrop .none ⟨false, 1⟩], isControl i = true ∧ i.isEvent = false ∧
      (nextOf (exec i sCtl)).isSome = true) ∧
    (∀ i ∈ [Instr.vadd .none (.queue 9) false .rne (.pop 0) (.peek 0), .vlane .none (.queue 3) (.pop 1) .zero, .rndm .none (.queue 9) .b32],
      isVector i = true ∧ (nextOf (exec i sV)).isSome = true) ∧
    (∀ i ∈ [Instr.lendGrp .none (.queue 3) .glb (.lit32 0x2000) (.imm 1), .keyq .none (.queue 3) .glb (.lit32 0x2000),
        .splitRd .none (.queue 3) .glb (.lit32 0x2000) (.imm 1)], isAgentForm i = true ∧ (nextOf (exec i sKey)).isSome = true) ∧
    (changesRegions (.keyq .none (.queue 3) .glb .zero) = false ∧ startsInLocal (.nop .none) = false ∧ mayTakeFrame (.ldl .none 1 .zero 0 .b8) = false) ∧
    (kOwn.group = some gA ∧ gA.evicted = [] ∧ (∀ n < 128, kOwn.granule n = .group ⟨0, 0⟩ 1) ∧ kK.clause = none ∧ kV.clause = none) := by
  refine ⟨?_, ?_, ?_, by decide, by decide +kernel⟩ <;>
    simp only [List.forall_mem_cons, List.not_mem_nil, false_implies, implies_true, and_true]
  · exact ⟨by decide +kernel, by decide +kernel, by decide +kernel⟩
  · exact ⟨by decide +kernel, by decide +kernel, by decide +kernel⟩
  · exact ⟨by decide +kernel, by decide +kernel, by decide +kernel⟩

theorem witness_StepRunsDecoded_turns :
    (let s := { sWord [0x3A010211] with agenda := [.event .contextLoss] }; s.phase ≠ .st ∧ s.agenda = .event .contextLoss :: [] ∧
      Turn.event .contextLoss ≠ .wait ∧ s.trust.released = true) ∧
    (let s := { State.reset with agenda := [.wait] }; s.agenda = .wait :: [] ∧ s.trust.frozen = false ∧ s.trust.released = true) ∧
    ((State.reset.mach.core State.reset.cur).preempting = false) := by decide +kernel

end Sys2Proof.Tests
end

