-- ==== Sys2Proof/Proofs/Bytes.lean ====
section
/-! SUPPORT for the statement about the memories' bytes: a read is the bytes one by one, and little-endian numbers. -/

namespace Sys2Proof.Machine

/-! ### Bytes and numbers (R4) -/

@[simp] theorem leBytes_length (n x : Nat) : (leBytes n x).length = n := by
  induction n generalizing x with
  | zero => rfl
  | succ n ih => simp [leBytes, ih]

theorem leNat_leBytes (n x : Nat) : leNat (leBytes n x) = x % 256 ^ n := by
  induction n generalizing x with
  | zero => simp [leBytes, leNat, Nat.mod_one]
  | succ n ih => simp [leBytes, leNat, ih, pow_succ', Nat.mod_mul]

/-- Byte k of a number is its bits 8 k up. -/
theorem leBytes_getD {n k : Nat} (hk : k < n) (x : Nat) : (leBytes n x).getD k 0 = BitVec.ofNat 8 (x / 256 ^ k) := by
  induction n generalizing x k with
  | zero => omega
  | succ n ih =>
    cases k with
    | zero => simp [leBytes]
    | succ k => simpa [leBytes, pow_succ', Nat.div_div_eq_div_mul] using ih (Nat.lt_of_succ_lt_succ hk) (x / 256)

theorem leNat_lt (l : List Byte) : leNat l < 256 ^ l.length := by
  induction l with
  | nil => simp [leNat]
  | cons b r ih => have := b.isLt; simp only [leNat, List.length_cons, pow_succ']; omega

/-- The byte k places up in the number that bytes give is byte k of them. -/
theorem leNat_byte (l : List Byte) (k : Nat) : leNat l / 256 ^ k % 256 = (l.getD k 0).toNat := by
  induction l generalizing k with
  | nil => simp [leNat]
  | cons b r ih =>
    have hb : b.toNat < 256 := b.isLt
    cases k with
    | zero => simp [leNat, Nat.mod_eq_of_lt hb]
    | succ k =>
      rw [leNat, pow_succ', ← Nat.div_div_eq_div_mul, show (b.toNat + 256 * leNat r) / 256 = leNat r by omega]
      exact ih k

/-! ### Reads, byte by byte -/

/-- A byte that no cell lists reads 0. -/
theorem Mem.get_unlisted {m : Mem} {a : Nat} (h : ∀ p ∈ m, p.1 ≠ a) : Mem.get m a = 0 := by
  rw [Mem.get, SMap.getD, SMap.get?_none fun x hx => h _ hx rfl]
  rfl

/-- A cell hides nothing above it. -/
theorem Mem.get_cons_above {k : Nat} {v : Byte} {r : Mem} {a : Nat} (h : k < a) : Mem.get ((k, v) :: r) a = Mem.get r a := by
  simp only [Mem.get, SMap.getD, SMap.get?, if_neg h.ne', if_neg h.not_gt]

/-- One pass over an image that lists nothing before a gives its bytes from a on. -/
theorem Mem.toBytes_eq {m : Mem} {a n : Nat} (h : SMap.wf m = true) (hlo : ∀ p ∈ m, a ≤ p.1) :
    Mem.toBytes m a n = (List.range' a n).map (Mem.get m) := by
  induction m, a, n using Mem.toBytes.induct with
  | case1 m a => simp [Mem.toBytes]
  | case2 a n ih =>
    rw [Mem.toBytes, ih h (by simp), List.range'_succ, List.map_cons, Mem.get_unlisted (by simp)]
  | case3 v r a n ih =>
    obtain ⟨hr, hw⟩ := SMap.wf_cons.1 h
    rw [Mem.toBytes, if_pos rfl, ih hw hr, List.range'_succ, List.map_cons]
    congr 1
    · simp [Mem.get, SMap.getD, SMap.get?]
    · exact List.map_congr_left fun b hb => (Mem.get_cons_above (List.mem_range'_1.1 hb).1).symm
  | case4 k v r a n hka ih =>
    have hlo' : ∀ p ∈ (k, v) :: r, a + 1 ≤ p.1 := by
      have hk : a < k := lt_of_le_of_ne (hlo _ List.mem_cons_self) (Ne.symm hka)
      exact List.forall_mem_cons.2 ⟨hk, fun p hp => lt_trans hk ((SMap.wf_cons.1 h).1 p hp)⟩
    rw [Mem.toBytes, if_neg hka, ih h hlo', List.range'_succ, List.map_cons,
      Mem.get_unlisted fun p hp => (Nat.lt_of_succ_le (hlo' p hp)).ne']

/-- A read gives the bytes one by one. -/
theorem Mem.read_eq {m : Mem} (h : m.wf = true) (a n : Nat) :
    Mem.read m a n = (List.range n).map fun k => Mem.get m (a + k) := by
  rw [Mem.read, Mem.toBytes_eq (Mem.wf_iff.1 (Mem.slice_wf h a n)).1 (by simp), List.range_eq_range']
  exact List.map_congr_left fun k hk => by rw [Mem.get_slice h, if_pos (by simpa using List.mem_range'_1.1 hk)]

/-- Settles O19: the write through the rule of `Mem.paste`, the reads and the numbers byte by byte. -/
theorem memoryCanonical : Obligations.MemoryCanonical := by
  unfold Obligations.MemoryCanonical
  refine ⟨fun m a l h => ⟨Mem.write_wf h a l, Mem.get_write (Mem.wf_iff.1 h).1 a l⟩, fun m a n h => Mem.read_eq h a n,
    fun n x => ⟨leBytes_length n x, leNat_leBytes n x, fun k hk => leBytes_getD hk x⟩, fun m a n h => ⟨?_, fun k hk => ?_⟩,
    fun m a => Mem.get_unlisted⟩
  · simpa [Mem.nat, Mem.read_eq h] using leNat_lt (Mem.read m a n)
  · rw [Mem.nat, leNat_byte, Mem.read_eq h]
    simp [hk]

end Sys2Proof.Machine
end

