-- ==== Sys2Proof/Proofs/CanonicalState.lean ====
section
/-! SUPPORT for the statement that every step keeps the memories canonical: the rules of the state's operations, and the operands. -/

namespace Sys2Proof.Machine

section
variable {m : Mach}

/-! ### Canonical memories: the rules of the state -/

theorem Mach.Canonical.core (h : m.Canonical) (c : Nat) : (m.core c).local_.wf = true := h.2.2.2 c

/-- A machine put together from parts of canonical machines. -/
@[simp] theorem Mach.Canonical.parts {m m₁ m₂ m₃ : Mach} (h : m.Canonical) (h₁ : m₁.Canonical) (h₂ : m₂.Canonical)
    (h₃ : m₃.Canonical) {arrays : SMap Array_} {written : List Nat}
    {globalPoison dramPoison : List Nat} {slices : SMap Slice} {dieClock : SMap Nat} {regions : List Region}
    {relMarks : SMap RelMark} {seqs : List BSeq} {pools : SMap Pool} {channels : List Channel} {waybills : List Waybill}
    {levels : SMap (List QRecord)} {refused : SMap (BitVec 32)} {malformed saturation : BitVec 32}
    {requests : List Request} {launches : List Launch} {streams : List Stream} {saved : List Saved} {banks : SMap Bank}
    {cycleErrs : SMap (Bank × List BankErr)} {links : SMap LinkSt} {notices : List Notice} {contexts : SMap Context}
    {retiredPages : List Nat} {collectives : SMap Collective} {unreachable : List (BitVec 10)}
    {remoteShares : List (BitVec 10 × Nat × Nat × Gid × Right)} {admitted : List Admitted} {inbox : List Reply}
    {outbox : List Sent} {free ids : Nat} :
    Mach.Canonical ⟨m.cores, arrays, m₁.global, m₂.dram, written, m₃.host, globalPoison, dramPoison, slices, dieClock,
      regions, relMarks, seqs, pools, channels, waybills, levels, refused, malformed, saturation, requests, launches,
      streams, saved, banks, cycleErrs, links, notices, contexts, retiredPages, collectives, unreachable, remoteShares,
      admitted, inbox, outbox, free, ids⟩ := ⟨h₁.1, h₂.2.1, h₃.2.2.1, h.2.2.2⟩

/-- The memories and the cores alone say whether a machine is canonical. -/
@[simp] theorem Mach.canonical_parts_iff {arrays : SMap Array_} {written : List Nat}
    {globalPoison dramPoison : List Nat} {slices : SMap Slice} {dieClock : SMap Nat} {regions : List Region}
    {relMarks : SMap RelMark} {seqs : List BSeq} {pools : SMap Pool} {channels : List Channel} {waybills : List Waybill}
    {levels : SMap (List QRecord)} {refused : SMap (BitVec 32)} {malformed saturation : BitVec 32}
    {requests : List Request} {launches : List Launch} {streams : List Stream} {saved : List Saved} {banks : SMap Bank}
    {cycleErrs : SMap (Bank × List BankErr)} {links : SMap LinkSt} {notices : List Notice} {contexts : SMap Context}
    {retiredPages : List Nat} {collectives : SMap Collective} {unreachable : List (BitVec 10)}
    {remoteShares : List (BitVec 10 × Nat × Nat × Gid × Right)} {admitted : List Admitted} {inbox : List Reply}
    {outbox : List Sent} {free ids : Nat} :
    Mach.Canonical ⟨m.cores, arrays, m.global, m.dram, written, m.host, globalPoison, dramPoison, slices, dieClock,
      regions, relMarks, seqs, pools, channels, waybills, levels, refused, malformed, saturation, requests, launches,
      streams, saved, banks, cycleErrs, links, notices, contexts, retiredPages, collectives, unreachable, remoteShares,
      admitted, inbox, outbox, free, ids⟩ ↔ m.Canonical := Iff.rfl

theorem Mach.Canonical.host_wf (h : m.Canonical) : m.host.wf = true := h.2.2.1

/-- A canonical machine with another canonical host memory. -/
@[simp] theorem Mach.Canonical.withHost {m m₁ m₂ : Mach} (h : m.Canonical) (h₁ : m₁.Canonical) (h₂ : m₂.Canonical)
    {host : Mem} (hh : host.wf = true) {arrays : SMap Array_} {written : List Nat}
    {globalPoison dramPoison : List Nat} {slices : SMap Slice} {dieClock : SMap Nat} {regions : List Region}
    {relMarks : SMap RelMark} {seqs : List BSeq} {pools : SMap Pool} {channels : List Channel} {waybills : List Waybill}
    {levels : SMap (List QRecord)} {refused : SMap (BitVec 32)} {malformed saturation : BitVec 32}
    {requests : List Request} {launches : List Launch} {streams : List Stream} {saved : List Saved} {banks : SMap Bank}
    {cycleErrs : SMap (Bank × List BankErr)} {links : SMap LinkSt} {notices : List Notice} {contexts : SMap Context}
    {retiredPages : List Nat} {collectives : SMap Collective} {unreachable : List (BitVec 10)}
    {remoteShares : List (BitVec 10 × Nat × Nat × Gid × Right)} {admitted : List Admitted} {inbox : List Reply}
    {outbox : List Sent} {free ids : Nat} :
    Mach.Canonical ⟨m.cores, arrays, m₁.global, m₂.dram, written, host, globalPoison, dramPoison, slices, dieClock,
      regions, relMarks, seqs, pools, channels, waybills, levels, refused, malformed, saturation, requests, launches,
      streams, saved, banks, cycleErrs, links, notices, contexts, retiredPages, collectives, unreachable, remoteShares,
      admitted, inbox, outbox, free, ids⟩ := ⟨h₁.1, h₂.2.1, hh, h.2.2.2⟩

@[simp] theorem Mach.Canonical.ite {m₁ m₂ : Mach} {p : Prop} [Decidable p] (h₁ : m₁.Canonical) (h₂ : m₂.Canonical) :
    (if p then m₁ else m₂).Canonical := by
  split
  · exact h₁
  · exact h₂

@[simp] theorem setCore_canonical (h : m.Canonical) {c : Nat} {k : Core} (hk : k.local_.wf = true) :
    (m.setCore c k).Canonical := by
  obtain ⟨hg, hd, hh, hc⟩ := h
  refine ⟨hg, hd, hh, fun d => ?_⟩
  by_cases hdc : d = c
  · subst hdc; rw [Mach.setCore_core]; exact hk
  · rw [Mach.setCore_core_ne m k hdc]; exact hc d

theorem onCore_canonical (h : m.Canonical) {c : Nat} {f : Core → Core} (hf : ∀ k : Core, (f k).local_ = k.local_) :
    (m.onCore c f).Canonical :=
  setCore_canonical h (by rw [hf]; exact h.core c)

/-- A core's operation that leaves its local memory changes no memory. -/
@[simp] theorem setCore_canonical_iff {c : Nat} {k : Core} (hk : k.local_ = (m.core c).local_) :
    (m.setCore c k).Canonical ↔ m.Canonical := by
  refine ⟨fun ⟨hg, hd, hh, hc⟩ => ⟨hg, hd, hh, fun d => ?_⟩, fun h => setCore_canonical h (hk ▸ h.core c)⟩
  have hd := hc d
  by_cases hdc : d = c
  · subst hdc; rwa [Mach.setCore_core, hk] at hd
  · rwa [Mach.setCore_core_ne m _ hdc] at hd

@[simp] theorem onCore_canonical_iff {c : Nat} {f : Core → Core} (hf : ∀ k : Core, (f k).local_ = k.local_) :
    (m.onCore c f).Canonical ↔ m.Canonical :=
  setCore_canonical_iff (hf _)

theorem onCore_wf (h : m.Canonical) {c : Nat} {f : Core → Core} (hf : ∀ k : Core, k.local_.wf = true → (f k).local_.wf = true) :
    (m.onCore c f).Canonical := setCore_canonical h (hf _ (h.core c))

theorem SMap.get?_mapVals {α β : Type} (f : Nat → α → β) (m : SMap α) (n : Nat) :
    SMap.get? (SMap.mapVals f m) n = (SMap.get? m n).map (f n) := by
  induction m with
  | nil => rfl
  | cons p r ih =>
    obtain ⟨k, v⟩ := p
    simp only [SMap.mapVals, List.map_cons, SMap.get?]
    split
    next hk => simp [hk]
    split
    · rfl
    · exact ih

/-- Every core changed in what is not its memory. -/
theorem Mach.Canonical.mapCores (h : m.Canonical) {f : Nat → Core → Core} (hf : ∀ c k, (f c k).local_ = k.local_) :
    Mach.Canonical { m with cores := SMap.mapVals f m.cores } := by
  refine ⟨h.1, h.2.1, h.2.2.1, fun c => ?_⟩
  have hc := h.core c
  simp only [Mach.core, SMap.getD, SMap.get?_mapVals] at hc ⊢
  cases hg : SMap.get? m.cores c with
  | none => rfl
  | some k => simpa [hg, hf] using hc

@[simp] theorem onSeq_canonical_iff {c : Nat} {q : SeqId} {f : Seq → Seq} : (m.onSeq c q f).Canonical ↔ m.Canonical :=
  onCore_canonical_iff fun k => by simp

@[simp] theorem notify_canonical_iff {n : Notice} : (m.notify n).Canonical ↔ m.Canonical := Iff.rfl

@[simp] theorem bankError_canonical_iff {die b : Nat} {uc cons : Bool} {i : ErrInfo} :
    (m.bankError die b uc cons i).Canonical ↔ m.Canonical := Iff.rfl

@[simp] theorem consume_canonical_iff {die b : Nat} {i : ErrInfo} {ctx : BitVec 6} {cdie core seq : Nat} :
    (m.consume die b i ctx cdie core seq).Canonical ↔ m.Canonical := Iff.rfl

@[simp] theorem Core.abandonClause_local (k : Core) : k.abandonClause.local_ = k.local_ := by
  unfold Core.abandonClause; split <;> rfl

/-! ### Canonical memories: loops and checks -/

theorem foldl_local {α : Type} {l : List α} {f : Core → α → Core} (hf : ∀ k a, (f k a).local_ = k.local_) (k : Core) :
    (l.foldl f k).local_ = k.local_ :=
  List.foldlRecOn (motive := fun x => x.local_ = k.local_) l f rfl fun x hx a _ => (hf x a).trans hx

theorem foldr_local {α : Type} {l : List α} {f : α → Core → Core} (hf : ∀ a k, (f a k).local_ = k.local_) (k : Core) :
    (l.foldr f k).local_ = k.local_ :=
  List.foldrRecOn (motive := fun x => x.local_ = k.local_) l f rfl fun x hx a _ => (hf a x).trans hx

theorem foldl_canonical {α : Type} {l : List α} {f : Mach → α → Mach} (h : m.Canonical)
    (hf : ∀ m a, m.Canonical → (f m a).Canonical) : (l.foldl f m).Canonical :=
  List.foldlRecOn (motive := Mach.Canonical) l f h fun m hm a _ => hf m a hm

theorem foldl_canonical_iff {α : Type} {l : List α} {f : Mach → α → Mach}
    (hf : ∀ m a, (f m a).Canonical ↔ m.Canonical) : (l.foldl f m).Canonical ↔ m.Canonical :=
  List.foldlRecOn (motive := fun x => x.Canonical ↔ m.Canonical) l f Iff.rfl fun x hx a _ => (hf x a).trans hx

theorem foldr_canonical {α : Type} {l : List α} {f : α → Mach → Mach} (h : m.Canonical)
    (hf : ∀ a m, m.Canonical → (f a m).Canonical) : (l.foldr f m).Canonical :=
  List.foldrRecOn (motive := Mach.Canonical) l f h fun m hm a _ => hf a m hm

/-- What a check gives, if it does not halt, meets P. -/
def Chk.Sat {α : Type} (P : α → Prop) (x : Chk α) : Prop := ∀ a, x = .ok a → P a

@[simp] theorem Chk.sat_ok {α : Type} {P : α → Prop} {a : α} : Chk.Sat P (.ok a) ↔ P a :=
  ⟨fun h => h a rfl, fun h b hb => by cases hb; exact h⟩

@[simp] theorem Chk.sat_error {α : Type} {P : α → Prop} {x : Halt} : Chk.Sat P (.error x) ↔ True :=
  ⟨fun _ => trivial, fun _ _ ha => by cases ha⟩

theorem Chk.Sat.bind {α β : Type} {P : α → Prop} {Q : β → Prop} {x : Chk α} {f : α → Chk β} (hx : x.Sat P)
    (hf : ∀ a, P a → Chk.Sat Q (f a)) : Chk.Sat Q (x >>= f) := by
  cases x with
  | error y => exact Chk.sat_error.2 trivial
  | ok a => exact hf a (Chk.sat_ok.1 hx)

/-- A step that gives its value with no check. -/
theorem Chk.Sat.given {α β : Type} {Q : β → Prop} {a : α} {f : α → Chk β} (h : Chk.Sat Q (f a)) : Chk.Sat Q (.ok a >>= f) := h

/-- A step that halts. -/
theorem Chk.Sat.stop {α β : Type} {Q : β → Prop} {x : Halt} {f : α → Chk β} : Chk.Sat Q (.error x >>= f) :=
  Chk.sat_error.2 trivial

/-- A step that gives no machine. -/
theorem Chk.Sat.skip {α β : Type} {Q : β → Prop} {x : Chk α} {f : α → Chk β} (hf : ∀ a, Chk.Sat Q (f a)) :
    Chk.Sat Q (x >>= f) := by
  have any : x.Sat fun _ => True := fun _ _ => trivial
  exact any.bind fun a _ => hf a

/-! ### Sequencers, traps and tokens -/

@[simp] theorem Core.onSeq_local (k : Core) {q f} : (k.onSeq q f).local_ = k.local_ := by
  cases q <;> rfl

@[simp] theorem Core.onSeqs_local (k : Core) {f} : (k.onSeqs f).local_ = k.local_ := by rfl

@[simp] theorem Mach.fresh_canonical_iff : (m.fresh).2.Canonical ↔ m.Canonical := by simp [Mach.fresh]

@[simp] theorem takeTrap_canonical_iff {t c q code info pc} : (takeTrap t c q code info pc m).Canonical ↔ m.Canonical := by
  simp only [takeTrap]
  split <;> split <;> simp

@[simp] theorem watchdog_canonical_iff {t c q} : (watchdog t c q m).Canonical ↔ m.Canonical := by
  simp only [watchdog]
  split <;> simp

@[simp] theorem countStall_canonical_iff {t c q kind} : (countStall t c q kind m).Canonical ↔ m.Canonical := by simp [countStall]

@[simp] theorem Core.onPushQ_local (k : Core) {q up f} : (k.onPushQ q up f).local_ = k.local_ := by
  simp only [Core.onPushQ]
  repeat' split
  all_goals simp

@[simp] theorem Core.tokReserve_local (k : Core) {q up n} : (k.tokReserve q up n).local_ = k.local_ := by
  simp [Core.tokReserve]

@[simp] theorem Core.tokPost_local (k : Core) {q up n} : (k.tokPost q up n).local_ = k.local_ := by
  simp [Core.tokPost]

@[simp] theorem Core.postTokens_local (k : Core) {q pu pd} : (k.postTokens q pu pd).local_ = k.local_ := by
  simp only [Core.postTokens]
  repeat' split
  all_goals simp

theorem Env.tokens_canonical (h : m.Canonical) {e : Env} : Chk.Sat Mach.Canonical (e.tokens m) := by
  intro m' hm'
  obtain ⟨hm, hk⟩ := Env.tokens_ok hm'
  rw [hm]
  exact setCore_canonical h (by rw [local_of_calm hk]; exact h.core e.c)

@[simp] theorem Core.goTo_local (k : Core) {q pc delay} : (k.goTo q pc delay).local_ = k.local_ := by
  simp only [Core.goTo]
  split <;> simp

@[simp] theorem Env.jump_canonical_iff {e : Env} {pc delay} : (e.jump pc delay m).Canonical ↔ m.Canonical := by simp [Env.jump]

@[simp] theorem Env.advance_canonical_iff {e : Env} {delay} : (e.advance delay m).Canonical ↔ m.Canonical := by simp [Env.advance]

@[simp] theorem Core.setV_local (k : Core) {n l} : (k.setV n l).local_ = k.local_ := by rfl

@[simp] theorem Core.popX_local (k : Core) {q n} : (k.popX q n).local_ = k.local_ := by
  simp [Core.popX]

@[simp] theorem Core.popV_local (k : Core) {n} : (k.popV n).local_ = k.local_ := by rfl

/-! ### Destinations and results -/

theorem Env.reserveX_canonical (h : m.Canonical) {e : Env} {n en} : Chk.Sat (·.2.Canonical) (e.reserveX m n en) := by
  simp only [Env.reserveX]
  split <;> simp [h, h.core]

theorem Env.reserveV_canonical (h : m.Canonical) {e : Env} {n en} : Chk.Sat (·.2.Canonical) (e.reserveV m n en) := by
  simp only [Env.reserveV]
  repeat' split
  all_goals simp [h, h.core]

@[simp] theorem Core.land_local (k : Core) {d} : (k.land d).local_ = k.local_ := by
  simp only [Core.land]
  repeat' split
  all_goals simp

@[simp] theorem Core.landFrom_local (k : Core) {id d} : (k.landFrom id d).local_ = k.local_ := by
  simp only [Core.landFrom]
  repeat' split
  all_goals simp

theorem Env.dst_canonical (h : m.Canonical) {e : Env} {d en} : Chk.Sat (·.2.Canonical) (e.dst m d en) := by
  cases d with
  | queue n => exact (Env.reserveX_canonical h).bind fun ⟨slot, m⟩ h => by simpa using h
  | mask k => exact .skip fun _ => by simpa using h
  | loop k => simpa [Env.dst] using h
  | discard => simpa [Env.dst] using h

theorem Env.dstV_canonical (h : m.Canonical) {e : Env} {d en} : Chk.Sat (·.2.Canonical) (e.dstV m d en) := by
  cases d with
  | queue n => exact (Env.reserveV_canonical h).bind fun ⟨slot, m⟩ h => by simpa using h
  | mask k => exact .skip fun _ => by simpa using h
  | loop k => simpa [Env.dstV] using h
  | discard => simpa [Env.dstV] using h

@[simp] theorem Env.timed_canonical_iff {e : Env} {latency dest satur divz} :
    (e.timed m latency dest satur divz).Canonical ↔ m.Canonical := by simp [Env.timed]

@[simp] theorem Env.finishNow_canonical_iff {e : Env} : (e.finishNow m).Canonical ↔ m.Canonical := by simp [Env.finishNow]

@[simp] theorem Core.nudge_local (k : Core) {pending d} : (k.nudge pending d).local_ = k.local_ := by
  simp only [Core.nudge]
  repeat' split
  all_goals simp

@[simp] theorem Core.landTimed_local (k : Core) {q r} : (k.landTimed q r).local_ = k.local_ := by
  simp [Core.landTimed]

@[simp] theorem Core.landDue_local (k : Core) {q} : (k.landDue q).local_ = k.local_ := by
  simp only [Core.landDue]
  split
  · rfl
  · rw [foldl_local fun k r => by simp]; simp

@[simp] theorem Core.unland_local (k : Core) {q r was} : (k.unland q r was).local_ = k.local_ := by
  simp only [Core.unland]
  repeat' split
  all_goals simp

@[simp] theorem Core.take_local (k : Core) {q} : (k.take q).local_ = k.local_ := by
  have hback (l : List (Timed × Landing)) (k : Core) :
      (l.foldr (fun x k => k.unland q x.1 x.2) k).local_ = k.local_ := foldr_local (fun x k => by simp) k
  simp only [Core.take]
  split <;> simp [hback]

/-! ### Halts and the start of an operation -/

/-- What a halted attempt leaves while a pre-emption may take its sequencer (R378). -/
@[simp] theorem takeWaiting_getD_canonical (h : m.Canonical) {m' : Mach} (h' : m'.Canonical) {c q} :
    ((m.takeWaiting c q).getD m').Canonical := by
  simp only [Mach.takeWaiting]
  split <;> simp [h, h', h.core]

theorem Mach.takeWaiting_canonical (h : m.Canonical) {c q} : ((m.takeWaiting c q).getD m).Canonical :=
  takeWaiting_getD_canonical h h

@[simp] theorem waitAtRack_canonical_iff {t c q rid ask} : (waitAtRack t c q rid ask m).Canonical ↔ m.Canonical := by
  simp [waitAtRack]

@[simp] theorem Mach.onCollective_canonical_iff {g f} : (m.onCollective g f).Canonical ↔ m.Canonical := by
  simp only [Mach.onCollective]
  split <;> rfl

@[simp] theorem Mach.clrdBegins_canonical_iff {p g c} : (m.clrdBegins p g c).Canonical ↔ m.Canonical := by
  simp only [Mach.clrdBegins]
  repeat' split
  all_goals simp

@[simp] theorem Env.lose_canonical_iff {e : Env} {die bank i} : (e.lose die bank i m).Canonical ↔ m.Canonical := by
  simp [Env.lose]

@[simp] theorem Env.halt_canonical (h : m.Canonical) {e : Env} {x : Halt} : (e.halt x m).Canonical := by
  cases x with
  | chunk g n => exact takeWaiting_getD_canonical h (countStall_canonical_iff.2 (Mach.clrdBegins_canonical_iff.2 h))
  | _ => simp [Env.halt, h]

@[simp] theorem Env.start_canonical_iff {e : Env} {kind dests flags fin load} :
    (e.start m kind dests flags fin load).2.Canonical ↔ m.Canonical := by
  have hm (op : Op) : (m.onCore e.c fun k => { k with ops := k.ops ++ [op] }).Canonical ↔ m.Canonical :=
    onCore_canonical_iff fun _ => rfl
  exact hm _

@[simp] theorem Env.block_canonical_iff {e : Env} {o} : (e.block o m).Canonical ↔ m.Canonical := by simp [Env.block]

@[simp] theorem Env.startValues_canonical_iff {e : Env} {dests flags fin} :
    (e.startValues m dests flags fin).Canonical ↔ m.Canonical := Env.start_canonical_iff

@[simp] theorem Core.setOp_local (k : Core) {op} : (k.setOp op).local_ = k.local_ := by rfl

@[simp] theorem Core.dropLines_local (k : Core) {r} : (k.dropLines r).local_ = k.local_ := by rfl

@[simp] theorem Core.gain_local (k : Core) {h'} : (k.gain h').local_ = k.local_ := by rfl

@[simp] theorem Core.drop_local (k : Core) {h'} : (k.drop h').local_ = k.local_ := by rfl

@[simp] theorem Core.finAct_local (k : Core) {a} : (k.finAct a).local_ = k.local_ := by
  simp only [Core.finAct]
  split <;> simp

@[simp] theorem Core.finish_local (k : Core) {op} : (k.finish op).local_ = k.local_ := by
  have hland (l : List Landing) (k : Core) : (l.foldl (fun k d => (k.landFrom op.id d).nudge true d) k).local_ = k.local_ :=
    foldl_local (fun k d => by simp) k
  have hfin (l : List Fin_) (k : Core) : (l.foldl Core.finAct k).local_ = k.local_ := foldl_local (fun k f => by simp) k
  simp [Core.finish, hland, hfin, Core.onSeqs]

@[simp] theorem Mach.onRegion_canonical_iff {rid f} : (m.onRegion rid f).Canonical ↔ m.Canonical := by simp [Mach.onRegion]

@[simp] theorem Mach.finAct_canonical_iff {a} : (m.finAct a).Canonical ↔ m.Canonical := by
  simp only [Mach.finAct]
  split <;> simp

@[simp] theorem Mach.finish_canonical_iff {c op} : (m.finish c op).Canonical ↔ m.Canonical :=
  (onCore_canonical_iff fun k => by simp).trans (foldl_canonical_iff fun m f => by simp)

@[simp] theorem Mach.dropOp_canonical_iff {c o} : (m.dropOp c o).Canonical ↔ m.Canonical := by simp [Mach.dropOp]

@[simp] theorem Env.later_canonical_iff {e : Env} {l} : (e.later l m).Canonical ↔ m.Canonical := by simp [Env.later]

/-! ### Sources and attempts -/

theorem Env.src_canonical (h : m.Canonical) {e : Env} {a} : Chk.Sat (·.2.Canonical) (e.src m a) := by
  rintro ⟨v, m'⟩ hv
  obtain rfl | ⟨n, -, rfl⟩ := Env.src_ok hv
  · exact h
  · simp [h]

theorem Env.src2_canonical (h : m.Canonical) {e : Env} {a b} : Chk.Sat (·.2.2.Canonical) (e.src2 m a b) := by
  unfold Env.src2
  refine (Env.src_canonical h).bind fun ⟨x, m⟩ h => (Env.src_canonical h).bind fun ⟨y, m⟩ h => ?_
  simp [h]

theorem Env.srcV_canonical (h : m.Canonical) {e : Env} {a} : Chk.Sat (·.2.Canonical) (e.srcV m a) := by
  unfold Env.srcV
  split
  · exact .skip fun _ => by simp [h]
  · exact .skip fun _ => by simp [h]
  · simp [h]
  · exact (Env.src_canonical h).bind fun ⟨v, m⟩ h => by simpa using h

theorem Env.third_canonical (h : m.Canonical) {e : Env} {q} : Chk.Sat (·.2.Canonical) (e.third m q) := by
  unfold Env.third
  refine .skip fun _ => ?_
  simp [h]

/-- A body that keeps the memories canonical, started or halted (R47, R73). -/
theorem attemptAt_canonical {i : Instr} {body : Env → Mach → Chk Mach} {e : Env} {s s' : State} (h : s.mach.Canonical)
    (hb : ∀ m, m.Canonical → (body e m).Sat Mach.Canonical) (hs : attemptAt e i body s = .next s') : s'.mach.Canonical := by
  simp only [attemptAt] at hs
  split at hs
  next m hm =>
    cases hs
    refine (?_ : Chk.Sat Mach.Canonical _) m hm
    exact .skip fun _ => (Env.tokens_canonical h).bind fun m h => .skip fun _ => hb m h
  next x hx =>
    cases hs
    exact Env.halt_canonical h

/-! ### Writes of home memory -/

theorem Mach.Canonical.home (h : m.Canonical) {dram} : (m.home dram).wf = true := by
  cases dram
  · exact h.1
  · exact h.2.1

@[simp] theorem Mach.setHome_canonical (h : m.Canonical) {dram} {mem : Mem} (hm : mem.wf = true) {poison} :
    (m.setHome dram mem poison).Canonical := by
  obtain ⟨hg, hd, hh, hc⟩ := h
  cases dram
  · exact ⟨hm, hd, hh, hc⟩
  · exact ⟨hg, hm, hh, hc⟩

/-- THE write of home memory keeps every memory canonical: the image's keys have to rise. -/
@[simp] theorem Mach.writeHome_canonical (h : m.Canonical) {dram a n} {img : Mem} (hi : SMap.wf img = true) :
    (m.writeHome dram a n img).Canonical :=
  Mach.setHome_canonical h (Mem.paste_wf h.home hi a n)

@[simp] theorem Mach.zeroHome_canonical (h : m.Canonical) {dram a n} : (m.zeroHome dram a n).Canonical := by
  have hw : (m.writeHome dram a n []).Canonical := Mach.writeHome_canonical h rfl
  simp [Mach.zeroHome, hw]

@[simp] theorem Mach.touchSlice_canonical_iff {a} : (m.touchSlice a).Canonical ↔ m.Canonical := by simp [Mach.touchSlice]

/-- The keys of a slice of an image rise where the image's do. -/
theorem Mem.slice_rising {img : Mem} (hi : img.wf = true) {a n} : SMap.wf (img.slice a n) = true :=
  (Mem.wf_iff.1 (Mem.slice_wf hi a n)).1

@[simp] theorem Mem.ofBytes_rising (l : List Byte) : SMap.wf (Mem.ofBytes l) = true := (Mem.wf_iff.1 (Mem.ofBytes_wf l)).1

@[simp] theorem Mach.piecesWrite_canonical (h : m.Canonical) {dev ps} {img : Mem} (hi : img.wf = true) :
    (m.piecesWrite dev ps img).Canonical :=
  foldl_canonical h fun _ _ h => Mach.writeHome_canonical h (Mem.slice_rising hi)

/-! ### Frames and addresses -/

@[simp] theorem Mach.onBseq_canonical_iff {ctx h' f} : (m.onBseq ctx h' f).Canonical ↔ m.Canonical := by simp [Mach.onBseq]

@[simp] theorem Mach.onPool_canonical_iff {p f} : (m.onPool p f).Canonical ↔ m.Canonical := by simp [Mach.onPool]

theorem Mach.takeFrame_canonical (h : m.Canonical) {s f} {m' : Mach} (hs : m.takeFrame s = some (f, m')) : m'.Canonical := by
  simp only [Mach.takeFrame] at hs
  repeat' split at hs
  all_goals cases hs
  all_goals simp [h]

@[simp] theorem Mach.freeFrame_canonical (h : m.Canonical) {pool frame} : (m.freeFrame pool frame).Canonical := by
  simp only [Mach.freeFrame]
  split <;> simp [h]

@[simp] theorem Mach.unmapFrame_canonical (h : m.Canonical) {pool frame} : (m.unmapFrame pool frame).Canonical := by
  simp only [Mach.unmapFrame]
  split <;> simp [h]

theorem Mach.writable_canonical (h : m.Canonical) {ctx b key} {m' : Mach} (hs : m.writable ctx b key = some m') : m'.Canonical := by
  simp only [Mach.writable] at hs
  repeat' split at hs
  all_goals cases hs
  next hf => simp [Mach.takeFrame_canonical h hf]
  next => exact h
  next hf =>
    have h := Mach.takeFrame_canonical h hf
    simp [h, Mem.slice_rising h.2.1]

@[simp] theorem Mach.setValid_canonical_iff {b n} : (m.setValid b n).Canonical ↔ m.Canonical := by simp [Mach.setValid]

theorem Env.resolve_canonical (h : m.Canonical) {e : Env} {sp ea n store} :
    Chk.Sat (·.2.Canonical) (e.resolve m sp ea n store) := by
  cases sp with
  | glb => exact .skip fun _ => .skip fun _ => by simpa using h
  | dev =>
    refine .skip fun _ => ?_
    split
    · simp
    · simp
    · exact .skip fun _ => .skip fun _ => by simpa using h
  | blk =>
    simp only [Env.resolve]
    split
    · simp
    refine .skip fun _ => .skip fun _ => ?_
    split
    · simp
    next m' hm =>
      have hm' : m'.Canonical := by
        split at hm
        · exact Mach.writable_canonical h hm
        · cases hm; exact h
      exact .skip fun _ => by simpa using hm'

@[simp] theorem Core.retag_local (k : Core) {g o} : (k.retag g o).local_ = k.local_ := by rfl

/-! ### Local memory owned -/

@[simp] theorem Mach.evictGranule_canonical (h : m.Canonical) {c g s} : (m.evictGranule c g s).Canonical := by
  simp [Mach.evictGranule, h, Mem.slice_rising (h.core c)]

@[simp] theorem Mach.ownGranule_canonical (h : m.Canonical) {c g} : (m.ownGranule c g).Canonical := by
  simp only [Mach.ownGranule]
  split
  · exact h
  have hm (v : Option Saved) : Mach.Canonical (match v with | some s => m.evictGranule c g s | none => m) := by
    cases v <;> simp [h]
  refine .ite h (.ite ?_ (.ite ?_ ?_))
  · exact setCore_canonical (hm _) (Mem.paste_wf ((hm _).core c) (Mem.slice_rising (hm _).2.1) _ _)
  · exact onCore_canonical (hm _) fun k => rfl
  · exact setCore_canonical (hm _) (Mem.zero_wf ((hm _).core c) (4096 * g) 4096)

@[simp] theorem Mach.ownLocal_canonical (h : m.Canonical) {c a n} : (m.ownLocal c a n).Canonical := by
  simp only [Mach.ownLocal]
  simp +contextual [h, foldl_canonical]

end
end Sys2Proof.Machine
end

