-- ==== Sys2Proof/Proofs/CanonicalSystem.lean ====
section
/-! SUPPORT for the statement that every step keeps the memories canonical: accumulates, the system's registers and the ports. -/

namespace Sys2Proof.Machine

section
variable {m : Mach}

/-! ### Accumulates and fences -/

@[simp] theorem Mach.portError_canonical_iff {die ctx p} : (m.portError die ctx p).Canonical ↔ m.Canonical := by
  simp [Mach.portError]

@[simp] theorem Mach.accumulate_canonical (h : m.Canonical) {a c pkg} : (m.accumulate a c pkg).2.2.Canonical := by
  have hm : (if a.dev then m else m.touchSlice a.pa).Canonical := by simp [h]
  have hw (new : Nat) : (((if a.dev then m else m.touchSlice a.pa).writeHome a.dev a.pa a.bytes
      (Mem.ofBytes (leBytes a.bytes new)))).Canonical := by simp [hm]
  exact Mach.Canonical.ite (hw _) hm

theorem Env.admission_canonical (h : m.Canonical) {e : Env} {a} : Chk.Sat Mach.Canonical (e.admission m a) := by
  unfold Env.admission
  split <;> simp [h]

@[simp] theorem Env.askAdmission_canonical_iff {e : Env} {p a} : (e.askAdmission m p a).Canonical ↔ m.Canonical := by
  simp [Env.askAdmission]

theorem Env.comparand_canonical (h : m.Canonical) {e : Env} {f d} : Chk.Sat (·.2.Canonical) (e.comparand m f d) := by
  unfold Env.comparand
  split
  · exact Env.src_canonical h
  · simpa using h

@[simp] theorem Env.startAcc_canonical_iff {e : Env} {a l} : (e.startAcc m a l).Canonical ↔ m.Canonical := by
  simp only [Env.startAcc]
  split <;> simp

@[simp] theorem Env.startAcqValues_canonical_iff {e : Env} {o dests} : (e.startAcqValues m o dests).Canonical ↔ m.Canonical := by
  simp only [Env.startAcqValues]
  split <;> simp

theorem caccBody_canonical (h : m.Canonical) {d f a b e} : Chk.Sat Mach.Canonical (caccBody d f a b e m) := by
  refine (Env.src2_canonical h).bind fun ⟨w, v, m⟩ h => (Env.comparand_canonical h).bind fun ⟨cmp, m⟩ h =>
    (Env.dst_canonical h).bind fun ⟨l, m⟩ h => ?_
  dsimp only
  split
  · simp
  refine .skip fun _ => ?_
  split
  · exact .skip fun _ => by simp [h]
  split
  · simp [h]
  · exact .skip fun _ => (Env.admission_canonical h).bind fun m h => by simp [h]

theorem Mach.farAccumulate_canonical (h : m.Canonical) {t a p c} {r : Word × Bool × Mach}
    (hr : m.farAccumulate t a p c = some r) : r.2.2.Canonical := by
  simp only [Mach.farAccumulate] at hr
  split at hr
  · cases hr; simp [h]
  · obtain ⟨x, -, rfl⟩ := Option.map_eq_some_iff.1 hr
    exact h

@[simp] theorem Mach.losePoison_canonical_iff {t c op dram a} : (Mach.losePoison t m c op dram a).Canonical ↔ m.Canonical := by
  simp [Mach.losePoison]

@[simp] theorem Mach.sendAcc_canonical (h : m.Canonical) {c op p a k} : (m.sendAcc c op p a k).Canonical := by
  simp only [Mach.sendAcc]
  split <;> simp [h]

@[simp] theorem accumulateApplied_canonical (h : m.Canonical) {t c o} : (accumulateApplied t c o m).Canonical := by
  simp only [accumulateApplied]
  split
  · exact h
  split
  case h_2 => exact h
  split
  · simp [h]
  split
  · simp [h]
  · exact Mach.finish_canonical_iff.2 (Mach.accumulate_canonical h)
  · split
    next => simp [h]
    next hr =>
      split at hr
      · exact Mach.finish_canonical_iff.2 (Mach.farAccumulate_canonical h hr)
      · cases hr

theorem Env.flagWord_canonical (h : m.Canonical) {e : Env} {c o dev w v} :
    Chk.Sat (·.2.Canonical) (e.flagWord m c o dev w v) := by
  refine .skip fun _ => ?_
  split
  · refine .skip fun _ => ?_
    split
    · simp [h]
    · exact .skip fun _ => (Env.admission_canonical h).bind fun m h => by simp [h]
  · exact .skip fun _ => by simpa using h

theorem fenceBody_canonical (h : m.Canonical) {c o f e} : Chk.Sat Mach.Canonical (fenceBody c o f e m) := by
  cases f with
  | plain => simp [fenceBody, h]
  | flag dev a b =>
    exact (Env.src2_canonical h).bind fun ⟨w, v, m⟩ h => (Env.flagWord_canonical h).bind fun ⟨g, m⟩ h => by simp [h]

@[simp] theorem serveFence_canonical (h : m.Canonical) {t c op s o flag} : (serveFence t c op s o flag m).Canonical := by
  simp only [serveFence]
  split
  · exact h
  split
  · simp [h]
  split
  · simp [h]
  split
  · simp [h]
  · exact Mach.finish_canonical_iff.2 (Mach.accumulate_canonical h)
  · split
    next => simp [h]
    next hr =>
      split at hr
      · exact Mach.finish_canonical_iff.2 (Mach.farAccumulate_canonical h hr)
      · cases hr

/-! ### System registers and traps -/

@[simp] theorem Mach.onArray_canonical_iff {k f} : (m.onArray k f).Canonical ↔ m.Canonical := by simp [Mach.onArray]

@[simp] theorem Env.setSysReg_canonical_iff {e : Env} {r v} : (e.setSysReg m r v).Canonical ↔ m.Canonical := by
  simp only [Env.setSysReg]
  split <;> simp

theorem srrBody_canonical (h : m.Canonical) {d r e} : Chk.Sat Mach.Canonical (srrBody d r e m) := by
  unfold srrBody
  refine (Env.dst_canonical h).bind fun ⟨l, m⟩ h => ?_
  simp [h]

theorem srwBody_canonical (h : m.Canonical) {r b e} : Chk.Sat Mach.Canonical (srwBody r b e m) := by
  unfold srwBody
  refine (Env.src_canonical h).bind fun ⟨v, m⟩ h => ?_
  simp [h]

theorem trapBody_canonical (h : m.Canonical) {a e} : Chk.Sat Mach.Canonical (trapBody a e m) := by
  unfold trapBody
  refine (Env.src_canonical h).bind fun ⟨v, m⟩ h => ?_
  simp [h]

theorem tretBody_canonical (h : m.Canonical) {e} : Chk.Sat Mach.Canonical (tretBody e m) := by
  unfold tretBody
  refine .skip fun _ => ?_
  simp [h]

end
end Sys2Proof.Machine
end

