-- ==== Sys2Proof/Proofs/CanonicalArray.lean ====
section
/-! SUPPORT for the statement that every step keeps the memories canonical: the array's instructions. -/

namespace Sys2Proof.Machine

section
variable {m : Mach}

/-! ### The lease -/

@[simp] theorem Core.onGroup_local (k : Core) {f} : (k.onGroup f).local_ = k.local_ := by rfl

@[simp] theorem Mach.onGroup_canonical_iff {c f} : (m.onGroup c f).Canonical ↔ m.Canonical := by simp [Mach.onGroup]

theorem acqChecks_canonical (h : m.Canonical) {d e} : Chk.Sat (·.2.Canonical) (acqChecks d e m) := by
  unfold acqChecks
  refine .skip fun _ => ?_
  exact Env.dst_canonical h

@[simp] theorem Mach.endHolding_canonical_iff {k c spill} : (m.endHolding k c spill).Canonical ↔ m.Canonical := by
  simp [Mach.endHolding]

@[simp] theorem Mach.grantTo_canonical_iff {k c} : (m.grantTo k c).Canonical ↔ m.Canonical := by
  simp only [Mach.grantTo]
  split <;> simp

@[simp] theorem pickHolder_canonical_iff {t k} : (pickHolder t k m).Canonical ↔ m.Canonical := by
  simp only [pickHolder]
  split <;> simp

@[simp] theorem Mach.newBudget_canonical_iff {k c} : (m.newBudget k c).Canonical ↔ m.Canonical := by simp [Mach.newBudget]

@[simp] theorem leaseOver_canonical_iff {t k c} : (leaseOver t k c m).Canonical ↔ m.Canonical := by
  simp only [leaseOver]
  repeat' split
  all_goals simp

@[simp] theorem leaseEnding_canonical (h : m.Canonical) {t k c} : (leaseEnding t k c m).Canonical := by
  simp [leaseEnding, h]

@[simp] theorem leaseBudgetEnd_canonical (h : m.Canonical) {t k} : (leaseBudgetEnd t k m).Canonical := by
  simp only [leaseBudgetEnd]
  split <;> simp [h]

@[simp] theorem leaseGrant_canonical (h : m.Canonical) {t k} : (leaseGrant t k m).Canonical := by
  simp only [leaseGrant]
  split <;> simp [h]

theorem leaseAcqBody_canonical (h : m.Canonical) {d e} : Chk.Sat Mach.Canonical (leaseAcqBody d e m) := by
  refine (acqChecks_canonical h).bind fun ⟨l, m⟩ h => ?_
  dsimp only
  split
  · simp [h]
  refine .skip fun _ => ?_
  split <;> simp [h]

theorem leaseRelBody_canonical (h : m.Canonical) {e} : Chk.Sat Mach.Canonical (leaseRelBody e m) := by
  refine .skip fun _ => .skip fun _ => ?_
  rw [Chk.sat_ok]
  refine Env.startValues_canonical_iff.2 ?_
  split
  · split <;> simp [h]
  · simp [h]

/-! ### Clauses and their bodies -/

@[simp] theorem Mach.setClause_canonical_iff {c cl} : (m.setClause c cl).Canonical ↔ m.Canonical := by simp [Mach.setClause]

@[simp] theorem Mach.tagPlane_canonical_iff {c} : (m.tagPlane c).Canonical ↔ m.Canonical := by simp [Mach.tagPlane]

theorem wldBody_canonical (h : m.Canonical) {ks w dev a e} : Chk.Sat Mach.Canonical (wldBody ks w dev a e m) := by
  unfold wldBody
  refine (Env.src_canonical h).bind fun ⟨v, m⟩ h => .skip fun _ => .skip fun _ => .skip fun _ => .skip fun _ => ?_
  simp [h]

theorem wswpBody_canonical (h : m.Canonical) {e} : Chk.Sat Mach.Canonical (wswpBody e m) := by
  unfold wswpBody
  refine .skip fun _ => .skip fun _ => ?_
  simp [h]

theorem mxsqBody_canonical (h : m.Canonical) {a b e} : Chk.Sat Mach.Canonical (mxsqBody a b e m) := by
  unfold mxsqBody
  refine (Env.src2_canonical h).bind fun ⟨x, y, m⟩ h => .skip fun _ => .skip fun _ => .skip fun _ => .skip fun _ =>
    .skip fun _ => ?_
  simp [h]

theorem mxhBody_canonical (h : m.Canonical) {h' e} : Chk.Sat Mach.Canonical (mxhBody h' e m) := by
  unfold mxhBody
  refine .skip fun _ => .skip fun _ => .skip fun _ => ?_
  simp [h]

theorem mxaBody_canonical (h : m.Canonical) {sc a b e} : Chk.Sat Mach.Canonical (mxaBody sc a b e m) := by
  refine (Env.src2_canonical h).bind fun ⟨x, y, m⟩ h => .skip fun cl => .skip fun _ => .skip fun _ => .skip fun _ =>
    .skip fun _ => .skip fun _ => .skip fun _ => .skip fun _ => ?_
  have owned {l : List Nat} {a : Nat → Nat} {n : Nat} : (l.foldl (fun m i => m.ownLocal e.c (a i) n) m).Canonical :=
    foldl_canonical h fun m i h => Mach.ownLocal_canonical h
  simp [owned]

theorem mxmdBody_canonical (h : m.Canonical) {a e} : Chk.Sat Mach.Canonical (mxmdBody a e m) := by
  refine (Env.src_canonical h).bind fun ⟨x, m⟩ h => .skip fun cl => .skip fun _ => .skip fun _ => .skip fun _ =>
    .skip fun _ => .skip fun _ => ?_
  exact Chk.sat_ok.2 (Env.startValues_canonical_iff.2 (Mach.setClause_canonical_iff.2 (Mach.ownLocal_canonical h)))

theorem mxgrBody_canonical (h : m.Canonical) {g a b e} : Chk.Sat Mach.Canonical (mxgrBody g a b e m) := by
  unfold mxgrBody
  refine (Env.src2_canonical h).bind fun ⟨x, y, m⟩ h => .skip fun _ => .skip fun _ => .skip fun _ => .skip fun _ => ?_
  simp [h]

theorem mxzBody_canonical (h : m.Canonical) {both e} : Chk.Sat Mach.Canonical (mxzBody both e m) := by
  unfold mxzBody
  split
  · exact .skip fun _ => by simp [h]
  · exact .skip fun _ => .skip fun _ => .skip fun _ => by simp [h]

@[simp] theorem Env.closeClause_canonical_iff {e : Env} {cl drain fin} :
    (e.closeClause m cl drain fin).Canonical ↔ m.Canonical := by simp [Env.closeClause]

theorem mxdrBody_canonical (h : m.Canonical) {mode a b e} : Chk.Sat Mach.Canonical (mxdrBody mode a b e m) := by
  unfold mxdrBody
  refine (Env.src2_canonical h).bind fun ⟨x, y, m⟩ h => .skip fun _ => .skip fun _ => .skip fun _ => .skip fun _ =>
    .skip fun _ => .skip fun _ => .skip fun _ => ?_
  simp [h]

theorem mxdrKeepBody_canonical (h : m.Canonical) {e} : Chk.Sat Mach.Canonical (mxdrKeepBody e m) := by
  unfold mxdrKeepBody
  refine .skip fun _ => .skip fun _ => .skip fun _ => ?_
  simp [h]

/-! ### What the array carries out -/

@[simp] theorem Mach.zeroBanks_canonical_iff {c b both} : (m.zeroBanks c b both).Canonical ↔ m.Canonical := by
  simp [Mach.zeroBanks]

@[simp] theorem Mach.losePoisonLocal_canonical_iff {t c op a} : (Mach.losePoisonLocal t m c op a).Canonical ↔ m.Canonical := by
  simp [Mach.losePoisonLocal]

@[simp] theorem Core.noteBody_local (k : Core) {o x after} : (k.noteBody o x after).local_ = k.local_ := by rfl

@[simp] theorem Mach.arrayTakes_canonical_iff {t c op x} : (Mach.arrayTakes t m c op x).Canonical ↔ m.Canonical := by
  simp [Mach.arrayTakes]

theorem BodyItem.run_canonical (h : m.Canonical) {t c} {x : BodyItem} {m' : Mach} (hx : x.run t c m = .ok m') :
    m'.Canonical := by
  cases x with
  | wld ks w dev a =>
    simp only [BodyItem.run] at hx
    repeat' split at hx
    all_goals cases hx
    all_goals simp [h]
  | mxsq a s count =>
    simp only [BodyItem.run] at hx
    split at hx <;> cases hx
    simp [h]
  | mxa a stride count n sc =>
    simp only [BodyItem.run] at hx
    split at hx <;> cases hx
    simp [h]
  | loaded ks w img => cases hx; simp [h]
  | latched s bs => cases hx; simp [h]

@[simp] theorem Mach.arrayReads_canonical (h : m.Canonical) {t c op x} : (m.arrayReads t c op x).Canonical := by
  simp only [Mach.arrayReads]
  split
  · simp [h]
  · simp [h]
  · simp [h]
  next hx => simp [BodyItem.run_canonical h hx]

@[simp] theorem serveArray_canonical (h : m.Canonical) {t c op} : (serveArray t c op m).Canonical := by
  simp only [serveArray]
  repeat' split
  all_goals simp [h]

@[simp] theorem runPass_canonical_iff {c op cl drain} : (runPass c op cl drain m).Canonical ↔ m.Canonical := by
  simp only [runPass]
  repeat' split
  all_goals simp

@[simp] theorem Mach.loseEntry_canonical_iff {t c op x} : (Mach.loseEntry t m c op x).Canonical ↔ m.Canonical := by
  simp [Mach.loseEntry]

/-- A restart ends in a canonical machine: the one that lost its context, or the one that has carried its body out. -/
def Restart.Canonical : Restart → Prop
  | .wait _ => True
  | .lost m => m.Canonical
  | .ok m => m.Canonical

theorem rerunFrom_canonical (h : m.Canonical) {t c op l} : (rerunFrom t c op l m).Canonical := by
  induction l generalizing m with
  | nil => exact h
  | cons x r ih =>
    simp only [rerunFrom]
    split
    · trivial
    · exact Mach.losePoison_canonical_iff.2 h
    · exact Mach.losePoisonLocal_canonical_iff.2 h
    next hx => exact ih (BodyItem.run_canonical h hx)

theorem rerun_canonical (h : m.Canonical) {t c op cl} : (rerun t c op cl m).Canonical :=
  rerunFrom_canonical (by simp [h])

@[simp] theorem arrayPass_canonical (h : m.Canonical) {t key spare} : (arrayPass t key spare m).Canonical := by
  simp only [arrayPass]
  split
  · exact h
  next holder c _ =>
  split
  · exact h
  next op cl d _ =>
  split
  · simp [h]
  split
  · simp [h]
  have hrun {m' : Mach} (h' : m'.Canonical) {p : Prop} [Decidable p] :
      (if p then runPass c op cl d m' else runPass c op cl d m).Canonical := by simp [h, h']
  cases spare with
  | transient col => exact hrun (by simp [h])
  | replaces col =>
    refine .ite ?_ (by simp [h])
    have hr : (rerun t c op cl m).Canonical := rerun_canonical h
    split
    · simp [h]
    next hl =>
      rw [hl] at hr
      exact hr
    next hl =>
      rw [hl] at hr
      exact Mach.onArray_canonical_iff.2 (bankError_canonical_iff.2 hr)
  | neither col => exact .ite (by simp [h]) (by simp [h])
  | testFails => exact hrun (by simp [h])
  | agrees => simp [h]

@[simp] theorem drainRows_canonical (h : m.Canonical) {t ctx f mode dev base stride bank rs} :
    (drainRows t ctx f mode dev base stride bank rs m).1.Canonical := by
  induction rs generalizing m with
  | nil => exact h
  | cons r rs ih => exact ih (Mach.piecesWrite_canonical h (Mem.ofBytes_wf _))

@[simp] theorem serveMxdr_canonical (h : m.Canonical) {t c op} : (serveMxdr t c op m).Canonical := by
  simp only [serveMxdr]
  repeat' split
  all_goals simp [h]

end
end Sys2Proof.Machine
end

