-- ==== Sys2Proof/Proofs/CanonicalMem.lean ====
section
/-! SUPPORT for the statement that every step keeps the memories canonical: the memory instructions and the copies. -/

namespace Sys2Proof.Machine

section
variable {m : Mach}

/-! ### Loads and stores -/

theorem Env.ea_canonical (h : m.Canonical) {e : Env} {a imm s} : Chk.Sat (·.2.Canonical) (e.ea m a imm s) := by
  unfold Env.ea
  refine (Env.src_canonical h).bind fun ⟨b, m⟩ h => ?_
  simp [h]

theorem Env.loadDst_canonical (h : m.Canonical) {e : Env} {q s pending} : Chk.Sat (·.2.Canonical) (e.loadDst m q s pending) := by
  unfold Env.loadDst
  split
  · exact Env.dstV_canonical h
  · exact Env.dst_canonical h

theorem Env.storeData_canonical (h : m.Canonical) {e : Env} {pk q s} : Chk.Sat (·.2.Canonical) (e.storeData m pk q s) := by
  simp only [Env.storeData]
  split
  · exact (Env.srcV_canonical h).bind fun ⟨v, m⟩ h => by simpa using h
  · exact (Env.src_canonical h).bind fun ⟨v, m⟩ h => by simpa using h

@[simp] theorem Mach.stage_canonical (h : m.Canonical) {c dev a home} : (m.stage c dev a home).2.Canonical := by
  simp only [Mach.stage]
  repeat' split
  all_goals simp [h, h.core]

theorem ldlBody_canonical (h : m.Canonical) {q a imm s e} : Chk.Sat Mach.Canonical (ldlBody q a imm s e m) := by
  unfold ldlBody
  refine (Env.ea_canonical h).bind fun ⟨ea, m⟩ h => (Env.loadDst_canonical h).bind fun ⟨l, m⟩ h => .skip fun _ =>
    .skip fun _ => ?_
  dsimp only
  split <;> simp [h]

theorem stlBody_canonical (h : m.Canonical) {pk q a imm s e} : Chk.Sat Mach.Canonical (stlBody pk q a imm s e m) := by
  refine (Env.ea_canonical h).bind fun ⟨ea, m⟩ h => (Env.storeData_canonical h).bind fun ⟨bs, m⟩ h => .skip fun _ =>
    .skip fun _ => ?_
  dsimp only
  split
  · simp
  · exact Chk.sat_ok.2 (Env.finishNow_canonical_iff.2 (Env.later_canonical_iff.2 (Mach.ownLocal_canonical h)))

theorem stagedLoadBody_canonical (h : m.Canonical) {dev q a imm s e} :
    Chk.Sat Mach.Canonical (stagedLoadBody dev q a imm s e m) := by
  refine (Env.ea_canonical h).bind fun ⟨ea, m⟩ h => (Env.loadDst_canonical h).bind fun ⟨l, m⟩ h => .skip fun _ =>
    (Env.resolve_canonical h).bind fun ⟨pl, m⟩ h => ?_
  dsimp only at h ⊢
  have hm : (if (dev || ((m.core e.c).line dev ea.toNat).isSome) = true then m else m.touchSlice ea.toNat).Canonical := by
    simp [h]
  have hl {p : Prop} [Decidable p] {ln : Line} {m' : Mach} (h' : m'.Canonical) :
      (if p then (ln, m') else m'.stage e.c dev ea.toNat pl.at_).2.Canonical := by
    split
    · exact h'
    · exact Mach.stage_canonical h'
  split
  · simp
  · simp
  · exact Chk.sat_ok.2 (Env.start_canonical_iff.2 (hl hm))

theorem ldbBody_canonical (h : m.Canonical) {q a imm s e} : Chk.Sat Mach.Canonical (ldbBody q a imm s e m) := by
  unfold ldbBody
  refine (Env.ea_canonical h).bind fun ⟨ea, m⟩ h => (Env.loadDst_canonical h).bind fun ⟨l, m⟩ h => .skip fun _ =>
    (Env.resolve_canonical h).bind fun ⟨pl, m⟩ h => ?_
  dsimp only
  split <;> simp [h]

theorem postedStoreBody_canonical (h : m.Canonical) {sp pk q a imm s e} :
    Chk.Sat Mach.Canonical (postedStoreBody sp pk q a imm s e m) := by
  refine (Env.ea_canonical h).bind fun ⟨ea, m⟩ h => (Env.storeData_canonical h).bind fun ⟨bs, m⟩ h => .skip fun _ =>
    (Env.resolve_canonical h).bind fun ⟨pl, m'⟩ h' => .skip fun _ => ?_
  have hm : (if sp = .glb then m'.touchSlice ea.toNat else m').Canonical := by simp [h']
  dsimp only
  generalize (if sp = .glb then m'.touchSlice ea.toNat else m') = m₁ at hm ⊢
  split
  · exact .skip fun _ => by simp [hm]
  · exact .skip fun _ => by simp [hm]

@[simp] theorem Mach.drain_canonical (h : m.Canonical) {p} : (m.drain p).Canonical := by
  simp only [Mach.drain]
  split <;> simp [h]

@[simp] theorem postedWriteAck_canonical (h : m.Canonical) {t c n} : (postedWriteAck t c n m).Canonical := by
  simp only [postedWriteAck]
  repeat' split
  all_goals simp [h]

theorem pfdBody_canonical (h : m.Canonical) {a imm e} : Chk.Sat Mach.Canonical (pfdBody a imm e m) := by
  refine (Env.ea_canonical h).bind fun ⟨ea, m⟩ h => .skip fun _ => ?_
  dsimp only at h ⊢
  split
  next pl m' hr =>
    have h' : m'.Canonical := Env.resolve_canonical h _ hr
    simp [h']
  · simp [h]
  · simp

theorem locBody_canonical (h : m.Canonical) {d f a e} : Chk.Sat Mach.Canonical (locBody d f a e m) := by
  unfold locBody
  refine (Env.src_canonical h).bind fun ⟨v, m⟩ h => (Env.dst_canonical h).bind fun ⟨l, m⟩ h => ?_
  dsimp only
  split <;> simp [h]

/-! ### Starting a copy -/

@[simp] theorem Core.onObj_local (k : Core) {o f} : (k.onObj o f).local_ = k.local_ := by rfl

@[simp] theorem Core.objStart_local (k : Core) {o} : (k.objStart o).local_ = k.local_ := by rfl

@[simp] theorem Core.objDone_local (k : Core) {o units st ds} : (k.objDone o units st ds).local_ = k.local_ := by rfl

@[simp] theorem Mach.writeObjs_canonical (h : m.Canonical) {s} : (m.writeObjs s).Canonical := by
  simp [Mach.writeObjs, h]

@[simp] theorem Mach.onGroupCore_canonical (h : m.Canonical) {c g} {f : Core → Core} (hf : ∀ k : Core, (f k).local_ = k.local_) :
    (m.onGroupCore c g f).Canonical := by
  simp only [Mach.onGroupCore]
  split
  · exact onCore_canonical h hf
  · exact foldl_canonical (by simp [h]) fun m s h => Mach.writeObjs_canonical h

theorem Env.runTranslates_canonical (h : m.Canonical) {e : Env} {n s} : Chk.Sat Mach.Canonical (e.runTranslates n s m) := by
  unfold Env.runTranslates
  split
  · exact .skip fun _ => by simpa using h
  · split
    · split
      · simp
      next hw => exact Chk.sat_ok.2 (Mach.writable_canonical h hw)
    · simpa using h
  · simpa using h

theorem foldlM_canonical {α : Type} {l : List α} {f : Mach → α → Chk Mach} (h : m.Canonical)
    (hf : ∀ m a, m.Canonical → Chk.Sat Mach.Canonical (f m a)) : Chk.Sat Mach.Canonical (l.foldlM f m) := by
  induction l generalizing m with
  | nil => exact Chk.sat_ok.2 h
  | cons a l ih => exact (hf m a h).bind fun m h => ih h

theorem Env.copyChecks_canonical (h : m.Canonical) {e : Env} {x} : Chk.Sat Mach.Canonical (e.copyChecks m x) :=
  .skip fun _ => .skip fun _ => .skip fun _ =>
    (foldlM_canonical h fun m s h => Env.runTranslates_canonical h).bind fun m h => .skip fun _ => .skip fun _ => by simpa using h

theorem Env.record_canonical (h : m.Canonical) {e : Env} {v n} : Chk.Sat (·.2.Canonical) (e.record m v n) := by
  unfold Env.record
  refine .skip fun _ => .skip fun _ => ?_
  dsimp only
  split <;> simp [h]

theorem Env.farCheck_canonical (h : m.Canonical) {e : Env} {x} : Chk.Sat Mach.Canonical (e.farCheck m x) := by
  unfold Env.farCheck
  refine (Env.admission_canonical h).bind fun m h => ?_
  simp [h]

theorem cpyBody_canonical (h : m.Canonical) {a e} : Chk.Sat Mach.Canonical (cpyBody a e m) := by
  refine (Env.src_canonical h).bind fun ⟨v, m⟩ h => (Env.record_canonical h).bind fun ⟨w, m⟩ h => .skip fun _ =>
    (Env.copyChecks_canonical h).bind fun m h => .skip fun _ => .skip fun _ => .skip fun _ => ?_
  split
  · exact Chk.sat_ok.2 (Env.startValues_canonical_iff.2 (onCore_canonical (Mach.portError_canonical_iff.2 h) fun k => by simp))
  split
  · exact (Env.farCheck_canonical h).bind fun m h => by simp [h]
  · simp [h]

/-- The machine that an engine's access leaves is canonical, however it ends. -/
def Io.Canonical {α : Type} : Io α → Prop
  | .wait m => m.Canonical
  | .lost m => m.Canonical
  | .ok _ m => m.Canonical

theorem Io.Canonical.of_wait {α : Type} {x : Io α} (h : x.Canonical) (hx : x = .wait m) : m.Canonical := by subst hx; exact h

theorem Io.Canonical.of_lost {α : Type} {x : Io α} (h : x.Canonical) (hx : x = .lost m) : m.Canonical := by subst hx; exact h

theorem Io.Canonical.of_ok {α : Type} {x : Io α} {a : α} (h : x.Canonical) (hx : x = .ok a m) : m.Canonical := by
  subst hx; exact h

/-! ### The engine's accesses and turns -/

theorem engineRead_canonical (h : m.Canonical) {t c op pkg code a n} : (engineRead t c op pkg code a n m).Canonical := by
  simp only [engineRead]
  repeat' split
  all_goals simp [Io.Canonical, h]

@[simp] theorem Mem.hostWrite_wf {mem : Mem} (hm : mem.wf = true) (b a : Nat) (bs : List Byte) : (mem.hostWrite b a bs).wf = true :=
  Mem.write_wf (Mem.write_wf hm _ _) _ _

theorem engineWrite_canonical (h : m.Canonical) {t c op pkg code a bs} : (engineWrite t c op pkg code a bs m).Canonical := by
  simp only [engineWrite]
  split
  · split
    · simp [Io.Canonical, h]
    · have hm : (m.ownLocal c a bs.length).Canonical := Mach.ownLocal_canonical h
      exact setCore_canonical hm (Mem.write_wf (hm.core c) a bs)
  · split <;> simp [Io.Canonical, h]
  · split <;> simp [Io.Canonical, h, Mem.ofBytes_wf]
  · split <;> simp [Io.Canonical, h]
  · exact ⟨h.1, h.2.1, Mem.hostWrite_wf h.2.2.1 _ _ _, h.2.2.2⟩
  · simp [Io.Canonical, h]

theorem Core.arrive_local {k k' : Core} {id obj bs} (hk : k.arrive id obj bs = some k') : k'.local_ = k.local_ := by
  simp only [Core.arrive] at hk
  repeat' split at hk
  all_goals cases hk
  all_goals simp [Core.onObj]

@[simp] theorem Mach.setCopy_canonical_iff {c op x} : (m.setCopy c op x).Canonical ↔ m.Canonical := by simp [Mach.setCopy]

@[simp] theorem Mach.completeCopy_canonical_iff {c op x units st} : (m.completeCopy c op x units st).Canonical ↔ m.Canonical := by
  simp [Mach.completeCopy]

theorem copyStep_canonical (h : m.Canonical) {t c o whole} {m' : Mach} (hs : copyStep t c o whole m = some m') : m'.Canonical := by
  simp only [copyStep] at hs
  split at hs
  · cases hs
  next op _ =>
  split at hs
  case h_2 => cases hs
  next x _ =>
  split at hs
  · split at hs <;> cases hs
    simp [h]
  split at hs
  · cases hs
  split at hs
  · split at hs
    · cases hs
    next he => cases hs; exact (engineRead_canonical h).of_lost he
    next he => cases hs; exact Mach.setCopy_canonical_iff.2 ((engineRead_canonical h).of_ok he)
  next bs _ =>
  split at hs
  · split at hs
    · cases hs
    next k hk =>
      cases hs
      refine Mach.setCopy_canonical_iff.2 (setCore_canonical h ?_)
      rw [Core.arrive_local hk]
      exact h.core c
  · split at hs
    · cases hs
    next he => cases hs; exact (engineWrite_canonical h).of_lost he
    next he => cases hs; exact Mach.setCopy_canonical_iff.2 ((engineWrite_canonical h).of_ok he)

@[simp] theorem copyRun_canonical (h : m.Canonical) {t c o n} : (copyRun t c o n m).Canonical := by
  induction n generalizing m with
  | zero => exact h
  | succ n ih =>
    simp only [copyRun]
    split
    · exact h
    next hs => exact ih (copyStep_canonical h hs)

@[simp] theorem copyWake_canonical_iff {c o} : (copyWake c o m).Canonical ↔ m.Canonical := by
  simp only [copyWake]
  repeat' split
  all_goals simp

/-- A step of an engine, or the machine where the engine waits. -/
@[simp] theorem copyStep_getD_canonical (h : m.Canonical) {m' : Mach} (h' : m'.Canonical) {t c o whole} :
    ((copyStep t c o whole m).getD m').Canonical := by
  cases hs : copyStep t c o whole m with
  | none => exact h'
  | some m₁ => exact copyStep_canonical h hs

@[simp] theorem engineTurn_canonical (h : m.Canonical) {t c o} : (engineTurn t c o m).Canonical := by
  simp [engineTurn, h]

@[simp] theorem copyComplete_canonical (h : m.Canonical) {t c o} : (copyComplete t c o m).Canonical := by
  simp only [copyComplete]
  repeat' split
  all_goals simp [h]

@[simp] theorem arrivalElement_canonical (h : m.Canonical) {t c o} : (arrivalElement t c o m).Canonical := by
  simp only [arrivalElement]
  split
  · exact h
  split
  case h_2 => exact h
  refine .ite ?_ h
  exact .ite (copyStep_getD_canonical (.ite h (copyRun_canonical h)) (.ite h (copyRun_canonical h))) (.ite h (copyRun_canonical h))

/-! ### Copy objects -/

theorem cwtBody_canonical (h : m.Canonical) {test d a e} : Chk.Sat Mach.Canonical (cwtBody test d a e m) := by
  refine (Env.src_canonical h).bind fun ⟨v, m⟩ h => (Env.dst_canonical h).bind fun ⟨l, m⟩ h => .skip fun _ => ?_
  have hm {f : Core → Core} (hf : ∀ k : Core, (f k).local_ = k.local_) : (if test then m else m.onCore e.c f).Canonical := by
    simp [h, hf]
  exact Chk.sat_ok.2 (Env.block_canonical_iff.2 (Env.start_canonical_iff.2 (hm fun k => by rfl)))

theorem cbndBody_canonical (h : m.Canonical) {s a b e} : Chk.Sat Mach.Canonical (cbndBody s a b e m) := by
  unfold cbndBody
  refine (Env.src2_canonical h).bind fun ⟨v, n, m⟩ h => .skip fun _ => ?_
  simp [h]

theorem cbndOffBody_canonical (h : m.Canonical) {a e} : Chk.Sat Mach.Canonical (cbndOffBody a e m) := by
  unfold cbndOffBody
  refine (Env.src_canonical h).bind fun ⟨v, m⟩ h => ?_
  simp [h]

end
end Sys2Proof.Machine
end

