-- ==== Sys2Proof/Proofs/CanonicalCompute.lean ====
section
/-! SUPPORT for the statement that every step keeps the memories canonical: the integer, vector, column and control instructions. -/

namespace Sys2Proof.Machine

section
variable {m : Mach}

/-! ### Integer instructions -/

theorem timed2_canonical (h : m.Canonical) {d a b latency f e} :
    Chk.Sat Mach.Canonical (timed2 d a b latency f e m) := by
  unfold timed2
  refine (Env.src2_canonical h).bind fun ⟨x, y, m⟩ h => (Env.dst_canonical h).bind fun ⟨l, m⟩ h => ?_
  simp [h]

theorem timed1_canonical (h : m.Canonical) {d a latency f e} : Chk.Sat Mach.Canonical (timed1 d a latency f e m) := by
  unfold timed1
  refine (Env.src_canonical h).bind fun ⟨x, m⟩ h => (Env.dst_canonical h).bind fun ⟨l, m⟩ h => ?_
  simp [h]

theorem selBody_canonical (h : m.Canonical) {d z q a b e} : Chk.Sat Mach.Canonical (selBody d z q a b e m) := by
  unfold selBody
  refine (Env.src2_canonical h).bind fun ⟨x, y, m⟩ h => (Env.src_canonical h).bind fun ⟨c, m⟩ h =>
    (Env.dst_canonical h).bind fun ⟨l, m⟩ h => ?_
  simp [h]

/-! ### Vector operands and results -/

theorem Env.srcV2_canonical (h : m.Canonical) {e : Env} {a b} : Chk.Sat (·.2.Canonical) (e.srcV2 m a b) := by
  unfold Env.srcV2
  refine (Env.srcV_canonical h).bind fun ⟨x, m⟩ h => (Env.srcV_canonical h).bind fun ⟨y, m⟩ h => ?_
  simp [h]

theorem Env.srcV3_canonical (h : m.Canonical) {e : Env} {a b q} : Chk.Sat (·.2.Canonical) (e.srcV3 m a b q) := by
  unfold Env.srcV3
  refine (Env.srcV2_canonical h).bind fun ⟨l, m⟩ h => (Env.third_canonical h).bind fun ⟨z, m⟩ h => ?_
  simp [h]

@[simp] theorem Mach.vland_canonical_iff {l v} : (m.vland l v).2.Canonical ↔ m.Canonical := by
  simp only [Mach.vland]
  split <;> simp

theorem Env.dstVs_canonical (h : m.Canonical) {e : Env} {d vs} : Chk.Sat (·.2.Canonical) (e.dstVs d vs m) := by
  induction vs generalizing m with
  | nil => simp [Env.dstVs, h]
  | cons v r ih =>
    refine (Env.dstV_canonical h).bind fun ⟨l, m⟩ h => (ih (Mach.vland_canonical_iff.2 h)).bind fun ⟨ls, m⟩ h => ?_
    simpa using h

@[simp] theorem Core.replayFor_local (k : Core) {s} : (k.replayFor s).local_ = k.local_ := by
  simp only [Core.replayFor]
  split <;> simp

theorem Env.vres_canonical (h : m.Canonical) {e : Env} {d r} : Chk.Sat Mach.Canonical (e.vres m d r) := by
  unfold Env.vres
  refine (Env.dstVs_canonical h).bind fun ⟨ls, m⟩ h => ?_
  simp [h]

theorem Env.maskRes_canonical (h : m.Canonical) {e : Env} {k bits flags} :
    Chk.Sat Mach.Canonical (e.maskRes m k bits flags) := by
  unfold Env.maskRes
  refine .skip fun _ => ?_
  simp [h]

/-! ### Vector instructions -/

theorem arithBody_canonical (h : m.Canonical) {op d sat mode a b e} :
    Chk.Sat Mach.Canonical (arithBody op d sat mode a b e m) := by
  unfold arithBody
  refine (Env.srcV2_canonical h).bind fun ⟨l, m⟩ h => .skip fun _ => ?_
  exact Env.vres_canonical h

theorem vfmaBody_canonical (h : m.Canonical) {d neg q a b e} : Chk.Sat Mach.Canonical (vfmaBody d neg q a b e m) := by
  unfold vfmaBody
  refine (Env.srcV3_canonical h).bind fun ⟨l, m⟩ h => .skip fun _ => ?_
  exact Env.vres_canonical h

theorem vmnxBody_canonical (h : m.Canonical) {d f a b e} : Chk.Sat Mach.Canonical (vmnxBody d f a b e m) := by
  unfold vmnxBody
  refine (Env.srcV2_canonical h).bind fun ⟨l, m⟩ h => .skip fun _ => .skip fun _ => ?_
  exact Env.vres_canonical h

theorem vcmpBody_canonical (h : m.Canonical) {d sig c a b e} : Chk.Sat Mach.Canonical (vcmpBody d sig c a b e m) := by
  unfold vcmpBody
  refine (Env.srcV2_canonical h).bind fun ⟨l, m⟩ h => .skip fun _ => .skip fun _ => ?_
  dsimp only
  split
  · exact Env.maskRes_canonical h
  · exact Env.vres_canonical h

@[simp] theorem Mach.orUntyped_canonical_iff {t v} : (m.orUntyped t v).2.Canonical ↔ m.Canonical := by
  simp only [Mach.orUntyped]
  split <;> simp

theorem vselBody_canonical (h : m.Canonical) {d inv k a b e} : Chk.Sat Mach.Canonical (vselBody d inv k a b e m) := by
  unfold vselBody
  refine (Env.srcV2_canonical h).bind fun ⟨l, m⟩ h => .skip fun _ => .skip fun _ => ?_
  exact Env.vres_canonical (Mach.orUntyped_canonical_iff.2 h)

theorem vlogBody_canonical (h : m.Canonical) {d f a b e} : Chk.Sat Mach.Canonical (vlogBody d f a b e m) := by
  unfold vlogBody
  dsimp only
  split
  · exact (Env.srcV_canonical h).bind fun ⟨x, m⟩ h => .given <| .skip fun _ => Env.vres_canonical (Mach.orUntyped_canonical_iff.2 h)
  · exact (Env.srcV2_canonical h).bind fun ⟨l, m⟩ h => .skip fun _ => Env.vres_canonical (Mach.orUntyped_canonical_iff.2 h)

theorem vshfBody_canonical (h : m.Canonical) {d f a b e} : Chk.Sat Mach.Canonical (vshfBody d f a b e m) := by
  unfold vshfBody
  refine (Env.srcV2_canonical h).bind fun ⟨l, m⟩ h => .skip fun _ => .skip fun _ => ?_
  exact Env.vres_canonical h

theorem vprm2Body_canonical (h : m.Canonical) {d f a b e} : Chk.Sat Mach.Canonical (vprm2Body d f a b e m) := by
  unfold vprm2Body
  refine (Env.srcV2_canonical h).bind fun ⟨l, m⟩ h => .skip fun _ => ?_
  dsimp only
  split
  · exact .skip fun _ => .skip fun _ => .skip fun _ => Env.vres_canonical h
  · exact .skip fun _ => Env.vres_canonical h

theorem vprm1Body_canonical (h : m.Canonical) {d f a b e} : Chk.Sat Mach.Canonical (vprm1Body d f a b e m) := by
  unfold vprm1Body
  refine (Env.srcV_canonical h).bind fun ⟨x, m⟩ h => ?_
  dsimp only
  split
  · exact (Env.src_canonical h).bind fun ⟨s, m⟩ h => .skip fun _ => Env.vres_canonical h
  · exact .given <| .skip fun _ => Env.vres_canonical h

theorem vbrdBody_canonical (h : m.Canonical) {d x e} : Chk.Sat Mach.Canonical (vbrdBody d x e m) := by
  cases x with
  | e a b =>
    exact (Env.srcV_canonical h).bind fun ⟨x, m⟩ h => (Env.src_canonical h).bind fun ⟨s, m⟩ h => .skip fun _ =>
      Env.vres_canonical h
  | x a f => exact (Env.src_canonical h).bind fun ⟨v, m⟩ h => .skip fun _ => Env.vres_canonical h

theorem vlaneBody_canonical (h : m.Canonical) {d a b e} : Chk.Sat Mach.Canonical (vlaneBody d a b e m) := by
  unfold vlaneBody
  refine (Env.srcV_canonical h).bind fun ⟨x, m⟩ h => (Env.src_canonical h).bind fun ⟨s, m⟩ h => .skip fun _ =>
    (Env.dst_canonical h).bind fun ⟨l, m⟩ h => ?_
  simp [h]

theorem Env.heads_canonical (h : m.Canonical) {e : Env} {n k} : Chk.Sat (·.2.Canonical) (e.heads n k m) := by
  induction k generalizing m with
  | zero => simp [Env.heads, h]
  | succ k ih =>
    refine .skip fun v => (ih (onCore_canonical h fun k => by simp)).bind fun ⟨r, m⟩ h => ?_
    simpa using h

theorem vwidBody_canonical (h : m.Canonical) {d g a e} : Chk.Sat Mach.Canonical (vwidBody d g a e m) := by
  unfold vwidBody
  refine (Env.srcV_canonical h).bind fun ⟨x, m⟩ h => .skip fun _ => .skip fun _ => ?_
  exact Env.vres_canonical h

theorem vnarBody_canonical (h : m.Canonical) {d sat g a e} : Chk.Sat Mach.Canonical (vnarBody d sat g a e m) := by
  unfold vnarBody
  refine .skip fun _ => (Env.heads_canonical h).bind fun ⟨vs, m⟩ h => .skip fun _ => .skip fun _ => .skip fun _ => ?_
  exact Env.vres_canonical h

theorem vredBody_canonical (h : m.Canonical) {d f a b e} : Chk.Sat Mach.Canonical (vredBody d f a b e m) := by
  unfold vredBody
  refine (Env.srcV_canonical h).bind fun ⟨x, m⟩ h => (Env.src_canonical h).bind fun ⟨s, m⟩ h => .skip fun _ => ?_
  exact Env.vres_canonical h

theorem vscnBody_canonical (h : m.Canonical) {d ex f a e} : Chk.Sat Mach.Canonical (vscnBody d ex f a e m) := by
  unfold vscnBody
  refine (Env.srcV_canonical h).bind fun ⟨x, m⟩ h => .skip fun _ => ?_
  exact Env.vres_canonical h

theorem vdotBody_canonical (h : m.Canonical) {d neg q a b e} : Chk.Sat Mach.Canonical (vdotBody d neg q a b e m) := by
  unfold vdotBody
  refine (Env.srcV3_canonical h).bind fun ⟨l, m⟩ h => .skip fun _ => .skip fun _ => ?_
  dsimp only
  split
  · simp
  · exact .skip fun _ => Env.vres_canonical h

theorem specialBody_canonical (h : m.Canonical) {d op a e} : Chk.Sat Mach.Canonical (specialBody d op a e m) := by
  unfold specialBody
  refine (Env.srcV_canonical h).bind fun ⟨x, m⟩ h => .skip fun _ => ?_
  dsimp only
  split
  · simp
  · exact Env.vres_canonical h

theorem smxsBody_canonical (h : m.Canonical) {d lg a b e} : Chk.Sat Mach.Canonical (smxsBody d lg a b e m) := by
  unfold smxsBody
  exact (Env.srcV2_canonical h).bind fun ⟨l, m⟩ h => .skip fun _ => .skip fun _ => .skip fun _ => Env.vres_canonical h

theorem Env.maskTo_canonical (h : m.Canonical) {e : Env} {d bits} : Chk.Sat Mach.Canonical (e.maskTo m d bits) := by
  unfold Env.maskTo
  split
  · exact Env.maskRes_canonical h
  · simp

theorem vmskBody_canonical (h : m.Canonical) {d f e} : Chk.Sat Mach.Canonical (vmskBody d f e m) := by
  have value {l : Landing} {x : Word} {m : Mach} (h : m.Canonical) : (e.startValues m [l.put x] 0 []).Canonical :=
    Env.startValues_canonical_iff.2 h
  unfold vmskBody
  split
  · exact .skip fun _ => .skip fun _ => Env.maskTo_canonical h
  · exact .skip fun _ => (Env.dst_canonical h).bind fun ⟨l, m⟩ h => Chk.sat_ok.2 (value h)
  · exact .skip fun _ => (Env.dst_canonical h).bind fun ⟨l, m⟩ h => Chk.sat_ok.2 (value h)
  · exact .skip fun _ => Env.maskTo_canonical h
  · exact (Env.srcV_canonical h).bind fun ⟨x, m⟩ h => .skip fun _ => Env.maskTo_canonical h

/-! ### The column's instructions -/

theorem mvkBody_canonical (h : m.Canonical) {lg a b e} : Chk.Sat Mach.Canonical (mvkBody lg a b e m) := by
  unfold mvkBody
  refine .skip fun v => (Env.heads_canonical h).bind fun ⟨vs, popped⟩ hp =>
    (Env.src_canonical (Mach.Canonical.ite h hp)).bind fun ⟨n, m⟩ h => .skip fun _ => .skip fun _ => .skip fun _ => ?_
  simp [h]

theorem mvqBody_canonical (h : m.Canonical) {d msk a b e} : Chk.Sat Mach.Canonical (mvqBody d msk a b e m) := by
  unfold mvqBody
  refine (Env.src2_canonical h).bind fun ⟨x, y, m⟩ h => (Env.dstV_canonical h).bind fun ⟨l, m⟩ h => .skip fun _ => ?_
  simp [h]

theorem mvvBody_canonical (h : m.Canonical) {msk q a b e} : Chk.Sat Mach.Canonical (mvvBody msk q a b e m) := by
  unfold mvvBody
  refine (Env.src_canonical h).bind fun ⟨x, m⟩ h => (Env.srcV_canonical h).bind fun ⟨p, m⟩ h =>
    (Env.third_canonical h).bind fun ⟨st, m⟩ h => .skip fun _ => .skip fun _ => .skip fun _ => ?_
  simp [h]

theorem mvmBody_canonical (h : m.Canonical) {a e} : Chk.Sat Mach.Canonical (mvmBody a e m) := by
  unfold mvmBody
  refine (Env.src_canonical h).bind fun ⟨x, m⟩ h => .skip fun _ => .skip fun _ => .skip fun _ => ?_
  simp [h]

theorem mvmOffBody_canonical (h : m.Canonical) {e} : Chk.Sat Mach.Canonical (mvmOffBody e m) := by
  simp [mvmOffBody, h]

theorem mvdBody_canonical (h : m.Canonical) {d mode f a e} : Chk.Sat Mach.Canonical (mvdBody d mode f a e m) := by
  unfold mvdBody
  refine (Env.src_canonical h).bind fun ⟨x, m⟩ h => (Env.dstV_canonical h).bind fun ⟨l, m⟩ h => .skip fun _ => ?_
  simp [h]

@[simp] theorem Mach.ownMask_canonical (h : m.Canonical) {c rs} : (m.ownMask c rs).Canonical := by
  simp only [Mach.ownMask]
  simp +contextual [h, foldl_canonical]

theorem serveChunk_canonical (h : m.Canonical) {t c op msk a} {act : Chunk → Option Word → Core → Mach → Mach}
    (ha : ∀ {x w k m}, m.Canonical → (act x w k m).Canonical) : (serveChunk t c op msk a act m).Canonical := by
  simp only [serveChunk]
  repeat' split
  all_goals simp [h, ha]

@[simp] theorem serveColumn_canonical (h : m.Canonical) {t c op} : (serveColumn t c op m).Canonical := by
  simp only [serveColumn]
  split
  · exact h
  split
  · simp [h]
  · simp [h]
  · simp [h]
  · exact serveChunk_canonical h fun h => Mach.finish_canonical_iff.2 (Mach.vland_canonical_iff.2 h)
  · exact serveChunk_canonical h fun h => by simp [h]
  · exact h

/-! ### Control -/

@[simp] theorem Env.branch_canonical_iff {e : Env} {taken disp} : (e.branch taken disp m).Canonical ↔ m.Canonical := by
  simp only [Env.branch]
  split <;> simp

theorem brcBody_canonical (h : m.Canonical) {whenZero q p e} : Chk.Sat Mach.Canonical (brcBody whenZero q p e m) := by
  unfold brcBody
  refine (Env.src_canonical h).bind fun ⟨v, m⟩ h => ?_
  simp [h]

theorem callBody_canonical (h : m.Canonical) {q p e} : Chk.Sat Mach.Canonical (callBody q p e m) := by
  unfold callBody
  refine (Env.dst_canonical h).bind fun ⟨l, m⟩ h => ?_
  simp [h]

theorem retBody_canonical (h : m.Canonical) {a e} : Chk.Sat Mach.Canonical (retBody a e m) := by
  unfold retBody
  refine (Env.src_canonical h).bind fun ⟨v, m⟩ h => .skip fun _ => ?_
  simp [h]

theorem loopBody_canonical (h : m.Canonical) {k p e} : Chk.Sat Mach.Canonical (loopBody k p e m) := by
  unfold loopBody
  refine .skip fun _ => .skip fun _ => ?_
  split <;> simp [h]

theorem lbrkBody_canonical (h : m.Canonical) {a n e} : Chk.Sat Mach.Canonical (lbrkBody a n e m) := by
  unfold lbrkBody
  refine (Env.src_canonical h).bind fun ⟨v, m⟩ h => ?_
  dsimp only
  split
  · simp [h]
  split <;> simp [h]

theorem tkwBody_canonical (h : m.Canonical) {a chk down e} : Chk.Sat Mach.Canonical (tkwBody a chk down e m) := by
  unfold tkwBody
  refine (Env.src_canonical h).bind fun ⟨v, m⟩ h => .skip fun _ => ?_
  exact Chk.sat_ok.2 (Env.finishNow_canonical_iff.2 (Mach.Canonical.ite h (onSeq_canonical_iff.2 h)))

theorem tksBody_canonical (h : m.Canonical) {a down e} : Chk.Sat Mach.Canonical (tksBody a down e m) := by
  unfold tksBody
  refine (Env.src_canonical h).bind fun ⟨v, m⟩ h => .skip fun _ => ?_
  simp [h]

theorem Env.ctlResult_canonical (h : m.Canonical) {e : Env} {d latency v} :
    Chk.Sat Mach.Canonical (e.ctlResult m d latency v) := by
  unfold Env.ctlResult
  refine (Env.dst_canonical h).bind fun ⟨l, m⟩ h => ?_
  simp [h]

theorem qopDropBody_canonical (h : m.Canonical) {s e} : Chk.Sat Mach.Canonical (qopDropBody s e m) := by
  unfold qopDropBody
  split <;> exact .skip fun _ => by simp [h]

theorem qopClrBody_canonical (h : m.Canonical) {s e} : Chk.Sat Mach.Canonical (qopClrBody s e m) := by
  refine .skip fun _ => .skip fun _ => Chk.sat_ok.2 (Env.finishNow_canonical_iff.2 (setCore_canonical h ?_))
  split <;> simp [h.core]

theorem clhBody_canonical (h : m.Canonical) {a abs e} : Chk.Sat Mach.Canonical (clhBody a abs e m) := by
  unfold clhBody
  refine (Env.src_canonical h).bind fun ⟨v, m⟩ h => ?_
  dsimp only
  split <;> simp [h]

theorem yieldBody_canonical (h : m.Canonical) {e} : Chk.Sat Mach.Canonical (yieldBody e m) := by
  have hm : (e.advance 1 (e.finishNow m)).Canonical := by simp [h]
  refine Chk.sat_ok.2 (Mach.Canonical.ite (setCore_canonical hm ?_) hm)
  simpa using hm.core e.c

@[simp] theorem Core.groupExit_local (k : Core) : (k.groupExit).local_ = k.local_ := by
  simp only [Core.groupExit]
  split <;> simp

theorem exitBody_canonical (h : m.Canonical) {e} : Chk.Sat Mach.Canonical (exitBody e m) :=
  Chk.sat_ok.2 (onCore_canonical (Env.finishNow_canonical_iff.2 h) fun k => by simp)

theorem sleepBody_canonical (h : m.Canonical) {a e} : Chk.Sat Mach.Canonical (sleepBody a e m) := by
  unfold sleepBody
  refine (Env.src_canonical h).bind fun ⟨v, m⟩ h => ?_
  simp [h]

end
end Sys2Proof.Machine
end

