-- ==== Sys2Proof/Proofs/CanonicalBlocks.lean ====
section
/-! SUPPORT for the statement that every step keeps the memories canonical: keys and blocks. -/

namespace Sys2Proof.Machine

section
variable {m : Mach}

/-! ### Keys given back -/

@[simp] theorem Mach.arriveAt_canonical (h : m.Canonical) {r right g} : (m.arriveAt r right g).Canonical := by
  simp only [Mach.arriveAt]
  split
  · exact h
  · exact onCore_canonical h fun k => by split <;> simp

@[simp] theorem Mach.setKey_canonical_iff {rid k} : (m.setKey rid k).Canonical ↔ m.Canonical := by simp [Mach.setKey]

@[simp] theorem Mach.zeroRegion_canonical (h : m.Canonical) {r} : (m.zeroRegion r).Canonical := by
  simp only [Mach.zeroRegion]
  split <;> simp [h]

@[simp] theorem Mach.passOver_canonical (h : m.Canonical) {r left ctx} : (m.passOver r left ctx).Canonical := by
  simp [Mach.passOver, h]

@[simp] theorem Mach.settle_canonical (h : m.Canonical) {rid} : (m.settle rid).Canonical := by
  simp only [Mach.settle]
  repeat' split
  all_goals simp [h]

@[simp] theorem Mach.returnShareOf_canonical (h : m.Canonical) {rid h' ctx} :
    (m.returnShareOf rid h' ctx).2.Canonical := by
  simp only [Mach.returnShareOf]
  repeat' split
  all_goals simp [h]

@[simp] theorem Mach.returnShare_canonical (h : m.Canonical) {rid g ctx} : (m.returnShare rid g ctx).2.Canonical := by
  simp [Mach.returnShare, h]

@[simp] theorem Mach.returnKey_canonical (h : m.Canonical) {rid ctx} : (m.returnKey rid ctx).2.Canonical := by
  simp only [Mach.returnKey]
  repeat' split
  all_goals simp [h]

@[simp] theorem Mach.releaseKey_canonical (h : m.Canonical) {g ctx rid} : (m.releaseKey g ctx rid).Canonical := by
  have back {m : Mach} (h : m.Canonical) {n : Nat} :
      ((List.range n).foldl (fun m _ => (m.returnShare rid g ctx).2) m).Canonical :=
    foldl_canonical h fun m _ h => Mach.returnShare_canonical h
  simp only [Mach.releaseKey]
  repeat' split
  · exact h
  · exact Mach.returnKey_canonical h
  · exact Mach.settle_canonical (back (Mach.setKey_canonical_iff.2 h))
  · exact Mach.settle_canonical (back h)
  · exact h

@[simp] theorem Mach.releaseKeys_canonical (h : m.Canonical) {g ctx} : (m.releaseKeys g ctx).Canonical := by
  have hm (l : List Nat) : (l.foldl (fun m rid => m.releaseKey g ctx rid) m).Canonical :=
    foldl_canonical h fun m rid h => Mach.releaseKey_canonical h
  simp [Mach.releaseKeys, hm]

/-! ### Key instructions -/

@[simp] theorem Env.status_canonical_iff {e : Env} {l code fin} : (e.status m l code fin).Canonical ↔ m.Canonical := by
  simp [Env.status]

@[simp] theorem Env.refused_canonical_iff {e : Env} {l code h'} : (e.refused m l code h').Canonical ↔ m.Canonical := by
  simp [Env.refused]

@[simp] theorem Mach.racedOf_canonical_iff {codes} : (m.racedOf codes).2.Canonical ↔ m.Canonical := by simp [Mach.racedOf]

@[simp] theorem Env.raced_canonical_iff {e : Env} {l} : (e.raced m l).Canonical ↔ m.Canonical := by simp [Env.raced]

theorem Env.lendFar_canonical (h : m.Canonical) {e : Env} {p w a park b l} :
    Chk.Sat Mach.Canonical (e.lendFar m p w a park b l) := by
  simp only [Env.lendFar]
  repeat' split
  all_goals simp [h]

@[simp] theorem Mach.transit_canonical (h : m.Canonical) {r h'} : (m.transit r h').Canonical := by
  simp [Mach.transit, h]

theorem lendBody_canonical (h : m.Canonical) {park d sp a b e} :
    Chk.Sat Mach.Canonical (lendBody park d sp a b e m) := by
  unfold lendBody
  refine (Env.src2_canonical h).bind fun ⟨w, v, m⟩ h => (Env.dst_canonical h).bind fun ⟨l, m⟩ h => .skip fun ka => ?_
  dsimp only
  split
  · exact Env.lendFar_canonical h
  refine .skip fun ⟨r, hold⟩ => ?_
  repeat' split
  all_goals simp [h]

@[simp] theorem Mach.rackLend_canonical (h : m.Canonical) {rid right dest zero cut g} :
    (m.rackLend rid right dest zero cut g).2.Canonical := by
  simp only [Mach.rackLend]
  repeat' split
  all_goals simp [h]

@[simp] theorem Mach.rackRetn_canonical (h : m.Canonical) {rid right g ctx} :
    (m.rackRetn rid right g ctx).2.Canonical := by
  simp only [Mach.rackRetn]
  repeat' split
  all_goals simp [h]

@[simp] theorem keyArrival_canonical (h : m.Canonical) {t c o} : (keyArrival t c o m).Canonical := by
  simp only [keyArrival]
  repeat' split
  all_goals simp [h]

theorem retnBody_canonical (h : m.Canonical) {d sp a e} : Chk.Sat Mach.Canonical (retnBody d sp a e m) := by
  unfold retnBody
  refine (Env.src_canonical h).bind fun ⟨w, m⟩ h => (Env.dst_canonical h).bind fun ⟨l, m⟩ h => .skip fun ka => ?_
  dsimp only
  split
  · repeat' split
    all_goals simp [h]
  refine .skip fun ⟨r, hold⟩ => ?_
  repeat' split
  all_goals simp [h]

theorem splitAddrBody_canonical (h : m.Canonical) {d sp a b e} :
    Chk.Sat Mach.Canonical (splitAddrBody d sp a b e m) := by
  unfold splitAddrBody
  refine (Env.src2_canonical h).bind fun ⟨w, v, m⟩ h => (Env.dst_canonical h).bind fun ⟨l, m⟩ h => .skip fun ka =>
    .skip fun r => ?_
  dsimp only
  split
  · simp [h]
  refine .skip fun _ => ?_
  split
  · simp [h]
  split
  · simp [h]
  refine .skip fun home => ?_
  split
  · simp [h]
  · simp [h]

theorem splitBody_canonical (h : m.Canonical) {st d sp a b e} :
    Chk.Sat Mach.Canonical (splitBody st d sp a b e m) := by
  unfold splitBody
  refine (Env.src2_canonical h).bind fun ⟨w, v, m⟩ h => (Env.dst_canonical h).bind fun ⟨l, m⟩ h => .skip fun ka =>
    .skip fun r => ?_
  dsimp only
  repeat' split
  all_goals simp [h]

theorem splitCmnBody_canonical (h : m.Canonical) {d sp a e} : Chk.Sat Mach.Canonical (splitCmnBody d sp a e m) := by
  unfold splitCmnBody
  refine (Env.src_canonical h).bind fun ⟨w, m⟩ h => (Env.dst_canonical h).bind fun ⟨l, m⟩ h => .skip fun ka =>
    .skip fun r => ?_
  dsimp only
  repeat' split
  all_goals simp [h]

@[simp] theorem serveSplitCmn_canonical_iff {c op rid} : (serveSplitCmn c op rid m).Canonical ↔ m.Canonical := by
  simp only [serveSplitCmn]
  repeat' split
  all_goals simp

theorem joinAddrBody_canonical (h : m.Canonical) {d sp a b e} :
    Chk.Sat Mach.Canonical (joinAddrBody d sp a b e m) := by
  unfold joinAddrBody
  refine (Env.src2_canonical h).bind fun ⟨w, v, m⟩ h => (Env.dst_canonical h).bind fun ⟨l, m⟩ h => .skip fun ka =>
    .skip fun r => .skip fun x => ?_
  dsimp only
  repeat' split
  all_goals simp [h]

theorem joinShrBody_canonical (h : m.Canonical) {d sp a e} : Chk.Sat Mach.Canonical (joinShrBody d sp a e m) := by
  unfold joinShrBody
  refine (Env.src_canonical h).bind fun ⟨w, m⟩ h => (Env.dst_canonical h).bind fun ⟨l, m⟩ h => .skip fun ka =>
    .skip fun r => .skip fun _ => .skip fun _ => ?_
  simp [h]

theorem joinCmnBody_canonical (h : m.Canonical) {d sp a e} : Chk.Sat Mach.Canonical (joinCmnBody d sp a e m) := by
  unfold joinCmnBody
  refine (Env.src_canonical h).bind fun ⟨w, m⟩ h => (Env.dst_canonical h).bind fun ⟨l, m⟩ h => .skip fun ka =>
    .skip fun ⟨r, code⟩ => ?_
  dsimp only
  split
  · simp [h]
  · exact .skip fun _ => by simp [h]

theorem joinRingBody_canonical (h : m.Canonical) {d sp a e} : Chk.Sat Mach.Canonical (joinRingBody d sp a e m) := by
  unfold joinRingBody
  refine (Env.src_canonical h).bind fun ⟨w, m⟩ h => (Env.dst_canonical h).bind fun ⟨l, m⟩ h => .skip fun ka =>
    .skip fun ⟨r, code⟩ => ?_
  dsimp only
  split
  · simp [h]
  · simp [h]
  refine .skip fun _ => ?_
  split <;> simp [h]

theorem keywArrBody_canonical (h : m.Canonical) {d sp a e} : Chk.Sat Mach.Canonical (keywArrBody d sp a e m) := by
  unfold keywArrBody
  refine (Env.src_canonical h).bind fun ⟨w, m⟩ h => (Env.dst_canonical h).bind fun ⟨l, m⟩ h => ?_
  dsimp only
  split
  · simp [h]
  refine .skip fun ka => .skip fun r => ?_
  split
  · simp [h]
  · exact .skip fun _ => by simp [h]

theorem keywTktBody_canonical (h : m.Canonical) {d sp a b e} : Chk.Sat Mach.Canonical (keywTktBody d sp a b e m) := by
  unfold keywTktBody
  refine (Env.src2_canonical h).bind fun ⟨w, v, m⟩ h => (Env.dst_canonical h).bind fun ⟨l, m⟩ h => ?_
  dsimp only
  split
  · simp [h]
  refine .skip fun ka => ?_
  split
  · repeat' split
    all_goals simp [h]
  refine .skip fun r => ?_
  repeat' split
  all_goals simp [h]

theorem keywFreeBody_canonical (h : m.Canonical) {d sp a e} : Chk.Sat Mach.Canonical (keywFreeBody d sp a e m) := by
  unfold keywFreeBody
  refine (Env.src_canonical h).bind fun ⟨w, m⟩ h => (Env.dst_canonical h).bind fun ⟨l, m⟩ h => ?_
  dsimp only
  split
  · simp [h]
  refine .skip fun ka => .skip fun r => .skip fun _ => ?_
  split
  · simp [h]
  · exact .skip fun _ => by simp [h]

theorem keyqBody_canonical (h : m.Canonical) {d sp a e} : Chk.Sat Mach.Canonical (keyqBody d sp a e m) := by
  unfold keyqBody
  refine (Env.src_canonical h).bind fun ⟨w, m⟩ h => (Env.dst_canonical h).bind fun ⟨l, m⟩ h => .skip fun ka => ?_
  dsimp only
  repeat' split
  all_goals simp [h]

/-! ### Block instructions -/

@[simp] theorem Env.blockDone_canonical_iff {e : Env} {l v fin} : (e.blockDone m l v fin).Canonical ↔ m.Canonical := by
  simp [Env.blockDone]

@[simp] theorem Env.blockRaced_canonical_iff {e : Env} {l codes} : (e.blockRaced m l codes).Canonical ↔ m.Canonical := by
  simp [Env.blockRaced]

@[simp] theorem Env.blockStart_canonical_iff {e : Env} {k l fin} : (e.blockStart m k l fin).Canonical ↔ m.Canonical := by
  simp [Env.blockStart]

@[simp] theorem openHandle_canonical (h : m.Canonical) {t key ctx a shape} :
    (openHandle t m key ctx a shape).2.1.Canonical := by
  simp only [openHandle]
  repeat' split
  all_goals simp [h]

theorem bopnBody_canonical (h : m.Canonical) {d a b e} : Chk.Sat Mach.Canonical (bopnBody d a b e m) := by
  unfold bopnBody
  refine (Env.src2_canonical h).bind fun ⟨x, y, m⟩ h => (Env.dst_canonical h).bind fun ⟨l, m⟩ h => ?_
  simp [h]

@[simp] theorem shareBlocks_canonical_iff {ctx s d n} : (shareBlocks ctx s d n m).2.Canonical ↔ m.Canonical := by
  simp only [shareBlocks]
  repeat' split
  all_goals simp

theorem bshrBody_canonical (h : m.Canonical) {d a b e} : Chk.Sat Mach.Canonical (bshrBody d a b e m) := by
  unfold bshrBody
  refine (Env.src2_canonical h).bind fun ⟨x, y, m⟩ h => (Env.dst_canonical h).bind fun ⟨l, m⟩ h => .skip fun _ =>
    .skip fun _ => .skip fun ⟨r, hold⟩ => .skip fun q => ?_
  dsimp only
  repeat' split
  all_goals simp [h]

@[simp] theorem Mach.unmapBlocks_canonical (h : m.Canonical) {ctx h' sel} : (m.unmapBlocks ctx h' sel).Canonical := by
  simp only [Mach.unmapBlocks]
  repeat' split
  all_goals simp +contextual [h, foldl_canonical]

@[simp] theorem Mach.unreserve_canonical_iff {s k} : (m.unreserve s k).Canonical ↔ m.Canonical := by simp [Mach.unreserve]

@[simp] theorem Mach.closeHandle_canonical_iff {ctx h'} : (m.closeHandle ctx h').Canonical ↔ m.Canonical := by
  simp only [Mach.closeHandle]
  split <;> simp

theorem bfreBody_canonical (h : m.Canonical) {d f a b e} : Chk.Sat Mach.Canonical (bfreBody d f a b e m) := by
  unfold bfreBody
  refine (Env.src_canonical h).bind fun ⟨x, m⟩ h => ?_
  dsimp only
  split
  · refine (Env.src_canonical h).bind fun ⟨n, m⟩ h => (Env.dst_canonical h).bind fun ⟨l, m⟩ h => .skip fun s => ?_
    dsimp only
    split <;> refine .skip fun _ => .skip fun r => ?_ <;> repeat' split
    all_goals simp [h]
  · refine .given <| (Env.dst_canonical h).bind fun ⟨l, m⟩ h => .skip fun s => ?_
    dsimp only
    split <;> refine .skip fun _ => .skip fun r => ?_ <;> repeat' split
    all_goals simp [h]

theorem Mach.invalidate_canonical (h : m.Canonical) {ctx h' t0 bm keys m'} (hm : m.invalidate ctx h' t0 bm keys = some m') :
    m'.Canonical := by
  induction keys generalizing m with
  | nil => cases hm; exact h
  | cons key r ih =>
    simp only [Mach.invalidate] at hm
    split at hm
    · cases hm
    next m₁ hw =>
    split at hm
    · cases hm
    · exact ih (Mach.onPool_canonical_iff.2 (Mach.writable_canonical h hw)) hm

theorem binvBody_canonical (h : m.Canonical) {d all a b e} : Chk.Sat Mach.Canonical (binvBody d all a b e m) := by
  unfold binvBody
  refine (Env.src2_canonical h).bind fun ⟨x, y, m⟩ h => (Env.dst_canonical h).bind fun ⟨l, m⟩ h => .skip fun _ =>
    .skip fun _ => .skip fun _ => ?_
  simp [h]

@[simp] theorem serveBlock_canonical (h : m.Canonical) {t c op} : (serveBlock t c op m).Canonical := by
  simp only [serveBlock]
  split
  · split <;> simp [h]
  · split <;> simp [h]
  · split
    · split
      · simp [h]
      split
      · simp [h]
      next hm =>
      split
      · simp [h]
      · simp [Mach.invalidate_canonical h hm]
    · exact h
  · exact h

theorem bqryBody_canonical (h : m.Canonical) {d f a e} : Chk.Sat Mach.Canonical (bqryBody d f a e m) := by
  unfold bqryBody
  refine (Env.src_canonical h).bind fun ⟨x, m⟩ h => (Env.dst_canonical h).bind fun ⟨l, m⟩ h => .skip fun s => ?_
  have done : (e.blockDone m l (queryWord m f (e.ctx m) s x.toNat) []).Canonical := by simp [h]
  dsimp only
  split <;> refine .skip fun _ => ?_ <;> split
  · exact Chk.sat_ok.2 done
  · exact .skip fun _ => Chk.sat_ok.2 done
  · exact Chk.sat_ok.2 done
  · exact .skip fun _ => Chk.sat_ok.2 done

@[simp] theorem reserveFrames_canonical_iff {rel ctx s n} : (reserveFrames rel ctx s n m).2.Canonical ↔ m.Canonical := by
  simp only [reserveFrames]
  repeat' split
  all_goals simp

theorem bgrwBody_canonical (h : m.Canonical) {d rel a b e} : Chk.Sat Mach.Canonical (bgrwBody d rel a b e m) := by
  unfold bgrwBody
  refine (Env.src2_canonical h).bind fun ⟨x, n, m⟩ h => (Env.dst_canonical h).bind fun ⟨l, m⟩ h => .skip fun _ =>
    .skip fun _ => ?_
  simp [h]

end
end Sys2Proof.Machine
end

