-- ==== Sys2Proof/Proofs/CanonicalHandoff.lean ====
section
/-! SUPPORT for the statement that every step keeps the memories canonical: hand-offs, weight loads, rings and relays. -/

namespace Sys2Proof.Machine

section
variable {m : Mach}

/-! ### Hand-offs -/

theorem hoffBody_canonical (h : m.Canonical) {d a e} : Chk.Sat Mach.Canonical (hoffBody d a e m) := by
  unfold hoffBody
  refine (Env.src_canonical h).bind fun ⟨w, m⟩ h => (Env.dst_canonical h).bind fun ⟨l, m⟩ h =>
    (Env.record_canonical h).bind fun ⟨ds, m⟩ h => .skip fun _ => ?_
  dsimp only
  split
  · exact Chk.sat_error.2 trivial
  refine .skip fun _ => .skip fun _ => ?_
  split
  · exact .stop
  refine .skip fun _ => .skip fun _ => .skip fun _ => ?_
  split
  · exact .stop
  refine .skip fun _ => .skip fun _ => .skip fun _ => .skip fun kr => .skip fun vr => ?_
  split
  · exact .stop
  refine .skip fun _ => .skip fun hr => .skip fun _ => .skip fun _ => ?_
  split <;> simp [h]

theorem Mach.takeFrames_canonical (h : m.Canonical) {ctx h' n r} (hr : Mach.takeFrames ctx h' n m = some r) :
    r.2.2.Canonical := by
  induction n generalizing m h r with
  | zero => cases hr; exact h
  | succ n ih =>
    simp only [Mach.takeFrames] at hr
    split at hr
    · cases hr
    split at hr
    · cases hr
    next hf =>
    obtain ⟨r', hr', heq⟩ := Option.map_eq_some_iff.1 hr
    cases heq
    have hm : r'.2.2.Canonical := ih (Mach.takeFrame_canonical h hf) hr'
    exact hm

@[simp] theorem Mach.toWaybill_canonical_iff {w rid} : (m.toWaybill w rid).Canonical ↔ m.Canonical := by simp [Mach.toWaybill]

@[simp] theorem makeWaybill_canonical (h : m.Canonical) {ctx ds krid vrid hrid issuer hand} :
    (makeWaybill m ctx ds krid vrid hrid issuer hand).2.2.Canonical := by
  simp only [makeWaybill]
  split
  · exact h
  split
  · exact h
  split
  · exact h
  split
  · exact h
  split
  next hf =>
    have hm := Mach.takeFrames_canonical h hf
    simp [hm]
  · exact h

@[simp] theorem Core.regain_local (k : Core) {rids} : (k.regain rids).local_ = k.local_ := by
  simp only [Core.regain]
  simp [foldl_local]

@[simp] theorem serveHoff_canonical (h : m.Canonical) {c op} : (serveHoff c op m).Canonical := by
  simp only [serveHoff]
  repeat' split
  all_goals simp [h]

@[simp] theorem Mach.onWaybill_canonical_iff {n f} : (m.onWaybill n f).Canonical ↔ m.Canonical := by simp [Mach.onWaybill]

@[simp] theorem moveBlock_canonical (h : m.Canonical) {t w shape l b frame} :
    (moveBlock t m w shape l b frame).1.Canonical := by
  have rows {α : Type} {l : List α} {f : Mach × BitVec 7 → α → Mach × BitVec 7} {x : Mach × BitVec 7}
      (hx : x.1.Canonical) (hf : ∀ x a, x.1.Canonical → (f x a).1.Canonical) : (l.foldl f x).1.Canonical :=
    List.foldlRecOn (motive := fun x => x.1.Canonical) l f hx fun x hx a _ => hf x a hx
  have run {x : Mach} (h : x.Canonical) {pa n : Nat} {bs : List Byte} :
      (x.writeHome true pa n (Mem.ofBytes bs)).Canonical := Mach.writeHome_canonical h (Mem.ofBytes_rising bs)
  simp only [moveBlock]
  refine rows (rows h fun x j h => rows h fun x i h => ?_) fun x j h => rows h fun x i h => ?_
  · simp [run h]
  · simpa using run h

@[simp] theorem handoffBlockMove_canonical (h : m.Canonical) {t n} : (handoffBlockMove t n m).Canonical := by
  simp only [handoffBlockMove]
  repeat' split
  all_goals simp [h]

@[simp] theorem Mach.completeWaybill_canonical (h : m.Canonical) {w st} : (m.completeWaybill w st).Canonical := by
  simp only [Mach.completeWaybill]
  split <;> simp [h]

@[simp] theorem handoffCompletion_canonical (h : m.Canonical) {n} : (handoffCompletion n m).Canonical := by
  simp only [handoffCompletion]
  repeat' split
  all_goals simp [h]

@[simp] theorem Mach.zeroDevice_canonical (h : m.Canonical) {t ctx r} : (Mach.zeroDevice t m ctx r).Canonical :=
  foldl_canonical h fun m p h => Mach.Canonical.ite (by simp [h]) (Mach.zeroHome_canonical h)

@[simp] theorem Mach.freeKey_canonical_iff {rid} : (m.freeKey rid).Canonical ↔ m.Canonical := by simp [Mach.freeKey]

@[simp] theorem commitWaybill_canonical (h : m.Canonical) {t w} : (commitWaybill t w m).Canonical := by
  have zero {rid : Nat} {m : Mach} (h : m.Canonical) :
      (match m.region rid with | some r => m.zeroDevice t w.ctx r | none => m).Canonical := by
    split <;> simp [h]
  have freed {a b c : Nat} {m : Mach} (h : m.Canonical) : (((m.freeKey a).freeKey b).freeKey c).Canonical := by simpa using h
  refine Mach.onWaybill_canonical_iff.2 (freed (zero (zero ?_)))
  exact foldl_canonical h fun m fi h => Mach.onBseq_canonical_iff.2 h

@[simp] theorem Mach.giveBack_canonical (h : m.Canonical) {w rid} : (m.giveBack w rid).Canonical := by
  simp only [Mach.giveBack]
  repeat' split
  all_goals simp [h]

@[simp] theorem Mach.returnFrames_canonical (h : m.Canonical) {w} : (m.returnFrames w).Canonical := by
  simp only [Mach.returnFrames]
  split
  · exact h
  · exact Mach.onPool_canonical_iff.2 (Mach.onBseq_canonical_iff.2 (foldl_canonical h fun m f h => Mach.freeFrame_canonical h))

@[simp] theorem cancelWaybill_canonical (h : m.Canonical) {w} : (cancelWaybill w m).Canonical := by
  have back {l : List Nat} : (l.foldl (fun m rid => m.giveBack w rid) (m.returnFrames w)).Canonical :=
    foldl_canonical (Mach.returnFrames_canonical h) fun m rid h => Mach.giveBack_canonical h
  exact Mach.onWaybill_canonical_iff.2 (Mach.Canonical.ite back (Mach.completeWaybill_canonical back))

theorem hctlBody_canonical (h : m.Canonical) {form d a e} : Chk.Sat Mach.Canonical (hctlBody form d a e m) := by
  unfold hctlBody
  refine (Env.src_canonical h).bind fun ⟨w, m⟩ h => (Env.dst_canonical h).bind fun ⟨l, m⟩ h => ?_
  simp [h]

@[simp] theorem sealWaybill_canonical (h : m.Canonical) {w} : (sealWaybill w m).Canonical := by
  simp only [sealWaybill]
  split <;> simp [h]

@[simp] theorem hctlAct_canonical (h : m.Canonical) {t form w} : (hctlAct t form w m).2.2.Canonical := by
  simp only [hctlAct]
  repeat' split
  all_goals simp [h]

@[simp] theorem serveHctl_canonical (h : m.Canonical) {t c op} : (serveHctl t c op m).Canonical := by
  simp only [serveHctl]
  repeat' split
  all_goals simp [h]

theorem hctlQryBody_canonical (h : m.Canonical) {d a b e} : Chk.Sat Mach.Canonical (hctlQryBody d a b e m) := by
  unfold hctlQryBody
  refine (Env.src2_canonical h).bind fun ⟨w, i, m⟩ h => (Env.dst_canonical h).bind fun ⟨l, m⟩ h => .skip fun _ => ?_
  simp [h]

/-! ### Weight loads -/

theorem cwldBody_canonical (h : m.Canonical) {d a e} : Chk.Sat Mach.Canonical (cwldBody d a e m) := by
  unfold cwldBody
  refine (Env.src_canonical h).bind fun ⟨v, m⟩ h => (Env.dst_canonical h).bind fun ⟨l, m⟩ h =>
    (Env.record_canonical h).bind fun ⟨w, m⟩ h => .skip fun _ => .skip fun _ => .skip fun _ => ?_
  dsimp only
  split
  · exact .stop
  refine .skip fun _ => .skip fun _ => ?_
  split
  · exact .stop
  refine .skip fun _ => ?_
  split
  · exact Chk.sat_error.2 trivial
  refine .skip fun _ => .skip fun _ => ?_
  split
  · simp [h]
  · exact Chk.sat_ok.2 (Env.start_canonical_iff.2 (foldl_canonical h fun m r h => Env.later_canonical_iff.2 h))

@[simp] theorem Mach.toEngine_canonical_iff {c o rid} : (m.toEngine c o rid).Canonical ↔ m.Canonical := by simp [Mach.toEngine]

@[simp] theorem serveCwld_canonical (h : m.Canonical) {t c op} : (serveCwld t c op m).Canonical := by
  have refuse {rids : List Nat} {op : Op} : ((m.onCore c fun k => k.regain rids).finish c op).Canonical := by simp [h]
  simp only [serveCwld]
  split
  · repeat' split
    · exact h
    · simp [h]
    · exact refuse
    · exact refuse
    · exact h
    · refine onCore_canonical (Mach.finish_canonical_iff.2 (onCore_canonical (foldl_canonical h fun m r h => ?_) fun k => ?_)) fun k => ?_
      · simp [h]
      · simp
      · rfl
  · exact h

@[simp] theorem Mach.fromEngine_canonical (h : m.Canonical) {g ctx rid} : (m.fromEngine g ctx rid).Canonical := by
  simp only [Mach.fromEngine]
  repeat' split
  all_goals simp [h]

@[simp] theorem chunkWrite_canonical (h : m.Canonical) {t ctx w j n bs} :
    (chunkWrite t m ctx w j n bs).Canonical := by
  have touched : (if decide (wDsp w ≠ 1) then m else m.touchSlice (wDst w j)).Canonical := by simp [h]
  simp only [chunkWrite]
  split
  · exact Mach.piecesWrite_canonical touched (Mem.ofBytes_wf _)
  · exact foldl_canonical touched fun m p h => Mach.zeroHome_canonical h

@[simp] theorem Mach.dropEngineOp_canonical (h : m.Canonical) {c g o} : (m.dropEngineOp c g o).Canonical := by
  simp [Mach.dropEngineOp, h]

@[simp] theorem cwldChunk_canonical (h : m.Canonical) {t c o} : (cwldChunk t c o m).Canonical := by
  have returned {g : Option Gid} {ctx : BitVec 6} {rids : List Nat} {m : Mach} (h : m.Canonical) :
      (rids.foldl (fun m rid => m.fromEngine g ctx rid) m).Canonical := foldl_canonical h fun m r h => Mach.fromEngine_canonical h
  have written {g : Option Gid} {ctx w j n bs} {f : Core → Core} (hf : ∀ k : Core, (f k).local_ = k.local_) :
      ((chunkWrite t m ctx w j n bs).onGroupCore c g f).Canonical := Mach.onGroupCore_canonical (chunkWrite_canonical h) hf
  simp only [cwldChunk]
  split
  · exact h
  split
  · split
    · simp [h]
    split
    · simp [h]
    · simp [h]
    split
    · simp [written]
    · refine Mach.dropEngineOp_canonical (Mach.onGroupCore_canonical (returned (written fun k => ?_)) fun k => by simp)
      split <;> simp
  · exact h

/-! ### Rings -/

@[simp] theorem Mach.onRing_canonical_iff {rid f} : (m.onRing rid f).Canonical ↔ m.Canonical := by simp [Mach.onRing]

theorem riniBody_canonical (h : m.Canonical) {d a b e} : Chk.Sat Mach.Canonical (riniBody d a b e m) := by
  unfold riniBody
  refine (Env.src2_canonical h).bind fun ⟨w, v, m⟩ h => (Env.dst_canonical h).bind fun ⟨l, m⟩ h => .skip fun _ =>
    .skip fun r => ?_
  dsimp only
  repeat' split
  all_goals simp [h]

theorem rqryBody_canonical (h : m.Canonical) {d a e} : Chk.Sat Mach.Canonical (rqryBody d a e m) := by
  unfold rqryBody
  refine (Env.src_canonical h).bind fun ⟨w, m⟩ h => (Env.dst_canonical h).bind fun ⟨l, m⟩ h => .skip fun _ => ?_
  dsimp only
  split
  · simp
  · exact .skip fun _ => by simp [h]

theorem rclmBody_canonical (h : m.Canonical) {d a b e} : Chk.Sat Mach.Canonical (rclmBody d a b e m) := by
  unfold rclmBody
  refine (Env.src2_canonical h).bind fun ⟨w, v, m⟩ h => (Env.dst_canonical h).bind fun ⟨l, m⟩ h => .skip fun _ => ?_
  dsimp only
  split <;> simp [h]

theorem rwfrBody_canonical (h : m.Canonical) {d a b e} : Chk.Sat Mach.Canonical (rwfrBody d a b e m) := by
  unfold rwfrBody
  refine (Env.src2_canonical h).bind fun ⟨w, v, m⟩ h => (Env.dst_canonical h).bind fun ⟨l, m⟩ h => .skip fun _ =>
    .skip fun _ => ?_
  simp [h]

theorem rwflBody_canonical (h : m.Canonical) {d a b e} : Chk.Sat Mach.Canonical (rwflBody d a b e m) := by
  unfold rwflBody
  refine (Env.src2_canonical h).bind fun ⟨w, v, m⟩ h => (Env.dst_canonical h).bind fun ⟨l, m⟩ h => .skip fun ⟨r, g⟩ =>
    .skip fun _ => ?_
  simp [h]

theorem rpubBody_canonical (h : m.Canonical) {a b e} : Chk.Sat Mach.Canonical (rpubBody a b e m) := by
  unfold rpubBody
  refine (Env.src2_canonical h).bind fun ⟨w, v, m⟩ h => .skip fun _ => .skip fun _ => ?_
  simp [h]

theorem rrelBody_canonical (h : m.Canonical) {a b e} : Chk.Sat Mach.Canonical (rrelBody a b e m) := by
  unfold rrelBody
  refine (Env.src2_canonical h).bind fun ⟨w, v, m⟩ h => .skip fun _ => .skip fun _ => ?_
  simp [h]

@[simp] theorem serveRing_canonical_iff {c op} : (serveRing c op m).Canonical ↔ m.Canonical := by
  simp only [serveRing]
  repeat' split
  all_goals simp

@[simp] theorem Mach.endRings_canonical_iff {g} : (m.endRings g).Canonical ↔ m.Canonical := by simp [Mach.endRings]

/-! ### Relays -/

@[simp] theorem Mach.onChannel_canonical_iff {num f} : (m.onChannel num f).Canonical ↔ m.Canonical := by simp [Mach.onChannel]

@[simp] theorem Mach.onDir_canonical_iff {num toFf f} : (m.onDir num toFf f).Canonical ↔ m.Canonical := by simp [Mach.onDir]

@[simp] theorem Mach.doneWaiting_canonical_iff {num c g} : (m.doneWaiting num c g).Canonical ↔ m.Canonical := by
  simp [Mach.doneWaiting]

theorem rlysBody_canonical (h : m.Canonical) {d s a b e} : Chk.Sat Mach.Canonical (rlysBody d s a b e m) := by
  unfold rlysBody
  refine (Env.src2_canonical h).bind fun ⟨w, v, m⟩ h => (Env.dst_canonical h).bind fun ⟨l, m⟩ h => .skip fun f => ?_
  dsimp only
  split
  · simp [h]
  refine .skip fun _ => ?_
  split
  · simp [h]
  · exact .skip fun _ => .skip fun _ => .skip fun _ => by simp [h]

@[simp] theorem serveRlys_canonical (h : m.Canonical) {t c op} : (serveRlys t c op m).Canonical := by
  simp only [serveRlys]
  split
  · split
    · simp [h]
    refine Mach.Canonical.ite h ?_
    split
    next he => exact (engineRead_canonical h).of_wait he
    next he => exact (engineRead_canonical h).of_lost he
    next he =>
    have hm := (engineRead_canonical h).of_ok he
    split
    · simp [hm]
    split <;> simp [hm]
  · exact h

@[simp] theorem Mach.completeSends_canonical (h : m.Canonical) {l units st} :
    (m.completeSends l units st).Canonical :=
  foldl_canonical h fun m p h => Mach.Canonical.ite h (Mach.onGroupCore_canonical h fun k => by simp)

@[simp] theorem Mach.landPayload_canonical (h : m.Canonical) {ch toFf p} : (m.landPayload ch toFf p).Canonical :=
  Mach.completeSends_canonical (Mach.onDir_canonical_iff.2 (.ite (by simp [h]) h))

@[simp] theorem relayPayloadLands_canonical (h : m.Canonical) {num toFf slot} :
    (relayPayloadLands num toFf slot m).Canonical := by
  simp only [relayPayloadLands]
  repeat' split
  all_goals simp [h]

theorem rlygBody_canonical (h : m.Canonical) {form d a b e} : Chk.Sat Mach.Canonical (rlygBody form d a b e m) := by
  unfold rlygBody
  refine (Env.src2_canonical h).bind fun ⟨w, v, m⟩ h => (Env.dst_canonical h).bind fun ⟨l, m⟩ h => .skip fun f => ?_
  dsimp only
  split
  · simp
  · exact .skip fun _ => by simp [h]

@[simp] theorem serveRlyg_canonical_iff {c op} : (serveRlyg c op m).Canonical ↔ m.Canonical := by
  simp only [serveRlyg]
  repeat' split
  all_goals simp

theorem rlywBody_canonical (h : m.Canonical) {d a b e} : Chk.Sat Mach.Canonical (rlywBody d a b e m) := by
  unfold rlywBody
  refine (Env.src2_canonical h).bind fun ⟨w, v, m⟩ h => (Env.dst_canonical h).bind fun ⟨l, m⟩ h => .skip fun f => ?_
  dsimp only
  split
  · simp [h]
  refine .skip fun _ => ?_
  split
  · simp [h]
  · exact .skip fun _ => by simp [h]

@[simp] theorem Mach.breakChannel_canonical (h : m.Canonical) {num lost} : (m.breakChannel num lost).Canonical := by
  simp only [Mach.breakChannel]
  repeat' split
  all_goals simp [h]

@[simp] theorem channelBreak_canonical (h : m.Canonical) {t num} : (channelBreak t num m).Canonical := by
  simp only [channelBreak]
  repeat' split
  all_goals simp [h]

@[simp] theorem Mach.dropRelayRing_canonical (h : m.Canonical) {e d} : (m.dropRelayRing e d).Canonical := by
  simp only [Mach.dropRelayRing]
  split <;> simp [h]

@[simp] theorem Core.endSends_local (k : Core) {num st} : (k.endSends num st).local_ = k.local_ := by
  simp only [Core.endSends]
  simp [foldl_local]

theorem Mach.closeChannel_canonical (h : m.Canonical) {t num m'} (hm : Mach.closeChannel t m num = some m') :
    m'.Canonical := by
  simp only [Mach.closeChannel] at hm
  split at hm
  · cases hm; exact h
  split at hm
  · cases hm
  next ch _ _ =>
  cases hm
  have dropped : ((m.dropRelayRing ch.attEnd ch.att).dropRelayRing ch.ffEnd ch.ff).Canonical :=
    Mach.dropRelayRing_canonical (Mach.dropRelayRing_canonical h)
  have ended {m : Mach} (h : m.Canonical) (l : List Nat) :
      (l.foldl (fun m c => m.onCore c fun k => k.endSends num ch.breakStatus) m).Canonical :=
    foldl_canonical h fun m c h => onCore_canonical h fun k => by simp
  simp [ended dropped]

end
end Sys2Proof.Machine
end

