-- ==== Sys2Proof/Proofs/CanonicalRequest.lean ====
section
/-! SUPPORT for the statement that every step keeps the memories canonical: placement, requests, errors and the loss of a context. -/

namespace Sys2Proof.Machine

section
variable {m : Mach}

/-! ### Placement of a group, and its end -/

@[simp] theorem Mach.loseAgent_canonical_iff {dram a ctx die} : (m.loseAgent dram a ctx die).Canonical ↔ m.Canonical := by
  simp [Mach.loseAgent]

@[simp] theorem Mach.onRequest_canonical_iff {r f} : (m.onRequest r f).Canonical ↔ m.Canonical := by simp [Mach.onRequest]

@[simp] theorem Mach.onLaunch_canonical_iff {n f} : (m.onLaunch n f).Canonical ↔ m.Canonical := by simp [Mach.onLaunch]

@[simp] theorem Mach.setGroup_canonical_iff {g st} : (m.setGroup g st).Canonical ↔ m.Canonical := by simp [Mach.setGroup]

@[simp] theorem Mach.dropEnded_canonical_iff : (m.dropEnded).Canonical ↔ m.Canonical := by simp [Mach.dropEnded]

@[simp] theorem Mach.leaveWaiting_canonical_iff : (m.leaveWaiting).Canonical ↔ m.Canonical := by simp [Mach.leaveWaiting]

@[simp] theorem Mach.lendShare_canonical_iff {g s} : (m.lendShare g s).Canonical ↔ m.Canonical := by simp [Mach.lendShare]

@[simp] theorem Mach.settleStreams_canonical (h : m.Canonical) : m.settleStreams.Canonical := by
  have freed (l : List Stream) : (l.foldl (fun m s => m.setKey s.rid .free) m).Canonical :=
    foldl_canonical h fun m s h => Mach.setKey_canonical_iff.2 h
  simp [Mach.settleStreams, freed]

@[simp] theorem kernelImageLoad_canonical (h : m.Canonical) {t c noise} : (kernelImageLoad t c noise m).Canonical := by
  have loaded {m : Mach} (h : m.Canonical) {x : Nat} {f : Core → SMap Plane} :
      (m.onCore x fun k => { k with shadow := f k }).Canonical := onCore_canonical h (by simp)
  have others {l : List Nat} {f : Core → SMap Plane} :
      (l.foldl (fun m x => m.onCore x fun k => { k with shadow := f k }) m).Canonical :=
    foldl_canonical h fun m x h => loaded h
  simp only [kernelImageLoad]
  split
  · exact h
  split
  · exact h
  split
  · simp [h]
  · exact h
  split
  · simp [h]
  · exact h
  exact .ite (notify_canonical_iff.2 (loaded others)) (loaded others)

theorem Core.withKernel_local {k k' : Core} {h} (hk : k.withKernel h = some k') : k'.local_ = k.local_ := by
  simp only [Core.withKernel] at hk
  repeat' split at hk
  all_goals cases hk
  all_goals rfl

@[simp] theorem Core.placed_local (k : Core) {g view} : (k.placed g view).local_ = k.local_ := by rfl

@[simp] theorem Mach.portWrite_canonical (h : m.Canonical) {c a bs} : (m.portWrite c a bs).Canonical := by
  simp only [Mach.portWrite]
  split
  · exact h
  · exact setCore_canonical (Mach.ownLocal_canonical h) (Mem.write_wf ((Mach.ownLocal_canonical h).core c) _ _)

theorem placeGroup_canonical (h : m.Canonical) {t c l g ss} {k : Core} (hk : k.local_.wf = true) :
    (placeGroup t c l g k ss m).Canonical := by
  have lent : (ss.eraseDups.foldl (fun m s => m.lendShare ⟨l.num, g⟩ s) m).Canonical :=
    foldl_canonical h fun m s h => Mach.lendShare_canonical_iff.2 h
  have ported {data : List (Nat × List Byte)} {m : Mach} (h : m.Canonical) :
      (data.foldl (fun m x => m.portWrite c x.1 x.2) m).Canonical := foldl_canonical h fun m x h => Mach.portWrite_canonical h
  have placed {m : Mach} (h : m.Canonical) {v : List Hold} : (m.setCore c (k.placed (l.groupOf g) v)).Canonical :=
    setCore_canonical h (by rw [Core.placed_local]; exact hk)
  simp only [placeGroup]
  split
  · simp [h]
  · exact h
  split
  · exact ported (placed (Mach.setGroup_canonical_iff.2 lent))
  · exact Mach.portWrite_canonical (ported (placed (Mach.setGroup_canonical_iff.2 lent)))

@[simp] theorem groupPlacement_canonical (h : m.Canonical) {t c} : (groupPlacement t c m).Canonical := by
  simp only [groupPlacement]
  split
  · exact h
  split
  · split
    next hk _ =>
      split
      · exact placeGroup_canonical h (by rw [Core.withKernel_local hk]; exact h.core c)
      · exact h
    · exact h
  · exact h

@[simp] theorem Core.freeGranules_local (k : Core) {g} : (k.freeGranules g).local_ = k.local_ := by rfl

@[simp] theorem Core.vacate_local (k : Core) {g} : (k.vacate g).local_ = k.local_ := by rfl

@[simp] theorem Mach.leaveLease_canonical (h : m.Canonical) {c} : (m.leaveLease c).Canonical := by
  simp only [Mach.leaveLease]
  split <;> simp [h]

@[simp] theorem Mach.forgetGroup_canonical (h : m.Canonical) {g ctx} : (m.forgetGroup g ctx).Canonical := by
  simp [Mach.forgetGroup, h]

@[simp] theorem Mach.onSlots_canonical_iff {ctx f} : (m.onSlots ctx f).Canonical ↔ m.Canonical := by
  simp only [Mach.onSlots]
  split <;> simp

@[simp] theorem drainingEnd_canonical (h : m.Canonical) {c} : (drainingEnd c m).Canonical := by
  simp only [drainingEnd]
  split
  · exact h
  split
  · refine Mach.settleStreams_canonical (Mach.forgetGroup_canonical ?_)
    split <;> simp [h]
  · exact h

/-! ### Requests and the walk of their graphs -/

@[simp] theorem Mach.setLevel_canonical_iff {p l} : (m.setLevel p l).Canonical ↔ m.Canonical := by simp [Mach.setLevel]

@[simp] theorem Mach.enqueue_canonical_iff {w} : (m.enqueue w).Canonical ↔ m.Canonical := by simp [Mach.enqueue]

@[simp] theorem submissionRecord_canonical (h : m.Canonical) {func off data} :
    (submissionRecord func off data m).Canonical := by
  simp only [submissionRecord]
  split <;> simp [h]

@[simp] theorem requestAging_canonical_iff {p i} : (requestAging p i m).Canonical ↔ m.Canonical := by
  simp only [requestAging]
  repeat' split
  all_goals simp

@[simp] theorem Mach.resumeOn_canonical (h : m.Canonical) {pool smax n} : (m.resumeOn pool smax n).Canonical := by
  induction n generalizing m with
  | zero => exact h
  | succ n ih =>
    simp only [Mach.resumeOn]
    split
    · exact h
    split
    · exact h
    · exact ih (Mach.onPool_canonical_iff.2 (Mach.onRequest_canonical_iff.2 h))

@[simp] theorem Mach.leaveColumn_canonical (h : m.Canonical) {t r} : (Mach.leaveColumn t m r).Canonical := by
  simp only [Mach.leaveColumn]
  repeat' split
  all_goals simp [h]

@[simp] theorem Mach.closeAll_canonical (h : m.Canonical) {t r l} : (Mach.closeAll t m r l).1.Canonical := by
  induction l generalizing m with
  | nil => exact h
  | cons i l ih =>
    simp only [Mach.closeAll]
    split
    · exact ih h
    split
    · exact h
    next hc => exact ih (Mach.onRequest_canonical_iff.2 (Mach.closeChannel_canonical h hc))

@[simp] theorem endRequest_canonical (h : m.Canonical) {t r status} : (endRequest t r status m).Canonical := by
  simp only [endRequest]
  split
  · exact h
  split
  · exact h
  have closed : (Mach.closeAll t m r [0, 1, 2, 3]).1.Canonical := Mach.closeAll_canonical h
  split
  · exact Mach.onRequest_canonical_iff.2 closed
  generalize (Mach.closeAll t m r [0, 1, 2, 3]).1 = m at closed
  refine Mach.dropEnded_canonical_iff.2 (Mach.settleStreams_canonical (Mach.onRequest_canonical_iff.2
    (Mach.leaveColumn_canonical ?_)))
  split <;> simp [closed, closed.host_wf, Mem.write_wf]

@[simp] theorem Mach.onNode_canonical_iff {r n f} : (m.onNode r n f).Canonical ↔ m.Canonical := by simp [Mach.onNode]

@[simp] theorem arriveNode_canonical (h : m.Canonical) {t r n} : (arriveNode t r n m).Canonical := by
  simp only [arriveNode]
  repeat' split
  all_goals simp [h]

@[simp] theorem finishNode_canonical (h : m.Canonical) {t r n succs} : (finishNode t r n succs m).Canonical := by
  simp only [finishNode]
  repeat' split
  all_goals simp +contextual [h, foldl_canonical]

theorem fireNode_canonical (h : m.Canonical) {t ty r n} {body : Request → NodeSt → List Word → Mach → Mach}
    (hb : ∀ x y w, (body x y w m).Canonical) : (fireNode t ty r n body m).Canonical := by
  simp only [fireNode]
  repeat' split
  all_goals simp [h, hb]

@[simp] theorem requestAdmission_canonical (h : m.Canonical) {t} : (requestAdmission t m).Canonical := by
  simp only [requestAdmission]
  repeat' split
  all_goals simp [h]

/-! ### Errors, a core that fails -/

theorem errqRdBody_canonical (h : m.Canonical) {d a b e} : Chk.Sat Mach.Canonical (errqRdBody d a b e m) := by
  unfold errqRdBody
  refine (Env.src2_canonical h).bind fun ⟨w, i, m⟩ h => (Env.dst_canonical h).bind fun ⟨l, m⟩ h => .skip fun _ => ?_
  simp [h]

theorem errqClrBody_canonical (h : m.Canonical) {d a b e} : Chk.Sat Mach.Canonical (errqClrBody d a b e m) := by
  unfold errqClrBody
  refine (Env.src2_canonical h).bind fun ⟨w, v, m⟩ h => (Env.dst_canonical h).bind fun ⟨l, m⟩ h => .skip fun _ => ?_
  dsimp only
  split
  · simp [h]
  · exact Chk.sat_ok.2 (Env.startValues_canonical_iff.2 (.ite (.parts h h h h) h))

theorem errqSumBody_canonical (h : m.Canonical) {zero d a e} : Chk.Sat Mach.Canonical (errqSumBody zero d a e m) := by
  unfold errqSumBody
  refine (Env.src_canonical h).bind fun ⟨w, m⟩ h => (Env.dst_canonical h).bind fun ⟨l, m⟩ h => .skip fun _ => ?_
  simp [h]

@[simp] theorem correctedError_canonical (h : m.Canonical) {t die bank i} :
    (correctedError t die bank i m).Canonical := by
  simp [correctedError, h]

@[simp] theorem Core.poisonAt_local (k : Core) {q w} : (k.poisonAt q w).local_ = k.local_ := by
  simp only [Core.poisonAt]
  repeat' split
  all_goals simp

@[simp] theorem Mach.poisonAt_canonical_iff {t die bank i} : (Mach.poisonAt t m die bank i).Canonical ↔ m.Canonical := by
  simp only [Mach.poisonAt]
  repeat' split
  all_goals simp

@[simp] theorem uncorrectableError_canonical_iff {t die bank f} :
    (uncorrectableError t die bank f m).Canonical ↔ m.Canonical := by
  simp only [uncorrectableError]
  repeat' split
  all_goals simp

@[simp] theorem coreFail_canonical (h : m.Canonical) {t c} : (coreFail t c m).Canonical := by
  have gone (l : List Region) : (l.foldl (fun m r => m.setKey r.rid .gone) m).Canonical :=
    foldl_canonical h fun m r h => Mach.setKey_canonical_iff.2 h
  simp only [coreFail]
  split
  · exact h
  split
  · exact setCore_canonical h rfl
  · exact foldl_canonical (onCore_canonical (gone _) fun k => by simp) fun m x h => notify_canonical_iff.2 h

/-! ### The loss of a context -/

@[simp] theorem Mach.stopCopies_canonical (h : m.Canonical) {t c} : (Mach.stopCopies t m c).Canonical := by
  simp only [Mach.stopCopies]
  simp +contextual [h, foldl_canonical]

@[simp] theorem Mach.backTo_canonical_iff {g rid} : (m.backTo g rid).Canonical ↔ m.Canonical := by simp [Mach.backTo]

@[simp] theorem Mach.cutPass_canonical (h : m.Canonical) {g k} : (Mach.cutPass g m k).Canonical := by
  simp only [Mach.cutPass]
  repeat' split
  all_goals simp +contextual [h, foldl_canonical]

@[simp] theorem Mach.cutPasses_canonical (h : m.Canonical) {g ops} : (m.cutPasses g ops).Canonical := by
  simp only [Mach.cutPasses]
  simp +contextual [h, foldl_canonical]

@[simp] theorem evictCore_canonical (h : m.Canonical) {t c} : (evictCore t c m).Canonical := by
  simp only [evictCore]
  split
  · exact h
  next g _ =>
  have cut : ((Mach.stopCopies t m c).cutPasses g.gid (m.core c).ops).Canonical :=
    Mach.cutPasses_canonical (Mach.stopCopies_canonical h)
  refine onCore_wf (.ite (Mach.onArray_canonical_iff.2 (Mach.endHolding_canonical_iff.2 cut)) cut) fun k hk => ?_
  split
  · rfl
  · simpa using hk

@[simp] theorem Mach.zeroParts_canonical (h : m.Canonical) {bad l} : (m.zeroParts bad l).Canonical :=
  foldl_canonical h fun _ _ h => .ite h (Mach.zeroHome_canonical h)

@[simp] theorem Mach.clearRegion_canonical (h : m.Canonical) {t bad r} : (Mach.clearRegion t m bad r).Canonical := by
  simp only [Mach.clearRegion]
  split <;> simp [h]

@[simp] theorem Mach.clearPools_canonical (h : m.Canonical) {ctx} : (m.clearPools ctx).Canonical :=
  foldl_canonical h fun _ _ h => Mach.onPool_canonical_iff.2 (foldl_canonical h fun _ _ h => Mach.freeFrame_canonical h)

@[simp] theorem Mach.breakChannels_canonical (h : m.Canonical) {ctx} : (m.breakChannels ctx).Canonical := by
  have broken (l : List Nat) : (l.foldl (fun m n => m.breakChannel n false) m).Canonical :=
    foldl_canonical h fun m n h => Mach.breakChannel_canonical h
  simp [Mach.breakChannels, broken]

theorem teardown_canonical (h : m.Canonical) {t ctx} : (teardown t ctx m).2.Canonical := by
  unfold teardown
  extract_lets gids all evicted unlinked cut listed mine queued reqs left ended forgotten stay levels removed bad before own
    cleared pools isOwn unseen
  have hevicted : evicted.Canonical := foldl_canonical h fun m c h => evictCore_canonical h
  have hcut : cut.Canonical := foldl_canonical (Mach.breakChannels_canonical hevicted) fun m s h => Mach.cutPasses_canonical h
  have hlisted : listed.Canonical := .parts hcut hcut hcut hcut
  have hleft : left.Canonical := foldl_canonical hlisted fun m r h => Mach.leaveColumn_canonical h
  have hended : ended.Canonical := foldl_canonical hleft fun m g h => Mach.setGroup_canonical_iff.2 h
  have hforgotten : forgotten.Canonical := foldl_canonical hended fun m g h => Mach.forgetGroup_canonical h
  have hremoved : removed.Canonical := .parts hforgotten hforgotten hforgotten hforgotten
  have hcleared : cleared.Canonical := foldl_canonical hremoved fun m r h => Mach.clearRegion_canonical h
  have hpools : pools.Canonical := Mach.clearPools_canonical hcleared
  have hunseen : unseen.Canonical := hpools.mapCores fun _ _ => rfl
  exact .parts hunseen hunseen hunseen hunseen

theorem contextLoss_canonical {s : State} (h : s.mach.Canonical) : (contextLoss s).mach.Canonical := by
  simp only [contextLoss]
  split
  · exact h
  next n rest _ =>
  have heard : Mach.Canonical { s.mach with notices := rest } := .parts h h h h
  split
  · exact heard
  · have torn : (teardown s.trust n.ctx { s.mach with notices := rest }).2.Canonical := teardown_canonical heard
    exact torn.withHost torn torn (Mem.hostWrite_wf torn.host_wf _ _ _)

/-! ### Set-up and kernel nodes -/

@[simp] theorem snaggingAudit_canonical_iff {t die kind link diff} :
    (snaggingAudit t die kind link diff m).Canonical ↔ m.Canonical := by
  simp only [snaggingAudit]
  repeat' split
  all_goals simp

@[simp] theorem hostReadAbort_canonical (h : m.Canonical) {t c o} : (hostReadAbort t c o m).Canonical := by
  simp only [hostReadAbort]
  repeat' split
  all_goals simp [h]

@[simp] theorem Mach.addRegion_canonical_iff {ctx sp base size home key ring} :
    (m.addRegion ctx sp base size home key ring).2.Canonical ↔ m.Canonical := by simp [Mach.addRegion]

/-- The machine that a set-up step leaves is canonical, however it ends (R356). -/
def Did.Canonical : Did → Prop
  | .bad => True
  | .wait m => m.Canonical
  | .lost m => m.Canonical
  | .done m => m.Canonical

@[simp] theorem Did.canonical_bad : Did.bad.Canonical := trivial

@[simp] theorem Did.canonical_wait {m : Mach} : (Did.wait m).Canonical ↔ m.Canonical := Iff.rfl

@[simp] theorem Did.canonical_lost {m : Mach} : (Did.lost m).Canonical ↔ m.Canonical := Iff.rfl

@[simp] theorem Did.canonical_done {m : Mach} : (Did.done m).Canonical ↔ m.Canonical := Iff.rfl

theorem takeEntry_canonical (h : m.Canonical) {t r n ctx waited w} : (takeEntry t r n ctx waited w m).Canonical := by
  simp only [takeEntry]
  repeat' split
  all_goals simp [h]

theorem dataEntry_canonical (h : m.Canonical) {t r n ctx desc es w} : (dataEntry t r n ctx desc es w m).Canonical := by
  simp only [dataEntry]
  repeat' split
  all_goals simp [h, Mem.ofBytes_wf]

theorem giveEntry_canonical (h : m.Canonical) {t r n num ctx w} : (giveEntry t r n num ctx w m).Canonical := by
  simp only [giveEntry]
  repeat' split
  all_goals simp [h]

theorem setupStep_canonical (h : m.Canonical) {t r n num ctx desc g es waited i} :
    (setupStep t r n num ctx desc g es waited i m).Canonical := by
  simp only [setupStep]
  repeat' split
  all_goals simp [h, takeEntry_canonical, dataEntry_canonical, giveEntry_canonical]

@[simp] theorem setupSteps_canonical (h : m.Canonical) {t r n num ctx desc g es waited k i} :
    (setupSteps t r n num ctx desc g es waited k i m).Canonical := by
  induction k generalizing m waited i with
  | zero => simp [setupSteps, h]
  | succ k ih =>
    simp only [setupSteps]
    have hs : (setupStep t r n num ctx desc g es waited i m).Canonical := setupStep_canonical h
    split
    · simp [h]
    next hd => exact Mach.onNode_canonical_iff.2 (by simpa [hd] using hs)
    next hd => simpa [hd] using hs
    next hd => exact ih (by simpa [hd] using hs)

@[simp] theorem runSetup_canonical (h : m.Canonical) {t r n num l waited i} :
    (runSetup t r n num l waited i m).Canonical := by
  simp only [runSetup]
  split <;> simp [h]

@[simp] theorem kernBody_canonical (h : m.Canonical) {t r n x y w} : (kernBody t r n x y w m).Canonical := by
  simp only [kernBody]
  repeat' split
  all_goals simp [h]

@[simp] theorem kernFinish_canonical (h : m.Canonical) {t r n} : (kernFinish t r n m).Canonical := by
  simp only [kernFinish]
  repeat' split
  all_goals simp [h]

end
end Sys2Proof.Machine
end

