-- ==== Sys2Proof/Proofs/CanonicalFabric.lean ====
section
/-! SUPPORT for the statement that every step keeps the memories canonical: graph nodes, collectives, other packages and events. -/

namespace Sys2Proof.Machine

section
variable {m : Mach}

/-! ### Nodes of a graph, and launches -/

@[simp] theorem Mach.addRef_canonical_iff {r n s} : (m.addRef r n s).Canonical ↔ m.Canonical := by simp [Mach.addRef]

@[simp] theorem xferBody_canonical (h : m.Canonical) {t r n x y w} : (xferBody t r n x y w m).Canonical := by
  have written {m : Mach} (h : m.Canonical) {a n : Nat} {bs : List Byte} :
      (m.writeHome false a n (Mem.ofBytes bs)).Canonical := Mach.writeHome_canonical h (Mem.ofBytes_rising bs)
  simp only [xferBody]
  repeat' split
  all_goals simp [h, written]

/-- The machine that reading a condition leaves is canonical, however it ends (R342). -/
def Cond.Canonical : Cond → Prop
  | .value _ m => m.Canonical
  | .bad => True
  | .wait m => m.Canonical
  | .lost m => m.Canonical

theorem readCond_canonical (h : m.Canonical) {t ctx w} : (readCond t m ctx w).Canonical := by
  simp only [readCond]
  repeat' split
  all_goals simp [Cond.Canonical, h]

@[simp] theorem condBody_canonical (h : m.Canonical) {t pick r n x y w} : (condBody t pick r n x y w m).Canonical := by
  have hc : (readCond t m (rCtx x.words) w).Canonical := readCond_canonical h
  simp only [condBody]
  split
  · simp [h]
  next he => simpa [he, Cond.Canonical] using hc
  next he => simpa [he, Cond.Canonical] using hc
  next he => exact finishNode_canonical (by simpa [he, Cond.Canonical] using hc)

@[simp] theorem waitBody_canonical (h : m.Canonical) {t r n x y w} : (waitBody t r n x y w m).Canonical := by
  simp only [waitBody]
  repeat' split
  all_goals simp [h]

@[simp] theorem Mach.relayRing_canonical (h : m.Canonical) {e num toFf d} :
    (m.relayRing e num toFf d).2.Canonical := by
  simp only [Mach.relayRing]
  repeat' split
  all_goals simp [h]

@[simp] theorem Mach.openChannel_canonical (h : m.Canonical) {t num ea ef att ff} :
    (Mach.openChannel t m num ea ef att ff).Canonical := by
  simp [Mach.openChannel, h]

@[simp] theorem relayBody_canonical (h : m.Canonical) {t r n x y w} : (relayBody t r n x y w m).Canonical := by
  simp only [relayBody]
  split
  · simp [h]
  split
  · split
    · simp [h]
    split
    · simp [h]
    next hc => exact finishNode_canonical (Mach.onRequest_canonical_iff.2 (Mach.closeChannel_canonical h hc))
  · split
    · repeat' split
      all_goals simp [h]
    · simp [h]

@[simp] theorem doneBody_canonical (h : m.Canonical) {t r x y w} : (doneBody t r x y w m).Canonical := by
  simp [doneBody, h]

@[simp] theorem doneFire_canonical (h : m.Canonical) {t r n} : (doneFire t r n m).Canonical := by
  unfold doneFire
  split
  · simp [h]
  · exact fireNode_canonical h fun x y w => by simp [h]

theorem lnchNodeBody_canonical (h : m.Canonical) {d a e} : Chk.Sat Mach.Canonical (lnchNodeBody d a e m) := by
  unfold lnchNodeBody
  refine (Env.src_canonical h).bind fun ⟨w, m⟩ h => (Env.dst_canonical h).bind fun ⟨l, m⟩ h => ?_
  simp [h]

theorem lnchReqBody_canonical (h : m.Canonical) {d a e} : Chk.Sat Mach.Canonical (lnchReqBody d a e m) := by
  unfold lnchReqBody
  refine (Env.src_canonical h).bind fun ⟨v, m⟩ h => (Env.dst_canonical h).bind fun ⟨l, m⟩ h =>
    (Env.record_canonical h).bind fun ⟨w, m⟩ h => ?_
  simp [h]

@[simp] theorem serveLnch_canonical (h : m.Canonical) {t c op} : (serveLnch t c op m).Canonical := by
  simp only [serveLnch]
  repeat' split
  all_goals simp [h]

/-! ### Collectives -/

theorem clgtSetBody_canonical (h : m.Canonical) {d a b e} : Chk.Sat Mach.Canonical (clgtSetBody d a b e m) := by
  unfold clgtSetBody
  refine (Env.src2_canonical h).bind fun ⟨w, v, m⟩ h => (Env.dst_canonical h).bind fun ⟨l, m⟩ h => .skip fun g =>
    (Env.record_canonical h).bind fun ⟨hd, m⟩ h => .skip fun _ => (Env.record_canonical h).bind fun ⟨ls, m⟩ h => ?_
  dsimp only
  repeat' split
  all_goals simp [h]

theorem clgtClrBody_canonical (h : m.Canonical) {d a e} : Chk.Sat Mach.Canonical (clgtClrBody d a e m) := by
  unfold clgtClrBody
  refine (Env.src_canonical h).bind fun ⟨w, m⟩ h => (Env.dst_canonical h).bind fun ⟨l, m⟩ h => .skip fun _ => ?_
  simp [h]

@[simp] theorem serveClgtClr_canonical_iff {c op g} : (serveClgtClr c op g m).Canonical ↔ m.Canonical := by
  simp only [serveClgtClr]
  repeat' split
  all_goals simp

theorem clgtQryBody_canonical (h : m.Canonical) {d a b e} : Chk.Sat Mach.Canonical (clgtQryBody d a b e m) := by
  unfold clgtQryBody
  refine (Env.src2_canonical h).bind fun ⟨w, i, m⟩ h => (Env.dst_canonical h).bind fun ⟨l, m⟩ h => .skip fun _ => ?_
  simp [h]

theorem clrdBody_canonical (h : m.Canonical) {d a b e} : Chk.Sat Mach.Canonical (clrdBody d a b e m) := by
  unfold clrdBody
  refine (Env.src2_canonical h).bind fun ⟨w, v, m⟩ h => (Env.dst_canonical h).bind fun ⟨l, m⟩ h => .skip fun g =>
    .skip fun _ => ?_
  dsimp only
  split
  · simp [h]
  refine .skip fun _ => .skip fun _ => ?_
  split
  · exact .stop
  · exact .stop
  refine .skip fun _ => ?_
  split
  · simp [h]
  · exact .skip fun _ => by simp [h]

@[simp] theorem clrdDiffers_canonical_iff {t g ch from_} : (clrdDiffers t g ch from_ m).Canonical ↔ m.Canonical := by
  simp only [clrdDiffers]
  split <;> simp

@[simp] theorem clrdSend_canonical (h : m.Canonical) {t c op g ch src x} : (clrdSend t c op g ch src x m).Canonical := by
  simp only [clrdSend]
  split
  · exact h
  split
  next he => exact (engineRead_canonical h).of_wait he
  next he => exact (engineRead_canonical h).of_lost he
  next he =>
  have hm := (engineRead_canonical h).of_ok he
  split <;> simp [hm]

@[simp] theorem Mach.takeWrote_canonical_iff {g ch live} : (m.takeWrote g ch live).Canonical ↔ m.Canonical := by
  simp [Mach.takeWrote]

@[simp] theorem clrdConfirm_canonical_iff {t g ch} : (clrdConfirm t g ch m).Canonical ↔ m.Canonical := by
  simp only [clrdConfirm]
  repeat' split
  all_goals simp

@[simp] theorem serveClrd_canonical (h : m.Canonical) {t c op g ch src} : (serveClrd t c op g ch src m).Canonical := by
  simp only [serveClrd]
  split
  · simp [h]
  split
  · simp [h]
  split
  · exact h
  split
  · simp [h]
  split
  · simp [h]
  split
  · split
    · exact h
    split
    next he => exact (engineWrite_canonical h).of_wait he
    next he => exact (engineWrite_canonical h).of_lost he
    next he =>
    have hm := (engineWrite_canonical h).of_ok he
    exact Mach.onCollective_canonical_iff.2 (by split <;> simp [hm])
  · simp [h]

@[simp] theorem childPartial_canonical_iff {t g ch p w} : (childPartial t g ch p w m).Canonical ↔ m.Canonical := by
  simp only [childPartial]
  repeat' split
  all_goals simp

@[simp] theorem rootConfirmation_canonical_iff {t g ch w} : (rootConfirmation t g ch w m).Canonical ↔ m.Canonical := by
  simp only [rootConfirmation]
  split <;> simp

/-! ### Accesses of other packages -/

@[simp] theorem Mach.tell_canonical_iff {p r} : (m.tell p r).Canonical ↔ m.Canonical := by simp [Mach.tell]

@[simp] theorem Mach.losePeer_canonical_iff {dev ctx a} : (m.losePeer dev ctx a).Canonical ↔ m.Canonical := by
  simp [Mach.losePeer]

@[simp] theorem Mach.failPeer_canonical_iff {p who f} : (m.failPeer p who f).Canonical ↔ m.Canonical := by
  simp only [Mach.failPeer]
  split <;> simp

theorem peerRun_canonical (h : m.Canonical) {t p who dev store a n} {f : List (Nat × Nat × Nat) → Mach}
    (hf : ∀ ps, (f ps).Canonical) : (peerRun t m p who dev store a n f).Canonical := by
  simp only [peerRun]
  repeat' split
  all_goals simp [h, hf]

@[simp] theorem peerAdmit_canonical_iff {t p who op w32 dev va} :
    (peerAdmit t p who op w32 dev va m).Canonical ↔ m.Canonical := by
  simp only [peerAdmit]
  split <;> simp

@[simp] theorem peerAcc_canonical (h : m.Canonical) {p who a} : (peerAcc p who a m).Canonical := by
  simp only [peerAcc]
  repeat' split
  all_goals simp [h]

@[simp] theorem Mach.passShare_canonical_iff {r h' h''} : (m.passShare r h' h'').Canonical ↔ m.Canonical := by
  simp [Mach.passShare]

/-- A channel closed if none of its sends is on its way. -/
@[simp] theorem Mach.closeChannel_getD_canonical (h : m.Canonical) {t num} : ((Mach.closeChannel t m num).getD m).Canonical := by
  cases hc : Mach.closeChannel t m num with
  | none => exact h
  | some m' => exact Mach.closeChannel_canonical h hc

@[simp] theorem peerBind_canonical (h : m.Canonical) {t b} : (peerBind t m b).Canonical := by
  simp only [peerBind]
  repeat' split
  all_goals simp [h]

@[simp] theorem peerAccess_canonical (h : m.Canonical) {t p req} : (peerAccess t p req m).Canonical := by
  simp only [peerAccess]
  split
  · exact h
  cases req with
  | read who dev a n =>
    refine peerRun_canonical h fun ps => ?_
    split <;> simp [h]
  | write who dev a data =>
    refine peerRun_canonical h fun ps => ?_
    split <;> simp [h, Mem.ofBytes_wf]
  | payload num slot data =>
    dsimp only
    repeat' split
    all_goals simp [h]
  | _ =>
    dsimp only
    repeat' split
    all_goals simp [h]

@[simp] theorem Mach.removeMember_canonical_iff {p f} : (m.removeMember p f).Canonical ↔ m.Canonical := by
  simp [Mach.removeMember]

@[simp] theorem Mach.dropAdmitted_canonical_iff {f} : (m.dropAdmitted f).Canonical ↔ m.Canonical := by simp [Mach.dropAdmitted]

@[simp] theorem Mach.cutCopies_canonical (h : m.Canonical) {p} : (m.cutCopies p).Canonical := by
  refine foldl_canonical h fun m c h => foldl_canonical h fun m op h => ?_
  split
  · simp [h]
  · exact h

@[simp] theorem Mach.cutSaved_canonical (h : m.Canonical) {p} : (m.cutSaved p).Canonical := by
  refine foldl_canonical h fun m s h => ?_
  have counted (l : List Op) : (l.foldl (fun m _ => m.portError (dieOf s.core) s.ctx p) m).Canonical :=
    foldl_canonical h fun m _ h => Mach.portError_canonical_iff.2 h
  exact .ite (counted _) (Mach.writeObjs_canonical (.parts (counted _) (counted _) (counted _) (counted _)))

@[simp] theorem Mach.returnFrom_canonical (h : m.Canonical) {p} : (m.returnFrom p).Canonical :=
  foldl_canonical h fun _ _ h => foldl_canonical h fun _ _ h => Mach.returnShareOf_canonical h

@[simp] theorem unreachableVerdict_canonical (h : m.Canonical) {t p} : (unreachableVerdict t p m).Canonical := by
  have broken {m : Mach} (h : m.Canonical) (l : List Nat) : (l.foldl (fun m n => m.breakChannel n true) m).Canonical :=
    foldl_canonical h fun m n h => Mach.breakChannel_canonical h
  have cut {m : Mach} (h : m.Canonical) : (((m.cutCopies p).returnFrom p).cutSaved p).Canonical :=
    Mach.cutSaved_canonical (Mach.returnFrom_canonical (Mach.cutCopies_canonical h))
  simp only [unreachableVerdict]
  split
  · exact h
  · exact Mach.dropAdmitted_canonical_iff.2 (Mach.removeMember_canonical_iff.2 (broken
      (cut (Mach.canonical_parts_iff.2 h)) _))

@[simp] theorem peerContextLost_canonical (h : m.Canonical) {p ctx} : (peerContextLost p ctx m).Canonical := by
  have broken {m : Mach} (h : m.Canonical) (l : List Nat) : (l.foldl (fun m n => m.breakChannel n false) m).Canonical :=
    foldl_canonical h fun m n h => Mach.breakChannel_canonical h
  simp [peerContextLost, h, broken]

/-! ### Events of a core's time -/

theorem Mach.onListed_canonical (h : m.Canonical) {c} {f : Core → Core} (hf : ∀ k : Core, (f k).local_ = k.local_) :
    (m.onListed c f).Canonical := .ite (onCore_canonical h hf) h

@[simp] theorem clhHoldEnd_canonical (h : m.Canonical) {c q} : (clhHoldEnd c q m).Canonical :=
  Mach.onListed_canonical h fun k => by split <;> simp

@[simp] theorem sleepWake_canonical (h : m.Canonical) {c q} : (sleepWake c q m).Canonical :=
  Mach.onListed_canonical h fun k => by split <;> simp

@[simp] theorem timedResultLands_canonical (h : m.Canonical) {c q} : (timedResultLands c q m).Canonical :=
  Mach.onListed_canonical h fun k => by split <;> simp

@[simp] theorem replayFreezeEnd_canonical (h : m.Canonical) {c} : (replayFreezeEnd c m).Canonical :=
  Mach.onListed_canonical h fun k => by split <;> simp

@[simp] theorem evictionFreezeEnd_canonical (h : m.Canonical) {c} : (evictionFreezeEnd c m).Canonical :=
  Mach.onListed_canonical h fun k => by split <;> rfl

@[simp] theorem Mach.loadEnds_canonical (h : m.Canonical) {t c op ea} : (Mach.loadEnds t m c op ea).Canonical := by
  simp only [Mach.loadEnds]
  split <;> simp [h]

@[simp] theorem serve_canonical (h : m.Canonical) {t c op} : (serve t c op m).Canonical := by
  simp only [serve]
  repeat' split
  all_goals simp [h]

@[simp] theorem serveIf_canonical (h : m.Canonical) {queue t c o} : (serveIf queue t c o m).Canonical := by
  simp only [serveIf]
  split <;> simp [h]

@[simp] theorem reencode_canonical (h : m.Canonical) {die tile most width errs} :
    (reencode die tile most width errs m).Canonical :=
  foldl_canonical (foldl_canonical h fun _ _ h => bankError_canonical_iff.2 (.parts h h h h)) fun _ _ h => bankError_canonical_iff.2 h

@[simp] theorem retentionEntry_canonical (h : m.Canonical) {t die tile errs} :
    (retentionEntry t die tile errs m).Canonical := by
  simp only [retentionEntry]
  split <;> simp [h]

@[simp] theorem retentionExit_canonical (h : m.Canonical) {t die tile errs} :
    (retentionExit t die tile errs m).Canonical := by
  simp only [retentionExit]
  split <;> simp [h]

/-! ### Conversions and random numbers -/

@[simp] theorem Env.draws_canonical_iff {e : Env} {drawing} : (e.draws drawing m).2.Canonical ↔ m.Canonical := by
  simp only [Env.draws]
  repeat' split
  all_goals simp

theorem cvtBody_canonical (h : m.Canonical) {d sat mode g a e} : Chk.Sat Mach.Canonical (cvtBody d sat mode g a e m) := by
  unfold cvtBody
  refine .skip fun v => (Env.heads_canonical h).bind fun ⟨vs, popped⟩ hp => .skip fun _ => .skip fun _ => ?_
  have drawn {b : Bool} : (e.draws b (if (srcQueue a).2 then m else popped)).2.Canonical := Env.draws_canonical_iff.2 (.ite h hp)
  dsimp only
  split
  · exact Env.vres_canonical drawn
  · exact Env.vres_canonical drawn
  · simp

theorem mxqBody_canonical (h : m.Canonical) {d mode g a e} : Chk.Sat Mach.Canonical (mxqBody d mode g a e m) := by
  unfold mxqBody
  refine .skip fun v => (Env.heads_canonical h).bind fun ⟨vs, m⟩ h => .skip fun _ => .skip fun _ => .skip fun _ => ?_
  dsimp only
  split
  · simp
  refine (Env.dstV_canonical (Env.draws_canonical_iff.2 h)).bind fun ⟨l₁, m⟩ h => (Env.dstV_canonical h).bind fun ⟨l₂, m⟩ h => ?_
  simp [h]

theorem mxxBody_canonical (h : m.Canonical) {d g a b e} : Chk.Sat Mach.Canonical (mxxBody d g a b e m) := by
  unfold mxxBody
  refine (Env.srcV2_canonical h).bind fun ⟨l, m⟩ h => .skip fun _ => .skip fun _ => .skip fun _ => ?_
  exact Env.vres_canonical h

theorem fscBody_canonical (h : m.Canonical) {d mode a b e} : Chk.Sat Mach.Canonical (fscBody d mode a b e m) := by
  unfold fscBody
  refine (Env.srcV2_canonical h).bind fun ⟨l, m⟩ h => .skip fun _ => ?_
  dsimp only
  split <;> exact .skip fun _ => .skip fun _ => Env.vres_canonical (Env.draws_canonical_iff.2 h)

theorem fxpBody_canonical (h : m.Canonical) {d a e} : Chk.Sat Mach.Canonical (fxpBody d a e m) := by
  unfold fxpBody
  refine (Env.srcV_canonical h).bind fun ⟨x, m⟩ h => .skip fun _ => ?_
  exact Env.vres_canonical h

theorem fclsBody_canonical (h : m.Canonical) {d a e} : Chk.Sat Mach.Canonical (fclsBody d a e m) := by
  unfold fclsBody
  refine (Env.srcV_canonical h).bind fun ⟨x, m⟩ h => .skip fun _ => ?_
  exact Env.vres_canonical h

theorem srsdSetBody_canonical (h : m.Canonical) {a b e} : Chk.Sat Mach.Canonical (srsdSetBody a b e m) := by
  unfold srsdSetBody
  refine (Env.src2_canonical h).bind fun ⟨x, y, m⟩ h => ?_
  simp [h]

theorem srsdStepBody_canonical (h : m.Canonical) {d e} : Chk.Sat Mach.Canonical (srsdStepBody d e m) := by
  unfold srsdStepBody
  refine (Env.dst_canonical h).bind fun ⟨l, m⟩ h => ?_
  simp [h]

theorem rndmBody_canonical (h : m.Canonical) {d f e} : Chk.Sat Mach.Canonical (rndmBody d f e m) := by
  have hd : (e.draws true m).2.Canonical := Env.draws_canonical_iff.2 h
  simpa only [rndmBody] using Env.vres_canonical hd

theorem vidxBody_canonical (h : m.Canonical) {d g a b e} : Chk.Sat Mach.Canonical (vidxBody d g a b e m) := by
  unfold vidxBody
  refine (Env.src2_canonical h).bind fun ⟨x, y, m⟩ h => ?_
  exact Env.vres_canonical h

end
end Sys2Proof.Machine
end

