-- ==== Sys2Proof/Proofs/CanonicalHost.lean ====
section
/-! SUPPORT for the statement that every step keeps the memories canonical: the hand node, save and restore, and trust. -/

namespace Sys2Proof.Machine

section
variable {m : Mach}

/-! ### The hand node -/

@[simp] theorem Mach.occupy_canonical_iff {r p victim} : (m.occupy r p victim).Canonical ↔ m.Canonical := by simp [Mach.occupy]

@[simp] theorem Mach.setHand_canonical_iff {r h'} : (m.setHand r h').Canonical ↔ m.Canonical := by simp [Mach.setHand]

@[simp] theorem chooseStep_canonical_iff {t r n x excl counted ns} :
    (chooseStep t r n x excl counted ns m).Canonical ↔ m.Canonical := by
  simp only [chooseStep]
  repeat' split
  all_goals simp

theorem handTake_canonical (h : m.Canonical) {r tkt ctx rid m'} (hm : handTake r tkt ctx rid m = some m') : m'.Canonical := by
  simp only [handTake] at hm
  repeat' split at hm
  all_goals cases hm
  · exact h
  · exact Mach.setKey_canonical_iff.2 h

@[simp] theorem Mach.repark_canonical_iff {r tkt ctx} : (m.repark r tkt ctx).Canonical ↔ m.Canonical := by simp [Mach.repark]

@[simp] theorem handFail_canonical (h : m.Canonical) {t r w ctx close} : (handFail t r w ctx close m).Canonical :=
  endRequest_canonical (Mach.setHand_canonical_iff.2 (Mach.repark_canonical_iff.2 (.ite (by simp [h]) h)))

theorem makeWaybill_eq_canonical (h : m.Canonical) {ctx ds krid vrid hrid issuer hand code num} {m' : Mach}
    (hm : makeWaybill m ctx ds krid vrid hrid issuer hand = (code, num, m')) : m'.Canonical := by
  have h' : (makeWaybill m ctx ds krid vrid hrid issuer hand).2.2.Canonical := makeWaybill_canonical h
  rwa [hm] at h'

@[simp] theorem handOff_canonical (h : m.Canonical) {t r n x w pool excl counted} :
    (handOff t r n x w pool excl counted m).Canonical := by
  simp only [handOff]
  split
  · simp [h]
  · simp [h]
  split
  · split
    · simp [h]
    split
    · exact h
    next hk =>
    split
    · exact handTake_canonical h hk
    next hv =>
    have htaken := handTake_canonical (handTake_canonical h hk) hv
    have hm {key ctx a shape} : (openHandle t _ key ctx a shape).2.1.Canonical := openHandle_canonical htaken
    split
    · exact handFail_canonical hm
    split
    · exact Mach.loseAgent_canonical_iff.2 hm
    · exact handFail_canonical hm
    split
    next he => exact Mach.setHand_canonical_iff.2 (makeWaybill_eq_canonical hm he)
    next he =>
      have hm' := makeWaybill_eq_canonical hm he
      split
      · simp [hm']
      · exact handFail_canonical hm'
  · simp [h]

@[simp] theorem handMove_canonical (h : m.Canonical) {t r n x w pool num} :
    (handMove t r n x w pool num m).Canonical := by
  simp only [handMove]
  repeat' split
  all_goals simp [h]

@[simp] theorem handBody_canonical (h : m.Canonical) {t r n x y w} : (handBody t r n x y w m).Canonical := by
  simp only [handBody]
  repeat' split
  all_goals simp [h]

@[simp] theorem handFire_canonical (h : m.Canonical) {t r n} : (handFire t r n m).Canonical := by
  simp only [handFire]
  split
  · exact h
  split
  · exact fireNode_canonical h fun x y w => handBody_canonical h
  repeat' split
  all_goals simp [h]

/-! ### Save and restore -/

@[simp] theorem preemptionRequest_canonical_iff {c} : (preemptionRequest c m).Canonical ↔ m.Canonical := by
  simp only [preemptionRequest]
  repeat' split
  all_goals simp

@[simp] theorem Mach.putWords_canonical (h : m.Canonical) {pa ws} : (m.putWords pa ws).Canonical := by
  simp [Mach.putWords, h]

@[simp] theorem saveVectors_canonical (h : m.Canonical) {k pa} : (saveVectors k pa m).Canonical := by
  have written {m : Mach} (h : m.Canonical) {a n : Nat} {bs : List Byte} :
      (m.writeHome true a n (Mem.ofBytes bs)).Canonical := Mach.writeHome_canonical h (Mem.ofBytes_rising bs)
  refine foldl_canonical (foldl_canonical h fun m q h => foldl_canonical h fun m x h => ?_) fun m i h => written h
  split
  · exact written h
  · exact h

theorem tableImage_wf {n w : Nat} {b : SMap (BitVec w)} : (tableImage n b).wf = true :=
  List.foldrRecOn (motive := fun img => Mem.wf img = true) b _ rfl fun _ h _ _ => Mem.write_wf h _ _

theorem tableImage_rising {n w : Nat} {b : SMap (BitVec w)} : SMap.wf (tableImage n b) = true := (Mem.wf_iff.1 tableImage_wf).1

@[simp] theorem saveColumn_canonical (h : m.Canonical) {k pa} : (saveColumn k pa m).Canonical :=
  Mach.putWords_canonical (Mach.writeHome_canonical (Mach.writeHome_canonical h tableImage_rising) tableImage_rising)

@[simp] theorem moveEvicted_canonical (h : m.Canonical) {g pa} : (moveEvicted g pa m).Canonical := by
  refine .ite h (foldl_canonical h fun m x h => ?_)
  extract_lets src dst bad moved
  have hm : moved.Canonical := Mach.writeHome_canonical h (Mem.slice_rising h.2.1)
  exact .parts hm hm hm hm

@[simp] theorem writeSlot_canonical (h : m.Canonical) {t c g pa} : (writeSlot t c g pa m).Canonical := by
  have spilled {m : Mach} (h : m.Canonical) {off : Nat} {b : Option (SMap (BitVec 32))} :
      (match b with | some b => m.writeHome true (pa + off) 0x200000 (bankImage b) | none => m).Canonical := by
    split
    · exact Mach.writeHome_canonical h tableImage_rising
    · exact h
  unfold writeSlot
  extract_lets k moved header records vectors core spill
  have hrecords : records.Canonical :=
    foldl_canonical (Mach.putWords_canonical (moveEvicted_canonical h)) fun m q h => Mach.putWords_canonical h
  have hcore : core.Canonical := Mach.putWords_canonical (saveVectors_canonical hrecords)
  split
  next es ps _ =>
  extract_lets edges partials column spilt
  have hpartials : partials.Canonical :=
    foldl_canonical (Mach.putWords_canonical hcore) fun m x h => Mach.writeHome_canonical h (Mem.ofBytes_rising _)
  have hcolumn : column.Canonical := .ite hpartials (saveColumn_canonical hpartials)
  have hspilt : spilt.Canonical := spilled (spilled hcolumn)
  exact .parts hspilt hspilt hspilt hspilt

@[simp] theorem Core.landToStop_local (k : Core) : (k.landToStop).local_ = k.local_ := by
  simp only [Core.landToStop]
  simp [foldl_local]

@[simp] theorem Mach.spillLease_canonical (h : m.Canonical) {c} : (m.spillLease c).Canonical := by
  simp only [Mach.spillLease]
  split <;> simp [h]

@[simp] theorem groupSave_canonical (h : m.Canonical) {t c} : (groupSave t c m).Canonical := by
  have hs : ((m.spillLease c).onCore c Core.landToStop).Canonical := by simp [h]
  simp only [groupSave]
  repeat' split
  all_goals simp [h, hs]

@[simp] theorem Core.restored_local (k : Core) {s g view} : (k.restored s g view).local_ = k.local_ := by
  simp only [Core.restored]
  simp [foldl_local]

@[simp] theorem groupRestore_canonical (h : m.Canonical) {t c} : (groupRestore t c m).Canonical := by
  simp only [groupRestore]
  split
  · exact h
  split
  · split
    next s k _ hk =>
      have restored {g : Group} {v : List Hold} : ((m.setGroup s.group.gid .placed).setCore c (k.restored s g v)).Canonical :=
        setCore_canonical (Mach.setGroup_canonical_iff.2 h) (by rw [Core.restored_local, Core.withKernel_local hk]; exact h.core c)
      split
      · simp [h]
      · exact Mach.onSlots_canonical_iff.2 (.parts restored restored restored restored)
    · exact h
  · exact h

/-! ### Trust and the host's registers -/

theorem packageReset_canonical {s : State} (h : s.mach.Canonical) {b} : (packageReset b s).mach.Canonical := by
  have hr : Mach.reset.Canonical := ⟨rfl, rfl, rfl, fun _ => rfl⟩
  exact hr.withHost hr hr h.host_wf

@[simp] theorem topologyCompute_mach {s : State} {links} : (topologyCompute links s).mach = s.mach := by
  simp only [topologyCompute]
  repeat' split
  all_goals rfl

theorem State.opened_canonical {s s' : State} (h : s.mach.Canonical) (h' : s'.mach.Canonical) : (s.opened s').mach.Canonical := by
  unfold State.opened
  split
  · exact h'
  · exact h

theorem spdmRespond_canonical {s : State} (h : s.mach.Canonical) {version code p1 fixed data next} :
    (spdmRespond version code p1 fixed data next s).mach.Canonical := State.opened_canonical h (.parts h h h h)

theorem spdmError_canonical {s : State} (h : s.mach.Canonical) {code} : (spdmError code s).mach.Canonical :=
  State.opened_canonical h h

theorem spdmServe_canonical {s : State} (h : s.mach.Canonical) {ok code fixed data next} :
    (spdmServe ok code fixed data next s).mach.Canonical := by
  unfold spdmServe
  split
  · exact spdmRespond_canonical h
  · exact spdmError_canonical h

theorem getMeasurements_canonical {s : State} (h : s.mach.Canonical) {data} : (getMeasurements data s).mach.Canonical := by
  simp only [getMeasurements]
  split
  · exact spdmError_canonical h
  split
  · exact spdmError_canonical h
  · exact spdmRespond_canonical h

@[simp] theorem mailReply_mach {s : State} {status v} : (mailReply status v s).mach = s.mach := rfl

theorem create_canonical {s : State} (h : s.mach.Canonical) {a} : (create a s).mach.Canonical := by
  have tabled (l : List (Nat × Nat)) : (a.tables.foldl (fun m p => m.writeHome true p.1 1 (Mem.ofBytes [p.2]))
      (l.foldl (fun m p => m.zeroHome true p.1 p.2) s.mach)).Canonical :=
    foldl_canonical (foldl_canonical h fun m p h => Mach.zeroHome_canonical h) fun m p h =>
      Mach.writeHome_canonical h (Mem.ofBytes_rising _)
  simp only [create]
  split
  · exact h
  · exact .parts (tabled _) (tabled _) (tabled _) (tabled _)

theorem destroy_canonical {s : State} (h : s.mach.Canonical) {ctx} : (destroy ctx s).mach.Canonical := by
  simp only [destroy]
  split
  · exact h
  · have hm : (teardown s.trust ctx s.mach).2.Canonical := teardown_canonical h
    exact .parts hm hm hm hm

@[simp] theorem setcfg_mach {s : State} {smax fmin cap} : (setcfg smax fmin cap s).mach = s.mach := by
  unfold setcfg
  split <;> rfl

@[simp] theorem verify_mach {s : State} {ctx header leaves sig} : (verify ctx header leaves sig s).mach = s.mach := by
  simp only [verify]
  repeat' split
  all_goals rfl

@[simp] theorem dropm_mach {s : State} {ctx slot} : (dropm ctx slot s).mach = s.mach := by
  unfold dropm
  split <;> rfl

theorem mailRun_canonical {s : State} (h : s.mach.Canonical) {c} : (mailRun c s).mach.Canonical := by
  unfold mailRun
  split
  · simpa using h
  · exact create_canonical h
  · exact destroy_canonical h
  · simpa using h
  · simpa using h
  · simpa using h

theorem mailboxTurn_canonical {s : State} (h : s.mach.Canonical) : (mailboxTurn s).mach.Canonical := by
  have run {t : Trust} {c : Option MailCmd} : (mailRun c { s with trust := t }).mach.Canonical := by
    refine mailRun_canonical ?_
    exact h
  unfold mailboxTurn
  split
  · exact h
  · exact State.opened_canonical h run

theorem deviceWrite_canonical {s : State} (h : s.mach.Canonical) {func off data} : (deviceWrite func off data s).mach.Canonical := by
  unfold deviceWrite
  split
  · exact h
  split
  · simpa using submissionRecord_canonical h
  · exact h

@[simp] theorem deviceRead_mach {s : State} {func off n} : (deviceRead func off n s).mach = s.mach := rfl

@[simp] theorem powerMonitor_mach {s : State} {watts} : (powerMonitor watts s).mach = s.mach := by
  unfold powerMonitor
  split <;> rfl

@[simp] theorem moduleController_mach {s : State} {cap} : (moduleController cap s).mach = s.mach := by
  unfold moduleController
  split <;> rfl

@[simp] theorem freezeN_mach {s : State} : (freezeN s).mach = s.mach := rfl

theorem scanShift_canonical {s : State} (h : s.mach.Canonical) {n} : (scanShift n s).mach.Canonical := by
  unfold scanShift
  split
  · exact .parts h h h h
  · exact h

end
end Sys2Proof.Machine
end

