-- ==== Sys2Proof/Proofs/CanonicalExec.lean ====
section
/-! SUPPORT for the statement that every step keeps the memories canonical: every instruction keeps them. -/

namespace Sys2Proof.Machine

section
variable {s : State}

/-- An outcome whose next state, if it has one, has canonical memories. -/
def Stays (o : Host.Outcome State Fault Refusal) : Prop := ∀ s', o = .next s' → s'.mach.Canonical

theorem stays_next (h : s.mach.Canonical) : Stays (.next s) := fun _ hs => by cases hs; exact h

theorem stays_attemptAt (h : s.mach.Canonical) {e : Env} {i : Instr} {body : Env → Mach → Chk Mach}
    (hb : ∀ {m}, m.Canonical → (body e m).Sat Mach.Canonical) : Stays (attemptAt e i body s) :=
  fun _ hs => attemptAt_canonical h (fun _ h => hb h) hs

theorem stays_attempt (h : s.mach.Canonical) {i : Instr} {body : Env → Mach → Chk Mach}
    (hb : ∀ {e m}, m.Canonical → (body e m).Sat Mach.Canonical) : Stays (attempt i body s) := stays_attemptAt h hb

theorem stays_attemptNext (h : s.mach.Canonical) {i : Instr} {body : Env → Mach → Chk Mach}
    (hb : ∀ {e m}, m.Canonical → (body e m).Sat Mach.Canonical) : Stays (attemptNext i body s) :=
  stays_attempt h fun h => (hb h).bind fun _ h => Chk.sat_ok.2 (Env.advance_canonical_iff.2 h)

theorem State.canonical_ite {p : Prop} [Decidable p] {s₁ s₂ : State} (h₁ : s₁.mach.Canonical) (h₂ : s₂.mach.Canonical) :
    (if p then s₁ else s₂).mach.Canonical := by
  split
  · exact h₁
  · exact h₂

/-- A reserved word raises ILLOP, but one of ERRQ.sum's runs its checks (R47 to R49). -/
theorem execIllop_stays (h : s.mach.Canonical) {w} : Stays (execIllop w s) := by
  unfold execIllop
  split
  · exact stays_attemptAt h fun h => errqSumBody_canonical h
  · exact stays_attempt h fun h => Chk.sat_error.2 trivial

theorem exec_stays (h : s.mach.Canonical) (i : Instr) : Stays (exec i s) := by
  cases i with dsimp only [exec]
  | nop => exact stays_attemptNext h fun h => Chk.sat_ok.2 (Env.finishNow_canonical_iff.2 h)
  | brcNz | brcZ => exact stays_attempt h fun h => brcBody_canonical h
  | jmp => exact stays_attempt h fun h => Chk.sat_ok.2 (Env.branch_canonical_iff.2 h)
  | call => exact stays_attempt h fun h => callBody_canonical h
  | ret => exact stays_attempt h fun h => retBody_canonical h
  | loop => exact stays_attempt h fun h => loopBody_canonical h
  | lbrk => exact stays_attempt h fun h => lbrkBody_canonical h
  | tkw => exact stays_attemptNext h fun h => tkwBody_canonical h
  | tks => exact stays_attemptNext h fun h => tksBody_canonical h
  | qopCnt | qopTcnt => exact stays_attemptNext h fun h => Env.ctlResult_canonical h
  | qopDrop => exact stays_attemptNext h fun h => qopDropBody_canonical h
  | qopClr => exact stays_attemptNext h fun h => qopClrBody_canonical h
  | lmov => exact stays_attemptNext h fun h => (Env.src_canonical h).bind fun _ h => Env.ctlResult_canonical h
  | clh => exact stays_attempt h fun h => clhBody_canonical h
  | yield => exact stays_attempt h fun h => yieldBody_canonical h
  | exit => exact stays_attempt h fun h => exitBody_canonical h
  | sleep => exact stays_attempt h fun h => sleepBody_canonical h
  | add | sub | mul | div | and | or | xor | shf | cmp | minmax | agen =>
    exact stays_attemptNext h fun h => timed2_canonical h
  | sel => exact stays_attemptNext h fun h => selBody_canonical h
  | bits | ext => exact stays_attemptNext h fun h => by split; exacts [timed2_canonical h, timed1_canonical h]
  | li => exact stays_attemptNext h fun h => (Env.dst_canonical h).bind fun _ h => Chk.sat_ok.2 (Env.timed_canonical_iff.2 h)
  | ldl => exact stays_attemptNext h fun h => ldlBody_canonical h
  | stl => exact stays_attemptNext h fun h => stlBody_canonical h
  | ldg | ldd => exact stays_attemptNext h fun h => stagedLoadBody_canonical h
  | stg | std | stb => exact stays_attemptNext h fun h => postedStoreBody_canonical h
  | ldb => exact stays_attemptNext h fun h => ldbBody_canonical h
  | pfd => exact stays_attemptNext h fun h => pfdBody_canonical h
  | loc => exact stays_attemptNext h fun h => locBody_canonical h
  | bopn => exact stays_attemptNext h fun h => bopnBody_canonical h
  | bshr => exact stays_attemptNext h fun h => bshrBody_canonical h
  | bfre | bfreClose => exact stays_attemptNext h fun h => bfreBody_canonical h
  | binv => exact stays_attemptNext h fun h => binvBody_canonical h
  | bqry => exact stays_attemptNext h fun h => bqryBody_canonical h
  | bgrw | bgrwRel => exact stays_attemptNext h fun h => bgrwBody_canonical h
  | leaseAcq => exact stays_attemptNext h fun h => leaseAcqBody_canonical h
  | leaseRel => exact stays_attemptNext h fun h => leaseRelBody_canonical h
  | wld => exact stays_attemptNext h fun h => wldBody_canonical h
  | wswp => exact stays_attemptNext h fun h => wswpBody_canonical h
  | mxh => exact stays_attemptNext h fun h => mxhBody_canonical h
  | mxa => exact stays_attemptNext h fun h => mxaBody_canonical h
  | mxsq => exact stays_attemptNext h fun h => mxsqBody_canonical h
  | mxmd => exact stays_attemptNext h fun h => mxmdBody_canonical h
  | mxgr => exact stays_attemptNext h fun h => mxgrBody_canonical h
  | mxdr => exact stays_attemptNext h fun h => mxdrBody_canonical h
  | mxdrKeep => exact stays_attemptNext h fun h => mxdrKeepBody_canonical h
  | mxz => exact stays_attemptNext h fun h => mxzBody_canonical h
  | mvk => exact stays_attemptNext h fun h => mvkBody_canonical h
  | mvq => exact stays_attemptNext h fun h => mvqBody_canonical h
  | mvv => exact stays_attemptNext h fun h => mvvBody_canonical h
  | mvm => exact stays_attemptNext h fun h => mvmBody_canonical h
  | mvmOff => exact stays_attemptNext h fun h => mvmOffBody_canonical h
  | mvd => exact stays_attemptNext h fun h => mvdBody_canonical h
  | vadd | vsub | vmul => exact stays_attemptNext h fun h => arithBody_canonical h
  | vfma => exact stays_attemptNext h fun h => vfmaBody_canonical h
  | vmnx => exact stays_attemptNext h fun h => vmnxBody_canonical h
  | vcmp => exact stays_attemptNext h fun h => vcmpBody_canonical h
  | vsel => exact stays_attemptNext h fun h => vselBody_canonical h
  | vlog => exact stays_attemptNext h fun h => vlogBody_canonical h
  | vshf => exact stays_attemptNext h fun h => vshfBody_canonical h
  | vprm => exact stays_attemptNext h fun h => by split; exacts [vprm1Body_canonical h, vprm2Body_canonical h]
  | vred => exact stays_attemptNext h fun h => vredBody_canonical h
  | vwid => exact stays_attemptNext h fun h => vwidBody_canonical h
  | vnar => exact stays_attemptNext h fun h => vnarBody_canonical h
  | vbrd => exact stays_attemptNext h fun h => vbrdBody_canonical h
  | vmsk => exact stays_attemptNext h fun h => vmskBody_canonical h
  | vscn => exact stays_attemptNext h fun h => vscnBody_canonical h
  | cvt => exact stays_attemptNext h fun h => cvtBody_canonical h
  | mxq => exact stays_attemptNext h fun h => mxqBody_canonical h
  | mxx => exact stays_attemptNext h fun h => mxxBody_canonical h
  | srsdSet => exact stays_attemptNext h fun h => srsdSetBody_canonical h
  | srsdStep => exact stays_attemptNext h fun h => srsdStepBody_canonical h
  | sfa | sfb | sfc => exact stays_attemptNext h fun h => specialBody_canonical h
  | smxs => exact stays_attemptNext h fun h => smxsBody_canonical h
  | vlane => exact stays_attemptNext h fun h => vlaneBody_canonical h
  | vidx => exact stays_attemptNext h fun h => vidxBody_canonical h
  | fcls => exact stays_attemptNext h fun h => fclsBody_canonical h
  | fsc => exact stays_attemptNext h fun h => by split; exacts [fxpBody_canonical h, fscBody_canonical h]
  | rndm => exact stays_attemptNext h fun h => rndmBody_canonical h
  | vdot => exact stays_attemptNext h fun h => vdotBody_canonical h
  | cpy => exact stays_attemptNext h fun h => cpyBody_canonical h
  | cacc => exact stays_attemptNext h fun h => caccBody_canonical h
  | cwt | cwtTest => exact stays_attemptNext h fun h => cwtBody_canonical h
  | cbnd => exact stays_attemptNext h fun h => cbndBody_canonical h
  | cbndOff => exact stays_attemptNext h fun h => cbndOffBody_canonical h
  | rini => exact stays_attemptNext h fun h => riniBody_canonical h
  | rqry => exact stays_attemptNext h fun h => rqryBody_canonical h
  | rwfl => exact stays_attemptNext h fun h => rwflBody_canonical h
  | rwfr => exact stays_attemptNext h fun h => rwfrBody_canonical h
  | rclm => exact stays_attemptNext h fun h => rclmBody_canonical h
  | rpub => exact stays_attemptNext h fun h => rpubBody_canonical h
  | rrel => exact stays_attemptNext h fun h => rrelBody_canonical h
  | rlys => exact stays_attemptNext h fun h => rlysBody_canonical h
  | rlyg | rlygAdd | rlygRet => exact stays_attemptNext h fun h => rlygBody_canonical h
  | rlyw => exact stays_attemptNext h fun h => rlywBody_canonical h
  | hoff => exact stays_attemptNext h fun h => hoffBody_canonical h
  | hctlSeal | hctlCommit | hctlCancel | hctlDrop => exact stays_attemptNext h fun h => hctlBody_canonical h
  | hctlQry => exact stays_attemptNext h fun h => hctlQryBody_canonical h
  | cwld => exact stays_attemptNext h fun h => cwldBody_canonical h
  | lendGrp | lendPark => exact stays_attemptNext h fun h => lendBody_canonical h
  | retn => exact stays_attemptNext h fun h => retnBody_canonical h
  | splitAddr => exact stays_attemptNext h fun h => splitAddrBody_canonical h
  | splitRd | splitWr => exact stays_attemptNext h fun h => splitBody_canonical h
  | splitCmn => exact stays_attemptNext h fun h => splitCmnBody_canonical h
  | joinAddr => exact stays_attemptNext h fun h => joinAddrBody_canonical h
  | joinShr => exact stays_attemptNext h fun h => joinShrBody_canonical h
  | joinCmn => exact stays_attemptNext h fun h => joinCmnBody_canonical h
  | joinRing => exact stays_attemptNext h fun h => joinRingBody_canonical h
  | keywArr => exact stays_attemptNext h fun h => keywArrBody_canonical h
  | keywTkt => exact stays_attemptNext h fun h => keywTktBody_canonical h
  | keywFree => exact stays_attemptNext h fun h => keywFreeBody_canonical h
  | keyq => exact stays_attemptNext h fun h => keyqBody_canonical h
  | fence => exact stays_attemptNext h fun h => fenceBody_canonical h
  | trap => exact stays_attempt h fun h => trapBody_canonical h
  | tret => exact stays_attempt h fun h => tretBody_canonical h
  | srr => exact stays_attemptNext h fun h => srrBody_canonical h
  | srw => exact stays_attemptNext h fun h => srwBody_canonical h
  | lnchNode => exact stays_attemptNext h fun h => lnchNodeBody_canonical h
  | lnchReq => exact stays_attemptNext h fun h => lnchReqBody_canonical h
  | errqRd => exact stays_attemptNext h fun h => errqRdBody_canonical h
  | errqClr => exact stays_attemptNext h fun h => errqClrBody_canonical h
  | errqSum => exact stays_attemptNext h fun h => errqSumBody_canonical h
  | clrd => exact stays_attemptNext h fun h => clrdBody_canonical h
  | clgtSet => exact stays_attemptNext h fun h => clgtSetBody_canonical h
  | clgtClr => exact stays_attemptNext h fun h => clgtClrBody_canonical h
  | clgtQry => exact stays_attemptNext h fun h => clgtQryBody_canonical h
  | clhHoldEnd => exact stays_next (clhHoldEnd_canonical h)
  | sleepWake => exact stays_next (sleepWake_canonical h)
  | timedResultLands => exact stays_next (timedResultLands_canonical h)
  | pendingEntryLands | handshakeAcknowledged => exact stays_next (serveIf_canonical h)
  | evictionFreezeEnd => exact stays_next (evictionFreezeEnd_canonical h)
  | postedWriteAck => exact stays_next (postedWriteAck_canonical h)
  | retentionEntry => exact stays_next (retentionEntry_canonical h)
  | retentionExit => exact stays_next (retentionExit_canonical h)
  | leaseGrant => exact stays_next (leaseGrant_canonical h)
  | leaseBudgetEnd => exact stays_next (leaseBudgetEnd_canonical h)
  | arrayPass => exact stays_next (arrayPass_canonical h)
  | replayFreezeEnd => exact stays_next (replayFreezeEnd_canonical h)
  | copyComplete => exact stays_next (copyComplete_canonical h)
  | arrivalElementLands => exact stays_next (arrivalElement_canonical h)
  | accumulateApplied => exact stays_next (accumulateApplied_canonical h)
  | relayPayloadLands => exact stays_next (relayPayloadLands_canonical h)
  | channelBreak => exact stays_next (channelBreak_canonical h)
  | handoffBlockMove => exact stays_next (handoffBlockMove_canonical h)
  | handoffCompletionEvent => exact stays_next (handoffCompletion_canonical h)
  | cwldChunk => exact stays_next (cwldChunk_canonical h)
  | keyArrival => exact stays_next (keyArrival_canonical h)
  | watchdog => exact stays_next (.ite (watchdog_canonical_iff.2 h) h)
  | submissionRecord => exact stays_next (submissionRecord_canonical h)
  | requestAdmission => exact stays_next (requestAdmission_canonical h)
  | requestAging => exact stays_next (requestAging_canonical_iff.2 h)
  | kernFire => exact stays_next (fireNode_canonical h fun _ _ _ => kernBody_canonical h)
  | kernFinish => exact stays_next (kernFinish_canonical h)
  | xferFire => exact stays_next (fireNode_canonical h fun _ _ _ => xferBody_canonical h)
  | ifFire | whileFire | switchFire => exact stays_next (fireNode_canonical h fun _ _ _ => condBody_canonical h)
  | relayFire => exact stays_next (fireNode_canonical h fun _ _ _ => relayBody_canonical h)
  | handFire => exact stays_next (handFire_canonical h)
  | waitFire => exact stays_next (fireNode_canonical h fun _ _ _ => waitBody_canonical h)
  | doneFire => exact stays_next (doneFire_canonical h)
  | groupPlacement => exact stays_next (State.canonical_ite (groupPlacement_canonical h) h)
  | kernelImageLoad => exact stays_next (kernelImageLoad_canonical h)
  | drainingEnd => exact stays_next (drainingEnd_canonical h)
  | preemptionRequest => exact stays_next (preemptionRequest_canonical_iff.2 h)
  | preemptTimeoutBoundary c q =>
    exact stays_next (State.canonical_ite (setCore_canonical h (by simpa using h.core c)) h)
  | groupSave => exact stays_next (groupSave_canonical h)
  | groupRestore => exact stays_next (State.canonical_ite (groupRestore_canonical h) h)
  | correctedError => exact stays_next (correctedError_canonical h)
  | uncorrectableError => exact stays_next (uncorrectableError_canonical_iff.2 h)
  | contextLoss => exact stays_next (contextLoss_canonical h)
  | snaggingAudit => exact stays_next (snaggingAudit_canonical_iff.2 h)
  | unreachableVerdict => exact stays_next (unreachableVerdict_canonical h)
  | packageReset => exact stays_next (packageReset_canonical h)
  | topologyCompute | powerMonitor | freezeN | moduleController => exact stays_next (by simpa using h)
  | getVersion => exact stays_next (spdmRespond_canonical h)
  | getCapabilities | negotiateAlgorithms | getDigests | getCertificate | challenge | keyExchange | finish | heartbeat
  | endSession => exact stays_next (spdmServe_canonical h)
  | getMeasurements => exact stays_next (getMeasurements_canonical h)
  | spdmUnsupported => exact stays_next (spdmError_canonical h)
  | create => exact stays_next (State.opened_canonical h (create_canonical h))
  | destroy => exact stays_next (State.opened_canonical h (destroy_canonical h))
  | setcfg | verify | dropm => exact stays_next (State.opened_canonical h (by simpa using h))
  | scanShift => exact stays_next (scanShift_canonical h)
  | illop => exact execIllop_stays h
  | corefail => exact stays_next (coreFail_canonical h)
  | hostReadAbort => exact stays_next (hostReadAbort_canonical h)
  | peerContextAccess => exact stays_next (peerAccess_canonical h)
  | peerContextLost => exact stays_next (peerContextLost_canonical h)
  | childPartial => exact stays_next (childPartial_canonical_iff.2 h)
  | rootConfirmation => exact stays_next (rootConfirmation_canonical_iff.2 h)

end
end Sys2Proof.Machine
end

