-- ==== Sys2Proof/Proofs/CanonicalStep.lean ====
section
/-! SUPPORT for the statement that every step keeps the memories canonical: the parts of a step, and the invariant. -/

namespace Sys2Proof.Machine

section
variable {m : Mach} {s : State}

/-! ### What ends a cycle -/

@[simp] theorem Mach.applyLater_canonical (h : m.Canonical) {c l} : (m.applyLater c l).Canonical := by
  cases l with
  | localWrite a bs => exact setCore_canonical h (Mem.write_wf (h.core c) a bs)
  | post n => exact onCore_canonical h fun k => by split <;> rfl
  | slotState => exact Mach.onRegion_canonical_iff.2 h
  | seed | step => exact onCore_canonical h fun k => rfl
  | dropHold | dropRegion => exact onCore_canonical h fun k => by simp

@[simp] theorem Core.wakeSeq_local (k : Core) {q} : (k.wakeSeq q).local_ = k.local_ := by
  unfold Core.wakeSeq
  split <;> simp

@[simp] theorem Core.advanceSeq_local (k : Core) {q} : (k.advanceSeq q).local_ = k.local_ := by
  simp only [Core.advanceSeq]
  split <;> simp

theorem Mach.tick_canonical (h : m.Canonical) {c} : (m.tick c).Canonical := by
  unfold Mach.tick
  split
  · exact onCore_canonical h fun k => by simp
  · extract_lets l emptied drained posted
    have hdrained : drained.Canonical :=
      foldr_canonical (onCore_canonical h fun _ => rfl) fun _ _ h => Mach.applyLater_canonical h
    have hposted : posted.Canonical := foldl_canonical hdrained fun _ _ h => Mach.applyLater_canonical h
    refine onCore_canonical hposted fun k => ?_
    simp [foldl_local]

theorem State.pass_canonical (h : s.mach.Canonical) : s.pass.mach.Canonical := by
  unfold State.pass
  split
  · exact h
  · exact h
  · exact h
  · exact h
  · exact .ite (.parts h h h h) h

/-! ### A turn of a sequencer -/

theorem stays_thenPass {o : Host.Outcome State Fault Refusal} (h : Stays o) : Stays (thenPass o) := by
  cases o with
  | next s' => exact stays_next (State.pass_canonical (h s' rfl))
  | _ => exact fun _ hs => nomatch hs

theorem seqPart_stays (h : s.mach.Canonical) : Stays (seqPart s) := by
  simp only [seqPart]
  split
  · exact stays_next (setCore_canonical h (by simpa using h.core s.cur))
  split
  · split
    · exact stays_next (takeTrap_canonical_iff.2 h)
    split
    · exact stays_next (Env.halt_canonical h)
    · exact exec_stays h _
  split
  · exact stays_next (countStall_canonical_iff.2 h)
  · exact stays_next h

theorem State.takesFirst_canonical (h : s.mach.Canonical) : s.takesFirst.mach.Canonical := by
  unfold State.takesFirst
  split
  · exact h
  refine List.foldlRecOn (motive := fun s : State => s.mach.Canonical) _ _ h fun s h q _ => ?_
  dsimp only
  split
  · exact State.canonical_ite (setCore_canonical h (by simpa using h.core s.cur)) h
  · exact h

theorem cyclePart_stays (h : s.mach.Canonical) : Stays (cyclePart s) := by
  unfold cyclePart
  split
  · exact stays_next h
  split
  · exact stays_next (State.pass_canonical (Mach.tick_canonical h))
  · exact stays_thenPass (seqPart_stays (State.takesFirst_canonical h))
  · exact stays_thenPass (seqPart_stays h)

/-! ### A step -/

theorem waitPart_canonical (h : s.mach.Canonical) : (waitPart s).mach.Canonical :=
  State.canonical_ite (State.pass_canonical (Mach.takeWaiting_canonical h)) h

theorem turnPart_stays (h : s.mach.Canonical) (t : Turn) : Stays (turnPart t s) := by
  cases t with dsimp only [turnPart]
  | event i =>
    split
    · exact exec_stays h i
    · exact stays_next h
  | core c => exact stays_next h
  | wait => exact stays_next (waitPart_canonical h)
  | engine c o => exact stays_next (engineTurn_canonical h)
  | elapse d n => exact stays_next (.parts h h h h)
  | hostWrite f a data => exact stays_next (h.withHost h h (Mem.hostWrite_wf h.host_wf _ _ _))
  | deviceWrite f off data => exact stays_next (deviceWrite_canonical h)
  | deviceRead f off n => exact stays_next (by simpa using h)
  | mailbox => exact stays_next (mailboxTurn_canonical h)
  | reply r => exact stays_next (.parts h h h h)

theorem advance_stays (h : s.mach.Canonical) : Stays (advance s) := by
  have turn {t : Turn} {r : List Turn} : Stays (turnPart t { s with agenda := r }) := by
    refine turnPart_stays ?_ t
    exact h
  unfold advance
  split
  · split
    · exact fun _ hs => nomatch hs
    · exact cyclePart_stays h
  split
  · exact fun _ hs => nomatch hs
  split
  · exact stays_next h
  split
  · exact cyclePart_stays h
  · exact turn

end

/-- Settles O54: a part of a step writes a memory only by `Mem.paste` of an image whose keys rise, and nothing else changes
one. -/
theorem memoriesStayCanonical : Obligations.MemoriesStayCanonical :=
  fun _ s' h hs => advance_stays h s' hs

end Sys2Proof.Machine
end

