-- ==== Sys2Proof/Proofs/TrustOk.lean ====
section
/-! SUPPORT for the statement that every step keeps the trust die in order: what each event leaves of it, and the invariant. -/

namespace Sys2Proof.Machine

section
variable {s s' : State}

/-! ### The standing of the trust die -/

/-- What the order of the trust die speaks of is as it was, but for keys: released, the live dies and frozen. -/
def Trust.SameStanding (t t' : Trust) : Prop := t'.released = t.released ∧ t'.dieLive = t.dieLive ∧ t'.frozen = t.frozen

theorem Trust.SameStanding.refl (t : Trust) : t.SameStanding t := ⟨rfl, rfl, rfl⟩

/-- A change of keys in an unfrozen part, or of anything else, keeps the trust die in order. -/
theorem Trust.Ok.of_sameStanding {t t' : Trust} (h : t.Ok) (hs : t.SameStanding t') (hf : t.frozen = false) : t'.Ok := by
  obtain ⟨hr, hl, hz⟩ := hs
  obtain ⟨hlive, -⟩ := h
  refine ⟨fun h => ?_, fun h => ?_⟩
  · simpa only [Trust.isLive, hl] using hlive (hr ▸ h)
  · rw [hz, hf] at h
    cases h

/-! ### Events of the trust die -/

/-- PACKAGE_RESET holds the package in bring-up and thaws it. -/
theorem packageReset_ok {b} : (packageReset b s).Ok := ⟨fun h => (nomatch h), fun h => (nomatch h)⟩

/-- TOPOLOGY_COMPUTE releases the package only when die 0 and a D-die are live (R421). -/
theorem topologyCompute_ok {links} (h : s.Ok) (hf : s.trust.frozen = false) : (topologyCompute links s).Ok := by
  unfold topologyCompute
  extract_lets t pass base near live go dies masks t2 topology config
  have thawed {t' : Trust} (ht : t'.frozen = s.trust.frozen) : t'.frozen = true → t'.xtsKeys = [] ∧ t'.rootKey = false := by
    rw [ht, hf]
    exact nofun
  split
  · exact h
  split
  next hgo =>
    have hlive : live 0 = true ∧ (live 2 = true ∨ live 3 = true ∨ live 4 = true ∨ live 5 = true) := by
      simpa only [go, Bool.and_eq_true, Bool.or_eq_true, or_assoc] using hgo
    exact ⟨fun _ => hlive, thawed rfl⟩
  next hr _ => exact ⟨fun h => absurd h hr, thawed rfl⟩

/-- FREEZE_N erases every key (R432). -/
theorem freezeN_ok (h : s.Ok) : (freezeN s).Ok := ⟨h.1, fun _ => ⟨rfl, rfl⟩⟩

/-- SCAN_SHIFT keeps the order also of a frozen part. -/
theorem scanShift_ok {n} (h : s.Ok) : (scanShift n s).Ok := by
  unfold scanShift
  split <;> exact h

/-! ### The events that keep its standing -/

theorem State.opened_sameStanding (h : s.trust.SameStanding s'.trust) : s.trust.SameStanding (s.opened s').trust := by
  unfold State.opened
  split
  · exact h
  · exact .refl _

theorem spdmRespond_sameStanding {version code p1 fixed data next} :
    s.trust.SameStanding (spdmRespond version code p1 fixed data next s).trust :=
  State.opened_sameStanding ⟨rfl, rfl, rfl⟩

theorem spdmError_sameStanding {code} : s.trust.SameStanding (spdmError code s).trust :=
  State.opened_sameStanding ⟨rfl, rfl, rfl⟩

theorem spdmServe_sameStanding {ok code fixed data next} : s.trust.SameStanding (spdmServe ok code fixed data next s).trust := by
  unfold spdmServe
  split
  · exact spdmRespond_sameStanding
  · exact spdmError_sameStanding

theorem getMeasurements_sameStanding {data} : s.trust.SameStanding (getMeasurements data s).trust := by
  simp only [getMeasurements]
  split
  · exact spdmError_sameStanding
  split
  · exact spdmError_sameStanding
  · exact spdmRespond_sameStanding

theorem create_sameStanding {a} : s.trust.SameStanding (create a s).trust := by
  unfold create
  split <;> exact ⟨rfl, rfl, rfl⟩

theorem destroy_sameStanding {ctx} : s.trust.SameStanding (destroy ctx s).trust := by
  unfold destroy
  split <;> exact ⟨rfl, rfl, rfl⟩

theorem setcfg_sameStanding {smax fmin cap} : s.trust.SameStanding (setcfg smax fmin cap s).trust := by
  unfold setcfg
  split <;> exact ⟨rfl, rfl, rfl⟩

theorem verify_sameStanding {ctx header leaves sig} : s.trust.SameStanding (verify ctx header leaves sig s).trust := by
  simp only [verify]
  repeat' split
  all_goals exact ⟨rfl, rfl, rfl⟩

theorem dropm_sameStanding {ctx slot} : s.trust.SameStanding (dropm ctx slot s).trust := by
  unfold dropm
  split <;> exact ⟨rfl, rfl, rfl⟩

theorem mailRun_sameStanding {c} : s.trust.SameStanding (mailRun c s).trust := by
  unfold mailRun
  split
  · exact ⟨rfl, rfl, rfl⟩
  · exact create_sameStanding
  · exact destroy_sameStanding
  · exact setcfg_sameStanding
  · exact verify_sameStanding
  · exact dropm_sameStanding

theorem mailboxTurn_sameStanding : s.trust.SameStanding (mailboxTurn s).trust := by
  unfold mailboxTurn
  split
  · exact .refl _
  · exact State.opened_sameStanding (mailRun_sameStanding (s := { s with trust := _ }))

theorem deviceWrite_sameStanding {func off data} : s.trust.SameStanding (deviceWrite func off data s).trust := by
  unfold deviceWrite
  repeat' split
  all_goals exact ⟨rfl, rfl, rfl⟩

theorem powerMonitor_sameStanding {watts} : s.trust.SameStanding (powerMonitor watts s).trust := by
  unfold powerMonitor
  split <;> exact ⟨rfl, rfl, rfl⟩

theorem moduleController_sameStanding {cap} : s.trust.SameStanding (moduleController cap s).trust := by
  unfold moduleController
  split <;> exact ⟨rfl, rfl, rfl⟩

theorem contextLoss_sameStanding : s.trust.SameStanding (contextLoss s).trust := by
  simp only [contextLoss]
  repeat' split
  all_goals exact ⟨rfl, rfl, rfl⟩

/-! ### Every instruction and event -/

/-- The next state of an outcome that has one has the trust die in order. -/
def KeepsTrust (o : Host.Outcome State Fault Refusal) : Prop := ∀ s', o = .next s' → s'.Ok

theorem keepsTrust_next (h : s.Ok) : KeepsTrust (.next s) := fun _ hs => by cases hs; exact h

/-- An attempt changes the package machine alone. -/
theorem keepsTrust_attemptAt (h : s.Ok) {e : Env} {i : Instr} {body : Env → Mach → Chk Mach} :
    KeepsTrust (attemptAt e i body s) := by
  simp only [attemptAt]
  split <;> exact keepsTrust_next h

theorem keepsTrust_attempt (h : s.Ok) {i : Instr} {body : Env → Mach → Chk Mach} : KeepsTrust (attempt i body s) :=
  keepsTrust_attemptAt h

theorem keepsTrust_attemptNext (h : s.Ok) {i : Instr} {body : Env → Mach → Chk Mach} : KeepsTrust (attemptNext i body s) :=
  keepsTrust_attempt h

theorem execIllop_keepsTrust (h : s.Ok) {w} : KeepsTrust (execIllop w s) := by
  unfold execIllop
  split <;> exact keepsTrust_attemptAt h

/-- An event that leaves the state or changes it. -/
theorem State.ok_ite {p : Prop} [Decidable p] {s₁ s₂ : State} (h₁ : s₁.Ok) (h₂ : s₂.Ok) : (if p then s₁ else s₂).Ok := by
  split
  · exact h₁
  · exact h₂

theorem exec_keepsTrust (h : s.Ok) (hf : s.trust.frozen = false) (i : Instr) : KeepsTrust (exec i s) := by
  have same {s' : State} (hs : s.trust.SameStanding s'.trust) : KeepsTrust (.next s') :=
    keepsTrust_next (Trust.Ok.of_sameStanding h hs hf)
  cases i with dsimp only [exec]
  | packageReset => exact keepsTrust_next packageReset_ok
  | topologyCompute => exact keepsTrust_next (topologyCompute_ok h hf)
  | freezeN => exact keepsTrust_next (freezeN_ok h)
  | scanShift => exact keepsTrust_next (scanShift_ok h)
  | getVersion => exact same spdmRespond_sameStanding
  | getCapabilities | negotiateAlgorithms | getDigests | getCertificate | challenge | keyExchange | finish | heartbeat
  | endSession => exact same spdmServe_sameStanding
  | getMeasurements => exact same getMeasurements_sameStanding
  | spdmUnsupported => exact same spdmError_sameStanding
  | create => exact same (State.opened_sameStanding create_sameStanding)
  | destroy => exact same (State.opened_sameStanding destroy_sameStanding)
  | setcfg => exact same (State.opened_sameStanding setcfg_sameStanding)
  | verify => exact same (State.opened_sameStanding verify_sameStanding)
  | dropm => exact same (State.opened_sameStanding dropm_sameStanding)
  | powerMonitor => exact same powerMonitor_sameStanding
  | moduleController => exact same moduleController_sameStanding
  | contextLoss => exact same contextLoss_sameStanding
  | illop => exact execIllop_keepsTrust h
  | groupPlacement | preemptTimeoutBoundary | groupRestore => exact keepsTrust_next (State.ok_ite h h)
  | clhHoldEnd | sleepWake | timedResultLands | pendingEntryLands | handshakeAcknowledged | evictionFreezeEnd | postedWriteAck
  | retentionEntry | retentionExit | leaseGrant | leaseBudgetEnd | arrayPass | replayFreezeEnd | copyComplete
  | arrivalElementLands | accumulateApplied | relayPayloadLands | channelBreak | handoffBlockMove | handoffCompletionEvent
  | cwldChunk | keyArrival | watchdog | submissionRecord | requestAdmission | requestAging | kernFire | kernFinish | xferFire
  | ifFire | whileFire | switchFire | relayFire | handFire | waitFire | doneFire | kernelImageLoad | drainingEnd
  | preemptionRequest | groupSave | correctedError | uncorrectableError | snaggingAudit | unreachableVerdict | corefail
  | hostReadAbort | peerContextAccess | peerContextLost | childPartial | rootConfirmation => exact keepsTrust_next h
  | brcNz | brcZ | jmp | call | ret | loop | lbrk | clh | yield | exit | sleep | trap | tret => exact keepsTrust_attempt h
  | _ => exact keepsTrust_attemptNext h

/-! ### A step -/

@[simp] theorem State.pass_trust : s.pass.trust = s.trust := by
  unfold State.pass
  split <;> rfl

theorem keepsTrust_thenPass {o : Host.Outcome State Fault Refusal} (h : KeepsTrust o) : KeepsTrust (thenPass o) := by
  cases o with
  | next s' =>
    refine keepsTrust_next ?_
    rw [State.Ok, State.pass_trust]
    exact h s' rfl
  | _ => exact fun _ hs => nomatch hs

theorem seqPart_keepsTrust (h : s.Ok) (hf : s.trust.frozen = false) : KeepsTrust (seqPart s) := by
  simp only [seqPart]
  split
  · exact keepsTrust_next h
  split
  · split
    · exact keepsTrust_next h
    split
    · exact keepsTrust_next h
    · exact exec_keepsTrust h hf _
  split <;> exact keepsTrust_next h

/-- The sequencers that a pre-emption takes first are of the package machine. -/
@[simp] theorem State.takesFirst_trust : s.takesFirst.trust = s.trust := by
  unfold State.takesFirst
  split
  · rfl
  refine List.foldlRecOn (motive := fun s' : State => s'.trust = s.trust) _ _ rfl fun s' h q _ => ?_
  dsimp only
  repeat' split
  all_goals exact h

theorem cyclePart_keepsTrust (h : s.Ok) (hf : s.trust.frozen = false) : KeepsTrust (cyclePart s) := by
  unfold cyclePart
  split
  · exact keepsTrust_next h
  split
  · exact keepsTrust_next (by rw [State.Ok, State.pass_trust]; exact h)
  · refine keepsTrust_thenPass (seqPart_keepsTrust ?_ ?_)
    · rw [State.Ok, State.takesFirst_trust]; exact h
    · rw [State.takesFirst_trust]; exact hf
  · exact keepsTrust_thenPass (seqPart_keepsTrust h hf)

@[simp] theorem waitPart_trust : (waitPart s).trust = s.trust := by
  simp only [waitPart]
  split
  · exact State.pass_trust
  · rfl

/-- The two turns that still act on a frozen part. -/
theorem resetTurn_keepsTrust (h : s.Ok) {t : Turn} (ht : t.isReset = true) : KeepsTrust (turnPart t s) := by
  unfold Turn.isReset at ht
  split at ht
  · exact keepsTrust_next packageReset_ok
  · exact keepsTrust_next (scanShift_ok h)
  · cases ht

theorem turnPart_keepsTrust (h : s.Ok) (hf : s.trust.frozen = false) (t : Turn) : KeepsTrust (turnPart t s) := by
  have same {s' : State} (hs : s.trust.SameStanding s'.trust) : KeepsTrust (.next s') :=
    keepsTrust_next (Trust.Ok.of_sameStanding h hs hf)
  cases t with dsimp only [turnPart]
  | event i =>
    split
    · exact exec_keepsTrust h hf i
    · exact keepsTrust_next h
  | wait => exact keepsTrust_next (by rw [State.Ok, waitPart_trust]; exact h)
  | deviceWrite f off data => exact same deviceWrite_sameStanding
  | mailbox => exact same mailboxTurn_sameStanding
  | _ => exact keepsTrust_next h

theorem advance_keepsTrust (h : s.Ok) : KeepsTrust (advance s) := by
  unfold advance
  split
  · split
    · exact fun _ hs => nomatch hs
    next hf => exact cyclePart_keepsTrust h (by simpa using hf)
  next t r _ =>
  split
  · exact fun _ hs => nomatch hs
  next hstop =>
  split
  · exact keepsTrust_next h
  split
  next hc => exact cyclePart_keepsTrust h (by simp_all)
  cases hf : s.trust.frozen with
  | false => exact turnPart_keepsTrust (s := { s with agenda := r }) h hf t
  | true => exact resetTurn_keepsTrust (s := { s with agenda := r }) h (by simpa [hf] using hstop)

end

/-- Settles O53: an event changes the standing of the trust die only in bring-up, which releases the package over live dies, and at
FREEZE_N, which erases the keys; once the clocks stop only a reset and the scan chains act. -/
theorem stepKeepsTrust : Obligations.StepKeepsTrust :=
  fun _ s' h hs => advance_keepsTrust h s' hs

end Sys2Proof.Machine
end

