-- ==== Sys2Proof/Proofs/ResetState.lean ====
section
/-! The statement about the state after reset. -/

namespace Sys2Proof.Machine

/-- The trust die after reset is released with every die live, and not frozen. -/
theorem reset_ok : State.reset.Ok := by
  unfold State.Ok Trust.Ok
  decide

theorem Seq.reset_rising : SMap.wf Seq.reset.xq = true ∧ SMap.wf Seq.reset.loops = true := ⟨rfl, rfl⟩

theorem Core.reset_rising : Core.reset.Rising :=
  ⟨fun q => by cases q <;> exact Seq.reset_rising, rfl, rfl, rfl⟩

theorem reset_canonical : State.reset.mach.Canonical := by
  obtain ⟨hg, hd, hh, hc⟩ := reset_memories_wf
  exact ⟨hg, hd, hh, fun _ => hc⟩

theorem reset_tables : State.reset.Tables := by
  refine ⟨rfl, rfl, rfl, fun c => Core.reset_rising, fun _ h => ?_, fun p => ⟨rfl, rfl⟩, fun _ h => ?_, fun _ h => ?_, fun _ h => ?_⟩
  all_goals cases h

/-- An error bank after reset is clear (R391). -/
theorem Bank.reset_word : Bank.reset.word 0 = 0 ∧ Bank.reset.word 3 = 0 := by decide

/-- Settles O56: every table of the package machine is empty at reset, so what is read is the default. -/
theorem resetState : Obligations.ResetState := by
  refine ⟨reset_ok, reset_canonical, reset_tables, fun _ => rfl, fun _ q => ?_, fun _ q => ?_, fun _ => rfl, rfl, rfl, rfl, rfl,
    rfl, rfl, fun _ => rfl, fun _ _ => Bank.reset_word, fun _ => rfl, rfl, rfl, rfl, rfl⟩
  · cases q <;> rfl
  · cases q <;> exact ⟨rfl, rfl⟩

end Sys2Proof.Machine
end

