-- ==== Sys2Proof/Proofs/Landing.lean ====
section
/-! The statement about how results land: what landing, tokens, the end of a cycle and the finish of an operation leave of a core. -/

namespace Sys2Proof.Machine

section
variable {k : Core} {α : Type}

/-! ### What a change of sequencers keeps -/

/-- A change of one sequencer keeps of each what it keeps of that one. -/
theorem Core.onSeq_keeps {g : Seq → α} {f : Seq → Seq} (hf : ∀ s, g (f s) = g s) (q r : SeqId) :
    g ((k.onSeq q f).seq r) = g (k.seq r) := by
  by_cases h : r = q
  · rw [h, Core.onSeq_seq, hf]
  · rw [Core.onSeq_seq_ne k f h]

/-- What a push of tokens keeps. -/
theorem Core.onPushQ_keeps {g : Seq → α} {f : TokQ → TokQ} (hu : ∀ s : Seq, g { s with inUp := f s.inUp } = g s)
    (hd : ∀ s : Seq, g { s with inDown := f s.inDown } = g s) (q : SeqId) (up : Bool) (r : SeqId) :
    g ((k.onPushQ q up f).seq r) = g (k.seq r) := by
  unfold Core.onPushQ
  split
  · rfl
  split
  · exact Core.onSeq_keeps hd _ r
  · exact Core.onSeq_keeps hu _ r

/-- The tokens of a queue once n reserved ones of it are posted. -/
def TokQ.posting (n : Nat) (t : TokQ) : TokQ := { t with reserved := t.reserved - n, arriving := t.arriving + n }

theorem Core.postTokens_keeps {g : Seq → α} (hu : ∀ s : Seq, g { s with inUp := s.inUp.posting 1 } = g s)
    (hd : ∀ s : Seq, g { s with inDown := s.inDown.posting 1 } = g s) (q : SeqId) (pu pd : Bool) (r : SeqId) :
    g ((k.postTokens q pu pd).seq r) = g (k.seq r) := by
  have post (k : Core) (up : Bool) : g ((k.tokPost q up 1).seq r) = g (k.seq r) := Core.onPushQ_keeps hu hd q up r
  cases pu <;> cases pd <;> simp [Core.postTokens, post]

/-- What a landing keeps of a sequencer: all but its queues and its loop registers. -/
theorem Core.land_keeps {g : Seq → α} (hx : ∀ (s : Seq) n l, g (s.setX n l) = g s)
    (hl : ∀ (s : Seq) l, g { s with loops := l } = g s) (d : Landing) (r : SeqId) : g ((k.land d).seq r) = g (k.seq r) := by
  cases d with
  | x q n slot v =>
    simp only [Core.land]
    split
    · rfl
    · exact Core.onSeq_keeps (fun s => hx s _ _) q r
  | v n slot e =>
    simp only [Core.land]
    split <;> rfl
  | loop q n v => exact Core.onSeq_keeps (fun s => hl s _) q r
  | mask => rfl
  | none => rfl

/-- A result that goes to no register is not overtaken. -/
theorem Core.landFrom_of_register_none {id : Nat} {d : Landing} (h : d.register = none) : k.landFrom id d = k.land d := by
  simp [Core.landFrom, Core.overtaken, h]

/-- What a landing with its note of the write keeps. -/
theorem Core.landFrom_keeps {g : Seq → α} (hx : ∀ (s : Seq) n l, g (s.setX n l) = g s)
    (hl : ∀ (s : Seq) l, g { s with loops := l } = g s) (hw : ∀ (s : Seq) l, g { s with wrote := l } = g s) (id : Nat)
    (d : Landing) (r : SeqId) : g ((k.landFrom id d).seq r) = g (k.seq r) := by
  unfold Core.landFrom
  split
  · rfl
  split
  · exact Core.land_keeps hx hl d r
  · exact (Core.onSeq_keeps (fun s => hw s _) _ r).trans (Core.land_keeps hx hl d r)

theorem Core.nudge_keeps {g : Seq → α} (hn : ∀ s : Seq, g { s with nudged := true } = g s) (pending : Bool) (d : Landing)
    (r : SeqId) : g ((k.nudge pending d).seq r) = g (k.seq r) := by
  have nudged (k : Core) (q : SeqId) {b : Prop} [Decidable b] :
      g ((if b then k.onSeq q fun s => { s with nudged := true } else k).seq r) = g (k.seq r) := by
    split
    · exact Core.onSeq_keeps hn q r
    · rfl
  cases d with
  | x => exact nudged k _
  | v => exact (nudged _ _).trans (nudged k _)
  | _ => rfl

@[simp] theorem Core.finAct_seq (a : Fin_) (r : SeqId) : (k.finAct a).seq r = k.seq r := by
  cases a <;> cases r <;> rfl

/-! ### What else of a core stays -/

@[simp] theorem Core.postTokens_vq (q : SeqId) (pu pd : Bool) : (k.postTokens q pu pd).vq = k.vq :=
  vq_of_calm (Core.postTokens_calm k q pu pd)

@[simp] theorem Core.nudge_vq (pending : Bool) (d : Landing) : (k.nudge pending d).vq = k.vq := by
  unfold Core.nudge
  repeat' split
  all_goals simp

@[simp] theorem Core.finAct_vq (a : Fin_) : (k.finAct a).vq = k.vq := by cases a <;> rfl

/-- The time of a core and what of its state the end of a cycle reads to count it; no landing changes it. -/
structure Core.SameTime (k k' : Core) : Prop where
  cycles : k'.cycles = k.cycles
  freeze : k'.freeze = k.freeze
  replay : k'.replay = k.replay
  ops : k'.ops = k.ops
  clock (q : SeqId) : (k'.seq q).clock = (k.seq q).clock
  taken (q : SeqId) : (k'.seq q).taken = (k.seq q).taken
  up (q : SeqId) : (k'.seq q).inUp.posted = (k.seq q).inUp.posted
  down (q : SeqId) : (k'.seq q).inDown.posted = (k.seq q).inDown.posted

theorem Core.SameTime.refl (k : Core) : k.SameTime k := ⟨rfl, rfl, rfl, rfl, fun _ => rfl, fun _ => rfl, fun _ => rfl, fun _ => rfl⟩

theorem Core.SameTime.trans {k₁ k₂ k₃ : Core} (h : k₁.SameTime k₂) (h' : k₂.SameTime k₃) : k₁.SameTime k₃ where
  cycles := h'.cycles.trans h.cycles
  freeze := h'.freeze.trans h.freeze
  replay := h'.replay.trans h.replay
  ops := h'.ops.trans h.ops
  clock q := (h'.clock q).trans (h.clock q)
  taken q := (h'.taken q).trans (h.taken q)
  up q := (h'.up q).trans (h.up q)
  down q := (h'.down q).trans (h.down q)

/-- What the time of a core is of a sequencer. -/
def Seq.time (s : Seq) : Nat × Bool × Nat × Nat := (s.clock, s.taken, s.inUp.posted, s.inDown.posted)

theorem Core.sameTime_of_seq {k k' : Core} (hc : k'.cycles = k.cycles) (hf : k'.freeze = k.freeze) (hr : k'.replay = k.replay)
    (ho : k'.ops = k.ops) (hs : ∀ q, (k'.seq q).time = (k.seq q).time) : k.SameTime k' := by
  have parts (q : SeqId) := by simpa only [Seq.time, Prod.mk.injEq] using hs q
  exact ⟨hc, hf, hr, ho, fun q => (parts q).1, fun q => (parts q).2.1, fun q => (parts q).2.2.1, fun q => (parts q).2.2.2⟩

theorem Core.onSeq_sameTime {q : SeqId} {f : Seq → Seq} (hf : ∀ s, (f s).time = s.time) : k.SameTime (k.onSeq q f) :=
  Core.sameTime_of_seq (by simp) (by simp) (by simp) (by simp) fun r => Core.onSeq_keeps hf q r

theorem Core.land_sameTime (d : Landing) : k.SameTime (k.land d) := by
  unfold Core.land
  split
  · split
    · exact .refl k
    · exact Core.onSeq_sameTime fun _ => rfl
  · split
    · exact .refl k
    · exact Core.sameTime_of_seq rfl rfl rfl rfl fun q => by cases q <;> rfl
  · exact Core.onSeq_sameTime fun _ => rfl
  · exact Core.sameTime_of_seq rfl rfl rfl rfl fun q => by cases q <;> rfl
  · exact .refl k

theorem Core.landFrom_sameTime (id : Nat) (d : Landing) : k.SameTime (k.landFrom id d) := by
  unfold Core.landFrom
  split
  · exact .refl k
  split
  · exact Core.land_sameTime d
  · exact (Core.land_sameTime d).trans (Core.onSeq_sameTime fun _ => rfl)

theorem Core.nudge_sameTime (pending : Bool) (d : Landing) : k.SameTime (k.nudge pending d) := by
  have nudged (k : Core) (q : SeqId) {b : Prop} [Decidable b] :
      k.SameTime (if b then k.onSeq q fun s => { s with nudged := true } else k) := by
    split
    · exact Core.onSeq_sameTime fun _ => rfl
    · exact .refl k
  cases d with
  | x => exact nudged k _
  | v => exact (nudged k _).trans (nudged _ _)
  | _ => exact .refl k

theorem Core.onPushQ_sameTime {q : SeqId} {up : Bool} {f : TokQ → TokQ} (hf : ∀ t, (f t).posted = t.posted) :
    k.SameTime (k.onPushQ q up f) := by
  unfold Core.onPushQ
  repeat' split
  · exact .refl k
  · exact Core.onSeq_sameTime fun s => by simp [Seq.time, hf]
  · exact Core.onSeq_sameTime fun s => by simp [Seq.time, hf]

theorem Core.postTokens_sameTime (q : SeqId) (pu pd : Bool) : k.SameTime (k.postTokens q pu pd) := by
  have post (k : Core) (up p : Bool) : k.SameTime (if p then k.tokPost q up 1 else k) := by
    cases p
    · exact .refl k
    · exact Core.onPushQ_sameTime (f := fun t => { t with reserved := t.reserved - 1, arriving := t.arriving + 1 }) fun _ => rfl
  exact (post k true pu).trans (post _ false pd)

theorem Core.landTimed_sameTime (q : SeqId) (r : Timed) : k.SameTime (k.landTimed q r) :=
  (Core.landFrom_sameTime r.id r.dest).trans <| (Core.nudge_sameTime false r.dest).trans <|
    (Core.onSeq_sameTime (f := fun s => s.flag (intFlags r.satur r.divz)) fun _ => rfl).trans (Core.postTokens_sameTime q r.pu r.pd)

theorem Core.foldl_sameTime {l : List α} {f : Core → α → Core} (hf : ∀ (k : Core) a, k.SameTime (f k a)) : k.SameTime (l.foldl f k) :=
  List.foldlRecOn (motive := k.SameTime) l f (.refl k) fun k' hk a _ => hk.trans (hf k' a)

theorem Core.landDue_sameTime (q : SeqId) : k.SameTime (k.landDue q) := by
  simp only [Core.landDue]
  split
  · exact .refl k
  · refine (Core.onSeq_sameTime fun s => ?_).trans (Core.foldl_sameTime fun k r => Core.landTimed_sameTime q r)
    split <;> rfl

/-! ### The slots of a queue -/

theorem Seq.xslots_setX {s : Seq} (h : SMap.wf s.xq = true) (n j : BitVec 4) (l : List (QSlot Word)) :
    (s.setX n l).xslots j = if j = n then l else s.xslots j := by
  simp only [Seq.xslots, Seq.setX, SMap.getD_put h, BitVec.toNat_inj]

theorem Core.vslots_setV (h : SMap.wf k.vq = true) (n j : BitVec 4) (l : List (QSlot VEntry)) :
    (k.setV n l).vslots j = if j = n then l else k.vslots j := by
  simp only [Core.vslots, Core.setV, SMap.getD_put h, BitVec.toNat_inj]

/-- A result lands in the slot reserved for it (R64). -/
theorem Core.land_xslots {q : SeqId} {n : BitVec 4} {slot : Nat} {v : Word} (he : (k.seq q).exited = false)
    (hw : SMap.wf (k.seq q).xq = true) (j : BitVec 4) :
    ((k.land (.x q n slot v)).seq q).xslots j =
      if j = n then ((k.seq q).xslots n).map (fun y => if y.id = slot then ⟨slot, .present v⟩ else y) else (k.seq q).xslots j := by
  simp only [Core.land, he, Bool.false_eq_true, if_false, Core.onSeq_seq, Seq.xslots_setX hw, fillSlot]

theorem Core.land_vslots {n : BitVec 4} {slot : Nat} {v : VEntry} (he : k.cmp.exited = false) (hw : SMap.wf k.vq = true)
    (j : BitVec 4) :
    (k.land (.v n slot v)).vslots j =
      if j = n then (k.vslots n).map (fun y => if y.id = slot then ⟨slot, .present v⟩ else y) else k.vslots j := by
  simp only [Core.land, he, Bool.false_eq_true, if_false, Core.vslots_setV hw, fillSlot]

/-! ### Registers and masks -/

/-- A result that a later issue of this cycle overtook is dropped (R71). -/
theorem Core.landFrom_overtaken {id : Nat} {d : Landing} {q : SeqId} {n by_ : Nat} (hd : d.register = some (q, n))
    (hw : SMap.get? (k.seq q).wrote n = some (k.cycles.toNat, by_)) (hid : id < by_) : k.landFrom id d = k := by
  have h : k.overtaken id d = true := by simp [Core.overtaken, hd, hw, hid]
  rw [Core.landFrom, if_pos h]

/-- The mask of a count has the bits below it (R100). -/
theorem maskOfCount_getLsbD (v : Word) {j : Nat} (hj : j < 1024) : (maskOfCount v).getLsbD j = decide (j < v.toNat) := by
  unfold maskOfCount
  split
  next h => rw [BitVec.getLsbD_allOnes, decide_eq_true hj, decide_eq_true (lt_of_lt_of_le hj h)]
  · rw [BitVec.getLsbD_ofNat, Nat.testBit_two_pow_sub_one]
    simp [hj]

/-! ### Tokens (R34, R75, R92) -/

/-- A push up enters one queue that its downstream neighbour fills. -/
theorem Core.onPushQ_up_inDown (q r : SeqId) (f : TokQ → TokQ) :
    ((k.onPushQ q true f).seq r).inDown =
      if r = upstream q ∧ (k.seq r).exited = false then f (k.seq r).inDown else (k.seq r).inDown := by
  by_cases hr : r = upstream q
  · subst hr
    cases h : (k.seq (upstream q)).exited <;> simp [Core.onPushQ, Core.pushGone, h]
  · cases h : (k.seq (upstream q)).exited <;> simp [Core.onPushQ, Core.pushGone, h, hr, Core.onSeq_seq_ne]

theorem Core.onPushQ_down_inUp (q r : SeqId) (f : TokQ → TokQ) :
    ((k.onPushQ q false f).seq r).inUp =
      if r = downstream q ∧ (k.seq r).exited = false then f (k.seq r).inUp else (k.seq r).inUp := by
  by_cases hr : r = downstream q
  · subst hr
    cases h : (k.seq (downstream q)).exited <;> simp [Core.onPushQ, Core.pushGone, h]
  · cases h : (k.seq (downstream q)).exited <;> simp [Core.onPushQ, Core.pushGone, h, hr, Core.onSeq_seq_ne]

theorem Core.onPushQ_up_inUp (q r : SeqId) (f : TokQ → TokQ) : ((k.onPushQ q true f).seq r).inUp = (k.seq r).inUp := by
  unfold Core.onPushQ
  split
  · rfl
  · exact Core.onSeq_keeps (g := Seq.inUp) (f := fun s => { s with inDown := f s.inDown }) (fun _ => rfl) _ r

theorem Core.onPushQ_down_inDown (q r : SeqId) (f : TokQ → TokQ) : ((k.onPushQ q false f).seq r).inDown = (k.seq r).inDown := by
  unfold Core.onPushQ
  split
  · rfl
  · exact Core.onSeq_keeps (g := Seq.inDown) (f := fun s => { s with inUp := f s.inUp }) (fun _ => rfl) _ r

theorem Core.onPushQ_exited (q : SeqId) (up : Bool) (f : TokQ → TokQ) (r : SeqId) :
    ((k.onPushQ q up f).seq r).exited = (k.seq r).exited := Core.onPushQ_keeps (fun _ => rfl) (fun _ => rfl) q up r

/-- Posting the tokens of an instruction enters the queues of its neighbours, and nothing else does (R34, R92). -/
theorem Core.postTokens_inDown (q r : SeqId) (pu pd : Bool) :
    ((k.postTokens q pu pd).seq r).inDown =
      if pu = true ∧ r = upstream q ∧ (k.seq r).exited = false then (k.seq r).inDown.posting 1 else (k.seq r).inDown := by
  cases pu <;> cases pd <;>
    simp [Core.postTokens, Core.tokPost, Core.onPushQ_up_inDown, Core.onPushQ_down_inDown, TokQ.posting]

theorem Core.postTokens_inUp (q r : SeqId) (pu pd : Bool) :
    ((k.postTokens q pu pd).seq r).inUp =
      if pd = true ∧ r = downstream q ∧ (k.seq r).exited = false then (k.seq r).inUp.posting 1 else (k.seq r).inUp := by
  cases pu <;> cases pd <;>
    simp [Core.postTokens, Core.tokPost, Core.onPushQ_up_inUp, Core.onPushQ_down_inUp, Core.onPushQ_exited, TokQ.posting]

/-! ### A timed result (R34, R72, R99) -/

/-- A timed result sets its flags as it lands. -/
theorem Core.landTimed_flags (q : SeqId) (r : Timed) :
    ((k.landTimed q r).seq q).status.flags = (k.seq q).status.flags ||| intFlags r.satur r.divz := by
  have posted (k : Core) : ((k.postTokens q r.pu r.pd).seq q).status = (k.seq q).status :=
    status_of_calm (Core.postTokens_calm k q r.pu r.pd) q
  have landed : (((k.landFrom r.id r.dest).nudge false r.dest).seq q).status = (k.seq q).status :=
    (Core.nudge_keeps (fun _ => rfl) false r.dest q).trans
      (Core.landFrom_keeps (fun _ _ _ => rfl) (fun _ _ => rfl) (fun _ _ => rfl) r.id r.dest q)
  simp only [Core.landTimed, posted, Core.onSeq_seq, Seq.flag, landed]

/-! ### The end of a cycle -/

/-- A wake changes nothing of a core's time. -/
theorem Core.wakeSeq_sameTime (q : SeqId) : k.SameTime (k.wakeSeq q) := by
  unfold Core.wakeSeq
  split
  · exact .refl k
  · refine Core.onSeq_sameTime fun s => ?_
    unfold Seq.wake
    repeat' split
    all_goals rfl

theorem Seq.holdEnd_time (s : Seq) (c : Word) : (s.holdEnd c).time = s.time := by
  unfold Seq.holdEnd
  repeat' split
  all_goals rfl

theorem Core.frozen_of_sameTime {k' : Core} (h : k.SameTime k') (q : SeqId) : k'.frozen q = k.frozen q := by
  simp only [Core.frozen, h.freeze, h.replay]

/-- The sequencer q of a core gains a cycle where it is neither frozen nor taken; nothing else of the core's time changes. -/
theorem Core.advanceSeq_sameTime (q : SeqId) :
    (if k.frozen q || (k.seq q).taken then k else k.onSeq q fun s => { s with clock := s.clock + 1 }).SameTime (k.advanceSeq q) := by
  simp only [Core.advanceSeq]
  have fresh : k.SameTime (k.onSeq q fun s => { s with status := { s.status with fresh := 0 } }) :=
    Core.onSeq_sameTime fun _ => rfl
  rw [Core.frozen_of_sameTime fresh, fresh.taken]
  have held (k' : Core) {c : Word} : k'.SameTime (k'.onSeq q fun s => s.holdEnd c) :=
    Core.onSeq_sameTime fun s => Seq.holdEnd_time s _
  split
  · exact fresh.trans (held _)
  · refine .trans ?_ ((Core.landDue_sameTime q).trans (held _))
    cases q <;> exact Core.sameTime_of_seq rfl rfl rfl rfl fun r => by cases r <;> rfl

/-- What a cycle of one sequencer leaves of what the others' cycles read. -/
theorem Core.advanceSeq_keeps {g : Seq → α} (hg : ∀ s n, g { s with clock := n } = g s) {q r : SeqId}
    (h : ∀ {k k' : Core}, k.SameTime k' → g (k'.seq r) = g (k.seq r)) : g ((k.advanceSeq q).seq r) = g (k.seq r) := by
  rw [h (Core.advanceSeq_sameTime q)]
  split
  · rfl
  · exact Core.onSeq_keeps (fun s => hg s _) q r

theorem Core.advanceSeq_taken (q r : SeqId) : ((k.advanceSeq q).seq r).taken = (k.seq r).taken :=
  Core.advanceSeq_keeps (fun _ _ => rfl) fun h => h.taken r

theorem Core.advanceSeq_up (q r : SeqId) : ((k.advanceSeq q).seq r).inUp.posted = (k.seq r).inUp.posted :=
  Core.advanceSeq_keeps (g := fun s => s.inUp.posted) (fun _ _ => rfl) fun h => h.up r

theorem Core.advanceSeq_down (q r : SeqId) : ((k.advanceSeq q).seq r).inDown.posted = (k.seq r).inDown.posted :=
  Core.advanceSeq_keeps (g := fun s => s.inDown.posted) (fun _ _ => rfl) fun h => h.down r

theorem Core.advanceSeq_cycles (q : SeqId) : (k.advanceSeq q).cycles = k.cycles := by
  rw [(Core.advanceSeq_sameTime q).cycles]
  split <;> simp

theorem Core.advanceSeq_frozen (q r : SeqId) : (k.advanceSeq q).frozen r = k.frozen r := by
  rw [Core.frozen_of_sameTime (Core.advanceSeq_sameTime q)]
  split <;> simp [Core.frozen]

/-- The clock of a sequencer counts the cycles in which it is neither frozen nor taken. -/
theorem Core.advanceSeq_clock (q r : SeqId) :
    ((k.advanceSeq q).seq r).clock =
      if r = q ∧ k.frozen q = false ∧ (k.seq q).taken = false then (k.seq r).clock + 1 else (k.seq r).clock := by
  rw [(Core.advanceSeq_sameTime q).clock]
  by_cases hr : r = q
  · subst hr
    cases k.frozen r <;> cases (k.seq r).taken <;> simp
  · simp only [hr, false_and, if_false]
    split
    · rfl
    · rw [Core.onSeq_seq_ne k _ hr]

/-- A core at the end of its cycle, its sleepers woken and its tokens settled, before its sequencers' clocks go on. -/
def Core.settled (k : Core) : Core :=
  (allSeqs.foldl Core.wakeSeq { k with later := [], cycles := k.cycles + 1, ended := false }).onSeqs fun s =>
    { s with inUp := s.inUp.settle, inDown := s.inDown.settle }

/-- The end of a core's cycle outside a freeze, when no write waits for it. -/
theorem Mach.tick_core {m : Mach} {c : Nat} (hf : (m.core c).freeze = .none) (hl : (m.core c).later = []) :
    (m.tick c).core c =
      { allSeqs.foldl Core.advanceSeq (m.core c).settled with
        replay := (allSeqs.foldl Core.advanceSeq (m.core c).settled).replay - 1 } := by
  simp [Mach.tick, hf, hl, Core.settled]

theorem Core.wakeSeq_keeps {g : Seq → α} (hg : ∀ s : Seq, g s.wake = g s) (q r : SeqId) :
    g ((k.wakeSeq q).seq r) = g (k.seq r) := by
  unfold Core.wakeSeq
  split
  · rfl
  · exact Core.onSeq_keeps hg q r

theorem Seq.wake_keeps {g : Seq → α} (hg : ∀ (s : Seq) n, g { s with pause := .run, nudged := false, readyAt := n } = g s)
    (s : Seq) : g s.wake = g s := by
  unfold Seq.wake
  repeat' split
  · exact hg s _
  · rfl
  · exact hg s _
  · rfl
  · rfl

/-- A settled sequencer but for its sleep: its tokens settled. -/
theorem Core.settled_seq {g : Seq → α} (hg : ∀ (s : Seq) n, g { s with pause := .run, nudged := false, readyAt := n } = g s)
    (r : SeqId) : ∃ s, k.settled.seq r = { s with inUp := s.inUp.settle, inDown := s.inDown.settle } ∧ g s = g (k.seq r) := by
  refine ⟨_, Core.onSeqs_seq _ r _, ?_⟩
  simp only [allSeqs, List.foldl_cons, List.foldl_nil, Core.wakeSeq_keeps (Seq.wake_keeps hg)]
  cases r <;> rfl

theorem Core.settled_cycles : k.settled.cycles = k.cycles + 1 := by
  have h : (allSeqs.foldl Core.wakeSeq { k with later := [], cycles := k.cycles + 1, ended := false }).cycles = k.cycles + 1 :=
    (Core.foldl_sameTime fun _ q => Core.wakeSeq_sameTime q).cycles
  exact h

theorem Core.settled_frozen (q : SeqId) : k.settled.frozen q = k.frozen q := by
  have h := Core.frozen_of_sameTime (Core.foldl_sameTime (k := { k with later := [], cycles := k.cycles + 1, ended := false })
    (l := allSeqs) fun _ q => Core.wakeSeq_sameTime q) q
  exact h

theorem Core.settled_clock (r : SeqId) : (k.settled.seq r).clock = (k.seq r).clock ∧ (k.settled.seq r).taken = (k.seq r).taken := by
  obtain ⟨s, hs, hg⟩ := Core.settled_seq (k := k) (g := fun s => (s.clock, s.taken)) (fun _ _ => rfl) r
  simpa [hs] using hg

theorem Core.settled_posted (r : SeqId) : (k.settled.seq r).inUp.posted = (k.seq r).inUp.posted + (k.seq r).inUp.arriving ∧
    (k.settled.seq r).inDown.posted = (k.seq r).inDown.posted + (k.seq r).inDown.arriving := by
  obtain ⟨s, hs, hg⟩ := Core.settled_seq (k := k) (g := fun s => (s.inUp, s.inDown)) (fun _ _ => rfl) r
  obtain ⟨hu, hd⟩ := Prod.mk.injEq .. ▸ hg
  simp [hs, TokQ.settle, hu, hd]

/-- What the cycles of the four sequencers leave of a core. -/
theorem Core.foldl_advanceSeq (r : SeqId) :
    let k' := allSeqs.foldl Core.advanceSeq k
    k'.cycles = k.cycles ∧ (k'.seq r).inUp.posted = (k.seq r).inUp.posted ∧ (k'.seq r).inDown.posted = (k.seq r).inDown.posted ∧
      (k.frozen r = false → (k.seq r).taken = false → (k'.seq r).clock = (k.seq r).clock + 1) := by
  simp only [allSeqs, List.foldl_cons, List.foldl_nil, Core.advanceSeq_cycles, Core.advanceSeq_up, Core.advanceSeq_down,
    Core.advanceSeq_clock, Core.advanceSeq_frozen, Core.advanceSeq_taken, true_and]
  intro hf ht
  cases r <;> simp [hf, ht]

/-- The end of a cycle counts CYCLES and the clocks, and makes the tokens that arrived poppable (R53, R71, R72). -/
theorem Mach.tick_counts {m : Mach} {c : Nat} (hf : (m.core c).freeze = .none) (hl : (m.core c).later = []) (r : SeqId) :
    let k := m.core c
    let k' := (m.tick c).core c
    k'.cycles = k.cycles + 1 ∧ (k'.seq r).inUp.posted = (k.seq r).inUp.posted + (k.seq r).inUp.arriving ∧
      (k'.seq r).inDown.posted = (k.seq r).inDown.posted + (k.seq r).inDown.arriving ∧
      ((k.seq r).taken = false → (r = .cmp → k.replay = 0) → (k'.seq r).clock = (k.seq r).clock + 1) := by
  have hseq (k : Core) (n : Nat) : ({ k with replay := n } : Core).seq r = k.seq r := by cases r <;> rfl
  obtain ⟨hc, hu, hd, hclock⟩ := Core.foldl_advanceSeq (k := (m.core c).settled) r
  obtain ⟨hsu, hsd⟩ := Core.settled_posted (k := m.core c) r
  obtain ⟨hsc, hst⟩ := Core.settled_clock (k := m.core c) r
  rw [Mach.tick_core hf hl]
  refine ⟨hc.trans Core.settled_cycles, ?_, ?_, fun ht hr => ?_⟩
  · rw [hseq, hu, hsu]
  · rw [hseq, hd, hsd]
  · rw [hseq, hclock ?_ (hst.trans ht), hsc]
    rw [Core.settled_frozen, Core.frozen, hf]
    by_cases h : r = .cmp <;> simp [h, hr]

/-! ### The finish of an operation (R17, R34) -/

/-- The results of an operation, landed. -/
def Core.landAll (k : Core) (op : Op) : Core := op.dests.foldl (fun k d => (k.landFrom op.id d).nudge true d) k

theorem Core.landAll_keeps {g : Seq → α} (hx : ∀ (s : Seq) n l, g (s.setX n l) = g s)
    (hl : ∀ (s : Seq) l, g { s with loops := l } = g s) (hw : ∀ (s : Seq) l, g { s with wrote := l } = g s)
    (hn : ∀ s : Seq, g { s with nudged := true } = g s) (op : Op) (r : SeqId) : g ((k.landAll op).seq r) = g (k.seq r) :=
  List.foldlRecOn (motive := fun k' : Core => g (k'.seq r) = g (k.seq r)) _ _ rfl fun _ h d _ =>
    (Core.nudge_keeps hn true d r).trans ((Core.landFrom_keeps hx hl hw op.id d r).trans h)

theorem Core.landAll_sameTime (op : Op) : k.SameTime (k.landAll op) :=
  Core.foldl_sameTime fun _ d => (Core.landFrom_sameTime op.id d).trans (Core.nudge_sameTime true d)

/-- A core in which an operation's results have landed, its actions are done and its flags are set. -/
def Core.flagged (k : Core) (op : Op) : Core := (op.fin.foldl Core.finAct (k.landAll op)).onSeq op.seq fun s => s.flag op.flags

theorem foldl_finAct_seq (l : List Fin_) (r : SeqId) : (l.foldl Core.finAct k).seq r = k.seq r :=
  List.foldlRecOn (motive := fun k' : Core => k'.seq r = k.seq r) l _ rfl fun _ h a _ => (Core.finAct_seq a r).trans h

theorem foldl_finAct_vq (l : List Fin_) : (l.foldl Core.finAct k).vq = k.vq :=
  List.foldlRecOn (motive := fun k' : Core => k'.vq = k.vq) l _ rfl fun _ h a _ => (Core.finAct_vq a).trans h

theorem foldl_finAct_ops (l : List Fin_) : (l.foldl Core.finAct k).ops = k.ops :=
  List.foldlRecOn (motive := fun k' : Core => k'.ops = k.ops) l _ rfl fun _ h a _ => by cases a <;> exact h

theorem Core.flagged_keeps {g : Seq → α} (hg : ∀ (s : Seq) f, g { s with status := f } = g s) (op : Op) (r : SeqId) :
    g ((k.flagged op).seq r) = g ((k.landAll op).seq r) :=
  (Core.onSeq_keeps (fun s => hg s _) op.seq r).trans (congrArg g (foldl_finAct_seq op.fin r))

/-- The status that an operation leaves: its flags in its own sequencer's. -/
theorem Core.flagged_status (op : Op) (r : SeqId) :
    ((k.flagged op).seq r).status = if r = op.seq then ((k.seq r).flag op.flags).status else (k.seq r).status := by
  have landed : ((k.landAll op).seq r).status = (k.seq r).status :=
    Core.landAll_keeps (fun _ _ _ => rfl) (fun _ _ => rfl) (fun _ _ => rfl) (fun _ => rfl) op r
  unfold Core.flagged
  split
  next h =>
    subst h
    rw [Core.onSeq_seq, foldl_finAct_seq]
    simp only [Seq.flag, landed]
  next h => rw [Core.onSeq_seq_ne _ _ h, foldl_finAct_seq, landed]

/-- A sequencer that an operation blocks goes on once it has finished. -/
def Seq.unblock (s : Seq) (o : Nat) : Seq := if s.blockedOn = some o then { s with blockedOn := none } else s

theorem Seq.unblock_keeps {g : Seq → α} (hg : ∀ s : Seq, g { s with blockedOn := none } = g s) (s : Seq) (o : Nat) :
    g (s.unblock o) = g s := by
  unfold Seq.unblock
  split
  · exact hg s
  · rfl

theorem Core.finish_seq (op : Op) (r : SeqId) :
    (k.finish op).seq r = (((k.flagged op).postTokens op.seq op.pu op.pd).seq r).unblock op.id := by
  cases r <;> rfl

theorem Core.finish_keeps {g : Seq → α} (hb : ∀ s : Seq, g { s with blockedOn := none } = g s)
    (hu : ∀ s : Seq, g { s with inUp := s.inUp.posting 1 } = g s) (hd : ∀ s : Seq, g { s with inDown := s.inDown.posting 1 } = g s)
    (op : Op) (r : SeqId) : g ((k.finish op).seq r) = g ((k.flagged op).seq r) := by
  rw [Core.finish_seq, Seq.unblock_keeps hb, Core.postTokens_keeps hu hd]

theorem Core.finish_ops (op : Op) : (k.finish op).ops = k.ops.filter fun x => decide (x.id ≠ op.id) := by
  have h : ((k.flagged op).postTokens op.seq op.pu op.pd).ops = k.ops := by
    rw [(Core.postTokens_sameTime op.seq op.pu op.pd).ops, Core.flagged, Core.onSeq_ops, foldl_finAct_ops,
      (Core.landAll_sameTime op).ops]
  exact congrArg (List.filter _) h

theorem Core.finish_vq (op : Op) : (k.finish op).vq = (k.landAll op).vq := by
  have h : ((k.flagged op).postTokens op.seq op.pu op.pd).vq = (k.landAll op).vq := by
    rw [Core.postTokens_vq, Core.flagged, Core.onSeq_vq, foldl_finAct_vq]
  exact h

theorem Core.finish_blockedOn (op : Op) (r : SeqId) :
    ((k.finish op).seq r).blockedOn = if (k.seq r).blockedOn = some op.id then none else (k.seq r).blockedOn := by
  have h : (((k.flagged op).postTokens op.seq op.pu op.pd).seq r).blockedOn = (k.seq r).blockedOn :=
    (Core.postTokens_keeps (fun _ => rfl) (fun _ => rfl) _ _ _ r).trans <| (Core.flagged_keeps (fun _ _ => rfl) op r).trans <|
      Core.landAll_keeps (fun _ _ _ => rfl) (fun _ _ => rfl) (fun _ _ => rfl) (fun _ => rfl) op r
  rw [Core.finish_seq, Seq.unblock, h]
  split
  · rfl
  · exact h

/-- The tokens of an operation are posted as it finishes, as those of an instruction that finishes at once. -/
theorem Core.finish_tokens (op : Op) (r : SeqId) :
    ((k.finish op).seq r).inDown = ((k.postTokens op.seq op.pu op.pd).seq r).inDown ∧
      ((k.finish op).seq r).inUp = ((k.postTokens op.seq op.pu op.pd).seq r).inUp := by
  have h : ((k.flagged op).seq r).inDown = (k.seq r).inDown ∧ ((k.flagged op).seq r).inUp = (k.seq r).inUp ∧
      ((k.flagged op).seq r).exited = (k.seq r).exited := by
    have kept := (Core.flagged_keeps (g := fun s => (s.inDown, s.inUp, s.exited)) (fun _ _ => rfl) op r).trans
      (Core.landAll_keeps (k := k) (g := fun s => (s.inDown, s.inUp, s.exited)) (fun _ _ _ => rfl) (fun _ _ => rfl) (fun _ _ => rfl)
        (fun _ => rfl) op r)
    simpa using kept
  obtain ⟨hd, hu, he⟩ := h
  rw [Core.finish_seq, Seq.unblock_keeps (g := Seq.inDown) fun _ => rfl, Seq.unblock_keeps (g := Seq.inUp) fun _ => rfl]
  simp only [Core.postTokens_inDown, Core.postTokens_inUp, hd, hu, he, and_self]

theorem Core.finish_xslots {op : Op} {q : SeqId} {n : BitVec 4} {slot : Nat} {v : Word} (h : op.dests = [.x q n slot v])
    (he : (k.seq q).exited = false) (hw : SMap.wf (k.seq q).xq = true) :
    ((k.finish op).seq q).xslots n = ((k.seq q).xslots n).map fun y => if y.id = slot then ⟨slot, .present v⟩ else y := by
  have landed : k.landAll op = (k.land (.x q n slot v)).nudge true (.x q n slot v) := by
    simp [Core.landAll, h, Core.landFrom_of_register_none (d := .x q n slot v) rfl]
  rw [Core.finish_keeps (g := fun s => s.xslots n) (fun _ => rfl) (fun _ => rfl) (fun _ => rfl),
    Core.flagged_keeps (g := fun s => s.xslots n) fun _ _ => rfl, landed,
    Core.nudge_keeps (g := fun s => s.xslots n) fun _ => rfl, Core.land_xslots he hw, if_pos rfl]

theorem Core.finish_vslots {op : Op} {n : BitVec 4} {slot : Nat} {v : VEntry} (h : op.dests = [.v n slot v])
    (he : k.cmp.exited = false) (hw : SMap.wf k.vq = true) :
    (k.finish op).vslots n = (k.vslots n).map fun y => if y.id = slot then ⟨slot, .present v⟩ else y := by
  have landed : k.landAll op = (k.land (.v n slot v)).nudge true (.v n slot v) := by
    simp [Core.landAll, h, Core.landFrom_of_register_none (d := .v n slot v) rfl]
  have hv : (k.finish op).vslots n = (k.land (.v n slot v)).vslots n := by
    simp only [Core.vslots, Core.finish_vq, landed, Core.nudge_vq]
  rw [hv, Core.land_vslots he hw, if_pos rfl]

/-! ### The events that serve an operation -/

theorem Mach.finish_core (m : Mach) (c : Nat) (op : Op) : ∃ fin, (m.finish c op).core c = (m.core c).finish { op with fin := fin } := by
  have h : (op.fin.foldl Mach.finAct m).core c = m.core c :=
    List.foldlRecOn (motive := fun m' : Mach => m'.core c = m.core c) _ _ rfl fun _ h a _ => by cases a <;> exact h
  exact ⟨_, by rw [Mach.finish, Mach.onCore_core, h]⟩

theorem serve_values {t : Trust} {c : Nat} {op : Op} {m : Mach} (hk : op.kind = .values)
    (hl : op.load.bind LoadRef.slice = none) : serve t c op m = m.finish c op := by
  simp only [serve, hk]
  split
  next h => simp [h] at hl
  · rfl

/-- An operation that only waits to land is served by the event for its results. -/
theorem serveIf_values {t : Trust} {c o : Nat} {op : Op} {m : Mach} {queue : Bool} (hlater : (m.core c).later = [])
    (hop : (m.core c).ops.find? (fun x => decide (x.id = o)) = some op) (hk : op.kind = .values)
    (hl : op.load.bind LoadRef.slice = none) (hq : op.dests.any Landing.isQueue = queue) :
    serveIf queue t c o m = m.finish c op := by
  have h : (m.core c).open? o = some op := by simp [Core.open?, Core.op?, hlater, hop]
  simp only [serveIf, h, hq, if_true, serve_values hk hl]

/-! ### The parts of the statement -/

/-- A landing in a scalar queue changes that queue of that sequencer alone. -/
theorem Core.land_x_frame {q : SeqId} {n : BitVec 4} {slot : Nat} {v : Word} :
    (∀ r, r ≠ q → (k.land (.x q n slot v)).seq r = k.seq r) ∧ (k.land (.x q n slot v)).vq = k.vq ∧
      (k.land (.x q n slot v)).masks = k.masks ∧ (k.land (.x q n slot v)).local_ = k.local_ := by
  simp only [Core.land]
  split
  · exact ⟨fun _ _ => rfl, rfl, rfl, rfl⟩
  · exact ⟨fun r hr => Core.onSeq_seq_ne k _ hr, by simp, by simp, by simp⟩

/-- A landing in a vector queue changes that queue alone. -/
theorem Core.land_v_frame {n : BitVec 4} {slot : Nat} {v : VEntry} :
    (∀ r, (k.land (.v n slot v)).seq r = k.seq r) ∧ (k.land (.v n slot v)).masks = k.masks ∧
      (k.land (.v n slot v)).local_ = k.local_ := by
  simp only [Core.land]
  split
  · exact ⟨fun _ => rfl, rfl, rfl⟩
  · exact ⟨fun r => by cases r <;> rfl, rfl, rfl⟩

/-- A landing in a loop register. -/
theorem Core.land_loop {q : SeqId} {n : BitVec 3} {v : Word} (hw : SMap.wf (k.seq q).loops = true) (j : Nat) :
    SMap.getD ((k.land (.loop q n v)).seq q).loops j 0 = if j = n.toNat then v else SMap.getD (k.seq q).loops j 0 := by
  simp only [Core.land, Core.onSeq_seq, SMap.getD_put hw]

/-- A landing in a mask. -/
theorem Core.land_mask {r : Fin 7} {v : MaskBits} {w : Word} (hw : SMap.wf k.masks = true) (j : Nat) :
    ((k.land (.mask r v w)).maskReg j).bits = if j = r.val + 1 then v else (k.maskReg j).bits := by
  simp only [Core.land, Core.maskReg]
  by_cases hj : j = 0
  · simp [hj]
  · simp only [hj, if_false, SMap.getD_put hw]
    split <;> rfl

/-- What a finished instruction's tokens leave alone. -/
theorem Core.postTokens_frame (q : SeqId) (pu pd : Bool) (r : SeqId) :
    ((k.postTokens q pu pd).seq r).xq = (k.seq r).xq ∧ ((k.postTokens q pu pd).seq r).pc = (k.seq r).pc ∧
      ((k.postTokens q pu pd).seq r).status = (k.seq r).status := by
  have h := Core.postTokens_calm k q pu pd
  exact ⟨xq_of_calm h r, pc_of_calm h r, status_of_calm h r⟩

theorem Env.timed_core (e : Env) (m : Mach) (latency : Nat) (l : Landing) (satur divz : Bool) :
    (e.timed m latency l satur divz).core e.c = (m.core e.c).onSeq e.q fun s =>
      { s with timed := s.timed ++ [⟨m.ids, s.clock + latency, l, satur, divz, e.tok.pu, e.tok.pd⟩] } :=
  Mach.onCore_core m e.c _

theorem Core.finish_status (op : Op) (r : SeqId) :
    ((k.finish op).seq r).status = if r = op.seq then ((k.seq r).flag op.flags).status else (k.seq r).status :=
  (Core.finish_keeps (fun _ => rfl) (fun _ => rfl) (fun _ => rfl) op r).trans (Core.flagged_status op r)

end

/-- Settles O18, part by part: landing through the table of slots, tokens through the queue a push enters, the end of a cycle
through what keeps a core's time, and the finish of an operation. -/
theorem resultLanding : Obligations.ResultLanding := by
  refine ⟨fun k q n slot v => ⟨fun h => ?_, fun he hw => ⟨?_, fun j hj => ?_, Core.land_x_frame⟩⟩,
    fun k n slot v => ⟨fun h => ?_, fun he hw => ⟨?_, fun j hj => ?_, Core.land_v_frame⟩⟩,
    fun k id d => ⟨fun n hd hw => ?_, Core.landFrom_of_register_none⟩,
    fun k q r v hw => ⟨Core.land_loop hw, ?_, ?_, ?_, ?_⟩, fun k r v hw => ⟨Core.land_mask hw, fun q => ?_, rfl, rfl⟩,
    fun v j hj => maskOfCount_getLsbD v hj, fun k q r => Core.landTimed_flags q r,
    fun k q pu pd => ⟨?_, ?_, fun r hr => ?_, fun r hr => ?_, Core.postTokens_frame q pu pd, Core.postTokens_vq q pu pd,
      fun e m hq hu hd hm => ?_⟩,
    fun e m latency l satur divz => ?_,
    fun m c hf hl => ?_,
    fun k op => ⟨Core.finish_ops op, Core.finish_blockedOn op, ?_, fun q hq => ?_, (Core.finish_tokens op _).1,
      (Core.finish_tokens op _).2, fun q n slot v hd he hw => Core.finish_xslots hd he hw,
      fun n slot v hd he hw => Core.finish_vslots hd he hw⟩,
    fun s c o op queue hlater hop hk hl hq => ⟨?_, fun x hx => ?_⟩⟩
  · simp [Core.land, h]
  · rw [Core.land_xslots he hw, if_pos rfl]
  · rw [Core.land_xslots he hw, if_neg hj]
  · simp [Core.land, h]
  · rw [Core.land_vslots he hw, if_pos rfl]
  · rw [Core.land_vslots he hw, if_neg hj]
  · obtain ⟨by_, hw, hid⟩ := hw
    cases d with
    | loop q i v => exact Core.landFrom_overtaken rfl (by simp_all [Landing.register]) hid
    | mask i v w => exact Core.landFrom_overtaken rfl (by simp_all [Landing.register]) hid
    | _ => cases hd
  · simp [Core.land]
  · simp [Core.land]
  · simp [Core.land]
  · simp [Core.land]
  · cases q <;> rfl
  · simp only [Core.postTokens_inDown, true_and]; rfl
  · simp only [Core.postTokens_inUp, true_and]; rfl
  · simp only [Core.postTokens_inDown, hr, false_and, and_false, if_false]
  · simp only [Core.postTokens_inUp, hr, false_and, and_false, if_false]
  · subst hq hu hd hm
    exact Mach.onCore_core m e.c _
  · simp only [Env.timed_core, Core.onSeq_seq, Core.onSeq_vq, Core.onSeq_masks, and_self, and_true, true_and]
    exact fun r hr => Core.onSeq_seq_ne _ _ hr
  · obtain ⟨hcycles, hup, hdown, hclock⟩ := by simpa only [forall_and] using Mach.tick_counts hf hl
    exact ⟨hcycles .ctl, hup, hdown, hclock⟩
  · rw [Core.finish_status, if_pos rfl]
    rfl
  · rw [Core.finish_status, if_neg hq]
  · cases queue with
    | true => exact congrArg (fun m => Host.Outcome.next (s.on m)) (serveIf_values hlater hop hk hl hq)
    | false => exact congrArg (fun m => Host.Outcome.next (s.on m)) (serveIf_values hlater hop hk hl hq)
  · obtain ⟨fin, hfin⟩ := Mach.finish_core s.mach c op
    rw [hfin, Core.finish_ops] at hx
    exact of_decide_eq_true (List.mem_filter.1 hx).2

end Sys2Proof.Machine
end

