-- ==== Sys2Proof/Proofs/TrustEvents.lean ====
section
/-! The statement about the trust die's events fails: DESTROY can write host memory. -/

namespace Sys2Proof.Machine

/-! ### A context destroyed in the middle of a copy's run -/

/-- A copy from host memory to host memory with its one run read and the first of its two bytes written. -/
def midCopy : CopyOp where
  obj := 0
  ssp := 4
  dsp := 4
  sbase := 0
  dbase := 0
  n0 := 2
  n1 := 1
  n2 := 1
  sstr1 := 0
  sstr2 := 0
  dstr1 := 0
  dstr2 := 0
  pkg := 0
  begun := true
  run := 0
  buf := some [1, 1]
  done := 1
  super := false

/-- A core whose group, of context 1, has that copy under way. -/
def midCopyCore : Core :=
  { Core.reset with
    group := some
      { gid := ⟨0, 0⟩, ctx := 1, req := 0, node := 0, hash := 0, table := [], lens := [], draining := false, want := false,
        bank := false, live0 := true, live1 := false, lostMark := 0, spill0 := none, spill1 := none, spillBad := [],
        held := false, preempt := none, evicted := [], slotAt := 0 }
    ops := [⟨0, .ctl, false, false, .cpy midCopy, [], 0, [], none, 0⟩] }

/-- A context of function 0 without pages. -/
def midCopyContext : Context where
  func := 0
  root := 0
  tables := []
  pages := []
  quotas := []
  saveBase := 0
  slots := 1
  usedSlots := []
  lossAddr := 0
  fabric := false
  publishers := []

/-- The machine after reset with context 1 created and that core running. -/
def midCopyState : State :=
  { State.reset with mach := { Mach.reset with cores := [(0, midCopyCore)], contexts := [(1, midCopyContext)] } }

/-- The eviction of a destroyed context's group writes the copy's run to its end (R398), so byte 1 of host memory is written. -/
theorem midCopy_destroyed_host : (destroy 1 midCopyState).mach.host = [(1, 1)] := by decide +kernel

/-- Refutes O52: DESTROY evicts the context's groups, and the eviction finishes the run that a copy into host memory is in the
middle of, so host memory is not as it was before. -/
theorem not_trustEvents : ¬ Obligations.TrustEvents := by
  unfold Obligations.TrustEvents
  rintro ⟨-, -, -, -, -, -, -, -, -, -, hdestroy, -⟩
  obtain ⟨-, hheld⟩ := hdestroy midCopyState 1 rfl
  obtain ⟨s', hexec, -, -, -, -, hhost⟩ := hheld (fun h => nomatch h) rfl rfl
  have hs' : destroy 1 midCopyState = s' := Host.Outcome.next.inj hexec
  rw [← hs', midCopy_destroyed_host] at hhost
  cases hhost

end Sys2Proof.Machine
end

