-- ==== Sys2Proof/Proofs/OrderedState.lean ====
section
/-! SUPPORT for the statement that every step keeps the tables ordered: the rules of the state's operations, and the operands. -/

namespace Sys2Proof.Machine

/-! ### Ordered tables -/

/-- The tables of a sequencer have rising keys. -/
def Seq.Rising (s : Seq) : Prop := SMap.wf s.xq = true ∧ SMap.wf s.loops = true

/-- The tables of a pool have rising keys. -/
def Pool.Rising (p : Pool) : Prop := SMap.wf p.frames = true ∧ SMap.wf p.usage = true

/-- The cores' table has rising keys, and so have the tables of every core. -/
def CoresRising (cores : SMap Core) : Prop := SMap.wf cores = true ∧ ∀ c, (SMap.getD cores c .reset).Rising

/-- The tables of every saved image have rising keys. -/
def ImagesRising (l : List Saved) : Prop := ∀ x ∈ l, x.image.Rising

/-- The tables of every pool have rising keys. -/
def PoolsRising (pools : SMap Pool) : Prop := ∀ p, (SMap.getD pools p .reset).Rising

/-- The map of every sequence of blocks has rising keys. -/
def MapsRising (l : List BSeq) : Prop := ∀ q ∈ l, SMap.wf q.map = true

/-- The numbers of the requests lie below n. -/
def RidsBelow (n : Nat) (l : List Request) : Prop := ∀ r ∈ l, r.rid < n

/-- The numbers of the launches lie below n. -/
def NumsBelow (n : Nat) (l : List Launch) : Prop := ∀ x ∈ l, x.num < n

/-- What `State.Tables` says of the package machine. -/
def Mach.Ordered (m : Mach) : Prop :=
  CoresRising m.cores ∧ SMap.wf m.contexts = true ∧ ImagesRising m.saved ∧ PoolsRising m.pools ∧ MapsRising m.seqs ∧
    RidsBelow m.ids m.requests ∧ NumsBelow m.ids m.launches

/-- The tables are ordered when those of the machine are, and the keys of the contexts' memory rise. -/
theorem State.tables_iff {s : State} : s.Tables ↔ s.mach.Ordered ∧ SMap.wf s.trust.xtsKeys = true := by
  unfold State.Tables Mach.Ordered
  constructor
  · rintro ⟨hcores, hctx, hkeys, hcore, himg, hpool, hmap, hrid, hnum⟩
    exact ⟨⟨⟨hcores, hcore⟩, hctx, himg, hpool, hmap, hrid, hnum⟩, hkeys⟩
  · rintro ⟨⟨⟨hcores, hcore⟩, hctx, himg, hpool, hmap, hrid, hnum⟩, hkeys⟩
    exact ⟨hcores, hctx, hkeys, hcore, himg, hpool, hmap, hrid, hnum⟩

section
variable {m : Mach} {k : Core}

/-! ### Parts and wholes -/

theorem Core.rising_iff : k.Rising ↔ k.ctl.Rising ∧ k.ld.Rising ∧ k.cmp.Rising ∧ k.st.Rising ∧ SMap.wf k.vq = true ∧
    SMap.wf k.masks = true ∧ SMap.wf k.granules = true := by
  constructor
  · rintro ⟨hs, hv⟩
    exact ⟨hs .ctl, hs .ld, hs .cmp, hs .st, hv⟩
  · rintro ⟨hctl, hld, hcmp, hst, hv⟩
    exact ⟨fun q => by cases q <;> assumption, hv⟩

/-- A sequencer given by its fields. -/
@[simp] theorem Seq.rising_mk_iff {pc : Offset} {xq : SMap (List (QSlot Word))} {loops : SMap Word} {stack : List LoopLevel}
    {inUp inDown : TokQ} {status : Status} {trapCause trapPc trapInfo wdLimit : Word} {wdCount stall clock readyAt : Nat}
    {pause : Pause} {nudged : Bool} {timed : List Timed} {exited stopped taken : Bool} {stopClock : Nat}
    {yielded timeout : Bool} {blockedOn : Option Nat} {wrote : SMap (Nat × Nat)} {undo : List (Timed × Landing)}
    {flags0 : BitVec 7} {waitsOut : Bool} {keyWait : Option KeyWait} :
    Seq.Rising ⟨pc, xq, loops, stack, inUp, inDown, status, trapCause, trapPc, trapInfo, wdLimit, wdCount, stall, clock,
      readyAt, pause, nudged, timed, exited, stopped, taken, stopClock, yielded, timeout, blockedOn, wrote, undo, flags0,
      waitsOut, keyWait⟩ ↔
      SMap.wf xq = true ∧ SMap.wf loops = true :=
  Iff.rfl

/-- A core given by its fields. -/
@[simp] theorem Core.rising_mk_iff {group : Option Group} {ctl ld cmp st : Seq} {vq : SMap (List (QSlot VEntry))}
    {masks : SMap MaskReg} {local_ : Mem} {localPoison : List Nat} {granules : SMap Owner} {lines : List Line}
    {posted : List Posted} {later : List Later} {ops : List Op} {seed : Word} {step : BitVec 32} {objs : SMap CompObj}
    {bindings : List Binding} {view : List Hold} {clause : Option Clause} {aRows : List (Nat × ARow)} {column : Column}
    {cycles : Word} {freeze : Freeze} {replay : Nat} {active shadow : SMap Plane} {failed ended : Bool} :
    Core.Rising ⟨group, ctl, ld, cmp, st, vq, masks, local_, localPoison, granules, lines, posted, later, ops, seed, step,
      objs, bindings, view, clause, aRows, column, cycles, freeze, replay, active, shadow, failed, ended⟩ ↔
      ctl.Rising ∧ ld.Rising ∧ cmp.Rising ∧ st.Rising ∧ SMap.wf vq = true ∧ SMap.wf masks = true ∧ SMap.wf granules = true :=
  Core.rising_iff

/-- A machine given by its fields. -/
@[simp] theorem Mach.ordered_mk_iff {cores : SMap Core} {arrays : SMap Array_} {global dram : Mem} {written : List Nat}
    {host : Mem} {globalPoison dramPoison : List Nat} {slices : SMap Slice} {dieClock : SMap Nat} {regions : List Region}
    {relMarks : SMap RelMark} {seqs : List BSeq} {pools : SMap Pool} {channels : List Channel} {waybills : List Waybill}
    {levels : SMap (List QRecord)} {refused : SMap (BitVec 32)} {malformed saturation : BitVec 32} {requests : List Request}
    {launches : List Launch} {streams : List Stream} {saved : List Saved} {banks : SMap Bank}
    {cycleErrs : SMap (Bank × List BankErr)} {links : SMap LinkSt} {notices : List Notice} {contexts : SMap Context}
    {retiredPages : List Nat} {collectives : SMap Collective} {unreachable : List (BitVec 10)}
    {remoteShares : List (BitVec 10 × Nat × Nat × Gid × Right)} {admitted : List Admitted} {inbox : List Reply}
    {outbox : List Sent} {free ids : Nat} :
    Mach.Ordered ⟨cores, arrays, global, dram, written, host, globalPoison, dramPoison, slices, dieClock, regions, relMarks,
      seqs, pools, channels, waybills, levels, refused, malformed, saturation, requests, launches, streams, saved, banks,
      cycleErrs, links, notices, contexts, retiredPages, collectives, unreachable, remoteShares, admitted, inbox, outbox,
      free, ids⟩ ↔
      CoresRising cores ∧ SMap.wf contexts = true ∧ ImagesRising saved ∧ PoolsRising pools ∧ MapsRising seqs ∧
        RidsBelow ids requests ∧ NumsBelow ids launches :=
  Iff.rfl

/-- A machine that differs only in what the order does not speak of. -/
theorem Mach.ordered_parts_iff {m : Mach} {arrays : SMap Array_} {global dram : Mem} {written : List Nat}
    {host : Mem} {globalPoison dramPoison : List Nat} {slices : SMap Slice} {dieClock : SMap Nat} {regions : List Region}
    {relMarks : SMap RelMark} {channels : List Channel} {waybills : List Waybill} {levels : SMap (List QRecord)}
    {refused : SMap (BitVec 32)} {malformed saturation : BitVec 32} {streams : List Stream} {banks : SMap Bank}
    {cycleErrs : SMap (Bank × List BankErr)} {links : SMap LinkSt} {notices : List Notice} {retiredPages : List Nat}
    {collectives : SMap Collective} {unreachable : List (BitVec 10)}
    {remoteShares : List (BitVec 10 × Nat × Nat × Gid × Right)} {admitted : List Admitted} {inbox : List Reply}
    {outbox : List Sent} {free : Nat} :
    Mach.Ordered ⟨m.cores, arrays, global, dram, written, host, globalPoison, dramPoison, slices, dieClock, regions, relMarks,
      m.seqs, m.pools, channels, waybills, levels, refused, malformed, saturation, m.requests, m.launches, streams, m.saved,
      banks, cycleErrs, links, notices, m.contexts, retiredPages, collectives, unreachable, remoteShares, admitted, inbox,
      outbox, free, m.ids⟩ ↔ m.Ordered :=
  Iff.rfl

/-- A pool given by its fields. -/
@[simp] theorem Pool.rising_mk_iff {first : Nat} {retired : List Nat} {frames : SMap Frame} {rsv : Nat} {usage : SMap Nat}
    {occupants : List Nat} {reserved : Option Nat} : Pool.Rising ⟨first, retired, frames, rsv, usage, occupants, reserved⟩ ↔
      SMap.wf frames = true ∧ SMap.wf usage = true :=
  Iff.rfl

/-- A sequencer that differs only in what is no table. -/
theorem Seq.rising_parts_iff {s : Seq} {pc : Offset} {stack : List LoopLevel} {inUp inDown : TokQ}
    {status : Status} {trapCause trapPc trapInfo wdLimit : Word} {wdCount stall clock readyAt : Nat} {pause : Pause}
    {nudged : Bool} {timed : List Timed} {exited stopped taken : Bool} {stopClock : Nat} {yielded timeout : Bool}
    {blockedOn : Option Nat} {wrote : SMap (Nat × Nat)} {undo : List (Timed × Landing)} {flags0 : BitVec 7} {waitsOut : Bool}
    {keyWait : Option KeyWait} :
    Seq.Rising ⟨pc, s.xq, s.loops, stack, inUp, inDown, status, trapCause, trapPc, trapInfo, wdLimit, wdCount, stall, clock,
      readyAt, pause, nudged, timed, exited, stopped, taken, stopClock, yielded, timeout, blockedOn, wrote, undo, flags0,
      waitsOut, keyWait⟩ ↔ s.Rising :=
  Iff.rfl

/-- A core that differs only in what is no table. -/
theorem Core.rising_parts_iff {k : Core} {group : Option Group} {local_ : Mem} {localPoison : List Nat}
    {lines : List Line} {posted : List Posted} {later : List Later} {ops : List Op} {seed : Word} {step : BitVec 32}
    {objs : SMap CompObj} {bindings : List Binding} {view : List Hold} {clause : Option Clause} {aRows : List (Nat × ARow)}
    {column : Column} {cycles : Word} {freeze : Freeze} {replay : Nat} {active shadow : SMap Plane} {failed ended : Bool} :
    Core.Rising ⟨group, k.ctl, k.ld, k.cmp, k.st, k.vq, k.masks, local_, localPoison, k.granules, lines, posted, later, ops,
      seed, step, objs, bindings, view, clause, aRows, column, cycles, freeze, replay, active, shadow, failed, ended⟩ ↔ k.Rising :=
  Core.rising_iff.trans Core.rising_iff.symm

/-- The tables of a sequencer that are as they were. -/
@[simp] theorem Seq.tables_wf_iff_rising {s : Seq} : SMap.wf s.xq = true ∧ SMap.wf s.loops = true ↔ s.Rising := Iff.rfl

/-- The tables of a core that are as they were. -/
@[simp] theorem Core.tables_wf_iff_rising : k.ctl.Rising ∧ k.ld.Rising ∧ k.cmp.Rising ∧ k.st.Rising ∧ SMap.wf k.vq = true ∧
    SMap.wf k.masks = true ∧ SMap.wf k.granules = true ↔ k.Rising := Core.rising_iff.symm

/-- The tables of a machine that are as they were. -/
@[simp] theorem Mach.tables_wf_iff_ordered : CoresRising m.cores ∧ SMap.wf m.contexts = true ∧ ImagesRising m.saved ∧
    PoolsRising m.pools ∧ MapsRising m.seqs ∧ RidsBelow m.ids m.requests ∧ NumsBelow m.ids m.launches ↔ m.Ordered := Iff.rfl

@[simp] theorem Seq.Rising.xq_wf {s : Seq} (h : s.Rising) : SMap.wf s.xq = true := h.1
@[simp] theorem Seq.Rising.loops_wf {s : Seq} (h : s.Rising) : SMap.wf s.loops = true := h.2

@[simp] theorem Core.Rising.seq (h : k.Rising) (q : SeqId) : (k.seq q).Rising := h.1 q
@[simp] theorem Core.Rising.ctl (h : k.Rising) : k.ctl.Rising := h.1 .ctl
@[simp] theorem Core.Rising.ld (h : k.Rising) : k.ld.Rising := h.1 .ld
@[simp] theorem Core.Rising.cmp (h : k.Rising) : k.cmp.Rising := h.1 .cmp
@[simp] theorem Core.Rising.st (h : k.Rising) : k.st.Rising := h.1 .st
@[simp] theorem Core.Rising.xq_wf (h : k.Rising) (q : SeqId) : SMap.wf (k.seq q).xq = true := (h.seq q).1
@[simp] theorem Core.Rising.loops_wf (h : k.Rising) (q : SeqId) : SMap.wf (k.seq q).loops = true := (h.seq q).2
@[simp] theorem Core.Rising.vq_wf (h : k.Rising) : SMap.wf k.vq = true := h.2.1
@[simp] theorem Core.Rising.masks_wf (h : k.Rising) : SMap.wf k.masks = true := h.2.2.1
@[simp] theorem Core.Rising.granules_wf (h : k.Rising) : SMap.wf k.granules = true := h.2.2.2

@[simp] theorem Pool.Rising.frames_wf {p : Pool} (h : p.Rising) : SMap.wf p.frames = true := h.1
@[simp] theorem Pool.Rising.usage_wf {p : Pool} (h : p.Rising) : SMap.wf p.usage = true := h.2

@[simp] theorem Mach.Ordered.cores (h : m.Ordered) : CoresRising m.cores := h.1
@[simp] theorem Mach.Ordered.contexts (h : m.Ordered) : SMap.wf m.contexts = true := h.2.1
@[simp] theorem Mach.Ordered.saved (h : m.Ordered) : ImagesRising m.saved := h.2.2.1
@[simp] theorem Mach.Ordered.pools (h : m.Ordered) : PoolsRising m.pools := h.2.2.2.1
@[simp] theorem Mach.Ordered.seqs (h : m.Ordered) : MapsRising m.seqs := h.2.2.2.2.1
@[simp] theorem Mach.Ordered.requests (h : m.Ordered) : RidsBelow m.ids m.requests := h.2.2.2.2.2.1
@[simp] theorem Mach.Ordered.launches (h : m.Ordered) : NumsBelow m.ids m.launches := h.2.2.2.2.2.2
@[simp] theorem Mach.Ordered.core (h : m.Ordered) (c : Nat) : (m.core c).Rising := h.cores.2 c
@[simp] theorem Mach.Ordered.pool (h : m.Ordered) (p : Nat) : (m.pool p).Rising := h.pools p

@[simp] theorem Mach.Ordered.frames_wf (h : m.Ordered) (p : Nat) : SMap.wf (m.pool p).frames = true := (h.pool p).1
@[simp] theorem Mach.Ordered.usage_wf (h : m.Ordered) (p : Nat) : SMap.wf (m.pool p).usage = true := (h.pool p).2

@[simp] theorem RidsBelow.succ {n : Nat} {l : List Request} (h : RidsBelow n l) : RidsBelow (n + 1) l :=
  fun r hr => Nat.lt_succ_of_lt (h r hr)

@[simp] theorem NumsBelow.succ {n : Nat} {l : List Launch} (h : NumsBelow n l) : NumsBelow (n + 1) l :=
  fun x hx => Nat.lt_succ_of_lt (h x hx)

@[simp] theorem RidsBelow.filter {n : Nat} {l : List Request} (h : RidsBelow n l) (f : Request → Bool) :
    RidsBelow n (l.filter f) := fun r hr => h r (List.mem_of_mem_filter hr)

@[simp] theorem NumsBelow.filter {n : Nat} {l : List Launch} (h : NumsBelow n l) (f : Launch → Bool) :
    NumsBelow n (l.filter f) := fun x hx => h x (List.mem_of_mem_filter hx)

@[simp] theorem ImagesRising.filter {l : List Saved} (h : ImagesRising l) (f : Saved → Bool) : ImagesRising (l.filter f) :=
  fun x hx => h x (List.mem_of_mem_filter hx)

@[simp] theorem MapsRising.filter {l : List BSeq} (h : MapsRising l) (f : BSeq → Bool) : MapsRising (l.filter f) :=
  fun x hx => h x (List.mem_of_mem_filter hx)

@[simp] theorem mapsRising_append {l l' : List BSeq} : MapsRising (l ++ l') ↔ MapsRising l ∧ MapsRising l' :=
  List.forall_mem_append

@[simp] theorem mapsRising_singleton {q : BSeq} : MapsRising [q] ↔ SMap.wf q.map = true := List.forall_mem_singleton

@[simp] theorem imagesRising_append {l l' : List Saved} : ImagesRising (l ++ l') ↔ ImagesRising l ∧ ImagesRising l' :=
  List.forall_mem_append

@[simp] theorem imagesRising_singleton {x : Saved} : ImagesRising [x] ↔ x.image.Rising := List.forall_mem_singleton

@[simp] theorem ridsBelow_append {n : Nat} {l l' : List Request} : RidsBelow n (l ++ l') ↔ RidsBelow n l ∧ RidsBelow n l' :=
  List.forall_mem_append

@[simp] theorem ridsBelow_singleton {n : Nat} {r : Request} : RidsBelow n [r] ↔ r.rid < n := List.forall_mem_singleton

@[simp] theorem numsBelow_append {n : Nat} {l l' : List Launch} : NumsBelow n (l ++ l') ↔ NumsBelow n l ∧ NumsBelow n l' :=
  List.forall_mem_append

@[simp] theorem numsBelow_singleton {n : Nat} {x : Launch} : NumsBelow n [x] ↔ x.num < n := List.forall_mem_singleton

/-- The requests changed, each keeping its number. -/
theorem ridsBelow_map_iff {n : Nat} {l : List Request} {f : Request → Request} (hf : ∀ r, (f r).rid = r.rid) :
    RidsBelow n (l.map f) ↔ RidsBelow n l := by simp [RidsBelow, hf]

/-- The launches changed, each keeping its number. -/
theorem numsBelow_map_iff {n : Nat} {l : List Launch} {f : Launch → Launch} (hf : ∀ x, (f x).num = x.num) :
    NumsBelow n (l.map f) ↔ NumsBelow n l := by simp [NumsBelow, hf]

/-- The saved groups changed, each to one whose image has ordered tables. -/
theorem ImagesRising.map {l : List Saved} (h : ImagesRising l) {f : Saved → Saved}
    (hf : ∀ x, x.image.Rising → (f x).image.Rising) : ImagesRising (l.map f) :=
  List.forall_mem_map.2 fun x hx => hf x (h x hx)

/-- The sequences changed, each to one whose map has rising keys. -/
theorem MapsRising.map {l : List BSeq} (h : MapsRising l) {f : BSeq → BSeq}
    (hf : ∀ q, SMap.wf q.map = true → SMap.wf (f q).map = true) : MapsRising (l.map f) :=
  List.forall_mem_map.2 fun q hq => hf q (h q hq)

theorem SMap.filter_wf {α : Type} {m : SMap α} (h : SMap.wf m = true) (f : Nat × α → Bool) : SMap.wf (m.filter f) = true :=
  SMap.wf_iff_pairwise.2 ((SMap.wf_iff_pairwise.1 h).filter f)

theorem SMap.foldl_wf {α β : Type} {m : SMap α} {l : List β} {f : SMap α → β → SMap α} (h : SMap.wf m = true)
    (hf : ∀ m b, SMap.wf m = true → SMap.wf (f m b) = true) : SMap.wf (l.foldl f m) = true :=
  List.foldlRecOn (motive := fun m => SMap.wf m = true) l f h fun m hm b _ => hf m b hm

theorem SMap.mapVals_wf {α β : Type} {m : SMap α} (h : SMap.wf m = true) (f : Nat → α → β) : SMap.wf (SMap.mapVals f m) = true :=
  SMap.wf_iff_pairwise.2 (List.pairwise_map.2 (SMap.wf_iff_pairwise.1 h))

/-! ### The rules of the state -/

@[simp] theorem Mach.ite_ordered_iff {m₁ m₂ : Mach} {p : Prop} [Decidable p] :
    (if p then m₁ else m₂).Ordered ↔ (p → m₁.Ordered) ∧ (¬p → m₂.Ordered) := by
  split <;> simp [*]

@[simp] theorem Core.ite_rising_iff {k₁ k₂ : Core} {p : Prop} [Decidable p] :
    (if p then k₁ else k₂).Rising ↔ (p → k₁.Rising) ∧ (¬p → k₂.Rising) := by
  split <;> simp [*]

@[simp] theorem Seq.ite_rising_iff {s₁ s₂ : Seq} {p : Prop} [Decidable p] :
    (if p then s₁ else s₂).Rising ↔ (p → s₁.Rising) ∧ (¬p → s₂.Rising) := by
  split <;> simp [*]

theorem Mach.Ordered.ite {m₁ m₂ : Mach} {p : Prop} [Decidable p] (h₁ : m₁.Ordered) (h₂ : m₂.Ordered) :
    (if p then m₁ else m₂).Ordered := Mach.ite_ordered_iff.2 ⟨fun _ => h₁, fun _ => h₂⟩

theorem Core.Rising.ite {k₁ k₂ : Core} {p : Prop} [Decidable p] (h₁ : k₁.Rising) (h₂ : k₂.Rising) :
    (if p then k₁ else k₂).Rising := Core.ite_rising_iff.2 ⟨fun _ => h₁, fun _ => h₂⟩

/-- Numbers that have been given out stay given out. -/
theorem Mach.Ordered.withIds (h : m.Ordered) {n : Nat} (hn : m.ids ≤ n) : Mach.Ordered { m with ids := n } :=
  ⟨h.cores, h.contexts, h.saved, h.pools, h.seqs, fun r hr => Nat.lt_of_lt_of_le (h.requests r hr) hn,
    fun x hx => Nat.lt_of_lt_of_le (h.launches x hx) hn⟩

/-- Setting a key drops no key. -/
theorem SMap.mem_set_of_mem {α : Type} {m : SMap α} {p : Nat × α} (h : p ∈ m) (n : Nat) (x : α) :
    ∃ q ∈ SMap.set m n x, q.1 = p.1 := by
  induction m with
  | nil => cases h
  | cons b r ih =>
    obtain ⟨a, v⟩ := b
    simp only [SMap.set]
    rcases List.mem_cons.1 h with rfl | hr
    · split
      next hn => exact ⟨(n, x), by simp, hn⟩
      · split <;> exact ⟨(a, v), by simp, rfl⟩
    · split
      · exact ⟨p, by simp [hr], rfl⟩
      split
      · exact ⟨p, by simp [hr], rfl⟩
      · obtain ⟨q, hq, hqp⟩ := ih hr
        exact ⟨q, by simp [hq], hqp⟩

/-- Setting a key puts no table in order. -/
theorem SMap.wf_of_set {α : Type} {m : SMap α} {n : Nat} {x : α} (h : SMap.wf (SMap.set m n x) = true) : SMap.wf m = true := by
  induction m with
  | nil => rfl
  | cons p r ih =>
    obtain ⟨a, v⟩ := p
    simp only [SMap.set] at h
    split at h
    next hn => exact SMap.wf_cons.2 (hn ▸ SMap.wf_cons.1 h)
    split at h
    · exact (SMap.wf_cons.1 h).2
    · obtain ⟨hlt, hr⟩ := SMap.wf_cons.1 h
      refine SMap.wf_cons.2 ⟨fun p hp => ?_, ih hr⟩
      obtain ⟨q, hq, hqp⟩ := SMap.mem_set_of_mem hp n x
      exact hqp ▸ hlt q hq

theorem setCore_ordered (h : m.Ordered) {c : Nat} (hk : k.Rising) : (m.setCore c k).Ordered := by
  have hcores : CoresRising (m.setCore c k).cores := by
    refine ⟨SMap.set_wf h.cores.1 c k, fun d => ?_⟩
    change ((m.setCore c k).core d).Rising
    by_cases hdc : d = c
    · rw [hdc, Mach.setCore_core]
      exact hk
    · rw [Mach.setCore_core_ne m k hdc]
      exact h.core d
  exact ⟨hcores, h.2⟩

/-- What a core is replaced by in an ordered machine decides. -/
@[simp] theorem setCore_ordered_iff (h : m.Ordered) {c : Nat} : (m.setCore c k).Ordered ↔ k.Rising :=
  ⟨fun hm => by simpa only [Mach.setCore_core] using hm.core c, setCore_ordered h⟩

@[simp] theorem onCore_ordered_iff (h : m.Ordered) {c : Nat} {f : Core → Core} : (m.onCore c f).Ordered ↔ (f (m.core c)).Rising :=
  setCore_ordered_iff h

/-- A core changed in what is no table. -/
theorem setCore_ordered_iff_of {c : Nat} (hk : k.Rising ↔ (m.core c).Rising) : (m.setCore c k).Ordered ↔ m.Ordered := by
  refine ⟨fun h => ⟨⟨SMap.wf_of_set h.cores.1, fun d => ?_⟩, h.2⟩, fun h => setCore_ordered h (hk.2 (h.core c))⟩
  have hd := h.core d
  by_cases hdc : d = c
  · rw [hdc, Mach.setCore_core] at hd
    exact hdc ▸ hk.1 hd
  · rwa [Mach.setCore_core_ne m k hdc] at hd

@[simp] theorem onCore_ordered_iff_of {c : Nat} {f : Core → Core} (hf : ∀ k, (f k).Rising ↔ k.Rising) :
    (m.onCore c f).Ordered ↔ m.Ordered := setCore_ordered_iff_of (hf _)

theorem onCore_ordered (h : m.Ordered) {c : Nat} {f : Core → Core} (hf : ∀ k, k.Rising → (f k).Rising) : (m.onCore c f).Ordered :=
  setCore_ordered h (hf _ (h.core c))

/-- Every core changed to one with ordered tables. -/
theorem CoresRising.mapVals {cores : SMap Core} (h : CoresRising cores) {f : Nat → Core → Core}
    (hf : ∀ c k, k.Rising → (f c k).Rising) : CoresRising (SMap.mapVals f cores) := by
  refine ⟨SMap.mapVals_wf h.1 f, fun c => ?_⟩
  have hc := h.2 c
  simp only [SMap.getD, SMap.get?_mapVals] at hc ⊢
  cases hg : SMap.get? cores c with
  | none => exact Core.reset_rising
  | some k => exact hf c k (by simpa [hg] using hc)

theorem Core.onSeq_seq_same (k : Core) (q : SeqId) (f : Seq → Seq) : (k.onSeq q f).seq q = f (k.seq q) := by cases q <;> rfl

/-- What a sequencer is replaced by in a core with ordered tables decides. -/
@[simp] theorem Core.onSeq_rising_iff (h : k.Rising) {q : SeqId} {f : Seq → Seq} : (k.onSeq q f).Rising ↔ (f (k.seq q)).Rising := by
  refine ⟨fun hk => Core.onSeq_seq_same k q f ▸ hk.seq q, fun hf => ?_⟩
  obtain ⟨hctl, hld, hcmp, hst, hv⟩ := Core.rising_iff.1 h
  cases q with
  | ctl => exact Core.rising_iff.2 ⟨hf, hld, hcmp, hst, hv⟩
  | ld => exact Core.rising_iff.2 ⟨hctl, hf, hcmp, hst, hv⟩
  | cmp => exact Core.rising_iff.2 ⟨hctl, hld, hf, hst, hv⟩
  | st => exact Core.rising_iff.2 ⟨hctl, hld, hcmp, hf, hv⟩

/-- A sequencer changed in what is no table. -/
@[simp] theorem Core.onSeq_rising_iff_of {q : SeqId} {f : Seq → Seq} (hf : ∀ s : Seq, (f s).Rising ↔ s.Rising) :
    (k.onSeq q f).Rising ↔ k.Rising := by
  cases q <;> simp [-Core.tables_wf_iff_rising, Core.onSeq, hf, Core.rising_iff (k := k)]

theorem Core.onSeq_rising (h : k.Rising) {q : SeqId} {f : Seq → Seq} (hf : ∀ s : Seq, s.Rising → (f s).Rising) :
    (k.onSeq q f).Rising := (Core.onSeq_rising_iff h).2 (hf _ (h.seq q))

theorem Core.onSeqs_rising (h : k.Rising) {f : Seq → Seq} (hf : ∀ s : Seq, s.Rising → (f s).Rising) : (k.onSeqs f).Rising := by
  obtain ⟨hctl, hld, hcmp, hst, hv⟩ := Core.rising_iff.1 h
  exact Core.rising_iff.2 ⟨hf _ hctl, hf _ hld, hf _ hcmp, hf _ hst, hv⟩

/-- The sequencers changed in what is no table. -/
@[simp] theorem Core.onSeqs_rising_iff_of {f : Seq → Seq} (hf : ∀ s : Seq, (f s).Rising ↔ s.Rising) :
    (k.onSeqs f).Rising ↔ k.Rising := by
  simp [-Core.tables_wf_iff_rising, Core.onSeqs, hf, Core.rising_iff (k := k)]

@[simp] theorem onSeq_ordered_iff_of {c : Nat} {q : SeqId} {f : Seq → Seq} (hf : ∀ s : Seq, (f s).Rising ↔ s.Rising) :
    (m.onSeq c q f).Ordered ↔ m.Ordered := onCore_ordered_iff_of fun _ => Core.onSeq_rising_iff_of hf

theorem onSeq_ordered (h : m.Ordered) {c : Nat} {q : SeqId} {f : Seq → Seq} (hf : ∀ s : Seq, s.Rising → (f s).Rising) :
    (m.onSeq c q f).Ordered := onCore_ordered h fun _ hk => Core.onSeq_rising hk hf

@[simp] theorem notify_ordered_iff {n : Notice} : (m.notify n).Ordered ↔ m.Ordered := Iff.rfl

@[simp] theorem bankError_ordered_iff {die b : Nat} {uc cons : Bool} {i : ErrInfo} :
    (m.bankError die b uc cons i).Ordered ↔ m.Ordered := Iff.rfl

@[simp] theorem consume_ordered_iff {die b : Nat} {i : ErrInfo} {ctx : BitVec 6} {cdie core seq : Nat} :
    (m.consume die b i ctx cdie core seq).Ordered ↔ m.Ordered := Iff.rfl

@[simp] theorem Mach.fresh_ordered (h : m.Ordered) : (m.fresh).2.Ordered := h.withIds (Nat.le_succ _)

@[simp] theorem Core.abandonClause_rising_iff : k.abandonClause.Rising ↔ k.Rising := by
  unfold Core.abandonClause
  split <;> simp

/-! ### Loops -/

theorem foldl_rising {α : Type} {l : List α} {f : Core → α → Core} (h : k.Rising) (hf : ∀ k a, k.Rising → (f k a).Rising) :
    (l.foldl f k).Rising := List.foldlRecOn (motive := Core.Rising) l f h fun k hk a _ => hf k a hk

theorem foldl_rising_iff {α : Type} {l : List α} {f : Core → α → Core} (hf : ∀ k a, (f k a).Rising ↔ k.Rising) :
    (l.foldl f k).Rising ↔ k.Rising :=
  List.foldlRecOn (motive := fun x => x.Rising ↔ k.Rising) l f Iff.rfl fun x hx a _ => (hf x a).trans hx

theorem foldr_rising {α : Type} {l : List α} {f : α → Core → Core} (h : k.Rising) (hf : ∀ a k, k.Rising → (f a k).Rising) :
    (l.foldr f k).Rising := List.foldrRecOn (motive := Core.Rising) l f h fun k hk a _ => hf a k hk

theorem foldl_ordered {α : Type} {l : List α} {f : Mach → α → Mach} (h : m.Ordered) (hf : ∀ m a, m.Ordered → (f m a).Ordered) :
    (l.foldl f m).Ordered := List.foldlRecOn (motive := Mach.Ordered) l f h fun m hm a _ => hf m a hm

theorem foldr_ordered {α : Type} {l : List α} {f : α → Mach → Mach} (h : m.Ordered) (hf : ∀ a m, m.Ordered → (f a m).Ordered) :
    (l.foldr f m).Ordered := List.foldrRecOn (motive := Mach.Ordered) l f h fun m hm a _ => hf a m hm

/-! ### Sequencers, traps and tokens -/

@[simp] theorem takeTrap_ordered (h : m.Ordered) {t c q code info pc} : (takeTrap t c q code info pc m).Ordered := by
  simp only [takeTrap]
  split <;> split <;> simp [h, h.core]

@[simp] theorem watchdog_ordered (h : m.Ordered) {t c q} : (watchdog t c q m).Ordered := by
  simp only [watchdog]
  split <;> simp [h]

@[simp] theorem countStall_ordered (h : m.Ordered) {t c q kind} : (countStall t c q kind m).Ordered := by simp [countStall, h]

@[simp] theorem Core.onPushQ_rising_iff {q up f} : (k.onPushQ q up f).Rising ↔ k.Rising := by
  simp only [Core.onPushQ]
  repeat' split
  all_goals simp

@[simp] theorem Core.tokReserve_rising_iff {q up n} : (k.tokReserve q up n).Rising ↔ k.Rising := Core.onPushQ_rising_iff

@[simp] theorem Core.tokPost_rising_iff {q up n} : (k.tokPost q up n).Rising ↔ k.Rising := Core.onPushQ_rising_iff

@[simp] theorem Core.postTokens_rising_iff {q pu pd} : (k.postTokens q pu pd).Rising ↔ k.Rising := by
  simp only [Core.postTokens]
  repeat' split
  all_goals simp

@[simp] theorem Seq.tokPop_rising_iff {s : Seq} {down n} : (s.tokPop down n).Rising ↔ s.Rising := by
  unfold Seq.tokPop
  split <;> simp

theorem Env.tokens_ordered (h : m.Ordered) {e : Env} : Chk.Sat Mach.Ordered (e.tokens m) := by
  have popped {k : Core} (h : k.Rising) {b : Bool} {down n} : (if b then k.onSeq e.q (·.tokPop down n) else k).Rising :=
    .ite (Core.onSeq_rising h fun _ h => Seq.tokPop_rising_iff.2 h) h
  have reserved {k : Core} (h : k.Rising) {b : Bool} {up n} : (if b then k.tokReserve e.q up n else k).Rising :=
    .ite (Core.tokReserve_rising_iff.2 h) h
  simp only [Env.tokens]
  split
  · simp
  · exact Chk.sat_ok.2 (setCore_ordered h (reserved (reserved (popped (popped (h.core e.c))))))

/-- The loop test counts a loop register down. -/
theorem loopTest_wf {regs : SMap Word} (h : SMap.wf regs = true) {l pc} : SMap.wf (loopTest regs l pc).1 = true := by
  induction l generalizing regs with
  | nil => exact h
  | cons a r ih =>
    simp only [loopTest]
    split
    · split
      · exact SMap.put_wf h _ _ _
      · exact ih (SMap.put_wf h _ _ _)
    · exact h

@[simp] theorem Core.goTo_rising (h : k.Rising) {q pc delay} : (k.goTo q pc delay).Rising := by
  simp only [Core.goTo]
  split <;> simp [h, loopTest_wf]

@[simp] theorem Env.jump_ordered (h : m.Ordered) {e : Env} {pc delay} : (e.jump pc delay m).Ordered := by simp [Env.jump, h]

@[simp] theorem Env.advance_ordered (h : m.Ordered) {e : Env} {delay} : (e.advance delay m).Ordered := Env.jump_ordered h

@[simp] theorem Seq.setX_rising {s : Seq} (h : s.Rising) {n l} : (s.setX n l).Rising :=
  ⟨SMap.put_wf h.xq_wf _ _ _, h.loops_wf⟩

@[simp] theorem Core.setV_rising (h : k.Rising) {n l} : (k.setV n l).Rising := by
  simp [Core.setV, h, SMap.put_wf]

@[simp] theorem Core.popX_rising (h : k.Rising) {q n} : (k.popX q n).Rising := by simp [Core.popX, h]

@[simp] theorem Core.popV_rising (h : k.Rising) {n} : (k.popV n).Rising := Core.setV_rising h

/-! ### Destinations and results -/

theorem Env.reserveX_ordered (h : m.Ordered) {e : Env} {n en} : Chk.Sat (·.2.Ordered) (e.reserveX m n en) := by
  simp only [Env.reserveX]
  split
  · simp
  · refine Chk.sat_ok.2 (Mach.Ordered.withIds (setCore_ordered h (Core.onSeq_rising (h.core _) fun s h => ?_)) (Nat.le_succ _))
    exact Seq.setX_rising h

theorem Env.reserveV_ordered (h : m.Ordered) {e : Env} {n en} : Chk.Sat (·.2.Ordered) (e.reserveV m n en) := by
  simp only [Env.reserveV]
  repeat' split
  all_goals simp [h, h.core]

@[simp] theorem Core.land_rising (h : k.Rising) {d} : (k.land d).Rising := by
  simp only [Core.land]
  repeat' split
  all_goals simp [h, SMap.put_wf]

@[simp] theorem Core.landFrom_rising (h : k.Rising) {id d} : (k.landFrom id d).Rising := by
  simp only [Core.landFrom]
  repeat' split
  all_goals simp [h]

theorem Env.dst_ordered (h : m.Ordered) {e : Env} {d en} : Chk.Sat (·.2.Ordered) (e.dst m d en) := by
  cases d with
  | queue n => exact (Env.reserveX_ordered h).bind fun ⟨slot, m⟩ h => by simpa using h
  | mask k => exact .skip fun _ => by simpa using h
  | loop k => simpa [Env.dst] using h
  | discard => simpa [Env.dst] using h

theorem Env.dstV_ordered (h : m.Ordered) {e : Env} {d en} : Chk.Sat (·.2.Ordered) (e.dstV m d en) := by
  cases d with
  | queue n => exact (Env.reserveV_ordered h).bind fun ⟨slot, m⟩ h => by simpa using h
  | mask k => exact .skip fun _ => by simpa using h
  | loop k => simpa [Env.dstV] using h
  | discard => simpa [Env.dstV] using h

@[simp] theorem Env.timed_ordered_iff {e : Env} {latency dest satur divz} :
    (e.timed m latency dest satur divz).Ordered ↔ m.Ordered := by simp [Env.timed]

@[simp] theorem Env.finishNow_ordered_iff {e : Env} : (e.finishNow m).Ordered ↔ m.Ordered := by simp [Env.finishNow]

@[simp] theorem Core.nudge_rising_iff {pending d} : (k.nudge pending d).Rising ↔ k.Rising := by
  simp only [Core.nudge]
  repeat' split
  all_goals simp

@[simp] theorem Seq.wake_rising_iff {s : Seq} : s.wake.Rising ↔ s.Rising := by
  unfold Seq.wake
  repeat' split
  all_goals simp

@[simp] theorem Seq.holdEnd_rising_iff {s : Seq} {cycles} : (s.holdEnd cycles).Rising ↔ s.Rising := by
  unfold Seq.holdEnd
  repeat' split
  all_goals simp

@[simp] theorem Seq.flag_rising_iff {s : Seq} {f} : (s.flag f).Rising ↔ s.Rising := by simp [Seq.flag]

@[simp] theorem Seq.take_rising_iff {s : Seq} : s.take.Rising ↔ s.Rising := by simp [Seq.take]

@[simp] theorem Core.landTimed_rising (h : k.Rising) {q r} : (k.landTimed q r).Rising :=
  Core.postTokens_rising_iff.2 (Core.onSeq_rising (Core.nudge_rising_iff.2 (Core.landFrom_rising h)) fun _ h => Seq.flag_rising_iff.2 h)

@[simp] theorem Core.landDue_rising (h : k.Rising) {q} : (k.landDue q).Rising := by
  simp only [Core.landDue]
  split
  · exact h
  · refine foldl_rising (Core.onSeq_rising h fun s h => ?_) fun k r h => Core.landTimed_rising h
    split <;> simp [h]

@[simp] theorem Core.unland_rising (h : k.Rising) {q r was} : (k.unland q r was).Rising := by
  have unfilled : (match was with
      | .x s n slot _ => k.onSeq s fun s => s.setX n (unfillSlot slot (s.xslots n))
      | .v n slot _ => k.setV n (unfillSlot slot (k.vslots n))
      | .loop s n v => k.onSeq s fun s => { s with loops := SMap.put 0 s.loops n.toNat v }
      | .mask n v _ => { k with masks := SMap.put ⟨0, 0⟩ k.masks (n.val + 1) { k.maskReg (n.val + 1) with bits := v } }
      | .none => k : Core).Rising := by
    split <;> simp [h, SMap.put_wf]
  have unposted {k : Core} (h : k.Rising) {b : Bool} {up f} : (if b then k.onPushQ q up f else k).Rising :=
    .ite (Core.onPushQ_rising_iff.2 h) h
  exact unposted (unposted unfilled)

@[simp] theorem Core.take_rising (h : k.Rising) {q} : (k.take q).Rising := by
  have back (l : List (Timed × Landing)) : (l.foldr (fun x k => k.unland q x.1 x.2) (k.onSeq q Seq.take)).Rising :=
    foldr_rising (Core.onSeq_rising h fun _ h => Seq.take_rising_iff.2 h) fun x k h => Core.unland_rising h
  simp only [Core.take]
  split
  · exact back _
  · exact Core.onSeq_rising (back _) fun s h => h

/-! ### Halts and the start of an operation -/

/-- What a halted attempt leaves while a pre-emption may take its sequencer (R378). -/
@[simp] theorem takeWaiting_getD_ordered (h : m.Ordered) {m' : Mach} (h' : m'.Ordered) {c q} :
    ((m.takeWaiting c q).getD m').Ordered := by
  simp only [Mach.takeWaiting]
  split <;> simp [h, h']

@[simp] theorem waitAtRack_ordered (h : m.Ordered) {t c q rid ask} : (waitAtRack t c q rid ask m).Ordered := by
  have later (b : Bool) : m.ids ≤ if b then m.ids else m.ids + 1 := by split <;> simp
  exact onSeq_ordered (countStall_ordered (h.withIds (later _))) fun _ h => h

@[simp] theorem Mach.onCollective_ordered_iff {g f} : (m.onCollective g f).Ordered ↔ m.Ordered := by
  simp only [Mach.onCollective]
  split <;> rfl

@[simp] theorem Mach.clrdBegins_ordered_iff {p g c} : (m.clrdBegins p g c).Ordered ↔ m.Ordered := by
  simp only [Mach.clrdBegins, Mach.onCollective]
  repeat' split
  all_goals rfl

@[simp] theorem Env.lose_ordered_iff {e : Env} {die bank i} : (e.lose die bank i m).Ordered ↔ m.Ordered := by simp [Env.lose]

@[simp] theorem Env.halt_ordered (h : m.Ordered) {e : Env} {x : Halt} : (e.halt x m).Ordered := by
  cases x <;> simp [Env.halt, h]

@[simp] theorem Env.start_ordered (h : m.Ordered) {e : Env} {kind dests flags fin load} :
    (e.start m kind dests flags fin load).2.Ordered := by
  simp [Env.start, h]

@[simp] theorem Env.block_ordered_iff {e : Env} {o} : (e.block o m).Ordered ↔ m.Ordered := by simp [Env.block]

@[simp] theorem Env.startValues_ordered (h : m.Ordered) {e : Env} {dests flags fin} : (e.startValues m dests flags fin).Ordered :=
  Env.start_ordered h

@[simp] theorem Core.setOp_rising_iff {op} : (k.setOp op).Rising ↔ k.Rising := Iff.rfl

@[simp] theorem Core.dropLines_rising_iff {r} : (k.dropLines r).Rising ↔ k.Rising := Iff.rfl

@[simp] theorem Core.gain_rising_iff {x} : (k.gain x).Rising ↔ k.Rising := Iff.rfl

@[simp] theorem Core.drop_rising_iff {x} : (k.drop x).Rising ↔ k.Rising := Iff.rfl

@[simp] theorem Core.finAct_rising (h : k.Rising) {a} : (k.finAct a).Rising := by
  cases a <;> simp [Core.finAct, h, SMap.put_wf]

@[simp] theorem Core.finish_rising (h : k.Rising) {op} : (k.finish op).Rising := by
  have landed : (op.dests.foldl (fun k d => (k.landFrom op.id d).nudge true d) k).Rising :=
    foldl_rising h fun k d h => by simp [h]
  have finished : (op.fin.foldl Core.finAct (op.dests.foldl (fun k d => (k.landFrom op.id d).nudge true d) k)).Rising :=
    foldl_rising landed fun k a h => Core.finAct_rising h
  have posted : (((op.fin.foldl Core.finAct (op.dests.foldl (fun k d => (k.landFrom op.id d).nudge true d) k)).onSeq op.seq
      fun s => s.flag op.flags).postTokens op.seq op.pu op.pd).Rising :=
    Core.postTokens_rising_iff.2 (Core.onSeq_rising finished fun _ h => Seq.flag_rising_iff.2 h)
  have unblocked : (Core.onSeqs _ fun s => if s.blockedOn = some op.id then { s with blockedOn := none } else s).Rising :=
    Core.onSeqs_rising posted fun s h => by simp [h]
  exact unblocked

@[simp] theorem Mach.onRegion_ordered_iff {rid f} : (m.onRegion rid f).Ordered ↔ m.Ordered := Iff.rfl

@[simp] theorem Mach.finAct_ordered_iff {a} : (m.finAct a).Ordered ↔ m.Ordered := by
  simp only [Mach.finAct]
  split <;> simp

@[simp] theorem Mach.finish_ordered (h : m.Ordered) {c op} : (m.finish c op).Ordered := by
  have acted (l : List Fin_) : (l.foldl Mach.finAct m).Ordered := foldl_ordered h fun m a h => Mach.finAct_ordered_iff.2 h
  exact onCore_ordered (acted _) fun _ h => Core.finish_rising h

@[simp] theorem Mach.dropOp_ordered_iff {c o} : (m.dropOp c o).Ordered ↔ m.Ordered := by simp [Mach.dropOp]

@[simp] theorem Env.later_ordered_iff {e : Env} {l} : (e.later l m).Ordered ↔ m.Ordered := by simp [Env.later]

/-! ### Sources and attempts -/

theorem Env.src_ordered (h : m.Ordered) {e : Env} {a} : Chk.Sat (·.2.Ordered) (e.src m a) := by
  rintro ⟨v, m'⟩ hv
  obtain rfl | ⟨n, -, rfl⟩ := Env.src_ok hv
  · exact h
  · simp [h]

theorem Env.src2_ordered (h : m.Ordered) {e : Env} {a b} : Chk.Sat (·.2.2.Ordered) (e.src2 m a b) := by
  unfold Env.src2
  refine (Env.src_ordered h).bind fun ⟨x, m⟩ h => (Env.src_ordered h).bind fun ⟨y, m⟩ h => ?_
  simp [h]

theorem Env.srcV_ordered (h : m.Ordered) {e : Env} {a} : Chk.Sat (·.2.Ordered) (e.srcV m a) := by
  unfold Env.srcV
  split
  · exact .skip fun _ => by simp [h]
  · exact .skip fun _ => by simp [h]
  · simp [h]
  · exact (Env.src_ordered h).bind fun ⟨v, m⟩ h => by simpa using h

theorem Env.third_ordered (h : m.Ordered) {e : Env} {q} : Chk.Sat (·.2.Ordered) (e.third m q) := by
  unfold Env.third
  refine .skip fun _ => ?_
  simp [h]

/-- A body that keeps the tables ordered, started or halted (R47, R73). -/
theorem attemptAt_ordered {i : Instr} {body : Env → Mach → Chk Mach} {e : Env} {s s' : State} (h : s.mach.Ordered)
    (hb : ∀ m, m.Ordered → (body e m).Sat Mach.Ordered) (hs : attemptAt e i body s = .next s') : s'.mach.Ordered := by
  simp only [attemptAt] at hs
  split at hs
  next m hm =>
    cases hs
    refine (?_ : Chk.Sat Mach.Ordered _) m hm
    exact .skip fun _ => (Env.tokens_ordered h).bind fun m h => .skip fun _ => hb m h
  next x hx =>
    cases hs
    exact Env.halt_ordered h

/-! ### Home memory, pools and sequences -/

@[simp] theorem Mach.setHome_ordered_iff {dram mem poison} : (m.setHome dram mem poison).Ordered ↔ m.Ordered := by
  cases dram <;> rfl

@[simp] theorem Mach.writeHome_ordered_iff {dram a n img} : (m.writeHome dram a n img).Ordered ↔ m.Ordered := by
  simp [Mach.writeHome]

@[simp] theorem Mach.zeroHome_ordered_iff {dram a n} : (m.zeroHome dram a n).Ordered ↔ m.Ordered := by simp [Mach.zeroHome]

@[simp] theorem Mach.touchSlice_ordered_iff {a} : (m.touchSlice a).Ordered ↔ m.Ordered := Iff.rfl

theorem foldl_ordered_iff {α : Type} {l : List α} {f : Mach → α → Mach} (hf : ∀ m a, (f m a).Ordered ↔ m.Ordered) :
    (l.foldl f m).Ordered ↔ m.Ordered :=
  List.foldlRecOn (motive := fun x => x.Ordered ↔ m.Ordered) l f Iff.rfl fun x hx a _ => (hf x a).trans hx

@[simp] theorem Mach.piecesWrite_ordered_iff {dev ps img} : (m.piecesWrite dev ps img).Ordered ↔ m.Ordered :=
  foldl_ordered_iff fun _ _ => Mach.writeHome_ordered_iff

theorem Mach.onBseq_ordered (h : m.Ordered) {ctx x} {f : BSeq → BSeq}
    (hf : ∀ q, SMap.wf q.map = true → SMap.wf (f q).map = true) : (m.onBseq ctx x f).Ordered := by
  have mapped : MapsRising (m.seqs.map fun s => if s.ctx = ctx ∧ s.handle = x then f s else s) :=
    h.seqs.map fun q hq => by split <;> simp [hf, hq]
  exact ⟨h.cores, h.contexts, h.saved, h.pools, mapped, h.requests, h.launches⟩

/-- A sequence changed in what is not its map. -/
@[simp] theorem Mach.onBseq_ordered_of_map (h : m.Ordered) {ctx x} {f : BSeq → BSeq} (hf : ∀ q, (f q).map = q.map) :
    (m.onBseq ctx x f).Ordered := Mach.onBseq_ordered h fun q hq => (hf q).symm ▸ hq

/-- A request that sees its column change keeps its number. -/
@[simp] theorem Request.sees_rid (x : Request) {old new} : (x.sees old new).rid = x.rid := by
  simp only [Request.sees]
  repeat' split
  all_goals rfl

/-- Whether a pool is changed to one whose tables have rising keys decides. -/
@[simp] theorem Mach.onPool_ordered_iff (h : m.Ordered) {p} {f : Pool → Pool} :
    (m.onPool p f).Ordered ↔ (f (m.pool p)).Rising := by
  have same : (m.onPool p f).pool p = f (m.pool p) := SMap.getD_set_same m.pools p (f (m.pool p)) .reset
  refine ⟨fun hm => same ▸ hm.pool p, fun hf => ?_⟩
  have pooled : PoolsRising (SMap.set m.pools p (f (m.pool p))) := by
    intro q
    by_cases hq : q = p
    · rw [hq, SMap.getD_set_same]
      exact hf
    · rw [SMap.getD_set_ne m.pools _ _ hq]
      exact h.pool q
  have numbered : RidsBelow m.ids (m.requests.map fun x => x.sees (m.pool p) (f (m.pool p))) :=
    (ridsBelow_map_iff fun r => Request.sees_rid r).2 h.requests
  exact ⟨h.cores, h.contexts, h.saved, pooled, h.seqs, numbered, h.launches⟩

theorem Mach.onPool_ordered (h : m.Ordered) {p} {f : Pool → Pool} (hf : ∀ p, p.Rising → (f p).Rising) : (m.onPool p f).Ordered :=
  (Mach.onPool_ordered_iff h).2 (hf _ (h.pool p))

@[simp] theorem Pool.setUse_rising {p : Pool} (h : p.Rising) {ctx u} : (p.setUse ctx u).Rising :=
  ⟨h.frames_wf, SMap.put_wf h.usage_wf _ _ _⟩

theorem Mach.takeFrame_ordered (h : m.Ordered) {s f} {m' : Mach} (hs : m.takeFrame s = some (f, m')) : m'.Ordered := by
  simp only [Mach.takeFrame] at hs
  split at hs
  · cases hs
  split at hs
  · cases hs
    refine Mach.onPool_ordered (Mach.onBseq_ordered h fun q hq => ?_) fun p hp => ?_
    · exact hq
    · simp [hp, SMap.set_wf]
  split at hs
  · cases hs
    exact Mach.onPool_ordered h fun p hp => by simp [hp, SMap.set_wf]
  · cases hs

@[simp] theorem Mach.freeFrame_ordered (h : m.Ordered) {pool frame} : (m.freeFrame pool frame).Ordered := by
  simp only [Mach.freeFrame]
  refine Mach.onPool_ordered (.ite h (Mach.zeroHome_ordered_iff.2 h)) fun p hp => ?_
  exact ⟨SMap.erase_wf hp.frames_wf _, (Pool.setUse_rising hp).usage_wf⟩

@[simp] theorem Mach.unmapFrame_ordered (h : m.Ordered) {pool frame} : (m.unmapFrame pool frame).Ordered := by
  simp only [Mach.unmapFrame]
  split
  · exact Mach.freeFrame_ordered h
  · exact Mach.onPool_ordered h fun p hp => ⟨SMap.set_wf hp.frames_wf _ _, hp.usage_wf⟩

theorem Mach.writable_ordered (h : m.Ordered) {ctx b key} {m' : Mach} (hs : m.writable ctx b key = some m') : m'.Ordered := by
  have mapped {m : Mach} (h : m.Ordered) {f : Nat} :
      (m.onBseq ctx b fun x => { x with map := SMap.set x.map key f }).Ordered :=
    Mach.onBseq_ordered h fun q hq => SMap.set_wf hq _ _
  simp only [Mach.writable] at hs
  repeat' split at hs
  all_goals cases hs
  next hf => exact mapped (Mach.takeFrame_ordered h hf)
  next => exact h
  next hf =>
    exact Mach.onPool_ordered (mapped (Mach.writeHome_ordered_iff.2 (Mach.takeFrame_ordered h hf))) fun p hp =>
      ⟨SMap.set_wf (SMap.set_wf hp.frames_wf _ _) _ _, hp.usage_wf⟩

@[simp] theorem Mach.setValid_ordered (h : m.Ordered) {b n} : (m.setValid b n).Ordered := by
  refine Mach.onPool_ordered h fun p hp => ?_
  split
  · exact hp
  · exact ⟨SMap.set_wf hp.frames_wf _ _, hp.usage_wf⟩

theorem Env.resolve_ordered (h : m.Ordered) {e : Env} {sp ea n store} : Chk.Sat (·.2.Ordered) (e.resolve m sp ea n store) := by
  cases sp with
  | glb => exact .skip fun _ => .skip fun _ => by simpa using h
  | dev =>
    refine .skip fun _ => ?_
    split
    · simp
    · simp
    · exact .skip fun _ => .skip fun _ => by simpa using h
  | blk =>
    simp only [Env.resolve]
    split
    · simp
    refine .skip fun _ => .skip fun _ => ?_
    split
    · simp
    next m' hm =>
      have hm' : m'.Ordered := by
        split at hm
        · exact Mach.writable_ordered h hm
        · cases hm; exact h
      exact .skip fun _ => by simpa using hm'

/-! ### Local memory owned -/

@[simp] theorem Core.retag_rising (h : k.Rising) {g o} : (k.retag g o).Rising := by simp [Core.retag, h, SMap.set_wf]

@[simp] theorem Mach.evictGranule_ordered (h : m.Ordered) {c g s} : (m.evictGranule c g s).Ordered := by
  have marked {l : List Saved} (hl : ImagesRising l) : ImagesRising (l.map fun x =>
      if x.slot = s.slot ∧ x.ctx = s.ctx then { x with evicted := x.evicted ++ [g] } else x) :=
    hl.map fun x hx => by split <;> exact hx
  have written : (m.writeHome true (m.slotPa s.ctx s.slot + 0x40000 + 0x1000 * g) 4096
      ((m.core c).local_.slice (4096 * g) 4096)).Ordered := Mach.writeHome_ordered_iff.2 h
  simp only [Mach.evictGranule, Mach.writeHome_ordered_iff]
  exact ⟨written.cores, written.contexts, marked written.saved, written.pools, written.seqs, written.requests, written.launches⟩

@[simp] theorem Mach.ownGranule_ordered (h : m.Ordered) {c g} : (m.ownGranule c g).Ordered := by
  simp only [Mach.ownGranule]
  split
  · exact h
  have hm (v : Option Saved) : Mach.Ordered (match v with | some s => m.evictGranule c g s | none => m) := by
    cases v with
    | none => exact h
    | some s => exact Mach.evictGranule_ordered h
  refine .ite h (.ite ?_ (.ite ?_ ?_))
  · exact onCore_ordered (hm _) fun k hk => Core.retag_rising hk
  · exact onCore_ordered (hm _) fun k hk => Core.retag_rising hk
  · exact onCore_ordered (hm _) fun k hk => Core.retag_rising hk

@[simp] theorem Mach.ownLocal_ordered (h : m.Ordered) {c a n} : (m.ownLocal c a n).Ordered :=
  foldl_ordered h fun _ _ h => Mach.ownGranule_ordered h

end
end Sys2Proof.Machine
end

