-- ==== Sys2Proof/Proofs/OrderedSystem.lean ====
section
/-! SUPPORT for the statement that every step keeps the tables ordered: accumulates, the system's registers and the ports. -/

namespace Sys2Proof.Machine

section
variable {m : Mach}

/-! ### Accumulates and fences -/

@[simp] theorem Mach.portError_ordered_iff {die ctx p} : (m.portError die ctx p).Ordered ↔ m.Ordered := by
  simp [Mach.portError]

@[simp] theorem Mach.accumulate_ordered (h : m.Ordered) {a c pkg} : (m.accumulate a c pkg).2.2.Ordered := by
  have hm : (if a.dev then m else m.touchSlice a.pa).Ordered := by simp [h]
  have hw (new : Nat) : (((if a.dev then m else m.touchSlice a.pa).writeHome a.dev a.pa a.bytes
      (Mem.ofBytes (leBytes a.bytes new)))).Ordered := by simp [hm]
  exact Mach.Ordered.ite (hw _) hm

theorem Env.admission_ordered (h : m.Ordered) {e : Env} {a} : Chk.Sat Mach.Ordered (e.admission m a) := by
  unfold Env.admission
  split <;> simp [h]

@[simp] theorem Env.askAdmission_ordered_iff {e : Env} {p a} : (e.askAdmission m p a).Ordered ↔ m.Ordered := by
  simp [Env.askAdmission]

theorem Env.comparand_ordered (h : m.Ordered) {e : Env} {f d} : Chk.Sat (·.2.Ordered) (e.comparand m f d) := by
  unfold Env.comparand
  split
  · exact Env.src_ordered h
  · simpa using h

@[simp] theorem Env.startAcc_ordered (h : m.Ordered) {e : Env} {a l} : (e.startAcc m a l).Ordered := by
  simp only [Env.startAcc]
  split <;> simp [h]

@[simp] theorem Env.startAcqValues_ordered (h : m.Ordered) {e : Env} {o dests} : (e.startAcqValues m o dests).Ordered := by
  simp only [Env.startAcqValues]
  split <;> simp [h]

theorem caccBody_ordered (h : m.Ordered) {d f a b e} : Chk.Sat Mach.Ordered (caccBody d f a b e m) := by
  refine (Env.src2_ordered h).bind fun ⟨w, v, m⟩ h => (Env.comparand_ordered h).bind fun ⟨cmp, m⟩ h =>
    (Env.dst_ordered h).bind fun ⟨l, m⟩ h => ?_
  dsimp only
  split
  · simp
  refine .skip fun _ => ?_
  split
  · exact .skip fun _ => by simp [h]
  split
  · simp [h]
  · exact .skip fun _ => (Env.admission_ordered h).bind fun m h => by simp [h]

theorem Mach.farAccumulate_ordered (h : m.Ordered) {t a p c} {r : Word × Bool × Mach}
    (hr : m.farAccumulate t a p c = some r) : r.2.2.Ordered := by
  simp only [Mach.farAccumulate] at hr
  split at hr
  · cases hr; simp [h]
  · obtain ⟨x, -, rfl⟩ := Option.map_eq_some_iff.1 hr
    exact h

@[simp] theorem Mach.losePoison_ordered_iff {t c op dram a} : (Mach.losePoison t m c op dram a).Ordered ↔ m.Ordered := by
  simp [Mach.losePoison]

@[simp] theorem Mach.sendAcc_ordered (h : m.Ordered) {c op p a k} : (m.sendAcc c op p a k).Ordered := by
  simp only [Mach.sendAcc]
  split <;> simp [h]

@[simp] theorem accumulateApplied_ordered (h : m.Ordered) {t c o} : (accumulateApplied t c o m).Ordered := by
  simp only [accumulateApplied]
  split
  · exact h
  split
  case h_2 => exact h
  split
  · simp [h]
  split
  · simp [h]
  · exact Mach.finish_ordered (Mach.accumulate_ordered h)
  · split
    next => simp [h]
    next hr =>
      split at hr
      · exact Mach.finish_ordered (Mach.farAccumulate_ordered h hr)
      · cases hr

theorem Env.flagWord_ordered (h : m.Ordered) {e : Env} {c o dev w v} :
    Chk.Sat (·.2.Ordered) (e.flagWord m c o dev w v) := by
  refine .skip fun _ => ?_
  split
  · refine .skip fun _ => ?_
    split
    · simp [h]
    · exact .skip fun _ => (Env.admission_ordered h).bind fun m h => by simp [h]
  · exact .skip fun _ => by simpa using h

theorem fenceBody_ordered (h : m.Ordered) {c o f e} : Chk.Sat Mach.Ordered (fenceBody c o f e m) := by
  cases f with
  | plain => simp [fenceBody, h]
  | flag dev a b =>
    exact (Env.src2_ordered h).bind fun ⟨w, v, m⟩ h => (Env.flagWord_ordered h).bind fun ⟨g, m⟩ h => by simp [h]

@[simp] theorem serveFence_ordered (h : m.Ordered) {t c op s o flag} : (serveFence t c op s o flag m).Ordered := by
  simp only [serveFence]
  split
  · exact h
  split
  · simp [h]
  split
  · simp [h]
  split
  · simp [h]
  · exact Mach.finish_ordered (Mach.accumulate_ordered h)
  · split
    next => simp [h]
    next hr =>
      split at hr
      · exact Mach.finish_ordered (Mach.farAccumulate_ordered h hr)
      · cases hr

/-! ### System registers and traps -/

@[simp] theorem Mach.onArray_ordered_iff {k f} : (m.onArray k f).Ordered ↔ m.Ordered := by simp [Mach.onArray]

@[simp] theorem Env.setSysReg_ordered_iff {e : Env} {r v} : (e.setSysReg m r v).Ordered ↔ m.Ordered := by
  simp only [Env.setSysReg]
  split <;> simp

theorem srrBody_ordered (h : m.Ordered) {d r e} : Chk.Sat Mach.Ordered (srrBody d r e m) := by
  unfold srrBody
  refine (Env.dst_ordered h).bind fun ⟨l, m⟩ h => ?_
  simp [h]

theorem srwBody_ordered (h : m.Ordered) {r b e} : Chk.Sat Mach.Ordered (srwBody r b e m) := by
  unfold srwBody
  refine (Env.src_ordered h).bind fun ⟨v, m⟩ h => ?_
  simp [h]

theorem trapBody_ordered (h : m.Ordered) {a e} : Chk.Sat Mach.Ordered (trapBody a e m) := by
  unfold trapBody
  refine (Env.src_ordered h).bind fun ⟨v, m⟩ h => ?_
  simp [h]

@[simp] theorem trapReturn_rising_iff {s : Seq} : (trapReturn s).Rising ↔ s.Rising := Iff.rfl

theorem tretBody_ordered (h : m.Ordered) {e} : Chk.Sat Mach.Ordered (tretBody e m) := by
  unfold tretBody
  refine .skip fun _ => ?_
  simp [h]

end
end Sys2Proof.Machine
end

