-- ==== Sys2Proof/Proofs/OrderedArray.lean ====
section
/-! SUPPORT for the statement that every step keeps the tables ordered: the array's instructions. -/

namespace Sys2Proof.Machine

section
variable {m : Mach}

/-! ### The lease -/

@[simp] theorem Core.onGroup_rising_iff {k : Core} {f} : (k.onGroup f).Rising ↔ k.Rising := Iff.rfl

@[simp] theorem Mach.onGroup_ordered_iff {c f} : (m.onGroup c f).Ordered ↔ m.Ordered := by simp [Mach.onGroup]

theorem acqChecks_ordered (h : m.Ordered) {d e} : Chk.Sat (·.2.Ordered) (acqChecks d e m) := by
  unfold acqChecks
  refine .skip fun _ => ?_
  exact Env.dst_ordered h

@[simp] theorem Mach.endHolding_ordered_iff {k c spill} : (m.endHolding k c spill).Ordered ↔ m.Ordered := by
  simp [Mach.endHolding]

@[simp] theorem Mach.grantTo_ordered_iff {k c} : (m.grantTo k c).Ordered ↔ m.Ordered := by
  simp only [Mach.grantTo]
  split <;> simp

@[simp] theorem pickHolder_ordered_iff {t k} : (pickHolder t k m).Ordered ↔ m.Ordered := by
  simp only [pickHolder]
  split <;> simp

@[simp] theorem Mach.newBudget_ordered_iff {k c} : (m.newBudget k c).Ordered ↔ m.Ordered := by simp [Mach.newBudget]

@[simp] theorem leaseOver_ordered_iff {t k c} : (leaseOver t k c m).Ordered ↔ m.Ordered := by
  simp only [leaseOver]
  repeat' split
  all_goals simp

@[simp] theorem leaseEnding_ordered (h : m.Ordered) {t k c} : (leaseEnding t k c m).Ordered := by
  simp [leaseEnding, h]

@[simp] theorem leaseBudgetEnd_ordered (h : m.Ordered) {t k} : (leaseBudgetEnd t k m).Ordered := by
  simp only [leaseBudgetEnd]
  split <;> simp [h]

@[simp] theorem leaseGrant_ordered (h : m.Ordered) {t k} : (leaseGrant t k m).Ordered := by
  simp only [leaseGrant]
  split <;> simp [h]

theorem leaseAcqBody_ordered (h : m.Ordered) {d e} : Chk.Sat Mach.Ordered (leaseAcqBody d e m) := by
  refine (acqChecks_ordered h).bind fun ⟨l, m⟩ h => ?_
  dsimp only
  split
  · simp [h]
  refine .skip fun _ => ?_
  split <;> simp [h]

theorem leaseRelBody_ordered (h : m.Ordered) {e} : Chk.Sat Mach.Ordered (leaseRelBody e m) := by
  refine .skip fun _ => .skip fun _ => ?_
  rw [Chk.sat_ok]
  refine Env.startValues_ordered ?_
  split
  · split <;> simp [h]
  · simp [h]

/-! ### Clauses and their bodies -/

@[simp] theorem Mach.setClause_ordered_iff {c cl} : (m.setClause c cl).Ordered ↔ m.Ordered := by simp [Mach.setClause]

@[simp] theorem Mach.tagPlane_ordered_iff {c} : (m.tagPlane c).Ordered ↔ m.Ordered := by simp [Mach.tagPlane]

theorem wldBody_ordered (h : m.Ordered) {ks w dev a e} : Chk.Sat Mach.Ordered (wldBody ks w dev a e m) := by
  unfold wldBody
  refine (Env.src_ordered h).bind fun ⟨v, m⟩ h => .skip fun _ => .skip fun _ => .skip fun _ => .skip fun _ => ?_
  simp [h]

theorem wswpBody_ordered (h : m.Ordered) {e} : Chk.Sat Mach.Ordered (wswpBody e m) := by
  unfold wswpBody
  refine .skip fun _ => .skip fun _ => ?_
  simp [h]

theorem mxsqBody_ordered (h : m.Ordered) {a b e} : Chk.Sat Mach.Ordered (mxsqBody a b e m) := by
  unfold mxsqBody
  refine (Env.src2_ordered h).bind fun ⟨x, y, m⟩ h => .skip fun _ => .skip fun _ => .skip fun _ => .skip fun _ =>
    .skip fun _ => ?_
  simp [h]

theorem mxhBody_ordered (h : m.Ordered) {h' e} : Chk.Sat Mach.Ordered (mxhBody h' e m) := by
  unfold mxhBody
  refine .skip fun _ => .skip fun _ => .skip fun _ => ?_
  simp [h]

theorem mxaBody_ordered (h : m.Ordered) {sc a b e} : Chk.Sat Mach.Ordered (mxaBody sc a b e m) := by
  refine (Env.src2_ordered h).bind fun ⟨x, y, m⟩ h => .skip fun cl => .skip fun _ => .skip fun _ => .skip fun _ =>
    .skip fun _ => .skip fun _ => .skip fun _ => .skip fun _ => ?_
  have owned {l : List Nat} {a : Nat → Nat} {n : Nat} : (l.foldl (fun m i => m.ownLocal e.c (a i) n) m).Ordered :=
    foldl_ordered h fun m i h => Mach.ownLocal_ordered h
  simp [owned]

theorem mxmdBody_ordered (h : m.Ordered) {a e} : Chk.Sat Mach.Ordered (mxmdBody a e m) := by
  refine (Env.src_ordered h).bind fun ⟨x, m⟩ h => .skip fun cl => .skip fun _ => .skip fun _ => .skip fun _ =>
    .skip fun _ => .skip fun _ => ?_
  exact Chk.sat_ok.2 (Env.startValues_ordered (Mach.setClause_ordered_iff.2 (Mach.ownLocal_ordered h)))

theorem mxgrBody_ordered (h : m.Ordered) {g a b e} : Chk.Sat Mach.Ordered (mxgrBody g a b e m) := by
  unfold mxgrBody
  refine (Env.src2_ordered h).bind fun ⟨x, y, m⟩ h => .skip fun _ => .skip fun _ => .skip fun _ => .skip fun _ => ?_
  simp [h]

theorem mxzBody_ordered (h : m.Ordered) {both e} : Chk.Sat Mach.Ordered (mxzBody both e m) := by
  unfold mxzBody
  split
  · exact .skip fun _ => by simp [h]
  · exact .skip fun _ => .skip fun _ => .skip fun _ => by simp [h]

@[simp] theorem Env.closeClause_ordered (h : m.Ordered) {e : Env} {cl drain fin} :
    (e.closeClause m cl drain fin).Ordered := by simp [Env.closeClause, h]

theorem mxdrBody_ordered (h : m.Ordered) {mode a b e} : Chk.Sat Mach.Ordered (mxdrBody mode a b e m) := by
  unfold mxdrBody
  refine (Env.src2_ordered h).bind fun ⟨x, y, m⟩ h => .skip fun _ => .skip fun _ => .skip fun _ => .skip fun _ =>
    .skip fun _ => .skip fun _ => .skip fun _ => ?_
  simp [h]

theorem mxdrKeepBody_ordered (h : m.Ordered) {e} : Chk.Sat Mach.Ordered (mxdrKeepBody e m) := by
  unfold mxdrKeepBody
  refine .skip fun _ => .skip fun _ => .skip fun _ => ?_
  simp [h]

/-! ### What the array carries out -/

@[simp] theorem Mach.zeroBanks_ordered_iff {c b both} : (m.zeroBanks c b both).Ordered ↔ m.Ordered := by
  simp [Mach.zeroBanks]

@[simp] theorem Mach.losePoisonLocal_ordered_iff {t c op a} : (Mach.losePoisonLocal t m c op a).Ordered ↔ m.Ordered := by
  simp [Mach.losePoisonLocal]

@[simp] theorem Core.noteBody_rising_iff {k : Core} {o x after} : (k.noteBody o x after).Rising ↔ k.Rising := Iff.rfl

@[simp] theorem Mach.arrayTakes_ordered (h : m.Ordered) {t c op x} : (Mach.arrayTakes t m c op x).Ordered := by
  simp [Mach.arrayTakes, h]

theorem BodyItem.run_ordered (h : m.Ordered) {t c} {x : BodyItem} {m' : Mach} (hx : x.run t c m = .ok m') :
    m'.Ordered := by
  cases x with
  | wld ks w dev a =>
    simp only [BodyItem.run] at hx
    repeat' split at hx
    all_goals cases hx
    all_goals simp [h]
  | mxsq a s count =>
    simp only [BodyItem.run] at hx
    split at hx <;> cases hx
    simp [h]
  | mxa a stride count n sc =>
    simp only [BodyItem.run] at hx
    split at hx <;> cases hx
    simp [h]
  | loaded ks w img => cases hx; simp [h]
  | latched s bs => cases hx; simp [h]

@[simp] theorem Mach.arrayReads_ordered (h : m.Ordered) {t c op x} : (m.arrayReads t c op x).Ordered := by
  simp only [Mach.arrayReads]
  split
  · simp [h]
  · simp [h]
  · simp [h]
  next hx => simp [BodyItem.run_ordered h hx]

@[simp] theorem serveArray_ordered (h : m.Ordered) {t c op} : (serveArray t c op m).Ordered := by
  simp only [serveArray]
  repeat' split
  all_goals simp [h]

@[simp] theorem runPass_ordered_iff {c op cl drain} : (runPass c op cl drain m).Ordered ↔ m.Ordered := by
  simp only [runPass]
  repeat' split
  all_goals simp

@[simp] theorem Mach.loseEntry_ordered_iff {t c op x} : (Mach.loseEntry t m c op x).Ordered ↔ m.Ordered := by
  simp [Mach.loseEntry]

/-- A restart ends in an ordered machine: the one that lost its context, or the one that has carried its body out. -/
def Restart.Ordered : Restart → Prop
  | .wait _ => True
  | .lost m => m.Ordered
  | .ok m => m.Ordered

theorem rerunFrom_ordered (h : m.Ordered) {t c op l} : (rerunFrom t c op l m).Ordered := by
  induction l generalizing m with
  | nil => exact h
  | cons x r ih =>
    simp only [rerunFrom]
    split
    · trivial
    · exact Mach.losePoison_ordered_iff.2 h
    · exact Mach.losePoisonLocal_ordered_iff.2 h
    next hx => exact ih (BodyItem.run_ordered h hx)

theorem rerun_ordered (h : m.Ordered) {t c op cl} : (rerun t c op cl m).Ordered :=
  rerunFrom_ordered (by simp [h])

@[simp] theorem arrayPass_ordered (h : m.Ordered) {t key spare} : (arrayPass t key spare m).Ordered := by
  simp only [arrayPass]
  split
  · exact h
  next holder c _ =>
  split
  · exact h
  next op cl d _ =>
  split
  · simp [h]
  split
  · simp [h]
  have hrun {m' : Mach} (h' : m'.Ordered) {p : Prop} [Decidable p] :
      (if p then runPass c op cl d m' else runPass c op cl d m).Ordered := by simp [h, h']
  cases spare with
  | transient col => exact hrun (by simp [h])
  | replaces col =>
    refine .ite ?_ (by simp [h])
    have hr : (rerun t c op cl m).Ordered := rerun_ordered h
    split
    · simp [h]
    next hl =>
      rw [hl] at hr
      exact hr
    next hl =>
      rw [hl] at hr
      exact Mach.onArray_ordered_iff.2 (bankError_ordered_iff.2 hr)
  | neither col => exact .ite (by simp [h]) (by simp [h])
  | testFails => exact hrun (by simp [h])
  | agrees => simp [h]

@[simp] theorem drainRows_ordered (h : m.Ordered) {t ctx f mode dev base stride bank rs} :
    (drainRows t ctx f mode dev base stride bank rs m).1.Ordered := by
  induction rs generalizing m with
  | nil => exact h
  | cons r rs ih => exact ih (Mach.piecesWrite_ordered_iff.2 h)

@[simp] theorem serveMxdr_ordered (h : m.Ordered) {t c op} : (serveMxdr t c op m).Ordered := by
  have counted {m : Mach} (h : m.Ordered) {op : Op} {f} :
      (leaseBudgetEnd t (clusterOf c) ((m.finish c op).onArray (clusterOf c) f)).Ordered :=
    leaseBudgetEnd_ordered (Mach.onArray_ordered_iff.2 (Mach.finish_ordered h))
  simp only [serveMxdr]
  repeat' split
  all_goals simp [h, counted]

end
end Sys2Proof.Machine
end

