-- ==== Sys2Proof/Proofs/OrderedMem.lean ====
section
/-! SUPPORT for the statement that every step keeps the tables ordered: the memory instructions and the copies. -/

namespace Sys2Proof.Machine

section
variable {m : Mach}

/-! ### Loads and stores -/

theorem Env.ea_ordered (h : m.Ordered) {e : Env} {a imm s} : Chk.Sat (·.2.Ordered) (e.ea m a imm s) := by
  unfold Env.ea
  refine (Env.src_ordered h).bind fun ⟨b, m⟩ h => ?_
  simp [h]

theorem Env.loadDst_ordered (h : m.Ordered) {e : Env} {q s pending} : Chk.Sat (·.2.Ordered) (e.loadDst m q s pending) := by
  unfold Env.loadDst
  split
  · exact Env.dstV_ordered h
  · exact Env.dst_ordered h

theorem Env.storeData_ordered (h : m.Ordered) {e : Env} {pk q s} : Chk.Sat (·.2.Ordered) (e.storeData m pk q s) := by
  simp only [Env.storeData]
  split
  · exact (Env.srcV_ordered h).bind fun ⟨v, m⟩ h => by simpa using h
  · exact (Env.src_ordered h).bind fun ⟨v, m⟩ h => by simpa using h

@[simp] theorem Mach.stage_ordered (h : m.Ordered) {c dev a home} : (m.stage c dev a home).2.Ordered := by
  simp only [Mach.stage]
  repeat' split
  all_goals simp [h, h.core]

theorem ldlBody_ordered (h : m.Ordered) {q a imm s e} : Chk.Sat Mach.Ordered (ldlBody q a imm s e m) := by
  unfold ldlBody
  refine (Env.ea_ordered h).bind fun ⟨ea, m⟩ h => (Env.loadDst_ordered h).bind fun ⟨l, m⟩ h => .skip fun _ =>
    .skip fun _ => ?_
  dsimp only
  split <;> simp [h]

theorem stlBody_ordered (h : m.Ordered) {pk q a imm s e} : Chk.Sat Mach.Ordered (stlBody pk q a imm s e m) := by
  refine (Env.ea_ordered h).bind fun ⟨ea, m⟩ h => (Env.storeData_ordered h).bind fun ⟨bs, m⟩ h => .skip fun _ =>
    .skip fun _ => ?_
  dsimp only
  split
  · simp
  · exact Chk.sat_ok.2 (Env.finishNow_ordered_iff.2 (Env.later_ordered_iff.2 (Mach.ownLocal_ordered h)))

theorem stagedLoadBody_ordered (h : m.Ordered) {dev q a imm s e} :
    Chk.Sat Mach.Ordered (stagedLoadBody dev q a imm s e m) := by
  refine (Env.ea_ordered h).bind fun ⟨ea, m⟩ h => (Env.loadDst_ordered h).bind fun ⟨l, m⟩ h => .skip fun _ =>
    (Env.resolve_ordered h).bind fun ⟨pl, m⟩ h => ?_
  dsimp only at h ⊢
  have hm : (if (dev || ((m.core e.c).line dev ea.toNat).isSome) = true then m else m.touchSlice ea.toNat).Ordered := by
    simp [h]
  have hl {p : Prop} [Decidable p] {ln : Line} {m' : Mach} (h' : m'.Ordered) :
      (if p then (ln, m') else m'.stage e.c dev ea.toNat pl.at_).2.Ordered := by
    split
    · exact h'
    · exact Mach.stage_ordered h'
  split
  · simp
  · simp
  · exact Chk.sat_ok.2 (Env.start_ordered (hl hm))

theorem ldbBody_ordered (h : m.Ordered) {q a imm s e} : Chk.Sat Mach.Ordered (ldbBody q a imm s e m) := by
  unfold ldbBody
  refine (Env.ea_ordered h).bind fun ⟨ea, m⟩ h => (Env.loadDst_ordered h).bind fun ⟨l, m⟩ h => .skip fun _ =>
    (Env.resolve_ordered h).bind fun ⟨pl, m⟩ h => ?_
  dsimp only
  split <;> simp [h]

theorem postedStoreBody_ordered (h : m.Ordered) {sp pk q a imm s e} :
    Chk.Sat Mach.Ordered (postedStoreBody sp pk q a imm s e m) := by
  refine (Env.ea_ordered h).bind fun ⟨ea, m⟩ h => (Env.storeData_ordered h).bind fun ⟨bs, m⟩ h => .skip fun _ =>
    (Env.resolve_ordered h).bind fun ⟨pl, m'⟩ h' => .skip fun _ => ?_
  have hm : (if sp = .glb then m'.touchSlice ea.toNat else m').Ordered := by simp [h']
  dsimp only
  generalize (if sp = .glb then m'.touchSlice ea.toNat else m') = m₁ at hm ⊢
  split
  · exact .skip fun _ => by simp [hm]
  · exact .skip fun _ => by simp [hm]

@[simp] theorem Mach.drain_ordered (h : m.Ordered) {p} : (m.drain p).Ordered := by
  simp only [Mach.drain]
  split <;> simp [h]

@[simp] theorem postedWriteAck_ordered (h : m.Ordered) {t c n} : (postedWriteAck t c n m).Ordered := by
  simp only [postedWriteAck]
  repeat' split
  · simp [h]
  · exact Mach.finish_ordered (onCore_ordered (Mach.drain_ordered h) fun _ hk => Core.finAct_rising hk)
  all_goals simp [h]

theorem pfdBody_ordered (h : m.Ordered) {a imm e} : Chk.Sat Mach.Ordered (pfdBody a imm e m) := by
  refine (Env.ea_ordered h).bind fun ⟨ea, m⟩ h => .skip fun _ => ?_
  dsimp only at h ⊢
  split
  next pl m' hr =>
    have h' : m'.Ordered := Env.resolve_ordered h _ hr
    simp [h']
  · simp [h]
  · simp

theorem locBody_ordered (h : m.Ordered) {d f a e} : Chk.Sat Mach.Ordered (locBody d f a e m) := by
  unfold locBody
  refine (Env.src_ordered h).bind fun ⟨v, m⟩ h => (Env.dst_ordered h).bind fun ⟨l, m⟩ h => ?_
  dsimp only
  split <;> simp [h]

/-! ### Starting a copy -/

@[simp] theorem Core.onObj_rising_iff {k : Core} {o f} : (k.onObj o f).Rising ↔ k.Rising := Iff.rfl

@[simp] theorem Core.objStart_rising_iff {k : Core} {o} : (k.objStart o).Rising ↔ k.Rising := Iff.rfl

@[simp] theorem Core.objDone_rising_iff {k : Core} {o units st ds} : (k.objDone o units st ds).Rising ↔ k.Rising := Iff.rfl

@[simp] theorem Mach.writeObjs_ordered (h : m.Ordered) {s} : (m.writeObjs s).Ordered := by
  simp [Mach.writeObjs, h]

@[simp] theorem Mach.onGroupCore_ordered (h : m.Ordered) {c g} {f : Core → Core} (hf : ∀ k : Core, k.Rising → (f k).Rising) :
    (m.onGroupCore c g f).Ordered := by
  simp only [Mach.onGroupCore]
  split
  · exact onCore_ordered h hf
  · refine foldl_ordered ?_ fun m s h => Mach.writeObjs_ordered h
    refine ⟨h.cores, h.contexts, h.saved.map fun s hs => ?_, h.pools, h.seqs, h.requests, h.launches⟩
    split
    · exact hf _ hs
    · exact hs

theorem Env.runTranslates_ordered (h : m.Ordered) {e : Env} {n s} : Chk.Sat Mach.Ordered (e.runTranslates n s m) := by
  unfold Env.runTranslates
  split
  · exact .skip fun _ => by simpa using h
  · split
    · split
      · simp
      next hw => exact Chk.sat_ok.2 (Mach.writable_ordered h hw)
    · simpa using h
  · simpa using h

theorem foldlM_ordered {α : Type} {l : List α} {f : Mach → α → Chk Mach} (h : m.Ordered)
    (hf : ∀ m a, m.Ordered → Chk.Sat Mach.Ordered (f m a)) : Chk.Sat Mach.Ordered (l.foldlM f m) := by
  induction l generalizing m with
  | nil => exact Chk.sat_ok.2 h
  | cons a l ih => exact (hf m a h).bind fun m h => ih h

theorem Env.copyChecks_ordered (h : m.Ordered) {e : Env} {x} : Chk.Sat Mach.Ordered (e.copyChecks m x) :=
  .skip fun _ => .skip fun _ => .skip fun _ =>
    (foldlM_ordered h fun m s h => Env.runTranslates_ordered h).bind fun m h => .skip fun _ => .skip fun _ => by simpa using h

theorem Env.record_ordered (h : m.Ordered) {e : Env} {v n} : Chk.Sat (·.2.Ordered) (e.record m v n) := by
  unfold Env.record
  refine .skip fun _ => .skip fun _ => ?_
  dsimp only
  split <;> simp [h]

theorem Env.farCheck_ordered (h : m.Ordered) {e : Env} {x} : Chk.Sat Mach.Ordered (e.farCheck m x) := by
  unfold Env.farCheck
  refine (Env.admission_ordered h).bind fun m h => ?_
  simp [h]

theorem cpyBody_ordered (h : m.Ordered) {a e} : Chk.Sat Mach.Ordered (cpyBody a e m) := by
  refine (Env.src_ordered h).bind fun ⟨v, m⟩ h => (Env.record_ordered h).bind fun ⟨w, m⟩ h => .skip fun _ =>
    (Env.copyChecks_ordered h).bind fun m h => .skip fun _ => .skip fun _ => .skip fun _ => ?_
  split
  · exact Chk.sat_ok.2 (Env.startValues_ordered (onCore_ordered (Mach.portError_ordered_iff.2 h) fun k hk => by simp [hk]))
  split
  · exact (Env.farCheck_ordered h).bind fun m h => by simp [h]
  · simp [h]

/-- The machine that an engine's access leaves is ordered, however it ends. -/
def Io.Ordered {α : Type} : Io α → Prop
  | .wait m => m.Ordered
  | .lost m => m.Ordered
  | .ok _ m => m.Ordered

theorem Io.Ordered.of_wait {α : Type} {x : Io α} (h : x.Ordered) (hx : x = .wait m) : m.Ordered := by subst hx; exact h

theorem Io.Ordered.of_lost {α : Type} {x : Io α} (h : x.Ordered) (hx : x = .lost m) : m.Ordered := by subst hx; exact h

theorem Io.Ordered.of_ok {α : Type} {x : Io α} {a : α} (h : x.Ordered) (hx : x = .ok a m) : m.Ordered := by
  subst hx; exact h

/-! ### The engine's accesses and turns -/

theorem engineRead_ordered (h : m.Ordered) {t c op pkg code a n} : (engineRead t c op pkg code a n m).Ordered := by
  simp only [engineRead]
  repeat' split
  all_goals simp [Io.Ordered, h]

theorem engineWrite_ordered (h : m.Ordered) {t c op pkg code a bs} : (engineWrite t c op pkg code a bs m).Ordered := by
  simp only [engineWrite]
  split
  · split
    · simp [Io.Ordered, h]
    · simp [Io.Ordered, h]
  · split <;> simp [Io.Ordered, h]
  · split <;> simp [Io.Ordered, h]
  · split <;> simp [Io.Ordered, h]
  · exact h
  · simp [Io.Ordered, h]

theorem Core.arrive_rising {k k' : Core} (h : k.Rising) {id obj bs} (hk : k.arrive id obj bs = some k') : k'.Rising := by
  have pushed {q n} {f : Seq → List (QSlot Word)} : (k.onSeq q fun s => s.setX n (f s)).Rising :=
    Core.onSeq_rising h fun _ hs => Seq.setX_rising hs
  simp only [Core.arrive] at hk
  repeat' split at hk
  all_goals cases hk
  all_goals simp [h, pushed]

@[simp] theorem Mach.setCopy_ordered_iff {c op x} : (m.setCopy c op x).Ordered ↔ m.Ordered := by simp [Mach.setCopy]

@[simp] theorem Mach.completeCopy_ordered (h : m.Ordered) {c op x units st} : (m.completeCopy c op x units st).Ordered := by
  simp [Mach.completeCopy, h]

theorem copyStep_ordered (h : m.Ordered) {t c o whole} {m' : Mach} (hs : copyStep t c o whole m = some m') : m'.Ordered := by
  simp only [copyStep] at hs
  split at hs
  · cases hs
  next op _ =>
  split at hs
  case h_2 => cases hs
  next x _ =>
  split at hs
  · split at hs <;> cases hs
    simp [h]
  split at hs
  · cases hs
  split at hs
  · split at hs
    · cases hs
    next he => cases hs; exact (engineRead_ordered h).of_lost he
    next he => cases hs; exact Mach.setCopy_ordered_iff.2 ((engineRead_ordered h).of_ok he)
  next bs _ =>
  split at hs
  · split at hs
    · cases hs
    next k hk =>
      cases hs
      exact Mach.setCopy_ordered_iff.2 (setCore_ordered (Mach.fresh_ordered h) (Core.arrive_rising (h.core c) hk))
  · split at hs
    · cases hs
    next he => cases hs; exact (engineWrite_ordered h).of_lost he
    next he => cases hs; exact Mach.setCopy_ordered_iff.2 ((engineWrite_ordered h).of_ok he)

@[simp] theorem copyRun_ordered (h : m.Ordered) {t c o n} : (copyRun t c o n m).Ordered := by
  induction n generalizing m with
  | zero => exact h
  | succ n ih =>
    simp only [copyRun]
    split
    · exact h
    next hs => exact ih (copyStep_ordered h hs)

@[simp] theorem copyWake_ordered_iff {c o} : (copyWake c o m).Ordered ↔ m.Ordered := by
  simp only [copyWake]
  repeat' split
  all_goals simp

/-- A step of an engine, or the machine where the engine waits. -/
@[simp] theorem copyStep_getD_ordered (h : m.Ordered) {m' : Mach} (h' : m'.Ordered) {t c o whole} :
    ((copyStep t c o whole m).getD m').Ordered := by
  cases hs : copyStep t c o whole m with
  | none => exact h'
  | some m₁ => exact copyStep_ordered h hs

@[simp] theorem engineTurn_ordered (h : m.Ordered) {t c o} : (engineTurn t c o m).Ordered := by
  simp [engineTurn, h]

@[simp] theorem copyComplete_ordered (h : m.Ordered) {t c o} : (copyComplete t c o m).Ordered := by
  simp only [copyComplete]
  repeat' split
  all_goals simp [h]

@[simp] theorem arrivalElement_ordered (h : m.Ordered) {t c o} : (arrivalElement t c o m).Ordered := by
  simp only [arrivalElement]
  split
  · exact h
  split
  case h_2 => exact h
  refine .ite ?_ h
  exact .ite (copyStep_getD_ordered (.ite h (copyRun_ordered h)) (.ite h (copyRun_ordered h))) (.ite h (copyRun_ordered h))

/-! ### Copy objects -/

theorem cwtBody_ordered (h : m.Ordered) {test d a e} : Chk.Sat Mach.Ordered (cwtBody test d a e m) := by
  refine (Env.src_ordered h).bind fun ⟨v, m⟩ h => (Env.dst_ordered h).bind fun ⟨l, m⟩ h => .skip fun _ => ?_
  simp [h]

theorem cbndBody_ordered (h : m.Ordered) {s a b e} : Chk.Sat Mach.Ordered (cbndBody s a b e m) := by
  unfold cbndBody
  refine (Env.src2_ordered h).bind fun ⟨v, n, m⟩ h => .skip fun _ => ?_
  simp [h]

theorem cbndOffBody_ordered (h : m.Ordered) {a e} : Chk.Sat Mach.Ordered (cbndOffBody a e m) := by
  unfold cbndOffBody
  refine (Env.src_ordered h).bind fun ⟨v, m⟩ h => ?_
  simp [h]

end
end Sys2Proof.Machine
end

