-- ==== Sys2Proof/Proofs/OrderedCompute.lean ====
section
/-! SUPPORT for the statement that every step keeps the tables ordered: the integer, vector, column and control instructions. -/

namespace Sys2Proof.Machine

section
variable {m : Mach}

/-! ### Integer instructions -/

theorem timed2_ordered (h : m.Ordered) {d a b latency f e} :
    Chk.Sat Mach.Ordered (timed2 d a b latency f e m) := by
  unfold timed2
  refine (Env.src2_ordered h).bind fun ⟨x, y, m⟩ h => (Env.dst_ordered h).bind fun ⟨l, m⟩ h => ?_
  simp [h]

theorem timed1_ordered (h : m.Ordered) {d a latency f e} : Chk.Sat Mach.Ordered (timed1 d a latency f e m) := by
  unfold timed1
  refine (Env.src_ordered h).bind fun ⟨x, m⟩ h => (Env.dst_ordered h).bind fun ⟨l, m⟩ h => ?_
  simp [h]

theorem selBody_ordered (h : m.Ordered) {d z q a b e} : Chk.Sat Mach.Ordered (selBody d z q a b e m) := by
  unfold selBody
  refine (Env.src2_ordered h).bind fun ⟨x, y, m⟩ h => (Env.src_ordered h).bind fun ⟨c, m⟩ h =>
    (Env.dst_ordered h).bind fun ⟨l, m⟩ h => ?_
  simp [h]

/-! ### Vector operands and results -/

theorem Env.srcV2_ordered (h : m.Ordered) {e : Env} {a b} : Chk.Sat (·.2.Ordered) (e.srcV2 m a b) := by
  unfold Env.srcV2
  refine (Env.srcV_ordered h).bind fun ⟨x, m⟩ h => (Env.srcV_ordered h).bind fun ⟨y, m⟩ h => ?_
  simp [h]

theorem Env.srcV3_ordered (h : m.Ordered) {e : Env} {a b q} : Chk.Sat (·.2.Ordered) (e.srcV3 m a b q) := by
  unfold Env.srcV3
  refine (Env.srcV2_ordered h).bind fun ⟨l, m⟩ h => (Env.third_ordered h).bind fun ⟨z, m⟩ h => ?_
  simp [h]

@[simp] theorem Mach.vland_ordered_iff {l v} : (m.vland l v).2.Ordered ↔ m.Ordered := by
  simp only [Mach.vland]
  split <;> simp

theorem Env.dstVs_ordered (h : m.Ordered) {e : Env} {d vs} : Chk.Sat (·.2.Ordered) (e.dstVs d vs m) := by
  induction vs generalizing m with
  | nil => simp [Env.dstVs, h]
  | cons v r ih =>
    refine (Env.dstV_ordered h).bind fun ⟨l, m⟩ h => (ih (Mach.vland_ordered_iff.2 h)).bind fun ⟨ls, m⟩ h => ?_
    simpa using h

@[simp] theorem Core.replayFor_rising_iff {k : Core} {s} : (k.replayFor s).Rising ↔ k.Rising := by
  simp only [Core.replayFor]
  split <;> simp

theorem Env.vres_ordered (h : m.Ordered) {e : Env} {d r} : Chk.Sat Mach.Ordered (e.vres m d r) := by
  unfold Env.vres
  refine (Env.dstVs_ordered h).bind fun ⟨ls, m⟩ h => ?_
  simp [h]

theorem Env.maskRes_ordered (h : m.Ordered) {e : Env} {k bits flags} :
    Chk.Sat Mach.Ordered (e.maskRes m k bits flags) := by
  unfold Env.maskRes
  exact .skip fun _ => Chk.sat_ok.2 (Env.startValues_ordered (onCore_ordered h fun k hk => by simp [hk, SMap.put_wf]))

/-! ### Vector instructions -/

theorem arithBody_ordered (h : m.Ordered) {op d sat mode a b e} :
    Chk.Sat Mach.Ordered (arithBody op d sat mode a b e m) := by
  unfold arithBody
  refine (Env.srcV2_ordered h).bind fun ⟨l, m⟩ h => .skip fun _ => ?_
  exact Env.vres_ordered h

theorem vfmaBody_ordered (h : m.Ordered) {d neg q a b e} : Chk.Sat Mach.Ordered (vfmaBody d neg q a b e m) := by
  unfold vfmaBody
  refine (Env.srcV3_ordered h).bind fun ⟨l, m⟩ h => .skip fun _ => ?_
  exact Env.vres_ordered h

theorem vmnxBody_ordered (h : m.Ordered) {d f a b e} : Chk.Sat Mach.Ordered (vmnxBody d f a b e m) := by
  unfold vmnxBody
  refine (Env.srcV2_ordered h).bind fun ⟨l, m⟩ h => .skip fun _ => .skip fun _ => ?_
  exact Env.vres_ordered h

theorem vcmpBody_ordered (h : m.Ordered) {d sig c a b e} : Chk.Sat Mach.Ordered (vcmpBody d sig c a b e m) := by
  unfold vcmpBody
  refine (Env.srcV2_ordered h).bind fun ⟨l, m⟩ h => .skip fun _ => .skip fun _ => ?_
  dsimp only
  split
  · exact Env.maskRes_ordered h
  · exact Env.vres_ordered h

@[simp] theorem Mach.orUntyped_ordered_iff {t v} : (m.orUntyped t v).2.Ordered ↔ m.Ordered := by
  simp only [Mach.orUntyped]
  split <;> simp

theorem vselBody_ordered (h : m.Ordered) {d inv k a b e} : Chk.Sat Mach.Ordered (vselBody d inv k a b e m) := by
  unfold vselBody
  refine (Env.srcV2_ordered h).bind fun ⟨l, m⟩ h => .skip fun _ => .skip fun _ => ?_
  exact Env.vres_ordered (Mach.orUntyped_ordered_iff.2 h)

theorem vlogBody_ordered (h : m.Ordered) {d f a b e} : Chk.Sat Mach.Ordered (vlogBody d f a b e m) := by
  unfold vlogBody
  dsimp only
  split
  · exact (Env.srcV_ordered h).bind fun ⟨x, m⟩ h => .given <| .skip fun _ => Env.vres_ordered (Mach.orUntyped_ordered_iff.2 h)
  · exact (Env.srcV2_ordered h).bind fun ⟨l, m⟩ h => .skip fun _ => Env.vres_ordered (Mach.orUntyped_ordered_iff.2 h)

theorem vshfBody_ordered (h : m.Ordered) {d f a b e} : Chk.Sat Mach.Ordered (vshfBody d f a b e m) := by
  unfold vshfBody
  refine (Env.srcV2_ordered h).bind fun ⟨l, m⟩ h => .skip fun _ => .skip fun _ => ?_
  exact Env.vres_ordered h

theorem vprm2Body_ordered (h : m.Ordered) {d f a b e} : Chk.Sat Mach.Ordered (vprm2Body d f a b e m) := by
  unfold vprm2Body
  refine (Env.srcV2_ordered h).bind fun ⟨l, m⟩ h => .skip fun _ => ?_
  dsimp only
  split
  · exact .skip fun _ => .skip fun _ => .skip fun _ => Env.vres_ordered h
  · exact .skip fun _ => Env.vres_ordered h

theorem vprm1Body_ordered (h : m.Ordered) {d f a b e} : Chk.Sat Mach.Ordered (vprm1Body d f a b e m) := by
  unfold vprm1Body
  refine (Env.srcV_ordered h).bind fun ⟨x, m⟩ h => ?_
  dsimp only
  split
  · exact (Env.src_ordered h).bind fun ⟨s, m⟩ h => .skip fun _ => Env.vres_ordered h
  · exact .given <| .skip fun _ => Env.vres_ordered h

theorem vbrdBody_ordered (h : m.Ordered) {d x e} : Chk.Sat Mach.Ordered (vbrdBody d x e m) := by
  cases x with
  | e a b =>
    exact (Env.srcV_ordered h).bind fun ⟨x, m⟩ h => (Env.src_ordered h).bind fun ⟨s, m⟩ h => .skip fun _ =>
      Env.vres_ordered h
  | x a f => exact (Env.src_ordered h).bind fun ⟨v, m⟩ h => .skip fun _ => Env.vres_ordered h

theorem vlaneBody_ordered (h : m.Ordered) {d a b e} : Chk.Sat Mach.Ordered (vlaneBody d a b e m) := by
  unfold vlaneBody
  refine (Env.srcV_ordered h).bind fun ⟨x, m⟩ h => (Env.src_ordered h).bind fun ⟨s, m⟩ h => .skip fun _ =>
    (Env.dst_ordered h).bind fun ⟨l, m⟩ h => ?_
  simp [h]

theorem Env.heads_ordered (h : m.Ordered) {e : Env} {n k} : Chk.Sat (·.2.Ordered) (e.heads n k m) := by
  induction k generalizing m with
  | zero => simp [Env.heads, h]
  | succ k ih =>
    refine .skip fun v => (ih (onCore_ordered h fun k hk => by simp [hk])).bind fun ⟨r, m⟩ h => ?_
    simpa using h

theorem vwidBody_ordered (h : m.Ordered) {d g a e} : Chk.Sat Mach.Ordered (vwidBody d g a e m) := by
  unfold vwidBody
  refine (Env.srcV_ordered h).bind fun ⟨x, m⟩ h => .skip fun _ => .skip fun _ => ?_
  exact Env.vres_ordered h

theorem vnarBody_ordered (h : m.Ordered) {d sat g a e} : Chk.Sat Mach.Ordered (vnarBody d sat g a e m) := by
  unfold vnarBody
  refine .skip fun _ => (Env.heads_ordered h).bind fun ⟨vs, m⟩ h => .skip fun _ => .skip fun _ => .skip fun _ => ?_
  exact Env.vres_ordered h

theorem vredBody_ordered (h : m.Ordered) {d f a b e} : Chk.Sat Mach.Ordered (vredBody d f a b e m) := by
  unfold vredBody
  refine (Env.srcV_ordered h).bind fun ⟨x, m⟩ h => (Env.src_ordered h).bind fun ⟨s, m⟩ h => .skip fun _ => ?_
  exact Env.vres_ordered h

theorem vscnBody_ordered (h : m.Ordered) {d ex f a e} : Chk.Sat Mach.Ordered (vscnBody d ex f a e m) := by
  unfold vscnBody
  refine (Env.srcV_ordered h).bind fun ⟨x, m⟩ h => .skip fun _ => ?_
  exact Env.vres_ordered h

theorem vdotBody_ordered (h : m.Ordered) {d neg q a b e} : Chk.Sat Mach.Ordered (vdotBody d neg q a b e m) := by
  unfold vdotBody
  refine (Env.srcV3_ordered h).bind fun ⟨l, m⟩ h => .skip fun _ => .skip fun _ => ?_
  dsimp only
  split
  · simp
  · exact .skip fun _ => Env.vres_ordered h

theorem specialBody_ordered (h : m.Ordered) {d op a e} : Chk.Sat Mach.Ordered (specialBody d op a e m) := by
  unfold specialBody
  refine (Env.srcV_ordered h).bind fun ⟨x, m⟩ h => .skip fun _ => ?_
  dsimp only
  split
  · simp
  · exact Env.vres_ordered h

theorem smxsBody_ordered (h : m.Ordered) {d lg a b e} : Chk.Sat Mach.Ordered (smxsBody d lg a b e m) := by
  unfold smxsBody
  exact (Env.srcV2_ordered h).bind fun ⟨l, m⟩ h => .skip fun _ => .skip fun _ => .skip fun _ => Env.vres_ordered h

theorem Env.maskTo_ordered (h : m.Ordered) {e : Env} {d bits} : Chk.Sat Mach.Ordered (e.maskTo m d bits) := by
  unfold Env.maskTo
  split
  · exact Env.maskRes_ordered h
  · simp

theorem vmskBody_ordered (h : m.Ordered) {d f e} : Chk.Sat Mach.Ordered (vmskBody d f e m) := by
  have value {l : Landing} {x : Word} {m : Mach} (h : m.Ordered) : (e.startValues m [l.put x] 0 []).Ordered :=
    Env.startValues_ordered h
  unfold vmskBody
  split
  · exact .skip fun _ => .skip fun _ => Env.maskTo_ordered h
  · exact .skip fun _ => (Env.dst_ordered h).bind fun ⟨l, m⟩ h => Chk.sat_ok.2 (value h)
  · exact .skip fun _ => (Env.dst_ordered h).bind fun ⟨l, m⟩ h => Chk.sat_ok.2 (value h)
  · exact .skip fun _ => Env.maskTo_ordered h
  · exact (Env.srcV_ordered h).bind fun ⟨x, m⟩ h => .skip fun _ => Env.maskTo_ordered h

/-! ### The column's instructions -/

theorem mvkBody_ordered (h : m.Ordered) {lg a b e} : Chk.Sat Mach.Ordered (mvkBody lg a b e m) := by
  unfold mvkBody
  refine .skip fun v => (Env.heads_ordered h).bind fun ⟨vs, popped⟩ hp =>
    (Env.src_ordered (Mach.Ordered.ite h hp)).bind fun ⟨n, m⟩ h => .skip fun _ => .skip fun _ => .skip fun _ => ?_
  simp [h]

theorem mvqBody_ordered (h : m.Ordered) {d msk a b e} : Chk.Sat Mach.Ordered (mvqBody d msk a b e m) := by
  unfold mvqBody
  refine (Env.src2_ordered h).bind fun ⟨x, y, m⟩ h => (Env.dstV_ordered h).bind fun ⟨l, m⟩ h => .skip fun _ => ?_
  simp [h]

theorem mvvBody_ordered (h : m.Ordered) {msk q a b e} : Chk.Sat Mach.Ordered (mvvBody msk q a b e m) := by
  unfold mvvBody
  refine (Env.src_ordered h).bind fun ⟨x, m⟩ h => (Env.srcV_ordered h).bind fun ⟨p, m⟩ h =>
    (Env.third_ordered h).bind fun ⟨st, m⟩ h => .skip fun _ => .skip fun _ => .skip fun _ => ?_
  simp [h]

theorem mvmBody_ordered (h : m.Ordered) {a e} : Chk.Sat Mach.Ordered (mvmBody a e m) := by
  unfold mvmBody
  refine (Env.src_ordered h).bind fun ⟨x, m⟩ h => .skip fun _ => .skip fun _ => .skip fun _ => ?_
  simp [h]

theorem mvmOffBody_ordered (h : m.Ordered) {e} : Chk.Sat Mach.Ordered (mvmOffBody e m) := by
  simp [mvmOffBody, h]

theorem mvdBody_ordered (h : m.Ordered) {d mode f a e} : Chk.Sat Mach.Ordered (mvdBody d mode f a e m) := by
  unfold mvdBody
  refine (Env.src_ordered h).bind fun ⟨x, m⟩ h => (Env.dstV_ordered h).bind fun ⟨l, m⟩ h => .skip fun _ => ?_
  simp [h]

@[simp] theorem Mach.ownMask_ordered (h : m.Ordered) {c rs} : (m.ownMask c rs).Ordered := by
  simp only [Mach.ownMask]
  simp +contextual [h, foldl_ordered]

theorem serveChunk_ordered (h : m.Ordered) {t c op msk a} {act : Chunk → Option Word → Core → Mach → Mach}
    (ha : ∀ {x w k m}, m.Ordered → (act x w k m).Ordered) : (serveChunk t c op msk a act m).Ordered := by
  simp only [serveChunk]
  repeat' split
  all_goals simp [h, ha]

@[simp] theorem serveColumn_ordered (h : m.Ordered) {t c op} : (serveColumn t c op m).Ordered := by
  simp only [serveColumn]
  split
  · exact h
  split
  · simp [h]
  · simp [h]
  · simp [h]
  · exact serveChunk_ordered h fun h => Mach.finish_ordered (Mach.vland_ordered_iff.2 h)
  · exact serveChunk_ordered h fun h => by simp [h]
  · exact h

/-! ### Control -/

@[simp] theorem Env.branch_ordered (h : m.Ordered) {e : Env} {taken disp} : (e.branch taken disp m).Ordered := by
  simp only [Env.branch]
  split <;> simp [h]

theorem brcBody_ordered (h : m.Ordered) {whenZero q p e} : Chk.Sat Mach.Ordered (brcBody whenZero q p e m) := by
  unfold brcBody
  refine (Env.src_ordered h).bind fun ⟨v, m⟩ h => ?_
  simp [h]

theorem callBody_ordered (h : m.Ordered) {q p e} : Chk.Sat Mach.Ordered (callBody q p e m) := by
  unfold callBody
  refine (Env.dst_ordered h).bind fun ⟨l, m⟩ h => ?_
  simp [h]

theorem retBody_ordered (h : m.Ordered) {a e} : Chk.Sat Mach.Ordered (retBody a e m) := by
  unfold retBody
  refine (Env.src_ordered h).bind fun ⟨v, m⟩ h => .skip fun _ => ?_
  simp [h]

theorem loopBody_ordered (h : m.Ordered) {k p e} : Chk.Sat Mach.Ordered (loopBody k p e m) := by
  unfold loopBody
  refine .skip fun _ => .skip fun _ => ?_
  split <;> simp [h]

theorem lbrkBody_ordered (h : m.Ordered) {a n e} : Chk.Sat Mach.Ordered (lbrkBody a n e m) := by
  unfold lbrkBody
  refine (Env.src_ordered h).bind fun ⟨v, m⟩ h => ?_
  dsimp only
  split
  · simp [h]
  split <;> simp [h]

theorem tkwBody_ordered (h : m.Ordered) {a chk down e} : Chk.Sat Mach.Ordered (tkwBody a chk down e m) := by
  unfold tkwBody
  refine (Env.src_ordered h).bind fun ⟨v, m⟩ h => .skip fun _ => ?_
  exact Chk.sat_ok.2 (Env.finishNow_ordered_iff.2 (Mach.Ordered.ite h (onSeq_ordered_iff_of (fun _ => by simp) |>.2 h)))

theorem tksBody_ordered (h : m.Ordered) {a down e} : Chk.Sat Mach.Ordered (tksBody a down e m) := by
  unfold tksBody
  refine (Env.src_ordered h).bind fun ⟨v, m⟩ h => .skip fun _ => ?_
  simp [h]

theorem Env.ctlResult_ordered (h : m.Ordered) {e : Env} {d latency v} :
    Chk.Sat Mach.Ordered (e.ctlResult m d latency v) := by
  unfold Env.ctlResult
  refine (Env.dst_ordered h).bind fun ⟨l, m⟩ h => ?_
  simp [h]

theorem qopDropBody_ordered (h : m.Ordered) {s e} : Chk.Sat Mach.Ordered (qopDropBody s e m) := by
  unfold qopDropBody
  split <;> exact .skip fun _ => by simp [h]

theorem qopClrBody_ordered (h : m.Ordered) {s e} : Chk.Sat Mach.Ordered (qopClrBody s e m) := by
  refine .skip fun _ => .skip fun _ => Chk.sat_ok.2 (Env.finishNow_ordered_iff.2 (setCore_ordered h ?_))
  split <;> simp [h.core]

theorem clhBody_ordered (h : m.Ordered) {a abs e} : Chk.Sat Mach.Ordered (clhBody a abs e m) := by
  unfold clhBody
  refine (Env.src_ordered h).bind fun ⟨v, m⟩ h => ?_
  dsimp only
  split <;> simp [h]

theorem yieldBody_ordered (h : m.Ordered) {e} : Chk.Sat Mach.Ordered (yieldBody e m) := by
  have hm : (e.advance 1 (e.finishNow m)).Ordered := by simp [h]
  exact Chk.sat_ok.2 (Mach.Ordered.ite (setCore_ordered hm (Core.take_rising (hm.core e.c))) hm)

@[simp] theorem Core.groupExit_rising_iff {k : Core} : (k.groupExit).Rising ↔ k.Rising := by
  simp only [Core.groupExit]
  split <;> simp

theorem exitBody_ordered (h : m.Ordered) {e} : Chk.Sat Mach.Ordered (exitBody e m) :=
  Chk.sat_ok.2 (onCore_ordered (Env.finishNow_ordered_iff.2 h) fun k hk => by simp [hk])

theorem sleepBody_ordered (h : m.Ordered) {a e} : Chk.Sat Mach.Ordered (sleepBody a e m) := by
  unfold sleepBody
  refine (Env.src_ordered h).bind fun ⟨v, m⟩ h => ?_
  simp [h]

end
end Sys2Proof.Machine
end

