-- ==== Sys2Proof/Proofs/OrderedBlocks.lean ====
section
/-! SUPPORT for the statement that every step keeps the tables ordered: keys and blocks. -/

namespace Sys2Proof.Machine

section
variable {m : Mach}

/-! ### Keys given back -/

@[simp] theorem Mach.arriveAt_ordered (h : m.Ordered) {r right g} : (m.arriveAt r right g).Ordered := by
  simp only [Mach.arriveAt]
  split
  · exact h
  · exact onCore_ordered h fun k => by split <;> simp

@[simp] theorem Mach.setKey_ordered_iff {rid k} : (m.setKey rid k).Ordered ↔ m.Ordered := by simp [Mach.setKey]

@[simp] theorem Mach.zeroRegion_ordered (h : m.Ordered) {r} : (m.zeroRegion r).Ordered := by
  simp only [Mach.zeroRegion]
  split <;> simp [h]

@[simp] theorem Mach.passOver_ordered (h : m.Ordered) {r left ctx} : (m.passOver r left ctx).Ordered := by
  simp [Mach.passOver, h]

@[simp] theorem Mach.settle_ordered (h : m.Ordered) {rid} : (m.settle rid).Ordered := by
  simp only [Mach.settle]
  repeat' split
  all_goals simp [h]

@[simp] theorem Mach.returnShareOf_ordered (h : m.Ordered) {rid h' ctx} :
    (m.returnShareOf rid h' ctx).2.Ordered := by
  simp only [Mach.returnShareOf]
  repeat' split
  all_goals simp [h]

@[simp] theorem Mach.returnShare_ordered (h : m.Ordered) {rid g ctx} : (m.returnShare rid g ctx).2.Ordered := by
  simp [Mach.returnShare, h]

@[simp] theorem Mach.returnKey_ordered (h : m.Ordered) {rid ctx} : (m.returnKey rid ctx).2.Ordered := by
  simp only [Mach.returnKey]
  repeat' split
  all_goals simp [h]

@[simp] theorem Mach.releaseKey_ordered (h : m.Ordered) {g ctx rid} : (m.releaseKey g ctx rid).Ordered := by
  have back {m : Mach} (h : m.Ordered) {n : Nat} :
      ((List.range n).foldl (fun m _ => (m.returnShare rid g ctx).2) m).Ordered :=
    foldl_ordered h fun m _ h => Mach.returnShare_ordered h
  simp only [Mach.releaseKey]
  repeat' split
  · exact h
  · exact Mach.returnKey_ordered h
  · exact Mach.settle_ordered (back (Mach.setKey_ordered_iff.2 h))
  · exact Mach.settle_ordered (back h)
  · exact h

@[simp] theorem Mach.releaseKeys_ordered (h : m.Ordered) {g ctx} : (m.releaseKeys g ctx).Ordered := by
  have hm (l : List Nat) : (l.foldl (fun m rid => m.releaseKey g ctx rid) m).Ordered :=
    foldl_ordered h fun m rid h => Mach.releaseKey_ordered h
  simp [Mach.releaseKeys, hm]

/-! ### Key instructions -/

@[simp] theorem Env.status_ordered (h : m.Ordered) {e : Env} {l code fin} : (e.status m l code fin).Ordered := by
  simp [Env.status, h]

@[simp] theorem Env.refused_ordered (h : m.Ordered) {e : Env} {l code h'} : (e.refused m l code h').Ordered := by
  simp [Env.refused, h]

@[simp] theorem Mach.racedOf_ordered_iff {codes} : (m.racedOf codes).2.Ordered ↔ m.Ordered := by simp [Mach.racedOf]

@[simp] theorem Env.raced_ordered (h : m.Ordered) {e : Env} {l} : (e.raced m l).Ordered := by simp [Env.raced, h]

theorem Env.lendFar_ordered (h : m.Ordered) {e : Env} {p w a park b l} :
    Chk.Sat Mach.Ordered (e.lendFar m p w a park b l) := by
  simp only [Env.lendFar]
  repeat' split
  all_goals simp [h]

@[simp] theorem Mach.transit_ordered (h : m.Ordered) {r h'} : (m.transit r h').Ordered := by
  simp [Mach.transit, h]

theorem lendBody_ordered (h : m.Ordered) {park d sp a b e} :
    Chk.Sat Mach.Ordered (lendBody park d sp a b e m) := by
  unfold lendBody
  refine (Env.src2_ordered h).bind fun ⟨w, v, m⟩ h => (Env.dst_ordered h).bind fun ⟨l, m⟩ h => .skip fun ka => ?_
  dsimp only
  split
  · exact Env.lendFar_ordered h
  refine .skip fun ⟨r, hold⟩ => ?_
  repeat' split
  all_goals simp [h]

@[simp] theorem Mach.rackLend_ordered (h : m.Ordered) {rid right dest zero cut g} :
    (m.rackLend rid right dest zero cut g).2.Ordered := by
  simp only [Mach.rackLend]
  repeat' split
  all_goals simp [h]

@[simp] theorem Mach.rackRetn_ordered (h : m.Ordered) {rid right g ctx} :
    (m.rackRetn rid right g ctx).2.Ordered := by
  simp only [Mach.rackRetn]
  repeat' split
  all_goals simp [h]

@[simp] theorem keyArrival_ordered (h : m.Ordered) {t c o} : (keyArrival t c o m).Ordered := by
  simp only [keyArrival]
  repeat' split
  all_goals simp [h]

theorem retnBody_ordered (h : m.Ordered) {d sp a e} : Chk.Sat Mach.Ordered (retnBody d sp a e m) := by
  unfold retnBody
  refine (Env.src_ordered h).bind fun ⟨w, m⟩ h => (Env.dst_ordered h).bind fun ⟨l, m⟩ h => .skip fun ka => ?_
  dsimp only
  split
  · repeat' split
    all_goals simp [h]
  refine .skip fun ⟨r, hold⟩ => ?_
  repeat' split
  all_goals simp [h]

theorem splitAddrBody_ordered (h : m.Ordered) {d sp a b e} :
    Chk.Sat Mach.Ordered (splitAddrBody d sp a b e m) := by
  unfold splitAddrBody
  refine (Env.src2_ordered h).bind fun ⟨w, v, m⟩ h => (Env.dst_ordered h).bind fun ⟨l, m⟩ h => .skip fun ka =>
    .skip fun r => ?_
  dsimp only
  split
  · simp [h]
  refine .skip fun _ => ?_
  split
  · simp [h]
  split
  · simp [h]
  refine .skip fun home => ?_
  split
  · simp [h]
  · simp [h]

theorem splitBody_ordered (h : m.Ordered) {st d sp a b e} :
    Chk.Sat Mach.Ordered (splitBody st d sp a b e m) := by
  unfold splitBody
  refine (Env.src2_ordered h).bind fun ⟨w, v, m⟩ h => (Env.dst_ordered h).bind fun ⟨l, m⟩ h => .skip fun ka =>
    .skip fun r => ?_
  dsimp only
  repeat' split
  all_goals simp [h]

theorem splitCmnBody_ordered (h : m.Ordered) {d sp a e} : Chk.Sat Mach.Ordered (splitCmnBody d sp a e m) := by
  unfold splitCmnBody
  refine (Env.src_ordered h).bind fun ⟨w, m⟩ h => (Env.dst_ordered h).bind fun ⟨l, m⟩ h => .skip fun ka =>
    .skip fun r => ?_
  dsimp only
  repeat' split
  all_goals simp [h]

@[simp] theorem serveSplitCmn_ordered (h : m.Ordered) {c op rid} : (serveSplitCmn c op rid m).Ordered := by
  simp only [serveSplitCmn]
  repeat' split
  all_goals simp [h]

theorem joinAddrBody_ordered (h : m.Ordered) {d sp a b e} :
    Chk.Sat Mach.Ordered (joinAddrBody d sp a b e m) := by
  unfold joinAddrBody
  refine (Env.src2_ordered h).bind fun ⟨w, v, m⟩ h => (Env.dst_ordered h).bind fun ⟨l, m⟩ h => .skip fun ka =>
    .skip fun r => .skip fun x => ?_
  dsimp only
  repeat' split
  all_goals simp [h]

theorem joinShrBody_ordered (h : m.Ordered) {d sp a e} : Chk.Sat Mach.Ordered (joinShrBody d sp a e m) := by
  unfold joinShrBody
  refine (Env.src_ordered h).bind fun ⟨w, m⟩ h => (Env.dst_ordered h).bind fun ⟨l, m⟩ h => .skip fun ka =>
    .skip fun r => .skip fun _ => .skip fun _ => ?_
  simp [h]

theorem joinCmnBody_ordered (h : m.Ordered) {d sp a e} : Chk.Sat Mach.Ordered (joinCmnBody d sp a e m) := by
  unfold joinCmnBody
  refine (Env.src_ordered h).bind fun ⟨w, m⟩ h => (Env.dst_ordered h).bind fun ⟨l, m⟩ h => .skip fun ka =>
    .skip fun ⟨r, code⟩ => ?_
  dsimp only
  split
  · simp [h]
  · exact .skip fun _ => by simp [h]

theorem joinRingBody_ordered (h : m.Ordered) {d sp a e} : Chk.Sat Mach.Ordered (joinRingBody d sp a e m) := by
  unfold joinRingBody
  refine (Env.src_ordered h).bind fun ⟨w, m⟩ h => (Env.dst_ordered h).bind fun ⟨l, m⟩ h => .skip fun ka =>
    .skip fun ⟨r, code⟩ => ?_
  dsimp only
  split
  · simp [h]
  · simp [h]
  refine .skip fun _ => ?_
  split <;> simp [h]

theorem keywArrBody_ordered (h : m.Ordered) {d sp a e} : Chk.Sat Mach.Ordered (keywArrBody d sp a e m) := by
  unfold keywArrBody
  refine (Env.src_ordered h).bind fun ⟨w, m⟩ h => (Env.dst_ordered h).bind fun ⟨l, m⟩ h => ?_
  dsimp only
  split
  · simp [h]
  refine .skip fun ka => .skip fun r => ?_
  split
  · simp [h]
  · exact .skip fun _ => by simp [h]

theorem keywTktBody_ordered (h : m.Ordered) {d sp a b e} : Chk.Sat Mach.Ordered (keywTktBody d sp a b e m) := by
  unfold keywTktBody
  refine (Env.src2_ordered h).bind fun ⟨w, v, m⟩ h => (Env.dst_ordered h).bind fun ⟨l, m⟩ h => ?_
  dsimp only
  split
  · simp [h]
  refine .skip fun ka => ?_
  split
  · repeat' split
    all_goals simp [h]
  refine .skip fun r => ?_
  repeat' split
  all_goals simp [h]

theorem keywFreeBody_ordered (h : m.Ordered) {d sp a e} : Chk.Sat Mach.Ordered (keywFreeBody d sp a e m) := by
  unfold keywFreeBody
  refine (Env.src_ordered h).bind fun ⟨w, m⟩ h => (Env.dst_ordered h).bind fun ⟨l, m⟩ h => ?_
  dsimp only
  split
  · simp [h]
  refine .skip fun ka => .skip fun r => .skip fun _ => ?_
  split
  · simp [h]
  · exact .skip fun _ => by simp [h]

theorem keyqBody_ordered (h : m.Ordered) {d sp a e} : Chk.Sat Mach.Ordered (keyqBody d sp a e m) := by
  unfold keyqBody
  refine (Env.src_ordered h).bind fun ⟨w, m⟩ h => (Env.dst_ordered h).bind fun ⟨l, m⟩ h => .skip fun ka => ?_
  dsimp only
  repeat' split
  all_goals simp [h]

/-! ### Block instructions -/

@[simp] theorem Env.blockDone_ordered (h : m.Ordered) {e : Env} {l v fin} : (e.blockDone m l v fin).Ordered := by
  simp [Env.blockDone, h]

@[simp] theorem Env.blockRaced_ordered (h : m.Ordered) {e : Env} {l codes} : (e.blockRaced m l codes).Ordered := by
  simp [Env.blockRaced, h]

@[simp] theorem Env.blockStart_ordered (h : m.Ordered) {e : Env} {k l fin} : (e.blockStart m k l fin).Ordered := by
  simp [Env.blockStart, h]

@[simp] theorem openHandle_ordered (h : m.Ordered) {t key ctx a shape} :
    (openHandle t m key ctx a shape).2.1.Ordered := by
  simp only [openHandle]
  have given : m.fresh.2.Ordered := Mach.fresh_ordered h
  repeat' split
  all_goals simp [h, given]
  rfl

theorem bopnBody_ordered (h : m.Ordered) {d a b e} : Chk.Sat Mach.Ordered (bopnBody d a b e m) := by
  unfold bopnBody
  refine (Env.src2_ordered h).bind fun ⟨x, y, m⟩ h => (Env.dst_ordered h).bind fun ⟨l, m⟩ h => ?_
  simp [h]

@[simp] theorem shareBlocks_ordered (h : m.Ordered) {ctx s d n} : (shareBlocks ctx s d n m).2.Ordered := by
  have mapped {l : List (Nat × Nat)} : (m.onBseq ctx d fun q =>
      { q with map := l.foldl (fun mp p => SMap.set mp p.1 p.2) q.map }).Ordered :=
    Mach.onBseq_ordered h fun q hq => SMap.foldl_wf hq fun _ _ h => SMap.set_wf h _ _
  simp only [shareBlocks]
  split
  · split
    · exact h
    split
    · exact h
    split
    · exact h
    · refine Mach.onPool_ordered mapped fun p hp => ⟨SMap.foldl_wf hp.frames_wf fun _ _ h => ?_, hp.usage_wf⟩
      exact SMap.set_wf h _ _
  · exact h

theorem bshrBody_ordered (h : m.Ordered) {d a b e} : Chk.Sat Mach.Ordered (bshrBody d a b e m) := by
  unfold bshrBody
  refine (Env.src2_ordered h).bind fun ⟨x, y, m⟩ h => (Env.dst_ordered h).bind fun ⟨l, m⟩ h => .skip fun _ =>
    .skip fun _ => .skip fun ⟨r, hold⟩ => .skip fun q => ?_
  dsimp only
  repeat' split
  all_goals simp [h]

@[simp] theorem Mach.unmapBlocks_ordered (h : m.Ordered) {ctx h' sel} : (m.unmapBlocks ctx h' sel).Ordered := by
  simp only [Mach.unmapBlocks]
  split
  · exact h
  · refine foldl_ordered (Mach.onBseq_ordered h fun q hq => ?_) fun m p h => Mach.unmapFrame_ordered h
    exact SMap.filter_wf hq _

@[simp] theorem Mach.unreserve_ordered (h : m.Ordered) {s k} : (m.unreserve s k).Ordered := by
  refine Mach.onPool_ordered (Mach.onBseq_ordered_of_map h fun _ => ?_) fun p hp => ?_
  · rfl
  · exact Pool.setUse_rising hp

@[simp] theorem Mach.closeHandle_ordered (h : m.Ordered) {ctx h'} : (m.closeHandle ctx h').Ordered := by
  simp only [Mach.closeHandle]
  split
  · exact h
  next s _ =>
    have returned : (m.unreserve s s.resv).Ordered := Mach.unreserve_ordered h
    simp [returned]

theorem bfreBody_ordered (h : m.Ordered) {d f a b e} : Chk.Sat Mach.Ordered (bfreBody d f a b e m) := by
  unfold bfreBody
  refine (Env.src_ordered h).bind fun ⟨x, m⟩ h => ?_
  dsimp only
  split
  · refine (Env.src_ordered h).bind fun ⟨n, m⟩ h => (Env.dst_ordered h).bind fun ⟨l, m⟩ h => .skip fun s => ?_
    dsimp only
    split <;> refine .skip fun _ => .skip fun r => ?_ <;> repeat' split
    all_goals simp [h]
  · refine .given <| (Env.dst_ordered h).bind fun ⟨l, m⟩ h => .skip fun s => ?_
    dsimp only
    split <;> refine .skip fun _ => .skip fun r => ?_ <;> repeat' split
    all_goals simp [h]

theorem Mach.invalidate_ordered (h : m.Ordered) {ctx h' t0 bm keys m'} (hm : m.invalidate ctx h' t0 bm keys = some m') :
    m'.Ordered := by
  induction keys generalizing m with
  | nil => cases hm; exact h
  | cons key r ih =>
    simp only [Mach.invalidate] at hm
    split at hm
    · cases hm
    next m₁ hw =>
    split at hm
    · cases hm
    · refine ih (Mach.onPool_ordered (Mach.writable_ordered h hw) fun p hp => ?_) hm
      split
      · exact hp
      · exact ⟨SMap.set_wf hp.frames_wf _ _, hp.usage_wf⟩

theorem binvBody_ordered (h : m.Ordered) {d all a b e} : Chk.Sat Mach.Ordered (binvBody d all a b e m) := by
  unfold binvBody
  refine (Env.src2_ordered h).bind fun ⟨x, y, m⟩ h => (Env.dst_ordered h).bind fun ⟨l, m⟩ h => .skip fun _ =>
    .skip fun _ => .skip fun _ => ?_
  simp [h]

@[simp] theorem serveBlock_ordered (h : m.Ordered) {t c op} : (serveBlock t c op m).Ordered := by
  simp only [serveBlock]
  split
  · split <;> simp [h]
  next b f _ _ _ _ =>
    have unmapped {sel} : (m.unmapBlocks (m.core c).ctx b sel).Ordered := Mach.unmapBlocks_ordered h
    split
    · exact Mach.finish_ordered (.ite (Mach.closeHandle_ordered unmapped) unmapped)
    · exact h
  · split
    · split
      · simp [h]
      split
      · simp [h]
      next hm =>
      split
      · simp [h]
      · simp [Mach.invalidate_ordered h hm]
    · exact h
  · exact h

theorem bqryBody_ordered (h : m.Ordered) {d f a e} : Chk.Sat Mach.Ordered (bqryBody d f a e m) := by
  unfold bqryBody
  refine (Env.src_ordered h).bind fun ⟨x, m⟩ h => (Env.dst_ordered h).bind fun ⟨l, m⟩ h => .skip fun s => ?_
  have done : (e.blockDone m l (queryWord m f (e.ctx m) s x.toNat) []).Ordered := by simp [h]
  dsimp only
  split <;> refine .skip fun _ => ?_ <;> split
  · exact Chk.sat_ok.2 done
  · exact .skip fun _ => Chk.sat_ok.2 done
  · exact Chk.sat_ok.2 done
  · exact .skip fun _ => Chk.sat_ok.2 done

@[simp] theorem reserveFrames_ordered (h : m.Ordered) {rel ctx s n} : (reserveFrames rel ctx s n m).2.Ordered := by
  simp only [reserveFrames]
  split
  · exact h
  split
  · exact Mach.unreserve_ordered h
  split
  · refine Mach.onPool_ordered (Mach.onBseq_ordered_of_map h fun _ => ?_) fun p hp => ?_
    · rfl
    · exact Pool.setUse_rising hp
  · exact h

theorem bgrwBody_ordered (h : m.Ordered) {d rel a b e} : Chk.Sat Mach.Ordered (bgrwBody d rel a b e m) := by
  unfold bgrwBody
  refine (Env.src2_ordered h).bind fun ⟨x, n, m⟩ h => (Env.dst_ordered h).bind fun ⟨l, m⟩ h => .skip fun _ =>
    .skip fun _ => ?_
  simp [h]

end
end Sys2Proof.Machine
end

