-- ==== Sys2Proof/Proofs/OrderedHandoff.lean ====
section
/-! SUPPORT for the statement that every step keeps the tables ordered: hand-offs, weight loads, rings and relays. -/

namespace Sys2Proof.Machine

section
variable {m : Mach}

/-! ### Hand-offs -/

theorem hoffBody_ordered (h : m.Ordered) {d a e} : Chk.Sat Mach.Ordered (hoffBody d a e m) := by
  unfold hoffBody
  refine (Env.src_ordered h).bind fun ⟨w, m⟩ h => (Env.dst_ordered h).bind fun ⟨l, m⟩ h =>
    (Env.record_ordered h).bind fun ⟨ds, m⟩ h => .skip fun _ => ?_
  dsimp only
  split
  · exact Chk.sat_error.2 trivial
  refine .skip fun _ => .skip fun _ => ?_
  split
  · exact .stop
  refine .skip fun _ => .skip fun _ => .skip fun _ => ?_
  split
  · exact .stop
  refine .skip fun _ => .skip fun _ => .skip fun _ => .skip fun kr => .skip fun vr => ?_
  split
  · exact .stop
  refine .skip fun _ => .skip fun hr => .skip fun _ => .skip fun _ => ?_
  split <;> simp [h]

theorem Mach.takeFrames_ordered (h : m.Ordered) {ctx h' n r} (hr : Mach.takeFrames ctx h' n m = some r) :
    r.2.2.Ordered := by
  induction n generalizing m h r with
  | zero => cases hr; exact h
  | succ n ih =>
    simp only [Mach.takeFrames] at hr
    split at hr
    · cases hr
    split at hr
    · cases hr
    next hf =>
    obtain ⟨r', hr', heq⟩ := Option.map_eq_some_iff.1 hr
    cases heq
    have hm : r'.2.2.Ordered := ih (Mach.takeFrame_ordered h hf) hr'
    exact hm

@[simp] theorem Mach.toWaybill_ordered_iff {w rid} : (m.toWaybill w rid).Ordered ↔ m.Ordered := by simp [Mach.toWaybill]

@[simp] theorem makeWaybill_ordered (h : m.Ordered) {ctx ds krid vrid hrid issuer hand} :
    (makeWaybill m ctx ds krid vrid hrid issuer hand).2.2.Ordered := by
  simp only [makeWaybill]
  split
  · exact h
  split
  · exact h
  split
  · exact h
  split
  · exact h
  split
  next hf =>
    have hm := Mach.takeFrames_ordered h hf
    simp [hm]
  · exact h

@[simp] theorem Core.regain_rising_iff {k : Core} {rids} : (k.regain rids).Rising ↔ k.Rising := by
  simp only [Core.regain]
  simp [foldl_rising_iff]

@[simp] theorem serveHoff_ordered (h : m.Ordered) {c op} : (serveHoff c op m).Ordered := by
  simp only [serveHoff]
  repeat' split
  all_goals simp [h]

@[simp] theorem Mach.onWaybill_ordered_iff {n f} : (m.onWaybill n f).Ordered ↔ m.Ordered := by simp [Mach.onWaybill]

@[simp] theorem moveBlock_ordered (h : m.Ordered) {t w shape l b frame} :
    (moveBlock t m w shape l b frame).1.Ordered := by
  have rows {α : Type} {l : List α} {f : Mach × BitVec 7 → α → Mach × BitVec 7} {x : Mach × BitVec 7}
      (hx : x.1.Ordered) (hf : ∀ x a, x.1.Ordered → (f x a).1.Ordered) : (l.foldl f x).1.Ordered :=
    List.foldlRecOn (motive := fun x => x.1.Ordered) l f hx fun x hx a _ => hf x a hx
  have run {x : Mach} (h : x.Ordered) {pa n : Nat} {bs : List Byte} :
      (x.writeHome true pa n (Mem.ofBytes bs)).Ordered := Mach.writeHome_ordered_iff.2 h
  simp only [moveBlock, Bool.false_eq_true, if_false, if_true]
  refine rows (rows h fun x j h => rows h fun x i h => ?_) fun x j h => rows h fun x i h => ?_
  · exact Mach.setValid_ordered (run h)
  · exact run h

@[simp] theorem handoffBlockMove_ordered (h : m.Ordered) {t n} : (handoffBlockMove t n m).Ordered := by
  simp only [handoffBlockMove]
  repeat' split
  all_goals simp [h]

@[simp] theorem Mach.completeWaybill_ordered (h : m.Ordered) {w st} : (m.completeWaybill w st).Ordered := by
  simp only [Mach.completeWaybill]
  split <;> simp [h]

@[simp] theorem handoffCompletion_ordered (h : m.Ordered) {n} : (handoffCompletion n m).Ordered := by
  simp only [handoffCompletion]
  repeat' split
  all_goals simp [h]

@[simp] theorem Mach.zeroDevice_ordered (h : m.Ordered) {t ctx r} : (Mach.zeroDevice t m ctx r).Ordered :=
  foldl_ordered h fun m p h => Mach.Ordered.ite (by simp [h]) (Mach.zeroHome_ordered_iff.2 h)

@[simp] theorem Mach.freeKey_ordered_iff {rid} : (m.freeKey rid).Ordered ↔ m.Ordered := by simp [Mach.freeKey]

@[simp] theorem commitWaybill_ordered (h : m.Ordered) {t w} : (commitWaybill t w m).Ordered := by
  have zero {rid : Nat} {m : Mach} (h : m.Ordered) :
      (match m.region rid with | some r => m.zeroDevice t w.ctx r | none => m).Ordered := by
    split <;> simp [h]
  have freed {a b c : Nat} {m : Mach} (h : m.Ordered) : (((m.freeKey a).freeKey b).freeKey c).Ordered := by simpa using h
  refine Mach.onWaybill_ordered_iff.2 (freed (zero (zero ?_)))
  exact foldl_ordered h fun m fi h => Mach.onBseq_ordered h fun q hq => SMap.set_wf hq _ _

@[simp] theorem Mach.giveBack_ordered (h : m.Ordered) {w rid} : (m.giveBack w rid).Ordered := by
  simp only [Mach.giveBack]
  repeat' split
  all_goals simp [h]

@[simp] theorem Mach.returnFrames_ordered (h : m.Ordered) {w} : (m.returnFrames w).Ordered := by
  simp only [Mach.returnFrames]
  split
  · exact h
  · refine Mach.onPool_ordered (Mach.onBseq_ordered_of_map (foldl_ordered h fun m f h => Mach.freeFrame_ordered h) fun _ => ?_)
      fun p hp => ?_
    · rfl
    · exact Pool.setUse_rising hp

@[simp] theorem cancelWaybill_ordered (h : m.Ordered) {w} : (cancelWaybill w m).Ordered := by
  have back {l : List Nat} : (l.foldl (fun m rid => m.giveBack w rid) (m.returnFrames w)).Ordered :=
    foldl_ordered (Mach.returnFrames_ordered h) fun m rid h => Mach.giveBack_ordered h
  exact Mach.onWaybill_ordered_iff.2 (Mach.Ordered.ite back (Mach.completeWaybill_ordered back))

theorem hctlBody_ordered (h : m.Ordered) {form d a e} : Chk.Sat Mach.Ordered (hctlBody form d a e m) := by
  unfold hctlBody
  refine (Env.src_ordered h).bind fun ⟨w, m⟩ h => (Env.dst_ordered h).bind fun ⟨l, m⟩ h => ?_
  simp [h]

@[simp] theorem sealWaybill_ordered (h : m.Ordered) {w} : (sealWaybill w m).Ordered := by
  simp only [sealWaybill]
  split <;> simp [h]

@[simp] theorem hctlAct_ordered (h : m.Ordered) {t form w} : (hctlAct t form w m).2.2.Ordered := by
  simp only [hctlAct]
  repeat' split
  all_goals simp [h]

@[simp] theorem serveHctl_ordered (h : m.Ordered) {t c op} : (serveHctl t c op m).Ordered := by
  simp only [serveHctl]
  repeat' split
  all_goals simp [h]

theorem hctlQryBody_ordered (h : m.Ordered) {d a b e} : Chk.Sat Mach.Ordered (hctlQryBody d a b e m) := by
  unfold hctlQryBody
  refine (Env.src2_ordered h).bind fun ⟨w, i, m⟩ h => (Env.dst_ordered h).bind fun ⟨l, m⟩ h => .skip fun _ => ?_
  simp [h]

/-! ### Weight loads -/

theorem cwldBody_ordered (h : m.Ordered) {d a e} : Chk.Sat Mach.Ordered (cwldBody d a e m) := by
  unfold cwldBody
  refine (Env.src_ordered h).bind fun ⟨v, m⟩ h => (Env.dst_ordered h).bind fun ⟨l, m⟩ h =>
    (Env.record_ordered h).bind fun ⟨w, m⟩ h => .skip fun _ => .skip fun _ => .skip fun _ => ?_
  dsimp only
  split
  · exact .stop
  refine .skip fun _ => .skip fun _ => ?_
  split
  · exact .stop
  refine .skip fun _ => ?_
  split
  · exact Chk.sat_error.2 trivial
  refine .skip fun _ => .skip fun _ => ?_
  split
  · simp [h]
  · exact Chk.sat_ok.2 (Env.start_ordered (foldl_ordered h fun m r h => Env.later_ordered_iff.2 h))

@[simp] theorem Mach.toEngine_ordered_iff {c o rid} : (m.toEngine c o rid).Ordered ↔ m.Ordered := by simp [Mach.toEngine]

@[simp] theorem serveCwld_ordered (h : m.Ordered) {t c op} : (serveCwld t c op m).Ordered := by
  have refuse {rids : List Nat} {op : Op} : ((m.onCore c fun k => k.regain rids).finish c op).Ordered := by simp [h]
  simp only [serveCwld]
  split
  · repeat' split
    · exact h
    · simp [h]
    · exact refuse
    · exact refuse
    · exact h
    · refine onCore_ordered (Mach.finish_ordered (onCore_ordered (foldl_ordered h fun m r h => ?_) fun k hk => ?_)) fun k hk => ?_
      · simp [h]
      · simp [hk]
      · exact hk
  · exact h

@[simp] theorem Mach.fromEngine_ordered (h : m.Ordered) {g ctx rid} : (m.fromEngine g ctx rid).Ordered := by
  simp only [Mach.fromEngine]
  repeat' split
  all_goals simp [h]

@[simp] theorem chunkWrite_ordered (h : m.Ordered) {t ctx w j n bs} :
    (chunkWrite t m ctx w j n bs).Ordered := by
  have touched : (if decide (wDsp w ≠ 1) then m else m.touchSlice (wDst w j)).Ordered := by simp [h]
  simp only [chunkWrite]
  split
  · exact Mach.piecesWrite_ordered_iff.2 touched
  · exact foldl_ordered touched fun m p h => Mach.zeroHome_ordered_iff.2 h

@[simp] theorem Mach.dropEngineOp_ordered (h : m.Ordered) {c g o} : (m.dropEngineOp c g o).Ordered := by
  simp [Mach.dropEngineOp, h]

@[simp] theorem cwldChunk_ordered (h : m.Ordered) {t c o} : (cwldChunk t c o m).Ordered := by
  have returned {g : Option Gid} {ctx : BitVec 6} {rids : List Nat} {m : Mach} (h : m.Ordered) :
      (rids.foldl (fun m rid => m.fromEngine g ctx rid) m).Ordered := foldl_ordered h fun m r h => Mach.fromEngine_ordered h
  have written {g : Option Gid} {ctx w j n bs} {f : Core → Core} (hf : ∀ k : Core, k.Rising → (f k).Rising) :
      ((chunkWrite t m ctx w j n bs).onGroupCore c g f).Ordered := Mach.onGroupCore_ordered (chunkWrite_ordered h) hf
  simp only [cwldChunk]
  split
  · exact h
  split
  · split
    · simp [h]
    split
    · simp [h]
    · simp [h]
    split
    · simp [written]
    · refine Mach.dropEngineOp_ordered (Mach.onGroupCore_ordered (returned (written fun k hk => ?_)) fun k hk => by simp [hk])
      split <;> simp [hk]
  · exact h

/-! ### Rings -/

@[simp] theorem Mach.onRing_ordered_iff {rid f} : (m.onRing rid f).Ordered ↔ m.Ordered := by simp [Mach.onRing]

theorem riniBody_ordered (h : m.Ordered) {d a b e} : Chk.Sat Mach.Ordered (riniBody d a b e m) := by
  unfold riniBody
  refine (Env.src2_ordered h).bind fun ⟨w, v, m⟩ h => (Env.dst_ordered h).bind fun ⟨l, m⟩ h => .skip fun _ =>
    .skip fun r => ?_
  dsimp only
  repeat' split
  all_goals simp [h]

theorem rqryBody_ordered (h : m.Ordered) {d a e} : Chk.Sat Mach.Ordered (rqryBody d a e m) := by
  unfold rqryBody
  refine (Env.src_ordered h).bind fun ⟨w, m⟩ h => (Env.dst_ordered h).bind fun ⟨l, m⟩ h => .skip fun _ => ?_
  dsimp only
  split
  · simp
  · exact .skip fun _ => by simp [h]

theorem rclmBody_ordered (h : m.Ordered) {d a b e} : Chk.Sat Mach.Ordered (rclmBody d a b e m) := by
  unfold rclmBody
  refine (Env.src2_ordered h).bind fun ⟨w, v, m⟩ h => (Env.dst_ordered h).bind fun ⟨l, m⟩ h => .skip fun _ => ?_
  dsimp only
  split <;> simp [h]

theorem rwfrBody_ordered (h : m.Ordered) {d a b e} : Chk.Sat Mach.Ordered (rwfrBody d a b e m) := by
  unfold rwfrBody
  refine (Env.src2_ordered h).bind fun ⟨w, v, m⟩ h => (Env.dst_ordered h).bind fun ⟨l, m⟩ h => .skip fun _ =>
    .skip fun _ => ?_
  simp [h]

theorem rwflBody_ordered (h : m.Ordered) {d a b e} : Chk.Sat Mach.Ordered (rwflBody d a b e m) := by
  unfold rwflBody
  refine (Env.src2_ordered h).bind fun ⟨w, v, m⟩ h => (Env.dst_ordered h).bind fun ⟨l, m⟩ h => .skip fun ⟨r, g⟩ =>
    .skip fun _ => ?_
  simp [h]

theorem rpubBody_ordered (h : m.Ordered) {a b e} : Chk.Sat Mach.Ordered (rpubBody a b e m) := by
  unfold rpubBody
  refine (Env.src2_ordered h).bind fun ⟨w, v, m⟩ h => .skip fun _ => .skip fun _ => ?_
  simp [h]

theorem rrelBody_ordered (h : m.Ordered) {a b e} : Chk.Sat Mach.Ordered (rrelBody a b e m) := by
  unfold rrelBody
  refine (Env.src2_ordered h).bind fun ⟨w, v, m⟩ h => .skip fun _ => .skip fun _ => ?_
  simp [h]

@[simp] theorem serveRing_ordered (h : m.Ordered) {c op} : (serveRing c op m).Ordered := by
  simp only [serveRing]
  repeat' split
  all_goals simp [h]

@[simp] theorem Mach.endRings_ordered_iff {g} : (m.endRings g).Ordered ↔ m.Ordered := by simp [Mach.endRings]

/-! ### Relays -/

@[simp] theorem Mach.onChannel_ordered_iff {num f} : (m.onChannel num f).Ordered ↔ m.Ordered := by simp [Mach.onChannel]

@[simp] theorem Mach.onDir_ordered_iff {num toFf f} : (m.onDir num toFf f).Ordered ↔ m.Ordered := by simp [Mach.onDir]

@[simp] theorem Mach.doneWaiting_ordered_iff {num c g} : (m.doneWaiting num c g).Ordered ↔ m.Ordered := by
  simp [Mach.doneWaiting]

theorem rlysBody_ordered (h : m.Ordered) {d s a b e} : Chk.Sat Mach.Ordered (rlysBody d s a b e m) := by
  unfold rlysBody
  refine (Env.src2_ordered h).bind fun ⟨w, v, m⟩ h => (Env.dst_ordered h).bind fun ⟨l, m⟩ h => .skip fun f => ?_
  dsimp only
  split
  · simp [h]
  refine .skip fun _ => ?_
  split
  · simp [h]
  · exact .skip fun _ => .skip fun _ => .skip fun _ => by simp [h]

@[simp] theorem serveRlys_ordered (h : m.Ordered) {t c op} : (serveRlys t c op m).Ordered := by
  simp only [serveRlys]
  split
  · split
    · simp [h]
    refine Mach.Ordered.ite h ?_
    split
    next he => exact (engineRead_ordered h).of_wait he
    next he => exact (engineRead_ordered h).of_lost he
    next he =>
    have hm := (engineRead_ordered h).of_ok he
    split
    · simp [hm]
    split <;> simp [hm]
  · exact h

@[simp] theorem Mach.completeSends_ordered (h : m.Ordered) {l units st} :
    (m.completeSends l units st).Ordered :=
  foldl_ordered h fun m p h => Mach.Ordered.ite h (Mach.onGroupCore_ordered h fun k hk => by simp [hk])

@[simp] theorem Mach.landPayload_ordered (h : m.Ordered) {ch toFf p} : (m.landPayload ch toFf p).Ordered :=
  Mach.completeSends_ordered (Mach.onDir_ordered_iff.2 (.ite (by simp [h]) h))

@[simp] theorem relayPayloadLands_ordered (h : m.Ordered) {num toFf slot} :
    (relayPayloadLands num toFf slot m).Ordered := by
  simp only [relayPayloadLands]
  repeat' split
  all_goals simp [h]

theorem rlygBody_ordered (h : m.Ordered) {form d a b e} : Chk.Sat Mach.Ordered (rlygBody form d a b e m) := by
  unfold rlygBody
  refine (Env.src2_ordered h).bind fun ⟨w, v, m⟩ h => (Env.dst_ordered h).bind fun ⟨l, m⟩ h => .skip fun f => ?_
  dsimp only
  split
  · simp
  · exact .skip fun _ => by simp [h]

@[simp] theorem serveRlyg_ordered (h : m.Ordered) {c op} : (serveRlyg c op m).Ordered := by
  simp only [serveRlyg]
  repeat' split
  all_goals simp [h]

theorem rlywBody_ordered (h : m.Ordered) {d a b e} : Chk.Sat Mach.Ordered (rlywBody d a b e m) := by
  unfold rlywBody
  refine (Env.src2_ordered h).bind fun ⟨w, v, m⟩ h => (Env.dst_ordered h).bind fun ⟨l, m⟩ h => .skip fun f => ?_
  dsimp only
  split
  · simp [h]
  refine .skip fun _ => ?_
  split
  · simp [h]
  · exact .skip fun _ => by simp [h]

@[simp] theorem Mach.breakChannel_ordered (h : m.Ordered) {num lost} : (m.breakChannel num lost).Ordered := by
  simp only [Mach.breakChannel]
  repeat' split
  all_goals simp [h]

@[simp] theorem channelBreak_ordered (h : m.Ordered) {t num} : (channelBreak t num m).Ordered := by
  simp only [channelBreak]
  repeat' split
  all_goals simp [h]

@[simp] theorem Mach.dropRelayRing_ordered (h : m.Ordered) {e d} : (m.dropRelayRing e d).Ordered := by
  simp only [Mach.dropRelayRing]
  split <;> simp [h]

@[simp] theorem Core.endSends_rising_iff {k : Core} {num st} : (k.endSends num st).Rising ↔ k.Rising := by
  simp only [Core.endSends]
  simp [foldl_rising_iff]

theorem Mach.closeChannel_ordered (h : m.Ordered) {t num m'} (hm : Mach.closeChannel t m num = some m') :
    m'.Ordered := by
  simp only [Mach.closeChannel] at hm
  split at hm
  · cases hm; exact h
  split at hm
  · cases hm
  next ch _ _ =>
  cases hm
  have dropped : ((m.dropRelayRing ch.attEnd ch.att).dropRelayRing ch.ffEnd ch.ff).Ordered :=
    Mach.dropRelayRing_ordered (Mach.dropRelayRing_ordered h)
  have ended {m : Mach} (h : m.Ordered) (l : List Nat) :
      (l.foldl (fun m c => m.onCore c fun k => k.endSends num ch.breakStatus) m).Ordered :=
    foldl_ordered h fun m c h => onCore_ordered h fun k hk => by simp [hk]
  simp [ended dropped]

end
end Sys2Proof.Machine
end

