-- ==== Sys2Proof/Proofs/OrderedRequest.lean ====
section
/-! SUPPORT for the statement that every step keeps the tables ordered: placement, requests, errors and the loss of a context. -/

namespace Sys2Proof.Machine

section
variable {m : Mach}

/-! ### Placement of a group, and its end -/

@[simp] theorem Mach.loseAgent_ordered_iff {dram a ctx die} : (m.loseAgent dram a ctx die).Ordered ↔ m.Ordered := by
  simp [Mach.loseAgent]

/-- A request changed, its number kept. -/
@[simp] theorem Mach.onRequest_ordered_iff {r} {f : Request → Request} (hf : ∀ x, (f x).rid = x.rid) :
    (m.onRequest r f).Ordered ↔ m.Ordered := by
  have numbered : RidsBelow m.ids (m.requests.map fun x => if x.rid = r then f x else x) ↔ RidsBelow m.ids m.requests :=
    ridsBelow_map_iff fun x => by split <;> simp [hf]
  simp only [Mach.onRequest, Mach.ordered_mk_iff, numbered]
  rfl

theorem Mach.onRequest_ordered (h : m.Ordered) {r} {f : Request → Request} (hf : ∀ x, (f x).rid = x.rid) :
    (m.onRequest r f).Ordered := (Mach.onRequest_ordered_iff hf).2 h

/-- A launch changed, its number kept. -/
@[simp] theorem Mach.onLaunch_ordered_iff {n} {f : Launch → Launch} (hf : ∀ x, (f x).num = x.num) :
    (m.onLaunch n f).Ordered ↔ m.Ordered := by
  have numbered : NumsBelow m.ids (m.launches.map fun x => if x.num = n then f x else x) ↔ NumsBelow m.ids m.launches :=
    numsBelow_map_iff fun x => by split <;> simp [hf]
  simp only [Mach.onLaunch, Mach.ordered_mk_iff, numbered]
  rfl

@[simp] theorem Mach.setGroup_ordered_iff {g st} : (m.setGroup g st).Ordered ↔ m.Ordered := by simp [Mach.setGroup]

@[simp] theorem Mach.dropEnded_ordered (h : m.Ordered) : m.dropEnded.Ordered := by simp [Mach.dropEnded, h]

@[simp] theorem Mach.leaveWaiting_ordered (h : m.Ordered) : m.leaveWaiting.Ordered := by
  have numbered : NumsBelow m.ids m.leaveWaiting.launches :=
    (numsBelow_map_iff fun l => by split <;> rfl).2 h.launches
  exact ⟨h.cores, h.contexts, h.saved, h.pools, h.seqs, h.requests, numbered⟩

@[simp] theorem Mach.lendShare_ordered_iff {g s} : (m.lendShare g s).Ordered ↔ m.Ordered := by simp [Mach.lendShare]

@[simp] theorem Mach.settleStreams_ordered (h : m.Ordered) : m.settleStreams.Ordered := by
  have freed (l : List Stream) : (l.foldl (fun m s => m.setKey s.rid .free) m).Ordered :=
    foldl_ordered h fun m s h => Mach.setKey_ordered_iff.2 h
  simp [Mach.settleStreams, freed]

@[simp] theorem kernelImageLoad_ordered (h : m.Ordered) {t c noise} : (kernelImageLoad t c noise m).Ordered := by
  have loaded {m : Mach} (h : m.Ordered) {x : Nat} {f : Core → SMap Plane} :
      (m.onCore x fun k => { k with shadow := f k }).Ordered := onCore_ordered h (by simp)
  have others {l : List Nat} {f : Core → SMap Plane} :
      (l.foldl (fun m x => m.onCore x fun k => { k with shadow := f k }) m).Ordered :=
    foldl_ordered h fun m x h => loaded h
  simp only [kernelImageLoad]
  split
  · exact h
  split
  · exact h
  split
  · simp [h]
  · exact h
  split
  · simp [h]
  · exact h
  exact .ite (notify_ordered_iff.2 (loaded others)) (loaded others)

theorem Core.withKernel_rising {k k' : Core} (h : k.Rising) {x} (hk : k.withKernel x = some k') : k'.Rising := by
  simp only [Core.withKernel] at hk
  repeat' split at hk
  all_goals cases hk
  all_goals exact h

/-- A core that takes a group keeps its granules; its other tables are empty. -/
@[simp] theorem Core.placed_rising {k : Core} (h : k.Rising) {g view} : (k.placed g view).Rising := by
  have reset : Core.reset.Rising := Core.reset_rising
  simp [Core.placed, h, reset]

@[simp] theorem Mach.portWrite_ordered (h : m.Ordered) {c a bs} : (m.portWrite c a bs).Ordered := by
  simp only [Mach.portWrite]
  split
  · exact h
  · exact onCore_ordered (Mach.ownLocal_ordered h) fun k hk => hk

theorem placeGroup_ordered (h : m.Ordered) {t c l g ss} {k : Core} (hk : k.Rising) :
    (placeGroup t c l g k ss m).Ordered := by
  have lent : (ss.eraseDups.foldl (fun m s => m.lendShare ⟨l.num, g⟩ s) m).Ordered :=
    foldl_ordered h fun m s h => Mach.lendShare_ordered_iff.2 h
  have ported {data : List (Nat × List Byte)} {m : Mach} (h : m.Ordered) :
      (data.foldl (fun m x => m.portWrite c x.1 x.2) m).Ordered := foldl_ordered h fun m x h => Mach.portWrite_ordered h
  have placed {m : Mach} (h : m.Ordered) {v : List Hold} : (m.setCore c (k.placed (l.groupOf g) v)).Ordered :=
    setCore_ordered h (Core.placed_rising hk)
  simp only [placeGroup]
  split
  · simp [h]
  · exact h
  split
  · exact ported (placed (Mach.setGroup_ordered_iff.2 lent))
  · exact Mach.portWrite_ordered (ported (placed (Mach.setGroup_ordered_iff.2 lent)))

@[simp] theorem groupPlacement_ordered (h : m.Ordered) {t c} : (groupPlacement t c m).Ordered := by
  simp only [groupPlacement]
  split
  · exact h
  split
  · split
    next hk _ =>
      split
      · exact placeGroup_ordered h (Core.withKernel_rising (h.core c) hk)
      · exact h
    · exact h
  · exact h

@[simp] theorem Core.freeGranules_rising {k : Core} (h : k.Rising) {g} : (k.freeGranules g).Rising := by
  simp [Core.freeGranules, h, SMap.mapVals_wf]

@[simp] theorem Core.vacate_rising {k : Core} (h : k.Rising) {g} : (k.vacate g).Rising :=
  Core.freeGranules_rising h

@[simp] theorem Mach.leaveLease_ordered (h : m.Ordered) {c} : (m.leaveLease c).Ordered := by
  simp only [Mach.leaveLease]
  split <;> simp [h]

@[simp] theorem Mach.forgetGroup_ordered (h : m.Ordered) {g ctx} : (m.forgetGroup g ctx).Ordered := by
  simp [Mach.forgetGroup, h]

@[simp] theorem Mach.onSlots_ordered (h : m.Ordered) {ctx f} : (m.onSlots ctx f).Ordered := by
  simp only [Mach.onSlots]
  split <;> simp [h, SMap.set_wf]

@[simp] theorem drainingEnd_ordered (h : m.Ordered) {c} : (drainingEnd c m).Ordered := by
  simp only [drainingEnd]
  split
  · exact h
  split
  · have left : (m.leaveLease c).Ordered := Mach.leaveLease_ordered h
    refine Mach.settleStreams_ordered (Mach.forgetGroup_ordered (onCore_ordered ?_ fun k hk => ?_))
    · split
      · exact Mach.onSlots_ordered left
      · exact left
    · exact Core.vacate_rising hk
  · exact h

/-! ### Requests and the walk of their graphs -/

@[simp] theorem Mach.setLevel_ordered_iff {p l} : (m.setLevel p l).Ordered ↔ m.Ordered := by simp [Mach.setLevel]

@[simp] theorem Mach.enqueue_ordered_iff {w} : (m.enqueue w).Ordered ↔ m.Ordered := by simp [Mach.enqueue]

@[simp] theorem submissionRecord_ordered (h : m.Ordered) {func off data} :
    (submissionRecord func off data m).Ordered := by
  simp only [submissionRecord]
  split <;> simp [h]

@[simp] theorem requestAging_ordered_iff {p i} : (requestAging p i m).Ordered ↔ m.Ordered := by
  simp only [requestAging]
  repeat' split
  all_goals simp

@[simp] theorem Mach.resumeOn_ordered (h : m.Ordered) {pool smax n} : (m.resumeOn pool smax n).Ordered := by
  induction n generalizing m with
  | zero => exact h
  | succ n ih =>
    simp only [Mach.resumeOn]
    split
    · exact h
    split
    · exact h
    · refine ih (Mach.onPool_ordered (Mach.onRequest_ordered h fun _ => ?_) fun _ hp => ?_)
      · rfl
      · exact hp

@[simp] theorem Mach.leaveColumn_ordered (h : m.Ordered) {t r} : (Mach.leaveColumn t m r).Ordered := by
  simp only [Mach.leaveColumn]
  repeat' split
  all_goals simp [h]

@[simp] theorem Mach.closeAll_ordered (h : m.Ordered) {t r l} : (Mach.closeAll t m r l).1.Ordered := by
  induction l generalizing m with
  | nil => exact h
  | cons i l ih =>
    simp only [Mach.closeAll]
    split
    · exact ih h
    split
    · exact h
    next hc => exact ih (Mach.onRequest_ordered (Mach.closeChannel_ordered h hc) (fun _ => rfl))

@[simp] theorem endRequest_ordered (h : m.Ordered) {t r status} : (endRequest t r status m).Ordered := by
  simp only [endRequest]
  split
  · exact h
  split
  · exact h
  have closed : (Mach.closeAll t m r [0, 1, 2, 3]).1.Ordered := Mach.closeAll_ordered h
  split
  · exact Mach.onRequest_ordered closed (fun _ => rfl)
  generalize (Mach.closeAll t m r [0, 1, 2, 3]).1 = m at closed
  refine Mach.dropEnded_ordered (Mach.settleStreams_ordered (Mach.onRequest_ordered (Mach.leaveColumn_ordered ?_) fun _ => rfl))
  split <;> simp [closed]

@[simp] theorem Mach.onNode_ordered (h : m.Ordered) {r n f} : (m.onNode r n f).Ordered := by
  refine Mach.onRequest_ordered h fun x => ?_
  split <;> rfl

@[simp] theorem arriveNode_ordered (h : m.Ordered) {t r n} : (arriveNode t r n m).Ordered := by
  simp only [arriveNode]
  repeat' split
  all_goals simp [h]

@[simp] theorem finishNode_ordered (h : m.Ordered) {t r n succs} : (finishNode t r n succs m).Ordered := by
  simp only [finishNode]
  repeat' split
  all_goals simp +contextual [h, foldl_ordered]

theorem fireNode_ordered (h : m.Ordered) {t ty r n} {body : Request → NodeSt → List Word → Mach → Mach}
    (hb : ∀ x y w, (body x y w m).Ordered) : (fireNode t ty r n body m).Ordered := by
  simp only [fireNode]
  repeat' split
  all_goals simp [h, hb]

@[simp] theorem requestAdmission_ordered (h : m.Ordered) {t} : (requestAdmission t m).Ordered := by
  simp only [requestAdmission]
  split
  · exact h
  split
  · exact h
  next p _ =>
  split
  · exact h
  next q rest _ =>
  have added {nodes : SMap NodeSt} : Mach.Ordered { (m.setLevel p rest).fresh.2 with
      requests := m.requests ++ [Request.admitted m.ids p q.words nodes] } :=
    ⟨h.cores, h.contexts, h.saved, h.pools, h.seqs, ridsBelow_append.2 ⟨h.requests.succ, ridsBelow_singleton.2 (Nat.lt_succ_self _)⟩,
      h.launches.succ⟩
  split
  · exact added
  · exact endRequest_ordered added
  · exact Mach.loseAgent_ordered_iff.2 (Mach.fresh_ordered (Mach.setLevel_ordered_iff.2 h))

/-! ### Errors, a core that fails -/

theorem errqRdBody_ordered (h : m.Ordered) {d a b e} : Chk.Sat Mach.Ordered (errqRdBody d a b e m) := by
  unfold errqRdBody
  refine (Env.src2_ordered h).bind fun ⟨w, i, m⟩ h => (Env.dst_ordered h).bind fun ⟨l, m⟩ h => .skip fun _ => ?_
  simp [h]

theorem errqClrBody_ordered (h : m.Ordered) {d a b e} : Chk.Sat Mach.Ordered (errqClrBody d a b e m) := by
  unfold errqClrBody
  refine (Env.src2_ordered h).bind fun ⟨w, v, m⟩ h => (Env.dst_ordered h).bind fun ⟨l, m⟩ h => .skip fun _ => ?_
  dsimp only
  split
  · simp [h]
  · exact Chk.sat_ok.2 (Env.startValues_ordered (.ite (Mach.ordered_parts_iff.2 h) h))

theorem errqSumBody_ordered (h : m.Ordered) {zero d a e} : Chk.Sat Mach.Ordered (errqSumBody zero d a e m) := by
  unfold errqSumBody
  refine (Env.src_ordered h).bind fun ⟨w, m⟩ h => (Env.dst_ordered h).bind fun ⟨l, m⟩ h => .skip fun _ => ?_
  simp [h]

@[simp] theorem correctedError_ordered (h : m.Ordered) {t die bank i} :
    (correctedError t die bank i m).Ordered := by
  simp [correctedError, h]

@[simp] theorem Core.poisonAt_rising {k : Core} (h : k.Rising) {q w} : (k.poisonAt q w).Rising := by
  simp only [Core.poisonAt]
  repeat' split
  all_goals simp [h]

@[simp] theorem Mach.poisonAt_ordered (h : m.Ordered) {t die bank i} : (Mach.poisonAt t m die bank i).Ordered := by
  simp only [Mach.poisonAt]
  repeat' split
  all_goals simp [h]

@[simp] theorem uncorrectableError_ordered (h : m.Ordered) {t die bank f} :
    (uncorrectableError t die bank f m).Ordered := by
  simp only [uncorrectableError]
  repeat' split
  all_goals simp [h]

@[simp] theorem coreFail_ordered (h : m.Ordered) {t c} : (coreFail t c m).Ordered := by
  have gone (l : List Region) : (l.foldl (fun m r => m.setKey r.rid .gone) m).Ordered :=
    foldl_ordered h fun m r h => Mach.setKey_ordered_iff.2 h
  simp only [coreFail]
  split
  · exact h
  split
  · exact setCore_ordered h Core.reset_rising
  · exact foldl_ordered (onCore_ordered (gone _) fun k hk => by simp [hk]) fun m x h => notify_ordered_iff.2 h

/-! ### The loss of a context -/

@[simp] theorem Mach.stopCopies_ordered (h : m.Ordered) {t c} : (Mach.stopCopies t m c).Ordered := by
  simp only [Mach.stopCopies]
  simp +contextual [h, foldl_ordered]

@[simp] theorem Mach.backTo_ordered_iff {g rid} : (m.backTo g rid).Ordered ↔ m.Ordered := by simp [Mach.backTo]

@[simp] theorem Mach.cutPass_ordered (h : m.Ordered) {g k} : (Mach.cutPass g m k).Ordered := by
  simp only [Mach.cutPass]
  repeat' split
  all_goals simp +contextual [h, foldl_ordered]

@[simp] theorem Mach.cutPasses_ordered (h : m.Ordered) {g ops} : (m.cutPasses g ops).Ordered := by
  simp only [Mach.cutPasses]
  simp +contextual [h, foldl_ordered]

@[simp] theorem evictCore_ordered (h : m.Ordered) {t c} : (evictCore t c m).Ordered := by
  simp only [evictCore]
  split
  · exact h
  next g _ =>
  have cut : ((Mach.stopCopies t m c).cutPasses g.gid (m.core c).ops).Ordered :=
    Mach.cutPasses_ordered (Mach.stopCopies_ordered h)
  refine onCore_ordered (.ite (Mach.onArray_ordered_iff.2 (Mach.endHolding_ordered_iff.2 cut)) cut) fun k hk => ?_
  split
  · exact Core.reset_rising
  · exact Core.vacate_rising hk

@[simp] theorem Mach.zeroParts_ordered (h : m.Ordered) {bad l} : (m.zeroParts bad l).Ordered :=
  foldl_ordered h fun _ _ h => .ite h (Mach.zeroHome_ordered_iff.2 h)

@[simp] theorem Mach.clearRegion_ordered (h : m.Ordered) {t bad r} : (Mach.clearRegion t m bad r).Ordered := by
  simp only [Mach.clearRegion]
  split <;> simp [h]

@[simp] theorem Mach.clearPools_ordered (h : m.Ordered) {ctx} : (m.clearPools ctx).Ordered := by
  refine foldl_ordered h fun m p h => ?_
  refine Mach.onPool_ordered (foldl_ordered h fun _ _ h => Mach.freeFrame_ordered h) fun _ hp => ?_
  simp [hp]

@[simp] theorem Mach.breakChannels_ordered (h : m.Ordered) {ctx} : (m.breakChannels ctx).Ordered := by
  have broken (l : List Nat) : (l.foldl (fun m n => m.breakChannel n false) m).Ordered :=
    foldl_ordered h fun m n h => Mach.breakChannel_ordered h
  simp [Mach.breakChannels, broken]

theorem teardown_ordered (h : m.Ordered) {t ctx} : (teardown t ctx m).2.Ordered := by
  unfold teardown
  extract_lets gids all evicted unlinked cut listed mine queued reqs left ended forgotten stay levels removed bad before own
    cleared pools isOwn unseen
  have hevicted : evicted.Ordered := foldl_ordered h fun m c h => evictCore_ordered h
  have hcut : cut.Ordered := foldl_ordered (Mach.breakChannels_ordered hevicted) fun m s h => Mach.cutPasses_ordered h
  have hlisted : listed.Ordered := Mach.ordered_mk_iff.2 (by simp [hcut])
  have hleft : left.Ordered := foldl_ordered hlisted fun m r h => Mach.leaveColumn_ordered h
  have hended : ended.Ordered := foldl_ordered hleft fun m g h => Mach.setGroup_ordered_iff.2 h
  have hforgotten : forgotten.Ordered := foldl_ordered hended fun m g h => Mach.forgetGroup_ordered h
  have hremoved : removed.Ordered := Mach.ordered_mk_iff.2 (by simp [hforgotten])
  have hcleared : cleared.Ordered := foldl_ordered hremoved fun m r h => Mach.clearRegion_ordered h
  have hpools : pools.Ordered := Mach.clearPools_ordered hcleared
  have hcores : CoresRising unseen.cores := by
    change CoresRising (SMap.mapVals (fun _ (k : Core) => { k with view := k.view.filter fun h => !isOwn h.rid }) pools.cores)
    refine hpools.cores.mapVals fun _ _ hk => ?_
    exact hk
  have hunseen : unseen.Ordered :=
    ⟨hcores, hpools.contexts, hpools.saved, hpools.pools, hpools.seqs.filter _, hpools.requests,
      hpools.launches⟩
  exact ⟨hunseen.cores, SMap.erase_wf hunseen.contexts _, hunseen.saved, hunseen.pools, hunseen.seqs, hunseen.requests,
    hunseen.launches⟩

theorem contextLoss_ordered {s : State} (h : s.mach.Ordered) : (contextLoss s).mach.Ordered := by
  simp only [contextLoss]
  split
  · exact h
  next n rest _ =>
  have heard : Mach.Ordered { s.mach with notices := rest } := h
  split
  · exact heard
  · have torn : (teardown s.trust n.ctx { s.mach with notices := rest }).2.Ordered := teardown_ordered heard
    exact Mach.ordered_parts_iff.2 torn

/-! ### Set-up and kernel nodes -/

@[simp] theorem snaggingAudit_ordered_iff {t die kind link diff} :
    (snaggingAudit t die kind link diff m).Ordered ↔ m.Ordered := by
  simp only [snaggingAudit]
  repeat' split
  all_goals simp

@[simp] theorem hostReadAbort_ordered (h : m.Ordered) {t c o} : (hostReadAbort t c o m).Ordered := by
  simp only [hostReadAbort]
  repeat' split
  all_goals simp [h]

@[simp] theorem Mach.addRegion_ordered (h : m.Ordered) {ctx sp base size home key ring} :
    (m.addRegion ctx sp base size home key ring).2.Ordered := by simp [Mach.addRegion, h]

/-- The machine that a set-up step leaves is ordered, however it ends (R356). -/
def Did.Ordered : Did → Prop
  | .bad => True
  | .wait m => m.Ordered
  | .lost m => m.Ordered
  | .done m => m.Ordered

@[simp] theorem Did.ordered_bad : Did.bad.Ordered := trivial

@[simp] theorem Did.ordered_wait {m : Mach} : (Did.wait m).Ordered ↔ m.Ordered := Iff.rfl

@[simp] theorem Did.ordered_lost {m : Mach} : (Did.lost m).Ordered ↔ m.Ordered := Iff.rfl

@[simp] theorem Did.ordered_done {m : Mach} : (Did.done m).Ordered ↔ m.Ordered := Iff.rfl

theorem takeEntry_ordered (h : m.Ordered) {t r n ctx waited w} : (takeEntry t r n ctx waited w m).Ordered := by
  simp only [takeEntry]
  repeat' split
  all_goals simp [h]

theorem dataEntry_ordered (h : m.Ordered) {t r n ctx desc es w} : (dataEntry t r n ctx desc es w m).Ordered := by
  simp only [dataEntry]
  repeat' split
  all_goals simp [h]

theorem giveEntry_ordered (h : m.Ordered) {t r n num ctx w} : (giveEntry t r n num ctx w m).Ordered := by
  simp only [giveEntry]
  repeat' split
  all_goals simp [h]

theorem setupStep_ordered (h : m.Ordered) {t r n num ctx desc g es waited i} :
    (setupStep t r n num ctx desc g es waited i m).Ordered := by
  simp only [setupStep]
  repeat' split
  all_goals simp [h, takeEntry_ordered, dataEntry_ordered, giveEntry_ordered]

@[simp] theorem setupSteps_ordered (h : m.Ordered) {t r n num ctx desc g es waited k i} :
    (setupSteps t r n num ctx desc g es waited k i m).Ordered := by
  induction k generalizing m waited i with
  | zero => simp [setupSteps, h]
  | succ k ih =>
    simp only [setupSteps]
    have hs : (setupStep t r n num ctx desc g es waited i m).Ordered := setupStep_ordered h
    split
    · simp [h]
    next hd => exact Mach.onNode_ordered (by simpa [hd] using hs)
    next hd => simpa [hd] using hs
    next hd => exact ih (by simpa [hd] using hs)

@[simp] theorem runSetup_ordered (h : m.Ordered) {t r n num l waited i} :
    (runSetup t r n num l waited i m).Ordered := by
  simp only [runSetup]
  split <;> simp [h]

@[simp] theorem kernBody_ordered (h : m.Ordered) {t r n x y w} : (kernBody t r n x y w m).Ordered := by
  have given : m.fresh.2.Ordered := Mach.fresh_ordered h
  have new : m.fresh.1 < m.fresh.2.ids := Nat.lt_succ_self _
  simp only [kernBody]
  repeat' split
  all_goals simp [h, given, new]

@[simp] theorem kernFinish_ordered (h : m.Ordered) {t r n} : (kernFinish t r n m).Ordered := by
  have dropped (l : Launch) : (Mach.settleStreams { m with launches := m.launches.filter fun x => decide (x.num ≠ l.num) }).Ordered :=
    Mach.settleStreams_ordered (Mach.ordered_mk_iff.2 ⟨h.cores, h.contexts, h.saved, h.pools, h.seqs, h.requests, h.launches.filter _⟩)
  simp only [kernFinish]
  split
  · exact h
  next l _ =>
  split
  · have hd := dropped l
    split
    · exact Mach.dropEnded_ordered hd
    split
    · exact endRequest_ordered hd
    · exact Mach.loseAgent_ordered_iff.2 hd
    · exact .ite (finishNode_ordered hd) (endRequest_ordered hd)
  · exact h

end
end Sys2Proof.Machine
end

