-- ==== Sys2Proof/Proofs/OrderedFabric.lean ====
section
/-! SUPPORT for the statement that every step keeps the tables ordered: graph nodes, collectives, other packages and events. -/

namespace Sys2Proof.Machine

section
variable {m : Mach}

/-! ### Nodes of a graph, and launches -/

@[simp] theorem Mach.addRef_ordered (h : m.Ordered) {r n s} : (m.addRef r n s).Ordered :=
  Mach.onRequest_ordered h fun _ => rfl

@[simp] theorem xferBody_ordered (h : m.Ordered) {t r n x y w} : (xferBody t r n x y w m).Ordered := by
  have given : m.fresh.2.Ordered := Mach.fresh_ordered h
  have bad : (endRequest t r rqNodebad m).Ordered := endRequest_ordered h
  simp only [xferBody]
  split
  · exact bad
  split
  · exact bad
  split
  · exact finishNode_ordered (Mach.leaveWaiting_ordered (Mach.addRef_ordered h))
  split
  · exact Mach.onNode_ordered h
  split
  · exact Mach.touchSlice_ordered_iff.2 h
  split
  · exact bad
  · exact Mach.loseAgent_ordered_iff.2 h
  · refine finishNode_ordered (Mach.leaveWaiting_ordered (Mach.addRef_ordered (Mach.ordered_parts_iff.2 ?_)))
    exact Mach.setKey_ordered_iff.2 (Mach.writeHome_ordered_iff.2 (Mach.touchSlice_ordered_iff.2 given))

/-- The machine that reading a condition leaves is ordered, however it ends (R342). -/
def Cond.Ordered : Cond → Prop
  | .value _ m => m.Ordered
  | .bad => True
  | .wait m => m.Ordered
  | .lost m => m.Ordered

theorem readCond_ordered (h : m.Ordered) {t ctx w} : (readCond t m ctx w).Ordered := by
  simp only [readCond]
  repeat' split
  all_goals simp [Cond.Ordered, h]

@[simp] theorem condBody_ordered (h : m.Ordered) {t pick r n x y w} : (condBody t pick r n x y w m).Ordered := by
  have hc : (readCond t m (rCtx x.words) w).Ordered := readCond_ordered h
  simp only [condBody]
  split
  · simp [h]
  next he => simpa [he, Cond.Ordered] using hc
  next he => simpa [he, Cond.Ordered] using hc
  next he => exact finishNode_ordered (by simpa [he, Cond.Ordered] using hc)

@[simp] theorem waitBody_ordered (h : m.Ordered) {t r n x y w} : (waitBody t r n x y w m).Ordered := by
  simp only [waitBody]
  repeat' split
  all_goals simp [h]

@[simp] theorem Mach.relayRing_ordered (h : m.Ordered) {e num toFf d} :
    (m.relayRing e num toFf d).2.Ordered := by
  simp only [Mach.relayRing]
  repeat' split
  all_goals simp [h]

@[simp] theorem Mach.openChannel_ordered (h : m.Ordered) {t num ea ef att ff} :
    (Mach.openChannel t m num ea ef att ff).Ordered := by
  simp [Mach.openChannel, h]

@[simp] theorem relayBody_ordered (h : m.Ordered) {t r n x y w} : (relayBody t r n x y w m).Ordered := by
  simp only [relayBody]
  split
  · simp [h]
  split
  · split
    · simp [h]
    split
    · simp [h]
    next hc =>
      refine finishNode_ordered (Mach.onRequest_ordered (Mach.closeChannel_ordered h hc) fun x => ?_)
      rfl
  · split
    · repeat' split
      all_goals simp [h]
    · simp [h]

@[simp] theorem doneBody_ordered (h : m.Ordered) {t r x y w} : (doneBody t r x y w m).Ordered := by
  simp [doneBody, h]

@[simp] theorem doneFire_ordered (h : m.Ordered) {t r n} : (doneFire t r n m).Ordered := by
  unfold doneFire
  split
  · simp [h]
  · exact fireNode_ordered h fun x y w => by simp [h]

theorem lnchNodeBody_ordered (h : m.Ordered) {d a e} : Chk.Sat Mach.Ordered (lnchNodeBody d a e m) := by
  unfold lnchNodeBody
  refine (Env.src_ordered h).bind fun ⟨w, m⟩ h => (Env.dst_ordered h).bind fun ⟨l, m⟩ h => ?_
  simp [h]

theorem lnchReqBody_ordered (h : m.Ordered) {d a e} : Chk.Sat Mach.Ordered (lnchReqBody d a e m) := by
  unfold lnchReqBody
  refine (Env.src_ordered h).bind fun ⟨v, m⟩ h => (Env.dst_ordered h).bind fun ⟨l, m⟩ h =>
    (Env.record_ordered h).bind fun ⟨w, m⟩ h => ?_
  simp [h]

@[simp] theorem serveLnch_ordered (h : m.Ordered) {t c op} : (serveLnch t c op m).Ordered := by
  simp only [serveLnch]
  repeat' split
  all_goals simp [h]

/-! ### Collectives -/

theorem clgtSetBody_ordered (h : m.Ordered) {d a b e} : Chk.Sat Mach.Ordered (clgtSetBody d a b e m) := by
  unfold clgtSetBody
  refine (Env.src2_ordered h).bind fun ⟨w, v, m⟩ h => (Env.dst_ordered h).bind fun ⟨l, m⟩ h => .skip fun g =>
    (Env.record_ordered h).bind fun ⟨hd, m⟩ h => .skip fun _ => (Env.record_ordered h).bind fun ⟨ls, m⟩ h => ?_
  dsimp only
  repeat' split
  all_goals simp [h]

theorem clgtClrBody_ordered (h : m.Ordered) {d a e} : Chk.Sat Mach.Ordered (clgtClrBody d a e m) := by
  unfold clgtClrBody
  refine (Env.src_ordered h).bind fun ⟨w, m⟩ h => (Env.dst_ordered h).bind fun ⟨l, m⟩ h => .skip fun _ => ?_
  simp [h]

@[simp] theorem serveClgtClr_ordered (h : m.Ordered) {c op g} : (serveClgtClr c op g m).Ordered := by
  simp only [serveClgtClr]
  repeat' split
  all_goals simp [h]

theorem clgtQryBody_ordered (h : m.Ordered) {d a b e} : Chk.Sat Mach.Ordered (clgtQryBody d a b e m) := by
  unfold clgtQryBody
  refine (Env.src2_ordered h).bind fun ⟨w, i, m⟩ h => (Env.dst_ordered h).bind fun ⟨l, m⟩ h => .skip fun _ => ?_
  simp [h]

theorem clrdBody_ordered (h : m.Ordered) {d a b e} : Chk.Sat Mach.Ordered (clrdBody d a b e m) := by
  unfold clrdBody
  refine (Env.src2_ordered h).bind fun ⟨w, v, m⟩ h => (Env.dst_ordered h).bind fun ⟨l, m⟩ h => .skip fun g =>
    .skip fun _ => ?_
  dsimp only
  split
  · simp [h]
  refine .skip fun _ => .skip fun _ => ?_
  split
  · exact .stop
  · exact .stop
  refine .skip fun _ => ?_
  split
  · simp [h]
  · exact .skip fun _ => by simp [h]

@[simp] theorem clrdDiffers_ordered_iff {t g ch from_} : (clrdDiffers t g ch from_ m).Ordered ↔ m.Ordered := by
  simp only [clrdDiffers]
  split <;> simp

@[simp] theorem clrdSend_ordered (h : m.Ordered) {t c op g ch src x} : (clrdSend t c op g ch src x m).Ordered := by
  simp only [clrdSend]
  split
  · exact h
  split
  next he => exact (engineRead_ordered h).of_wait he
  next he => exact (engineRead_ordered h).of_lost he
  next he =>
  have hm := (engineRead_ordered h).of_ok he
  split <;> simp [hm]

@[simp] theorem Mach.takeWrote_ordered_iff {g ch live} : (m.takeWrote g ch live).Ordered ↔ m.Ordered := by
  simp [Mach.takeWrote]

@[simp] theorem clrdConfirm_ordered_iff {t g ch} : (clrdConfirm t g ch m).Ordered ↔ m.Ordered := by
  simp only [clrdConfirm]
  repeat' split
  all_goals simp

@[simp] theorem serveClrd_ordered (h : m.Ordered) {t c op g ch src} : (serveClrd t c op g ch src m).Ordered := by
  simp only [serveClrd]
  split
  · simp [h]
  split
  · simp [h]
  split
  · exact h
  split
  · simp [h]
  split
  · simp [h]
  split
  · split
    · exact h
    split
    next he => exact (engineWrite_ordered h).of_wait he
    next he => exact (engineWrite_ordered h).of_lost he
    next he =>
    have hm := (engineWrite_ordered h).of_ok he
    exact Mach.onCollective_ordered_iff.2 (by split <;> simp [hm])
  · simp [h]

@[simp] theorem childPartial_ordered_iff {t g ch p w} : (childPartial t g ch p w m).Ordered ↔ m.Ordered := by
  simp only [childPartial]
  repeat' split
  all_goals simp

@[simp] theorem rootConfirmation_ordered_iff {t g ch w} : (rootConfirmation t g ch w m).Ordered ↔ m.Ordered := by
  simp only [rootConfirmation]
  split <;> simp

/-! ### Accesses of other packages -/

@[simp] theorem Mach.tell_ordered_iff {p r} : (m.tell p r).Ordered ↔ m.Ordered := by simp [Mach.tell]

@[simp] theorem Mach.losePeer_ordered_iff {dev ctx a} : (m.losePeer dev ctx a).Ordered ↔ m.Ordered := by
  simp [Mach.losePeer]

@[simp] theorem Mach.failPeer_ordered_iff {p who f} : (m.failPeer p who f).Ordered ↔ m.Ordered := by
  simp only [Mach.failPeer]
  split <;> simp

theorem peerRun_ordered (h : m.Ordered) {t p who dev store a n} {f : List (Nat × Nat × Nat) → Mach}
    (hf : ∀ ps, (f ps).Ordered) : (peerRun t m p who dev store a n f).Ordered := by
  simp only [peerRun]
  repeat' split
  all_goals simp [h, hf]

@[simp] theorem peerAdmit_ordered_iff {t p who op w32 dev va} :
    (peerAdmit t p who op w32 dev va m).Ordered ↔ m.Ordered := by
  simp only [peerAdmit]
  split <;> simp

@[simp] theorem peerAcc_ordered (h : m.Ordered) {p who a} : (peerAcc p who a m).Ordered := by
  simp only [peerAcc]
  repeat' split
  all_goals simp [h]

@[simp] theorem Mach.passShare_ordered_iff {r h' h''} : (m.passShare r h' h'').Ordered ↔ m.Ordered := by
  simp [Mach.passShare]

/-- A channel closed if none of its sends is on its way. -/
@[simp] theorem Mach.closeChannel_getD_ordered (h : m.Ordered) {t num} : ((Mach.closeChannel t m num).getD m).Ordered := by
  cases hc : Mach.closeChannel t m num with
  | none => exact h
  | some m' => exact Mach.closeChannel_ordered h hc

@[simp] theorem peerBind_ordered (h : m.Ordered) {t b} : (peerBind t m b).Ordered := by
  simp only [peerBind]
  repeat' split
  all_goals simp [h]

@[simp] theorem peerAccess_ordered (h : m.Ordered) {t p req} : (peerAccess t p req m).Ordered := by
  simp only [peerAccess]
  split
  · exact h
  cases req with
  | read who dev a n =>
    refine peerRun_ordered h fun ps => ?_
    split <;> simp [h]
  | write who dev a data =>
    refine peerRun_ordered h fun ps => ?_
    split <;> simp [h]
  | payload num slot data =>
    dsimp only
    repeat' split
    all_goals simp [h]
  | _ =>
    dsimp only
    repeat' split
    all_goals simp [h]

@[simp] theorem Mach.removeMember_ordered_iff {p f} : (m.removeMember p f).Ordered ↔ m.Ordered := by
  simp [Mach.removeMember]

@[simp] theorem Mach.dropAdmitted_ordered_iff {f} : (m.dropAdmitted f).Ordered ↔ m.Ordered := by simp [Mach.dropAdmitted]

@[simp] theorem Mach.cutCopies_ordered (h : m.Ordered) {p} : (m.cutCopies p).Ordered := by
  refine foldl_ordered h fun m c h => foldl_ordered h fun m op h => ?_
  split
  · simp [h]
  · exact h

/-- A saved image whose copies toward a package are cut keeps its tables (R413). -/
theorem Saved.cutCopies_rising {s : Saved} (h : s.image.Rising) {p} : (s.cutCopies p).image.Rising := by
  refine foldl_rising h fun k op h => ?_
  split
  · exact Core.finish_rising (Core.objDone_rising_iff.2 h)
  · exact h

@[simp] theorem Mach.cutSaved_ordered (h : m.Ordered) {p} : (m.cutSaved p).Ordered := by
  refine foldl_ordered h fun m s h => ?_
  have counted (l : List Op) : (l.foldl (fun m _ => m.portError (dieOf s.core) s.ctx p) m).Ordered :=
    foldl_ordered h fun m _ h => Mach.portError_ordered_iff.2 h
  have cut {m : Mach} (h : m.Ordered) : Mach.Ordered { m with
      saved := m.saved.map fun x => if x.group.gid = s.group.gid then x.cutCopies p else x } :=
    Mach.ordered_mk_iff.2 ⟨h.cores, h.contexts, h.saved.map fun x hx => by split <;> simp [hx, Saved.cutCopies_rising],
      h.pools, h.seqs, h.requests, h.launches⟩
  exact .ite (counted _) (Mach.writeObjs_ordered (cut (counted _)))

@[simp] theorem Mach.returnFrom_ordered (h : m.Ordered) {p} : (m.returnFrom p).Ordered :=
  foldl_ordered h fun _ _ h => foldl_ordered h fun _ _ h => Mach.returnShareOf_ordered h

@[simp] theorem unreachableVerdict_ordered (h : m.Ordered) {t p} : (unreachableVerdict t p m).Ordered := by
  have broken {m : Mach} (h : m.Ordered) (l : List Nat) : (l.foldl (fun m n => m.breakChannel n true) m).Ordered :=
    foldl_ordered h fun m n h => Mach.breakChannel_ordered h
  have cut {m : Mach} (h : m.Ordered) : (((m.cutCopies p).returnFrom p).cutSaved p).Ordered :=
    Mach.cutSaved_ordered (Mach.returnFrom_ordered (Mach.cutCopies_ordered h))
  simp only [unreachableVerdict]
  split
  · exact h
  · exact Mach.dropAdmitted_ordered_iff.2 (Mach.removeMember_ordered_iff.2 (broken
      (cut (Mach.ordered_parts_iff.2 h)) _))

@[simp] theorem peerContextLost_ordered (h : m.Ordered) {p ctx} : (peerContextLost p ctx m).Ordered := by
  have broken {m : Mach} (h : m.Ordered) (l : List Nat) : (l.foldl (fun m n => m.breakChannel n false) m).Ordered :=
    foldl_ordered h fun m n h => Mach.breakChannel_ordered h
  simp [peerContextLost, h, broken]

/-! ### Events of a core's time -/

theorem Mach.onListed_ordered (h : m.Ordered) {c} {f : Core → Core} (hf : ∀ k : Core, k.Rising → (f k).Rising) :
    (m.onListed c f).Ordered := .ite (onCore_ordered h hf) h

@[simp] theorem clhHoldEnd_ordered (h : m.Ordered) {c q} : (clhHoldEnd c q m).Ordered :=
  Mach.onListed_ordered h fun k hk => by split <;> simp [hk]

@[simp] theorem sleepWake_ordered (h : m.Ordered) {c q} : (sleepWake c q m).Ordered :=
  Mach.onListed_ordered h fun k hk => by split <;> simp [hk]

@[simp] theorem timedResultLands_ordered (h : m.Ordered) {c q} : (timedResultLands c q m).Ordered :=
  Mach.onListed_ordered h fun k hk => by split <;> simp [hk]

@[simp] theorem replayFreezeEnd_ordered (h : m.Ordered) {c} : (replayFreezeEnd c m).Ordered :=
  Mach.onListed_ordered h fun k hk => by split <;> simp [hk]

@[simp] theorem evictionFreezeEnd_ordered (h : m.Ordered) {c} : (evictionFreezeEnd c m).Ordered :=
  Mach.onListed_ordered h fun k hk => by split <;> exact hk

@[simp] theorem Mach.loadEnds_ordered (h : m.Ordered) {t c op ea} : (Mach.loadEnds t m c op ea).Ordered := by
  simp only [Mach.loadEnds]
  split <;> simp [h]

@[simp] theorem serve_ordered (h : m.Ordered) {t c op} : (serve t c op m).Ordered := by
  simp only [serve]
  repeat' split
  all_goals simp [h]

@[simp] theorem serveIf_ordered (h : m.Ordered) {queue t c o} : (serveIf queue t c o m).Ordered := by
  simp only [serveIf]
  split <;> simp [h]

@[simp] theorem reencode_ordered (h : m.Ordered) {die tile most width errs} :
    (reencode die tile most width errs m).Ordered :=
  foldl_ordered (foldl_ordered h fun _ _ h => bankError_ordered_iff.2 h) fun _ _ h => bankError_ordered_iff.2 h

@[simp] theorem retentionEntry_ordered (h : m.Ordered) {t die tile errs} :
    (retentionEntry t die tile errs m).Ordered := by
  simp only [retentionEntry]
  split <;> simp [h]

@[simp] theorem retentionExit_ordered (h : m.Ordered) {t die tile errs} :
    (retentionExit t die tile errs m).Ordered := by
  simp only [retentionExit]
  split <;> simp [h]

/-! ### Conversions and random numbers -/

@[simp] theorem Env.draws_ordered (h : m.Ordered) {e : Env} {drawing} : (e.draws drawing m).2.Ordered := by
  simp only [Env.draws]
  repeat' split
  all_goals simp [h]

theorem cvtBody_ordered (h : m.Ordered) {d sat mode g a e} : Chk.Sat Mach.Ordered (cvtBody d sat mode g a e m) := by
  unfold cvtBody
  refine .skip fun v => (Env.heads_ordered h).bind fun ⟨vs, popped⟩ hp => .skip fun _ => .skip fun _ => ?_
  have drawn {b : Bool} : (e.draws b (if (srcQueue a).2 then m else popped)).2.Ordered := Env.draws_ordered (.ite h hp)
  dsimp only
  split
  · exact Env.vres_ordered drawn
  · exact Env.vres_ordered drawn
  · simp

theorem mxqBody_ordered (h : m.Ordered) {d mode g a e} : Chk.Sat Mach.Ordered (mxqBody d mode g a e m) := by
  unfold mxqBody
  refine .skip fun v => (Env.heads_ordered h).bind fun ⟨vs, m⟩ h => .skip fun _ => .skip fun _ => .skip fun _ => ?_
  dsimp only
  split
  · simp
  refine (Env.dstV_ordered (Env.draws_ordered h)).bind fun ⟨l₁, m⟩ h => (Env.dstV_ordered h).bind fun ⟨l₂, m⟩ h => ?_
  simp [h]

theorem mxxBody_ordered (h : m.Ordered) {d g a b e} : Chk.Sat Mach.Ordered (mxxBody d g a b e m) := by
  unfold mxxBody
  refine (Env.srcV2_ordered h).bind fun ⟨l, m⟩ h => .skip fun _ => .skip fun _ => .skip fun _ => ?_
  exact Env.vres_ordered h

theorem fscBody_ordered (h : m.Ordered) {d mode a b e} : Chk.Sat Mach.Ordered (fscBody d mode a b e m) := by
  unfold fscBody
  refine (Env.srcV2_ordered h).bind fun ⟨l, m⟩ h => .skip fun _ => ?_
  dsimp only
  split <;> exact .skip fun _ => .skip fun _ => Env.vres_ordered (Env.draws_ordered h)

theorem fxpBody_ordered (h : m.Ordered) {d a e} : Chk.Sat Mach.Ordered (fxpBody d a e m) := by
  unfold fxpBody
  refine (Env.srcV_ordered h).bind fun ⟨x, m⟩ h => .skip fun _ => ?_
  exact Env.vres_ordered h

theorem fclsBody_ordered (h : m.Ordered) {d a e} : Chk.Sat Mach.Ordered (fclsBody d a e m) := by
  unfold fclsBody
  refine (Env.srcV_ordered h).bind fun ⟨x, m⟩ h => .skip fun _ => ?_
  exact Env.vres_ordered h

theorem srsdSetBody_ordered (h : m.Ordered) {a b e} : Chk.Sat Mach.Ordered (srsdSetBody a b e m) := by
  unfold srsdSetBody
  refine (Env.src2_ordered h).bind fun ⟨x, y, m⟩ h => ?_
  simp [h]

theorem srsdStepBody_ordered (h : m.Ordered) {d e} : Chk.Sat Mach.Ordered (srsdStepBody d e m) := by
  unfold srsdStepBody
  refine (Env.dst_ordered h).bind fun ⟨l, m⟩ h => ?_
  simp [h]

theorem rndmBody_ordered (h : m.Ordered) {d f e} : Chk.Sat Mach.Ordered (rndmBody d f e m) := by
  have hd : (e.draws true m).2.Ordered := Env.draws_ordered h
  simpa only [rndmBody] using Env.vres_ordered hd

theorem vidxBody_ordered (h : m.Ordered) {d g a b e} : Chk.Sat Mach.Ordered (vidxBody d g a b e m) := by
  unfold vidxBody
  refine (Env.src2_ordered h).bind fun ⟨x, y, m⟩ h => ?_
  exact Env.vres_ordered h

end
end Sys2Proof.Machine
end

