-- ==== Sys2Proof/Proofs/OrderedHost.lean ====
section
/-! SUPPORT for the statement that every step keeps the tables ordered: the hand node, save and restore. -/

namespace Sys2Proof.Machine

section
variable {m : Mach}

/-! ### The hand node -/

@[simp] theorem Mach.occupy_ordered (h : m.Ordered) {r p victim} : (m.occupy r p victim).Ordered := by simp [Mach.occupy, h]

@[simp] theorem Mach.setHand_ordered_iff {r h'} : (m.setHand r h').Ordered ↔ m.Ordered := by simp [Mach.setHand]

@[simp] theorem chooseStep_ordered (h : m.Ordered) {t r n x excl counted ns} :
    (chooseStep t r n x excl counted ns m).Ordered := by
  simp only [chooseStep]
  repeat' split
  all_goals simp [h]

theorem handTake_ordered (h : m.Ordered) {r tkt ctx rid m'} (hm : handTake r tkt ctx rid m = some m') : m'.Ordered := by
  simp only [handTake] at hm
  repeat' split at hm
  all_goals cases hm
  · exact h
  · exact Mach.setKey_ordered_iff.2 h

@[simp] theorem Mach.repark_ordered_iff {r tkt ctx} : (m.repark r tkt ctx).Ordered ↔ m.Ordered := by simp [Mach.repark]

@[simp] theorem handFail_ordered (h : m.Ordered) {t r w ctx close} : (handFail t r w ctx close m).Ordered :=
  endRequest_ordered (Mach.setHand_ordered_iff.2 (Mach.repark_ordered_iff.2 (.ite (by simp [h]) h)))

theorem makeWaybill_eq_ordered (h : m.Ordered) {ctx ds krid vrid hrid issuer hand code num} {m' : Mach}
    (hm : makeWaybill m ctx ds krid vrid hrid issuer hand = (code, num, m')) : m'.Ordered := by
  have h' : (makeWaybill m ctx ds krid vrid hrid issuer hand).2.2.Ordered := makeWaybill_ordered h
  rwa [hm] at h'

@[simp] theorem handOff_ordered (h : m.Ordered) {t r n x w pool excl counted} :
    (handOff t r n x w pool excl counted m).Ordered := by
  simp only [handOff]
  split
  · simp [h]
  · simp [h]
  split
  · split
    · simp [h]
    split
    · exact h
    next hk =>
    split
    · exact handTake_ordered h hk
    next hv =>
    have htaken := handTake_ordered (handTake_ordered h hk) hv
    have hm {key ctx a shape} : (openHandle t _ key ctx a shape).2.1.Ordered := openHandle_ordered htaken
    split
    · exact handFail_ordered hm
    split
    · exact Mach.loseAgent_ordered_iff.2 hm
    · exact handFail_ordered hm
    split
    next he => exact Mach.setHand_ordered_iff.2 (makeWaybill_eq_ordered hm he)
    next he =>
      have hm' := makeWaybill_eq_ordered hm he
      split
      · simp [hm']
      · exact handFail_ordered hm'
  · simp [h]

/-- What a handoff that has moved leaves: its waybill is gone (R328). -/
def Mach.withoutWaybill (m : Mach) (num : Nat) : Mach := { m with waybills := m.waybills.filter fun y => decide (y.num ≠ num) }

theorem Mach.withoutWaybill_ordered (h : m.Ordered) {num} : (m.withoutWaybill num).Ordered := Mach.ordered_parts_iff.2 h

@[simp] theorem handMove_ordered (h : m.Ordered) {t r n x w pool num} :
    (handMove t r n x w pool num m).Ordered := by
  have undone : (handFail t r w (rCtx x.words) true (m.withoutWaybill num)).dropEnded.Ordered :=
    Mach.dropEnded_ordered (handFail_ordered (Mach.withoutWaybill_ordered h))
  have placed {m : Mach} (h : m.Ordered) : (finishNode t r n (nSuccs w)
      (((m.withoutWaybill num).setHand r none).onRequest r fun y =>
        { y with place := some ⟨pool / 36, pool % 36, num, haHandle w⟩ })).dropEnded.Ordered := by
    have unhanded : ((m.withoutWaybill num).setHand r none).Ordered := Mach.setHand_ordered_iff.2 (Mach.withoutWaybill_ordered h)
    refine Mach.dropEnded_ordered (finishNode_ordered (Mach.onRequest_ordered unhanded fun _ => ?_))
    rfl
  simp only [handMove]
  split
  · exact .ite undone (placed h)
  split
  · split
    · exact Mach.loseAgent_ordered_iff.2 h
    · exact placed (commitWaybill_ordered h)
  · exact placed h
  · exact undone
  · exact h

@[simp] theorem handBody_ordered (h : m.Ordered) {t r n x y w} : (handBody t r n x y w m).Ordered := by
  simp only [handBody]
  repeat' split
  all_goals simp [h]

@[simp] theorem handFire_ordered (h : m.Ordered) {t r n} : (handFire t r n m).Ordered := by
  simp only [handFire]
  split
  · exact h
  split
  · exact fireNode_ordered h fun x y w => handBody_ordered h
  repeat' split
  all_goals simp [h]

/-! ### Save and restore -/

@[simp] theorem preemptionRequest_ordered (h : m.Ordered) {c} : (preemptionRequest c m).Ordered := by
  simp only [preemptionRequest]
  repeat' split
  all_goals simp [h]

@[simp] theorem Mach.putWords_ordered (h : m.Ordered) {pa ws} : (m.putWords pa ws).Ordered := by
  simp [Mach.putWords, h]

@[simp] theorem saveVectors_ordered (h : m.Ordered) {k pa} : (saveVectors k pa m).Ordered := by
  have written {m : Mach} (h : m.Ordered) {a n : Nat} {bs : List Byte} :
      (m.writeHome true a n (Mem.ofBytes bs)).Ordered := Mach.writeHome_ordered_iff.2 h
  refine foldl_ordered (foldl_ordered h fun m q h => foldl_ordered h fun m x h => ?_) fun m i h => written h
  split
  · exact written h
  · exact h

@[simp] theorem saveColumn_ordered (h : m.Ordered) {k pa} : (saveColumn k pa m).Ordered :=
  Mach.putWords_ordered (Mach.writeHome_ordered_iff.2 (Mach.writeHome_ordered_iff.2 h))

@[simp] theorem moveEvicted_ordered (h : m.Ordered) {g pa} : (moveEvicted g pa m).Ordered := by
  refine .ite h (foldl_ordered h fun m x h => ?_)
  extract_lets src dst bad moved
  have hm : moved.Ordered := Mach.writeHome_ordered_iff.2 h
  exact hm

@[simp] theorem writeSlot_ordered (h : m.Ordered) {t c g pa} : (writeSlot t c g pa m).Ordered := by
  have spilled {m : Mach} (h : m.Ordered) {off : Nat} {b : Option (SMap (BitVec 32))} :
      (match b with | some b => m.writeHome true (pa + off) 0x200000 (bankImage b) | none => m).Ordered := by
    split
    · exact Mach.writeHome_ordered_iff.2 h
    · exact h
  unfold writeSlot
  extract_lets k moved header records vectors core spill
  have hrecords : records.Ordered :=
    foldl_ordered (Mach.putWords_ordered (moveEvicted_ordered h)) fun m q h => Mach.putWords_ordered h
  have hcore : core.Ordered := Mach.putWords_ordered (saveVectors_ordered hrecords)
  split
  next es ps _ =>
  extract_lets edges partials column spilt
  have hpartials : partials.Ordered :=
    foldl_ordered (Mach.putWords_ordered hcore) fun m x h => Mach.writeHome_ordered_iff.2 h
  have hcolumn : column.Ordered := .ite hpartials (saveColumn_ordered hpartials)
  have hspilt : spilt.Ordered := spilled (spilled hcolumn)
  exact hspilt

@[simp] theorem Core.landToStop_rising {k : Core} (h : k.Rising) : (k.landToStop).Rising := by
  refine Core.onSeqs_rising (foldl_rising h fun k q h => ?_) fun s hs => Seq.rising_parts_iff.2 hs
  refine foldl_rising (Core.onSeq_rising h fun s hs => Seq.rising_parts_iff.2 hs) fun k r h => Core.landTimed_rising h

@[simp] theorem Mach.spillLease_ordered (h : m.Ordered) {c} : (m.spillLease c).Ordered := by
  simp only [Mach.spillLease]
  split <;> simp [h]

@[simp] theorem groupSave_ordered (h : m.Ordered) {t c} : (groupSave t c m).Ordered := by
  have hs : ((m.spillLease c).onCore c Core.landToStop).Ordered :=
    onCore_ordered (Mach.spillLease_ordered h) fun k hk => Core.landToStop_rising hk
  simp only [groupSave]
  split
  · exact h
  split
  · exact h
  split
  · exact consume_ordered_iff.2 h
  split
  · exact hs
  next g hg =>
  have image : Core.Rising { ((m.spillLease c).onCore c Core.landToStop).core c with granules := [] } :=
    ⟨(hs.core c).seq, (hs.core c).vq_wf, (hs.core c).masks_wf, rfl⟩
  have left {pa slot : Nat} : Mach.Ordered (Mach.onCore
      ((writeSlot t c g pa ((m.spillLease c).onCore c Core.landToStop)).setGroup g.gid (.saved slot)) c fun k =>
      { k with group := none, ops := [], objs := [], bindings := [], view := [], clause := none, aRows := [], ended := true }) :=
    onCore_ordered (Mach.setGroup_ordered_iff.2 (writeSlot_ordered hs)) fun k hk => Core.rising_parts_iff.2 hk
  exact Mach.ordered_mk_iff.2 ⟨left.cores, left.contexts, imagesRising_append.2 ⟨left.saved, imagesRising_singleton.2 image⟩,
    left.pools, left.seqs, left.requests, left.launches⟩

@[simp] theorem Core.restored_rising {k : Core} (h : k.Rising) {s : Saved} (hs : s.image.Rising) {g view} :
    (k.restored s g view).Rising := by
  have image : (s.image.onSeqs Seq.resume).Rising := Core.onSeqs_rising hs fun s hs => by
    unfold Seq.resume
    split <;> exact hs
  exact foldl_rising ⟨image.seq, image.vq_wf, image.masks_wf, h.granules_wf⟩ fun k q h => Core.landDue_rising h

@[simp] theorem groupRestore_ordered (h : m.Ordered) {t c} : (groupRestore t c m).Ordered := by
  simp only [groupRestore]
  split
  · exact h
  split
  · split
    next s k hs hk =>
      have image : s.image.Rising := h.saved s (List.mem_of_find?_eq_some hs)
      have restored {g : Group} {v : List Hold} : ((m.setGroup s.group.gid .placed).setCore c (k.restored s g v)).Ordered :=
        setCore_ordered (Mach.setGroup_ordered_iff.2 h) (Core.restored_rising (Core.withKernel_rising (h.core c) hk) image)
      split
      · simp [h]
      · exact Mach.onSlots_ordered (Mach.ordered_mk_iff.2 ⟨restored.cores, restored.contexts, restored.saved.filter _,
          restored.pools, restored.seqs, restored.requests, restored.launches⟩)
    · exact h
  · exact h

end
end Sys2Proof.Machine
end

