-- ==== Sys2Proof/Proofs/OrderedTrust.lean ====
section
/-! SUPPORT for the statement that every step keeps the tables ordered: the events of the trust die and the host's registers. -/

namespace Sys2Proof.Machine

section
variable {s s' : State}

theorem State.Tables.ordered (h : s.Tables) : s.mach.Ordered := (State.tables_iff.1 h).1

theorem State.Tables.keys (h : s.Tables) : SMap.wf s.trust.xtsKeys = true := (State.tables_iff.1 h).2

/-- What changes only the package machine, whose tables stay ordered. -/
theorem State.Tables.withMach (h : s.Tables) {m : Mach} (hm : m.Ordered) : State.Tables { s with mach := m } :=
  State.tables_iff.2 ⟨hm, h.keys⟩

theorem State.tables_ite {p : Prop} [Decidable p] (h : s.Tables) (h' : s'.Tables) : (if p then s else s').Tables := by
  split
  · exact h
  · exact h'

theorem State.opened_tables (h : s.Tables) (h' : s'.Tables) : (s.opened s').Tables := State.tables_ite h' h

/-! ### Bring-up -/

/-- The table of pools is ordered when every pool in it is. -/
theorem poolsRising_of_forall {l : SMap Pool} (h : ∀ x ∈ l, x.2.Rising) : PoolsRising l := by
  intro p
  induction l with
  | nil => exact ⟨rfl, rfl⟩
  | cons x l ih =>
    have rest : (SMap.getD l p .reset).Rising := ih fun y hy => h y (List.mem_cons_of_mem _ hy)
    simp only [SMap.getD, SMap.get?]
    split
    · exact h x (List.mem_cons_self ..)
    split
    · exact ⟨rfl, rfl⟩
    · exact rest

/-- A boot pool holds no frame, and no context uses it. -/
theorem bootPools_rising {first d bad} : ∀ x ∈ bootPools first d bad, x.2.Rising := by
  simp [bootPools, Pool.reset, SMap.wf]

theorem packageReset_tables {b} : (packageReset b s).Tables := by
  have booted : PoolsRising (packageReset b s).mach.pools := poolsRising_of_forall fun x hx => by
    obtain ⟨d, -, hd⟩ := List.mem_flatMap.1 hx
    exact bootPools_rising x hd
  obtain ⟨hcores, hctx, hsaved, -, hseqs, hrids, hnums⟩ := reset_tables.ordered
  exact State.tables_iff.2 ⟨⟨hcores, hctx, hsaved, booted, hseqs, hrids, hnums⟩, rfl⟩

theorem topologyCompute_tables (h : s.Tables) {links} : (topologyCompute links s).Tables := by
  simp only [topologyCompute]
  repeat' split
  all_goals exact h

theorem freezeN_tables (h : s.Tables) : (freezeN s).Tables := State.tables_iff.2 ⟨h.ordered, rfl⟩

theorem scanShift_tables (h : s.Tables) {n} : (scanShift n s).Tables := State.tables_ite h h

/-! ### SPDM -/

theorem spdmRespond_tables (h : s.Tables) {version code p1 fixed data next} :
    (spdmRespond version code p1 fixed data next s).Tables := State.opened_tables h h

theorem spdmError_tables (h : s.Tables) {code} : (spdmError code s).Tables := State.opened_tables h h

theorem spdmServe_tables (h : s.Tables) {ok code fixed data next} : (spdmServe ok code fixed data next s).Tables :=
  State.tables_ite (spdmRespond_tables h) (spdmError_tables h)

theorem getMeasurements_tables (h : s.Tables) {data} : (getMeasurements data s).Tables := by
  simp only [getMeasurements]
  split
  · exact spdmError_tables h
  · exact State.tables_ite (spdmError_tables h) (spdmRespond_tables h)

/-! ### Contexts and the mailbox -/

theorem mailReply_tables (h : s.Tables) {status v} : (mailReply status v s).Tables := h

/-- CREATE adds a context and its memory's key. -/
theorem create_tables (h : s.Tables) {a} : (create a s).Tables := by
  have tabled (l : List (Nat × Nat)) : (a.tables.foldl (fun m p => m.writeHome true p.1 1 (Mem.ofBytes [p.2]))
      (l.foldl (fun m p => m.zeroHome true p.1 p.2) s.mach)).Ordered :=
    foldl_ordered (foldl_ordered h.ordered fun m p h => Mach.zeroHome_ordered_iff.2 h) fun m p h =>
      Mach.writeHome_ordered_iff.2 h
  simp only [create]
  refine State.tables_ite (mailReply_tables h) (mailReply_tables (State.tables_iff.2 ⟨?_, SMap.set_wf h.keys _ _⟩))
  obtain ⟨hcores, hctx, rest⟩ := tabled _
  exact ⟨hcores, SMap.set_wf hctx _ _, rest⟩

/-- DESTROY takes the context and its memory's key away. -/
theorem destroy_tables (h : s.Tables) {ctx} : (destroy ctx s).Tables := by
  have torn : (teardown s.trust ctx s.mach).2.Ordered := teardown_ordered h.ordered
  exact State.tables_ite (mailReply_tables h)
    (mailReply_tables (State.tables_iff.2 ⟨Mach.ordered_parts_iff.2 torn, SMap.erase_wf h.keys _⟩))

theorem setcfg_tables (h : s.Tables) {smax fmin cap} : (setcfg smax fmin cap s).Tables := State.tables_ite h h

theorem verify_tables (h : s.Tables) {ctx header leaves sig} : (verify ctx header leaves sig s).Tables := by
  simp only [verify]
  repeat' split
  all_goals exact h

theorem dropm_tables (h : s.Tables) {ctx slot} : (dropm ctx slot s).Tables := by
  unfold dropm
  split <;> exact h

theorem mailRun_tables (h : s.Tables) {c} : (mailRun c s).Tables := by
  unfold mailRun
  split
  · exact mailReply_tables h
  · exact create_tables h
  · exact destroy_tables h
  · exact setcfg_tables h
  · exact verify_tables h
  · exact dropm_tables h

theorem mailboxTurn_tables (h : s.Tables) : (mailboxTurn s).Tables := by
  unfold mailboxTurn
  split
  · exact h
  · refine State.opened_tables h (mailRun_tables ?_)
    exact h

theorem contextLoss_tables (h : s.Tables) : (contextLoss s).Tables := by
  refine State.tables_iff.2 ⟨contextLoss_ordered h.ordered, ?_⟩
  simp only [contextLoss]
  split
  · exact h.keys
  split
  · exact h.keys
  · exact SMap.erase_wf h.keys _

/-! ### The host's registers, power -/

theorem deviceWrite_tables (h : s.Tables) {func off data} : (deviceWrite func off data s).Tables :=
  State.tables_ite h (State.tables_ite (h.withMach (submissionRecord_ordered h.ordered)) h)

theorem powerMonitor_tables (h : s.Tables) {watts} : (powerMonitor watts s).Tables := by
  unfold powerMonitor
  split <;> exact h

theorem moduleController_tables (h : s.Tables) {cap} : (moduleController cap s).Tables := by
  unfold moduleController
  split <;> exact h

end
end Sys2Proof.Machine
end

