-- ==== Sys2Proof/Proofs/OrderedExec.lean ====
section
/-! SUPPORT for the statement that every step keeps the tables ordered: every instruction keeps them. -/

namespace Sys2Proof.Machine

section
variable {s : State}

/-- The next state of an outcome that has one has ordered tables. -/
def KeepsTables (o : Host.Outcome State Fault Refusal) : Prop := ∀ s', o = .next s' → s'.Tables

theorem keepsTables_next (h : s.Tables) : KeepsTables (.next s) := fun _ hs => by cases hs; exact h

theorem attemptAt_trust {s s' : State} {e : Env} {i : Instr} {body : Env → Mach → Chk Mach}
    (hs : attemptAt e i body s = .next s') : s'.trust = s.trust := by
  simp only [attemptAt] at hs
  split at hs <;> cases hs <;> rfl

theorem keepsTables_attemptAt (h : s.Tables) {e : Env} {i : Instr} {body : Env → Mach → Chk Mach}
    (hb : ∀ {m}, m.Ordered → (body e m).Sat Mach.Ordered) : KeepsTables (attemptAt e i body s) := fun s' hs => by
  refine State.tables_iff.2 ⟨attemptAt_ordered h.ordered (fun _ h => hb h) hs, ?_⟩
  rw [attemptAt_trust hs]
  exact h.keys

theorem keepsTables_attempt (h : s.Tables) {i : Instr} {body : Env → Mach → Chk Mach}
    (hb : ∀ {e m}, m.Ordered → (body e m).Sat Mach.Ordered) : KeepsTables (attempt i body s) := keepsTables_attemptAt h hb

theorem keepsTables_attemptNext (h : s.Tables) {i : Instr} {body : Env → Mach → Chk Mach}
    (hb : ∀ {e m}, m.Ordered → (body e m).Sat Mach.Ordered) : KeepsTables (attemptNext i body s) :=
  keepsTables_attempt h fun h => (hb h).bind fun _ h => Chk.sat_ok.2 (Env.advance_ordered h)

/-- A reserved word raises ILLOP, but one of ERRQ.sum's runs its checks (R47 to R49). -/
theorem execIllop_keepsTables (h : s.Tables) {w} : KeepsTables (execIllop w s) := by
  unfold execIllop
  split
  · exact keepsTables_attemptAt h fun h => errqSumBody_ordered h
  · exact keepsTables_attempt h fun h => Chk.sat_error.2 trivial

theorem exec_keepsTables (h : s.Tables) (i : Instr) : KeepsTables (exec i s) := by
  have hm : s.mach.Ordered := h.ordered
  have same {m : Mach} (hm : m.Ordered) : KeepsTables (.next { s with mach := m }) := keepsTables_next (h.withMach hm)
  cases i with dsimp only [exec]
  | nop => exact keepsTables_attemptNext h fun h => Chk.sat_ok.2 (Env.finishNow_ordered_iff.2 h)
  | brcNz | brcZ => exact keepsTables_attempt h fun h => brcBody_ordered h
  | jmp => exact keepsTables_attempt h fun h => Chk.sat_ok.2 (Env.branch_ordered h)
  | call => exact keepsTables_attempt h fun h => callBody_ordered h
  | ret => exact keepsTables_attempt h fun h => retBody_ordered h
  | loop => exact keepsTables_attempt h fun h => loopBody_ordered h
  | lbrk => exact keepsTables_attempt h fun h => lbrkBody_ordered h
  | tkw => exact keepsTables_attemptNext h fun h => tkwBody_ordered h
  | tks => exact keepsTables_attemptNext h fun h => tksBody_ordered h
  | qopCnt | qopTcnt => exact keepsTables_attemptNext h fun h => Env.ctlResult_ordered h
  | qopDrop => exact keepsTables_attemptNext h fun h => qopDropBody_ordered h
  | qopClr => exact keepsTables_attemptNext h fun h => qopClrBody_ordered h
  | lmov => exact keepsTables_attemptNext h fun h => (Env.src_ordered h).bind fun _ h => Env.ctlResult_ordered h
  | clh => exact keepsTables_attempt h fun h => clhBody_ordered h
  | yield => exact keepsTables_attempt h fun h => yieldBody_ordered h
  | exit => exact keepsTables_attempt h fun h => exitBody_ordered h
  | sleep => exact keepsTables_attempt h fun h => sleepBody_ordered h
  | add | sub | mul | div | and | or | xor | shf | cmp | minmax | agen =>
    exact keepsTables_attemptNext h fun h => timed2_ordered h
  | sel => exact keepsTables_attemptNext h fun h => selBody_ordered h
  | bits | ext => exact keepsTables_attemptNext h fun h => by split; exacts [timed2_ordered h, timed1_ordered h]
  | li => exact keepsTables_attemptNext h fun h => (Env.dst_ordered h).bind fun _ h => Chk.sat_ok.2 (Env.timed_ordered_iff.2 h)
  | ldl => exact keepsTables_attemptNext h fun h => ldlBody_ordered h
  | stl => exact keepsTables_attemptNext h fun h => stlBody_ordered h
  | ldg | ldd => exact keepsTables_attemptNext h fun h => stagedLoadBody_ordered h
  | stg | std | stb => exact keepsTables_attemptNext h fun h => postedStoreBody_ordered h
  | ldb => exact keepsTables_attemptNext h fun h => ldbBody_ordered h
  | pfd => exact keepsTables_attemptNext h fun h => pfdBody_ordered h
  | loc => exact keepsTables_attemptNext h fun h => locBody_ordered h
  | bopn => exact keepsTables_attemptNext h fun h => bopnBody_ordered h
  | bshr => exact keepsTables_attemptNext h fun h => bshrBody_ordered h
  | bfre | bfreClose => exact keepsTables_attemptNext h fun h => bfreBody_ordered h
  | binv => exact keepsTables_attemptNext h fun h => binvBody_ordered h
  | bqry => exact keepsTables_attemptNext h fun h => bqryBody_ordered h
  | bgrw | bgrwRel => exact keepsTables_attemptNext h fun h => bgrwBody_ordered h
  | leaseAcq => exact keepsTables_attemptNext h fun h => leaseAcqBody_ordered h
  | leaseRel => exact keepsTables_attemptNext h fun h => leaseRelBody_ordered h
  | wld => exact keepsTables_attemptNext h fun h => wldBody_ordered h
  | wswp => exact keepsTables_attemptNext h fun h => wswpBody_ordered h
  | mxh => exact keepsTables_attemptNext h fun h => mxhBody_ordered h
  | mxa => exact keepsTables_attemptNext h fun h => mxaBody_ordered h
  | mxsq => exact keepsTables_attemptNext h fun h => mxsqBody_ordered h
  | mxmd => exact keepsTables_attemptNext h fun h => mxmdBody_ordered h
  | mxgr => exact keepsTables_attemptNext h fun h => mxgrBody_ordered h
  | mxdr => exact keepsTables_attemptNext h fun h => mxdrBody_ordered h
  | mxdrKeep => exact keepsTables_attemptNext h fun h => mxdrKeepBody_ordered h
  | mxz => exact keepsTables_attemptNext h fun h => mxzBody_ordered h
  | mvk => exact keepsTables_attemptNext h fun h => mvkBody_ordered h
  | mvq => exact keepsTables_attemptNext h fun h => mvqBody_ordered h
  | mvv => exact keepsTables_attemptNext h fun h => mvvBody_ordered h
  | mvm => exact keepsTables_attemptNext h fun h => mvmBody_ordered h
  | mvmOff => exact keepsTables_attemptNext h fun h => mvmOffBody_ordered h
  | mvd => exact keepsTables_attemptNext h fun h => mvdBody_ordered h
  | vadd | vsub | vmul => exact keepsTables_attemptNext h fun h => arithBody_ordered h
  | vfma => exact keepsTables_attemptNext h fun h => vfmaBody_ordered h
  | vmnx => exact keepsTables_attemptNext h fun h => vmnxBody_ordered h
  | vcmp => exact keepsTables_attemptNext h fun h => vcmpBody_ordered h
  | vsel => exact keepsTables_attemptNext h fun h => vselBody_ordered h
  | vlog => exact keepsTables_attemptNext h fun h => vlogBody_ordered h
  | vshf => exact keepsTables_attemptNext h fun h => vshfBody_ordered h
  | vprm => exact keepsTables_attemptNext h fun h => by split; exacts [vprm1Body_ordered h, vprm2Body_ordered h]
  | vred => exact keepsTables_attemptNext h fun h => vredBody_ordered h
  | vwid => exact keepsTables_attemptNext h fun h => vwidBody_ordered h
  | vnar => exact keepsTables_attemptNext h fun h => vnarBody_ordered h
  | vbrd => exact keepsTables_attemptNext h fun h => vbrdBody_ordered h
  | vmsk => exact keepsTables_attemptNext h fun h => vmskBody_ordered h
  | vscn => exact keepsTables_attemptNext h fun h => vscnBody_ordered h
  | cvt => exact keepsTables_attemptNext h fun h => cvtBody_ordered h
  | mxq => exact keepsTables_attemptNext h fun h => mxqBody_ordered h
  | mxx => exact keepsTables_attemptNext h fun h => mxxBody_ordered h
  | srsdSet => exact keepsTables_attemptNext h fun h => srsdSetBody_ordered h
  | srsdStep => exact keepsTables_attemptNext h fun h => srsdStepBody_ordered h
  | sfa | sfb | sfc => exact keepsTables_attemptNext h fun h => specialBody_ordered h
  | smxs => exact keepsTables_attemptNext h fun h => smxsBody_ordered h
  | vlane => exact keepsTables_attemptNext h fun h => vlaneBody_ordered h
  | vidx => exact keepsTables_attemptNext h fun h => vidxBody_ordered h
  | fcls => exact keepsTables_attemptNext h fun h => fclsBody_ordered h
  | fsc => exact keepsTables_attemptNext h fun h => by split; exacts [fxpBody_ordered h, fscBody_ordered h]
  | rndm => exact keepsTables_attemptNext h fun h => rndmBody_ordered h
  | vdot => exact keepsTables_attemptNext h fun h => vdotBody_ordered h
  | cpy => exact keepsTables_attemptNext h fun h => cpyBody_ordered h
  | cacc => exact keepsTables_attemptNext h fun h => caccBody_ordered h
  | cwt | cwtTest => exact keepsTables_attemptNext h fun h => cwtBody_ordered h
  | cbnd => exact keepsTables_attemptNext h fun h => cbndBody_ordered h
  | cbndOff => exact keepsTables_attemptNext h fun h => cbndOffBody_ordered h
  | rini => exact keepsTables_attemptNext h fun h => riniBody_ordered h
  | rqry => exact keepsTables_attemptNext h fun h => rqryBody_ordered h
  | rwfl => exact keepsTables_attemptNext h fun h => rwflBody_ordered h
  | rwfr => exact keepsTables_attemptNext h fun h => rwfrBody_ordered h
  | rclm => exact keepsTables_attemptNext h fun h => rclmBody_ordered h
  | rpub => exact keepsTables_attemptNext h fun h => rpubBody_ordered h
  | rrel => exact keepsTables_attemptNext h fun h => rrelBody_ordered h
  | rlys => exact keepsTables_attemptNext h fun h => rlysBody_ordered h
  | rlyg | rlygAdd | rlygRet => exact keepsTables_attemptNext h fun h => rlygBody_ordered h
  | rlyw => exact keepsTables_attemptNext h fun h => rlywBody_ordered h
  | hoff => exact keepsTables_attemptNext h fun h => hoffBody_ordered h
  | hctlSeal | hctlCommit | hctlCancel | hctlDrop => exact keepsTables_attemptNext h fun h => hctlBody_ordered h
  | hctlQry => exact keepsTables_attemptNext h fun h => hctlQryBody_ordered h
  | cwld => exact keepsTables_attemptNext h fun h => cwldBody_ordered h
  | lendGrp | lendPark => exact keepsTables_attemptNext h fun h => lendBody_ordered h
  | retn => exact keepsTables_attemptNext h fun h => retnBody_ordered h
  | splitAddr => exact keepsTables_attemptNext h fun h => splitAddrBody_ordered h
  | splitRd | splitWr => exact keepsTables_attemptNext h fun h => splitBody_ordered h
  | splitCmn => exact keepsTables_attemptNext h fun h => splitCmnBody_ordered h
  | joinAddr => exact keepsTables_attemptNext h fun h => joinAddrBody_ordered h
  | joinShr => exact keepsTables_attemptNext h fun h => joinShrBody_ordered h
  | joinCmn => exact keepsTables_attemptNext h fun h => joinCmnBody_ordered h
  | joinRing => exact keepsTables_attemptNext h fun h => joinRingBody_ordered h
  | keywArr => exact keepsTables_attemptNext h fun h => keywArrBody_ordered h
  | keywTkt => exact keepsTables_attemptNext h fun h => keywTktBody_ordered h
  | keywFree => exact keepsTables_attemptNext h fun h => keywFreeBody_ordered h
  | keyq => exact keepsTables_attemptNext h fun h => keyqBody_ordered h
  | fence => exact keepsTables_attemptNext h fun h => fenceBody_ordered h
  | trap => exact keepsTables_attempt h fun h => trapBody_ordered h
  | tret => exact keepsTables_attempt h fun h => tretBody_ordered h
  | srr => exact keepsTables_attemptNext h fun h => srrBody_ordered h
  | srw => exact keepsTables_attemptNext h fun h => srwBody_ordered h
  | lnchNode => exact keepsTables_attemptNext h fun h => lnchNodeBody_ordered h
  | lnchReq => exact keepsTables_attemptNext h fun h => lnchReqBody_ordered h
  | errqRd => exact keepsTables_attemptNext h fun h => errqRdBody_ordered h
  | errqClr => exact keepsTables_attemptNext h fun h => errqClrBody_ordered h
  | errqSum => exact keepsTables_attemptNext h fun h => errqSumBody_ordered h
  | clrd => exact keepsTables_attemptNext h fun h => clrdBody_ordered h
  | clgtSet => exact keepsTables_attemptNext h fun h => clgtSetBody_ordered h
  | clgtClr => exact keepsTables_attemptNext h fun h => clgtClrBody_ordered h
  | clgtQry => exact keepsTables_attemptNext h fun h => clgtQryBody_ordered h
  | clhHoldEnd => exact same (clhHoldEnd_ordered hm)
  | sleepWake => exact same (sleepWake_ordered hm)
  | timedResultLands => exact same (timedResultLands_ordered hm)
  | pendingEntryLands | handshakeAcknowledged => exact same (serveIf_ordered hm)
  | evictionFreezeEnd => exact same (evictionFreezeEnd_ordered hm)
  | postedWriteAck => exact same (postedWriteAck_ordered hm)
  | retentionEntry => exact same (retentionEntry_ordered hm)
  | retentionExit => exact same (retentionExit_ordered hm)
  | leaseGrant => exact same (leaseGrant_ordered hm)
  | leaseBudgetEnd => exact same (leaseBudgetEnd_ordered hm)
  | arrayPass => exact same (arrayPass_ordered hm)
  | replayFreezeEnd => exact same (replayFreezeEnd_ordered hm)
  | copyComplete => exact same (copyComplete_ordered hm)
  | arrivalElementLands => exact same (arrivalElement_ordered hm)
  | accumulateApplied => exact same (accumulateApplied_ordered hm)
  | relayPayloadLands => exact same (relayPayloadLands_ordered hm)
  | channelBreak => exact same (channelBreak_ordered hm)
  | handoffBlockMove => exact same (handoffBlockMove_ordered hm)
  | handoffCompletionEvent => exact same (handoffCompletion_ordered hm)
  | cwldChunk => exact same (cwldChunk_ordered hm)
  | keyArrival => exact same (keyArrival_ordered hm)
  | watchdog => exact same (.ite (watchdog_ordered hm) hm)
  | submissionRecord => exact same (submissionRecord_ordered hm)
  | requestAdmission => exact same (requestAdmission_ordered hm)
  | requestAging => exact same (requestAging_ordered_iff.2 hm)
  | kernFire => exact same (fireNode_ordered hm fun _ _ _ => kernBody_ordered hm)
  | kernFinish => exact same (kernFinish_ordered hm)
  | xferFire => exact same (fireNode_ordered hm fun _ _ _ => xferBody_ordered hm)
  | ifFire | whileFire | switchFire => exact same (fireNode_ordered hm fun _ _ _ => condBody_ordered hm)
  | relayFire => exact same (fireNode_ordered hm fun _ _ _ => relayBody_ordered hm)
  | handFire => exact same (handFire_ordered hm)
  | waitFire => exact same (fireNode_ordered hm fun _ _ _ => waitBody_ordered hm)
  | doneFire => exact same (doneFire_ordered hm)
  | groupPlacement => exact keepsTables_next (State.tables_ite (h.withMach (groupPlacement_ordered hm)) h)
  | kernelImageLoad => exact same (kernelImageLoad_ordered hm)
  | drainingEnd => exact same (drainingEnd_ordered hm)
  | preemptionRequest => exact same (preemptionRequest_ordered hm)
  | preemptTimeoutBoundary c q =>
    exact keepsTables_next (State.tables_ite (h.withMach (setCore_ordered hm (Core.take_rising (hm.core c)))) h)
  | groupSave => exact same (groupSave_ordered hm)
  | groupRestore => exact keepsTables_next (State.tables_ite (h.withMach (groupRestore_ordered hm)) h)
  | correctedError => exact same (correctedError_ordered hm)
  | uncorrectableError => exact same (uncorrectableError_ordered hm)
  | contextLoss => exact keepsTables_next (contextLoss_tables h)
  | snaggingAudit => exact same (snaggingAudit_ordered_iff.2 hm)
  | unreachableVerdict => exact same (unreachableVerdict_ordered hm)
  | packageReset => exact keepsTables_next (packageReset_tables)
  | topologyCompute => exact keepsTables_next (topologyCompute_tables h)
  | powerMonitor => exact keepsTables_next (powerMonitor_tables h)
  | freezeN => exact keepsTables_next (freezeN_tables h)
  | moduleController => exact keepsTables_next (moduleController_tables h)
  | getVersion => exact keepsTables_next (spdmRespond_tables h)
  | getCapabilities | negotiateAlgorithms | getDigests | getCertificate | challenge | keyExchange | finish | heartbeat
  | endSession => exact keepsTables_next (spdmServe_tables h)
  | getMeasurements => exact keepsTables_next (getMeasurements_tables h)
  | spdmUnsupported => exact keepsTables_next (spdmError_tables h)
  | create => exact keepsTables_next (State.opened_tables h (create_tables h))
  | destroy => exact keepsTables_next (State.opened_tables h (destroy_tables h))
  | setcfg => exact keepsTables_next (State.opened_tables h (setcfg_tables h))
  | verify => exact keepsTables_next (State.opened_tables h (verify_tables h))
  | dropm => exact keepsTables_next (State.opened_tables h (dropm_tables h))
  | scanShift => exact keepsTables_next (scanShift_tables h)
  | illop => exact execIllop_keepsTables h
  | corefail => exact same (coreFail_ordered hm)
  | hostReadAbort => exact same (hostReadAbort_ordered hm)
  | peerContextAccess => exact same (peerAccess_ordered hm)
  | peerContextLost => exact same (peerContextLost_ordered hm)
  | childPartial => exact same (childPartial_ordered_iff.2 hm)
  | rootConfirmation => exact same (rootConfirmation_ordered_iff.2 hm)

end
end Sys2Proof.Machine
end

