-- ==== Sys2Proof/Proofs/OrderedStep.lean ====
section
/-! SUPPORT for the statement that every step keeps the tables ordered: the parts of a step, and the invariant. -/

namespace Sys2Proof.Machine

section
variable {m : Mach} {s : State}

/-! ### What ends a cycle -/

@[simp] theorem Mach.applyLater_ordered (h : m.Ordered) {c l} : (m.applyLater c l).Ordered := by
  cases l with
  | localWrite a bs => exact onCore_ordered h fun _ hk => Core.rising_parts_iff.2 hk
  | post n => exact onCore_ordered h fun k hk => by split <;> exact hk
  | slotState => exact Mach.onRegion_ordered_iff.2 h
  | seed | step => exact onCore_ordered h fun _ hk => hk
  | dropHold | dropRegion => exact onCore_ordered h fun k hk => by simp [hk]

@[simp] theorem Core.wakeSeq_rising_iff {k : Core} {q} : (k.wakeSeq q).Rising ↔ k.Rising := by
  unfold Core.wakeSeq
  split <;> simp

theorem Core.advanceSeq_rising {k : Core} (h : k.Rising) {q} : (k.advanceSeq q).Rising := by
  have aged : (k.onSeq q fun s => { s with status := { s.status with fresh := 0 } }).Rising :=
    Core.onSeq_rising h fun _ hs => Seq.rising_parts_iff.2 hs
  refine Core.onSeq_rising ?_ fun _ hs => Seq.holdEnd_rising_iff.2 hs
  split
  · exact aged
  · exact Core.landDue_rising (Core.onSeq_rising aged fun _ hs => Seq.rising_parts_iff.2 hs)

theorem Mach.tick_ordered (h : m.Ordered) {c} : (m.tick c).Ordered := by
  unfold Mach.tick
  split
  · exact onCore_ordered h fun k hk => by simp [hk]
  · extract_lets l emptied drained posted
    have hdrained : drained.Ordered :=
      foldr_ordered (onCore_ordered h fun _ hk => hk) fun _ _ h => Mach.applyLater_ordered h
    have hposted : posted.Ordered := foldl_ordered hdrained fun _ _ h => Mach.applyLater_ordered h
    refine onCore_ordered hposted fun k hk => Core.rising_parts_iff.2 ?_
    have woken : (allSeqs.foldl Core.wakeSeq { k with cycles := k.cycles + 1, ended := false }).Rising :=
      foldl_rising (Core.rising_parts_iff.2 hk) fun _ _ h => Core.wakeSeq_rising_iff.2 h
    exact foldl_rising (Core.onSeqs_rising woken fun _ hs => Seq.rising_parts_iff.2 hs) fun _ _ h => Core.advanceSeq_rising h

theorem State.pass_tables (h : s.Tables) : s.pass.Tables := by
  unfold State.pass
  split
  · exact h
  · exact h
  · exact h
  · exact h
  · split <;> exact h

/-! ### A turn of a sequencer -/

theorem keepsTables_thenPass {o : Host.Outcome State Fault Refusal} (h : KeepsTables o) : KeepsTables (thenPass o) := by
  cases o with
  | next s' => exact keepsTables_next (State.pass_tables (h s' rfl))
  | _ => exact fun _ hs => nomatch hs

theorem seqPart_keepsTables (h : s.Tables) : KeepsTables (seqPart s) := by
  have hm : s.mach.Ordered := h.ordered
  simp only [seqPart]
  split
  · exact keepsTables_next (h.withMach (setCore_ordered hm (Core.take_rising (hm.core s.cur))))
  split
  · split
    · exact keepsTables_next (h.withMach (takeTrap_ordered hm))
    split
    · exact keepsTables_next (h.withMach (Env.halt_ordered hm))
    · exact exec_keepsTables h _
  split
  · exact keepsTables_next (h.withMach (countStall_ordered hm))
  · exact keepsTables_next h

theorem State.takesFirst_tables (h : s.Tables) : s.takesFirst.Tables := by
  unfold State.takesFirst
  split
  · exact h
  refine List.foldlRecOn (motive := fun s : State => s.Tables) _ _ h fun s h q _ => ?_
  dsimp only
  split
  · exact State.tables_ite (h.withMach (setCore_ordered h.ordered (Core.take_rising (h.ordered.core s.cur)))) h
  · exact h

theorem cyclePart_keepsTables (h : s.Tables) : KeepsTables (cyclePart s) := by
  unfold cyclePart
  split
  · exact keepsTables_next h
  split
  · exact keepsTables_next (State.pass_tables (h.withMach (Mach.tick_ordered h.ordered)))
  · exact keepsTables_thenPass (seqPart_keepsTables (State.takesFirst_tables h))
  · exact keepsTables_thenPass (seqPart_keepsTables h)

/-! ### A step -/

theorem waitPart_tables (h : s.Tables) : (waitPart s).Tables :=
  State.tables_ite (State.pass_tables (h.withMach (takeWaiting_getD_ordered h.ordered h.ordered))) h

theorem turnPart_keepsTables (h : s.Tables) (t : Turn) : KeepsTables (turnPart t s) := by
  have hm : s.mach.Ordered := h.ordered
  cases t with dsimp only [turnPart]
  | event i =>
    split
    · exact exec_keepsTables h i
    · exact keepsTables_next h
  | core c => exact keepsTables_next h
  | wait => exact keepsTables_next (waitPart_tables h)
  | engine c o => exact keepsTables_next (h.withMach (engineTurn_ordered hm))
  | elapse d n => exact keepsTables_next h
  | hostWrite f a data => exact keepsTables_next (h.withMach (Mach.ordered_parts_iff.2 hm))
  | deviceWrite f off data => exact keepsTables_next (deviceWrite_tables h)
  | deviceRead f off n => exact keepsTables_next h
  | mailbox => exact keepsTables_next (mailboxTurn_tables h)
  | reply r => exact keepsTables_next h

theorem advance_keepsTables (h : s.Tables) : KeepsTables (advance s) := by
  unfold advance
  split
  · split
    · exact fun _ hs => nomatch hs
    · exact cyclePart_keepsTables h
  next t r _ =>
  split
  · exact fun _ hs => nomatch hs
  split
  · exact keepsTables_next h
  split
  · exact cyclePart_keepsTables h
  · exact turnPart_keepsTables (s := { s with agenda := r }) h t

end

/-- Settles O55: a table changes only by an entry set, put or erased, which keeps its keys rising, and a request or a launch takes
the number that `Mach.fresh` gives out. -/
theorem tablesStayOrdered : Obligations.TablesStayOrdered :=
  fun _ s' h hs => advance_keepsTables h s' hs

end Sys2Proof.Machine
end

