-- ==== Sys2Proof/Proofs/RoundTrip.lean ====
section
/-! The statement that an instruction is decoded from its own words. -/

namespace Sys2Proof.Laws.RoundTrip

/-- The length of an instruction with words is how many it is encoded in. -/
theorem encode_length {i : Instr} (h : i.wf = true) : (encode i).length = i.length := by
  unfold Instr.length
  split
  · cases h
  · rfl

/-- Every instruction decodes from its own words: the rows with words by their formats, and an event row is not well formed. -/
theorem decode_encode (i : Instr) : Statement i := by
  cases i with
  | nop => apply nop
  | brcNz => apply brcNz
  | brcZ => apply brcZ
  | jmp => apply jmp
  | call => apply call
  | ret => apply ret
  | loop => apply loop
  | lbrk => apply lbrk
  | tkw => apply tkw
  | tks => apply tks
  | qopCnt => apply qopCnt
  | qopDrop => apply qopDrop
  | qopClr => apply qopClr
  | qopTcnt => apply qopTcnt
  | lmov => apply lmov
  | clh => apply clh
  | yield => apply yield
  | exit => apply exit
  | sleep => apply sleep
  | add => apply add
  | sub => apply sub
  | mul => apply mul
  | div => apply div
  | and => apply and
  | or => apply or
  | xor => apply xor
  | shf => apply shf
  | cmp => apply cmp
  | sel => apply sel
  | minmax => apply minmax
  | bits => apply bits
  | agen => apply agen
  | li => apply li
  | ext => apply ext
  | ldl => apply ldl
  | stl => apply stl
  | ldg => apply ldg
  | stg => apply stg
  | ldd => apply ldd
  | std => apply std
  | ldb => apply ldb
  | stb => apply stb
  | pfd => apply pfd
  | loc => apply loc
  | bopn => apply bopn
  | bshr => apply bshr
  | bfre => apply bfre
  | bfreClose => apply bfreClose
  | binv => apply binv
  | bqry => apply bqry
  | bgrw => apply bgrw
  | bgrwRel => apply bgrwRel
  | leaseAcq => apply leaseAcq
  | leaseRel => apply leaseRel
  | wld => apply wld
  | wswp => apply wswp
  | mxh => apply mxh
  | mxa => apply mxa
  | mxsq => apply mxsq
  | mxmd => apply mxmd
  | mxgr => apply mxgr
  | mxdr => apply mxdr
  | mxdrKeep => apply mxdrKeep
  | mxz => apply mxz
  | mvk => apply mvk
  | mvq => apply mvq
  | mvv => apply mvv
  | mvm => apply mvm
  | mvmOff => apply mvmOff
  | mvd => apply mvd
  | vadd => apply vadd
  | vsub => apply vsub
  | vmul => apply vmul
  | vfma => apply vfma
  | vmnx => apply vmnx
  | vcmp => apply vcmp
  | vsel => apply vsel
  | vlog => apply vlog
  | vshf => apply vshf
  | vprm => apply vprm
  | vred => apply vred
  | vwid => apply vwid
  | vnar => apply vnar
  | vbrd => apply vbrd
  | vmsk => apply vmsk
  | vscn => apply vscn
  | cvt => apply cvt
  | mxq => apply mxq
  | mxx => apply mxx
  | srsdSet => apply srsdSet
  | srsdStep => apply srsdStep
  | sfa => apply sfa
  | sfb => apply sfb
  | sfc => apply sfc
  | smxs => apply smxs
  | vlane => apply vlane
  | vidx => apply vidx
  | fcls => apply fcls
  | fsc => apply fsc
  | rndm => apply rndm
  | vdot => apply vdot
  | cpy => apply cpy
  | cacc => apply cacc
  | cwt => apply cwt
  | cwtTest => apply cwtTest
  | cbnd => apply cbnd
  | cbndOff => apply cbndOff
  | rini => apply rini
  | rqry => apply rqry
  | rwfl => apply rwfl
  | rwfr => apply rwfr
  | rclm => apply rclm
  | rpub => apply rpub
  | rrel => apply rrel
  | rlys => apply rlys
  | rlyg => apply rlyg
  | rlygAdd => apply rlygAdd
  | rlygRet => apply rlygRet
  | rlyw => apply rlyw
  | hoff => apply hoff
  | hctlSeal => apply hctlSeal
  | hctlCommit => apply hctlCommit
  | hctlCancel => apply hctlCancel
  | hctlQry => apply hctlQry
  | hctlDrop => apply hctlDrop
  | cwld => apply cwld
  | lendGrp => apply lendGrp
  | lendPark => apply lendPark
  | retn => apply retn
  | splitAddr => apply splitAddr
  | splitRd => apply splitRd
  | splitWr => apply splitWr
  | splitCmn => apply splitCmn
  | joinAddr => apply joinAddr
  | joinShr => apply joinShr
  | joinCmn => apply joinCmn
  | joinRing => apply joinRing
  | keywArr => apply keywArr
  | keywTkt => apply keywTkt
  | keywFree => apply keywFree
  | keyq => apply keyq
  | fence => apply fence
  | trap => apply trap
  | tret => apply tret
  | srr => apply srr
  | srw => apply srw
  | lnchNode => apply lnchNode
  | lnchReq => apply lnchReq
  | errqRd => apply errqRd
  | errqClr => apply errqClr
  | errqSum => apply errqSum
  | clrd => apply clrd
  | clgtSet => apply clgtSet
  | clgtClr => apply clgtClr
  | clgtQry => apply clgtQry
  | clhHoldEnd | sleepWake | timedResultLands | pendingEntryLands | handshakeAcknowledged | evictionFreezeEnd
  | postedWriteAck | retentionEntry | retentionExit | leaseGrant | leaseBudgetEnd | arrayPass | replayFreezeEnd
  | copyComplete | arrivalElementLands | accumulateApplied | relayPayloadLands | channelBreak | handoffBlockMove
  | handoffCompletionEvent | cwldChunk | keyArrival | watchdog | submissionRecord | requestAdmission | requestAging
  | kernFire | kernFinish | xferFire | ifFire | whileFire | switchFire | relayFire | handFire | waitFire | doneFire
  | groupPlacement | kernelImageLoad | drainingEnd | preemptionRequest | preemptTimeoutBoundary | groupSave
  | groupRestore | correctedError | uncorrectableError | contextLoss | snaggingAudit | unreachableVerdict
  | packageReset | topologyCompute | getVersion | getCapabilities | negotiateAlgorithms | getDigests | getCertificate
  | challenge | getMeasurements | keyExchange | finish | heartbeat | endSession | spdmUnsupported | create | destroy
  | setcfg | verify | dropm | powerMonitor | freezeN | scanShift | illop | corefail | hostReadAbort
  | moduleController | peerContextAccess | peerContextLost | childPartial | rootConfirmation =>
    exact fun h => nomatch h

end Sys2Proof.Laws.RoundTrip

namespace Sys2Proof.Machine

open Sys2Proof.Laws.RoundTrip in
/-- Settles O57, by the format of each row. -/
theorem roundTrip : Obligations.RoundTrip :=
  fun i rest h => ⟨encode_length h, decode_encode i h rest⟩

end Sys2Proof.Machine
end

