-- ==== Sys2Proof/Proofs/StepDecoded.lean ====
section
/-! The statements about decoding: the words of the spec's examples, and the step that runs the instruction its fetch decodes. -/

namespace Sys2Proof.Machine

/-- Settles O58: the decoder, run on each of the words. -/
theorem decodeSamples : Obligations.DecodeSamples :=
  ⟨rfl, rfl, rfl, rfl, rfl, rfl, rfl⟩

section
variable {s : State}

/-! ### What acts next -/

/-- With no turn pending, or within a core's cycle with one that is no wait, the current core's cycle goes on. -/
theorem step_cyclePart (h : s.agenda = [] ∨ (s.phase ≠ .st ∧ ∃ x r, s.agenda = x :: r ∧ x ≠ .wait)) (hf : s.trust.frozen = false)
    (hr : s.trust.released = true) : step s = cyclePart s := by
  obtain h | ⟨hp, x, r, h, hx⟩ := h
  · simp [step, advance, h, hf]
  · have hw : x.withinCycle = false := by
      cases x with
      | wait => exact absurd rfl hx
      | _ => rfl
    simp [step, advance, h, hf, hr, hp, hw]

/-- A sequencer's part of a cycle: at the first one a pre-emption takes the sequencers that wait. -/
theorem cyclePart_seqPart (hr : s.trust.released = true) (ht : s.phase ≠ .tick) :
    cyclePart s = thenPass (seqPart (if s.phase = .st then s.takesFirst else s)) := by
  unfold cyclePart
  simp only [hr, Bool.not_true, Bool.false_eq_true, if_false]
  split
  next h => exact absurd h ht
  next h => rw [if_pos h]
  next h => rw [if_neg h]

/-- What a pre-emption takes at the start of a cycle leaves everything but the package machine. -/
theorem State.takesFirst_on (s : State) : ∃ m, s.takesFirst = { s with mach := m } := by
  unfold State.takesFirst
  split
  · exact ⟨s.mach, rfl⟩
  · refine List.foldlRecOn (motive := fun t : State => ∃ m, t = { s with mach := m }) _ _ ⟨s.mach, rfl⟩ ?_
    rintro _ ⟨m, rfl⟩ q -
    dsimp only
    split
    · split
      · exact ⟨_, rfl⟩
      · exact ⟨_, rfl⟩
    · exact ⟨_, rfl⟩

/-- The state in which the current sequencer's part begins is s but for the package machine. -/
theorem State.partStart_on (s : State) : ∃ m, (if s.phase = .st then s.takesFirst else s) = { s with mach := m } := by
  split
  · exact s.takesFirst_on
  · exact ⟨s.mach, rfl⟩

/-! ### A sequencer's part -/

/-- A plane without poison has no poisoned instruction word. -/
theorem Plane.bad_of_no_poison {p : Plane} (h : p.poison = []) (pc : Offset) (len : Nat) : p.bad pc len = none := by
  simp [Plane.bad, h]

/-- A sequencer that may issue, is not taken, and meets no broken clause and no poison runs the instruction at its pc. -/
theorem seqPart_exec (ht : (s.mach.core s.cur).takeNow s.phase.seq = false) (hr : (s.mach.core s.cur).ready s.phase.seq = true)
    (hb : s.phase.seq = .cmp → (s.mach.core s.cur).clause.bind Clause.back = none)
    (hp : ((s.mach.core s.cur).plane s.phase.seq).poison = []) :
    seqPart s = exec (((s.mach.core s.cur).plane s.phase.seq).instr ((s.mach.core s.cur).seq s.phase.seq).pc) s := by
  simp only [seqPart, ht, hr, Bool.false_eq_true, if_false, if_true, Plane.bad_of_no_poison hp]
  split
  next hq hc => rw [hb hq] at hc; cases hc
  · rfl

/-- A sequencer that may not issue, is not taken and does not sleep changes nothing. -/
theorem seqPart_idle (ht : (s.mach.core s.cur).takeNow s.phase.seq = false) (hr : (s.mach.core s.cur).ready s.phase.seq = false)
    (ha : ((s.mach.core s.cur).seq s.phase.seq).asleep = false) : seqPart s = .next s := by
  simp [seqPart, ht, hr, ha]

/-- The instruction at an offset is the one its words decode to, or the reserved word's. -/
theorem Plane.instr_ok {p : Plane} {pc : Offset} {i : Instr} {ws : List IWord} (h : decodeWords (p.wordsAt pc) = .ok (i, ws)) :
    p.instr pc = i := by simp [Plane.instr, h]
theorem Plane.instr_error {p : Plane} {pc : Offset} {e : DecodeError} (h : decodeWords (p.wordsAt pc) = .error e) :
    p.instr pc = .illop (p.word pc) := by simp [Plane.instr, h]

/-! ### Turns -/

theorem step_turnPart {t : Turn} {r : List Turn} (h : s.agenda = t :: r) (hf : s.trust.frozen = false)
    (ha : s.trust.released = true ∧ (s.phase = .st ∨ t = .wait) ∨ s.trust.released = false ∧ t.inBringUp = true) :
    step s = turnPart t { s with agenda := r } := by
  obtain ⟨hr, hp⟩ | ⟨hr, hb⟩ := ha
  · have hin : (decide (s.phase ≠ .st) && !t.withinCycle) = false := by
      rcases hp with hp | rfl
      · simp [hp]
      · simp [Turn.withinCycle]
    simp only [step, advance, h, hf, hr, Bool.false_and, Bool.not_true, Bool.false_eq_true, if_false, Bool.not_false, Bool.true_and, hin]
  · simp [step, advance, h, hf, hr, hb]

end

/-- Settles O59: what acts next, then what the sequencer's part does. -/
theorem stepRunsDecoded : Obligations.StepRunsDecoded := by
  refine ⟨fun s i ws => ?_, fun s => ?_, fun s h => ?_, fun s r h hf hr => ?_, fun s i r h hf hi ha => ?_,
    fun s x r hf hr => ⟨fun h => ?_, fun h hb => ?_⟩, fun s hf ht => ?_⟩
  · intro s1 q k y h hf hr ht hn hk hb hp
    obtain ⟨m, hm⟩ := s.partStart_on
    have hs1 : s1 = { s with mach := m } := hm
    have hstep : step s = thenPass (exec ((k.plane q).instr y.pc) s1) := by
      rw [step_cyclePart h hf hr, cyclePart_seqPart hr ht]
      change thenPass (seqPart s1) = _
      clear_value s1
      subst hs1
      exact congrArg thenPass (seqPart_exec hn hk hb hp)
    refine ⟨fun hd => ?_, fun e hd => by rw [hstep, Plane.instr_error hd]⟩
    rw [Plane.instr_ok hd] at hstep
    exact ⟨hstep, fun t ht => by rw [hstep, ht]; rfl⟩
  · intro s1 q k h hf hr ht hn hk ha
    obtain ⟨m, hm⟩ := s.partStart_on
    have hs1 : s1 = { s with mach := m } := hm
    rw [step_cyclePart h hf hr, cyclePart_seqPart hr ht]
    change thenPass (seqPart s1) = _
    clear_value s1
    subst hs1
    rw [seqPart_idle hn hk ha]
    rfl
  · simp [State.takesFirst, h]
  · exact step_turnPart h hf (.inl ⟨hr, .inr rfl⟩)
  · rw [step_turnPart h hf (ha.imp (fun h => ⟨h.1, .inl h.2⟩) id), turnPart, if_pos hi]
  · simp [step, advance, h, hf, cyclePart, hr]
  · simp [step, advance, h, hf, hr, hb]
  · cases h : s.agenda with
    | nil => simp [step, advance, h, hf]
    | cons x r => simp [step, advance, h, hf, ht x r h]

end Sys2Proof.Machine
end

