-- ==== Sys2Proof/Proofs/SysRegs.lean ====
section
/-! The statement about what SRR reads: the bits of the words that hold more than one field. -/

namespace Sys2Proof.Machine

/-- STATUS has the mode in bit 8, over the seven flags (R54). -/
theorem Status.toNat_word (x : Status) : x.word.toNat = x.flags.toNat + (if x.super then 256 else 0) := by
  have hflags := x.flags.isLt
  unfold Status.word
  rw [BitVec.toNat_append, ← Nat.shiftLeft_add_eq_or_of_lt hflags]
  cases x.super
  · simp
  · simp; omega

/-- One more bit set, when its condition holds. -/
theorem getLsbD_setWhen (b : Bool) (w : Word) (i n : Nat) (h : n < 64) :
    (if b then w ||| ((1 : Word) <<< i) else w).getLsbD n = (w.getLsbD n || (b && decide (n = i))) := by
  have hbit : BitVec.getLsbD ((1 : Word) <<< i) n = decide (n = i) := by
    rw [BitVec.getLsbD_shiftLeft, show (1 : Word) = 1#64 from rfl, BitVec.getLsbD_one]
    grind
  cases b
  · simp
  · rw [if_pos rfl, BitVec.getLsbD_or, hbit, Bool.true_and]

/-- HARVEST has the die's live cores below bit 36, the package's live dies above them, and zeros (R53). -/
theorem Trust.getLsbD_harvest (t : Trust) (d n : Nat) (h : n < 64) :
    (t.harvest d).getLsbD n =
      if n < 36 then (t.mask d).getLsbD n else if n < 42 then t.isLive (n - 36) else false := by
  have hrange : List.range 6 = [0, 1, 2, 3, 4, 5] := rfl
  simp only [Trust.harvest, hrange, List.foldl, getLsbD_setWhen _ _ _ _ h, BitVec.getLsbD_setWidth, h, decide_true, Bool.true_and]
  have hmask : 36 ≤ n → (t.mask d).getLsbD n = false := BitVec.getLsbD_of_ge _ _
  by_cases hn : n < 42
  · by_cases hlow : n < 36
    · have hne : ∀ i, decide (n = 36 + i) = false := by intro i; simp; omega
      simp only [if_pos hlow, hne, Bool.and_false, Bool.or_false]
    · rw [if_neg hlow, if_pos hn, hmask (by omega)]
      obtain rfl | rfl | rfl | rfl | rfl | rfl : n = 36 ∨ n = 37 ∨ n = 38 ∨ n = 39 ∨ n = 40 ∨ n = 41 := by omega
      all_goals simp
  · have hne : ∀ i < 6, decide (n = 36 + i) = false := by intro i hi; simp; omega
    rw [if_neg (by omega), if_neg hn, hmask (by omega)]
    simp only [hne, Nat.reduceLT, Bool.and_false, Bool.or_false]

/-- The fields of CELLMAP, bit by bit (R244). -/
theorem Array_.getLsbD_cellmap (a : Array_) (n : Nat) :
    a.cellmap.getLsbD n =
      if n < 10 then (BitVec.ofNat 10 (a.repl.getD (0, 0)).2).getLsbD n
      else if n < 20 then (BitVec.ofNat 10 (a.repl.getD (0, 0)).1).getLsbD (n - 10)
      else if n < 29 then false
      else if n = 29 then decide (a.lease = .offline)
      else if n = 30 then a.spBad
      else if n = 31 then a.repl.isSome else false := by
  simp only [Array_.cellmap, BitVec.getLsbD_append, BitVec.getLsbD_ofBool]
  grind

/-- A field of CELLMAP: the bits from bit i on that agree with a word's are that word. -/
theorem Array_.cellmap_field (a : Array_) (i n : Nat) (w : BitVec n)
    (h : ∀ j < n, a.cellmap.getLsbD (i + j) = w.getLsbD j) : a.cellmap.extractLsb' i n = w := by
  apply BitVec.eq_of_getLsbD_eq
  intro j hj
  rw [BitVec.getLsbD_extractLsb', decide_eq_true hj, Bool.true_and, h j hj]

/-- CELLMAP of an array with a cell replaced names its column and its row (R244). -/
theorem Array_.cellmap_replaced (a : Array_) (row col : Nat) (h : a.repl = some (row, col)) :
    a.cellmap.extractLsb' 0 10 = BitVec.ofNat 10 col ∧ a.cellmap.extractLsb' 10 10 = BitVec.ofNat 10 row ∧
      a.cellmap.getLsbD 31 = true := by
  refine ⟨a.cellmap_field 0 10 _ ?_, a.cellmap_field 10 10 _ ?_, ?_⟩
  · intro j hj
    simp [getLsbD_cellmap, h, hj]
  · intro j hj
    simp [getLsbD_cellmap, h, hj, show 10 + j < 20 by omega]
  · rw [getLsbD_cellmap]
    simp [h]

/-- CELLMAP of an array with no cell replaced (R244). -/
theorem Array_.cellmap_whole (a : Array_) (h : a.repl = none) :
    a.cellmap.extractLsb' 0 20 = 0 ∧ a.cellmap.getLsbD 31 = false := by
  refine ⟨a.cellmap_field 0 20 _ ?_, ?_⟩
  · intro j hj
    simp [getLsbD_cellmap, h, hj]
  · rw [getLsbD_cellmap]
    simp [h]

/-- The bits of CELLMAP that do not depend on the cell replaced (R244). -/
theorem Array_.cellmap_rest (a : Array_) :
    a.cellmap.getLsbD 30 = a.spBad ∧ a.cellmap.getLsbD 29 = decide (a.lease = .offline) ∧
      a.cellmap.extractLsb' 20 9 = 0 ∧ a.cellmap.extractLsb' 32 32 = 0 := by
  refine ⟨?_, ?_, a.cellmap_field 20 9 _ ?_, a.cellmap_field 32 32 _ ?_⟩
  · rw [getLsbD_cellmap]
    simp
  · rw [getLsbD_cellmap]
    simp
  · intro j hj
    have hlow : ¬ 20 + j < 10 ∧ ¬ 20 + j < 20 := by omega
    have hmid : 20 + j < 29 := by omega
    simp only [getLsbD_cellmap, hlow, hmid, if_false, if_true, BitVec.ofNat_eq_ofNat, BitVec.getLsbD_zero]
  · intro j hj
    have hlow : ¬ 32 + j < 10 ∧ ¬ 32 + j < 20 ∧ ¬ 32 + j < 29 := by omega
    have hmid : 32 + j ≠ 29 ∧ 32 + j ≠ 30 ∧ 32 + j ≠ 31 := by omega
    simp only [getLsbD_cellmap, hlow, hmid, if_false, BitVec.ofNat_eq_ofNat, BitVec.getLsbD_zero]

/-- Settles O16: the words of several fields by their bits, the other registers by what `Env.sysReg` reads. -/
theorem sysRegValues : Obligations.SysRegValues := by
  intro e m k x
  refine ⟨rfl, rfl, rfl, x.status.toNat_word, rfl, ?_, rfl, rfl, rfl, rfl, rfl, ?_, ?_, ?_, ?_⟩
  · exact BitVec.toNat_setWidth_of_le (by decide)
  · simp [Env.sysReg, isPDie, Env.die, dieOf]
  · exact fun n hn => e.trust.getLsbD_harvest e.die n hn
  · intro hd
    have hp : isPDie e.die = false := decide_eq_false (Nat.not_lt.mpr hd)
    simp [Env.sysReg, hp]
  · intro hd a
    have hp : isPDie e.die = true := decide_eq_true hd
    have hchk : e.sysReg m .chkrow = BitVec.ofNat 64 a.chkrow := if_pos hp
    have hcell : e.sysReg m .cellmap = a.cellmap := if_pos hp
    rw [hchk, hcell]
    refine ⟨fun row col hr _ _ => ⟨?_, a.cellmap_replaced row col hr⟩, fun hr => ⟨?_, a.cellmap_whole hr⟩, a.cellmap_rest⟩
    · simp only [Array_.chkrow, hr]
    · simp only [Array_.chkrow, hr]

end Sys2Proof.Machine
end

