-- ==== Sys2Proof/Proofs/SeqTime.lean ====
section
/-! The statement about the events of a sequencer's own time and about a reserved word. -/

namespace Sys2Proof.Machine

section
variable {m : Mach} {k : Core} {c : Nat} {q : SeqId}

/-! ### Changes of a listed core -/

theorem Core.onSeq_congr {f g : Seq → Seq} (h : f (k.seq q) = g (k.seq q)) : k.onSeq q f = k.onSeq q g := by
  cases q <;> simp_all [Core.onSeq, Core.seq]

/-- Two changes of a core that agree on it change the machine alike. -/
theorem Mach.onCore_congr {f g : Core → Core} (h : f (m.core c) = g (m.core c)) : m.onCore c f = m.onCore c g := by
  simp only [Mach.onCore, h]

theorem Mach.onListed_of_listed (f : Core → Core) (h : (SMap.get? m.cores c).isSome = true) : m.onListed c f = m.onCore c f :=
  if_pos h

theorem Core.goesOn_of (hf : k.frozen q = false) (ht : (k.seq q).taken = false) : k.goesOn q = true := by
  simp [Core.goesOn, hf, ht]

/-- A change of a sequencer whose own time goes on, given by what it makes of that sequencer. -/
theorem Mach.onListed_seq {f : Core → Seq → Seq} {g : Seq → Seq} (hl : (SMap.get? m.cores c).isSome = true)
    (hf : (m.core c).frozen q = false) (ht : (m.seq c q).taken = false)
    (h : f (m.core c) (m.seq c q) = g (m.seq c q)) :
    (m.onListed c fun k => if k.goesOn q then k.onSeq q (f k) else k) = m.onSeq c q g := by
  rw [Mach.onListed_of_listed _ hl]
  refine Mach.onCore_congr ?_
  rw [if_pos (Core.goesOn_of hf ht)]
  exact Core.onSeq_congr h

/-! ### Holds and sleeps -/

theorem Seq.holdEnd_over {x : Seq} {cycles : Word}
    (h : (∃ n, x.pause = .hold n ∧ n ≤ x.clock) ∨ ∃ a, x.pause = .holdAbs a ∧ a.toNat ≤ cycles.toNat) :
    x.holdEnd cycles = { x with pause := .run } := by
  obtain ⟨n, hp, hn⟩ | ⟨a, hp, ha⟩ := h
  · simp [Seq.holdEnd, hp, hn]
  · simp [Seq.holdEnd, hp, ha]

theorem Seq.wake_awoken {x : Seq} {limit : Option Nat} (hp : x.pause = .sleep limit)
    (h : x.nudged = true ∨ 0 < x.inUp.posted ∨ 0 < x.inDown.posted ∨ ∃ n, limit = some n ∧ n ≤ x.clock) :
    x.wake = { x with pause := .run, nudged := false, readyAt := x.clock + 4 } := by
  simp only [Seq.wake, hp]
  refine if_pos ?_
  obtain h | h | h | ⟨n, rfl, h⟩ := h
  · simp [h]
  · simp [show 0 < x.inUp.posted + x.inUp.arriving + x.inDown.posted + x.inDown.arriving by omega]
  · simp [show 0 < x.inUp.posted + x.inUp.arriving + x.inDown.posted + x.inDown.arriving by omega]
  · simp [h]

/-! ### Timed results -/

/-- A result that lands leaves the timed results of every sequencer. -/
theorem Core.landTimed_timed (p : SeqId) (r : Timed) : ((k.landTimed p r).seq q).timed = (k.seq q).timed := by
  simp only [Core.landTimed]
  rw [Core.postTokens_keeps (g := Seq.timed) (fun _ => rfl) (fun _ => rfl), Core.onSeq_keeps (g := Seq.timed) (f := fun s => s.flag _) fun _ => rfl,
    Core.nudge_keeps (g := Seq.timed) fun _ => rfl,
    Core.landFrom_keeps (g := Seq.timed) (fun _ _ _ => rfl) (fun _ _ => rfl) fun _ _ => rfl]

theorem Core.foldl_landTimed_timed (p : SeqId) (due : List Timed) :
    ((due.foldl (fun k r => k.landTimed p r) k).seq q).timed = (k.seq q).timed := by
  induction due generalizing k with
  | nil => rfl
  | cons r rest ih => rw [List.foldl_cons, ih, Core.landTimed_timed]

/-- With a result due, the timed results land in turn. -/
theorem Core.landDue_cons (h : ((k.seq q).timed.filter fun r => decide (r.lands ≤ (k.seq q).clock)) ≠ []) :
    k.landDue q =
      ((k.seq q).timed.filter fun r => decide (r.lands ≤ (k.seq q).clock)).foldl (fun k r => k.landTimed q r)
        (k.onSeq q fun y =>
          let y := { y with timed := y.timed.filter fun r => decide (y.clock < r.lands) }
          if k.preempting then
            { y with
              undo := ((k.seq q).timed.filter fun r => decide (r.lands ≤ (k.seq q).clock)).map fun r => (r, k.before r.dest)
              flags0 := y.status.flags }
          else y) := by
  simp only [Core.landDue]
  rw [if_neg (by simpa using h)]

/-- Of the timed results one is due: it lands, and the others stay. -/
theorem Core.landDue_single {before rest : List Timed} {r : Timed} (ht : (k.seq q).timed = before ++ r :: rest)
    (hp : k.preempting = false) (hr : r.lands ≤ (k.seq q).clock) (hrest : ∀ y ∈ before ++ rest, (k.seq q).clock < y.lands) :
    k.landDue q = (k.onSeq q fun y => { y with timed := before ++ rest }).landTimed q r := by
  have hlate (l : List Timed) (hl : ∀ y ∈ l, (k.seq q).clock < y.lands) :
      (l.filter fun y => decide (y.lands ≤ (k.seq q).clock)) = [] ∧
        (l.filter fun y => decide ((k.seq q).clock < y.lands)) = l :=
    ⟨List.filter_eq_nil_iff.2 fun y hy => by simpa using hl y hy, List.filter_eq_self.2 fun y hy => by simpa using hl y hy⟩
  obtain ⟨hb, hb'⟩ := hlate before fun y hy => hrest y (List.mem_append_left _ hy)
  obtain ⟨ha, ha'⟩ := hlate rest fun y hy => hrest y (List.mem_append_right _ hy)
  have hdue : ((k.seq q).timed.filter fun y => decide (y.lands ≤ (k.seq q).clock)) = [r] := by
    simp only [ht, List.filter_append, List.filter_cons, decide_eq_true hr, if_true, hb, ha, List.nil_append]
  have hleft : ((k.seq q).timed.filter fun y => decide ((k.seq q).clock < y.lands)) = before ++ rest := by
    simp only [ht, List.filter_append, List.filter_cons, decide_eq_false (Nat.not_lt.2 hr), Bool.false_eq_true, if_false, hb', ha']
  rw [Core.landDue_cons (by simp [hdue]), hdue, List.foldl_cons, List.foldl_nil]
  refine congrArg (·.landTimed q r) (Core.onSeq_congr ?_)
  simp only [hp, Bool.false_eq_true, if_false, hleft]

/-! ### Reserved words -/

/-- A reserved word in its fetch block fails the check of the instruction's form (R48). -/
theorem Env.checks_illop (e : Env) (m : Mach) (w : IWord) (h : (m.seq e.c e.q).pc.toNat % 64 / 4 + e.len ≤ 16) :
    e.checks m (.illop w) = .error (e.trapWord tIllop) := by
  simp only [Env.checks, h, decide_true]
  rfl

theorem execIllop_reserved {s : State} {w : IWord}
    (hw : errqSumOf w (((s.mach.core s.cur).plane s.phase.seq).wordsAt (s.mach.seq s.cur s.phase.seq).pc).tail = none)
    (hb : (s.mach.seq s.cur s.phase.seq).pc.toNat % 64 / 4 + wordCount w ≤ 16) :
    execIllop w s = .next (s.on (takeTrap s.trust s.cur s.phase.seq tIllop (w.setWidth 64) (s.mach.seq s.cur s.phase.seq).pc s.mach)) := by
  simp only [execIllop, hw, attempt, attemptAt]
  rw [Env.checks_illop (envOf s (.illop w)) s.mach w hb]
  rfl

end

/-! ### The statement -/

theorem State.next_on {s : State} {m m' : Mach} (h : m = m') :
    (.next (s.on m) : Host.Outcome State Fault Refusal) = .next (s.on m') := h ▸ rfl

/-- The two events that let due results land, on a core that is listed and whose sequencer goes on. -/
theorem exec_landDue (s : State) (c : Nat) (q : SeqId) (hl : (SMap.get? s.mach.cores c).isSome = true)
    (hf : (s.mach.core c).frozen q = false) (ht : (s.mach.seq c q).taken = false) :
    exec (.timedResultLands c q) s = .next (s.on (s.mach.onCore c fun k => k.landDue q)) ∧
      (q = .cmp → exec (.replayFreezeEnd c) s = .next (s.on (s.mach.onCore c fun k => k.landDue q))) := by
  have lands : (s.mach.onListed c fun k => if k.goesOn q then k.landDue q else k) = s.mach.onCore c fun k => k.landDue q := by
    rw [Mach.onListed_of_listed _ hl]
    exact Mach.onCore_congr (if_pos (Core.goesOn_of hf ht))
  refine ⟨State.next_on lands, ?_⟩
  rintro rfl
  exact State.next_on lands

/-- Settles O17: each event by what it does to the sequencer it names; a reserved word by the check that finds it. -/
theorem sequencerTime : Obligations.SequencerTime := by
  refine ⟨?_, ?_, ?_, ?_⟩
  · intro s c q x k hl hf ht _
    obtain ⟨hlands, hreplay⟩ := exec_landDue s c q hl hf ht
    refine ⟨?_, ?_, ?_, ?_⟩
    · intro h
      exact State.next_on (Mach.onListed_seq hl hf ht (Seq.holdEnd_over h))
    · intro limit hp h
      exact State.next_on (Mach.onListed_seq (f := fun _ => Seq.wake) hl hf ht (Seq.wake_awoken hp h))
    · intro due left landed hdue
      have hland : (s.mach.onCore c fun k => k.landDue q) = s.mach.setCore c landed :=
        congrArg (s.mach.setCore c) (Core.landDue_cons hdue)
      refine ⟨hlands.trans (State.next_on hland), fun hq => (hreplay hq).trans (State.next_on hland), ?_⟩
      intro r hr hlate
      rw [Core.foldl_landTimed_timed, Core.onSeq_seq]
      have hleft : r ∈ x.timed.filter fun y => decide (x.clock < y.lands) := by simp [hr, hlate]
      split <;> exact hleft
    · intro before r rest hx hp hr hrest
      exact hlands.trans (State.next_on (congrArg (s.mach.setCore c) (Core.landDue_single hx hp hr hrest)))
  · intro s c hl hz
    refine State.next_on ((Mach.onListed_of_listed _ hl).trans (Mach.onCore_congr ?_))
    obtain hz | hz := hz <;> simp only [hz]
  · intro s c q x ha hw hc
    refine State.next_on ?_
    rw [if_pos ha]
    exact if_pos ⟨hw, hc⟩
  · intro s w x hw hb
    exact execIllop_reserved hw hb

end Sys2Proof.Machine
end

