-- ==== Sys2Proof/Proofs/LocalAccess.lean ====
section
/-! The statement about the loads and stores of local memory. -/

namespace Sys2Proof.Machine

theorem alignOk_of {ea : Word} {n : Nat} (h : ea.toNat % n = 0) : alignOk ea n = true := decide_eq_true h

theorem alignOk_of_not {ea : Word} {n : Nat} (h : ea.toNat % n ≠ 0) : alignOk ea n = false := decide_eq_false h

theorem poisonIn_none {l : List Nat} {a n : Nat} (h : ∀ w ∈ l, overlaps (8 * w) 8 a n = false) : poisonIn l a n = none := by
  rw [poisonIn, List.find?_eq_none.2 fun w hw => by simp [h w hw], Option.map_none]

theorem poisonPart_none {l : List Nat} {a n : Nat} (h : ∀ w ∈ l, overlaps (8 * w) 8 a n = true → inside (8 * w) 8 a n = true) :
    poisonPart l a n = none := by
  rw [poisonPart, List.find?_eq_none.2 fun w hw => ?_, Option.map_none]
  cases ho : overlaps (8 * w) 8 a n
  · simp
  · simp [h w hw ho]

section
variable {e : Env} {m₀ m₁ m : Mach} {q : BitVec 4} {a : Src} {imm : BitVec 8} {z : MSize} {x : Word}

theorem Env.ea_ok (h : e.src m₀ a = .ok (x, m₁)) : e.ea m₀ a imm z = .ok (effAddr x imm z, m₁) := chk_bind h

/-! The operands of an access taken, its address decides. -/

theorem ldlBody_misaligned {l : Landing} (ha : e.src m₀ a = .ok (x, m₁)) (hl : e.loadDst m₁ q z false = .ok (l, m))
    (hal : alignOk (effAddr x imm z) (sizeBytes z) = false) :
    ldlBody q a imm z e m₀ = .error (.trap tAlign (effAddr x imm z)) := by
  simp only [ldlBody, Env.ea_ok ha, hl, chk_ok_bind, must_halt hal]

theorem ldlBody_outside {l : Landing} (ha : e.src m₀ a = .ok (x, m₁)) (hl : e.loadDst m₁ q z false = .ok (l, m))
    (hal : alignOk (effAddr x imm z) (sizeBytes z) = true) (hsp : decide ((effAddr x imm z).toNat < 0x80000) = false) :
    ldlBody q a imm z e m₀ = .error (.trap tSpace (effAddr x imm z)) := by
  simp only [ldlBody, Env.ea_ok ha, hl, chk_ok_bind, must_bind hal, must_halt hsp]

theorem stlBody_misaligned {pk : Bool} {bs : List Byte} (ha : e.src m₀ a = .ok (x, m₁)) (hb : e.storeData m₁ pk q z = .ok (bs, m))
    (hal : alignOk (effAddr x imm z) (sizeBytes z) = false) :
    stlBody pk q a imm z e m₀ = .error (.trap tAlign (effAddr x imm z)) := by
  simp only [stlBody, Env.ea_ok ha, hb, chk_ok_bind, must_halt hal]

theorem stlBody_outside {pk : Bool} {bs : List Byte} (ha : e.src m₀ a = .ok (x, m₁)) (hb : e.storeData m₁ pk q z = .ok (bs, m))
    (hal : alignOk (effAddr x imm z) (sizeBytes z) = true) (hsp : decide ((effAddr x imm z).toNat < 0x80000) = false) :
    stlBody pk q a imm z e m₀ = .error (.trap tSpace (effAddr x imm z)) := by
  simp only [stlBody, Env.ea_ok ha, hb, chk_ok_bind, must_bind hal, must_halt hsp]

/-- The load goes through where its address passes its checks and meets no poison. -/
theorem ldlBody_lands {l : Landing} (ha : e.src m₀ a = .ok (x, m₁)) (hl : e.loadDst m₁ q z false = .ok (l, m))
    (hal : alignOk (effAddr x imm z) (sizeBytes z) = true) (hsp : decide ((effAddr x imm z).toNat < 0x80000) = true)
    (hp : poisonIn ((m.ownLocal e.c (effAddr x imm z).toNat (sizeBytes z)).core e.c).localPoison (effAddr x imm z).toNat (sizeBytes z) =
      none) :
    ldlBody q a imm z e m₀ = .ok (e.timed (m.ownLocal e.c (effAddr x imm z).toNat (sizeBytes z)) (if z = .b512 then 5 else 4)
      (l.putBytes .b (((m.ownLocal e.c (effAddr x imm z).toNat (sizeBytes z)).core e.c).local_.read (effAddr x imm z).toNat
        (sizeBytes z))) false false) := by
  simp only [ldlBody, Env.ea_ok ha, hl, chk_ok_bind, must_bind hal, must_bind hsp, hp]

/-- The store goes through where its address passes its checks and covers the poison it meets. -/
theorem stlBody_writes {pk : Bool} {bs : List Byte} (ha : e.src m₀ a = .ok (x, m₁)) (hb : e.storeData m₁ pk q z = .ok (bs, m))
    (hal : alignOk (effAddr x imm z) (sizeBytes z) = true) (hsp : decide ((effAddr x imm z).toNat < 0x80000) = true)
    (hp : poisonPart ((m.ownLocal e.c (effAddr x imm z).toNat (sizeBytes z)).core e.c).localPoison (effAddr x imm z).toNat
      (sizeBytes z) = none) :
    stlBody pk q a imm z e m₀ = .ok (e.finishNow (e.later (.localWrite (effAddr x imm z).toNat bs)
      (m.ownLocal e.c (effAddr x imm z).toNat (sizeBytes z)))) := by
  simp only [stlBody, Env.ea_ok ha, hb, chk_ok_bind, must_bind hal, must_bind hsp, hp]

end

/-- Settles O20: the operands taken, the checks of the address decide. -/
theorem localAccess : Obligations.LocalAccess := by
  refine ⟨?_, ?_⟩
  · intro s t q a imm z x l m0 m1 m i e n ea m' k hi ha hl
    refine ⟨fun hmis => attemptNext_halt hi ?_, fun hal hsp => attemptNext_halt hi ?_, fun hal hsp hp => attemptNext_ok hi ?_⟩
    · exact ldlBody_misaligned ha hl (alignOk_of_not hmis)
    · exact ldlBody_outside ha hl (alignOk_of hal) (decide_eq_false (Nat.not_lt.2 hsp))
    · exact ldlBody_lands ha hl (alignOk_of hal) (decide_eq_true hsp) (poisonIn_none hp)
  · intro s t pk q a imm z x bs m0 m1 m i e n ea m' hi ha hb
    refine ⟨fun hmis => attemptNext_halt hi ?_, fun hal hsp => attemptNext_halt hi ?_, fun hal hsp hp => attemptNext_ok hi ?_⟩
    · exact stlBody_misaligned ha hb (alignOk_of_not hmis)
    · exact stlBody_outside ha hb (alignOk_of hal) (decide_eq_false (Nat.not_lt.2 hsp))
    · exact stlBody_writes ha hb (alignOk_of hal) (decide_eq_true hsp) (poisonPart_none hp)

end Sys2Proof.Machine
end

