-- ==== Sys2Proof/Proofs/FrameParts.lean ====
section
/-! SUPPORT for the statement about what instructions leave unchanged: the parts of the package machine as an instruction of one
sequencer sees them, and that a change leaves every part alone that it may not write. -/

namespace Sys2Proof.Machine

/-! ### The parts -/

/-- The parts of a sequencer that few instructions write: its clock, whether it has exited, what SRW sets, what a trap sets, and the
results that a pre-emption would hold back. -/
inductive SeqPart where | clock | exited | settings | trap | undo

def SeqPart.Val : SeqPart → Type
  | .clock => Nat
  | .exited => Bool
  | .settings => Word × BitVec 7
  | .trap => Word × Word × Word × Status
  | .undo => List (Timed × Landing)

def SeqPart.get : (p : SeqPart) → Seq → p.Val
  | .clock, s => s.clock
  | .exited, s => s.exited
  | .settings, s => (s.wdLimit, s.status.flags)
  | .trap, s => (s.trapCause, s.trapPc, s.trapInfo, s.status)
  | .undo, s => s.undo

/-- The parts of a core, as one of its sequencers sees them: what no instruction writes (whether a pre-emption is pending too), its
fields, the other sequencers but for their token queues, and the sequencer's own parts. -/
inductive CorePart where
  | fixed | local_ | granules | group | vq | masks | seed | step | ops | replay | view | rows | lines | posted | state | others
  | seq (p : SeqPart)

/-- A sequencer without its token queues. -/
def Seq.tokenless (s : Seq) : Seq := { s with inUp := ⟨0, 0, 0⟩, inDown := ⟨0, 0, 0⟩ }

def CorePart.Val : CorePart → Type
  | .fixed => Column × Word × SMap Plane × SMap Plane × Bool × Bool × Bool
  | .local_ => Mem
  | .granules => SMap Owner
  | .group => Option Group
  | .vq => SMap (List (QSlot VEntry))
  | .masks => SMap MaskReg
  | .seed => Word
  | .step => BitVec 32
  | .ops => List Op
  | .replay => Nat
  | .view => List Hold
  | .rows => Option Clause × List (Nat × ARow)
  | .lines => List Line
  | .posted => List Posted
  | .state => List Nat × List Later × SMap CompObj × List Binding × Freeze
  | .others => SeqId → Option Seq
  | .seq p => p.Val

def CorePart.get (q : SeqId) : (p : CorePart) → Core → p.Val
  | .fixed, k => (k.column, k.cycles, k.active, k.shadow, k.failed, k.ended, k.preempting)
  | .local_, k => k.local_
  | .granules, k => k.granules
  | .group, k => k.group
  | .vq, k => k.vq
  | .masks, k => k.masks
  | .seed, k => k.seed
  | .step, k => k.step
  | .ops, k => k.ops
  | .replay, k => k.replay
  | .view, k => k.view
  | .rows, k => (k.clause, k.aRows)
  | .lines, k => k.lines
  | .posted, k => k.posted
  | .state, k => (k.localPoison, k.later, k.objs, k.bindings, k.freeze)
  | .others, k => fun r => if r = q then none else some (k.seq r).tokenless
  | .seq p, k => p.get (k.seq q)

/-- The parts of the package machine, as an instruction of a core sees them: what no instruction writes, the tables of the package,
the choices taken, some tables and memories, the other cores, and the parts of the core. -/
inductive Part where
  | outside | pkg | free | arrays | regions | channels | dram | cores
  | core (p : CorePart)

/-- The package machine without what instructions may write. -/
def Mach.outside (m : Mach) : Mach :=
  { m with
    cores := [], arrays := [], dram := [], written := [], dramPoison := [], slices := [], regions := [], relMarks := [], seqs := []
    pools := [], channels := [], requests := [], saved := [], banks := [], cycleErrs := [], notices := [], collectives := []
    remoteShares := [], inbox := [], outbox := [], free := 0, ids := 0 }

/-- The tables that the instructions of the agents write. -/
structure Tables where
  written : List Nat
  dramPoison : List Nat
  slices : SMap Slice
  relMarks : SMap RelMark
  seqs : List BSeq
  pools : SMap Pool
  requests : List Request
  saved : List Saved
  collectives : SMap Collective
  remoteShares : List (BitVec 10 × Nat × Nat × Gid × Right)
  inbox : List Reply
  outbox : List Sent

def Mach.tables (m : Mach) : Tables :=
  ⟨m.written, m.dramPoison, m.slices, m.relMarks, m.seqs, m.pools, m.requests, m.saved, m.collectives, m.remoteShares, m.inbox, m.outbox⟩

def Part.Val : Part → Type
  | .outside => Mach
  | .pkg => Tables
  | .free => Nat
  | .arrays => SMap Array_
  | .regions => List Region
  | .channels => List Channel
  | .dram => Mem
  | .cores => Nat → Option Core
  | .core p => p.Val

def Part.get (e : Env) : (p : Part) → Mach → p.Val
  | .outside, m => m.outside
  | .pkg, m => m.tables
  | .free, m => m.free
  | .arrays, m => m.arrays
  | .regions, m => m.regions
  | .channels, m => m.channels
  | .dram, m => m.dram
  | .cores, m => fun c => if c = e.c then none else some (m.core c)
  | .core p, m => p.get e.q (m.core e.c)

/-! ### Changes that keep the parts they may not write -/

/-- A sequencer changed only in the parts it may be. -/
def Seq.Keeps (W : Part → Bool) (s s' : Seq) : Prop := ∀ p, W (.core (.seq p)) = false → p.get s' = p.get s
/-- A core changed only in the parts it may be. -/
def Core.Keeps (W : Part → Bool) (q : SeqId) (k k' : Core) : Prop := ∀ p, W (.core p) = false → p.get q k' = p.get q k
/-- The package machine changed only in the parts it may be. -/
def Kept (W : Part → Bool) (e : Env) (m m' : Mach) : Prop := ∀ p, W p = false → p.get e m' = p.get e m

section
variable {W : Part → Bool} {e : Env} {m₀ m m' : Mach} {q : SeqId} {k k' k'' : Core} {s : Seq}

theorem Core.Keeps.refl (k : Core) : k.Keeps W q k := fun _ _ => rfl

theorem Core.Keeps.trans (h : k.Keeps W q k') (h' : k'.Keeps W q k'') : k.Keeps W q k'' :=
  fun p hp => (h' p hp).trans (h p hp)

theorem Core.Keeps.preempting (h : k.Keeps W q k') (hw : W (.core .fixed) = false) : k'.preempting = k.preempting :=
  congrArg (fun x : Column × Word × SMap Plane × SMap Plane × Bool × Bool × Bool => x.2.2.2.2.2.2) (h .fixed hw)

theorem Kept.refl (m : Mach) : Kept W e m m := fun _ _ => rfl

theorem Kept.trans (h : Kept W e m₀ m) (h' : Kept W e m m') : Kept W e m₀ m' := fun p hp => (h' p hp).trans (h p hp)

theorem Kept.ite {b : Prop} [Decidable b] (h : Kept W e m₀ m) (h' : Kept W e m₀ m') : Kept W e m₀ (if b then m else m') := by
  split <;> assumption

theorem Core.Keeps.ite {b : Prop} [Decidable b] (h : k.Keeps W q k') (h' : k.Keeps W q k'') :
    k.Keeps W q (if b then k' else k'') := by
  split <;> assumption

/-- Parts that are kept stay kept where fewer have to be. -/
theorem Kept.mono {V : Part → Bool} (h : Kept W e m m') (hV : ∀ p, W p = true → V p = true) : Kept V e m m' := by
  intro p hp
  refine h p ?_
  cases hw : W p with
  | false => rfl
  | true => exact absurd (hV p hw) (by simp [hp])

/-- Folds of changes that keep the parts. -/
theorem foldl_kept {α : Type} {l : List α} {f : Mach → α → Mach} (h : Kept W e m₀ m)
    (hf : ∀ m a, Kept W e m₀ m → Kept W e m₀ (f m a)) : Kept W e m₀ (l.foldl f m) :=
  List.foldlRecOn (motive := Kept W e m₀) l f h fun m hm a _ => hf m a hm

/-! ### Cores of the machine -/

theorem Mach.keeps_of_core (hc : ∀ c, c ≠ e.c → m'.core c = m.core c) (hk : (m.core e.c).Keeps W e.q (m'.core e.c))
    (ho : m'.outside = m.outside) (ht : m'.tables = m.tables)
    (hr : (m'.free, m'.arrays, m'.regions, m'.channels, m'.dram) = (m.free, m.arrays, m.regions, m.channels, m.dram)) :
    Kept W e m m' := by
  simp only [Prod.mk.injEq] at hr
  obtain ⟨hfree, harrays, hregions, hchannels, hdram⟩ := hr
  intro p hp
  cases p with
  | outside => exact ho
  | pkg => exact ht
  | free => exact hfree
  | arrays => exact harrays
  | regions => exact hregions
  | channels => exact hchannels
  | dram => exact hdram
  | cores =>
    funext c
    by_cases hce : c = e.c
    · simp [Part.get, hce]
    · simp [Part.get, hce, hc c hce]
  | core p => exact hk p hp

theorem Kept.setCore (hk : (m.core e.c).Keeps W e.q k) : Kept W e m (m.setCore e.c k) :=
  Mach.keeps_of_core (fun _ hc => Mach.setCore_core_ne m k hc) (by simpa using hk) rfl rfl rfl

theorem Kept.onCore {f : Core → Core} (hk : (m.core e.c).Keeps W e.q (f (m.core e.c))) : Kept W e m (m.onCore e.c f) :=
  Kept.setCore hk

theorem Kept.core (h : Kept W e m m') : (m.core e.c).Keeps W e.q (m'.core e.c) := fun p hp => h (.core p) hp

/-! ### Sequencers of a core -/

theorem Core.keeps_onSeq {f : Seq → Seq} (hf : Seq.Keeps W (k.seq q) (f (k.seq q))) : k.Keeps W q (k.onSeq q f) := by
  intro p hp
  cases p with
  | seq p =>
    have own : (k.onSeq q f).seq q = f (k.seq q) := Core.onSeq_seq k q f
    simp only [CorePart.get, own]
    exact hf p hp
  | others =>
    funext r
    by_cases hr : r = q
    · simp [CorePart.get, hr]
    · simp [CorePart.get, hr, Core.onSeq_seq_ne k f hr]
  | _ => cases q <;> rfl

/-- A change of another sequencer's token queues alone. -/
theorem Core.keeps_onSeq_tokens {r : SeqId} {f : Seq → Seq} (hf : ∀ s : Seq, (f s).tokenless = s.tokenless)
    (hp : ∀ (p : SeqPart) (s : Seq), p.get (f s) = p.get s) : k.Keeps W q (k.onSeq r f) := by
  intro p _
  cases p with
  | seq p => exact Core.onSeq_keeps (g := p.get) (hp p) r q
  | others =>
    funext x
    have same : ((k.onSeq r f).seq x).tokenless = (k.seq x).tokenless := Core.onSeq_keeps hf r x
    simp only [CorePart.get, same]
  | _ => cases r <;> rfl

theorem Core.keeps_onPushQ {up : Bool} {f : TokQ → TokQ} : k.Keeps W q (k.onPushQ q up f) := by
  unfold Core.onPushQ
  split
  · exact .refl k
  split
  · exact Core.keeps_onSeq_tokens (fun _ => rfl) fun p _ => by cases p <;> rfl
  · exact Core.keeps_onSeq_tokens (fun _ => rfl) fun p _ => by cases p <;> rfl

theorem Core.keeps_postTokens {pu pd : Bool} : k.Keeps W q (k.postTokens q pu pd) := by
  unfold Core.postTokens
  split
  · split
    · exact Core.keeps_onPushQ.trans Core.keeps_onPushQ
    · exact Core.keeps_onPushQ
  · split
    · exact Core.keeps_onPushQ
    · exact .refl k

end
end Sys2Proof.Machine
end

