-- ==== Sys2Proof/Proofs/FrameOps.lean ====
section
/-! SUPPORT for the statement about what instructions leave unchanged: operands, results and the operations that a body starts. -/

namespace Sys2Proof.Machine

/-! ### Checks -/

/-- A halt that changes none of the package's tables. -/
def Halt.plain : Halt → Bool
  | .chunk .. | .answered .. => false
  | _ => true

/-- What a check gives meets P; where the package's tables may not be written, it halts in no way that writes them. -/
def Chk.Gives {α : Type} (W : Part → Bool) (P : α → Prop) (x : Chk α) : Prop :=
  match x with
  | .ok a => P a
  | .error h => W .pkg = true ∨ h.plain = true

section
variable {α β : Type} {W : Part → Bool} {P : α → Prop} {Q : β → Prop} {x : Chk α} {f : α → Chk β}

@[simp] theorem Halt.plain_trap {n : Nat} {w : Word} : (Halt.trap n w).plain = true := rfl
@[simp] theorem Halt.plain_trapWord {e : Env} {n : Nat} : (e.trapWord n).plain = true := rfl
@[simp] theorem Halt.plain_stall {n : Nat} : (Halt.stall n).plain = true := rfl
@[simp] theorem Halt.plain_wait : Halt.wait.plain = true := rfl
@[simp] theorem Halt.plain_waitOut : Halt.waitOut.plain = true := rfl
@[simp] theorem Halt.plain_lost {d b : Nat} {i : ErrInfo} : (Halt.lost d b i).plain = true := rfl
@[simp] theorem Halt.plain_slot {v : Bool} {n : BitVec 4} : (Halt.slot v n).plain = true := rfl

@[simp] theorem Chk.gives_ok {a : α} : Chk.Gives W P (.ok a) ↔ P a := Iff.rfl
@[simp] theorem Chk.gives_error {h : Halt} : Chk.Gives W P (.error h) ↔ W .pkg = true ∨ h.plain = true := Iff.rfl

theorem Chk.Gives.bind (hx : x.Gives W P) (hf : ∀ a, P a → Chk.Gives W Q (f a)) : Chk.Gives W Q (x >>= f) := by
  cases x with
  | error h => exact hx
  | ok a => exact hf a hx

theorem Chk.Gives.imp {Q : α → Prop} (hx : x.Gives W P) (h : ∀ a, P a → Q a) : x.Gives W Q := by
  cases x with
  | error y => exact hx
  | ok a => exact h a hx

/-- A check that gives nothing to keep. -/
theorem Chk.Gives.skip (hx : x.Gives W fun _ => True) (hf : ∀ a, Chk.Gives W Q (f a)) : Chk.Gives W Q (x >>= f) :=
  hx.bind fun a _ => hf a

/-- A step that gives its value with no check. -/
theorem Chk.Gives.given {a : α} {f : α → Chk β} (h : Chk.Gives W Q (f a)) : Chk.Gives W Q (.ok a >>= f) := h

theorem Chk.Gives.must {b : Bool} {h : Halt} (hh : h.plain = true) : (Machine.must b h).Gives W fun _ => True := by
  cases b
  · exact .inr hh
  · trivial

/-- Where the package's tables may be written, every check will do. -/
theorem Chk.gives_of_pkg (hpkg : W .pkg = true) : x.Gives W fun _ => True := by
  cases x
  · exact .inl hpkg
  · trivial

end

section
variable {W : Part → Bool} {e : Env} {m₀ m m' : Mach} {q : SeqId} {k k' : Core} {s : Seq}

/-! ### Changes of the machine's own fields -/

theorem Kept.ids (h : Kept W e m₀ m) {n : Nat} : Kept W e m₀ { m with ids := n } :=
  h.trans (Mach.keeps_of_core (fun _ _ => rfl) (.refl _) rfl rfl rfl)

theorem Kept.fresh (h : Kept W e m₀ m) : Kept W e m₀ m.fresh.2 := h.ids

theorem Kept.notify (h : Kept W e m₀ m) {n : Notice} : Kept W e m₀ (m.notify n) :=
  h.trans (Mach.keeps_of_core (fun _ _ => rfl) (.refl _) rfl rfl rfl)

theorem Kept.bankError (h : Kept W e m₀ m) {die b : Nat} {uc cons : Bool} {i : ErrInfo} :
    Kept W e m₀ (m.bankError die b uc cons i) :=
  h.trans (Mach.keeps_of_core (fun _ _ => rfl) (.refl _) rfl rfl rfl)

theorem Kept.consume (h : Kept W e m₀ m) {die b : Nat} {i : ErrInfo} {ctx : BitVec 6} {cdie core seq : Nat} :
    Kept W e m₀ (m.consume die b i ctx cdie core seq) := h.bankError.notify

/-- A change of fields of the machine other than the cores. -/
theorem Kept.fields (h : Kept W e m₀ m) (hc : m'.cores = m.cores) (ho : m'.outside = m.outside)
    (hp : W .pkg = true ∨ m'.tables = m.tables) (hf : W .free = true ∨ m'.free = m.free)
    (ha : W .arrays = true ∨ m'.arrays = m.arrays) (hr : W .regions = true ∨ m'.regions = m.regions)
    (hch : W .channels = true ∨ m'.channels = m.channels) (hd : W .dram = true ∨ m'.dram = m.dram) : Kept W e m₀ m' := by
  have core (c : Nat) : m'.core c = m.core c := by simp [Mach.core, hc]
  have pick {b : Bool} {P : Prop} (hw : b = true ∨ P) (hb : b = false) : P := hw.resolve_left (by simp [hb])
  refine h.trans fun p hw => ?_
  cases p with
  | outside => exact ho
  | pkg => exact pick hp hw
  | free => exact pick hf hw
  | arrays => exact pick ha hw
  | regions => exact pick hr hw
  | channels => exact pick hch hw
  | dram => exact pick hd hw
  | cores => funext c; simp [Part.get, core]
  | core p => exact congrArg (p.get e.q) (core e.c)

/-- The package's tables changed alone. -/
theorem Kept.tables (h : Kept W e m₀ m) (hp : W .pkg = true)
    (hs : (m'.cores, m'.outside, m'.free, m'.arrays, m'.regions, m'.channels, m'.dram) =
      (m.cores, m.outside, m.free, m.arrays, m.regions, m.channels, m.dram)) : Kept W e m₀ m' := by
  simp only [Prod.mk.injEq] at hs
  obtain ⟨hc, ho, hf, ha, hr, hch, hd⟩ := hs
  exact h.fields hc ho (.inl hp) (.inr hf) (.inr ha) (.inr hr) (.inr hch) (.inr hd)

/-! ### Changes of the issuing core -/

theorem Kept.atCore (h : Kept W e m₀ m) {f : Core → Core} (hf : ∀ k : Core, k.Keeps W e.q (f k)) : Kept W e m₀ (m.onCore e.c f) :=
  h.trans (Kept.onCore (hf _))

/-- The issuing sequencer changed in what is none of its parts. -/
theorem Kept.atSeq (h : Kept W e m₀ m) {f : Seq → Seq} (hf : ∀ (p : SeqPart) (s : Seq), p.get (f s) = p.get s) :
    Kept W e m₀ (m.onSeq e.c e.q f) :=
  h.atCore fun _ => Core.keeps_onSeq fun p _ => hf p _

theorem SeqPart.get_setX (p : SeqPart) (s : Seq) {n : BitVec 4} {l : List (QSlot Word)} : p.get (s.setX n l) = p.get s := by
  cases p <;> rfl

theorem Core.keeps_popX {n : BitVec 4} : k.Keeps W q (k.popX q n) :=
  Core.keeps_onSeq fun p _ => p.get_setX _

/-- One field of a core changed. -/
theorem Core.keeps_field (p : CorePart) (hp : W (.core p) = true) (h : ∀ p', p' ≠ p → p'.get q k' = p'.get q k) : k.Keeps W q k' := by
  intro p' hp'
  refine h p' ?_
  rintro rfl
  simp [hp] at hp'

theorem Core.keeps_setV (hv : W (.core .vq) = true) {n : BitVec 4} {l : List (QSlot VEntry)} : k.Keeps W q (k.setV n l) :=
  Core.keeps_field .vq hv fun p hp => by
    cases p with
    | vq => exact absurd rfl hp
    | _ => rfl

theorem Core.keeps_ops (ho : W (.core .ops) = true) {l : List Op} : k.Keeps W q { k with ops := l } :=
  Core.keeps_field .ops ho fun p hp => by
    cases p with
    | ops => exact absurd rfl hp
    | _ => rfl

theorem Core.keeps_view (hv : W (.core .view) = true) {l : List Hold} : k.Keeps W q { k with view := l } :=
  Core.keeps_field .view hv fun p hp => by
    cases p with
    | view => exact absurd rfl hp
    | _ => rfl

theorem Core.keeps_later (hs : W (.core .state) = true) {l : List Later} : k.Keeps W q { k with later := l } :=
  Core.keeps_field .state hs fun p hp => by
    cases p with
    | state => exact absurd rfl hp
    | _ => rfl

theorem Core.keeps_objs (hs : W (.core .state) = true) {l : SMap CompObj} : k.Keeps W q { k with objs := l } :=
  Core.keeps_field .state hs fun p hp => by
    cases p with
    | state => exact absurd rfl hp
    | _ => rfl

/-! ### Operands -/

theorem Core.headX_gives {n : BitVec 4} : (k.headX q n).Gives W fun _ => True := by
  unfold Core.headX
  repeat' split
  all_goals simp

theorem Core.headV_gives {n : BitVec 4} : (k.headV n).Gives W fun _ => True := by
  unfold Core.headV
  repeat' split
  all_goals simp

theorem Core.maskReady_gives {n : Nat} : (k.maskReady n).Gives W fun _ => True := Chk.Gives.must rfl

theorem Env.src_kept (h : Kept W e m₀ m) {a : Src} : (e.src m a).Gives W fun r => Kept W e m₀ r.2 := by
  cases a with
  | pop n => exact .skip Core.headX_gives fun _ => h.atCore fun _ => Core.keeps_popX
  | peek n => exact .skip Core.headX_gives fun _ => h
  | lane => exact .inr rfl
  | _ => exact h

theorem Env.src2_kept (h : Kept W e m₀ m) {a b : Src} : (e.src2 m a b).Gives W fun r => Kept W e m₀ r.2.2 :=
  (Env.src_kept h).bind fun ⟨_, _⟩ h => (Env.src_kept h).bind fun ⟨_, _⟩ h => h

theorem Kept.popV (h : Kept W e m₀ m) (hv : W (.core .vq) = true) {n : BitVec 4} :
    Kept W e m₀ (m.onCore e.c fun k => k.popV n) := h.atCore fun _ => Core.keeps_setV hv

theorem Env.srcV_kept (h : Kept W e m₀ m) (hv : W (.core .vq) = true) {a : Src} :
    (e.srcV m a).Gives W fun r => Kept W e m₀ r.2 := by
  cases a with
  | pop n => exact .skip Core.headV_gives fun _ => h.popV hv
  | peek n => exact .skip Core.headV_gives fun _ => h
  | lane => exact h
  | _ => exact (Env.src_kept h).bind fun ⟨_, _⟩ h => h

theorem Env.third_kept (h : Kept W e m₀ m) (hv : W (.core .vq) = true) {n : BitVec 3} :
    (e.third m n).Gives W fun r => Kept W e m₀ r.2 := .skip Core.headV_gives fun _ => h.popV hv

/-! ### Results -/

theorem Env.reserveX_kept (h : Kept W e m₀ m) {n : BitVec 4} {en : Entry Word} :
    (e.reserveX m n en).Gives W fun r => Kept W e m₀ r.2 := by
  simp only [Env.reserveX]
  split
  · exact .inr rfl
  · exact (h.trans (Kept.setCore (Core.keeps_onSeq fun p _ => p.get_setX _))).ids

theorem Env.reserveV_kept (h : Kept W e m₀ m) (hv : W (.core .vq) = true) {n : BitVec 4} {en : Entry VEntry} :
    (e.reserveV m n en).Gives W fun r => Kept W e m₀ r.2 := by
  simp only [Env.reserveV]
  split
  · exact h
  split
  · exact .inr rfl
  split
  · split <;> exact .inr rfl
  · exact (h.trans (Kept.setCore (Core.keeps_setV hv))).ids

theorem Env.dst_kept (h : Kept W e m₀ m) {d : Dst} {en : Entry Word} : (e.dst m d en).Gives W fun r => Kept W e m₀ r.2 := by
  cases d with
  | queue n => exact (Env.reserveX_kept h).bind fun ⟨_, _⟩ h => h
  | mask k => exact .skip Core.maskReady_gives fun _ => h
  | _ => exact h

theorem Env.dstV_kept (h : Kept W e m₀ m) (hv : W (.core .vq) = true) {d : Dst} {en : Entry VEntry} :
    (e.dstV m d en).Gives W fun r => Kept W e m₀ r.2 := by
  cases d with
  | queue n => exact (Env.reserveV_kept h hv).bind fun ⟨_, _⟩ h => h
  | mask k => exact .skip Core.maskReady_gives fun _ => h
  | _ => exact h

theorem Kept.timed (h : Kept W e m₀ m) {latency : Nat} {l : Landing} {satur divz : Bool} :
    Kept W e m₀ (e.timed m latency l satur divz) := h.atSeq fun p _ => by cases p <;> rfl

theorem Kept.finishNow (h : Kept W e m₀ m) : Kept W e m₀ (e.finishNow m) := h.atCore fun _ => Core.keeps_postTokens

theorem Kept.block (h : Kept W e m₀ m) {o : Nat} : Kept W e m₀ (e.block o m) := h.atSeq fun p _ => by cases p <;> rfl

theorem Kept.start (h : Kept W e m₀ m) (ho : W (.core .ops) = true) {kind : OpKind} {dests : List Landing} {flags : BitVec 7}
    {fin : List Fin_} {load : Option LoadRef} : Kept W e m₀ (e.start m kind dests flags fin load).2 :=
  (h.atCore fun _ => Core.keeps_ops ho).ids

theorem Kept.startValues (h : Kept W e m₀ m) (ho : W (.core .ops) = true) {dests : List Landing} {flags : BitVec 7}
    {fin : List Fin_} : Kept W e m₀ (e.startValues m dests flags fin) := h.start ho

theorem Kept.later (h : Kept W e m₀ m) (hs : W (.core .state) = true) {l : Later} : Kept W e m₀ (e.later l m) :=
  h.atCore fun _ => Core.keeps_later hs

/-- Check 6 of R47. -/
theorem Env.tokens_kept (h : Kept W e m₀ m) : (e.tokens m).Gives W (Kept W e m₀) := by
  have pop (k : Core) (b down : Bool) : k.Keeps W e.q (if b then k.onSeq e.q fun s => s.tokPop down 1 else k) :=
    .ite (Core.keeps_onSeq fun p _ => by cases down <;> cases p <;> rfl) (.refl k)
  have push (k : Core) (b up : Bool) : k.Keeps W e.q (if b then k.tokReserve e.q up 1 else k) :=
    .ite Core.keeps_onPushQ (.refl k)
  unfold Env.tokens
  dsimp only
  split
  · exact .inr rfl
  · exact h.trans (Kept.setCore (((((pop _ _ _).trans (pop _ _ _)).trans (push _ _ _)).trans (push _ _ _))))

/-! ### Going on -/

/-- The loop test and the next offset change no part of a core, but what a clause remembers where one is open. -/
theorem Core.keeps_goTo (hc : W (.core .rows) = true ∨ k.clause = none) {pc : Offset} {delay : Nat} :
    k.Keeps W q (k.goTo q pc delay) := by
  simp only [Core.goTo]
  split
  next cl hcl _ =>
    have hw : W (.core .rows) = true := hc.resolve_right (by simp [hcl])
    refine Core.Keeps.trans (k' := { k with clause := some { cl with back := _ } }) (Core.keeps_field .rows hw fun p hp => ?_)
      (Core.keeps_onSeq fun p _ => by cases p <;> rfl)
    cases p with
    | rows => exact absurd rfl hp
    | _ => rfl
  · exact Core.keeps_onSeq fun p _ => by cases p <;> rfl

/-- Where no clause was open and clauses are kept, none is. -/
theorem Kept.clause (h : Kept W e m₀ m) (hc : W (.core .rows) = true ∨ (m₀.core e.c).clause = none) :
    W (.core .rows) = true ∨ (m.core e.c).clause = none := by
  cases hw : W (.core .rows) with
  | true => exact .inl rfl
  | false =>
    have same : ((m.core e.c).clause, (m.core e.c).aRows) = ((m₀.core e.c).clause, (m₀.core e.c).aRows) := h (.core .rows) hw
    exact .inr ((Prod.mk.inj same).1.trans (hc.resolve_left (by simp [hw])))

theorem Kept.jump (h : Kept W e m₀ m) (hc : W (.core .rows) = true ∨ (m₀.core e.c).clause = none) {pc : Offset} {delay : Nat} :
    Kept W e m₀ (e.jump pc delay m) := h.trans (Kept.onCore (Core.keeps_goTo (h.clause hc)))

theorem Kept.advance (h : Kept W e m₀ m) (hc : W (.core .rows) = true ∨ (m₀.core e.c).clause = none) {delay : Nat} :
    Kept W e m₀ (e.advance delay m) := h.jump hc

end
end Sys2Proof.Machine
end

