-- ==== Sys2Proof/Proofs/FrameHalts.lean ====
section
/-! SUPPORT for the statement about what instructions leave unchanged: what a halt changes, and the attempt of an instruction. -/

namespace Sys2Proof.Machine

/-! ### How an attempt ends -/

/-- A sequencer that has taken a trap: it is at its handler, or stopped. -/
def Seq.Trapped (s : Seq) : Prop := s.status.super = true ∧ (s.pc = 0x7C00 ∨ s.stopped = true)

/-- The parts that may be written, with the trap registers. -/
def withTrap (W : Part → Bool) : Part → Bool
  | .core (.seq .trap) => true
  | p => W p

/-- An attempt keeps what it may not write; but the trap registers where it takes a trap. -/
def Ends (W : Part → Bool) (e : Env) (m m' : Mach) : Prop :=
  Kept W e m m' ∨ (Kept (withTrap W) e m m' ∧ (m'.seq e.c e.q).Trapped)

/-- Clauses and the operations of them that a trap abandons may be written, or no clause is open. -/
def ClauseFree (W : Part → Bool) (e : Env) (m : Mach) : Prop :=
  (W (.core .rows) = true ∧ W (.core .ops) = true) ∨ (W (.core .rows) = false ∧ (m.core e.c).clause = none)

/-- The parts that results held back by a pre-emption write. -/
structure TakesBack (W : Part → Bool) : Prop where
  others : W (.core .others) = true
  settings : W (.core (.seq .settings)) = true
  trap : W (.core (.seq .trap)) = true
  undo : W (.core (.seq .undo)) = true
  vq : W (.core .vq) = true
  masks : W (.core .masks) = true

/-- When a pre-emption that takes the sequencer holds results back, what they write may be written. -/
def Unheld (W : Part → Bool) (e : Env) (m : Mach) : Prop :=
  TakesBack W ∨ (W (.core .fixed) = false ∧ (m.core e.c).preempting = false) ∨
    (W (.core (.seq .undo)) = false ∧ (m.seq e.c e.q).undo = [])

section
variable {W : Part → Bool} {e : Env} {m₀ m m' : Mach} {q : SeqId} {k k' : Core} {s : Seq}

theorem withTrap_le (p : Part) (hp : W p = true) : withTrap W p = true := by
  unfold withTrap
  split
  · rfl
  · exact hp

theorem ClauseFree.rows (h : ClauseFree W e m) : W (.core .rows) = true ∨ (m.core e.c).clause = none := h.imp And.left And.right

/-! ### Taking a trap -/

theorem Core.keeps_abandonClause (hc : (W (.core .rows) = true ∧ W (.core .ops) = true) ∨ k.clause = none) :
    k.Keeps W q k.abandonClause := by
  unfold Core.abandonClause
  split
  · exact .refl k
  next hn =>
    obtain ⟨hr, ho⟩ := hc.resolve_right fun h => hn (by simp [h])
    intro p hp
    cases p with
    | rows => simp [hr] at hp
    | ops => simp [ho] at hp
    | _ => rfl

/-- Taking a trap changes the trap registers, and no other part of what it may not write. -/
theorem takeTrap_kept (hc : ClauseFree W e m) {t : Trust} {code : Nat} {info : Word} {pc : Offset} :
    Kept (withTrap W) e m (takeTrap t e.c e.q code info pc m) := by
  have closed : (m.core e.c).Keeps (withTrap W) e.q (if e.q = .cmp then (m.core e.c).abandonClause else m.core e.c) :=
    .ite (Core.keeps_abandonClause (hc.imp_right And.right)) (.refl _)
  have settles {k : Core} {f : Seq → Seq} (hk : (m.core e.c).Keeps (withTrap W) e.q k)
      (hf : ∀ p, p ≠ SeqPart.trap → p.get (f (k.seq e.q)) = p.get ((m.core e.c).seq e.q)) :
      (m.core e.c).Keeps (withTrap W) e.q (k.onSeq e.q f) := by
    refine hk.trans (Core.keeps_onSeq fun p hp => ?_)
    have hp' : p ≠ .trap := by rintro rfl; exact absurd hp (by simp [withTrap])
    exact (hf p hp').trans (hk (.seq p) hp).symm
  unfold takeTrap
  dsimp only
  split
  · refine Kept.setCore (settles closed fun p hp => ?_)
    cases p with
    | trap => exact absurd rfl hp
    | _ => rfl
  · refine (Kept.setCore (settles closed fun p hp => ?_)).notify
    cases p with
    | trap => exact absurd rfl hp
    | _ => rfl

theorem Mach.seq_notify (m : Mach) (n : Notice) (c : Nat) (q : SeqId) : (m.notify n).seq c q = m.seq c q := rfl

theorem takeTrap_trapped {t : Trust} {c code : Nat} {info : Word} {pc : Offset} :
    ((takeTrap t c q code info pc m).seq c q).Trapped := by
  unfold takeTrap
  dsimp only
  split
  · simp [Mach.seq, Seq.Trapped]
  · rw [Mach.seq_notify]
    simp [Mach.seq, Seq.Trapped]

theorem takeTrap_ends (hc : ClauseFree W e m) {t : Trust} {code : Nat} {info : Word} {pc : Offset} :
    Ends W e m (takeTrap t e.c e.q code info pc m) := .inr ⟨takeTrap_kept hc, takeTrap_trapped⟩

theorem Kept.ends (h : Kept W e m m') : Ends W e m m' := .inl h

/-- What keeps the parts before or after a trap changes nothing about how the attempt ends. -/
theorem Ends.trans (h : Ends W e m₀ m) (h' : Kept W e m m') (ht : (m.seq e.c e.q).Trapped → (m'.seq e.c e.q).Trapped) :
    Ends W e m₀ m' := by
  obtain h | ⟨h, hm⟩ := h
  · exact .inl (h.trans h')
  · exact .inr ⟨h.trans (h'.mono withTrap_le), ht hm⟩

theorem Kept.trans_ends (h : Kept W e m₀ m) (h' : Ends W e m m') : Ends W e m₀ m' := by
  obtain h' | ⟨h', hm⟩ := h'
  · exact .inl (h.trans h')
  · exact .inr ⟨(h.mono withTrap_le).trans h', hm⟩

theorem Kept.clauseFree (h : Kept W e m₀ m) (hc : ClauseFree W e m₀) : ClauseFree W e m :=
  hc.imp_right fun ⟨hr, hn⟩ => ⟨hr, (h.clause (.inr hn)).resolve_left (by simp [hr])⟩

/-! ### Stalls -/

theorem watchdog_ends (hc : ClauseFree W e m) {t : Trust} : Ends W e m (watchdog t e.c e.q m) := by
  unfold watchdog
  dsimp only
  split
  · exact takeTrap_ends hc
  · exact (Kept.refl m).ends

theorem countStall_ends (hc : ClauseFree W e m) {t : Trust} {kind : Nat} : Ends W e m (countStall t e.c e.q kind m) := by
  have counted : Kept W e m (m.onSeq e.c e.q fun s => { s with wdCount := s.wdCount + 1, stall := kind, keyWait := none }) :=
    (Kept.refl m).atSeq fun p _ => by cases p <;> rfl
  exact counted.trans_ends (watchdog_ends (counted.clauseFree hc))

/-! ### Being taken -/

/-- A result that is held back again writes what it landed in: a queue, a register or a mask. -/
theorem Core.keeps_unland (ho : W (.core .others) = true) (hv : W (.core .vq) = true) (hm : W (.core .masks) = true)
    {r : Timed} {was : Landing} : k.Keeps W q (k.unland q r was) := by
  have other {r : SeqId} {f : Seq → Seq} (hf : ∀ (p : SeqPart) (s : Seq), p.get (f s) = p.get s) : k.Keeps W q (k.onSeq r f) := by
    intro p hp
    cases p with
    | seq p => exact Core.onSeq_keeps (g := p.get) (hf p) r q
    | others => simp [ho] at hp
    | _ => cases r <;> rfl
  have unposted (k : Core) (b up : Bool) (f : TokQ → TokQ) : k.Keeps W q (if b then k.onPushQ q up f else k) :=
    .ite Core.keeps_onPushQ (.refl k)
  unfold Core.unland
  refine Core.Keeps.trans (Core.Keeps.trans ?_ (unposted _ _ _ _)) (unposted _ _ _ _)
  cases was with
  | x s n slot v => exact other fun p _ => p.get_setX _
  | v n slot v => exact Core.keeps_setV hv
  | loop s n v => exact other fun p _ => by cases p <;> rfl
  | mask n v w =>
    refine Core.keeps_field .masks hm fun p hp => ?_
    cases p with
    | masks => exact absurd rfl hp
    | _ => rfl
  | none => exact .refl k

theorem Core.keeps_take (h : TakesBack W ∨ (k.seq q).undo = []) : k.Keeps W q (k.take q) := by
  have taken : k.Keeps W q (k.onSeq q Seq.take) := Core.keeps_onSeq fun p _ => by cases p <;> rfl
  unfold Core.take
  dsimp only
  obtain hw | hu := h
  · have unlanded (l : List (Timed × Landing)) : k.Keeps W q (l.foldr (fun x k => k.unland q x.1 x.2) (k.onSeq q Seq.take)) :=
      List.foldrRecOn (motive := fun k' => k.Keeps W q k') l _ taken fun k' hk x _ =>
        hk.trans (Core.keeps_unland hw.others hw.vq hw.masks)
    refine .ite (unlanded _) ((unlanded _).trans (Core.keeps_onSeq fun p hp => ?_))
    cases p with
    | settings => simp [hw.settings] at hp
    | trap => simp [hw.trap] at hp
    | undo => simp [hw.undo] at hp
    | _ => rfl
  · have none : ((k.onSeq q Seq.take).seq q).undo = [] := by simp [Seq.take, hu]
    simp only [none, List.filter_nil, List.foldr_nil, List.isEmpty_nil, if_true]
    exact taken

theorem Unheld.take (h : Unheld W e m) (hp : (m.core e.c).preempting = true) :
    Kept W e m (m.setCore e.c ((m.core e.c).take e.q)) :=
  Kept.setCore (Core.keeps_take (h.imp_right fun h => (h.resolve_left fun hn => by simp [hp] at hn).2))

theorem Kept.unheld (h : Kept W e m₀ m) (hu : Unheld W e m₀) : Unheld W e m := by
  refine hu.imp_right (Or.imp (fun ⟨hw, hp⟩ => ⟨hw, ?_⟩) fun ⟨hw, hn⟩ => ⟨hw, ?_⟩)
  · exact (h.core.preempting hw).trans hp
  · exact (h (.core (.seq .undo)) hw).trans hn

/-- A sequencer that waits while a pre-emption is pending is taken, or nothing is changed by that. -/
theorem takeWaiting_ends (hu : Unheld W e m) (h : Ends W e m m') : Ends W e m ((m.takeWaiting e.c e.q).getD m') := by
  unfold Mach.takeWaiting
  dsimp only
  split
  next hp => exact (hu.take (Bool.and_eq_true_iff.1 hp).1).ends
  · exact h

/-! ### Halts -/

theorem waitAtRack_ends (hc : ClauseFree W e m) {t : Trust} {rid : Nat} {ask : KeyAsk} :
    Ends W e m (waitAtRack t e.c e.q rid ask m) := by
  have numbered {n : Nat} : Kept W e m { m with ids := n } := (Kept.refl m).ids
  refine (numbered.trans_ends (countStall_ends (numbered.clauseFree hc))).trans
    ((Kept.refl _).atSeq fun p _ => by cases p <;> rfl) fun h => ?_
  simp only [waitAtRack, Mach.onSeq_seq]
  exact h

theorem Kept.onCollective (h : Kept W e m₀ m) (hp : W .pkg = true) {g : Nat} {f : Collective → Collective} :
    Kept W e m₀ (m.onCollective g f) := by
  unfold Mach.onCollective
  split
  · exact h
  · exact h.tables hp rfl

theorem clrdBegins_kept (h : Kept W e m₀ m) (hp : W .pkg = true) {p : BitVec 10} {g : Nat} {c : BitVec 32} :
    Kept W e m₀ (m.clrdBegins p g c) := by
  unfold Mach.clrdBegins
  split
  · exact h
  split
  · exact h
  · exact (h.onCollective hp).tables hp rfl

/-- What a halted attempt leaves (R73). -/
theorem Env.halt_ends {h : Halt} (hh : W .pkg = true ∨ h.plain = true) (hc : ClauseFree W e m) (hu : Unheld W e m) :
    Ends W e m (e.halt h m) := by
  have lost {d b : Nat} {i : ErrInfo} : Ends W e m (e.lose d b i m) := by
    have stopped : Kept W e m (m.onSeq e.c e.q fun s => { s with stopped := true }) :=
      (Kept.refl m).atSeq fun p _ => by cases p <;> rfl
    exact stopped.consume.ends
  cases h with
  | trap code info => exact takeTrap_ends hc
  | answered code info left =>
    have hp : W .pkg = true := hh.resolve_right (by simp [Halt.plain])
    have used : Kept W e m { m with inbox := left } := (Kept.refl m).tables hp rfl
    exact used.trans_ends (takeTrap_ends (used.clauseFree hc))
  | stall kind => exact takeWaiting_ends hu (countStall_ends hc)
  | wait => exact takeWaiting_ends hu (Kept.refl m).ends
  | waitOut => exact ((Kept.refl m).atSeq fun p _ => by cases p <;> rfl).ends
  | rack rid ask => exact takeWaiting_ends hu (waitAtRack_ends hc)
  | chunk g n =>
    have hp : W .pkg = true := hh.resolve_right (by simp [Halt.plain])
    have begun : Kept W e m (m.clrdBegins e.trust.package g n) := clrdBegins_kept (Kept.refl m) hp
    exact takeWaiting_ends hu (begun.trans_ends (countStall_ends (begun.clauseFree hc)))
  | lost die b i => exact lost
  | slot vec n => exact lost

/-! ### Attempts -/

section
variable {s t : State} {i : Instr} {body : Env → Mach → Chk Mach}

theorem Env.checks_gives : (e.checks m i).Gives W fun _ => True := by
  unfold Env.checks
  exact .skip (.must rfl) fun _ => .skip (.must rfl) fun _ => .skip (.must rfl) fun _ => .skip (.must rfl) fun _ =>
    .skip (.must rfl) fun _ => .must rfl

/-- An attempt keeps what its body keeps and a halt keeps (R47, R73). -/
theorem attemptAt_ends (hc : ClauseFree W e s.mach) (hu : Unheld W e s.mach)
    (hb : ∀ m, Kept W e s.mach m → (body e m).Gives W (Ends W e s.mach)) (hs : attemptAt e i body s = .next t) :
    Ends W e s.mach t.mach := by
  simp only [attemptAt] at hs
  have gives : Chk.Gives W (Ends W e s.mach) (do
      e.checks s.mach i
      let m ← e.tokens s.mach
      must (decide (e.q ≠ .cmp) || (m.core e.c).clause.isNone || i.clauseOk) (e.trapWord tClause)
      body e m) :=
    .skip Env.checks_gives fun _ => (Env.tokens_kept (Kept.refl _)).bind fun m hm => .skip (.must rfl) fun _ => hb m hm
  split at hs
  next m hm =>
    cases hs
    rw [hm] at gives
    exact gives
  next h hh =>
    cases hs
    rw [hh] at gives
    exact Env.halt_ends gives hc hu

theorem attempt_ends (hc : ClauseFree W (envOf s i) s.mach) (hu : Unheld W (envOf s i) s.mach)
    (hb : ∀ m, Kept W (envOf s i) s.mach m → (body (envOf s i) m).Gives W (Kept W (envOf s i) s.mach))
    (hs : attempt i body s = .next t) : Ends W (envOf s i) s.mach t.mach :=
  attemptAt_ends hc hu (fun m hm => (hb m hm).imp fun _ => Kept.ends) hs

end
end
end Sys2Proof.Machine
end

