-- ==== Sys2Proof/Proofs/FrameCompute.lean ====
section
/-! SUPPORT for the statement about what instructions leave unchanged: the integer, control, vector and function instructions. -/

namespace Sys2Proof.Machine

section
variable {W : Part → Bool} {e : Env} {m₀ m : Mach} {k : Core}

/-! ### Integer instructions -/

theorem timed2_kept (h : Kept W e m₀ m) {d : Dst} {a b : Src} {latency : Nat} {f : Word → Word → IntRes} :
    (timed2 d a b latency f e m).Gives W (Kept W e m₀) :=
  (Env.src2_kept h).bind fun ⟨_, _, _⟩ h => (Env.dst_kept h).bind fun ⟨_, _⟩ h => h.timed

theorem timed1_kept (h : Kept W e m₀ m) {d : Dst} {a : Src} {latency : Nat} {f : Word → Word} :
    (timed1 d a latency f e m).Gives W (Kept W e m₀) :=
  (Env.src_kept h).bind fun ⟨_, _⟩ h => (Env.dst_kept h).bind fun ⟨_, _⟩ h => h.timed

theorem selBody_kept (h : Kept W e m₀ m) {d : Dst} {z : Bool} {q : BitVec 3} {a b : Src} :
    (selBody d z q a b e m).Gives W (Kept W e m₀) :=
  (Env.src2_kept h).bind fun ⟨_, _, _⟩ h => (Env.src_kept h).bind fun ⟨_, _⟩ h => (Env.dst_kept h).bind fun ⟨_, _⟩ h => h.timed

/-! ### Control -/

theorem Env.ctlResult_kept (h : Kept W e m₀ m) {d : Dst} {latency : Nat} {v : Word} :
    (e.ctlResult m d latency v).Gives W (Kept W e m₀) := (Env.dst_kept h).bind fun ⟨_, _⟩ h => h.timed

section
variable (hc : W (.core .rows) = true ∨ (m₀.core e.c).clause = none)
include hc

theorem Env.branch_kept (h : Kept W e m₀ m) {taken : Bool} {disp : BitVec 16} : Kept W e m₀ (e.branch taken disp m) :=
  .ite (h.finishNow.jump hc) (h.finishNow.advance hc)

theorem brcBody_kept (h : Kept W e m₀ m) {whenZero : Bool} {q : BitVec 4} {p : BitVec 16} :
    (brcBody whenZero q p e m).Gives W (Kept W e m₀) := (Env.src_kept h).bind fun ⟨_, _⟩ h => Env.branch_kept hc h

theorem callBody_kept (h : Kept W e m₀ m) {q : BitVec 4} {p : BitVec 16} : (callBody q p e m).Gives W (Kept W e m₀) :=
  (Env.dst_kept h).bind fun ⟨_, _⟩ h => h.timed.jump hc

theorem retBody_kept (h : Kept W e m₀ m) {a : Src} : (retBody a e m).Gives W (Kept W e m₀) :=
  (Env.src_kept h).bind fun ⟨_, _⟩ h => .skip (.must rfl) fun _ => h.finishNow.jump hc

theorem loopBody_kept (h : Kept W e m₀ m) {k : BitVec 3} {p : BitVec 16} : (loopBody k p e m).Gives W (Kept W e m₀) := by
  refine .skip (.must rfl) fun _ => .skip (.must rfl) fun _ => ?_
  dsimp only
  split
  · exact h.finishNow.jump hc
  · exact Kept.jump (h.finishNow.atSeq fun p _ => by cases p <;> rfl) hc

theorem lbrkBody_kept (h : Kept W e m₀ m) {a : Src} {n : BitVec 3} : (lbrkBody a n e m).Gives W (Kept W e m₀) := by
  refine (Env.src_kept h).bind fun ⟨_, _⟩ h => ?_
  dsimp only
  split
  · exact h.finishNow.advance hc
  split
  · exact .inr rfl
  · exact Kept.jump (h.finishNow.atSeq fun p _ => by cases p <;> rfl) hc

theorem clhBody_kept (h : Kept W e m₀ m) {a : Src} {abs : Bool} : (clhBody a abs e m).Gives W (Kept W e m₀) := by
  refine (Env.src_kept h).bind fun ⟨_, _⟩ h => ?_
  dsimp only
  split
  · exact (h.finishNow.advance hc).atSeq fun p _ => by cases p <;> rfl
  · exact (h.finishNow.advance hc).atSeq fun p _ => by cases p <;> rfl

theorem sleepBody_kept (h : Kept W e m₀ m) {a : Src} : (sleepBody a e m).Gives W (Kept W e m₀) :=
  (Env.src_kept h).bind fun ⟨_, _⟩ h => (h.finishNow.advance hc).atSeq fun p _ => by cases p <;> rfl

end

theorem Kept.tokPop (h : Kept W e m₀ m) {down : Bool} {n : Nat} : Kept W e m₀ (m.onSeq e.c e.q fun s => s.tokPop down n) :=
  h.atSeq fun p _ => by cases down <;> cases p <;> rfl

theorem tkwBody_kept (h : Kept W e m₀ m) {a : Src} {chk down : Bool} : (tkwBody a chk down e m).Gives W (Kept W e m₀) :=
  (Env.src_kept h).bind fun ⟨_, _⟩ h => .skip (.must rfl) fun _ => Kept.finishNow (.ite h h.tokPop)

theorem tksBody_kept (h : Kept W e m₀ m) {a : Src} {down : Bool} : (tksBody a down e m).Gives W (Kept W e m₀) :=
  (Env.src_kept h).bind fun ⟨_, _⟩ h => .skip (.must rfl) fun _ =>
    Kept.finishNow (h.atCore fun _ => Core.keeps_onPushQ.trans Core.keeps_onPushQ)

theorem dropCheck_gives {α : Type} {x : Chk α} (hx : x.Gives W fun _ => True) : (dropCheck x).Gives W fun _ => True := by
  unfold dropCheck
  split
  · trivial
  · trivial
  · exact hx

theorem qopDropBody_kept (h : Kept W e m₀ m) (hv : W (.core .vq) = true) {s : QSel} :
    (qopDropBody s e m).Gives W (Kept W e m₀) := by
  unfold qopDropBody
  split
  · exact .skip (dropCheck_gives Core.headV_gives) fun _ => (h.popV hv).finishNow
  · exact .skip (dropCheck_gives Core.headX_gives) fun _ => (h.atCore fun _ => Core.keeps_popX).finishNow

theorem qopClrBody_kept (h : Kept W e m₀ m) (hv : W (.core .vq) = true) {s : QSel} :
    (qopClrBody s e m).Gives W (Kept W e m₀) := by
  have cleared : (m.core e.c).Keeps W e.q
      (if s.vec then (m.core e.c).setV s.q [] else (m.core e.c).onSeq e.q fun x => x.setX s.q []) :=
    .ite (Core.keeps_setV hv) (Core.keeps_onSeq fun p _ => p.get_setX _)
  exact .skip (.must rfl) fun _ => .skip (.must rfl) fun _ => (h.trans (Kept.setCore cleared)).finishNow

theorem exitBody_kept (h : Kept W e m₀ m) (hg : W (.core .group) = true) (hx : W (.core (.seq .exited)) = true) :
    (exitBody e m).Gives W (Kept W e m₀) := by
  have drained (k : Core) : k.Keeps W e.q k.groupExit := by
    refine .ite (Core.keeps_field .group hg fun p hp => ?_) (.refl k)
    cases p with
    | group => exact absurd rfl hp
    | fixed =>
      have pending : Core.preempting { k with group := k.group.map fun g => { g with draining := true } } = k.preempting := by
        unfold Core.preempting
        cases k.group <;> rfl
      exact congrArg (fun b => (k.column, k.cycles, k.active, k.shadow, k.failed, k.ended, b)) pending
    | _ => rfl
  refine h.finishNow.atCore fun k => Core.Keeps.trans (Core.keeps_onSeq fun p hp => ?_) (drained _)
  cases p with
  | exited => simp [hx] at hp
  | _ => rfl

theorem yieldBody_kept (h : Kept W e m₀ m) (hc : W (.core .rows) = true ∨ (m₀.core e.c).clause = none) (hu : Unheld W e m₀) :
    (yieldBody e m).Gives W (Kept W e m₀) := by
  have went : Kept W e m₀ (e.advance 1 (e.finishNow m)) := h.finishNow.advance hc
  unfold yieldBody
  dsimp only
  split
  next hp => exact went.trans ((went.unheld hu).take hp)
  · exact went

/-! ### Vector operands and results -/

theorem needKind_gives {ok : Kind → Bool} {t : Fmt} : (needKind ok t).Gives W fun _ => True := .must rfl

theorem needInt_gives {t : Fmt} : (needInt t).Gives W fun _ => True := .must rfl

theorem needSame_gives {t : Fmt} {l : List VOp} : (needSame t l).Gives W fun _ => True := by
  induction l with
  | nil => trivial
  | cons x r ih =>
    unfold needSame
    split
    · exact ih
    · exact .inr rfl

theorem Env.needFmt_gives {b : Bool} : (e.needFmt b).Gives W fun _ => True := .must rfl

theorem Env.arithType_gives {l : List VOp} {mode : Rnd} : (e.arithType l mode).Gives W fun _ => True :=
  .skip needKind_gives fun _ => .skip needSame_gives fun _ => .skip Env.needFmt_gives fun _ => trivial

theorem Env.redType_gives {f : RedOp} {x : VOp} : (e.redType f x).Gives W fun _ => True :=
  .skip needKind_gives fun _ => .skip Env.needFmt_gives fun _ => trivial

theorem Env.maskSrc_gives {n : BitVec 3} : (e.maskSrc m n).Gives W fun _ => True := .skip Core.maskReady_gives fun _ => trivial

/-- What a vector instruction may write. -/
structure Vectorial (W : Part → Bool) : Prop where
  vq : W (.core .vq) = true
  masks : W (.core .masks) = true
  ops : W (.core .ops) = true
  replay : W (.core .replay) = true
  step : W (.core .step) = true
  free : W .free = true

section
variable (hW : Vectorial W)
include hW

theorem Env.srcV2_kept (h : Kept W e m₀ m) {a b : Src} : (e.srcV2 m a b).Gives W fun r => Kept W e m₀ r.2 :=
  (Env.srcV_kept h hW.vq).bind fun ⟨_, _⟩ h => (Env.srcV_kept h hW.vq).bind fun ⟨_, _⟩ h => h

theorem Env.srcV3_kept (h : Kept W e m₀ m) {a b : Src} {q : BitVec 3} : (e.srcV3 m a b q).Gives W fun r => Kept W e m₀ r.2 :=
  (Env.srcV2_kept hW h).bind fun ⟨_, _⟩ h => (Env.third_kept h hW.vq).bind fun ⟨_, _⟩ h => h

theorem Kept.chosen (h : Kept W e m₀ m) {n : Nat} : Kept W e m₀ { m with free := n } :=
  h.fields rfl rfl (.inr rfl) (.inl hW.free) (.inr rfl) (.inr rfl) (.inr rfl) (.inr rfl)

theorem Kept.vland (h : Kept W e m₀ m) {l : Landing} {v : VEntry} : Kept W e m₀ (m.vland l v).2 := by
  cases l with
  | loop => exact h.chosen hW
  | _ => exact h

theorem Env.dstVs_kept (h : Kept W e m₀ m) {d : Dst} {vs : List VEntry} : (e.dstVs d vs m).Gives W fun r => Kept W e m₀ r.2 := by
  induction vs generalizing m with
  | nil => exact h
  | cons v r ih => exact (Env.dstV_kept h hW.vq).bind fun ⟨_, _⟩ h => (ih (h.vland hW)).bind fun ⟨_, _⟩ h => h

theorem Kept.replayFor (h : Kept W e m₀ m) {n : Nat} : Kept W e m₀ (m.onCore e.c fun k => k.replayFor n) := by
  refine h.atCore fun k => .ite (.refl k) (Core.keeps_field .replay hW.replay fun p hp => ?_)
  cases p with
  | replay => exact absurd rfl hp
  | _ => rfl

theorem Env.vres_kept (h : Kept W e m₀ m) {d : Dst} {r : VRes} : (e.vres m d r).Gives W (Kept W e m₀) :=
  (Env.dstVs_kept hW h).bind fun ⟨_, _⟩ h => (h.startValues hW.ops).replayFor hW

theorem Env.maskRes_kept (h : Kept W e m₀ m) {k : Fin 7} {bits : MaskBits} {flags : BitVec 7} :
    (e.maskRes m k bits flags).Gives W (Kept W e m₀) := by
  refine .skip Core.maskReady_gives fun _ => Kept.startValues (h.atCore fun c => Core.keeps_field .masks hW.masks fun p hp => ?_) hW.ops
  cases p with
  | masks => exact absurd rfl hp
  | _ => rfl

theorem Env.maskTo_kept (h : Kept W e m₀ m) {d : Dst} {bits : MaskBits} : (e.maskTo m d bits).Gives W (Kept W e m₀) := by
  unfold Env.maskTo
  split
  · exact Env.maskRes_kept hW h
  · exact .inr rfl

theorem Env.heads_kept (h : Kept W e m₀ m) {n : BitVec 4} {k : Nat} : (e.heads n k m).Gives W fun r => Kept W e m₀ r.2 := by
  induction k generalizing m with
  | zero => exact h
  | succ k ih => exact .skip Core.headV_gives fun _ => (ih (h.popV hW.vq)).bind fun ⟨_, _⟩ h => h

theorem Kept.orUntyped (h : Kept W e m₀ m) {t : Fmt} {v : Option Nat} : Kept W e m₀ (m.orUntyped t v).2 := by
  cases v with
  | none => exact h.chosen hW
  | some x => exact h

theorem Kept.draws (h : Kept W e m₀ m) {drawing : Bool} : Kept W e m₀ (e.draws drawing m).2 := by
  cases drawing
  · exact h
  · refine h.trans (Kept.setCore (Core.keeps_field .step hW.step fun p hp => ?_))
    cases p with
    | step => exact absurd rfl hp
    | _ => rfl

/-! ### Vector instructions -/

theorem arithBody_kept (h : Kept W e m₀ m) {op : ArithOp} {d : Dst} {sat : Bool} {mode : Rnd} {a b : Src} :
    (arithBody op d sat mode a b e m).Gives W (Kept W e m₀) :=
  (Env.srcV2_kept hW h).bind fun ⟨_, _⟩ h => .skip Env.arithType_gives fun _ => Env.vres_kept hW h

theorem vfmaBody_kept (h : Kept W e m₀ m) {d : Dst} {neg : Bool} {q : BitVec 3} {a b : Src} :
    (vfmaBody d neg q a b e m).Gives W (Kept W e m₀) :=
  (Env.srcV3_kept hW h).bind fun ⟨_, _⟩ h => .skip Env.arithType_gives fun _ => Env.vres_kept hW h

theorem vmnxBody_kept (h : Kept W e m₀ m) {d : Dst} {f : MnxOp} {a b : Src} : (vmnxBody d f a b e m).Gives W (Kept W e m₀) :=
  (Env.srcV2_kept hW h).bind fun ⟨_, _⟩ h => .skip needKind_gives fun _ => .skip needSame_gives fun _ => Env.vres_kept hW h

theorem vcmpBody_kept (h : Kept W e m₀ m) {d : Dst} {sig : Bool} {c : VcmpOp} {a b : Src} :
    (vcmpBody d sig c a b e m).Gives W (Kept W e m₀) := by
  refine (Env.srcV2_kept hW h).bind fun ⟨_, _⟩ h => .skip needKind_gives fun _ => .skip needSame_gives fun _ => ?_
  dsimp only
  split
  · exact Env.maskRes_kept hW h
  · exact Env.vres_kept hW h

theorem vselBody_kept (h : Kept W e m₀ m) {d : Dst} {inv : Bool} {k : BitVec 3} {a b : Src} :
    (vselBody d inv k a b e m).Gives W (Kept W e m₀) :=
  (Env.srcV2_kept hW h).bind fun ⟨_, _⟩ h => .skip Core.maskReady_gives fun _ => .skip needSame_gives fun _ =>
    Env.vres_kept hW (h.orUntyped hW)

theorem vlogBody_kept (h : Kept W e m₀ m) {d : Dst} {f : VlogOp} {a b : Src} : (vlogBody d f a b e m).Gives W (Kept W e m₀) := by
  unfold vlogBody
  dsimp only
  split
  · exact (Env.srcV_kept h hW.vq).bind fun ⟨_, _⟩ h => .given <| .skip needSame_gives fun _ =>
      Env.vres_kept hW (h.orUntyped hW)
  · exact (Env.srcV2_kept hW h).bind fun ⟨_, _⟩ h => .skip needSame_gives fun _ => Env.vres_kept hW (h.orUntyped hW)

theorem vshfBody_kept (h : Kept W e m₀ m) {d : Dst} {f : ShiftOp} {a b : Src} : (vshfBody d f a b e m).Gives W (Kept W e m₀) :=
  (Env.srcV2_kept hW h).bind fun ⟨_, _⟩ h => .skip needInt_gives fun _ => .skip (.must rfl) fun _ => Env.vres_kept hW h

theorem vprm2Body_kept (h : Kept W e m₀ m) {d : Dst} {f : VprmOp} {a b : Src} : (vprm2Body d f a b e m).Gives W (Kept W e m₀) := by
  refine (Env.srcV2_kept hW h).bind fun ⟨_, _⟩ h => .skip needKind_gives fun _ => ?_
  dsimp only
  split
  · exact .skip needSame_gives fun _ => .skip (.must rfl) fun _ => .skip Env.needFmt_gives fun _ => Env.vres_kept hW h
  · exact .skip needSame_gives fun _ => Env.vres_kept hW h

theorem vprm1Body_kept (h : Kept W e m₀ m) {d : Dst} {f : VprmOp} {a b : Src} : (vprm1Body d f a b e m).Gives W (Kept W e m₀) := by
  refine (Env.srcV_kept h hW.vq).bind fun ⟨_, _⟩ h => ?_
  dsimp only
  split
  · exact (Env.src_kept h).bind fun ⟨_, _⟩ h => .skip needKind_gives fun _ => Env.vres_kept hW h
  · exact .given <| .skip needKind_gives fun _ => Env.vres_kept hW h

theorem vbrdBody_kept (h : Kept W e m₀ m) {d : Dst} {x : VbrdForm} : (vbrdBody d x e m).Gives W (Kept W e m₀) := by
  cases x with
  | e a b =>
    exact (Env.srcV_kept h hW.vq).bind fun ⟨_, _⟩ h => (Env.src_kept h).bind fun ⟨_, _⟩ h => .skip needKind_gives fun _ =>
      Env.vres_kept hW h
  | x a f => exact (Env.src_kept h).bind fun ⟨_, _⟩ h => .skip Env.needFmt_gives fun _ => Env.vres_kept hW h

theorem vlaneBody_kept (h : Kept W e m₀ m) {d : Dst} {a b : Src} : (vlaneBody d a b e m).Gives W (Kept W e m₀) :=
  (Env.srcV_kept h hW.vq).bind fun ⟨_, _⟩ h => (Env.src_kept h).bind fun ⟨_, _⟩ h => .skip needKind_gives fun _ =>
    (Env.dst_kept h).bind fun ⟨_, _⟩ h => h.startValues hW.ops

theorem vwidBody_kept (h : Kept W e m₀ m) {d : Dst} {g : Fmt} {a : Src} : (vwidBody d g a e m).Gives W (Kept W e m₀) :=
  (Env.srcV_kept h hW.vq).bind fun ⟨_, _⟩ h => .skip needInt_gives fun _ => .skip Env.needFmt_gives fun _ => Env.vres_kept hW h

theorem vnarBody_kept (h : Kept W e m₀ m) {d : Dst} {sat : Bool} {g : Fmt} {a : Src} :
    (vnarBody d sat g a e m).Gives W (Kept W e m₀) :=
  .skip Core.headV_gives fun _ => (Env.heads_kept hW h).bind fun ⟨_, _⟩ h => .skip needInt_gives fun _ =>
    .skip needSame_gives fun _ => .skip Env.needFmt_gives fun _ => Env.vres_kept hW h

theorem vredBody_kept (h : Kept W e m₀ m) {d : Dst} {f : RedOp} {a b : Src} : (vredBody d f a b e m).Gives W (Kept W e m₀) :=
  (Env.srcV_kept h hW.vq).bind fun ⟨_, _⟩ h => (Env.src_kept h).bind fun ⟨_, _⟩ h => .skip Env.redType_gives fun _ =>
    Env.vres_kept hW h

theorem vscnBody_kept (h : Kept W e m₀ m) {d : Dst} {ex : Bool} {f : RedOp} {a : Src} :
    (vscnBody d ex f a e m).Gives W (Kept W e m₀) :=
  (Env.srcV_kept h hW.vq).bind fun ⟨_, _⟩ h => .skip Env.redType_gives fun _ => Env.vres_kept hW h

theorem vdotBody_kept (h : Kept W e m₀ m) {d : Dst} {neg : Bool} {q : BitVec 3} {a b : Src} :
    (vdotBody d neg q a b e m).Gives W (Kept W e m₀) := by
  refine (Env.srcV3_kept hW h).bind fun ⟨_, _⟩ h => .skip needKind_gives fun _ => .skip needSame_gives fun _ => ?_
  dsimp only
  split
  · exact .inr rfl
  · exact .skip (.must rfl) fun _ => Env.vres_kept hW h

theorem specialBody_kept (h : Kept W e m₀ m) {d : Dst} {op : Special} {a : Src} :
    (specialBody d op a e m).Gives W (Kept W e m₀) := by
  refine (Env.srcV_kept h hW.vq).bind fun ⟨_, _⟩ h => .skip needKind_gives fun _ => ?_
  dsimp only
  split
  · exact .inr rfl
  · exact Env.vres_kept hW h

theorem smxsBody_kept (h : Kept W e m₀ m) {d : Dst} {lg : BitVec 2} {a b : Src} :
    (smxsBody d lg a b e m).Gives W (Kept W e m₀) :=
  (Env.srcV2_kept hW h).bind fun ⟨_, _⟩ h => .skip needKind_gives fun _ => .skip needSame_gives fun _ =>
    .skip Env.needFmt_gives fun _ => Env.vres_kept hW h

theorem vmskBody_kept (h : Kept W e m₀ m) {d : Dst} {f : VmskForm} : (vmskBody d f e m).Gives W (Kept W e m₀) := by
  unfold vmskBody
  split
  · exact .skip Env.maskSrc_gives fun _ => .skip Env.maskSrc_gives fun _ => Env.maskTo_kept hW h
  · exact .skip Env.maskSrc_gives fun _ => (Env.dst_kept h).bind fun ⟨_, _⟩ h => h.startValues hW.ops
  · exact .skip Env.maskSrc_gives fun _ => (Env.dst_kept h).bind fun ⟨_, _⟩ h => h.startValues hW.ops
  · exact .skip Env.maskSrc_gives fun _ => Env.maskTo_kept hW h
  · exact (Env.srcV_kept h hW.vq).bind fun ⟨_, _⟩ h => .skip needKind_gives fun _ => Env.maskTo_kept hW h

/-! ### Function instructions -/

theorem cvtBody_kept (h : Kept W e m₀ m) {d : Dst} {sat : Bool} {mode : Rnd} {g : Fmt} {a : Src} :
    (cvtBody d sat mode g a e m).Gives W (Kept W e m₀) := by
  refine .skip Core.headV_gives fun _ => (Env.heads_kept hW h).bind fun ⟨_, popped⟩ hp => .skip needSame_gives fun _ =>
    .skip Env.needFmt_gives fun _ => ?_
  have drawn {b draw : Bool} : Kept W e m₀ (e.draws draw (if b then m else popped)).2 := (Kept.ite h hp).draws hW
  dsimp only
  split
  · exact Env.vres_kept hW drawn
  · exact Env.vres_kept hW drawn
  · exact .inr rfl

theorem mxqBody_kept (h : Kept W e m₀ m) {d : Dst} {mode : Rnd} {g : Fmt} {a : Src} :
    (mxqBody d mode g a e m).Gives W (Kept W e m₀) := by
  refine .skip Core.headV_gives fun _ => (Env.heads_kept hW h).bind fun ⟨_, _⟩ h => .skip needKind_gives fun _ =>
    .skip needSame_gives fun _ => .skip Env.needFmt_gives fun _ => ?_
  dsimp only
  split
  · exact .inr rfl
  · exact (Env.dstV_kept (h.draws hW) hW.vq).bind fun ⟨_, _⟩ h => (Env.dstV_kept h hW.vq).bind fun ⟨_, _⟩ h =>
      (h.startValues hW.ops).replayFor hW

theorem mxxBody_kept (h : Kept W e m₀ m) {d : Dst} {g : Fmt} {a b : Src} : (mxxBody d g a b e m).Gives W (Kept W e m₀) :=
  (Env.srcV2_kept hW h).bind fun ⟨_, _⟩ h => .skip (.must rfl) fun _ => .skip (.must rfl) fun _ =>
    .skip Env.needFmt_gives fun _ => Env.vres_kept hW h

theorem fscBody_kept (h : Kept W e m₀ m) {d : Dst} {mode : Rnd} {a b : Src} : (fscBody d mode a b e m).Gives W (Kept W e m₀) := by
  refine (Env.srcV2_kept hW h).bind fun ⟨_, _⟩ h => .skip needKind_gives fun _ => ?_
  dsimp only
  split
  · exact .skip (.must rfl) fun _ => .skip Env.needFmt_gives fun _ => Env.vres_kept hW (h.draws hW)
  · exact .given <| .skip Env.needFmt_gives fun _ => Env.vres_kept hW (h.draws hW)

theorem fxpBody_kept (h : Kept W e m₀ m) {d : Dst} {a : Src} : (fxpBody d a e m).Gives W (Kept W e m₀) :=
  (Env.srcV_kept h hW.vq).bind fun ⟨_, _⟩ h => .skip needKind_gives fun _ => Env.vres_kept hW h

theorem fclsBody_kept (h : Kept W e m₀ m) {d : Dst} {a : Src} : (fclsBody d a e m).Gives W (Kept W e m₀) :=
  (Env.srcV_kept h hW.vq).bind fun ⟨_, _⟩ h => .skip needKind_gives fun _ => Env.vres_kept hW h

theorem srsdSetBody_kept (h : Kept W e m₀ m) (hs : W (.core .seed) = true) {a b : Src} :
    (srsdSetBody a b e m).Gives W (Kept W e m₀) := by
  refine (Env.src2_kept h).bind fun ⟨_, _, _⟩ h => Kept.timed (h.atCore fun k p hp => ?_)
  cases p with
  | seed => simp [hs] at hp
  | step => simp [hW.step] at hp
  | _ => rfl

theorem srsdStepBody_kept (h : Kept W e m₀ m) {d : Dst} : (srsdStepBody d e m).Gives W (Kept W e m₀) :=
  (Env.dst_kept h).bind fun ⟨_, _⟩ h => h.startValues hW.ops

theorem rndmBody_kept (h : Kept W e m₀ m) {d : Dst} {f : RndmOp} : (rndmBody d f e m).Gives W (Kept W e m₀) := by
  unfold rndmBody
  dsimp only
  exact Env.vres_kept hW (h.draws hW)

theorem vidxBody_kept (h : Kept W e m₀ m) {d : Dst} {g : Fmt} {a b : Src} : (vidxBody d g a b e m).Gives W (Kept W e m₀) :=
  (Env.src2_kept h).bind fun ⟨_, _, _⟩ h => Env.vres_kept hW h

end
end
end Sys2Proof.Machine
end

