-- ==== Sys2Proof/Proofs/FrameMem.lean ====
section
/-! SUPPORT for the statement about what instructions leave unchanged: home memory, the owner rule of local memory, and the loads and
stores. -/

namespace Sys2Proof.Machine

/-- What the instructions of the agents may write: the package's tables, the choices taken, operations, and what else of the core the
instructions of an agent change. -/
structure Agent (W : Part → Bool) : Prop where
  pkg : W .pkg = true
  free : W .free = true
  ops : W (.core .ops) = true
  state : W (.core .state) = true

/-- What the loads and stores and the instructions of an array or a column may write besides. -/
structure Wide (W : Part → Bool) : Prop extends Agent W where
  vq : W (.core .vq) = true
  rows : W (.core .rows) = true
  lines : W (.core .lines) = true
  posted : W (.core .posted) = true
  masks : W (.core .masks) = true

theorem Agent.skip {W : Part → Bool} {α β : Type} {P : β → Prop} {x : Chk α} {f : α → Chk β} (hA : Agent W)
    (hf : ∀ a, (f a).Gives W P) : (x >>= f).Gives W P := .skip (Chk.gives_of_pkg hA.pkg) hf

theorem Agent.stop {W : Part → Bool} {α : Type} {P : α → Prop} {x : Halt} (hA : Agent W) : Chk.Gives W P (.error x) := .inl hA.pkg

/-- What follows a check has its condition. -/
theorem Agent.must {W : Part → Bool} {α : Type} {P : α → Prop} {p : Prop} [Decidable p] {x : Halt} {f : Unit → Chk α}
    (hA : Agent W) (hf : p → (f ()).Gives W P) : (Machine.must (decide p) x >>= f).Gives W P := by
  by_cases hp : p
  · rw [decide_eq_true hp]
    exact hf hp
  · rw [decide_eq_false hp]
    exact hA.stop

/-- The same, as a rewriting step, for a condition that is slow to evaluate. -/
theorem Agent.gives_must {W : Part → Bool} {α : Type} {P : α → Prop} {p : Prop} [Decidable p] {x : Halt} {f : Unit → Chk α}
    (hA : Agent W) : (Machine.must (decide p) x >>= f).Gives W P ↔ (p → (f ()).Gives W P) := by
  refine ⟨fun h hp => ?_, hA.must⟩
  rw [decide_eq_true hp] at h
  exact h

/-- Every granule of local memory is the group's own. -/
def Core.Owned (k : Core) : Prop := ∀ g, k.group = some g → g.evicted = [] ∧ ∀ n < 128, k.granule n = .group g.gid g.ctx

/-- The owner rule may write local memory, its tags and the group's save slot, or every granule is the group's own. -/
def OwnerRule (W : Part → Bool) (e : Env) (m : Mach) : Prop :=
  (W (.core .local_) = true ∧ W (.core .granules) = true ∧ W (.core .group) = true ∧ W .dram = true) ∨
    (W (.core .granules) = false ∧ W (.core .group) = false ∧ (m.core e.c).Owned)

section
variable {W : Part → Bool} {e : Env} {m₀ m : Mach} {k : Core} {q : SeqId}

/-! ### Home memory and slices -/

theorem Kept.touchSlice (h : Kept W e m₀ m) (hp : W .pkg = true) {a : Nat} : Kept W e m₀ (m.touchSlice a) := h.tables hp rfl

/-- A write of DRAM. -/
theorem Kept.writeDram (h : Kept W e m₀ m) (hp : W .pkg = true) (hd : W .dram = true) {a n : Nat} {img : Mem} :
    Kept W e m₀ (m.writeHome true a n img) :=
  h.fields rfl rfl (.inl hp) (.inr rfl) (.inr rfl) (.inr rfl) (.inr rfl) (.inl hd)

theorem Kept.onBseq (h : Kept W e m₀ m) (hp : W .pkg = true) {ctx : BitVec 6} {x : Nat} {f : BSeq → BSeq} :
    Kept W e m₀ (m.onBseq ctx x f) := h.tables hp rfl

theorem Kept.onPool (h : Kept W e m₀ m) (hp : W .pkg = true) {p : Nat} {f : Pool → Pool} : Kept W e m₀ (m.onPool p f) :=
  h.tables hp rfl

theorem Kept.takeFrame (h : Kept W e m₀ m) (hp : W .pkg = true) {s : BSeq} {f : Nat} {m' : Mach}
    (hs : m.takeFrame s = some (f, m')) : Kept W e m₀ m' := by
  simp only [Mach.takeFrame] at hs
  split at hs
  · cases hs
  split at hs
  · cases hs
    exact (h.onBseq hp).onPool hp
  split at hs
  · cases hs
    exact h.onPool hp
  · cases hs

theorem Kept.writable (h : Kept W e m₀ m) (hp : W .pkg = true) (hd : W .dram = true) {ctx : BitVec 6} {b key : Nat} {m' : Mach}
    (hs : m.writable ctx b key = some m') : Kept W e m₀ m' := by
  simp only [Mach.writable] at hs
  repeat' split at hs
  all_goals cases hs
  next hf => exact (h.takeFrame hp hf).onBseq hp
  next => exact h
  next hf => exact (((h.takeFrame hp hf).writeDram hp hd).onBseq hp).onPool hp

/-- Where an access goes; a block store may take a frame. -/
theorem Env.resolve_kept (h : Kept W e m₀ m) (hp : W .pkg = true) {sp : Space} {ea : Word} {n : Nat} {store : Bool}
    (hd : W .dram = true ∨ sp ≠ .blk ∨ store = false) : (e.resolve m sp ea n store).Gives W fun r => Kept W e m₀ r.2 := by
  have any {α : Type} {x : Chk α} : x.Gives W fun _ => True := Chk.gives_of_pkg hp
  cases sp with
  | glb => exact .skip any fun _ => .skip any fun _ => h
  | dev =>
    refine .skip any fun _ => ?_
    split
    · exact .inl hp
    · exact .inl hp
    · exact .skip any fun _ => .skip any fun _ => h
  | blk =>
    simp only [Env.resolve]
    split
    · exact .inl hp
    refine .skip any fun _ => .skip any fun _ => ?_
    split
    · exact .inl hp
    next m' hm =>
      have kept : Kept W e m₀ m' := by
        cases store with
        | false => cases hm; exact h
        | true => exact h.writable hp (hd.resolve_right (by simp)) hm
      exact .skip any fun _ => kept

/-! ### The owner rule -/

theorem Core.preempting_of_group {g : Group} {k' : Core} (hg : k.group = some g) {f : Group → Group}
    (hf : (f g).preempt = g.preempt) (hk : k'.group = some (f g)) : k'.preempting = k.preempting := by
  simp [Core.preempting, hg, hk, hf]

/-- The writes of local memory, of its tags and poison, of the eviction freeze and of the group's evicted granules. -/
theorem Core.keeps_granules (hs : W (.core .state) = true) (hl : W (.core .local_) = true) (hr : W (.core .granules) = true)
    (hg : W (.core .group) = true) {loc : Mem} {poison : List Nat} {tags : SMap Owner} {fr : Freeze} {g : Option Group}
    (hp : Core.preempting { k with group := g } = k.preempting) :
    k.Keeps W q { k with local_ := loc, localPoison := poison, granules := tags, freeze := fr, group := g } := by
  intro p hw
  cases p with
  | state => simp [hs] at hw
  | local_ => simp [hl] at hw
  | granules => simp [hr] at hw
  | group => simp [hg] at hw
  | fixed => exact congrArg (fun b => (k.column, k.cycles, k.active, k.shadow, k.failed, k.ended, b)) hp
  | _ => rfl

theorem Kept.evictGranule (h : Kept W e m₀ m) (hp : W .pkg = true) (hd : W .dram = true) {c g : Nat} {s : Saved} :
    Kept W e m₀ (m.evictGranule c g s) := by
  unfold Mach.evictGranule
  refine Kept.writeDram ?_ hp hd
  exact (h.writeDram hp hd).tables hp rfl

theorem Core.Owned.granule {g : Group} (h : k.Owned) (hg : k.group = some g) {n : Nat} (hn : n < 128) :
    k.granule n = .group g.gid g.ctx ∧ g.evicted = [] := ⟨(h g hg).2 n hn, (h g hg).1⟩

/-- A granule of the group's own stays as it is. -/
theorem Mach.ownGranule_of_owned {c n : Nat} (h : (m.core c).Owned) (hn : n < 128) : m.ownGranule c n = m := by
  unfold Mach.ownGranule
  dsimp only
  split
  · rfl
  next g hg =>
    obtain ⟨hown, hev⟩ := h.granule hg hn
    exact if_pos ⟨hown, by simp [hev]⟩

theorem Kept.ownGranule_written (h : Kept W e m₀ m) (hA : Agent W) (hl : W (.core .local_) = true)
    (hr : W (.core .granules) = true) (hg : W (.core .group) = true) (hd : W .dram = true) {n : Nat} :
    Kept W e m₀ (m.ownGranule e.c n) := by
  unfold Mach.ownGranule
  dsimp only
  split
  · exact h
  next gr hgr =>
    split
    · exact h
    have evicted (s : Option Saved) : Kept W e m (match s with | some s => m.evictGranule e.c n s | none => m) := by
      cases s with
      | none => exact .refl m
      | some s => exact (Kept.refl m).evictGranule hA.pkg hd
    have group (s : Option Saved) : ((match s with | some s => m.evictGranule e.c n s | none => m).core e.c).group = some gr := by
      cases s with
      | none => exact hgr
      | some s => exact hgr
    refine .ite ?_ (.ite ?_ ?_)
    · refine (h.trans (evicted _)).trans (Kept.onCore (Core.keeps_granules hA.state hl hr hg ?_))
      exact Core.preempting_of_group (group _) (f := fun g => { g with evicted := g.evicted.filter fun x => decide (x ≠ n) }) rfl rfl
    · exact (h.trans (evicted _)).trans (Kept.onCore (Core.keeps_granules hA.state hl hr hg rfl))
    · exact (h.trans (evicted _)).trans (Kept.onCore (Core.keeps_granules hA.state hl hr hg rfl))

/-- The owner rule of one granule keeps what it may not write. -/
theorem Kept.ownGranule (h : Kept W e m₀ m) (hA : Agent W) (ho : OwnerRule W e m₀) {n : Nat} (hn : n < 128) :
    Kept W e m₀ (m.ownGranule e.c n) := by
  obtain ⟨hl, hr, hg, hd⟩ | ⟨hr, hg, hown⟩ := ho
  · exact h.ownGranule_written hA hl hr hg hd
  · have group : (m.core e.c).group = (m₀.core e.c).group := h (.core .group) hg
    have granules : (m.core e.c).granules = (m₀.core e.c).granules := h (.core .granules) hr
    have owned : (m.core e.c).Owned := by
      simpa only [Core.Owned, Core.granule, group, granules] using hown
    rw [Mach.ownGranule_of_owned owned hn]
    exact h

/-- The owner rule of the granules of a range of local memory. -/
theorem Kept.ownLocal (h : Kept W e m₀ m) (hA : Agent W) (ho : OwnerRule W e m₀) {a n : Nat} (hn : a + n ≤ 0x80000) :
    Kept W e m₀ (m.ownLocal e.c a n) := by
  refine List.foldlRecOn (motive := Kept W e m₀) _ _ h fun m hm g hg => hm.ownGranule hA ho ?_
  obtain ⟨i, hi, rfl⟩ := List.mem_map.1 hg
  have hi := List.mem_range.1 hi
  omega

/-! ### Loads and stores -/

theorem Env.ea_kept (h : Kept W e m₀ m) {a : Src} {imm : BitVec 8} {s : MSize} :
    (e.ea m a imm s).Gives W fun r => Kept W e m₀ r.2 := (Env.src_kept h).bind fun ⟨_, _⟩ h => h

theorem Env.loadDst_kept (h : Kept W e m₀ m) (hv : W (.core .vq) = true) {q : BitVec 4} {s : MSize} {pending : Bool} :
    (e.loadDst m q s pending).Gives W fun r => Kept W e m₀ r.2 := by
  unfold Env.loadDst
  split
  · exact Env.dstV_kept h hv
  · exact Env.dst_kept h

theorem Env.storeData_kept (h : Kept W e m₀ m) (hv : W (.core .vq) = true) {pk : Bool} {q : BitVec 4} {s : MSize} :
    (e.storeData m pk q s).Gives W fun r => Kept W e m₀ r.2 := by
  simp only [Env.storeData]
  split
  · exact (Env.srcV_kept h hv).bind fun ⟨_, _⟩ h => h
  · exact (Env.src_kept h).bind fun ⟨_, _⟩ h => h

/-- An aligned access of local space lies in it whole. -/
theorem access_inside {ea : Word} {s : MSize} (ha : ea.toNat % sizeBytes s = 0) (hs : ea.toNat < 0x80000) :
    ea.toNat + sizeBytes s ≤ 0x80000 := by
  cases s <;> simp only [sizeBytes] at ha ⊢ <;> omega

theorem ldlBody_kept (h : Kept W e m₀ m) (hW : Wide W) (ho : OwnerRule W e m₀) {q : BitVec 4} {a : Src} {imm : BitVec 8}
    {s : MSize} : (ldlBody q a imm s e m).Gives W (Kept W e m₀) := by
  refine (Env.ea_kept h).bind fun ⟨ea, m⟩ h => (Env.loadDst_kept h hW.vq).bind fun ⟨l, m⟩ h => hW.must fun ha =>
    hW.must fun hs => ?_
  dsimp only
  split
  · exact hW.stop
  · exact (h.ownLocal hW.toAgent ho (access_inside ha hs)).timed

theorem stlBody_kept (h : Kept W e m₀ m) (hW : Wide W) (ho : OwnerRule W e m₀) {pk : Bool} {q : BitVec 4} {a : Src}
    {imm : BitVec 8} {s : MSize} : (stlBody pk q a imm s e m).Gives W (Kept W e m₀) := by
  refine (Env.ea_kept h).bind fun ⟨ea, m⟩ h => (Env.storeData_kept h hW.vq).bind fun ⟨bs, m⟩ h => hW.must fun ha =>
    hW.must fun hs => ?_
  dsimp only
  split
  · exact hW.stop
  · exact ((h.ownLocal hW.toAgent ho (access_inside ha hs)).later hW.state).finishNow

theorem Core.keeps_lines (hl : W (.core .lines) = true) {l : List Line} : k.Keeps W q { k with lines := l } :=
  Core.keeps_field .lines hl fun p hp => by
    cases p with
    | lines => exact absurd rfl hp
    | _ => rfl

theorem Core.keeps_posted (hp : W (.core .posted) = true) {l : List Posted} : k.Keeps W q { k with posted := l } :=
  Core.keeps_field .posted hp fun p hp => by
    cases p with
    | posted => exact absurd rfl hp
    | _ => rfl

theorem Kept.choice (h : Kept W e m₀ m) (hf : W .free = true) {n : Nat} : Kept W e m₀ { m with free := n } :=
  h.fields rfl rfl (.inr rfl) (.inl hf) (.inr rfl) (.inr rfl) (.inr rfl) (.inr rfl)

theorem Kept.stage (h : Kept W e m₀ m) (hW : Wide W) {dev : Bool} {a home : Nat} : Kept W e m₀ (m.stage e.c dev a home).2 := by
  simp only [Mach.stage]
  split
  · exact h
  split
  · exact h.trans (Kept.setCore (Core.keeps_lines hW.lines))
  · exact (h.choice hW.free).trans (Kept.setCore (Core.keeps_lines hW.lines))

theorem stagedLoadBody_kept (h : Kept W e m₀ m) (hW : Wide W) {dev : Bool} {q : BitVec 4} {a : Src} {imm : BitVec 8} {s : MSize} :
    (stagedLoadBody dev q a imm s e m).Gives W (Kept W e m₀) := by
  refine (Env.ea_kept h).bind fun ⟨ea, m⟩ h => (Env.loadDst_kept h hW.vq).bind fun ⟨l, m⟩ h => hW.skip fun _ =>
    (Env.resolve_kept h hW.pkg (.inr (.inr rfl))).bind fun ⟨pl, m⟩ h => ?_
  dsimp only at h ⊢
  have touched : Kept W e m₀ (if (dev || ((m.core e.c).line dev ea.toNat).isSome) = true then m else m.touchSlice ea.toNat) :=
    h.ite (h.touchSlice hW.pkg)
  have staged {p : Prop} [Decidable p] {ln : Line} {m' : Mach} (h' : Kept W e m₀ m') :
      Kept W e m₀ (if p then (ln, m') else m'.stage e.c dev ea.toNat pl.at_).2 := by
    split
    · exact h'
    · exact h'.stage hW
  split
  · exact hW.stop
  · exact hW.stop
  · exact (staged touched).start hW.ops

theorem ldbBody_kept (h : Kept W e m₀ m) (hW : Wide W) {q : BitVec 4} {a : Src} {imm : BitVec 8} {s : MSize} :
    (ldbBody q a imm s e m).Gives W (Kept W e m₀) := by
  refine (Env.ea_kept h).bind fun ⟨ea, m⟩ h => (Env.loadDst_kept h hW.vq).bind fun ⟨l, m⟩ h => hW.skip fun _ =>
    (Env.resolve_kept h hW.pkg (.inr (.inr rfl))).bind fun ⟨pl, m⟩ h => ?_
  dsimp only at h ⊢
  split
  · exact hW.stop
  · exact hW.stop
  · exact h.start hW.ops

theorem postedStoreBody_kept (h : Kept W e m₀ m) (hW : Wide W) {sp : Space} (hd : W .dram = true ∨ sp ≠ .blk) {pk : Bool}
    {q : BitVec 4} {a : Src} {imm : BitVec 8} {s : MSize} : (postedStoreBody sp pk q a imm s e m).Gives W (Kept W e m₀) := by
  refine (Env.ea_kept h).bind fun ⟨ea, m⟩ h => (Env.storeData_kept h hW.vq).bind fun ⟨bs, m⟩ h => hW.skip fun _ =>
    (Env.resolve_kept h hW.pkg (hd.imp_right .inl)).bind fun ⟨pl, m⟩ h => hW.skip fun _ => ?_
  have touched : Kept W e m₀ (if sp = .glb then m.touchSlice ea.toNat else m) := (h.touchSlice hW.pkg).ite h
  have posted {m : Mach} (h : Kept W e m₀ m) {id : Nat} {p : Posted} : Kept W e m₀
      (e.start (e.later (.post id) (m.fresh.2.onCore e.c fun k => { k with posted := k.posted ++ [p] })) (.store id) [] 0 [] none).2 :=
    ((h.fresh.atCore fun _ => Core.keeps_posted hW.posted).later hW.state).start hW.ops
  dsimp only
  split
  · exact hW.skip fun _ => posted touched
  · exact hW.skip fun _ => posted touched

theorem pfdBody_kept (h : Kept W e m₀ m) (hW : Wide W) {a : Src} {imm : BitVec 8} : (pfdBody a imm e m).Gives W (Kept W e m₀) := by
  refine (Env.ea_kept h).bind fun ⟨ea, m⟩ h => hW.skip fun _ => ?_
  dsimp only at h ⊢
  have resolved := Env.resolve_kept h hW.pkg (sp := .dev) (ea := ea) (n := 512) (store := false) (.inr (.inr rfl))
  split
  next hr =>
    rw [hr] at resolved
    exact (resolved.stage hW).start hW.ops
  · exact h.finishNow
  · exact hW.stop

theorem locBody_kept (h : Kept W e m₀ m) (hW : Wide W) {d : Dst} {f : Space} {a : Src} : (locBody d f a e m).Gives W (Kept W e m₀) := by
  refine (Env.src_kept h).bind fun ⟨v, m⟩ h => (Env.dst_kept h).bind fun ⟨l, m⟩ h => ?_
  dsimp only at h ⊢
  split
  · exact hW.stop
  · exact h.startValues hW.ops
  · exact h.startValues hW.ops

end
end Sys2Proof.Machine
end

