-- ==== Sys2Proof/Proofs/FrameArray.lean ====
section
/-! SUPPORT for the statement about what instructions leave unchanged: the array's instructions and the column's. -/

namespace Sys2Proof.Machine

section
variable {W : Part → Bool} {e : Env} {m₀ m : Mach} {k : Core} {q : SeqId}

/-! ### The lease -/

/-- A change of the group that says nothing of a pre-emption. -/
theorem Core.keeps_onGroup (hg : W (.core .group) = true) {f : Group → Group} (hf : ∀ g : Group, (f g).preempt = g.preempt) :
    k.Keeps W q (k.onGroup f) := by
  have same : (k.onGroup f).preempting = k.preempting := by
    simp only [Core.preempting, Core.onGroup]
    cases k.group with
    | none => rfl
    | some g => simp [hf g]
  intro p hp
  cases p with
  | group => simp [hg] at hp
  | fixed => exact congrArg (fun b => (k.column, k.cycles, k.active, k.shadow, k.failed, k.ended, b)) same
  | _ => rfl

theorem Kept.onGroup (h : Kept W e m₀ m) (hg : W (.core .group) = true) {f : Group → Group}
    (hf : ∀ g : Group, (f g).preempt = g.preempt) : Kept W e m₀ (m.onGroup e.c f) :=
  h.atCore fun _ => Core.keeps_onGroup hg hf

theorem Kept.onArray (h : Kept W e m₀ m) (ha : W .arrays = true) {x : Nat} {f : Array_ → Array_} : Kept W e m₀ (m.onArray x f) :=
  h.fields rfl rfl (.inr rfl) (.inr rfl) (.inl ha) (.inr rfl) (.inr rfl) (.inr rfl)

theorem leaseAcqBody_kept (h : Kept W e m₀ m) (hW : Wide W) (hg : W (.core .group) = true) {d : Dst} :
    (leaseAcqBody d e m).Gives W (Kept W e m₀) := by
  have acquires : (acqChecks d e m).Gives W fun r => Kept W e m₀ r.2 := hW.skip fun _ => Env.dst_kept h
  refine acquires.bind fun ⟨l, m⟩ h => ?_
  dsimp only at h ⊢
  split
  · exact Chk.gives_ok.2 ((h.onGroup hg (by intro _; rfl)).startValues hW.ops)
  refine hW.skip fun _ => ?_
  split
  · exact hW.stop
  · exact Chk.gives_ok.2 ((h.onGroup hg (by intro _; rfl)).startValues hW.ops)

theorem leaseRelBody_kept (h : Kept W e m₀ m) (hW : Wide W) (hg : W (.core .group) = true) (ha : W .arrays = true) :
    (leaseRelBody e m).Gives W (Kept W e m₀) := by
  refine hW.skip fun _ => hW.skip fun _ => ?_
  have unwanted : Kept W e m₀ (m.onGroup e.c fun g => { g with want := false }) := h.onGroup hg fun _ => rfl
  rw [Chk.gives_ok]
  refine Kept.startValues ?_ hW.ops
  split
  · exact .ite (unwanted.onArray ha) unwanted
  · exact unwanted

/-! ### Clauses -/

theorem Core.keeps_clause (hr : W (.core .rows) = true) {cl : Option Clause} : k.Keeps W q { k with clause := cl } :=
  Core.keeps_field .rows hr fun p hp => by
    cases p with
    | rows => exact absurd rfl hp
    | _ => rfl

theorem Kept.setClause (h : Kept W e m₀ m) (hr : W (.core .rows) = true) {cl : Clause} : Kept W e m₀ (m.setClause e.c cl) :=
  h.atCore fun _ => Core.keeps_clause hr

theorem wldBody_kept (h : Kept W e m₀ m) (hW : Wide W) (ha : W .arrays = true) {ks dev : Bool} {w : WldWidth} {a : Src} :
    (wldBody ks w dev a e m).Gives W (Kept W e m₀) :=
  (Env.src_kept h).bind fun ⟨_, _⟩ h => hW.skip fun _ => hW.skip fun _ => hW.skip fun _ => hW.skip fun _ =>
    (h.onArray ha).start hW.ops

theorem wswpBody_kept (h : Kept W e m₀ m) (hW : Wide W) : (wswpBody e m).Gives W (Kept W e m₀) :=
  hW.skip fun _ => hW.skip fun _ => h.start hW.ops

theorem mxsqBody_kept (h : Kept W e m₀ m) (hW : Wide W) (ho : OwnerRule W e m₀) {a b : Src} :
    (mxsqBody a b e m).Gives W (Kept W e m₀) := by
  refine (Env.src2_kept h).bind fun ⟨x, y, m⟩ h => hW.skip fun _ => hW.skip fun _ => hW.skip fun _ => hW.skip fun _ => ?_
  rw [hW.gives_must]
  intro hs
  exact (h.ownLocal hW.toAgent ho hs).start hW.ops

theorem mxhBody_kept (h : Kept W e m₀ m) (hW : Wide W) {x : MxHeader} : (mxhBody x e m).Gives W (Kept W e m₀) :=
  hW.skip fun _ => hW.skip fun _ => hW.skip fun _ => (h.setClause hW.rows).startValues hW.ops

/-- Rows in a range of local space lie in it each. -/
theorem row_inside {a i count stride n : Nat} (hi : i < count) (h : a + (count - 1) * stride + n ≤ 0x80000) :
    a + i * stride + n ≤ 0x80000 := by
  have rows : i * stride ≤ (count - 1) * stride := Nat.mul_le_mul_right _ (by omega)
  omega

theorem Kept.ownRows (h : Kept W e m₀ m) (hA : Agent W) (ho : OwnerRule W e m₀) {a count stride n : Nat}
    (hs : a + (count - 1) * stride + n ≤ 0x80000) :
    Kept W e m₀ ((List.range count).foldl (fun m i => m.ownLocal e.c (a + i * stride) n) m) :=
  List.foldlRecOn (motive := Kept W e m₀) _ _ h fun _ hm _ hi => hm.ownLocal hA ho (row_inside (List.mem_range.1 hi) hs)

theorem mxaBody_kept (h : Kept W e m₀ m) (hW : Wide W) (ho : OwnerRule W e m₀) {sc : Bool} {a b : Src} :
    (mxaBody sc a b e m).Gives W (Kept W e m₀) := by
  refine (Env.src2_kept h).bind fun ⟨x, y, m⟩ h => hW.skip fun cl => hW.skip fun _ => hW.skip fun _ => hW.skip fun _ =>
    hW.skip fun _ => hW.skip fun _ => hW.must fun hs => hW.skip fun _ => ?_
  exact Chk.gives_ok.2 (((h.ownRows hW.toAgent ho hs).setClause hW.rows).start hW.ops)

theorem mxmdBody_kept (h : Kept W e m₀ m) (hW : Wide W) (ho : OwnerRule W e m₀) {a : Src} :
    (mxmdBody a e m).Gives W (Kept W e m₀) := by
  refine (Env.src_kept h).bind fun ⟨x, m⟩ h => hW.skip fun cl => hW.skip fun _ => hW.skip fun _ => hW.skip fun _ =>
    hW.skip fun _ => ?_
  rw [hW.gives_must]
  intro hs
  have owned : Kept W e m₀ (m.ownLocal e.c (wbits x 18 0) 16384) := h.ownLocal hW.toAgent ho hs
  exact Chk.gives_ok.2 ((owned.setClause hW.rows).startValues hW.ops)

theorem mxgrBody_kept (h : Kept W e m₀ m) (hW : Wide W) {g : BitVec 2} {a b : Src} : (mxgrBody g a b e m).Gives W (Kept W e m₀) :=
  (Env.src2_kept h).bind fun ⟨_, _, _⟩ h => hW.skip fun _ => hW.skip fun _ => hW.skip fun _ => hW.skip fun _ =>
    (h.setClause hW.rows).startValues hW.ops

theorem mxzBody_kept (h : Kept W e m₀ m) (hW : Wide W) {both : Bool} : (mxzBody both e m).Gives W (Kept W e m₀) := by
  unfold mxzBody
  split
  · exact hW.skip fun _ => h.start hW.ops
  · exact hW.skip fun _ => hW.skip fun _ => hW.skip fun _ => (h.setClause hW.rows).startValues hW.ops

theorem Kept.closeClause (h : Kept W e m₀ m) (hW : Wide W) {cl : Clause} {drain : Option (Rnd × Bool × Nat × Nat)}
    {fin : List Fin_} : Kept W e m₀ (e.closeClause m cl drain fin) := (h.atCore fun _ => Core.keeps_clause hW.rows).start hW.ops

theorem mxdrBody_kept (h : Kept W e m₀ m) (hW : Wide W) {mode : Rnd} {a b : Src} :
    (mxdrBody mode a b e m).Gives W (Kept W e m₀) :=
  (Env.src2_kept h).bind fun ⟨_, _, _⟩ h => hW.skip fun _ => hW.skip fun _ => hW.skip fun _ => hW.skip fun _ =>
    hW.skip fun _ => hW.skip fun _ => hW.skip fun _ => h.closeClause hW

theorem mxdrKeepBody_kept (h : Kept W e m₀ m) (hW : Wide W) : (mxdrKeepBody e m).Gives W (Kept W e m₀) :=
  hW.skip fun _ => hW.skip fun _ => hW.skip fun _ => h.closeClause hW

/-! ### The column -/

theorem mvkBody_kept (h : Kept W e m₀ m) (hV : Vectorial W) {lg : BitVec 2} {a b : Src} :
    (mvkBody lg a b e m).Gives W (Kept W e m₀) :=
  .skip Core.headV_gives fun _ => (Env.heads_kept hV h).bind fun ⟨_, _⟩ hp =>
    (Env.src_kept (h.ite hp)).bind fun ⟨_, _⟩ h => .skip needKind_gives fun _ => .skip needSame_gives fun _ =>
      .skip Env.needFmt_gives fun _ => h.start hV.ops

theorem mvqBody_kept (h : Kept W e m₀ m) (hW : Wide W) {d : Dst} {msk : Bool} {a b : Src} :
    (mvqBody d msk a b e m).Gives W (Kept W e m₀) :=
  (Env.src2_kept h).bind fun ⟨_, _, _⟩ h => (Env.dstV_kept h hW.vq).bind fun ⟨_, _⟩ h => hW.skip fun _ => h.start hW.ops

theorem mvvBody_kept (h : Kept W e m₀ m) (hW : Wide W) {msk : Bool} {q : BitVec 3} {a b : Src} :
    (mvvBody msk q a b e m).Gives W (Kept W e m₀) :=
  (Env.src_kept h).bind fun ⟨_, _⟩ h => (Env.srcV_kept h hW.vq).bind fun ⟨_, _⟩ h => (Env.third_kept h hW.vq).bind fun ⟨_, _⟩ h =>
    hW.skip fun _ => hW.skip fun _ => hW.skip fun _ => h.start hW.ops

theorem mvmBody_kept (h : Kept W e m₀ m) (hW : Wide W) {a : Src} : (mvmBody a e m).Gives W (Kept W e m₀) :=
  (Env.src_kept h).bind fun ⟨_, _⟩ h => hW.skip fun _ => hW.skip fun _ => hW.skip fun _ => h.start hW.ops

theorem mvmOffBody_kept (h : Kept W e m₀ m) (hW : Wide W) : (mvmOffBody e m).Gives W (Kept W e m₀) := h.start hW.ops

theorem mvdBody_kept (h : Kept W e m₀ m) (hW : Wide W) {d : Dst} {mode : Rnd} {f : Fmt} {a : Src} :
    (mvdBody d mode f a e m).Gives W (Kept W e m₀) :=
  (Env.src_kept h).bind fun ⟨_, _⟩ h => (Env.dstV_kept h hW.vq).bind fun ⟨_, _⟩ h => hW.skip fun _ => h.start hW.ops

end
end Sys2Proof.Machine
end

