-- ==== Sys2Proof/Proofs/FrameCopy.lean ====
section
/-! SUPPORT for the statement about what instructions leave unchanged: accumulates, fences, copies and their objects. -/

namespace Sys2Proof.Machine

section
variable {W : Part → Bool} {e : Env} {m₀ m : Mach} {k : Core} {q : SeqId}

theorem Kept.inbox (h : Kept W e m₀ m) (hA : Agent W) {l : List Reply} : Kept W e m₀ { m with inbox := l } := h.tables hA.pkg rfl

theorem Kept.outbox (h : Kept W e m₀ m) (hA : Agent W) {l : List Sent} : Kept W e m₀ { m with outbox := l } := h.tables hA.pkg rfl

theorem Kept.portError (h : Kept W e m₀ m) {die : Nat} {ctx : BitVec 6} {p : BitVec 10} : Kept W e m₀ (m.portError die ctx p) :=
  h.bankError

theorem Env.admission_kept (h : Kept W e m₀ m) (hA : Agent W) {a : Nat} : (e.admission m a).Gives W (Kept W e m₀) := by
  unfold Env.admission
  split
  · exact hA.stop
  · exact h.inbox hA
  · exact hA.stop

/-! ### Accumulates and fences -/

theorem Env.comparand_kept (h : Kept W e m₀ m) {f : AccOp} {d : Dst} : (e.comparand m f d).Gives W fun r => Kept W e m₀ r.2 := by
  unfold Env.comparand
  split
  · exact Env.src_kept h
  · exact h

theorem Kept.startAcc (h : Kept W e m₀ m) (hA : Agent W) {a : AccOpRec} {l : Landing} : Kept W e m₀ (e.startAcc m a l) :=
  .ite (h.start hA.ops).block (h.start hA.ops)

theorem Kept.startAcqValues (h : Kept W e m₀ m) (hA : Agent W) {o : Order} {dests : List Landing} :
    Kept W e m₀ (e.startAcqValues m o dests) := .ite (h.start hA.ops).block (h.start hA.ops)

theorem caccBody_kept (h : Kept W e m₀ m) (hA : Agent W) {d : Dst} {f : AccOp} {a b : Src} :
    (caccBody d f a b e m).Gives W (Kept W e m₀) := by
  refine (Env.src2_kept h).bind fun ⟨w, v, m⟩ h => (Env.comparand_kept h).bind fun ⟨cmp, m⟩ h =>
    (Env.dst_kept h).bind fun ⟨l, m⟩ h => ?_
  dsimp only
  split
  · exact hA.stop
  refine hA.skip fun _ => ?_
  split
  · exact hA.skip fun _ => h.startAcc hA
  split
  · exact h.portError.startAcqValues hA
  · exact hA.skip fun _ => (Env.admission_kept h hA).bind fun m h => (h.outbox hA).startAcc hA

theorem Env.flagWord_kept (h : Kept W e m₀ m) (hA : Agent W) {c : Scope} {o : Order} {dev : Bool} {w v : Word} :
    (e.flagWord m c o dev w v).Gives W fun r => Kept W e m₀ r.2 := by
  refine hA.skip fun _ => ?_
  split
  · refine hA.skip fun _ => ?_
    split
    · exact h.portError
    · exact hA.skip fun _ => (Env.admission_kept h hA).bind fun m h => h.outbox hA
  · exact hA.skip fun _ => h

theorem fenceBody_kept (h : Kept W e m₀ m) (hA : Agent W) {c : Scope} {o : Order} {f : FenceForm} :
    (fenceBody c o f e m).Gives W (Kept W e m₀) := by
  cases f with
  | plain => exact (h.start hA.ops).block
  | flag dev a b =>
    exact (Env.src2_kept h).bind fun ⟨_, _, _⟩ h => (Env.flagWord_kept h hA).bind fun ⟨_, _⟩ h => (h.start hA.ops).block

/-! ### Starting a copy -/

theorem Env.record_kept (h : Kept W e m₀ m) (hA : Agent W) (ho : OwnerRule W e m₀) {v : Word} {n : Nat} :
    (e.record m v n).Gives W fun r => Kept W e m₀ r.2 := by
  refine hA.skip fun _ => hA.must fun hs => ?_
  dsimp only
  split
  · exact hA.stop
  · exact h.ownLocal hA ho hs

theorem Env.runTranslates_kept (h : Kept W e m₀ m) (hA : Agent W) (hd : W .dram = true) {n : Nat} {s : RunSide} :
    (e.runTranslates n s m).Gives W (Kept W e m₀) := by
  unfold Env.runTranslates
  split
  · exact hA.skip fun _ => h
  · split
    · split
      · exact hA.stop
      next hw => exact h.writable hA.pkg hd hw
    · exact h
  · exact h

theorem foldlM_gives {α : Type} {P : Mach → Prop} {l : List α} {f : Mach → α → Chk Mach} (h : P m)
    (hf : ∀ m a, P m → (f m a).Gives W P) : (l.foldlM f m).Gives W P := by
  induction l generalizing m with
  | nil => exact h
  | cons a l ih => exact (hf m a h).bind fun m h => ih h

theorem Env.copyChecks_kept (h : Kept W e m₀ m) (hA : Agent W) (hd : W .dram = true) {x : CopyOp} :
    (e.copyChecks m x).Gives W (Kept W e m₀) :=
  hA.skip fun _ => hA.skip fun _ => hA.skip fun _ => (foldlM_gives h fun _ _ h => Env.runTranslates_kept h hA hd).bind fun _ h =>
    hA.skip fun _ => hA.skip fun _ => h

theorem Env.farCheck_kept (h : Kept W e m₀ m) (hA : Agent W) {x : CopyOp} : (e.farCheck m x).Gives W (Kept W e m₀) :=
  (Env.admission_kept h hA).bind fun _ h => h.outbox hA

theorem Kept.onObj (h : Kept W e m₀ m) (hA : Agent W) {o : Nat} {f : CompObj → CompObj} :
    Kept W e m₀ (m.onCore e.c fun k => k.onObj o f) := h.atCore fun _ => Core.keeps_objs hA.state

theorem Kept.objStart (h : Kept W e m₀ m) (hA : Agent W) {o : Nat} : Kept W e m₀ (m.onCore e.c fun k => k.objStart o) := h.onObj hA

theorem cpyBody_kept (h : Kept W e m₀ m) (hA : Agent W) (hd : W .dram = true) (ho : OwnerRule W e m₀) {a : Src} :
    (cpyBody a e m).Gives W (Kept W e m₀) := by
  refine (Env.src_kept h).bind fun ⟨v, m⟩ h => (Env.record_kept h hA ho).bind fun ⟨w, m⟩ h => hA.skip fun _ =>
    (Env.copyChecks_kept h hA hd).bind fun m h => hA.skip fun _ => hA.skip fun _ => hA.skip fun _ => ?_
  have unreachable (k : Core) (o p : Nat) : k.Keeps W e.q ((k.objStart o).objDone o 0 p []) :=
    (Core.keeps_objs hA.state).trans (Core.keeps_objs hA.state)
  split
  · exact Chk.gives_ok.2 ((h.portError.atCore fun k => unreachable k _ _).startValues hA.ops)
  split
  · exact (Env.farCheck_kept h hA).bind fun _ h => (h.objStart hA).start hA.ops
  · exact (h.objStart hA).start hA.ops

/-! ### Copy objects -/

theorem cwtBody_kept (h : Kept W e m₀ m) (hA : Agent W) {test : Bool} {d : Dst} {a : Src} :
    (cwtBody test d a e m).Gives W (Kept W e m₀) :=
  (Env.src_kept h).bind fun ⟨_, _⟩ h => (Env.dst_kept h).bind fun ⟨_, _⟩ h => hA.skip fun _ =>
    ((h.ite (h.onObj hA)).start hA.ops).block

theorem cbndBody_kept (h : Kept W e m₀ m) (hA : Agent W) {s : QSel} {a b : Src} : (cbndBody s a b e m).Gives W (Kept W e m₀) :=
  (Env.src2_kept h).bind fun ⟨_, _, _⟩ h => hA.skip fun _ => h.startValues hA.ops

theorem Core.keeps_bindings (hs : W (.core .state) = true) {l : List Binding} : k.Keeps W q { k with bindings := l } :=
  Core.keeps_field .state hs fun p hp => by
    cases p with
    | state => exact absurd rfl hp
    | _ => rfl

theorem cbndOffBody_kept (h : Kept W e m₀ m) (hA : Agent W) {a : Src} : (cbndOffBody a e m).Gives W (Kept W e m₀) :=
  (Env.src_kept h).bind fun ⟨_, _⟩ h => Chk.gives_ok.2 ((h.atCore fun _ => Core.keeps_bindings hA.state).startValues hA.ops)

end
end Sys2Proof.Machine
end

