-- ==== Sys2Proof/Proofs/FrameKeys.lean ====
section
/-! SUPPORT for the statement about what instructions leave unchanged: keys and blocks. -/

namespace Sys2Proof.Machine

section
variable {W : Part → Bool} {e : Env} {m₀ m : Mach} {k : Core} {q : SeqId}

/-! ### Statuses and the table of regions -/

theorem Kept.regions (h : Kept W e m₀ m) (hr : W .regions = true) {l : List Region} : Kept W e m₀ { m with regions := l } :=
  h.fields rfl rfl (.inr rfl) (.inr rfl) (.inr rfl) (.inl hr) (.inr rfl) (.inr rfl)

theorem Kept.onRegion (h : Kept W e m₀ m) (hr : W .regions = true) {rid : Nat} {f : Region → Region} :
    Kept W e m₀ (m.onRegion rid f) := h.regions hr

theorem Kept.setKey (h : Kept W e m₀ m) (hr : W .regions = true) {rid : Nat} {x : Key} : Kept W e m₀ (m.setKey rid x) :=
  h.onRegion hr

theorem Kept.transit (h : Kept W e m₀ m) (hr : W .regions = true) {r : Region} {x : Hold} : Kept W e m₀ (m.transit r x) :=
  .ite (h.onRegion hr) h

theorem Kept.remoteShares (h : Kept W e m₀ m) (hA : Agent W) {l : List (BitVec 10 × Nat × Nat × Gid × Right)} :
    Kept W e m₀ { m with remoteShares := l } := h.tables hA.pkg rfl

theorem Kept.status (h : Kept W e m₀ m) (hA : Agent W) {l : Landing} {code : Nat} {fin : List Fin_} :
    Kept W e m₀ (e.status m l code fin) := h.startValues hA.ops

theorem Kept.refused (h : Kept W e m₀ m) (hA : Agent W) {l : Landing} {code : Nat} {x : Hold} :
    Kept W e m₀ (e.refused m l code x) := (h.later hA.state).status hA

theorem Kept.racedOf (h : Kept W e m₀ m) (hA : Agent W) {codes : List Nat} : Kept W e m₀ (m.racedOf codes).2 := h.choice hA.free

theorem Kept.raced (h : Kept W e m₀ m) (hA : Agent W) {l : Landing} : Kept W e m₀ (e.raced m l) :=
  (h.racedOf hA (codes := [1, 2, 3, 4, 5, 6, 8])).status hA

/-! ### Passing a key on -/

theorem Env.lendFar_kept (h : Kept W e m₀ m) (hA : Agent W) {p : BitVec 10} {w b : Word} {a : Nat} {park : Bool} {l : Landing} :
    (e.lendFar m p w a park b l).Gives W (Kept W e m₀) := by
  simp only [Env.lendFar]
  split
  · exact hA.stop
  split
  · exact h.status hA
  split
  · split
    · exact h.status hA
    split
    · exact h.portError.status hA
    · exact (h.remoteShares hA).start hA.ops
  split
  · exact h.status hA
  · exact (h.remoteShares hA).start hA.ops

theorem lendBody_kept (h : Kept W e m₀ m) (hA : Agent W) (hr : W .regions = true) {park : Bool} {d : Dst} {sp : Space} {a b : Src} :
    (lendBody park d sp a b e m).Gives W (Kept W e m₀) := by
  refine (Env.src2_kept h).bind fun ⟨w, v, m⟩ h => (Env.dst_kept h).bind fun ⟨l, m⟩ h => hA.skip fun ka => ?_
  dsimp only
  split
  · exact Env.lendFar_kept h hA
  refine hA.skip fun ⟨r, x⟩ => ?_
  dsimp only
  split
  · exact h.raced hA
  split
  · exact h.refused hA
  · exact h.portError.refused hA
  · exact ((h.transit hr).later hA.state).start hA.ops

theorem retnBody_kept (h : Kept W e m₀ m) (hA : Agent W) (hr : W .regions = true) {d : Dst} {sp : Space} {a : Src} :
    (retnBody d sp a e m).Gives W (Kept W e m₀) := by
  refine (Env.src_kept h).bind fun ⟨w, m⟩ h => (Env.dst_kept h).bind fun ⟨l, m⟩ h => hA.skip fun ka => ?_
  dsimp only
  split
  · split
    · split
      · exact (h.remoteShares hA).portError.status hA
      · exact h.portError.status hA
    split
    · exact hA.stop
    split
    · exact h.status hA
    · exact (h.remoteShares hA).start hA.ops
  refine hA.skip fun ⟨r, x⟩ => ?_
  dsimp only
  split
  · exact h.raced hA
  split
  · exact h.refused hA
  · exact ((h.ite (h.transit hr)).later hA.state).start hA.ops

/-! ### Splitting and joining -/

theorem splitAddrBody_kept (h : Kept W e m₀ m) (hA : Agent W) (hr : W .regions = true) (hv : W (.core .view) = true) {d : Dst}
    {sp : Space} {a b : Src} : (splitAddrBody d sp a b e m).Gives W (Kept W e m₀) := by
  refine (Env.src2_kept h).bind fun ⟨w, v, m⟩ h => (Env.dst_kept h).bind fun ⟨l, m⟩ h => hA.skip fun ka => hA.skip fun r => ?_
  dsimp only
  split
  · exact h.refused hA
  refine hA.skip fun _ => ?_
  split
  · exact h.raced hA
  split
  · exact h.refused hA
  refine hA.skip fun home => ?_
  split
  · exact h.refused hA
  · have parted {l : List Region} : Kept W e m₀ { m.fresh.2 with regions := l } := h.fresh.regions hr
    exact (((parted.atCore fun _ => Core.keeps_view hv).later hA.state).later hA.state).status hA

theorem splitBody_kept (h : Kept W e m₀ m) (hA : Agent W) (hr : W .regions = true) {st : KState} {d : Dst} {sp : Space} {a b : Src} :
    (splitBody st d sp a b e m).Gives W (Kept W e m₀) := by
  refine (Env.src2_kept h).bind fun ⟨w, v, m⟩ h => (Env.dst_kept h).bind fun ⟨l, m⟩ h => hA.skip fun ka => hA.skip fun r => ?_
  dsimp only
  split
  · exact h.raced hA
  split
  · exact h.refused hA
  split
  · exact h.refused hA
  split
  · exact h.refused hA
  · exact ((h.setKey hr).later hA.state).status hA

theorem splitCmnBody_kept (h : Kept W e m₀ m) (hA : Agent W) {d : Dst} {sp : Space} {a : Src} :
    (splitCmnBody d sp a e m).Gives W (Kept W e m₀) := by
  refine (Env.src_kept h).bind fun ⟨w, m⟩ h => (Env.dst_kept h).bind fun ⟨l, m⟩ h => hA.skip fun ka => hA.skip fun r => ?_
  dsimp only
  split
  · exact h.raced hA
  split
  · exact h.refused hA
  · exact (h.later hA.state).start hA.ops

theorem joinAddrBody_kept (h : Kept W e m₀ m) (hA : Agent W) (hr : W .regions = true) (hv : W (.core .view) = true) {d : Dst}
    {sp : Space} {a b : Src} : (joinAddrBody d sp a b e m).Gives W (Kept W e m₀) := by
  refine (Env.src2_kept h).bind fun ⟨w, v, m⟩ h => (Env.dst_kept h).bind fun ⟨l, m⟩ h => hA.skip fun ka => hA.skip fun r =>
    hA.skip fun x => ?_
  dsimp only
  split
  · exact h.raced hA
  split
  · exact h.refused hA
  split
  · exact h.refused hA
  · have joined {l : List Region} : Kept W e m₀ { m with regions := l } := h.regions hr
    exact ((joined.atCore fun _ => Core.keeps_view hv).later hA.state).status hA

theorem joinShrBody_kept (h : Kept W e m₀ m) (hA : Agent W) (hr : W .regions = true) {d : Dst} {sp : Space} {a : Src} :
    (joinShrBody d sp a e m).Gives W (Kept W e m₀) :=
  (Env.src_kept h).bind fun ⟨_, _⟩ h => (Env.dst_kept h).bind fun ⟨_, _⟩ h => hA.skip fun _ => hA.skip fun _ => hA.skip fun _ =>
    hA.skip fun _ => ((h.setKey hr).later hA.state).status hA

theorem joinCmnBody_kept (h : Kept W e m₀ m) (hA : Agent W) (hr : W .regions = true) {d : Dst} {sp : Space} {a : Src} :
    (joinCmnBody d sp a e m).Gives W (Kept W e m₀) := by
  refine (Env.src_kept h).bind fun ⟨w, m⟩ h => (Env.dst_kept h).bind fun ⟨l, m⟩ h => hA.skip fun ka => hA.skip fun ⟨r, code⟩ => ?_
  dsimp only
  split
  · exact h.status hA
  · exact hA.skip fun _ => (h.setKey hr).status hA

theorem joinRingBody_kept (h : Kept W e m₀ m) (hA : Agent W) (hr : W .regions = true) {d : Dst} {sp : Space} {a : Src} :
    (joinRingBody d sp a e m).Gives W (Kept W e m₀) := by
  refine (Env.src_kept h).bind fun ⟨w, m⟩ h => (Env.dst_kept h).bind fun ⟨l, m⟩ h => hA.skip fun ka => hA.skip fun ⟨r, code⟩ => ?_
  dsimp only
  split
  · exact h.status hA
  · exact h.status hA
  refine hA.skip fun _ => ?_
  split
  · exact (h.onRegion hr).status hA
  · exact h.status hA

/-! ### Waiting for a key -/

theorem keywArrBody_kept (h : Kept W e m₀ m) (hA : Agent W) {d : Dst} {sp : Space} {a : Src} :
    (keywArrBody d sp a e m).Gives W (Kept W e m₀) := by
  refine (Env.src_kept h).bind fun ⟨w, m⟩ h => (Env.dst_kept h).bind fun ⟨l, m⟩ h => ?_
  dsimp only
  split
  · exact h.status hA
  refine hA.skip fun ka => hA.skip fun r => ?_
  split
  · exact h.status hA
  · exact hA.skip fun _ => h.status hA

theorem keywTktBody_kept (h : Kept W e m₀ m) (hA : Agent W) (hr : W .regions = true) {d : Dst} {sp : Space} {a b : Src} :
    (keywTktBody d sp a b e m).Gives W (Kept W e m₀) := by
  refine (Env.src2_kept h).bind fun ⟨w, v, m⟩ h => (Env.dst_kept h).bind fun ⟨l, m⟩ h => ?_
  dsimp only
  split
  · exact h.status hA
  refine hA.skip fun ka => ?_
  split
  · split
    · exact h.portError.status hA
    split
    · exact h.status hA
    split
    · exact hA.stop
    · exact hA.stop
    · rw [Chk.gives_ok]
      refine Kept.status ?_ hA
      split
      · exact h.tables hA.pkg rfl
      · exact h.tables hA.pkg rfl
  refine hA.skip fun r => ?_
  split
  · exact h.status hA
  split
  · exact h.status hA
  · generalize r.take _ _ _ = took
    split
    · exact hA.stop
    · exact (h.setKey hr).status hA

theorem keywFreeBody_kept (h : Kept W e m₀ m) (hA : Agent W) (hr : W .regions = true) {d : Dst} {sp : Space} {a : Src} :
    (keywFreeBody d sp a e m).Gives W (Kept W e m₀) := by
  refine (Env.src_kept h).bind fun ⟨w, m⟩ h => (Env.dst_kept h).bind fun ⟨l, m⟩ h => ?_
  dsimp only
  split
  · exact h.status hA
  refine hA.skip fun ka => hA.skip fun r => hA.skip fun _ => ?_
  split
  · exact h.status hA
  · exact hA.skip fun _ => (h.setKey hr).status hA

theorem keyqBody_kept (h : Kept W e m₀ m) (hA : Agent W) {d : Dst} {sp : Space} {a : Src} :
    (keyqBody d sp a e m).Gives W (Kept W e m₀) := by
  refine (Env.src_kept h).bind fun ⟨w, m⟩ h => (Env.dst_kept h).bind fun ⟨l, m⟩ h => hA.skip fun ka => ?_
  have asked {l : List Reply} {o : List Sent} : Kept W e m₀ { m with inbox := l, outbox := o } := h.tables hA.pkg rfl
  dsimp only
  split
  · split
    · exact h.portError.startValues hA.ops
    split
    · exact hA.stop
    · exact asked.startValues hA.ops
  · exact h.startValues hA.ops

/-! ### Blocks -/

theorem Kept.blockDone (h : Kept W e m₀ m) (hA : Agent W) {l : Landing} {v : Word} {fin : List Fin_} :
    Kept W e m₀ (e.blockDone m l v fin) := (h.start hA.ops).block

theorem Kept.blockRaced (h : Kept W e m₀ m) (hA : Agent W) {l : Landing} {codes : List Nat} :
    Kept W e m₀ (e.blockRaced m l codes) := (h.racedOf hA (codes := codes)).blockDone hA

theorem Kept.blockStart (h : Kept W e m₀ m) (hA : Agent W) {x : OpKind} {l : Landing} {fin : List Fin_} :
    Kept W e m₀ (e.blockStart m x l fin) := (h.start hA.ops).block

theorem Kept.openHandle (h : Kept W e m₀ m) (hA : Agent W) (hr : W .regions = true) {t : Trust} {key : Key} {ctx : BitVec 6}
    {a shape : Word} : Kept W e m₀ (openHandle t m key ctx a shape).2.1 := by
  have opened {s : List BSeq} {l : List Region} : Kept W e m₀ { m.fresh.2 with seqs := s, regions := l } :=
    h.fresh.fields rfl rfl (.inl hA.pkg) (.inr rfl) (.inr rfl) (.inl hr) (.inr rfl) (.inr rfl)
  simp only [Machine.openHandle]
  split
  · exact h
  split
  · exact h
  split
  · exact h
  split
  · exact h
  · exact opened

theorem bopnBody_kept (h : Kept W e m₀ m) (hA : Agent W) (hr : W .regions = true) {d : Dst} {a b : Src} :
    (bopnBody d a b e m).Gives W (Kept W e m₀) :=
  (Env.src2_kept h).bind fun ⟨_, _, _⟩ h => (Env.dst_kept h).bind fun ⟨_, _⟩ h => (h.openHandle hA hr).blockDone hA

theorem bshrBody_kept (h : Kept W e m₀ m) (hA : Agent W) {d : Dst} {a b : Src} : (bshrBody d a b e m).Gives W (Kept W e m₀) := by
  refine (Env.src2_kept h).bind fun ⟨x, y, m⟩ h => (Env.dst_kept h).bind fun ⟨l, m⟩ h => hA.skip fun _ => hA.skip fun _ =>
    hA.skip fun ⟨r, hold⟩ => hA.skip fun q => ?_
  dsimp only
  split
  · exact h.blockRaced hA
  have dropped {l : Later} : Kept W e m₀ (e.later l m) := h.later hA.state
  split
  · exact (dropped.ite (dropped.later hA.state)).blockDone hA
  · exact (dropped.ite (dropped.later hA.state)).blockStart hA

/-- What BFRE does once its operands are read. -/
def bfreRest (f : Option BfreOp) (d : Dst) (x n : Word) (e : Env) (m : Mach) : Chk Mach := do
  let range := decide (f = some .rng ∨ f = some .lyrs)
  let (l, m) ← e.dst m d .pending
  let s ← e.openSeq m x
  if f = some .rng then layerOk s x false else .ok ()
  let r ← e.exclRegion m .blk x x.toNat
  if !m.rackHas e.c r.rid .excl then .ok (e.blockRaced m l [4])
  else
  let m := e.later (.dropHold ⟨r.rid, .excl⟩) m
  let block := baBlock x.toNat
  if range && !decide (1 ≤ n.toNat ∧ n.toNat ≤ 2 ^ 20 ∧ block + n.toNat ≤ 2 ^ 20) then
    .ok (e.blockDone m l (stWord stBadarg) [.shows r.rid])
  else
    .ok (e.blockStart m (.bfre s.handle f (baLayer x.toNat) block n.toNat) l (if f.isNone then [] else [.shows r.rid]))

theorem bfreRest_kept (h : Kept W e m₀ m) (hA : Agent W) {f : Option BfreOp} {d : Dst} {x n : Word} :
    (bfreRest f d x n e m).Gives W (Kept W e m₀) := by
  refine (Env.dst_kept h).bind fun ⟨l, m⟩ h => hA.skip fun s => ?_
  have dropped {l : Later} : Kept W e m₀ (e.later l m) := h.later hA.state
  dsimp only
  split <;>
  · refine hA.skip fun _ => hA.skip fun r => ?_
    split
    · exact h.blockRaced hA
    split
    · exact dropped.blockDone hA
    · exact dropped.blockStart hA

theorem bfreBody_eq {d : Dst} {f : Option BfreOp} {a b : Src} : bfreBody d f a b e m = (do
    let (x, m) ← e.src m a
    let (n, m) ← if decide (f = some .rng ∨ f = some .lyrs) then e.src m b else .ok (1, m)
    bfreRest f d x n e m) := rfl

theorem bfreBody_kept (h : Kept W e m₀ m) (hA : Agent W) {d : Dst} {f : Option BfreOp} {a b : Src} :
    (bfreBody d f a b e m).Gives W (Kept W e m₀) := by
  rw [bfreBody_eq]
  refine (Env.src_kept h).bind fun ⟨x, m⟩ h => ?_
  dsimp only
  split
  · exact (Env.src_kept h).bind fun ⟨_, _⟩ h => bfreRest_kept h hA
  · exact bfreRest_kept h hA

theorem binvBody_kept (h : Kept W e m₀ m) (hA : Agent W) {d : Dst} {all : Bool} {a b : Src} :
    (binvBody d all a b e m).Gives W (Kept W e m₀) :=
  (Env.src2_kept h).bind fun ⟨_, _, _⟩ h => (Env.dst_kept h).bind fun ⟨_, _⟩ h => hA.skip fun _ => hA.skip fun _ =>
    hA.skip fun _ => h.blockStart hA

theorem bqryBody_kept (h : Kept W e m₀ m) (hA : Agent W) {d : Dst} {f : BqryOp} {a : Src} :
    (bqryBody d f a e m).Gives W (Kept W e m₀) := by
  refine (Env.src_kept h).bind fun ⟨x, m⟩ h => (Env.dst_kept h).bind fun ⟨l, m⟩ h => hA.skip fun s => ?_
  dsimp only
  split <;>
  · refine hA.skip fun _ => ?_
    split
    · exact h.blockDone hA
    · exact hA.skip fun _ => h.blockDone hA

theorem Kept.unreserve (h : Kept W e m₀ m) (hA : Agent W) {s : BSeq} {n : Nat} : Kept W e m₀ (m.unreserve s n) :=
  (h.onBseq hA.pkg).onPool hA.pkg

theorem Kept.reserveFrames (h : Kept W e m₀ m) (hA : Agent W) {rel : Bool} {ctx : BitVec 6} {s : BSeq} {n : Nat} :
    Kept W e m₀ (reserveFrames rel ctx s n m).2 := by
  simp only [Machine.reserveFrames]
  split
  · exact h
  split
  · exact h.unreserve hA
  split
  · dsimp only
    exact (h.onBseq hA.pkg).onPool hA.pkg
  · exact h

theorem bgrwBody_kept (h : Kept W e m₀ m) (hA : Agent W) {d : Dst} {rel : Bool} {a b : Src} :
    (bgrwBody d rel a b e m).Gives W (Kept W e m₀) :=
  (Env.src2_kept h).bind fun ⟨_, _, _⟩ h => (Env.dst_kept h).bind fun ⟨_, _⟩ h => hA.skip fun _ => hA.skip fun _ =>
    (h.reserveFrames hA).blockDone hA

end
end Sys2Proof.Machine
end

