-- ==== Sys2Proof/Proofs/FrameAgents.lean ====
section
/-! SUPPORT for the statement about what instructions leave unchanged: hand-offs, weight loads, rings, relays, launches, error
banks, collectives and the system's registers. -/

namespace Sys2Proof.Machine

section
variable {W : Part → Bool} {e : Env} {m₀ m : Mach} {k : Core} {q : SeqId}

/-! ### Hand-offs and weight loads -/

theorem hoffBody_kept (h : Kept W e m₀ m) (hA : Agent W) (ho : OwnerRule W e m₀) {d : Dst} {a : Src} :
    (hoffBody d a e m).Gives W (Kept W e m₀) := by
  refine (Env.src_kept h).bind fun ⟨w, m⟩ h => (Env.dst_kept h).bind fun ⟨l, m⟩ h =>
    (Env.record_kept h hA ho).bind fun ⟨ds, m⟩ h => hA.skip fun _ => ?_
  dsimp only
  split
  · exact hA.stop
  refine hA.skip fun _ => hA.skip fun _ => ?_
  split
  · exact hA.stop
  refine hA.skip fun _ => hA.skip fun _ => hA.skip fun _ => ?_
  split
  · exact hA.stop
  refine hA.skip fun _ => hA.skip fun _ => hA.skip fun _ => hA.skip fun kr => hA.skip fun vr => ?_
  split
  · exact hA.stop
  refine hA.skip fun _ => hA.skip fun hr => hA.skip fun _ => hA.skip fun _ => ?_
  split
  · exact Chk.gives_ok.2 (Kept.startValues (m := (m.racedOf hoffCodes).2) (h.racedOf hA) hA.ops)
  · exact ((((h.objStart hA).later hA.state).later hA.state).later hA.state).start hA.ops

theorem hctlBody_kept (h : Kept W e m₀ m) (hA : Agent W) {form : Nat} {d : Dst} {a : Src} :
    (hctlBody form d a e m).Gives W (Kept W e m₀) :=
  (Env.src_kept h).bind fun ⟨_, _⟩ h => (Env.dst_kept h).bind fun ⟨_, _⟩ h => h.start hA.ops

theorem hctlQryBody_kept (h : Kept W e m₀ m) (hA : Agent W) {d : Dst} {a b : Src} :
    (hctlQryBody d a b e m).Gives W (Kept W e m₀) :=
  (Env.src2_kept h).bind fun ⟨_, _, _⟩ h => (Env.dst_kept h).bind fun ⟨_, _⟩ h => hA.skip fun _ => h.start hA.ops

theorem cwldBody_kept (h : Kept W e m₀ m) (hA : Agent W) (ho : OwnerRule W e m₀) {d : Dst} {a : Src} :
    (cwldBody d a e m).Gives W (Kept W e m₀) := by
  refine (Env.src_kept h).bind fun ⟨v, m⟩ h => (Env.dst_kept h).bind fun ⟨l, m⟩ h =>
    (Env.record_kept h hA ho).bind fun ⟨w, m⟩ h => hA.skip fun _ => hA.skip fun _ => hA.skip fun _ => ?_
  dsimp only
  split
  · exact hA.stop
  refine hA.skip fun _ => hA.skip fun _ => ?_
  split
  · exact hA.stop
  refine hA.skip fun _ => ?_
  split
  · exact hA.stop
  refine hA.skip fun _ => hA.skip fun _ => ?_
  split
  · exact Chk.gives_ok.2 (Kept.status (m := (m.racedOf [stNotarget, stBadarg]).2) (h.racedOf hA) hA)
  · exact (foldl_kept h fun _ _ h => h.later hA.state).start hA.ops

/-! ### Rings -/

theorem Kept.onRing (h : Kept W e m₀ m) (hr : W .regions = true) {rid : Nat} {f : Ring → Ring} : Kept W e m₀ (m.onRing rid f) :=
  h.onRegion hr

theorem riniBody_kept (h : Kept W e m₀ m) (hA : Agent W) (hr : W .regions = true) {d : Dst} {a b : Src} :
    (riniBody d a b e m).Gives W (Kept W e m₀) := by
  refine (Env.src2_kept h).bind fun ⟨w, v, m⟩ h => (Env.dst_kept h).bind fun ⟨l, m⟩ h => hA.skip fun _ => hA.skip fun r => ?_
  dsimp only
  split
  · exact h.raced hA
  split
  · exact h.refused hA
  split
  · exact h.refused hA
  · exact ((h.onRegion hr).later hA.state).status hA

theorem rqryBody_kept (h : Kept W e m₀ m) (hA : Agent W) {d : Dst} {a : Src} : (rqryBody d a e m).Gives W (Kept W e m₀) := by
  refine (Env.src_kept h).bind fun ⟨w, m⟩ h => (Env.dst_kept h).bind fun ⟨l, m⟩ h => hA.skip fun _ => ?_
  dsimp only
  split
  · exact hA.stop
  · exact hA.skip fun _ => h.startValues hA.ops

theorem rclmBody_kept (h : Kept W e m₀ m) (hA : Agent W) (hr : W .regions = true) {d : Dst} {a b : Src} :
    (rclmBody d a b e m).Gives W (Kept W e m₀) := by
  refine (Env.src2_kept h).bind fun ⟨w, v, m⟩ h => (Env.dst_kept h).bind fun ⟨l, m⟩ h => hA.skip fun _ => ?_
  dsimp only
  split
  · exact (h.onRing hr).startValues hA.ops
  · exact h.startValues hA.ops

theorem rwfrBody_kept (h : Kept W e m₀ m) (hA : Agent W) {d : Dst} {a b : Src} : (rwfrBody d a b e m).Gives W (Kept W e m₀) :=
  (Env.src2_kept h).bind fun ⟨_, _, _⟩ h => (Env.dst_kept h).bind fun ⟨_, _⟩ h => hA.skip fun _ => hA.skip fun _ =>
    h.startValues hA.ops

theorem rwflBody_kept (h : Kept W e m₀ m) (hA : Agent W) (hr : W .regions = true) {d : Dst} {a b : Src} :
    (rwflBody d a b e m).Gives W (Kept W e m₀) :=
  (Env.src2_kept h).bind fun ⟨_, _, _⟩ h => (Env.dst_kept h).bind fun ⟨_, _⟩ h => hA.skip fun _ => hA.skip fun _ =>
    ((h.onRing hr).start hA.ops).block

theorem rpubBody_kept (h : Kept W e m₀ m) (hA : Agent W) {a b : Src} : (rpubBody a b e m).Gives W (Kept W e m₀) :=
  (Env.src2_kept h).bind fun ⟨_, _, _⟩ h => hA.skip fun _ => hA.skip fun _ => (h.later hA.state).start hA.ops

theorem rrelBody_kept (h : Kept W e m₀ m) (hA : Agent W) {a b : Src} : (rrelBody a b e m).Gives W (Kept W e m₀) :=
  (Env.src2_kept h).bind fun ⟨_, _, _⟩ h => hA.skip fun _ => hA.skip fun _ => (h.later hA.state).start hA.ops

/-! ### Relays -/

theorem Kept.channels (h : Kept W e m₀ m) (hc : W .channels = true) {l : List Channel} : Kept W e m₀ { m with channels := l } :=
  h.fields rfl rfl (.inr rfl) (.inr rfl) (.inr rfl) (.inr rfl) (.inl hc) (.inr rfl)

theorem Kept.onDir (h : Kept W e m₀ m) (hc : W .channels = true) {num : Nat} {toFf : Bool} {f : RelayDir → RelayDir} :
    Kept W e m₀ (m.onDir num toFf f) := h.channels hc

theorem Kept.doneWaiting (h : Kept W e m₀ m) (hc : W .channels = true) {num c : Nat} {g : Gid} :
    Kept W e m₀ (m.doneWaiting num c g) := h.channels hc

theorem rlysBody_kept (h : Kept W e m₀ m) (hA : Agent W) (hc : W .channels = true) {d : Dst} {s : RlySrc} {a b : Src} :
    (rlysBody d s a b e m).Gives W (Kept W e m₀) := by
  refine (Env.src2_kept h).bind fun ⟨w, v, m⟩ h => (Env.dst_kept h).bind fun ⟨l, m⟩ h => hA.skip fun f => ?_
  dsimp only
  split
  · exact (h.doneWaiting hc).status hA
  refine hA.skip fun _ => ?_
  split
  · exact h.status hA
  · exact hA.skip fun _ => hA.skip fun _ => hA.skip fun _ => ((h.onDir hc).objStart hA).start hA.ops

theorem rlygBody_kept (h : Kept W e m₀ m) (hA : Agent W) {form : Nat} {d : Dst} {a b : Src} :
    (rlygBody form d a b e m).Gives W (Kept W e m₀) := by
  refine (Env.src2_kept h).bind fun ⟨w, v, m⟩ h => (Env.dst_kept h).bind fun ⟨l, m⟩ h => hA.skip fun f => ?_
  dsimp only
  split
  · exact hA.stop
  · exact hA.skip fun _ => h.start hA.ops

theorem rlywBody_kept (h : Kept W e m₀ m) (hA : Agent W) (hc : W .channels = true) {d : Dst} {a b : Src} :
    (rlywBody d a b e m).Gives W (Kept W e m₀) := by
  refine (Env.src2_kept h).bind fun ⟨w, v, m⟩ h => (Env.dst_kept h).bind fun ⟨l, m⟩ h => hA.skip fun f => ?_
  dsimp only
  split
  · exact ((h.doneWaiting hc).start hA.ops).block
  refine hA.skip fun _ => ?_
  split
  · exact ((h.onDir hc).start hA.ops).block
  · exact hA.skip fun _ => (h.start hA.ops).block

/-! ### Error banks, launches and collectives -/

theorem errqRdBody_kept (h : Kept W e m₀ m) (hA : Agent W) {d : Dst} {a b : Src} : (errqRdBody d a b e m).Gives W (Kept W e m₀) :=
  (Env.src2_kept h).bind fun ⟨_, _, _⟩ h => (Env.dst_kept h).bind fun ⟨_, _⟩ h => hA.skip fun _ => h.startValues hA.ops

theorem errqClrBody_kept (h : Kept W e m₀ m) (hA : Agent W) {d : Dst} {a b : Src} :
    (errqClrBody d a b e m).Gives W (Kept W e m₀) := by
  refine (Env.src2_kept h).bind fun ⟨w, v, m⟩ h => (Env.dst_kept h).bind fun ⟨l, m⟩ h => hA.skip fun _ => ?_
  dsimp only
  split
  · exact h.status hA
  · rw [Chk.gives_ok]
    refine Kept.startValues ?_ hA.ops
    split
    · exact h.fields rfl rfl (.inr rfl) (.inr rfl) (.inr rfl) (.inr rfl) (.inr rfl) (.inr rfl)
    · exact h

theorem errqSumBody_kept (h : Kept W e m₀ m) (hA : Agent W) {zero : Bool} {d : Dst} {a : Src} :
    (errqSumBody zero d a e m).Gives W (Kept W e m₀) :=
  (Env.src_kept h).bind fun ⟨_, _⟩ h => (Env.dst_kept h).bind fun ⟨_, _⟩ h => hA.skip fun _ => h.startValues hA.ops

theorem lnchNodeBody_kept (h : Kept W e m₀ m) (hA : Agent W) {d : Dst} {a : Src} : (lnchNodeBody d a e m).Gives W (Kept W e m₀) :=
  (Env.src_kept h).bind fun ⟨_, _⟩ h => (Env.dst_kept h).bind fun ⟨_, _⟩ h => h.start hA.ops

theorem lnchReqBody_kept (h : Kept W e m₀ m) (hA : Agent W) (ho : OwnerRule W e m₀) {d : Dst} {a : Src} :
    (lnchReqBody d a e m).Gives W (Kept W e m₀) :=
  (Env.src_kept h).bind fun ⟨_, _⟩ h => (Env.dst_kept h).bind fun ⟨_, _⟩ h => (Env.record_kept h hA ho).bind fun ⟨_, _⟩ h =>
    h.start hA.ops

theorem clgtSetBody_kept (h : Kept W e m₀ m) (hA : Agent W) (ho : OwnerRule W e m₀) {d : Dst} {a b : Src} :
    (clgtSetBody d a b e m).Gives W (Kept W e m₀) := by
  refine (Env.src2_kept h).bind fun ⟨w, v, m⟩ h => (Env.dst_kept h).bind fun ⟨l, m⟩ h => hA.skip fun g =>
    (Env.record_kept h hA ho).bind fun ⟨hd, m⟩ h => hA.skip fun _ => (Env.record_kept h hA ho).bind fun ⟨ls, m⟩ h => ?_
  dsimp only at h ⊢
  rw [Chk.gives_ok]
  refine Kept.blockDone ?_ hA
  split
  · exact h
  split
  · exact h
  · exact h.tables hA.pkg rfl

theorem clgtClrBody_kept (h : Kept W e m₀ m) (hA : Agent W) {d : Dst} {a : Src} : (clgtClrBody d a e m).Gives W (Kept W e m₀) :=
  (Env.src_kept h).bind fun ⟨_, _⟩ h => (Env.dst_kept h).bind fun ⟨_, _⟩ h => hA.skip fun _ => h.blockStart hA

theorem clgtQryBody_kept (h : Kept W e m₀ m) (hA : Agent W) {d : Dst} {a b : Src} : (clgtQryBody d a b e m).Gives W (Kept W e m₀) :=
  (Env.src2_kept h).bind fun ⟨_, _, _⟩ h => (Env.dst_kept h).bind fun ⟨_, _⟩ h => hA.skip fun _ => h.blockDone hA

theorem clrdBody_kept (h : Kept W e m₀ m) (hA : Agent W) {d : Dst} {a b : Src} : (clrdBody d a b e m).Gives W (Kept W e m₀) := by
  refine (Env.src2_kept h).bind fun ⟨w, v, m⟩ h => (Env.dst_kept h).bind fun ⟨l, m⟩ h => hA.skip fun g => hA.skip fun _ => ?_
  dsimp only
  split
  · exact h.blockDone hA
  refine hA.skip fun _ => hA.skip fun _ => ?_
  split
  · exact hA.stop
  · exact hA.stop
  refine hA.skip fun _ => ?_
  split
  · exact h.blockDone hA
  · exact hA.skip fun _ => (h.onCollective hA.pkg).blockStart hA

/-! ### System registers and traps -/

theorem srrBody_kept (h : Kept W e m₀ m) {d : Dst} {r : SysReg} : (srrBody d r e m).Gives W (Kept W e m₀) :=
  (Env.dst_kept h).bind fun ⟨_, _⟩ h => h.timed

theorem Kept.setSysReg (h : Kept W e m₀ m) (hA : Agent W) (hs : W (.core (.seq .settings)) = true)
    (ht : W (.core (.seq .trap)) = true) {r : SysReg} {v : Word} : Kept W e m₀ (e.setSysReg m r v) := by
  have kept {f : Seq → Seq} (hf : ∀ s : Seq, (f s).clock = s.clock ∧ (f s).exited = s.exited ∧ (f s).undo = s.undo) :
      Kept W e m₀ (m.onSeq e.c e.q f) :=
    h.atCore fun _ => Core.keeps_onSeq fun p hp => by
      obtain ⟨hclock, hexited, hundo⟩ := hf (Core.seq _ e.q)
      cases p with
      | clock => exact hclock
      | exited => exact hexited
      | undo => exact hundo
      | settings => simp [hs] at hp
      | trap => simp [ht] at hp
  cases r with
  | status => exact kept fun _ => ⟨rfl, rfl, rfl⟩
  | trappc => exact kept fun _ => ⟨rfl, rfl, rfl⟩
  | wdlimit => exact kept fun _ => ⟨rfl, rfl, rfl⟩
  | srseed => exact h.later hA.state
  | _ => exact h

theorem srwBody_kept (h : Kept W e m₀ m) (hA : Agent W) (hs : W (.core (.seq .settings)) = true)
    (ht : W (.core (.seq .trap)) = true) {r : SysReg} {b : Src} : (srwBody r b e m).Gives W (Kept W e m₀) :=
  (Env.src_kept h).bind fun ⟨_, _⟩ h => (h.setSysReg hA hs ht).finishNow

/-- TRAP ends as a trap does. -/
theorem trapBody_ends (h : Kept W e m₀ m) (hc : ClauseFree W e m₀) {a : Src} : (trapBody a e m).Gives W (Ends W e m₀) :=
  (Env.src_kept h).bind fun ⟨_, _⟩ h => h.finishNow.trans_ends (takeTrap_ends (h.finishNow.clauseFree hc))

theorem tretBody_kept (h : Kept W e m₀ m) (hA : Agent W) (ht : W (.core (.seq .trap)) = true) :
    (tretBody e m).Gives W (Kept W e m₀) := by
  refine hA.skip fun _ => Chk.gives_ok.2 (h.finishNow.atCore fun _ => Core.keeps_onSeq fun p hp => ?_)
  cases p with
  | trap => simp [ht] at hp
  | _ => rfl

end
end Sys2Proof.Machine
end

