-- ==== Sys2Proof/Proofs/FrameExec.lean ====
section
/-! SUPPORT for the statement about what instructions leave unchanged: the parts that each instruction may write. -/

namespace Sys2Proof.Machine

/-! ### What an instruction may write -/

/-- The instructions that start something of the package's: neither control, nor integer, nor vector. -/
def isOutward (i : Instr) : Bool := !isControl i && !isVector i && (intForm i).isNone

/-- Those of them that may write the queues, the masks, the clause and the buffers: the loads and stores and the instructions of the
array and the column, and a reserved word. -/
def isWide (i : Instr) : Bool := isOutward i && !isAgentForm i

/-- The instructions that change the group itself. -/
def changesGroup : Instr → Bool
  | .leaseAcq .. | .leaseRel .. | .exit .. => true
  | _ => false

/-- The control instructions that drop entries of a queue. -/
def clearsQueue : Instr → Bool
  | .qopDrop .. | .qopClr .. => true
  | _ => false

/-- The instructions that change the key view as they start. -/
def dividesView : Instr → Bool
  | .splitAddr .. | .joinAddr .. => true
  | _ => false

/-- The instructions that change the table of arrays as they start. -/
def writesArrays : Instr → Bool
  | .leaseRel .. | .wld .. => true
  | _ => false

/-- The instructions that change the table of channels as they start. -/
def writesChannels : Instr → Bool
  | .rlys .. | .rlyw .. => true
  | _ => false

/-- What may be so when an instruction starts: every granule of local memory is the group's own, a clause is open, a pre-emption that
takes the sequencer holds results back. -/
structure Case where
  owned : Bool
  clause : Bool
  held : Bool

/-- The parts that an instruction may write as it starts or stops, a trap apart. -/
def mayWrite (x : Case) (i : Instr) : Part → Bool
  | .outside | .cores => false
  | .pkg => isOutward i
  | .free => isOutward i || isVector i
  | .arrays => writesArrays i
  | .regions => changesRegions i
  | .channels => writesChannels i
  | .dram => mayTakeFrame i || (startsInLocal i && !x.owned)
  | .core .fixed => false
  | .core .local_ | .core .granules => startsInLocal i && !x.owned
  | .core .group => changesGroup i || (startsInLocal i && !x.owned)
  | .core .vq => clearsQueue i || isVector i || isWide i || x.held
  | .core .masks => isVector i || isWide i || x.held
  | .core .seed => match i with | .srsdSet .. => true | _ => false
  | .core .step | .core .replay => isVector i || isWide i
  | .core .ops => isVector i || isOutward i || x.clause
  | .core .view => dividesView i
  | .core .rows => isWide i || x.clause
  | .core .lines | .core .posted => isWide i
  | .core .state => isOutward i
  | .core .others => x.held
  | .core (.seq .clock) => false
  | .core (.seq .exited) => match i with | .exit .. => true | _ => false
  | .core (.seq .settings) => (match i with | .srw .. => true | _ => false) || x.held
  | .core (.seq .trap) => (match i with | .srw .. => true | .tret .. => true | _ => false) || x.held
  | .core (.seq .undo) => x.held

/-- A case covers a state. -/
structure Case.Covers (x : Case) (s : State) : Prop where
  owned : x.owned = true → (s.mach.core s.cur).Owned
  clause : x.clause = false → (s.mach.core s.cur).clause = none
  held : x.held = false → (s.mach.core s.cur).preempting = false ∨ (s.mach.seq s.cur s.phase.seq).undo = []

section
variable {x : Case} {s t : State} {i : Instr} {e e' : Env} {m m' : Mach} {W : Part → Bool}

/-! ### The environment of an attempt -/

/-- Only the core and the sequencer of an environment say what its parts are. -/
theorem Kept.congr_env (hc : e'.c = e.c) (hq : e'.q = e.q) (h : Kept W e m m') : Kept W e' m m' := by
  intro p hp
  have kept := h p hp
  cases p with
  | cores => simpa only [Part.get, hc] using kept
  | core p => simpa only [Part.get, hc, hq] using kept
  | _ => exact kept

theorem Ends.congr_env (hc : e'.c = e.c) (hq : e'.q = e.q) (h : Ends W e m m') : Ends W e' m m' := by
  obtain h | ⟨h, ht⟩ := h
  · exact .inl (h.congr_env hc hq)
  · exact .inr ⟨h.congr_env hc hq, by rwa [hc, hq]⟩

theorem Case.Covers.unheld (hx : x.Covers s) (hc : e.c = s.cur) (hq : e.q = s.phase.seq) : Unheld (mayWrite x i) e s.mach := by
  cases hh : x.held with
  | true => exact .inl ⟨hh, by simp [mayWrite, hh], by simp [mayWrite, hh], hh, by simp [mayWrite, hh], by simp [mayWrite, hh]⟩
  | false => exact .inr ((hx.held hh).imp (fun h => ⟨rfl, by rw [hc, h]⟩) fun h => ⟨hh, by rw [hc, hq, h]⟩)

theorem Case.Covers.clauseFree (hx : x.Covers s) (hc : e.c = s.cur) : ClauseFree (mayWrite x i) e s.mach := by
  cases hr : mayWrite x i (.core .rows) with
  | true =>
    refine .inl ⟨hr, ?_⟩
    simp only [mayWrite, isWide, Bool.or_eq_true, Bool.and_eq_true] at hr ⊢
    exact hr.imp_left fun h => .inr h.1
  | false => exact .inr ⟨hr, by rw [hc, hx.clause (Bool.or_eq_false_iff.1 hr).2]⟩

theorem Case.Covers.ownerRule (hx : x.Covers s) (hc : e.c = s.cur) (hl : startsInLocal i = true) (hg : changesGroup i = false) :
    OwnerRule (mayWrite x i) e s.mach := by
  cases ho : x.owned with
  | true => exact .inr ⟨by simp [mayWrite, ho], by simp [mayWrite, ho, hg], by rw [hc]; exact hx.owned ho⟩
  | false => exact .inl ⟨by simp [mayWrite, ho, hl], by simp [mayWrite, ho, hl], by simp [mayWrite, ho, hl], by simp [mayWrite, ho, hl]⟩

theorem agent_of_outward (hi : isOutward i = true) : Agent (mayWrite x i) :=
  ⟨hi, by simp [mayWrite, hi], by simp [mayWrite, hi], hi⟩

theorem wide_of_isWide (hi : isWide i = true) : Wide (mayWrite x i) :=
  { agent_of_outward (Bool.and_eq_true_iff.1 hi).1 with
    vq := by simp [mayWrite, hi]
    rows := by simp [mayWrite, hi]
    lines := hi
    posted := hi
    masks := by simp [mayWrite, hi] }

theorem vectorial_of_isVector (hi : isVector i = true) : Vectorial (mayWrite x i) := by
  constructor <;> simp [mayWrite, hi]

/-! ### Every instruction -/

/-- The next state of an outcome that has one is what an instruction may leave: the state's own fields stay. -/
def EndsIn (x : Case) (i : Instr) (s : State) (o : Host.Outcome State Fault Refusal) : Prop :=
  ∀ t, o = .next t → t = { s with mach := t.mach } ∧ Ends (mayWrite x i) (envOf s i) s.mach t.mach

theorem attemptAt_mach {body : Env → Mach → Chk Mach} (hs : attemptAt e i body s = .next t) : t = { s with mach := t.mach } := by
  simp only [attemptAt] at hs
  split at hs <;> cases hs <;> rfl

section
variable {body : Env → Mach → Chk Mach}

theorem endsIn_attempt (hx : x.Covers s)
    (hb : ∀ m, Kept (mayWrite x i) (envOf s i) s.mach m →
      (body (envOf s i) m).Gives (mayWrite x i) (Kept (mayWrite x i) (envOf s i) s.mach)) :
    EndsIn x i s (attempt i body s) := fun _ hs => ⟨attemptAt_mach hs, attempt_ends (hx.clauseFree rfl) (hx.unheld rfl rfl) hb hs⟩

theorem endsIn_attemptNext (hx : x.Covers s)
    (hb : ∀ m, Kept (mayWrite x i) (envOf s i) s.mach m →
      (body (envOf s i) m).Gives (mayWrite x i) (Kept (mayWrite x i) (envOf s i) s.mach)) :
    EndsIn x i s (attemptNext i body s) := 
  endsIn_attempt hx fun m hm => (hb m hm).bind fun _ hm => hm.advance (hx.clauseFree rfl).rows

end

theorem execTrap_endsIn (hx : x.Covers s) {t : Tok} {a : Src} : EndsIn x (.trap t a) s (execTrap t a s) :=
  fun _ hs => ⟨attemptAt_mach hs,
    attemptAt_ends (hx.clauseFree rfl) (hx.unheld rfl rfl) (fun _ hm => trapBody_ends hm (hx.clauseFree rfl)) hs⟩

/-- A reserved word raises ILLOP, but one of ERRQ.sum's runs its checks (R47 to R49). -/
theorem execIllop_endsIn (hx : x.Covers s) {w : IWord} : EndsIn x (.illop w) s (execIllop w s) := by
  have hA : Agent (mayWrite x (.illop w)) := agent_of_outward rfl
  intro t hs
  unfold execIllop at hs
  split at hs
  · exact ⟨attemptAt_mach hs, (attemptAt_ends (hx.clauseFree rfl) (hx.unheld rfl rfl)
      (fun m hm => (errqSumBody_kept hm hA).imp fun _ => Kept.ends) hs).congr_env rfl rfl⟩
  · exact endsIn_attempt hx (fun _ _ => hA.stop) t hs

/-- Every encoded instruction keeps the parts that it may not write; but the trap registers where it takes a trap. -/
theorem exec_endsIn (hx : x.Covers s) (hi : i.isEvent = false) : EndsIn x i s (exec i s) := by
  have rows : mayWrite x i (.core .rows) = true ∨ (s.mach.core (envOf s i).c).clause = none :=
    (hx.clauseFree (i := i) (e := envOf s i) rfl).rows
  have unheld : Unheld (mayWrite x i) (envOf s i) s.mach := hx.unheld rfl rfl
  have owner (hl : startsInLocal i = true) (hg : changesGroup i = false) : OwnerRule (mayWrite x i) (envOf s i) s.mach :=
    hx.ownerRule rfl hl hg
  have agent (hi : isOutward i = true) : Agent (mayWrite x i) := agent_of_outward hi
  have wide (hi : isWide i = true) : Wide (mayWrite x i) := wide_of_isWide hi
  have vector (hi : isVector i = true) : Vectorial (mayWrite x i) := vectorial_of_isVector hi
  cases i with dsimp only [exec]
  | nop => exact endsIn_attemptNext hx fun _ h => Chk.gives_ok.2 h.finishNow
  | brcNz | brcZ => exact endsIn_attempt hx fun _ h => brcBody_kept rows h
  | jmp => exact endsIn_attempt hx fun _ h => Chk.gives_ok.2 (Env.branch_kept rows h)
  | call => exact endsIn_attempt hx fun _ h => callBody_kept rows h
  | ret => exact endsIn_attempt hx fun _ h => retBody_kept rows h
  | loop => exact endsIn_attempt hx fun _ h => loopBody_kept rows h
  | lbrk => exact endsIn_attempt hx fun _ h => lbrkBody_kept rows h
  | tkw => exact endsIn_attemptNext hx fun _ h => tkwBody_kept h
  | tks => exact endsIn_attemptNext hx fun _ h => tksBody_kept h
  | qopCnt | qopTcnt => exact endsIn_attemptNext hx fun _ h => Env.ctlResult_kept h
  | qopDrop => exact endsIn_attemptNext hx fun _ h => qopDropBody_kept h rfl
  | qopClr => exact endsIn_attemptNext hx fun _ h => qopClrBody_kept h rfl
  | lmov => exact endsIn_attemptNext hx fun _ h => (Env.src_kept h).bind fun _ h => Env.ctlResult_kept h
  | clh => exact endsIn_attempt hx fun _ h => clhBody_kept rows h
  | yield => exact endsIn_attempt hx fun _ h => yieldBody_kept h rows unheld
  | exit => exact endsIn_attempt hx fun _ h => exitBody_kept h rfl rfl
  | sleep => exact endsIn_attempt hx fun _ h => sleepBody_kept rows h
  | add | sub | mul | div | and | or | xor | shf | cmp | minmax | agen => exact endsIn_attemptNext hx fun _ h => timed2_kept h
  | sel => exact endsIn_attemptNext hx fun _ h => selBody_kept h
  | bits | ext => exact endsIn_attemptNext hx fun _ h => by split; exacts [timed2_kept h, timed1_kept h]
  | li => exact endsIn_attemptNext hx fun _ h => (Env.dst_kept h).bind fun _ h => Chk.gives_ok.2 h.timed
  | ldl => exact endsIn_attemptNext hx fun _ h => ldlBody_kept h (wide rfl) (owner rfl rfl)
  | stl => exact endsIn_attemptNext hx fun _ h => stlBody_kept h (wide rfl) (owner rfl rfl)
  | ldg | ldd => exact endsIn_attemptNext hx fun _ h => stagedLoadBody_kept h (wide rfl)
  | stg | std => exact endsIn_attemptNext hx fun _ h => postedStoreBody_kept h (wide rfl) (.inr (by decide))
  | stb => exact endsIn_attemptNext hx fun _ h => postedStoreBody_kept h (wide rfl) (.inl rfl)
  | ldb => exact endsIn_attemptNext hx fun _ h => ldbBody_kept h (wide rfl)
  | pfd => exact endsIn_attemptNext hx fun _ h => pfdBody_kept h (wide rfl)
  | loc => exact endsIn_attemptNext hx fun _ h => locBody_kept h (wide rfl)
  | bopn => exact endsIn_attemptNext hx fun _ h => bopnBody_kept h (agent rfl) rfl
  | bshr => exact endsIn_attemptNext hx fun _ h => bshrBody_kept h (agent rfl)
  | bfre | bfreClose => exact endsIn_attemptNext hx fun _ h => bfreBody_kept h (agent rfl)
  | binv => exact endsIn_attemptNext hx fun _ h => binvBody_kept h (agent rfl)
  | bqry => exact endsIn_attemptNext hx fun _ h => bqryBody_kept h (agent rfl)
  | bgrw | bgrwRel => exact endsIn_attemptNext hx fun _ h => bgrwBody_kept h (agent rfl)
  | leaseAcq => exact endsIn_attemptNext hx fun _ h => leaseAcqBody_kept h (wide rfl) rfl
  | leaseRel => exact endsIn_attemptNext hx fun _ h => leaseRelBody_kept h (wide rfl) rfl rfl
  | wld => exact endsIn_attemptNext hx fun _ h => wldBody_kept h (wide rfl) rfl
  | wswp => exact endsIn_attemptNext hx fun _ h => wswpBody_kept h (wide rfl)
  | mxh => exact endsIn_attemptNext hx fun _ h => mxhBody_kept h (wide rfl)
  | mxgr => exact endsIn_attemptNext hx fun _ h => mxgrBody_kept h (wide rfl)
  | mxdr => exact endsIn_attemptNext hx fun _ h => mxdrBody_kept h (wide rfl)
  | mxdrKeep => exact endsIn_attemptNext hx fun _ h => mxdrKeepBody_kept h (wide rfl)
  | mxz => exact endsIn_attemptNext hx fun _ h => mxzBody_kept h (wide rfl)
  | mvq => exact endsIn_attemptNext hx fun _ h => mvqBody_kept h (wide rfl)
  | mvv => exact endsIn_attemptNext hx fun _ h => mvvBody_kept h (wide rfl)
  | mvm => exact endsIn_attemptNext hx fun _ h => mvmBody_kept h (wide rfl)
  | mvmOff => exact endsIn_attemptNext hx fun _ h => mvmOffBody_kept h (wide rfl)
  | mvd => exact endsIn_attemptNext hx fun _ h => mvdBody_kept h (wide rfl)
  | mxa => exact endsIn_attemptNext hx fun _ h => mxaBody_kept h (wide rfl) (owner rfl rfl)
  | mxsq => exact endsIn_attemptNext hx fun _ h => mxsqBody_kept h (wide rfl) (owner rfl rfl)
  | mxmd => exact endsIn_attemptNext hx fun _ h => mxmdBody_kept h (wide rfl) (owner rfl rfl)
  | mvk => exact endsIn_attemptNext hx fun _ h => mvkBody_kept h ⟨rfl, rfl, rfl, rfl, rfl, rfl⟩
  | vadd | vsub | vmul => exact endsIn_attemptNext hx fun _ h => arithBody_kept (vector rfl) h
  | vfma => exact endsIn_attemptNext hx fun _ h => vfmaBody_kept (vector rfl) h
  | vmnx => exact endsIn_attemptNext hx fun _ h => vmnxBody_kept (vector rfl) h
  | vcmp => exact endsIn_attemptNext hx fun _ h => vcmpBody_kept (vector rfl) h
  | vsel => exact endsIn_attemptNext hx fun _ h => vselBody_kept (vector rfl) h
  | vlog => exact endsIn_attemptNext hx fun _ h => vlogBody_kept (vector rfl) h
  | vshf => exact endsIn_attemptNext hx fun _ h => vshfBody_kept (vector rfl) h
  | vred => exact endsIn_attemptNext hx fun _ h => vredBody_kept (vector rfl) h
  | vwid => exact endsIn_attemptNext hx fun _ h => vwidBody_kept (vector rfl) h
  | vnar => exact endsIn_attemptNext hx fun _ h => vnarBody_kept (vector rfl) h
  | vbrd => exact endsIn_attemptNext hx fun _ h => vbrdBody_kept (vector rfl) h
  | vmsk => exact endsIn_attemptNext hx fun _ h => vmskBody_kept (vector rfl) h
  | vscn => exact endsIn_attemptNext hx fun _ h => vscnBody_kept (vector rfl) h
  | cvt => exact endsIn_attemptNext hx fun _ h => cvtBody_kept (vector rfl) h
  | mxq => exact endsIn_attemptNext hx fun _ h => mxqBody_kept (vector rfl) h
  | mxx => exact endsIn_attemptNext hx fun _ h => mxxBody_kept (vector rfl) h
  | srsdStep => exact endsIn_attemptNext hx fun _ h => srsdStepBody_kept (vector rfl) h
  | smxs => exact endsIn_attemptNext hx fun _ h => smxsBody_kept (vector rfl) h
  | vlane => exact endsIn_attemptNext hx fun _ h => vlaneBody_kept (vector rfl) h
  | vidx => exact endsIn_attemptNext hx fun _ h => vidxBody_kept (vector rfl) h
  | fcls => exact endsIn_attemptNext hx fun _ h => fclsBody_kept (vector rfl) h
  | rndm => exact endsIn_attemptNext hx fun _ h => rndmBody_kept (vector rfl) h
  | vdot => exact endsIn_attemptNext hx fun _ h => vdotBody_kept (vector rfl) h
  | vprm => exact endsIn_attemptNext hx fun _ h => by split; exacts [vprm1Body_kept (vector rfl) h, vprm2Body_kept (vector rfl) h]
  | srsdSet => exact endsIn_attemptNext hx fun _ h => srsdSetBody_kept (vector rfl) h rfl
  | sfa | sfb | sfc => exact endsIn_attemptNext hx fun _ h => specialBody_kept (vector rfl) h
  | fsc => exact endsIn_attemptNext hx fun _ h => by split; exacts [fxpBody_kept (vector rfl) h, fscBody_kept (vector rfl) h]
  | cpy => exact endsIn_attemptNext hx fun _ h => cpyBody_kept h (agent rfl) rfl (owner rfl rfl)
  | cacc => exact endsIn_attemptNext hx fun _ h => caccBody_kept h (agent rfl)
  | cbnd => exact endsIn_attemptNext hx fun _ h => cbndBody_kept h (agent rfl)
  | cbndOff => exact endsIn_attemptNext hx fun _ h => cbndOffBody_kept h (agent rfl)
  | rqry => exact endsIn_attemptNext hx fun _ h => rqryBody_kept h (agent rfl)
  | rwfr => exact endsIn_attemptNext hx fun _ h => rwfrBody_kept h (agent rfl)
  | rpub => exact endsIn_attemptNext hx fun _ h => rpubBody_kept h (agent rfl)
  | rrel => exact endsIn_attemptNext hx fun _ h => rrelBody_kept h (agent rfl)
  | hctlQry => exact endsIn_attemptNext hx fun _ h => hctlQryBody_kept h (agent rfl)
  | splitCmn => exact endsIn_attemptNext hx fun _ h => splitCmnBody_kept h (agent rfl)
  | keywArr => exact endsIn_attemptNext hx fun _ h => keywArrBody_kept h (agent rfl)
  | keyq => exact endsIn_attemptNext hx fun _ h => keyqBody_kept h (agent rfl)
  | fence => exact endsIn_attemptNext hx fun _ h => fenceBody_kept h (agent rfl)
  | lnchNode => exact endsIn_attemptNext hx fun _ h => lnchNodeBody_kept h (agent rfl)
  | errqRd => exact endsIn_attemptNext hx fun _ h => errqRdBody_kept h (agent rfl)
  | errqClr => exact endsIn_attemptNext hx fun _ h => errqClrBody_kept h (agent rfl)
  | errqSum => exact endsIn_attemptNext hx fun _ h => errqSumBody_kept h (agent rfl)
  | clrd => exact endsIn_attemptNext hx fun _ h => clrdBody_kept h (agent rfl)
  | clgtClr => exact endsIn_attemptNext hx fun _ h => clgtClrBody_kept h (agent rfl)
  | clgtQry => exact endsIn_attemptNext hx fun _ h => clgtQryBody_kept h (agent rfl)
  | cwt | cwtTest => exact endsIn_attemptNext hx fun _ h => cwtBody_kept h (agent rfl)
  | rini => exact endsIn_attemptNext hx fun _ h => riniBody_kept h (agent rfl) rfl
  | rwfl => exact endsIn_attemptNext hx fun _ h => rwflBody_kept h (agent rfl) rfl
  | rclm => exact endsIn_attemptNext hx fun _ h => rclmBody_kept h (agent rfl) rfl
  | rlys => exact endsIn_attemptNext hx fun _ h => rlysBody_kept h (agent rfl) rfl
  | rlyw => exact endsIn_attemptNext hx fun _ h => rlywBody_kept h (agent rfl) rfl
  | retn => exact endsIn_attemptNext hx fun _ h => retnBody_kept h (agent rfl) rfl
  | joinShr => exact endsIn_attemptNext hx fun _ h => joinShrBody_kept h (agent rfl) rfl
  | joinCmn => exact endsIn_attemptNext hx fun _ h => joinCmnBody_kept h (agent rfl) rfl
  | joinRing => exact endsIn_attemptNext hx fun _ h => joinRingBody_kept h (agent rfl) rfl
  | keywTkt => exact endsIn_attemptNext hx fun _ h => keywTktBody_kept h (agent rfl) rfl
  | keywFree => exact endsIn_attemptNext hx fun _ h => keywFreeBody_kept h (agent rfl) rfl
  | rlyg | rlygAdd | rlygRet => exact endsIn_attemptNext hx fun _ h => rlygBody_kept h (agent rfl)
  | hoff => exact endsIn_attemptNext hx fun _ h => hoffBody_kept h (agent rfl) (owner rfl rfl)
  | cwld => exact endsIn_attemptNext hx fun _ h => cwldBody_kept h (agent rfl) (owner rfl rfl)
  | lnchReq => exact endsIn_attemptNext hx fun _ h => lnchReqBody_kept h (agent rfl) (owner rfl rfl)
  | clgtSet => exact endsIn_attemptNext hx fun _ h => clgtSetBody_kept h (agent rfl) (owner rfl rfl)
  | hctlSeal | hctlCommit | hctlCancel | hctlDrop => exact endsIn_attemptNext hx fun _ h => hctlBody_kept h (agent rfl)
  | lendGrp | lendPark => exact endsIn_attemptNext hx fun _ h => lendBody_kept h (agent rfl) rfl
  | splitAddr => exact endsIn_attemptNext hx fun _ h => splitAddrBody_kept h (agent rfl) rfl rfl
  | joinAddr => exact endsIn_attemptNext hx fun _ h => joinAddrBody_kept h (agent rfl) rfl rfl
  | splitRd | splitWr => exact endsIn_attemptNext hx fun _ h => splitBody_kept h (agent rfl) rfl
  | tret => exact endsIn_attempt hx fun _ h => tretBody_kept h (agent rfl) rfl
  | srr => exact endsIn_attemptNext hx fun _ h => srrBody_kept h
  | srw => exact endsIn_attemptNext hx fun _ h => srwBody_kept h (agent rfl) rfl rfl
  | trap => exact execTrap_endsIn hx
  | illop => exact execIllop_endsIn hx
  | _ => cases hi

end
end Sys2Proof.Machine
end

