-- ==== Sys2Proof/Proofs/FrameInteger.lean ====
section
/-! SUPPORT for the statement about what instructions leave unchanged: the scalar queues and the loop registers of a sequencer, as an
integer instruction leaves them. -/

namespace Sys2Proof.Machine

/-- The scalar queues, the loop stack and the loop registers of a sequencer. -/
def Seq.store (s : Seq) : SMap (List (QSlot Word)) × List LoopLevel × SMap Word := (s.xq, s.stack, s.loops)

/-- The queues that a condition does not name keep their slots, and with no loop open the loop registers stay. -/
structure Seq.Spares (named : BitVec 4 → Prop) (s s' : Seq) : Prop where
  queues : SMap.wf s.xq = true → SMap.wf s'.xq = true ∧ ∀ n, ¬ named n → s'.xslots n = s.xslots n
  loops : s.stack = [] → s'.stack = [] ∧ s'.loops = s.loops

/-- The issuing sequencer of a changed machine. -/
def Spared (named : BitVec 4 → Prop) (e : Env) (m m' : Mach) : Prop := (m.seq e.c e.q).Spares named (m'.seq e.c e.q)

section
variable {named : BitVec 4 → Prop} {e : Env} {m₀ m m' : Mach} {k : Core} {q : SeqId} {s s' s'' : Seq}

theorem Seq.Spares.trans (h : s.Spares named s') (h' : s'.Spares named s'') : s.Spares named s'' where
  queues hw :=
    have ⟨hw', hq⟩ := h.queues hw
    have ⟨hw'', hq'⟩ := h'.queues hw'
    ⟨hw'', fun n hn => (hq' n hn).trans (hq n hn)⟩
  loops hs :=
    have ⟨hs', hl⟩ := h.loops hs
    have ⟨hs'', hl'⟩ := h'.loops hs'
    ⟨hs'', hl'.trans hl⟩

theorem Seq.spares_of_store (h : s'.store = s.store) : s.Spares named s' := by
  simp only [Seq.store, Prod.mk.injEq] at h
  obtain ⟨hq, hs, hl⟩ := h
  exact ⟨fun hw => ⟨by rw [hq, hw], fun n _ => by simp [Seq.xslots, hq]⟩, fun hn => ⟨by rw [hs, hn], hl⟩⟩

theorem Seq.spares_setX {n : BitVec 4} (hn : named n) {l : List (QSlot Word)} : s.Spares named (s.setX n l) where
  queues hw := ⟨SMap.put_wf hw .., fun j hj => by
    rw [Seq.xslots_setX hw, if_neg (by rintro rfl; exact hj hn)]⟩
  loops hs := ⟨hs, rfl⟩

theorem Spared.refl : Spared named e m m := Seq.spares_of_store rfl

/-- Changes that leave the queues and the loops of every sequencer alone. -/
theorem Spared.same (h : Spared named e m₀ m) (hs : (m'.seq e.c e.q).store = (m.seq e.c e.q).store) : Spared named e m₀ m' :=
  Seq.Spares.trans h (Seq.spares_of_store hs)

theorem Spared.onSeq (h : Spared named e m₀ m) {f : Seq → Seq} (hf : (m.seq e.c e.q).Spares named (f (m.seq e.c e.q))) :
    Spared named e m₀ (m.onSeq e.c e.q f) := by
  refine Seq.Spares.trans h ?_
  rw [Mach.onSeq_seq]
  exact hf

/-! ### Operands and results -/

theorem Spared.src (h : Spared named e m₀ m) {a : Src} (ha : ∀ n, a = .pop n → named n) :
    (e.src m a).Sat fun r => Spared named e m₀ r.2 := by
  cases a with
  | pop n => exact .skip fun _ => Chk.sat_ok.2 (h.onSeq (f := fun s => s.setX n _) (Seq.spares_setX (ha n rfl)))
  | peek n => exact .skip fun _ => Chk.sat_ok.2 h
  | lane => exact Chk.sat_error.2 trivial
  | _ => exact Chk.sat_ok.2 h

theorem Spared.src2 (h : Spared named e m₀ m) {a b : Src} (ha : ∀ n, a = .pop n → named n) (hb : ∀ n, b = .pop n → named n) :
    (e.src2 m a b).Sat fun r => Spared named e m₀ r.2.2 :=
  (h.src ha).bind fun ⟨_, _⟩ h => (h.src hb).bind fun ⟨_, _⟩ h => Chk.sat_ok.2 h

theorem Spared.reserveX (h : Spared named e m₀ m) {n : BitVec 4} (hn : named n) {en : Entry Word} :
    (e.reserveX m n en).Sat fun r => Spared named e m₀ r.2 := by
  simp only [Env.reserveX]
  split
  · exact Chk.sat_error.2 trivial
  · exact Chk.sat_ok.2 (h.onSeq (Seq.spares_setX hn))

theorem Spared.dst (h : Spared named e m₀ m) {d : Dst} (hd : ∀ n, d = .queue n → named n) {en : Entry Word} :
    (e.dst m d en).Sat fun r => Spared named e m₀ r.2 := by
  cases d with
  | queue n => exact (h.reserveX (hd n rfl)).bind fun ⟨_, _⟩ h => Chk.sat_ok.2 h
  | mask k => exact .skip fun _ => Chk.sat_ok.2 h
  | _ => exact Chk.sat_ok.2 h

theorem Spared.timed (h : Spared named e m₀ m) {latency : Nat} {l : Landing} {satur divz : Bool} :
    Spared named e m₀ (e.timed m latency l satur divz) := h.onSeq (Seq.spares_of_store rfl)

theorem Core.onPushQ_store {p : SeqId} {up : Bool} {f : TokQ → TokQ} : ((k.onPushQ p up f).seq q).store = (k.seq q).store := by
  unfold Core.onPushQ
  split
  · rfl
  split
  · exact Core.onSeq_keeps (g := Seq.store) (by intro _; rfl) _ _
  · exact Core.onSeq_keeps (g := Seq.store) (by intro _; rfl) _ _

/-- Check 6 of R47. -/
theorem Spared.tokens (h : Spared named e m₀ m) : (e.tokens m).Sat (Spared named e m₀) := by
  have pop (k : Core) (b down : Bool) : ((if b then k.onSeq e.q fun s => s.tokPop down 1 else k).seq e.q).store = (k.seq e.q).store := by
    split
    · exact Core.onSeq_keeps (g := Seq.store) (fun _ => by cases down <;> rfl) _ _
    · rfl
  have push (k : Core) (b up : Bool) : ((if b then k.tokReserve e.q up 1 else k).seq e.q).store = (k.seq e.q).store := by
    split
    · exact Core.onPushQ_store
    · rfl
  unfold Env.tokens
  dsimp only
  split
  · exact Chk.sat_error.2 trivial
  · refine Chk.sat_ok.2 (h.same ?_)
    simp only [Mach.seq, Mach.setCore_core, push, pop]

/-- The loop test and the next offset: with no loop open the loops stay. -/
theorem Core.spares_goTo {pc : Offset} {delay : Nat} : (k.seq q).Spares named ((k.goTo q pc delay).seq q) := by
  simp only [Core.goTo]
  split
  · exact Seq.spares_of_store rfl
  · rw [Core.onSeq_seq]
    refine ⟨fun hw => ⟨hw, fun _ _ => rfl⟩, fun hs => ?_⟩
    simp [hs, loopTest]

theorem Spared.advance (h : Spared named e m₀ m) {delay : Nat} : Spared named e m₀ (e.advance delay m) := by
  refine Seq.Spares.trans h ?_
  simp only [Env.advance, Env.jump, Mach.seq, Mach.onCore_core]
  exact Core.spares_goTo

/-! ### The integer instructions -/

theorem timed2_spares (h : Spared named e m₀ m) {d : Dst} {a b : Src} (hd : ∀ n, d = .queue n → named n)
    (ha : ∀ n, a = .pop n → named n) (hb : ∀ n, b = .pop n → named n) {latency : Nat} {f : Word → Word → IntRes} :
    (timed2 d a b latency f e m).Sat (Spared named e m₀) :=
  (h.src2 ha hb).bind fun ⟨_, _, _⟩ h => (h.dst hd).bind fun ⟨_, _⟩ h => Chk.sat_ok.2 h.timed

theorem timed1_spares (h : Spared named e m₀ m) {d : Dst} {a : Src} (hd : ∀ n, d = .queue n → named n)
    (ha : ∀ n, a = .pop n → named n) {latency : Nat} {f : Word → Word} : (timed1 d a latency f e m).Sat (Spared named e m₀) :=
  (h.src ha).bind fun ⟨_, _⟩ h => (h.dst hd).bind fun ⟨_, _⟩ h => Chk.sat_ok.2 h.timed

theorem selBody_spares (h : Spared named e m₀ m) {d : Dst} {z : Bool} {q : BitVec 3} {a b : Src}
    (hd : ∀ n, d = .queue n → named n) (ha : ∀ n, a = .pop n → named n) (hb : ∀ n, b = .pop n → named n)
    (hq : named (q.setWidth 4)) : (selBody d z q a b e m).Sat (Spared named e m₀) :=
  (h.src2 ha hb).bind fun ⟨_, _, _⟩ h => (h.src fun _ hn => by cases hn; exact hq).bind fun ⟨_, _⟩ h =>
    (h.dst hd).bind fun ⟨_, _⟩ h => Chk.sat_ok.2 h.timed

/-! ### Halts -/

theorem takeTrap_store {t : Trust} {c code : Nat} {info : Word} {pc : Offset} :
    ((takeTrap t c q code info pc m).seq c q).store = (m.seq c q).store := by
  unfold takeTrap
  dsimp only
  split
  · simp [Mach.seq, Seq.store]
  · rw [Mach.seq_notify]
    simp [Mach.seq, Seq.store]

theorem countStall_store {t : Trust} {c kind : Nat} : ((countStall t c q kind m).seq c q).store = (m.seq c q).store := by
  have counted : ((m.onSeq c q fun s => { s with wdCount := s.wdCount + 1, stall := kind, keyWait := none }).seq c q).store =
      (m.seq c q).store := by rw [Mach.onSeq_seq]; rfl
  unfold countStall watchdog
  dsimp only
  split
  · exact takeTrap_store.trans counted
  · exact counted

theorem waitAtRack_store {t : Trust} {c rid : Nat} {ask : KeyAsk} :
    ((waitAtRack t c q rid ask m).seq c q).store = (m.seq c q).store := by
  simp only [waitAtRack, Mach.onSeq_seq]
  exact countStall_store

theorem Mach.clrdBegins_seq {p : BitVec 10} {g c : Nat} {n : BitVec 32} : (m.clrdBegins p g n).seq c q = m.seq c q := by
  unfold Mach.clrdBegins Mach.onCollective
  repeat' split
  all_goals rfl

/-- A sequencer that waits while a pre-emption is pending is taken; with nothing held back its queues and loops stay. -/
theorem takeWaiting_store {c : Nat} (hu : (m.core c).preempting = false ∨ (m.seq c q).undo = [])
    (h : (m'.seq c q).store = (m.seq c q).store) : ((((m.takeWaiting c q).getD m').seq c q)).store = (m.seq c q).store := by
  unfold Mach.takeWaiting
  dsimp only
  split
  next hp =>
    have hn : ((m.core c).seq q).undo = [] := hu.resolve_left (by simp [(Bool.and_eq_true_iff.1 hp).1])
    simp [Mach.seq, Core.take, Seq.take, hn, Seq.store]
  · exact h

theorem Env.halt_store {h : Halt} (hu : (m.core e.c).preempting = false ∨ (m.seq e.c e.q).undo = []) :
    ((e.halt h m).seq e.c e.q).store = (m.seq e.c e.q).store := by
  have stopped : ((m.onSeq e.c e.q fun s => { s with stopped := true }).seq e.c e.q).store = (m.seq e.c e.q).store := by
    rw [Mach.onSeq_seq]; rfl
  cases h with
  | trap code info => exact takeTrap_store
  | answered code info left => exact takeTrap_store
  | stall kind => exact takeWaiting_store hu countStall_store
  | wait => exact takeWaiting_store hu rfl
  | waitOut => simp [Env.halt, Seq.store]
  | rack rid ask => exact takeWaiting_store hu waitAtRack_store
  | chunk g n => exact takeWaiting_store hu (countStall_store.trans (congrArg Seq.store Mach.clrdBegins_seq))
  | lost die b i => exact stopped
  | slot vec n => exact stopped

/-- The next state of an outcome that has one spares the queues and the loops. -/
def SparesIn (named : BitVec 4 → Prop) (i : Instr) (s : State) (o : Host.Outcome State Fault Refusal) : Prop :=
  ∀ t, o = .next t → Spared named (envOf s i) s.mach t.mach

/-- An attempt spares what its body spares. -/
theorem sparesIn_attemptNext {s : State} {i : Instr} {body : Env → Mach → Chk Mach}
    (hu : (s.mach.core s.cur).preempting = false ∨ (s.mach.seq s.cur s.phase.seq).undo = [])
    (hb : ∀ m, Spared named (envOf s i) s.mach m → (body (envOf s i) m).Sat (Spared named (envOf s i) s.mach)) :
    SparesIn named i s (attemptNext i body s) := by
  intro t hs
  have sat : Chk.Sat (Spared named (envOf s i) s.mach) (do
      (envOf s i).checks s.mach i
      let m ← (envOf s i).tokens s.mach
      must (decide ((envOf s i).q ≠ .cmp) || (m.core (envOf s i).c).clause.isNone || i.clauseOk) ((envOf s i).trapWord tClause)
      let m ← body (envOf s i) m
      .ok ((envOf s i).advance 1 m)) :=
    .skip fun _ => Spared.refl.tokens.bind fun m hm => .skip fun _ => (hb m hm).bind fun m hm => Chk.sat_ok.2 hm.advance
  simp only [attemptNext, attempt, attemptAt] at hs
  split at hs
  next m hm => cases hs; exact sat m hm
  next h hh => cases hs; exact Spared.refl.same (Env.halt_store hu)

/-- An integer instruction changes no scalar queue but its destination and the queues it pops, and no loop register but by the loop
test (R82, R102). -/
theorem exec_integer_spares {s : State} {i : Instr} {d : Dst} {srcs : List Src}
    (hu : (s.mach.core s.cur).preempting = false ∨ (s.mach.seq s.cur s.phase.seq).undo = []) (hi : intForm i = some (d, srcs)) :
    SparesIn (fun n => d = .queue n ∨ .pop n ∈ srcs) i s (exec i s) := by
  cases i with cases hi
  | add | sub | mul | div | and | or | xor | shf | cmp | minmax | agen =>
    dsimp only [exec]
    exact sparesIn_attemptNext hu fun m h => timed2_spares h (fun _ => .inl) (by simp +contextual) (by simp +contextual)
  | sel =>
    dsimp only [exec]
    exact sparesIn_attemptNext hu fun m h => selBody_spares h (fun _ => .inl) (by simp +contextual) (by simp +contextual)
      (by simp)
  | bits | ext =>
    dsimp only [exec]
    refine sparesIn_attemptNext hu fun m h => ?_
    split
    · exact timed2_spares h (fun _ => .inl) (by simp +contextual) (by simp +contextual)
    · exact timed1_spares h (fun _ => .inl) (by simp +contextual)
  | li =>
    dsimp only [exec]
    refine sparesIn_attemptNext hu fun m h => ?_
    exact (h.dst fun _ => .inl).bind fun _ h => Chk.sat_ok.2 h.timed

end
end Sys2Proof.Machine
end

