-- ==== Sys2Proof/Proofs/Frames.lean ====
section
/-! The statement about what instructions leave unchanged (O60). -/

namespace Sys2Proof.Machine

/-! ### Classes of instructions -/

section
variable {i : Instr} {x : Case}

theorem isOutward_of_writesArrays (h : writesArrays i = true) : isOutward i = true := by
  cases i with cases h
  | _ => rfl

theorem isOutward_of_changesRegions (h : changesRegions i = true) : isOutward i = true := by
  cases i with cases h
  | _ => rfl

theorem isOutward_of_writesChannels (h : writesChannels i = true) : isOutward i = true := by
  cases i with cases h
  | _ => rfl

theorem isOutward_of_mayTakeFrame (h : mayTakeFrame i = true) : isOutward i = true := by
  cases i with cases h
  | _ => rfl

theorem isOutward_of_startsInLocal (h : startsInLocal i = true) : isOutward i = true := by
  cases i with cases h
  | _ => rfl

theorem isOutward_of_dividesView (h : dividesView i = true) : isOutward i = true := by
  cases i with cases h
  | _ => rfl

theorem isVector_of_isControl (h : isControl i = true) : isVector i = false := by
  cases i with cases h
  | _ => rfl

theorem isVector_of_intForm {d : Dst} {srcs : List Src} (h : intForm i = some (d, srcs)) : isVector i = false := by
  cases i with cases h
  | _ => rfl

theorem isEvent_of_isControl (h : isControl i = true) : i.isEvent = false := by
  cases i with cases h
  | _ => rfl

theorem isEvent_of_isVector (h : isVector i = true) : i.isEvent = false := by
  cases i with cases h
  | vbrd t d f => cases f <;> rfl
  | vmsk t d f => cases f <;> rfl
  | _ => rfl

theorem isEvent_of_isAgentForm (h : isAgentForm i = true) : i.isEvent = false := by
  cases i with cases h
  | fence t c o f => cases f <;> rfl
  | _ => rfl

theorem isEvent_of_intForm {d : Dst} {srcs : List Src} (h : intForm i = some (d, srcs)) : i.isEvent = false := by
  cases i with cases h
  | _ => rfl

theorem mayWrite_arrays (hr : ∀ t, i ≠ .leaseRel t) (hw : ∀ t ks w dev a, i ≠ .wld t ks w dev a) :
    mayWrite x i .arrays = false := by
  cases i with
  | leaseRel t => exact absurd rfl (hr t)
  | wld t ks w dev a => exact absurd rfl (hw t ks w dev a)
  | _ => rfl

theorem mayWrite_channels (hs : ∀ t d f a b, i ≠ .rlys t d f a b) (hw : ∀ t d a b, i ≠ .rlyw t d a b) :
    mayWrite x i .channels = false := by
  cases i with
  | rlys t d f a b => exact absurd rfl (hs t d f a b)
  | rlyw t d a b => exact absurd rfl (hw t d a b)
  | _ => rfl

theorem mayWrite_view (hs : ∀ t d a b r, i ≠ .splitAddr t d a b r) (hj : ∀ t d a b r, i ≠ .joinAddr t d a b r) :
    mayWrite x i (.core .view) = false := by
  cases i with
  | splitAddr t d a b r => exact absurd rfl (hs t d a b r)
  | joinAddr t d a b r => exact absurd rfl (hj t d a b r)
  | _ => rfl

theorem mayWrite_exited (he : ∀ t, i ≠ .exit t) : mayWrite x i (.core (.seq .exited)) = false := by
  cases i with
  | exit t => exact absurd rfl (he t)
  | _ => rfl

theorem mayWrite_settings (hx : x.held = false) (hs : ∀ t r a, i ≠ .srw t r a) :
    mayWrite x i (.core (.seq .settings)) = false := by
  cases i with
  | srw t r a => exact absurd rfl (hs t r a)
  | _ => exact hx

theorem mayWrite_trap (hx : x.held = false) (hs : ∀ t r a, i ≠ .srw t r a) (ht : ∀ t, i ≠ .tret t) :
    mayWrite x i (.core (.seq .trap)) = false := by
  cases i with
  | srw t r a => exact absurd rfl (hs t r a)
  | tret t => exact absurd rfl (ht t)
  | _ => exact hx

theorem mayWrite_seed (hs : ∀ t a b, i ≠ .srsdSet t a b) : mayWrite x i (.core .seed) = false := by
  cases i with
  | srsdSet t a b => exact absurd rfl (hs t a b)
  | _ => rfl

theorem changesGroup_of_isControl (h : isControl i = true) (he : ∀ t, i ≠ .exit t) : changesGroup i = false := by
  cases i with cases h
  | exit t => exact absurd rfl (he t)
  | _ => rfl

theorem clearsQueue_eq_false (hd : ∀ t f, i ≠ .qopDrop t f) (hc : ∀ t f, i ≠ .qopClr t f) : clearsQueue i = false := by
  cases i with
  | qopDrop t f => exact absurd rfl (hd t f)
  | qopClr t f => exact absurd rfl (hc t f)
  | _ => rfl

/-- An instruction that starts nothing of the package's changes none of its tables and memories, nor the view. -/
theorem mayWrite_inward (hi : isOutward i = false) :
    mayWrite x i .pkg = false ∧ mayWrite x i .arrays = false ∧ mayWrite x i .regions = false ∧ mayWrite x i .channels = false ∧
      mayWrite x i .dram = false ∧ mayWrite x i (.core .local_) = false ∧ mayWrite x i (.core .granules) = false ∧
      mayWrite x i (.core .view) = false ∧ mayWrite x i (.core .lines) = false ∧ mayWrite x i (.core .posted) = false ∧
      mayWrite x i (.core .state) = false ∧ isWide i = false ∧ startsInLocal i = false := by
  have wide : isWide i = false := by simp [isWide, hi]
  have none {p : Instr → Bool} (hp : p i = true → isOutward i = true) : p i = false := by
    cases h : p i with
    | false => rfl
    | true => rw [hp h] at hi; cases hi
  have started : startsInLocal i = false := none isOutward_of_startsInLocal
  have framed : mayTakeFrame i = false := none isOutward_of_mayTakeFrame
  exact ⟨hi, none isOutward_of_writesArrays, none isOutward_of_changesRegions, none isOutward_of_writesChannels,
    by simp [mayWrite, started, framed], by simp [mayWrite, started], by simp [mayWrite, started],
    none isOutward_of_dividesView, wide, wide, hi, wide, started⟩

/-- An integer instruction writes none of the parts: with no clause open and nothing held back. -/
theorem mayWrite_integer {d : Dst} {srcs : List Src} (hc : x.clause = false) (hh : x.held = false)
    (hi : intForm i = some (d, srcs)) (p : Part) : mayWrite x i p = false := by
  have inward : isOutward i = false := by simp [isOutward, hi]
  have scalar : isVector i = false := isVector_of_intForm hi
  have free : clearsQueue i = false ∧ changesGroup i = false := by
    cases i with cases hi
    | _ => exact ⟨rfl, rfl⟩
  obtain ⟨hqueue, hgroup⟩ := free
  obtain ⟨hpkg, harrays, hregions, hchannels, hdram, hlocal, hgranules, hview, hlines, hposted, hstate, hwide, hstarts⟩ :=
    mayWrite_inward (x := x) inward
  cases p with
  | core p =>
    cases p with
    | seq p =>
      cases p with
      | clock => rfl
      | undo => exact hh
      | exited => exact mayWrite_exited fun t ht => by cases ht; cases hi
      | settings => exact mayWrite_settings hh fun t r a ht => by cases ht; cases hi
      | trap => exact mayWrite_trap hh (fun t r a ht => by cases ht; cases hi) fun t ht => by cases ht; cases hi
    | seed => exact mayWrite_seed fun t a b ht => by cases ht; cases hi
    | local_ | granules | view | lines | posted | state => assumption
    | _ => simp [mayWrite, inward, scalar, hqueue, hgroup, hwide, hstarts, hc, hh]
  | free => simp [mayWrite, inward, scalar]
  | outside | cores => rfl
  | _ => assumption

end

/-! ### What the parts say -/

section
variable {W : Part → Bool} {e : Env} {m m' : Mach} {q : SeqId} {k k' : Core} {s s' : Seq}

theorem Ends.kept (h : Ends W e m m') : Kept (withTrap W) e m m' := h.elim (fun h => h.mono withTrap_le) And.left

theorem Ends.trap (h : Ends W e m m') (hw : W (.core (.seq .trap)) = false) :
    SeqPart.trap.get (m'.seq e.c e.q) = SeqPart.trap.get (m.seq e.c e.q) ∨ (m'.seq e.c e.q).Trapped :=
  h.imp (fun h => h (.core (.seq .trap)) hw) And.right

/-- The trap registers and the status, as one part, each. -/
theorem Seq.trap_eq (h : SeqPart.trap.get s' = SeqPart.trap.get s) :
    s'.trapCause = s.trapCause ∧ s'.trapPc = s.trapPc ∧ s'.trapInfo = s.trapInfo ∧ s'.status = s.status := by
  have same : (_, _, _, _) = (_, _, _, _) := h
  simpa only [Prod.mk.injEq] using same

theorem Mach.eq_of_outside (h : m'.outside = m.outside) : m' = { m with
    cores := m'.cores, arrays := m'.arrays, dram := m'.dram, written := m'.written, dramPoison := m'.dramPoison
    slices := m'.slices, regions := m'.regions, relMarks := m'.relMarks, seqs := m'.seqs, pools := m'.pools
    channels := m'.channels, requests := m'.requests, saved := m'.saved, banks := m'.banks
    cycleErrs := m'.cycleErrs, notices := m'.notices, collectives := m'.collectives
    remoteShares := m'.remoteShares, inbox := m'.inbox, outbox := m'.outbox, free := m'.free, ids := m'.ids } := by
  cases m
  cases m'
  simp only [Mach.outside, Mach.mk.injEq] at h ⊢
  simp only [h, and_self]

/-- The machine of an instruction that starts nothing of the package's. -/
theorem Mach.eq_plain (ho : m'.outside = m.outside) (ht : m'.tables = m.tables) (ha : m'.arrays = m.arrays)
    (hr : m'.regions = m.regions) (hc : m'.channels = m.channels) (hd : m'.dram = m.dram) : m' = { m with
      cores := m'.cores, notices := m'.notices, ids := m'.ids, banks := m'.banks, cycleErrs := m'.cycleErrs, free := m'.free } := by
  simp only [Mach.tables, Tables.mk.injEq] at ht
  obtain ⟨h1, h2, h3, h4, h5, h6, h7, h8, h9, h10, h11, h12⟩ := ht
  rw [← h1, ← h2, ← h3, ← h4, ← h5, ← h6, ← h7, ← h8, ← h9, ← h10, ← h11, ← h12, ← ha, ← hr, ← hc, ← hd]
  exact Mach.eq_of_outside ho

/-- What no instruction writes of a core. -/
theorem Kept.fixed (h : Kept W e m m') (hw : W (.core .fixed) = false) :
    (m'.core e.c).column = (m.core e.c).column ∧ (m'.core e.c).cycles = (m.core e.c).cycles ∧
      (m'.core e.c).active = (m.core e.c).active ∧ (m'.core e.c).shadow = (m.core e.c).shadow ∧
      (m'.core e.c).failed = (m.core e.c).failed ∧ (m'.core e.c).ended = (m.core e.c).ended := by
  have same : (_, _, _, _, _, _, _) = (_, _, _, _, _, _, _) := h (.core .fixed) hw
  simp only [Prod.mk.injEq] at same
  obtain ⟨h1, h2, h3, h4, h5, h6, -⟩ := same
  exact ⟨h1, h2, h3, h4, h5, h6⟩

theorem Kept.rows (h : Kept W e m m') (hw : W (.core .rows) = false) :
    (m'.core e.c).clause = (m.core e.c).clause ∧ (m'.core e.c).aRows = (m.core e.c).aRows := Prod.mk.inj (h (.core .rows) hw)

/-- The core of an instruction that starts nothing of the package's, with no clause open. -/
theorem Kept.core_eq (h : Kept W e m m') (hf : W (.core .fixed) = false) (hl : W (.core .local_) = false)
    (hg : W (.core .granules) = false) (hv : W (.core .view) = false) (hr : W (.core .rows) = false)
    (hn : W (.core .lines) = false) (hp : W (.core .posted) = false) (hs : W (.core .state) = false) :
    m'.core e.c = { m.core e.c with
      group := (m'.core e.c).group, ctl := (m'.core e.c).ctl, ld := (m'.core e.c).ld, cmp := (m'.core e.c).cmp
      st := (m'.core e.c).st, vq := (m'.core e.c).vq, masks := (m'.core e.c).masks, ops := (m'.core e.c).ops
      replay := (m'.core e.c).replay, seed := (m'.core e.c).seed, step := (m'.core e.c).step } := by
  have state : (_, _, _, _, _) = (_, _, _, _, _) := h (.core .state) hs
  have hlocal : (m'.core e.c).local_ = (m.core e.c).local_ := h (.core .local_) hl
  have hgranules : (m'.core e.c).granules = (m.core e.c).granules := h (.core .granules) hg
  have hview : (m'.core e.c).view = (m.core e.c).view := h (.core .view) hv
  have hlines : (m'.core e.c).lines = (m.core e.c).lines := h (.core .lines) hn
  have hposted : (m'.core e.c).posted = (m.core e.c).posted := h (.core .posted) hp
  simp only [Prod.mk.injEq] at state
  obtain ⟨hpoison, hlater, hobjs, hbindings, hfreeze⟩ := state
  obtain ⟨hcolumn, hcycles, hactive, hshadow, hfailed, hended⟩ := h.fixed hf
  obtain ⟨hclause, harows⟩ := h.rows hr
  dsimp only
  rw [← hlocal, ← hgranules, ← hview, ← hlines, ← hposted, ← hpoison, ← hlater, ← hobjs, ← hbindings, ← hfreeze, ← hcolumn,
    ← hcycles, ← hactive, ← hshadow, ← hfailed, ← hended, ← hclause, ← harows]

theorem Seq.eq_of_tokenless (h : s'.tokenless = s.tokenless) : s' = { s with inUp := s'.inUp, inDown := s'.inDown } := by
  cases s
  cases s'
  simp only [Seq.tokenless, Seq.mk.injEq] at h ⊢
  simp only [h, and_self]

theorem Kept.otherCore (h : Kept W e m m') (hw : W .cores = false) {c : Nat} (hc : c ≠ e.c) : m'.core c = m.core c := by
  have same := congrFun (h .cores hw) c
  simpa only [Part.get, if_neg hc, Option.some.injEq] using same

theorem Kept.otherSeq (h : Kept W e m m') (hw : W (.core .others) = false) {r : SeqId} (hr : r ≠ e.q) :
    (m'.seq e.c r).tokenless = (m.seq e.c r).tokenless := by
  have same := congrFun (h (.core .others) hw) r
  simpa only [Part.get, CorePart.get, if_neg hr, Option.some.injEq, Mach.seq] using same

end

/-! ### The frames of each class of instructions -/

section
variable {s t : State} {i : Instr}

/-- The case that covers every state. -/
def Case.any : Case := ⟨false, true, true⟩
theorem Case.any_covers : Case.any.Covers s := ⟨nofun, nofun, nofun⟩

/-- The case with every granule of local memory the group's own. -/
def Case.own : Case := ⟨true, true, true⟩
theorem Case.own_covers (ho : (s.mach.core s.cur).Owned) : Case.own.Covers s := ⟨fun _ => ho, nofun, nofun⟩

/-- The case with nothing held back for a pre-emption. -/
def Case.free : Case := ⟨false, true, false⟩
theorem Case.free_covers (hu : (s.mach.core s.cur).preempting = false ∨ ((s.mach.core s.cur).seq s.phase.seq).undo = []) :
    Case.free.Covers s := ⟨nofun, nofun, fun _ => hu⟩

/-- The case with no clause open and nothing held back for a pre-emption. -/
def Case.quiet : Case := ⟨false, false, false⟩
theorem Case.quiet_covers (hc : (s.mach.core s.cur).clause = none)
    (hu : (s.mach.core s.cur).preempting = false ∨ ((s.mach.core s.cur).seq s.phase.seq).undo = []) : Case.quiet.Covers s :=
  ⟨nofun, fun _ => hc, fun _ => hu⟩

/-- An instruction that starts nothing of the package's changes no table and memory of the package, and of its core what no such
instruction does. -/
theorem frames_inward (hi : isOutward i = false) (hev : i.isEvent = false) (hx : Case.quiet.Covers s) (hs : exec i s = .next t) :
    t.mach = { s.mach with
      cores := t.mach.cores, notices := t.mach.notices, ids := t.mach.ids, banks := t.mach.banks, cycleErrs := t.mach.cycleErrs
      free := t.mach.free } ∧
    t.mach.core s.cur = { s.mach.core s.cur with
      group := (t.mach.core s.cur).group, ctl := (t.mach.core s.cur).ctl, ld := (t.mach.core s.cur).ld
      cmp := (t.mach.core s.cur).cmp, st := (t.mach.core s.cur).st, vq := (t.mach.core s.cur).vq
      masks := (t.mach.core s.cur).masks, ops := (t.mach.core s.cur).ops, replay := (t.mach.core s.cur).replay
      seed := (t.mach.core s.cur).seed, step := (t.mach.core s.cur).step } := by
  have kept := (exec_endsIn hx hev t hs).2.kept
  obtain ⟨hpkg, harrays, hregions, hchannels, hdram, hlocal, hgranules, hview, hlines, hposted, hstate, hwide, -⟩ :=
    mayWrite_inward (x := Case.quiet) hi
  have hrows : mayWrite Case.quiet i (.core .rows) = false := by simp [mayWrite, hwide, Case.quiet]
  exact ⟨Mach.eq_plain (kept .outside rfl) (kept .pkg hpkg) (kept .arrays harrays) (kept .regions hregions)
    (kept .channels hchannels) (kept .dram hdram), kept.core_eq rfl hlocal hgranules hview hrows hlines hposted hstate⟩

/-- An integer instruction changes nothing of its core but the sequencers. -/
theorem frames_integer {d : Dst} {srcs : List Src} (hi : intForm i = some (d, srcs)) (hx : Case.quiet.Covers s)
    (hs : exec i s = .next t) :
    t.mach = { s.mach with
      cores := t.mach.cores, notices := t.mach.notices, ids := t.mach.ids, banks := t.mach.banks, cycleErrs := t.mach.cycleErrs } ∧
    t.mach.core s.cur = { s.mach.core s.cur with
      ctl := (t.mach.core s.cur).ctl, ld := (t.mach.core s.cur).ld, cmp := (t.mach.core s.cur).cmp
      st := (t.mach.core s.cur).st } := by
  have hev : i.isEvent = false := isEvent_of_intForm hi
  have kept := (exec_endsIn hx hev t hs).2.kept
  have none := mayWrite_integer (x := Case.quiet) rfl rfl hi
  obtain ⟨mach, core⟩ := frames_inward (by simp [isOutward, hi]) hev hx hs
  have hfree : t.mach.free = s.mach.free := kept .free (none .free)
  have hgroup : (t.mach.core s.cur).group = (s.mach.core s.cur).group := kept (.core .group) (none (.core .group))
  have hvq : (t.mach.core s.cur).vq = (s.mach.core s.cur).vq := kept (.core .vq) (none (.core .vq))
  have hmasks : (t.mach.core s.cur).masks = (s.mach.core s.cur).masks := kept (.core .masks) (none (.core .masks))
  have hops : (t.mach.core s.cur).ops = (s.mach.core s.cur).ops := kept (.core .ops) (none (.core .ops))
  have hreplay : (t.mach.core s.cur).replay = (s.mach.core s.cur).replay := kept (.core .replay) (none (.core .replay))
  have hseed : (t.mach.core s.cur).seed = (s.mach.core s.cur).seed := kept (.core .seed) (none (.core .seed))
  have hstep : (t.mach.core s.cur).step = (s.mach.core s.cur).step := kept (.core .step) (none (.core .step))
  rw [hfree] at mach
  rw [hgroup, hvq, hmasks, hops, hreplay, hseed, hstep] at core
  exact ⟨mach, core⟩

/-- A control instruction changes no part of its core but the sequencers and, some of them, the queues and the group. -/
theorem frames_control (hi : isControl i = true) (hx : Case.quiet.Covers s) (hs : exec i s = .next t) :
    t.mach.core s.cur = { s.mach.core s.cur with
      ctl := (t.mach.core s.cur).ctl, ld := (t.mach.core s.cur).ld, cmp := (t.mach.core s.cur).cmp, st := (t.mach.core s.cur).st
      vq := (t.mach.core s.cur).vq, group := (t.mach.core s.cur).group } ∧
    ((∀ x, i ≠ .exit x) → (t.mach.core s.cur).group = (s.mach.core s.cur).group) ∧
    ((∀ x f, i ≠ .qopDrop x f) → (∀ x f, i ≠ .qopClr x f) → (t.mach.core s.cur).vq = (s.mach.core s.cur).vq) := by
  have hev : i.isEvent = false := isEvent_of_isControl hi
  have kept := (exec_endsIn hx hev t hs).2.kept
  have inward : isOutward i = false := by simp [isOutward, hi]
  have scalar : isVector i = false := isVector_of_isControl hi
  obtain ⟨-, -, -, -, -, -, -, -, -, -, -, hwide, hstarts⟩ := mayWrite_inward (x := Case.quiet) inward
  have hmasks : (t.mach.core s.cur).masks = (s.mach.core s.cur).masks :=
    kept (.core .masks) (by simp [withTrap, mayWrite, scalar, hwide, Case.quiet])
  have hops : (t.mach.core s.cur).ops = (s.mach.core s.cur).ops :=
    kept (.core .ops) (by simp [withTrap, mayWrite, scalar, inward, Case.quiet])
  have hreplay : (t.mach.core s.cur).replay = (s.mach.core s.cur).replay :=
    kept (.core .replay) (by simp [withTrap, mayWrite, scalar, hwide])
  have hseed : (t.mach.core s.cur).seed = (s.mach.core s.cur).seed :=
    kept (.core .seed) (mayWrite_seed (x := Case.quiet) fun t a b ht => by cases ht; cases hi)
  have hstep : (t.mach.core s.cur).step = (s.mach.core s.cur).step :=
    kept (.core .step) (by simp [withTrap, mayWrite, scalar, hwide])
  have core := (frames_inward inward hev hx hs).2
  rw [hmasks, hops, hreplay, hseed, hstep] at core
  refine ⟨core, fun he => kept (.core .group) ?_, fun hd hc => kept (.core .vq) ?_⟩
  · simp [withTrap, mayWrite, changesGroup_of_isControl hi he, hstarts]
  · simp [withTrap, mayWrite, clearsQueue_eq_false hd hc, scalar, hwide, Case.quiet]

/-- A vector or function instruction leaves the group and the seed but by SRSD.set. -/
theorem frames_vector (hi : isVector i = true) (hx : Case.quiet.Covers s) (hs : exec i s = .next t) :
    t.mach.core s.cur = { s.mach.core s.cur with
      ctl := (t.mach.core s.cur).ctl, ld := (t.mach.core s.cur).ld, cmp := (t.mach.core s.cur).cmp, st := (t.mach.core s.cur).st
      vq := (t.mach.core s.cur).vq, masks := (t.mach.core s.cur).masks, ops := (t.mach.core s.cur).ops
      replay := (t.mach.core s.cur).replay, seed := (t.mach.core s.cur).seed, step := (t.mach.core s.cur).step } ∧
    ((∀ x a b, i ≠ .srsdSet x a b) → (t.mach.core s.cur).seed = (s.mach.core s.cur).seed) := by
  have hev : i.isEvent = false := isEvent_of_isVector hi
  have kept := (exec_endsIn hx hev t hs).2.kept
  have inward : isOutward i = false := by simp [isOutward, hi]
  have group : changesGroup i = false := by
    cases i with cases hi
    | _ => rfl
  obtain ⟨-, -, -, -, -, -, -, -, -, -, -, -, hstarts⟩ := mayWrite_inward (x := Case.quiet) inward
  have hgroup : (t.mach.core s.cur).group = (s.mach.core s.cur).group :=
    kept (.core .group) (by simp [withTrap, mayWrite, group, hstarts])
  have core := (frames_inward inward hev hx hs).2
  rw [hgroup] at core
  exact ⟨core, fun hn => kept (.core .seed) (mayWrite_seed (x := Case.quiet) hn)⟩

/-- An instruction of an agent leaves what the vector instructions and the loads and stores write, and the view but by SPLIT.addr
and JOIN.addr. -/
theorem frames_agent (hi : isAgentForm i = true) (hx : Case.quiet.Covers s) (hs : exec i s = .next t) :
    let k := s.mach.core s.cur
    let k' := t.mach.core s.cur
    k'.vq = k.vq ∧ k'.masks = k.masks ∧ k'.seed = k.seed ∧ k'.step = k.step ∧ k'.replay = k.replay ∧ k'.aRows = k.aRows ∧
      k'.clause = none ∧ k'.lines = k.lines ∧ k'.posted = k.posted ∧
      ((∀ x d a b r, i ≠ .splitAddr x d a b r) → (∀ x d a b r, i ≠ .joinAddr x d a b r) → k'.view = k.view) := by
  have kept := (exec_endsIn hx (isEvent_of_isAgentForm hi) t hs).2.kept
  have apart : isVector i = false ∧ clearsQueue i = false := by
    cases i with cases hi
    | _ => exact ⟨rfl, rfl⟩
  obtain ⟨vector, clears⟩ := apart
  have narrow : isWide i = false := by simp [isWide, hi]
  have none {p : CorePart} (hp : withTrap (mayWrite Case.quiet i) (.core p) = false) :
      p.get s.phase.seq (t.mach.core s.cur) = p.get s.phase.seq (s.mach.core s.cur) := kept (.core p) hp
  obtain ⟨hclause, hrows⟩ := kept.rows (by simp [withTrap, mayWrite, narrow, Case.quiet])
  exact ⟨none (p := .vq) (by simp [withTrap, mayWrite, clears, vector, narrow, Case.quiet]),
    none (p := .masks) (by simp [withTrap, mayWrite, vector, narrow, Case.quiet]),
    none (p := .seed) (mayWrite_seed (x := Case.quiet) fun t a b ht => by cases ht; cases hi),
    none (p := .step) (by simp [withTrap, mayWrite, vector, narrow]), none (p := .replay) (by simp [withTrap, mayWrite, vector, narrow]),
    hrows, hclause.trans (hx.clause rfl), none (p := .lines) narrow, none (p := .posted) narrow,
    fun hs hj => none (p := .view) (mayWrite_view (x := Case.quiet) hs hj)⟩

/-- The instructions whose accesses start here and are performed later take no frame and touch no local memory. -/
theorem frames_later (hi : i.isEvent = false) (hl : startsInLocal i = false) (hf : mayTakeFrame i = false)
    (hs : exec i s = .next t) :
    (∀ a, Mem.get t.mach.global a = Mem.get s.mach.global a) ∧ (∀ a, Mem.get t.mach.dram a = Mem.get s.mach.dram a) ∧
    (∀ a, Mem.get t.mach.host a = Mem.get s.mach.host a) ∧
    ∀ c a, Mem.get (t.mach.core c).local_ a = Mem.get (s.mach.core c).local_ a := by
  have kept := (exec_endsIn Case.any_covers hi t hs).2.kept
  have outside : t.mach.outside = s.mach.outside := kept .outside rfl
  have hglobal : t.mach.global = s.mach.global :=
    show t.mach.outside.global = s.mach.outside.global from congrArg Mach.global outside
  have hhost : t.mach.host = s.mach.host :=
    show t.mach.outside.host = s.mach.outside.host from congrArg Mach.host outside
  have hdram : t.mach.dram = s.mach.dram := kept .dram (by simp [withTrap, mayWrite, hl, hf])
  have hlocal : (t.mach.core s.cur).local_ = (s.mach.core s.cur).local_ :=
    kept (.core .local_) (by simp [withTrap, mayWrite, hl])
  refine ⟨fun a => by rw [hglobal], fun a => by rw [hdram], fun a => by rw [hhost], fun c a => ?_⟩
  by_cases hc : c = s.cur
  · rw [hc, hlocal]
  · rw [kept.otherCore rfl hc]

end

/-! ### The statement -/

/-- Settles O60: every instruction keeps the parts that its class may not write. -/
theorem frames : Obligations.Frames := by
  unfold Obligations.Frames
  refine ⟨?_, ?_, ?_, ?_, ?_, ?_⟩
  · intro s t i hi hs
    have h := (exec_endsIn Case.any_covers hi t hs).1
    exact ⟨by rw [h], by rw [h], by rw [h], by rw [h]⟩
  · intro s t i d srcs
    dsimp only
    intro hi hc hu hs
    have hx : Case.quiet.Covers s := Case.quiet_covers hc hu
    have ends := (exec_endsIn hx (isEvent_of_intForm hi) t hs).2
    have none := mayWrite_integer (x := Case.quiet) rfl rfl hi
    have kept := ends.kept
    have spares := exec_integer_spares hu hi t hs
    obtain ⟨mach, core⟩ := frames_integer hi hx hs
    obtain ⟨hwd, hflags⟩ := Prod.mk.inj (kept (.core (.seq .settings)) (none (.core (.seq .settings))))
    refine ⟨mach, fun c hc => kept.otherCore rfl hc, core, fun r hr => Seq.eq_of_tokenless (kept.otherSeq rfl hr), ?_, hflags, hwd,
      kept (.core (.seq .clock)) rfl, kept (.core (.seq .exited)) (none (.core (.seq .exited))), spares.loops, ?_⟩
    · exact fun hw n hd hn => (spares.queues hw).2 n fun h => h.elim hd hn
    · exact (ends.trap (none (.core (.seq .trap)))).imp Seq.trap_eq id
  · intro s t i hi hs
    obtain ⟨k, q, a, m, z, rfl⟩ | ⟨k, q, a, m, z, rfl⟩ | ⟨k, q, a, m, z, rfl⟩ | ⟨k, a, m, rfl⟩ | ⟨k, d, f, a, rfl⟩ |
      ⟨k, p, q, a, m, z, rfl⟩ | ⟨k, p, q, a, m, z, rfl⟩ := hi
    all_goals exact frames_later rfl rfl rfl hs
  · intro s t i hi hs
    dsimp only
    have kept := (exec_endsIn Case.any_covers hi t hs).2.kept
    obtain ⟨hcolumn, hcycles, hactive, hshadow, hfailed, hended⟩ := kept.fixed rfl
    refine ⟨Mach.eq_of_outside (kept .outside rfl), fun c hc => kept.otherCore rfl hc, hcolumn, hcycles, hactive, hshadow, hfailed,
      hended, fun hr hw => kept .arrays (mayWrite_arrays (x := Case.any) hr hw), fun hr => kept .regions hr,
      fun hs hw => kept .channels (mayWrite_channels (x := Case.any) hs hw), fun hl a => ?_, fun hl hf a => ?_, fun howned => ?_⟩
    · have hlocal : (t.mach.core s.cur).local_ = (s.mach.core s.cur).local_ :=
        kept (.core .local_) (by simp [withTrap, mayWrite, hl])
      rw [hlocal]
    · exact (frames_later hi hl hf hs).2.1 a
    · have kept := (exec_endsIn (Case.own_covers howned) hi t hs).2.kept
      have hlocal : (t.mach.core s.cur).local_ = (s.mach.core s.cur).local_ :=
        kept (.core .local_) (by simp [withTrap, mayWrite, Case.own])
      refine ⟨fun a => by rw [hlocal], fun hf a => ?_⟩
      have hdram : t.mach.dram = s.mach.dram := kept .dram (by simp [withTrap, mayWrite, hf, Case.own])
      rw [hdram]
  · intro s t i
    dsimp only
    intro hi hu hs
    have ends := (exec_endsIn (Case.free_covers hu) hi t hs).2
    have kept := ends.kept
    refine ⟨fun r hr => Seq.eq_of_tokenless (kept.otherSeq rfl hr), kept (.core (.seq .clock)) rfl,
      fun hx => kept (.core (.seq .exited)) (mayWrite_exited (x := Case.free) hx), fun hs => ?_, fun hs ht => ?_⟩
    · exact Prod.mk.inj (kept (.core (.seq .settings)) (mayWrite_settings rfl hs))
    · exact (ends.trap (mayWrite_trap rfl hs ht)).imp Seq.trap_eq id
  · intro s t i
    dsimp only
    intro hc hu hs
    have hx : Case.quiet.Covers s := Case.quiet_covers hc hu
    refine ⟨fun hi => ?_, fun hi => ?_, fun hi => frames_agent hi hx hs⟩
    · exact ⟨(frames_inward (by simp [isOutward, hi]) (isEvent_of_isControl hi) hx hs).1, frames_control hi hx hs⟩
    · exact ⟨(frames_inward (by simp [isOutward, hi]) (isEvent_of_isVector hi) hx hs).1, frames_vector hi hx hs⟩

end Sys2Proof.Machine
end

