-- ==== Sys2Proof/Proofs/Issued.lean ====
section
/-! SUPPORT for the statements about the control class: what the checks, the tokens and the operands of an instruction leave of its
core. -/

namespace Sys2Proof.Machine

/-- Where a sequencer is in its program: its offset, its loop stack and its loop registers. -/
def Seq.course (s : Seq) : Offset × List LoopLevel × SMap Word := (s.pc, s.stack, s.loops)

theorem Seq.course_eq_iff {x y : Seq} : x.course = y.course ↔ x.pc = y.pc ∧ x.stack = y.stack ∧ x.loops = y.loops := by
  simp only [Seq.course, Prod.mk.injEq]

theorem course_of_calm {k k' : Core} (h : k'.calm = k.calm) (q : SeqId) : (k'.seq q).course = (k.seq q).course := by
  have same := congrArg Seq.course (Core.seq_of_calm h q)
  exact same

section
variable {i : Instr} {s : State} {e : Env} {m m' : Mach} {a : Src} {v : Word}

theorem Issues.calm (h : Issues i s m) : (m.core s.cur).calm = (s.mach.core s.cur).calm := (Env.tokens_ok h.tokens).2

/-- The checks and tokens of an instruction leave its sequencer where it is. -/
theorem Issues.course (h : Issues i s m) : (m.seq s.cur s.phase.seq).course = (s.mach.seq s.cur s.phase.seq).course :=
  course_of_calm h.calm s.phase.seq

theorem Env.src_course (h : e.src m a = .ok (v, m')) : (m'.seq e.c e.q).course = (m.seq e.c e.q).course := by
  obtain rfl | ⟨n, -, rfl⟩ := Env.src_ok h
  · rfl
  · rw [Mach.seq, Mach.onCore_core, Core.popX, Core.onSeq_seq]
    rfl

theorem Env.src_group (h : e.src m a = .ok (v, m')) : (m'.core e.c).group = (m.core e.c).group := by
  obtain rfl | ⟨n, -, rfl⟩ := Env.src_ok h
  · rfl
  · rw [Mach.onCore_core]
    exact Core.onSeq_group _ _ _

/-- An instruction that has read a scalar source is still where it was. -/
theorem Reads1.course (h : Reads1 i s a v m) : (m.seq s.cur s.phase.seq).course = (s.mach.seq s.cur s.phase.seq).course := by
  obtain ⟨m₀, hi, ha⟩ := h
  exact (Env.src_course ha).trans hi.course

theorem Env.finishNow_course (e : Env) (m : Mach) : ((e.finishNow m).seq e.c e.q).course = (m.seq e.c e.q).course :=
  course_of_calm (Env.finishNow_calm e m) e.q

end
end Sys2Proof.Machine
end

