-- ==== Sys2Proof/Proofs/BranchesLoops.lean ====
section
/-! The statements about branches, hardware loops and the loop test. -/

namespace Sys2Proof.Machine

section
variable {e : Env} {m₀ m : Mach} {x : Seq} {a : Src} {v : Word} {p : BitVec 16}

/-! ### Branches (R78 to R80) -/

theorem Env.branch_taken (hx : (m.seq e.c e.q).course = x.course) :
    e.branch true p m = e.jump (branchTarget x.pc p) 2 (e.finishNow m) := by
  obtain ⟨hpc, -, -⟩ := Seq.course_eq_iff.1 ((e.finishNow_course m).trans hx)
  rw [Env.branch, if_pos rfl, hpc]

theorem Env.branch_passed : e.branch false p m = e.advance 1 (e.finishNow m) := rfl

theorem brcBody_taken {z : Bool} {q : BitVec 4} (ha : e.src m₀ (.pop q) = .ok (v, m)) (hx : (m.seq e.c e.q).course = x.course)
    (hv : v = 0 ↔ z = true) : brcBody z q p e m₀ = .ok (e.jump (branchTarget x.pc p) 2 (e.finishNow m)) := by
  have taken : decide (decide (v = 0) = z) = true := decide_eq_true (Bool.eq_iff_iff.2 (decide_eq_true_iff.trans hv))
  rw [brcBody, chk_bind ha]
  dsimp only
  rw [taken, Env.branch_taken hx]

theorem brcBody_passed {z : Bool} {q : BitVec 4} (ha : e.src m₀ (.pop q) = .ok (v, m)) (hv : ¬(v = 0 ↔ z = true)) :
    brcBody z q p e m₀ = .ok (e.advance 1 (e.finishNow m)) := by
  have passed : decide (decide (v = 0) = z) = false :=
    decide_eq_false fun h => hv (decide_eq_true_iff.symm.trans (Bool.eq_iff_iff.1 h))
  rw [brcBody, chk_bind ha]
  dsimp only
  rw [passed, Env.branch_passed]

theorem callBody_ok {q : BitVec 4} {l : Landing} (hl : e.dst m₀ (.queue q) .inFlight = .ok (l, m))
    (hx : (m₀.seq e.c e.q).course = x.course) :
    callBody q p e m₀ =
      .ok (e.jump (branchTarget x.pc p) 2 (e.timed m 1 (l.put ((blockBase x.pc + 64).setWidth 64)) false false)) := by
  obtain ⟨hpc, -, -⟩ := Seq.course_eq_iff.1 hx
  rw [callBody, chk_bind hl, hpc]

theorem retBody_ok (ha : e.src m₀ a = .ok (v, m)) (hv : v.toNat % 64 = 0 ∧ v.toNat < 32768) :
    retBody a e m₀ = .ok (e.jump (v.setWidth 15) 2 (e.finishNow m)) := by
  rw [retBody, chk_bind ha]
  exact must_bind (decide_eq_true hv)

theorem retBody_misaligned (ha : e.src m₀ a = .ok (v, m)) (hv : ¬(v.toNat % 64 = 0 ∧ v.toNat < 32768)) :
    retBody a e m₀ = .error (.trap tAlign v) := by
  rw [retBody, chk_bind ha]
  exact must_halt (decide_eq_false hv)

/-! ### Loops (R81, R83) -/

theorem loopBody_backward {k : BitVec 3} (hx : (m.seq e.c e.q).course = x.course)
    (hstop : (branchTarget x.pc p).toNat ≤ x.pc.toNat) : loopBody k p e m = .error (e.trapWord tIllop) := by
  obtain ⟨hpc, -, -⟩ := Seq.course_eq_iff.1 hx
  rw [loopBody]
  exact must_halt (decide_eq_false (by rw [hpc]; exact Nat.not_lt.2 hstop))

theorem loopBody_used {k : BitVec 3} (hx : (m.seq e.c e.q).course = x.course)
    (hstop : x.pc.toNat < (branchTarget x.pc p).toNat) (hk : ∃ l ∈ x.stack, l.k = k) :
    loopBody k p e m = .error (e.trapWord tIllop) := by
  obtain ⟨hpc, hstack, -⟩ := Seq.course_eq_iff.1 hx
  obtain ⟨l, hl, hlk⟩ := hk
  have used : (x.stack.any fun l => decide (l.k = k)) = true := List.any_eq_true.2 ⟨l, hl, decide_eq_true hlk⟩
  simp only [loopBody, hpc, hstack, must_bind (decide_eq_true hstop), must_halt (congrArg (!·) used)]

/-- A LOOP whose end lies after it and whose counter is free passes its checks. -/
theorem loopBody_passes {k : BitVec 3} (hx : (m.seq e.c e.q).course = x.course)
    (hstop : x.pc.toNat < (branchTarget x.pc p).toNat) (hk : ¬∃ l ∈ x.stack, l.k = k) :
    loopBody k p e m =
      if SMap.getD x.loops k.toNat 0 = 0 then .ok (e.jump (branchTarget x.pc p) 2 (e.finishNow m))
      else .ok (e.jump (x.after e.len) 1 ((e.finishNow m).onSeq e.c e.q fun s =>
        { s with stack := ⟨x.after e.len, branchTarget x.pc p, k⟩ :: s.stack })) := by
  obtain ⟨hpc, hstack, hloops⟩ := Seq.course_eq_iff.1 hx
  have free : (x.stack.any fun l => decide (l.k = k)) = false :=
    List.any_eq_false.2 fun l hl hlk => hk ⟨l, hl, of_decide_eq_true hlk⟩
  simp only [loopBody, Seq.after, hpc, hstack, hloops, must_bind (decide_eq_true hstop), must_bind (congrArg (!·) free)]

theorem lbrkBody_zero {n : BitVec 3} (ha : e.src m₀ a = .ok (v, m)) (hv : v = 0) :
    lbrkBody a n e m₀ = .ok (e.advance 1 (e.finishNow m)) := by
  rw [lbrkBody, chk_bind ha]
  exact if_pos hv

theorem lbrkBody_few {n : BitVec 3} (ha : e.src m₀ a = .ok (v, m)) (hx : (m.seq e.c e.q).course = x.course) (hv : v ≠ 0)
    (hn : x.stack.drop n.toNat = []) : lbrkBody a n e m₀ = .error (e.trapWord tIllop) := by
  obtain ⟨-, hstack, -⟩ := Seq.course_eq_iff.1 hx
  simp only [lbrkBody, chk_bind ha, if_neg hv, hstack, hn]

theorem lbrkBody_pops {n : BitVec 3} {l : LoopLevel} {rest : List LoopLevel} (ha : e.src m₀ a = .ok (v, m))
    (hx : (m.seq e.c e.q).course = x.course) (hv : v ≠ 0) (hn : x.stack.drop n.toNat = l :: rest) :
    lbrkBody a n e m₀ =
      .ok (e.jump l.stop 2 ((e.finishNow m).onSeq e.c e.q fun s => { s with stack := rest })) := by
  obtain ⟨-, hstack, -⟩ := Seq.course_eq_iff.1 hx
  simp only [lbrkBody, chk_bind ha, if_neg hv, hstack, hn]

end

/-- There are eight counters, so levels of different counters are at most eight. -/
theorem stack_length_le {stack : List LoopLevel} (h : (stack.map LoopLevel.k).Nodup) : stack.length ≤ 8 := by
  have h' : ((stack.map LoopLevel.k).map BitVec.toFin).Nodup := h.map fun _ _ => BitVec.eq_of_toFin_eq
  simpa using h'.length_le_card

/-! ### The loop test (R82) -/

section
variable {regs : SMap Word} {l : LoopLevel} {r : List LoopLevel} {pc : Offset}

theorem loopTest_elsewhere (h : l.stop ≠ pc) : loopTest regs (l :: r) pc = (regs, l :: r, pc, false) := by
  rw [loopTest, if_neg h]

theorem loopTest_back (h : l.stop = pc) (hv : SMap.getD regs l.k.toNat 0 - 1 ≠ 0) :
    loopTest regs (l :: r) pc =
      (SMap.put 0 regs l.k.toNat (SMap.getD regs l.k.toNat 0 - 1), l :: r, l.start, true) := by
  rw [loopTest, if_pos h]
  exact if_pos hv

theorem loopTest_leaves (h : l.stop = pc) (hv : SMap.getD regs l.k.toNat 0 - 1 = 0) :
    loopTest regs (l :: r) pc = loopTest (SMap.put 0 regs l.k.toNat 0) r pc := by
  rw [loopTest, if_pos h, hv]
  exact if_neg (not_not_intro rfl)

end

theorem Core.withClause_seq (k : Core) (cl : Option Clause) (q : SeqId) : ({ k with clause := cl } : Core).seq q = k.seq q := by
  cases q <;> rfl

/-- Inside an open clause a loop test that would go back is not applied, and the clause remembers its place (R448). -/
theorem Core.goTo_held {k : Core} {q : SeqId} {cl : Clause} {pc : Offset} {delay : Nat} (hq : q = .cmp) (hc : k.clause = some cl)
    (hb : (loopTest (k.seq q).loops (k.seq q).stack pc).2.2.2 = true) :
    k.goTo q pc delay =
      ({ k with clause := some { cl with back := some (loopTest (k.seq q).loops (k.seq q).stack pc).2.2.1 } } : Core).onSeq q fun s =>
        { s with pc := pc, readyAt := s.clock + delay, waitsOut := false, wdCount := 0 } := by
  subst hq
  simp only [Core.goTo, hc, hb]

/-- Elsewhere it is applied (R82). -/
theorem Core.goTo_applied {k : Core} {q : SeqId} {pc : Offset} {delay : Nat}
    (h : ¬(q = .cmp ∧ k.clause.isSome = true ∧ (loopTest (k.seq q).loops (k.seq q).stack pc).2.2.2 = true)) :
    k.goTo q pc delay =
      k.onSeq q fun s =>
        { s with
          pc := (loopTest (k.seq q).loops (k.seq q).stack pc).2.2.1
          loops := (loopTest (k.seq q).loops (k.seq q).stack pc).1
          stack := (loopTest (k.seq q).loops (k.seq q).stack pc).2.1
          readyAt := s.clock + delay
          waitsOut := false
          wdCount := 0 } := by
  simp only [Core.goTo]
  split
  next hc hb => exact absurd ⟨rfl, by rw [hc]; rfl, hb⟩ h
  · rfl

/-! ### The statements -/

/-- BRC of either form by its body. -/
theorem exec_brc (s : State) (t : Tok) (q : BitVec 4) (p : BitVec 16) (z : Bool) :
    exec (if z then .brcZ t q p else .brcNz t q p) s =
      attempt (if z then .brcZ t q p else .brcNz t q p) (brcBody z q p) s := by cases z <;> rfl

/-- Settles O10: the operand read or the slot taken, each body branches from where the instruction issued. -/
theorem branchResult : Obligations.BranchResult := by
  refine ⟨?_, ?_, ?_, ?_⟩
  · intro s t q p z c m i hr
    obtain ⟨m₀, hi, ha⟩ := id hr
    refine ⟨fun hc => (exec_brc s t q p z).trans (attempt_ok hi ?_), fun hc => (exec_brc s t q p z).trans (attempt_ok hi ?_)⟩
    · exact brcBody_taken ha hr.course hc
    · exact brcBody_passed ha hc
  · intro s t p m i hi
    exact attempt_ok (body := fun e m => .ok (e.branch true p m)) hi (congrArg Except.ok (Env.branch_taken hi.course))
  · intro s t q p l m i ht
    obtain ⟨m₀, hi, hl⟩ := ht
    exact attempt_ok hi (callBody_ok hl hi.course)
  · intro s t a x m i hr
    obtain ⟨m₀, hi, ha⟩ := hr
    exact ⟨fun hx => attempt_ok hi (retBody_ok ha hx), fun hx => attempt_halt hi (retBody_misaligned ha hx)⟩

/-- Settles O11: LOOP by its two checks and its counter, LBRK by the levels it finds; eight counters bound the stack. -/
theorem loopResult : Obligations.LoopResult := by
  refine ⟨?_, ?_, ?_⟩
  · intro s t k p m i q stop used illop hi
    refine ⟨fun hstop => attempt_halt hi (loopBody_backward hi.course hstop),
      fun hstop hk => attempt_halt hi (loopBody_used hi.course hstop hk), fun hstop hk hz => attempt_ok hi ?_,
      fun hstop hk hz => attempt_ok hi ?_⟩
    · exact (loopBody_passes hi.course hstop hk).trans (if_pos hz)
    · exact (loopBody_passes hi.course hstop hk).trans (if_neg hz)
  · intro s t a n x m i stack hr
    obtain ⟨m₀, hi, ha⟩ := id hr
    exact ⟨fun hx => attempt_ok hi (lbrkBody_zero ha hx),
      fun hx hn => attempt_halt hi (lbrkBody_few ha hr.course hx (List.drop_eq_nil_of_le hn)),
      fun l rest hx hn => attempt_ok hi (lbrkBody_pops ha hr.course hx hn)⟩
  · intro stack k a b h
    refine ⟨stack_length_le h, fun hk => List.nodup_cons.2 ⟨fun hmem => ?_, h⟩⟩
    obtain ⟨l, hl, hlk⟩ := List.mem_map.1 hmem
    exact hk l hl hlk

/-- Settles O12: the test by whether the top level ends there and what its counter falls to; a jump by whether an open clause holds
the test back. -/
theorem Control.loopTest : Obligations.LoopTest := by
  refine ⟨?_, ?_⟩
  · intro regs l r pc v
    refine ⟨rfl, loopTest_elsewhere, fun h hv => ⟨_, loopTest_back h hv, fun n hw => SMap.getD_put hw 0 _ n _⟩,
      fun h hv => ⟨_, loopTest_leaves h hv, fun n hw => SMap.getD_put hw 0 _ n _⟩⟩
  · intro e m pc delay k x k' x' test held
    have hk' : k' = k.goTo e.q pc delay := Mach.onCore_core m e.c _
    by_cases h : held
    · obtain ⟨hq, hc, hb⟩ := id h
      obtain ⟨cl, hcl⟩ := Option.isSome_iff_exists.1 hc
      rw [Core.goTo_held hq hcl hb] at hk'
      have hx' : x' = { x with pc := pc, readyAt := x.clock + delay, waitsOut := false, wdCount := 0 } := by
        rw [show x' = k'.seq e.q from rfl, hk', Core.onSeq_seq, Core.withClause_seq]
      have hclause : k'.clause = k.clause.map fun cl => { cl with back := some test.2.2.1 } := by
        rw [hk', Core.onSeq_clause, hcl]
        rfl
      exact ⟨by rw [hx'], by rw [hx'], by rw [hx'], fun hn => absurd h hn,
        fun _ => ⟨by rw [hx'], by rw [hx'], by rw [hx'], hclause⟩, rfl⟩
    · rw [Core.goTo_applied h] at hk'
      have hx' : x' = { x with
          pc := test.2.2.1, loops := test.1, stack := test.2.1, readyAt := x.clock + delay, waitsOut := false, wdCount := 0 } := by
        rw [show x' = k'.seq e.q from rfl, hk', Core.onSeq_seq]
      have hclause : k'.clause = k.clause := by rw [hk', Core.onSeq_clause]
      exact ⟨by rw [hx'], by rw [hx'], by rw [hx'],
        fun _ => ⟨by rw [hx'], by rw [hx'], by rw [hx'], hclause⟩, fun hn => absurd hn h, rfl⟩

end Sys2Proof.Machine
end

