-- ==== Sys2Proof/Proofs/ControlForms.lean ====
section
/-! The statement about tokens, the housekeeping of queues, pausing and ending. -/

namespace Sys2Proof.Machine

/-! ### A core written twice -/

theorem SMap.set_set {α : Type} (m : SMap α) (n : Nat) (x y : α) : SMap.set (SMap.set m n x) n y = SMap.set m n y := by
  induction m with
  | nil => simp [SMap.set]
  | cons p r ih =>
    obtain ⟨b, z⟩ := p
    by_cases hb : n = b
    · simp [SMap.set, hb]
    by_cases hlt : n < b
    · simp [SMap.set, hb, hlt]
    · simp [SMap.set, hb, hlt, ih]

@[simp] theorem Mach.setCore_setCore (m : Mach) (c : Nat) (k k' : Core) : (m.setCore c k).setCore c k' = m.setCore c k' := by
  simp only [Mach.setCore, SMap.set_set]

/-! ### Fields and counts -/

/-- A field from bit 0 on is that part of the word. -/
theorem wbits_low (v : Word) (hi : Nat) : wbits v hi 0 = (v.extractLsb' 0 (hi + 1)).toNat := by
  simp [wbits]

theorem Core.queueCount_of_calm {k k' : Core} (h : k'.calm = k.calm) (q : SeqId) (n : QSel) : k'.queueCount q n = k.queueCount q n := by
  simp only [Core.queueCount, Core.vslots, Seq.xslots, vq_of_calm h, xq_of_calm h]

theorem Core.table_of_group {k k' : Core} (h : k'.group = k.group) : k'.table = k.table := by rw [Core.table, h, Core.table]

section
variable {α : Type} {l : List (QSlot α)}

theorem anyPending_none (h : ∀ x ∈ l, x.entry ≠ .pending ∧ x.entry ≠ .inFlight) : anyPending l = false := by
  refine List.any_eq_false.2 fun x hx => ?_
  obtain ⟨hp, -⟩ := h x hx
  cases he : x.entry with
  | pending => exact absurd he hp
  | _ => simp

theorem anyInFlight_none (h : ∀ x ∈ l, x.entry ≠ .pending ∧ x.entry ≠ .inFlight) : anyInFlight l = false := by
  refine List.any_eq_false.2 fun x hx => ?_
  obtain ⟨-, hf⟩ := h x hx
  cases he : x.entry with
  | inFlight => exact absurd he hf
  | _ => simp

end

theorem Core.headV_poisoned {k : Core} {n : BitVec 4} {h : QSlot VEntry} {rest : List (QSlot VEntry)} (hs : k.vslots n = h :: rest)
    (he : h.entry = .poisoned) : k.headV n = .error (.slot true n) := by
  simp only [Core.headV, hs, he]

theorem Core.headX_poisoned {k : Core} {q : SeqId} {n : BitVec 4} {h : QSlot Word} {rest : List (QSlot Word)}
    (hs : (k.seq q).xslots n = h :: rest) (he : h.entry = .poisoned) : k.headX q n = .error (.slot false n) := by
  simp only [Core.headX, hs, he]

section
variable {e : Env} {m₀ m : Mach} {a : Src} {v : Word}

/-! ### Tokens (R85, R86) -/

theorem tkwBody_ok {chk down : Bool} (ha : e.src m₀ a = .ok (v, m))
    (hn : (v.extractLsb' 0 4).toNat ≤ ((m.seq e.c e.q).inQ down).posted) :
    tkwBody a chk down e m₀ =
      .ok (e.finishNow (if chk then m else m.onSeq e.c e.q fun s => s.tokPop down (v.extractLsb' 0 4).toNat)) := by
  simp only [tkwBody, chk_bind ha, wbits_low, must_bind (decide_eq_true hn)]

theorem tkwBody_stalls {chk down : Bool} (ha : e.src m₀ a = .ok (v, m))
    (hn : ((m.seq e.c e.q).inQ down).posted < (v.extractLsb' 0 4).toNat) : tkwBody a chk down e m₀ = .error (.stall 1) := by
  simp only [tkwBody, chk_bind ha, wbits_low, must_halt (decide_eq_false (Nat.not_le.2 hn))]

theorem tksBody_ok {down : Bool} (ha : e.src m₀ a = .ok (v, m))
    (hn : (v.extractLsb' 0 4).toNat = 0 ∨ (m.core e.c).tokRoom e.q (!down) (v.extractLsb' 0 4).toNat = true) :
    tksBody a down e m₀ =
      .ok (e.finishNow (m.onCore e.c fun k =>
        (k.tokReserve e.q (!down) (v.extractLsb' 0 4).toNat).tokPost e.q (!down) (v.extractLsb' 0 4).toNat)) := by
  have room : (decide ((v.extractLsb' 0 4).toNat = 0) || (m.core e.c).tokRoom e.q (!down) (v.extractLsb' 0 4).toNat) = true := by
    simpa using hn
  simp only [tksBody, chk_bind ha, wbits_low, must_bind room]

theorem tksBody_stalls {down : Bool} (ha : e.src m₀ a = .ok (v, m)) (hn : (v.extractLsb' 0 4).toNat ≠ 0)
    (hr : (m.core e.c).tokRoom e.q (!down) (v.extractLsb' 0 4).toNat = false) : tksBody a down e m₀ = .error (.stall 1) := by
  have full : (decide ((v.extractLsb' 0 4).toNat = 0) || (m.core e.c).tokRoom e.q (!down) (v.extractLsb' 0 4).toNat) = false := by
    rw [decide_eq_false hn, hr, Bool.or_false]
  simp only [tksBody, chk_bind ha, wbits_low, must_halt full]

/-! ### Pausing and ending (R89, R91, R92) -/

theorem clhBody_abs (ha : e.src m₀ a = .ok (v, m)) :
    clhBody a true e m₀ =
      .ok ((e.advance 1 (e.finishNow m)).onSeq e.c e.q fun s => { s with pause := .holdAbs v }) := by
  simp only [clhBody, chk_bind ha, if_true]

theorem clhBody_for (ha : e.src m₀ a = .ok (v, m)) :
    clhBody a false e m₀ =
      .ok ((e.advance (max 1 (v.extractLsb' 0 32).toNat) (e.finishNow m)).onSeq e.c e.q fun s =>
        { s with pause := .hold (s.clock + max 1 (v.extractLsb' 0 32).toNat) }) := by
  simp only [clhBody, chk_bind ha, wbits_low, Bool.false_eq_true, if_false]

theorem sleepBody_ok (ha : e.src m₀ a = .ok (v, m)) :
    sleepBody a e m₀ =
      .ok ((e.advance 1 (e.finishNow m)).onSeq e.c e.q fun s =>
        { s with pause := .sleep (if v = 0 then none else some (s.clock + v.toNat)), nudged := false }) := by
  simp only [sleepBody, chk_bind ha]

/-- A group exits when its four sequencers have (R93). -/
theorem Core.groupExit_eq (k : Core) :
    k.groupExit =
      if (k.seq .ctl).exited && (k.seq .ld).exited && (k.seq .cmp).exited && (k.seq .st).exited then
        { k with group := k.group.map fun g => { g with draining := true } }
      else k := by
  simp only [Core.groupExit, allSeqs, List.all_cons, List.all_nil, Bool.and_true, Bool.and_assoc]

/-- A core of the machine changed, with the exit of its group when that has come. -/
theorem Mach.onCore_groupExit (m : Mach) (c : Nat) (f : Core → Core) :
    (m.onCore c fun k => (f k).groupExit) =
      if ((m.onCore c f).seq c .ctl).exited && ((m.onCore c f).seq c .ld).exited && ((m.onCore c f).seq c .cmp).exited &&
          ((m.onCore c f).seq c .st).exited then
        (m.onCore c f).onCore c fun k => { k with group := k.group.map fun g => { g with draining := true } }
      else m.onCore c f := by
  simp only [Mach.seq, Mach.onCore, Mach.setCore_core, Mach.setCore_setCore, Core.groupExit_eq]
  split <;> rfl

/-! ### Queues (R84, R87) -/

theorem Env.ctlResult_ok {d : Dst} {l : Landing} {latency : Nat} (hl : e.dst m₀ d .inFlight = .ok (l, m)) :
    e.ctlResult m₀ d latency v = .ok (e.timed m latency (l.put v) false false) := chk_bind hl

theorem qopDropBody_v {s : QSel} (hs : s.vec = true) (hd : dropCheck ((m.core e.c).headV s.q) = .ok ()) :
    qopDropBody s e m = .ok (e.finishNow (m.onCore e.c fun k => k.popV s.q)) := by
  rw [qopDropBody, if_pos hs]
  exact chk_bind hd

theorem qopDropBody_x {s : QSel} (hs : s.vec = false) (hd : dropCheck ((m.core e.c).headX e.q s.q) = .ok ()) :
    qopDropBody s e m = .ok (e.finishNow (m.onCore e.c fun k => k.popX e.q s.q)) := by
  rw [qopDropBody, if_neg (by simp [hs])]
  exact chk_bind hd

theorem qopClrBody_v {s : QSel} (hs : s.vec = true)
    (h : ∀ x ∈ (m.core e.c).vslots s.q, x.entry ≠ .pending ∧ x.entry ≠ .inFlight) :
    qopClrBody s e m = .ok (e.finishNow (m.setCore e.c ((m.core e.c).setV s.q []))) := by
  simp only [qopClrBody, if_pos hs, anyPending_none h, anyInFlight_none h, Bool.not_false, must_true, chk_ok_bind]

theorem qopClrBody_x {s : QSel} (hs : s.vec = false)
    (h : ∀ x ∈ ((m.core e.c).seq e.q).xslots s.q, x.entry ≠ .pending ∧ x.entry ≠ .inFlight) :
    qopClrBody s e m = .ok (e.finishNow (m.setCore e.c ((m.core e.c).onSeq e.q fun y => y.setX s.q []))) := by
  simp only [qopClrBody, hs, Bool.false_eq_true, if_false, anyPending_none h, anyInFlight_none h, Bool.not_false, must_true, chk_ok_bind]

end

/-! ### The loop table (R84) -/

section
variable {table : List TabLevel} {f : LmovOp} {v : Word}

theorem lmovRes_past (hf : f ≠ .lvls) (h : table[v.toNat]? = none) : lmovRes table f v = 0 := by
  cases f with
  | lvls => exact absurd rfl hf
  | _ => simp only [lmovRes, h]

/-- What LMOV reads of a level. -/
theorem lmovRes_level {x : TabLevel} (h : table[v.toNat]? = some x) :
    lmovRes table .cnt v = BitVec.ofNat 64 x.count ∧ lmovRes table .idx v = BitVec.ofNat 64 x.idx ∧
      lmovRes table .kind v = BitVec.ofNat 64 x.kind := by
  simp only [lmovRes, h, and_self]

end

/-- LMOV takes its source and its destination, and the result lands two cycles later. -/
theorem exec_lmov {s : State} {t : Tok} {d : Dst} {f : LmovOp} {a : Src} {x : Word} {l : Landing} {m : Mach}
    (h : Takes1 (.lmov t d f a) s a d .inFlight x l m) :
    exec (.lmov t d f a) s =
      .next (s.lands (.lmov t d f a) m 2 (l.put (lmovRes (s.mach.core s.cur).table f x)) false false) := by
  obtain ⟨m₀, m₁, hi, ha, hl⟩ := h
  have table : (m₁.core s.cur).table = (s.mach.core s.cur).table :=
    Core.table_of_group ((Env.src_group ha).trans (group_of_calm hi.calm))
  rw [← table]
  exact attemptNext_ok
    (body := fun e m => do
      let (v, m) ← e.src m a
      e.ctlResult m d 2 (lmovRes (m.core e.c).table f v))
    hi ((chk_bind ha).trans (Env.ctlResult_ok hl))

/-- The counts of QOP are taken before its result takes a slot. -/
theorem exec_qopCnt {s : State} {t : Tok} {d : Dst} {q : QSel} {l : Landing} {m : Mach}
    (h : Takes0 (.qopCnt t d q) s d .inFlight l m) :
    exec (.qopCnt t d q) s =
      .next (s.lands (.qopCnt t d q) m 1 (l.put (BitVec.ofNat 64 ((s.mach.core s.cur).queueCount s.phase.seq q))) false false) := by
  obtain ⟨m₀, hi, hl⟩ := h
  rw [← Core.queueCount_of_calm hi.calm]
  exact attemptNext_ok (body := fun e m => e.ctlResult m d 1 (BitVec.ofNat 64 ((m.core e.c).queueCount e.q q))) hi
    (Env.ctlResult_ok hl)

theorem exec_qopTcnt {s : State} {t : Tok} {d : Dst} {down : Bool} {l : Landing} {m₀ m : Mach}
    (hi : Issues (.qopTcnt t d down) s m₀) (hl : (envOf s (.qopTcnt t d down)).dst m₀ d .inFlight = .ok (l, m)) :
    exec (.qopTcnt t d down) s =
      .next (s.lands (.qopTcnt t d down) m 1 (l.put (BitVec.ofNat 64 ((m₀.seq s.cur s.phase.seq).inQ down).posted)) false false) :=
  attemptNext_ok (body := fun e m => e.ctlResult m d 1 (BitVec.ofNat 64 ((m.seq e.c e.q).inQ down).posted)) hi (Env.ctlResult_ok hl)

/-- Settles O13: each form by what its body does once the instruction issues. -/
theorem controlForms : Obligations.ControlForms := by
  refine ⟨?nop, ?tkw, ?tks, ?clh, ?yield, ?sleep, ?exit, ?qopCnt, ?qopTcnt, ?qopDrop, ?qopClr, ?lmov⟩
  case nop =>
    intro s t m i hi
    exact attemptNext_ok (body := fun e m => .ok (e.finishNow m)) hi rfl
  case tkw =>
    intro s t a chk down x m i n hr
    obtain ⟨m₀, hi, ha⟩ := hr
    exact ⟨fun hn => attemptNext_ok hi (tkwBody_ok ha hn), fun hn => attemptNext_halt hi (tkwBody_stalls ha hn)⟩
  case tks =>
    intro s t a down x m i n k hr
    obtain ⟨m₀, hi, ha⟩ := hr
    exact ⟨fun hn => attemptNext_ok hi (tksBody_ok ha hn), fun hn hk => attemptNext_halt hi (tksBody_stalls ha hn hk)⟩
  case clh =>
    intro s t a abs x m i n hr
    obtain ⟨m₀, hi, ha⟩ := hr
    refine ⟨?_, ?_⟩
    · rintro rfl
      exact attempt_ok hi (clhBody_abs ha)
    · rintro rfl
      exact attempt_ok hi (clhBody_for ha)
  case yield =>
    intro s t m i m' hi
    exact attempt_ok hi rfl
  case sleep =>
    intro s t a x m i hr
    obtain ⟨m₀, hi, ha⟩ := hr
    exact attempt_ok hi (sleepBody_ok ha)
  case exit =>
    intro s t m i m' all hi
    exact attempt_ok (body := exitBody) hi (congrArg Except.ok (Mach.onCore_groupExit _ _ _))
  case qopCnt =>
    intro s t d q l m i ht
    exact exec_qopCnt ht
  case qopTcnt =>
    intro s t d down l m₀ m i hi hl
    exact exec_qopTcnt hi hl
  case qopDrop =>
    intro s t q m i e hi
    refine ⟨fun v hq hv => ?_, fun v hq hv => ?_, fun h rest hq hs he => ?_, fun h rest hq hs he => ?_⟩
    · exact attemptNext_ok hi (qopDropBody_v hq (congrArg dropCheck hv))
    · exact attemptNext_ok hi (qopDropBody_x hq (congrArg dropCheck hv))
    · exact attemptNext_ok hi (qopDropBody_v hq (congrArg dropCheck (Core.headV_poisoned hs he)))
    · exact attemptNext_ok hi (qopDropBody_x hq (congrArg dropCheck (Core.headX_poisoned hs he)))
  case qopClr =>
    intro s t q m i k hi
    exact ⟨fun hq hx => attemptNext_ok hi (qopClrBody_v hq hx), fun hq hx => attemptNext_ok hi (qopClrBody_x hq hx)⟩
  case lmov =>
    intro s t d f a x l m i table ht
    refine (exec_lmov ht).trans ?_
    cases hx : table[x.toNat]? with
    | none =>
      cases f with
      | lvls => rfl
      | _ => rw [lmovRes_past (by decide) hx]; rfl
    | some y =>
      obtain ⟨hcnt, hidx, hkind⟩ := lmovRes_level hx
      cases f with
      | cnt => rw [hcnt]
      | idx => rw [hidx]
      | kind => rw [hkind]
      | lvls => rfl

end Sys2Proof.Machine
end

