-- ==== Sys2Proof/Proofs/RemoteLoads.lean ====
section
/-! The statement about the loads from home memory, the prefetch, and LOC. -/

namespace Sys2Proof.Machine

/-! ### The line of a load (R127, R138) -/

/-- The slice in retention that a load of an address waits for: that of a global line that is not staged. -/
def Mach.waitsFor (m : Mach) (c : Nat) (dev : Bool) (a : Nat) : Option Nat :=
  if dev || ((m.core c).line dev a).isSome then none else m.retainedSlice a

/-- The machine once a load of an address has counted as an access to its slice. -/
def Mach.accessed (m : Mach) (c : Nat) (dev : Bool) (a : Nat) : Mach :=
  if dev || ((m.core c).line dev a).isSome then m else m.touchSlice a

/-- The line that a load of an address reads, which is staged unless its slice is in retention. -/
def Mach.lineRead (m : Mach) (c : Nat) (dev : Bool) (a home : Nat) : Line × Mach :=
  if (m.waitsFor c dev a).isSome then ({ (m.accessed c dev a).lineAt c dev a home with poison := [] }, m.accessed c dev a)
  else (m.accessed c dev a).stage c dev a home

/-- With no poisoned store in the core's buffer, a load meets none. -/
theorem Core.poisonedStore_none {k : Core} {sp : Space} {a n : Nat} (h : ∀ p ∈ k.posted, p.bad = false) :
    k.poisonedStore sp a n = none := by
  have clean : ¬ k.posted.any Posted.bad = true := by simpa using h
  rw [Core.poisonedStore, if_neg clean]

/-- Where no poisoned word touches a range, none is found there that no store covers. -/
theorem find_poison_none {l : List Nat} {at_ : Nat → Nat} {a n : Nat} {covered : Nat → Bool}
    (h : ∀ w ∈ l, overlaps (8 * w) 8 a n = false) :
    (l.find? fun w => overlaps (8 * w) 8 a n && !covered (at_ w)) = none :=
  List.find?_eq_none.2 fun w hw => by simp [h w hw]

section
variable {e : Env} {m₀ m₁ m m₂ : Mach} {q : BitVec 4} {a : Src} {imm : BitVec 8} {z : MSize} {x : Word} {l : Landing}

/-! ### Loads (R120, R121, R127, R129) -/

section
variable (ha : e.src m₀ a = .ok (x, m₁)) (hl : e.loadDst m₁ q z true = .ok (l, m))
include ha hl

theorem stagedLoadBody_misaligned {dev : Bool} (hal : alignOk (effAddr x imm z) (sizeBytes z) = false) :
    stagedLoadBody dev q a imm z e m₀ = .error (.trap tAlign (effAddr x imm z)) := by
  simp only [stagedLoadBody, Env.ea_ok ha, hl, chk_ok_bind, must_halt hal]

theorem ldbBody_misaligned (hal : alignOk (effAddr x imm z) (sizeBytes z) = false) :
    ldbBody q a imm z e m₀ = .error (.trap tAlign (effAddr x imm z)) := by
  simp only [ldbBody, Env.ea_ok ha, hl, chk_ok_bind, must_halt hal]

theorem stagedLoadBody_fails {dev : Bool} {h : Halt} (hal : alignOk (effAddr x imm z) (sizeBytes z) = true)
    (hr : e.resolve m (if dev then .dev else .glb) (effAddr x imm z) (sizeBytes z) false = .error h) :
    stagedLoadBody dev q a imm z e m₀ = .error h := by
  simp only [stagedLoadBody, Env.ea_ok ha, hl, chk_ok_bind, must_bind hal, hr, chk_error_bind]

theorem ldbBody_fails {h : Halt} (hal : alignOk (effAddr x imm z) (sizeBytes z) = true)
    (hr : e.resolve m .blk (effAddr x imm z) (sizeBytes z) false = .error h) : ldbBody q a imm z e m₀ = .error h := by
  simp only [ldbBody, Env.ea_ok ha, hl, chk_ok_bind, must_bind hal, hr, chk_error_bind]

/-- A load of a line that meets no poison starts, with the bytes of the line and the own stores laid over them. -/
theorem stagedLoadBody_starts {dev : Bool} {pl : Place} {ln : Line} {m₃ : Mach}
    (hal : alignOk (effAddr x imm z) (sizeBytes z) = true)
    (hr : e.resolve m (if dev then .dev else .glb) (effAddr x imm z) (sizeBytes z) false = .ok (pl, m₂))
    (hln : m₂.lineRead e.c dev (effAddr x imm z).toNat pl.at_ = (ln, m₃))
    (hp : ∀ w ∈ ln.poison, overlaps (8 * w) 8 ((effAddr x imm z).toNat % 512) (sizeBytes z) = false)
    (hs : ∀ p ∈ (m₃.core e.c).posted, p.bad = false) :
    stagedLoadBody dev q a imm z e m₀ =
      .ok (e.start m₃ .values
        [l.putBytes .b ((m₃.core e.c).overlay (if dev then .dev else .glb) (effAddr x imm z).toNat
          (ln.data.read ((effAddr x imm z).toNat % 512) (sizeBytes z)))] 0 []
        (some ⟨if dev then .dev else .glb, (effAddr x imm z).toNat, sizeBytes z,
          m₂.waitsFor e.c dev (effAddr x imm z).toNat⟩)).2 := by
  rw [Mach.lineRead, Mach.waitsFor, Mach.accessed] at hln
  simp only [stagedLoadBody, Env.ea_ok ha, hl, chk_ok_bind, must_bind hal, hr, hln, Core.poisonedStore_none hs]
  rw [find_poison_none (at_ := fun w => (effAddr x imm z).toNat / 512 * 512 + 8 * w) hp]
  rfl

/-- LDB of a sequence starts where home holds no poison, with the own stores laid over home's bytes. -/
theorem ldbBody_starts {pl : Place} {y : BSeq} (hal : alignOk (effAddr x imm z) (sizeBytes z) = true)
    (hr : e.resolve m .blk (effAddr x imm z) (sizeBytes z) false = .ok (pl, m₂))
    (hy : m₂.bseq (m₂.core e.c).ctx (baHandle (effAddr x imm z).toNat) = some y)
    (hp : ∀ w ∈ m₂.dramPoison, overlaps (8 * w) 8 pl.at_ (sizeBytes z) = false)
    (hs : ∀ p ∈ (m₂.core e.c).posted, p.bad = false) :
    ldbBody q a imm z e m₀ =
      .ok (e.start m₂ .values
        [l.putBytes (shapeFmt y.shape) ((m₂.core e.c).overlay .blk (effAddr x imm z).toNat (m₂.dram.read pl.at_ (sizeBytes z)))]
        0 [] (some ⟨.blk, (effAddr x imm z).toNat, sizeBytes z, none⟩)).2 := by
  simp only [ldbBody, Env.ea_ok ha, hl, chk_ok_bind, must_bind hal, hr, hy, Core.poisonedStore_none hs]
  rw [find_poison_none (at_ := fun w => (effAddr x imm z).toNat + 8 * w - pl.at_) hp]
  rfl

end

/-! ### PFD and LOC (R132, R133) -/

theorem pfdBody_misaligned (ha : e.src m₀ a = .ok (x, m)) (hal : alignOk (effAddr x imm .b512) 512 = false) :
    pfdBody a imm e m₀ = .error (.trap tAlign (effAddr x imm .b512)) := by
  simp only [pfdBody, Env.ea_ok ha, chk_ok_bind, must_halt hal]

theorem pfdBody_dropped {code : Nat} {info : Word} (ha : e.src m₀ a = .ok (x, m)) (hal : alignOk (effAddr x imm .b512) 512 = true)
    (hr : e.resolve m .dev (effAddr x imm .b512) 512 false = .error (.trap code info)) :
    pfdBody a imm e m₀ = .ok (e.finishNow m) := by
  simp only [pfdBody, Env.ea_ok ha, chk_ok_bind, must_bind hal, hr]

theorem pfdBody_stages {pl : Place} (ha : e.src m₀ a = .ok (x, m)) (hal : alignOk (effAddr x imm .b512) 512 = true)
    (hr : e.resolve m .dev (effAddr x imm .b512) 512 false = .ok (pl, m₂)) :
    pfdBody a imm e m₀ =
      .ok (e.start (m₂.stage e.c true (effAddr x imm .b512).toNat pl.at_).2 .values [] 0 [] none).2 := by
  simp only [pfdBody, Env.ea_ok ha, chk_ok_bind, must_bind hal, hr]

section
variable {d : Dst} {f : Space} (ha : e.src m₀ a = .ok (x, m₁)) (hl : e.dst m₁ d .pending = .ok (l, m))
include ha hl

theorem locBody_nowhere (hp : locPlace e.trust m (m.seq e.c e.q).status.super (e.ctx m) f x.toNat = .ok none) :
    locBody d f a e m₀ = .ok (e.startValues m [l.put 0] 0 []) := by
  simp only [locBody, chk_bind ha, chk_bind hl, hp]

theorem locBody_found {die tile : Nat}
    (hp : locPlace e.trust m (m.seq e.c e.q).status.super (e.ctx m) f x.toNat = .ok (some (die, tile))) :
    locBody d f a e m₀ = .ok (e.startValues m [l.put (locWord e.trust e.die e.corelog die tile)] 0 []) := by
  simp only [locBody, chk_bind ha, chk_bind hl, hp]

end
end

/-! ### The end of a load that waited for its slice (R138) -/

section
variable {m : Mach} {t : Trust} {c o ea n key : Nat} {op : Op}

theorem Core.open?_of_settled {k : Core} (hl : k.later = []) (ho : k.op? o = some op) : k.open? o = some op := by
  rw [Core.open?, hl]
  exact ho

theorem serve_waits (hk : op.kind = .values) (hld : op.load = some ⟨.glb, ea, n, some key⟩)
    (hr : (SMap.getD m.slices key .new).retained = true) : serve t c op m = m := by
  simp only [serve, hk, hld, hr, if_true]

theorem serve_ends (hk : op.kind = .values) (hld : op.load = some ⟨.glb, ea, n, some key⟩)
    (hr : (SMap.getD m.slices key .new).retained = false) (hp : m.exitPoison c op = none) :
    serve t c op m = (m.stage c false ea ea).2.finish c op := by
  simp only [serve, hk, hld, hr, Bool.false_eq_true, if_false, Mach.loadEnds, hp]

end

/-- The event that serves an operation: one for results that enter queues, one for the rest. -/
theorem exec_serves {s : State} {c o : Nat} {op : Op} (hl : (s.mach.core c).later = []) (ho : (s.mach.core c).op? o = some op) :
    exec (if op.dests.any Landing.isQueue then .pendingEntryLands c o else .handshakeAcknowledged c o) s =
      .next (s.on (serve s.trust c op s.mach)) := by
  have open_ := Core.open?_of_settled hl ho
  have served : serveIf (op.dests.any Landing.isQueue) s.trust c o s.mach = serve s.trust c op s.mach := by
    rw [serveIf, open_]
    exact if_pos rfl
  cases hq : op.dests.any Landing.isQueue <;> rw [hq] at served <;> exact State.next_on served

/-- Settles O24: the operands taken, alignment, the checks and the poison decide; a load that waited ends by its slice. -/
theorem remoteLoads : Obligations.RemoteLoads := by
  refine ⟨?_, ?_, ?_, ?_⟩
  · intro s t q a imm z x l m0 m1 m i sp e n ea hform hi ha hl
    obtain ⟨rfl, rfl⟩ | ⟨rfl, rfl⟩ | ⟨rfl, rfl⟩ := hform
    case inr.inr =>
      refine ⟨fun hmis => attemptNext_halt hi ?_, fun h hal hr => attemptNext_halt hi ?_,
        fun pl m2 hal hr => ⟨fun h => absurd rfl h, fun y _ hy hp hs => attemptNext_ok hi ?_⟩⟩
      · exact ldbBody_misaligned ha hl (alignOk_of_not hmis)
      · exact ldbBody_fails ha hl (alignOk_of hal) hr
      · exact ldbBody_starts ha hl (alignOk_of hal) hr hy hp hs
    all_goals
      refine ⟨fun hmis => attemptNext_halt hi ?_, fun h hal hr => attemptNext_halt hi ?_,
        fun pl m2 hal hr => ⟨fun _ hp hs => attemptNext_ok hi ?_, fun y h => nomatch h⟩⟩
      · exact stagedLoadBody_misaligned ha hl (alignOk_of_not hmis)
      · exact stagedLoadBody_fails ha hl (alignOk_of hal) hr
      · exact stagedLoadBody_starts ha hl (alignOk_of hal) hr rfl hp hs
  · intro s c o ea n key op m ev hlater ho hk hld
    exact ⟨fun hr => (exec_serves hlater ho).trans (State.next_on (serve_waits hk hld hr)),
      fun hr hp => (exec_serves hlater ho).trans (State.next_on (serve_ends hk hld hr hp))⟩
  · intro s t a imm x m i e ea hr
    obtain ⟨m₀, hi, ha⟩ := hr
    refine ⟨fun hmis => attemptNext_halt hi ?_, fun code info hal hr => attemptNext_ok hi ?_,
      fun pl m2 hal hr => attemptNext_ok hi ?_⟩
    · exact pfdBody_misaligned ha (alignOk_of_not hmis)
    · exact pfdBody_dropped ha (alignOk_of hal) hr
    · exact pfdBody_stages ha (alignOk_of hal) hr
  · intro s t d f a x l m i e place ht
    obtain ⟨m₀, m₁, hi, ha, hl⟩ := ht
    exact ⟨fun hp => attemptNext_ok hi (locBody_nowhere ha hl hp), fun die tile hp => attemptNext_ok hi (locBody_found ha hl hp)⟩

end Sys2Proof.Machine
end

