-- ==== Sys2Proof/Proofs/IntegerTimed.lean ====
section
/-! SUPPORT for the statements on the integer class: an instruction whose operands are readable lands its result after its latency, and
what a clamped result is. -/

namespace Sys2Proof.Machine

/-! ### Clamping (R103, R104) -/

/-- Clamping into a range that is not empty gives the number limited to it, and says whether that changed it. -/
theorem clampTo_eq_limit {lo hi : Int} (h : lo ≤ hi) (z : Int) :
    clampTo lo hi z = (limit lo hi z, decide (limit lo hi z ≠ z)) := by
  rw [clampTo]
  split
  case isTrue below =>
    have low : limit lo hi z = lo := by rw [limit]; omega
    rw [low, decide_eq_true below.ne']
  case isFalse =>
    split
    case isTrue above =>
      have high : limit lo hi z = hi := by rw [limit]; omega
      rw [high, decide_eq_true above.ne]
    case isFalse =>
      have same : limit lo hi z = z := by rw [limit]; omega
      rw [same, decide_eq_false fun h => h rfl]

theorem clamped_eq_limit {lo hi : Int} (h : lo ≤ hi) (z : Int) :
    clamped lo hi z = ⟨BitVec.ofInt 64 (limit lo hi z), decide (limit lo hi z ≠ z), false⟩ := by
  rw [clamped, clampTo_eq_limit h]

/-! ### Timed instructions (R64, R72, R99) -/

section
variable {i : Instr} {s : State} {a b : Src} {d : Dst} {x y : Word} {l : Landing} {m : Mach} {n : Nat}

/-- With both sources read and a place for the result, the result of two operands lands after the latency, with its flags. -/
theorem Takes2.lands {f : Word → Word → IntRes} {v : Word} {satur divz : Bool} (h : Takes2 i s a b d .inFlight x y l m)
    (hr : f x y = ⟨v, satur, divz⟩) :
    attemptNext i (timed2 d a b n f) s = .next (s.lands i m n (l.put v) satur divz) := by
  obtain ⟨m₀, m₁, hi, hxy, hl⟩ := h
  refine attemptNext_ok hi ?_
  rw [timed2, chk_bind hxy]
  exact (chk_bind hl).trans (by rw [hr])

/-- A clamped result lands, with satur set when the clamp changed it. -/
theorem Takes2.lands_clamped {f : Word → Word → IntRes} {lo hi z : Int} (h : Takes2 i s a b d .inFlight x y l m)
    (hr : f x y = clamped lo hi z) (hle : lo ≤ hi) :
    attemptNext i (timed2 d a b n f) s =
      .next (s.lands i m n (l.put (BitVec.ofInt 64 (limit lo hi z))) (decide (limit lo hi z ≠ z)) false) :=
  h.lands (hr.trans (clamped_eq_limit hle z))

/-- The same for a result of one operand, which has no flags. -/
theorem Takes1.lands {f : Word → Word} {v : Word} (h : Takes1 i s a d .inFlight x l m) (hr : f x = v) :
    attemptNext i (timed1 d a n f) s = .next (s.lands i m n (l.put v) false false) := by
  obtain ⟨m₀, m₁, hi, hx, hl⟩ := h
  refine attemptNext_ok hi ?_
  rw [timed1, chk_bind hx]
  exact (chk_bind hl).trans (by rw [hr])

end
end Sys2Proof.Machine
end

