-- ==== Sys2Proof/Proofs/IntegerArithmetic.lean ====
section
/-! The statements about ADD and SUB, MUL and DIV. -/

namespace Sys2Proof.Machine

/-! ### ADD and SUB (R103) -/

section
variable (minus w : Bool) (x y : Word)

theorem addSub_ss :
    addSub minus .ss w x y = clamped (-2 ^ ((if w then 32 else 64) - 1)) (2 ^ ((if w then 32 else 64) - 1) - 1)
      (if minus then sIntOf w x - sIntOf w y else sIntOf w x + sIntOf w y) := by
  cases w <;> rfl

theorem addSub_us :
    addSub minus .us w x y = clamped 0 (2 ^ (if w then 32 else 64) - 1)
      (if minus then uIntOf w x - uIntOf w y else uIntOf w x + uIntOf w y) := by
  cases w <;> rfl

end

theorem signedRange_nonempty (n : Nat) : (-2 ^ n : Int) ≤ 2 ^ n - 1 := by
  have : (0 : Int) < 2 ^ n := by positivity
  omega

theorem unsignedRange_nonempty (n : Nat) : (0 : Int) ≤ 2 ^ n - 1 := by
  have : (0 : Int) < 2 ^ n := by positivity
  omega

/-- ADD and SUB are one attempt (R103). -/
theorem exec_addSub (s : State) (t : Tok) (d : Dst) (mode : SatMode) (w : Bool) (a b : Src) (minus : Bool) :
    exec (if minus then .sub t d mode w a b else .add t d mode w a b) s =
      attemptNext (if minus then .sub t d mode w a b else .add t d mode w a b) (timed2 d a b 1 (addSub minus mode w)) s := by
  cases minus <;> rfl

/-- Settles O1: the sum or difference of the width, wrapped or clamped, is the one result of the shared attempt. -/
theorem addSubResult : Obligations.AddSubResult := by
  intro s t d mode w a b x y l m minus i op h
  have run : exec i s = attemptNext i (timed2 d a b 1 (addSub minus mode w)) s := exec_addSub s t d mode w a b minus
  refine ⟨?_, ?_, ?_, ?_⟩
  · rintro rfl rfl
    exact run.trans (h.lands rfl)
  · rintro rfl rfl
    exact run.trans (h.lands rfl)
  · rintro rfl
    exact run.trans (h.lands_clamped (addSub_ss minus w x y) (signedRange_nonempty _))
  · rintro rfl
    exact run.trans (h.lands_clamped (addSub_us minus w x y) (unsignedRange_nonempty _))

/-! ### MUL (R104) -/

/-- The product of the low halves as numbers is their product modulo 2^32. -/
theorem mulRes_w (x y : Word) : mulRes .w x y = plain ((BitVec.ofInt 32 (sIntOf true x * sIntOf true y)).signExtend 64) := by
  have product : BitVec.ofInt 32 (sIntOf true x * sIntOf true y) = lo32 x * lo32 y := by
    simp only [sIntOf, if_true, BitVec.ofInt_mul, BitVec.ofInt_toInt, lo32]
  rw [product]
  rfl

theorem mulRes_low (x y : Word) : mulRes .low x y = plain (BitVec.ofNat 64 (x.toNat * y.toNat)) :=
  congrArg plain (BitVec.eq_of_toNat_eq (by rw [BitVec.toNat_mul, BitVec.toNat_ofNat]))

/-- The upper half of a number of 128 bits is the lower half of the number divided by 2^64. -/
theorem upperHalf_ofInt (z : Int) : (BitVec.ofInt 128 z).extractLsb' 64 64 = BitVec.ofInt 64 (z / 2 ^ 64) := by
  apply BitVec.eq_of_toNat_eq
  simp only [BitVec.extractLsb'_toNat, BitVec.toNat_ofInt, Nat.shiftRight_eq_div_pow]
  omega

theorem mulRes_hs (x y : Word) : mulRes .hs x y = plain (BitVec.ofInt 64 (x.toInt * y.toInt / 2 ^ 64)) := by
  have product : x.signExtend 128 * y.signExtend 128 = BitVec.ofInt 128 (x.toInt * y.toInt) := (BitVec.ofInt_mul _ _).symm
  rw [mulRes, product, upperHalf_ofInt]

theorem mulRes_hu (x y : Word) : mulRes .hu x y = plain (BitVec.ofNat 64 (x.toNat * y.toNat / 2 ^ 64)) := by
  have product : x.setWidth 128 * y.setWidth 128 = BitVec.ofInt 128 ((x.toNat * y.toNat : Nat) : Int) := by
    rw [← BitVec.ofNat_toNat, ← BitVec.ofNat_toNat, BitVec.ofNat_mul_ofNat, BitVec.ofInt_natCast]
  rw [mulRes, product, upperHalf_ofInt, ← BitVec.ofInt_natCast]
  rfl

/-- Settles O2: each form gives its part of the exact product. -/
theorem mulResult : Obligations.MulResult := by
  intro s t d f a b x y l m i h
  have run : exec i s = attemptNext i (timed2 d a b 3 (mulRes f)) s := rfl
  refine ⟨?_, ?_, ?_, ?_, ?_⟩
  · rintro rfl
    exact run.trans (h.lands (mulRes_low x y))
  · rintro rfl
    exact run.trans (h.lands (mulRes_w x y))
  · rintro rfl
    exact run.trans (h.lands (mulRes_hs x y))
  · rintro rfl
    exact run.trans (h.lands (mulRes_hu x y))
  · rintro rfl
    exact run.trans (h.lands_clamped rfl (signedRange_nonempty 63))

/-! ### DIV (R105) -/

section
variable {n : Nat} (x y : BitVec n)

theorem divUnsigned_quotient : divUnsigned false x y = (x / y).setWidth 64 := by
  rw [← BitVec.ofNat_toNat, BitVec.toNat_udiv]
  rfl

theorem divUnsigned_remainder : divUnsigned true x y = (x % y).setWidth 64 := by
  rw [← BitVec.ofNat_toNat, BitVec.toNat_umod]
  rfl

theorem divSigned_remainder : divSigned true x y = (x.srem y).signExtend 64 := by
  rw [BitVec.signExtend, BitVec.toInt_srem]
  rfl

/-- The signed quotient: only the most negative number by -1 leaves the range, and gives itself. -/
theorem divSigned_quotient (hn : 0 < n) : divSigned false x y = (x.sdiv y).signExtend 64 := by
  have least : (BitVec.intMin n).toInt = -2 ^ (n - 1) := BitVec.toInt_intMin_of_pos hn
  have least_iff : x.toInt = -2 ^ (n - 1) ↔ x = BitVec.intMin n := by rw [← least, BitVec.toInt_inj]
  have minusOne_iff : y.toInt = -1 ↔ y = -1#n := by rw [← BitVec.toInt_inj, BitVec.neg_one_eq_allOnes, BitVec.toInt_allOnes, if_pos hn]
  simp only [BitVec.signExtend, divSigned, Bool.false_eq_true, if_false, least_iff, minusOne_iff]
  split
  case isTrue h =>
    obtain ⟨rfl, rfl⟩ := h
    rw [BitVec.intMin_sdiv_neg_one, least]
  case isFalse h => rw [BitVec.toInt_sdiv_of_ne_or_ne x y (not_and_or.1 h)]

end

theorem divisor_zero_iff (w : Bool) (y : Word) : (if w then lo32 y = 0 else y = 0) ↔ uIntOf w y = 0 := by
  cases w
  · exact BitVec.toNat_inj.symm.trans Int.natCast_eq_zero.symm
  · exact BitVec.toNat_inj.symm.trans Int.natCast_eq_zero.symm

theorem divRes_zero (f : DivForm) {w : Bool} (x : Word) {y : Word} (h : uIntOf w y = 0) :
    divRes f w x y = ⟨BitVec.allOnes 64, false, true⟩ := if_pos ((divisor_zero_iff w y).2 h)

section
variable {w : Bool} (x : Word) {y : Word} (h : uIntOf w y ≠ 0)
include h

theorem divRes_s : divRes .s w x y = plain (if w then ((lo32 x).sdiv (lo32 y)).signExtend 64 else x.sdiv y) := by
  refine (if_neg (mt (divisor_zero_iff w y).1 h)).trans ?_
  cases w
  · exact congrArg plain ((divSigned_quotient x y (by decide)).trans (BitVec.signExtend_eq _))
  · exact congrArg plain (divSigned_quotient (lo32 x) (lo32 y) (by decide))

theorem divRes_rs : divRes .rs w x y = plain (if w then ((lo32 x).srem (lo32 y)).signExtend 64 else x.srem y) := by
  refine (if_neg (mt (divisor_zero_iff w y).1 h)).trans ?_
  cases w
  · exact congrArg plain ((divSigned_remainder x y).trans (BitVec.signExtend_eq _))
  · exact congrArg plain (divSigned_remainder (lo32 x) (lo32 y))

theorem divRes_u : divRes .u w x y = plain (if w then (lo32 x / lo32 y).setWidth 64 else x / y) := by
  refine (if_neg (mt (divisor_zero_iff w y).1 h)).trans ?_
  cases w
  · exact congrArg plain ((divUnsigned_quotient x y).trans (BitVec.setWidth_eq _))
  · exact congrArg plain (divUnsigned_quotient (lo32 x) (lo32 y))

theorem divRes_ru : divRes .ru w x y = plain (if w then (lo32 x % lo32 y).setWidth 64 else x % y) := by
  refine (if_neg (mt (divisor_zero_iff w y).1 h)).trans ?_
  cases w
  · exact congrArg plain ((divUnsigned_remainder x y).trans (BitVec.setWidth_eq _))
  · exact congrArg plain (divUnsigned_remainder (lo32 x) (lo32 y))

end

/-- Settles O3: a zero divisor gives ones and divz, every other the quotient or remainder of the width. -/
theorem divResult : Obligations.DivResult := by
  intro s t d f w a b x y l m i n x' y' h
  have run : exec i s = attemptNext i (timed2 d a b n (divRes f w)) s := rfl
  refine ⟨fun hy => run.trans (h.lands (divRes_zero f x hy)), fun hy => ⟨?_, ?_, ?_, ?_⟩⟩
  · rintro rfl
    exact run.trans (h.lands (divRes_u x hy))
  · rintro rfl
    exact run.trans (h.lands (divRes_ru x hy))
  · rintro rfl
    exact run.trans (h.lands (divRes_s x hy))
  · rintro rfl
    exact run.trans (h.lands (divRes_rs x hy))

end Sys2Proof.Machine
end

