-- ==== Sys2Proof/Proofs/IntegerLogic.lean ====
section
/-! The statements about AND, OR and XOR, SHF, CMP and MINMAX, and SEL. -/

namespace Sys2Proof.Machine

/-! ### AND, OR and XOR (R106) -/

theorem notIf_getLsbD (n : Bool) (y : Word) {k : Nat} (hk : k < 64) : (notIf n y).getLsbD k = Bool.xor n (y.getLsbD k) := by
  cases n <;> simp [notIf, hk]

/-- Settles O4: each of the three instructions combines bit by bit with srcB or its complement. -/
theorem logicResult : Obligations.LogicResult := by
  intro s t d n a b x y l m i op hform h
  obtain ⟨rfl, rfl⟩ | ⟨rfl, rfl⟩ | ⟨rfl, rfl⟩ := hform
  case inl => exact ⟨x &&& notIf n y, h.lands rfl, fun k hk => by rw [BitVec.getLsbD_and, notIf_getLsbD n y hk]⟩
  case inr.inl => exact ⟨x ||| notIf n y, h.lands rfl, fun k hk => by rw [BitVec.getLsbD_or, notIf_getLsbD n y hk]⟩
  case inr.inr => exact ⟨x ^^^ notIf n y, h.lands rfl, fun k hk => by rw [BitVec.getLsbD_xor, notIf_getLsbD n y hk]⟩

/-! ### SHF (R107) -/

/-- Settles O5: the shift of the width that the form names. -/
theorem shiftResult : Obligations.ShiftResult := by
  intro s t d f w a b x y l m i x' n n' h
  refine h.lands (congrArg plain ?_)
  cases w <;> cases f <;> rfl

/-! ### CMP and MINMAX (R108, R110) -/

/-- The relation of a form between the numbers of two words at a width. -/
def relationAt (f : CmpOp) (w : Bool) (x y : Word) : Bool :=
  match f with
  | .eq => decide (uIntOf w x = uIntOf w y)
  | .ne => decide (uIntOf w x ≠ uIntOf w y)
  | .lt => decide (sIntOf w x < sIntOf w y)
  | .ge => decide (sIntOf w y ≤ sIntOf w x)
  | .ltu => decide (uIntOf w x < uIntOf w y)
  | .geu => decide (uIntOf w y ≤ uIntOf w x)

theorem number_eq_iff {n : Nat} (x y : BitVec n) : (x.toNat : Int) = y.toNat ↔ x = y := by rw [Nat.cast_inj, BitVec.toNat_inj]

/-- The relation that the model tests between bit vectors is that of their numbers. -/
theorem relHolds_eq (f : CmpOp) (w : Bool) (x y : Word) :
    (if w then relHolds f (lo32 x) (lo32 y) else relHolds f x y) = relationAt f w x y := by
  cases f with
  | lt | ge => cases w <;> rfl
  | eq => cases w <;> exact decide_eq_decide.2 (number_eq_iff _ _).symm
  | ne => cases w <;> exact decide_eq_decide.2 (not_congr (number_eq_iff _ _).symm)
  | ltu => cases w <;> exact decide_eq_decide.2 Nat.cast_lt.symm
  | geu => cases w <;> exact decide_eq_decide.2 Nat.cast_le.symm

theorem cmpRes_eq (f : CmpOp) (w : Bool) (x y : Word) : cmpRes f w x y = if relationAt f w x y then 1 else 0 := by
  rw [cmpRes, relHolds_eq]

theorem minMaxRes_mins (x y : Word) : (minMaxRes .mins x y).toInt = min x.toInt y.toInt := by
  rw [minMaxRes, min_def, apply_ite BitVec.toInt]

theorem minMaxRes_maxs (x y : Word) : (minMaxRes .maxs x y).toInt = max x.toInt y.toInt := by
  rw [minMaxRes, max_comm, max_def, apply_ite BitVec.toInt]

theorem minMaxRes_minu (x y : Word) : (minMaxRes .minu x y).toNat = min x.toNat y.toNat := by
  rw [minMaxRes, min_def, apply_ite BitVec.toNat]

theorem minMaxRes_maxu (x y : Word) : (minMaxRes .maxu x y).toNat = max x.toNat y.toNat := by
  rw [minMaxRes, max_comm, max_def, apply_ite BitVec.toNat]

/-- Settles O6: a comparison by the numbers of the width, and the smaller or larger of two words. -/
theorem compareResult : Obligations.CompareResult := by
  refine ⟨?_, ?_⟩
  · intro s t d f w a b x y l m i h
    refine h.lands (congrArg plain ((cmpRes_eq f w x y).trans ?_))
    cases f <;> rfl
  · intro s t d f a b x y l m i h
    refine ⟨minMaxRes f x y, h.lands rfl, ?_⟩
    cases f
    · exact minMaxRes_mins x y
    · exact minMaxRes_maxs x y
    · exact minMaxRes_minu x y
    · exact minMaxRes_maxu x y

/-! ### SEL (R109) -/

/-- With its three operands read in order and a place for the result, SEL lands the chosen source. -/
theorem selBody_ok {e : Env} {m₀ m₁ m₂ m : Mach} {d : Dst} {z : Bool} {q : BitVec 3} {a b : Src} {x y c : Word} {l : Landing}
    (hxy : e.src2 m₀ a b = .ok (x, y, m₁)) (hc : e.src m₁ (.pop (q.setWidth 4)) = .ok (c, m₂))
    (hl : e.dst m₂ d .inFlight = .ok (l, m)) :
    selBody d z q a b e m₀ = .ok (e.timed m 1 (l.put (if decide (c = 0) = z then x else y)) false false) := by
  rw [selBody, chk_bind hxy]
  exact (chk_bind hc).trans (chk_bind hl)

/-- Settles O7: SEL reads three operands in order, and the condition chooses. -/
theorem selectResult : Obligations.SelectResult := by
  intro s t d z q a b x y c l m1 m2 m i hr hc hl
  obtain ⟨m₀, hi, hxy⟩ := hr
  have choice : (decide (c = 0) = z) = ((c ≠ 0) ↔ (z = false)) := by cases z <;> simp
  have landed := attemptNext_ok hi (selBody_ok (z := z) hxy hc hl)
  simp only [choice] at landed
  exact landed

end Sys2Proof.Machine
end

