-- ==== Sys2Proof/Proofs/IntegerBits.lean ====
section
/-! The statements about BITS, EXT and LI. -/

namespace Sys2Proof.Machine

/-! ### Fields of a word -/

/-- The bits from lo to hi of a word are the field there. -/
theorem wbits_eq_extractLsb' (x : Word) (hi lo : Nat) : wbits x hi lo = (x.extractLsb' lo (hi + 1 - lo)).toNat := by
  rw [BitVec.extractLsb'_toNat, Nat.shiftRight_eq_div_pow, wbits]

/-! ### Counts (R111) -/

theorem popCount_le {n : Nat} (x : BitVec n) : popCount x ≤ n :=
  (List.length_filter_le _ _).trans_eq List.length_range

theorem bitsRes_pcnt (x : Word) : (bitsRes .pcnt x 0).toNat = ((List.range 64).filter fun k => x.getLsbD k).length :=
  Nat.mod_eq_of_lt ((popCount_le x).trans_lt (by decide))

theorem leadingZeros_zero (n : Nat) : leadingZeros (0 : BitVec n) = n := if_pos rfl

/-- A word that is not zero has its highest one below its leading zeros. -/
theorem leadingZeros_spec {n : Nat} {x : BitVec n} (hx : x ≠ 0) :
    leadingZeros x < n ∧ 2 ^ (n - 1 - leadingZeros x) ≤ x.toNat ∧ x.toNat < 2 ^ (n - leadingZeros x) := by
  have positive : x.toNat ≠ 0 := fun h => hx (BitVec.toNat_inj.1 h)
  have top : x.toNat.log2 < n := (Nat.log2_lt positive).2 x.isLt
  have count : leadingZeros x = n - 1 - x.toNat.log2 := if_neg hx
  rw [count, show n - 1 - (n - 1 - x.toNat.log2) = x.toNat.log2 by omega,
    show n - (n - 1 - x.toNat.log2) = x.toNat.log2 + 1 by omega]
  exact ⟨by omega, Nat.log2_self_le positive, Nat.lt_log2_self⟩

theorem leadingZeros_le {n : Nat} (x : BitVec n) : leadingZeros x ≤ n := by
  by_cases hx : x = 0
  · rw [hx, leadingZeros_zero]
  · exact (leadingZeros_spec hx).1.le

theorem bitsRes_clz (x : Word) : (bitsRes .clz x 0).toNat = leadingZeros x :=
  Nat.mod_eq_of_lt ((leadingZeros_le x).trans_lt (by decide))

theorem lowestOne_zero (n : Nat) : lowestOne (0 : BitVec n) = n := by
  have none_found : ((List.range n).find? fun i => (0 : BitVec n).getLsbD i) = none :=
    List.find?_eq_none.2 fun i _ => by simp
  rw [lowestOne, none_found, Option.getD_none]

/-- A word that is not zero has a one at its lowest one and none below. -/
theorem lowestOne_spec {n : Nat} {x : BitVec n} (hx : x ≠ 0) :
    lowestOne x < n ∧ x.getLsbD (lowestOne x) = true ∧ ∀ k < lowestOne x, x.getLsbD k = false := by
  cases hf : (List.range n).find? fun i => x.getLsbD i with
  | none =>
    refine absurd (BitVec.eq_of_getLsbD_eq fun k hk => ?_) hx
    have clear := List.find?_eq_none.1 hf k (List.mem_range.2 hk)
    exact (Bool.eq_false_of_not_eq_true clear).trans BitVec.getLsbD_zero.symm
  | some i =>
    obtain ⟨one, hi, below⟩ := List.find?_range_eq_some.1 hf
    have found : lowestOne x = i := by rw [lowestOne, hf, Option.getD_some]
    rw [found]
    exact ⟨List.mem_range.1 hi, one, fun k hk => by simpa using below k hk⟩

theorem lowestOne_le {n : Nat} (x : BitVec n) : lowestOne x ≤ n := by
  by_cases hx : x = 0
  · rw [hx, lowestOne_zero]
  · exact (lowestOne_spec hx).1.le

theorem bitsRes_ctz (x : Word) : (bitsRes .ctz x 0).toNat = lowestOne x :=
  Nat.mod_eq_of_lt ((lowestOne_le x).trans_lt (by decide))

/-! ### Reversals (R111) -/

theorem bitsRes_brev (x : Word) {k : Nat} (hk : k < 64) : (bitsRes .brev x 0).getLsbD (63 - k) = x.getLsbD k := by
  have at_ : x.reverse.getLsbD (63 - k) = x.getLsbD (64 - 1 - (63 - k)) := by
    rw [BitVec.getLsbD_reverse, BitVec.getMsbD, decide_eq_true (by omega), Bool.true_and]
  rwa [show 64 - 1 - (63 - k) = k by omega] at at_

/-- Byte k of a word is byte k of the list of its bytes. -/
theorem extractLsb'_byte (x : Word) {k : Nat} (hk : k < 8) : x.extractLsb' (8 * k) 8 = (leBytes 8 x.toNat).getD k 0 := by
  rw [leBytes_getD hk]
  apply BitVec.eq_of_toNat_eq
  rw [BitVec.extractLsb'_toNat, BitVec.toNat_ofNat, Nat.shiftRight_eq_div_pow, pow_mul]
  rfl

/-- The bytes of the word that eight bytes give are those bytes. -/
theorem extractLsb'_ofBytes {l : List Byte} (hl : l.length = 8) (k : Nat) :
    (BitVec.ofNat 64 (leNat l)).extractLsb' (8 * k) 8 = l.getD k 0 := by
  have small : leNat l < 2 ^ 64 := (leNat_lt l).trans_eq (by rw [hl]; rfl)
  apply BitVec.eq_of_toNat_eq
  rw [BitVec.extractLsb'_toNat, BitVec.toNat_ofNat, Nat.mod_eq_of_lt small, Nat.shiftRight_eq_div_pow, pow_mul]
  exact leNat_byte l k

theorem bitsRes_bswap (x : Word) {k : Nat} (hk : k < 8) :
    (bitsRes .bswap x 0).extractLsb' (8 * (7 - k)) 8 = x.extractLsb' (8 * k) 8 := by
  have swapped : (leBytes 8 x.toNat).reverse.getD (7 - k) 0 = (leBytes 8 x.toNat).getD k 0 := by
    rw [List.getD_reverse (7 - k) (by rw [leBytes_length]; omega), leBytes_length]
    congr 1
    omega
  rw [extractLsb'_byte x hk, ← swapped]
  exact extractLsb'_ofBytes (by rw [List.length_reverse, leBytes_length]) (7 - k)

/-! ### Bit fields and extensions (R111, R112) -/

/-- The field of len bits from pos on is what a shift leaves in len bits. -/
theorem ofNat_bitField (x : Word) (pos len : Nat) : BitVec.ofNat len (bitField x pos len) = (x >>> pos).setWidth len := by
  apply BitVec.eq_of_toNat_eq
  rw [BitVec.toNat_ofNat, BitVec.toNat_setWidth, BitVec.toNat_ushiftRight, Nat.shiftRight_eq_div_pow, bitField, Nat.mod_mod]

theorem bitsRes_bfx (x y : Word) :
    bitsRes .bfx x y =
      ((x >>> (y.extractLsb' 0 6).toNat).setWidth ((y.extractLsb' 8 6).toNat + 1)).setWidth 64 := by
  rw [← ofNat_bitField, ← BitVec.ofNat_toNat, BitVec.toNat_ofNat, bitField, Nat.mod_mod, bitsRes, bitField,
    wbits_eq_extractLsb', wbits_eq_extractLsb']

theorem bitsRes_bfxs (x y : Word) :
    bitsRes .bfxs x y =
      ((x >>> (y.extractLsb' 0 6).toNat).setWidth ((y.extractLsb' 8 6).toNat + 1)).signExtend 64 := by
  rw [← ofNat_bitField, bitsRes, sext64, wbits_eq_extractLsb', wbits_eq_extractLsb']

/-- A word cut to its low n bits and widened again is masked. -/
theorem setWidth_setWidth_eq_and (x : Word) (n : Nat) : (x.setWidth n).setWidth 64 = x &&& BitVec.ofNat 64 (2 ^ n - 1) := by
  apply BitVec.eq_of_getLsbD_eq
  intro k hk
  rw [BitVec.getLsbD_setWidth, BitVec.getLsbD_setWidth, BitVec.getLsbD_and, BitVec.getLsbD_ofNat, Nat.testBit_two_pow_sub_one,
    decide_eq_true hk, Bool.true_and, Bool.true_and, Bool.and_comm]

theorem extRes_pack_low (x y : Word) : (extRes .pack x y).extractLsb' 0 32 = x.extractLsb' 0 32 :=
  BitVec.extractLsb'_append_eq_right.trans (BitVec.setWidth_eq_extractLsb' (by decide))

theorem extRes_pack_high (x y : Word) : (extRes .pack x y).extractLsb' 32 32 = y.extractLsb' 0 32 :=
  BitVec.extractLsb'_append_eq_left.trans (BitVec.setWidth_eq_extractLsb' (by decide))

/-! ### The statement on BITS, EXT and LI -/

theorem BitsOp.usesB_of_ne {f : BitsOp} (h : f ≠ .bfx) (hs : f ≠ .bfxs) : f.usesB = false := by
  cases f with
  | bfx => exact absurd rfl h
  | bfxs => exact absurd rfl hs
  | pcnt | clz | ctz | brev | bswap => rfl

/-- BITS is one attempt: a form that uses srcB reads both sources, another only srcA (R111). -/
theorem exec_bits_two {f : BitsOp} (hf : f.usesB = true) (s : State) (t : Tok) (d : Dst) (a b : Src) :
    exec (.bits t d f a b) s = attemptNext (.bits t d f a b) (timed2 d a b 1 fun x y => plain (bitsRes f x y)) s :=
  congrArg (attemptNext (.bits t d f a b) · s) (if_pos hf)

theorem exec_bits_one {f : BitsOp} (hf : f.usesB = false) (s : State) (t : Tok) (d : Dst) (a b : Src) :
    exec (.bits t d f a b) s = attemptNext (.bits t d f a b) (timed1 d a 1 fun x => bitsRes f x 0) s :=
  congrArg (attemptNext (.bits t d f a b) · s) (if_neg (Bool.eq_false_iff.1 hf))

theorem exec_ext_one {f : ExtOp} (hf : f ≠ .pack) (s : State) (t : Tok) (d : Dst) (a b : Src) :
    exec (.ext t d f a b) s = attemptNext (.ext t d f a b) (timed1 d a 1 fun x => extRes f x 0) s :=
  congrArg (attemptNext (.ext t d f a b) · s) (if_neg hf)

theorem exec_ext_pack (s : State) (t : Tok) (d : Dst) (a b : Src) :
    exec (.ext t d .pack a b) s = attemptNext (.ext t d .pack a b) (timed2 d a b 1 fun x y => plain (extRes .pack x y)) s :=
  congrArg (attemptNext (.ext t d .pack a b) · s) (if_pos rfl)

/-- LI lands its immediate, sign-extended (R113). -/
theorem Takes0.li_lands {s : State} {t : Tok} {d : Dst} {v : BitVec 16} {l : Landing} {m : Mach}
    (h : Takes0 (.li t d v) s d .inFlight l m) :
    exec (.li t d v) s = .next (s.lands (.li t d v) m 1 (l.put (v.signExtend 64)) false false) := by
  obtain ⟨m₀, hi, hl⟩ := h
  have run : execLi t d v s = _ := attemptNext_ok hi (chk_bind hl)
  exact run

/-- Settles O8: the counts and reversals bit by bit, the fields and extensions as words. -/
theorem bitsResult : Obligations.BitsResult := by
  refine ⟨?_, ?_, ?_, ?_, ?_⟩
  · intro s t d f a b x l m i h hbfx hbfxs
    refine ⟨bitsRes f x 0, (exec_bits_one (BitsOp.usesB_of_ne hbfx hbfxs) s t d a b).trans (h.lands rfl), ?_⟩
    cases f with
    | pcnt => exact bitsRes_pcnt x
    | clz =>
      rw [bitsRes_clz]
      exact ⟨fun hx => hx ▸ leadingZeros_zero 64, leadingZeros_spec⟩
    | ctz =>
      rw [bitsRes_ctz]
      exact ⟨fun hx => hx ▸ lowestOne_zero 64, fun hx => (lowestOne_spec hx).2⟩
    | brev => exact fun k hk => bitsRes_brev x hk
    | bswap => exact fun k hk => bitsRes_bswap x hk
    | bfx => exact absurd rfl hbfx
    | bfxs => exact absurd rfl hbfxs
  · intro s t d f a b x y l m i pos len h
    refine ⟨?_, ?_⟩
    · rintro rfl
      exact (exec_bits_two rfl s t d a b).trans (h.lands (congrArg plain (bitsRes_bfx x y)))
    · rintro rfl
      exact (exec_bits_two rfl s t d a b).trans (h.lands (congrArg plain (bitsRes_bfxs x y)))
  · intro s t d f a b x l m i h hf
    refine (exec_ext_one hf s t d a b).trans (h.lands ?_)
    cases f with
    | s8 | s16 | s32 => rfl
    | z8 => exact setWidth_setWidth_eq_and x 8
    | z16 => exact setWidth_setWidth_eq_and x 16
    | z32 => exact setWidth_setWidth_eq_and x 32
    | pack => exact absurd rfl hf
  · intro s t d a b x y l m i h
    exact ⟨extRes .pack x y, (exec_ext_pack s t d a b).trans (h.lands rfl), extRes_pack_low x y, extRes_pack_high x y⟩
  · intro s t d v l m i h
    exact h.li_lands

end Sys2Proof.Machine
end

