-- ==== Sys2Proof/Proofs/IntegerAddress.lean ====
section
/-! The statement about AGEN. -/

namespace Sys2Proof.Machine

/-! ### Addresses put together from fields (R114) -/

/-- A number put above one that fits below it is the two words or-ed. -/
theorem ofNat_high_low (high low k : Nat) (h : low < 2 ^ k) :
    BitVec.ofNat 64 (high * 2 ^ k + low) = (BitVec.ofNat 64 high <<< k) ||| BitVec.ofNat 64 low := by
  have shifted : BitVec.ofNat 64 (high <<< k) = BitVec.ofNat 64 high <<< k := by
    apply BitVec.eq_of_toNat_eq
    rw [BitVec.toNat_shiftLeft, BitVec.toNat_ofNat, BitVec.toNat_ofNat, Nat.shiftLeft_eq, Nat.shiftLeft_eq, Nat.mod_mul_mod]
  rw [← Nat.shiftLeft_eq, Nat.shiftLeft_add_eq_or_of_lt h, BitVec.ofNat_or, shifted]

/-- A field of a word as a word of its own. -/
theorem ofNat_wbits (x : Word) (hi lo : Nat) : BitVec.ofNat 64 (wbits x hi lo) = (x.extractLsb' lo (hi + 1 - lo)).setWidth 64 := by
  rw [wbits_eq_extractLsb', BitVec.ofNat_toNat]

theorem wbits_lt (x : Word) (hi lo : Nat) : wbits x hi lo < 2 ^ (hi + 1 - lo) := Nat.mod_lt _ (Nat.two_pow_pos _)

theorem agenRes_glb (x y : Word) :
    agenRes .glb x y =
      ((x.extractLsb' 8 4).setWidth 64 <<< 28) ||| ((x.extractLsb' 0 6).setWidth 64 <<< 22) ||| (y.extractLsb' 0 22).setWidth 64 := by
  have offset : wbits y 21 0 < 2 ^ 22 := wbits_lt y 21 0
  have below : wbits x 5 0 * 2 ^ 22 + wbits y 21 0 < 2 ^ 28 := by
    have tile : wbits x 5 0 < 2 ^ 6 := wbits_lt x 5 0
    omega
  rw [agenRes, Nat.add_assoc, ofNat_high_low _ _ 28 below, ofNat_high_low _ _ 22 offset, ofNat_wbits, ofNat_wbits, ofNat_wbits,
    BitVec.or_assoc]

theorem agenRes_blk (x y : Word) :
    agenRes .blk x y = ((x.extractLsb' 0 28).setWidth 64 <<< 36) ||| (y.extractLsb' 0 36).setWidth 64 := by
  rw [agenRes, ofNat_high_low _ _ 36 (wbits_lt y 35 0), ofNat_wbits, ofNat_wbits]

/-! ### The advanced block address (R114) -/

/-- The fields of an address put together from a handle and layer, a block number and an offset that fit them. -/
theorem wbits_blockAddress {top blk off : Nat} (ht : top < 2 ^ 28) (hb : blk < 2 ^ 20) (ho : off < 2 ^ 16) :
    wbits (BitVec.ofNat 64 (top * 2 ^ 36 + blk * 2 ^ 16 + off)) 63 36 = top ∧
      wbits (BitVec.ofNat 64 (top * 2 ^ 36 + blk * 2 ^ 16 + off)) 35 16 = blk ∧
      wbits (BitVec.ofNat 64 (top * 2 ^ 36 + blk * 2 ^ 16 + off)) 15 0 = off := by
  have fits : top * 2 ^ 36 + blk * 2 ^ 16 + off < 2 ^ 64 := by omega
  simp only [wbits, BitVec.toNat_ofNat, Nat.mod_eq_of_lt fits]
  omega

/-- The number of bytes into its sequence that .blkn advances a block address to. -/
def advancedBytes (x y : Word) : Int := (x.extractLsb' 16 20).toNat * 32768 + (x.extractLsb' 0 16).toNat + y.toInt

/-- AGEN.blkn keeps the handle and layer, and splits the advanced number of bytes into block number and offset. -/
theorem agenBlkn_fields (x y : Word) :
    (agenBlkn x y).extractLsb' 36 28 = x.extractLsb' 36 28 ∧
      (((agenBlkn x y).extractLsb' 16 20).toNat : Int) = advancedBytes x y / 32768 % 2 ^ 20 ∧
      (((agenBlkn x y).extractLsb' 0 16).toNat : Int) = advancedBytes x y % 32768 := by
  have parts : agenBlkn x y = BitVec.ofNat 64 (wbits x 63 36 * 2 ^ 36 + (advancedBytes x y / 32768 % 2 ^ 20).toNat * 2 ^ 16 +
      (advancedBytes x y % 32768).toNat) := by
    simp only [agenBlkn, advancedBytes, wbits_eq_extractLsb', Nat.cast_add, Nat.cast_mul, Nat.cast_ofNat]
  have ht : wbits x 63 36 < 2 ^ 28 := wbits_lt x 63 36
  have hb : (advancedBytes x y / 32768 % 2 ^ 20).toNat < 2 ^ 20 := by omega
  have ho : (advancedBytes x y % 32768).toNat < 2 ^ 16 := by omega
  obtain ⟨top, blk, off⟩ := wbits_blockAddress ht hb ho
  rw [← parts, wbits_eq_extractLsb'] at top blk off
  refine ⟨BitVec.eq_of_toNat_eq (top.trans (wbits_eq_extractLsb' x 63 36)), ?_, ?_⟩
  · rw [blk]
    omega
  · rw [off]
    omega

/-! ### The statement -/

/-- The scaled forms with their shifts (R114). -/
theorem agenRes_scaled {f : AgenOp} {n : Nat} (x y : Word)
    (h : (f, n) ∈ [(AgenOp.x1, 0), (.x2, 1), (.x4, 2), (.x8, 3), (.x16, 4), (.x64, 6), (.x512, 9), (.x4k, 12)]) :
    agenLatency f = 1 ∧ agenRes f x y = x + y <<< n := by
  simp only [List.mem_cons, List.not_mem_nil, or_false, Prod.mk.injEq] at h
  obtain ⟨rfl, rfl⟩ | ⟨rfl, rfl⟩ | ⟨rfl, rfl⟩ | ⟨rfl, rfl⟩ | ⟨rfl, rfl⟩ | ⟨rfl, rfl⟩ | ⟨rfl, rfl⟩ | ⟨rfl, rfl⟩ := h <;>
    exact ⟨rfl, rfl⟩

/-- Settles O9: each form composes its fields, and the advanced block address is in canonical form. -/
theorem agenResult : Obligations.AgenResult := by
  intro s t d f a b x y l m i h
  have run (v : Word) (hv : agenRes f x y = v) : exec i s = .next (s.lands i m (agenLatency f) (l.put v) false false) :=
    h.lands (congrArg plain hv)
  refine ⟨?_, ?_, ?_, ?_, ?_⟩
  · rintro rfl
    exact run _ (agenRes_glb x y)
  · rintro rfl
    exact run _ (agenRes_blk x y)
  · rintro rfl
    exact run _ rfl
  · intro n hn
    obtain ⟨latency, sum⟩ := agenRes_scaled x y hn
    rw [run _ sum, latency]
  · rintro rfl p
    exact ⟨agenBlkn x y, run _ rfl, agenBlkn_fields x y⟩

end Sys2Proof.Machine
end

