-- ==== Sys2Proof/Proofs/CoreStill.lean ====
section
/-! SUPPORT for the statements about the memory family: the parts of a core that no landing result, no token and no clock changes. -/

namespace Sys2Proof.Machine

/-- What of a core no result that lands changes: everything but its sequencers, its vector queues and its masks. -/
def Core.still (k : Core) : Core :=
  { k with ctl := .reset, ld := .reset, cmp := .reset, st := .reset, vq := [], masks := [] }

section
variable {k : Core} {α : Type}

@[simp] theorem Core.onSeq_still (q : SeqId) (f : Seq → Seq) : (k.onSeq q f).still = k.still := by cases q <;> rfl

theorem Core.onPushQ_still (q : SeqId) (up : Bool) (f : TokQ → TokQ) : (k.onPushQ q up f).still = k.still := by
  unfold Core.onPushQ
  repeat' split
  · rfl
  · exact Core.onSeq_still _ _
  · exact Core.onSeq_still _ _

@[simp] theorem Core.postTokens_still (q : SeqId) (pu pd : Bool) : (k.postTokens q pu pd).still = k.still := by
  cases pu <;> cases pd <;> simp [Core.postTokens, Core.tokPost, Core.onPushQ_still]

theorem Core.land_still (d : Landing) : (k.land d).still = k.still := by
  cases d with
  | x q n slot v =>
    simp only [Core.land]
    split
    · rfl
    · exact Core.onSeq_still _ _
  | v n slot e =>
    simp only [Core.land]
    split <;> rfl
  | loop q n v => exact Core.onSeq_still _ _
  | mask n v w => rfl
  | none => rfl

theorem Core.landFrom_still (id : Nat) (d : Landing) : (k.landFrom id d).still = k.still := by
  unfold Core.landFrom
  repeat' split
  · rfl
  · exact Core.land_still d
  · rw [Core.onSeq_still, Core.land_still]

theorem Core.nudge_still (pending : Bool) (d : Landing) : (k.nudge pending d).still = k.still := by
  cases d <;> simp only [Core.nudge] <;> repeat' split
  all_goals simp

theorem Core.foldl_still {l : List α} {f : Core → α → Core} (hf : ∀ (k : Core) a, (f k a).still = k.still) :
    (l.foldl f k).still = k.still :=
  List.foldlRecOn (motive := fun k' : Core => k'.still = k.still) l f rfl fun _ h a _ => (hf _ a).trans h

theorem Core.landAll_still (op : Op) : (k.landAll op).still = k.still :=
  Core.foldl_still fun _ d => (Core.nudge_still true d).trans (Core.landFrom_still op.id d)

theorem Core.landTimed_still (q : SeqId) (r : Timed) : (k.landTimed q r).still = k.still := by
  rw [Core.landTimed, Core.postTokens_still, Core.onSeq_still, Core.nudge_still, Core.landFrom_still]

theorem Core.landDue_still (q : SeqId) : (k.landDue q).still = k.still := by
  simp only [Core.landDue]
  split
  · rfl
  · rw [Core.foldl_still fun _ r => Core.landTimed_still q r, Core.onSeq_still]

theorem Core.wakeSeq_still (q : SeqId) : (k.wakeSeq q).still = k.still := by
  unfold Core.wakeSeq
  split
  · rfl
  · exact Core.onSeq_still _ _

theorem Core.advanceSeq_still (q : SeqId) : (k.advanceSeq q).still = k.still := by
  simp only [Core.advanceSeq]
  split
  · simp
  · simp [Core.landDue_still]

/-- A finishing action's effect on what no landing changes. -/
theorem Core.finAct_still (a : Fin_) : (k.finAct a).still = (k.still.finAct a).still := by cases a <;> rfl

theorem Core.foldl_finAct_still (l : List Fin_) : (l.foldl Core.finAct k).still = (l.foldl Core.finAct k.still).still := by
  induction l generalizing k with
  | nil => rfl
  | cons a rest ih =>
    rw [List.foldl_cons, List.foldl_cons, ih, Core.finAct_still, ← ih]

/-- An operation that finishes leaves of the rest of its core what its finishing actions do, and is gone. -/
theorem Core.finish_still (op : Op) :
    (k.finish op).still = { (op.fin.foldl Core.finAct k).still with ops := k.ops.filter fun x => decide (x.id ≠ op.id) } := by
  have done : ((k.flagged op).postTokens op.seq op.pu op.pd).still = (op.fin.foldl Core.finAct k).still := by
    rw [Core.postTokens_still, Core.flagged, Core.onSeq_still, Core.foldl_finAct_still, Core.landAll_still,
      ← Core.foldl_finAct_still]
  have gone : (k.finish op).ops = k.ops.filter fun x => decide (x.id ≠ op.id) := Core.finish_ops op
  calc (k.finish op).still = { ((k.flagged op).postTokens op.seq op.pu op.pd).still with ops := (k.finish op).ops } := rfl
    _ = _ := by rw [done, gone]

end
end Sys2Proof.Machine
end

