-- ==== Sys2Proof/Proofs/EndOfCycle.lean ====
section
/-! The statement about the end of a core's cycle. -/

namespace Sys2Proof.Machine

section
variable {m : Mach} {c : Nat}

/-- A core once the bytes of a local store are in its memory (R124). -/
def Core.stored (k : Core) (a : Nat) (bs : List Byte) : Core :=
  { k with later := [], local_ := k.local_.write a bs, localPoison := poisonClear k.localPoison a bs.length }

/-- The end of a cycle with one local store waiting is that of a cycle with its bytes written already. -/
theorem Mach.tick_localWrite {a : Nat} {bs : List Byte} (hf : (m.core c).freeze = .none)
    (hl : (m.core c).later = [.localWrite a bs]) : m.tick c = (m.onCore c fun k => k.stored a bs).tick c := by
  simp [Mach.tick, hf, hl, Core.stored, Mach.applyLater, Later.isPost, Mach.onCore]

/-- The end of a cycle changes no other core and no home memory, when no write waits for it. -/
theorem Mach.tick_frame (hf : (m.core c).freeze = .none) (hl : (m.core c).later = []) :
    (m.tick c).global = m.global ∧ (m.tick c).dram = m.dram ∧ ∀ d, d ≠ c → (m.tick c).core d = m.core d := by
  have shape : ∃ k, m.tick c = m.setCore c k := by
    simp [Mach.tick, hf, hl, Mach.onCore]
  obtain ⟨k, h⟩ := shape
  rw [h]
  exact ⟨rfl, rfl, fun d hd => Mach.setCore_core_ne m k hd⟩

/-- What the end of a cycle leaves of what no landing changes, when no write waits for it. -/
theorem Mach.tick_still (hf : (m.core c).freeze = .none) (hl : (m.core c).later = []) :
    ((m.tick c).core c).local_ = (m.core c).local_ ∧ ((m.tick c).core c).later = [] := by
  have kept : (allSeqs.foldl Core.advanceSeq (m.core c).settled).still =
      { m.core c with later := [], cycles := (m.core c).cycles + 1, ended := false }.still := by
    rw [Core.foldl_still fun _ => Core.advanceSeq_still]
    exact Core.foldl_still (l := allSeqs) fun _ => Core.wakeSeq_still
  rw [Mach.tick_core hf hl]
  have hlocal := congrArg Core.local_ kept
  have hlater := congrArg Core.later kept
  exact ⟨hlocal, hlater⟩

end

/-- The end of a cycle passes on to the next core's st (R17). -/
theorem step_tick {s : State} (ha : s.agenda = []) (hf : s.trust.frozen = false) (hr : s.trust.released = true)
    (hp : s.phase = .tick) : step s = .next ({ s with mach := s.mach.tick s.cur } : State).pass := by
  rw [step_cyclePart (.inl ha) hf hr]
  simp only [cyclePart, hr, hp, Bool.not_true, Bool.false_eq_true, if_false]

/-- Passing on from the end of a cycle goes to st, and changes no core and no home memory. -/
theorem State.pass_tick {s : State} (hp : s.phase = .tick) :
    s.pass.phase = .st ∧ s.pass.mach.global = s.mach.global ∧ s.pass.mach.dram = s.mach.dram ∧
      ∀ c, s.pass.mach.core c = s.mach.core c := by
  have passed : s.pass = { s with
      phase := .st, cur := s.nextCore, mach := if s.nextCore ≤ s.cur then { s.mach with cycleErrs := [] } else s.mach } := by
    simp only [State.pass, hp]
  rw [passed]
  split <;> exact ⟨rfl, rfl, rfl, fun _ => rfl⟩

/-- Settles O21: the store's bytes are written first, and the rest of the cycle's end leaves local memory. -/
theorem endOfCycle : Obligations.EndOfCycle := by
  intro s a bs k ha hfrozen hrel hp hf hw hl
  obtain ⟨hst, hglobal, hdram, hcore⟩ := State.pass_tick (s := { s with mach := s.mach.tick s.cur }) hp
  have written : (s.mach.onCore s.cur fun k => k.stored a bs).core s.cur = k.stored a bs := Mach.onCore_core ..
  have unfrozen : ((s.mach.onCore s.cur fun k => k.stored a bs).core s.cur).freeze = .none := by rw [written]; exact hf
  have none_waits : ((s.mach.onCore s.cur fun k => k.stored a bs).core s.cur).later = [] := by rw [written]; rfl
  obtain ⟨tglobal, tdram, tother⟩ := Mach.tick_frame unfrozen none_waits
  obtain ⟨tlocal, tlater⟩ := Mach.tick_still unfrozen none_waits
  obtain ⟨tcycles, -⟩ := Mach.tick_counts unfrozen none_waits .ctl
  rw [← Mach.tick_localWrite hf hl] at tglobal tdram tother tlocal tlater tcycles
  refine ⟨_, step_tick ha hfrozen hrel hp, hst, ?_, ?_, fun b => ?_, hglobal.trans tglobal, hdram.trans tdram, fun c hc => ?_⟩
  · rw [hcore]
    exact tlater
  · rw [hcore]
    exact tcycles.trans (congrArg (·.cycles + 1) written)
  · rw [hcore]
    refine (congrArg (Mem.get · b) (tlocal.trans (congrArg Core.local_ written))).trans ?_
    exact Mem.get_write (Mem.wf_iff.1 hw).1 a bs b
  · rw [hcore]
    exact (tother c hc).trans (Mach.onCore_core_ne _ _ hc)

end Sys2Proof.Machine
end

