-- ==== Sys2Proof/Proofs/GranuleOwner.lean ====
section
/-! The statement about the owner of a granule of local memory. -/

namespace Sys2Proof.Machine

/-- Whether a granule of an owner keeps its bytes when a group takes it: the group's own, or freed by its context (R126). -/
def Owner.keeps (o : Owner) (gr : Group) : Bool :=
  match o with
  | .freed x => decide (x = gr.ctx)
  | .group h _ => decide (h = gr.gid)
  | .never => false

theorem Owner.keeps_iff {o : Owner} {gr : Group} : o.keeps gr = true ↔ o = .freed gr.ctx ∨ ∃ x, o = .group gr.gid x := by
  cases o <;> simp [Owner.keeps]

theorem Owner.keeps_eq_false_iff {o : Owner} {gr : Group} :
    o.keeps gr = false ↔ o ≠ .freed gr.ctx ∧ ∀ x, o ≠ .group gr.gid x := by
  rw [← Bool.not_eq_true, Owner.keeps_iff, not_or, not_exists]

/-- The core once a group has taken a granule that no group has to be evicted from: kept or zeroed. -/
def Core.takeGranule (k : Core) (g : Nat) (gr : Group) : Core :=
  if (k.granule g).keeps gr then k.retag g (.group gr.gid gr.ctx)
  else { (k.zeroGranule g).retag g (.group gr.gid gr.ctx) with freeze := k.freeze.join (.cycles 64) }

section
variable {m : Mach} {c g : Nat} {gr : Group}

theorem Core.retag_granule (k : Core) (g h : Nat) (o : Owner) : (k.retag g o).granule h = if h = g then o else k.granule h := by
  simp only [Core.granule, Core.retag, SMap.getD, SMap.get?_set]
  split <;> rfl

/-- A granule that is a group's own already is left as it is. -/
theorem Mach.ownGranule_own (hg : (m.core c).group = some gr) (he : gr.evicted = [])
    (ho : (m.core c).granule g = .group gr.gid gr.ctx) : m.ownGranule c g = m := by
  simp [Mach.ownGranule, hg, he, ho]

/-- With no group saved from the core, no granule has to be evicted to another's save slot. -/
theorem Mach.ownGranule_other (hg : (m.core c).group = some gr) (he : gr.evicted = []) (hs : ∀ v ∈ m.saved, v.core ≠ c)
    (ho : (m.core c).granule g ≠ .group gr.gid gr.ctx) : m.ownGranule c g = m.onCore c fun k => k.takeGranule g gr := by
  have unsaved (o : Gid) : (m.saved.find? fun s => decide (s.core = c ∧ s.group.gid = o)) = none :=
    List.find?_eq_none.2 fun v hv => by simp [hs v hv]
  cases hk : (m.core c).granule g with
  | never => simp [Mach.ownGranule, hg, he, hk, Mach.onCore, Core.takeGranule, Owner.keeps]
  | freed x => by_cases hx : x = gr.ctx <;> simp [Mach.ownGranule, hg, he, hk, Mach.onCore, Core.takeGranule, Owner.keeps, hx]
  | group o x =>
    by_cases hx : o = gr.gid
    · have differs : x ≠ gr.ctx := fun h => ho (by rw [hk, hx, h])
      simp [Mach.ownGranule, hg, he, hk, Mach.onCore, Core.takeGranule, Owner.keeps, hx, differs]
    · simp only [Mach.ownGranule, hg, he, hk, hx, unsaved]
      simp [Mach.onCore, Core.takeGranule, Owner.keeps, hk, hx]

/-- Whoever had it, a granule that a group takes is the group's, and no other granule changes its owner. -/
theorem Core.takeGranule_granule (k : Core) (g h : Nat) (gr : Group) :
    (k.takeGranule g gr).granule h = if h = g then .group gr.gid gr.ctx else k.granule h := by
  unfold Core.takeGranule
  split
  · exact Core.retag_granule k g h _
  · exact Core.retag_granule (k.zeroGranule g) g h _

/-- The bytes of local memory once a group has taken a granule: those of the granule are zero unless it keeps them. -/
theorem Core.get_takeGranule {k : Core} (hw : k.local_.wf = true) (g : Nat) (gr : Group) (b : Nat) :
    Mem.get (k.takeGranule g gr).local_ b =
      if (4096 * g ≤ b ∧ b < 4096 * g + 4096) ∧ (k.granule g).keeps gr = false then 0 else Mem.get k.local_ b := by
  unfold Core.takeGranule
  cases hk : (k.granule g).keeps gr
  · simpa [Core.retag, Core.zeroGranule] using Mem.get_zero (Mem.wf_iff.1 hw).1 (4096 * g) 4096 b
  · simp [Core.retag]

theorem poisonClear_outside {l : List Nat} {a n w : Nat} (h : w ∈ poisonClear l a n) : inside (8 * w) 8 a n = false := by
  simpa using (List.mem_filter.1 h).2

end

/-- Settles O22: an own granule stays as it is; another is taken, and zeroed unless it keeps its bytes. -/
theorem granuleOwner : Obligations.GranuleOwner := by
  intro m c g gr k k' hg he _ hw hs
  by_cases ho : k.granule g = .group gr.gid gr.ctx
  · have same : k' = k := congrArg (Mach.core · c) (Mach.ownGranule_own hg he ho)
    rw [same]
    exact ⟨ho, fun _ _ => rfl, fun b => (if_neg fun h => h.2.2.2 _ ho).symm, fun _ h => absurd ho (h _), fun _ => rfl⟩
  · have taken : k' = k.takeGranule g gr :=
      (congrArg (Mach.core · c) (Mach.ownGranule_other hg he hs ho)).trans (Mach.onCore_core ..)
    rw [taken]
    refine ⟨?_, fun h hne => ?_, fun b => ?_, fun hfreed hgroup hz => ?_, fun hfreed => ?_⟩
    · rw [Core.takeGranule_granule, if_pos rfl]
    · rw [Core.takeGranule_granule, if_neg hne]
    · simp only [Core.get_takeGranule hw, Owner.keeps_eq_false_iff, and_assoc]
    · rw [Core.takeGranule, Owner.keeps_eq_false_iff.2 ⟨hfreed, hgroup⟩]
      exact ⟨congrArg (Freeze.join · _) hz, fun w hm => poisonClear_outside hm⟩
    · rw [Core.takeGranule, if_pos (Owner.keeps_iff.2 (.inl hfreed))]
      rfl

end Sys2Proof.Machine
end

