-- ==== Sys2Proof/Proofs/AccessChecks.lean ====
section
/-! The statement about the checks of an access to global, device and block addresses. -/

namespace Sys2Proof.Machine

section
variable {e : Env} {m m' : Mach} {ea : Word} {n : Nat} {store : Bool}

/-! ### Global and device addresses (R115, R116, R120, R122) -/

theorem Env.resolve_glb_space (h : e.trust.globalOk ea.toNat = false) : e.resolve m .glb ea n store = .error (.trap tSpace ea) :=
  must_halt h

theorem Env.resolve_glb_nokey (h : e.trust.globalOk ea.toNat = true) (hk : m.keyOk e.c .glb ea.toNat n store = false) :
    e.resolve m .glb ea n store = .error (.trap tNokey ea) :=
  (must_bind h).trans (must_halt hk)

theorem Env.resolve_glb_ok (h : e.trust.globalOk ea.toNat = true) (hk : m.keyOk e.c .glb ea.toNat n store = true) :
    e.resolve m .glb ea n store = .ok (⟨false, ea.toNat, none⟩, m) :=
  (must_bind h).trans (must_bind hk)

theorem Env.resolve_dev_space (h : 2 ^ 57 ≤ ea.toNat) : e.resolve m .dev ea n store = .error (.trap tSpace ea) :=
  must_halt (decide_eq_false (Nat.not_lt.2 h))

theorem Env.resolve_dev_xlate (h : ea.toNat < 2 ^ 57) (ht : translate e.trust m (m.core e.c).ctx ea.toNat = .fault) :
    e.resolve m .dev ea n store = .error (.trap tXlate ea) := by
  refine (must_bind (decide_eq_true h)).trans ?_
  rw [ht]

/-- A device address that a page maps: its permissions and the key decide. -/
theorem Env.resolve_dev_leaf {pa : Nat} {wr sv : Bool} (h : ea.toNat < 2 ^ 57)
    (ht : translate e.trust m (m.core e.c).ctx ea.toNat = .leaf pa wr sv) :
    e.resolve m .dev ea n store = (do
      must ((!store || wr) && (!sv || ((m.core e.c).seq e.q).status.super)) (.trap tProt ea)
      must (m.keyOk e.c .dev ea.toNat n store) (.trap tNokey ea)
      .ok (⟨true, pa, none⟩, m)) := by
  refine (must_bind (decide_eq_true h)).trans ?_
  rw [ht]

/-- A page lets an access through unless it is read-only to a store or a supervisor page to user mode. -/
theorem pageAllows_iff {store wr sv super : Bool} :
    ((!store || wr) && (!sv || super)) = true ↔ ¬(store = true ∧ wr = false ∨ sv = true ∧ super = false) := by
  cases store <;> cases wr <;> cases sv <;> cases super <;> decide

/-! ### Block addresses (R120, R122, R289, R290) -/

theorem Env.resolve_blk_closed (h : m.bseq (m.core e.c).ctx (baHandle ea.toNat) = none) :
    e.resolve m .blk ea n store = .error (.trap tBlock ea) := by
  simp only [Env.resolve, h]

variable {x : BSeq} (hx : m.bseq (m.core e.c).ctx (baHandle ea.toNat) = some x)
include hx

theorem Env.resolve_blk_outside (h : shapeLayers x.shape ≤ baLayer ea.toNat ∨ shapeB x.shape < baOff ea.toNat + n) :
    e.resolve m .blk ea n store = .error (.trap tBlock ea) := by
  have outside : (decide (baLayer ea.toNat < shapeLayers x.shape) && decide (baOff ea.toNat + n ≤ shapeB x.shape)) = false := by
    simp only [Bool.and_eq_false_iff, decide_eq_false_iff_not, Nat.not_lt, Nat.not_le]
    exact h
  simp only [Env.resolve, hx, must_halt outside]

theorem Env.resolve_blk_load_unmapped (hm : SMap.get? x.map (mapKey (baLayer ea.toNat) (baBlock ea.toNat)) = none) :
    e.resolve m .blk ea n false = .error (.trap tBlock ea) := by
  by_cases inside : baLayer ea.toNat < shapeLayers x.shape ∧ baOff ea.toNat + n ≤ shapeB x.shape
  · simp [Env.resolve, hx, inside.1, inside.2, hm]
  · exact Env.resolve_blk_outside hx (by omega)

theorem Env.resolve_blk_store_unwritable
    (hw : m.writable (m.core e.c).ctx (baHandle ea.toNat) (mapKey (baLayer ea.toNat) (baBlock ea.toNat)) = none) :
    e.resolve m .blk ea n true = .error (.trap tBlock ea) := by
  by_cases inside : baLayer ea.toNat < shapeLayers x.shape ∧ baOff ea.toNat + n ≤ shapeB x.shape
  · simp [Env.resolve, hx, inside.1, inside.2, hw]
  · exact Env.resolve_blk_outside hx (by omega)

variable (hl : baLayer ea.toNat < shapeLayers x.shape) (ho : baOff ea.toNat + n ≤ shapeB x.shape)
include hl ho

/-- Inside its block, a mapped block's key is checked. -/
theorem Env.resolve_blk_load {f : Nat} (hm : SMap.get? x.map (mapKey (baLayer ea.toNat) (baBlock ea.toNat)) = some f) :
    e.resolve m .blk ea n false = (do
      must (m.keyOk e.c .blk ea.toNat n false) (.trap tNokey ea)
      .ok (⟨true, framePa (shapePool x.shape) f + baOff ea.toNat, some ⟨shapePool x.shape, f, baOff ea.toNat, x.shape⟩⟩, m)) := by
  simp [Env.resolve, hx, hl, ho, hm]

/-- A block store is checked for its key in the machine in which its block has its frame. -/
theorem Env.resolve_blk_store
    (hw : m.writable (m.core e.c).ctx (baHandle ea.toNat) (mapKey (baLayer ea.toNat) (baBlock ea.toNat)) = some m') :
    e.resolve m .blk ea n true = (do
      must (m'.keyOk e.c .blk ea.toNat n true) (.trap tNokey ea)
      let f := ((m'.bseq (m.core e.c).ctx (baHandle ea.toNat)).bind fun s =>
        SMap.get? s.map (mapKey (baLayer ea.toNat) (baBlock ea.toNat))).getD 0
      .ok (⟨true, framePa (shapePool x.shape) f + baOff ea.toNat, some ⟨shapePool x.shape, f, baOff ea.toNat, x.shape⟩⟩, m')) := by
  simp [Env.resolve, hx, hl, ho, hw]

end

/-- The frame that a block store copies counts as read last (R289, R290). -/
theorem Env.unshare_clean {e : Env} {m : Mach} {a : Nat}
    (h : m.unsharePoison (e.ctx m) (baHandle a) (mapKey (baLayer a) (baBlock a)) = none) : e.unshare m a = .ok () := by
  rw [Env.unshare, h]

theorem Env.unshare_lost {e : Env} {m : Mach} {a pa : Nat}
    (h : m.unsharePoison (e.ctx m) (baHandle a) (mapKey (baLayer a) (baBlock a)) = some pa) :
    e.unshare m a = .error (.lost (m.homeErr true pa).1 (m.homeErr true pa).2.1 (m.homeErr true pa).2.2) := by
  rw [Env.unshare, h]

/-! ### Spaces and keys (R115, R116, R122) -/

theorem Trust.globalOk_iff (t : Trust) (a : Nat) : t.globalOk a = true ↔
    a < 2 ^ 32 ∧ a / 2 ^ 28 < 6 ∧ t.isLive (a / 2 ^ 28) = true ∧ a / 2 ^ 22 % 64 < t.count (a / 2 ^ 28) ∧
      (a / 2 ^ 28 < 2 ∨ a % 2 ^ 22 < 0x200000) := by
  simp only [Trust.globalOk, isPDie, Bool.and_eq_true, Bool.or_eq_true, decide_eq_true_eq, and_assoc]

section
variable {m : Mach} {c : Nat} {sp : Space} {a n : Nat} {store : Bool} {r : Region}

theorem Mach.keyOk_lost (hr : m.regionAt sp (m.core c).ctx a = some r) (hl : r.key.state = .lost) :
    m.keyOk c sp a n store = false := by
  simp [Mach.keyOk, hr, Option.filter, hl]

theorem Right.allows_iff {x : Right} :
    x.allows store = true ↔ x = .excl ∨ (x = .read ∧ store = false) ∨ (x = .write ∧ store = true) := by
  cases x <;> cases store <;> decide

/-- Outside rings the group's view decides. -/
theorem Mach.keyOk_iff (hr : m.regionAt sp (m.core c).ctx a = some r) (hl : r.key.state ≠ .lost) (hg : r.ring = none) :
    m.keyOk c sp a n store = true ↔
      ∃ h ∈ (m.core c).view, h.rid = r.rid ∧
        (h.right = .excl ∨ (h.right = .read ∧ store = false) ∨ (h.right = .write ∧ store = true)) := by
  simp only [Mach.keyOk, hr, Option.filter_some, hl, ne_eq, not_false_eq_true, decide_true, if_true, hg, List.any_eq_true,
    Bool.and_eq_true, decide_eq_true_eq, Right.allows_iff]

end

/-- Settles O23: each check in its turn, and what a key check asks. -/
theorem accessChecks : Obligations.AccessChecks := by
  refine ⟨?_, ?_, ?_, ?_, Trust.globalOk_iff, ?_⟩
  · intro e m ea n store a
    exact ⟨Env.resolve_glb_space, Env.resolve_glb_nokey, Env.resolve_glb_ok⟩
  · intro e m ea n store a ctx super
    refine ⟨Env.resolve_dev_space, Env.resolve_dev_xlate, fun pa wr sv ha ht => ⟨fun hp => ?_, fun hp => ⟨fun hk => ?_, fun hk => ?_⟩⟩⟩
    · rw [Env.resolve_dev_leaf ha ht]
      exact must_halt (Bool.eq_false_iff.2 fun allowed => pageAllows_iff.1 allowed hp)
    · rw [Env.resolve_dev_leaf ha ht]
      exact (must_bind (pageAllows_iff.2 hp)).trans (must_halt hk)
    · rw [Env.resolve_dev_leaf ha ht]
      exact (must_bind (pageAllows_iff.2 hp)).trans (must_bind hk)
  · intro e m ea n a h layer block off
    refine ⟨Env.resolve_blk_closed, fun x hx => ⟨?_, fun f hl ho hf => ⟨fun hk => ?_, fun hk => ?_⟩⟩⟩
    · rintro (hb | hb | hm)
      · exact Env.resolve_blk_outside hx (.inl hb)
      · exact Env.resolve_blk_outside hx (.inr hb)
      · exact Env.resolve_blk_load_unmapped hx hm
    · exact (Env.resolve_blk_load hx hl ho hf).trans (must_halt hk)
    · exact (Env.resolve_blk_load hx hl ho hf).trans (must_bind hk)
  · intro e m ea n a ctx h layer key off
    refine ⟨Env.resolve_blk_closed, fun x hx => ⟨?_, fun m' hl ho hw => ⟨fun hk => ?_, fun x' f hk hx' hf => ?_⟩⟩,
      Env.unshare_clean, fun pa => Env.unshare_lost⟩
    · rintro (hb | hb | hw)
      · exact Env.resolve_blk_outside hx (.inl hb)
      · exact Env.resolve_blk_outside hx (.inr hb)
      · exact Env.resolve_blk_store_unwritable hx hw
    · exact (Env.resolve_blk_store hx hl ho hw).trans (must_halt hk)
    · have frame : ((m'.bseq ctx h).bind fun s => SMap.get? s.map key).getD 0 = f := by simp [hx', hf]
      refine (Env.resolve_blk_store hx hl ho hw).trans ((must_bind hk).trans ?_)
      rw [← frame]
      rfl
  · intro m c sp a n store r hr
    exact ⟨Mach.keyOk_lost hr, fun hl hg => Mach.keyOk_iff hr hl hg⟩

end Sys2Proof.Machine
end

