-- ==== Sys2Proof/Proofs/PostedStores.lean ====
section
/-! The statement about posted writes: how a store enters the buffer, and how its write reaches home. -/

namespace Sys2Proof.Machine

/-! ### The start of a posted store (R120, R121, R128) -/

section
variable {e : Env} {m₀ m₁ m m₂ : Mach} {sp : Space} {pk : Bool} {q : BitVec 4} {a : Src} {imm : BitVec 8} {z : MSize} {x : Word}
  {bs : List Byte} {pl : Place}

/-- The entry that a posted store makes in the buffer of its core. -/
def Mach.postedEntry (m : Mach) (c : Nat) (sp : Space) (ea : Nat) (pl : Place) (bs : List Byte) : Posted :=
  ⟨m.ids, sp, ea, pl.at_, bs, pl.block, false, (m.core c).cycles.toNat, false⟩

/-- The machine in which a posted store has entered its core's buffer. -/
def Mach.posts (m : Mach) (c : Nat) (p : Posted) : Mach :=
  ({ m with ids := m.ids + 1 } : Mach).onCore c fun k => { k with posted := k.posted ++ [p] }

variable (ha : e.src m₀ a = .ok (x, m₁)) (hb : e.storeData m₁ pk q z = .ok (bs, m))
include ha hb

theorem postedStoreBody_misaligned (hal : alignOk (effAddr x imm z) (sizeBytes z) = false) :
    postedStoreBody sp pk q a imm z e m₀ = .error (.trap tAlign (effAddr x imm z)) := by
  simp only [postedStoreBody, Env.ea_ok ha, hb, chk_ok_bind, must_halt hal]

variable (hal : alignOk (effAddr x imm z) (sizeBytes z) = true)
include hal

theorem postedStoreBody_fails {h : Halt} (hr : e.resolve m sp (effAddr x imm z) (sizeBytes z) true = .error h) :
    postedStoreBody sp pk q a imm z e m₀ = .error h := by
  simp only [postedStoreBody, Env.ea_ok ha, hb, chk_ok_bind, must_bind hal, hr, chk_error_bind]

variable (hr : e.resolve m sp (effAddr x imm z) (sizeBytes z) true = .ok (pl, m₂))
include hr

theorem postedStoreBody_full (hfull : 16 ≤ (m₂.core e.c).posted.length) : postedStoreBody sp pk q a imm z e m₀ = .error .waitOut := by
  simp only [postedStoreBody, Env.ea_ok ha, hb, chk_ok_bind, must_bind hal, hr,
    must_halt (decide_eq_false (Nat.not_lt.2 hfull))]

variable (hroom : (m₂.core e.c).posted.length < 16)
include hroom

theorem postedStoreBody_lost {h : Halt} (hsp : sp = .blk) (hu : e.unshare m (effAddr x imm z).toNat = .error h) :
    postedStoreBody sp pk q a imm z e m₀ = .error h := by
  simp only [postedStoreBody, Env.ea_ok ha, hb, chk_ok_bind, must_bind hal, hr, must_bind (decide_eq_true hroom), if_pos hsp, hu,
    chk_error_bind]

theorem postedStoreBody_starts (hu : sp = .blk → e.unshare m (effAddr x imm z).toNat = .ok ()) {m₃ : Mach}
    (hm : m₃ = if sp = .glb then m₂.touchSlice (effAddr x imm z).toNat else m₂) :
    postedStoreBody sp pk q a imm z e m₀ =
      .ok (e.start (e.later (.post m₃.ids) (m₃.posts e.c (m₃.postedEntry e.c sp (effAddr x imm z).toNat pl bs))) (.store m₃.ids)
        [] 0 [] none).2 := by
  by_cases hsp : sp = .blk
  · simp only [postedStoreBody, Env.ea_ok ha, hb, chk_ok_bind, must_bind hal, hr, must_bind (decide_eq_true hroom), if_pos hsp,
      hu hsp, ← hm]
    rfl
  · simp only [postedStoreBody, Env.ea_ok ha, hb, chk_ok_bind, must_bind hal, hr, must_bind (decide_eq_true hroom), if_neg hsp,
      ← hm]
    rfl

end

/-! ### The acknowledgement (R128, R130, R138, R395) -/

section
variable {s : State} {t : Trust} {m : Mach} {c n : Nat} {p : Posted} {op : Op}

@[simp] theorem Mach.onCore_home (m : Mach) (c : Nat) (f : Core → Core) (dram : Bool) : (m.onCore c f).home dram = m.home dram := by
  cases dram <;> rfl

@[simp] theorem Mach.consume_core (m : Mach) (die b : Nat) (i : ErrInfo) (ctx : BitVec 6) (cdie tile seq c : Nat) :
    (m.consume die b i ctx cdie tile seq).core c = m.core c := rfl

/-- A live write that overlaps no earlier one of its space, its slice awake, may drain. -/
theorem Mach.mayDrain_ok (hp : (m.core c).posted.find? (fun x => decide (x.id = n)) = some p) (hlive : p.live = true)
    (hover : ∀ x ∈ (m.core c).posted.takeWhile fun x => decide (x.id ≠ n),
      x.space ≠ p.space ∨ overlaps x.ea x.data.length p.ea p.data.length = false)
    (hawake : p.space = .glb → m.retainedSlice p.pa = none) : m.mayDrain c n = some p := by
  have clear : ((m.core c).posted.takeWhile fun x => decide (x.id ≠ n)).any (fun x =>
      decide (x.space = p.space) && overlaps x.ea x.data.length p.ea p.data.length) = false := by
    refine List.any_eq_false.2 fun x hx => ?_
    obtain h | h := hover x hx <;> simp [h]
  have awake : m.asleepFor p = none := by
    rw [Mach.asleepFor]
    split
    next h => exact hawake h
    next => rfl
  simp only [Mach.mayDrain, hp, hlive, clear, awake]
  rfl

/-- The write of a posted entry changes its home memory alone, among memories and cores. -/
theorem Mach.drain_frame (m : Mach) (p : Posted) :
    (m.drain p).home (decide (p.space ≠ .glb)) = (m.home (decide (p.space ≠ .glb))).write p.pa p.data ∧
      (m.drain p).home (!decide (p.space ≠ .glb)) = m.home (!decide (p.space ≠ .glb)) ∧ (m.drain p).cores = m.cores := by
  have frame (m : Mach) : (∀ dram, (m.drain p).home dram = (m.writeHome (decide (p.space ≠ .glb)) p.pa p.data.length
      (Mem.ofBytes p.data)).home dram) ∧ (m.drain p).cores = m.cores := by
    simp only [Mach.drain]
    split <;> cases decide (p.space ≠ .glb) <;> exact ⟨fun dram => by cases dram <;> rfl, rfl⟩
  obtain ⟨home, cores⟩ := frame m
  refine ⟨(home _).trans ?_, (home _).trans ?_, cores⟩
  all_goals cases decide (p.space ≠ .glb) <;> rfl

/-- An operation without finishing actions changes its own core alone. -/
theorem Mach.finish_plain (m : Mach) (c : Nat) {op : Op} (hf : op.fin = []) : m.finish c op = m.onCore c fun k => k.finish op := by
  obtain ⟨id, seq, pu, pd, kind, dests, flags, fin, load, cycle⟩ := op
  subst hf
  rfl

/-- A core whose posted write n has reached home with its operation: both are gone. -/
theorem Core.acked (k : Core) (n : Nat) {op : Op} (hf : op.fin = []) :
    ((k.finAct (.bufAck n)).finish op).posted = k.posted.filter (fun x => decide (x.id ≠ n)) ∧
      ∀ o ∈ ((k.finAct (.bufAck n)).finish op).ops, o.id ≠ op.id := by
  refine ⟨?_, fun o ho => ?_⟩
  · have kept := congrArg Core.posted (Core.finish_still (k := k.finAct (.bufAck n)) op)
    rw [hf] at kept
    exact kept
  · rw [Core.finish_ops] at ho
    simpa using (List.mem_filter.1 ho).2

theorem postedWriteAck_writes (hd : m.mayDrain c n = some p)
    (ho : (m.core c).ops.find? (fun o => decide (o.kind = .store n)) = some op) (hp : m.drainPoison t c p = none) :
    postedWriteAck t c n m = ((m.drain p).onCore c fun k => k.finAct (.bufAck n)).finish c op := by
  simp only [postedWriteAck, hd, ho, hp]

theorem postedWriteAck_consumes {d b : Nat} {i : ErrInfo} (hd : m.mayDrain c n = some p)
    (ho : (m.core c).ops.find? (fun o => decide (o.kind = .store n)) = some op) (hp : m.drainPoison t c p = some (d, b, i)) :
    postedWriteAck t c n m = ((m.onCore c fun k => k.finAct (.bufAck n)).dropOp c op.id).consume d b i (m.core c).ctx (dieOf c)
      (t.logical (dieOf c) (physOf c)) (seqIndex op.seq) := by
  simp only [postedWriteAck, hd, ho, hp]

end

/-- Settles O25: the operands taken, the checks decide whether a store enters the buffer; the acknowledgement writes the entry at
its home, or consumes its poison. -/
theorem postedStores : Obligations.PostedStores := by
  refine ⟨?_, ?_, ?_⟩
  · intro s t pk q a imm z x bs m0 m1 m i sp e n ea hform hi ha hb
    have run : exec i s = attemptNext i (postedStoreBody sp pk q a imm z) s := by
      obtain ⟨rfl, rfl⟩ | ⟨rfl, rfl⟩ | ⟨rfl, rfl⟩ := hform <;> rfl
    rw [run]
    refine ⟨fun hmis => attemptNext_halt hi ?_, fun h hal hr => attemptNext_halt hi ?_,
      fun pl m2 h hal hr hroom hsp hu => attemptNext_halt hi ?_, fun pl m2 hal hr hroom hu => attemptNext_ok hi ?_,
      fun pl m2 hal hr hfull => attemptNext_halt hi ?_⟩
    · exact postedStoreBody_misaligned ha hb (alignOk_of_not hmis)
    · exact postedStoreBody_fails ha hb (alignOk_of hal) hr
    · exact postedStoreBody_lost ha hb (alignOk_of hal) hr hroom hsp hu
    · refine (postedStoreBody_starts ha hb (alignOk_of hal) hr hroom hu rfl).trans ?_
      cases sp <;> rfl
    · exact postedStoreBody_full ha hb (alignOk_of hal) hr hfull
  · intro s c n p op k dram hp hlive hbad ho hdests hfin hover hawake hpoison hw
    have clean : s.mach.drainPoison s.trust c p = none := by
      rw [Mach.drainPoison, hbad]
      exact congrArg (Option.map _) (poisonPart_none hpoison)
    have ack := postedWriteAck_writes (Mach.mayDrain_ok hp hlive hover hawake) ho clean
    rw [Mach.finish_plain _ _ hfin] at ack
    obtain ⟨here, there, cores⟩ := Mach.drain_frame s.mach p
    have core (d : Nat) : (s.mach.drain p).core d = s.mach.core d := congrArg (fun l => SMap.getD l d Core.reset) cores
    obtain ⟨posted, ops⟩ := Core.acked k n hfin
    refine ⟨_, State.next_on ack, fun b => ?_, ?_, fun d => ?_, ?_, ?_⟩
    · rw [Mach.onCore_home, Mach.onCore_home, here]
      exact Mem.get_write (Mem.wf_iff.1 hw).1 p.pa p.data b
    · rw [Mach.onCore_home, Mach.onCore_home, there]
    · by_cases hd : d = c
      · subst hd
        rw [Mach.onCore_core, Mach.onCore_core, Core.finish_local, Core.finAct_local, core]
      · rw [Mach.onCore_core_ne _ _ hd, Mach.onCore_core_ne _ _ hd, core]
    · rw [Mach.onCore_core, Mach.onCore_core, core]
      exact posted
    · rw [Mach.onCore_core, Mach.onCore_core, core]
      exact ops
  · intro s c n p op k hp hlive hbad ho hover hawake
    have poisoned : ∃ d b i, s.mach.drainPoison s.trust c p = some (d, b, i) := by
      rw [Mach.drainPoison, hbad]
      exact ⟨_, _, _, rfl⟩
    obtain ⟨d, b, i, hd⟩ := poisoned
    have ack := postedWriteAck_consumes (Mach.mayDrain_ok hp hlive hover hawake) ho hd
    have left : ((((s.mach.onCore c fun k => k.finAct (.bufAck n)).dropOp c op.id).consume d b i k.ctx (dieOf c)
        (s.trust.logical (dieOf c) (physOf c)) (seqIndex op.seq)).core c) =
          { k.finAct (.bufAck n) with ops := k.ops.filter fun x => decide (x.id ≠ op.id) } := by
      rw [Mach.consume_core, Mach.dropOp, Mach.onCore_core, Mach.onCore_core]
      rfl
    refine ⟨_, State.next_on ack, rfl, rfl, ?_, ?_, ?_⟩
    · exact congrArg Core.posted left
    · intro o ho
      rw [left] at ho
      simpa using (List.mem_filter.1 ho).2
    · intro q
      rw [left]
      cases q <;> exact ⟨rfl, rfl⟩

end Sys2Proof.Machine
end

