-- ==== Sys2Proof/Proofs/KeyChecks.lean ====
section
/-! SUPPORT for the statements on keys: the checks of a key instruction's address, and what the group holds there (R140, R147, R150). -/

namespace Sys2Proof.Machine

section
variable {e : Env} {m : Mach} {sp : Space} {w : Word} {a : Nat} {far : Bool} {r : Region} {h : Hold}

/-! ### Checks 2 to 4: the address -/

theorem Env.keyAddr_glb (hw : w.getLsbD 55 = false) :
    e.keyAddr m .glb w far = if e.trust.globalOk w.toNat then .ok ⟨none, w.toNat⟩ else .error (.trap tSpace w) := by
  have near : ¬ (far && wbit w 55) = true := by rw [wbit, hw, Bool.and_false]; exact Bool.false_ne_true
  simp only [Env.keyAddr, if_neg near]
  cases e.trust.globalOk w.toNat <;> rfl

theorem Env.keyAddr_dev_beyond (hw : 2 ^ 57 ≤ w.toNat) : e.keyAddr m .dev w far = .error (.trap tSpace w) :=
  must_halt (decide_eq_false (Nat.not_lt.2 hw))

theorem Env.keyAddr_dev_fault (hw : w.toNat < 2 ^ 57) (ht : translate e.trust m (e.ctx m) w.toNat = .fault) :
    e.keyAddr m .dev w far = .error (.trap tXlate w) := by
  simp only [Env.keyAddr, must_bind (decide_eq_true hw), ht]

theorem Env.keyAddr_dev_leaf {pa : Nat} {wr sv : Bool} (hw : w.toNat < 2 ^ 57)
    (ht : translate e.trust m (e.ctx m) w.toNat = .leaf pa wr sv) : e.keyAddr m .dev w far = .ok ⟨none, w.toNat⟩ := by
  simp only [Env.keyAddr, must_bind (decide_eq_true hw), ht]

theorem Env.keyAddr_blk : e.keyAddr m .blk w far =
    if (m.bseq (e.ctx m) (w.toNat / 2 ^ 44)).isSome then .ok ⟨none, w.toNat⟩ else .error (.trap tBlock w) := by
  have checked : e.keyAddr m .blk w far =
      (must (m.bseq (e.ctx m) (w.toNat / 2 ^ 44)).isSome (.trap tBlock w) >>= fun _ => .ok ⟨none, w.toNat⟩) := rfl
  rw [checked]
  cases (m.bseq (e.ctx m) (w.toNat / 2 ^ 44)).isSome <;> rfl

/-! ### Check 5: the region, and what the group holds of it -/

theorem Env.keyRegion_ok (hr : m.regionAt sp (e.ctx m) a = some r) : e.keyRegion m sp w a = .ok r := by
  rw [Env.keyRegion, hr]

theorem Env.keyRegion_none (hr : m.regionAt sp (e.ctx m) a = none) : e.keyRegion m sp w a = .error (.trap tNokey w) := by
  rw [Env.keyRegion, hr]

theorem Env.heldRegion_ok (hr : m.regionAt sp (e.ctx m) a = some r) (hlive : r.key.state ≠ .lost)
    (hh : (m.core e.c).holding r.rid = some h) : e.heldRegion m sp w a = .ok (r, h) := by
  simp only [Env.heldRegion, Env.keyRegion_ok hr, chk_ok_bind, must_bind (decide_eq_true hlive), hh]

/-- Of no region, of a LOST key, and of a region it does not hold, a group holds nothing. -/
theorem Env.heldRegion_none
    (hr : ∀ r, m.regionAt sp (e.ctx m) a = some r → r.key.state = .lost ∨ (m.core e.c).holding r.rid = none) :
    e.heldRegion m sp w a = .error (.trap tNokey w) := by
  cases hat : m.regionAt sp (e.ctx m) a with
  | none => simp only [Env.heldRegion, Env.keyRegion_none hat, chk_error_bind]
  | some r =>
    simp only [Env.heldRegion, Env.keyRegion_ok hat, chk_ok_bind]
    by_cases hlive : r.key.state = .lost
    · rw [must_halt (decide_eq_false (not_not.2 hlive))]
    · rw [must_bind (decide_eq_true hlive), (hr r hat).resolve_left hlive]

theorem Env.exclRegion_ok (hr : m.regionAt sp (e.ctx m) a = some r) (hlive : r.key.state ≠ .lost)
    (hh : (m.core e.c).holding r.rid = some ⟨r.rid, .excl⟩) : e.exclRegion m sp w a = .ok r := by
  simp only [Env.exclRegion, Env.heldRegion_ok hr hlive hh, chk_ok_bind]
  rfl

end

end Sys2Proof.Machine
end

