-- ==== Sys2Proof/Proofs/KeyWaits.lean ====
section
/-! The statement about KEYW and KEYQ, and the address checks of the key instructions. -/

namespace Sys2Proof.Machine

section
variable {e : Env} {m₀ m₁ m : Mach} {d : Dst} {sp : Space} {a b : Src} {w v : Word} {l : Landing} {r : Region}

/-! ### KEYW.arr and KEYW.free (R155) -/

section
variable (ha : e.src m₀ a = .ok (w, m₁)) (hl : e.dst m₁ d .pending = .ok (l, m))
include ha hl

theorem keywArrBody_askedLost (hq : e.askedLost m = true) : keywArrBody d sp a e m₀ = .ok (e.status m l stLost []) := by
  simp only [keywArrBody, chk_bind ha, chk_bind hl, if_pos hq]

theorem keywFreeBody_askedLost (hq : e.askedLost m = true) : keywFreeBody d sp a e m₀ = .ok (e.status m l stLost []) := by
  simp only [keywFreeBody, chk_bind ha, chk_bind hl, if_pos hq]

variable (hk : e.keyAddr m sp w false = .ok ⟨none, w.toNat⟩) (hq : e.askedLost m = false)
include hk hq

theorem keywArrBody_nowhere (hr : m.regionAt sp (e.ctx m) w.toNat = none) :
    keywArrBody d sp a e m₀ = .error (.trap tNokey w) := by
  simp only [keywArrBody, chk_bind ha, chk_bind hl, hq, Bool.false_eq_true, if_false, chk_bind hk, Env.keyRegion_none hr, chk_error_bind]

theorem keywFreeBody_nowhere (hr : m.regionAt sp (e.ctx m) w.toNat = none) :
    keywFreeBody d sp a e m₀ = .error (.trap tNokey w) := by
  simp only [keywFreeBody, chk_bind ha, chk_bind hl, hq, Bool.false_eq_true, if_false, chk_bind hk, Env.keyRegion_none hr, chk_error_bind]

variable (hr : m.regionAt sp (e.ctx m) w.toNat = some r)
include hr

/-- KEYW.arr at a region: a LOST key answers, and else what the group holds decides. -/
theorem keywArrBody_at : keywArrBody d sp a e m₀ =
    if r.key.state = .lost then .ok (e.status m l stLost [])
    else if ((m.core e.c).holding r.rid).isSome then .ok (e.status m l stDone []) else .error (.rack r.rid .arr) := by
  simp only [keywArrBody, chk_bind ha, chk_bind hl, hq, Bool.false_eq_true, if_false, chk_bind hk, Env.keyRegion_ok hr, chk_ok_bind]
  cases ((m.core e.c).holding r.rid).isSome <;> rfl

theorem keywFreeBody_foreign (hc : r.ctx ≠ e.ctx m) : keywFreeBody d sp a e m₀ = .error (.trap tNokey w) := by
  simp only [keywFreeBody, chk_bind ha, chk_bind hl, hq, Bool.false_eq_true, if_false, chk_bind hk, Env.keyRegion_ok hr, chk_ok_bind,
    must_halt (decide_eq_false hc)]

variable (hc : r.ctx = e.ctx m)
include hc

theorem keywFreeBody_lost (hlost : r.key.state = .lost) : keywFreeBody d sp a e m₀ = .ok (e.status m l stLost []) := by
  simp only [keywFreeBody, chk_bind ha, chk_bind hl, hq, Bool.false_eq_true, if_false, chk_bind hk, Env.keyRegion_ok hr, chk_ok_bind,
    must_bind (decide_eq_true hc), if_pos hlost]

theorem keywFreeBody_takes (hfree : r.key.state = .free) (hb : e.behind m r .free = false) : keywFreeBody d sp a e m₀ =
    .ok (e.status (m.setKey r.rid ⟨.excl, .group (e.me m), [], [], none, []⟩) l stDone (r.taken .excl)) := by
  have live : ¬ r.key.state = .lost := by rw [hfree]; decide
  have first : (decide (r.key.state = .free) && !e.behind m r .free) = true := by rw [hb, hfree]; rfl
  simp only [keywFreeBody, chk_bind ha, chk_bind hl, hq, Bool.false_eq_true, if_false, chk_bind hk, Env.keyRegion_ok hr, chk_ok_bind,
    must_bind (decide_eq_true hc), if_neg live, must_bind first]
  rfl

theorem keywFreeBody_waits (hlive : r.key.state ≠ .lost) (hw : r.key.state ≠ .free ∨ e.behind m r .free = true) :
    keywFreeBody d sp a e m₀ = .error (.rack r.rid .free) := by
  have later_ : (decide (r.key.state = .free) && !e.behind m r .free) = false := by
    cases hw with
    | inl hn => rw [decide_eq_false hn, Bool.false_and]
    | inr hb => rw [hb, Bool.not_true, Bool.and_false]
  simp only [keywFreeBody, chk_bind ha, chk_bind hl, hq, Bool.false_eq_true, if_false, chk_bind hk, Env.keyRegion_ok hr, chk_ok_bind,
    must_bind (decide_eq_true hc), if_neg hlive, must_halt later_]

end

/-! ### KEYW.tkt (R155) -/

section
variable (ha : e.src2 m₀ a b = .ok (w, v, m₁)) (hl : e.dst m₁ d .pending = .ok (l, m)) (hq : e.askedLost m = false)
  (hk : e.keyAddr m sp w true = .ok ⟨none, w.toNat⟩) (hr : m.regionAt sp (e.ctx m) w.toNat = some r)
include ha hl hq hk hr

theorem keywTktBody_lost (hlost : r.key.state = .lost) : keywTktBody d sp a b e m₀ = .ok (e.status m l stLost []) := by
  simp only [keywTktBody, chk_bind ha, chk_bind hl, hq, Bool.false_eq_true, if_false, chk_bind hk, Env.keyRegion_ok hr, chk_ok_bind,
    if_pos hlost]

variable (hlive : r.key.state ≠ .lost)
include hlive

theorem keywTktBody_badTicket (hv : 65536 ≤ v.toNat) : keywTktBody d sp a b e m₀ = .ok (e.status m l stBadarg []) := by
  have past : v.toNat / 2 ^ 16 ≠ 0 := by omega
  simp only [keywTktBody, chk_bind ha, chk_bind hl, hq, Bool.false_eq_true, if_false, chk_bind hk, Env.keyRegion_ok hr, chk_ok_bind,
    if_neg hlive, if_pos past]

variable (hv : v.toNat < 65536)
include hv

theorem keywTktBody_takes {right : Right} {k : Key} (hb : e.behind m r (.tkt (v.setWidth 16) (e.ctx m)) = false)
    (ht : r.take (v.setWidth 16) (e.ctx m) (e.me m) = some (right, k)) :
    keywTktBody d sp a b e m₀ = .ok (e.status (m.setKey r.rid k) l stDone (r.taken right)) := by
  have ticket : ¬ v.toNat / 2 ^ 16 ≠ 0 := by omega
  simp only [keywTktBody, chk_bind ha, chk_bind hl, hq, Bool.false_eq_true, if_false, chk_bind hk, Env.keyRegion_ok hr, chk_ok_bind,
    if_neg hlive, if_neg ticket, hb, ht]

theorem keywTktBody_waits
    (hw : e.behind m r (.tkt (v.setWidth 16) (e.ctx m)) = true ∨ r.take (v.setWidth 16) (e.ctx m) (e.me m) = none) :
    keywTktBody d sp a b e m₀ = .error (.rack r.rid (.tkt (v.setWidth 16) (e.ctx m))) := by
  have ticket : ¬ v.toNat / 2 ^ 16 ≠ 0 := by omega
  have nothing : (if e.behind m r (.tkt (v.setWidth 16) (e.ctx m)) = true then none
      else r.take (v.setWidth 16) (e.ctx m) (e.me m)) = none := by
    cases hw with
    | inl hb => exact if_pos hb
    | inr ht => rw [ht, ite_self]
  simp only [keywTktBody, chk_bind ha, chk_bind hl, hq, Bool.false_eq_true, if_false, chk_bind hk, Env.keyRegion_ok hr, chk_ok_bind,
    if_neg hlive, if_neg ticket, nothing]

end

theorem Region.take_parked {x : BitVec 16} {c : BitVec 6} {g : Gid} (h : r.key.holder = .parked x c none) :
    r.take x c g = some (.excl, ⟨.excl, .group g, r.key.lender, [], none, []⟩) :=
  if_pos (decide_eq_true h)

theorem Region.take_none {x : BitVec 16} {c : BitVec 6} {g : Gid} (h : r.key.holder ≠ .parked x c none)
    (hs : ∀ y ∈ r.key.shares, y.holder ≠ .parked x c none) : r.take x c g = none := by
  have shares : ¬ (r.key.shares.any fun y => parkedFor x c y.holder) = true := by simpa [parkedFor] using hs
  exact (if_neg fun hp => h (of_decide_eq_true hp)).trans (if_neg shares)

/-! ### KEYQ (R156) -/

section
variable (ha : e.src m₀ a = .ok (w, m₁)) (hl : e.dst m₁ d .pending = .ok (l, m)) (hk : e.keyAddr m sp w true = .ok ⟨none, w.toNat⟩)
include ha hl hk

theorem keyqBody_nowhere (hr : m.regionAt sp (e.ctx m) w.toNat = none) :
    keyqBody d sp a e m₀ = .ok (e.startValues m [l.put 0] 0 []) := by
  simp only [keyqBody, chk_bind ha, chk_bind hl, chk_bind hk, hr]

theorem keyqBody_at (hr : m.regionAt sp (e.ctx m) w.toNat = some r) :
    keyqBody d sp a e m₀ = .ok (e.startValues m [l.put (r.keyWord (e.ctx m))] 0 []) := by
  simp only [keyqBody, chk_bind ha, chk_bind hl, chk_bind hk, hr]

end

/-! ### The wait at the rack (R96, R155) -/

/-- A counted stall that WDLIMIT still allows only counts. -/
theorem countStall_allowed {t : Trust} {c kind : Nat} {q : SeqId}
    (hw : (m.seq c q).wdLimit = 0 ∨ (m.seq c q).wdCount + 1 ≤ (m.seq c q).wdLimit.toNat) :
    countStall t c q kind m = m.onSeq c q fun s => { s with wdCount := s.wdCount + 1, stall := kind, keyWait := none } := by
  unfold countStall watchdog
  rw [Mach.onSeq_seq]
  refine if_neg fun h => ?_
  obtain ⟨hset, hpast⟩ := h
  exact Nat.not_lt.2 (hw.resolve_left hset) hpast

theorem Env.halt_rack {rid : Nat} {ask : KeyAsk} (hp : (m.core e.c).preempting = false) :
    e.halt (.rack rid ask) m = waitAtRack e.trust e.c e.q rid ask m := by
  have runs : m.takeWaiting e.c e.q = none := by
    rw [Mach.takeWaiting, hp]
    exact if_neg Bool.false_ne_true
  rw [Env.halt, runs, Option.getD_none]

/-- The sequencer that waits at the rack has counted a stall of kind 4 at its offset, with its request, which keeps its order. -/
theorem waitAtRack_seq {t : Trust} {c rid : Nat} {q : SeqId} {ask : KeyAsk}
    (hw : (m.seq c q).wdLimit = 0 ∨ (m.seq c q).wdCount + 1 ≤ (m.seq c q).wdLimit.toNat) :
    (waitAtRack t c q rid ask m).seq c q = { m.seq c q with
      wdCount := (m.seq c q).wdCount + 1
      stall := 4
      keyWait := some ((((if (m.seq c q).waitsForKey then (m.seq c q).keyWait else none).filter fun w =>
        decide (w.rid = rid ∧ w.ask = ask))).getD ⟨rid, ask, m.ids⟩) } := by
  have counted (n : Nat) : countStall t c q 4 { m with ids := n } = ({ m with ids := n } : Mach).onSeq c q fun s =>
      { s with wdCount := s.wdCount + 1, stall := 4, keyWait := none } := countStall_allowed hw
  simp only [waitAtRack, counted, Mach.onSeq_seq]
  rfl

/-- The request that a KEYW makes or keeps is for its own region and form. -/
theorem request_eq {o : Option KeyWait} {rid ids : Nat} {ask : KeyAsk} :
    ∃ order, (o.filter fun w => decide (w.rid = rid ∧ w.ask = ask)).getD ⟨rid, ask, ids⟩ = ⟨rid, ask, order⟩ ∧
      ∀ w, o = some w → w.rid = rid → w.ask = ask → order = w.order := by
  cases o with
  | none => exact ⟨ids, rfl, fun w h => nomatch h⟩
  | some x =>
    by_cases hx : x.rid = rid ∧ x.ask = ask
    · refine ⟨x.order, ?_, fun w h _ _ => by cases h; rfl⟩
      have kept : (some x).filter (fun w => decide (w.rid = rid ∧ w.ask = ask)) = some x := if_pos (decide_eq_true hx)
      obtain ⟨rfl, rfl⟩ := hx
      rw [kept, Option.getD_some]
    · have fresh : (some x).filter (fun w => decide (w.rid = rid ∧ w.ask = ask)) = none := if_neg fun h => hx (of_decide_eq_true h)
      refine ⟨ids, by rw [fresh, Option.getD_none], fun w h hr ha => ?_⟩
      cases h
      exact absurd ⟨hr, ha⟩ hx

theorem Env.halt_rack_waits {rid : Nat} {ask : KeyAsk} (hp : (m.core e.c).preempting = false)
    (hw : (m.seq e.c e.q).wdLimit = 0 ∨ (m.seq e.c e.q).wdCount + 1 ≤ (m.seq e.c e.q).wdLimit.toNat) :
    let x' := (e.halt (.rack rid ask) m).seq e.c e.q
    x'.wdCount = (m.seq e.c e.q).wdCount + 1 ∧ x'.stall = 4 ∧ x'.pc = (m.seq e.c e.q).pc ∧
    ∃ order, x'.keyWait = some ⟨rid, ask, order⟩ ∧
      ((m.seq e.c e.q).waitsForKey = true → ∀ w, (m.seq e.c e.q).keyWait = some w → w.rid = rid → w.ask = ask → order = w.order) := by
  intro x'
  have after := waitAtRack_seq (t := e.trust) (rid := rid) (ask := ask) hw
  rw [← Env.halt_rack hp] at after
  obtain ⟨order, request, kept⟩ :=
    request_eq (o := if (m.seq e.c e.q).waitsForKey then (m.seq e.c e.q).keyWait else none) (rid := rid) (ask := ask) (ids := m.ids)
  refine ⟨congrArg Seq.wdCount after, congrArg Seq.stall after, (congrArg Seq.pc after).trans rfl, order,
    (congrArg Seq.keyWait after).trans (congrArg some request), fun hwait w hkey => kept w ?_⟩
  rw [if_pos hwait, hkey]

end

/-- Settles O30: what the request lost, the region and its key decide, in that order; a wait counts its stall. -/
theorem keyWaits : Obligations.KeyWaits := by
  refine ⟨?_, ?_, fun e m rid ask hp hw => Env.halt_rack_waits hp hw, ?_, ?_⟩
  · intro s t d sp a w l m r free i e ht hk
    obtain ⟨m₀, m₁, hi, ha, hl⟩ := ht
    cases free with
    | false =>
      refine ⟨fun hq => attemptNext_ok hi (keywArrBody_askedLost ha hl hq),
        fun hq hr => attemptNext_halt hi (keywArrBody_nowhere ha hl hk hq hr), fun hq hr => ?_⟩
      have body := keywArrBody_at ha hl hk hq hr
      refine ⟨fun hlost _ => attemptNext_ok hi (body.trans (if_pos hlost)), fun hlive _ => ⟨fun h hh => ?_, fun hh => ?_⟩,
        fun h _ => (nomatch h), fun h _ => (nomatch h)⟩
      · exact attemptNext_ok hi (body.trans ((if_neg hlive).trans (if_pos (Option.isSome_of_eq_some hh))))
      · exact attemptNext_halt hi (body.trans ((if_neg hlive).trans (if_neg (by simp [hh]))))
    | true =>
      refine ⟨fun hq => attemptNext_ok hi (keywFreeBody_askedLost ha hl hq),
        fun hq hr => attemptNext_halt hi (keywFreeBody_nowhere ha hl hk hq hr), fun hq hr => ?_⟩
      exact ⟨fun hlost hc => attemptNext_ok hi (keywFreeBody_lost ha hl hk hq hr (hc rfl) hlost), fun _ h => (nomatch h),
        fun _ hc => ⟨fun hfree hb => attemptNext_ok hi (keywFreeBody_takes ha hl hk hq hr hc hfree hb),
          fun hlive hw => attemptNext_halt hi (keywFreeBody_waits ha hl hk hq hr hc hlive hw)⟩,
        fun _ hc => attemptNext_halt hi (keywFreeBody_foreign ha hl hk hq hr hc)⟩
  · intro s t d sp a b w v l m r i e ask ht hk hq hr
    obtain ⟨m₀, m₁, hi, ha, hl⟩ := ht
    refine ⟨fun hlost => attemptNext_ok hi (keywTktBody_lost ha hl hq hk hr hlost),
      fun hlive hv => attemptNext_ok hi (keywTktBody_badTicket ha hl hq hk hr hlive hv),
      fun hv hlive hp hb => attemptNext_ok hi (keywTktBody_takes ha hl hq hk hr hlive hv hb (Region.take_parked hp)),
      fun hv hlive hwait => attemptNext_halt hi (keywTktBody_waits ha hl hq hk hr hlive hv ?_)⟩
    exact hwait.imp_right fun hn => Region.take_none hn.1 hn.2
  · intro s t d sp a w l m i e ht hk
    obtain ⟨m₀, m₁, hi, ha, hl⟩ := ht
    exact ⟨fun hr => attemptNext_ok hi (keyqBody_nowhere ha hl hk hr), fun r hr => attemptNext_ok hi (keyqBody_at ha hl hk hr)⟩
  · intro e m w far x
    exact ⟨Env.keyAddr_glb, Env.keyAddr_dev_beyond, Env.keyAddr_dev_fault, fun pa wr sv => Env.keyAddr_dev_leaf, Env.keyAddr_blk⟩

end Sys2Proof.Machine
end

