-- ==== Sys2Proof/Proofs/KeySplits.lean ====
section
/-! The statement about SPLIT and JOIN. -/

namespace Sys2Proof.Machine

section
variable {e : Env} {m₀ m₁ m : Mach} {d : Dst} {sp : Space} {a b : Src} {w v : Word} {l : Landing} {r x : Region}

/-! ### SPLIT.addr, SPLIT.rd and SPLIT.wr (R153) -/

/-- The machine in which a region is divided at an address, the upper part new and the group's, its home given. -/
def Mach.divided (m : Mach) (c : Nat) (r : Region) (at_ home : Nat) : Mach :=
  let low := m.onRegion r.rid fun x => { x with size := at_ - x.base }
  let up : Region := { r with rid := m.ids, base := at_, size := r.base + r.size - at_, home := home }
  ({ low with ids := m.ids + 1, regions := low.regions ++ [up] } : Mach).onCore c fun k =>
    { k with view := k.view ++ [⟨m.ids, .excl⟩] }

section
variable (ha : e.src2 m₀ a b = .ok (w, v, m₁)) (hl : e.dst m₁ d .pending = .ok (l, m))
  (hk : e.keyAddr m sp w false = .ok ⟨none, w.toNat⟩) (hx : e.exclRegion m sp w w.toNat = .ok r)
include ha hl hk hx

theorem splitAddrBody_notAllowed (hsp : sp = .blk) :
    splitAddrBody d sp a b e m₀ = .ok (e.refused m l stNotallowed ⟨r.rid, .excl⟩) := by
  simp only [splitAddrBody, chk_bind ha, chk_bind hl, chk_bind hk, chk_bind hx, if_pos hsp]

theorem splitAddrBody_misaligned (hsp : sp ≠ .blk) (hal : v.toNat % (if sp = .glb then 4096 else 65536) ≠ 0) :
    splitAddrBody d sp a b e m₀ = .error (.trap tAlign v) := by
  simp only [splitAddrBody, chk_bind ha, chk_bind hl, chk_bind hk, chk_bind hx, if_neg hsp, must_halt (decide_eq_false hal)]

theorem splitAddrBody_divides (hsp : sp ≠ .blk) (hal : v.toNat % (if sp = .glb then 4096 else 65536) = 0)
    (hrack : m.rackHas e.c r.rid .excl = true) (hlo : r.base < v.toNat) (hhi : v.toNat < r.base + r.size) {home : Nat}
    (hhome : e.upperHome m sp r v.toNat = .ok home) (hroom : m.rackFree home ≠ 0) :
    splitAddrBody d sp a b e m₀ =
      .ok (e.status (e.later (.dropHold ⟨r.rid, .excl⟩) (e.later (.dropHold ⟨m.ids, .excl⟩) (m.divided e.c r v.toNat home))) l
        stDone [.gain ⟨r.rid, .excl⟩, .gain ⟨m.ids, .excl⟩]) := by
  have inside_ : ¬ ¬ (r.base < v.toNat ∧ v.toNat < r.base + r.size) := not_not.2 ⟨hlo, hhi⟩
  have room : ¬ m.rackFree home < 1 := by omega
  simp only [splitAddrBody, chk_bind ha, chk_bind hl, chk_bind hk, chk_bind hx, if_neg hsp, must_bind (decide_eq_true hal), hrack,
    Bool.not_true, Bool.false_eq_true, if_false, if_neg inside_, chk_bind hhome, if_neg room]
  rfl

variable (hrack : m.rackHas e.c r.rid .excl = true) {st : KState}
include hrack

theorem splitBody_notAllowed (hsp : sp = .blk) (hst : st = .scatter) :
    splitBody st d sp a b e m₀ = .ok (e.refused m l stNotallowed ⟨r.rid, .excl⟩) := by
  simp only [splitBody, chk_bind ha, chk_bind hl, chk_bind hk, chk_bind hx, hrack, Bool.not_true, Bool.false_eq_true, if_false,
    if_pos (And.intro hsp hst)]

variable (hsp : ¬ (sp = .blk ∧ st = .scatter))
include hsp

theorem splitBody_badArg (hn : v.toNat = 0 ∨ 63 < v.toNat) :
    splitBody st d sp a b e m₀ = .ok (e.refused m l stBadarg ⟨r.rid, .excl⟩) := by
  have bad : ¬ (1 ≤ v.toNat ∧ v.toNat ≤ 63) := by omega
  simp only [splitBody, chk_bind ha, chk_bind hl, chk_bind hk, chk_bind hx, hrack, Bool.not_true, Bool.false_eq_true, if_false,
    if_neg hsp, if_pos bad]

variable (hn : 1 ≤ v.toNat ∧ v.toNat ≤ 63)
include hn

theorem splitBody_rackFull (hroom : m.rackFree r.home < v.toNat) :
    splitBody st d sp a b e m₀ = .ok (e.refused m l stRackfull ⟨r.rid, .excl⟩) := by
  simp only [splitBody, chk_bind ha, chk_bind hl, chk_bind hk, chk_bind hx, hrack, Bool.not_true, Bool.false_eq_true, if_false,
    if_neg hsp, if_neg (not_not.2 hn), if_pos hroom]

theorem splitBody_shares (hroom : v.toNat ≤ m.rackFree r.home) :
    splitBody st d sp a b e m₀ =
      .ok (e.status (e.later (.dropHold ⟨r.rid, .excl⟩) (m.setKey r.rid ⟨st, .group (e.me m), r.key.lender,
          List.replicate v.toNat ⟨.group (e.me m), []⟩, some (e.me m), []⟩)) l stDone
        (List.replicate v.toNat (.gain ⟨r.rid, st.right⟩))) := by
  simp only [splitBody, chk_bind ha, chk_bind hl, chk_bind hk, chk_bind hx, hrack, Bool.not_true, Bool.false_eq_true, if_false,
    if_neg hsp, if_neg (not_not.2 hn), if_neg (Nat.not_lt.2 hroom)]

end

/-! ### SPLIT.cmn (R153) -/

section
variable (ha : e.src m₀ a = .ok (w, m₁)) (hl : e.dst m₁ d .pending = .ok (l, m))
  (hk : e.keyAddr m sp w false = .ok ⟨none, w.toNat⟩) (hx : e.exclRegion m sp w w.toNat = .ok r)
  (hrack : m.rackHas e.c r.rid .excl = true)
include ha hl hk hx hrack

theorem splitCmnBody_notAllowed (hsp : sp = .blk) :
    splitCmnBody d sp a e m₀ = .ok (e.refused m l stNotallowed ⟨r.rid, .excl⟩) := by
  simp only [splitCmnBody, chk_bind ha, chk_bind hl, chk_bind hk, chk_bind hx, hrack, Bool.not_true, Bool.false_eq_true, if_false,
    if_pos hsp]

theorem splitCmnBody_starts (hsp : sp ≠ .blk) :
    splitCmnBody d sp a e m₀ =
      .ok (e.start (e.later (.dropHold ⟨r.rid, .excl⟩) m) (.splitCmn r.rid) [l] 0 [] none).2 := by
  simp only [splitCmnBody, chk_bind ha, chk_bind hl, chk_bind hk, chk_bind hx, hrack, Bool.not_true, Bool.false_eq_true, if_false,
    if_neg hsp]

end

theorem serveSplitCmn_drained {c : Nat} {op : Op} (hr : m.region r.rid = some r) (hlive : r.key.state ≠ .lost)
    (hdone : m.drained c op.id r = true) :
    serveSplitCmn c op r.rid m =
      (m.setKey r.rid ⟨.common, .none, [], [], none, []⟩).finish c { op with dests := op.dests.map fun x => x.put 0 } := by
  simp only [serveSplitCmn, hr, if_neg hlive, hdone, if_true]
  rfl

/-! ### JOIN.addr (R154) -/

/-- The machine in which region x, next to r and the group's, is part of r. -/
def Mach.joined (m : Mach) (c : Nat) (r x : Region) : Mach :=
  (({ m with regions := m.regions.filter fun y => decide (y.rid ≠ x.rid) } : Mach).onRegion r.rid fun y =>
    { y with base := min r.base x.base, size := y.size + x.size }).onCore c fun k => { k with view := k.view.erase ⟨x.rid, .excl⟩ }

theorem joinAddrBody_joins (ha : e.src2 m₀ a b = .ok (w, v, m₁)) (hl : e.dst m₁ d .pending = .ok (l, m))
    (hk : e.keyAddr m sp w false = .ok ⟨none, w.toNat⟩) (hr : e.exclRegion m sp w w.toNat = .ok r)
    (hx : e.exclRegion m sp v v.toNat = .ok x) (hrack : m.rackHas e.c r.rid .excl = true)
    (hrack' : m.rackHas e.c x.rid .excl = true) (hsp : sp ≠ .blk) (hadj : r.base + r.size = x.base ∨ x.base + x.size = r.base)
    (hhome : r.home = x.home) (hctx : r.ctx = x.ctx) (hslice : sp = .glb → r.base / 2 ^ 22 = x.base / 2 ^ 22) :
    joinAddrBody d sp a b e m₀ =
      .ok (e.status (e.later (.dropHold ⟨r.rid, .excl⟩) (m.joined e.c r x)) l stDone
        [.gain ⟨r.rid, .excl⟩, .lines ⟨decide (sp = .dev), min r.base x.base, r.size + x.size⟩]) := by
  have fits : ¬ (¬ (r.base + r.size = x.base ∨ x.base + x.size = r.base) ∨ r.home ≠ x.home ∨ r.ctx ≠ x.ctx ∨
      (sp = .glb ∧ sliceOf r.base ≠ sliceOf x.base)) := by
    rintro (h | h | h | ⟨hg, hs⟩)
    · exact h hadj
    · exact h hhome
    · exact h hctx
    · exact hs (hslice hg)
  simp only [joinAddrBody, chk_bind ha, chk_bind hl, chk_bind hk, chk_bind hr, chk_bind hx, hrack, hrack', Bool.and_self,
    Bool.not_true, Bool.false_eq_true, if_false, if_neg hsp, if_neg fits]
  rfl

/-! ### JOIN.shr, JOIN.cmn and JOIN.ring (R154, R283) -/

section
variable (ha : e.src m₀ a = .ok (w, m₁)) (hl : e.dst m₁ d .pending = .ok (l, m))
  (hk : e.keyAddr m sp w false = .ok ⟨none, w.toNat⟩) (hr : m.regionAt sp (e.ctx m) w.toNat = some r)
include ha hl hk hr

theorem joinShrBody_joins (hst : r.key.state = .shared ∨ r.key.state = .scatter) (hsplit : r.key.splitter = some (e.me m))
    (hguests : r.key.guests = 0) (hpass : (m.core e.c).passing r.rid = false) :
    joinShrBody d sp a e m₀ =
      .ok (e.status (e.later (.dropRegion r.rid) (m.setKey r.rid ⟨.excl, .group (e.me m), r.key.lender, [], none, []⟩)) l stDone
        (r.taken .excl)) := by
  have back : (decide (r.key.guests = 0) && !(m.core e.c).passing r.rid) = true := by rw [hguests, hpass]; rfl
  simp only [joinShrBody, chk_bind ha, chk_bind hl, chk_bind hk, Env.keyRegion_ok hr, chk_ok_bind,
    must_bind (decide_eq_true (And.intro hst hsplit)), must_bind back]
  rfl

theorem joinShrBody_waits (hst : r.key.state = .shared ∨ r.key.state = .scatter) (hsplit : r.key.splitter = some (e.me m))
    (hguests : r.key.guests ≠ 0) : joinShrBody d sp a e m₀ = .error (.stall 4) := by
  have out : (decide (r.key.guests = 0) && !(m.core e.c).passing r.rid) = false := by
    rw [decide_eq_false hguests, Bool.false_and]
  simp only [joinShrBody, chk_bind ha, chk_bind hl, chk_bind hk, Env.keyRegion_ok hr, chk_ok_bind,
    must_bind (decide_eq_true (And.intro hst hsplit)), must_halt out]

variable (hsp : sp ≠ .blk) (hc : r.ctx = e.ctx m)

omit ha hl hk in
include hsp hc in
/-- The key of a region of the context, in the state that the JOIN is for, is the group's to take. -/
theorem Env.joinOwn_ok {st : KState} (hst : r.key.state = st) (hlive : st ≠ .lost) :
    e.joinOwn m sp w w.toNat st = .ok (r, none) := by
  have live : ¬ r.key.state = .lost := hst ▸ hlive
  simp only [Env.joinOwn, Env.keyRegion_ok hr, chk_ok_bind, must_bind (decide_eq_true hc), if_neg hsp, if_neg live,
    if_neg (not_not.2 hst)]

include hsp hc

theorem joinCmnBody_joins (hst : r.key.state = .common) (hacc : m.accPending r = false) :
    joinCmnBody d sp a e m₀ =
      .ok (e.status (m.setKey r.rid ⟨.excl, .group (e.me m), [], [], none, []⟩) l stDone (r.taken .excl)) := by
  have settled : (!m.accPending r) = true := by rw [hacc]; rfl
  simp only [joinCmnBody, chk_bind ha, chk_bind hl, chk_bind hk, chk_bind (Env.joinOwn_ok hr hsp hc hst (by decide)),
    must_bind settled]
  rfl

variable {g : Ring} (hst : r.key.state = .ring) (hring : r.ring = some g) (hrelay : g.relay = none)
include hst hring hrelay

theorem joinRingBody_joins (hidle : g.h = g.c ∧ g.state = []) :
    joinRingBody d sp a e m₀ =
      .ok (e.status (m.onRegion r.rid fun x => { x with key := ⟨.excl, .group (e.me m), [], [], none, []⟩, ring := none }) l stDone
        (r.taken .excl)) := by
  have idle : g.idle = true := by simp [Ring.idle, hidle]
  simp only [joinRingBody, chk_bind ha, chk_bind hl, chk_bind hk, chk_bind (Env.joinOwn_ok hr hsp hc hst (by decide)), hring,
    must_bind (decide_eq_true hrelay), idle, if_true]
  rfl

theorem joinRingBody_notEmpty (hbusy : ¬ (g.h = g.c ∧ g.state = [])) :
    joinRingBody d sp a e m₀ = .ok (e.status m l stNotempty []) := by
  have busy : ¬ g.idle = true := by simpa [Ring.idle] using hbusy
  simp only [joinRingBody, chk_bind ha, chk_bind hl, chk_bind hk, chk_bind (Env.joinOwn_ok hr hsp hc hst (by decide)), hring,
    must_bind (decide_eq_true hrelay), if_neg busy]

end
end

/-- Settles O29: a key held in EXCL passes the checks, and the form, its operand and the rack decide. -/
theorem keySplits : Obligations.KeySplits := by
  refine ⟨?_, ?_, ?_, ?_, ?_, ?_⟩
  · intro s t d sp a b w v l m r i e h ht hk hr hlive hh hrack
    obtain ⟨m₀, m₁, hi, ha, hl⟩ := ht
    have hx := Env.exclRegion_ok (w := w) hr hlive hh
    exact ⟨fun hsp => attemptNext_ok hi (splitAddrBody_notAllowed ha hl hk hx hsp),
      fun hsp hal => attemptNext_halt hi (splitAddrBody_misaligned ha hl hk hx hsp hal),
      fun home hsp hal hlo hhi hhome hroom =>
        attemptNext_ok hi (splitAddrBody_divides ha hl hk hx hsp hal hrack hlo hhi hhome hroom)⟩
  · intro s t d sp a b w v l m r wr i e h n ht hk hr hlive hh hrack
    obtain ⟨m₀, m₁, hi, ha, hl⟩ := ht
    have hx := Env.exclRegion_ok (w := w) hr hlive hh
    cases wr with
    | false =>
      have share : ¬ (sp = .blk ∧ KState.shared = .scatter) := fun h => nomatch h.2
      exact ⟨fun _ h => (nomatch h), fun _ hn => attemptNext_ok hi (splitBody_badArg ha hl hk hx hrack share hn),
        fun _ hlo hhi hroom => attemptNext_ok hi (splitBody_rackFull ha hl hk hx hrack share ⟨hlo, hhi⟩ hroom),
        fun _ hlo hhi hroom => attemptNext_ok hi (splitBody_shares ha hl hk hx hrack share ⟨hlo, hhi⟩ hroom)⟩
    | true =>
      have scatter (hsp : sp ≠ .blk ∨ true = false) : ¬ (sp = .blk ∧ KState.scatter = .scatter) :=
        fun h => hsp.elim (fun hn => hn h.1) Bool.noConfusion
      exact ⟨fun hsp _ => attemptNext_ok hi (splitBody_notAllowed ha hl hk hx hrack hsp rfl),
        fun hsp hn => attemptNext_ok hi (splitBody_badArg ha hl hk hx hrack (scatter hsp) hn),
        fun hsp hlo hhi hroom => attemptNext_ok hi (splitBody_rackFull ha hl hk hx hrack (scatter hsp) ⟨hlo, hhi⟩ hroom),
        fun hsp hlo hhi hroom => attemptNext_ok hi (splitBody_shares ha hl hk hx hrack (scatter hsp) ⟨hlo, hhi⟩ hroom)⟩
  · intro s t d sp a w l m r i e h ht hk hr hlive hh hrack
    obtain ⟨m₀, m₁, hi, ha, hl⟩ := ht
    have hx := Env.exclRegion_ok (w := w) hr hlive hh
    exact ⟨fun hsp => attemptNext_ok hi (splitCmnBody_notAllowed ha hl hk hx hrack hsp),
      fun hsp => attemptNext_ok hi (splitCmnBody_starts ha hl hk hx hrack hsp)⟩
  · intro s c op r m done hlater ho hkind hr hlive hdone
    have served : serve s.trust c op m = serveSplitCmn c op r.rid m := by rw [serve, hkind]
    exact (exec_serves hlater ho).trans (State.next_on (served.trans (serveSplitCmn_drained hr hlive hdone)))
  · intro s t d sp a b w v l m r x i e h one joined ht hk hr hlive hh hx hliveX hhx hrack hrackX hsp hadj hhome hctx hslice
    obtain ⟨m₀, m₁, hi, ha, hl⟩ := ht
    exact attemptNext_ok hi (joinAddrBody_joins ha hl hk (Env.exclRegion_ok hr hlive hh) (Env.exclRegion_ok hx hliveX hhx) hrack
      hrackX hsp hadj hhome hctx hslice)
  · intro s t d sp a w l m r i e hform he ht hk hr
    subst he
    obtain ⟨m₀, m₁, hi, ha, hl⟩ := ht
    refine ⟨?_, ?_, ?_⟩
    · rintro rfl hst hsplit
      exact ⟨fun hg hp => attemptNext_ok hi (joinShrBody_joins ha hl hk hr hst hsplit hg hp),
        fun hg => attemptNext_halt hi (joinShrBody_waits ha hl hk hr hst hsplit hg)⟩
    · rintro rfl hsp hc hst hacc
      exact attemptNext_ok hi (joinCmnBody_joins ha hl hk hr hsp hc hst hacc)
    · rintro g rfl hsp hc hst hring hrelay
      exact ⟨fun hidle => attemptNext_ok hi (joinRingBody_joins ha hl hk hr hsp hc hst hring hrelay hidle),
        fun hbusy => attemptNext_ok hi (joinRingBody_notEmpty ha hl hk hr hsp hc hst hring hrelay hbusy)⟩

end Sys2Proof.Machine
end

