-- ==== Sys2Proof/Proofs/KeyPasses.lean ====
section
/-! The statement about LEND and RETN, and the arrival of the key. -/

namespace Sys2Proof.Machine

section
variable {e : Env} {m₀ m₁ m : Mach} {d : Dst} {sp : Space} {a b : Src} {w v : Word} {l : Landing} {r : Region} {h : Hold}

/-! ### The agent word (R151) -/

/-- A word below 2^lo has no bits from lo up. -/
theorem wbits_high {x : Word} {hi lo : Nat} (hx : x.toNat < 2 ^ lo) : wbits x hi lo = 0 := by
  rw [wbits, Nat.div_eq_of_lt hx, Nat.zero_mod]

theorem wbit_high {x : Word} {n : Nat} (hx : x.toNat < 2 ^ n) : wbit x n = false := Nat.testBit_lt_two_pow hx

theorem extractLsb'_high {x : Word} {lo n : Nat} (hx : x.toNat < 2 ^ lo) : x.extractLsb' lo n = 0 := by
  apply BitVec.eq_of_toNat_eq
  rw [BitVec.extractLsb'_toNat, Nat.shiftRight_eq_div_pow, Nat.div_eq_of_lt hx]
  rfl

section
variable {t : Trust} {g : Gid} {ctx : BitVec 6} {super : Bool}

/-- A group number names a group of the launch. -/
theorem lendTo_group (hv : v.toNat < 2 ^ 16) :
    lendTo t m g ctx super false r h v = .pass (.group ⟨g.launch, v.toNat⟩) false := by
  have number : wbits v 15 0 = v.toNat := by rw [wbits, Nat.pow_zero, Nat.div_one, Nat.mod_eq_of_lt hv]
  have high : wbits v 63 33 = 0 := wbits_high (by omega)
  have near : wbit v 32 = false := wbit_high (by omega)
  have pkg : v.extractLsb' 22 10 = 0 := extractLsb'_high (by omega)
  have ctx_ : v.extractLsb' 16 6 = 0 := extractLsb'_high hv
  simp [lendTo, number, high, near, pkg, ctx_]

/-- A ticket for the region's context parks the key. -/
theorem lendTo_park (hv : v.toNat < 2 ^ 22) (hc : v.toNat / 2 ^ 16 = r.ctx.toNat) :
    lendTo t m g ctx super true r h v = .pass (.parked (v.setWidth 16) r.ctx none) false := by
  have high : wbits v 63 33 = 0 := wbits_high (by omega)
  have near : wbit v 32 = false := wbit_high (by omega)
  have pkg : v.extractLsb' 22 10 = 0 := extractLsb'_high hv
  have ctx_ : v.extractLsb' 16 6 = r.ctx := by
    apply BitVec.eq_of_toNat_eq
    rw [BitVec.extractLsb'_toNat, Nat.shiftRight_eq_div_pow, hc, Nat.mod_eq_of_lt r.ctx.isLt]
  simp [lendTo, high, near, pkg, ctx_, BitVec.setWidth_eq_extractLsb']

end

/-! ### The start of a pass (R145, R152) -/

/-- The status of an instruction that lost a race for its key is one of the codes other than DONE. -/
theorem Env.raced_code : ∃ code ∈ [1, 2, 3, 4, 5, 6, 8], e.raced m l = e.status { m with free := m.free + 1 } l code [] :=
  ⟨_, List.getElem_mem _, congrArg (fun n => e.status { m with free := m.free + 1 } l n [])
    (List.getD_eq_getElem _ _ (Nat.mod_lt _ (by decide)))⟩

section
variable {park : Bool} (ha : e.src2 m₀ a b = .ok (w, v, m₁)) (hl : e.dst m₁ d .pending = .ok (l, m))
  (hk : e.keyAddr m sp w true = .ok ⟨none, w.toNat⟩)
include ha hl hk

theorem lendBody_unheld (hh : e.heldRegion m sp w w.toNat = .error (.trap tNokey w)) :
    lendBody park d sp a b e m₀ = .error (.trap tNokey w) := by
  simp only [lendBody, chk_bind ha, chk_bind hl, chk_bind hk, chk_halt hh]

variable (hh : e.heldRegion m sp w w.toNat = .ok (r, h))
include hh

theorem lendBody_raced (hrack : m.rackHas e.c r.rid h.right = false) : lendBody park d sp a b e m₀ = .ok (e.raced m l) := by
  simp only [lendBody, chk_bind ha, chk_bind hl, chk_bind hk, chk_bind hh, hrack, Bool.not_false, if_true]

theorem lendBody_starts (hrack : m.rackHas e.c r.rid h.right = true) {dest : Holder} {zero : Bool}
    (hto : lendTo e.trust m (e.me m) (e.ctx m) (m.seq e.c e.q).status.super park r h v = .pass dest zero) :
    lendBody park d sp a b e m₀ =
      .ok (e.start (e.later (.dropHold h) (m.transit r h)) (.lend r.rid h.right dest zero) [l] 0 [] none).2 := by
  simp only [lendBody, chk_bind ha, chk_bind hl, chk_bind hk, chk_bind hh, hrack, Bool.not_true, Bool.false_eq_true, if_false, hto]

end

theorem retnBody_starts (ha : e.src m₀ a = .ok (w, m₁)) (hl : e.dst m₁ d .pending = .ok (l, m))
    (hk : e.keyAddr m sp w true = .ok ⟨none, w.toNat⟩) (hh : e.heldRegion m sp w w.toNat = .ok (r, h))
    (hrack : m.rackHas e.c r.rid h.right = true) (haway : m.returnsAway r h (e.me m) (e.ctx m) = false) :
    retnBody d sp a e m₀ =
      .ok (e.start (e.later (.dropHold h) (if r.key.lender = [] then m else m.transit r h)) (.retn r.rid h.right) [l] 0 [] none).2 := by
  have lent : (r.key.lender.isEmpty = true) = (r.key.lender = []) := propext List.isEmpty_iff
  simp only [retnBody, chk_bind ha, chk_bind hl, chk_bind hk, chk_bind hh, hrack, Bool.not_true, Bool.false_eq_true, if_false, haway,
    Bool.false_and, lent]

end

/-! ### The regions (R141) -/

section
variable {m : Mach} {rid x : Nat} {f : Region → Region}

/-- A change of a region that keeps its number changes that region and no other. -/
theorem Mach.onRegion_region (hf : ∀ r, (f r).rid = r.rid) :
    (m.onRegion rid f).region x = (m.region x).map fun r => if r.rid = rid then f r else r := by
  have keeps : (fun r : Region => decide (r.rid = x)) ∘ (fun r => if r.rid = rid then f r else r) = fun r => decide (r.rid = x) := by
    funext r
    by_cases h : r.rid = rid <;> simp [h, hf]
  rw [Mach.region, Mach.onRegion, List.find?_map, keeps]
  rfl

theorem Mach.region_rid {r : Region} (h : m.region x = some r) : r.rid = x :=
  of_decide_eq_true (List.find?_some (p := fun r : Region => decide (r.rid = x)) h)

theorem Mach.onRegion_region_same (hf : ∀ r, (f r).rid = r.rid) {r : Region} (h : m.region rid = some r) :
    (m.onRegion rid f).region rid = some (f r) := by
  rw [Mach.onRegion_region hf, h, Option.map_some, if_pos (Mach.region_rid h)]

theorem Mach.onRegion_region_ne (hf : ∀ r, (f r).rid = r.rid) (h : x ≠ rid) : (m.onRegion rid f).region x = m.region x := by
  rw [Mach.onRegion_region hf]
  cases hx : m.region x with
  | none => rfl
  | some r => rw [Option.map_some, if_neg fun hr => h ((Mach.region_rid hx).symm.trans hr)]

@[simp] theorem Mach.arriveAt_region (r : Region) (right : Right) (g : Gid) : (m.arriveAt r right g).region x = m.region x := by
  unfold Mach.arriveAt
  split <;> rfl

end

/-! ### The arrival (R139, R145, R152) -/

section
variable {m : Mach} {t : Trust} {c o : Nat} {op : Op} {r : Region} {g x : Gid} {ctx : BitVec 6}

/-- A key in EXCL passed on to a holder, with the lender remembered. -/
def Key.lent (k : Key) (dest : Holder) (g : Gid) : Key :=
  { k with state := (match dest with | .group _ => .excl | _ => .transit), holder := dest, lender := g :: k.lender }

/-- A key in EXCL reaches its holder: a group, or nobody yet. -/
def Mach.reaches (m : Mach) (r : Region) (dest : Holder) : Mach :=
  match dest with
  | .group d => m.arriveAt r .excl d
  | _ => m

@[simp] theorem Mach.reaches_region {dest : Holder} {n : Nat} : (m.reaches r dest).region n = m.region n := by
  unfold Mach.reaches
  split
  · exact Mach.arriveAt_region r .excl _
  · rfl

theorem Mach.rackLend_passes {dest : Holder} (hr : m.region r.rid = some r) (hp : r.key.passable .excl g = true)
    (hd : ∀ d, dest = .group d → m.groupExists d = true) :
    m.rackLend r.rid .excl dest false false g =
      (stDone, (m.onRegion r.rid fun x => { x with key := x.key.lent dest g }).reaches r dest) := by
  cases dest with
  | group d =>
    simp only [Mach.rackLend, hr, hp, hd d rfl, Bool.not_true, Bool.false_eq_true, if_false, if_true]
    rfl
  | _ =>
    simp only [Mach.rackLend, hr, hp, Bool.not_true, Bool.not_false, Bool.false_eq_true, if_false, if_true]
    rfl

theorem Mach.zeroWaits_none {rid : Nat} {zero : Region → Bool} (hr : m.region rid = some r)
    (hz : zero r = true → r.space = .glb → m.retainedSlice r.base = none) : m.zeroWaits rid zero = none := by
  simp only [Mach.zeroWaits, hr]
  refine if_neg fun h => ?_
  obtain ⟨hzero, hret⟩ := Bool.and_eq_true_iff.1 h
  obtain ⟨hzero, hglb⟩ := Bool.and_eq_true_iff.1 hzero
  rw [hz hzero (of_decide_eq_true hglb)] at hret
  exact Bool.false_ne_true hret

section
variable (hopen : (m.core c).open? o = some op) (hr : m.region r.rid = some r) (hdone : m.drained c o r = true)
include hopen hr hdone

theorem keyArrival_lends {dest : Holder} {gr : Group} (hkind : op.kind = .lend r.rid .excl dest false)
    (hg : (m.core c).group = some gr) (hp : r.key.passable .excl gr.gid = true)
    (hd : ∀ d, dest = .group d → m.groupExists d = true) (hpkg : dest.pkg? = none) :
    keyArrival t c o m =
      ((m.onRegion r.rid fun x => { x with key := x.key.lent dest gr.gid }).reaches r dest).finish c
        { op with dests := op.dests.map (·.put 0) } := by
  have awake : m.zeroWaits r.rid (fun _ => false) = none := Mach.zeroWaits_none hr fun h => nomatch h
  simp only [keyArrival, hopen, hkind, awake, hr, hdone, if_true, hpkg, Option.filter_none, Option.isSome_none, hg, Option.map_some,
    Option.getD_some, Mach.rackLend_passes hr hp hd]
  rfl

theorem keyArrival_returns {g : Gid} (hkind : op.kind = .retn r.rid .excl)
    (hg : ((m.core c).group.map Group.gid).getD ⟨0, 0⟩ = g) (hp : r.key.passable .excl g = true)
    (haway : m.returnsAway r ⟨r.rid, .excl⟩ g (m.core c).ctx = false)
    (hfrees : m.freesAway r ⟨r.rid, .excl⟩ (m.core c).ctx = true → r.space = .glb → m.retainedSlice r.base = none) :
    keyArrival t c o m =
      (m.returnKey r.rid (m.core c).ctx).2.finish c
        { op with dests := op.dests.map (·.put (stWord (m.returnKey r.rid (m.core c).ctx).1)) } := by
  have awake : m.zeroWaits r.rid (fun y => m.returnsAway y ⟨r.rid, .excl⟩ g (m.core c).ctx ||
      m.freesAway y ⟨r.rid, .excl⟩ (m.core c).ctx) = none :=
    Mach.zeroWaits_none hr (by rw [haway, Bool.false_or]; exact hfrees)
  have back : m.rackRetn r.rid .excl g (m.core c).ctx = m.returnKey r.rid (m.core c).ctx := by
    simp only [Mach.rackRetn, hr, Option.map_some, hp, ne_eq, not_true_eq_false, if_false, if_true]
  simp only [keyArrival, hopen, hkind, hg, awake, hr, hdone, if_true, back]

end

/-! ### Where a returned key goes (R139, R145) -/

theorem Mach.returnsAway_unlent (hl : r.key.lender = []) : m.returnsAway r ⟨r.rid, .excl⟩ g ctx = false := by
  simp [Mach.returnsAway, hl]

theorem Mach.returnsAway_near {rest : List Gid} (hl : r.key.lender = x :: rest) (hx : (m.groupCtx x).getD ctx = ctx) :
    m.returnsAway r ⟨r.rid, .excl⟩ g ctx = false := by
  simp [Mach.returnsAway, hl, hx]

theorem Mach.freesAway_lent {rest : List Gid} (hl : r.key.lender = x :: rest) (hx : m.groupLives x = true) :
    m.freesAway r ⟨r.rid, .excl⟩ ctx = false := by
  simp [Mach.freesAway, hl, hx]

theorem Mach.freesAway_own (hc : ctx = r.ctx) : m.freesAway r ⟨r.rid, .excl⟩ ctx = false := by
  simp [Mach.freesAway, hc]

theorem Mach.returnKey_unlent (hr : m.region r.rid = some r) (hl : r.key.lender = []) :
    m.returnKey r.rid ctx = (stFreed, (if ctx = r.ctx then m else m.zeroRegion r).setKey r.rid .free) := by
  by_cases hc : ctx = r.ctx <;> simp [Mach.returnKey, hr, hl, Mach.passOver, hc]

theorem Mach.returnKey_lent {rest : List Gid} (hr : m.region r.rid = some r) (hl : r.key.lender = x :: rest)
    (hx : m.groupLives x = true) (hc : (m.groupCtx x).getD ctx = ctx) :
    m.returnKey r.rid ctx = (stDone, (m.setKey r.rid ⟨.excl, .group x, rest, [], none, []⟩).arriveAt r .excl x) := by
  have lives : (some x).filter (fun d => m.groupLives d) = some x := if_pos hx
  simp only [Mach.returnKey, hr, hl, List.head?_cons, lives, hc, if_true]
  rfl

end

/-- Settles O28: a pass starts for a holding that the rack has too; its arrival gives the key to the holder named, or, as it
returns, to the lender or to nobody. -/
theorem keyPasses : Obligations.KeyPasses := by
  refine ⟨?_, ?_, ?_, ?_, ?_, ?_⟩
  · intro s t d sp a b w v l m r h park i e dest ht hk hr hlive hh hrack hgroup hpark
    obtain ⟨m₀, m₁, hi, ha, hl⟩ := ht
    have held := Env.heldRegion_ok (w := w) hr hlive hh
    cases park with
    | false => exact attemptNext_ok hi (lendBody_starts ha hl hk held hrack (lendTo_group (hgroup rfl)))
    | true => exact attemptNext_ok hi (lendBody_starts ha hl hk held hrack (lendTo_park (hpark rfl).1 (hpark rfl).2))
  · intro s t d sp a b w v l m park i e ht hk hr
    obtain ⟨m₀, m₁, hi, ha, hl⟩ := ht
    cases park <;> exact attemptNext_halt hi (lendBody_unheld ha hl hk (Env.heldRegion_none hr))
  · intro s t d sp a b w v l m r h park i e ht hk hr hlive hh hrack
    obtain ⟨m₀, m₁, hi, ha, hl⟩ := ht
    obtain ⟨code, hcode, raced⟩ := Env.raced_code (e := e) (m := m) (l := l)
    have body (park : Bool) := lendBody_raced (park := park) ha hl hk (Env.heldRegion_ok hr hlive hh) hrack
    refine ⟨code, hcode, ?_⟩
    cases park <;> exact attemptNext_ok hi ((body _).trans (congrArg Except.ok raced))
  · intro s t d sp a w l m r h i e ht hk hr hlive hh hrack haway
    obtain ⟨m₀, m₁, hi, ha, hl⟩ := ht
    exact attemptNext_ok hi (retnBody_starts ha hl hk (Env.heldRegion_ok hr hlive hh) hrack haway)
  · intro s c o op r dest g m hlater ho hkind hfin hr hp hdone hg hd hpkg
    have arrives := keyArrival_lends (t := s.trust) (Core.open?_of_settled hlater ho) hr hdone hkind hg hp hd hpkg
    rw [Mach.finish_plain (op := { op with dests := op.dests.map (·.put 0) }) _ _ hfin] at arrives
    refine ⟨_, State.next_on arrives, ?_, fun rid hrid => ?_, fun x hx => ?_⟩
    · have given := Mach.onRegion_region_same (f := fun x => { x with key := x.key.lent dest g.gid }) (fun _ => rfl) hr
      exact congrArg (Option.map Region.key) (Mach.reaches_region.trans given)
    · exact Mach.reaches_region.trans (Mach.onRegion_region_ne (fun _ => rfl) hrid)
    · rw [Mach.onCore_core, Core.finish_ops] at hx
      exact of_decide_eq_true (List.mem_filter.1 hx).2
  · intro s c o op r m hlater ho hkind hr hp hdone
    have opened := Core.open?_of_settled hlater ho
    refine ⟨fun hl hc => ?_, fun hl hc hawake => ?_, fun x rest hl hx hc => ?_⟩
    · refine State.next_on ((keyArrival_returns opened hr hdone hkind rfl hp (Mach.returnsAway_unlent hl)
        fun h => absurd h (by rw [Mach.freesAway_own hc]; exact Bool.false_ne_true)).trans ?_)
      rw [Mach.returnKey_unlent hr hl, if_pos hc]
      rfl
    · refine State.next_on ((keyArrival_returns opened hr hdone hkind rfl hp (Mach.returnsAway_unlent hl) fun _ => hawake).trans ?_)
      rw [Mach.returnKey_unlent hr hl, if_neg hc]
      rfl
    · refine State.next_on ((keyArrival_returns opened hr hdone hkind rfl hp (Mach.returnsAway_near hl hc)
        fun h => absurd h (by rw [Mach.freesAway_lent hl hx]; exact Bool.false_ne_true)).trans ?_)
      rw [Mach.returnKey_lent hr hl hx hc]
      rfl

end Sys2Proof.Machine
end

