-- ==== Sys2Proof/Proofs/ArrayEvents.lean ====
section
/-! The statement about the events of an array, which fails where an event names a cluster that a die does not have. -/

namespace Sys2Proof.Machine

/-- A closed clause without rows whose pass waits. -/
def emptyClause : Clause := ⟨⟨.f8a, .f8a, .f8a, false, false, 0⟩, 0, 0, none, none, none, none, 0, []⟩

/-- The MXDR.keep of that clause. -/
def waitingPass : Op := ⟨1, .cmp, false, false, .mxdr emptyClause false none, [], 0, [], none, 0⟩

/-- Core 36, the first of die 1, holds the lease of its array, which has number 9, and a pass waits. -/
def passOfDieOne : State :=
  { State.reset with mach := { State.reset.mach with
      cores := [(36, { Core.reset with ops := [waitingPass] })], arrays := [(9, { Array_.reset with lease := .held 36 })] } }

/-- The bank records of the cycle in the next state of an outcome. -/
def nextErrors : Host.Outcome State Fault Refusal → Option (List Nat)
  | .next s => some (SMap.keys s.mach.cycleErrs)
  | _ => none

/-- Refutes O33: nothing bounds the cluster that an event names. Cluster 9 of die 0 is array 9, the first of die 1: its spare row's
error goes into the bank of die 1, where the statement has that of the die named. -/
theorem not_arrayEvents : ¬ Obligations.ArrayEvents := by
  intro h
  obtain ⟨_, _, _, _, spare, _⟩ := h
  have same := (spare passOfDieOne 0 9 36 0 waitingPass emptyClause none (by decide) (by decide) rfl rfl rfl rfl rfl
    (by decide)).1
  have measured : nextErrors (exec (.arrayPass 0 9 (.transient 0)) passOfDieOne) = some [12] := by decide +kernel
  have stated : nextErrors (exec (.arrayPass 0 9 .agrees) (passOfDieOne.on
      (passOfDieOne.mach.bankError 0 4 false false (spareErr (passOfDieOne.mach.core 36).ctx
        (passOfDieOne.mach.array (9 * 0 + 9)).chkrow 0)))) = some [4] := by decide +kernel
  exact absurd (measured.symm.trans ((congrArg nextErrors same).trans stated)) (by decide)

end Sys2Proof.Machine
end

