-- ==== Sys2Proof/Proofs/ErrorBanks.lean ====
section
/-! SUPPORT for the statement on errors: what reaches an error bank (R391 to R393), and what an uncorrectable error poisons (R395). -/

namespace Sys2Proof.Machine

/-! ### A bank (R392, R393) -/

section
variable {k : Bank} {m : Mach} {die b : Nat} {uc cons : Bool} {i : ErrInfo}

/-- A bank that holds an uncorrectable error only counts a further one. -/
theorem Bank.error_overrun (hv : k.valid = true) (hu : k.uc = true) :
    k.error true cons i = { k with ovr := true, lost := satInc k.lost } := by
  simp [Bank.error, hv, hu]

/-- A bank that holds none takes an uncorrectable error's record. -/
theorem Bank.error_uncorrectable (h : k.valid = false ∨ k.uc = false) :
    k.error true cons i =
      { k with valid := true, uc := true, ovr := false, cons := cons, seq := k.seq + 1, info := { i with bits := 0 } } := by
  have free : ¬ (k.valid && k.uc) = true := by
    cases h with
    | inl hv => simp [hv]
    | inr hu => simp [hu]
  simp only [Bank.error, if_true, if_neg free]

theorem Bank.error_counts (hv : k.valid = true) : k.error false cons i = { k with ccount := satInc k.ccount } := by
  simp [Bank.error, hv]

theorem Bank.error_corrected (hv : k.valid = false) :
    k.error false cons i =
      { k with valid := true, uc := false, ovr := false, cons := false, seq := k.seq + 1, info := i, ccount := satInc k.ccount } := by
  simp [Bank.error, hv]

/-- The first error of a cycle at a bank. -/
theorem Mach.bankError_first (h : SMap.get? m.cycleErrs (8 * die + b) = none) :
    m.bankError die b uc cons i = { m with
      banks := SMap.set m.banks (8 * die + b) ((m.bank die b).error uc cons i)
      cycleErrs := SMap.set m.cycleErrs (8 * die + b) (m.bank die b, [⟨uc, cons, i⟩]) } := by
  simp only [Mach.bankError, h, Option.getD_none]
  rfl

theorem Mach.bankError_bank_first (h : SMap.get? m.cycleErrs (8 * die + b) = none) :
    (m.bankError die b uc cons i).bank die b = (m.bank die b).error uc cons i := by
  rw [Mach.bankError_first h]
  exact SMap.getD_set_same _ _ _ _

/-- A further error of a cycle: the bank is what it was before the cycle, with the cycle's errors in their order. -/
theorem Mach.bankError_bank_again {k0 : Bank} {l : List BankErr} (h : SMap.get? m.cycleErrs (8 * die + b) = some (k0, l)) :
    (m.bankError die b uc cons i).bank die b = k0.errors (BankErr.insert ⟨uc, cons, i⟩ l) := by
  simp only [Mach.bankError, h, Option.getD_some]
  exact SMap.getD_set_same _ _ _ _

end

section
variable {x y : BankErr}

theorem BankErr.insert_before (h : x.before y = true) : x.insert [y] = [x, y] := if_pos h
theorem BankErr.insert_after (h : x.before y = false) : x.insert [y] = [y, x] := if_neg (Bool.eq_false_iff.1 h)

/-- Of two uncorrectable errors, that of the lower tile comes first. -/
theorem BankErr.before_of_tile (hx : x.uc = true) (hy : y.uc = true) (ht : x.info.tile.toNat < y.info.tile.toNat) :
    x.before y = true ∧ y.before x = false := by
  simp [BankErr.before, hx, hy, ht, Nat.le_of_lt ht]

/-- An uncorrectable error comes before a corrected one. -/
theorem BankErr.before_of_uc (hx : x.uc = true) (hy : y.uc = false) : x.before y = true ∧ y.before x = false := by
  simp [BankErr.before, hx, hy]

end

/-! ### Poison (R138, R395) -/

theorem mem_poisonAdd {l : List Nat} {w x : Nat} : x ∈ poisonAdd l w ↔ x ∈ l ∨ x = w := by
  unfold poisonAdd
  split
  next h =>
    obtain ⟨y, hy, heq⟩ := List.any_eq_true.1 h
    have := of_decide_eq_true heq
    subst this
    exact ⟨Or.inl, fun h => h.elim id fun h => h ▸ hy⟩
  next => simp

theorem mem_foldl_poisonAdd {ws l : List Nat} {x : Nat} : x ∈ ws.foldl poisonAdd l ↔ x ∈ l ∨ x ∈ ws := by
  induction ws generalizing l with
  | nil => simp
  | cons w ws ih => rw [List.foldl_cons, ih, mem_poisonAdd, List.mem_cons, or_assoc]

/-- The word of an address is among those of its code word. -/
theorem Mach.mem_codeWord (m : Mach) (a : Nat) : a / 8 ∈ m.codeWord a := by
  unfold Mach.codeWord
  split
  · refine List.mem_map.2 ⟨a / 8 % 4, List.mem_range.2 (Nat.mod_lt _ (by decide)), ?_⟩
    omega
  · exact List.mem_singleton_self _

section
variable (t : Trust) (m : Mach) (die b : Nat) (i : ErrInfo)

/-- Poison reaches no bank, no notice and no region. -/
theorem Mach.poisonAt_frame : (m.poisonAt t die b i).banks = m.banks ∧ (m.poisonAt t die b i).cycleErrs = m.cycleErrs ∧
    (m.poisonAt t die b i).notices = m.notices ∧ (m.poisonAt t die b i).regions = m.regions := by
  unfold Mach.poisonAt
  split
  case h_1 => exact ⟨rfl, rfl, rfl, rfl⟩
  case h_2 => split <;> exact ⟨rfl, rfl, rfl, rfl⟩
  case h_3 => exact ⟨rfl, rfl, rfl, rfl⟩
  case h_4 => split <;> exact ⟨rfl, rfl, rfl, rfl⟩
  case h_5 => exact ⟨rfl, rfl, rfl, rfl⟩

theorem Mach.poisonAt_global (hb : b = 0) : i.addr.toNat / 8 ∈ (m.poisonAt t die b i).globalPoison := by
  subst hb
  exact mem_foldl_poisonAdd.2 (Or.inr (m.mem_codeWord _))

theorem Mach.poisonAt_dram (hb : b = 2) : i.addr.toNat / 8 ∈ (m.poisonAt t die b i).dramPoison := by
  subst hb
  exact mem_poisonAdd.2 (Or.inr rfl)

end

end Sys2Proof.Machine
end

