-- ==== Sys2Proof/Proofs/ErrorEvents.lean ====
section
/-! SUPPORT for the statement on errors: an error event, a failing core, an audit, and a host read that is aborted. -/

namespace Sys2Proof.Machine

/-! ### Uncorrectable errors (R147, R395, R396) -/

section
variable {t : Trust} {m : Mach} {die b : Nat} {i : ErrInfo} {byRead : Bool}

/-- Every region of a number is LOST. -/
def Mach.AllLost (m : Mach) (n : Nat) : Prop := ∀ r ∈ m.regions, r.rid = n → r.key.state = .lost

theorem Mach.setKey_gone_lost {rid : Nat} : (m.setKey rid .gone).AllLost rid := by
  intro r hr hn
  obtain ⟨x, _, rfl⟩ := List.mem_map.1 hr
  by_cases hx : x.rid = rid
  · simp only [if_pos hx]
    split
    next hlost => exact hlost
    next => rfl
  · simp only [if_neg hx] at hn
    exact absurd hn hx

/-- A LOST key stays LOST. -/
theorem Mach.AllLost.setKey {n rid : Nat} {k : Key} (h : m.AllLost n) : (m.setKey rid k).AllLost n := by
  intro r hr hn
  obtain ⟨x, hx, rfl⟩ := List.mem_map.1 hr
  by_cases hrid : x.rid = rid
  · simp only [if_pos hrid] at hn ⊢
    by_cases hlost : x.key.state = .lost
    · rw [if_pos hlost]
      exact hlost
    · rw [if_neg hlost] at hn
      exact absurd (h x hx hn) hlost
  · simp only [if_neg hrid] at hn ⊢
    exact h x hx hn

theorem Mach.rackHit_none (hb : b ≠ 3) : m.rackHit die b i = none := if_neg fun h => hb h.1

variable (hlive : t.isLive die = true) (hb : b < 8)
include hlive hb

theorem uncorrectableError_rack {r : Region} (hr : m.rackHit die b i = some r) :
    uncorrectableError t die b ⟨i, byRead⟩ m =
      (m.setKey r.rid .gone).consume die b { i with ctx := some r.ctx } r.ctx die 0x3F 0 := by
  have known : ¬ (!(t.isLive die && decide (b < 8))) = true := by simp [hlive, hb]
  simp only [uncorrectableError, if_neg known, hr]

theorem uncorrectableError_context {ctx : BitVec 6} (hr : m.rackHit die b i = none) (hb36 : b = 3 ∨ b = 6)
    (hc : i.ctx = some ctx) : uncorrectableError t die b ⟨i, byRead⟩ m = m.consume die b i ctx die 0x3F 0 := by
  have known : ¬ (!(t.isLive die && decide (b < 8))) = true := by simp [hlive, hb]
  have own : i.ctx.filter (fun _ => decide (b = 3 ∨ b = 6)) = some ctx := by rw [hc]; exact if_pos (decide_eq_true hb36)
  simp only [uncorrectableError, if_neg known, hr, own]

theorem uncorrectableError_plain (hr : m.rackHit die b i = none) (hc : (b = 3 ∨ b = 6) → i.ctx = none) :
    uncorrectableError t die b ⟨i, byRead⟩ m =
      if byRead && decide (b ≤ 2 ∨ b = 4) then m.poisonAt t die b i else (m.poisonAt t die b i).bankError die b true false i := by
  have known : ¬ (!(t.isLive die && decide (b < 8))) = true := by simp [hlive, hb]
  have own : i.ctx.filter (fun _ => decide (b = 3 ∨ b = 6)) = none := by
    cases hi : i.ctx with
    | none => rfl
    | some ctx => exact if_neg fun h => by rw [hc (of_decide_eq_true h)] at hi; cases hi
  simp only [uncorrectableError, if_neg known, hr, own]

end

/-- What the record of an uncorrectable error is, in a bank that held one or none. -/
def Bank.Records (k k' : Bank) (i : ErrInfo) (own : Option (BitVec 6)) : Prop :=
  (k.valid = true → k.uc = true → k'.info = k.info ∧ k'.ovr = true ∧ k'.seq = k.seq ∧ k'.cons = k.cons) ∧
  (k.valid = false ∨ k.uc = false → k'.valid = true ∧ k'.uc = true ∧ k'.ovr = false ∧ k'.seq = k.seq + 1 ∧
    k'.info = { i with bits := 0, ctx := own.or i.ctx } ∧ k'.ccount = k.ccount ∧ (k'.cons = true ↔ own ≠ none))

/-- An uncorrectable error's record, consumed where a context owns it. -/
theorem Bank.error_records {k : Bank} {i : ErrInfo} {own : Option (BitVec 6)} :
    k.Records (k.error true own.isSome { i with ctx := own.or i.ctx }) i own := by
  refine ⟨fun hv hu => ?_, fun h => ?_⟩
  · rw [Bank.error_overrun hv hu]
    exact ⟨rfl, rfl, rfl, rfl⟩
  · rw [Bank.error_uncorrectable h]
    exact ⟨rfl, rfl, rfl, rfl, rfl, rfl, Option.isSome_iff_ne_none⟩

/-! ### COREFAIL (R147, R397) -/

section
variable {t : Trust} {m : Mach} {c : Nat}

theorem coreFail_empty (hlive : t.isLive (dieOf c) = true) (hmask : (t.mask (dieOf c)).getLsbD (physOf c) = true)
    (hg : (m.core c).group = none) : coreFail t c m = m.setCore c .reset := by
  have there : ¬ (!(t.isLive (dieOf c) && (t.mask (dieOf c)).getLsbD (physOf c))) = true := by simp [hlive, hmask]
  simp only [coreFail, if_neg there, hg]

/-- The keys of the regions of a list given up: each is LOST. -/
theorem foldl_gone_lost {l : List Region} {n : Nat} (h : (∃ x ∈ l, x.rid = n) ∨ m.AllLost n) :
    (l.foldl (fun m x => m.setKey x.rid .gone) m).AllLost n := by
  induction l generalizing m with
  | nil => exact h.resolve_left fun ⟨x, hx, _⟩ => nomatch hx
  | cons y l ih =>
    refine ih ?_
    obtain ⟨x, hx, rfl⟩ | h := h
    · obtain rfl | hx := List.mem_cons.1 hx
      · exact Or.inr Mach.setKey_gone_lost
      · exact Or.inl ⟨x, hx, rfl⟩
    · exact Or.inr h.setKey

theorem foldl_gone_frame (l : List Region) :
    (l.foldl (fun m x => m.setKey x.rid .gone) m).notices = m.notices ∧
      (l.foldl (fun m x => m.setKey x.rid .gone) m).core c = m.core c :=
  List.foldlRecOn (motive := fun m' : Mach => m'.notices = m.notices ∧ m'.core c = m.core c) _ _ ⟨rfl, rfl⟩ fun _ h _ _ => h

theorem foldl_notify {α : Type} (l : List α) (f : α → Notice) :
    l.foldl (fun m x => m.notify (f x)) m = { m with notices := m.notices ++ l.map f } := by
  induction l generalizing m with
  | nil => simp
  | cons x l ih => rw [List.foldl_cons, ih, List.map_cons, Mach.notify, List.append_assoc, List.singleton_append]

/-- The notice that a context loses its state with a failing core. -/
def failNotice (t : Trust) (c : Nat) (x : BitVec 6) : Notice :=
  { ctx := x, reason := 3, trap := 0, die := dieOf c, core := t.logical (dieOf c) (physOf c), seq := 0, addr := 0,
    event := plainEvent x (t.logical (dieOf c) (physOf c)) }

/-- A core that has failed: its sequencers stopped, its passes gone. -/
def Core.fails (k : Core) : Core :=
  { k.onSeqs fun s => { s with stopped := true } with
    failed := true
    ops := k.ops.filter fun o => match o.kind with | .lend .. => false | .retn .. => false | _ => true }

theorem Core.fails_stopped (k : Core) (q : SeqId) : (k.fails.seq q).stopped = true := by cases q <;> rfl

theorem coreFail_group (hlive : t.isLive (dieOf c) = true) (hmask : (t.mask (dieOf c)).getLsbD (physOf c) = true) {g : Group}
    (hg : (m.core c).group = some g) :
    let lost := m.regions.filter fun r => keyFails (m.core c) g.gid r
    let m1 := (lost.foldl (fun m r => m.setKey r.rid .gone) m).onCore c Core.fails
    coreFail t c m =
      { m1 with notices := m1.notices ++ ((g.ctx :: lost.map Region.ctx).eraseDups).map (failNotice t c) } := by
  intro lost m1
  have there : ¬ (!(t.isLive (dieOf c) && (t.mask (dieOf c)).getLsbD (physOf c))) = true := by simp [hlive, hmask]
  rw [← foldl_notify]
  simp only [coreFail, if_neg there, hg]
  rfl

end

/-! ### The audit (R401) -/

section
variable {t : Trust} {m : Mach} {die kind link : Nat} {diff : Int}

theorem auditedLink_ucie {die link : Nat} : auditedLink die 1 link = true ↔ (die, link) ∈ allLinks := by
  simp [auditedLink, List.any_eq_true]

/-- An audit that is not due, or of a link that is none, changes nothing. -/
theorem snaggingAudit_idle (h : m.clockOf die < (SMap.getD m.links (die * 2 ^ 16 + kind * 2 ^ 8 + link) ⟨0, 0, 0⟩).since + 160000000 ∨
    auditedLink die kind link = false) : snaggingAudit t die kind link diff m = m := by
  refine if_pos ?_
  rw [Bool.not_eq_true', Bool.and_eq_false_iff, Bool.and_eq_false_iff]
  exact h.elim (fun h => Or.inr (decide_eq_false (Nat.not_le.2 h))) fun h => Or.inl (Or.inr h)

variable (hlive : t.isLive die = true) (hkind : kind ≤ 1) (hlink : auditedLink die kind link = true)
  (hdue : (SMap.getD m.links (die * 2 ^ 16 + kind * 2 ^ 8 + link) ⟨0, 0, 0⟩).since + 160000000 ≤ m.clockOf die)
include hlive hkind hlink hdue

theorem audit_due : ¬ (!(t.isLive die && decide (kind ≤ 1) && auditedLink die kind link &&
    decide ((SMap.getD m.links (die * 2 ^ 16 + kind * 2 ^ 8 + link) ⟨0, 0, 0⟩).since + auditPeriod ≤ m.clockOf die))) = true := by
  rw [hlive, decide_eq_true hkind, hlink, decide_eq_true (show _ + auditPeriod ≤ _ from hdue)]
  exact Bool.false_ne_true

theorem snaggingAudit_resets (hdiff : (SMap.getD m.links (die * 2 ^ 16 + kind * 2 ^ 8 + link) ⟨0, 0, 0⟩).diff ≠ 0) :
    snaggingAudit t die kind link diff m = { m with
      links := SMap.set m.links (die * 2 ^ 16 + kind * 2 ^ 8 + link)
        ⟨0, (SMap.getD m.links (die * 2 ^ 16 + kind * 2 ^ 8 + link) ⟨0, 0, 0⟩).resets + 1, m.clockOf die⟩ } := by
  simp only [snaggingAudit, if_neg (audit_due hlive hkind hlink hdue), if_pos hdiff]

theorem snaggingAudit_measures (hdiff : (SMap.getD m.links (die * 2 ^ 16 + kind * 2 ^ 8 + link) ⟨0, 0, 0⟩).diff = 0) :
    let m1 : Mach := { m with
      links := SMap.set m.links (die * 2 ^ 16 + kind * 2 ^ 8 + link)
        ⟨diff, (SMap.getD m.links (die * 2 ^ 16 + kind * 2 ^ 8 + link) ⟨0, 0, 0⟩).resets, m.clockOf die⟩ }
    snaggingAudit t die kind link diff m =
      if diff = 0 then m1
      else m1.bankError die 5 false false ⟨BitVec.ofNat 64 (kind * 2 ^ 8 + link), 0, none, 0x3F, 0, BitVec.ofInt 32 diff⟩ := by
  simp only [snaggingAudit, if_neg (audit_due hlive hkind hlink hdue), if_neg (not_not.2 hdiff)]

end

/-! ### A host read that is aborted (R423) -/

section
variable {t : Trust} {m : Mach} {c o : Nat} {op : Op} {g : Option Gid} {x : CopyOp}

/-- Engines that a group's operations drive write no bank and no notice. -/
theorem Mach.onGroupCore_reports (f : Core → Core) : (m.onGroupCore c g f).notices = m.notices ∧
    (m.onGroupCore c g f).banks = m.banks ∧ (m.onGroupCore c g f).cycleErrs = m.cycleErrs := by
  unfold Mach.onGroupCore
  split
  · exact ⟨rfl, rfl, rfl⟩
  · exact List.foldlRecOn
      (motive := fun m' : Mach => m'.notices = m.notices ∧ m'.banks = m.banks ∧ m'.cycleErrs = m.cycleErrs) _ _ ⟨rfl, rfl, rfl⟩
      fun _ h _ _ => h

theorem hostReadAbort_idle (ho : m.engineOp c o = none) : hostReadAbort t c o m = m := by
  rw [hostReadAbort, ho]

theorem hostReadAbort_other (ho : m.engineOp c o = some (op, g)) (hk : op.kind = .cpy x)
    (h : x.ssp ≠ 4 ∨ x.begun = false ∨ x.buf ≠ none) : hostReadAbort t c o m = m := by
  have reads : ¬ (decide (x.ssp = 4) && x.begun && x.buf.isNone) = true := by
    simp only [Bool.and_eq_true, decide_eq_true_eq, Option.isNone_iff_eq_none]
    rintro ⟨⟨hssp, hbegun⟩, hbuf⟩
    obtain h | h | h := h
    · exact h hssp
    · exact Bool.false_ne_true (h.symm.trans hbegun)
    · exact h hbuf
  simp only [hostReadAbort, ho, hk, if_neg reads]

theorem hostReadAbort_aborts (ho : m.engineOp c o = some (op, g)) (hk : op.kind = .cpy x) (hssp : x.ssp = 4)
    (hbegun : x.begun = true) (hbuf : x.buf = none) :
    hostReadAbort t c o m =
      (m.dropEngineOp c g o).consume 0 7 ⟨BitVec.ofNat 64 (Config.port 1024), 0, some (m.engineCtx c g), 0x3F, 0, 0⟩ (m.engineCtx c g)
        (dieOf c) (t.logical (dieOf c) (physOf c)) (seqIndex op.seq) := by
  have reads : (decide (x.ssp = 4) && x.begun && x.buf.isNone) = true := by simp [hssp, hbegun, hbuf]
  simp only [hostReadAbort, ho, hk, if_pos reads]

end

end Sys2Proof.Machine
end

