-- ==== Sys2Proof/Proofs/FrameShelf.lean ====
section
/-! SUPPORT for the statement on errors and peers: what work on cores, memory and keys leaves of the package machine. -/

namespace Sys2Proof.Machine

/-- The package machine without what work on cores, on home memory and on keys may write: what it leaves. -/
def Mach.shelf (m : Mach) : Mach :=
  { m with
    cores := [], arrays := [], global := [], dram := [], written := [], globalPoison := [], dramPoison := [], slices := []
    regions := [], relMarks := [], saved := [], banks := [], cycleErrs := [], notices := [], remoteShares := [], inbox := []
    outbox := [], free := 0, ids := 0 }

section
variable {m m' : Mach} {c : Nat} {f : Core → Core}

theorem Mach.unreachable_of_shelf (h : m'.shelf = m.shelf) : m'.unreachable = m.unreachable :=
  (congrArg Mach.unreachable h : m'.shelf.unreachable = m.shelf.unreachable)
theorem Mach.channels_of_shelf (h : m'.shelf = m.shelf) : m'.channels = m.channels :=
  (congrArg Mach.channels h : m'.shelf.channels = m.shelf.channels)

theorem foldl_shelf {α : Type} {l : List α} {f : Mach → α → Mach} (hf : ∀ m a, (f m a).shelf = m.shelf) :
    (l.foldl f m).shelf = m.shelf :=
  List.foldlRecOn (motive := fun m' : Mach => m'.shelf = m.shelf) l f rfl fun m' h a _ => (hf m' a).trans h

/-! ### Cores, memory and banks -/

@[simp] theorem Mach.onCore_shelf : (m.onCore c f).shelf = m.shelf := rfl
@[simp] theorem Mach.portError_shelf {die : Nat} {ctx : BitVec 6} {p : BitVec 10} : (m.portError die ctx p).shelf = m.shelf := rfl

@[simp] theorem Mach.writeHome_shelf {dram : Bool} {a n : Nat} {img : Mem} : (m.writeHome dram a n img).shelf = m.shelf := by
  cases dram <;> rfl
@[simp] theorem Mach.zeroHome_shelf {dram : Bool} {a n : Nat} : (m.zeroHome dram a n).shelf = m.shelf := by
  cases dram <;> rfl

@[simp] theorem Mach.writeObjs_shelf {s : Saved} : (m.writeObjs s).shelf = m.shelf := Mach.writeHome_shelf

@[simp] theorem Mach.onGroupCore_shelf {g : Option Gid} : (m.onGroupCore c g f).shelf = m.shelf := by
  unfold Mach.onGroupCore
  split
  · rfl
  · exact (foldl_shelf fun _ _ => Mach.writeObjs_shelf).trans rfl

@[simp] theorem Mach.finish_shelf {op : Op} : (m.finish c op).shelf = m.shelf :=
  Mach.onCore_shelf.trans (foldl_shelf fun _ a => by cases a <;> rfl)

@[simp] theorem Mach.completeCopy_shelf {op : Op} {x : CopyOp} {units st : Nat} : (m.completeCopy c op x units st).shelf = m.shelf :=
  Mach.finish_shelf

/-! ### Keys (R139, R145, R146) -/

section
variable {rid : Nat} {r : Region} {ctx : BitVec 6} {g : Gid}

@[simp] theorem Mach.onRegion_shelf {f : Region → Region} : (m.onRegion rid f).shelf = m.shelf := rfl
@[simp] theorem Mach.setKey_shelf {k : Key} : (m.setKey rid k).shelf = m.shelf := rfl

@[simp] theorem Mach.arriveAt_shelf {right : Right} : (m.arriveAt r right g).shelf = m.shelf := by
  unfold Mach.arriveAt
  split <;> rfl

@[simp] theorem Mach.zeroRegion_shelf : (m.zeroRegion r).shelf = m.shelf := by
  unfold Mach.zeroRegion
  split
  · exact Mach.zeroHome_shelf
  · rfl

@[simp] theorem Mach.passOver_shelf {left : List (BitVec 6)} : (m.passOver r left ctx).shelf = m.shelf := by
  unfold Mach.passOver
  split
  · exact Mach.zeroRegion_shelf
  · rfl

@[simp] theorem Mach.settle_shelf : (m.settle rid).shelf = m.shelf := by
  unfold Mach.settle
  repeat' split
  all_goals simp [apply_ite Mach.shelf]

@[simp] theorem Mach.returnShareOf_shelf {h : Holder} : (m.returnShareOf rid h ctx).2.shelf = m.shelf := by
  unfold Mach.returnShareOf
  split
  · rfl
  split
  · rfl
  dsimp only
  split
  · simp [apply_ite Mach.shelf]
  · simp [apply_ite Mach.shelf]
  · split <;> simp

@[simp] theorem Mach.returnKey_shelf : (m.returnKey rid ctx).2.shelf = m.shelf := by
  unfold Mach.returnKey
  split
  · rfl
  split <;> simp [apply_ite Mach.shelf]

@[simp] theorem Mach.releaseKey_shelf : (m.releaseKey g ctx rid).shelf = m.shelf := by
  unfold Mach.releaseKey
  split
  · rfl
  split
  · exact Mach.returnKey_shelf
  split
  · refine Mach.settle_shelf.trans ((foldl_shelf fun _ _ => Mach.returnShareOf_shelf).trans ?_)
    split <;> rfl
  · rfl

@[simp] theorem Mach.releaseKeys_shelf : (m.releaseKeys g ctx).shelf = m.shelf :=
  foldl_shelf (f := fun m rid => m.releaseKey g ctx rid) fun _ _ => Mach.releaseKey_shelf

end

/-! ### The end of copies with a package (R408, R412) -/

theorem Mach.cutCopies_shelf {p : BitVec 10} : (m.cutCopies p).shelf = m.shelf :=
  foldl_shelf fun _ _ => foldl_shelf fun _ op => by
    split
    · exact Mach.completeCopy_shelf
    · rfl

theorem Mach.returnFrom_shelf {p : BitVec 10} : (m.returnFrom p).shelf = m.shelf :=
  foldl_shelf fun _ _ => foldl_shelf fun _ _ => Mach.returnShareOf_shelf

theorem Mach.cutSaved_shelf {p : BitVec 10} : (m.cutSaved p).shelf = m.shelf :=
  foldl_shelf fun m' s => by
    have ports : ((s.image.ops.filter (Op.copiesWith p)).foldl (fun m _ => m.portError (dieOf s.core) s.ctx p) m').shelf = m'.shelf :=
      foldl_shelf fun _ _ => Mach.portError_shelf
    dsimp only
    split
    · exact ports
    · exact Mach.writeObjs_shelf.trans ports

end

end Sys2Proof.Machine
end

