-- ==== Sys2Proof/Proofs/PeerEvents.lean ====
section
/-! SUPPORT for the statement on errors and peers: retention, the verdict on a package, and what a package asks for. -/

namespace Sys2Proof.Machine

/-! ### Retention (R138) -/

section
variable {t : Trust} {m : Mach} {die tile : Nat}

theorem sliceLive_ok (hlive : t.isLive die = true) (hdie : die < 6) (htile : tile < t.count die) : sliceLive t die tile = true := by
  simp [sliceLive, hlive, hdie, htile]

theorem entryCycles_eq : entryCycles die = if die < 2 then 2560 else 1280 := by
  by_cases h : die < 2 <;> simp [entryCycles, isPDie, h]

theorem exitCycles_eq : exitCycles die = if die < 2 then 1440 else 720 := by
  by_cases h : die < 2 <;> simp [exitCycles, isPDie, h]

variable {x : Slice} (hx : SMap.getD m.slices (die * 36 + tile) .new = x)
include hx

theorem retentionEntry_enters (hl : sliceLive t die tile = true) (hr : x.retained = false)
    (hidle : x.last + 131072 ≤ m.clockOf die) :
    retentionEntry t die tile [] m = { m with
      slices := SMap.set m.slices (die * 36 + tile) ⟨true, x.last, false, x.exits, m.clockOf die + entryCycles die, x.asked⟩ } := by
  have enters : (sliceLive t die tile && !x.retained && decide (x.last + 131072 ≤ m.clockOf die)) = true := by simp [hl, hr, hidle]
  simp only [retentionEntry, hx, if_pos enters]
  rfl

theorem retentionEntry_stays (h : x.retained = true ∨ m.clockOf die < x.last + 131072) : retentionEntry t die tile [] m = m := by
  have stays : ¬ (sliceLive t die tile && !x.retained && decide (x.last + 131072 ≤ m.clockOf die)) = true := by
    obtain hr | hidle := h
    · simp [hr]
    · simp [Nat.not_le.2 hidle]
  simp only [retentionEntry, hx, if_neg stays]

theorem retentionExit_leaves (hl : sliceLive t die tile = true) (hr : x.retained = true) (hw : x.wanted = true)
    (hdone : max x.ready x.asked + exitCycles die ≤ m.clockOf die) :
    retentionExit t die tile [] m = { m with
      slices := SMap.set m.slices (die * 36 + tile) ⟨false, m.clockOf die, false, x.exits + 1, 0, 0⟩ } := by
  have leaves : (sliceLive t die tile && x.retained && x.wanted && decide (max x.ready x.asked + exitCycles die ≤ m.clockOf die)) =
      true := by rw [hl, hr, hw, decide_eq_true hdone]; rfl
  simp only [retentionExit, hx, if_pos leaves]
  rfl

theorem retentionExit_stays (h : x.retained = false ∨ x.wanted = false ∨ m.clockOf die < max x.ready x.asked + exitCycles die) :
    retentionExit t die tile [] m = m := by
  have stays : ¬ (sliceLive t die tile && x.retained && x.wanted &&
      decide (max x.ready x.asked + exitCycles die ≤ m.clockOf die)) = true := by
    obtain hr | hw | hdone := h
    · simp [hr]
    · simp [hw]
    · rw [decide_eq_false (Nat.not_le.2 hdone), Bool.and_false]
      exact Bool.false_ne_true
  simp only [retentionExit, hx, if_neg stays]

end

/-! ### Channels that break (R313) -/

section
variable {m m' : Mach} {n num : Nat} {lost : Bool}

theorem Mach.channel_congr (h : m'.channels = m.channels) : m'.channel n = m.channel n := by rw [Mach.channel, Mach.channel, h]

theorem Mach.channel_spec {ch : Channel} (h : m.channel n = some ch) : ch.num = n ∧ ch.closed = false := by
  have found := List.find?_some (p := fun ch : Channel => decide (ch.num = n) && !ch.closed) h
  simpa using found

/-- An open channel replaced by another record of its number. -/
theorem Mach.onChannel_channel {ch' : Channel} (hn : ch'.num = num) (hc : ch'.closed = false) :
    (m.onChannel num fun _ => ch').channel n = (m.channel n).map fun x => if x.num = num ∧ x.closed = false then ch' else x := by
  have keeps : (fun ch : Channel => decide (ch.num = n) && !ch.closed) ∘ (fun x => if x.num = num ∧ x.closed = false then ch' else x) =
      fun ch : Channel => decide (ch.num = n) && !ch.closed := by
    funext x
    by_cases hx : x.num = num ∧ x.closed = false
    · simp [hx, hn, hc]
    · simp [hx]
  rw [Mach.channel, Mach.onChannel, List.find?_map, keeps]
  rfl

theorem Mach.completeSends_shelf {l : List Payload} {units st : Nat} : (m.completeSends l units st).shelf = m.shelf :=
  foldl_shelf fun _ _ => by
    split
    · rfl
    · exact Mach.onGroupCore_shelf

/-- The record of a channel that has broken: nothing of it is on its way. -/
def Channel.asBroken (ch : Channel) (lost : Bool) : Channel :=
  { ch with
    broken := true, lostPath := lost
    att := { ch.att with inFlight := [], landed := [] }, ff := { ch.ff with inFlight := [], landed := [] } }

/-- No channel, or one that is broken, does not break. -/
theorem Mach.breakChannel_idle (h : ∀ ch, m.channel num = some ch → ch.broken = true) : m.breakChannel num lost = m := by
  cases hch : m.channel num with
  | none => rw [Mach.breakChannel, hch]
  | some ch => simp only [Mach.breakChannel, hch, h ch hch, if_true]

/-- An open channel breaks: its record is replaced, and what was on its way completes. -/
theorem Mach.breakChannel_open {ch : Channel} (h : m.channel num = some ch) (hb : ch.broken = false) :
    ∃ l st, m.breakChannel num lost = (m.onChannel num fun _ => ch.asBroken lost).completeSends l 0 st := by
  simp only [Mach.breakChannel, h, hb, Bool.false_eq_true, if_false]
  exact ⟨_, _, rfl⟩

/-- A break replaces an open channel by its broken record, and nothing of the other channels. -/
theorem Mach.breakChannel_channel {ch : Channel} (h : m.channel num = some ch) (hb : ch.broken = false) :
    (m.breakChannel num lost).channel n =
      (m.channel n).map fun x => if x.num = num ∧ x.closed = false then ch.asBroken lost else x := by
  obtain ⟨hnum, hclosed⟩ := Mach.channel_spec h
  obtain ⟨l, st, opened⟩ := Mach.breakChannel_open (lost := lost) h hb
  rw [← Mach.onChannel_channel (ch' := ch.asBroken lost) hnum hclosed, opened]
  exact Mach.channel_congr (Mach.channels_of_shelf Mach.completeSends_shelf)

theorem Mach.breakChannel_broken {ch : Channel} (h : m.channel num = some ch) :
    ∃ ch', (m.breakChannel num lost).channel num = some ch' ∧ ch'.broken = true := by
  cases hb : ch.broken with
  | true =>
    refine ⟨ch, ?_, hb⟩
    rw [Mach.breakChannel_idle fun x hx => Option.some.inj (h.symm.trans hx) ▸ hb, h]
  | false => exact ⟨ch.asBroken lost, by rw [Mach.breakChannel_channel h hb, h, Option.map_some, if_pos (Mach.channel_spec h)], rfl⟩

theorem Mach.breakChannel_channel_ne (hn : n ≠ num) : (m.breakChannel num lost).channel n = m.channel n := by
  by_cases idle : ∀ ch, m.channel num = some ch → ch.broken = true
  · rw [Mach.breakChannel_idle idle]
  · obtain ⟨ch, idle⟩ := not_forall.1 idle
    obtain ⟨h, hb⟩ := Classical.not_imp.1 idle
    rw [Mach.breakChannel_channel h (Bool.eq_false_iff.2 hb)]
    cases hx : m.channel n with
    | none => rfl
    | some x => rw [Option.map_some, if_neg fun h => hn ((Mach.channel_spec hx).1.symm.trans h.1)]

/-- Every channel whose number is on a list breaks. -/
theorem foldl_breakChannel_broken {nums : List Nat} {ch : Channel} (h : m.channel n = some ch) (hn : n ∈ nums ∨ ch.broken = true) :
    ∃ ch', (nums.foldl (fun m x => m.breakChannel x lost) m).channel n = some ch' ∧ ch'.broken = true := by
  induction nums generalizing m ch with
  | nil => exact ⟨ch, h, hn.resolve_left fun h => nomatch h⟩
  | cons x nums ih =>
    rw [List.foldl_cons]
    by_cases hx : n = x
    · subst hx
      obtain ⟨ch', h', hb⟩ := Mach.breakChannel_broken (lost := lost) h
      exact ih h' (Or.inr hb)
    · exact ih ((Mach.breakChannel_channel_ne hx).trans h) (hn.imp_left fun hn => (List.mem_cons.1 hn).resolve_left hx)

end

/-! ### The verdict on a package, and its loss notices (R406, R412, R414) -/

section
variable {t : Trust} {m : Mach} {p : BitVec 10} {ctx : BitVec 6}

/-- The parts of the machine that are no work's on channels, launches or requests: the contexts, the host, the packages lost. -/
def Mach.desk (m : Mach) : SMap Context × Mem × List (BitVec 10) := (m.contexts, m.host, m.unreachable)

theorem Mach.desk_of_shelf {m' : Mach} (h : m'.shelf = m.shelf) : m'.desk = m.desk :=
  (congrArg Mach.desk h : m'.shelf.desk = m.shelf.desk)

theorem foldl_desk {α : Type} {l : List α} {f : Mach → α → Mach} (hf : ∀ m a, (f m a).desk = m.desk) :
    (l.foldl f m).desk = m.desk :=
  List.foldlRecOn (motive := fun m' : Mach => m'.desk = m.desk) l f rfl fun m' h a _ => (hf m' a).trans h

theorem Mach.breakChannel_desk {num : Nat} {lost : Bool} : (m.breakChannel num lost).desk = m.desk := by
  by_cases idle : ∀ ch, m.channel num = some ch → ch.broken = true
  · rw [Mach.breakChannel_idle idle]
  · obtain ⟨ch, idle⟩ := not_forall.1 idle
    obtain ⟨h, hb⟩ := Classical.not_imp.1 idle
    obtain ⟨l, st, opened⟩ := Mach.breakChannel_open (lost := lost) h (Bool.eq_false_iff.2 hb)
    rw [opened]
    exact (Mach.desk_of_shelf Mach.completeSends_shelf).trans rfl

theorem unreachable_any (h : p ∉ m.unreachable) : ¬ (m.unreachable.any fun x => decide (x = p)) = true := by
  intro hany
  obtain ⟨x, hx, heq⟩ := List.any_eq_true.1 hany
  exact h (of_decide_eq_true heq ▸ hx)

theorem unreachableVerdict_known (h : p = t.package ∨ p ∈ m.unreachable) : unreachableVerdict t p m = m := by
  refine if_pos (h.imp_right fun hp => ?_)
  exact List.any_eq_true.2 ⟨p, hp, decide_eq_true rfl⟩

/-- The machine in which a package that cannot be reached is on the list, and nothing waits for it. -/
def Mach.withoutPackage (m : Mach) (p : BitVec 10) : Mach :=
  ((({ m with unreachable := m.unreachable ++ [p] } : Mach).cutCopies p).returnFrom p).cutSaved p

theorem Mach.withoutPackage_shelf : (m.withoutPackage p).shelf = ({ m with unreachable := m.unreachable ++ [p] } : Mach).shelf :=
  Mach.cutSaved_shelf.trans (Mach.returnFrom_shelf.trans Mach.cutCopies_shelf)

/-- The channels with a package broken. -/
def Mach.withoutPeer (m : Mach) (p : BitVec 10) : Mach :=
  ((m.channels.filter fun ch => decide (ch.attEnd.pkg.or ch.ffEnd.pkg = some p)).map Channel.num).foldl
    (fun m n => m.breakChannel n true) m

theorem Mach.withoutPeer_desk : (m.withoutPeer p).desk = m.desk := foldl_desk fun _ _ => Mach.breakChannel_desk

theorem unreachableVerdict_new (hp : p ≠ t.package) (hm : p ∉ m.unreachable) :
    unreachableVerdict t p m =
      (((m.withoutPackage p).withoutPeer p).removeMember p fun _ => true).dropAdmitted fun a => decide (a.pkg = p) :=
  if_neg (not_or.2 ⟨hp, unreachable_any hm⟩)

theorem unreachableVerdict_unreachable (hp : p ≠ t.package) (hm : p ∉ m.unreachable) :
    (unreachableVerdict t p m).unreachable = m.unreachable ++ [p] := by
  rw [unreachableVerdict_new hp hm]
  have broken := Mach.withoutPeer_desk (m := m.withoutPackage p) (p := p)
  exact (congrArg (fun x : SMap Context × Mem × List (BitVec 10) => x.2.2) broken).trans
    (Mach.unreachable_of_shelf Mach.withoutPackage_shelf)

/-- The number of an open channel that meets a test is among those of the channels that do. -/
theorem Mach.channel_mem {n : Nat} {ch : Channel} {q : Channel → Bool} (h : m.channel n = some ch) (hq : q ch = true) :
    n ∈ (m.channels.filter q).map Channel.num :=
  List.mem_map.2 ⟨ch, List.mem_filter.2 ⟨List.mem_of_find?_eq_some h, hq⟩, (Mach.channel_spec h).1⟩

@[simp] theorem Mach.removeMember_channel {f : Collective → Bool} {n : Nat} : (m.removeMember p f).channel n = m.channel n := rfl
@[simp] theorem Mach.dropAdmitted_channel {f : Admitted → Bool} {n : Nat} : (m.dropAdmitted f).channel n = m.channel n := rfl

theorem Mach.withoutPeer_breaks {n : Nat} {ch : Channel} (h : m.channel n = some ch) (he : ch.attEnd.pkg.or ch.ffEnd.pkg = some p) :
    ∃ ch', (m.withoutPeer p).channel n = some ch' ∧ ch'.broken = true :=
  foldl_breakChannel_broken h (Or.inl (Mach.channel_mem h (decide_eq_true he)))

theorem unreachableVerdict_breaks (hp : p ≠ t.package) (hm : p ∉ m.unreachable) {n : Nat} {ch : Channel}
    (h : m.channel n = some ch) (he : ch.attEnd.pkg.or ch.ffEnd.pkg = some p) :
    ∃ ch', (unreachableVerdict t p m).channel n = some ch' ∧ ch'.broken = true := by
  rw [unreachableVerdict_new hp hm, Mach.dropAdmitted_channel, Mach.removeMember_channel]
  have still : (m.withoutPackage p).channel n = some ch :=
    (Mach.channel_congr (Mach.channels_of_shelf Mach.withoutPackage_shelf)).trans h
  exact Mach.withoutPeer_breaks still he

theorem peerContextLost_breaks {n : Nat} {ch : Channel} (h : m.channel n = some ch)
    (he : (ch.attEnd.pkg = some p ∧ ch.attEnd.ctx = ctx) ∨ (ch.ffEnd.pkg = some p ∧ ch.ffEnd.ctx = ctx)) :
    ∃ ch', (peerContextLost p ctx m).channel n = some ch' ∧ ch'.broken = true := by
  refine foldl_breakChannel_broken (m := (m.removeMember p fun x => decide (x.ctx = ctx)).dropAdmitted _) h (Or.inl ?_)
  refine Mach.channel_mem (m := m) h ?_
  simpa [List.any_cons] using he

end

/-! ### What a package asks for (R406, R407, R409) -/

section
variable {t : Trust} {m : Mach} {p : BitVec 10} {who : Asker} {a n : Nat} {req : PeerReq}

/-- Nothing of a package that cannot be reached is performed. -/
theorem peerAccess_cut (h : p ∈ m.unreachable) : peerAccess t p req m = m :=
  if_pos (List.any_eq_true.2 ⟨p, h, decide_eq_true rfl⟩)

theorem peerAccess_admission (h : p ∉ m.unreachable) {f : AccOp} {w32 : Bool} :
    peerAccess t p (.admission who f w32 false a) m = peerAdmit t p who f w32 false a m := if_neg (unreachable_any h)

theorem peerAccess_acc (h : p ∉ m.unreachable) {f : AccOp} {w32 : Bool} {v cmp : Word} {sc : Scope} {od : Order} :
    peerAccess t p (.acc who f w32 false a v cmp sc od) m =
      peerAcc p who ⟨f, w32, false, 0, a, none, v, cmp, sc, od, false⟩ m := if_neg (unreachable_any h)

theorem peerRun_trap {dev store : Bool} {f : List (Nat × Nat × Nat) → Mach} {code x : Nat}
    (hc : peerCheck t m p who [⟨dev, store, a, n, 1, 1, 0, 0⟩] = some (.trap code x)) :
    peerRun t m p who dev store a n f = m.tell p (.trap code (BitVec.ofNat 64 x)) := by
  rw [peerRun, hc]
  rfl

theorem peerRun_asleep {store : Bool} {f : List (Nat × Nat × Nat) → Mach}
    (hc : peerCheck t m p who [⟨false, store, a, n, 1, 1, 0, 0⟩] = none) (hs : m.asleep a n ≠ none) :
    peerRun t m p who false store a n f = m.touchSlice a := by
  rw [peerRun, hc]
  exact if_pos (by simpa [Option.isSome_iff_ne_none] using hs)

theorem peerRun_awake {store : Bool} {f : List (Nat × Nat × Nat) → Mach}
    (hc : peerCheck t m p who [⟨false, store, a, n, 1, 1, 0, 0⟩] = none) (hs : m.asleep a n = none) :
    peerRun t m p who false store a n f = f [(0, a, n)] := by
  rw [peerRun, hc]
  exact if_neg (by simp [hs])

/-- With no poison in home memory, a read of it meets none. -/
theorem Mach.piecesPoison_none {ps : List (Nat × Nat × Nat)} (h : m.globalPoison = []) : m.piecesPoison false ps = none := by
  refine List.findSome?_eq_none_iff.2 fun x _ => ?_
  have clean : m.homePoison false = [] := h
  rw [clean]
  rfl

end

section
variable {t : Trust} {m : Mach} {p : BitVec 10} {who : Asker} {f : AccOp} {w32 : Bool} {a : Nat}

theorem peerAccCheck_space (h : runInSpace t (if w32 then 4 else 8) (1, a, true) = false) :
    peerAccCheck t m who f w32 false a = .error (.trap tSpace a) := by
  simp [peerAccCheck, h]

theorem peerAccCheck_common (h : runInSpace t (if w32 then 4 else 8) (1, a, true) = true) :
    peerAccCheck t m who f w32 false a =
      if m.peerOk who.ctx && m.commonAt false who.ctx a then .ok a else .error (.trap tNokey a) := by
  simp [peerAccCheck, h]

theorem peerAdmit_trap {code x : Nat} (h : peerAccCheck t m who f w32 false a = .error (.trap code x)) :
    peerAdmit t p who f w32 false a m = m.tell p (.trap code (BitVec.ofNat 64 x)) := by
  rw [peerAdmit, h]
  rfl

theorem peerAdmit_ok (h : peerAccCheck t m who f w32 false a = .ok a) :
    peerAdmit t p who f w32 false a m = { m.tell p .admitted with admitted := m.admitted ++ [⟨p, who, w32, false, a, a⟩] } := by
  rw [peerAdmit, h]

/-- The place in the list of admissions of an accumulate of a peer context. -/
def Mach.admittedAs (m : Mach) (p : BitVec 10) (who : Asker) (w32 : Bool) (a : Nat) : Option Admitted :=
  m.admitted.find? fun y => decide (y.pkg = p ∧ y.who = who ∧ y.w32 = w32 ∧ y.dev = false ∧ y.addr = a)

section
variable {v cmp : Word} {sc : Scope} {od : Order}

theorem peerAcc_unadmitted (h : m.admittedAs p who w32 a = none) :
    peerAcc p who ⟨f, w32, false, 0, a, none, v, cmp, sc, od, false⟩ m = m.tell p .noKey := by
  have found : (m.admitted.find? fun x => decide (x.pkg = p ∧ x.who = who ∧ x.w32 = w32 ∧ x.dev = false ∧ x.addr = a)) = none := h
  simp only [peerAcc, found]

variable (h : m.admittedAs p who w32 a = some ⟨p, who, w32, false, a, a⟩)
include h

theorem peerAcc_asleep (hs : m.retainedSlice a ≠ none) :
    peerAcc p who ⟨f, w32, false, 0, a, none, v, cmp, sc, od, false⟩ m = m.touchSlice a := by
  have found : (m.admitted.find? fun x => decide (x.pkg = p ∧ x.who = who ∧ x.w32 = w32 ∧ x.dev = false ∧ x.addr = a)) =
      some ⟨p, who, w32, false, a, a⟩ := h
  have asleep : (!false && (m.retainedSlice a).isSome) = true := Option.isSome_iff_ne_none.2 hs
  simp only [peerAcc, found, if_pos asleep]

/-- With its slice awake and no poison, an admitted accumulate acts, and its old value and the mark it met are told. -/
theorem peerAcc_done (hs : m.retainedSlice a = none) (hclean : m.globalPoison = []) :
    let r := ({ m with admitted := m.admitted.erase ⟨p, who, w32, false, a, a⟩ } : Mach).accumulate
      ⟨f, w32, false, a, a, none, v, cmp, sc, od, false⟩ who.core p
    let k := SMap.get? m.relMarks (markKey false a)
    peerAcc p who ⟨f, w32, false, 0, a, none, v, cmp, sc, od, false⟩ m =
      r.2.2.tell p (.old r.1 (k.map RelMark.scope) ((k.map RelMark.core).getD 0) ((k.map fun k => k.pkg.toNat).getD 0)) := by
  have found : (m.admitted.find? fun x => decide (x.pkg = p ∧ x.who = who ∧ x.w32 = w32 ∧ x.dev = false ∧ x.addr = a)) =
      some ⟨p, who, w32, false, a, a⟩ := h
  have clean : ({ m with admitted := m.admitted.erase ⟨p, who, w32, false, a, a⟩ } : Mach).homePoison false = [] := hclean
  have awake : ¬ (!false && (m.retainedSlice a).isSome) = true := by rw [hs]; exact Bool.false_ne_true
  simp only [peerAcc, found, if_neg awake, clean]
  rfl

end

end

end Sys2Proof.Machine
end

