-- ==== Sys2Proof/Proofs/ContextLoss.lean ====
section
/-! SUPPORT for the statement on errors and peers: what the teardown of a context leaves of the machine (R398, R399). -/

namespace Sys2Proof.Machine

/-- No engine of the machine copies into host memory. -/
def Mach.HostFree (m : Mach) : Prop := ∀ d, ∀ o ∈ (m.core d).ops, ∀ y, o.kind = .cpy y → y.dsp ≠ 4

/-- Work that leaves the contexts, and host memory too where no engine copies into it. -/
structure Calm (m m' : Mach) : Prop where
  contexts : m'.contexts = m.contexts
  host : m.HostFree → m'.host = m.host
  hostFree : m.HostFree → m'.HostFree

/-- Work that leaves the contexts and host memory, and starts or changes no operation of a core. -/
structure Sheds (m m' : Mach) : Prop where
  desk : m'.desk = m.desk
  ops : ∀ d, ∀ o ∈ (m'.core d).ops, o ∈ (m.core d).ops

section
variable {m m' m'' : Mach} {t : Trust} {c : Nat} {op : Op}

theorem Mach.contexts_of_desk (h : m'.desk = m.desk) : m'.contexts = m.contexts := congrArg Prod.fst h
theorem Mach.host_of_desk (h : m'.desk = m.desk) : m'.host = m.host := congrArg (fun x => x.2.1) h

theorem Calm.refl (m : Mach) : Calm m m := ⟨rfl, fun _ => rfl, id⟩
theorem Calm.trans (h : Calm m m') (h' : Calm m' m'') : Calm m m'' :=
  ⟨h'.contexts.trans h.contexts, fun hm => (h'.host (h.hostFree hm)).trans (h.host hm), fun hm => h'.hostFree (h.hostFree hm)⟩

theorem foldl_calm {α : Type} {l : List α} {f : Mach → α → Mach} (hf : ∀ m a, Calm m (f m a)) : Calm m (l.foldl f m) :=
  List.foldlRecOn (motive := Calm m) l f (Calm.refl m) fun m' h a _ => h.trans (hf m' a)

theorem Sheds.refl (m : Mach) : Sheds m m := ⟨rfl, fun _ _ => id⟩
theorem Sheds.trans (h : Sheds m m') (h' : Sheds m' m'') : Sheds m m'' :=
  ⟨h'.desk.trans h.desk, fun d o ho => h.ops d o (h'.ops d o ho)⟩
theorem Sheds.calm (h : Sheds m m') : Calm m m' :=
  ⟨Mach.contexts_of_desk h.desk, fun _ => Mach.host_of_desk h.desk, fun hm d o ho => hm d o (h.ops d o ho)⟩

theorem foldl_sheds {α : Type} {l : List α} {f : Mach → α → Mach} (hf : ∀ m a, Sheds m (f m a)) : Sheds m (l.foldl f m) :=
  List.foldlRecOn (motive := Sheds m) l f (Sheds.refl m) fun m' h a _ => h.trans (hf m' a)

/-- Work that leaves every core sheds nothing. -/
theorem Sheds.of_cores (hd : m'.desk = m.desk) (hc : m'.cores = m.cores) : Sheds m m' :=
  ⟨hd, fun d o ho => by rwa [Mach.core, hc] at ho⟩

theorem setCore_sheds {k : Core} (h : ∀ o ∈ k.ops, o ∈ (m.core c).ops) : Sheds m (m.setCore c k) := by
  refine ⟨rfl, fun d o ho => ?_⟩
  by_cases hd : d = c
  · subst hd; rw [Mach.setCore_core] at ho; exact h o ho
  · rwa [Mach.setCore_core_ne m k hd] at ho

theorem onCore_sheds {f : Core → Core} (h : ∀ o ∈ (f (m.core c)).ops, o ∈ (m.core c).ops) : Sheds m (m.onCore c f) :=
  setCore_sheds h

/-! ### Home memory, granules and poison -/

theorem writeHome_sheds {dram : Bool} {a n : Nat} {img : Mem} : Sheds m (m.writeHome dram a n img) :=
  .of_cores (Mach.desk_of_shelf Mach.writeHome_shelf) (by cases dram <;> rfl)

theorem piecesWrite_sheds {dev : Bool} {ps : List (Nat × Nat × Nat)} {img : Mem} : Sheds m (m.piecesWrite dev ps img) :=
  foldl_sheds fun _ _ => writeHome_sheds

theorem evictGranule_sheds {g : Nat} {s : Saved} : Sheds m (m.evictGranule c g s) :=
  have marked (m : Mach) (p : List Nat) (l : List Saved) : Sheds m { m with dramPoison := p, saved := l } := .of_cores rfl rfl
  (writeHome_sheds.trans (marked _ _ _)).trans writeHome_sheds

theorem ownGranule_sheds {g : Nat} : Sheds m (m.ownGranule c g) := by
  unfold Mach.ownGranule
  dsimp only
  split
  · exact .refl m
  next gr _ =>
  split
  · exact .refl m
  have evicted (v : Option Saved) : Sheds m (match v with | some s => m.evictGranule c g s | none => m) := by
    cases v with
    | none => exact .refl m
    | some s => exact evictGranule_sheds
  split
  · exact (evicted _).trans (onCore_sheds fun _ => id)
  · split <;> split <;> exact (evicted _).trans (onCore_sheds fun _ => id)

theorem ownLocal_sheds {a n : Nat} : Sheds m (m.ownLocal c a n) := foldl_sheds fun _ _ => ownGranule_sheds

theorem consume_sheds {die b : Nat} {i : ErrInfo} {ctx : BitVec 6} {cdie core seq : Nat} :
    Sheds m (m.consume die b i ctx cdie core seq) := by
  unfold Mach.consume Mach.bankError
  exact .of_cores rfl rfl

theorem dropOp_sheds {o : Nat} : Sheds m (m.dropOp c o) := onCore_sheds fun _ ho => (List.mem_filter.1 ho).1

theorem losePoison_sheds {dram : Bool} {a : Nat} : Sheds m (m.losePoison t c op dram a) := dropOp_sheds.trans consume_sheds
theorem losePoisonLocal_sheds {a : Nat} : Sheds m (m.losePoisonLocal t c op a) := dropOp_sheds.trans consume_sheds

theorem onPool_sheds {p : Nat} {f : Pool → Pool} : Sheds m (m.onPool p f) := .of_cores rfl rfl

/-! ### An engine's accesses and turns (R266, R267) -/

/-- The machine that an engine's access leaves comes of calm work, however the access ends. -/
def Io.Calm {α : Type} (m : Mach) : Io α → Prop
  | .wait m' => Machine.Calm m m'
  | .lost m' => Machine.Calm m m'
  | .ok _ m' => Machine.Calm m m'

theorem Io.Calm.of_lost {α : Type} {x : Io α} (h : x.Calm m) (hx : x = .lost m') : Machine.Calm m m' := by subst hx; exact h
theorem Io.Calm.of_ok {α : Type} {x : Io α} {a : α} (h : x.Calm m) (hx : x = .ok a m') : Machine.Calm m m' := by subst hx; exact h

theorem touchSlice_sheds {a : Nat} : Sheds m (m.touchSlice a) := .of_cores rfl rfl

theorem engineRead_calm {pkg : BitVec 10} {code a n : Nat} : (engineRead t c op pkg code a n m).Calm m := by
  simp only [engineRead]
  split
  · split
    · exact (ownLocal_sheds.trans losePoisonLocal_sheds).calm
    · exact ownLocal_sheds.calm
  · split
    · exact touchSlice_sheds.calm
    · split
      · exact (touchSlice_sheds.trans losePoison_sheds).calm
      · exact touchSlice_sheds.calm
  · split
    · exact losePoison_sheds.calm
    · split
      · exact losePoison_sheds.calm
      · exact .refl m
  · split
    · exact .refl m
    · split
      · exact losePoison_sheds.calm
      · exact .refl m
  · exact .refl m
  · split
    · exact .refl m
    · exact Sheds.calm (.of_cores rfl rfl)

/-- An engine's write: only one to space code 4 changes host memory. -/
theorem engineWrite_calm {pkg : BitVec 10} {code a : Nat} {bs : List Byte} (h : m.HostFree → code ≠ 4) :
    (engineWrite t c op pkg code a bs m).Calm m := by
  simp only [engineWrite]
  split
  · split
    · exact (ownLocal_sheds.trans losePoisonLocal_sheds).calm
    · exact (ownLocal_sheds.trans (onCore_sheds fun _ => id)).calm
  · split
    · exact touchSlice_sheds.calm
    · exact (touchSlice_sheds.trans writeHome_sheds).calm
  · split
    · exact losePoison_sheds.calm
    · exact piecesWrite_sheds.calm
  · split
    · exact .refl m
    · exact (writeHome_sheds.trans onPool_sheds).calm
  · exact ⟨rfl, fun hm => absurd rfl (h hm), fun hm => absurd rfl (h hm)⟩
  · exact Sheds.calm (.of_cores rfl rfl)

theorem Core.arrive_ops {k k' : Core} {id obj : Nat} {bs : List Byte} (h : k.arrive id obj bs = some k') : k'.ops = k.ops := by
  simp only [Core.arrive] at h
  repeat' split at h
  all_goals cases h
  all_goals simp [Core.onObj, Core.setV]

theorem setCopy_calm {y : CopyOp} (hy : m.HostFree → y.dsp ≠ 4) : Calm m (m.setCopy c op y) := by
  refine ⟨rfl, fun _ => rfl, fun hm d o ho x hx => ?_⟩
  by_cases hd : d = c
  · subst hd
    rw [Mach.setCopy, Mach.onCore_core] at ho
    obtain ⟨o', ho', rfl⟩ := List.mem_map.1 ho
    split at hx
    · cases hx; exact hy hm
    · exact hm d o' ho' x hx
  · rw [Mach.setCopy, Mach.onCore_core_ne m _ hd] at ho
    exact hm d o ho x hx

/-- A copy's record replaced after calm work, by one with the same destination. -/
theorem Calm.setCopy {x y : CopyOp} (h : Calm m m') (hx : m.HostFree → x.dsp ≠ 4) (hy : y.dsp = x.dsp) :
    Calm m (m'.setCopy c op y) :=
  ⟨h.contexts, h.host, fun hm => (setCopy_calm fun _ => by rw [hy]; exact hx hm).hostFree (h.hostFree hm)⟩

theorem Core.mem_of_open? {k : Core} {o : Nat} (h : k.open? o = some op) : op ∈ k.ops := by
  unfold Core.open? Core.op? at h
  split at h
  · exact List.mem_of_find?_eq_some h
  · cases h

/-- A step of an engine changes host memory only for a copy into it. -/
theorem copyStep_calm {o : Nat} {whole : Bool} (hs : copyStep t c o whole m = some m') : Calm m m' := by
  simp only [copyStep] at hs
  split at hs
  · cases hs
  next op hop =>
  split at hs
  case h_2 => cases hs
  next x hx =>
  have away (hm : m.HostFree) : x.dsp ≠ 4 := hm c op (Core.mem_of_open? hop) x hx
  split at hs
  · split at hs <;> cases hs
    exact (Calm.refl m).setCopy away rfl
  split at hs
  · cases hs
  split at hs
  · split at hs
    · cases hs
    next he => cases hs; exact engineRead_calm.of_lost he
    next he => cases hs; exact (engineRead_calm.of_ok he).setCopy away rfl
  next bs _ =>
  split at hs
  · split at hs
    · cases hs
    next k hk =>
      cases hs
      have landed : Sheds m.fresh.2 (m.fresh.2.setCore c k) := setCore_sheds fun o ho => by rwa [Core.arrive_ops hk] at ho
      have fresh : Sheds m m.fresh.2 := .of_cores rfl rfl
      refine (fresh.trans landed).calm.setCopy away ?_
      rw [apply_ite CopyOp.dsp, ite_self]
  · split at hs
    · cases hs
    next he => cases hs; exact (engineWrite_calm away).of_lost he
    next he => cases hs; exact ((engineWrite_calm away).of_ok he).setCopy away (by rw [apply_ite CopyOp.dsp, ite_self])

theorem stopCopies_calm : Calm m (m.stopCopies t c) :=
  foldl_calm fun m o => by
    cases hs : copyStep t c o.id true m with
    | none => exact .refl m
    | some m' => exact copyStep_calm hs

/-! ### Eviction (R398) -/

theorem backTo_sheds {g : Gid} {rid : Nat} : Sheds m (m.backTo g rid) := .of_cores rfl rfl

theorem cutPass_sheds {g : Gid} {k : OpKind} : Sheds m (Mach.cutPass g m k) := by
  unfold Mach.cutPass
  split
  · exact backTo_sheds
  · exact backTo_sheds
  · exact .of_cores rfl rfl
  · exact foldl_sheds fun _ _ => backTo_sheds
  · exact .refl m

theorem cutPasses_sheds {g : Gid} {ops : List Op} : Sheds m (m.cutPasses g ops) := foldl_sheds fun _ _ => cutPass_sheds

theorem onArray_sheds {k : Nat} {f : Array_ → Array_} : Sheds m (m.onArray k f) := .of_cores rfl rfl

theorem onGroup_sheds {f : Group → Group} : Sheds m (m.onGroup c f) := onCore_sheds fun _ => id

theorem endHolding_sheds {k : Nat} {spill : Bool} : Sheds m (m.endHolding k c spill) := by
  unfold Mach.endHolding
  exact onGroup_sheds.trans onArray_sheds

theorem evictCore_calm : Calm m (evictCore t c m) := by
  unfold evictCore
  split
  · exact .refl m
  next g _ =>
  have ended (held : Bool) {m' : Mach} (h : Calm m m') :
      Calm m (if held then (m'.endHolding (clusterOf c) c false).onArray (clusterOf c) Array_.zero else m') := by
    split
    · exact h.trans (endHolding_sheds.trans onArray_sheds).calm
    · exact h
  have left {m : Mach} : Sheds m (m.onCore c fun k => if k.failed then .reset else { k.vacate g.gid with ended := true }) :=
    onCore_sheds fun o ho => by
      split at ho <;> cases ho
  exact (ended _ (stopCopies_calm.trans cutPasses_sheds.calm)).trans left.calm

theorem breakChannels_desk {ctx : BitVec 6} : (m.breakChannels ctx).desk = m.desk :=
  foldl_desk (f := fun m n => m.breakChannel n false) fun _ _ => Mach.breakChannel_desk

/-- The groups of a context are evicted from their cores and from their save slots, and its channels break (R398). -/
def Mach.evictGroups (t : Trust) (m : Mach) (ctx : BitVec 6) : Mach :=
  let m := (m.cores.keys.filter fun c => (m.core c).occupied && decide ((m.core c).ctx = ctx)).foldl (fun m c => evictCore t c m) m
  let m := m.breakChannels ctx
  (m.saved.filter fun s => decide (s.ctx = ctx)).foldl (fun m s => m.cutPasses s.group.gid s.image.ops) m

/-- Evicting groups leaves the contexts, and host memory too where no engine copies into it. -/
theorem evictGroups_desk {ctx : BitVec 6} :
    (m.evictGroups t ctx).contexts = m.contexts ∧ (m.HostFree → (m.evictGroups t ctx).host = m.host) := by
  have evicted : Calm m ((m.cores.keys.filter fun c => (m.core c).occupied && decide ((m.core c).ctx = ctx)).foldl
      (fun m c => evictCore t c m) m) := foldl_calm fun _ _ => evictCore_calm
  have left : (m.evictGroups t ctx).desk = _ := (foldl_desk fun _ _ => cutPasses_sheds.desk).trans breakChannels_desk
  exact ⟨(Mach.contexts_of_desk left).trans evicted.contexts, fun h => (Mach.host_of_desk left).trans (evicted.host h)⟩

/-! ### Requests, launches and groups -/


theorem resumeOn_desk {pool smax n : Nat} : (m.resumeOn pool smax n).desk = m.desk := by
  induction n generalizing m with
  | zero => rfl
  | succ n ih =>
    unfold Mach.resumeOn
    dsimp only
    split
    · rfl
    split
    · rfl
    · exact ih

theorem leaveColumn_desk {r : Nat} : (m.leaveColumn t r).desk = m.desk := by
  unfold Mach.leaveColumn
  split
  · rfl
  · exact resumeOn_desk

theorem setGroup_desk {g : Gid} {st : GroupSt} : (m.setGroup g st).desk = m.desk := rfl

theorem forgetGroup_desk {g : Gid} {ctx : BitVec 6} : (m.forgetGroup g ctx).desk = m.desk :=
  (Mach.desk_of_shelf Mach.releaseKeys_shelf : ((m.setGroup g .ended).releaseKeys g ctx).desk = (m.setGroup g .ended).desk)

/-- The requests leave their columns, and the groups end (R398). -/
def Mach.endWork (t : Trust) (m : Mach) (ctx : BitVec 6) (groups : List Gid) : Mach :=
  let m := (m.requests.filter fun r => decide (rCtx r.words = ctx)).foldl (fun m r => m.leaveColumn t r.rid) m
  let m := groups.foldl (fun m g => m.setGroup g .ended) m
  groups.foldl (fun m g => m.forgetGroup g ctx) m

theorem endWork_desk {ctx : BitVec 6} {groups : List Gid} : (m.endWork t ctx groups).desk = m.desk :=
  (foldl_desk fun _ _ => forgetGroup_desk).trans <| (foldl_desk fun _ _ => setGroup_desk).trans <| foldl_desk fun _ _ => leaveColumn_desk

/-! ### Home memory and pools -/

/-- The contexts and host memory with the launches and the words of the requests: what clearing memory leaves. -/
def Mach.roll (m : Mach) : (SMap Context × Mem × List (BitVec 10)) × List Launch × List (List Word) :=
  (m.desk, m.launches, m.requests.map Request.words)

theorem Mach.roll_of_shelf (h : m'.shelf = m.shelf) : m'.roll = m.roll := (congrArg Mach.roll h : m'.shelf.roll = m.shelf.roll)

theorem foldl_roll {α : Type} {l : List α} {f : Mach → α → Mach} (hf : ∀ m a, (f m a).roll = m.roll) :
    (l.foldl f m).roll = m.roll :=
  List.foldlRecOn (motive := fun m' : Mach => m'.roll = m.roll) l f rfl fun m' h a _ => (hf m' a).trans h

theorem Request.sees_words {r : Request} {old new : Pool} : (r.sees old new).words = r.words := by
  unfold Request.sees
  split
  · dsimp only
    split <;> rfl
  · rfl

theorem onPool_roll {p : Nat} {f : Pool → Pool} : (m.onPool p f).roll = m.roll := by
  have words : (m.onPool p f).requests.map Request.words = m.requests.map Request.words := by
    simp [Mach.onPool, Request.sees_words]
  exact congrArg (fun l => (m.desk, m.launches, l)) words

theorem freeFrame_roll {pool frame : Nat} : (m.freeFrame pool frame).roll = m.roll := by
  unfold Mach.freeFrame
  refine onPool_roll.trans ?_
  split
  · rfl
  · exact Mach.roll_of_shelf Mach.zeroHome_shelf

theorem clearPools_roll {ctx : BitVec 6} : (m.clearPools ctx).roll = m.roll :=
  foldl_roll fun _ _ => onPool_roll.trans (foldl_roll fun _ _ => freeFrame_roll)

theorem zeroParts_shelf {bad : List Nat} {l : List (Nat × Nat)} : (m.zeroParts bad l).shelf = m.shelf :=
  foldl_shelf fun _ _ => by
    split
    · rfl
    · exact Mach.zeroHome_shelf

theorem clearRegion_shelf {bad : List Nat} {r : Region} : (m.clearRegion t bad r).shelf = m.shelf := by
  unfold Mach.clearRegion
  split
  · exact Mach.zeroHome_shelf
  · exact zeroParts_shelf.trans zeroParts_shelf
  · rfl

/-- The regions of a context are zeroed and the pools forget it (R398). -/
def Mach.clearStores (t : Trust) (m : Mach) (ctx : BitVec 6) : Mach :=
  let bad := m.badPages ctx
  ((m.regions.filter fun r => decide (r.ctx = ctx)).foldl (fun m r => m.clearRegion t bad r) m).clearPools ctx

theorem clearStores_roll {ctx : BitVec 6} : (m.clearStores t ctx).roll = m.roll :=
  clearPools_roll.trans (foldl_roll fun _ _ => Mach.roll_of_shelf clearRegion_shelf)

/-! ### The teardown -/

/-- The machine of a teardown once the groups are evicted: the waybills and the saved groups of the context are gone. -/
def Mach.evictedOf (t : Trust) (m : Mach) (ctx : BitVec 6) : Mach :=
  { m.evictGroups t ctx with
    waybills := (m.evictGroups t ctx).waybills.filter fun w => decide (w.ctx ≠ ctx)
    saved := (m.evictGroups t ctx).saved.filter fun s => decide (s.ctx ≠ ctx) }

/-- The groups of every launch of a context. -/
def Mach.groupIds (m : Mach) (ctx : BitVec 6) : List Gid :=
  (m.launches.filter fun l => decide (l.ctx = ctx)).flatMap fun l => l.groups.map fun g => (⟨l.num, g.1⟩ : Gid)

/-- The machine of a teardown once its work is ended: queue records, requests, launches and streams of the context are gone. -/
def Mach.workless (t : Trust) (m : Mach) (ctx : BitVec 6) : Mach :=
  let m := (m.evictedOf t ctx).endWork t ctx (m.groupIds ctx)
  let levels : SMap (List QRecord) := m.levels.map fun p => (p.1, p.2.filter fun q => decide (rCtx q.words ≠ ctx))
  { m with
    levels := levels.filter fun p => !p.2.isEmpty
    requests := m.requests.filter fun r => !decide (rCtx r.words = ctx)
    launches := m.launches.filter fun l => decide (l.ctx ≠ ctx)
    streams := m.streams.filter fun s => decide (s.ctx ≠ ctx) }

section
variable {ctx : BitVec 6}

theorem teardown_contexts :
    (teardown t ctx m).2.contexts = SMap.erase ((m.workless t ctx).clearStores t ctx).contexts ctx.toNat := rfl
theorem teardown_launches : (teardown t ctx m).2.launches = ((m.workless t ctx).clearStores t ctx).launches := rfl
theorem teardown_requests : (teardown t ctx m).2.requests = ((m.workless t ctx).clearStores t ctx).requests := rfl

theorem workless_desk : (m.workless t ctx).desk = (m.evictGroups t ctx).desk :=
  (endWork_desk : ((m.evictedOf t ctx).endWork t ctx (m.groupIds ctx)).desk = (m.evictedOf t ctx).desk)

theorem cleared_desk : ((m.workless t ctx).clearStores t ctx).desk = (m.evictGroups t ctx).desk :=
  (congrArg Prod.fst clearStores_roll).trans workless_desk

theorem cleared_launches : ((m.workless t ctx).clearStores t ctx).launches = (m.workless t ctx).launches :=
  congrArg (fun x => x.2.1) (clearStores_roll (t := t) (m := m.workless t ctx) (ctx := ctx))

theorem cleared_requests :
    ((m.workless t ctx).clearStores t ctx).requests.map Request.words = (m.workless t ctx).requests.map Request.words :=
  congrArg (fun x => x.2.2) (clearStores_roll (t := t) (m := m.workless t ctx) (ctx := ctx))

theorem teardown_forgets (hm : SMap.wf m.contexts = true) : SMap.get? (teardown t ctx m).2.contexts ctx.toNat = none := by
  have left : ((m.workless t ctx).clearStores t ctx).contexts = m.contexts :=
    (Mach.contexts_of_desk cleared_desk).trans evictGroups_desk.1
  rw [teardown_contexts, left, SMap.get?_erase hm, if_pos rfl]

theorem teardown_keeps_host (hm : m.HostFree) : (teardown t ctx m).2.host = m.host :=
  (Mach.host_of_desk cleared_desk).trans (evictGroups_desk.2 hm)

theorem teardown_no_launch : ∀ l ∈ (teardown t ctx m).2.launches, l.ctx ≠ ctx := by
  rw [teardown_launches, cleared_launches]
  exact fun l hl => of_decide_eq_true (List.mem_filter.1 hl).2

theorem teardown_no_request : ∀ r ∈ (teardown t ctx m).2.requests, rCtx r.words ≠ ctx := by
  rw [teardown_requests]
  intro r hr
  have listed : r.words ∈ ((m.workless t ctx).clearStores t ctx).requests.map Request.words := List.mem_map_of_mem hr
  rw [cleared_requests] at listed
  obtain ⟨r', hr', same⟩ := List.mem_map.1 listed
  rw [← same]
  simpa using (List.mem_filter.1 hr').2

end

/-- A machine of which no core listed copies into host memory. -/
theorem hostFree_of_cores (h : ∀ p ∈ m.cores, ∀ o ∈ p.2.ops, ∀ y, o.kind = .cpy y → y.dsp ≠ 4) : m.HostFree := by
  intro d o ho
  rw [Mach.core, SMap.getD] at ho
  cases hk : SMap.get? m.cores d with
  | none => rw [hk] at ho; cases ho
  | some k => rw [hk] at ho; exact h _ (SMap.mem_of_get? hk) o ho

end

/-! ### CONTEXT_LOSS -/

section
variable {s : State} {n : Notice} {rest : List Notice}

theorem contextLoss_idle (h : s.mach.notices = []) : contextLoss s = s := by simp [contextLoss, h]

theorem contextLoss_unknown (h : s.mach.notices = n :: rest) (hx : SMap.get? s.mach.contexts n.ctx.toNat = none) :
    contextLoss s = s.on { s.mach with notices := rest } := by
  simp [contextLoss, h, hx, State.on]

/-- The state after the loss of a context: the machine of its teardown with its record written. -/
def State.lostContext (s : State) (n : Notice) (rest : List Notice) (x : Context) : State :=
  let td := teardown s.trust n.ctx { s.mach with notices := rest }
  { s with
    mach := { td.2 with
      notices := td.2.notices.filter fun y => decide (y.ctx ≠ n.ctx)
      host := td.2.host.hostWrite (x.func.toNat * 2 ^ 64) x.lossAddr.toNat (wordsBytes (lossRecord n td.1)) }
    trust := { s.trust with xtsKeys := SMap.erase s.trust.xtsKeys n.ctx.toNat } }

theorem contextLoss_known {x : Context} (h : s.mach.notices = n :: rest) (hx : SMap.get? s.mach.contexts n.ctx.toNat = some x) :
    contextLoss s = s.lostContext n rest x := by
  simp [contextLoss, h, hx, State.lostContext]

end
end Sys2Proof.Machine
end

