-- ==== Sys2Proof/Proofs/ErrorAndPeerEvents.lean ====
section
/-! The statement about errors, losses, audits, retention and other packages. -/

namespace Sys2Proof.Machine

/-! ### Errors that events report (R392 to R396) -/

section
variable {s : State} {die b : Nat} {i : ErrInfo} {k : Bank}

theorem exec_correctedError (hlive : s.trust.isLive die = true) (hb : b < 8) :
    exec (.correctedError die b i) s = .next (s.on (s.mach.bankError die b false false i)) :=
  State.next_on (if_pos (by simp [hlive, hb]))

theorem exec_correctedError_dead (h : s.trust.isLive die = false ∨ 8 ≤ b) : exec (.correctedError die b i) s = .next s := by
  refine State.next_on (if_neg ?_)
  obtain hlive | hb := h
  · simp [hlive]
  · simp [Nat.not_lt.2 hb]

/-- A bank that took two uncorrectable errors in a cycle holds the first one's record, and knows of the overrun. -/
theorem Bank.errors_pair {x y : BankErr} (hx : x.uc = true) (hy : y.uc = true) (h : k.valid = false ∨ k.uc = false) :
    (k.errors [x, y]).info = { x.info with bits := 0 } ∧ (k.errors [x, y]).ovr = true ∧ (k.errors [x, y]).seq = k.seq + 1 := by
  have first := Bank.error_uncorrectable (cons := x.cons) (i := x.info) h
  have both : k.errors [x, y] = (k.error true x.cons x.info).error true y.cons y.info := by
    rw [Bank.errors, List.foldl_cons, List.foldl_cons, List.foldl_nil, hx, hy]
  rw [both, first, Bank.error_overrun rfl rfl]
  exact ⟨rfl, rfl, rfl⟩

/-- The record of a corrected error, in a bank that held none. -/
theorem Mach.bankError_bank_corrected {m : Mach} (hfree : SMap.get? m.cycleErrs (8 * die + b) = none)
    (hv : (m.bank die b).valid = false) :
    ((m.bankError die b false false i).bank die b).valid = true ∧ ((m.bankError die b false false i).bank die b).uc = false ∧
      ((m.bankError die b false false i).bank die b).info = i := by
  rw [Mach.bankError_bank_first hfree, Bank.error_corrected hv]
  exact ⟨rfl, rfl, rfl⟩

/-- The record of an error that is consumed, in a bank that held none. -/
theorem Mach.consume_bank {m : Mach} {ctx : BitVec 6} {cdie core seq : Nat} (hfree : SMap.get? m.cycleErrs (8 * die + b) = none)
    (hv : (m.bank die b).valid = false) :
    ((m.consume die b i ctx cdie core seq).bank die b).uc = true ∧ ((m.consume die b i ctx cdie core seq).bank die b).cons = true := by
  have recorded : (m.consume die b i ctx cdie core seq).bank die b = (m.bank die b).error true true i :=
    Mach.bankError_bank_first hfree
  rw [recorded, Bank.error_uncorrectable (Or.inl hv)]
  exact ⟨rfl, rfl⟩

/-- What an uncorrectable error leaves: its record, and a notice where a context owns it. -/
def Reported (m m' : Mach) (die b : Nat) (i : ErrInfo) (own : Option (BitVec 6)) : Prop :=
  (m.bank die b).Records (m'.bank die b) i own ∧ (own = none → m'.notices = m.notices) ∧
    ∀ x, own = some x → ∃ n, m'.notices = m.notices ++ [n] ∧ n.ctx = x ∧ n.reason = 1 ∧ n.addr = i.addr

/-- An error that some context owns is consumed at once. -/
theorem Mach.consume_reported {m : Mach} {ctx : BitVec 6} {cdie core seq : Nat} {own : Option (BitVec 6)} (ho : own = some ctx)
    (hfree : SMap.get? m.cycleErrs (8 * die + b) = none) :
    Reported m (m.consume die b { i with ctx := own.or i.ctx } ctx cdie core seq) die b i own := by
  subst ho
  have record : (m.consume die b { i with ctx := some ctx } ctx cdie core seq).bank die b =
      (m.bank die b).error true true { i with ctx := some ctx } := Mach.bankError_bank_first hfree
  refine ⟨?_, fun h => (nomatch h), fun x hx => ?_⟩
  · rw [Option.some_or, record]
    exact Bank.error_records (own := some ctx)
  · cases hx
    exact ⟨_, rfl, rfl, rfl, rfl⟩

/-- An error that no context owns is recorded, its words poisoned. -/
theorem Mach.poisonAt_reported {m : Mach} {t : Trust} {own : Option (BitVec 6)} (ho : own = none)
    (hfree : SMap.get? m.cycleErrs (8 * die + b) = none) :
    Reported m ((m.poisonAt t die b i).bankError die b true false i) die b i own := by
  subst ho
  obtain ⟨banks, errs, notices, _⟩ := m.poisonAt_frame t die b i
  have free : SMap.get? (m.poisonAt t die b i).cycleErrs (8 * die + b) = none := errs ▸ hfree
  have record : ((m.poisonAt t die b i).bankError die b true false i).bank die b = (m.bank die b).error true false i :=
    (Mach.bankError_bank_first free).trans (congrArg (fun x => (SMap.getD x (8 * die + b) Bank.reset).error true false i) banks)
  exact ⟨record ▸ Bank.error_records (own := none), fun _ => notices, fun x hx => nomatch hx⟩

end

/-- Settles O51: each event by the laws of its parts. -/
theorem errorAndPeerEvents : Obligations.ErrorAndPeerEvents := by
  refine ⟨?corrected, ?order, ?uncorrectable, ?read, fun m die b i => rfl, ?corefail, ?loss, ?audit, ?links, ?abort, ?retention,
    ?verdict, ?peerRead, ?peerAcc, ?peerLost⟩
  case corrected =>
    intro s die b i m k up first after
    refine ⟨fun hlive hb hfree => ?_, fun hlive hb k0 l hl => ?_, exec_correctedError_dead⟩
    · have event := exec_correctedError (i := i) hlive hb
      rw [Mach.bankError_first hfree] at event
      refine ⟨fun hv => ?_, fun hv => ?_⟩
      · rw [Bank.error_counts hv] at event
        exact event
      · rw [Bank.error_corrected hv] at event
        exact event
    · exact ⟨_, exec_correctedError hlive hb, Mach.bankError_bank_again hl⟩
  case order =>
    intro k x y
    refine ⟨fun hx hy ht hk l hl => ?_, fun hx hy => ?_⟩
    · obtain ⟨hxy, hyx⟩ := BankErr.before_of_tile hx hy ht
      rw [BankErr.insert_before hxy, BankErr.insert_after hyx] at hl
      have both : l = [x, y] := by simpa using hl
      exact both ▸ Bank.errors_pair hx hy hk
    · obtain ⟨hxy, hyx⟩ := BankErr.before_of_uc hx hy
      exact ⟨BankErr.insert_before hxy, BankErr.insert_after hyx⟩
  case uncorrectable =>
    intro s die b i m k hit own byRead hread hlive hb hfree
    cases hh : hit with
    | some r =>
      have hb3 : b = 3 := (Option.ite_none_right_eq_some.1 hh).1.1
      have hown : own = some r.ctx := by simp only [own, hh, Option.map_some, Option.some_or]
      have owner : some r.ctx = own.or i.ctx := by rw [hown]; rfl
      have event := uncorrectableError_rack (m := m) (byRead := byRead) hlive hb hh
      rw [owner] at event
      obtain ⟨⟨overrun, record⟩, quiet, notice⟩ :=
        Mach.consume_reported (m := m.setKey r.rid .gone) (i := i) (cdie := die) (core := 0x3F) (seq := 0) hown hfree
      refine ⟨_, State.next_on event, overrun, record, fun h => ?_, fun h => ?_, quiet, notice, fun r' hr' => ?_⟩
      · omega
      · omega
      · cases hr'
        exact fun x hx => Mach.setKey_gone_lost x hx
    | none =>
      by_cases hc : (b = 3 ∨ b = 6) ∧ i.ctx ≠ none
      · obtain ⟨hb36, hctx⟩ := hc
        obtain ⟨ctx, hctx⟩ := Option.ne_none_iff_exists'.1 hctx
        have hown : own = some ctx := by simp only [own, hh, Option.map_none, Option.none_or, if_pos hb36, hctx]
        have whole : ({ i with ctx := own.or i.ctx } : ErrInfo) = i := by rw [hown, Option.some_or, ← hctx]
        have reported := Mach.consume_reported (m := m) (i := i) (cdie := die) (core := 0x3F) (seq := 0) hown hfree
        rw [whole] at reported
        obtain ⟨⟨overrun, record⟩, quiet, notice⟩ := reported
        refine ⟨_, State.next_on (uncorrectableError_context hlive hb hh hb36 hctx), overrun, record, fun h => ?_, fun h => ?_,
          quiet, notice, fun r' hr' => nomatch hr'⟩ <;> omega
      · have hctx (h : b = 3 ∨ b = 6) : i.ctx = none := by_contra fun hn => hc ⟨h, hn⟩
        have hown : own = none := by
          by_cases h36 : b = 3 ∨ b = 6
          · simp only [own, hh, Option.map_none, Option.none_or, if_pos h36, hctx h36]
          · simp only [own, hh, Option.map_none, Option.none_or, if_neg h36]
        have unread : ¬ (byRead && decide (b ≤ 2 ∨ b = 4)) = true := by
          rw [Bool.and_eq_true, decide_eq_true_eq]
          rintro ⟨hr, h⟩
          have := hread hr
          omega
        obtain ⟨⟨overrun, record⟩, quiet, notice⟩ := Mach.poisonAt_reported (t := s.trust) (m := m) (i := i) hown hfree
        exact ⟨_, State.next_on ((uncorrectableError_plain hlive hb hh hctx).trans (if_neg unread)), overrun, record,
          Mach.poisonAt_global s.trust m die b i, Mach.poisonAt_dram s.trust m die b i, quiet, notice, fun r' hr' => nomatch hr'⟩
  case read =>
    intro s die b i hlive hb
    have plain : b ≠ 3 ∧ b ≠ 6 ∧ b < 8 ∧ (b ≤ 2 ∨ b = 4) := by
      simp only [List.mem_cons, List.not_mem_nil, or_false] at hb
      omega
    obtain ⟨h3, h6, h8, hfound⟩ := plain
    have event := uncorrectableError_plain (m := s.mach) (i := i) (byRead := true) hlive h8 (Mach.rackHit_none h3)
      fun h => (h.elim h3 h6).elim
    rw [if_pos (by simp [hfound])] at event
    obtain ⟨banks, _, notices, _⟩ := s.mach.poisonAt_frame s.trust die b i
    exact ⟨_, State.next_on event, banks, notices, Mach.poisonAt_global _ _ _ _ _, Mach.poisonAt_dram _ _ _ _ _⟩
  case corefail =>
    intro s c m hlive hmask
    refine ⟨fun hg => State.next_on (coreFail_empty hlive hmask hg), fun g hg => ?_⟩
    have event : exec (.corefail c) s = .next (s.on (coreFail s.trust c s.mach)) := rfl
    rw [coreFail_group hlive hmask hg] at event
    obtain ⟨notices, core⟩ := foldl_gone_frame (m := m) (c := c) (m.regions.filter fun r => keyFails (m.core c) g.gid r)
    refine ⟨_, _, event, ?_, fun q => ?_, fun r hr hk r' hr' hrid => ?_, congrArg (· ++ _) notices, ?_, ?_⟩
    · exact congrArg Core.failed (Mach.onCore_core _ _ _)
    · refine (congrArg (fun k : Core => (k.seq q).stopped) (Mach.onCore_core _ _ _)).trans ?_
      exact Core.fails_stopped _ q
    · exact foldl_gone_lost (Or.inl ⟨r, List.mem_filter.2 ⟨hr, hk⟩, hrid.symm⟩) r' hr' rfl
    · exact ⟨failNotice s.trust c g.ctx, List.mem_map.2 ⟨g.ctx, List.mem_eraseDups.2 (List.mem_cons_self ..), rfl⟩, rfl⟩
    · rintro n hn
      obtain ⟨x, _, rfl⟩ := List.mem_map.1 hn
      exact ⟨rfl, rfl⟩
  case loss =>
    intro s n rest m
    refine ⟨fun h => congrArg Host.Outcome.next (contextLoss_idle h),
      fun h hx => congrArg Host.Outcome.next (contextLoss_unknown h hx), ?_⟩
    intro x h hx hwf hkeys
    refine ⟨s.lostContext n rest x, lossRecord n (teardown s.trust n.ctx { m with notices := rest }).1,
      congrArg Host.Outcome.next (contextLoss_known h hx), teardown_forgets hwf, ?_, ?_, ?_, teardown_no_launch,
      teardown_no_request, ?_, rfl, ⟨_, rfl, fun hc => teardown_keeps_host (hostFree_of_cores hc)⟩, rfl, rfl, rfl, rfl, rfl, rfl⟩
    · exact (SMap.get?_erase hkeys _ _).trans (if_pos rfl)
    · exact fun r hr => of_decide_eq_true (List.mem_filter.1 hr).2
    · exact fun q hq => of_decide_eq_true (List.mem_filter.1 hq).2
    · exact fun y hy => of_decide_eq_true (List.mem_filter.1 hy).2
  case audit =>
    intro s die kind link diff m key l
    refine ⟨fun h => State.next_on (snaggingAudit_idle h), fun hlive hkind hlink hdue => ⟨fun hdiff => ?_, fun hdiff => ?_⟩⟩
    · exact State.next_on (snaggingAudit_resets hlive hkind hlink hdue hdiff)
    · refine ⟨_, State.next_on (snaggingAudit_measures hlive hkind hlink hdue hdiff), ?_, fun h => ?_, fun h hv hfree => ?_⟩
      · split <;> rfl
      · rw [if_pos h]
      · rw [if_neg h]
        obtain ⟨valid, uc, info⟩ := Mach.bankError_bank_corrected
          (m := { m with links := SMap.set m.links key ⟨diff, l.resets, m.clockOf die⟩ })
          (i := ⟨BitVec.ofNat 64 (kind * 2 ^ 8 + link), 0, none, 0x3F, 0, BitVec.ofInt 32 diff⟩) hfree hv
        exact ⟨valid, uc, congrArg ErrInfo.addr info, congrArg ErrInfo.syndrome info⟩
  case links => exact fun die link => auditedLink_ucie
  case abort =>
    intro s c o op g x m
    refine ⟨fun ho => State.next_on (hostReadAbort_idle ho), fun ho hk => ⟨fun h => State.next_on (hostReadAbort_other ho hk h),
      fun hssp hbegun hbuf => ?_⟩⟩
    obtain ⟨notices, banks, errs⟩ := Mach.onGroupCore_reports (m := m) (c := c) (g := g)
      fun k => { k with ops := k.ops.filter fun x => decide (x.id ≠ o) }
    refine ⟨_, _, State.next_on (hostReadAbort_aborts ho hk hssp hbegun hbuf), congrArg (· ++ [_]) notices, rfl, rfl,
      fun hv hfree => ?_⟩
    refine Mach.consume_bank (die := 0) (b := 7) ((congrArg (fun x => SMap.get? x 7) errs).trans hfree) ?_
    exact (congrArg (fun x => (SMap.getD x 7 Bank.reset).valid) banks).trans hv
  case retention =>
    intro s die tile m key x entry exit hlive hdie htile
    have live := sliceLive_ok hlive hdie htile
    refine ⟨fun hr hidle => ?_, fun h => State.next_on (retentionEntry_stays rfl h), fun hr hw hdone => ?_, fun h => ?_⟩
    · have enters := retentionEntry_enters rfl live hr hidle
      rw [entryCycles_eq] at enters
      exact State.next_on enters
    · exact State.next_on (retentionExit_leaves rfl live hr hw (exitCycles_eq (die := die) ▸ hdone))
    · exact State.next_on (retentionExit_stays rfl (exitCycles_eq (die := die) ▸ h))
  case verdict =>
    intro s p m
    refine ⟨fun h => State.next_on (unreachableVerdict_known h), fun hp hm => ⟨_, rfl, unreachableVerdict_unreachable hp hm,
      fun n ch h he => unreachableVerdict_breaks hp hm h he⟩⟩
  case peerRead =>
    intro s p who a n m found ev answer
    refine ⟨fun h => State.next_on (peerAccess_cut h), fun code x h hf => ?_, fun h hf hs => ?_, fun h hf hs hclean => ?_⟩
    all_goals refine State.next_on ((if_neg (unreachable_any h)).trans ?_)
    · exact peerRun_trap hf
    · exact peerRun_asleep hf hs
    · refine (peerRun_awake hf hs).trans ?_
      simp only [Mach.piecesPoison_none (m := s.mach) hclean]
      rfl
  case peerAcc =>
    intro s p who f w32 a v cmp sc od m x k seat own r answer asks acts hp
    refine ⟨fun h => ?_, fun h hc => ?_, fun h hok hc => ?_, fun h => ?_, fun h hs => ?_, fun h hs hclean => ?_⟩
    · exact State.next_on ((peerAccess_admission hp).trans (peerAdmit_trap (peerAccCheck_space h)))
    · refine State.next_on ((peerAccess_admission hp).trans (peerAdmit_trap ((peerAccCheck_common h).trans (if_neg ?_))))
      obtain hc | hc := hc <;> simp [hc]
    · exact State.next_on ((peerAccess_admission hp).trans (peerAdmit_ok ((peerAccCheck_common h).trans (if_pos (by simp [hok, hc])))))
    · exact State.next_on ((peerAccess_acc hp).trans (peerAcc_unadmitted h))
    · exact State.next_on ((peerAccess_acc hp).trans (peerAcc_asleep h hs))
    · exact State.next_on ((peerAccess_acc hp).trans (peerAcc_done h hs hclean))
  case peerLost => exact fun s p ctx => ⟨_, rfl, fun n ch h he => peerContextLost_breaks h he⟩

end Sys2Proof.Machine
end
